-- ==== Sys2Proof/Word.lean ====
section
/-! DEFINITION. The machine's word and byte, and their plainest arithmetic (R2, R3). -/

namespace Sys2Proof

/-- A 64-bit register, instruction word or literal. -/
abbrev Word := BitVec 64

/-- One byte of memory. -/
abbrev Byte := BitVec 8

/-- Field(word, hi, lo) of R69, on a natural number. -/
def field (w : Nat) (hi lo : Nat) : Nat := w / 2 ^ lo % 2 ^ (hi - lo + 1)

end Sys2Proof
end

