-- ==== Sys2Proof/Machine/Crc.lean ====
section
/-! DEFINITION. The two cyclic codes of the package: the link's CRC-32C with its seeds (R323) and the CRC-64 of message tags
and region signatures (R327, R405). -/

namespace Sys2Proof.Machine

/-- One bit step of a most-significant-bit-first CRC-64. -/
def crc64Bit (c : BitVec 64) : BitVec 64 := if c.getLsbD 63 then (c <<< 1) ^^^ 0x42F0E1EBA9EA3693 else c <<< 1

def crc64Byte (c : BitVec 64) (b : Byte) : BitVec 64 :=
  crc64Bit (crc64Bit (crc64Bit (crc64Bit (crc64Bit (crc64Bit (crc64Bit (crc64Bit (c ^^^ (b.setWidth 64 <<< 56)))))))))

/-- The CRC-64 of bytes in order, from zero. -/
def crc64 (l : List Byte) : BitVec 64 := l.foldl crc64Byte 0

/-- One bit step of the reflected CRC-32C. -/
def crc32Bit (c : BitVec 32) : BitVec 32 := if c.getLsbD 0 then (c >>> 1) ^^^ 0x82F63B78 else c >>> 1

def crc32Byte (c : BitVec 32) (b : Byte) : BitVec 32 :=
  crc32Bit (crc32Bit (crc32Bit (crc32Bit (crc32Bit (crc32Bit (crc32Bit (crc32Bit (c ^^^ b.setWidth 32))))))))

/-- The CRC-32C of bytes in order, from a seed, with the final exclusive-or. -/
def crc32c (seed : BitVec 32) (l : List Byte) : BitVec 32 := l.foldl crc32Byte seed ^^^ 0xFFFFFFFF

/-- The seed of a data flit with sequence number `s`, and that of every control flit (R323). -/
def dataSeed (s : Nat) : BitVec 32 := BitVec.ofNat 32 (s % 2 ^ 24 ^^^ 0x5AC3E1)
def ctlSeed : BitVec 32 := 0xA53C1E

end Sys2Proof.Machine
end

