-- ==== Sys2Proof/Config.lean ====
section
/-! DEFINITION. What an implementation fixes and what the spec leaves open: opaque values, of which nothing can be
proved. -/

namespace Sys2Proof

/-- The free value number `n` (log 2): a value the spec leaves undefined, a fresh one each time the machine's counter
`State.free` advances. -/
opaque Config.freeWord : Nat → Word

/-- What a byte of a context save area holds after the package has spilled state into it in a layout of its own, by spill and
location (R282, R312, R384; log 72). -/
opaque Config.spilled : Nat → Nat → Byte

/-- Where a line of a package's memory stands (R227, R409: not visible to programs): channel, controller, die, bank and row,
packed into one number (log 40). -/
opaque Config.memPlace : Nat → Nat

/-- Whether the plane path shows a store into a ready row-major tile that no TREADY has followed (R291: as it stood or as the store
left it, byte by byte), by cycle and location (log 69). -/
opaque Config.planePath : Nat → Nat → Bool

/-- Fifteen times the unit of its controller's memory in which a line of memory stands, plus its place among the unit's data lines
(R409: not visible to programs; log 70). -/
opaque Config.checkLine : Nat → Nat

/-- How many entries beyond 65,536 an 8 MiB directory cache holds: the spec gives no size of an entry (R335; log 57). -/
opaque Config.dirEntries : Nat

/-- The SHA3-512 digest (FIPS 202, not in the spec) of a message: 64 bytes (R421, R423, R426; log 30). -/
opaque Config.sha3 : List Byte → BitVec 512

/-- The ML-DSA-87 signature (FIPS 204, not in the spec) over a digest with the identity key of a package: 4,627 bytes (R421, R423;
log 30). -/
opaque Config.sign : Nat → BitVec 512 → BitVec 37016

/-- Whether a signature over a digest verifies against a public key (R421, R426; log 30). -/
opaque Config.verify : List Byte → BitVec 512 → List Byte → Bool

/-- The Rhavon key that the ROM holds (R421; log 30). -/
opaque Config.rhavonKey : List Byte

end Sys2Proof
end

