-- ==== Sys2Proof/Syntax.lean ====
section
/-! DEFINITION. The instruction set as syntax: one constructor of `Instr` for each row of spec/opcode_table.json,
that is the operations of R86 (COLL, THRCTL and CTXSW one constructor for each of their operations) and the
part's other steps (events of engines, links, homes, host and management). -/

namespace Sys2Proof

/-- The special registers of operand codes 0x50 to 0x5F (R59). -/
inductive Special where
  | zero | tid | rank | gsize | slot | core | die | pkg | cell | launch | stage | clock | gen | ntid | quad | one
  deriving DecidableEq, Repr

/-- A source operand (R59): g0-g63, an indirect register with or without step, a special register, a small
immediate (index 0 to 30 for -15 to +15) or the literal that follows the word. -/
inductive Opd where
  | reg (n : BitVec 6)
  | ind (i : BitVec 3) (step : Bool)
  | spec (k : Special)
  | imm (k : Fin 31)
  | lit (v : Word)
  deriving DecidableEq, Repr

/-- A source field: its operand and its last-use flag (R58, R66). -/
structure Src where
  opd : Opd
  lu : Bool
  deriving DecidableEq, Repr

/-- A destination field (R62). -/
inductive Dst where
  | reg (n : BitVec 6)
  | ind (i : BitVec 3) (step : Bool)
  | zero
  deriving DecidableEq, Repr

/-- Element width of R67: one of 64, two of 32, four of 16, eight of 8 bits. -/
inductive Width where
  | w64 | w32 | w16 | w8
  deriving DecidableEq, Repr

/-- The integer modifier (R67): width, signed, and saturate or high half. -/
structure IMod where
  w : Width
  sgn : Bool
  sat : Bool
  deriving DecidableEq, Repr

/-- The vector formats of R25. -/
inductive FFmt where
  | f64 | f32 | bf16 | f16
  deriving DecidableEq, Repr

/-- The rounding modes (R67). -/
inductive Rnd where
  | rne | rz | ru | rd
  deriving DecidableEq, Repr

/-- The floating-point modifier (R67). -/
structure FMod where
  fmt : FFmt
  rnd : Rnd
  deriving DecidableEq, Repr

/-- The atomic modifier (R92): 32 bits, signed, acquire, release. -/
structure AMod where
  w32 : Bool
  sgn : Bool
  acq : Bool
  rel : Bool
  deriving DecidableEq, Repr

/-- Access sizes (R92). -/
inductive Size where
  | b1 | b2 | b4 | b8 | b16
  deriving DecidableEq, Repr

/-- The load and store modifier (R92). -/
structure MMod where
  sz : Size
  sx : Bool
  deriving DecidableEq, Repr

/-- Cache hints (R68). -/
inductive Hint where
  | dflt | evict | keep | noalloc
  deriving DecidableEq, Repr

/-- Scopes (R92, R242). -/
inductive Scope where
  | thread | group | core | die | package | cell | rack
  deriving DecidableEq, Repr

/-- Kinds of FENCE (R270). -/
inductive FenceKind where
  | loads | stores | both | engines
  deriving DecidableEq, Repr

/-- Compare conditions (R161, R171). -/
inductive Cond where
  | eq | ne | lt | le | gt | ge
  deriving DecidableEq, Repr

/-- Operations of MSKOP (R92). -/
inductive MskOp where
  | and | or | xor | andn | not | copy | clr | set
  deriving DecidableEq, Repr

/-- Reduction codes of GRED and GSCAN (R92). -/
inductive RedOp where
  | add64 | add32 | smin64 | smin32 | smax64 | smax32 | umin64 | umax64 | fadd64 | fadd32 | fmin32 | fmax32
  | and | or | xor
  deriving DecidableEq, Repr

/-- Tile states (R284). -/
inductive TileState where
  | empty | filling | ready | draining
  deriving DecidableEq, Repr

/-- A predicate number with its negate bit (raw fields). -/
structure PredN where
  p : BitVec 3
  neg : Bool
  deriving DecidableEq, Repr

/-- What every word carries: two guards with their negate bits, and the park bit (R58, R64, R65). -/
structure Frame where
  ga : PredN
  gb : PredN
  park : Bool
  deriving DecidableEq, Repr

/-- Destination and one source. -/
structure O1 where
  d : Dst
  a : Src
  deriving DecidableEq, Repr

/-- Destination and two sources. -/
structure O2 where
  d : Dst
  a : Src
  b : Src
  deriving DecidableEq, Repr

/-- Destination and three sources. -/
structure O3 where
  d : Dst
  a : Src
  b : Src
  c : Src
  deriving DecidableEq, Repr

/-- Destination and four sources. -/
structure O4 where
  d : Dst
  a : Src
  b : Src
  c : Src
  e : Src
  deriving DecidableEq, Repr

/-- Two sources. -/
structure S2 where
  a : Src
  b : Src
  deriving DecidableEq, Repr

/-- Four sources. -/
structure S4 where
  a : Src
  b : Src
  c : Src
  e : Src
  deriving DecidableEq, Repr

/-- What an error in a word of the package's SRAM comes to at a read (R414): there is none, its code corrects it, or it does not. -/
inductive Upset where
  | none | fixed | lost
  deriving DecidableEq, Repr

/-- What proves wrong in an issue pipe as it picks: nothing, a register bank's word of a thread, and whether its code corrects it
(R414), or a lane that errs by a pattern in so many words (R400). -/
inductive PickErr where
  | none
  | bank (tk : Nat) (n : BitVec 6) (hard : Bool)
  | lane (lane pattern left : Nat)
  deriving DecidableEq, Repr

/-- Which of a package's caches a line leaves: those of its cores, those of the home, or the directory's (R335, R336, R414). -/
inductive CacheK where
  | agent | home | dir
  deriving DecidableEq, Repr

/-- The frame that brings an RDMA operation: its queue pair, and whether it came marked for congestion (R11). -/
structure QpFrame where
  qp : Nat
  ce : Bool := false
  deriving DecidableEq, Repr

/-- The instructions and events, one constructor a row of spec/opcode_table.json. A word's constructor carries its
frame first; an event's constructor carries the numbers that say which thing it happens to and, where it is a
physical happening, what it was. -/
inductive Instr where
  | iadd (f : Frame) (m : IMod) (o : O2)
  | isub (f : Frame) (m : IMod) (o : O2)
  | iadds (f : Frame) (m : IMod) (o : O2) (pe : BitVec 3)
  | isubs (f : Frame) (m : IMod) (o : O2) (pe : BitVec 3)
  | imul (f : Frame) (m : IMod) (o : O2)
  | imulh (f : Frame) (m : IMod) (o : O2)
  | imad (f : Frame) (m : IMod) (o : O3)
  | imadw (f : Frame) (m : IMod) (o : O3)
  | idiv (f : Frame) (m : IMod) (o : O2)
  | irem (f : Frame) (m : IMod) (o : O2)
  | imin (f : Frame) (m : IMod) (o : O2)
  | imax (f : Frame) (m : IMod) (o : O2)
  | iabs (f : Frame) (m : IMod) (o : O1)
  | ineg (f : Frame) (m : IMod) (o : O1)
  | idot4 (f : Frame) (m : IMod) (o : O3)
  | idot2 (f : Frame) (m : IMod) (o : O3)
  | isad (f : Frame) (m : IMod) (o : O3)
  | iaddc (f : Frame) (m : IMod) (o : O2) (pc : PredN) (pe : BitVec 3)
  | lea (f : Frame) (o : O2) (sh : BitVec 6)
  | mov (f : Frame) (o : O1)
  | movi (f : Frame) (m : IMod) (d : Dst) (imm : BitVec 28)
  | movhi (f : Frame) (o : O2)
  | sel (f : Frame) (o : O2) (pc : PredN)
  | iclamp (f : Frame) (m : IMod) (o : O3)
  | and (f : Frame) (o : O2)
  | or (f : Frame) (o : O2)
  | xor (f : Frame) (o : O2)
  | andn (f : Frame) (o : O2)
  | not (f : Frame) (o : O1)
  | bfn3 (f : Frame) (o : O3) (tab : BitVec 8)
  | shl (f : Frame) (m : IMod) (o : O2)
  | shr (f : Frame) (m : IMod) (o : O2)
  | sar (f : Frame) (m : IMod) (o : O2)
  | rol (f : Frame) (m : IMod) (o : O2)
  | ror (f : Frame) (m : IMod) (o : O2)
  | fshf (f : Frame) (m : IMod) (o : O3)
  | popc (f : Frame) (m : IMod) (o : O1)
  | clz (f : Frame) (m : IMod) (o : O1)
  | ctz (f : Frame) (m : IMod) (o : O1)
  | brev (f : Frame) (m : IMod) (o : O1)
  | bfx (f : Frame) (m : IMod) (o : O3)
  | bfi (f : Frame) (m : IMod) (o : O4)
  | prmb (f : Frame) (o : O3)
  | icmp (f : Frame) (m : IMod) (pd : BitVec 3) (o : S2) (cond : Cond) (anyE : Bool)
  | pset (f : Frame) (pd : BitVec 3) (pa : BitVec 3) (pb : BitVec 3) (tab : BitVec 4)
  | pmov (f : Frame) (o : O1) (msk : BitVec 7) (dir : Bool)
  | fadd (f : Frame) (m : FMod) (o : O2)
  | fsub (f : Frame) (m : FMod) (o : O2)
  | fmul (f : Frame) (m : FMod) (o : O2)
  | ffma (f : Frame) (m : FMod) (o : O3)
  | fmin (f : Frame) (m : FMod) (o : O2)
  | fmax (f : Frame) (m : FMod) (o : O2)
  | fabs (f : Frame) (m : FMod) (o : O1)
  | fneg (f : Frame) (m : FMod) (o : O1)
  | fcmp (f : Frame) (m : FMod) (pd : BitVec 3) (o : S2) (cond : Cond) (anyE : Bool)
  | fclass (f : Frame) (m : FMod) (o : O1)
  | fdiv (f : Frame) (m : FMod) (o : O2)
  | fsqrt (f : Frame) (m : FMod) (o : O1)
  | frcp (f : Frame) (m : FMod) (o : O1)
  | frsq (f : Frame) (m : FMod) (o : O1)
  | fex2 (f : Frame) (m : FMod) (o : O1)
  | flg2 (f : Frame) (m : FMod) (o : O1)
  | flg2p (f : Frame) (m : FMod) (o : O1)
  | fsinpi (f : Frame) (m : FMod) (o : O1)
  | fcospi (f : Frame) (m : FMod) (o : O1)
  | fdot2 (f : Frame) (m : FMod) (o : O3)
  | fscale (f : Frame) (m : FMod) (o : O2)
  | frnd (f : Frame) (m : FMod) (o : O1)
  | cvt (f : Frame) (fmt : BitVec 4) (o : O2) (cc : BitVec 4) (src : BitVec 4) (part : BitVec 3)
  | cvts (f : Frame) (fmt : BitVec 4) (o : O2) (cc : BitVec 4) (src : BitVec 4) (part : BitVec 3)
  | cvti (f : Frame) (fmt : BitVec 4) (o : O2) (cc : BitVec 4) (src : BitVec 4) (part : BitVec 3)
  | cvtf (f : Frame) (fmt : BitVec 4) (o : O2) (cc : BitVec 4) (src : BitVec 4) (part : BitVec 3)
  | packn (f : Frame) (fmt : BitVec 4) (o : O2) (cc : BitVec 4) (src : BitVec 4) (part : BitVec 3)
  | unpack (f : Frame) (fmt : BitVec 4) (o : O1) (cc : BitVec 4) (src : BitVec 4) (part : BitVec 3)
  | bxpack (f : Frame) (fmt : BitVec 4) (o : O2) (part : BitVec 3) (wide : BitVec 2) (sel : BitVec 3)
  | bxunp (f : Frame) (fmt : BitVec 4) (o : O2) (part : BitVec 3) (wide : BitVec 2) (sel : BitVec 3)
  | mxpack (f : Frame) (fmt : BitVec 4) (o : O2) (part : BitVec 3) (wide : BitVec 2) (sel : BitVec 3)
  | mxunp (f : Frame) (fmt : BitVec 4) (o : O2) (part : BitVec 3) (wide : BitVec 2) (sel : BitVec 3)
  | sclx (f : Frame) (o : O1) (sfmt : BitVec 4) (sel : BitVec 3)
  | cmode (f : Frame) (o : O2)
  | nanct (f : Frame) (d : Dst)
  | gjoin (f : Frame) (o : O2)
  | gleave (f : Frame)
  | gwait (f : Frame) (mk : BitVec 4)
  | gvote (f : Frame) (mk : BitVec 4) (pe : PredN)
  | mskop (f : Frame) (op : MskOp) (md : BitVec 4) (ma : BitVec 4) (mb : BitVec 4)
  | mskmov (f : Frame) (o : O1) (mk : BitVec 4) (dir : Bool)
  | shfl (f : Frame) (m : IMod) (o : O2) (mk : BitVec 4)
  | shflx (f : Frame) (m : IMod) (o : O2) (mk : BitVec 4)
  | shfldn (f : Frame) (m : IMod) (o : O2) (mk : BitVec 4)
  | shflup (f : Frame) (m : IMod) (o : O2) (mk : BitVec 4)
  | bcast (f : Frame) (m : IMod) (o : O2) (mk : BitVec 4)
  | gred (f : Frame) (op : RedOp) (o : O1) (mk : BitVec 4)
  | gscan (f : Frame) (op : RedOp) (o : O1) (mk : BitVec 4)
  | compress (f : Frame) (m : IMod) (o : O2) (mk : BitVec 4)
  | expand (f : Frame) (m : IMod) (o : O2) (mk : BitVec 4)
  | matchRank (f : Frame) (m : IMod) (o : O1) (mk : BitVec 4)
  | ginfo (f : Frame) (d : Dst)
  | bra (f : Frame) (off : BitVec 35)
  | brx (f : Frame) (a : Src)
  | call (f : Frame) (off : BitVec 35)
  | callx (f : Frame) (a : Src)
  | ret (f : Frame)
  | exit (f : Frame)
  | yield (f : Frame)
  | nop (f : Frame)
  | loop (f : Frame) (d : Dst) (off : BitVec 28)
  | trap (f : Frame) (n : BitVec 14)
  | brk (f : Frame) (n : BitVec 14)
  | waita (f : Frame) (o : O3)
  | sleep (f : Frame) (a : Src)
  | ld (f : Frame) (sz : MMod) (h : Hint) (o : O1) (off : BitVec 14)
  | st (f : Frame) (sz : MMod) (h : Hint) (o : S2) (off : BitVec 14)
  | ldacq (f : Frame) (sz : MMod) (h : Hint) (o : O1) (off : BitVec 14)
  | strel (f : Frame) (sz : MMod) (h : Hint) (o : S2) (off : BitVec 14)
  | ldvt (f : Frame) (sz : MMod) (h : Hint) (o : O1) (off : BitVec 14)
  | stvt (f : Frame) (sz : MMod) (h : Hint) (o : S2) (off : BitVec 14)
  | ldls (f : Frame) (sz : MMod) (h : Hint) (o : O1) (off : BitVec 14)
  | stls (f : Frame) (sz : MMod) (h : Hint) (o : S2) (off : BitVec 14)
  | ldgx (f : Frame) (sz : MMod) (h : Hint) (o : O2) (off : BitVec 14)
  | pref (f : Frame) (h : Hint) (a : Src) (off : BitVec 14)
  | cflush (f : Frame) (h : Hint) (a : Src) (off : BitVec 14)
  | cinv (f : Frame) (h : Hint) (a : Src) (off : BitVec 14)
  | aadd (f : Frame) (m : AMod) (h : Hint) (o : O2)
  | amin (f : Frame) (m : AMod) (h : Hint) (o : O2)
  | amax (f : Frame) (m : AMod) (h : Hint) (o : O2)
  | aand (f : Frame) (m : AMod) (h : Hint) (o : O2)
  | aor (f : Frame) (m : AMod) (h : Hint) (o : O2)
  | axor (f : Frame) (m : AMod) (h : Hint) (o : O2)
  | axchg (f : Frame) (m : AMod) (h : Hint) (o : O2)
  | acas (f : Frame) (m : AMod) (h : Hint) (o : O3) (pe : BitVec 3)
  | aincw (f : Frame) (m : AMod) (h : Hint) (o : O2)
  | adecw (f : Frame) (m : AMod) (h : Hint) (o : O2)
  | abadd (f : Frame) (m : AMod) (h : Hint) (o : O3) (pe : BitVec 3)
  | afadd (f : Frame) (m : AMod) (h : Hint) (o : O2)
  | redadd (f : Frame) (m : AMod) (h : Hint) (o : S2)
  | redfadd (f : Frame) (m : AMod) (h : Hint) (o : S2)
  | redmin (f : Frame) (m : AMod) (h : Hint) (o : S2)
  | redmax (f : Frame) (m : AMod) (h : Hint) (o : S2)
  | fence (f : Frame) (sc : Scope) (h : Hint) (kind : FenceKind)
  | sdrain (f : Frame) (h : Hint)
  | barinit (f : Frame) (b : BitVec 10) (a : Src)
  | bararv (f : Frame) (d : Dst) (b : BitVec 10)
  | barwait (f : Frame) (b : BitVec 10) (a : Src)
  | barsync (f : Frame) (b : BitVec 10)
  | barqry (f : Frame) (d : Dst) (b : BitVec 10)
  | lbar (f : Frame) (d : Dst)
  | shrmap (f : Frame) (a : Src)
  | shrunmap (f : Frame)
  | rdfe (f : Frame) (o : O1)
  | wrfe (f : Frame) (o : O1)
  | qpush (f : Frame) (ga : BitVec 6) (lu : Bool) (q : BitVec 3)
  | qpop (f : Frame) (gd : BitVec 6) (q : BitVec 3) (pn : BitVec 3)
  | tdef (f : Frame) (a : Src) (t : BitVec 6)
  | tqry (f : Frame) (d : Dst) (t : BitVec 6) (wd : Bool)
  | tready (f : Frame) (t : BitVec 6)
  | tempty (f : Frame) (t : BitVec 6)
  | twait (f : Frame) (ws : TileState) (d : Dst) (t : BitVec 6)
  | tstb (f : Frame) (o : S2) (t : BitVec 6)
  | tldb (f : Frame) (d : Dst) (b : Src) (t : BitVec 6)
  | shadow (f : Frame) (o : S4)
  | publish (f : Frame) (sc : Scope) (a : Src)
  | cpy (f : Frame) (rel : Bool) (h : Hint) (o : O4)
  | cpym (f : Frame) (rel : Bool) (h : Hint) (o : O4)
  | mma (f : Frame) (h : Hint) (o : O1)
  | mmab (f : Frame) (h : Hint) (o : O1)
  | mmac (f : Frame) (h : Hint) (o : O2)
  | mepi (f : Frame) (h : Hint) (o : O4)
  | tarm (f : Frame) (h : Hint) (o : S2) (t : BitVec 6) (wr : BitVec 5)
  | route (f : Frame) (h : Hint) (o : S2) (wr : BitVec 5)
  | collBind (f : Frame) (rel : Bool) (h : Hint) (o : O4)
  | collReduceScatter (f : Frame) (rel : Bool) (h : Hint) (o : O4)
  | collAllGather (f : Frame) (rel : Bool) (h : Hint) (o : O4)
  | collAllReduceRing (f : Frame) (rel : Bool) (h : Hint) (o : O4)
  | collAllReduceTree (f : Frame) (rel : Bool) (h : Hint) (o : O4)
  | collBroadcast (f : Frame) (rel : Bool) (h : Hint) (o : O4)
  | collBarrier (f : Frame) (rel : Bool) (h : Hint) (o : O4)
  | collDrawMerge (f : Frame) (rel : Bool) (h : Hint) (o : O4)
  | cwait (f : Frame) (h : Hint) (o : O2)
  | ccancel (f : Frame) (h : Hint) (o : O1)
  | engq (f : Frame) (h : Hint) (o : O2)
  | drawl (f : Frame) (o : O2)
  | drawg (f : Frame) (o : O3)
  | dmrg (f : Frame) (lg : Bool) (o : O3)
  | gdraw (f : Frame) (lg : Bool) (o : O2) (mk : BitVec 4)
  | dseed (f : Frame) (a : Src)
  | drnd (f : Frame) (o : O1)
  | sysrd (f : Frame) (o : O1)
  | syswr (f : Frame) (o : S2)
  | injectWrite (f : Frame) (o : S2)
  | launch (f : Frame) (o : O1)
  | lwait (f : Frame) (o : O2)
  | thrctlResume (f : Frame) (o : O2)
  | thrctlRedirect (f : Frame) (o : O2)
  | thrctlKill (f : Frame) (o : O2)
  | thrctlStop (f : Frame) (o : O2)
  | thrctlGetst (f : Frame) (o : O2)
  | thrctlSetst (f : Frame) (o : O2)
  | xret (f : Frame) (a : Src)
  | barsave (f : Frame) (o : O2)
  | barrest (f : Frame) (o : O2)
  | tlbinv (f : Frame) (sc : Scope) (o : S2)
  | mapset (f : Frame) (o : O2)
  | selftest (f : Frame) (o : O1)
  | errrd (f : Frame) (o : O2)
  | featrd (f : Frame) (o : O1)
  | ctxswCreate (f : Frame) (o : O2)
  | ctxswDestroy (f : Frame) (o : O2)
  | ctxswPreempt (f : Frame) (o : O2)
  | ctxswResume (f : Frame) (o : O2)
  | ixset (f : Frame) (ix : BitVec 3) (a : Src)
  | ixget (f : Frame) (d : Dst) (ix : BitVec 3)
  | ixadv (f : Frame) (ix : BitVec 3) (a : Src) (ew : Width)
  | xacq (f : Frame)
  | xrel (f : Frame)
  | xqry (f : Frame) (d : Dst)
  | illegalInstruction (f : Frame) (code : BitVec 8) (wide : Bool)
  | pipePick (ck half : Nat) (up : PickErr)
  | heldRecordWrite (cx : Nat)
  | loadReturn (tk u : Nat) (ecc : Upset)
  | storePerform (tk u : Nat)
  | waitaWake (tk u : Nat)
  | waitaTimeout (tk u : Nat)
  | sleepExpire (tk : Nat)
  | progressWatchdog (ck ctx : Nat)
  | poolDeadlock (ck : Nat)
  | resourceRoomResume (ck half : Nat)
  | rebalance (dk : Nat)
  | launchStart (lk dk : Nat)
  | startBarrierTimeout (lk : Nat)
  | launchComplete (lk : Nat)
  | lbarRelease (lk dk : Nat)
  | treadyComplete (ck t : Nat)
  | twaitComplete (tk u : Nat)
  | copyComplete (ck u k : Nat)
  | copyFailure (ck u line : Nat)
  | slabStep (ck : Nat) (mism : Nat)
  | mmacTimeout (ck : Nat)
  | epilogueRowStep (ck k : Nat)
  | engineArbitrate (pkg port k : Nat)
  | chunkData (pkg j k : Nat)
  | chunkTriggered (pkg j k : Nat)
  | chunkAcknowledgement (pkg j : Nat)
  | barrierToken (pkg j : Nat)
  | chunkRefusal (pkg j : Nat)
  | collBindTimeout (dk comm : Nat)
  | collMatchTimeout (dk comm : Nat)
  | ringReform (dk comm : Nat)
  | dataFlit (pkg port : Nat) (err : BitVec 1024)
  | linkAck (pkg port : Nat) (err : BitVec 1024)
  | linkNak (pkg port : Nat) (err : BitVec 1024)
  | creditFlit (pkg port : Nat) (err : BitVec 1024)
  | ackTimer (pkg port : Nat)
  | retryTimeout (pkg port : Nat)
  | laneSpare (pkg port lane : Nat)
  | portDown (pkg port : Nat)
  | portUp (pkg port : Nat)
  | gets (pkg j : Nat)
  | getm (pkg j : Nat)
  | getu (pkg j : Nat)
  | putm (pkg j : Nat)
  | puto (pkg j : Nat)
  | putu (pkg j : Nat)
  | flush (pkg j : Nat)
  | inv (pkg j : Nat)
  | fwdgets (pkg j : Nat)
  | fwdgetm (pkg j : Nat)
  | collect (pkg j : Nat)
  | ack (pkg j : Nat)
  | data (pkg j : Nat)
  | nakfirewall (pkg j : Nat)
  | errsynth (pkg j : Nat)
  | homeDequeueRequest (line : Nat)
  | cacheEviction (pkg line : Nat) (cache : CacheK) (ecc : Upset)
  | requestTimeout (pkg u : Nat)
  | probe (pkg port : Nat) (err : BitVec 1024)
  | probeReply (pkg port : Nat) (err : BitVec 1024)
  | lossDeclare (pkg q : Nat)
  | lossNotice (pkg port : Nat) (err : BitVec 1024)
  | memoryScrub (line : Nat) (err : BitVec 1088)
  | laneEyeMeasure (pkg port lane : Nat) (hor ver : BitVec 8)
  | channelSpared (pkg mc ch : Nat)
  | regionCompare (tk : Nat)
  | rdmaWrite (pkg qp off : Nat) (data : List (BitVec 8)) (ce : Bool)
  | rdmaRead (pkg qp off len : Nat) (ce : Bool)
  | compareSwap (pkg qp off : Nat) (cmp swp : BitVec 64) (ce : Bool)
  | fetchAdd (pkg qp off : Nat) (add : BitVec 64) (ce : Bool)
  | invalidRequest (pkg qp : Nat) (ce : Bool)
  | featTakeWrite (pkg : Nat) (qp : QpFrame) (off : Nat) (data : List (BitVec 8))
  | featLockWrite (pkg : Nat) (qp : QpFrame) (v : BitVec 64)
  | attGo (pkg : Nat) (qp : QpFrame) (v : BitVec 64)
  | cmdFirewallEntry (pkg : Nat)
  | cmdEgressFilter (pkg : Nat)
  | cmdRateLimiter (pkg : Nat)
  | controlPageWrite (pkg : Nat) (qp : QpFrame) (off : Nat) (data : List (BitVec 8))
  | packageReset (pkg : Nat)
  | powerSample (pkg mW : Nat)
  | thermalThrottle (dk tenths : Nat)
  | thermalRecover (dk tenths : Nat)
  | thermalReset (dk tenths : Nat)
  | variableLatencyResult (tk u : Nat)
  | selftestResult (pkg j : Nat) (scanFail arrayFail : Bool) (detail : BitVec 64)
  | attestationReport (pkg : Nat)
  | commandApplied (pkg : Nat)
  | launchAnswer (lk : Nat)
  | tokenAccrual (pkg port : Nat)
  deriving DecidableEq, Repr

end Sys2Proof
end

