-- ==== Sys2Proof/Decode.lean ====
section
/-! DEFINITION. The decoder, total on any word, and the encoder (R53 to R75, R85 to R92 and the encoding tables of the
instruction chapters). A word is first cut into the fields of R58; a row of the opcode map (R86) says which fields
are operand codes, which are raw and which are unused; then the constructor is built. -/

namespace Sys2Proof

/-- The fields of an instruction word (R58). -/
structure RawW where
  md : BitVec 4
  le : Bool
  lc : Bool
  lb : Bool
  la : Bool
  e : BitVec 7
  c : BitVec 7
  b : BitVec 7
  a : BitVec 7
  d : BitVec 7
  hint : BitVec 2
  gb : PredN
  ga : PredN
  park : Bool
  op : BitVec 10
  deriving DecidableEq, Repr

/-- One bit as a word of one bit. -/
def bit (b : Bool) : BitVec 1 := BitVec.ofBool b

/-- The fields of a word. -/
def RawW.ofWord (w : Word) : RawW where
  md := w.extractLsb' 60 4
  le := w.getLsbD 59
  lc := w.getLsbD 58
  lb := w.getLsbD 57
  la := w.getLsbD 56
  e := w.extractLsb' 49 7
  c := w.extractLsb' 42 7
  b := w.extractLsb' 35 7
  a := w.extractLsb' 28 7
  d := w.extractLsb' 21 7
  hint := w.extractLsb' 19 2
  gb := ⟨w.extractLsb' 15 3, w.getLsbD 18⟩
  ga := ⟨w.extractLsb' 11 3, w.getLsbD 14⟩
  park := w.getLsbD 10
  op := w.extractLsb' 0 10

/-- The word of the fields. -/
def RawW.toWord (r : RawW) : Word :=
  r.md ++ bit r.le ++ bit r.lc ++ bit r.lb ++ bit r.la ++ r.e ++ r.c ++ r.b ++ r.a ++ r.d ++ r.hint
    ++ bit r.gb.neg ++ r.gb.p ++ bit r.ga.neg ++ r.ga.p ++ bit r.park ++ r.op

/-! ### Operand codes (R59, R62) -/

def specialOf (k : BitVec 4) : Special :=
  match k.toNat with
  | 0 => .zero | 1 => .tid | 2 => .rank | 3 => .gsize | 4 => .slot | 5 => .core | 6 => .die | 7 => .pkg
  | 8 => .cell | 9 => .launch | 10 => .stage | 11 => .clock | 12 => .gen | 13 => .ntid | 14 => .quad | _ => .one

def specialBits : Special → BitVec 4
  | .zero => 0 | .tid => 1 | .rank => 2 | .gsize => 3 | .slot => 4 | .core => 5 | .die => 6 | .pkg => 7
  | .cell => 8 | .launch => 9 | .stage => 10 | .clock => 11 | .gen => 12 | .ntid => 13 | .quad => 14 | .one => 15

/-- The operand a code names; code 0x7F takes the literal. -/
def opdOf (code : BitVec 7) (lit : Word) : Opd :=
  if code < 0x40 then .reg (code.setWidth 6)
  else if code < 0x48 then .ind (code.setWidth 3) false
  else if code < 0x50 then .ind (code.setWidth 3) true
  else if code < 0x60 then .spec (specialOf (code.setWidth 4))
  else if h : code.toNat - 0x60 < 31 then .imm ⟨code.toNat - 0x60, h⟩
  else .lit lit

def Opd.code : Opd → BitVec 7
  | .reg n => n.setWidth 7
  | .ind i false => 0x40 ||| i.setWidth 7
  | .ind i true => 0x48 ||| i.setWidth 7
  | .spec k => 0x50 ||| (specialBits k).setWidth 7
  | .imm k => BitVec.ofNat 7 (0x60 + k.val)
  | .lit _ => 0x7F

def Src.code (s : Src) : BitVec 7 := s.opd.code
def Src.last (s : Src) : Bool := s.lu

/-- The literal word an operand carries. -/
def Src.literal? (s : Src) : Option Word :=
  match s.opd with
  | .lit v => some v
  | _ => none

/-- The destination a code names (0x00 to 0x50). -/
def dstOf (code : BitVec 7) : Dst :=
  if code < 0x40 then .reg (code.setWidth 6)
  else if code < 0x48 then .ind (code.setWidth 3) false
  else if code < 0x50 then .ind (code.setWidth 3) true
  else .zero

def Dst.code : Dst → BitVec 7
  | .reg n => n.setWidth 7
  | .ind i false => 0x40 ||| i.setWidth 7
  | .ind i true => 0x48 ||| i.setWidth 7
  | .zero => 0x50

/-! ### Modifier and raw codes (R67, R68, R89 to R92) -/

def widthOf (k : BitVec 2) : Width :=
  match k.toNat with
  | 0 => .w64 | 1 => .w32 | 2 => .w16 | _ => .w8

def widthBits : Width → BitVec 2
  | .w64 => 0 | .w32 => 1 | .w16 => 2 | .w8 => 3

def imodOf (m : BitVec 4) : IMod := ⟨widthOf (m.extractLsb' 2 2), m.getLsbD 1, m.getLsbD 0⟩
def imodBits (m : IMod) : BitVec 4 := widthBits m.w ++ bit m.sgn ++ bit m.sat

def ffmtOf (k : BitVec 2) : FFmt :=
  match k.toNat with
  | 0 => .f64 | 1 => .f32 | 2 => .bf16 | _ => .f16

def ffmtBits : FFmt → BitVec 2
  | .f64 => 0 | .f32 => 1 | .bf16 => 2 | .f16 => 3

def rndOf (k : BitVec 2) : Rnd :=
  match k.toNat with
  | 0 => .rne | 1 => .rz | 2 => .ru | _ => .rd

def rndBits : Rnd → BitVec 2
  | .rne => 0 | .rz => 1 | .ru => 2 | .rd => 3

def fmodOf (m : BitVec 4) : FMod := ⟨ffmtOf (m.extractLsb' 2 2), rndOf (m.setWidth 2)⟩
def fmodBits (m : FMod) : BitVec 4 := ffmtBits m.fmt ++ rndBits m.rnd

def amodOf (m : BitVec 4) : AMod := ⟨m.getLsbD 3, m.getLsbD 2, m.getLsbD 1, m.getLsbD 0⟩
def amodBits (m : AMod) : BitVec 4 := bit m.w32 ++ bit m.sgn ++ bit m.acq ++ bit m.rel

def sizeOf? (k : BitVec 3) : Option Size :=
  match k.toNat with
  | 0 => some .b1 | 1 => some .b2 | 2 => some .b4 | 3 => some .b8 | 4 => some .b16 | _ => none

def sizeBits : Size → BitVec 3
  | .b1 => 0 | .b2 => 1 | .b4 => 2 | .b8 => 3 | .b16 => 4

def mmodOf (m : BitVec 4) : Option MMod := (sizeOf? (m.extractLsb' 1 3)).map (⟨·, m.getLsbD 0⟩)
def mmodBits (m : MMod) : BitVec 4 := sizeBits m.sz ++ bit m.sx

def hintOf (k : BitVec 2) : Hint :=
  match k.toNat with
  | 0 => .dflt | 1 => .evict | 2 => .keep | _ => .noalloc

def hintBits : Hint → BitVec 2
  | .dflt => 0 | .evict => 1 | .keep => 2 | .noalloc => 3

def scopeOf (k : BitVec 3) : Option Scope :=
  match k.toNat with
  | 0 => some .thread | 1 => some .group | 2 => some .core | 3 => some .die | 4 => some .package
  | 5 => some .cell | 6 => some .rack | _ => none

def scopeBits : Scope → BitVec 3
  | .thread => 0 | .group => 1 | .core => 2 | .die => 3 | .package => 4 | .cell => 5 | .rack => 6

def fenceKindOf (k : BitVec 2) : FenceKind :=
  match k.toNat with
  | 0 => .loads | 1 => .stores | 2 => .both | _ => .engines

def fenceKindBits : FenceKind → BitVec 2
  | .loads => 0 | .stores => 1 | .both => 2 | .engines => 3

def condOf (k : BitVec 3) : Option Cond :=
  match k.toNat with
  | 0 => some .eq | 1 => some .ne | 2 => some .lt | 3 => some .le | 4 => some .gt | 5 => some .ge | _ => none

def condBits : Cond → BitVec 3
  | .eq => 0 | .ne => 1 | .lt => 2 | .le => 3 | .gt => 4 | .ge => 5

def mskOpOf (k : BitVec 4) : Option MskOp :=
  match k.toNat with
  | 0 => some .and | 1 => some .or | 2 => some .xor | 3 => some .andn | 4 => some .not | 5 => some .copy
  | 6 => some .clr | 7 => some .set | _ => none

def mskOpBits : MskOp → BitVec 4
  | .and => 0 | .or => 1 | .xor => 2 | .andn => 3 | .not => 4 | .copy => 5 | .clr => 6 | .set => 7

def redOpOf (k : BitVec 4) : Option RedOp :=
  match k.toNat with
  | 0 => some .add64 | 1 => some .add32 | 2 => some .smin64 | 3 => some .smin32 | 4 => some .smax64 | 5 => some .smax32
  | 6 => some .umin64 | 7 => some .umax64 | 8 => some .fadd64 | 9 => some .fadd32 | 10 => some .fmin32
  | 11 => some .fmax32 | 12 => some .and | 13 => some .or | 14 => some .xor | _ => none

def redOpBits : RedOp → BitVec 4
  | .add64 => 0 | .add32 => 1 | .smin64 => 2 | .smin32 => 3 | .smax64 => 4 | .smax32 => 5 | .umin64 => 6 | .umax64 => 7
  | .fadd64 => 8 | .fadd32 => 9 | .fmin32 => 10 | .fmax32 => 11 | .and => 12 | .or => 13 | .xor => 14

def tstateOf (k : BitVec 2) : TileState :=
  match k.toNat with
  | 0 => .empty | 1 => .filling | 2 => .ready | _ => .draining

def tstateBits : TileState → BitVec 2
  | .empty => 0 | .filling => 1 | .ready => 2 | .draining => 3

/-- A predicate number in bits [2:0] and its negate bit [3] of a raw field. -/
def predNOf (c : BitVec 7) : PredN := ⟨c.setWidth 3, c.getLsbD 3⟩

/-- One bit of a 7-bit field. -/
def bit1 {w : Nat} (b : Bool) (k : Nat) : BitVec w := if b then BitVec.twoPow w k else 0

def predNBits (p : PredN) : BitVec 7 := bit1 p.neg 3 ||| p.p.setWidth 7

/-! ### The opcode map (R86) and the fields of each operation -/

/-- What an operation makes of one field: unused (0), an operand code, raw with the bits given, an operand code only
when bit E[0] is 0 or 1 (PMOV, MSKMOV), the shared-register code of RDFE and WRFE, or the first register of the run of QPUSH
and QPOP. -/
inductive FK where
  | unused | op | raw (mask : BitVec 7) | opWhenE0 (v : Bool) | shared | run
  deriving DecidableEq, Repr

/-- What an operation makes of the modifier field, as R89 to R92 list it. -/
inductive MK where
  | any | zero | low2Zero | lowZero | dot4 | dot2 | imadw | fdot2 | load | store | ldgx | atomic | atomicSigned | red
  | redSigned | scope | tlbScope | release
  deriving DecidableEq, Repr

/-- One operation of the opcode map. -/
structure Row where
  op : Nat
  d : FK
  a : FK
  b : FK
  c : FK
  e : FK
  md : MK
  deriving DecidableEq, Repr

def MK.ok (k : MK) (m : BitVec 4) : Bool :=
  match k with
  | .any => true
  | .zero => m == 0
  | .low2Zero => m.setWidth 2 == 0#2
  | .lowZero => !m.getLsbD 0
  | .dot4 => m.extractLsb' 2 2 == 3#2
  | .dot2 => m.extractLsb' 2 2 == 2#2
  | .imadw => m.extractLsb' 2 2 != 0#2
  | .fdot2 => m.getLsbD 3
  | .load => m.extractLsb' 1 3 ≤ 4#3 && !(m.getLsbD 0 && 3#3 ≤ m.extractLsb' 1 3)
  | .store => m.extractLsb' 1 3 ≤ 4#3 && !m.getLsbD 0
  | .ldgx => m.extractLsb' 1 3 ≤ 3#3 && !(m.getLsbD 0 && m.extractLsb' 1 3 == 3#3)
  | .atomic => !m.getLsbD 2
  | .atomicSigned => true
  | .red => !m.getLsbD 2 && !m.getLsbD 1
  | .redSigned => !m.getLsbD 1
  | .scope => m.extractLsb' 1 3 ≤ 6#3 && !m.getLsbD 0
  | .tlbScope => 2#3 ≤ m.extractLsb' 1 3 && m.extractLsb' 1 3 ≤ 6#3 && !m.getLsbD 0
  | .release => m.extractLsb' 1 3 == 0#3

/-- Group 0x0 of R86. -/
def rowsG0 : List Row := [
  ⟨0x000, .op, .op, .op, .unused, .unused, .any⟩,
  ⟨0x001, .op, .op, .op, .unused, .unused, .any⟩,
  ⟨0x002, .op, .op, .op, .unused, .raw 7, .lowZero⟩,
  ⟨0x003, .op, .op, .op, .unused, .raw 7, .lowZero⟩,
  ⟨0x004, .op, .op, .op, .unused, .unused, .lowZero⟩,
  ⟨0x005, .op, .op, .op, .unused, .unused, .lowZero⟩,
  ⟨0x006, .op, .op, .op, .op, .unused, .any⟩,
  ⟨0x007, .op, .op, .op, .op, .unused, .imadw⟩,
  ⟨0x008, .op, .op, .op, .unused, .unused, .lowZero⟩,
  ⟨0x009, .op, .op, .op, .unused, .unused, .lowZero⟩,
  ⟨0x00a, .op, .op, .op, .unused, .unused, .lowZero⟩,
  ⟨0x00b, .op, .op, .op, .unused, .unused, .lowZero⟩,
  ⟨0x00c, .op, .op, .unused, .unused, .unused, .any⟩,
  ⟨0x00d, .op, .op, .unused, .unused, .unused, .any⟩,
  ⟨0x00e, .op, .op, .op, .op, .unused, .dot4⟩,
  ⟨0x00f, .op, .op, .op, .op, .unused, .dot2⟩,
  ⟨0x010, .op, .op, .op, .op, .unused, .any⟩,
  ⟨0x011, .op, .op, .op, .raw 15, .raw 7, .low2Zero⟩,
  ⟨0x012, .op, .op, .op, .unused, .raw 63, .zero⟩,
  ⟨0x013, .op, .op, .unused, .unused, .unused, .zero⟩,
  ⟨0x014, .op, .raw 127, .raw 127, .raw 127, .raw 127, .lowZero⟩,
  ⟨0x015, .op, .op, .op, .unused, .unused, .zero⟩,
  ⟨0x016, .op, .op, .op, .raw 15, .unused, .zero⟩,
  ⟨0x017, .op, .op, .op, .op, .unused, .lowZero⟩]

/-- Group 0x1 of R86. -/
def rowsG1 : List Row := [
  ⟨0x040, .op, .op, .op, .unused, .unused, .zero⟩,
  ⟨0x041, .op, .op, .op, .unused, .unused, .zero⟩,
  ⟨0x042, .op, .op, .op, .unused, .unused, .zero⟩,
  ⟨0x043, .op, .op, .op, .unused, .unused, .zero⟩,
  ⟨0x044, .op, .op, .unused, .unused, .unused, .zero⟩,
  ⟨0x045, .op, .op, .op, .op, .raw 15, .any⟩,
  ⟨0x046, .op, .op, .op, .unused, .unused, .low2Zero⟩,
  ⟨0x047, .op, .op, .op, .unused, .unused, .low2Zero⟩,
  ⟨0x048, .op, .op, .op, .unused, .unused, .low2Zero⟩,
  ⟨0x049, .op, .op, .op, .unused, .unused, .low2Zero⟩,
  ⟨0x04a, .op, .op, .op, .unused, .unused, .low2Zero⟩,
  ⟨0x04b, .op, .op, .op, .op, .unused, .low2Zero⟩,
  ⟨0x04c, .op, .op, .unused, .unused, .unused, .low2Zero⟩,
  ⟨0x04d, .op, .op, .unused, .unused, .unused, .low2Zero⟩,
  ⟨0x04e, .op, .op, .unused, .unused, .unused, .low2Zero⟩,
  ⟨0x04f, .op, .op, .unused, .unused, .unused, .low2Zero⟩,
  ⟨0x050, .op, .op, .op, .op, .unused, .lowZero⟩,
  ⟨0x051, .op, .op, .op, .op, .op, .low2Zero⟩,
  ⟨0x052, .op, .op, .op, .op, .unused, .zero⟩,
  ⟨0x053, .raw 7, .op, .op, .unused, .raw 15, .lowZero⟩,
  ⟨0x054, .raw 7, .raw 7, .raw 7, .unused, .raw 15, .zero⟩,
  ⟨0x055, .opWhenE0 false, .opWhenE0 true, .unused, .raw 127, .raw 1, .zero⟩]

/-- Group 0x2 of R86. -/
def rowsG2 : List Row := [
  ⟨0x080, .op, .op, .op, .unused, .unused, .any⟩,
  ⟨0x081, .op, .op, .op, .unused, .unused, .any⟩,
  ⟨0x082, .op, .op, .op, .unused, .unused, .any⟩,
  ⟨0x083, .op, .op, .op, .op, .unused, .any⟩,
  ⟨0x084, .op, .op, .op, .unused, .unused, .low2Zero⟩,
  ⟨0x085, .op, .op, .op, .unused, .unused, .low2Zero⟩,
  ⟨0x086, .op, .op, .unused, .unused, .unused, .low2Zero⟩,
  ⟨0x087, .op, .op, .unused, .unused, .unused, .low2Zero⟩,
  ⟨0x088, .raw 7, .op, .op, .unused, .raw 15, .low2Zero⟩,
  ⟨0x089, .op, .op, .unused, .unused, .unused, .low2Zero⟩,
  ⟨0x08a, .op, .op, .op, .unused, .unused, .any⟩,
  ⟨0x08b, .op, .op, .unused, .unused, .unused, .any⟩,
  ⟨0x08c, .op, .op, .unused, .unused, .unused, .any⟩,
  ⟨0x08d, .op, .op, .unused, .unused, .unused, .any⟩,
  ⟨0x08e, .op, .op, .unused, .unused, .unused, .any⟩,
  ⟨0x08f, .op, .op, .unused, .unused, .unused, .any⟩,
  ⟨0x090, .op, .op, .unused, .unused, .unused, .any⟩,
  ⟨0x091, .op, .op, .unused, .unused, .unused, .any⟩,
  ⟨0x092, .op, .op, .unused, .unused, .unused, .any⟩,
  ⟨0x093, .op, .op, .op, .op, .unused, .fdot2⟩,
  ⟨0x094, .op, .op, .op, .unused, .unused, .any⟩,
  ⟨0x095, .op, .op, .unused, .unused, .unused, .any⟩]

/-- Group 0x3 of R86. -/
def rowsG3 : List Row := [
  ⟨0x0c0, .op, .op, .op, .raw 15, .raw 127, .any⟩,
  ⟨0x0c1, .op, .op, .op, .raw 15, .raw 127, .any⟩,
  ⟨0x0c2, .op, .op, .op, .raw 15, .raw 127, .any⟩,
  ⟨0x0c3, .op, .op, .op, .raw 15, .raw 127, .any⟩,
  ⟨0x0c4, .op, .op, .op, .raw 15, .raw 127, .any⟩,
  ⟨0x0c5, .op, .op, .unused, .raw 8, .raw 127, .any⟩,
  ⟨0x0c6, .op, .op, .op, .raw 31, .raw 7, .any⟩,
  ⟨0x0c7, .op, .op, .op, .raw 31, .raw 7, .any⟩,
  ⟨0x0c8, .op, .op, .op, .raw 31, .raw 7, .any⟩,
  ⟨0x0c9, .op, .op, .op, .raw 31, .raw 7, .any⟩,
  ⟨0x0ca, .op, .op, .unused, .raw 15, .raw 7, .zero⟩,
  ⟨0x0cb, .op, .op, .op, .unused, .unused, .zero⟩,
  ⟨0x0cc, .op, .unused, .unused, .unused, .unused, .zero⟩]

/-- Group 0x4 of R86. -/
def rowsG4 : List Row := [
  ⟨0x100, .op, .op, .op, .unused, .unused, .zero⟩,
  ⟨0x101, .unused, .unused, .unused, .unused, .unused, .zero⟩,
  ⟨0x102, .unused, .unused, .unused, .raw 15, .unused, .zero⟩,
  ⟨0x103, .unused, .unused, .unused, .raw 15, .raw 15, .zero⟩,
  ⟨0x104, .raw 15, .raw 15, .raw 15, .unused, .unused, .any⟩,
  ⟨0x105, .opWhenE0 false, .opWhenE0 true, .unused, .raw 15, .raw 1, .zero⟩,
  ⟨0x106, .op, .op, .op, .raw 15, .unused, .low2Zero⟩,
  ⟨0x107, .op, .op, .op, .raw 15, .unused, .low2Zero⟩,
  ⟨0x108, .op, .op, .op, .raw 15, .unused, .low2Zero⟩,
  ⟨0x109, .op, .op, .op, .raw 15, .unused, .low2Zero⟩,
  ⟨0x10a, .op, .op, .op, .raw 15, .unused, .low2Zero⟩,
  ⟨0x10b, .op, .op, .unused, .raw 15, .unused, .any⟩,
  ⟨0x10c, .op, .op, .unused, .raw 15, .unused, .any⟩,
  ⟨0x10d, .op, .op, .op, .raw 15, .unused, .low2Zero⟩,
  ⟨0x10e, .op, .op, .op, .raw 15, .unused, .low2Zero⟩,
  ⟨0x10f, .op, .op, .unused, .raw 15, .unused, .low2Zero⟩,
  ⟨0x110, .op, .unused, .unused, .unused, .unused, .zero⟩]

/-- Group 0x5 of R86. -/
def rowsG5 : List Row := [
  ⟨0x140, .raw 127, .raw 127, .raw 127, .raw 127, .raw 127, .zero⟩,
  ⟨0x141, .unused, .op, .unused, .unused, .unused, .zero⟩,
  ⟨0x142, .raw 127, .raw 127, .raw 127, .raw 127, .raw 127, .zero⟩,
  ⟨0x143, .unused, .op, .unused, .unused, .unused, .zero⟩,
  ⟨0x144, .unused, .unused, .unused, .unused, .unused, .zero⟩,
  ⟨0x145, .unused, .unused, .unused, .unused, .unused, .zero⟩,
  ⟨0x146, .unused, .unused, .unused, .unused, .unused, .zero⟩,
  ⟨0x147, .unused, .unused, .unused, .unused, .unused, .zero⟩,
  ⟨0x148, .op, .raw 127, .raw 127, .raw 127, .raw 127, .zero⟩,
  ⟨0x149, .unused, .raw 127, .raw 127, .unused, .unused, .zero⟩,
  ⟨0x14a, .unused, .raw 127, .raw 127, .unused, .unused, .zero⟩,
  ⟨0x14b, .op, .op, .op, .op, .unused, .zero⟩,
  ⟨0x14c, .unused, .op, .unused, .unused, .unused, .zero⟩]

/-- Group 0x6 of R86. -/
def rowsG6 : List Row := [
  ⟨0x180, .op, .op, .unused, .raw 127, .raw 127, .load⟩,
  ⟨0x181, .unused, .op, .op, .raw 127, .raw 127, .store⟩,
  ⟨0x182, .op, .op, .unused, .raw 127, .raw 127, .load⟩,
  ⟨0x183, .unused, .op, .op, .raw 127, .raw 127, .store⟩,
  ⟨0x184, .op, .op, .unused, .raw 127, .raw 127, .load⟩,
  ⟨0x185, .unused, .op, .op, .raw 127, .raw 127, .store⟩,
  ⟨0x186, .op, .op, .unused, .raw 127, .raw 127, .load⟩,
  ⟨0x187, .unused, .op, .op, .raw 127, .raw 127, .store⟩,
  ⟨0x188, .op, .op, .op, .raw 127, .raw 127, .ldgx⟩,
  ⟨0x189, .unused, .op, .unused, .raw 127, .raw 127, .zero⟩,
  ⟨0x18a, .unused, .op, .unused, .raw 127, .raw 127, .zero⟩,
  ⟨0x18b, .unused, .op, .unused, .raw 127, .raw 127, .zero⟩]

/-- Group 0x7 of R86. -/
def rowsG7 : List Row := [
  ⟨0x1c0, .op, .op, .op, .unused, .unused, .atomic⟩,
  ⟨0x1c1, .op, .op, .op, .unused, .unused, .atomicSigned⟩,
  ⟨0x1c2, .op, .op, .op, .unused, .unused, .atomicSigned⟩,
  ⟨0x1c3, .op, .op, .op, .unused, .unused, .atomic⟩,
  ⟨0x1c4, .op, .op, .op, .unused, .unused, .atomic⟩,
  ⟨0x1c5, .op, .op, .op, .unused, .unused, .atomic⟩,
  ⟨0x1c6, .op, .op, .op, .unused, .unused, .atomic⟩,
  ⟨0x1c7, .op, .op, .op, .op, .raw 7, .atomic⟩,
  ⟨0x1c8, .op, .op, .op, .unused, .unused, .atomic⟩,
  ⟨0x1c9, .op, .op, .op, .unused, .unused, .atomic⟩,
  ⟨0x1ca, .op, .op, .op, .op, .raw 7, .atomic⟩,
  ⟨0x1cb, .op, .op, .op, .unused, .unused, .atomic⟩,
  ⟨0x1cc, .unused, .op, .op, .unused, .unused, .red⟩,
  ⟨0x1cd, .unused, .op, .op, .unused, .unused, .red⟩,
  ⟨0x1ce, .unused, .op, .op, .unused, .unused, .redSigned⟩,
  ⟨0x1cf, .unused, .op, .op, .unused, .unused, .redSigned⟩,
  ⟨0x1d0, .unused, .unused, .unused, .unused, .raw 3, .scope⟩,
  ⟨0x1d1, .unused, .unused, .unused, .unused, .unused, .zero⟩]

/-- Group 0x8 of R86. -/
def rowsG8 : List Row := [
  ⟨0x200, .unused, .op, .raw 127, .raw 7, .unused, .zero⟩,
  ⟨0x201, .op, .unused, .raw 127, .raw 7, .unused, .zero⟩,
  ⟨0x202, .unused, .op, .raw 127, .raw 7, .unused, .zero⟩,
  ⟨0x203, .unused, .unused, .raw 127, .raw 7, .unused, .zero⟩,
  ⟨0x204, .op, .unused, .raw 127, .raw 7, .unused, .zero⟩,
  ⟨0x205, .op, .unused, .unused, .unused, .unused, .zero⟩,
  ⟨0x206, .unused, .op, .unused, .unused, .unused, .zero⟩,
  ⟨0x207, .unused, .unused, .unused, .unused, .unused, .zero⟩,
  ⟨0x208, .op, .shared, .unused, .unused, .unused, .zero⟩,
  ⟨0x209, .shared, .op, .unused, .unused, .unused, .zero⟩,
  ⟨0x20a, .unused, .run, .raw 7, .unused, .unused, .zero⟩,
  ⟨0x20b, .run, .unused, .raw 7, .raw 7, .unused, .zero⟩]

/-- Group 0x9 of R86. -/
def rowsG9 : List Row := [
  ⟨0x240, .unused, .op, .unused, .raw 63, .unused, .zero⟩,
  ⟨0x241, .op, .unused, .raw 1, .raw 63, .unused, .zero⟩,
  ⟨0x242, .unused, .unused, .unused, .raw 63, .unused, .zero⟩,
  ⟨0x243, .unused, .unused, .unused, .raw 63, .unused, .zero⟩,
  ⟨0x244, .op, .unused, .unused, .raw 63, .unused, .low2Zero⟩,
  ⟨0x245, .unused, .op, .op, .raw 63, .unused, .zero⟩,
  ⟨0x246, .op, .unused, .op, .raw 63, .unused, .zero⟩,
  ⟨0x247, .unused, .op, .op, .op, .op, .zero⟩,
  ⟨0x248, .unused, .op, .unused, .unused, .unused, .scope⟩]

/-- Group 0xa of R86. -/
def rowsGA : List Row := [
  ⟨0x280, .op, .op, .op, .op, .op, .release⟩,
  ⟨0x281, .op, .op, .op, .op, .op, .release⟩,
  ⟨0x282, .op, .op, .unused, .unused, .unused, .zero⟩,
  ⟨0x283, .op, .op, .unused, .unused, .unused, .zero⟩,
  ⟨0x284, .op, .op, .op, .unused, .unused, .zero⟩,
  ⟨0x285, .op, .op, .op, .op, .op, .zero⟩,
  ⟨0x286, .unused, .op, .op, .raw 63, .raw 31, .zero⟩,
  ⟨0x287, .unused, .op, .op, .unused, .raw 31, .zero⟩,
  ⟨0x288, .op, .op, .op, .op, .op, .release⟩,
  ⟨0x289, .op, .op, .op, .unused, .unused, .zero⟩,
  ⟨0x28a, .op, .op, .unused, .unused, .unused, .zero⟩,
  ⟨0x28b, .op, .op, .op, .unused, .unused, .zero⟩]

/-- Group 0xb of R86. -/
def rowsGB : List Row := [
  ⟨0x2c0, .op, .op, .op, .unused, .unused, .zero⟩,
  ⟨0x2c1, .op, .op, .op, .op, .unused, .zero⟩,
  ⟨0x2c2, .op, .op, .op, .op, .unused, .release⟩,
  ⟨0x2c3, .op, .op, .op, .raw 15, .unused, .release⟩,
  ⟨0x2c4, .unused, .op, .unused, .unused, .unused, .zero⟩,
  ⟨0x2c5, .op, .op, .unused, .unused, .unused, .zero⟩]

/-- Group 0xc of R86. -/
def rowsGC : List Row := [
  ⟨0x300, .op, .op, .unused, .unused, .unused, .zero⟩,
  ⟨0x301, .unused, .op, .op, .unused, .unused, .zero⟩,
  ⟨0x302, .op, .op, .unused, .unused, .unused, .zero⟩,
  ⟨0x303, .op, .op, .op, .unused, .unused, .zero⟩,
  ⟨0x304, .op, .op, .op, .unused, .raw 7, .zero⟩,
  ⟨0x305, .unused, .op, .unused, .unused, .unused, .zero⟩,
  ⟨0x306, .op, .op, .op, .unused, .unused, .zero⟩,
  ⟨0x307, .op, .op, .op, .unused, .unused, .zero⟩,
  ⟨0x308, .unused, .op, .op, .unused, .unused, .tlbScope⟩,
  ⟨0x309, .op, .op, .op, .unused, .unused, .zero⟩,
  ⟨0x30a, .op, .op, .unused, .unused, .unused, .zero⟩,
  ⟨0x30b, .op, .op, .op, .unused, .unused, .zero⟩,
  ⟨0x30c, .op, .op, .unused, .unused, .unused, .zero⟩,
  ⟨0x30d, .op, .op, .op, .unused, .raw 7, .zero⟩]

/-- Group 0xd of R86. -/
def rowsGD : List Row := [
  ⟨0x340, .raw 7, .op, .unused, .unused, .unused, .zero⟩,
  ⟨0x341, .op, .raw 7, .unused, .unused, .unused, .zero⟩,
  ⟨0x342, .raw 7, .op, .raw 3, .unused, .unused, .zero⟩,
  ⟨0x343, .unused, .unused, .unused, .unused, .unused, .zero⟩,
  ⟨0x344, .unused, .unused, .unused, .unused, .unused, .zero⟩,
  ⟨0x345, .op, .unused, .unused, .unused, .unused, .zero⟩]

/-- The rows of one group; groups 0xE and 0xF have none (R88). -/
def rowsOf (g : Nat) : List Row :=
  match g with
  | 0 => rowsG0
  | 1 => rowsG1
  | 2 => rowsG2
  | 3 => rowsG3
  | 4 => rowsG4
  | 5 => rowsG5
  | 6 => rowsG6
  | 7 => rowsG7
  | 8 => rowsG8
  | 9 => rowsG9
  | 10 => rowsGA
  | 11 => rowsGB
  | 12 => rowsGC
  | 13 => rowsGD
  | _ => []

/-- The row of an opcode; none for a reserved one (R88). -/
def rowOf (op : BitVec 10) : Option Row := (rowsOf (op.toNat / 64)).find? (·.op == op.toNat)

/-- Whether a field is an operand-code field of this word (R61). -/
def FK.isCode (k : FK) (e : BitVec 7) : Bool :=
  match k with
  | .op | .shared | .run => true
  | .opWhenE0 v => e.getLsbD 0 == v
  | _ => false

/-- How many operand-code fields hold 0x7F. -/
def Row.literals (w : Row) (r : RawW) : Nat :=
  ([(w.d, r.d), (w.a, r.a), (w.b, r.b), (w.c, r.c), (w.e, r.e)].filter fun p => p.1.isCode r.e && p.2 == 0x7F).length

/-- Whether the next word of the clause is this word's literal (R61). -/
def hasLiteral (w : Word) : Bool :=
  let r := RawW.ofWord w
  match rowOf r.op with
  | none => false
  | some row => row.literals r != 0

/-- Why a word is no legal instruction, each with its fault code (R73). -/
inductive Reject where
  | reservedOpcode | literal | destination | reservedField | selector
  deriving DecidableEq, Repr

/-- The fault code of a rejection: 0x01 for a reserved opcode, otherwise 0x02. -/
def Reject.code : Reject → BitVec 8
  | .reservedOpcode => 0x01
  | _ => 0x02

/-- A field obeys its kind: an unused field and its last-use flag are zero, a raw field holds only its bits and no
last-use flag, and a last-use flag stands only on a register code (R63). -/
def FK.okSrc (k : FK) (e code : BitVec 7) (last : Bool) : Bool :=
  match k with
  | .unused => code == 0 && !last
  | .raw m => code &&& ~~~m == 0 && !last
  | .op => !last || code < 0x50
  | .opWhenE0 v => if e.getLsbD 0 == v then !last || code < 0x50 else code == 0 && !last
  | .shared => decide (0x38 ≤ code) && decide (code < 0x50)
  | .run => decide (code < 0x40)

/-- The destination field obeys its kind (R62). -/
def FK.okDst (k : FK) (e code : BitVec 7) : Bool :=
  match k with
  | .unused => code == 0
  | .raw m => code &&& ~~~m == 0
  | .op => code ≤ 0x50
  | .opWhenE0 v => if e.getLsbD 0 == v then code ≤ 0x50 else code == 0
  | .shared => decide (0x38 ≤ code) && decide (code < 0x50)
  | .run => decide (code < 0x40)

/-- The cache hint has a meaning in groups 0x6, 0x7 and 0xA only (R68). -/
def hintOk (r : RawW) : Bool := r.hint == 0 || r.op.toNat / 64 == 6 || r.op.toNat / 64 == 7 || r.op.toNat / 64 == 10

/-- The operand fields of a word, decoded. -/
structure Fields where
  d : Dst
  a : Src
  b : Src
  c : Src
  e : Src
  deriving DecidableEq, Repr

def RawW.fields (r : RawW) (lit : Word) : Fields where
  d := dstOf r.d
  a := ⟨opdOf r.a lit, r.la⟩
  b := ⟨opdOf r.b lit, r.lb⟩
  c := ⟨opdOf r.c lit, r.lc⟩
  e := ⟨opdOf r.e lit, r.le⟩

def RawW.frame (r : RawW) : Frame := ⟨r.ga, r.gb, r.park⟩

/-- A direct pair code, 0x00 to 0x3E. -/
def directPair (code : BitVec 7) : Bool := code < 0x3F

/-- A direct register code, 0x00 to 0x3F. -/
def directReg (code : BitVec 7) : Bool := code < 0x40

/-- Mask register numbers are 0 to 11 (R197, R214). -/
def maskOk (c : BitVec 7) : Bool := c < 12

/-- MSKOP's unused mask fields are zero (R196). -/
def mskOpFieldsOk (r : RawW) : Bool :=
  r.d < 12 && r.a < 12 && r.b < 12 &&
    match r.md.toNat with
    | 0 | 1 | 2 | 3 => true
    | 4 | 5 => r.b == 0
    | _ => r.a == 0 && r.b == 0

/-- Width in bits of a format code of R91. -/
def fmtWidth (c : BitVec 4) : Nat :=
  match c.toNat with
  | 0 | 13 => 64
  | 1 | 12 => 32
  | 2 | 3 | 11 => 16
  | 4 | 5 | 9 | 10 => 8
  | 8 => 6
  | _ => 4

/-- The part P is below the ratio of the widths, which is at most 8 (R177). -/
def partOk (src dst : BitVec 4) (p : BitVec 3) : Bool :=
  let r := max (fmtWidth src) (fmtWidth dst) / min (fmtWidth src) (fmtWidth dst)
  decide (r ≤ 8) && decide (p.toNat < r)

def RawW.src (r : RawW) : BitVec 4 := r.e.setWidth 4
def RawW.part (r : RawW) : BitVec 3 := r.e.extractLsb' 4 3

/-- C of a float destination: FP64 and FP32 take rounding and saturation, the CVMODE formats take none (R176). -/
def cFloatOk (r : RawW) : Bool := if r.md ≤ 1 then !r.c.getLsbD 3 else r.c == 0

def cvtOk (r : RawW) : Bool := r.md ≤ 5 && r.src ≤ 5 && cFloatOk r && partOk r.src r.md r.part
def cvtiOk (r : RawW) : Bool := r.src ≤ 3 && 10#4 ≤ r.md && r.md ≤ 14 && !r.c.getLsbD 2 && partOk r.src r.md r.part

/-- CVTF: C[3] marks the integer source unsigned; the rest as for a float destination. -/
def cvtfOk (r : RawW) : Bool :=
  10#4 ≤ r.src && r.src ≤ 14 && r.md ≤ 3 && (decide (r.md ≤ 1) || r.c.setWidth 3 == 0#3) && partOk r.src r.md r.part

/-- PACKN: both kinds equal, source strictly wider, r at most 8, P below r / 2 (R181). -/
def packnOk (r : RawW) : Bool :=
  let ws := fmtWidth r.src
  let wd := fmtWidth r.md
  let fl := decide (2 ≤ r.md) && decide (r.md ≤ 5) && decide (r.src ≤ 3) && r.c == 0
  let int := (r.md == 10 || r.md == 11 || r.md == 14) && decide (11 ≤ r.src) && decide (r.src ≤ 13) && r.c.setWidth 2 == 0#2
  (fl || int) && decide (wd < ws) && decide (ws / wd ≤ 8) && decide (r.part.toNat < ws / wd / 2)

/-- UNPACK: destination wider and of the same kind (R182). -/
def unpackOk (r : RawW) : Bool :=
  let fl := decide (r.md ≤ 3) && decide (1 ≤ r.src) && decide (r.src ≤ 5) && r.c == 0
  let int := decide (10 ≤ r.md) && decide (r.md ≤ 13) && decide (10 ≤ r.src) && decide (r.src ≤ 14)
  (fl || int) && decide (fmtWidth r.src < fmtWidth r.md) && partOk r.src r.md r.part

/-- Elements an instruction of the block formats takes: two from FP32, four from BF16 or FP16 (R184). -/
def wideCount (w : BitVec 2) : Nat := if w == 0 then 2 else 4

/-- Fields shared by the block instructions: wide code, part, and the register code of B (R175, R184). -/
def blockOk (r : RawW) (pack : Bool) : Bool :=
  let wide := r.c.extractLsb' 3 2
  wide != 3 && decide ((r.c.setWidth 3 : BitVec 3).toNat < 16 / wideCount wide) && (!pack || r.b < 0x50)

/-- BX: an even selector (R35), and direct pairs for BX6 and BX8 (R184, R185). -/
def bxOk (r : RawW) (pack : Bool) : Bool :=
  decide (7 ≤ r.md) && decide (r.md ≤ 9) && !r.e.getLsbD 0 && blockOk r pack &&
    (r.md == 7 || (if pack then directPair r.d else directPair r.a))

def mxOk (r : RawW) (pack : Bool) : Bool := r.md == 6 && blockOk r pack

def sclxOk (r : RawW) : Bool := decide (6 ≤ r.c) && decide (r.c ≤ 9) && (r.c == 6 || !r.e.getLsbD 0)

/-- An entry's own reserved selectors and raw values that the row's masks do not say (R149, R166, R175, R176, R184,
R197, R258, R292): the format codes of group 0x3, the pairs, and the number of a mask register. -/
def selectorsOk (r : RawW) : Bool :=
  match r.op.toNat with
  | 85 => if r.e.getLsbD 0 then r.c != 0 && r.d == 0 else r.c == 0
  | 192 => cvtOk r
  | 193 => cvtOk r
  | 194 => cvtiOk r
  | 195 => cvtfOk r
  | 196 => packnOk r
  | 197 => unpackOk r
  | 198 => bxOk r true
  | 199 => bxOk r false
  | 200 => mxOk r true
  | 201 => mxOk r false
  | 202 => sclxOk r
  | 258 => maskOk r.c
  | 259 => maskOk r.c
  | 260 => mskOpFieldsOk r
  | 261 => maskOk r.c
  | 262 => maskOk r.c
  | 263 => maskOk r.c
  | 264 => maskOk r.c
  | 265 => maskOk r.c
  | 266 => maskOk r.c
  | 267 => maskOk r.c
  | 268 => maskOk r.c
  | 269 => maskOk r.c
  | 270 => maskOk r.c
  | 271 => maskOk r.c
  | 384 => r.md.extractLsb' 1 3 != 4#3 || directPair r.d
  | 385 => r.md.extractLsb' 1 3 != 4#3 || directPair r.b
  | 386 => r.md.extractLsb' 1 3 != 4#3 || directPair r.d
  | 387 => r.md.extractLsb' 1 3 != 4#3 || directPair r.b
  | 388 => r.md.extractLsb' 1 3 != 4#3 || directPair r.d
  | 389 => r.md.extractLsb' 1 3 != 4#3 || directPair r.b
  | 390 => r.md.extractLsb' 1 3 != 4#3 || directPair r.d
  | 391 => r.md.extractLsb' 1 3 != 4#3 || directPair r.b
  | 520 => !r.la || r.a < 0x50
  | 522 => directReg r.a
  | 523 => directReg r.d
  | 576 => directPair r.a
  | 707 => maskOk r.c
  | 772 => r.e ≤ 5
  | 781 => r.e ≤ 3
  | _ => true

/-- The constructors of group 0x0. -/
def buildG0 (minor : Nat) (f : Frame) (r : RawW) (x : Fields) : Option Instr :=
  match minor with
  | 0 => some (.iadd f (imodOf r.md) ⟨x.d, x.a, x.b⟩)
  | 1 => some (.isub f (imodOf r.md) ⟨x.d, x.a, x.b⟩)
  | 2 => some (.iadds f (imodOf r.md) ⟨x.d, x.a, x.b⟩ (r.e.setWidth 3))
  | 3 => some (.isubs f (imodOf r.md) ⟨x.d, x.a, x.b⟩ (r.e.setWidth 3))
  | 4 => some (.imul f (imodOf r.md) ⟨x.d, x.a, x.b⟩)
  | 5 => some (.imulh f (imodOf r.md) ⟨x.d, x.a, x.b⟩)
  | 6 => some (.imad f (imodOf r.md) ⟨x.d, x.a, x.b, x.c⟩)
  | 7 => some (.imadw f (imodOf r.md) ⟨x.d, x.a, x.b, x.c⟩)
  | 8 => some (.idiv f (imodOf r.md) ⟨x.d, x.a, x.b⟩)
  | 9 => some (.irem f (imodOf r.md) ⟨x.d, x.a, x.b⟩)
  | 10 => some (.imin f (imodOf r.md) ⟨x.d, x.a, x.b⟩)
  | 11 => some (.imax f (imodOf r.md) ⟨x.d, x.a, x.b⟩)
  | 12 => some (.iabs f (imodOf r.md) ⟨x.d, x.a⟩)
  | 13 => some (.ineg f (imodOf r.md) ⟨x.d, x.a⟩)
  | 14 => some (.idot4 f (imodOf r.md) ⟨x.d, x.a, x.b, x.c⟩)
  | 15 => some (.idot2 f (imodOf r.md) ⟨x.d, x.a, x.b, x.c⟩)
  | 16 => some (.isad f (imodOf r.md) ⟨x.d, x.a, x.b, x.c⟩)
  | 17 => some (.iaddc f (imodOf r.md) ⟨x.d, x.a, x.b⟩ (predNOf r.c) (r.e.setWidth 3))
  | 18 => some (.lea f ⟨x.d, x.a, x.b⟩ (r.e.setWidth 6))
  | 19 => some (.mov f ⟨x.d, x.a⟩)
  | 20 => some (.movi f (imodOf r.md) x.d (r.e ++ r.c ++ r.b ++ r.a))
  | 21 => some (.movhi f ⟨x.d, x.a, x.b⟩)
  | 22 => some (.sel f ⟨x.d, x.a, x.b⟩ (predNOf r.c))
  | 23 => some (.iclamp f (imodOf r.md) ⟨x.d, x.a, x.b, x.c⟩)
  | _ => none

/-- The constructors of group 0x1. -/
def buildG1 (minor : Nat) (f : Frame) (r : RawW) (x : Fields) : Option Instr :=
  match minor with
  | 0 => some (.and f ⟨x.d, x.a, x.b⟩)
  | 1 => some (.or f ⟨x.d, x.a, x.b⟩)
  | 2 => some (.xor f ⟨x.d, x.a, x.b⟩)
  | 3 => some (.andn f ⟨x.d, x.a, x.b⟩)
  | 4 => some (.not f ⟨x.d, x.a⟩)
  | 5 => some (.bfn3 f ⟨x.d, x.a, x.b, x.c⟩ (r.md ++ r.e.setWidth 4))
  | 6 => some (.shl f (imodOf r.md) ⟨x.d, x.a, x.b⟩)
  | 7 => some (.shr f (imodOf r.md) ⟨x.d, x.a, x.b⟩)
  | 8 => some (.sar f (imodOf r.md) ⟨x.d, x.a, x.b⟩)
  | 9 => some (.rol f (imodOf r.md) ⟨x.d, x.a, x.b⟩)
  | 10 => some (.ror f (imodOf r.md) ⟨x.d, x.a, x.b⟩)
  | 11 => some (.fshf f (imodOf r.md) ⟨x.d, x.a, x.b, x.c⟩)
  | 12 => some (.popc f (imodOf r.md) ⟨x.d, x.a⟩)
  | 13 => some (.clz f (imodOf r.md) ⟨x.d, x.a⟩)
  | 14 => some (.ctz f (imodOf r.md) ⟨x.d, x.a⟩)
  | 15 => some (.brev f (imodOf r.md) ⟨x.d, x.a⟩)
  | 16 => some (.bfx f (imodOf r.md) ⟨x.d, x.a, x.b, x.c⟩)
  | 17 => some (.bfi f (imodOf r.md) ⟨x.d, x.a, x.b, x.c, x.e⟩)
  | 18 => some (.prmb f ⟨x.d, x.a, x.b, x.c⟩)
  | 19 => (condOf ((r.e.setWidth 3))).map fun v0 => .icmp f (imodOf r.md) (r.d.setWidth 3) ⟨x.a, x.b⟩ v0 (r.e.getLsbD 3)
  | 20 => some (.pset f (r.d.setWidth 3) (r.a.setWidth 3) (r.b.setWidth 3) (r.e.setWidth 4))
  | 21 => some (.pmov f ⟨x.d, x.a⟩ r.c (r.e.getLsbD 0))
  | _ => none

/-- The constructors of group 0x2. -/
def buildG2 (minor : Nat) (f : Frame) (r : RawW) (x : Fields) : Option Instr :=
  match minor with
  | 0 => some (.fadd f (fmodOf r.md) ⟨x.d, x.a, x.b⟩)
  | 1 => some (.fsub f (fmodOf r.md) ⟨x.d, x.a, x.b⟩)
  | 2 => some (.fmul f (fmodOf r.md) ⟨x.d, x.a, x.b⟩)
  | 3 => some (.ffma f (fmodOf r.md) ⟨x.d, x.a, x.b, x.c⟩)
  | 4 => some (.fmin f (fmodOf r.md) ⟨x.d, x.a, x.b⟩)
  | 5 => some (.fmax f (fmodOf r.md) ⟨x.d, x.a, x.b⟩)
  | 6 => some (.fabs f (fmodOf r.md) ⟨x.d, x.a⟩)
  | 7 => some (.fneg f (fmodOf r.md) ⟨x.d, x.a⟩)
  | 8 => (condOf ((r.e.setWidth 3))).map fun v0 => .fcmp f (fmodOf r.md) (r.d.setWidth 3) ⟨x.a, x.b⟩ v0 (r.e.getLsbD 3)
  | 9 => some (.fclass f (fmodOf r.md) ⟨x.d, x.a⟩)
  | 10 => some (.fdiv f (fmodOf r.md) ⟨x.d, x.a, x.b⟩)
  | 11 => some (.fsqrt f (fmodOf r.md) ⟨x.d, x.a⟩)
  | 12 => some (.frcp f (fmodOf r.md) ⟨x.d, x.a⟩)
  | 13 => some (.frsq f (fmodOf r.md) ⟨x.d, x.a⟩)
  | 14 => some (.fex2 f (fmodOf r.md) ⟨x.d, x.a⟩)
  | 15 => some (.flg2 f (fmodOf r.md) ⟨x.d, x.a⟩)
  | 16 => some (.flg2p f (fmodOf r.md) ⟨x.d, x.a⟩)
  | 17 => some (.fsinpi f (fmodOf r.md) ⟨x.d, x.a⟩)
  | 18 => some (.fcospi f (fmodOf r.md) ⟨x.d, x.a⟩)
  | 19 => some (.fdot2 f (fmodOf r.md) ⟨x.d, x.a, x.b, x.c⟩)
  | 20 => some (.fscale f (fmodOf r.md) ⟨x.d, x.a, x.b⟩)
  | 21 => some (.frnd f (fmodOf r.md) ⟨x.d, x.a⟩)
  | _ => none

/-- The constructors of group 0x3. -/
def buildG3 (minor : Nat) (f : Frame) (r : RawW) (x : Fields) : Option Instr :=
  match minor with
  | 0 => some (.cvt f r.md ⟨x.d, x.a, x.b⟩ (r.c.setWidth 4) (r.e.setWidth 4) (r.e.extractLsb' 4 3))
  | 1 => some (.cvts f r.md ⟨x.d, x.a, x.b⟩ (r.c.setWidth 4) (r.e.setWidth 4) (r.e.extractLsb' 4 3))
  | 2 => some (.cvti f r.md ⟨x.d, x.a, x.b⟩ (r.c.setWidth 4) (r.e.setWidth 4) (r.e.extractLsb' 4 3))
  | 3 => some (.cvtf f r.md ⟨x.d, x.a, x.b⟩ (r.c.setWidth 4) (r.e.setWidth 4) (r.e.extractLsb' 4 3))
  | 4 => some (.packn f r.md ⟨x.d, x.a, x.b⟩ (r.c.setWidth 4) (r.e.setWidth 4) (r.e.extractLsb' 4 3))
  | 5 => some (.unpack f r.md ⟨x.d, x.a⟩ (r.c.setWidth 4) (r.e.setWidth 4) (r.e.extractLsb' 4 3))
  | 6 => some (.bxpack f r.md ⟨x.d, x.a, x.b⟩ (r.c.setWidth 3) (r.c.extractLsb' 3 2) (r.e.setWidth 3))
  | 7 => some (.bxunp f r.md ⟨x.d, x.a, x.b⟩ (r.c.setWidth 3) (r.c.extractLsb' 3 2) (r.e.setWidth 3))
  | 8 => some (.mxpack f r.md ⟨x.d, x.a, x.b⟩ (r.c.setWidth 3) (r.c.extractLsb' 3 2) (r.e.setWidth 3))
  | 9 => some (.mxunp f r.md ⟨x.d, x.a, x.b⟩ (r.c.setWidth 3) (r.c.extractLsb' 3 2) (r.e.setWidth 3))
  | 10 => some (.sclx f ⟨x.d, x.a⟩ (r.c.setWidth 4) (r.e.setWidth 3))
  | 11 => some (.cmode f ⟨x.d, x.a, x.b⟩)
  | 12 => some (.nanct f x.d)
  | _ => none

/-- The constructors of group 0x4. -/
def buildG4 (minor : Nat) (f : Frame) (r : RawW) (x : Fields) : Option Instr :=
  match minor with
  | 0 => some (.gjoin f ⟨x.d, x.a, x.b⟩)
  | 1 => some (.gleave f)
  | 2 => some (.gwait f (r.c.setWidth 4))
  | 3 => some (.gvote f (r.c.setWidth 4) (predNOf r.e))
  | 4 => (mskOpOf r.md).map fun v0 => .mskop f v0 (r.d.setWidth 4) (r.a.setWidth 4) (r.b.setWidth 4)
  | 5 => some (.mskmov f ⟨x.d, x.a⟩ (r.c.setWidth 4) (r.e.getLsbD 0))
  | 6 => some (.shfl f (imodOf r.md) ⟨x.d, x.a, x.b⟩ (r.c.setWidth 4))
  | 7 => some (.shflx f (imodOf r.md) ⟨x.d, x.a, x.b⟩ (r.c.setWidth 4))
  | 8 => some (.shfldn f (imodOf r.md) ⟨x.d, x.a, x.b⟩ (r.c.setWidth 4))
  | 9 => some (.shflup f (imodOf r.md) ⟨x.d, x.a, x.b⟩ (r.c.setWidth 4))
  | 10 => some (.bcast f (imodOf r.md) ⟨x.d, x.a, x.b⟩ (r.c.setWidth 4))
  | 11 => (redOpOf r.md).map fun v0 => .gred f v0 ⟨x.d, x.a⟩ (r.c.setWidth 4)
  | 12 => (redOpOf r.md).map fun v0 => .gscan f v0 ⟨x.d, x.a⟩ (r.c.setWidth 4)
  | 13 => some (.compress f (imodOf r.md) ⟨x.d, x.a, x.b⟩ (r.c.setWidth 4))
  | 14 => some (.expand f (imodOf r.md) ⟨x.d, x.a, x.b⟩ (r.c.setWidth 4))
  | 15 => some (.matchRank f (imodOf r.md) ⟨x.d, x.a⟩ (r.c.setWidth 4))
  | 16 => some (.ginfo f x.d)
  | _ => none

/-- The constructors of group 0x5. -/
def buildG5 (minor : Nat) (f : Frame) (r : RawW) (x : Fields) : Option Instr :=
  match minor with
  | 0 => some (.bra f (r.e ++ r.c ++ r.b ++ r.a ++ r.d))
  | 1 => some (.brx f x.a)
  | 2 => some (.call f (r.e ++ r.c ++ r.b ++ r.a ++ r.d))
  | 3 => some (.callx f x.a)
  | 4 => some (.ret f)
  | 5 => some (.exit f)
  | 6 => some (.yield f)
  | 7 => some (.nop f)
  | 8 => some (.loop f x.d (r.e ++ r.c ++ r.b ++ r.a))
  | 9 => some (.trap f (r.b ++ r.a))
  | 10 => some (.brk f (r.b ++ r.a))
  | 11 => some (.waita f ⟨x.d, x.a, x.b, x.c⟩)
  | 12 => some (.sleep f x.a)
  | _ => none

/-- The constructors of group 0x6. -/
def buildG6 (minor : Nat) (f : Frame) (r : RawW) (x : Fields) : Option Instr :=
  match minor with
  | 0 => (mmodOf r.md).map fun v0 => .ld f v0 (hintOf r.hint) ⟨x.d, x.a⟩ (r.e ++ r.c)
  | 1 => (mmodOf r.md).map fun v0 => .st f v0 (hintOf r.hint) ⟨x.a, x.b⟩ (r.e ++ r.c)
  | 2 => (mmodOf r.md).map fun v0 => .ldacq f v0 (hintOf r.hint) ⟨x.d, x.a⟩ (r.e ++ r.c)
  | 3 => (mmodOf r.md).map fun v0 => .strel f v0 (hintOf r.hint) ⟨x.a, x.b⟩ (r.e ++ r.c)
  | 4 => (mmodOf r.md).map fun v0 => .ldvt f v0 (hintOf r.hint) ⟨x.d, x.a⟩ (r.e ++ r.c)
  | 5 => (mmodOf r.md).map fun v0 => .stvt f v0 (hintOf r.hint) ⟨x.a, x.b⟩ (r.e ++ r.c)
  | 6 => (mmodOf r.md).map fun v0 => .ldls f v0 (hintOf r.hint) ⟨x.d, x.a⟩ (r.e ++ r.c)
  | 7 => (mmodOf r.md).map fun v0 => .stls f v0 (hintOf r.hint) ⟨x.a, x.b⟩ (r.e ++ r.c)
  | 8 => (mmodOf r.md).map fun v0 => .ldgx f v0 (hintOf r.hint) ⟨x.d, x.a, x.b⟩ (r.e ++ r.c)
  | 9 => some (.pref f (hintOf r.hint) x.a (r.e ++ r.c))
  | 10 => some (.cflush f (hintOf r.hint) x.a (r.e ++ r.c))
  | 11 => some (.cinv f (hintOf r.hint) x.a (r.e ++ r.c))
  | _ => none

/-- The constructors of group 0x7. -/
def buildG7 (minor : Nat) (f : Frame) (r : RawW) (x : Fields) : Option Instr :=
  match minor with
  | 0 => some (.aadd f (amodOf r.md) (hintOf r.hint) ⟨x.d, x.a, x.b⟩)
  | 1 => some (.amin f (amodOf r.md) (hintOf r.hint) ⟨x.d, x.a, x.b⟩)
  | 2 => some (.amax f (amodOf r.md) (hintOf r.hint) ⟨x.d, x.a, x.b⟩)
  | 3 => some (.aand f (amodOf r.md) (hintOf r.hint) ⟨x.d, x.a, x.b⟩)
  | 4 => some (.aor f (amodOf r.md) (hintOf r.hint) ⟨x.d, x.a, x.b⟩)
  | 5 => some (.axor f (amodOf r.md) (hintOf r.hint) ⟨x.d, x.a, x.b⟩)
  | 6 => some (.axchg f (amodOf r.md) (hintOf r.hint) ⟨x.d, x.a, x.b⟩)
  | 7 => some (.acas f (amodOf r.md) (hintOf r.hint) ⟨x.d, x.a, x.b, x.c⟩ (r.e.setWidth 3))
  | 8 => some (.aincw f (amodOf r.md) (hintOf r.hint) ⟨x.d, x.a, x.b⟩)
  | 9 => some (.adecw f (amodOf r.md) (hintOf r.hint) ⟨x.d, x.a, x.b⟩)
  | 10 => some (.abadd f (amodOf r.md) (hintOf r.hint) ⟨x.d, x.a, x.b, x.c⟩ (r.e.setWidth 3))
  | 11 => some (.afadd f (amodOf r.md) (hintOf r.hint) ⟨x.d, x.a, x.b⟩)
  | 12 => some (.redadd f (amodOf r.md) (hintOf r.hint) ⟨x.a, x.b⟩)
  | 13 => some (.redfadd f (amodOf r.md) (hintOf r.hint) ⟨x.a, x.b⟩)
  | 14 => some (.redmin f (amodOf r.md) (hintOf r.hint) ⟨x.a, x.b⟩)
  | 15 => some (.redmax f (amodOf r.md) (hintOf r.hint) ⟨x.a, x.b⟩)
  | 16 => (scopeOf (r.md.extractLsb' 1 3)).map fun v0 => .fence f v0 (hintOf r.hint) (fenceKindOf (r.e.setWidth 2))
  | 17 => some (.sdrain f (hintOf r.hint))
  | _ => none

/-- The constructors of group 0x8. -/
def buildG8 (minor : Nat) (f : Frame) (r : RawW) (x : Fields) : Option Instr :=
  match minor with
  | 0 => some (.barinit f ((r.c ++ r.b).setWidth 10) x.a)
  | 1 => some (.bararv f x.d ((r.c ++ r.b).setWidth 10))
  | 2 => some (.barwait f ((r.c ++ r.b).setWidth 10) x.a)
  | 3 => some (.barsync f ((r.c ++ r.b).setWidth 10))
  | 4 => some (.barqry f x.d ((r.c ++ r.b).setWidth 10))
  | 5 => some (.lbar f x.d)
  | 6 => some (.shrmap f x.a)
  | 7 => some (.shrunmap f)
  | 8 => some (.rdfe f ⟨x.d, x.a⟩)
  | 9 => some (.wrfe f ⟨x.d, x.a⟩)
  | 10 => some (.qpush f (r.a.setWidth 6) r.la (r.b.setWidth 3))
  | 11 => some (.qpop f (r.d.setWidth 6) (r.b.setWidth 3) (r.c.setWidth 3))
  | _ => none

/-- The constructors of group 0x9. -/
def buildG9 (minor : Nat) (f : Frame) (r : RawW) (x : Fields) : Option Instr :=
  match minor with
  | 0 => some (.tdef f x.a (r.c.setWidth 6))
  | 1 => some (.tqry f x.d (r.c.setWidth 6) (r.b.getLsbD 0))
  | 2 => some (.tready f (r.c.setWidth 6))
  | 3 => some (.tempty f (r.c.setWidth 6))
  | 4 => some (.twait f (tstateOf (r.md.extractLsb' 2 2)) x.d (r.c.setWidth 6))
  | 5 => some (.tstb f ⟨x.a, x.b⟩ (r.c.setWidth 6))
  | 6 => some (.tldb f x.d x.b (r.c.setWidth 6))
  | 7 => some (.shadow f ⟨x.a, x.b, x.c, x.e⟩)
  | 8 => (scopeOf (r.md.extractLsb' 1 3)).map fun v0 => .publish f v0 x.a
  | _ => none

/-- The constructors of group 0xa. -/
def buildGA (minor : Nat) (f : Frame) (r : RawW) (x : Fields) : Option Instr :=
  match minor with
  | 0 => some (.cpy f (r.md.getLsbD 0) (hintOf r.hint) ⟨x.d, x.a, x.b, x.c, x.e⟩)
  | 1 => some (.cpym f (r.md.getLsbD 0) (hintOf r.hint) ⟨x.d, x.a, x.b, x.c, x.e⟩)
  | 2 => some (.mma f (hintOf r.hint) ⟨x.d, x.a⟩)
  | 3 => some (.mmab f (hintOf r.hint) ⟨x.d, x.a⟩)
  | 4 => some (.mmac f (hintOf r.hint) ⟨x.d, x.a, x.b⟩)
  | 5 => some (.mepi f (hintOf r.hint) ⟨x.d, x.a, x.b, x.c, x.e⟩)
  | 6 => some (.tarm f (hintOf r.hint) ⟨x.a, x.b⟩ (r.c.setWidth 6) (r.e.setWidth 5))
  | 7 => some (.route f (hintOf r.hint) ⟨x.a, x.b⟩ (r.e.setWidth 5))
  | 8 => some (.collBind f (r.md.getLsbD 0) (hintOf r.hint) ⟨x.d, x.a, x.b, x.c, x.e⟩)
  | 9 => some (.cwait f (hintOf r.hint) ⟨x.d, x.a, x.b⟩)
  | 10 => some (.ccancel f (hintOf r.hint) ⟨x.d, x.a⟩)
  | 11 => some (.engq f (hintOf r.hint) ⟨x.d, x.a, x.b⟩)
  | _ => none

/-- The constructors of group 0xb. -/
def buildGB (minor : Nat) (f : Frame) (r : RawW) (x : Fields) : Option Instr :=
  match minor with
  | 0 => some (.drawl f ⟨x.d, x.a, x.b⟩)
  | 1 => some (.drawg f ⟨x.d, x.a, x.b, x.c⟩)
  | 2 => some (.dmrg f (r.md.getLsbD 0) ⟨x.d, x.a, x.b, x.c⟩)
  | 3 => some (.gdraw f (r.md.getLsbD 0) ⟨x.d, x.a, x.b⟩ (r.c.setWidth 4))
  | 4 => some (.dseed f x.a)
  | 5 => some (.drnd f ⟨x.d, x.a⟩)
  | _ => none

/-- The constructors of group 0xc. -/
def buildGC (minor : Nat) (f : Frame) (r : RawW) (x : Fields) : Option Instr :=
  match minor with
  | 0 => some (.sysrd f ⟨x.d, x.a⟩)
  | 1 => some (.syswr f ⟨x.a, x.b⟩)
  | 2 => some (.launch f ⟨x.d, x.a⟩)
  | 3 => some (.lwait f ⟨x.d, x.a, x.b⟩)
  | 4 =>
    match r.e.toNat with
    | 0 => some (.thrctlResume f ⟨x.d, x.a, x.b⟩)
    | 1 => some (.thrctlRedirect f ⟨x.d, x.a, x.b⟩)
    | 2 => some (.thrctlKill f ⟨x.d, x.a, x.b⟩)
    | 3 => some (.thrctlStop f ⟨x.d, x.a, x.b⟩)
    | 4 => some (.thrctlGetst f ⟨x.d, x.a, x.b⟩)
    | 5 => some (.thrctlSetst f ⟨x.d, x.a, x.b⟩)
    | _ => none
  | 5 => some (.xret f x.a)
  | 6 => some (.barsave f ⟨x.d, x.a, x.b⟩)
  | 7 => some (.barrest f ⟨x.d, x.a, x.b⟩)
  | 8 => (scopeOf (r.md.extractLsb' 1 3)).map fun v0 => .tlbinv f v0 ⟨x.a, x.b⟩
  | 9 => some (.mapset f ⟨x.d, x.a, x.b⟩)
  | 10 => some (.selftest f ⟨x.d, x.a⟩)
  | 11 => some (.errrd f ⟨x.d, x.a, x.b⟩)
  | 12 => some (.featrd f ⟨x.d, x.a⟩)
  | 13 =>
    match r.e.toNat with
    | 0 => some (.ctxswCreate f ⟨x.d, x.a, x.b⟩)
    | 1 => some (.ctxswDestroy f ⟨x.d, x.a, x.b⟩)
    | 2 => some (.ctxswPreempt f ⟨x.d, x.a, x.b⟩)
    | 3 => some (.ctxswResume f ⟨x.d, x.a, x.b⟩)
    | _ => none
  | _ => none

/-- The constructors of group 0xd. -/
def buildGD (minor : Nat) (f : Frame) (r : RawW) (x : Fields) : Option Instr :=
  match minor with
  | 0 => some (.ixset f (r.d.setWidth 3) x.a)
  | 1 => some (.ixget f x.d (r.a.setWidth 3))
  | 2 => some (.ixadv f (r.d.setWidth 3) x.a (widthOf (r.b.setWidth 2)))
  | 3 => some (.xacq f)
  | 4 => some (.xrel f)
  | 5 => some (.xqry f x.d)
  | _ => none

def buildInstr (g minor : Nat) (f : Frame) (r : RawW) (x : Fields) : Option Instr :=
  match g with
  | 0 => buildG0 minor f r x
  | 1 => buildG1 minor f r x
  | 2 => buildG2 minor f r x
  | 3 => buildG3 minor f r x
  | 4 => buildG4 minor f r x
  | 5 => buildG5 minor f r x
  | 6 => buildG6 minor f r x
  | 7 => buildG7 minor f r x
  | 8 => buildG8 minor f r x
  | 9 => buildG9 minor f r x
  | 10 => buildGA minor f r x
  | 11 => buildGB minor f r x
  | 12 => buildGC minor f r x
  | 13 => buildGD minor f r x
  | _ => none

/-- Decoding of one word with the word after it, if the clause has one. COLL decodes to its first row and SYSWR to
SYSWR: which row of COLL a word is stands in a register (`refine` of Machine/Pipes.lean chooses it). -/
def decode (w : Word) (next : Option Word) : Except Reject Instr :=
  let r := RawW.ofWord w
  match rowOf r.op with
  | none => .error .reservedOpcode
  | some row =>
    if 1 < row.literals r ∨ (row.literals r = 1 ∧ next = none) then .error .literal
    else if !row.d.okDst r.e r.d then .error .destination
    else if !(row.a.okSrc r.e r.a r.la && row.b.okSrc r.e r.b r.lb && row.c.okSrc r.e r.c r.lc
        && row.e.okSrc r.e r.e r.le && row.md.ok r.md && hintOk r) then .error .reservedField
    else if !selectorsOk r then .error .selector
    else
      match buildInstr (r.op.toNat / 64) (r.op.toNat % 64) r.frame r (r.fields (next.getD 0)) with
      | none => .error .selector
      | some i => .ok i

/-- The table's numbering: bit 0 is the least significant bit of the first word. An instruction is one 64-bit word and
its literal; the bits above the row's are zero, so a literal is the zero word. -/
def decodeTableWord (nbits w : Nat) : Option Instr :=
  match decode (BitVec.ofNat 64 (w % 2 ^ nbits)) (some (BitVec.ofNat 64 (w % 2 ^ nbits / 2 ^ 64))) with
  | .ok i => some i
  | .error _ => none

/-! ### The encoder -/

/-- A word with nothing but its opcode and frame. -/
def RawW.base (op : BitVec 10) (f : Frame) : RawW :=
  ⟨0, false, false, false, false, 0, 0, 0, 0, 0, 0, f.gb, f.ga, f.park, op⟩

/-- The fields of an instruction's word (none for an event and for a word that is no legal instruction). -/
def encodeRaw : Instr → Option RawW
  | .iadd f m o => some { RawW.base 0x000 f with md := imodBits m, d := o.d.code, a := o.a.code, la := o.a.last, b := o.b.code, lb := o.b.last }
  | .isub f m o => some { RawW.base 0x001 f with md := imodBits m, d := o.d.code, a := o.a.code, la := o.a.last, b := o.b.code, lb := o.b.last }
  | .iadds f m o pe => some { RawW.base 0x002 f with md := imodBits m, d := o.d.code, a := o.a.code, la := o.a.last, b := o.b.code, lb := o.b.last, e := pe.setWidth 7 }
  | .isubs f m o pe => some { RawW.base 0x003 f with md := imodBits m, d := o.d.code, a := o.a.code, la := o.a.last, b := o.b.code, lb := o.b.last, e := pe.setWidth 7 }
  | .imul f m o => some { RawW.base 0x004 f with md := imodBits m, d := o.d.code, a := o.a.code, la := o.a.last, b := o.b.code, lb := o.b.last }
  | .imulh f m o => some { RawW.base 0x005 f with md := imodBits m, d := o.d.code, a := o.a.code, la := o.a.last, b := o.b.code, lb := o.b.last }
  | .imad f m o => some { RawW.base 0x006 f with md := imodBits m, d := o.d.code, a := o.a.code, la := o.a.last, b := o.b.code, lb := o.b.last, c := o.c.code, lc := o.c.last }
  | .imadw f m o => some { RawW.base 0x007 f with md := imodBits m, d := o.d.code, a := o.a.code, la := o.a.last, b := o.b.code, lb := o.b.last, c := o.c.code, lc := o.c.last }
  | .idiv f m o => some { RawW.base 0x008 f with md := imodBits m, d := o.d.code, a := o.a.code, la := o.a.last, b := o.b.code, lb := o.b.last }
  | .irem f m o => some { RawW.base 0x009 f with md := imodBits m, d := o.d.code, a := o.a.code, la := o.a.last, b := o.b.code, lb := o.b.last }
  | .imin f m o => some { RawW.base 0x00a f with md := imodBits m, d := o.d.code, a := o.a.code, la := o.a.last, b := o.b.code, lb := o.b.last }
  | .imax f m o => some { RawW.base 0x00b f with md := imodBits m, d := o.d.code, a := o.a.code, la := o.a.last, b := o.b.code, lb := o.b.last }
  | .iabs f m o => some { RawW.base 0x00c f with md := imodBits m, d := o.d.code, a := o.a.code, la := o.a.last }
  | .ineg f m o => some { RawW.base 0x00d f with md := imodBits m, d := o.d.code, a := o.a.code, la := o.a.last }
  | .idot4 f m o => some { RawW.base 0x00e f with md := imodBits m, d := o.d.code, a := o.a.code, la := o.a.last, b := o.b.code, lb := o.b.last, c := o.c.code, lc := o.c.last }
  | .idot2 f m o => some { RawW.base 0x00f f with md := imodBits m, d := o.d.code, a := o.a.code, la := o.a.last, b := o.b.code, lb := o.b.last, c := o.c.code, lc := o.c.last }
  | .isad f m o => some { RawW.base 0x010 f with md := imodBits m, d := o.d.code, a := o.a.code, la := o.a.last, b := o.b.code, lb := o.b.last, c := o.c.code, lc := o.c.last }
  | .iaddc f m o pc pe => some { RawW.base 0x011 f with md := imodBits m, d := o.d.code, a := o.a.code, la := o.a.last, b := o.b.code, lb := o.b.last, c := predNBits pc, e := pe.setWidth 7 }
  | .lea f o sh => some { RawW.base 0x012 f with d := o.d.code, a := o.a.code, la := o.a.last, b := o.b.code, lb := o.b.last, e := sh.setWidth 7 }
  | .mov f o => some { RawW.base 0x013 f with d := o.d.code, a := o.a.code, la := o.a.last }
  | .movi f m d imm => some { RawW.base 0x014 f with md := imodBits m, d := d.code, a := imm.extractLsb' 0 7, b := imm.extractLsb' 7 7, c := imm.extractLsb' 14 7, e := imm.extractLsb' 21 7 }
  | .movhi f o => some { RawW.base 0x015 f with d := o.d.code, a := o.a.code, la := o.a.last, b := o.b.code, lb := o.b.last }
  | .sel f o pc => some { RawW.base 0x016 f with d := o.d.code, a := o.a.code, la := o.a.last, b := o.b.code, lb := o.b.last, c := predNBits pc }
  | .iclamp f m o => some { RawW.base 0x017 f with md := imodBits m, d := o.d.code, a := o.a.code, la := o.a.last, b := o.b.code, lb := o.b.last, c := o.c.code, lc := o.c.last }
  | .and f o => some { RawW.base 0x040 f with d := o.d.code, a := o.a.code, la := o.a.last, b := o.b.code, lb := o.b.last }
  | .or f o => some { RawW.base 0x041 f with d := o.d.code, a := o.a.code, la := o.a.last, b := o.b.code, lb := o.b.last }
  | .xor f o => some { RawW.base 0x042 f with d := o.d.code, a := o.a.code, la := o.a.last, b := o.b.code, lb := o.b.last }
  | .andn f o => some { RawW.base 0x043 f with d := o.d.code, a := o.a.code, la := o.a.last, b := o.b.code, lb := o.b.last }
  | .not f o => some { RawW.base 0x044 f with d := o.d.code, a := o.a.code, la := o.a.last }
  | .bfn3 f o tab => some { RawW.base 0x045 f with d := o.d.code, a := o.a.code, la := o.a.last, b := o.b.code, lb := o.b.last, c := o.c.code, lc := o.c.last, md := tab.extractLsb' 4 4, e := (tab.setWidth 4).setWidth 7 }
  | .shl f m o => some { RawW.base 0x046 f with md := imodBits m, d := o.d.code, a := o.a.code, la := o.a.last, b := o.b.code, lb := o.b.last }
  | .shr f m o => some { RawW.base 0x047 f with md := imodBits m, d := o.d.code, a := o.a.code, la := o.a.last, b := o.b.code, lb := o.b.last }
  | .sar f m o => some { RawW.base 0x048 f with md := imodBits m, d := o.d.code, a := o.a.code, la := o.a.last, b := o.b.code, lb := o.b.last }
  | .rol f m o => some { RawW.base 0x049 f with md := imodBits m, d := o.d.code, a := o.a.code, la := o.a.last, b := o.b.code, lb := o.b.last }
  | .ror f m o => some { RawW.base 0x04a f with md := imodBits m, d := o.d.code, a := o.a.code, la := o.a.last, b := o.b.code, lb := o.b.last }
  | .fshf f m o => some { RawW.base 0x04b f with md := imodBits m, d := o.d.code, a := o.a.code, la := o.a.last, b := o.b.code, lb := o.b.last, c := o.c.code, lc := o.c.last }
  | .popc f m o => some { RawW.base 0x04c f with md := imodBits m, d := o.d.code, a := o.a.code, la := o.a.last }
  | .clz f m o => some { RawW.base 0x04d f with md := imodBits m, d := o.d.code, a := o.a.code, la := o.a.last }
  | .ctz f m o => some { RawW.base 0x04e f with md := imodBits m, d := o.d.code, a := o.a.code, la := o.a.last }
  | .brev f m o => some { RawW.base 0x04f f with md := imodBits m, d := o.d.code, a := o.a.code, la := o.a.last }
  | .bfx f m o => some { RawW.base 0x050 f with md := imodBits m, d := o.d.code, a := o.a.code, la := o.a.last, b := o.b.code, lb := o.b.last, c := o.c.code, lc := o.c.last }
  | .bfi f m o => some { RawW.base 0x051 f with md := imodBits m, d := o.d.code, a := o.a.code, la := o.a.last, b := o.b.code, lb := o.b.last, c := o.c.code, lc := o.c.last, e := o.e.code, le := o.e.last }
  | .prmb f o => some { RawW.base 0x052 f with d := o.d.code, a := o.a.code, la := o.a.last, b := o.b.code, lb := o.b.last, c := o.c.code, lc := o.c.last }
  | .icmp f m pd o cond anyE => some { RawW.base 0x053 f with md := imodBits m, d := pd.setWidth 7, a := o.a.code, la := o.a.last, b := o.b.code, lb := o.b.last, e := bit1 anyE 3 ||| (condBits cond).setWidth 7 }
  | .pset f pd pa pb tab => some { RawW.base 0x054 f with d := pd.setWidth 7, a := pa.setWidth 7, b := pb.setWidth 7, e := tab.setWidth 7 }
  | .pmov f o msk dir => some { RawW.base 0x055 f with d := o.d.code, a := o.a.code, la := o.a.last, c := msk, e := bit1 dir 0 }
  | .fadd f m o => some { RawW.base 0x080 f with md := fmodBits m, d := o.d.code, a := o.a.code, la := o.a.last, b := o.b.code, lb := o.b.last }
  | .fsub f m o => some { RawW.base 0x081 f with md := fmodBits m, d := o.d.code, a := o.a.code, la := o.a.last, b := o.b.code, lb := o.b.last }
  | .fmul f m o => some { RawW.base 0x082 f with md := fmodBits m, d := o.d.code, a := o.a.code, la := o.a.last, b := o.b.code, lb := o.b.last }
  | .ffma f m o => some { RawW.base 0x083 f with md := fmodBits m, d := o.d.code, a := o.a.code, la := o.a.last, b := o.b.code, lb := o.b.last, c := o.c.code, lc := o.c.last }
  | .fmin f m o => some { RawW.base 0x084 f with md := fmodBits m, d := o.d.code, a := o.a.code, la := o.a.last, b := o.b.code, lb := o.b.last }
  | .fmax f m o => some { RawW.base 0x085 f with md := fmodBits m, d := o.d.code, a := o.a.code, la := o.a.last, b := o.b.code, lb := o.b.last }
  | .fabs f m o => some { RawW.base 0x086 f with md := fmodBits m, d := o.d.code, a := o.a.code, la := o.a.last }
  | .fneg f m o => some { RawW.base 0x087 f with md := fmodBits m, d := o.d.code, a := o.a.code, la := o.a.last }
  | .fcmp f m pd o cond anyE => some { RawW.base 0x088 f with md := fmodBits m, d := pd.setWidth 7, a := o.a.code, la := o.a.last, b := o.b.code, lb := o.b.last, e := bit1 anyE 3 ||| (condBits cond).setWidth 7 }
  | .fclass f m o => some { RawW.base 0x089 f with md := fmodBits m, d := o.d.code, a := o.a.code, la := o.a.last }
  | .fdiv f m o => some { RawW.base 0x08a f with md := fmodBits m, d := o.d.code, a := o.a.code, la := o.a.last, b := o.b.code, lb := o.b.last }
  | .fsqrt f m o => some { RawW.base 0x08b f with md := fmodBits m, d := o.d.code, a := o.a.code, la := o.a.last }
  | .frcp f m o => some { RawW.base 0x08c f with md := fmodBits m, d := o.d.code, a := o.a.code, la := o.a.last }
  | .frsq f m o => some { RawW.base 0x08d f with md := fmodBits m, d := o.d.code, a := o.a.code, la := o.a.last }
  | .fex2 f m o => some { RawW.base 0x08e f with md := fmodBits m, d := o.d.code, a := o.a.code, la := o.a.last }
  | .flg2 f m o => some { RawW.base 0x08f f with md := fmodBits m, d := o.d.code, a := o.a.code, la := o.a.last }
  | .flg2p f m o => some { RawW.base 0x090 f with md := fmodBits m, d := o.d.code, a := o.a.code, la := o.a.last }
  | .fsinpi f m o => some { RawW.base 0x091 f with md := fmodBits m, d := o.d.code, a := o.a.code, la := o.a.last }
  | .fcospi f m o => some { RawW.base 0x092 f with md := fmodBits m, d := o.d.code, a := o.a.code, la := o.a.last }
  | .fdot2 f m o => some { RawW.base 0x093 f with md := fmodBits m, d := o.d.code, a := o.a.code, la := o.a.last, b := o.b.code, lb := o.b.last, c := o.c.code, lc := o.c.last }
  | .fscale f m o => some { RawW.base 0x094 f with md := fmodBits m, d := o.d.code, a := o.a.code, la := o.a.last, b := o.b.code, lb := o.b.last }
  | .frnd f m o => some { RawW.base 0x095 f with md := fmodBits m, d := o.d.code, a := o.a.code, la := o.a.last }
  | .cvt f fmt o cc src part => some { RawW.base 0x0c0 f with md := fmt, d := o.d.code, a := o.a.code, la := o.a.last, b := o.b.code, lb := o.b.last, c := cc.setWidth 7, e := part ++ src }
  | .cvts f fmt o cc src part => some { RawW.base 0x0c1 f with md := fmt, d := o.d.code, a := o.a.code, la := o.a.last, b := o.b.code, lb := o.b.last, c := cc.setWidth 7, e := part ++ src }
  | .cvti f fmt o cc src part => some { RawW.base 0x0c2 f with md := fmt, d := o.d.code, a := o.a.code, la := o.a.last, b := o.b.code, lb := o.b.last, c := cc.setWidth 7, e := part ++ src }
  | .cvtf f fmt o cc src part => some { RawW.base 0x0c3 f with md := fmt, d := o.d.code, a := o.a.code, la := o.a.last, b := o.b.code, lb := o.b.last, c := cc.setWidth 7, e := part ++ src }
  | .packn f fmt o cc src part => some { RawW.base 0x0c4 f with md := fmt, d := o.d.code, a := o.a.code, la := o.a.last, b := o.b.code, lb := o.b.last, c := cc.setWidth 7, e := part ++ src }
  | .unpack f fmt o cc src part => some { RawW.base 0x0c5 f with md := fmt, d := o.d.code, a := o.a.code, la := o.a.last, c := cc.setWidth 7, e := part ++ src }
  | .bxpack f fmt o part wide sel => some { RawW.base 0x0c6 f with md := fmt, d := o.d.code, a := o.a.code, la := o.a.last, b := o.b.code, lb := o.b.last, c := (wide ++ part).setWidth 7, e := sel.setWidth 7 }
  | .bxunp f fmt o part wide sel => some { RawW.base 0x0c7 f with md := fmt, d := o.d.code, a := o.a.code, la := o.a.last, b := o.b.code, lb := o.b.last, c := (wide ++ part).setWidth 7, e := sel.setWidth 7 }
  | .mxpack f fmt o part wide sel => some { RawW.base 0x0c8 f with md := fmt, d := o.d.code, a := o.a.code, la := o.a.last, b := o.b.code, lb := o.b.last, c := (wide ++ part).setWidth 7, e := sel.setWidth 7 }
  | .mxunp f fmt o part wide sel => some { RawW.base 0x0c9 f with md := fmt, d := o.d.code, a := o.a.code, la := o.a.last, b := o.b.code, lb := o.b.last, c := (wide ++ part).setWidth 7, e := sel.setWidth 7 }
  | .sclx f o sfmt sel => some { RawW.base 0x0ca f with d := o.d.code, a := o.a.code, la := o.a.last, c := sfmt.setWidth 7, e := sel.setWidth 7 }
  | .cmode f o => some { RawW.base 0x0cb f with d := o.d.code, a := o.a.code, la := o.a.last, b := o.b.code, lb := o.b.last }
  | .nanct f d => some { RawW.base 0x0cc f with d := d.code }
  | .gjoin f o => some { RawW.base 0x100 f with d := o.d.code, a := o.a.code, la := o.a.last, b := o.b.code, lb := o.b.last }
  | .gleave f => some (RawW.base 0x101 f)
  | .gwait f mk => some { RawW.base 0x102 f with c := mk.setWidth 7 }
  | .gvote f mk pe => some { RawW.base 0x103 f with c := mk.setWidth 7, e := predNBits pe }
  | .mskop f op md ma mb => some { RawW.base 0x104 f with md := mskOpBits op, d := md.setWidth 7, a := ma.setWidth 7, b := mb.setWidth 7 }
  | .mskmov f o mk dir => some { RawW.base 0x105 f with d := o.d.code, a := o.a.code, la := o.a.last, c := mk.setWidth 7, e := bit1 dir 0 }
  | .shfl f m o mk => some { RawW.base 0x106 f with md := imodBits m, d := o.d.code, a := o.a.code, la := o.a.last, b := o.b.code, lb := o.b.last, c := mk.setWidth 7 }
  | .shflx f m o mk => some { RawW.base 0x107 f with md := imodBits m, d := o.d.code, a := o.a.code, la := o.a.last, b := o.b.code, lb := o.b.last, c := mk.setWidth 7 }
  | .shfldn f m o mk => some { RawW.base 0x108 f with md := imodBits m, d := o.d.code, a := o.a.code, la := o.a.last, b := o.b.code, lb := o.b.last, c := mk.setWidth 7 }
  | .shflup f m o mk => some { RawW.base 0x109 f with md := imodBits m, d := o.d.code, a := o.a.code, la := o.a.last, b := o.b.code, lb := o.b.last, c := mk.setWidth 7 }
  | .bcast f m o mk => some { RawW.base 0x10a f with md := imodBits m, d := o.d.code, a := o.a.code, la := o.a.last, b := o.b.code, lb := o.b.last, c := mk.setWidth 7 }
  | .gred f op o mk => some { RawW.base 0x10b f with md := redOpBits op, d := o.d.code, a := o.a.code, la := o.a.last, c := mk.setWidth 7 }
  | .gscan f op o mk => some { RawW.base 0x10c f with md := redOpBits op, d := o.d.code, a := o.a.code, la := o.a.last, c := mk.setWidth 7 }
  | .compress f m o mk => some { RawW.base 0x10d f with md := imodBits m, d := o.d.code, a := o.a.code, la := o.a.last, b := o.b.code, lb := o.b.last, c := mk.setWidth 7 }
  | .expand f m o mk => some { RawW.base 0x10e f with md := imodBits m, d := o.d.code, a := o.a.code, la := o.a.last, b := o.b.code, lb := o.b.last, c := mk.setWidth 7 }
  | .matchRank f m o mk => some { RawW.base 0x10f f with md := imodBits m, d := o.d.code, a := o.a.code, la := o.a.last, c := mk.setWidth 7 }
  | .ginfo f d => some { RawW.base 0x110 f with d := d.code }
  | .bra f off => some { RawW.base 0x140 f with d := off.extractLsb' 0 7, a := off.extractLsb' 7 7, b := off.extractLsb' 14 7, c := off.extractLsb' 21 7, e := off.extractLsb' 28 7 }
  | .brx f a => some { RawW.base 0x141 f with a := a.code, la := a.last }
  | .call f off => some { RawW.base 0x142 f with d := off.extractLsb' 0 7, a := off.extractLsb' 7 7, b := off.extractLsb' 14 7, c := off.extractLsb' 21 7, e := off.extractLsb' 28 7 }
  | .callx f a => some { RawW.base 0x143 f with a := a.code, la := a.last }
  | .ret f => some (RawW.base 0x144 f)
  | .exit f => some (RawW.base 0x145 f)
  | .yield f => some (RawW.base 0x146 f)
  | .nop f => some (RawW.base 0x147 f)
  | .loop f d off => some { RawW.base 0x148 f with d := d.code, a := off.extractLsb' 0 7, b := off.extractLsb' 7 7, c := off.extractLsb' 14 7, e := off.extractLsb' 21 7 }
  | .trap f n => some { RawW.base 0x149 f with a := n.extractLsb' 0 7, b := n.extractLsb' 7 7 }
  | .brk f n => some { RawW.base 0x14a f with a := n.extractLsb' 0 7, b := n.extractLsb' 7 7 }
  | .waita f o => some { RawW.base 0x14b f with d := o.d.code, a := o.a.code, la := o.a.last, b := o.b.code, lb := o.b.last, c := o.c.code, lc := o.c.last }
  | .sleep f a => some { RawW.base 0x14c f with a := a.code, la := a.last }
  | .ld f sz h o off => some { RawW.base 0x180 f with md := mmodBits sz, hint := hintBits h, d := o.d.code, a := o.a.code, la := o.a.last, c := off.setWidth 7, e := off.extractLsb' 7 7 }
  | .st f sz h o off => some { RawW.base 0x181 f with md := mmodBits sz, hint := hintBits h, a := o.a.code, la := o.a.last, b := o.b.code, lb := o.b.last, c := off.setWidth 7, e := off.extractLsb' 7 7 }
  | .ldacq f sz h o off => some { RawW.base 0x182 f with md := mmodBits sz, hint := hintBits h, d := o.d.code, a := o.a.code, la := o.a.last, c := off.setWidth 7, e := off.extractLsb' 7 7 }
  | .strel f sz h o off => some { RawW.base 0x183 f with md := mmodBits sz, hint := hintBits h, a := o.a.code, la := o.a.last, b := o.b.code, lb := o.b.last, c := off.setWidth 7, e := off.extractLsb' 7 7 }
  | .ldvt f sz h o off => some { RawW.base 0x184 f with md := mmodBits sz, hint := hintBits h, d := o.d.code, a := o.a.code, la := o.a.last, c := off.setWidth 7, e := off.extractLsb' 7 7 }
  | .stvt f sz h o off => some { RawW.base 0x185 f with md := mmodBits sz, hint := hintBits h, a := o.a.code, la := o.a.last, b := o.b.code, lb := o.b.last, c := off.setWidth 7, e := off.extractLsb' 7 7 }
  | .ldls f sz h o off => some { RawW.base 0x186 f with md := mmodBits sz, hint := hintBits h, d := o.d.code, a := o.a.code, la := o.a.last, c := off.setWidth 7, e := off.extractLsb' 7 7 }
  | .stls f sz h o off => some { RawW.base 0x187 f with md := mmodBits sz, hint := hintBits h, a := o.a.code, la := o.a.last, b := o.b.code, lb := o.b.last, c := off.setWidth 7, e := off.extractLsb' 7 7 }
  | .ldgx f sz h o off => some { RawW.base 0x188 f with md := mmodBits sz, hint := hintBits h, d := o.d.code, a := o.a.code, la := o.a.last, b := o.b.code, lb := o.b.last, c := off.setWidth 7, e := off.extractLsb' 7 7 }
  | .pref f h a off => some { RawW.base 0x189 f with hint := hintBits h, a := a.code, la := a.last, c := off.setWidth 7, e := off.extractLsb' 7 7 }
  | .cflush f h a off => some { RawW.base 0x18a f with hint := hintBits h, a := a.code, la := a.last, c := off.setWidth 7, e := off.extractLsb' 7 7 }
  | .cinv f h a off => some { RawW.base 0x18b f with hint := hintBits h, a := a.code, la := a.last, c := off.setWidth 7, e := off.extractLsb' 7 7 }
  | .aadd f m h o => some { RawW.base 0x1c0 f with md := amodBits m, hint := hintBits h, d := o.d.code, a := o.a.code, la := o.a.last, b := o.b.code, lb := o.b.last }
  | .amin f m h o => some { RawW.base 0x1c1 f with md := amodBits m, hint := hintBits h, d := o.d.code, a := o.a.code, la := o.a.last, b := o.b.code, lb := o.b.last }
  | .amax f m h o => some { RawW.base 0x1c2 f with md := amodBits m, hint := hintBits h, d := o.d.code, a := o.a.code, la := o.a.last, b := o.b.code, lb := o.b.last }
  | .aand f m h o => some { RawW.base 0x1c3 f with md := amodBits m, hint := hintBits h, d := o.d.code, a := o.a.code, la := o.a.last, b := o.b.code, lb := o.b.last }
  | .aor f m h o => some { RawW.base 0x1c4 f with md := amodBits m, hint := hintBits h, d := o.d.code, a := o.a.code, la := o.a.last, b := o.b.code, lb := o.b.last }
  | .axor f m h o => some { RawW.base 0x1c5 f with md := amodBits m, hint := hintBits h, d := o.d.code, a := o.a.code, la := o.a.last, b := o.b.code, lb := o.b.last }
  | .axchg f m h o => some { RawW.base 0x1c6 f with md := amodBits m, hint := hintBits h, d := o.d.code, a := o.a.code, la := o.a.last, b := o.b.code, lb := o.b.last }
  | .acas f m h o pe => some { RawW.base 0x1c7 f with md := amodBits m, hint := hintBits h, d := o.d.code, a := o.a.code, la := o.a.last, b := o.b.code, lb := o.b.last, c := o.c.code, lc := o.c.last, e := pe.setWidth 7 }
  | .aincw f m h o => some { RawW.base 0x1c8 f with md := amodBits m, hint := hintBits h, d := o.d.code, a := o.a.code, la := o.a.last, b := o.b.code, lb := o.b.last }
  | .adecw f m h o => some { RawW.base 0x1c9 f with md := amodBits m, hint := hintBits h, d := o.d.code, a := o.a.code, la := o.a.last, b := o.b.code, lb := o.b.last }
  | .abadd f m h o pe => some { RawW.base 0x1ca f with md := amodBits m, hint := hintBits h, d := o.d.code, a := o.a.code, la := o.a.last, b := o.b.code, lb := o.b.last, c := o.c.code, lc := o.c.last, e := pe.setWidth 7 }
  | .afadd f m h o => some { RawW.base 0x1cb f with md := amodBits m, hint := hintBits h, d := o.d.code, a := o.a.code, la := o.a.last, b := o.b.code, lb := o.b.last }
  | .redadd f m h o => some { RawW.base 0x1cc f with md := amodBits m, hint := hintBits h, a := o.a.code, la := o.a.last, b := o.b.code, lb := o.b.last }
  | .redfadd f m h o => some { RawW.base 0x1cd f with md := amodBits m, hint := hintBits h, a := o.a.code, la := o.a.last, b := o.b.code, lb := o.b.last }
  | .redmin f m h o => some { RawW.base 0x1ce f with md := amodBits m, hint := hintBits h, a := o.a.code, la := o.a.last, b := o.b.code, lb := o.b.last }
  | .redmax f m h o => some { RawW.base 0x1cf f with md := amodBits m, hint := hintBits h, a := o.a.code, la := o.a.last, b := o.b.code, lb := o.b.last }
  | .fence f sc h kind => some { RawW.base 0x1d0 f with md := scopeBits sc ++ 0#1, hint := hintBits h, e := (fenceKindBits kind).setWidth 7 }
  | .sdrain f h => some { RawW.base 0x1d1 f with hint := hintBits h }
  | .barinit f b a => some { RawW.base 0x200 f with b := b.setWidth 7, c := (b.extractLsb' 7 3).setWidth 7, a := a.code, la := a.last }
  | .bararv f d b => some { RawW.base 0x201 f with d := d.code, b := b.setWidth 7, c := (b.extractLsb' 7 3).setWidth 7 }
  | .barwait f b a => some { RawW.base 0x202 f with b := b.setWidth 7, c := (b.extractLsb' 7 3).setWidth 7, a := a.code, la := a.last }
  | .barsync f b => some { RawW.base 0x203 f with b := b.setWidth 7, c := (b.extractLsb' 7 3).setWidth 7 }
  | .barqry f d b => some { RawW.base 0x204 f with d := d.code, b := b.setWidth 7, c := (b.extractLsb' 7 3).setWidth 7 }
  | .lbar f d => some { RawW.base 0x205 f with d := d.code }
  | .shrmap f a => some { RawW.base 0x206 f with a := a.code, la := a.last }
  | .shrunmap f => some (RawW.base 0x207 f)
  | .rdfe f o => some { RawW.base 0x208 f with d := o.d.code, a := o.a.code, la := o.a.last }
  | .wrfe f o => some { RawW.base 0x209 f with d := o.d.code, a := o.a.code, la := o.a.last }
  | .qpush f ga lu q => some { RawW.base 0x20a f with a := ga.setWidth 7, la := lu, b := q.setWidth 7 }
  | .qpop f gd q pn => some { RawW.base 0x20b f with d := gd.setWidth 7, b := q.setWidth 7, c := pn.setWidth 7 }
  | .tdef f a t => some { RawW.base 0x240 f with a := a.code, la := a.last, c := t.setWidth 7 }
  | .tqry f d t wd => some { RawW.base 0x241 f with d := d.code, c := t.setWidth 7, b := bit1 wd 0 }
  | .tready f t => some { RawW.base 0x242 f with c := t.setWidth 7 }
  | .tempty f t => some { RawW.base 0x243 f with c := t.setWidth 7 }
  | .twait f ws d t => some { RawW.base 0x244 f with md := tstateBits ws ++ 0#2, d := d.code, c := t.setWidth 7 }
  | .tstb f o t => some { RawW.base 0x245 f with a := o.a.code, la := o.a.last, b := o.b.code, lb := o.b.last, c := t.setWidth 7 }
  | .tldb f d b t => some { RawW.base 0x246 f with d := d.code, b := b.code, lb := b.last, c := t.setWidth 7 }
  | .shadow f o => some { RawW.base 0x247 f with a := o.a.code, la := o.a.last, b := o.b.code, lb := o.b.last, c := o.c.code, lc := o.c.last, e := o.e.code, le := o.e.last }
  | .publish f sc a => some { RawW.base 0x248 f with md := scopeBits sc ++ 0#1, a := a.code, la := a.last }
  | .cpy f rel h o => some { RawW.base 0x280 f with md := bit1 rel 0, hint := hintBits h, d := o.d.code, a := o.a.code, la := o.a.last, b := o.b.code, lb := o.b.last, c := o.c.code, lc := o.c.last, e := o.e.code, le := o.e.last }
  | .cpym f rel h o => some { RawW.base 0x281 f with md := bit1 rel 0, hint := hintBits h, d := o.d.code, a := o.a.code, la := o.a.last, b := o.b.code, lb := o.b.last, c := o.c.code, lc := o.c.last, e := o.e.code, le := o.e.last }
  | .mma f h o => some { RawW.base 0x282 f with hint := hintBits h, d := o.d.code, a := o.a.code, la := o.a.last }
  | .mmab f h o => some { RawW.base 0x283 f with hint := hintBits h, d := o.d.code, a := o.a.code, la := o.a.last }
  | .mmac f h o => some { RawW.base 0x284 f with hint := hintBits h, d := o.d.code, a := o.a.code, la := o.a.last, b := o.b.code, lb := o.b.last }
  | .mepi f h o => some { RawW.base 0x285 f with hint := hintBits h, d := o.d.code, a := o.a.code, la := o.a.last, b := o.b.code, lb := o.b.last, c := o.c.code, lc := o.c.last, e := o.e.code, le := o.e.last }
  | .tarm f h o t wr => some { RawW.base 0x286 f with hint := hintBits h, a := o.a.code, la := o.a.last, b := o.b.code, lb := o.b.last, c := t.setWidth 7, e := wr.setWidth 7 }
  | .route f h o wr => some { RawW.base 0x287 f with hint := hintBits h, a := o.a.code, la := o.a.last, b := o.b.code, lb := o.b.last, e := wr.setWidth 7 }
  | .collBind f rel h o => some { RawW.base 0x288 f with md := bit1 rel 0, hint := hintBits h, d := o.d.code, a := o.a.code, la := o.a.last, b := o.b.code, lb := o.b.last, c := o.c.code, lc := o.c.last, e := o.e.code, le := o.e.last }
  | .collReduceScatter f rel h o => some { RawW.base 0x288 f with md := bit1 rel 0, hint := hintBits h, d := o.d.code, a := o.a.code, la := o.a.last, b := o.b.code, lb := o.b.last, c := o.c.code, lc := o.c.last, e := o.e.code, le := o.e.last }
  | .collAllGather f rel h o => some { RawW.base 0x288 f with md := bit1 rel 0, hint := hintBits h, d := o.d.code, a := o.a.code, la := o.a.last, b := o.b.code, lb := o.b.last, c := o.c.code, lc := o.c.last, e := o.e.code, le := o.e.last }
  | .collAllReduceRing f rel h o => some { RawW.base 0x288 f with md := bit1 rel 0, hint := hintBits h, d := o.d.code, a := o.a.code, la := o.a.last, b := o.b.code, lb := o.b.last, c := o.c.code, lc := o.c.last, e := o.e.code, le := o.e.last }
  | .collAllReduceTree f rel h o => some { RawW.base 0x288 f with md := bit1 rel 0, hint := hintBits h, d := o.d.code, a := o.a.code, la := o.a.last, b := o.b.code, lb := o.b.last, c := o.c.code, lc := o.c.last, e := o.e.code, le := o.e.last }
  | .collBroadcast f rel h o => some { RawW.base 0x288 f with md := bit1 rel 0, hint := hintBits h, d := o.d.code, a := o.a.code, la := o.a.last, b := o.b.code, lb := o.b.last, c := o.c.code, lc := o.c.last, e := o.e.code, le := o.e.last }
  | .collBarrier f rel h o => some { RawW.base 0x288 f with md := bit1 rel 0, hint := hintBits h, d := o.d.code, a := o.a.code, la := o.a.last, b := o.b.code, lb := o.b.last, c := o.c.code, lc := o.c.last, e := o.e.code, le := o.e.last }
  | .collDrawMerge f rel h o => some { RawW.base 0x288 f with md := bit1 rel 0, hint := hintBits h, d := o.d.code, a := o.a.code, la := o.a.last, b := o.b.code, lb := o.b.last, c := o.c.code, lc := o.c.last, e := o.e.code, le := o.e.last }
  | .cwait f h o => some { RawW.base 0x289 f with hint := hintBits h, d := o.d.code, a := o.a.code, la := o.a.last, b := o.b.code, lb := o.b.last }
  | .ccancel f h o => some { RawW.base 0x28a f with hint := hintBits h, d := o.d.code, a := o.a.code, la := o.a.last }
  | .engq f h o => some { RawW.base 0x28b f with hint := hintBits h, d := o.d.code, a := o.a.code, la := o.a.last, b := o.b.code, lb := o.b.last }
  | .drawl f o => some { RawW.base 0x2c0 f with d := o.d.code, a := o.a.code, la := o.a.last, b := o.b.code, lb := o.b.last }
  | .drawg f o => some { RawW.base 0x2c1 f with d := o.d.code, a := o.a.code, la := o.a.last, b := o.b.code, lb := o.b.last, c := o.c.code, lc := o.c.last }
  | .dmrg f lg o => some { RawW.base 0x2c2 f with md := bit1 lg 0, d := o.d.code, a := o.a.code, la := o.a.last, b := o.b.code, lb := o.b.last, c := o.c.code, lc := o.c.last }
  | .gdraw f lg o mk => some { RawW.base 0x2c3 f with md := bit1 lg 0, d := o.d.code, a := o.a.code, la := o.a.last, b := o.b.code, lb := o.b.last, c := mk.setWidth 7 }
  | .dseed f a => some { RawW.base 0x2c4 f with a := a.code, la := a.last }
  | .drnd f o => some { RawW.base 0x2c5 f with d := o.d.code, a := o.a.code, la := o.a.last }
  | .sysrd f o => some { RawW.base 0x300 f with d := o.d.code, a := o.a.code, la := o.a.last }
  | .syswr f o => some { RawW.base 0x301 f with a := o.a.code, la := o.a.last, b := o.b.code, lb := o.b.last }
  | .injectWrite f o => some { RawW.base 0x301 f with a := o.a.code, la := o.a.last, b := o.b.code, lb := o.b.last }
  | .launch f o => some { RawW.base 0x302 f with d := o.d.code, a := o.a.code, la := o.a.last }
  | .lwait f o => some { RawW.base 0x303 f with d := o.d.code, a := o.a.code, la := o.a.last, b := o.b.code, lb := o.b.last }
  | .thrctlResume f o => some { RawW.base 0x304 f with d := o.d.code, a := o.a.code, la := o.a.last, b := o.b.code, lb := o.b.last, e := 0 }
  | .thrctlRedirect f o => some { RawW.base 0x304 f with d := o.d.code, a := o.a.code, la := o.a.last, b := o.b.code, lb := o.b.last, e := 1 }
  | .thrctlKill f o => some { RawW.base 0x304 f with d := o.d.code, a := o.a.code, la := o.a.last, b := o.b.code, lb := o.b.last, e := 2 }
  | .thrctlStop f o => some { RawW.base 0x304 f with d := o.d.code, a := o.a.code, la := o.a.last, b := o.b.code, lb := o.b.last, e := 3 }
  | .thrctlGetst f o => some { RawW.base 0x304 f with d := o.d.code, a := o.a.code, la := o.a.last, b := o.b.code, lb := o.b.last, e := 4 }
  | .thrctlSetst f o => some { RawW.base 0x304 f with d := o.d.code, a := o.a.code, la := o.a.last, b := o.b.code, lb := o.b.last, e := 5 }
  | .xret f a => some { RawW.base 0x305 f with a := a.code, la := a.last }
  | .barsave f o => some { RawW.base 0x306 f with d := o.d.code, a := o.a.code, la := o.a.last, b := o.b.code, lb := o.b.last }
  | .barrest f o => some { RawW.base 0x307 f with d := o.d.code, a := o.a.code, la := o.a.last, b := o.b.code, lb := o.b.last }
  | .tlbinv f sc o => some { RawW.base 0x308 f with md := scopeBits sc ++ 0#1, a := o.a.code, la := o.a.last, b := o.b.code, lb := o.b.last }
  | .mapset f o => some { RawW.base 0x309 f with d := o.d.code, a := o.a.code, la := o.a.last, b := o.b.code, lb := o.b.last }
  | .selftest f o => some { RawW.base 0x30a f with d := o.d.code, a := o.a.code, la := o.a.last }
  | .errrd f o => some { RawW.base 0x30b f with d := o.d.code, a := o.a.code, la := o.a.last, b := o.b.code, lb := o.b.last }
  | .featrd f o => some { RawW.base 0x30c f with d := o.d.code, a := o.a.code, la := o.a.last }
  | .ctxswCreate f o => some { RawW.base 0x30d f with d := o.d.code, a := o.a.code, la := o.a.last, b := o.b.code, lb := o.b.last, e := 0 }
  | .ctxswDestroy f o => some { RawW.base 0x30d f with d := o.d.code, a := o.a.code, la := o.a.last, b := o.b.code, lb := o.b.last, e := 1 }
  | .ctxswPreempt f o => some { RawW.base 0x30d f with d := o.d.code, a := o.a.code, la := o.a.last, b := o.b.code, lb := o.b.last, e := 2 }
  | .ctxswResume f o => some { RawW.base 0x30d f with d := o.d.code, a := o.a.code, la := o.a.last, b := o.b.code, lb := o.b.last, e := 3 }
  | .ixset f ix a => some { RawW.base 0x340 f with d := ix.setWidth 7, a := a.code, la := a.last }
  | .ixget f d ix => some { RawW.base 0x341 f with d := d.code, a := ix.setWidth 7 }
  | .ixadv f ix a ew => some { RawW.base 0x342 f with d := ix.setWidth 7, a := a.code, la := a.last, b := (widthBits ew).setWidth 7 }
  | .xacq f => some (RawW.base 0x343 f)
  | .xrel f => some (RawW.base 0x344 f)
  | .xqry f d => some { RawW.base 0x345 f with d := d.code }
  | .illegalInstruction _ _ _ => none
  | .pipePick _ _ _ => none
  | .heldRecordWrite _ => none
  | .loadReturn _ _ _ => none
  | .storePerform _ _ => none
  | .waitaWake _ _ => none
  | .waitaTimeout _ _ => none
  | .sleepExpire _ => none
  | .progressWatchdog _ _ => none
  | .poolDeadlock _ => none
  | .resourceRoomResume _ _ => none
  | .rebalance _ => none
  | .launchStart _ _ => none
  | .startBarrierTimeout _ => none
  | .launchComplete _ => none
  | .lbarRelease _ _ => none
  | .treadyComplete _ _ => none
  | .twaitComplete _ _ => none
  | .copyComplete _ _ _ => none
  | .copyFailure _ _ _ => none
  | .slabStep _ _ => none
  | .mmacTimeout _ => none
  | .epilogueRowStep _ _ => none
  | .engineArbitrate _ _ _ => none
  | .chunkData _ _ _ => none
  | .chunkTriggered _ _ _ => none
  | .chunkAcknowledgement _ _ => none
  | .barrierToken _ _ => none
  | .chunkRefusal _ _ => none
  | .collBindTimeout _ _ => none
  | .collMatchTimeout _ _ => none
  | .ringReform _ _ => none
  | .dataFlit _ _ _ => none
  | .linkAck _ _ _ => none
  | .linkNak _ _ _ => none
  | .creditFlit _ _ _ => none
  | .ackTimer _ _ => none
  | .retryTimeout _ _ => none
  | .laneSpare _ _ _ => none
  | .portDown _ _ => none
  | .portUp _ _ => none
  | .gets _ _ => none
  | .getm _ _ => none
  | .getu _ _ => none
  | .putm _ _ => none
  | .puto _ _ => none
  | .putu _ _ => none
  | .flush _ _ => none
  | .inv _ _ => none
  | .fwdgets _ _ => none
  | .fwdgetm _ _ => none
  | .collect _ _ => none
  | .ack _ _ => none
  | .data _ _ => none
  | .nakfirewall _ _ => none
  | .errsynth _ _ => none
  | .homeDequeueRequest _ => none
  | .cacheEviction _ _ _ _ => none
  | .requestTimeout _ _ => none
  | .probe _ _ _ => none
  | .probeReply _ _ _ => none
  | .lossDeclare _ _ => none
  | .lossNotice _ _ _ => none
  | .memoryScrub _ _ => none
  | .laneEyeMeasure _ _ _ _ _ => none
  | .channelSpared _ _ _ => none
  | .regionCompare _ => none
  | .rdmaWrite _ _ _ _ _ => none
  | .rdmaRead _ _ _ _ _ => none
  | .compareSwap _ _ _ _ _ _ => none
  | .fetchAdd _ _ _ _ _ => none
  | .invalidRequest _ _ _ => none
  | .featTakeWrite _ _ _ _ => none
  | .featLockWrite _ _ _ => none
  | .attGo _ _ _ => none
  | .cmdFirewallEntry _ => none
  | .cmdEgressFilter _ => none
  | .cmdRateLimiter _ => none
  | .controlPageWrite _ _ _ _ => none
  | .packageReset _ => none
  | .powerSample _ _ => none
  | .thermalThrottle _ _ => none
  | .thermalRecover _ _ => none
  | .thermalReset _ _ => none
  | .variableLatencyResult _ _ => none
  | .selftestResult _ _ _ _ _ => none
  | .attestationReport _ => none
  | .commandApplied _ => none
  | .launchAnswer _ => none
  | .tokenAccrual _ _ => none

/-- The literal of the one operand that is one. -/
def firstLiteral (l : List Src) : Option Word := l.findSome? Src.literal?

/-- The literal word of an instruction, if an operand takes one. -/
def literalOf : Instr → Option Word
  | .iadd _ _ o => firstLiteral [o.a, o.b]
  | .isub _ _ o => firstLiteral [o.a, o.b]
  | .iadds _ _ o _ => firstLiteral [o.a, o.b]
  | .isubs _ _ o _ => firstLiteral [o.a, o.b]
  | .imul _ _ o => firstLiteral [o.a, o.b]
  | .imulh _ _ o => firstLiteral [o.a, o.b]
  | .imad _ _ o => firstLiteral [o.a, o.b, o.c]
  | .imadw _ _ o => firstLiteral [o.a, o.b, o.c]
  | .idiv _ _ o => firstLiteral [o.a, o.b]
  | .irem _ _ o => firstLiteral [o.a, o.b]
  | .imin _ _ o => firstLiteral [o.a, o.b]
  | .imax _ _ o => firstLiteral [o.a, o.b]
  | .iabs _ _ o => firstLiteral [o.a]
  | .ineg _ _ o => firstLiteral [o.a]
  | .idot4 _ _ o => firstLiteral [o.a, o.b, o.c]
  | .idot2 _ _ o => firstLiteral [o.a, o.b, o.c]
  | .isad _ _ o => firstLiteral [o.a, o.b, o.c]
  | .iaddc _ _ o _ _ => firstLiteral [o.a, o.b]
  | .lea _ o _ => firstLiteral [o.a, o.b]
  | .mov _ o => firstLiteral [o.a]
  | .movi _ _ _ _ => none
  | .movhi _ o => firstLiteral [o.a, o.b]
  | .sel _ o _ => firstLiteral [o.a, o.b]
  | .iclamp _ _ o => firstLiteral [o.a, o.b, o.c]
  | .and _ o => firstLiteral [o.a, o.b]
  | .or _ o => firstLiteral [o.a, o.b]
  | .xor _ o => firstLiteral [o.a, o.b]
  | .andn _ o => firstLiteral [o.a, o.b]
  | .not _ o => firstLiteral [o.a]
  | .bfn3 _ o _ => firstLiteral [o.a, o.b, o.c]
  | .shl _ _ o => firstLiteral [o.a, o.b]
  | .shr _ _ o => firstLiteral [o.a, o.b]
  | .sar _ _ o => firstLiteral [o.a, o.b]
  | .rol _ _ o => firstLiteral [o.a, o.b]
  | .ror _ _ o => firstLiteral [o.a, o.b]
  | .fshf _ _ o => firstLiteral [o.a, o.b, o.c]
  | .popc _ _ o => firstLiteral [o.a]
  | .clz _ _ o => firstLiteral [o.a]
  | .ctz _ _ o => firstLiteral [o.a]
  | .brev _ _ o => firstLiteral [o.a]
  | .bfx _ _ o => firstLiteral [o.a, o.b, o.c]
  | .bfi _ _ o => firstLiteral [o.a, o.b, o.c, o.e]
  | .prmb _ o => firstLiteral [o.a, o.b, o.c]
  | .icmp _ _ _ o _ _ => firstLiteral [o.a, o.b]
  | .pset _ _ _ _ _ => none
  | .pmov _ o _ _ => firstLiteral [o.a]
  | .fadd _ _ o => firstLiteral [o.a, o.b]
  | .fsub _ _ o => firstLiteral [o.a, o.b]
  | .fmul _ _ o => firstLiteral [o.a, o.b]
  | .ffma _ _ o => firstLiteral [o.a, o.b, o.c]
  | .fmin _ _ o => firstLiteral [o.a, o.b]
  | .fmax _ _ o => firstLiteral [o.a, o.b]
  | .fabs _ _ o => firstLiteral [o.a]
  | .fneg _ _ o => firstLiteral [o.a]
  | .fcmp _ _ _ o _ _ => firstLiteral [o.a, o.b]
  | .fclass _ _ o => firstLiteral [o.a]
  | .fdiv _ _ o => firstLiteral [o.a, o.b]
  | .fsqrt _ _ o => firstLiteral [o.a]
  | .frcp _ _ o => firstLiteral [o.a]
  | .frsq _ _ o => firstLiteral [o.a]
  | .fex2 _ _ o => firstLiteral [o.a]
  | .flg2 _ _ o => firstLiteral [o.a]
  | .flg2p _ _ o => firstLiteral [o.a]
  | .fsinpi _ _ o => firstLiteral [o.a]
  | .fcospi _ _ o => firstLiteral [o.a]
  | .fdot2 _ _ o => firstLiteral [o.a, o.b, o.c]
  | .fscale _ _ o => firstLiteral [o.a, o.b]
  | .frnd _ _ o => firstLiteral [o.a]
  | .cvt _ _ o _ _ _ => firstLiteral [o.a, o.b]
  | .cvts _ _ o _ _ _ => firstLiteral [o.a, o.b]
  | .cvti _ _ o _ _ _ => firstLiteral [o.a, o.b]
  | .cvtf _ _ o _ _ _ => firstLiteral [o.a, o.b]
  | .packn _ _ o _ _ _ => firstLiteral [o.a, o.b]
  | .unpack _ _ o _ _ _ => firstLiteral [o.a]
  | .bxpack _ _ o _ _ _ => firstLiteral [o.a, o.b]
  | .bxunp _ _ o _ _ _ => firstLiteral [o.a, o.b]
  | .mxpack _ _ o _ _ _ => firstLiteral [o.a, o.b]
  | .mxunp _ _ o _ _ _ => firstLiteral [o.a, o.b]
  | .sclx _ o _ _ => firstLiteral [o.a]
  | .cmode _ o => firstLiteral [o.a, o.b]
  | .nanct _ _ => none
  | .gjoin _ o => firstLiteral [o.a, o.b]
  | .gleave _ => none
  | .gwait _ _ => none
  | .gvote _ _ _ => none
  | .mskop _ _ _ _ _ => none
  | .mskmov _ o _ _ => firstLiteral [o.a]
  | .shfl _ _ o _ => firstLiteral [o.a, o.b]
  | .shflx _ _ o _ => firstLiteral [o.a, o.b]
  | .shfldn _ _ o _ => firstLiteral [o.a, o.b]
  | .shflup _ _ o _ => firstLiteral [o.a, o.b]
  | .bcast _ _ o _ => firstLiteral [o.a, o.b]
  | .gred _ _ o _ => firstLiteral [o.a]
  | .gscan _ _ o _ => firstLiteral [o.a]
  | .compress _ _ o _ => firstLiteral [o.a, o.b]
  | .expand _ _ o _ => firstLiteral [o.a, o.b]
  | .matchRank _ _ o _ => firstLiteral [o.a]
  | .ginfo _ _ => none
  | .bra _ _ => none
  | .brx _ a => firstLiteral [a]
  | .call _ _ => none
  | .callx _ a => firstLiteral [a]
  | .ret _ => none
  | .exit _ => none
  | .yield _ => none
  | .nop _ => none
  | .loop _ _ _ => none
  | .trap _ _ => none
  | .brk _ _ => none
  | .waita _ o => firstLiteral [o.a, o.b, o.c]
  | .sleep _ a => firstLiteral [a]
  | .ld _ _ _ o _ => firstLiteral [o.a]
  | .st _ _ _ o _ => firstLiteral [o.a, o.b]
  | .ldacq _ _ _ o _ => firstLiteral [o.a]
  | .strel _ _ _ o _ => firstLiteral [o.a, o.b]
  | .ldvt _ _ _ o _ => firstLiteral [o.a]
  | .stvt _ _ _ o _ => firstLiteral [o.a, o.b]
  | .ldls _ _ _ o _ => firstLiteral [o.a]
  | .stls _ _ _ o _ => firstLiteral [o.a, o.b]
  | .ldgx _ _ _ o _ => firstLiteral [o.a, o.b]
  | .pref _ _ a _ => firstLiteral [a]
  | .cflush _ _ a _ => firstLiteral [a]
  | .cinv _ _ a _ => firstLiteral [a]
  | .aadd _ _ _ o => firstLiteral [o.a, o.b]
  | .amin _ _ _ o => firstLiteral [o.a, o.b]
  | .amax _ _ _ o => firstLiteral [o.a, o.b]
  | .aand _ _ _ o => firstLiteral [o.a, o.b]
  | .aor _ _ _ o => firstLiteral [o.a, o.b]
  | .axor _ _ _ o => firstLiteral [o.a, o.b]
  | .axchg _ _ _ o => firstLiteral [o.a, o.b]
  | .acas _ _ _ o _ => firstLiteral [o.a, o.b, o.c]
  | .aincw _ _ _ o => firstLiteral [o.a, o.b]
  | .adecw _ _ _ o => firstLiteral [o.a, o.b]
  | .abadd _ _ _ o _ => firstLiteral [o.a, o.b, o.c]
  | .afadd _ _ _ o => firstLiteral [o.a, o.b]
  | .redadd _ _ _ o => firstLiteral [o.a, o.b]
  | .redfadd _ _ _ o => firstLiteral [o.a, o.b]
  | .redmin _ _ _ o => firstLiteral [o.a, o.b]
  | .redmax _ _ _ o => firstLiteral [o.a, o.b]
  | .fence _ _ _ _ => none
  | .sdrain _ _ => none
  | .barinit _ _ a => firstLiteral [a]
  | .bararv _ _ _ => none
  | .barwait _ _ a => firstLiteral [a]
  | .barsync _ _ => none
  | .barqry _ _ _ => none
  | .lbar _ _ => none
  | .shrmap _ a => firstLiteral [a]
  | .shrunmap _ => none
  | .rdfe _ o => firstLiteral [o.a]
  | .wrfe _ o => firstLiteral [o.a]
  | .qpush _ _ _ _ => none
  | .qpop _ _ _ _ => none
  | .tdef _ a _ => firstLiteral [a]
  | .tqry _ _ _ _ => none
  | .tready _ _ => none
  | .tempty _ _ => none
  | .twait _ _ _ _ => none
  | .tstb _ o _ => firstLiteral [o.a, o.b]
  | .tldb _ _ b _ => firstLiteral [b]
  | .shadow _ o => firstLiteral [o.a, o.b, o.c, o.e]
  | .publish _ _ a => firstLiteral [a]
  | .cpy _ _ _ o => firstLiteral [o.a, o.b, o.c, o.e]
  | .cpym _ _ _ o => firstLiteral [o.a, o.b, o.c, o.e]
  | .mma _ _ o => firstLiteral [o.a]
  | .mmab _ _ o => firstLiteral [o.a]
  | .mmac _ _ o => firstLiteral [o.a, o.b]
  | .mepi _ _ o => firstLiteral [o.a, o.b, o.c, o.e]
  | .tarm _ _ o _ _ => firstLiteral [o.a, o.b]
  | .route _ _ o _ => firstLiteral [o.a, o.b]
  | .collBind _ _ _ o => firstLiteral [o.a, o.b, o.c, o.e]
  | .collReduceScatter _ _ _ o => firstLiteral [o.a, o.b, o.c, o.e]
  | .collAllGather _ _ _ o => firstLiteral [o.a, o.b, o.c, o.e]
  | .collAllReduceRing _ _ _ o => firstLiteral [o.a, o.b, o.c, o.e]
  | .collAllReduceTree _ _ _ o => firstLiteral [o.a, o.b, o.c, o.e]
  | .collBroadcast _ _ _ o => firstLiteral [o.a, o.b, o.c, o.e]
  | .collBarrier _ _ _ o => firstLiteral [o.a, o.b, o.c, o.e]
  | .collDrawMerge _ _ _ o => firstLiteral [o.a, o.b, o.c, o.e]
  | .cwait _ _ o => firstLiteral [o.a, o.b]
  | .ccancel _ _ o => firstLiteral [o.a]
  | .engq _ _ o => firstLiteral [o.a, o.b]
  | .drawl _ o => firstLiteral [o.a, o.b]
  | .drawg _ o => firstLiteral [o.a, o.b, o.c]
  | .dmrg _ _ o => firstLiteral [o.a, o.b, o.c]
  | .gdraw _ _ o _ => firstLiteral [o.a, o.b]
  | .dseed _ a => firstLiteral [a]
  | .drnd _ o => firstLiteral [o.a]
  | .sysrd _ o => firstLiteral [o.a]
  | .syswr _ o => firstLiteral [o.a, o.b]
  | .injectWrite _ o => firstLiteral [o.a, o.b]
  | .launch _ o => firstLiteral [o.a]
  | .lwait _ o => firstLiteral [o.a, o.b]
  | .thrctlResume _ o => firstLiteral [o.a, o.b]
  | .thrctlRedirect _ o => firstLiteral [o.a, o.b]
  | .thrctlKill _ o => firstLiteral [o.a, o.b]
  | .thrctlStop _ o => firstLiteral [o.a, o.b]
  | .thrctlGetst _ o => firstLiteral [o.a, o.b]
  | .thrctlSetst _ o => firstLiteral [o.a, o.b]
  | .xret _ a => firstLiteral [a]
  | .barsave _ o => firstLiteral [o.a, o.b]
  | .barrest _ o => firstLiteral [o.a, o.b]
  | .tlbinv _ _ o => firstLiteral [o.a, o.b]
  | .mapset _ o => firstLiteral [o.a, o.b]
  | .selftest _ o => firstLiteral [o.a]
  | .errrd _ o => firstLiteral [o.a, o.b]
  | .featrd _ o => firstLiteral [o.a]
  | .ctxswCreate _ o => firstLiteral [o.a, o.b]
  | .ctxswDestroy _ o => firstLiteral [o.a, o.b]
  | .ctxswPreempt _ o => firstLiteral [o.a, o.b]
  | .ctxswResume _ o => firstLiteral [o.a, o.b]
  | .ixset _ _ a => firstLiteral [a]
  | .ixget _ _ _ => none
  | .ixadv _ _ a _ => firstLiteral [a]
  | .xacq _ => none
  | .xrel _ => none
  | .xqry _ _ => none
  | .illegalInstruction _ _ _ => none
  | .pipePick _ _ _ => none
  | .heldRecordWrite _ => none
  | .loadReturn _ _ _ => none
  | .storePerform _ _ => none
  | .waitaWake _ _ => none
  | .waitaTimeout _ _ => none
  | .sleepExpire _ => none
  | .progressWatchdog _ _ => none
  | .poolDeadlock _ => none
  | .resourceRoomResume _ _ => none
  | .rebalance _ => none
  | .launchStart _ _ => none
  | .startBarrierTimeout _ => none
  | .launchComplete _ => none
  | .lbarRelease _ _ => none
  | .treadyComplete _ _ => none
  | .twaitComplete _ _ => none
  | .copyComplete _ _ _ => none
  | .copyFailure _ _ _ => none
  | .slabStep _ _ => none
  | .mmacTimeout _ => none
  | .epilogueRowStep _ _ => none
  | .engineArbitrate _ _ _ => none
  | .chunkData _ _ _ => none
  | .chunkTriggered _ _ _ => none
  | .chunkAcknowledgement _ _ => none
  | .barrierToken _ _ => none
  | .chunkRefusal _ _ => none
  | .collBindTimeout _ _ => none
  | .collMatchTimeout _ _ => none
  | .ringReform _ _ => none
  | .dataFlit _ _ _ => none
  | .linkAck _ _ _ => none
  | .linkNak _ _ _ => none
  | .creditFlit _ _ _ => none
  | .ackTimer _ _ => none
  | .retryTimeout _ _ => none
  | .laneSpare _ _ _ => none
  | .portDown _ _ => none
  | .portUp _ _ => none
  | .gets _ _ => none
  | .getm _ _ => none
  | .getu _ _ => none
  | .putm _ _ => none
  | .puto _ _ => none
  | .putu _ _ => none
  | .flush _ _ => none
  | .inv _ _ => none
  | .fwdgets _ _ => none
  | .fwdgetm _ _ => none
  | .collect _ _ => none
  | .ack _ _ => none
  | .data _ _ => none
  | .nakfirewall _ _ => none
  | .errsynth _ _ => none
  | .homeDequeueRequest _ => none
  | .cacheEviction _ _ _ _ => none
  | .requestTimeout _ _ => none
  | .probe _ _ _ => none
  | .probeReply _ _ _ => none
  | .lossDeclare _ _ => none
  | .lossNotice _ _ _ => none
  | .memoryScrub _ _ => none
  | .laneEyeMeasure _ _ _ _ _ => none
  | .channelSpared _ _ _ => none
  | .regionCompare _ => none
  | .rdmaWrite _ _ _ _ _ => none
  | .rdmaRead _ _ _ _ _ => none
  | .compareSwap _ _ _ _ _ _ => none
  | .fetchAdd _ _ _ _ _ => none
  | .invalidRequest _ _ _ => none
  | .featTakeWrite _ _ _ _ => none
  | .featLockWrite _ _ _ => none
  | .attGo _ _ _ => none
  | .cmdFirewallEntry _ => none
  | .cmdEgressFilter _ => none
  | .cmdRateLimiter _ => none
  | .controlPageWrite _ _ _ _ => none
  | .packageReset _ => none
  | .powerSample _ _ => none
  | .thermalThrottle _ _ => none
  | .thermalRecover _ _ => none
  | .thermalReset _ _ => none
  | .variableLatencyResult _ _ => none
  | .selftestResult _ _ _ _ _ => none
  | .attestationReport _ => none
  | .commandApplied _ => none
  | .launchAnswer _ => none
  | .tokenAccrual _ _ => none

/-- The words of an instruction: its word and its literal. -/
def encode (i : Instr) : Option (Word × Option Word) := (encodeRaw i).map fun r => (r.toWord, literalOf i)

end Sys2Proof
end

