-- ==== Sys2Proof/Machine/Tab.lean ====
section
/-! DEFINITION. Tables: lists of key and value in rising key order. Every indexed piece of state is one; an entry that
is absent reads as its default. -/

namespace Sys2Proof.Machine

/-- A table from numbers to values, in rising key order. -/
abbrev Tab (β : Type) := List (Nat × β)

variable {β : Type}

/-- The entry at a key. -/
def Tab.look (t : Tab β) (k : Nat) : Option β :=
  match t with
  | [] => none
  | (j, v) :: r => if j = k then some v else Tab.look r k

/-- The entry at a key, or a default. -/
def Tab.getOr (t : Tab β) (k : Nat) (d : β) : β := (Tab.look t k).getD d

/-- Puts an entry at its place. -/
def Tab.put (t : Tab β) (k : Nat) (v : β) : Tab β :=
  match t with
  | [] => [(k, v)]
  | (j, w) :: r => if k < j then (k, v) :: (j, w) :: r else if j = k then (k, v) :: r else (j, w) :: Tab.put r k v

/-- Takes the entry at a key out. -/
def Tab.cut (t : Tab β) (k : Nat) : Tab β := t.filter fun e => e.1 != k

/-- The keys rise strictly. -/
def Tab.rising (t : Tab β) : Bool :=
  match t with
  | [] => true
  | (j, _) :: r => r.all (fun e => decide (j < e.1)) && Tab.rising r

end Sys2Proof.Machine
end

