-- ==== Sys2Proof/Machine/State.lean ====
section
/-! DEFINITION. The machine's state as plain data: every piece of state the spec gives a rack of packages, the model's own
schedule (log 1) and counters (log 1, log 2), the reasons a step can stop, and the state after reset. -/

namespace Sys2Proof.Machine

/-! ### Accesses in flight -/

/-- A translation held by a TLB or by an access: the leaf entry, the first virtual address of its page, and whether the
page is one of 512 MiB (R228, R229). -/
structure Xl where
  pte : Word
  base : Nat
  big : Bool
  deriving DecidableEq, Repr

/-- The three address spaces (R225). -/
inductive Space where
  | glob | vault | store
  deriving DecidableEq, Repr

/-- One part of an access that performs at one place of the global order (R236, R241): an aligned access whole, a byte
of a misaligned one, an element of a gather. `loc` is the absolute location of a vault or local-store byte, `got` the
value once read. -/
structure Piece where
  va : Nat
  n : Nat
  loc : Option Nat := none
  xl : Option Xl := none
  got : Option Nat := none
  deriving DecidableEq, Repr

/-- The returning atomics of R272. -/
inductive AtOp where
  | add | min | max | and | or | xor | xchg | cas | incw | decw | badd | fadd
  deriving DecidableEq, Repr

/-- What a load-like access does with its bytes. -/
inductive AccK where
  | load | gather
  | atomic (op : AtOp) (w32 sgn : Bool) (b c : Word)
  deriving DecidableEq, Repr

/-- A load, gather or returning atomic (R261, R266, R271). `since` is the cycle its request timer started (R343),
`bad` a failure met before it performed, `prov` the message its bytes are provisional on (R327). -/
structure Acc where
  space : Space
  k : AccK
  size : Nat
  sx : Bool := false
  acq : Bool := false
  rel : Bool := false
  hint : Hint := .dflt
  pieces : List Piece
  remote : Bool := false
  since : Option Nat := none
  bad : Option (Nat × Nat) := none
  psn : Option Nat := none
  prov : Option Nat := none
  deriving DecidableEq, Repr

/-- The binding of a reduction: add, min or max on 64 or 32 bits (R275, R325). -/
structure Bind where
  op : Nat
  w32 : Bool
  sgn : Bool
  fp : Bool
  deriving DecidableEq, Repr

/-- One part of a buffered store: the bytes' location, the data and the bits it writes. -/
structure SPiece where
  va : Nat
  n : Nat
  loc : Option Nat := none
  xl : Option Xl := none
  data : Nat
  mask : Nat
  done : Bool := false
  deriving DecidableEq, Repr

/-- What a store-buffer entry is (R244, R268, R295, R297). -/
inductive StK where
  | store
  | red (b : Bind)
  | publish
  | shadow
  /-- A write of an engine command that the leading copy of a pair held (R314); `clr` clears the poison of its line (R347). -/
  | engine (clr : Bool)
  | flush (line : Nat)
  | inval (line : Nat)
  | tile
  deriving DecidableEq, Repr

/-- An entry of a thread's store buffer (R244). `bad` holds the fault code of an entry that failed (R265). -/
structure SbE where
  u : Nat
  gid : Nat
  k : StK
  rel : Bool := false
  hint : Hint := .dflt
  pieces : List SPiece
  space : Space := .glob
  remote : Bool := false
  since : Option Nat := none
  deriving DecidableEq, Repr

/-- A value of an operand: a word, or an immediate that stands in every element (R60). -/
inductive RV where
  | word (v : Word)
  | imm (n : Int)
  deriving DecidableEq, Repr

/-- A resolved destination: a register, a pair, or nothing (R62, R70). -/
inductive RD where
  | none
  | reg (n : BitVec 6)
  | pair (n : BitVec 6)
  /-- A run of registers: the destination of QPOP (R103). -/
  | run (n : BitVec 6) (count : Nat)
  deriving DecidableEq, Repr

/-- What a pending operation of a thread waits for (R109). -/
inductive PK where
  /-- A result that has been computed and travels to its register. -/
  | value (v : Word) (p : Option Bool)
  | acc (a : Acc)
  | qpush (q : Nat) (rec : List Word)
  | qpop (q n : Nat)
  | rdfe (r : Nat)
  | wrfe (r : Nat) (v : Word)
  /-- With the timeout in cycles and the cycle at which it ends. -/
  | waita (a : Acc) (cmp : Word) (deadline : Option (Nat × Nat))
  | lwait (h : Nat)
  | launch (lk : Nat)
  | twait (t : Nat) (st : TileState)
  /-- A TLDB, with what it takes to put its elements together (R295). -/
  | tldb (a : Acc) (geo : List (Nat × Nat))
  | cwait (ticket : Nat)
  /-- A group exchange that has not performed (R195). -/
  | exch
  /-- A value the trailing copy of a tandem pair waits for (R404). -/
  | copied
  deriving DecidableEq, Repr

/-- A live value of the forwarding window and the word of the gang that wrote it (R131). -/
structure WinE where
  reg : BitVec 6
  val : Word
  pos : Nat
  deriving DecidableEq, Repr

/-- A variable-latency operation of a thread that has issued and not ended. `pn` is the predicate it writes, or 7. -/
structure Pend where
  u : Nat
  gid : Nat
  k : PK
  d : RD
  pn : BitVec 3 := 7
  pc : Word := 0
  hpc : Word := 0
  hdr : Word := 0
  word : Word := 0
  nw : Nat := 0
  /-- Further registers that are pending with it: the shared register of an RDFE (R136). -/
  also : BitVec 64 := 0
  /-- The index registers before the word and after its operands were resolved (R374, R473). -/
  ix0 : Vector (BitVec 30) 8 := Vector.replicate 8 0
  ix1 : Vector (BitVec 30) 8 := Vector.replicate 8 0
  deriving DecidableEq, Repr

/-! ### Threads -/

/-- Where a thread is in its life (R95, R106, R374, R386). -/
inductive TStat where
  | free | placed | live | stopped | saved
  deriving DecidableEq, Repr

/-- What holds a thread back at its clause (R106). -/
inductive Blk where
  | bar (b : Nat) (ph : Bool)
  | group (mk : Nat)
  | lbar (n : Nat)
  deriving DecidableEq, Repr

/-- An effect that takes place at the end of the clause (R113, R114, R200, R209). -/
inductive EndOp where
  | bar (b : Nat) (ph : Bool)
  | group (mk : Nat)
  | lbar (n : Nat)
  | sleep (cycles : Nat)
  | yield
  deriving DecidableEq, Repr

/-- What a held system operation waits for (R386, R395). -/
inductive OpW where
  /-- The pre-emption of a context on the dies of a mask. -/
  | preempt (ctx : Nat) (dies : BitVec 4)
  /-- Accesses translated through entries that TLBINV dropped: thread and name. -/
  | tlb (l : List (Nat × Nat))
  /-- The self-test of a physical core of a die. -/
  | test (dk phys : Nat)
  deriving DecidableEq, Repr

/-- An arrival at a group-synchronous instruction (R193, R194): what the member contributes and where its result goes; `u`
names its pending operation. -/
structure Arr where
  mreg : Nat
  present : Bool
  addr : Word
  ins : Instr
  a : RV
  b : RV
  sub : Option Nat
  d : RD
  u : Nat
  word : Word
  deriving DecidableEq, Repr

/-- A thread's sketch (R381): written at each region head, read by a restart (R382). -/
structure Sketch where
  pc : Word := 0
  live : BitVec 32 := 0
  g : Vector Word 64 := Vector.replicate 64 0
  psn : BitVec 64 := 0
  p : BitVec 7 := 0
  ix : Vector (BitVec 30) 8 := Vector.replicate 8 0
  cvmode : BitVec 32 := 0
  nancnt : BitVec 32 := 0
  depth : Nat := 0
  spill : Nat := 0
  cmds : List Nat := []
  region : BitVec 16 := 0
  /-- The model's own: words issued up to the head (R473, R404), and of a head inside its clause (R314) the clause's address and header. -/
  nw : Nat := 0
  mid : Option (Word × Word) := none
  deriving DecidableEq, Repr

/-- The registers of one thread (R96, R123, R126, R127). -/
structure Regs where
  g : Vector Word 64 := Vector.replicate 64 0
  p : BitVec 7 := 0
  ix : Vector (BitVec 30) 8 := Vector.replicate 8 0
  win : List WinE := []
  /-- Poison marks and, for a marked register, the address of the load that marked it (R262). -/
  psn : BitVec 64 := 0
  psnA : Tab Nat := []
  /-- Registers whose value is provisional, with the message awaited (R327). -/
  prov : Tab Nat := []
  /-- Unbanked values that the last-use flags of a pending operation's word discarded, by the operation's name, as long as nothing
  has written their registers since (R374, R473). -/
  lost : List (Nat × BitVec 6 × Word) := []
  /-- Pending registers and predicates, and those made pending in the present run (R71, R109). -/
  pendG : BitVec 64 := 0
  pendP : BitVec 7 := 0
  runG : BitVec 64 := 0
  runP : BitVec 7 := 0
  deriving DecidableEq, Repr

/-- The five counters of R105. -/
structure Ctrs where
  ldc : Nat := 0
  suc : Nat := 0
  enc : Nat := 0
  frc : Nat := 0
  twc : Nat := 0
  deriving DecidableEq, Repr

/-- Values that pass from the leading to the trailing copy of a tandem pair (R404): the number of the word that took them,
counted over the words the thread has issued; `src` when they were operands (%clock, and mapped shared registers by number,
R144), else the word's results with their predicate and poison mark. -/
structure PairVal where
  pos : Nat
  src : Bool
  v : List Word := []
  regs : List (Nat × Word) := []
  p : Option Bool := none
  psn : Option Nat := none
  /-- DRAWKEY and, in coin-table mode, COINTAB as the leading copy's word read them (R223). -/
  coin : Option (Word × Option (List (BitVec 24))) := none
  /-- The access failed instead: code and address. -/
  fail : Option (Nat × Nat) := none
  /-- The value has come; an entry whose value is still awaited keeps its place in the queue. -/
  ready : Bool := true
  deriving DecidableEq, Repr

/-- An entry image of the store-signature compare buffer (R405). -/
structure SigE where
  addr : Word
  lo : Word
  hi : Word
  size : Nat
  kind : Nat
  region : BitVec 16
  space : Nat
  /-- The store itself, held by the leading copy. -/
  held : Option SbE := none
  /-- Its place in program order: the number of the word that issued it, and among the writes of one command its address. -/
  pos : Nat := 0
  sub : Nat := 0
  deriving DecidableEq, Repr

/-- A thread's part in a tandem pair (R403 to R407). -/
structure PairS where
  partner : Nat
  trail : Bool
  slack : Nat
  /-- Values waiting for the trailing copy, oldest first (held by the leading copy). -/
  inq : List PairVal := []
  /-- Entry images of the regions that have not matched, in program order. -/
  sig : List SigE := []
  /-- Held entries of matched regions that wait for a place in the store buffer (R406). -/
  moving : List SbE := []
  /-- The thread has formed its region's closing entry and waits for the region to match. -/
  closed : Bool := false
  /-- The thread has reached its region's head and not yet the region's end. -/
  opened : Bool := false
  /-- Regions ended and regions matched, counted from the thread's start. -/
  ended : Nat := 0
  matched : Nat := 0
  /-- Mismatches met in the present region. -/
  mism : Nat := 0
  /-- Fixed-latency writes to mapped shared registers in regions that have not matched: region, register and value (R144). -/
  shw : List (BitVec 16 × Nat × Word) := []
  /-- The region in which commands write that waited for the match of the one before it (R237, R314). -/
  more : Option (BitVec 16) := none
  /-- Commands accepted in earlier regions that have not matched (R313). -/
  hist : List (BitVec 16 × List Nat) := []
  /-- A fault that this copy alone has raised so far: code and word address. -/
  fault : Option (Nat × Word) := none
  deriving DecidableEq, Repr

/-- A fault that waits to be raised on a thread: code, address, the failed access's program counter, word, header and
destination (R265, R376, R473). -/
structure Late where
  code : Nat
  addr : Nat
  reg : Nat := 0
  load : Bool := true
  pc : Word := 0
  word : Word := 0
  hdr : Word := 0
  nw : Nat := 0
  deriving DecidableEq, Repr

/-- A 64-byte fault record that waits for room in its queue (R378). -/
structure Rec where
  bytes : List Byte
  deriving DecidableEq, Repr

/-- One thread slot (R95, R96). -/
structure Thread where
  st : TStat := .free
  /-- Context number, launch key (none for a thread of no launch), stage and %tid. -/
  ctx : Nat := 0
  launch : Option Nat := none
  stage : Nat := 0
  tid : BitVec 64 := 0
  /-- The next clause header or the next word within the clause, and the clause's header and its address. -/
  pc : Word := 0
  hpc : Word := 0
  hdr : Word := 0
  /-- The thread has arrived at `pc` and its header has not been read yet; the header is an implied region head. -/
  fresh : Bool := true
  /-- The thread stands again at the head it was restarted from, which it has reached before (R382). -/
  redo : Bool := false
  head : Bool := true
  /-- The thread stands inside a clause and continues it as a gang of one (R390). -/
  mid : Bool := false
  /-- Pre-emption withdrew the wait that the thread's gang stood in, inside its clause (R386). -/
  cut : Bool := false
  /-- The gang was parked for its pending registers then: the thread returns to that wait (R388). -/
  park : Bool := false
  /-- The header that a pair's copy has read and may not go past yet (R54, R404, R406). -/
  seen : Option Word := none
  /-- The word at which, and the cycle since which, the thread has waited for a path to a home (R331, R343). -/
  asked : Option (Nat × Nat) := none
  r : Regs := {}
  c : Ctrs := {}
  stack : List Word := []
  spill : Nat := 0
  /-- The load by which a RET fetches a spilled entry: its name and, once it has come, the entry and its poison (R118). -/
  reload : Option (Nat × Option (Word × Option Nat)) := none
  sb : List SbE := []
  pend : List Pend := []
  /-- Atomics and full/empty writes of the slot's last thread that had not performed when it ended (R120). -/
  orph : List Pend := []
  late : List Late := []
  cvmode : BitVec 32 := 0
  nancnt : BitVec 32 := 0
  age : Nat := 0
  /-- Cycle until which YIELD keeps the thread from leading, and until which it sleeps (R113, R114). -/
  excl : Nat := 0
  sleep : Nat := 0
  /-- Cycles ready without joining a gang (R112). -/
  ready : Nat := 0
  inGang : Bool := false
  blk : List Blk := []
  ends : List EndOp := []
  jump : Option Word := none
  /-- Group table entry, serial and rank (R190, R191). -/
  grp : Option (Nat × Nat × Nat) := none
  arr : Option Arr := none
  retired : Bool := false
  /-- The stage whose thread follows a retired one (R104). -/
  retireTo : Nat := 0
  /-- The extended block is held; it must be given back before the thread runs (R123, R125). -/
  xblk : Bool := false
  xwant : Bool := false
  /-- The mapped shared block, relative to the context's allotment (R143). -/
  shr : Option Nat := none
  hand : Bool := false
  xpc : Word := 0
  xinfo : Word := 0
  /-- What XRET to 0 goes back to, beside XPC (R379, R391): the clause's header and its address, whether the thread stood inside
  the clause, and whether the header is an implied region head; and an XRET whose clause has not ended. -/
  xhpc : Word := 0
  xhdr : Word := 0
  xmid : Bool := false
  xhead : Bool := false
  xgo : Bool := false
  /-- Effects at the end of the clause that a diversion left (R379, R391). -/
  xends : List EndOp := []
  region : BitVec 16 := 0
  started : Bool := false
  sketch : Sketch := {}
  /-- Commands accepted since the region head, and tickets a re-execution is still to skip with (R313). -/
  cmds : List Nat := []
  skip : List Nat := []
  /-- A restart that waits for values in flight: the sketch it goes back to (R382). -/
  rst : Option Sketch := none
  /-- The fault code with which the thread stops at its region head once the restart has acted (R401, R407). -/
  doom : Option Nat := none
  /-- The thread has left its gang at its EXIT and ends once its stores have performed (R120). -/
  leaving : Bool := false
  stopCode : Option Nat := none
  killing : Bool := false
  stopping : Bool := false
  /-- Words the thread has issued (R473), and the number of the word that last wrote each index register whole (IXSET). -/
  nw : Nat := 0
  ixw : Tab Nat := []
  /-- The thread's gang waits for an operation of this thread (R109, R139, R276, R389). -/
  hold : Bool := false
  /-- What a held system operation writes to its destination once it has completed, and the destination. -/
  opDone : Option Word := none
  opD : RD := .none
  opW : Option OpW := none
  /-- The state a saved thread goes back to (R386), and that the block it waits for keeps its registers (R125). -/
  back : TStat := .live
  xback : Bool := false
  mism : Nat := 0
  pair : Option PairS := none
  deriving DecidableEq, Repr

/-! ### Gangs, pipes and cores -/

/-- Why a gang is parked, and so what releases it (R109, R194, R276, R472). -/
inductive Why where
  | running
  | pend
  | regs (need : List (Nat × BitVec 64 × BitVec 7))
  /-- Room in a resource: 0 copy queue, 1 matrix queue, 2 both, 3 collective queue, 4 store buffer, 5 compare buffer,
  6 LDC, 7 SUC, 8 ENC, 9 FRC, 10 TWC, 11 two places of the compare buffer. -/
  | room (k : Nat)
  /-- A tandem pair's input queue: room for the leading copy, or operands for the trailing one (R404). -/
  | copies
  /-- A trailing copy's result of the word it stands at (R404). -/
  | passed
  /-- The match of a copy's region (R406). -/
  | region
  /-- A path to a home whose memory the word reads or writes before it goes on, until the request times out (R331, R343). -/
  | path (q : Nat)
  /-- Until no member is held by an operation of its own. -/
  | hold
  | ctrs (ldc suc eng : Bool)
  /-- Until the accesses that a release stands after have performed (R237 rule 3, R265). -/
  | rel
  deriving DecidableEq, Repr

/-- A gang (R107, R108): the clause it issues, the word it stands at, its members in ascending slot order, and those that
have still to issue the present word. -/
structure Gang where
  ctx : Nat
  hpc : Word
  hdr : Word
  words : List Word
  pos : Nat := 0
  wn : Nat := 0
  members : List Nat
  todo : List Nat := []
  /-- The members as they were picked, in order: a member's index here is its position (R107). -/
  order : List Nat := []
  gid : Nat := 0
  anyOn : Bool := false
  why : Why := .running
  since : Nat := 0
  /-- The member for whose sake the gang parked. -/
  waiter : Nat := 0
  tandem : Bool := false
  second : Bool := false
  /-- Which issue of a word under tandem issue (R400, R401): 0 the first, 1 the second, 2 the third. -/
  nth : Nat := 0
  deriving DecidableEq, Repr

/-- The gang whose word is being issued, lane by lane, and its pipe. -/
structure Issue where
  ck : Nat
  half : Nat
  g : Gang
  deriving DecidableEq, Repr

/-- A defective lane (R400): what it makes of each result, predicate, address and operand of a word is wrong by this pattern, for so
many words more. -/
structure LaneErr where
  lane : Nat
  pattern : Nat
  left : Nat
  deriving DecidableEq, Repr

/-- One issue pipe (R107 to R109, R194, R401); `led` is the context and the address of the clause it led last. -/
structure Pipe where
  gang : Option Gang := none
  parked : List Gang := []
  excess : List Gang := []
  ptr : Nat := 0
  led : Nat × Word := (0, 0)
  fenced : Option Nat := none
  mism : Nat := 0
  bad : List LaneErr := []
  deriving DecidableEq, Repr

/-- A register shared by the threads of a core: its value, the value that those still read who do not see its last write, the
cycle of that write plus one, and the issue that wrote it (R135, R192). -/
structure Stamp where
  cur : Word := 0
  old : Word := 0
  time : Nat := 0
  gid : Nat := 0
  deriving DecidableEq, Repr

/-- A live entry of the group table (R189 to R192). -/
structure Grp where
  ctx : Nat
  key : BitVec 32
  cap : Nat
  serial : Nat
  ranks : Tab Nat
  masks : Vector Stamp 12 := Vector.replicate 12 {}
  arrived : Vector (BitVec 32) 12 := Vector.replicate 12 0
  deriving DecidableEq, Repr

/-- A named barrier (R207). -/
structure Bar where
  n : Nat := 0
  count : Nat := 0
  phi : Bool := false
  m1 : BitVec 1024 := 0
  m2 : BitVec 1024 := 0
  wait : BitVec 1024 := 0
  deriving DecidableEq, Repr

/-- A shared register with its full/empty bit and its two queues of waiting threads (R135, R136); the address of the load that
poisoned it (R262), and the message its value awaits with the load's address (R327). -/
structure ShReg where
  v : Stamp := {}
  full : Bool := false
  psn : Option Nat := none
  prov : Option (Nat × Nat) := none
  rq : List (Nat × Nat) := []
  wq : List (Nat × Nat) := []
  deriving DecidableEq, Repr

/-- A request to the extended pool (R139). -/
structure PoolReq where
  members : List Nat
  since : Nat
  deriving DecidableEq, Repr

/-- An engine address once its offset is placed: a virtual address, the location of a vault or local-store byte, or a tile
of the core (R301). -/
inductive EAd where
  | glob (va : Nat)
  | loc (b : Nat)
  | tile (i : Nat)
  deriving DecidableEq, Repr

/-- The engine commands (R298, R367). Of a copy: row count, row bytes, the stride of the side that is not a tile, and the
other side's scales. -/
inductive CmdK where
  | cpy (src dst : EAd) (rows rb stride : Nat) (scale : Option EAd) (follow : Option Word)
  | mma (img : Word)
  | mmab (img : Word)
  | mmac (img clus : Word)
  | mepi (img : Word) (par : Option EAd) (be : Word) (dst : Nat)
  | coll (img : Word) (b c : EAd) (n : Nat)
  | engq (comm va : Nat)
  deriving DecidableEq, Repr

/-- A command accepted by an engine: its ticket, the thread and the word that issued it, and how far it has come. `acc0`
is the accumulator tile's state before a matrix command (R307), and `key`, `gen` and `table` are what the engine read for
coins when it accepted the command (R220). -/
structure Cmd where
  u : Nat
  ticket : Nat
  tk : Nat
  ctx : Nat
  launch : Option Nat
  tid : BitVec 64
  pc : Word
  hdr : Word
  word : Word
  k : CmdK
  rel : Bool := false
  hint : Hint := .dflt
  /-- Of a tandem pair's thread: 1 the leading copy's command, 2 the trailing copy's (R314), the region it stands in, and the number of
  the word that issued it. -/
  copy : Nat := 0
  region : BitVec 16 := 0
  nw : Nat := 0
  pos : Nat := 0
  began : Bool := false
  retried : Bool := false
  key : Word := 0
  gen : BitVec 32 := 0
  table : Option (List (BitVec 24)) := none
  acc0 : Option TileState := none
  nan : Nat := 0
  /-- Accumulators of the running matrix command, by element (R312). -/
  accs : Tab (BitVec 32) := []
  /-- Row pairs of a cluster draw that have not been merged, and the merged pair of the row under way with the replacements of its
  chain (R310). -/
  pairs : Tab Word := []
  merged : Option (Word × Nat) := none
  /-- Chunks of an armed output tile handed over (R311), and a trigger that failed (R366). -/
  handed : Nat := 0
  failed : Bool := false
  /-- Of a copy or a row under way: bytes read and not yet written, by number, with their count, and parts written beyond the first
  gap (R241, R247). -/
  got : List (Nat × Nat × Nat) := []
  wr : List (Nat × Nat) := []
  /-- Lines that the command waits for: the virtual address it needs there, and the cycle the request's timer started (R303, R343). -/
  asks : Tab (Nat × Option Nat) := []
  deriving DecidableEq, Repr

/-- A write of an engine that was on its way as its context was pre-empted (R312): a name of its own, the command, virtual address,
count and value of the bytes, their translation, the cycle its request's timer started, whether it passes over its line's poison,
and whether it clears it (R347). -/
structure Sent where
  u : Nat
  cmd : Cmd
  va : Nat
  n : Nat
  v : Nat
  xl : Xl
  since : Option Nat := none
  clr : Bool := false
  wipe : Bool := false
  deriving DecidableEq, Repr

/-- A core's place in a cluster product: the product's name, the grid row and column, and the cores of the row (R307, R310). -/
structure Place where
  id : Nat
  row : Nat
  col : Nat
  cores : List Nat
  deriving DecidableEq, Repr

/-- A tile-table entry (R284, R364): the image's fields, the absolute places TDEF fixed (R293), and the trigger. -/
structure Tile where
  vault : Bool := false
  plane : Bool := false
  fmt : Nat := 0
  base : Nat := 0
  rows : Nat := 0
  cols : Nat := 0
  sbase : Nat := 0
  loc : Nat := 0
  sloc : Nat := 0
  st : TileState := .empty
  byeng : Bool := false
  readers : Nat := 0
  clus : Bool := false
  follow : Bool := false
  /-- A TREADY whose publication has not completed (R291). -/
  publ : Bool := false
  /-- For contents that MMAC wrote: the cluster product and this core's place in it (R307, R310). -/
  grid : Option Place := none
  /-- The epilogue command that last wrote the tile (R365). -/
  mepi : Option Cmd := none
  armed : Bool := false
  faulted : Bool := false
  latched : Bool := false
  route : Nat := 0
  op : Nat := 0
  roff : Nat := 0
  acked : Nat := 0
  /-- Bytes that the plane path still shows as they stood before a store that no TREADY has followed, by location (R291). -/
  stale : Tab Byte := []
  deriving DecidableEq, Repr

/-- A chunk of an armed output tile that the sequencer has handed to the collective engine (R311, R365): what it carries, where
it goes, and whether the engine has accepted it. -/
structure Trig where
  u : Nat
  ck : Nat
  tile : Nat
  cmd : Cmd
  index : Nat
  route : BitVec 128
  op : Nat
  addr : Nat
  bytes : List Byte
  sent : Bool := false
  acked : Bool := false
  /-- It was latched at a pre-emption; the sequencer waits for it (R366). -/
  late : Bool := false
  deriving DecidableEq, Repr

/-- How a ticket stands (R370): its context, whether it names a COLL and whether that is a bind, and its status. -/
structure Tick where
  ctx : Nat
  coll : Bool
  bind : Bool
  done : Option Nat := none
  /-- The core's ticket count when the command finished. -/
  fin : Nat := 0
  deriving DecidableEq, Repr

/-- A TLB entry (R233): context, page and the translation. -/
structure TlbE where
  ctx : Nat
  x : Xl
  deriving DecidableEq, Repr

/-- A line that a core's L1 holds (R225, R269): whether it is dirty there, and its place in the order of leaving: 0 first, 1 as it
comes, 2 last. -/
structure L1E where
  line : Nat
  dirty : Bool := false
  keep : Nat := 1
  deriving DecidableEq, Repr

/-- LEAD of R115: allowance and phases completed. -/
structure Lead where
  l : Nat := 4
  phase : Nat := 0
  deriving DecidableEq, Repr

/-- One logical core. -/
structure Core where
  p0 : Pipe := {}
  p1 : Pipe := {}
  grps : Tab Grp := []
  serials : Tab Nat := []
  bars : Tab Bar := []
  shr : Tab ShReg := []
  pool : Nat := 512
  poolq : List PoolReq := []
  dead : Nat := 0
  tiles : Tab Tile := []
  copyq : List Cmd := []
  matq : List Cmd := []
  sent : List Sent := []
  ticket : Nat := 0
  ticks : Tab Tick := []
  tlb : List TlbE := []
  l1 : List L1E := []
  lead : Tab Lead := []
  routes : Tab (BitVec 128) := []
  inject : Word := 0
  /-- Slabs repeated after a first residue mismatch (R45). -/
  slabFix : Nat := 0
  deriving DecidableEq, Repr

/-! ### Launches -/

/-- A stage of a launch record (R99). -/
structure StageR where
  entry : Word
  threads : Nat
  lsb : Nat
  xstart : Bool
  vaultb : Nat
  inq : Nat
  outq : Nat
  core0 : Nat
  ncore : Nat
  deriving DecidableEq, Repr

/-- A queue of a launch record (R99): vault, offset, record bytes and depth. -/
structure QueueR where
  vault : Nat
  off : Nat
  recb : Nat
  depth : Nat
  deriving DecidableEq, Repr

/-- A launch on one die: whether it has placed and started its threads, the spans it reserved (by core, by quad), the head
and tail of each queue, the threads rebalancing started, and the LBAR exchange. -/
structure LDie where
  dk : Nat
  answered : Bool := false
  arrived : Bool := false
  started : Bool := false
  ls : Tab (Nat × Nat) := []
  vs : Tab (Nat × Nat) := []
  qs : Tab (Nat × Nat) := []
  extra : Nat := 0
  lbarSeen : Nat := 0
  deriving DecidableEq, Repr

/-- A live launch (R99 to R104, R212). -/
structure Launch where
  handle : BitVec 32
  ctx : Nat
  pkg : Nat
  die : Nat
  attr : Nat
  gen : BitVec 32
  stackb : Nat
  stackbase : Word
  args : Word
  done : Word
  stages : List StageR
  queues : List QueueR
  ntid : Nat
  dies : List LDie
  status : Nat := 0
  killed : Nat := 0
  cmds : Nat := 0
  ended : Bool := false
  since : Nat := 0
  /-- The cycle since which the write of DONE has waited for a path (R102, R343). -/
  doneT : Option Nat := none
  lbarN : Nat := 0
  lbarArr : List Nat := []
  tk : Nat := 0
  tid : BitVec 64 := 0
  pc : Word := 0
  hdr : Word := 0
  word : Word := 0
  deriving DecidableEq, Repr

/-- A context's descriptor and its state on its package (R378, R383, R392). -/
structure Ctx where
  attr : Word := 0
  prio : Nat := 0
  slots : Nat := 0
  timeout : Nat := 1000
  root : Word := 0
  fqbase : Word := 0
  fqlog : Nat := 0
  win : Nat := 2048
  saveoff : Nat := 0
  shr0 : Nat := 0
  shrn : Nat := 0
  bar0 : Nat := 0
  barn : Nat := 0
  tile0 : Nat := 0
  tilen : Nat := 0
  hndpc : Word := 0
  dies : BitVec 4 := 0
  /-- By die: 0 absent, 1 running, 2 stopping, 3 pre-empted. -/
  st : Tab Nat := []
  /-- Dies whose sequencers begin no further step of the context: every thread there can be saved (R312, R386 step 3). -/
  halt : List Nat := []
  prod : Nat := 0
  /-- Threads and engine records that wait for room, in the order their faults were raised. -/
  held : List Rec := []
  dropped : Nat := 0
  coins : Tab (BitVec 24) := []
  deriving DecidableEq, Repr

/-! ### Dies and the collective engine -/

/-- A communicator (R348): STATE of R351, members by position, own position, descriptor bytes, operations begun and issued
since the bind, re-formations, chunks sent and acknowledged; operations that ended before this member issued them, with
their status; and the cycle since which no order of the ring has had a path. -/
structure Comm where
  ctx : Nat := 0
  st : Nat := 0
  ring : List (Nat × Nat) := []
  pos : Nat := 0
  prio : Nat := 0
  nbuf : Nat := 0
  desc : List Byte := []
  opseq : Nat := 0
  issued : Nat := 0
  reform : Nat := 0
  sent : Nat := 0
  acked : Nat := 0
  ended : List (Nat × Nat) := []
  /-- A later bind failed while an operation ran: the communicator is unbound once the operation has ended. -/
  unbind : Bool := false
  noPath : Option Nat := none
  /-- Tokens of barriers that have finished here, not yet acknowledged: the position that owes the buffer, and the operation. -/
  lent : List (Nat × Nat) := []
  deriving DecidableEq, Repr

/-- A chunk or a token (kind 0 or 2) that waits to be sent to a position: index, step, bytes and present blocks. -/
structure CollOut where
  kind : Nat
  dst : Nat
  index : Nat
  step : Nat
  bytes : List Byte
  pres : BitVec 32
  deriving DecidableEq, Repr

/-- An operation of a communicator at one member (R352 to R359): its number, counted from 1 at the bind. -/
structure CollOp where
  comm : Nat
  seq : Nat
  /-- OPSEQ as the operation began (R351), and that it has finished at this member and serves others alone (R362). -/
  no : Nat := 0
  fin : Bool := false
  cmd : Cmd
  since : Nat
  begun : Bool := false
  /-- A barrier's tokens have been made. -/
  told : Bool := false
  /-- Steps done at this member, by chunk index and step. -/
  done : List (Nat × Nat) := []
  /-- Values that wait for a further operand at this member, by chunk index (R354, the tree). -/
  vals : Tab (List Byte × BitVec 32) := []
  ready : List CollOut := []
  /-- Sent and not acknowledged: destination position, index, step. -/
  out : List (Nat × Nat × Nat) := []
  tokens : List Nat := []
  /-- Chunks that stood when the ring was re-formed, and those that this member has written at C (R362). -/
  stood : List Nat := []
  wrote : List Nat := []
  cancel : Bool := false
  deriving DecidableEq, Repr

/-- A bind that has been issued (R349), with the descriptor once read. -/
structure BindOp where
  comm : Nat
  cmd : Cmd
  since : Nat
  desc : Option (List Byte) := none
  deriving DecidableEq, Repr

/-- A core's part in a cluster product: its command, and what the cores compare (R307). -/
structure GridM where
  ck : Nat
  u : Nat
  clus : Word
  shape : List Nat
  fa : Option Nat
  fb : Option Nat
  pos : Nat := 0
  deriving DecidableEq, Repr

/-- A cluster product that some core of a grid has accepted (R307). -/
structure GridOp where
  id : Nat
  ctx : Nat
  /-- Of trailing copies, whose cores stand for their leading copies' (R314, R403). -/
  trail : Bool
  clus : Word
  since : Nat
  mem : List GridM
  deriving DecidableEq, Repr

/-- One die. -/
structure Die where
  /-- The logical core map (R392), by logical core; an absent entry is the identity. -/
  lmap : Tab Nat := []
  failed : List Nat := []
  fencedAt : Tab Nat := []
  testing : List Nat := []
  comms : Tab Comm := []
  /-- ENGQ commands, binds and operations of the collective engine that have not finished, and the chunk messages it has
  accepted (R359). -/
  collq : List Cmd := []
  binds : List BindOp := []
  ops : List CollOp := []
  /-- Operations that have finished here and still run at another member (R362). -/
  ending : List CollOp := []
  accepted : List (List Nat) := []
  grids : List GridOp := []
  trigs : List Trig := []
  /-- Chunks of other dies' armed tiles that the engine is putting into memory, each under the name of its first half (R365). -/
  puts : List Cmd := []
  dup : Nat := 0
  key : Tab Word := []
  engHeld : Nat := 0
  halved : Bool := false
  /-- When the dispatcher last rebalanced (R104). -/
  rebal : Nat := 0
  deriving DecidableEq, Repr

/-! ### Coherence and the fabric -/

/-- The states of a line at an agent (R336). -/
inductive LineSt where
  | I | S | E | M | O | U
  deriving DecidableEq, Repr

/-- A partial of a line in U: its binding and the elements that have been combined, by byte offset (R275). -/
structure Part where
  bind : Bind
  els : Tab Nat
  deriving DecidableEq, Repr

/-- The agent's side of one line (R336, R337): its state, a Put that awaits its Ack with the state it left, a Flush that
awaits its Ack, the access whose request is out, the mark of poison, and the message whose tag has not been judged (R327).
`part` is the partial of a line in U, `putPart` that of a PutU that awaits its Ack. -/
structure ALine where
  st : LineSt := .I
  put : Option LineSt := none
  /-- The access that waits for that Put's Ack: a CINV, or a reduction that has given the line in O back (R268, R336). -/
  putBy : Option Nat := none
  flushing : Option Nat := none
  req : Option Nat := none
  psn : Bool := false
  unver : Option Nat := none
  part : Option Part := none
  putPart : Option Part := none
  /-- Cores whose prefetch awaits the line, with the place it takes in their L1 (R267). -/
  pref : List (Nat × Nat) := []
  /-- Of a line whose Data message has not been judged: how many of its bytes have come, and the bytes as they came (R327, R329). -/
  upto : Nat := 128
  rel : List Byte := []
  deriving DecidableEq, Repr

/-- The message types of R325, and chunks. -/
inductive MsgTy where
  | getS | getM | getU | putM | putO | putU | inv | fwdGetS | fwdGetM | collect | ack | data | nak | err | flush | chunk
  deriving DecidableEq, Repr

/-- How far a message has come: it waits for a path, travels on a link, has arrived whole, or failed its tag and waits to be
sent again (R326 to R332). -/
inductive MsgSt where
  | waiting | travels | arrived | failed
  deriving DecidableEq, Repr

/-- A message (R325, R326, R357). The bytes of a line are those of memory, which the model keeps once (log 5); `bytes` are
those the message carries. `txid` names the access or the transaction it serves. -/
structure Msg where
  u : Nat
  ty : MsgTy
  src : Nat
  dst : Nat
  req : Nat
  status : Nat := 0
  mnum : Nat := 0
  cls : Nat := 0
  txid : Nat := 0
  line : Nat := 0
  bind : Nat := 0
  part : Option Part := none
  carries : Bool := false
  /-- Chunk head: kind, source and destination die, source core, communicator, operation, index, step, half and blocks. -/
  kind : Nat := 0
  sdie : Nat := 0
  ddie : Nat := 0
  score : Nat := 0
  comm : Nat := 0
  seq : Nat := 0
  opno : Nat := 0
  index : Nat := 0
  step : Nat := 0
  half : Nat := 0
  pres : BitVec 32 := 0
  bytes : List Byte := []
  st : MsgSt := .waiting
  /-- Its tag did not check, and its data has been released before the verdict. -/
  bad : Bool := false
  released : Bool := false
  /-- The name of its first copy: what it brings awaits the verdict under this name (R327, R329). -/
  org : Nat := 0
  /-- The relay of a detour, and whether the message is on its second hop. -/
  relay : Option Nat := none
  hop2 : Bool := false
  deriving DecidableEq, Repr

/-- A flit as it was sent: its sequence number, its bits, the message and whether it is the last flit (R322, R323). -/
structure Flit where
  seq : Nat
  bits : BitVec 1024
  vc : Nat
  msg : Nat
  last : Bool
  deriving DecidableEq, Repr

/-- A control flit on the wire (R322). `far` is the model's own: the package that a probe is for (log 44). -/
structure Ctl where
  bits : BitVec 1024
  far : Nat := 0
  deriving DecidableEq, Repr

/-- A port: its state, lanes, sender and receiver (R316 to R324, R427). -/
structure Port where
  up : Bool := false
  isolated : Bool := false
  /-- Physical lane of each logical lane; the ninth is the spare. -/
  lanes : Vector Nat 8 := Vector.ofFn fun k => k.val
  spareUsed : Bool := false
  /-- Sender: next number, flits not acknowledged, of those the ones to be sent again, messages with flits still to be
  sent and how many have gone, messages whose last flit is not acknowledged, credits by VC. -/
  nseq : Nat := 0
  retry : List Flit := []
  again : List Flit := []
  sending : List (Msg × Nat) := []
  out : List Msg := []
  credits : Vector Nat 8 := #v[64, 128, 64, 128, 48, 48, 48, 48]
  /-- Replays of the oldest number without an acknowledgement past it, and the cycle its timer started. -/
  replays : Nat := 0
  oldest : Nat := 0
  /-- The wire toward the peer: data flits in order, and control flits. -/
  wire : List Flit := []
  ctl : List Ctl := []
  /-- Receiver: expected number, whether it has been NAKed, flits accepted since the last ACK and its cycle, credits to
  return, and the payload so far by VC. -/
  expect : Nat := 0
  naked : Bool := false
  accepted : Nat := 0
  ackT : Nat := 0
  owed : Vector Nat 8 := Vector.replicate 8 0
  inc : Vector (List Byte) 8 := Vector.replicate 8 []
  /-- Rate limiter (R427): RATE, BURST and the tokens, in 256ths. -/
  rate : Nat := 256
  burst : Nat := 512
  tokens : Nat := 131072
  /-- Predictive counters by physical lane: CRC failures, replays, eye margins; and the thresholds (R417). -/
  crc : Vector (BitVec 64) 9 := Vector.replicate 9 0
  eye : Vector (BitVec 16) 9 := Vector.replicate 9 0
  /-- Lanes whose counter of CRC failures, and those whose eye margin, has written its record (R418). -/
  alarmed : Vector Bool 9 := Vector.replicate 9 false
  eyeAlarm : Vector Bool 9 := Vector.replicate 9 false
  /-- Of each lane, a second and the CRC failures in it (R417). -/
  crcWin : Vector (Nat × Nat) 9 := Vector.replicate 9 (0, 0)
  thr : Word := 0x20100010
  /-- Cycle of the last probe (R344), and the pointer of the engine arbiter (R360). -/
  probeT : Nat := 0
  arb : Nat := 0
  deriving DecidableEq, Repr

/-- Directory states (R334). -/
inductive DirSt where
  | uncached | shared | excl | owned | update
  deriving DecidableEq, Repr

/-- What a busy home transaction does (R338 to R342, R412). -/
inductive TxK where
  /-- A request message under service. -/
  | req (m : Msg)
  /-- A firewall recall of the line (R342). -/
  | recall
  /-- A collection for the loss of a cell (R346). -/
  | lost
  /-- The recovery of an uncorrectable line (R412), for a request if one met it. -/
  | repair (m : Option Msg)
  /-- The collection of a line in update that makes room in a directory cache (R335). -/
  | room
  /-- The end of every copy of a line whose directory entry cannot be read (R414). -/
  | wipe
  deriving DecidableEq, Repr

/-- A home's open transaction. Phase 0: Invs are out; phase 1: forwards or Collects are out; phase 2: the requester has its
answer. `wait` lists the packages that still have to answer the home; `held` says that one of them held the line, `dirty` that
it kept it dirty, `part` that a partial came, and `got` that the requester's Ack of its Data has come. -/
structure Tx where
  k : TxK
  phase : Nat := 0
  wait : List Nat := []
  held : Bool := false
  dirty : Bool := false
  part : Bool := false
  got : Bool := false
  /-- Of messages to every cell, as the holders are not known (R412): 1 Inv is out, 2 FwdGetM, 3 Collect. -/
  wide : Nat := 0
  /-- Messages of the phase that wait for a place at their agent (R321): type, requester, whether that is the home, the agent. -/
  unsent : List (MsgTy × Nat × Bool × Nat) := []
  deriving DecidableEq, Repr

/-- The directory of one line at its home (R334, R335, R338). -/
structure Dir where
  st : DirSt := .uncached
  owner : Nat := 0
  cells : BitVec 16 := 0
  psn : Bool := false
  bind : Option Bind := none
  tx : Option Tx := none
  queue : List Msg := []
  /-- Symbols of the line in memory that are wrong (R410). -/
  err : BitVec 1088 := 0
  /-- What memory holds of the line while an owner may have newer bytes (R346, R462). -/
  old : Option (List Byte) := none
  walked : Bool := true
  deriving DecidableEq, Repr

/-! ### Packages -/

/-- PATH[q] of R330, but for UP and LIVE, which follow from the ports; the cycle since when q has been out of reach (R344). -/
structure Path where
  port : Nat
  lost : Bool := false
  relays : BitVec 16
  silent : Option Nat := none
  deriving DecidableEq, Repr

/-- An Ethernet egress filter entry (R427). -/
structure Filt where
  valid : Bool := false
  v6 : Bool := false
  len : Nat := 0
  addr : BitVec 128 := 0
  deriving DecidableEq, Repr

/-- Counters of one memory bank and its channel (R417). -/
structure BankC where
  fixed : Nat := 0
  lost : Nat := 0
  alarmed : Bool := false
  deriving DecidableEq, Repr

/-- An answer that an Ethernet port has sent to the host (R11, R12): queue pair, kind (0 acknowledgement, 1 read response, 2 atomic
response, 3 invalid-request NAK, 4 remote-access NAK, 5 remote-operational NAK, 6 congestion notification packet, 7 an operation of
the package's own), the bytes, and whether the package has marked the frame for congestion. -/
structure HostAns where
  qp : Nat
  kind : Nat
  bytes : List Byte
  ce : Bool
  deriving DecidableEq, Repr

/-- An RDMA operation of a queue pair (R11, R12): its offset in the host window, and what it carries; `page` writes registers of
the control page. -/
inductive HostOp where
  | write (off : Nat) (data : List Byte)
  | read (off len : Nat)
  | compareSwap (off : Nat) (cmp swp : Word)
  | fetchAdd (off : Nat) (add : Word)
  | invalid
  | page (off : Nat) (data : List Byte)
  deriving DecidableEq, Repr

/-- The destination of a queue pair's answers: Ethernet port, address family and address, as connections set it up outside the
machine (R427; log 50), and its path MTU (R11). -/
structure QpDest where
  port : Nat := 0
  v6 : Bool := false
  addr : BitVec 128 := 0
  mtu : Nat := 4096
  deriving DecidableEq, Repr

/-- What a configuration record says, by its type (R422). -/
inductive RecBody where
  | root (owner command : List Byte)
  | identity (pkg cell : Nat)
  | fabric (ports : Vector Nat 16) (relays : Vector (BitVec 16) 16)
  | host (base size : Nat)
  | firewall (fw : Tab (BitVec 16))
  | memory (detect : List Nat)
  deriving DecidableEq, Repr

/-- A configuration record (R422): its version, what it says, the block as it is signed, and the signature. -/
structure CfgRec where
  version : BitVec 64 := 0
  body : RecBody
  block : List Byte := []
  sig : List Byte := []
  deriving DecidableEq, Repr

/-- What a package's boot flash holds (R421, R422; log 51): the firmware image with its signature, and the configuration records. -/
structure Conf where
  image : List Byte := []
  imageSig : List Byte := []
  recs : List CfgRec := [{ body := .root [] [] }, { body := .host 0 4294967296 }]
  /-- The supervisor's context, the header of its first clause, and its argument in g0. -/
  sup : Ctx := { attr := 1, slots := 1024, dies := 1, st := [(0, 1)] }
  entry : Word := 0
  arg : Word := 0
  deriving DecidableEq, Repr

/-- One package. -/
structure Pkg where
  conf : Conf := {}
  qps : Tab QpDest := []
  present : Bool := false
  booted : Bool := false
  /-- Boot failed: only the recovery window is open (R421). -/
  recovery : Bool := false
  t0 : Nat := 0
  cell : Nat := 0
  featTake : BitVec 256 := 0
  featLock : Bool := false
  hostBase : Nat := 0
  hostSize : Nat := 0
  attNonce : BitVec 256 := 0
  attDest : Word := 0
  attStatus : Nat := 0
  /-- Where the report that has been accepted goes, and its nonce. -/
  attJob : Word × BitVec 256 := (0, 0)
  cmdLen : BitVec 32 := 0
  cmdStatus : Nat := 0
  cmdBuf : Tab Byte := []
  /-- A firewall command has been accepted and its recall is under way. -/
  cmdRun : Bool := false
  /-- The firewall entry of the command's page as it was when the host submitted the command (R425). -/
  cmdBase : BitVec 16 := 0
  counter : Nat := 0
  versions : Vector (BitVec 64) 6 := Vector.replicate 6 0
  lines : Tab ALine := []
  /-- Entries of the directory caches of the package's dies, by line, the newest first (R335). -/
  dcache : List Nat := []
  /-- Lines of the package's own memory that its home caches hold, the newest first, and whether each is dirty (R267, R268, R415). -/
  hcache : List (Nat × Bool) := []
  fw : Tab (BitVec 16) := []
  /-- Firewall recalls under way: page, the entry to be, and lines still to recall (R342). -/
  recalls : List (Nat × BitVec 16 × List Nat) := []
  ports : Vector Port 16 := Vector.replicate 16 {}
  paths : Vector Path 16 := Vector.ofFn fun q => { port := q.val, relays := 0xFFFF }
  mnum : Tab Nat := []
  seen : Tab (List Nat) := []
  lostDrop : Nat := 0
  lateAns : Nat := 0
  /-- Names of accesses that timed out with their request out (R343). -/
  timedOut : List Nat := []
  dupDrop : Nat := 0
  errProd : Nat := 0
  errCons : Word := 0
  errLog : Tab (List Byte) := []
  filters : Tab Filt := [(0, { valid := true }), (1, { valid := true, v6 := true }), (16, { valid := true }),
    (17, { valid := true, v6 := true }), (32, { valid := true }), (33, { valid := true, v6 := true }),
    (48, { valid := true }), (49, { valid := true, v6 := true })]
  ethDrop : Tab Nat := []
  banks : Tab BankC := []
  /-- Check lines that the controllers' check-bit caches hold, by controller, the newest first (R413). -/
  chk : List (Nat × Nat) := []
  rows : Tab (List (Nat × Nat × Nat)) := []
  /-- Rows that have written their alarm: channel, bank and row (R418). -/
  rowMarks : List (Nat × Nat × Nat) := []
  memThr : Tab Word := []
  detect : List Nat := []
  spared : Tab Nat := []
  lostCells : BitVec 16 := 0
  /-- Losses whose walk has not ended: the cell, and how many lines have been poisoned and dropped (R346, step 4). -/
  losses : List (Nat × Nat × Nat) := []
  /-- Power samples of the last millisecond, the newest first, and what the clamp delays: nothing, slab steps, picks too (R428). -/
  power : List Nat := []
  clamp : Nat := 0
  /-- Cycles of the rack's clock in which the package's halved clock stood still (R429). -/
  slow : Nat := 0
  answers : List HostAns := []
  /-- RDMA operations that wait for a line in recovery, in order, with their queue pairs (R13, R412). -/
  hostq : List (Nat × HostOp) := []
  tests : List (Nat × Nat × Nat × Nat) := []
  deriving DecidableEq, Repr

/-! ### Events the rack takes of itself -/

/-- An event on the agenda (log 1): one that the rack takes of itself, with its arguments, or one that the world outside names, as
the constructor of `Instr` that it is. -/
inductive Ev where
  | outside (i : Instr)
  | heldRecordWrite (cx : Nat)
  | loadReturn (tk u : Nat)
  | storePerform (tk u : Nat)
  | waitaWake (tk u : Nat)
  | waitaTimeout (tk u : Nat)
  | sleepExpire (tk : Nat)
  | progressWatchdog (ck ctx : Nat)
  | poolDeadlock (ck : Nat)
  | resourceRoomResume (ck half : Nat)
  | rebalance (dk : Nat)
  | launchStart (lk dk : Nat)
  | startBarrierTimeout (lk : Nat)
  | launchComplete (lk : Nat)
  | lbarRelease (lk dk : Nat)
  | treadyComplete (ck t : Nat)
  | twaitComplete (tk u : Nat)
  | copyComplete (ck u k : Nat)
  | slabStep (ck : Nat)
  | mmacTimeout (ck : Nat)
  | epilogueRowStep (ck k : Nat)
  | engineArbitrate (pkg port k : Nat)
  | chunkData (pkg j k : Nat)
  | chunkTriggered (pkg j k : Nat)
  | chunkAcknowledgement (pkg j : Nat)
  | barrierToken (pkg j : Nat)
  | chunkRefusal (pkg j : Nat)
  | collBindTimeout (dk comm : Nat)
  | collMatchTimeout (dk comm : Nat)
  | ringReform (dk comm : Nat)
  | dataFlit (pkg port : Nat)
  | linkAck (pkg port : Nat)
  | linkNak (pkg port : Nat)
  | creditFlit (pkg port : Nat)
  | ackTimer (pkg port : Nat)
  | retryTimeout (pkg port : Nat)
  | portUp (pkg port : Nat)
  | gets (pkg j : Nat)
  | getm (pkg j : Nat)
  | getu (pkg j : Nat)
  | putm (pkg j : Nat)
  | puto (pkg j : Nat)
  | putu (pkg j : Nat)
  | flush (pkg j : Nat)
  | inv (pkg j : Nat)
  | fwdgets (pkg j : Nat)
  | fwdgetm (pkg j : Nat)
  | collect (pkg j : Nat)
  | ack (pkg j : Nat)
  | data (pkg j : Nat)
  | nakfirewall (pkg j : Nat)
  | errsynth (pkg j : Nat)
  | homeDequeueRequest (line : Nat)
  | requestTimeout (pkg u : Nat)
  | probe (pkg port : Nat)
  | probeReply (pkg port : Nat)
  | lossDeclare (pkg q : Nat)
  | lossNotice (pkg port : Nat)
  | regionCompare (tk : Nat)
  | variableLatencyResult (tk u : Nat)
  | selftestResult (pkg j : Nat)
  | attestationReport (pkg : Nat)
  | commandApplied (pkg : Nat)
  | launchAnswer (lk : Nat)
  | tokenAccrual (pkg port : Nat)
  /-- An RDMA operation that has waited for a line (R13). -/
  | hostOp (pkg qp : Nat) (op : HostOp)
  /-- The package issues an RDMA operation of its own on a queue pair (R427). -/
  | hostSend (pkg qp : Nat) (bytes : List Byte)
  /-- Firmware clears bits of a firewall entry (R424, R425). -/
  | fwNarrow (pkg page : Nat) (clear : BitVec 16)
  /-- A word of a vault or a local store that an engine's command reads has an error that its code corrects (R414). -/
  | sramFixed (ck u loc : Nat)
  deriving DecidableEq, Repr

/-! ### The machine -/

/-- Locations that the package has written in a layout of its own: what it keeps of a pre-empted context in its save area (R282, R312,
R384), from one location up to another, and which writing it was (log 72). -/
structure Haze where
  lo : Nat
  hi : Nat
  epoch : Nat
  deriving DecidableEq, Repr

/-- The whole machine. Threads, cores, dies, packages, contexts and launches are tables by key (`Ops.lean` gives the keys);
an absent entry is its default. -/
structure State where
  /-- Cycles since the rack began; %clock counts from a package's reset. -/
  clock : Nat := 0
  /-- The model's own schedule (log 1): events to take before anything else, and the events of later cycles. -/
  agenda : List Ev := []
  sched : List (List Ev) := []
  /-- Pipes still to act in this cycle, and the gang whose word is being issued. -/
  turn : List (Nat × Nat) := []
  iss : Option Issue := none
  /-- The model's own counters: the next name for an access, command, message or transaction, and the free values used. -/
  uid : Nat := 16
  free : Nat := 0
  /-- Bytes of the rack, of the vaults and of the local stores (`Ops.lean` gives the layout), in canonical form. -/
  mem : List Host.Cell := []
  /-- Spans whose bytes are free values until something writes them (log 72). -/
  haze : List Haze := []
  threads : Tab Thread := []
  cores : Tab Core := []
  dies : Tab Die := []
  pkgs : Tab Pkg := []
  ctxs : Tab Ctx := []
  launches : Tab Launch := []
  lnext : Nat := 1
  dirs : Tab Dir := []
  net : List Msg := []
  deriving DecidableEq, Repr

/-- Why a step stops: only where the schedule asks for something no run can reach. -/
inductive Fault where
  /-- `exec` of an instruction word while no thread is issuing one (no step does that). Raised by every word's meaning;
  safe: the spec gives a word no effect without a thread. -/
  | noThread
  deriving DecidableEq, Repr

/-- Why a step refuses. -/
inductive Refusal where
  /-- An instruction that has no meaning yet, by its mnemonic. Raised by an arm of `exec`; safe. -/
  | notModelled (mnemonic : String)
  deriving DecidableEq, Repr

/-- The machine right after reset: nothing has booted, no context and no thread exists, every port is down, memory lists
nothing (R421, R16, R341, R392, R417, R427; log 3, log 4). -/
def State.reset : State := {}

end Sys2Proof.Machine
end

