-- ==== Sys2Proof/Machine/Ops.lean ====
section
/-! DEFINITION. The named operations over the state: keys, tables, memory, registers, records, taking a fault and the
return from one, parking and retiring. -/

namespace Sys2Proof.Machine

/-- What a step answers. -/
abbrev Out := Host.Outcome State Fault Refusal

/-! ### Keys: a core's key is (package * 4 + die) * 128 + logical core, a thread's is core key * 1024 + slot -/

def dieKey (pkg die : Nat) : Nat := pkg * 4 + die
def coreKey (pkg die core : Nat) : Nat := (pkg * 4 + die) * 128 + core
def thrKey (ck slot : Nat) : Nat := ck * 1024 + slot
def ctxKey (pkg ctx : Nat) : Nat := pkg * 64 + ctx
def ckOf (tk : Nat) : Nat := tk / 1024 % 8192
def slotOf (tk : Nat) : Nat := tk % 1024
def halfOf (tk : Nat) : Nat := slotOf tk / 512
def coreOf (ck : Nat) : Nat := ck % 128
def dkOf (ck : Nat) : Nat := ck / 128
def pkgOfDie (dk : Nat) : Nat := dk / 4
def dieIx (dk : Nat) : Nat := dk % 4
def pkgOfCore (ck : Nat) : Nat := pkgOfDie (dkOf ck)
def pkgOfThr (tk : Nat) : Nat := pkgOfCore (ckOf tk)

/-- Keys of threads that hold a slot lie below this. A thread that pre-emption has saved has left its slot and keeps its number
(R386); its key is above. -/
def slotKeys : Nat := 2 ^ 23
def savedKey (tk ctx : Nat) : Nat := tk % slotKeys + slotKeys * (ctx + 1)

/-! ### Tables of the state -/

def State.thr (s : State) (tk : Nat) : Thread := Tab.getOr s.threads tk {}
def State.setThr (s : State) (tk : Nat) (t : Thread) : State := { s with threads := Tab.put s.threads tk t }
def State.modThr (s : State) (tk : Nat) (f : Thread → Thread) : State := s.setThr tk (f (s.thr tk))
def State.core (s : State) (ck : Nat) : Core := Tab.getOr s.cores ck {}
def State.setCore (s : State) (ck : Nat) (c : Core) : State := { s with cores := Tab.put s.cores ck c }
def State.modCore (s : State) (ck : Nat) (f : Core → Core) : State := s.setCore ck (f (s.core ck))
def State.die (s : State) (dk : Nat) : Die := Tab.getOr s.dies dk {}
def State.setDie (s : State) (dk : Nat) (d : Die) : State := { s with dies := Tab.put s.dies dk d }
def State.modDie (s : State) (dk : Nat) (f : Die → Die) : State := s.setDie dk (f (s.die dk))
def State.pkg (s : State) (p : Nat) : Pkg := Tab.getOr s.pkgs p {}
def State.setPkg (s : State) (p : Nat) (k : Pkg) : State := { s with pkgs := Tab.put s.pkgs p k }
def State.modPkg (s : State) (p : Nat) (f : Pkg → Pkg) : State := s.setPkg p (f (s.pkg p))
def State.ctx? (s : State) (pkg c : Nat) : Option Ctx := Tab.look s.ctxs (ctxKey pkg c)
def State.ctx (s : State) (pkg c : Nat) : Ctx := (s.ctx? pkg c).getD {}
def State.setCtx (s : State) (pkg c : Nat) (x : Ctx) : State := { s with ctxs := Tab.put s.ctxs (ctxKey pkg c) x }
def State.modCtx (s : State) (pkg c : Nat) (f : Ctx → Ctx) : State := s.setCtx pkg c (f (s.ctx pkg c))
def State.ctxOf (s : State) (tk : Nat) : Ctx := s.ctx (pkgOfThr tk) (s.thr tk).ctx
def State.launch? (s : State) (k : Option Nat) : Option Launch := k.bind (Tab.look s.launches)
def State.setLaunch (s : State) (k : Nat) (l : Launch) : State := { s with launches := Tab.put s.launches k l }
def State.modLaunch (s : State) (k : Nat) (f : Launch → Launch) : State :=
  match Tab.look s.launches k with
  | none => s
  | some l => s.setLaunch k (f l)
def State.dir (s : State) (line : Nat) : Dir := Tab.getOr s.dirs line {}
def State.setDir (s : State) (line : Nat) (d : Dir) : State := { s with dirs := Tab.put s.dirs line d }
def State.modDir (s : State) (line : Nat) (f : Dir → Dir) : State := s.setDir line (f (s.dir line))
/-- The cells that a package counts as lost. A package of a lost cell is no survivor, and loses nothing itself (R344; log 76). -/
def State.lostMask (s : State) (p : Nat) : BitVec 16 := (s.pkg p).lostCells &&& ~~~BitVec.twoPow 16 (s.pkg p).cell

/-- A package is lost to another one. -/
def State.isLost (s : State) (p q : Nat) : Bool := (s.lostMask p).getLsbD (s.pkg q).cell

def State.aline (s : State) (p line : Nat) : ALine := Tab.getOr (s.pkg p).lines line {}
def State.setALine (s : State) (p line : Nat) (a : ALine) : State :=
  s.modPkg p fun k => { k with lines := Tab.put k.lines line a }
def State.modALine (s : State) (p line : Nat) (f : ALine → ALine) : State := s.setALine p line (f (s.aline p line))

/-- A fresh name; names are multiples of 16, so that each part of an access has one of its own. -/
def State.fresh (s : State) : Nat × State := (s.uid, { s with uid := s.uid + 16 })

/-- A fresh free value (log 2). -/
def State.freeVal (s : State) : Word × State := (Config.freeWord s.free, { s with free := s.free + 1 })

/-- The pipe of one half of a core. -/
def Core.pipe (c : Core) (half : Nat) : Pipe := if half = 0 then c.p0 else c.p1
def Core.setPipe (c : Core) (half : Nat) (p : Pipe) : Core := if half = 0 then { c with p0 := p } else { c with p1 := p }
def State.pipe (s : State) (ck half : Nat) : Pipe := (s.core ck).pipe half
def State.setPipe (s : State) (ck half : Nat) (p : Pipe) : State := s.modCore ck fun c => c.setPipe half p

/-- The physical core beneath a logical core (R116, R392). -/
def State.phys (s : State) (ck : Nat) : Nat := Tab.getOr (s.die (dkOf ck)).lmap (coreOf ck) (coreOf ck)

/-- Cycles of a package's own clock, which stands still at times while it is halved (R429). -/
def State.time (s : State) (p : Nat) : Nat := s.clock - (s.pkg p).slow

/-- %clock of a package: cycles since its reset (R59). -/
def State.clockOf (s : State) (p : Nat) : Nat := s.time p - (s.pkg p).t0

/-- Some die of a package is too hot, and its clock is halved (R429). -/
def State.halfSpeed (s : State) (p : Nat) : Bool := (List.range 4).any fun i => (s.die (dieKey p i)).halved

/-- The package's clock ticks in this cycle. -/
def State.ticks (s : State) (p : Nat) : Bool := !s.halfSpeed p || s.clock % 2 == 0

/-- The power clamp holds back what it delays at a level in this cycle: at level 1 slab steps, at level 2 picks (R428; log 92). -/
def State.powerHolds (s : State) (p level : Nat) : Bool := decide (level ≤ (s.pkg p).clamp) && s.clock % 2 == 1

/-! ### Memory: one list of bytes in canonical form (log 3) -/

/-- What a byte that nothing has written reads as (log 3). -/
def memDefault : Byte := 0

def Mem.get (m : List Host.Cell) (a : Nat) : Byte := Tab.getOr m a memDefault

/-- Writing the default takes the entry out, so equal memories are equal lists. -/
def Mem.set (m : List Host.Cell) (a : Nat) (v : Byte) : List Host.Cell :=
  if v = memDefault then Tab.cut m a else Tab.put m a v

/-- The canonical form: addresses rise strictly and no entry is the default. -/
def Mem.wf (m : List Host.Cell) : Bool := Tab.rising m && m.all fun e => decide (e.2 ≠ memDefault)

/-- `n` bytes from `a` on, little-endian (R3). -/
def readBy (f : Nat → Byte) (a n : Nat) : Nat :=
  match n with
  | 0 => 0
  | k + 1 => (f a).toNat + 256 * readBy f (a + 1) k

/-- Writes the low `n` bytes of `v` from `a` on, little-endian. -/
def Mem.write (m : List Host.Cell) (a n v : Nat) : List Host.Cell :=
  match n with
  | 0 => m
  | k + 1 => Mem.write (Mem.set m a (BitVec.ofNat 8 v)) (a + 1) k (v / 256)

/-- The newest spill that a location still holds a byte of. -/
def Haze.over (l : List Haze) (a : Nat) : Option Nat :=
  match l with
  | [] => none
  | h :: r => if h.lo ≤ a ∧ a < h.hi then some h.epoch else Haze.over r a

/-- What is left of the spills once `n` bytes at `a` have been written. -/
def Haze.cut (l : List Haze) (a n : Nat) : List Haze :=
  match l with
  | [] => []
  | h :: r =>
    (if n = 0 ∨ h.hi ≤ a ∨ a + n ≤ h.lo then [h]
     else (if h.lo < a then [{ h with hi := a }] else []) ++ (if a + n < h.hi then [{ h with lo := a + n }] else []))
      ++ Haze.cut r a n

/-- A byte: a free one where the package has spilled state that nothing has written over (log 72). -/
def State.byte (s : State) (a : Nat) : Byte :=
  match Haze.over s.haze a with
  | some e => Config.spilled e a
  | none => Mem.get s.mem a
def State.read (s : State) (a n : Nat) : Nat := readBy s.byte a n
def State.write (s : State) (a n v : Nat) : State := { s with mem := Mem.write s.mem a n v, haze := Haze.cut s.haze a n }

/-- The package spills state of its own layout into a span (log 72). -/
def State.spill (s : State) (lo n : Nat) : State :=
  { s with haze := ⟨lo, lo + n, s.uid⟩ :: Haze.cut s.haze lo n, uid := s.uid + 1 }

/-- Writes only the bits of `mask` of the `n` bytes at `a`. -/
def State.writeMask (s : State) (a n v mask : Nat) : State :=
  let full := 2 ^ (8 * n) - 1
  s.write a n ((s.read a n &&& (full ^^^ (mask &&& full))) ||| (v &&& mask))

/-- The bytes at `a`, as a list. -/
def State.bytes (s : State) (a n : Nat) : List Byte := (List.range n).map fun k => s.byte (a + k)

/-- Writes a list of bytes. -/
def State.writeBytes (s : State) (a : Nat) (l : List Byte) : State :=
  match l with
  | [] => s
  | b :: r => State.writeBytes { s with mem := Mem.set s.mem a b, haze := Haze.cut s.haze a 1 } (a + 1) r

/-- Location of a local-store byte in the one memory. -/
def lsLoc (ck off : Nat) : Nat := 2 ^ 52 + ck * 2 ^ 20 + off

/-- Location of a vault byte: its place in the canvas aperture (R227). -/
def vaultLoc (dk v off : Nat) : Nat := pkgOfDie dk * 2 ^ 48 + 0xFF0000000000 + dieIx dk * 2 ^ 29 + v * 2 ^ 24 + off

/-- Little-endian bytes of a number. -/
def leBytes (n v : Nat) : List Byte :=
  match n with
  | 0 => []
  | k + 1 => BitVec.ofNat 8 v :: leBytes k (v / 256)

/-- The number of a list of little-endian bytes. -/
def ofLeBytes : List Byte → Nat
  | [] => 0
  | b :: r => b.toNat + 256 * ofLeBytes r

/-! ### Shared registers and masks (R135, R192) -/

/-- The value of a mask that an instruction that issues now reads: a write is seen from the next cycle on (R192). -/
def Stamp.read (v : Stamp) (now : Nat) : Word := if v.time = now + 1 then v.old else v.cur

/-- A write that issues now. -/
def Stamp.write (v : Stamp) (now gid : Nat) (w : Word) : Stamp :=
  { cur := w, old := if v.time = now + 1 then v.old else v.cur, time := now + 1, gid := gid }

/-- What a later member of the same instruction reads: its own instruction's write, where it has written. -/
def Stamp.readIn (v : Stamp) (now gid : Nat) : Word := if v.time = now + 1 ∧ v.gid = gid then v.cur else v.read now

/-- The value of a shared register that the issue `gid` reads (R135, R136): what other instructions have written, those of the
other pipe in this cycle as well; not what lanes of the same instruction write, nor a full/empty performance of this cycle
(name 0). -/
def Stamp.readBy (v : Stamp) (now gid : Nat) : Word := if v.time = now + 1 ∧ (v.gid = gid ∨ v.gid = 0) then v.old else v.cur

/-- A write of a shared register by the issue `gid`, or by a full/empty performance (0). -/
def Stamp.writeBy (v : Stamp) (now gid : Nat) (w : Word) : Stamp :=
  { cur := w, old := v.readBy now gid, time := now + 1, gid := gid }

/-- The shared register a thread's g56 to g63 name while a block is mapped (R135, R143): its number on the core. -/
def State.sharedOf (s : State) (tk : Nat) (n : BitVec 6) : Option Nat :=
  match (s.thr tk).shr with
  | none => none
  | some b => if n.toNat < 56 then none else some (((s.ctxOf tk).shr0 + b) * 8 + (n.toNat - 56))

/-- The core whose shared registers a thread uses. -/
def State.shReg (s : State) (tk r : Nat) : ShReg := Tab.getOr (s.core (ckOf tk)).shr r {}
def State.setShReg (s : State) (tk r : Nat) (x : ShReg) : State :=
  s.modCore (ckOf tk) fun c => { c with shr := Tab.put c.shr r x }

/-! ### General registers, the forwarding window and the banks (R131 to R133) -/

def Regs.get (r : Regs) (n : BitVec 6) : Word := r.g.get n.toFin
def Regs.set (r : Regs) (n : BitVec 6) (v : Word) : Regs := { r with g := r.g.set n.toNat v n.isLt }

/-- Writes to the banks the window entries that leave the window before word `n` of the run: those after whose word eight
further words have issued (R131). -/
def Regs.age (r : Regs) (n : Nat) : Regs :=
  let old := r.win.filter fun e => decide (e.pos + 8 < n)
  { (old.foldr (fun e acc => acc.set e.reg e.val) r) with win := r.win.filter fun e => !decide (e.pos + 8 < n) }

/-- Writes every live value of the window to the banks (R133). -/
def Regs.bank (r : Regs) : Regs :=
  { (r.win.foldr (fun e acc => acc.set e.reg e.val) r) with win := [] }

/-- The newest value of a register: in the window, or in the banks. -/
def Regs.newest (r : Regs) (n : BitVec 6) : Word :=
  match r.win.find? fun e => e.reg == n with
  | some e => e.val
  | none => r.get n

/-- A last-use flag discards the unbanked value of its register (R132). -/
def Regs.discard (r : Regs) (n : BitVec 6) : Regs := { r with win := r.win.filter fun e => e.reg != n }

/-- Marks that a written register no longer has: poison and provisional (R262, R328), and a discarded value to put back (R473). -/
def Regs.clean (r : Regs) (n : BitVec 6) : Regs :=
  { r with psn := r.psn &&& ~~~BitVec.twoPow 64 n.toNat, psnA := Tab.cut r.psnA n.toNat, prov := Tab.cut r.prov n.toNat,
           lost := r.lost.filter fun e => e.2.1 != n }

/-- A fixed-latency result enters the window and kills an older value of its register. -/
def Regs.forward (r : Regs) (n : BitVec 6) (v : Word) (pos : Nat) : Regs :=
  let r := (r.discard n).clean n
  { r with win := ⟨n, v, pos⟩ :: r.win }

/-- A result that goes straight to the banks. -/
def Regs.direct (r : Regs) (n : BitVec 6) (v : Word) : Regs := ((r.discard n).clean n).set n v

/-- Entries of a pair's input queue that the trailing copy can take: values pass in program order (R404), so those in front of the
first place whose value has not come. -/
def PairS.avail (p : PairS) : List PairVal := p.inq.takeWhile fun v => v.ready

/-- The operands that the leading copy of a pair passed for the word a trailing copy stands at (R404). -/
def State.pairSrc (s : State) (tk : Nat) : Option PairVal :=
  let t := s.thr tk
  match t.pair with
  | some { trail := true, partner := l, .. } =>
    match (s.thr l).pair with
    | some q => q.avail.find? fun v => v.src && v.pos == t.nw
    | none => none
  | _ => none

/-- The name of the instruction that is being issued, or another name. -/
def State.issueName (s : State) (other : Nat) : Nat := match s.iss with | some i => i.g.gid | none => other

/-- A thread reads a register; a trailing copy reads of a shared register what the leading copy read (R144). -/
def State.readReg (s : State) (tk : Nat) (n : BitVec 6) : Word :=
  match s.sharedOf tk n with
  | some k =>
    match (s.pairSrc tk).bind fun v => v.regs.find? fun e => e.1 == n.toNat with
    | some e => e.2
    | none => (s.shReg tk k).v.readBy s.clock (s.issueName 2)
  | none => (s.thr tk).r.newest n

/-- The thread is a trailing copy. -/
def Thread.trails (t : Thread) : Bool :=
  match t.pair with
  | some p => p.trail
  | none => false

/-- The thread is a leading copy. -/
def Thread.leads (t : Thread) : Bool :=
  match t.pair with
  | some p => !p.trail
  | none => false

/-- Writes straight to storage: the shared register a mapped number names, or the bank. It comes after a request that has performed in
its cycle (R136; log 96). -/
def State.writeReg (s : State) (tk : Nat) (n : BitVec 6) (v : Word) : State :=
  match s.sharedOf tk n with
  | some k =>
    if (s.thr tk).trails then s
    else
      let x := s.shReg tk k
      s.setShReg tk k { x with v := x.v.writeBy s.clock (s.issueName 1) v, psn := none, prov := none }
  | none => s.modThr tk fun t => { t with r := t.r.direct n v }

def RD.regs : RD → List (BitVec 6)
  | .none => []
  | .reg n => [n]
  | .pair n => [n, n + 1]
  | .run n c => (List.range c).map fun k => n + BitVec.ofNat 6 k

def regBit (n : BitVec 6) : BitVec 64 := BitVec.twoPow 64 n.toNat
def regsMask (l : List (BitVec 6)) : BitVec 64 := l.foldl (fun m n => m ||| regBit n) 0
def predBit (p : BitVec 3) : BitVec 7 := if p = 7 then 0 else BitVec.twoPow 7 p.toNat

/-- Writes a variable-latency result to its destination, register by register. -/
def State.writeRD (s : State) (tk : Nat) (d : RD) (v : List Word) : State :=
  (d.regs.zip v).foldl (fun s x => s.writeReg tk x.1 x.2) s

/-- A predicate write; p7 discards it (R126). -/
def setPred (p : BitVec 7) (n : BitVec 3) (v : Bool) : BitVec 7 :=
  if n = 7 then p else if v then p ||| predBit n else p &&& ~~~predBit n

/-- A predicate read; p7 reads as true. -/
def getPred (p : BitVec 7) (n : BitVec 3) : Bool := n = 7 || p.getLsbD n.toNat

/-- Clears the pending marks of a destination, of further registers and of a predicate (R71). -/
def Thread.settle (t : Thread) (d : RD) (pn : BitVec 3) (also : BitVec 64 := 0) : Thread :=
  let m := ~~~(regsMask d.regs ||| also)
  let q := ~~~predBit pn
  { t with r := { t.r with pendG := t.r.pendG &&& m, runG := t.r.runG &&& m, pendP := t.r.pendP &&& q,
                           runP := t.r.runP &&& q } }

/-- Sets them, in the present run. -/
def Thread.await (t : Thread) (d : RD) (pn : BitVec 3) (also : BitVec 64 := 0) : Thread :=
  let m := regsMask d.regs ||| also
  let q := predBit pn
  { t with r := { t.r with pendG := t.r.pendG ||| m, runG := t.r.runG ||| m, pendP := t.r.pendP ||| q,
                           runP := t.r.runP ||| q } }

/-! ### Small state changes of a thread -/

def Thread.bank (t : Thread) : Thread := { t with r := t.r.bank }
def Thread.endRun (t : Thread) : Thread := { t with r := { t.r.bank with runG := 0, runP := 0 } }

/-- Threads of a core, with their keys: those that hold a slot, in slot order, and then the saved ones. -/
def State.coreAll (s : State) (ck : Nat) : List (Nat × Thread) :=
  s.threads.filter fun e => ckOf e.1 == ck && e.2.st != .free

/-- Threads of a core that hold a slot, with their keys, in slot order. -/
def State.coreThreads (s : State) (ck : Nat) : List (Nat × Thread) := (s.coreAll ck).filter fun e => decide (e.1 < slotKeys)

/-- The key of a context's thread in a slot: the saved one, where it has been saved. -/
def State.ctxThread (s : State) (ctx tk : Nat) : Nat :=
  if (Tab.look s.threads (savedKey tk ctx)).isSome then savedKey tk ctx else tk

/-- The present word of a gang and the word after it. -/
def Gang.word (g : Gang) : Word := (g.words[g.pos]?).getD 0
def Gang.next? (g : Gang) : Option Word := g.words[g.pos + 1]?
def Gang.wordAddr (g : Gang) : Word := g.hpc + BitVec.ofNat 64 (8 * (g.pos + 1))

/-- How many words of the clause the present instruction takes (R61). -/
def Gang.len (g : Gang) : Nat := if hasLiteral g.word && g.next?.isSome then 2 else 1

/-- The header that follows a clause (R53). -/
def nextHeader (hpc hdr : Word) : Word := hpc + BitVec.ofNat 64 (8 * (field hdr.toNat 3 0 + 2))

/-! ### Writes the package makes on its own (fault records, DONE, the log): log 6 -/

/-- The line of a rack physical address. -/
def lineOf (pa : Nat) : Nat := pa / 128

/-- The home package of a rack physical address (R227). -/
def homeOf (pa : Nat) : Nat := pa / 2 ^ 48

/-! ### Fault records and their queue (R376 to R379) -/

/-- A fault as it is raised: its code, the address field, whether it is at the header, late, and the index register
concerned (R130, R376). -/
structure FI where
  code : Nat
  addr : Word := 0
  header : Bool := false
  late : Bool := false
  engine : Bool := false
  ixsel : Option (Nat × Nat) := none
  ixinfo : Nat := 0
  deriving DecidableEq, Repr

/-- A unit identifier (R377). -/
def unitId (kind pkg die phys sub : Nat) : Nat :=
  kind * 2 ^ 28 + pkg * 2 ^ 24 + die * 2 ^ 22 + phys * 2 ^ 15 + sub

/-- The 64 bytes of a fault record (R376). -/
def recordBytes (code flags ctx loc slot core ixsel tid unit pc hdr word addr ixinfo time : Nat) : List Byte :=
  leBytes 1 code ++ leBytes 1 flags ++ leBytes 1 ctx ++ leBytes 1 loc ++ leBytes 2 slot ++ leBytes 1 core
    ++ leBytes 1 ixsel ++ leBytes 4 tid ++ leBytes 4 unit ++ leBytes 8 pc ++ leBytes 8 hdr ++ leBytes 8 word
    ++ leBytes 8 addr ++ leBytes 8 ixinfo ++ leBytes 8 time

def FI.flags (f : FI) (diverted : Bool) : Nat :=
  (if f.late then 1 else 0) + (if f.engine then 2 else 0) + (if f.ixsel.isSome then 4 else 0)
    + (if f.header then 8 else 0) + (if diverted then 32 else 0)

/-- The record of a thread's fault. -/
def State.threadRecord (s : State) (tk : Nat) (f : FI) (pc hdr word : Word) (diverted : Bool) : List Byte :=
  let t := s.thr tk
  let ck := ckOf tk
  let dk := dkOf ck
  let p := pkgOfDie dk
  recordBytes f.code (f.flags diverted) t.ctx (p + 16 * dieIx dk) (slotOf tk) (coreOf ck)
    ((f.ixsel.map fun x => x.1 + 8 * x.2).getD 0) t.tid.toNat (unitId 0 p (dieIx dk) (s.phys ck) 0) pc.toNat hdr.toNat
    (if f.header then 0 else word.toNat) f.addr.toNat f.ixinfo (s.clockOf p)

/-- CONS of a context's fault queue, as memory holds it. -/
def State.fqCons (s : State) (x : Ctx) : Nat := s.read (x.fqbase.toNat + 0x40) 8

/-- The queue has no room: PROD - CONS is its size (R378). -/
def State.fqFull (s : State) (x : Ctx) : Bool := decide (2 ^ x.fqlog ≤ (x.prod + 2 ^ 64 - s.fqCons x) % 2 ^ 64)

/-- Writes record PROD and then PROD + 1 (R378). -/
def State.writeRecord (s : State) (p c : Nat) (b : List Byte) : State :=
  let x := s.ctx p c
  let s := s.writeBytes (x.fqbase.toNat + 0x80 + 64 * (x.prod % 2 ^ x.fqlog)) b
  (s.write x.fqbase.toNat 8 (x.prod + 1)).setCtx p c { x with prod := x.prod + 1 }

/-- Sets the HELD flag of a record. -/
def heldBytes (b : List Byte) : List Byte :=
  match b with
  | c :: f :: r => c :: (f ||| 16) :: r
  | l => l

/-- Queues a thread's record: written at once, or held while the queue is full, in the order faults were raised. -/
def State.queueRecord (s : State) (p c : Nat) (b : List Byte) : State :=
  let x := s.ctx p c
  if x.held.isEmpty && !s.fqFull x then s.writeRecord p c b
  else s.setCtx p c { x with held := x.held ++ [⟨heldBytes b⟩] }

/-- The most engine records a die holds for a full queue (R378). -/
def engineHeldMax : Nat := 256

/-- Queues an engine's record: 256 are held for each die, the rest are dropped and counted (R378). -/
def State.queueEngineRecord (s : State) (p c dk : Nat) (b : List Byte) : State :=
  let x := s.ctx p c
  if x.held.isEmpty && !s.fqFull x then s.writeRecord p c b
  else if (s.die dk).engHeld < engineHeldMax then
    (s.setCtx p c { x with held := x.held ++ [⟨heldBytes b⟩] }).modDie dk fun d => { d with engHeld := d.engHeld + 1 }
  else s.setCtx p c { x with dropped := x.dropped + 1 }

/-- HELD_RECORD_WRITE: the oldest held record is written when there is room (R378). -/
def State.writeHeld (s : State) (p c : Nat) : State :=
  let x := s.ctx p c
  match x.held with
  | [] => s
  | r :: rest =>
    if s.fqFull x then s
    else
      let engine := (r.bytes[1]?.getD 0).getLsbD 1
      let die := ((r.bytes[3]?.getD 0).toNat / 16) % 4
      let s := (s.setCtx p c { x with held := rest }).writeRecord p c r.bytes
      if engine then s.modDie (dieKey p die) fun d => { d with engHeld := d.engHeld - 1 } else s

/-- An engine fault 0x12 of a command: the record names the thread and the word that issued it, and the engine's unit
(R303, R376). -/
def State.engineFault (s : State) (p c : Nat) (tk : Nat) (tid : BitVec 64) (pc hdr word : Word) (addr : Nat)
    (unit : Nat) : State :=
  let ck := ckOf tk
  let dk := dkOf ck
  s.queueEngineRecord p c dk
    (recordBytes 0x12 2 c (p + 16 * dieIx dk) (slotOf tk) (coreOf ck) 0 tid.toNat unit pc.toNat hdr.toNat word.toNat
      addr 0 (s.clockOf p))

/-! ### The error log (R416) -/

/-- A record of the error log; an equal event of the last millisecond raises its COUNT instead. `at64` is DETAIL. -/
def errMergeCycles : Nat := 700000

def errBytes (cls src count unit unit2 paddr : Nat) (detail : List Nat) (seq time : Nat) : List Byte :=
  leBytes 1 cls ++ leBytes 1 src ++ leBytes 2 count ++ leBytes 4 unit ++ leBytes 4 unit2 ++ leBytes 4 0
    ++ leBytes 8 paddr ++ ((detail ++ [0, 0, 0]).take 3).flatMap (leBytes 8) ++ leBytes 8 seq ++ leBytes 8 time

/-- A record with its COUNT raised by one, saturating. -/
def errBump (b : List Byte) : List Byte :=
  let n := ofLeBytes ((b.drop 2).take 2)
  b.take 2 ++ leBytes 2 (min 0xFFFF (n + 1)) ++ b.drop 4

/-- Records that the ring of error records holds (R416). -/
def errRing : Nat := 4096

/-- An event equals the one of a record: class, source, both units and address (log 88). -/
def errSame (b : List Byte) (cls src unit unit2 paddr : Nat) : Bool :=
  b.take 2 ++ (b.drop 4).take 20 == leBytes 1 cls ++ leBytes 1 src ++ leBytes 4 unit ++ leBytes 4 unit2 ++ leBytes 4 0 ++ leBytes 8 paddr

/-- Writes an error record of a package; record i makes way for record i + 4,096. -/
def State.errRecord (s : State) (p cls src unit unit2 paddr : Nat) (detail : List Nat) : State :=
  let k := s.pkg p
  let now := s.clockOf p
  let same := k.errLog.find? fun e => errSame e.2 cls src unit unit2 paddr
      && decide (now < ofLeBytes ((e.2.drop 56).take 8) + errMergeCycles)
  match same with
  | some (i, b) => s.setPkg p { k with errLog := Tab.put k.errLog i (errBump b) }
  | none =>
    let log := if errRing ≤ k.errProd then Tab.cut k.errLog (k.errProd - errRing) else k.errLog
    s.setPkg p { k with errProd := k.errProd + 1
                        errLog := Tab.put log k.errProd (errBytes cls src 1 unit unit2 paddr detail k.errProd now) }

/-! ### Waits that a restart or a pre-emption withdraws (R278, R382, R386) -/

/-- The waits that pre-emption withdraws (R386); a trailing copy's wait for a value goes with its region (R408). -/
def PK.withdrawn : PK → Bool
  | .qpush .. | .qpop .. | .lwait _ | .waita .. | .rdfe _ | .wrfe .. | .exch | .twait .. | .copied => true
  | _ => false

/-- A wait with nothing in flight toward a register. -/
def PK.isWait : PK → Bool
  | .qpush .. | .qpop .. | .rdfe _ | .wrfe .. | .waita .. | .lwait _ | .twait .. | .cwait _ | .exch | .copied => true
  | _ => false

/-- Waits that count in LDC (R105). -/
def PK.inLdc : PK → Bool
  | .waita .. | .twait .. => true
  | _ => false

def PK.remote : PK → Bool
  | .waita a _ _ => a.remote
  | .acc a => a.remote
  | _ => false

/-- Withdraws the waits of the words from number `n` on: they leave their counters, and their pending bits clear. -/
def Thread.withdraw (t : Thread) (n : Nat) : Thread :=
  (t.pend.filter fun p => p.k.isWait && decide (n ≤ p.nw)).foldl (fun t p =>
    let t := { t.settle p.d p.pn p.also with pend := t.pend.filter fun q => q.u != p.u }
    { t with c := { t.c with ldc := t.c.ldc - (if p.k.inLdc then 1 else 0), frc := t.c.frc - (if p.k.remote then 1 else 0) } })
    t

/-! ### Leaving a gang -/

/-- Takes a thread out of a gang. -/
def Gang.leave (g : Gang) (tk : Nat) : Gang :=
  { g with members := g.members.filter (· != tk), todo := g.todo.filter (· != tk) }

def Issue.leave (i : Issue) (tk : Nat) : Issue := { i with g := i.g.leave tk }

/-- Takes a thread out of whichever gang holds it; a parked gang that all its members have left gives its place up (R109). -/
def State.dropMember (s : State) (tk : Nat) : State :=
  let ck := ckOf tk
  let half := halfOf tk
  let p := s.pipe ck half
  let left (l : List Gang) : List Gang := (l.map (·.leave tk)).filter fun g => !g.members.isEmpty
  let s := s.setPipe ck half { p with gang := p.gang.map (·.leave tk), parked := left p.parked, excess := left p.excess }
  let s : State := { s with iss := s.iss.map fun i => Issue.leave i tk }
  s.modThr tk fun t => { t with inGang := false }

/-! ### Taking a fault (R374, R379) and returning from one (R390, R391) -/

/-- Whether the fault diverts to the context's handler: a system-privileged context whose HNDPC is not 0, a thread not in
handler state, and not fault 0x13 (R379). -/
def State.diverts (s : State) (tk code : Nat) : Bool :=
  let x := s.ctxOf tk
  x.attr.getLsbD 0 && x.hndpc != 0 && !(s.thr tk).hand && code != 0x13

/-- Taking a fault on a thread, at word `pc` of the clause at `hpc` (or at its header): the window is banked, the record
queued, and the thread stopped before the word or diverted to HNDPC as a region head with XPC and XINFO set. What an earlier word
of the clause left for the clause's end stays with the thread. -/
def State.takeFault (s : State) (tk : Nat) (f : FI) (pc hpc hdr word : Word) : State :=
  let s := (s.modThr tk Thread.bank).dropMember tk
  let t := s.thr tk
  let p := pkgOfThr tk
  let x := s.ctx p t.ctx
  let dv := s.diverts tk f.code
  let n := x.prod + x.held.length
  let flags := f.flags true + (if x.held.isEmpty && !s.fqFull x then 0 else 16)
  let s := s.queueRecord p t.ctx (s.threadRecord tk f pc hdr word dv)
  if dv then
    s.modThr tk fun t =>
      { t with xhpc := hpc, xhdr := hdr, xmid := !f.header, xhead := t.head, xgo := false, xends := t.ends, xpc := pc,
               xinfo := BitVec.ofNat 64 (f.code + 256 * flags + 2 ^ 32 * (n % 2 ^ 32)), hand := true,
               pc := x.hndpc, hpc := x.hndpc, hdr := 0, fresh := true, redo := false, head := true, mid := false, ends := [],
               jump := none, hold := false, opDone := none, opW := none, reload := none, leaving := false, asked := none, r := { t.r with runG := 0, runP := 0 } }
  else
    s.modThr tk fun t =>
      { t with st := .stopped, stopCode := some f.code, pc := pc, hpc := hpc, hdr := hdr, mid := !f.header,
               hold := false, opDone := none, reload := none, leaving := false, asked := none, r := { t.r with runG := 0, runP := 0 } }

/-- The cycle since which the thread has waited for a path at its word. -/
def Thread.waited (t : Thread) : Option Nat := (t.asked.filter fun x => x.1 == t.nw).map (·.2)

/-- A stopped thread continues before the word it stopped at, as a gang of one that issues the rest of its clause as a new
run; one that stopped at a header arrives there again (R390). -/
def Thread.resume (t : Thread) : Thread :=
  { t with st := .live, stopCode := none, stopping := false, fresh := !t.mid, head := t.head && !t.mid }

/-- A stopped thread continues at a header, as a region head (R390, R391). -/
def Thread.redirect (t : Thread) (h : Word) : Thread :=
  { t with st := .live, stopCode := none, stopping := false, pc := h, hpc := h, hdr := 0, fresh := true, redo := false,
           head := true, mid := false, cut := false, park := false, seen := none, ends := [], jump := none, blk := [] }

/-! ### Counters (R105, R472) -/

def ctrMax : Nat := 255

end Sys2Proof.Machine
end

