-- ==== Sys2Proof/Machine/Fabric.lean ====
section
/-! DEFINITION. The fabric: ports and lanes (R316 to R318), flits, credits and recovery (R319 to R324), messages with their
numbers and tags (R325 to R329), paths and detours (R330 to R332). -/

namespace Sys2Proof.Machine

/-! ### Ports and paths -/

def State.port (s : State) (p k : Nat) : Port := if h : k < 16 then (s.pkg p).ports.get ⟨k, h⟩ else {}
def State.setPort (s : State) (p k : Nat) (v : Port) : State :=
  s.modPkg p fun g => if h : k < 16 then { g with ports := g.ports.set k v h } else g
def State.modPort (s : State) (p k : Nat) (f : Port → Port) : State := s.setPort p k (f (s.port p k))

def State.path (s : State) (p q : Nat) : Path :=
  if h : q < 16 then (s.pkg p).paths.get ⟨q, h⟩ else { port := 0, relays := 0 }
def State.setPath (s : State) (p q : Nat) (v : Path) : State :=
  s.modPkg p fun g => if h : q < 16 then { g with paths := g.paths.set q v h } else g

/-- The port that faces a package, and whether the direct port is up (R330). -/
def State.portTo (s : State) (p q : Nat) : Nat := (s.path p q).port
def State.direct (s : State) (p q : Nat) : Bool := (s.port p (s.portTo p q)).up

/-- The package a port faces and the port of that package at the other end. -/
def State.peer (s : State) (p k : Nat) : Option (Nat × Nat) :=
  ((List.range 16).find? fun q => q != p && s.portTo p q == k && (s.pkg q).present).map fun q => (q, s.portTo q p)

/-- Packages whose ports toward `p` and toward `q` are both up (R330). -/
def State.live (s : State) (p q : Nat) : BitVec 16 :=
  (List.range 16).foldl (fun m r =>
    if r ≠ p ∧ r ≠ q ∧ (s.pkg r).present ∧ s.direct r p ∧ s.direct r q then m ||| BitVec.twoPow 16 r else m) 0

/-- PATH[q] as SYSRD reads it. -/
def State.pathWord (s : State) (p q : Nat) : Word :=
  let v := s.path p q
  BitVec.ofNat 64 (v.port + (if s.direct p q then 16 else 0) + (if v.lost then 32 else 0) + v.relays.toNat * 2 ^ 16
    + (s.live p q).toNat * 2 ^ 32)

/-! ### Messages on the wire (R319, R325, R357) -/

def MsgTy.code : MsgTy → Nat
  | .getS => 1 | .getM => 2 | .getU => 3 | .putM => 4 | .putO => 5 | .putU => 6 | .inv => 7 | .fwdGetS => 8
  | .fwdGetM => 9 | .collect => 10 | .ack => 11 | .data => 12 | .nak => 13 | .err => 14 | .flush => 15 | .chunk => 0

/-- Requests from agents to homes. -/
def MsgTy.request : MsgTy → Bool
  | .getS | .getM | .getU | .putM | .putO | .putU | .flush => true
  | _ => false

/-- The three classes of numbers (R326). -/
def MsgTy.cls (t : MsgTy) : Nat := if t = .chunk then 2 else if t.request then 0 else 1

def Msg.vc (m : Msg) : Nat :=
  if m.ty = .chunk then 4 + m.comm % 4 else (if m.ty.request then 0 else 1) + (if m.hop2 then 2 else 0)

/-- Bytes of a partial: the combined elements, and the identity elsewhere (R275). -/
def Part.bytes (p : Part) (ident : Nat) : List Byte :=
  let n := if p.bind.w32 then 4 else 8
  (List.range (128 / n)).flatMap fun k => leBytes n (Tab.getOr p.els (k * n) ident)

/-- The identity of a reduction (R275): codes 0 add, 1 min, 2 max. -/
def Bind.ident (b : Bind) : Nat :=
  let w := if b.w32 then 32 else 64
  if b.fp then 2 ^ (w - 1)
  else if b.op = 0 then 0
  else if b.op = 1 then (if b.sgn then 2 ^ (w - 1) - 1 else 2 ^ w - 1)
  else (if b.sgn then 2 ^ (w - 1) else 0)

/-- The BIND field (R325). -/
def Bind.code (b : Bind) : Nat :=
  b.op + (if b.w32 then 8 else 0) + (if b.sgn then 16 else 0) + (if b.fp then 32 else 0)

/-- What follows a message's head. -/
def Msg.body (m : Msg) : List Byte :=
  match m.part with
  | some p => p.bytes p.bind.ident
  | none => m.bytes

def Msg.headLen (m : Msg) : Nat := if m.ty = .chunk then 16 else 24

/-- Flits of a message: its head, its body and the 8 bytes of the tag, in payloads of 120 bytes. -/
def Msg.flits (m : Msg) : Nat := (m.headLen + m.body.length + 8 + 119) / 120

def Msg.head (m : Msg) : List Byte :=
  if m.ty = .chunk then
    leBytes 1 (m.src + 16 * m.dst) ++ leBytes 1 (m.sdie + 4 * m.ddie + 16 * m.comm) ++ leBytes 1 (m.score + 128 * m.half)
      ++ leBytes 1 (m.flits - 1) ++ leBytes 4 m.mnum
      ++ leBytes 8 (m.pres.toNat + m.index % 65536 * 2 ^ 32 + m.opno % 4096 * 2 ^ 48 + m.kind * 2 ^ 60)
  else
    leBytes 1 m.ty.code ++ leBytes 1 (m.src + 16 * m.dst) ++ leBytes 1 (m.req + 16 * m.status) ++ leBytes 1 (m.flits - 1)
      ++ leBytes 4 m.mnum ++ leBytes 4 m.txid ++ leBytes 8 (m.line * 128) ++ leBytes 2 m.bind ++ leBytes 2 0

/-- Every payload byte, the tag last (R327). -/
def Msg.payload (m : Msg) : List Byte :=
  let b := m.head ++ m.body
  let b := b ++ List.replicate (m.flits * 120 - 8 - b.length) 0
  b ++ leBytes 8 (crc64 b).toNat

/-- The tag of received payload bytes checks. -/
def tagOk (l : List Byte) : Bool := leBytes 8 (crc64 (l.take (l.length - 8))).toNat == l.drop (l.length - 8)

/-- Flit `k` of a message, with its sequence number and the credits its header returns (R322, R323). -/
def Msg.flit (m : Msg) (k seq crvc credit : Nat) : Flit :=
  let rem := m.flits - 1 - k
  let hdr := m.vc + (if k = 0 then 16 else 0) + rem % 32 * 32 + crvc * 1024 + credit % 256 * 8192
  let b := leBytes 4 hdr ++ (m.payload.drop (120 * k)).take 120
  { seq := seq, bits := BitVec.ofNat 1024 (ofLeBytes (b ++ leBytes 4 (crc32c (dataSeed seq) b).toNat)), vc := m.vc, msg := m.u,
    last := rem == 0 }

/-! ### Sending flits (R320, R323, R324, R427) -/

def retryMax : Nat := 512

/-- The bits of a control flit: its header, its payload and their CRC (R322, R323). -/
def ctlBits (kind seq pay : Nat) : BitVec 1024 :=
  let b := leBytes 4 (8 + kind % 16 * 16 + seq % 2 ^ 24 * 256) ++ leBytes 120 pay
  BitVec.ofNat 1024 (ofLeBytes (b ++ leBytes 4 (crc32c ctlSeed b).toNat))

def Ctl.kind (c : Ctl) : Nat := field c.bits.toNat 7 4
def Ctl.seq (c : Ctl) : Nat := field c.bits.toNat 31 8
def Ctl.pay (c : Ctl) : Nat := field c.bits.toNat 991 32

/-- Puts a control flit on a port's wire. -/
def Port.ctlOut (v : Port) (kind seq pay : Nat) (far : Nat := 0) : Port := { v with ctl := v.ctl ++ [⟨ctlBits kind seq pay, far⟩] }

def Port.credit (v : Port) (vc : Nat) : Nat := if h : vc < 8 then v.credits.get ⟨vc, h⟩ else 0
def Port.setCredit (v : Port) (vc n : Nat) : Port := if h : vc < 8 then { v with credits := v.credits.set vc n h } else v
def Port.addCredit (v : Port) (vc n : Nat) : Port := v.setCredit vc (v.credit vc + n)
def Port.owes (v : Port) (vc : Nat) : Nat := if h : vc < 8 then v.owed.get ⟨vc, h⟩ else 0
def Port.setOwed (v : Port) (vc n : Nat) : Port := if h : vc < 8 then { v with owed := v.owed.set vc n h } else v

/-- What a message that has to wait holds up at its port: its channel, and, of the messages that an engine's arbiter has chosen, every
other of them, since a chunk is sent whole (R360). -/
def Msg.lanes (m : Msg) : List Nat := if m.ty = .chunk ∧ m.kind ≠ 1 ∧ m.kind ≠ 3 then [m.vc, 8] else [m.vc]

/-- The first message whose channel has a credit and that no earlier message holds up. -/
def pickSend (v : Port) : List Nat → List (Msg × Nat) → Option (Msg × Nat)
  | _, [] => none
  | used, (m, k) :: r =>
    if m.lanes.any used.contains then pickSend v used r
    else if 0 < v.credit m.vc then some (m, k)
    else pickSend v (m.lanes ++ used) r

/-- One data flit leaves the port, if it may: a replay first, else the next flit of a message. -/
def Port.sendOne (v : Port) (now : Nat) : Option Port :=
  if !v.up || v.isolated || v.tokens < 256 then none
  else
    match v.again with
    | f :: rest =>
      if 0 < v.credit f.vc then
        some { v.setCredit f.vc (v.credit f.vc - 1) with again := rest, wire := v.wire ++ [f], tokens := v.tokens - 256 }
      else none
    | [] =>
      if retryMax ≤ v.retry.length then none
      else
        match pickSend v [] v.sending with
        | none => none
        | some (m, k) =>
          let crvc := ((List.range 8).find? fun c => decide (0 < v.owes c)).getD 0
          let cr := min 255 (v.owes crvc)
          let f := m.flit k v.nseq crvc cr
          let w := (v.setOwed crvc (v.owes crvc - cr)).setCredit m.vc (v.credit m.vc - 1)
          some { w with
            nseq := (v.nseq + 1) % 2 ^ 24, retry := v.retry ++ [f], wire := v.wire ++ [f], tokens := v.tokens - 256,
            oldest := if v.retry.isEmpty then now else v.oldest,
            sending := if f.last then v.sending.filter fun x => x.1.u != m.u
                       else v.sending.map fun x => if x.1.u = m.u then (x.1, k + 1) else x,
            out := if f.last then v.out ++ [m] else v.out }

def Port.pump (now : Nat) : Nat → Port → Port
  | 0, v => v
  | n + 1, v =>
    match v.sendOne now with
    | some w => Port.pump now n w
    | none => v

/-- Sends what a port may send now. -/
def State.pump (s : State) (p k : Nat) : State := s.modPort p k fun v => v.pump s.clock 1024

/-! ### Paths of messages (R331, R332) -/

/-- The relay of a detour: of the packages allowed and live, the one the message's hash chooses. -/
def State.relayFor (s : State) (p : Nat) (m : Msg) : Option Nat :=
  let mask := (s.path p m.dst).relays &&& s.live p m.dst
  let l := (List.range 16).filter fun r => mask.getLsbD r
  let a := m.line * 128
  let h := if m.ty = .chunk then m.comm else field a 22 7 ^^^ field a 38 23
  if l.isEmpty then none else l[h % l.length]?

def State.setMsg (s : State) (m : Msg) : State := { s with net := s.net.map fun x => if x.u = m.u then m else x }
def State.dropMsg (s : State) (u : Nat) : State := { s with net := s.net.filter fun x => x.u != u }
def State.msg? (s : State) (u : Nat) : Option Msg := s.net.find? fun m => m.u == u

/-- The most messages of one class outstanding to one destination (R326). -/
def msgWindow : Nat := 4096

/-- Messages of one class outstanding from a package to another: those on their way or held by a relay whose second link has gone down,
and those that have come and whose last flit the last link has not acknowledged (R326). -/
def State.outstanding (s : State) (p dst cls : Nat) : Nat :=
  let mine (m : Msg) : Bool := m.src == p && m.dst == dst && m.ty.cls == cls
  let way := s.net.filter fun m => mine m && (m.st == .travels || (m.st == .failed && m.relay.isSome && !m.hop2))
  let last := (List.range 16).flatMap fun r =>
    if r = dst then [] else (s.port r (s.portTo r dst)).out.filter fun m => mine m && !way.any fun x => x.u == m.u
  way.length + last.length

/-- Puts a message onto the port that takes it to its destination or to a relay; without a path, or past the window, it
waits. An ErrSynth of a relay goes by the channel of a second hop (R345). -/
def State.route (s : State) (m : Msg) : State :=
  let p := m.src
  if (s.path p m.dst).lost then s.dropMsg m.u
  else if msgWindow ≤ s.outstanding p m.dst m.ty.cls then s.setMsg { m with st := .waiting }
  else if s.direct p m.dst then
    let m := { m with st := .travels, relay := none, hop2 := m.hop2 && m.ty == .err }
    let k := s.portTo p m.dst
    ((s.setMsg m).modPort p k fun v => { v with sending := v.sending ++ [(m, 0)] }).pump p k
  else
    match s.relayFor p m with
    | none => s.setMsg { m with st := .waiting }
    | some r =>
      let m := { m with st := .travels, relay := some r, hop2 := false }
      let k := s.portTo p r
      ((s.setMsg m).modPort p k fun v => { v with sending := v.sending ++ [(m, 0)] }).pump p k

/-- Sends every message that waits at a package for a path. -/
def State.routeWaiting (s : State) (p : Nat) : State :=
  (s.net.filter fun m => m.src == p && m.st == .waiting).foldl (fun s m => s.route m) s

/-- The next number of a class toward a destination. -/
def State.nextNum (s : State) (p dst cls : Nat) : Nat × State :=
  let k := dst * 4 + cls
  let n := Tab.getOr (s.pkg p).mnum k 0
  (n, s.modPkg p fun g => { g with mnum := Tab.put g.mnum k ((n + 1) % 2 ^ 32) })

/-- Sends a message: within a package it crosses the crossbar and has arrived; else it takes a path. -/
def State.send (s : State) (m : Msg) : State :=
  let (u, s) := s.fresh
  let (n, s) := s.nextNum m.src m.dst m.ty.cls
  let m := { m with u := u, mnum := n, cls := m.ty.cls, org := u }
  if m.src = m.dst then { s with net := s.net ++ [{ m with st := .arrived }] }
  else State.route { s with net := s.net ++ [m] } m

/-- The bytes of a line. -/
def State.lineBytes (s : State) (line : Nat) : List Byte := s.bytes (line * 128) 128

/-- Sends a coherence message about a line; `carries` says whether it carries the line's bytes. -/
def State.sendMsg (s : State) (ty : MsgTy) (src dst req line : Nat) (status : Nat := 0) (txid : Nat := 0)
    (carries : Bool := false) (part : Option Part := none) (bind : Nat := 0) : State :=
  s.send { u := 0, ty := ty, src := src, dst := dst, req := req, status := status, txid := txid, line := line, bind := bind,
           part := part, carries := carries, bytes := if carries && part.isNone then s.lineBytes line else [] }

/-! ### Receiving (R322 to R329) -/

/-- An answer about a message itself: a failed tag, or a relay that cannot forward it. -/
def State.ackMsg (s : State) (p : Nat) (m : Msg) (status : Nat) : State :=
  s.send { u := 0, ty := .ack, src := p, dst := m.src, req := m.req, status := status, txid := m.u, line := m.line }

/-- The second hop of a detour. -/
def State.forwardHop (s : State) (p : Nat) (m : Msg) : State :=
  if s.direct p m.dst then
    let m := { m with hop2 := true }
    let k := s.portTo p m.dst
    ((s.setMsg m).modPort p k fun v => { v with sending := v.sending ++ [(m, 0)] }).pump p k
  else (s.setMsg { m with st := .failed }).ackMsg p m 10

/-- A number has been accepted (R326). -/
def State.seen (s : State) (p : Nat) (m : Msg) : Bool :=
  (Tab.getOr (s.pkg p).seen (m.src * 4 + m.ty.cls) []).contains m.mnum

def State.accept (s : State) (p : Nat) (m : Msg) : State :=
  let k := m.src * 4 + m.ty.cls
  s.modPkg p fun g => { g with seen := Tab.put g.seen k ((m.mnum :: Tab.getOr g.seen k []).take msgWindow) }

/-- A head of a type or a status that is reserved (R325). -/
def reservedHead (b : List Byte) : Bool :=
  let ty := (b[0]?.getD 0).toNat
  let status := (b[2]?.getD 0).toNat / 16
  ty == 0 || decide (15 < ty) || decide (10 < status)

/-- The package holds a line of which a message's Data has been released and not judged (R327). -/
def State.awaits (s : State) (p : Nat) (m : Msg) : Bool :=
  m.ty == .data && m.dst == p && m.seq != 0 && (s.aline p m.line).unver == some m.org

/-- A first flit of Data that grants a state: its bytes of the line are released as they have come (R327). A copy sent again
releases nothing twice. -/
def State.firstFlit (s : State) (p u : Nat) (bytes : List Byte) : State :=
  match s.msg? u with
  | none => s
  | some m =>
    let a := s.aline p m.line
    if m.ty ≠ .data ∨ m.dst ≠ p ∨ m.seq = 0 ∨ m.released ∨ a.req.isNone ∨ a.unver.isSome ∨ s.seen p m then s
    else
      let st : LineSt := if m.seq = 4 then .S else if m.seq = 5 then .E else .M
      let part := (bytes.drop 24).take 96
      s.setALine p m.line { a with st := st, psn := m.status == 8, unver := some m.org, part := none, upto := 96, rel := part }

/-- The bytes of a whole message agree with those released before (R329). -/
def State.agrees (s : State) (p : Nat) (m : Msg) (bytes : List Byte) : Bool :=
  let a := s.aline p m.line
  !s.awaits p m || (bytes.drop 24).take a.rel.length == a.rel

/-- A message's last flit has arrived. A head that is reserved leaves an error record of the port alone; a duplicate is dropped;
the tag, and the bytes released from a copy that was cut off, decide whether the message is good (R325 to R329). -/
def State.received (s : State) (p k u : Nat) (bytes : List Byte) : State :=
  match s.msg? u with
  | none => s
  | some m =>
    if m.vc < 4 && reservedHead bytes then
      -- the class and the source of this record are open (log 75)
      let (w, s) := (s.dropMsg u).freeVal
      s.errRecord p (w.toNat % 256) (w.toNat / 256 % 256) (unitId 6 p (k / 4) k 0) 0 0 []
    else if m.dst = p then
      if s.seen p m then (s.dropMsg u).modPkg p fun g => { g with dupDrop := g.dupDrop + 1 }
      else
        let good := tagOk bytes && s.agrees p m bytes
        let s := if s.awaits p m then s.modALine p m.line fun a => { a with upto := 128 } else s
        if good then (s.accept p m).setMsg { m with st := .arrived, bad := false }
        else s.setMsg { m with st := .arrived, bad := true }
    else s.forwardHop p m

/-- The message of a type that has arrived at a package under a name. -/
def State.arrived (s : State) (p j : Nat) (ty : MsgTy) : Option Msg :=
  s.net.find? fun m => m.u == j && m.dst == p && m.st == .arrived && m.ty == ty

/-- A message whose tag failed is asked for again (R328, step 3). -/
def State.askAgain (s : State) (p : Nat) (m : Msg) : State := (s.setMsg { m with st := .failed, bad := false }).ackMsg p m 9

/-- A message that failed is sent again under its number. -/
def State.resend (s : State) (u : Nat) : State :=
  match s.msg? u with
  | some m => if m.st = .failed then s.route { m with st := .waiting } else s
  | none => s

/-! ### Recovery (R318, R324) -/

/-- Sequence number `n` acknowledges flit number `q`. -/
def covers (n q : Nat) : Bool := let d := (n + 2 ^ 24 - q) % 2 ^ 24; decide (0 < d) && decide (d ≤ 2 * retryMax)

/-- Frees the flits before number `n`. -/
def Port.ackTo (v : Port) (n now : Nat) : Port :=
  let keep := v.retry.filter fun f => !covers n f.seq
  if keep.length = v.retry.length then v
  else { v with retry := keep, again := v.again.filter fun f => !covers n f.seq, replays := 0, oldest := now,
                out := v.out.filter fun m => keep.any fun f => f.msg == m.u && f.last }

/-- Go back: every unacknowledged flit is sent again, and its credit restored. -/
def Port.goBack (v : Port) (now : Nat) : Port :=
  let spent := v.retry.filter fun f => !(v.again.any fun g => g.seq == f.seq)
  let w := spent.foldl (fun w f => w.addCredit f.vc 1) v
  { w with again := v.retry, replays := v.replays + 1, oldest := now }

/-- An acknowledgement with the next number expected, and the credits owed (R324 step 2). -/
def Port.ackOut (v : Port) (now : Nat) : Port :=
  let pay := (List.range 8).foldl (fun a c => a + min 65535 (v.owes c) * 2 ^ (16 * c)) 0
  let w := (v.ctlOut 1 v.expect 0)
  let w := if pay = 0 then w else { w.ctlOut 3 0 pay with owed := Vector.replicate 8 0 }
  { w with accepted := 0, ackT := now }

/-- The link of a port goes down at both its ends: flits in flight are lost, and messages not acknowledged whole are sent
again by another path with their numbers (R318, R332). -/
def Port.reset (v : Port) (up : Bool) : Port :=
  { v with up := up, nseq := 0, retry := [], again := [], sending := [], out := [],
           credits := #v[64, 128, 64, 128, 48, 48, 48, 48], replays := 0, wire := [], ctl := [], expect := 0, naked := false,
           accepted := 0, owed := Vector.replicate 8 0, inc := Vector.replicate 8 [] }

/-- Sends a message of a failed port again: the message itself if it is still on this port's hop, else a copy under its number
(R332). A relay answers the source instead, which sends the message, or a copy of one that has come, again (R331). -/
def State.sendAgain (s : State) (p : Nat) (m : Msg) : State :=
  let copy (st : MsgSt) : Msg × State :=
    let (u, s) := s.fresh
    let c := { m with u := u, st := st, relay := if st = .failed then some p else none, hop2 := false, bad := false }
    (c, { s with net := s.net ++ [c] })
  let here : Bool := match s.msg? m.u with | some x => x.st == .travels && (m.src != p || !x.hop2) | none => false
  if m.src = p then
    match s.msg? m.u with
    | some x => if here then s.route x else let (c, s) := copy .waiting; s.route c
    | none => let (c, s) := copy .waiting; s.route c
  else
    match s.msg? m.u with
    | some x => if here then (s.setMsg { x with st := .failed, hop2 := false }).ackMsg p x 10 else let (c, s) := copy .failed; s.ackMsg p c 10
    | none => let (c, s) := copy .failed; s.ackMsg p c 10

/-- One end of a link goes down. -/
def State.downEnd (s : State) (p k : Nat) : State :=
  let v := s.port p k
  let l := v.out ++ v.sending.map (·.1)
  let s := s.setPort p k (v.reset false)
  l.foldl (fun s m => s.sendAgain p m) s

/-- The recovery engines of both ends of a link begin to count the time without the other, or end it (R344). -/
def State.silence (s : State) (p q : Nat) (since : Option Nat) : State :=
  (s.setPath p q { (s.path p q) with silent := since }).setPath q p { (s.path q p) with silent := since }

/-- A link goes down at both its ends, whatever brought it down (R318). -/
def State.linkDown (s : State) (p k : Nat) : State :=
  let other := s.peer p k
  -- both ends are down before anything is sent again
  let s1 := s.modPort p k fun v => { v with up := false }
  let s2 := match other with
    | some (q, j) => (s1.modPort q j fun v => { v with up := false }).silence p q (some s.clock)
    | none => s1
  let s3 := s2.downEnd p k
  match other with
  | some (q, j) => s3.downEnd q j
  | none => s3

/-- A port comes up at both ends, and messages that wait for a path take it. -/
def State.linkUp (s : State) (p k : Nat) : State :=
  match s.peer p k with
  | none => s
  | some (q, j) =>
    if (s.port p k).isolated || (s.port q j).isolated || (s.port p k).up then s
    else
      let s := ((s.modPort p k fun v => v.reset true).modPort q j fun v => v.reset true).silence p q none
      (List.range 16).foldl (fun s r => s.routeWaiting r) s

/-! ### Predictive counters of lanes (R417, R418) -/

def Port.crcOf (v : Port) (l : Nat) : BitVec 64 := if h : l < 9 then v.crc.get ⟨l, h⟩ else 0
def Port.eyeOf (v : Port) (l : Nat) : BitVec 16 := if h : l < 9 then v.eye.get ⟨l, h⟩ else 0
def Port.isAlarmed (v : Port) (l : Nat) (eye : Bool) : Bool :=
  if h : l < 9 then (if eye then v.eyeAlarm.get ⟨l, h⟩ else v.alarmed.get ⟨l, h⟩) else false
def Port.setCrc (v : Port) (l : Nat) (x : BitVec 64) : Port := if h : l < 9 then { v with crc := v.crc.set l x h } else v
def Port.setEye (v : Port) (l : Nat) (x : BitVec 16) : Port := if h : l < 9 then { v with eye := v.eye.set l x h } else v
def Port.setAlarm (v : Port) (l : Nat) (eye x : Bool) : Port :=
  if h : l < 9 then (if eye then { v with eyeAlarm := v.eyeAlarm.set l x h } else { v with alarmed := v.alarmed.set l x h }) else v

def satAdd32 (n : Nat) : Nat := min (2 ^ 32 - 1) (n + 1)

/-- Cycles of a second (R4). -/
def cyclesPerS : Nat := 700000000

/-- CRC failures of a lane in the present second (R417). -/
def Port.crcNow (v : Port) (l now : Nat) : Nat :=
  match v.crcWin.toList[l]? with
  | some (t, n) => if t = now / cyclesPerS then n else 0
  | none => 0

/-- One more CRC failure, or one more replay, of a lane. -/
def Port.bumpCrc (v : Port) (l now : Nat) : Port :=
  let x := (v.crcOf l).toNat
  let w := v.setCrc l (BitVec.ofNat 64 (satAdd32 (field x 31 0) + field x 63 32 * 2 ^ 32))
  if h : l < 9 then { w with crcWin := v.crcWin.set l (now / cyclesPerS, v.crcNow l now + 1) h } else w
def Port.bumpReplay (v : Port) (l : Nat) : Port :=
  let x := (v.crcOf l).toNat
  v.setCrc l (BitVec.ofNat 64 (field x 31 0 + satAdd32 (field x 63 32) * 2 ^ 32))

/-- The physical lane that a failing flit is charged to: the one with the most wrong bits, else the one with the least eye
margin. -/
def Port.worstLane (v : Port) (err : BitVec 1024) : Nat :=
  let bad (l : Nat) : Nat := ((List.range 1024).filter fun b => err.getLsbD b && b / 8 % 8 == l).length
  let worst := (List.range 8).foldl (fun (a : Nat × Nat) l => if a.2 < bad l then (l, bad l) else a) (0, 0)
  let logical := if 0 < worst.2 then worst.1
    else ((List.range 8).foldl (fun (a : Nat × Nat) l =>
      let e := (v.eyeOf (v.lanes[l]?.getD l)).toNat % 256
      if e < a.2 then (l, e) else a) (0, 256)).1
  v.lanes[logical]?.getD logical

/-- Moves a logical lane onto the spare; with the spare in use the link goes down (R317, R318). -/
def State.spareLane (s : State) (p k lane : Nat) : State :=
  let v := s.port p k
  let unit := unitId 6 p (k / 4) k lane
  if h : lane < 8 then
    if v.spareUsed then s.linkDown p k
    else
      let s := s.setPort p k ({ v with lanes := v.lanes.set lane 8 h, spareUsed := true }.goBack s.clock)
      let s := s.modPort p k fun w => { w with replays := v.replays }
      (s.errRecord p 4 0x14 unit 0 0 [(v.crcOf lane).toNat]).pump p k
  else s

/-- A lane counter at its threshold, failures of one second or an eye margin, writes one record and moves the lane onto a free spare
(R417, R418). Each of the two writes its own; software cannot write a margin, which alarms once. -/
def State.laneAlarm (s : State) (p k phys : Nat) (eye : Bool) : State :=
  let v := s.port p k
  let thr := v.thr.toNat
  let c := v.crcNow phys s.clock
  let e := (v.eyeOf phys).toNat
  let hit := if eye then decide (e % 256 ≤ field thr 23 16) || decide (e / 256 ≤ field thr 31 24)
    else decide (field thr 15 0 ≤ c)
  if !hit || v.isAlarmed phys eye then s
  else
    let s := (s.setPort p k (v.setAlarm phys eye true)).errRecord p 3 (if eye then 0x13 else 0x12) (unitId 6 p (k / 4) k phys) 0 0
      [field (v.crcOf phys).toNat 31 0, e]
    match (List.range 8).find? fun l => v.lanes[l]?.getD l == phys with
    | some l => if v.spareUsed then s else s.spareLane p k l
    | none => s

end Sys2Proof.Machine
end

