-- ==== Sys2Proof/Machine/Flags.lean ====
section
/-! DEFINITION. Predicates, which are this machine's flags: guards (R64), predicate writes (R126), the feature checks that
govern a word (R93) and the element views that compares use (R26, R60). -/

namespace Sys2Proof.Machine

/-! ### Guards (R64) -/

/-- One guard: the predicate exclusive-or its negate bit. -/
def guardHolds (p : BitVec 7) (g : PredN) : Bool := getPred p g.p != g.neg

/-- Both guards hold. -/
def frameOn (f : Frame) (p : BitVec 7) : Bool := guardHolds p f.ga && guardHolds p f.gb

/-- The predicates that the guards read. -/
def framePreds (f : Frame) : BitVec 7 := predBit f.ga.p ||| predBit f.gb.p

/-! ### Predicates as results -/

/-- Writes a predicate of a thread; it takes effect at once for every later instruction (R126). -/
def State.setP (s : State) (tk : Nat) (n : BitVec 3) (v : Bool) : State :=
  s.modThr tk fun t => { t with r := { t.r with p := setPred t.r.p n v } }

/-- A condition on an ordering (R161, R171); an unordered pair satisfies only NE. -/
def condHolds (c : Cond) (o : Option Ordering) : Bool :=
  match c, o with
  | .ne, none => true
  | _, none => false
  | .eq, some o => o == .eq
  | .ne, some o => o != .eq
  | .lt, some o => o == .lt
  | .le, some o => o != .gt
  | .gt, some o => o == .gt
  | .ge, some o => o != .lt

/-! ### Features (R19, R93) -/

/-- A feature bit is taken for a context: the supervisor runs with every bit of FEAT_HAVE (R19). -/
def State.taken (s : State) (pkg ctx bit : Nat) : Bool :=
  if ctx = 0 then bit < 16 else (s.pkg pkg).featTake.getLsbD bit && bit < 16

/-! ### Elements (R25, R26, R60) -/

/-- Element width in bits. -/
def wbits : Width → Nat
  | .w64 => 64 | .w32 => 32 | .w16 => 16 | .w8 => 8

/-- How many elements of that width a register holds. -/
def wcount (w : Width) : Nat := 64 / wbits w

/-- Element `k` of width `w` of a word. -/
def elem (v : Word) (w k : Nat) : Nat := v.toNat / 2 ^ (w * k) % 2 ^ w

/-- The word whose elements are given, low element first. -/
def ofElems (w : Nat) (l : List Nat) : Word := BitVec.ofNat 64 (l.foldr (fun e acc => e % 2 ^ w + 2 ^ w * acc) 0)

/-- Builds a word from a function of the element number. -/
def mkElems (w : Nat) (f : Nat → Nat) : Word := ofElems w ((List.range (64 / w)).map f)

/-- An element as an integer: two's complement when signed (R26). -/
def toInt (w : Nat) (sgn : Bool) (e : Nat) : Int := if sgn && 2 ^ (w - 1) ≤ e then (e : Int) - 2 ^ w else e

/-- An integer modulo 2^w. -/
def wrap (w : Nat) (x : Int) : Nat := (x % 2 ^ w).toNat

/-- Sat for integer elements (R40): the nearest end of the range. -/
def satInt (w : Nat) (sgn : Bool) (x : Int) : Int :=
  let lo : Int := if sgn then -(2 ^ (w - 1)) else 0
  let hi : Int := if sgn then 2 ^ (w - 1) - 1 else 2 ^ w - 1
  if x < lo then lo else if hi < x then hi else x

/-- An operand as a word of integer elements: an immediate stands in every element (R60). -/
def RV.ints (v : RV) (w : Nat) : Word :=
  match v with
  | .word x => x
  | .imm n => mkElems w fun _ => wrap w n

/-- An operand as one 64-bit value: an immediate is its two's-complement image (R60). -/
def RV.w64 (v : RV) : Word :=
  match v with
  | .word x => x
  | .imm n => BitVec.ofInt 64 n

end Sys2Proof.Machine
end

