-- ==== Sys2Proof/Machine/Operands.lean ====
section
/-! DEFINITION. Operand forms: what an operand code selects for one thread (R59, R60, R70), what an instruction touches, and
the values its sources have. -/

namespace Sys2Proof.Machine

/-- The fields of an index register (R127). -/
structure IxV where
  cur : Nat
  base : Nat
  bound : Nat
  step : Int
  mode : Nat
  sub : Nat
  deriving DecidableEq, Repr

def ixFields (x : BitVec 30) : IxV where
  cur := field x.toNat 6 0
  base := field x.toNat 13 7
  bound := field x.toNat 20 14
  step := toInt 4 true (field x.toNat 24 21)
  mode := field x.toNat 26 25
  sub := field x.toNat 29 27

/-- The image with another current register. -/
def ixSetCur (x : BitVec 30) (cur : Nat) : BitVec 30 :=
  BitVec.ofNat 30 (x.toNat - field x.toNat 6 0 + cur % 128)

def ixGet (v : Vector (BitVec 30) 8) (i : BitVec 3) : BitVec 30 := v.get i.toFin
def ixPut (v : Vector (BitVec 30) 8) (i : BitVec 3) (x : BitVec 30) : Vector (BitVec 30) 8 := v.set i.toNat x i.isLt

/-- Moves the current register by the step, modulo 128 (R70). -/
def ixStep (x : BitVec 30) : BitVec 30 :=
  let f := ixFields x
  ixSetCur x ((f.cur + f.step) % 128).toNat

/-- What one instruction names: its sources by field number (0 A, 1 B, 2 C, 3 E), its destination, raw registers it reads
and writes, predicates it reads and writes, the feature bit and the privilege it needs, whether it performs a release at
its own issue, and whether its result has variable latency (R73, R93, R109, R239). -/
structure Use where
  src : List (Nat × Src) := []
  srcPair : List Nat := []
  dst : Option Dst := none
  pair : Bool := false
  /-- The destination is read as well (R165). -/
  rdD : Bool := false
  rd : List (BitVec 6) := []
  wr : List (BitVec 6) := []
  pr : BitVec 7 := 0
  pw : BitVec 7 := 0
  feat : Option Nat := none
  /-- 0 none, 1 system privilege, 2 system privilege or the launch right. -/
  priv : Nat := 0
  rel : Bool := false
  /-- It raises the failures of earlier stores (R265), and it closes its region (R380). -/
  drain : Bool := false
  close : Bool := false
  /-- It ends the thread's last region without an entry of its own (R406). -/
  last : Bool := false
  vl : Bool := false
  /-- It reads DRAWKEY or COINTAB (R221, R223). -/
  coin : Bool := false
  /-- A closing instruction that writes memory: kind and size of its own image (R405). -/
  img : Option (Nat × Nat) := none
  deriving DecidableEq, Repr

/-- A source after Resolve: its operand, and its register if it names one. -/
structure RSrc where
  fld : Nat
  opd : Opd
  reg : Option (BitVec 6)
  lu : Bool
  deriving DecidableEq, Repr

/-- All operands after Resolve: index registers as stepped, sources in order, the destination, and whether the destination
came through an index register. -/
structure Resolved where
  ix : Vector (BitVec 30) 8
  srcs : List RSrc
  d : RD := .none
  ind : Bool := false
  deriving DecidableEq, Repr

/-- Resolve of R70 for one register code. A fault records the image of the index register before the instruction, `ix0`, whatever
earlier fields have made of it (R130). -/
def resolveReg (xblk : Bool) (ix0 ix : Vector (BitVec 30) 8) (fld : Nat) (o : Opd) :
    Except FI (Option (BitVec 6) × Vector (BitVec 30) 8) :=
  match o with
  | .reg n => if 32 ≤ n.toNat ∧ !xblk then .error { code := 0x05 } else .ok (some n, ix)
  | .ind i stepped =>
    let x0 := ixGet ix i
    let x1 := if stepped ∧ (ixFields x0).mode = 2 then ixStep x0 else x0
    let f := ixFields x1
    let info := (ixGet ix0 i).toNat + 2 ^ 30 * f.cur
    let sel := (i.toNat, fld)
    if f.cur < f.base ∨ f.bound ≤ f.cur ∨ 64 ≤ f.cur then
      .error { code := 0x04, ixsel := some sel, ixinfo := info }
    else if 32 ≤ f.cur ∧ !xblk then .error { code := 0x05, ixsel := some sel, ixinfo := info }
    else
      let x2 := if stepped ∧ f.mode = 1 then ixStep x1 else x1
      .ok (some (BitVec.ofNat 6 f.cur), ixPut ix i x2)
  | _ => .ok (none, ix)

/-- Resolves sources in field order; the fields of `pair` name register pairs, whose high register needs the extended block as
well (R188). -/
def resolveSrcs (xblk : Bool) (pair : List Nat) (ix0 ix : Vector (BitVec 30) 8) : List (Nat × Src) →
    Except FI (List RSrc × Vector (BitVec 30) 8)
  | [] => .ok ([], ix)
  | (f, a) :: rest => do
    let (n, ix) ← resolveReg xblk ix0 ix f a.opd
    if !xblk ∧ pair.contains f ∧ n.any (fun n => decide (31 ≤ n.toNat)) then .error { code := 0x05 }
    let (l, ix) ← resolveSrcs xblk pair ix0 ix rest
    .ok (⟨f, a.opd, n, a.lu⟩ :: l, ix)

def dstOpd : Dst → Opd
  | .reg n => .reg n
  | .ind i s => .ind i s
  | .zero => .spec .zero

def dstIndirect : Dst → Bool
  | .ind .. => true
  | _ => false

/-- Resolves all operands of an instruction in the order A, B, C, E, D; registers named raw need the extended block as
well (R70). -/
def resolve (t : Thread) (u : Use) : Except FI Resolved := do
  let (l, ix) ← resolveSrcs t.xblk u.srcPair t.r.ix t.r.ix u.src
  if !t.xblk ∧ ((u.rd ++ u.wr).any fun n => 32 ≤ n.toNat) then .error { code := 0x05 }
  match u.dst with
  | none => .ok { ix := ix, srcs := l }
  | some d => do
    let (n, ix) ← resolveReg t.xblk t.r.ix ix 4 (dstOpd d)
    match n with
    | none => .ok { ix := ix, srcs := l }
    | some n =>
      if u.pair ∧ 31 ≤ n.toNat ∧ !t.xblk then .error { code := 0x05 }
      else .ok { ix := ix, srcs := l, d := if u.pair then .pair n else .reg n, ind := dstIndirect d }

/-- Registers an instruction reads, once resolved. -/
def Resolved.reads (r : Resolved) (u : Use) : List (BitVec 6) :=
  (r.srcs.flatMap fun x =>
    match x.reg with
    | none => []
    | some n => if u.srcPair.contains x.fld then [n, n + 1] else [n]) ++ u.rd ++ (if u.rdD then r.d.regs else [])

/-- Registers it writes. -/
def Resolved.writes (r : Resolved) (u : Use) : List (BitVec 6) := r.d.regs ++ u.wr

/-- Registers and predicates it touches (R109). -/
def Resolved.touch (r : Resolved) (u : Use) (f : Frame) : BitVec 64 × BitVec 7 :=
  (regsMask (r.reads u ++ r.writes u), framePreds f ||| u.pr ||| u.pw)

/-! ### Special registers (R59) -/

/-- Members of a thread's group, or none. -/
def State.grpOf (s : State) (tk : Nat) : Option Grp :=
  match (s.thr tk).grp with
  | none => none
  | some (e, _, _) => Tab.look (s.core (ckOf tk)).grps e

/-- The thread whose identity %core, %quad and %slot give: the leading copy of a pair (R403). -/
def State.idOf (s : State) (tk : Nat) : Nat :=
  match (s.thr tk).pair with
  | some p => if p.trail then p.partner else tk
  | none => tk

/-- A special register's value for a thread. Those of a launch read 0 in a thread that no launch started (log 82). -/
def State.special (s : State) (tk : Nat) (k : Special) : Nat :=
  let t := s.thr tk
  let id := s.idOf tk
  let p := pkgOfThr tk
  match k with
  | .zero => 0
  | .one => 1
  | .tid => t.tid.toNat
  | .rank => match t.grp with | some (_, _, q) => q | none => 2 ^ 64 - 1
  | .gsize => match s.grpOf tk with | some g => g.ranks.length | none => 0
  | .slot => slotOf id
  | .core => coreOf (ckOf id)
  | .die => dieIx (dkOf (ckOf tk))
  | .pkg => p
  | .cell => (s.pkg p).cell
  | .launch => match s.launch? t.launch with | some l => l.handle.toNat | none => 0
  | .stage => t.stage
  | .clock =>
    match (s.pairSrc tk).bind fun v => v.v.head? with
    | some w => w.toNat
    | none => s.clockOf p
  | .gen => match s.launch? t.launch with | some l => l.gen.toNat | none => 0
  | .ntid => match s.launch? t.launch with | some l => l.ntid | none => 0
  | .quad => coreOf (ckOf id) / 4

/-- A source's value (R60). -/
def State.value (s : State) (tk : Nat) (x : RSrc) : RV :=
  match x.opd with
  | .reg _ | .ind .. => .word (s.readReg tk (x.reg.getD 0))
  | .spec .zero => .imm 0
  | .spec .one => .imm 1
  | .spec k => .word (BitVec.ofNat 64 (s.special tk k))
  | .imm k => .imm ((k.val : Int) - 15)
  | .lit v => .word v

/-- The value of a register pair, low register first (R3). -/
def State.pairValue (s : State) (tk : Nat) (n : BitVec 6) : Nat :=
  (s.readReg tk n).toNat + 2 ^ 64 * (s.readReg tk (n + 1)).toNat

end Sys2Proof.Machine
end

