-- ==== Sys2Proof/Machine/Fp.lean ====
section
/-! DEFINITION. Floating-point numbers: formats (R25, R28), NaNs (R36, R37), RoundTo (R39), Sat (R40), encoding (R41), and
exact arithmetic on numbers m * 2^e, rounded once. -/

namespace Sys2Proof.Machine

/-- A binary format: width, exponent and fraction bits, bias, and its largest finite value maxM * 2^maxE. `ieee` formats
have infinities and NaNs at the top exponent; E4M3 has one NaN pattern and no infinity. -/
structure FD where
  w : Nat
  eb : Nat
  fb : Nat
  bias : Nat
  maxM : Nat
  maxE : Int
  ieee : Bool
  deriving DecidableEq, Repr

def fd64 : FD := ⟨64, 11, 52, 1023, 2 ^ 53 - 1, 971, true⟩
def fd32 : FD := ⟨32, 8, 23, 127, 2 ^ 24 - 1, 104, true⟩
def fdBf16 : FD := ⟨16, 8, 7, 127, 255, 120, true⟩
def fdF16 : FD := ⟨16, 5, 10, 15, 2047, 5, true⟩
def fdE4m3 : FD := ⟨8, 4, 3, 7, 14, 5, false⟩
def fdE5m2 : FD := ⟨8, 5, 2, 15, 7, 13, true⟩

def fdOf : FFmt → FD
  | .f64 => fd64 | .f32 => fd32 | .bf16 => fdBf16 | .f16 => fdF16

/-- A format of the codes 0x0 to 0x5 of R91. -/
def fdOfCode (c : Nat) : FD :=
  match c with
  | 0 => fd64 | 1 => fd32 | 2 => fdBf16 | 3 => fdF16 | 4 => fdE4m3 | _ => fdE5m2

/-- A value: a NaN with its sign and fraction bits, an infinity, or (-1)^neg * m * 2^e. -/
inductive FV where
  | nan (neg : Bool) (frac : Nat)
  | inf (neg : Bool)
  | fin (neg : Bool) (m : Nat) (e : Int)
  deriving DecidableEq, Repr

def FV.isNan : FV → Bool
  | .nan .. => true
  | _ => false

def FV.isInf : FV → Bool
  | .inf _ => true
  | _ => false

def FV.isZero : FV → Bool
  | .fin _ 0 _ => true
  | _ => false

def FV.neg : FV → Bool
  | .nan n _ => n
  | .inf n => n
  | .fin n _ _ => n

/-- The least exponent of a format's grid. -/
def FD.emin (f : FD) : Int := 1 - (f.bias : Int) - f.fb

/-- The quiet bit of a format's NaN. -/
def FD.quiet (f : FD) : Nat := 2 ^ (f.fb - 1)

/-- Reads an element of a format. -/
def FD.decode (f : FD) (b : Nat) : FV :=
  let neg := b / 2 ^ (f.w - 1) % 2 == 1
  let ex := b / 2 ^ f.fb % 2 ^ f.eb
  let fr := b % 2 ^ f.fb
  if f.ieee && ex == 2 ^ f.eb - 1 then (if fr == 0 then .inf neg else .nan neg fr)
  else if !f.ieee && b % 2 ^ (f.w - 1) == 2 ^ (f.w - 1) - 1 then .nan neg fr
  else if ex == 0 then .fin neg fr f.emin
  else .fin neg (2 ^ f.fb + fr) ((ex : Int) - f.bias - f.fb)

/-- The generated NaN of a cause (R36). -/
def FD.genNan (f : FD) (c : Nat) : FV :=
  if f.ieee then .nan false (f.quiet + (if f.fb < 4 then 0 else c)) else .nan false (2 ^ f.fb - 1)

/-- Quieting keeps the sign and the rest of the payload (R37). -/
def FD.quieten (f : FD) : FV → FV
  | .nan n fr => .nan n (fr ||| f.quiet)
  | x => x

/-- Encodes a value that lies on the format's grid and in its range; an infinity of E4M3 is its NaN (R41). -/
def FD.encode (f : FD) (x : FV) : Nat :=
  match x with
  | .nan n fr =>
    (if n then 2 ^ (f.w - 1) else 0) +
      (if f.ieee then (2 ^ f.eb - 1) * 2 ^ f.fb + fr % 2 ^ f.fb else 2 ^ (f.w - 1) - 1)
  | .inf n =>
    (if n then 2 ^ (f.w - 1) else 0) +
      (if f.ieee then (2 ^ f.eb - 1) * 2 ^ f.fb else 2 ^ (f.w - 1) - 1)
  | .fin n m e =>
    let s := if n then 2 ^ (f.w - 1) else 0
    if m = 0 then s
    else
      -- bring the significand to fb + 1 bits, or to the subnormal grid
      let l := m.log2
      let k : Int := max (e + l - f.fb) f.emin
      let q := if e ≤ k then m / 2 ^ (k - e).toNat else m * 2 ^ (e - k).toNat
      if q < 2 ^ f.fb then s + q
      else s + ((k + f.fb + f.bias).toNat * 2 ^ f.fb + (q - 2 ^ f.fb))

/-- Whether a magnitude is rounded away from zero: `q` the kept part, `rem` of `2^sh` the rest, `st` whether more follows. -/
def roundsUp (mode : Rnd) (neg : Bool) (q rem sh : Nat) (st : Bool) : Bool :=
  match mode with
  | .rne => decide (2 ^ sh < 2 * rem) || (2 * rem == 2 ^ sh && (st || q % 2 == 1))
  | .rz => false
  | .ru => !neg && (rem != 0 || st)
  | .rd => neg && (rem != 0 || st)

/-- Rounds m * 2^e (and a little more, when `st`) on the grid 2^k: the number of grid steps. -/
def roundGrid (mode : Rnd) (neg : Bool) (m : Nat) (e k : Int) (st : Bool) : Nat :=
  if k ≤ e then m * 2 ^ (e - k).toNat
  else
    let sh := (k - e).toNat
    let q := m / 2 ^ sh
    if roundsUp mode neg q (m % 2 ^ sh) sh st then q + 1 else q

/-- m * 2^e exceeds n * 2^k. -/
def dyadicGt (m : Nat) (e : Int) (n : Nat) (k : Int) : Bool :=
  if e ≤ k then decide (n * 2 ^ (k - e).toNat < m) else decide (n < m * 2 ^ (e - k).toNat)

/-- RoundTo of R39 on an exact number m * 2^e; with `st` the number lies strictly between m * 2^e and (m+1) * 2^e, and m
has at least two bits more than the format keeps. -/
def roundTo (f : FD) (mode : Rnd) (neg : Bool) (m : Nat) (e : Int) (st : Bool := false) : FV :=
  if m = 0 then .fin neg 0 0
  else
    let k : Int := max (e + m.log2 - f.fb) f.emin
    let q := roundGrid mode neg m e k st
    if dyadicGt q k f.maxM f.maxE then
      match mode with
      | .rne => .inf neg
      | .rz => .fin neg f.maxM f.maxE
      | .ru => if neg then .fin neg f.maxM f.maxE else .inf neg
      | .rd => if neg then .inf neg else .fin neg f.maxM f.maxE
    else .fin neg q k

/-- Rounds any value. -/
def FV.round (f : FD) (mode : Rnd) : FV → FV
  | .fin n m e => roundTo f mode n m e
  | x => x

/-- Sat of R40 for a floating format. -/
def FD.sat (f : FD) (x : FV) : FV :=
  match x with
  | .inf n => .fin n f.maxM f.maxE
  | .fin n m e => if dyadicGt m e f.maxM f.maxE then .fin n f.maxM f.maxE else x
  | x => x

/-! ### Exact sums and products -/

/-- A finite number as sign, magnitude and exponent. -/
structure Dy where
  neg : Bool
  m : Nat
  e : Int
  deriving DecidableEq, Repr

def Dy.toInt (d : Dy) (k : Int) : Int :=
  let v : Int := d.m * 2 ^ (d.e - k).toNat
  if d.neg then -v else v

/-- The exact sum of finite numbers, rounded once; the sign of a zero sum as R164 and IEEE 754 give. -/
def sumRound (f : FD) (mode : Rnd) (l : List Dy) : FV :=
  let nz := l.filter fun d => d.m != 0
  let k := nz.foldl (fun a d => min a d.e) (nz.headD ⟨false, 0, 0⟩).e
  let t : Int := nz.foldl (fun a d => a + d.toInt k) 0
  if t = 0 then
    if l.all (·.neg) then .fin true 0 0
    else if nz.isEmpty && l.all (fun d => !d.neg) then .fin false 0 0
    else .fin (mode == .rd) 0 0
  else roundTo f mode (decide (t < 0)) t.natAbs k

def Dy.mul (a b : Dy) : Dy := ⟨a.neg != b.neg, a.m * b.m, a.e + b.e⟩

/-- A product of two values with no NaN: none where it is 0 times infinity. -/
inductive Prod where
  | bad
  | inf (neg : Bool)
  | fin (d : Dy)
  deriving DecidableEq, Repr

def prodOf (a b : FV) : Prod :=
  match a, b with
  | .fin n m e, .fin p q k => .fin (Dy.mul ⟨n, m, e⟩ ⟨p, q, k⟩)
  | .inf n, y => if y.isZero then .bad else .inf (n != y.neg)
  | x, .inf p => if x.isZero then .bad else .inf (x.neg != p)
  | _, _ => .bad

def FV.term : FV → Prod
  | .fin n m e => .fin ⟨n, m, e⟩
  | .inf n => .inf n
  | .nan .. => .bad

/-- The sum of terms with no NaN: cause 4 for a 0 times infinity, cause 3 for opposite infinities, an infinity, or the
finite sum rounded once (R167, R168). -/
def sumTerms (f : FD) (mode : Rnd) (l : List Prod) : FV :=
  if l.any (· == .bad) then f.genNan 4
  else if l.any (· == .inf false) && l.any (· == .inf true) then f.genNan 3
  else if l.any (· == .inf false) then .inf false
  else if l.any (· == .inf true) then .inf true
  else sumRound f mode (l.filterMap fun | .fin d => some d | _ => none)

/-- The first NaN, quieted, or the result (R37). -/
def firstNan (f : FD) (l : List FV) (r : FV) : FV :=
  match l.find? (·.isNan) with
  | some x => f.quieten x
  | none => r

/-- Three-way comparison of finite or infinite values. -/
def FV.cmp (a b : FV) : Option Ordering :=
  let key : FV → Option (Int × Nat × Int) := fun
    | .nan .. => none
    | .inf n => some (if n then -2 else 2, 0, 0)
    | .fin n m e => if m = 0 then some (0, 0, 0) else some (if n then -1 else 1, m, e)
  match key a, key b with
  | some (x, m, e), some (y, n, k) =>
    if x < y then some .lt
    else if y < x then some .gt
    else if x = 1 ∨ x = -1 then
      let g := dyadicGt m e n k
      let l := dyadicGt n k m e
      let o : Ordering := if g then .gt else if l then .lt else .eq
      some (if x = 1 then o else o.swap)
    else some .eq
  | _, _ => none

def faddV (f : FD) (mode : Rnd) (a b : FV) : FV := firstNan f [a, b] (sumTerms f mode [a.term, b.term])
def FV.negate : FV → FV
  | .fin n m e => .fin (!n) m e
  | .inf n => .inf (!n)
  | x => x
def fsubV (f : FD) (mode : Rnd) (a b : FV) : FV := firstNan f [a, b] (sumTerms f mode [a.term, b.negate.term])
def fmulV (f : FD) (mode : Rnd) (a b : FV) : FV := firstNan f [a, b] (sumTerms f mode [prodOf a b])
def ffmaV (f : FD) (mode : Rnd) (a b c : FV) : FV := firstNan f [a, b, c] (sumTerms f mode [prodOf a b, c.term])

/-- The lesser of two values, -0 below +0 (R169). -/
def fminV (f : FD) (a b : FV) : FV :=
  firstNan f [a, b] (match a.cmp b with
    | some .lt => a
    | some .gt => b
    | _ => if a.neg then a else b)

def fmaxV (f : FD) (a b : FV) : FV :=
  firstNan f [a, b] (match a.cmp b with
    | some .gt => a
    | some .lt => b
    | _ => if a.neg then b else a)

/-- An operand's integer immediate, exactly, in a format (R60). -/
def FD.ofInt (f : FD) (n : Int) : Nat := f.encode (roundTo f .rne (decide (n < 0)) n.natAbs 0)

/-- An operand as a word of elements of a format: an immediate stands in every element, converted exactly (R60). -/
def RV.floats (v : RV) (f : FD) : Word :=
  match v with
  | .word x => x
  | .imm n => mkElems f.w fun _ => f.ofInt n

/-- An operand read as one FP32 value in bits [31:0]. -/
def RV.f32 (v : RV) : FV :=
  match v with
  | .word x => fd32.decode (x.toNat % 2 ^ 32)
  | .imm n => fd32.decode (fd32.ofInt n)

/-- An operand read as one FP64 value. -/
def RV.f64 (v : RV) : FV :=
  match v with
  | .word x => fd64.decode x.toNat
  | .imm n => fd64.decode (fd64.ofInt n)

/-- A NaN carried from one format to another keeps its sign and the low four bits of its fraction and becomes quiet (R37);
an 8-bit NaN reads as the generated NaN of cause 1 (R178, R182). -/
def convNan (src dst : FD) (neg : Bool) (fr : Nat) : FV :=
  if src.w = 8 then dst.genNan 1
  else if dst.ieee && 4 ≤ dst.fb then .nan neg (dst.quiet + fr % 16)
  else .nan neg dst.quiet

/-- Applies an element function over the format's elements. -/
def fmap1 (f : FD) (op : FV → FV) (a : Word) : Word := mkElems f.w fun k => f.encode (op (f.decode (elem a f.w k)))
def fmap2 (f : FD) (op : FV → FV → FV) (a b : Word) : Word :=
  mkElems f.w fun k => f.encode (op (f.decode (elem a f.w k)) (f.decode (elem b f.w k)))
def fmap3 (f : FD) (op : FV → FV → FV → FV) (a b c : Word) : Word :=
  mkElems f.w fun k => f.encode (op (f.decode (elem a f.w k)) (f.decode (elem b f.w k)) (f.decode (elem c f.w k)))

/-- FDOT2 of R168: two products and an FP32 addend for each half. -/
def fdot2V (f : FD) (mode : Rnd) (a b c : Word) : Word :=
  mkElems 32 fun h =>
    let x0 := f.decode (elem a f.w (2 * h)); let x1 := f.decode (elem a f.w (2 * h + 1))
    let y0 := f.decode (elem b f.w (2 * h)); let y1 := f.decode (elem b f.w (2 * h + 1))
    let z := fd32.decode (elem c 32 h)
    match [x0, x1, y0, y1].find? (·.isNan) with
    | some (.nan n fr) => fd32.encode (convNan f fd32 n fr)
    | _ => fd32.encode (firstNan fd32 [z] (sumTerms fd32 mode [z.term, prodOf x0 y0, prodOf x1 y1]))

/-- A value truncated toward zero to an integer. -/
def FV.trunc : FV → Int
  | .fin n m e =>
    let v : Int := if 0 ≤ e then (m : Int) * 2 ^ e.toNat else ((m / 2 ^ (-e).toNat : Nat) : Int)
    if n then -v else v
  | _ => 0

/-- The exponent of a scaling, kept within bounds beyond which every result is the same. -/
def clampExp (j : Int) : Int := max (-20000) (min 20000 j)

/-- FSCALE of R173. -/
def fscaleV (f : FD) (mode : Rnd) (a b : FV) : FV :=
  firstNan f [a, b] (match a, b with
    | .fin n 0 _, .inf true => .fin n 0 0
    | .fin _ 0 _, .inf false => f.genNan 4
    | .fin n _ _, .inf neg => if neg then .fin n 0 0 else .inf n
    | .inf n, .inf neg => if neg then f.genNan 4 else .inf n
    | .inf n, _ => .inf n
    | .fin n m e, y => if m = 0 then .fin n 0 0 else roundTo f mode n m (e + clampExp y.trunc)
    | x, _ => x)

/-- FRND of R173: an integral value of the same format. -/
def frndV (f : FD) (mode : Rnd) (a : FV) : FV :=
  match a with
  | .fin n m e => .fin n (roundGrid mode n m e (max e 0) false) (max e 0)
  | x => f.quieten x

/-- FCLASS of R172 on an element's bits. -/
def fclassV (f : FD) (b : Nat) : Nat :=
  let fr := b % 2 ^ f.fb
  match f.decode b with
  | .inf n => if n then 1 else 128
  | .fin n m _ =>
    if m = 0 then (if n then 8 else 16)
    else if m < 2 ^ f.fb then (if n then 4 else 32)
    else (if n then 2 else 64)
  | .nan n _ =>
    (if fr / f.quiet % 2 = 0 then 256 else 512)
      + (if !n && fr == f.quiet + fr % 16 && decide (1 ≤ fr % 16) && decide (fr % 16 ≤ 6) then 1024 else 0)
      + fr % 16 * 2048

/-- FABS and FNEG of R170. -/
def fabsV (f : FD) : FV → FV
  | .fin _ m e => .fin false m e
  | .inf _ => .inf false
  | x => f.quieten x
def fnegV (f : FD) : FV → FV
  | .fin n m e => .fin (!n) m e
  | .inf n => .inf (!n)
  | x => f.quieten x

/-- FCMP of R171. -/
def fcmpV (c : Cond) (anyE : Bool) (f : FD) (a b : Word) : Bool :=
  let l := (List.range (64 / f.w)).map fun k =>
    condHolds c ((f.decode (elem a f.w k)).cmp (f.decode (elem b f.w k)))
  if anyE then l.any id else l.all id

end Sys2Proof.Machine
end

