-- ==== Sys2Proof/Machine/Reduce.lean ====
section
/-! DEFINITION. The partials of lines in update: the arithmetic of reductions (R275), a partial that joins memory (R248, R340), and
what the package's own reads of memory see of them (R234, R235; log 6). -/

namespace Sys2Proof.Machine

/-! ### Reductions (R275) -/

def Bind.bits (b : Bind) : Nat := if b.w32 then 32 else 64

/-- One combine: `x` is what is there, `y` what comes. -/
def Bind.combine (b : Bind) (x y : Nat) : Nat :=
  let w := b.bits
  if b.fp then
    let d := if b.w32 then fd32 else fd64
    d.encode (faddV d .rne (d.decode x) (d.decode y))
  else if b.op = 0 then (x + y) % 2 ^ w
  else
    let less := decide (toInt w b.sgn y < toInt w b.sgn x)
    if b.op = 1 then (if less then y else x) else (if less then x else y)

/-- A partial in which nothing has been combined. -/
def Part.new (b : Bind) : Part := ⟨b, []⟩

def Part.at (p : Part) (off : Nat) : Nat := Tab.getOr p.els off p.bind.ident

/-- A reduction performs on a partial. -/
def Part.add (p : Part) (off v : Nat) : Part := { p with els := Tab.put p.els off (p.bind.combine (p.at off) v) }

/-- The home combines a partial into a line of memory, element by element (R340). -/
def State.combineLine (s : State) (line : Nat) (p : Part) : State :=
  let n := p.bind.bits / 8
  (List.range (128 / n)).foldl (fun s k =>
    let a := line * 128 + k * n
    s.write a n (p.bind.combine (s.read a n) (p.at (k * n)))) s

/-- What agents have combined of a line and not given back joins memory, before the package itself accesses the line (log 6). -/
def State.settle (s : State) (line : Nat) : State :=
  s.pkgs.foldl (fun s e =>
    match (s.aline e.1 line).part with
    | some q => if q.els.isEmpty then s
                else (s.combineLine line q).modALine e.1 line fun a => { a with part := some (Part.new q.bind) }
    | none => s) s

/-- `n` bytes at a place as the package itself reads them now: memory with every reduction that has performed (R234, R235, R248). -/
def State.readNow (s : State) (pa n : Nat) : Nat := (s.settle (lineOf pa)).read pa n

end Sys2Proof.Machine
end

