-- ==== Sys2Proof/Machine/Special.lean ====
section
/-! DEFINITION. The correctly rounded functions of R174: exact quotients and roots, and for the others fixed-point bounds
that are narrowed until both ends round alike. -/

namespace Sys2Proof.Machine

/-- The integer square root, bit by bit from bit `b - 1` down. -/
def isqrtGo (n : Nat) : Nat → Nat → Nat
  | 0, r => r
  | b + 1, r => isqrtGo n b (if (r + 2 ^ b) * (r + 2 ^ b) ≤ n then r + 2 ^ b else r)

def isqrt (n : Nat) : Nat := isqrtGo n (n.log2 / 2 + 1) 0

/-! ### Exact: quotients and roots -/

/-- m1 * 2^e1 / (m2 * 2^e2), rounded once. -/
def divRound (f : FD) (mode : Rnd) (neg : Bool) (m1 : Nat) (e1 : Int) (m2 : Nat) (e2 : Int) : FV :=
  let k := f.fb + 4 + m2.log2
  let n := m1 * 2 ^ k
  roundTo f mode neg (n / m2) (e1 - e2 - k) (n % m2 != 0)

/-- The square root of m * 2^e, rounded once. -/
def sqrtRound (f : FD) (mode : Rnd) (m : Nat) (e : Int) : FV :=
  let odd := e % 2 != 0
  let m1 := if odd then 2 * m else m
  let e1 := if odd then e - 1 else e
  let k := f.fb + 4
  let n := m1 * 2 ^ (2 * k)
  let r := isqrt n
  roundTo f mode false r (e1 / 2 - k) (r * r != n)

/-- The reciprocal of the square root of m * 2^e, rounded once. -/
def rsqrtRound (f : FD) (mode : Rnd) (m : Nat) (e : Int) : FV :=
  let odd := e % 2 != 0
  let m1 := if odd then 2 * m else m
  let e1 := if odd then e - 1 else e
  let k := f.fb + 4 + m1.log2
  let r := isqrt (2 ^ (2 * k) / m1)
  roundTo f mode false r (-(e1 / 2) - k) (r * r * m1 != 2 ^ (2 * k))

def fdivV (f : FD) (mode : Rnd) (a b : FV) : FV :=
  firstNan f [a, b] (match a, b with
    | .inf _, .inf _ => f.genNan 5
    | .inf n, y => .inf (n != y.neg)
    | .fin n _ _, .inf p => .fin (n != p) 0 0
    | .fin n m e, .fin p q k =>
      if q = 0 then (if m = 0 then f.genNan 5 else .inf (n != p))
      else if m = 0 then .fin (n != p) 0 0
      else divRound f mode (n != p) m e q k
    | x, _ => x)

def fsqrtV (f : FD) (mode : Rnd) (a : FV) : FV :=
  firstNan f [a] (match a with
    | .inf true => f.genNan 5
    | .fin n m e => if m = 0 then .fin n 0 0 else if n then f.genNan 5 else sqrtRound f mode m e
    | x => x)

def frcpV (f : FD) (mode : Rnd) (a : FV) : FV :=
  firstNan f [a] (match a with
    | .inf n => .fin n 0 0
    | .fin n m e => if m = 0 then .inf n else divRound f mode n 1 0 m e
    | x => x)

def frsqV (f : FD) (mode : Rnd) (a : FV) : FV :=
  firstNan f [a] (match a with
    | .inf n => if n then f.genNan 5 else .fin false 0 0
    | .fin n m e => if m = 0 then .inf n else if n then f.genNan 5 else rsqrtRound f mode m e
    | x => x)

/-! ### Bounds in fixed point: a value `v` in units of 2^-W with an error below `slack` -/

def slack : Nat := 2 ^ 32

/-- Sum of zk / (2k + 1), zk = z^(2k+1) in units of 2^-W: the inverse hyperbolic tangent of z. -/
def atanhGo (w z2 : Nat) : Nat → Nat → Nat → Nat → Nat
  | 0, _, _, acc => acc
  | n + 1, k, zk, acc => atanhGo w z2 n (k + 1) (zk * z2 / 2 ^ w) (acc + zk / (2 * k + 1))

def atanhFix (w z : Nat) (terms : Nat) : Nat := atanhGo w (z * z / 2 ^ w) terms 0 z 0

/-- ln 2 in units of 2^-W, as 2 atanh(1/3). -/
def ln2Fix (w : Nat) : Nat := 2 * atanhFix w (2 ^ w / 3) (w / 3 + 4)

/-- The alternating sum of R^-(2k+1) / (2k + 1): the arctangent of 1/r. -/
def atanGo (r2 : Nat) : Nat → Nat → Nat → Int → Int
  | 0, _, _, acc => acc
  | n + 1, k, zk, acc =>
    atanGo r2 n (k + 1) (zk / r2) (if k % 2 = 0 then acc + (zk / (2 * k + 1) : Nat) else acc - (zk / (2 * k + 1) : Nat))

/-- Pi in units of 2^-W (Machin's formula). -/
def piFix (w : Nat) : Nat :=
  (16 * atanGo 25 (w / 4 + 4) 0 (2 ^ w / 5) 0 - 4 * atanGo 57121 (w / 15 + 4) 0 (2 ^ w / 239) 0).toNat

/-- Terms r^k / k! of the exponential. -/
def expGo (w r : Nat) : Nat → Nat → Nat → Nat → Nat
  | 0, _, _, acc => acc
  | n + 1, k, t, acc => expGo w r n (k + 1) (t * r / 2 ^ w / (k + 1)) (acc + t)

/-- Squares a value n times. -/
def squareGo (w : Nat) : Nat → Nat → Nat
  | 0, v => v
  | n + 1, v => squareGo w n (v * v / 2 ^ w)

/-- 2^(q / 2^w) for q below 2^w, in units of 2^-W. -/
def exp2Fix (w q : Nat) : Nat :=
  let y := q * ln2Fix w / 2 ^ w
  squareGo w 8 (expGo w (y / 2 ^ 8) (w / 8 + 4) 0 (2 ^ w) 0)

/-- Terms of the sine and cosine: t, t*y2/((k+1)(k+2)), with alternating signs. -/
def trigGo (w y2 : Nat) : Nat → Nat → Nat → Bool → Int → Int
  | 0, _, _, _, acc => acc
  | n + 1, k, t, plus, acc =>
    trigGo w y2 n (k + 2) (t * y2 / 2 ^ w / ((k + 1) * (k + 2))) (!plus) (if plus then acc + (t : Nat) else acc - (t : Nat))

def sinFix (w y : Nat) : Nat := (trigGo w (y * y / 2 ^ w) (w / 8 + 8) 1 y true 0).toNat
def cosFix (w y : Nat) : Nat := (trigGo w (y * y / 2 ^ w) (w / 8 + 8) 0 (2 ^ w) true 0).toNat

/-- Rounds a value known within `slack` units, at the first of the precisions at which both ends round alike. -/
def zivRound (f : FD) (mode : Rnd) (neg : Bool) (approx : Nat → Nat × Int) : List Nat → FV
  | [] => .fin neg 0 0
  | w :: rest =>
    let (v, e) := approx w
    let a := roundTo f mode neg (v - slack) e true
    let b := roundTo f mode neg (v + slack) e true
    if f.encode a = f.encode b ∨ rest = [] then roundTo f mode neg v e true else zivRound f mode neg approx rest

/-- The working precisions tried in turn. -/
def zivBits : List Nat := [160, 320, 640, 1280, 2560, 5120]

/-! ### 2^a -/

def fex2V (f : FD) (mode : Rnd) (a : FV) : FV :=
  firstNan f [a] (match a with
    | .inf n => if n then .fin false 0 0 else .inf false
    | .fin neg m e =>
      if m = 0 then .fin false 1 0
      else if e + m.log2 < -(f.fb : Int) - 8 then
        -- 2^a lies within 2^-(fb+7) of 1
        (if neg then roundTo f mode false (2 ^ (f.fb + 4) - 1) (-(f.fb : Int) - 4) true
         else roundTo f mode false (2 ^ (f.fb + 4)) (-(f.fb : Int) - 4) true)
      else if 16 < e + m.log2 then
        -- far beyond the format's range
        (if neg then roundTo f mode false (2 ^ (f.fb + 4)) (-100000) true
         else roundTo f mode false (2 ^ (f.fb + 4)) 100000 true)
      else if 0 ≤ e then
        let n : Int := (m : Int) * 2 ^ e.toNat
        roundTo f mode false 1 (if neg then -n else n)
      else
        let d : Nat := 2 ^ (-e).toNat
        let x : Int := if neg then -(m : Int) else m
        let n := x / d
        let r := (x % d).toNat
        if r = 0 then roundTo f mode false 1 n
        else zivRound f mode false (fun w => (exp2Fix w (r * 2 ^ w / d), n - w)) zivBits
    | x => x)

/-! ### log2 -/

/-- log2 of num / 2^d (positive): the integer part and the logarithm of what lies in [3/4, 3/2), rounded once. -/
def log2Round (f : FD) (mode : Rnd) (num : Nat) (d : Int) : FV :=
  let l := num.log2
  if num = 2 ^ l then
    let n : Int := (l : Int) - d
    roundTo f mode (decide (n < 0)) n.natAbs 0
  else
    -- num / 2^l in [1, 2), taken to [3/4, 3/2)
    let up := decide (3 * 2 ^ l ≤ 2 * num)
    let den : Nat := if up then 2 ^ (l + 1) else 2 ^ l
    let n : Int := (l : Int) - d + (if up then 1 else 0)
    let t : Int := (num : Int) - den
    let s := (num + den).log2 - t.natAbs.log2
    let value (w : Nat) : Int × Nat :=
      let w1 := w + s
      let z := t.natAbs * 2 ^ w1 / (num + den)
      let at2 := 2 * atanhFix w1 z (w1 / 4 + 4)
      let lg : Int := (at2 * 2 ^ w / ln2Fix w : Nat)
      (n * 2 ^ w1 + (if t < 0 then -lg else lg), w1)
    zivRound f mode (decide ((value 160).1 < 0)) (fun w => let (v, w1) := value w; (v.natAbs, -(w1 : Int))) zivBits

def flg2V (f : FD) (mode : Rnd) (a : FV) : FV :=
  firstNan f [a] (match a with
    | .inf n => if n then f.genNan 5 else .inf false
    | .fin n m e =>
      if m = 0 then .inf true
      else if n then f.genNan 5
      else log2Round f mode m (-e)
    | x => x)

def flg2pV (f : FD) (mode : Rnd) (a : FV) : FV :=
  firstNan f [a] (match a with
    | .inf n => if n then f.genNan 5 else .inf false
    | .fin n m e =>
      if m = 0 then .fin n 0 0
      else if 0 ≤ e then
        (if n then (if m * 2 ^ e.toNat = 1 then .inf true else f.genNan 5)
         else log2Round f mode (m * 2 ^ e.toNat + 1) 0)
      else
        let d : Nat := 2 ^ (-e).toNat
        if n then
          (if m = d then .inf true else if d < m then f.genNan 5 else log2Round f mode (d - m) (-e))
        else log2Round f mode (d + m) (-e)
    | x => x)

/-! ### sin and cos of pi a -/

/-- sin(pi num / den) for 0 < num / den <= 1/4. -/
def sinpiRound (f : FD) (mode : Rnd) (neg : Bool) (num den : Nat) : FV :=
  let s := den.log2 - num.log2
  zivRound f mode neg (fun w =>
    let w1 := w + s
    let y := (num * 2 ^ w1 / den) * piFix w / 2 ^ w
    (sinFix w1 y, -(w1 : Int))) zivBits

/-- cos(pi num / den) for 0 < num / den < 1/4. -/
def cospiRound (f : FD) (mode : Rnd) (neg : Bool) (num den : Nat) : FV :=
  if num * 2 ^ (f.fb / 2 + 8) < den then
    roundTo f mode neg (2 ^ (f.fb + 4) - 1) (-(f.fb : Int) - 4) true
  else
    zivRound f mode neg (fun w => (cosFix w ((num * 2 ^ w / den) * piFix w / 2 ^ w), -(w : Int))) zivBits

/-- sin(pi h / d) for 0 < h / d < 1. -/
def sinpiUnit (f : FD) (mode : Rnd) (neg : Bool) (h d : Nat) : FV :=
  let h := if d < 2 * h then d - h else h
  if 2 * h = d then .fin neg 1 0
  else if 4 * h ≤ d then sinpiRound f mode neg h d
  else cospiRound f mode neg (d - 2 * h) (2 * d)

def fsinpiV (f : FD) (mode : Rnd) (a : FV) : FV :=
  firstNan f [a] (match a with
    | .inf _ => f.genNan 5
    | .fin n m e =>
      if m = 0 ∨ 0 ≤ e then .fin n 0 0
      else
        let d : Nat := 2 ^ (-e).toNat
        let q := m % (2 * d)
        if q % d = 0 then .fin n 0 0
        else sinpiUnit f mode (n != decide (d < q)) (q % d) d
    | x => x)

def fcospiV (f : FD) (mode : Rnd) (a : FV) : FV :=
  firstNan f [a] (match a with
    | .inf _ => f.genNan 5
    | .fin _ m e =>
      if m = 0 ∨ 1 ≤ e then .fin false 1 0
      else if e = 0 then .fin (m % 2 == 1) 1 0
      else
        let d : Nat := 2 ^ (-e).toNat
        let q0 := m % (2 * d)
        let q1 := if d < q0 then 2 * d - q0 else q0
        if 2 * q1 = d then .fin false 0 0
        else
          let neg := decide (d < 2 * q1)
          let q := if neg then d - q1 else q1
          if q = 0 then .fin neg 1 0
          else if 4 * q < d then cospiRound f mode neg q d
          else if 4 * q = d then sinpiRound f mode neg q d
          else sinpiRound f mode neg (d - 2 * q) (2 * d)
    | x => x)

end Sys2Proof.Machine
end

