-- ==== Sys2Proof/Machine/DrawMath.lean ====
section
/-! DEFINITION. Draw arithmetic: pairs (R47), leaves (R48, R215), the merge (R49), coins (R50, R51) and the fixed trees
(R217). -/

namespace Sys2Proof.Machine

def idxNone : Nat := 0xFFFFFFFF

def pairOf (ix mass : Nat) : Word := BitVec.ofNat 64 (ix % 2 ^ 32 * 2 ^ 32 + mass % 2 ^ 32)
def pairIx (p : Word) : Nat := field p.toNat 63 32
def pairMass (p : Word) : Nat := field p.toNat 31 0

/-- The zero-mass pair of a mode (R47). -/
def zeroMass (lg : Bool) : Word := if lg then 0xFFFFFFFFFF800000 else 0xFFFFFFFF00000000
def invalidPair : Word := 0xFFFFFFFF7FC00006

/-- A pair is an invalid side of a merge: its mass is NaN, or its index is not NONE and its linear mass is below zero. -/
def pairInvalid (lg : Bool) (p : Word) : Bool :=
  match fd32.decode (pairMass p) with
  | .nan .. => true
  | .inf n => n && !lg && pairIx p != idxNone
  | .fin n m _ => n && m != 0 && !lg && pairIx p != idxNone

/-- A leaf from a mass already formed (NaN where it is invalid): the pair, and whether NaN test mode replaced it. -/
def leafResult (lg nanTest : Bool) (invalid zero : Bool) (p : Word) : Word × Nat :=
  if invalid then (if nanTest then (zeroMass lg, 1) else (invalidPair, 0))
  else if zero then (zeroMass lg, 0)
  else (p, 0)

/-- DRAWL: weight bits and index (R48, R215). -/
def linLeaf (nanTest : Bool) (w ix : Nat) : Word × Nat :=
  let v := fd32.decode w
  let none := ix == idxNone
  leafResult false nanTest (v.isNan || (!none && v.neg && !v.isZero)) (none || v.isZero) (pairOf ix w)

/-- DRAWG: logit, inverse temperature and index (R48, R215). -/
def logLeaf (nanTest : Bool) (x beta : FV) (ix : Nat) : Word × Nat :=
  let l := fmulV fd32 .rne x beta
  let none := ix == idxNone
  let bad :=
    if none then l.isNan
    else x.isNan || beta.isNan || beta.isInf || (x == .inf false && beta.isZero)
  -- a logit of -infinity is zero mass for every finite beta, and so is any L of -infinity
  let zero := none || x == .inf true || l == .inf true
  leafResult true nanTest bad zero (pairOf ix (fd32.encode l))

/-- u * (a + b) < a * 2^24 for non-negative finite masses, exactly. -/
def coinPicks (u : Nat) (ma : Nat) (ea : Int) (mb : Nat) (eb : Int) : Bool :=
  let k := min ea eb
  let a := ma * 2 ^ (ea - k).toNat
  let b := mb * 2 ^ (eb - k).toNat
  decide (u * (a + b) < a * 2 ^ 24)

def pick (p : Word) (m : FV) : Word := pairOf (pairIx p) (fd32.encode m)

/-- The merge of two valid sides in linear mode. -/
def mergeLin (l r : Word) (u : Nat) : Word :=
  let mass (p : Word) : FV := if pairIx p = idxNone then .fin false 0 0 else fd32.decode (pairMass p)
  match mass l, mass r with
  | .inf _, .inf _ => pick (if u < 2 ^ 23 then l else r) (.inf false)
  | .inf _, _ => pick l (.inf false)
  | _, .inf _ => pick r (.inf false)
  | .fin _ ma ea, .fin _ mb eb =>
    if ma = 0 ∧ mb = 0 then zeroMass false
    else pick (if coinPicks u ma ea mb eb then l else r) (faddV fd32 .rne (.fin false ma ea) (.fin false mb eb))
  | _, _ => invalidPair

/-- The merge of two valid sides in log mode. -/
def mergeLog (l r : Word) (u : Nat) : Word :=
  let mass (p : Word) : FV := if pairIx p = idxNone then .inf true else fd32.decode (pairMass p)
  let ll := mass l
  let lr := mass r
  if ll == .inf true && lr == .inf true then zeroMass true
  else if ll == .inf false && lr == .inf false then pick (if u < 2 ^ 23 then l else r) (.inf false)
  else
    let left := match ll.cmp lr with
      | some .lt => false
      | _ => true
    let hi := if left then l else r
    let lo := if left then r else l
    let mh := if left then ll else lr
    let ml := if left then lr else ll
    if mh == .inf false || ml == .inf true then pick hi mh
    else
      let d := fsubV fd32 .rne ml mh
      let r1 := fd32.decode (fd32.encode (fex2V fd32 .rne d))
      let takesHi := match r1 with
        | .fin _ m e => coinPicks u 1 0 m e
        | _ => true
      pick (if takesHi then hi else lo) (faddV fd32 .rne mh (fd32.decode (fd32.encode (flg2pV fd32 .rne r1))))

/-- Merge of R49, and how many sides NaN test mode replaced. -/
def mergeV (lg nanTest : Bool) (u : Nat) (l r : Word) : Word × Nat :=
  let bl := pairInvalid lg l
  let br := pairInvalid lg r
  if (bl || br) && !nanTest then (invalidPair, 0)
  else
    let l1 := if bl then zeroMass lg else l
    let r1 := if br then zeroMass lg else r
    (if lg then mergeLog l1 r1 u else mergeLin l1 r1 u, (if bl then 1 else 0) + (if br then 1 else 0))

/-- Where coins come from: the key and generation, or the table. -/
structure CoinSrc where
  key : Word
  gen : BitVec 32
  table : Option (List (BitVec 24))
  deriving DecidableEq, Repr

/-- The generator of R50 and R221 on a counter. -/
def coinGen (key : Word) (gen : BitVec 32) (ctr : BitVec 32) : Word :=
  let z := (key ^^^ (gen ++ ctr)) * 0xC7A15E39B26D0F4B
  let z := (z ^^^ (z >>> 29)) * 0x8E3D59A714C6F2B9
  z ^^^ (z >>> 32)

/-- DRND of R221: the whole 64-bit value for a counter. -/
def CoinSrc.draw (c : CoinSrc) (ctr : BitVec 32) : Word :=
  match c.table with
  | some t => ((t[(ctr.toNat % 64)]?.getD 0).setWidth 64) <<< 40
  | none => coinGen c.key c.gen ctr

/-- Coin(site, node) of R50 and R51. -/
def CoinSrc.coin (c : CoinSrc) (site node : Nat) : Nat :=
  field (c.draw (BitVec.ofNat 32 (site % 4096 * 2 ^ 20 + node % 2 ^ 20))).toNat 63 40

/-- One level of a tree: nodes from `h` on merge neighbours; an absent side passes the other through. -/
def drawLevel (lg nanTest : Bool) (coin : Nat → Nat) : Nat → List (Option Word) → List (Option Word × Nat)
  | h, x :: y :: r =>
    (match x, y with
      | some a, some b => let (v, n) := mergeV lg nanTest (coin h) a b; (some v, n)
      | some a, none => (some a, 0)
      | none, b => (b, 0)) :: drawLevel lg nanTest coin (h + 1) r
  | _, _ => []

/-- The heap of R217 over 2^d leaves: the root and the replacements counted. -/
def drawTree (lg nanTest : Bool) (coin : Nat → Nat) : Nat → List (Option Word) → Option Word × Nat
  | 0, l => (l.headD none, 0)
  | d + 1, l =>
    let lv := drawLevel lg nanTest coin (2 ^ d) l
    let (root, n) := drawTree lg nanTest coin d (lv.map (·.1))
    (root, n + (lv.map (·.2)).sum)

end Sys2Proof.Machine
end

