-- ==== Sys2Proof/Machine/Exchange.lean ====
section
/-! DEFINITION. Data across ranks: what each rank of an exchange receives (R203 to R206). -/

namespace Sys2Proof.Machine

/-- What one present rank brings: its rank, A, B, and the sub field through which A was resolved (R203). -/
structure Part1 where
  rank : Nat
  a : RV
  b : RV
  sub : Option Nat
  deriving DecidableEq, Repr

def findRank (l : List Part1) (r : Nat) : Option Part1 := l.find? fun p => p.rank == r

/-- Element `k` of width `w` of A, as integer elements. -/
def Part1.x (p : Part1) (w k : Nat) : Nat := elem (p.a.ints w) w k

/-- SHFL: element k of B names a rank and an element. -/
def shflV (l : List Part1) (me : Part1) (w : Nat) : Word :=
  let n := 64 / w
  mkElems w fun k =>
    let f := elem (me.b.ints w) w k % (32 * n)
    match findRank l (f / n) with
    | some p => p.x w (f % n)
    | none => me.x w k

/-- SHFLX, SHFLDN and SHFLUP: one source rank for every element; none where the rank lies outside 0 to 31. -/
def shflFrom (l : List Part1) (me : Part1) (w : Nat) (r : Option Nat) : Word :=
  match r.bind (findRank l) with
  | some p => p.a.ints w
  | none => me.a.ints w

def shflxV (l : List Part1) (me : Part1) (w : Nat) : Word :=
  shflFrom l me w (some (me.rank ^^^ (me.b.w64.toNat % 32)))
def shfldnV (l : List Part1) (me : Part1) (w : Nat) : Word := shflFrom l me w (some (me.rank + me.b.w64.toNat))
def shflupV (l : List Part1) (me : Part1) (w : Nat) : Word :=
  shflFrom l me w (if me.b.w64.toNat ≤ me.rank then some (me.rank - me.b.w64.toNat) else none)

/-- BCAST: one element of one rank; an indirect A of that rank gives the element through its index register's sub field. -/
def bcastV (l : List Part1) (me : Part1) (w : Nat) : Word :=
  let n := 64 / w
  let b := me.b.w64.toNat
  match findRank l (field b 4 0) with
  | some p => let s := (p.sub.getD (field b 7 5)) % n; mkElems w fun _ => p.x w s
  | none => me.a.ints w

/-- The element width of a reduction code (R92). -/
def redWidth : RedOp → Nat
  | .add32 | .smin32 | .smax32 | .fadd32 | .fmin32 | .fmax32 => 32
  | _ => 64

/-- A as the elements of a reduction code: converted exactly where the code is a floating-point one (R60). -/
def redArg (op : RedOp) (a : RV) : Word :=
  match op with
  | .fadd64 => a.floats fd64
  | .fadd32 | .fmin32 | .fmax32 => a.floats fd32
  | _ => a.ints (redWidth op)

/-- One element of a combine (R204). -/
def redElem (op : RedOp) (x y : Nat) : Nat :=
  let w := redWidth op
  let sx := toInt w true x
  let sy := toInt w true y
  match op with
  | .add64 | .add32 => x + y
  | .smin64 | .smin32 => if sy < sx then y else x
  | .smax64 | .smax32 => if sx < sy then y else x
  | .umin64 => min x y
  | .umax64 => max x y
  | .fadd64 => fd64.encode (faddV fd64 .rne (fd64.decode x) (fd64.decode y))
  | .fadd32 => fd32.encode (faddV fd32 .rne (fd32.decode x) (fd32.decode y))
  | .fmin32 => fd32.encode (fminV fd32 (fd32.decode x) (fd32.decode y))
  | .fmax32 => fd32.encode (fmaxV fd32 (fd32.decode x) (fd32.decode y))
  | .and => x &&& y
  | .or => x ||| y
  | .xor => x ^^^ y

def redCombine (op : RedOp) (x y : Word) : Word :=
  mkElems (redWidth op) fun k => redElem op (elem x (redWidth op) k) (elem y (redWidth op) k)

/-- One level of the tree over ranks: an absent side passes the other through. -/
def redLevel (op : RedOp) : List (Option Word) → List (Option Word)
  | x :: y :: r =>
    (match x, y with
      | some a, some b => some (redCombine op a b)
      | some a, none => some a
      | none, b => b) :: redLevel op r
  | l => l

/-- GRED: the tree of five levels over ranks 0 to 31. -/
def gredV (op : RedOp) (l : List Part1) : Word :=
  let leaves := (List.range 32).map fun r => (findRank l r).map fun p => redArg op p.a
  let top := redLevel op (redLevel op (redLevel op (redLevel op (redLevel op leaves))))
  ((top.headD none).getD 0)

/-- GSCAN: left to right over the present ranks at or below `q`. -/
def gscanV (op : RedOp) (l : List Part1) (q : Nat) : Word :=
  let xs := ((List.range 32).filterMap fun r => if r ≤ q then (findRank l r).map fun p => redArg op p.a else none)
  match xs with
  | [] => 0
  | x :: r => r.foldl (redCombine op) x

/-- The present ranks in ascending order. -/
def ranksUp (l : List Part1) : List Part1 := (List.range 32).filterMap fun r => findRank l r

def selected (p : Part1) (n : Nat) : List Nat := (List.range n).filter fun k => p.b.w64.getLsbD k

/-- COMPRESS: the selected elements of all ranks, packed. -/
def compressV (l : List Part1) (me : Part1) (w : Nat) : Word :=
  let n := 64 / w
  let stream := (ranksUp l).flatMap fun p => (selected p n).map fun k => p.x w k
  let j := ((ranksUp l).takeWhile fun p => p.rank != me.rank).length
  mkElems w fun k => stream[j * n + k]?.getD 0

/-- EXPAND: the stream handed out to the selected elements. -/
def expandV (l : List Part1) (me : Part1) (w : Nat) : Word :=
  let n := 64 / w
  let stream := (ranksUp l).flatMap fun p => (List.range n).map fun k => p.x w k
  let b := (((ranksUp l).takeWhile fun p => p.rank != me.rank).map fun p => (selected p n).length).sum
  mkElems w fun k =>
    if me.b.w64.getLsbD k then stream[b + ((selected me n).takeWhile fun i => i != k).length]?.getD 0 else 0

/-- MATCH: the ranks whose low element equals one's own. -/
def matchV (l : List Part1) (me : Part1) (w : Nat) : Word :=
  BitVec.ofNat 64 ((l.filter fun p => p.x w 0 == me.x w 0).foldl (fun m p => m ||| 2 ^ p.rank) 0)

/-- What a present member receives from an exchange. -/
def exchangeV (i : Instr) (l : List Part1) (me : Part1) : Word :=
  match i with
  | .shfl _ m _ _ => shflV l me (wbits m.w)
  | .shflx _ m _ _ => shflxV l me (wbits m.w)
  | .shfldn _ m _ _ => shfldnV l me (wbits m.w)
  | .shflup _ m _ _ => shflupV l me (wbits m.w)
  | .bcast _ m _ _ => bcastV l me (wbits m.w)
  | .gred _ op _ _ => gredV op l
  | .gscan _ op _ _ => gscanV op l me.rank
  | .compress _ m _ _ => compressV l me (wbits m.w)
  | .expand _ m _ _ => expandV l me (wbits m.w)
  | .matchRank _ m _ _ => matchV l me (wbits m.w)
  | _ => 0

end Sys2Proof.Machine
end

