-- ==== Sys2Proof/Machine/Pair.lean ====
section
/-! DEFINITION. Tandem pairs (R403 to R408): the values that pass to the trailing copy, entry images and signatures, the
start of a restart, and what a mismatch and a fault of a pair do. -/

namespace Sys2Proof.Machine

/-- The pair a thread belongs to, with the leading copy's key. -/
def State.leadOf (s : State) (tk : Nat) : Nat :=
  match (s.thr tk).pair with
  | some p => if p.trail then p.partner else tk
  | none => tk

def State.modPair (s : State) (tk : Nat) (f : PairS → PairS) : State :=
  s.modThr tk fun t => { t with pair := t.pair.map f }

/-- The leading copy passes a value on (R404). -/
def State.pass (s : State) (tk : Nat) (v : PairVal) : State :=
  if (s.thr tk).leads then s.modPair tk fun p => { p with inq := p.inq ++ [v] } else s

/-- A wait whose result comes from outside the thread, so that it passes to the trailing copy (R404); a local-store access acts per
copy. -/
def PK.outside : PK → Bool
  | .acc a => a.space != .store
  | .waita a _ _ => a.space != .store
  | .tldb a _ => a.space != .store
  | .qpop .. | .rdfe _ | .lwait _ | .launch _ | .twait .. | .cwait _ => true
  | _ => false

/-- The leading copy's word number `pos` takes a place in the queue as it issues, for a value that is to come. -/
def State.passPlace (s : State) (tk pos : Nat) : State := s.pass tk { pos := pos, src := false, ready := false }

/-- The value of such a place has come; that of an abandoned attempt has no place any longer (R382). -/
def State.passLate (s : State) (tk : Nat) (v : PairVal) : State :=
  s.modPair tk fun p => { p with inq := p.inq.map fun x => if !x.ready && x.pos == v.pos then { v with ready := true } else x }

/-- The results that the leading copy passed for word `pos` of the trailing copy. -/
def State.passed (s : State) (tk pos : Nat) : Option PairVal :=
  match (s.thr (s.leadOf tk)).pair with
  | some p => p.avail.find? fun v => !v.src && v.pos == pos
  | none => none

/-- Takes the entries of word `pos` out of the queue. -/
def State.takePassed (s : State) (tk pos : Nat) (src : Bool) : State :=
  s.modPair (s.leadOf tk) fun p => { p with inq := p.inq.filter fun v => !(v.src == src && v.pos == pos) }

/-- A copy's present region has matched. -/
def PairS.matchedAll (p : PairS) : Bool := p.ended ≤ p.matched

/-! ### Signatures (R405) -/

/-- The 32 bytes of an entry image. -/
def SigE.bytes (e : SigE) : List Byte :=
  leBytes 8 e.addr.toNat ++ leBytes 8 e.lo.toNat ++ leBytes 8 e.hi.toNat ++ leBytes 1 e.size ++ leBytes 1 e.kind
    ++ leBytes 2 e.region.toNat ++ leBytes 1 e.space ++ leBytes 3 0

/-- A copy's signature over its images of one region. -/
def regionSig (l : List SigE) (region : BitVec 16) : BitVec 64 :=
  crc64 ((l.filter fun e => e.region == region).flatMap SigE.bytes)

/-! ### Restarts, mismatches and faults (R382, R406, R407) -/

/-- What a copy keeps of its pair when it restarts the region of a sketch: nothing of the abandoned attempt, but for the writes of its
commands, which a re-execution skips (R313, R382). -/
def PairS.reopen (p : PairS) (k : Sketch) : PairS :=
  { p with inq := p.inq.filter fun v => decide (v.pos < k.nw), shw := p.shw.filter fun e => e.1 != k.region,
           sig := p.sig.filter fun e => e.region != k.region || e.kind == 4, closed := false }

/-- A restart of the region of a sketch begins: the thread leaves its gang and waits for the values in flight. -/
def State.beginRestart (s : State) (tk : Nat) (k : Sketch) : State :=
  (s.dropMember tk).modThr tk fun t =>
    { t.endRun.withdraw k.nw with ends := [], jump := none, hold := false, opDone := none, arr := none, reload := none, mid := false,
                                  cut := false, park := false, seen := none, fresh := false,
                                  late := t.late.filter fun l => !l.load || decide (l.nw < k.nw),
                                  rst := some k, pair := t.pair.map fun p => p.reopen k }

/-- Both copies go back to the trailing copy's sketch (R407). -/
def State.pairBack (s : State) (l t : Nat) : State :=
  let k := (s.thr t).sketch
  let back (s : State) (tk : Nat) : State :=
    (s.beginRestart tk k).modThr tk fun x =>
      let old := match x.pair with | some p => p.hist.flatMap (·.2) | none => []
      { x with sketch := k, st := if x.st = .stopped then .live else x.st, stopCode := none, blk := [], cmds := old ++ x.cmds,
               pair := x.pair.map fun p => { p with hist := [], sig := [], shw := [], more := none, closed := false, opened := true,
                                                    ended := p.matched, fault := none, mism := p.mism + 1 } }
  back (back s l) t

/-- A physical core of the die that no logical core maps, not failed, fenced or under test: the lowest such. -/
def State.freeSpare (s : State) (dk : Nat) : Option Nat :=
  let d := s.die dk
  (List.range 100).find? fun f =>
    !(d.failed.contains f) && !(d.testing.contains f) && (List.range 96).all fun c => Tab.getOr d.lmap c c != f

/-- A logical core moves to another physical core of its die; the fences of lanes stay with the physical cores (R116, R402). -/
def State.moveCore (s : State) (dk core phys : Nat) : State :=
  let ck := dk * 128 + core
  let old := s.phys ck
  let c := s.core ck
  let d := s.die dk
  let keep (t : Tab Nat) (h : Nat) (p : Pipe) : Tab Nat :=
    match p.fenced with
    | some l => Tab.put t (old * 2 + h) l
    | none => Tab.cut t (old * 2 + h)
  let fa := keep (keep d.fencedAt 0 c.p0) 1 c.p1
  (s.setDie dk { d with lmap := Tab.put d.lmap core phys, fencedAt := fa }).setCore ck
    { c with p0 := { c.p0 with fenced := Tab.look fa (phys * 2) }, p1 := { c.p1 with fenced := Tab.look fa (phys * 2 + 1) } }

/-- A mismatch in the present region of a pair (R407): a record and a restart, on a second mismatch from a spare core; on a third both
copies stop with fault 0x13 at the region's head, once the restart has acted. `sl` and `st` are the two signatures. -/
def State.pairMismatch (s : State) (l t : Nat) (sl st : BitVec 64) : State :=
  let n := match (s.thr t).pair with | some p => p.mism | none => 0
  let region := (s.thr t).sketch.region
  let ckl := ckOf l
  let dk := dkOf ckl
  let p := pkgOfDie dk
  let unit (s : State) (ck : Nat) : Nat := unitId 0 p (dieIx dk) (s.phys ck) 0
  let u1 := unit s ckl
  let u2 := unit s (ckOf t)
  let detail := [region.toNat, sl.toNat, st.toNat]
  let s := s.errRecord p 1 0x0E u1 u2 0 detail
  if n = 0 then s.pairBack l t
  else if n = 1 then
    let s := match s.freeSpare dk with
      | some f => (s.moveCore dk (coreOf ckl) f).errRecord p 4 0x0F u1
          (unitId 0 p (dieIx dk) f 0) 0 detail
      | none => s
    s.pairBack l t
  else
    let stop (s : State) (tk : Nat) : State := s.modThr tk fun x => { x with doom := some 0x13 }
    stop (stop ((s.errRecord p 6 0x10 u1 u2 0 detail).pairBack l t) l) t

/-- Both copies of a pair stop, or are diverted, for a fault that both have raised at one word; the leading copy's is recorded
(R406). -/
def State.pairFault (s : State) (tk : Nat) (f : FI) (pc hpc hdr word : Word) : State :=
  match (s.thr tk).pair with
  | none => s.takeFault tk f pc hpc hdr word
  | some p =>
    match (s.thr p.partner).pair.bind fun q => q.fault with
    | some (c, a) =>
      let l := s.leadOf tk
      let o := match (s.thr l).pair with | some q => q.partner | none => l
      if c = f.code ∧ a = pc then
        let clear (s : State) (k : Nat) : State := s.modPair k fun q => { q with fault := none }
        let s := (clear (clear s l) o).takeFault l f pc hpc hdr word
        let t := s.thr l
        (s.dropMember o).modThr o fun u =>
          { u.bank with st := t.st, stopCode := t.stopCode, pc := t.pc, hpc := t.hpc, hdr := t.hdr, fresh := t.fresh,
                        redo := t.redo, head := t.head, mid := t.mid, hand := t.hand, xpc := t.xpc, xinfo := t.xinfo, xhpc := t.xhpc,
                        xhdr := t.xhdr, xmid := t.xmid, xhead := t.xhead, xgo := t.xgo, jump := none, hold := false, reload := none,
                        ends := if t.st = .stopped then u.ends else [], xends := if t.st = .stopped then u.xends else u.ends }
      else
        let sig (k : Nat) : BitVec 64 :=
          match (s.thr k).pair with | some q => regionSig q.sig (s.thr o).region | none => 0
        (s.dropMember tk).pairMismatch l o (sig l) (sig o)
    | none =>
      (s.dropMember tk).modThr tk fun t =>
        { t.endRun with pair := some { p with fault := some (f.code, pc) }, pc := pc, hpc := hpc, hdr := hdr,
                        mid := !f.header, hold := false }

/-- A copy of a pair waits with a fault, and the other copy has gone past the word without one (R406). -/
def State.faultsAlone (s : State) (tk : Nat) : Bool :=
  match (s.thr tk).pair with
  | some p => p.fault.isSome && decide ((s.thr tk).nw < (s.thr p.partner).nw) && (match (s.thr p.partner).pair with
      | some q => q.fault.isNone | none => false)
  | none => false

end Sys2Proof.Machine
end

