-- ==== Sys2Proof/Machine/Sync.lean ====
section
/-! DEFINITION. What the threads of a core share: groups with their masks, waits and exchanges (R189 to R206, R219), the
extended pool (R139), full/empty registers (R136), named barriers (R207 to R211) and the launch-wide barrier (R212). -/

namespace Sys2Proof.Machine

/-! ### Pending operations -/

def Thread.pendAt (t : Thread) (u : Nat) : Option Pend := t.pend.find? fun p => p.u == u
def Thread.setPend (t : Thread) (p : Pend) : Thread := { t with pend := t.pend.map fun q => if q.u = p.u then p else q }
def Thread.dropPend (t : Thread) (u : Nat) : Thread := { t with pend := t.pend.filter fun q => q.u != u }

/-- The value of a pending operation is known and travels to its register. -/
def State.deliver (s : State) (tk u : Nat) (v : Word) (p : Option Bool) : State :=
  s.modThr tk fun t =>
    match t.pendAt u with
    | some q => t.setPend { q with k := .value v p }
    | none => t

/-- A value from outside the thread is known and travels to its register, in a leading copy also to the trailing one. -/
def State.deliverOut (s : State) (tk u : Nat) (v : List Word) (p : Option Bool) : State :=
  match (s.thr tk).pendAt u with
  | some q => (s.deliver tk u (v.headD 0) p).passLate tk { pos := q.nw, src := false, v := v, p := p }
  | none => s

/-- An index register without the steps of one word: as it was before that word, where nothing has touched it since; else its
current register goes back by as much as the word moved it, unless a later word has written it whole (R473, log 9). -/
def ixBack (before after now : BitVec 30) (rewritten : Bool) : BitVec 30 :=
  if before = after ∨ rewritten then now
  else if now = after then before
  else ixSetCur now (((ixFields now).cur + 128 + (ixFields before).cur - (ixFields after).cur) % 128)

/-- What its word did to the thread's registers is undone: the steps of its index registers, and the discards of its last-use
flags, whose values are kept where nothing has written the register since (R374, R473). -/
def Thread.undo (t : Thread) (p : Pend) : Thread :=
  let mine := t.r.lost.filter fun e => e.1 == p.u
  let r := mine.foldl (fun (r : Regs) e => if r.win.any fun x => x.reg == e.2.1 then r else r.set e.2.1 e.2.2) t.r
  { t with r := { r with lost := r.lost.filter fun e => e.1 != p.u
                         ix := Vector.ofFn fun i : Fin 8 =>
                           ixBack (p.ix0.get i) (p.ix1.get i) (t.r.ix.get i) (decide (p.nw < Tab.getOr t.ixw i.val 0)) } }

/-- The values that an operation's word discarded need not be kept any longer. -/
def Thread.forgetLost (t : Thread) (u : Nat) : Thread := { t with r := { t.r with lost := t.r.lost.filter fun e => e.1 != u } }

/-- A pending operation ends and writes nothing. -/
def State.endPend (s : State) (tk u : Nat) : State :=
  s.modThr tk fun t =>
    match t.pendAt u with
    | some q => ((t.dropPend u).settle q.d q.pn q.also).forgetLost u
    | none => t

/-! ### Groups -/

def State.grpAt (s : State) (ck e : Nat) : Option Grp := Tab.look (s.core ck).grps e
def State.setGrp (s : State) (ck e : Nat) (g : Grp) : State := s.modCore ck fun c => { c with grps := Tab.put c.grps e g }

/-- Occupied ranks as a mask. -/
def Grp.occ (g : Grp) : BitVec 32 := g.ranks.foldl (fun m r => m ||| BitVec.twoPow 32 r.1) 0

def Grp.stamp (g : Grp) (k : Nat) : Stamp := if h : k < 12 then g.masks.get ⟨k, h⟩ else {}
def Grp.setStamp (g : Grp) (k : Nat) (v : Stamp) : Grp := if h : k < 12 then { g with masks := g.masks.set k v h } else g
def Grp.arr (g : Grp) (k : Nat) : BitVec 32 := if h : k < 12 then g.arrived.get ⟨k, h⟩ else 0
def Grp.setArr (g : Grp) (k : Nat) (v : BitVec 32) : Grp := if h : k < 12 then { g with arrived := g.arrived.set k v h } else g

/-- The ranks that take part: mk AND the occupied ranks (R193). -/
def Grp.part (g : Grp) (k now : Nat) : BitVec 32 := ((g.stamp k).read now).setWidth 32 &&& g.occ

/-- The thread at each rank. -/
def State.grpThreads (s : State) (ck : Nat) (g : Grp) : List (Nat × Nat) :=
  g.ranks.map fun r => (r.1, s.ctxThread g.ctx (thrKey ck r.2))

/-- DRAWKEY on the thread's die and, in coin-table mode, COINTAB (R220, R222). -/
def State.coinNow (s : State) (tk : Nat) : Word × Option (List (BitVec 24)) :=
  let t := s.thr tk
  let x := s.ctxOf tk
  (Tab.getOr (s.die (dkOf (ckOf tk))).key t.ctx 0,
    if x.attr.getLsbD 7 then some ((List.range 64).map fun k => Tab.getOr x.coins k 0) else none)

/-- Coins from a key or table, with the generation of the thread's launch. -/
def State.coinWith (s : State) (tk : Nat) (c : Word × Option (List (BitVec 24))) : CoinSrc :=
  { key := c.1, gen := match s.launch? (s.thr tk).launch with | some l => l.gen | none => 0, table := c.2 }

/-- Where the coins of a thread's context and launch come from (R50, R51): for the word of a trailing copy, what the leading copy's
word read (R223). -/
def State.coinSrc (s : State) (tk : Nat) : CoinSrc :=
  s.coinWith tk (((s.pairSrc tk).bind fun v => v.coin).getD (s.coinNow tk))

/-- NaN test mode (R38). -/
def State.nanTest (s : State) (tk : Nat) : Bool := (s.ctxOf tk).attr.getLsbD 6

/-- Adds to NANCNT, saturating (R38). -/
def State.addNan (s : State) (tk n : Nat) : State :=
  s.modThr tk fun t => { t with nancnt := BitVec.ofNat 32 (min (2 ^ 32 - 1) (t.nancnt.toNat + n)) }

/-- A member that had arrived stops with fault 0x17, standing before the word with none of its effects (R194). -/
def State.exchangeFault (s : State) (tk : Nat) (a : Arr) : State :=
  let back (t : Thread) : Thread := match t.pendAt a.u with | some p => t.undo p | none => t
  let s := ((s.modThr tk back).endPend tk a.u).modThr tk fun t => { t with arr := none, hold := false }
  let t := s.thr tk
  s.pairFault tk { code := 0x17 } a.addr t.hpc t.hdr a.word

/-- Ends an arrival without a result. -/
def State.exchangeQuit (s : State) (tk : Nat) : State := s.modThr tk fun t => { t with arr := none, hold := false }

/-- What the trailing copy at the lowest present rank still waits for: the coins of its leading copy's GDRAW (R223). -/
def State.gdrawWaits (s : State) (l : List (Nat × Nat × Arr)) : Bool :=
  match (l.filter fun x => x.2.2.present).head? with
  | some (_, tk, a) =>
    match a.ins, (s.thr tk).pendAt a.u with
    | .gdraw .., some q => (s.thr tk).trails && (s.passed tk q.nw).isNone
    | _, _ => false
  | none => false

/-- GDRAW over the present ranks (R219): every leaf, its replacement counted for the rank that brought it, and the root. The coins
are those of the thread at the lowest present rank (log 66); a trailing copy uses its leading copy's. -/
def State.gdrawPerform (s : State) (lg : Bool) (l : List (Nat × Nat × Arr)) : State × Word :=
  match l with
  | [] => (s, 0)
  | (_, tk0, a0) :: _ =>
    let nt := s.nanTest tk0
    let pos := (((s.thr tk0).pendAt a0.u).map (·.nw)).getD 0
    let src := s.coinWith tk0 (((s.passed tk0 pos).bind fun v => v.coin).getD (s.coinNow tk0))
    let s := if (s.thr tk0).trails then s.takePassed tk0 pos false
      else s.pass tk0 { pos := pos, src := false, coin := some (s.coinNow tk0) }
    let site := field a0.b.w64.toNat 11 0
    let bad (a : Arr) : Bool := nt && pairInvalid lg a.a.w64
    let leaf (r : Nat) : Option Word :=
      (l.find? fun x => x.1 == r).map fun x => if bad x.2.2 then zeroMass lg else x.2.2.a.w64
    let s := l.foldl (fun s x => if bad x.2.2 then s.addNan x.2.1 1 else s) s
    let (root, _) := drawTree lg nt (src.coin site) 5 ((List.range 32).map leaf)
    (s, root.getD 0)

/-- The exchange performs once for all arrived members of E (R194). -/
def State.exchangePerform (s : State) (l : List (Nat × Nat × Arr)) : State :=
  let pres := l.filter fun x => x.2.2.present
  let parts : List Part1 := pres.map fun x => ⟨x.1, x.2.2.a, x.2.2.b, x.2.2.sub⟩
  let s := l.foldl (fun s x => s.exchangeQuit x.2.1) s
  let ins : Option Instr := pres.head?.map fun x => x.2.2.ins
  match ins with
  | none => s
  | some (.gdraw _ lg _ _) =>
    let (s, root) := s.gdrawPerform lg pres
    pres.foldl (fun s x => s.deliver x.2.1 x.2.2.u root none) s
  | some _ =>
    pres.foldl (fun s x =>
      s.deliver x.2.1 x.2.2.u (exchangeV x.2.2.ins parts ⟨x.1, x.2.2.a, x.2.2.b, x.2.2.sub⟩) none) s

/-- Looks whether the exchange on mask `k` of a group can perform, or which arrivals fail (R194). Addresses are compared once every rank
has arrived (log 38). -/
def State.exchangeCheck (s : State) (ck e k : Nat) : State :=
  match s.grpAt ck e with
  | none => s
  | some g =>
    let part := g.part k s.clock
    let arrs : List (Nat × Nat × Arr) := (s.grpThreads ck g).filterMap fun x =>
      match (s.thr x.2).arr with
      | some a => if a.mreg = k then some (x.1, x.2, a) else none
      | none => none
    let out := arrs.filter fun x => !part.getLsbD x.1
    let inn := arrs.filter fun x => part.getLsbD x.1
    let s := out.foldl (fun s x => s.exchangeFault x.2.1 x.2.2) s
    match inn with
    | [] => s
    | (_, _, a0) :: _ =>
      if (List.range 32).all fun r => !part.getLsbD r || inn.any fun x => x.1 == r then
        if s.gdrawWaits inn then s
        else if inn.all fun x => x.2.2.addr == a0.addr then s.exchangePerform inn
        else inn.foldl (fun s x => s.exchangeFault x.2.1 x.2.2) s
      else s

/-- GWAIT: once the arrival set of mask `k` covers the participants, its threads are released together (R200). -/
def State.gwaitCheck (s : State) (ck e k : Nat) : State :=
  match s.grpAt ck e with
  | none => s
  | some g =>
    let arr := g.arr k
    if arr ≠ 0 ∧ g.part k s.clock &&& ~~~arr = 0 then
      let s := s.setGrp ck e (g.setArr k 0)
      ((s.grpThreads ck g).filter fun x => arr.getLsbD x.1).foldl (fun s x =>
        s.modThr x.2 fun t => { t with blk := t.blk.filter (· != .group k), ends := t.ends.filter (· != .group k),
                                         xends := t.xends.filter (· != .group k) }) s
    else s

/-- Looks at every wait and exchange of one group. -/
def State.groupCheck (s : State) (ck e : Nat) : State :=
  (List.range 12).foldl (fun s k => (s.exchangeCheck ck e k).gwaitCheck ck e k) s

/-- Leaving a group (R199): the rank becomes vacant, its bit leaves every mask and arrival set, which ends a wait in the group, and
an empty entry is free. -/
def State.leaveGroup (s : State) (tk : Nat) : State :=
  match (s.thr tk).grp with
  | none => s
  | some (e, _, r) =>
    let ck := ckOf tk
    let s := s.modThr tk fun t =>
      { t with grp := none, arr := none, blk := t.blk.filter (fun x => match x with | .group _ => false | _ => true),
               ends := t.ends.filter (fun x => match x with | .group _ => false | _ => true),
               xends := t.xends.filter fun x => match x with | .group _ => false | _ => true }
    match s.grpAt ck e with
    | none => s
    | some g =>
      let ranks := Tab.cut g.ranks r
      if ranks.isEmpty then s.modCore ck fun c => { c with grps := Tab.cut c.grps e }
      else
        let keep : Word := ~~~BitVec.twoPow 64 r
        let g := { g with ranks := ranks, masks := g.masks.map fun v => v.write s.clock s.uid (v.cur &&& keep),
                          arrived := g.arrived.map fun v => v &&& keep.setWidth 32 }
        (s.setGrp ck e g).groupCheck ck e

/-! ### The extended pool (R123, R124, R139) -/

/-- A thread receives a block: every register of it is 0, but for a block that is given back after a pre-emption (R125). -/
def Thread.giveBlock (t : Thread) : Thread :=
  if t.xback then { t with xblk := true, xwant := false, xback := false } else
  let g := Vector.ofFn fun k : Fin 64 => if k.val < 32 then t.r.g.get k else (0 : Word)
  { t with xblk := true, xwant := false, hold := false,
           r := { t.r with g := g, win := t.r.win.filter (fun e => decide (e.reg < 32)), lost := t.r.lost.filter fun e => decide (e.2.1 < 32),
                           psn := t.r.psn &&& 0xFFFFFFFF, psnA := t.r.psnA.filter fun e => decide (e.1 < 32),
                           prov := t.r.prov.filter fun e => decide (e.1 < 32) } }

/-- A thread's block goes back to the pool. -/
def State.freeBlock (s : State) (tk : Nat) : State :=
  if (s.thr tk).xblk then
    (s.modThr tk fun t => { t.giveBlock with xblk := false }).modCore (ckOf tk) fun c => { c with pool := c.pool + 1 }
  else s

/-- Blocks that stay with threads of a context pre-empted in resident mode go back to the pool, the registers kept
(R125): those of the lowest saved keys first, also where they do not suffice (log 84). -/
def State.evictBlocks (s : State) (ck n : Nat) : State :=
  (((s.coreAll ck).filter fun e => e.2.st == .saved && e.2.xblk).take n).foldl (fun s e =>
    (s.modThr e.1 fun t => { t with xblk := false, xback := true }).modCore ck fun c => { c with pool := c.pool + 1 }) s

/-- Grants requests whole and in order, as far as the free blocks go. -/
def State.poolGrant (s : State) (ck : Nat) : List PoolReq → State
  | [] => s.modCore ck fun c => { c with poolq := [] }
  | q :: rest =>
    let want := q.members.filter fun tk => (s.thr tk).xwant
    let s := s.evictBlocks ck (want.length - (s.core ck).pool)
    if want.length ≤ (s.core ck).pool then
      let s := want.foldl (fun s tk => s.modThr tk Thread.giveBlock) s
      (s.modCore ck fun c => { c with pool := c.pool - want.length }).poolGrant ck rest
    else s.modCore ck fun c => { c with poolq := q :: rest }

/-- Takes a thread's request to the extended pool back. -/
def State.unwant (s : State) (tk : Nat) : State :=
  (s.modThr tk fun t => { t with xwant := false }).modCore (ckOf tk) fun c =>
    { c with poolq := (c.poolq.map fun q => { q with members := q.members.filter (· != tk) }).filter fun q => !q.members.isEmpty }

def State.poolCheck (s : State) (ck : Nat) : State := s.poolGrant ck (s.core ck).poolq

/-! ### Full/empty registers (R136) -/

/-- Serves the queues of one shared register while its state lets one of them perform; `n` bounds the performances. -/
def State.feServe (s : State) (ck r : Nat) : Nat → State
  | 0 => s
  | n + 1 =>
    let x : ShReg := Tab.getOr (s.core ck).shr r {}
    let put (s : State) (x : ShReg) : State := s.modCore ck fun c => { c with shr := Tab.put c.shr r x }
    if x.full then
      match x.rq with
      | [] => s
      | (tk, u) :: rest =>
        let t := s.thr tk
        match (t.pendAt u <|> t.orph.find? fun p => p.u == u) with
        | some { k := .rdfe _, .. } =>
          let s := (put s { x with full := false, rq := rest }).deliverOut tk u [x.v.cur] none
          (s.modThr tk fun t => { t with orph := t.orph.filter fun p => p.u != u }).feServe ck r n
        | _ => (put s { x with rq := rest }).feServe ck r n
    else
      match x.wq with
      | [] => s
      | (tk, u) :: rest =>
        let t := s.thr tk
        match (t.pendAt u <|> t.orph.find? fun p => p.u == u) with
        | some { k := .wrfe _ v, .. } =>
          let s := put s { x with full := true, wq := rest, v := x.v.writeBy s.clock 0 v, psn := none, prov := none }
          ((s.endPend tk u).modThr tk fun t => { t with orph := t.orph.filter fun p => p.u != u }).feServe ck r n
        | _ => (put s { x with wq := rest }).feServe ck r n

def State.feCheck (s : State) (ck r : Nat) : State :=
  let x : ShReg := Tab.getOr (s.core ck).shr r {}
  s.feServe ck r (2 * (x.rq.length + x.wq.length) + 1)

/-! ### Named barriers (R207 to R209) -/

def State.bar (s : State) (ck b : Nat) : Bar := Tab.getOr (s.core ck).bars b {}
def State.setBar (s : State) (ck b : Nat) (v : Bar) : State := s.modCore ck fun c => { c with bars := Tab.put c.bars b v }

/-- The number on the core of a context's barrier `b`; none at or above the allotment count. -/
def State.barNo (s : State) (tk b : Nat) : Option Nat :=
  let x := s.ctxOf tk
  if b < x.barn then some (x.bar0 + b) else none

/-- Releases the slots of a waiter mask. -/
def State.barRelease (s : State) (ck b : Nat) (m : BitVec 1024) : State :=
  (s.coreAll ck).foldl (fun s e =>
    if m.getLsbD (slotOf e.1) then
      s.modThr e.1 fun t => { t with blk := t.blk.filter fun x => match x with | .bar c _ => c != b | _ => true }
    else s) s

/-- An arrival (R208): none is fault 0x10; otherwise the phase it arrived in. -/
def State.barArrive (s : State) (tk b : Nat) : Option (State × Bool) :=
  let ck := ckOf tk
  let v := s.bar ck b
  let k := slotOf tk
  if v.n = 0 ∨ v.m2.getLsbD k then none
  else
    let bitK : BitVec 1024 := BitVec.twoPow 1024 k
    let v := if v.m1.getLsbD k then { v with m2 := v.m2 ||| bitK } else { v with m1 := v.m1 ||| bitK }
    if v.count + 1 = v.n then
      let s := (s.setBar ck b { v with phi := !v.phi, count := 0, m1 := 0, m2 := 0, wait := 0 }).barRelease ck b v.wait
      some (s, v.phi)
    else some (s.setBar ck b { v with count := v.count + 1 }, v.phi)

/-- A wait takes effect (R209). -/
def State.barWait (s : State) (tk b : Nat) (ph : Bool) : State :=
  let ck := ckOf tk
  let v := s.bar ck b
  if v.phi ≠ ph then s
  else
    (s.setBar ck b { v with wait := v.wait ||| BitVec.twoPow 1024 (slotOf tk) }).modThr tk fun t =>
      { t with blk := .bar b ph :: t.blk }

/-- Clears a thread's bit in every waiter mask of its context's barriers (R120); the bit of its slot in another context's barriers
is that of a pre-empted thread, and stays in place (R387). -/
def State.barForget (s : State) (tk : Nat) : State :=
  let keep : BitVec 1024 := ~~~BitVec.twoPow 1024 (slotOf tk)
  let x := s.ctxOf tk
  s.modCore (ckOf tk) fun c =>
    { c with bars := c.bars.map fun e =>
        if x.bar0 ≤ e.1 ∧ e.1 < x.bar0 + x.barn then (e.1, { e.2 with wait := e.2.wait &&& keep }) else e }

/-! ### The launch-wide barrier (R212) -/

/-- Threads of a launch, with their keys. -/
def State.launchThreads (s : State) (lk : Nat) : List (Nat × Thread) :=
  s.threads.filter fun e => e.2.launch == some lk && e.2.st != .free

/-- Threads that count in an LBAR: a tandem pair counts once. -/
def State.lbarParties (s : State) (lk : Nat) : List Nat :=
  ((s.launchThreads lk).filter fun e => match e.2.pair with | some p => !p.trail | none => true).map (·.1)

/-- A completion occurs when every live thread of the launch has arrived; each die learns of it by an event of its own. -/
def State.lbarCheck (s : State) (lk : Nat) : State :=
  match Tab.look s.launches lk with
  | none => s
  | some l =>
    if !l.lbarArr.isEmpty && (s.lbarParties lk).all fun tk => l.lbarArr.contains tk then
      s.setLaunch lk { l with lbarN := l.lbarN + 1, lbarArr := [] }
    else s

end Sys2Proof.Machine
end

