-- ==== Sys2Proof/Machine/Memory.lean ====
section
/-! DEFINITION. Spaces and translation (R225 to R235), how an access is split (R236, R241), store buffers and forwarding
(R244), the order of one thread's accesses (R237, R238), and the entries that loads and stores leave when they issue. -/

namespace Sys2Proof.Machine

/-! ### The rack physical space (R227) -/

def memTop : Nat := 0x008700000000
def apertureBase : Nat := 0xFF0000000000

/-- A package-local address of memory or of the aperture. -/
def backed (a : Nat) : Bool :=
  a < memTop ||
    (apertureBase ≤ a && a < apertureBase + 2 ^ 31 && (a % 2 ^ 29) / 2 ^ 24 < 24 && a % 2 ^ 24 < 0xC00000)

def isAperture (pa : Nat) : Bool := apertureBase ≤ pa % 2 ^ 48

/-- Why an access of package `p` to a physical address faults, if it does. A thread's access to the package control page (R16)
reaches the bytes of memory behind it (log 81). -/
def State.paFault (s : State) (p pa : Nat) (atomic : Bool) : Option Nat :=
  let h := homeOf pa
  let local_ := pa % 2 ^ 48
  if !(backed local_) || (isAperture pa && (h != p || atomic)) || !(s.pkg h).present then some 0x09
  else if s.isLost p h then some 0x0C
  else none

/-! ### Page tables (R228 to R230) -/

/-- What an access needs of a page. -/
inductive Need where
  | rd | wr | rw | ex
  deriving DecidableEq, Repr

def pteKind (e : Word) : Nat := field e.toNat 6 5
def pteShadow (e : Word) : Bool := e.getLsbD 9
def pteFrame (e : Word) : Nat := field e.toNat 51 16

/-- The page lies in the canvas aperture, whose accesses are vault accesses, of RC kind (R227, R245). -/
def Xl.aperture (x : Xl) : Bool := !pteShadow x.pte && isAperture (pteFrame x.pte * 2 ^ 16)

/-- SO or UO page; an aperture page is neither, whatever its KIND. A shadow page is of its KIND, whichever its backings (log 91). -/
def Xl.so (x : Xl) : Bool := pteKind x.pte == 0 && !x.aperture
def Xl.uo (x : Xl) : Bool := pteKind x.pte == 2 && !x.aperture

/-- A reserved field is non-zero, or KIND or POLICY is 11 (R229, R230). -/
def pteBad (e : Word) : Bool :=
  field e.toNat 15 10 != 0 || field e.toNat 54 52 != 0 || (!pteShadow e && field e.toNat 63 55 != 0)
    || pteKind e == 3 || field e.toNat 8 7 == 3 || (!e.getLsbD 1 && (field e.toNat 9 2 != 0 || field e.toNat 63 52 != 0))

/-- What a load by package `p` of a table entry comes to: the fault of its address, or that of a poisoned line (R234, R262). -/
def State.entryFault (s : State) (p pa : Nat) : Option Nat :=
  let a := s.aline p (lineOf pa)
  s.paFault p pa false <|> if !isAperture pa && (if a.st = .I then (s.dir (lineOf pa)).psn else a.psn) then some 0x0D else none

/-- One level of the walk, each entry read as a load past every store buffer (R234); answers the leaf, or a fault code. -/
def State.walkLevel (s : State) (p va : Nat) : Nat → Nat → Except Nat Xl
  | 0, _ => .error 0x08
  | n + 1, t =>
    let level := 3 - n
    let ix := field va (54 - 13 * (level - 1)) (42 - 13 * (level - 1))
    match s.entryFault p (t + 8 * ix) with
    | some c => .error c
    | none =>
      let e : Word := BitVec.ofNat 64 (s.readNow (t + 8 * ix) 8)
      if !e.getLsbD 0 || pteBad e then .error 0x08
      else if e.getLsbD 1 then
        if level = 1 then .error 0x08
        else if level = 2 then (if field e.toNat 28 16 != 0 then .error 0x08 else .ok ⟨e, va / 2 ^ 29 * 2 ^ 29, true⟩)
        else .ok ⟨e, va / 2 ^ 16 * 2 ^ 16, false⟩
      else s.walkLevel p va n (pteFrame e * 2 ^ 16)

/-- The walk of R230 from a root, by a package, with the fault it ends in. -/
def State.walkE (s : State) (p : Nat) (root : Word) (va : Nat) : Except Nat Xl := s.walkLevel p va 3 root.toNat

/-- What the walk finds. -/
def State.walk (s : State) (p : Nat) (root : Word) (va : Nat) : Option Xl := (s.walkE p root va).toOption

/-- The permission bits. -/
def Need.ok (n : Need) (e : Word) : Bool :=
  match n with
  | .rd => e.getLsbD 2
  | .wr => e.getLsbD 3
  | .rw => e.getLsbD 2 && e.getLsbD 3
  | .ex => e.getLsbD 4

/-- The page of a translation holds an address. -/
def Xl.covers (x : Xl) (va : Nat) : Bool :=
  if x.big then va / 2 ^ 29 == x.base / 2 ^ 29 else va / 2 ^ 16 == x.base / 2 ^ 16

/-! ### TLBs (R233) -/

def tlbMax : Nat := 256

def State.tlbFind (s : State) (ck ctx va : Nat) : Option Xl :=
  ((s.core ck).tlb.find? fun e => e.ctx == ctx && e.x.covers va).map (·.x)

def State.tlbAdd (s : State) (ck ctx : Nat) (x : Xl) : State :=
  s.modCore ck fun c => { c with tlb := (⟨ctx, x⟩ :: c.tlb.filter fun e => !(e.ctx == ctx && e.x.base == x.base)).take tlbMax }

/-- Where a shadow page's address lies (R231, R232): descriptor, then backing; none outside [VBASE, VBASE + SIZE). -/
def State.shadowPa (s : State) (x : Xl) (va : Nat) (invert : Bool) : Option Nat :=
  let d := pteFrame x.pte * 2 ^ 16 + 128 * field x.pte.toNat 63 55
  -- every reduction that has performed on the descriptor's line counts (R236, R248)
  let s := s.settle (lineOf d)
  let sel := s.read d 8 % 2 == 1
  let vbase := s.read (d + 0x18) 8
  let size := s.read (d + 0x20) 8
  if va < vbase ∨ vbase + size ≤ va then none
  else some ((s.read (d + (if sel != invert then 0x10 else 8)) 8 + (va - vbase)) % 2 ^ 52)

/-- The rack physical address of an access now; `engine` writes of a shadow page go to the invisible backing. -/
def State.paOf (s : State) (x : Xl) (va : Nat) (engineWrite : Bool := false) : Option Nat :=
  if pteShadow x.pte then s.shadowPa x va engineWrite
  else some (pteFrame x.pte * 2 ^ 16 + (if x.big then va % 2 ^ 29 else va % 2 ^ 16))

/-- Whether an access's translation and permissions are good, and its fault code if not; `none` where nothing holds the
translation and it has to be walked. -/
def State.checkXl (s : State) (p va n : Nat) (x : Xl) (need : Need) (atomic : Bool) : Option Nat :=
  if !need.ok x.pte then some 0x09
  else
    match s.paOf x va with
    | none => some 0x08
    | some pa => (s.paFault p pa atomic) <|> (if n ≤ 1 then none else s.paFault p (pa + n - 1) atomic)

/-- A translation for a thread that must have it before it goes on: the TLB's, or a walk's (R233). -/
def State.xlate (s : State) (tk va : Nat) : Option Xl × State :=
  let ck := ckOf tk
  let c := (s.thr tk).ctx
  match s.tlbFind ck c va with
  | some x => (some x, s)
  | none =>
    match s.walk (pkgOfThr tk) (s.ctxOf tk).root va with
    | none => (none, s)
    | some x => (some x, s.tlbAdd ck c x)

/-! ### Spans of a launch (R226, R282) -/

/-- System privilege of a thread's context. -/
def State.sysPriv (s : State) (tk : Nat) : Bool := (s.ctxOf tk).attr.getLsbD 0

def State.launchDie (s : State) (tk : Nat) : Option LDie :=
  (s.launch? (s.thr tk).launch).bind fun l => l.dies.find? fun d => d.dk == dkOf (ckOf tk)

/-- The absolute place of `n` bytes of a vault address operand, or none for fault 0x09 (R225, R226). -/
def State.vaultAt (s : State) (tk : Nat) (a : Word) (n : Nat) : Option Nat :=
  let v := field a.toNat 28 24
  let off := field a.toNat 23 0
  if a.toNat / 2 ^ 29 ≠ 0 ∨ 24 ≤ v then none
  else
    let dk := dkOf (ckOf tk)
    if s.sysPriv tk then (if off + n ≤ 0xC00000 then some (vaultLoc dk v off) else none)
    else
      match (s.launchDie tk).bind fun d => Tab.look d.vs v with
      | some (b, size) => if off + n ≤ size then some (vaultLoc dk v (b + off)) else none
      | none => none

/-- The absolute place of `n` bytes of a local-store address operand. -/
def State.storeAt (s : State) (tk : Nat) (a : Word) (n : Nat) : Option Nat :=
  let off := a.toNat
  let ck := ckOf tk
  if 2 ^ 20 ≤ off then none
  else if s.sysPriv tk then (if off + n ≤ 2 ^ 20 then some (lsLoc ck off) else none)
  else
    match (s.launchDie tk).bind fun d => Tab.look d.ls (coreOf ck) with
    | some (b, size) => if off + n ≤ size then some (lsLoc ck (b + off)) else none
    | none => none

/-- A location in the sketch area of a local store, whose layout the spec does not give (R381; log 2). -/
def inSketchArea (loc : Nat) : Bool := 2 ^ 52 ≤ loc && 0xA0000 ≤ (loc - 2 ^ 52) % 2 ^ 20

/-- Bytes of the context save area in each vault (R384). -/
def Ctx.saveLen (x : Ctx) : Nat := 4 * (96 * 1024 + 2048 * x.slots)

/-- Reads bytes of memory; a byte of a sketch area is a free value. -/
def State.readFree (s : State) (loc n : Nat) : Nat × State :=
  if inSketchArea loc then
    let (v, s) := s.freeVal
    let (w, s) := s.freeVal
    ((v.toNat + 2 ^ 64 * w.toNat) % 2 ^ (8 * n), s)
  else (s.read loc n, s)

/-! ### Pieces (R236, R241) -/

/-- The parts of an access: whole where it is aligned and at most 16 bytes, else byte by byte. -/
def splitVa (a n : Nat) : List (Nat × Nat) :=
  if n ≤ 16 ∧ a % n = 0 then [(a, n)] else (List.range n).map fun k => ((a + k) % 2 ^ 64, 1)

/-- Where a part lies now, if its translation is known. -/
def State.pieceLoc (s : State) (va : Nat) (loc : Option Nat) (xl : Option Xl) : Option Nat :=
  match loc with
  | some l => some l
  | none => xl.bind fun x => s.paOf x va

def Piece.at (s : State) (p : Piece) : Option Nat := s.pieceLoc p.va p.loc p.xl

/-- Where a part of an entry goes: an engine's write of a shadow page to the backing that is not visible (R232). -/
def SbE.place (s : State) (e : SbE) (q : SPiece) : Option Nat :=
  match q.loc with
  | some l => some l
  | none => q.xl.bind fun x => s.paOf x q.va (match e.k with | .engine _ => true | _ => false)

def overlaps (a n b m : Nat) : Bool := decide (a < b + m) && decide (b < a + n)

/-- Two pieces share a byte: by place where both are translated, by address otherwise. -/
def shareByte (va n : Nat) (loc : Option Nat) (va' n' : Nat) (loc' : Option Nat) : Bool :=
  match loc, loc' with
  | some a, some b => overlaps a n b n'
  | _, _ => overlaps va n va' n'

/-! ### Kinds of page for the order rules (R237 to R241): vault and local-store accesses count as RC -/

def isSo (xl : Option Xl) : Bool := match xl with | some x => x.so | none => false
def isUo (xl : Option Xl) : Bool := match xl with | some x => x.uo | none => false

/-- An access has a part that is not on a UO page (a page that is not known yet may be one). -/
def Acc.nonUo (a : Acc) : Bool := a.pieces.any fun p => !isUo p.xl
def SbE.nonUo (e : SbE) : Bool := e.pieces.any fun p => !isUo p.xl
def SbE.undone (e : SbE) : Bool := e.pieces.any fun p => !p.done
def Acc.undone (a : Acc) : Bool := a.pieces.any fun p => p.got.isNone

/-- The access of a pending operation, if it is one. -/
def PK.acc? : PK → Option Acc
  | .acc a => some a
  | .waita a _ _ => some a
  | .tldb a _ => some a
  | _ => none

/-- Earlier accesses of a thread that have not performed: each with its parts, whether it is an acquire, and whether it is the wait for an
engine's command, which every later access follows (R237 rules 2 and 8). -/
structure Earlier where
  acq : Bool
  fin : Bool := false
  parts : List (Nat × Nat × Option Nat × Option Xl)
  deriving DecidableEq, Repr

/-- A wait that acquires when it ends and is no access: LWAIT and CWAIT (R102, R237 rule 8, R239). -/
def PK.acquires : PK → Bool
  | .lwait _ | .cwait _ => true
  | _ => false

/-- Entries that have not performed, in program order: those of the store buffer, then those of a matched region that wait for a place
there (R406). -/
def Thread.owed (t : Thread) : List SbE := t.sb ++ (match t.pair with | some p => p.moving | none => [])

def State.earlier (s : State) (tk u : Nat) : List Earlier :=
  let t := s.thr tk
  -- an acquire that touches no byte of memory: a part of no bytes
  let ws := t.pend.filterMap fun p => if p.u < u ∧ p.k.acquires then
    some { acq := true, fin := (match p.k with | .cwait _ => true | _ => false), parts := [(0, 0, some (2 ^ 63), none)] } else none
  let ls := t.pend.filterMap fun p =>
    if p.u < u then
      p.k.acc?.map fun a =>
        { acq := a.acq && a.nonUo, parts := (a.pieces.filter fun q => q.got.isNone).map fun q => (q.va, q.n, q.at s, q.xl) }
    else none
  let ss := t.owed.filterMap fun e =>
    if e.u < u then some { acq := false, parts := (e.pieces.filter fun q => !q.done).map fun q => (q.va, q.n, e.place s q, q.xl) } else none
  (ws ++ ls ++ ss).filter fun e => !e.parts.isEmpty

/-- Whether nothing else of its thread has to perform before a part of access `u` (R237, R238): `rel` for a release. An
earlier part whose place is not known yet may be one that has to. -/
def State.inOrder (s : State) (tk u va n : Nat) (loc : Option Nat) (xl : Option Xl) (rel : Bool) : Bool :=
  (s.earlier tk u).all fun e =>
    !e.fin && e.parts.all fun q =>
      !(q.2.2.1.isNone && q.2.2.2.isNone)
        && !(isSo xl && isSo q.2.2.2)
        && !(e.acq && !isUo xl)
        && !(rel && !isUo xl && !isUo q.2.2.2)
        && !(shareByte va n loc q.1 q.2.1 q.2.2.1)

/-- The same for a load part that the store buffer serves, which need not follow accesses to the same bytes. -/
def State.inOrderF (s : State) (tk u : Nat) (xl : Option Xl) : Bool :=
  (s.earlier tk u).all fun e => !e.fin && e.parts.all fun q => !(q.2.2.1.isNone && q.2.2.2.isNone) && !(e.acq && !isUo xl)

/-- All accesses that a release at the thread's own issue stands after have performed (R237 rule 3). -/
def Thread.relReady (t : Thread) : Bool :=
  t.owed.all (fun e => !e.nonUo)
    && t.pend.all fun p => !p.k.acquires && match p.k.acc? with | some a => !(a.undone && a.nonUo) | none => true

/-! ### Forwarding from the store buffer (R244) -/

/-- What the store buffer says to a load part: nothing, a wait, or the bytes. -/
inductive Fwd where
  | no
  | wait
  | hit (v : Nat)
  deriving DecidableEq, Repr

/-- An entry's part touches bytes of a load: by place, or by address within one space. -/
def SbE.touches (s : State) (e : SbE) (q : SPiece) (va n : Nat) (loc : Option Nat) (space : Space) : Bool :=
  if e.space = space then shareByte va n loc q.va q.n (e.place s q)
  else match loc, e.place s q with | some a, some b => overlaps a n b q.n | _, _ => false

/-- The newest entry before `u` that touches the bytes serves the load where it covers them whole and is of the load's space (newest
first). -/
def State.forwardGo (s : State) (va n : Nat) (loc : Option Nat) (space : Space) : List SbE → Fwd
  | [] => .no
  | e :: rest =>
    if !(e.pieces.any fun q => e.touches s q va n loc space) then s.forwardGo va n loc space rest
    else
      match decide (e.space = space) && (match e.k with | .store | .engine _ => true | _ => false), e.pieces with
      | true, ps =>
        -- a part of several bytes may be covered by the byte parts of a misaligned entry
        let byteAt (a : Nat) : Option Nat :=
          ps.findSome? fun q => if q.va ≤ a ∧ a < q.va + q.n then some (q.data / 256 ^ (a - q.va) % 256) else none
        let bs := (List.range n).map fun k => byteAt (va + k)
        if bs.all (·.isSome) then .hit ((bs.zipIdx.map fun b => b.1.getD 0 * 256 ^ b.2).sum) else .wait
      | _, _ => .wait

def State.forward (s : State) (tk u va n : Nat) (loc : Option Nat) (xl : Option Xl) (space : Space) : Fwd :=
  let es := ((s.thr tk).owed.filter fun e => decide (e.u < u) && e.undone).reverse
  -- a leading copy is served from its held entries as well (R405)
  let held : List SbE := match (s.thr tk).pair with
    | some p => (p.sig.filterMap fun e => e.held).filter fun e => decide (e.u < u)
    | none => []
  match s.forwardGo va n loc space (held.reverse ++ es) with
  | .hit v => if isSo xl then .wait else .hit v
  | f => f

/-- A value the thread itself would read now, with what its own buffer holds (spilled return entries, R118, R382). -/
def State.ownRead (s : State) (tk va n : Nat) : Option Nat :=
  match s.tlbFind (ckOf tk) (s.thr tk).ctx va <|> s.walk (pkgOfThr tk) (s.ctxOf tk).root va with
  | none => none
  | some x =>
    match s.forward tk s.uid va n (s.paOf x va) (some x) .glob with
    | .hit v => some v
    | _ => (s.paOf x va).map fun pa => s.readNow pa n

/-! ### Counters (R105) and places in the store buffer (R244) -/

def sbMax : Nat := 16

/-- Entries of the store buffer in use; CFLUSH and CINV take none (R244, R268). -/
def Thread.sbUsed (t : Thread) : Nat :=
  (t.sb.filter fun e => match e.k with | .flush _ | .inval _ => false | _ => true).length

def Ctrs.bump (c : Ctrs) (ldc suc frc : Nat) : Ctrs := { c with ldc := c.ldc + ldc, suc := c.suc + suc, frc := c.frc + frc }
def Ctrs.drop (c : Ctrs) (ldc suc frc : Nat) : Ctrs := { c with ldc := c.ldc - ldc, suc := c.suc - suc, frc := c.frc - frc }

/-- Entries of matched regions enter the store buffer in order, as far as it has room (R244, R406). SUC and FRC may pass 255
(log 80). -/
def Thread.feed (t : Thread) : Thread :=
  match t.pair with
  | none => t
  | some p =>
    let es := p.moving.take (sbMax - t.sbUsed)
    { t with sb := t.sb ++ es, c := t.c.bump 0 es.length (es.filter fun e => e.remote).length,
             pair := some { p with moving := p.moving.drop es.length } }

/-- The home of a location is another package (R105). -/
def State.isRemote (s : State) (p : Nat) (x : Option Xl) (va : Nat) : Bool :=
  match x.bind fun x => s.paOf x va with
  | some pa => homeOf pa != p
  | none => false

end Sys2Proof.Machine
end

