-- ==== Sys2Proof/Machine/Agent.lean ====
section
/-! DEFINITION. A package as the agent of its lines (R333, R336, R337): what its state lets an access do, what it asks of a
home, and the arithmetic of atomics (R248, R272). -/

namespace Sys2Proof.Machine

/-! ### Where a line of memory stands (R227, R409) -/

/-- The place of a line: its controller (die * 24 + controller), channel, bank and row. -/
structure MemPlace where
  ctrl : Nat
  ch : Nat
  bank : Nat
  row : Nat
  deriving DecidableEq, Repr

def memPlace (line : Nat) : MemPlace :=
  let n := Config.memPlace line
  { ch := n % 16, ctrl := n / 16 % 96, bank := n / 1536 % 32, row := n / 49152 % 2 ^ 18 }

/-- The die that serves a line. -/
def dieOfLine (line : Nat) : Nat := (memPlace line).ctrl / 24

/-! ### Returning atomics (R272) -/

/-- The new element and the predicate of an atomic on `w` bits. -/
def AtOp.apply (op : AtOp) (w32 sgn : Bool) (old b c : Nat) : Nat × Option Bool :=
  let w := if w32 then 32 else 64
  let b := b % 2 ^ w
  let c := c % 2 ^ w
  let less := decide (toInt w sgn b < toInt w sgn old)
  match op with
  | .add => ((old + b) % 2 ^ w, none)
  | .min => (if less then b else old, none)
  | .max => (if toInt w sgn old < toInt w sgn b then b else old, none)
  | .and => (old &&& b, none)
  | .or => (old ||| b, none)
  | .xor => (old ^^^ b, none)
  | .xchg => (b, none)
  | .cas => (if old = b then c else old, some (old == b))
  | .incw => (if b ≤ old then 0 else old + 1, none)
  | .decw => (if old = 0 ∨ b < old then b else old - 1, none)
  | .badd => let ok := decide (old + b < 2 ^ w) && decide (old + b ≤ c); (if ok then old + b else old, some ok)
  | .fadd =>
    let d := if w32 then fd32 else fd64
    (d.encode (faddV d .rne (d.decode old) (d.decode b)), none)

/-! ### What a line lets an access do (R336, R337) -/

/-- What an access needs of its line. -/
inductive LineNeed where
  | rd
  | wr
  | red (b : Bind)
  deriving DecidableEq, Repr

/-- The state of the line suffices. -/
def ALine.has (a : ALine) (n : LineNeed) : Bool :=
  match n with
  | .rd => a.st == .S || a.st == .E || a.st == .M || a.st == .O
  | .wr => a.st == .E || a.st == .M
  | .red b => a.st == .M || (a.st == .U && match a.part with | some p => p.bind == b | none => false)

/-- The access may perform now: writes also wait for a verdict (R327) and for a Flush. -/
def ALine.grants (a : ALine) (n : LineNeed) : Bool :=
  a.has n && (n == .rd || (a.unver.isNone && a.flushing.isNone))

/-- Asks the home for what an access needs, unless the line is there, a request is out already, or a Put or a Flush of the
line awaits its Ack. A reduction on a line in O first gives it back (R336). -/
def State.askLine (s : State) (p u line : Nat) (n : LineNeed) : State :=
  let a := s.aline p line
  let h := homeOf (line * 128)
  if a.has n || a.put.isSome || a.flushing.isSome || a.req.isSome then s
  else
    let out := s.setALine p line { a with req := some u }
    match n with
    | .rd => out.sendMsg .getS p h p line (txid := u)
    | .wr => out.sendMsg .getM p h p line (txid := u)
    | .red b =>
      if a.st = .O then
        (s.setALine p line { a with st := .I, put := some .O, putBy := some u }).sendMsg .putO p h p line (status := if a.psn then 8 else 0)
          (carries := true)
      else out.sendMsg .getU p h p line (txid := u) (bind := b.code)

/-! ### L1 caches (R225, R268, R269): which lines they hold; the bytes are those of memory (log 5) -/

/-- Part of the entry has performed; the rest of it performs as well (R265). -/
def SbE.begun (e : SbE) : Bool := e.pieces.any (·.done)

/-- A store of the package has performed in part, and the line is kept for the rest of it. -/
def State.pinned (s : State) (p line : Nat) : Bool :=
  s.threads.any fun t => pkgOfThr t.1 == p && t.2.sb.any fun e =>
    e.begun && e.pieces.any fun q => !q.done && ((e.place s q).any fun pa => lineOf pa == line)

/-- The line leaves every L1 of the package. -/
def State.dropL1 (s : State) (p line : Nat) : State :=
  { s with cores := s.cores.map fun e =>
      if pkgOfCore e.1 = p then (e.1, { e.2 with l1 := e.2.l1.filter fun x => x.line != line }) else e }

def State.l1Holds (s : State) (p line : Nat) : Bool :=
  s.cores.any fun e => pkgOfCore e.1 == p && e.2.l1.any fun x => x.line == line

/-- An eviction (R336): M, O and U are put, a poisoned line as one, S and E are dropped; `by` is an access that waits for the Ack. -/
def State.evictLine (s : State) (p line : Nat) (status : Nat := 0) (by_ : Option Nat := none) : State :=
  let a := { s.aline p line with putBy := by_ }
  let h := homeOf (line * 128)
  let status := if a.psn then 8 else status
  if a.put.isSome || a.flushing.isSome || a.req.isSome || a.unver.isSome || s.pinned p line then s
  else
    let s := s.dropL1 p line
    match a.st with
    | .I => s
    | .S | .E => s.setALine p line { a with st := .I, psn := false, putBy := none }
    | .M => (s.setALine p line { a with st := .I, put := some .M }).sendMsg .putM p h p line (status := status) (carries := true)
    | .O => (s.setALine p line { a with st := .I, put := some .O }).sendMsg .putO p h p line (status := status) (carries := true)
    | .U =>
      (s.setALine p line { a with st := .I, put := some .U, part := none, putPart := a.part }).sendMsg .putU p h p line
        (carries := true) (part := a.part) (bind := (a.part.map fun q => q.bind.code).getD 0)

/-- A line's poison from a lost cell goes (R347). -/
def State.wipePoison (s : State) (p line : Nat) : State :=
  (s.modALine p line fun a => { a with psn := false }).modDir line fun d => { d with psn := false }

/-- A store has performed on the line: E becomes M. -/
def State.dirtyLine (s : State) (p line : Nat) : State :=
  s.modALine p line fun a => if a.st = .E then { a with st := .M } else a

/-- A line leaves one L1; where no other of the package holds it, the package gives it up. -/
def State.l1Leave (s : State) (ck line : Nat) : State :=
  let s := s.modCore ck fun c => { c with l1 := c.l1.filter fun x => x.line != line }
  if s.l1Holds (pkgOfCore ck) line then s else s.evictLine (pkgOfCore ck) line

/-- Lines of an L1 of 128 KiB (R10). -/
def l1Max : Nat := 1024

/-- Which line leaves a full L1: the oldest of those that a hint lets leave first (R269). -/
def l1Victim (l : List L1E) : Option L1E :=
  l.foldl (fun m x => match m with | none => some x | some y => if x.keep ≤ y.keep then some x else some y) none

/-- A line enters an L1, and the line that leaves it for its sake goes. -/
def State.l1Fill (s : State) (ck : Nat) (e : L1E) : State :=
  let s := s.modCore ck fun c => { c with l1 := e :: c.l1.filter fun y => y.line != e.line }
  if (s.core ck).l1.length ≤ l1Max then s
  else match l1Victim (s.core ck).l1 with
    | some v => s.l1Leave ck v.line
    | none => s

/-- The place that a hint gives a line in an L1 (R269). -/
def keepOf : Hint → Nat
  | .evict => 0
  | .keep => 2
  | _ => 1

/-- The L1 takes no line of the page, or none for the hint (R229, R269). -/
def skipsL1 (h : Hint) (x : Xl) : Bool := h == .noalloc || field x.pte.toNat 8 7 != 0

/-- Lines of a die's home cache of 64 MiB (R10). -/
def hcacheMax : Nat := 2 ^ 19

/-- The home caches of a package, kept by die: of one that holds too many lines, the least recently used leaves. -/
def hcacheTrim (line : Nat) (l : List (Nat × Bool)) : List (Nat × Bool) :=
  if l.length ≤ hcacheMax then l
  else
    let mine := l.filter fun x => dieOfLine x.1 == dieOfLine line
    if mine.length ≤ hcacheMax then l
    else match mine.getLast? with | some v => l.filter fun x => x.1 != v.1 | none => l

/-- A line of memory enters the home cache of its die; one that is written there is dirty. -/
def State.homeHold (s : State) (line : Nat) (dirty : Bool := false) : State :=
  s.modPkg (homeOf (line * 128)) fun k =>
    let was := k.hcache.any fun x => x.1 == line && x.2
    { k with hcache := hcacheTrim line ((line, dirty || was) :: k.hcache.filter fun x => x.1 != line) }

/-- An access of a core has performed on a line: the L1 takes it, unless the page's policy or the hint forbids; a write takes it
from the other L1s of the package; what no L1 takes goes back to the home (R229, R269). A partial is in no L1. -/
def State.l1Use (s : State) (ck line : Nat) (h : Hint) (x : Xl) (wr : Bool) : State :=
  let p := pkgOfCore ck
  if (s.aline p line).st = .U then (if skipsL1 h x then s.evictLine p line else s)
  else
  let was := ((s.core ck).l1.find? fun e => e.line == line).any (·.dirty)
  let s := if wr then s.dropL1 p line else s
  if skipsL1 h x then (if s.l1Holds p line then s else s.evictLine p line)
  else s.l1Fill ck { line := line, dirty := wr || was, keep := keepOf h }

/-- A reduction performs: on the line in place in M, else on the partial. -/
def State.redLine (s : State) (p pa n : Nat) (b : Bind) (v : Nat) : State :=
  let line := lineOf pa
  let a := s.aline p line
  if a.st = .M then s.write pa n (b.combine (s.read pa n) v)
  else s.setALine p line { a with part := a.part.map fun q => q.add (pa % 128) v }

/-- The code of a firewall refusal: 0x09 where feature bit 9 is not taken (R341). -/
def State.refusedCode (s : State) (p ctx : Nat) : Nat := if s.taken p ctx 9 then 0x0A else 0x09

/-- Cycles of a microsecond (R4). -/
def cyclesPerUs : Nat := 700

/-- A context's request timer in cycles (R343, R383). -/
def Ctx.timer (x : Ctx) : Nat := (if x.timeout = 0 then 1000 else x.timeout) * cyclesPerUs

end Sys2Proof.Machine
end

