-- ==== Sys2Proof/Machine/Threads.lean ====
section
/-! DEFINITION. How threads start (R97, R98), meet region heads (R380, R381), restart (R382) and end (R120, R390). -/

namespace Sys2Proof.Machine

/-! ### Starting (R97, R98) -/

/-- The thread that a launch starts at a stage, placed in a slot. -/
def newThread (l : Launch) (lk stage : Nat) (g : StageR) (tid : Nat) (orph : List Pend) : Thread :=
  { st := .placed, ctx := l.ctx, launch := some lk, stage := stage, tid := BitVec.ofNat 64 tid, pc := g.entry,
    hpc := g.entry, r := { g := (Vector.replicate 64 (0 : Word)).set 0 l.args }, xblk := g.xstart, orph := orph }

/-- The thread that firmware starts in the supervisor's context. -/
def supervisorThread (entry args : Word) : Thread :=
  { st := .live, ctx := 0, pc := entry, hpc := entry, r := { g := (Vector.replicate 64 (0 : Word)).set 0 args } }

/-- Gives a thread a block of its own as soon as the pool has one. -/
def State.wantBlock (s : State) (tk : Nat) : State :=
  let s := s.modThr tk fun t => { t with xblk := false, xwant := true }
  (s.modCore (ckOf tk) fun c => { c with poolq := c.poolq ++ [⟨[tk], s.clock⟩] }).poolCheck (ckOf tk)

/-! ### Region heads (R381) -/

/-- A thread's state as a sketch keeps it. -/
def Thread.toSketch (t : Thread) (live : BitVec 32) : Sketch where
  pc := t.pc
  live := live
  g := t.r.g
  psn := t.r.psn
  p := t.r.p
  ix := t.r.ix
  cvmode := t.cvmode
  nancnt := t.nancnt
  depth := t.stack.length
  spill := t.spill
  cmds := []
  region := t.region
  nw := t.nw

/-- Arrival at a region head: a leading copy keeps the commands of regions that have not matched; the region number rises (it is 0 at the thread's first clause, R465), and the sketch is
written. -/
def Thread.regionHead (t : Thread) (live : BitVec 32) : Thread :=
  let p := t.pair.map fun p =>
    if p.trail || t.cmds.isEmpty || p.matchedAll then p else { p with hist := p.hist ++ [(t.region, t.cmds)] }
  let t := { t with region := if t.started then t.region + 1 else 0, started := true, cmds := [], skip := [], mism := 0,
                    pair := p }
  { t with sketch := t.toSketch live }

/-! ### Restarts (R382) -/

/-- Free values for the registers that a restart leaves undefined (R382; log 2). -/
def freeRegs (s : State) (live : BitVec 32) : Nat → Vector Word 64 → Vector Word 64 × State
  | 0, g => (g, s)
  | n + 1, g =>
    if h : n < 32 then
      if live.getLsbD n then freeRegs s live n g
      else
        let (v, s) := s.freeVal
        freeRegs s live n (g.set n v (by omega))
    else freeRegs s live n g

/-- The return stack a restart goes back to: entries spilled since the head are reloaded beneath those still held. -/
def State.restartStack (s : State) (tk : Nat) (k : Sketch) : List Word :=
  let t := s.thr tk
  match s.launch? t.launch with
  | none => t.stack.take k.depth
  | some l =>
    let back := (List.range (t.spill - k.spill)).map fun i =>
      BitVec.ofNat 64 ((s.ownRead tk (l.stackbase.toNat + t.tid.toNat * l.stackb + 8 * (k.spill + i)) 8).getD 0)
    (back ++ t.stack).take k.depth

/-- The restart acts on the thread's state; keys that the region has written stay (log 18). -/
def State.finishRestart (s : State) (tk : Nat) (k : Sketch) : State :=
  let t := s.thr tk
  let merged : Vector Word 64 := Vector.ofFn fun n : Fin 64 => if n.val < 32 then k.g.get n else t.r.g.get n
  let (g, s) := freeRegs s k.live 32 merged
  let lo : BitVec 64 := k.live.setWidth 64
  let psn := (k.psn &&& lo) ||| (t.r.psn &&& ~~~(0xFFFFFFFF : BitVec 64))
  let stack := s.restartStack tk k
  let (hpc, hdr) := k.mid.getD (k.pc, t.hdr)
  s.setThr tk { t with rst := none, pc := k.pc, hpc := hpc, hdr := hdr, fresh := k.mid.isNone, redo := true, head := false, mid := k.mid.isSome, cut := false, park := false, seen := none, asked := none, stack := stack,
                       spill := k.spill, cvmode := k.cvmode, nancnt := k.nancnt, region := k.region, nw := k.nw,
                       skip := t.cmds,
                       r := { t.r with g := g, p := k.p, ix := k.ix, win := [], lost := [], psn := psn,
                                       prov := t.r.prov.filter fun e => decide (32 ≤ e.1) } }

/-- A restarted thread that errors have condemned stops at its region head (R401, R407); of a pair only the leading copy's fault is
recorded. -/
def State.meetDoom (s : State) (tk : Nat) : State :=
  let t := s.thr tk
  match t.doom with
  | none => s
  | some code =>
    let s := s.modThr tk fun t => { t with doom := none, st := .stopped, stopCode := some code }
    if t.trails then s
    else s.queueRecord (pkgOfThr tk) t.ctx (s.threadRecord tk { code := code, header := true } t.pc t.hdr 0 false)

/-- A waiting restart acts once nothing is in flight toward the thread's registers. -/
def State.restartCheck (s : State) (tk : Nat) : State :=
  let t := s.thr tk
  match t.rst with
  | some k => if t.pend.all fun p => decide (p.nw < k.nw) then (s.finishRestart tk k).meetDoom tk else s
  | none => s

/-! ### Ending (R120, R390, R104) -/

/-- What outlives its thread: atomics and full/empty writes that have issued and not performed. -/
def Pend.survives (p : Pend) : Bool :=
  match p.k with
  | .acc a => match a.k with | .atomic .. => true | _ => false
  | .wrfe .. | .rdfe _ => true
  | _ => false

/-- The die of a launch on which a thread runs. -/
def Launch.onDie (l : Launch) (dk : Nat) (f : LDie → LDie) : Launch :=
  { l with dies := l.dies.map fun d => if d.dk = dk then f d else d }

/-- A retired thread's slot takes a new thread of the pressed stage, a pair's two slots a new pair (R104, R98, R403). -/
def State.startReplacement (s : State) (tk lk stage : Nat) (held : Bool) (orph : List Pend) (pair : Option PairS) : State :=
  match Tab.look s.launches lk with
  | none => s
  | some l =>
    match l.stages[stage]? with
    | none => s
    | some g =>
      let dk := dkOf (ckOf tk)
      -- of a pair's two copies the first that ends leaves its successor placed, and the second sets both going (R403)
      let other := pair.map fun p => (s.thr p.partner)
      let waits := match other with | some o => o.st != .placed | none => false
      let k := ((l.dies.find? fun d => d.dk == dk).map (·.extra)).getD 0
      let tid := match other with | some o => if waits then l.ntid + dk + 64 * k else o.tid.toNat | none => l.ntid + dk + 64 * k
      let s := if waits || other.isNone then s.setLaunch lk (l.onDie dk fun d => { d with extra := d.extra + 1 }) else s
      let t := { newThread l lk stage g tid orph with
                 st := if waits then .placed else .live
                 pair := pair.map fun p => { partner := p.partner, trail := p.trail, slack := p.slack } }
      let s := s.setThr tk t
      let s := match pair with
        | some p => if waits then s else s.modThr p.partner fun o => { o with st := .live }
        | none => s
      if g.xstart && !held then s.wantBlock tk
      else if held && !g.xstart then s.modCore (ckOf tk) fun c => { c with pool := c.pool + 1 } else s

/-- A thread ends: it leaves its group, gives back its block or its request for one, leaves every waiter mask and frees its slot; a
kill of a pair counts once (R390). -/
def State.endThread (s : State) (tk : Nat) (killed : Bool) : State :=
  let s := (((s.dropMember tk).leaveGroup tk).barForget tk).unwant tk
  let t := s.thr tk
  let orph := t.orph ++ ((t.pend.filter (·.survives)).map fun p => { p with d := .none, pn := 7 })
  let replace := t.retired && !killed
  let s := if replace then s else s.freeBlock tk
  let s := s.setThr tk { orph := orph }
  let s := s.poolCheck (ckOf tk)
  match t.launch with
  | none => s
  | some lk =>
    let s := if killed && !t.trails then s.modLaunch lk fun l => { l with killed := l.killed + 1 } else s
    let s := s.modLaunch lk fun l => { l with lbarArr := l.lbarArr.filter (· != tk) }
    (if replace then s.startReplacement tk lk t.retireTo t.xblk orph t.pair else s).lbarCheck lk

/-- A killed thread ends once its store buffer has drained (R390, R120). -/
def State.killCheck (s : State) (tk : Nat) : State :=
  let t := s.thr tk
  if t.killing && !t.inGang && (t.st != .live || !t.mid) && t.sb.isEmpty then s.endThread tk true else s

end Sys2Proof.Machine
end

