-- ==== Sys2Proof/Machine/Tandem.lean ====
section
/-! DEFINITION. Tandem pairs (R403 to R408): values that pass to the trailing copy, entry images and signatures, the end of a
region, and what a mismatch does. -/

namespace Sys2Proof.Machine

def inqMax : Nat := 256
def cmpMax : Nat := 256

/-- A copy writes a mapped shared register: both copies' writes are compared with their region (R144; log 89). -/
def State.noteShared (s : State) (tk : Nat) (n : BitVec 6) (v : Word) : State :=
  if (s.sharedOf tk n).isSome then
    s.modThr tk fun t => { t with pair := t.pair.map fun p => { p with shw := p.shw ++ [(t.region, n.toNat, v)] } }
  else s

/-- The input queue has room for `n` further values. -/
def State.inqRoom (s : State) (tk : Nat) (n : Nat := 1) : Bool :=
  match (s.thr (s.leadOf tk)).pair with
  | some p => p.inq.length + n ≤ inqMax
  | none => true

/-- Entries that the leading copies of a core hold. -/
def State.cmpUsed (s : State) (ck : Nat) : Nat :=
  ((s.coreThreads ck).map fun e =>
    match e.2.pair with | some p => if p.trail then 0 else p.sig.length + p.moving.length | none => 0).sum

/-- An image takes its place in program order: after those of earlier words, and among the writes of one command by address. -/
def sigInsert (e : SigE) : List SigE → List SigE
  | [] => [e]
  | x :: r => if e.pos < x.pos || (e.pos == x.pos && decide (e.sub < x.sub)) then e :: x :: r else x :: sigInsert e r

def State.addSig (s : State) (tk : Nat) (e : SigE) : State := s.modPair tk fun p => { p with sig := sigInsert e p.sig }

/-! ### The end of a region (R406, R466) -/

/-- A copy forms its closing entry, once: address and operands, or zeros for a thread whose guards do not hold. -/
def State.closeRegion (s : State) (tk : Nat) (addr lo hi : Word) : State :=
  let t := s.thr tk
  let e : SigE := { addr := addr, lo := lo, hi := hi, size := 0, kind := 3, region := t.region, space := 0, pos := t.nw }
  (s.addSig tk e).modPair tk fun p => { p with closed := true, opened := false, ended := p.ended + 1 }

/-- On a match the region's held entries move to the leading copy's store buffer, in order, each as soon as it has a place there. -/
def State.releaseHeld (s : State) (tk : Nat) (region : BitVec 16) : State :=
  match (s.thr tk).pair with
  | none => s
  | some p =>
    let es := (p.sig.filter fun e => e.region == region).filterMap fun e => e.held
    s.modThr tk fun t =>
      Thread.feed { t with
               pair := some { p with moving := p.moving ++ es, sig := p.sig.filter fun e => e.region != region, matched := p.matched + 1, mism := 0,
                                      shw := p.shw.filter fun e => e.1 != region,
                                      hist := p.hist.filter fun h => h.1 != region } }

/-- Compares a region that the trailing copy has ended (R406). -/
def State.pairCompare (s : State) (t : Nat) : State :=
  match (s.thr t).pair with
  | none => s
  | some pt =>
    let l := pt.partner
    match (s.thr l).pair with
    | none => s
    | some pl =>
      let region := (s.thr t).region
      let sl := regionSig pl.sig region
      let st := regionSig pt.sig region
      let shared (p : PairS) : List (BitVec 16 × Nat × Word) := p.shw.filter fun e => e.1 == region
      if sl = st ∧ shared pl = shared pt then (s.releaseHeld l region).releaseHeld t region
      else s.pairMismatch l t sl st

end Sys2Proof.Machine
end

