-- ==== Sys2Proof/Machine/Issue.lean ====
section
/-! DEFINITION. Issuing a word, one member of the gang at a time: what comes before a word's own effect (R64, R66, R70, R74,
R75, R109, R262, R265), what comes after it, and the end of the word, of the run and of the clause (R57, R65, R107 to R109,
R133, R139, R200, R209, R386, R472). -/

namespace Sys2Proof.Machine

/-! ### Parking and the end of a clause -/

/-- Puts a pipe's turn first in this cycle: it picks again (R108). -/
def State.again (s : State) (ck half : Nat) : State := { s with iss := none, turn := (ck, half) :: s.turn }

/-- The member that issues the word next. -/
def Gang.first (g : Gang) : Nat := (g.todo.head? <|> g.members.head?).getD 0

/-- The most parked gangs a pipe holds (R109). -/
def parkPlaces : Nat := 8

/-- A gang leaves the pipe until it is released; past eight it stays in the pipe, unless it waits in an exchange, which has
the overflow list (R109, R194). Every member's window is banked (R133). -/
def State.parkGang (s : State) (i : Issue) (g : Gang) (why : Why) : State :=
  let s := g.members.foldl (fun s tk => s.modThr tk Thread.bank) s
  let g := { g with why := why, since := s.clock, waiter := g.first }
  let exch := g.members.any fun tk => (s.thr tk).arr.isSome
  let p := s.pipe i.ck i.half
  if p.parked.length < parkPlaces then
    (s.setPipe i.ck i.half { p with gang := none, parked := p.parked ++ [g] }).again i.ck i.half
  else if exch then (s.setPipe i.ck i.half { p with gang := none, excess := p.excess ++ [g] }).again i.ck i.half
  else { s.setPipe i.ck i.half { p with gang := some g } with iss := none }

/-- An effect that waits for the end of the clause. -/
def State.atEnd (s : State) (tk : Nat) (e : EndOp) : State := s.modThr tk fun t => { t with ends := t.ends ++ [e] }

/-- What takes place at the end of a clause for one of its threads (R113, R114, R200, R209, R212). -/
def State.applyEnd (s : State) (tk : Nat) (e : EndOp) : State :=
  match e with
  | .bar b ph => s.barWait tk b ph
  | .group k => s.modThr tk fun t => { t with blk := .group k :: t.blk }
  | .lbar n =>
    let seen := match (s.launch? (s.thr tk).launch).bind fun l => l.dies.find? fun d => d.dk == dkOf (ckOf tk) with
      | some d => d.lbarSeen
      | none => n + 1
    if n < seen then s else s.modThr tk fun t => { t with blk := .lbar n :: t.blk }
  | .sleep c => s.modThr tk fun t => { t with sleep := s.time (pkgOfThr tk) + c }
  | .yield =>
    let win := (s.ctxOf tk).win
    s.modThr tk fun t => { t with age := 0, excl := s.time (pkgOfThr tk) + win / 8 + 1 }

/-- A thread leaves a clause: its window is banked, the run ends, what waited for the clause's end takes place, and it stands
at its next header. -/
def State.leaveClause (s : State) (tk : Nat) (g : Gang) : State :=
  let es := (s.thr tk).ends
  let s := s.modThr tk fun t =>
    let n := t.jump.getD (nextHeader g.hpc g.hdr)
    let t := { t with seen := none }
    if t.xgo then
      { t.endRun with inGang := false, pc := t.xpc, hpc := t.xhpc, hdr := t.xhdr, fresh := !t.xmid, mid := t.xmid, jump := none,
                      ends := t.xends, xends := [], head := t.xhead && !t.xmid, xgo := false }
    else
    { t.endRun with inGang := false, pc := n, hpc := n, fresh := true, mid := false, jump := none, ends := [],
                    head := t.head }
  let s := es.foldl (fun s e => s.applyEnd tk e) s
  let t := s.thr tk
  if t.killing then s.killCheck tk
  else if t.stopping then s.modThr tk fun t => { t with st := .stopped, stopping := false, stopCode := none }
  else s

/-- The clause ends: the gang dissolves, and its pipe picks again. -/
def State.endClause (s : State) (i : Issue) (g : Gang) : State :=
  let s := g.members.foldl (fun s tk => s.leaveClause tk g) s
  (s.setPipe i.ck i.half { s.pipe i.ck i.half with gang := none }).again i.ck i.half

/-- The members that XACQ left wanting a block make one request to the pool (R139). -/
def State.poolRequest (s : State) (ck : Nat) (members : List Nat) : State :=
  let want := members.filter fun tk => (s.thr tk).xwant && (s.thr tk).hold
    && !((s.core ck).poolq.any fun q => q.members.contains tk)
  if want.isEmpty then s
  else (s.modCore ck fun c => { c with poolq := c.poolq ++ [⟨want, s.clock⟩] }).poolCheck ck

/-- Every member has issued the word: the gang goes on to the next word, parks, or ends its clause. -/
def State.endWord (s : State) (i : Issue) (park : Bool) : State :=
  let g := i.g
  if g.members.isEmpty then (s.setPipe i.ck i.half { s.pipe i.ck i.half with gang := none }).again i.ck i.half
  else
    let g := { g with pos := g.pos + g.len, wn := g.wn + 1, todo := [], gid := 0, second := false }
    let s := s.poolRequest i.ck g.members
    if park then
      let s := g.members.foldl (fun s tk => s.modThr tk Thread.endRun) s
      s.parkGang i g .pend
    else if g.members.any fun tk => (s.thr tk).hold then s.parkGang i g .hold
    else if g.words.length ≤ g.pos then s.endClause i g
    else { s.setPipe i.ck i.half { s.pipe i.ck i.half with gang := some g } with iss := none }

/-- Ends the word if no member is left to issue it. -/
def State.checkWord (s : State) (park : Bool) : State :=
  match s.iss with
  | some i => if i.g.todo.isEmpty then s.endWord i park else s
  | none => s

/-- One member has issued the word: its program counter moves past it. -/
def State.retire (s : State) (tk : Nat) (f : Frame) : State :=
  match s.iss with
  | none => s
  | some i =>
    let g := i.g
    if !g.members.contains tk then s.checkWord f.park else
    let s := s.modThr tk fun t => { t with nw := t.nw + 1, pc := g.wordAddr + BitVec.ofNat 64 (8 * g.len) }
    let s : State := { s with iss := some { i with g := { g with todo := g.todo.filter (· != tk) } } }
    s.checkWord f.park

/-! ### Faults at the word -/

/-- The member stops before the word; the others go on (R74, R374). -/
def State.wordFault (s : State) (tk : Nat) (f : FI) (park : Bool) : State :=
  match s.iss with
  | none => s
  | some i => (s.pairFault tk f i.g.wordAddr i.g.hpc i.g.hdr i.g.word).checkWord park

/-- The late faults `l` and `rest` are raised before the word the thread stands at: the thread stops once, or is diverted, and each
gives a record of its own, in order (R265, R473, log 9). -/
def State.raiseLate (s : State) (tk : Nat) (l : Late) (rest : List Late) (park : Bool) : State :=
  match s.iss with
  | none => s
  | some i =>
    let fi (x : Late) : FI :=
      { code := x.code, addr := BitVec.ofNat 64 x.addr, late := true, ixinfo := if x.load then x.reg * 2 ^ 30 else 0 }
    let w := i.g.word
    let pc := i.g.wordAddr
    let dv := s.diverts tk l.code
    let more := if (s.thr tk).trails then [] else rest.map fun x => s.threadRecord tk (fi x) pc i.g.hdr w dv
    let p := pkgOfThr tk
    let c := (s.thr tk).ctx
    let s := s.pairFault tk (fi l) pc i.g.hpc i.g.hdr w
    (more.foldl (fun s b => s.queueRecord p c b) s).checkWord park

/-- Late faults of loads stop the thread before the word it would issue next (R473). -/
def State.lateLoads (s : State) (tk : Nat) (park : Bool) : State :=
  match (s.thr tk).late.filter (·.load) with
  | [] => s
  | l :: rest => (s.modThr tk fun t => { t with late := t.late.filter fun x => !x.load }).raiseLate tk l rest park

/-- The failures of earlier stores are raised at an instruction that waits for them: one record each, in program order
(R265). -/
def State.lateStores (s : State) (tk : Nat) (park : Bool) : State :=
  match (s.thr tk).late.filter fun x => !x.load with
  | [] => s
  | l :: rest => (s.modThr tk fun t => { t with late := t.late.filter (·.load) }).raiseLate tk l rest park

/-! ### A member at its word -/

/-- One member of the gang at the word: its thread, its gang as it was picked up, its frame, what the instruction names, its
operands after Resolve, their values (with the high half of a pair), and its registers before the word. -/
structure Lane where
  tk : Nat
  i : Issue
  f : Frame
  u : Use
  r : Resolved
  vals : List (Nat × RV × Word)
  r0 : Regs
  deriving DecidableEq, Repr

def Lane.val (l : Lane) (fld : Nat) : RV := ((l.vals.find? fun v => v.1 == fld).map fun v => v.2.1).getD (.imm 0)
def Lane.hi (l : Lane) (fld : Nat) : Word := ((l.vals.find? fun v => v.1 == fld).map fun v => v.2.2).getD 0
def Lane.a (l : Lane) : RV := l.val 0
def Lane.b (l : Lane) : RV := l.val 1
def Lane.c (l : Lane) : RV := l.val 2
def Lane.e (l : Lane) : RV := l.val 3
def Lane.src (l : Lane) (fld : Nat) : Option RSrc := l.r.srcs.find? fun x => x.fld == fld
def Lane.ck (l : Lane) : Nat := l.i.ck

/-- What a register held before the word, whatever the word's last-use flags have discarded since (R132). -/
def State.before (s : State) (l : Lane) (n : BitVec 6) : Word :=
  if (s.sharedOf l.tk n).isSome then s.readReg l.tk n else l.r0.newest n

/-- Unbanked values that the word's last-use flags discard, under the name of the word's operation. -/
def Lane.lost (l : Lane) (shared : BitVec 6 → Bool) (u : Nat) : List (Nat × BitVec 6 × Word) :=
  l.r0.win.filterMap fun e =>
    if !shared e.reg && l.r.srcs.any (fun x => x.lu && x.reg == some e.reg) then some (u, e.reg, e.val) else none

/-- The record of a pending operation of this word. -/
def Lane.pend (l : Lane) (u nw : Nat) (k : PK) (d : RD) (pn : BitVec 3) (also : BitVec 64 := 0) : Pend :=
  { u := u, gid := l.i.g.gid, k := k, d := d, pn := pn, also := also, pc := l.i.g.wordAddr, hpc := l.i.g.hpc, hdr := l.i.g.hdr,
    word := l.i.g.word, nw := nw, ix0 := l.r0.ix, ix1 := l.r.ix }

/-- What an instruction's own effect comes to for one member: done, a fault, a park before the word, or the end of the
thread. -/
inductive Res where
  | ok (s : State)
  /-- The failures of earlier stores are raised here (R265). -/
  | late
  | fault (f : FI)
  | park (w : Why)
  /-- What the word waits for has begun, and the gang parks before the word until it is done (R118). -/
  | start (s : State) (w : Why)
  | gone (s : State)

/-! ### Writing a result -/

/-- The lane of a position: the lanes in use in ascending order, the fenced one left out (R107, R400). -/
def laneAt (fenced : Option Nat) (pos : Nat) : Nat :=
  match fenced with
  | some x => if x ≤ pos then pos + 1 else pos
  | none => pos

def laneCount (fenced : Option Nat) : Nat := if fenced.isSome then 31 else 32

/-- A member's position in the gang as it was picked (R107). -/
def Issue.position (i : Issue) (tk : Nat) : Nat := (i.g.order.takeWhile (· != tk)).length

/-- INJECT is armed for this pipe and matches the thread's copy and region (R464, R465). -/
def State.injectArmed (s : State) (i : Issue) (tk : Nat) : Bool :=
  let w := (s.core i.ck).inject.toNat
  let t := s.thr tk
  field w 0 0 == 1 && field w 1 1 == i.half && field w 31 16 == t.region.toNat
    && (match t.pair with | some p => (field w 13 13 == 1) == p.trail | none => true)

/-- The lane INJECT names. -/
def State.injectLane (s : State) (ck : Nat) : Nat := field (s.core ck).inject.toNat 6 2

/-- The word's second or third issue (R400, R401). -/
def Issue.again (i : Issue) (n : Nat) : Issue := { i with g := { i.g with nth := n } }

/-- The lane on which a position issues, in the first, second or third issue of a word (R107, R400, R401). -/
def Issue.lane (i : Issue) (fenced : Option Nat) (pos : Nat) : Nat :=
  let m := laneCount fenced
  laneAt fenced (match i.g.nth with | 0 => pos | 1 => (pos + 1) % m | _ => (pos + m - 1) % m)

/-- Disarms INJECT and marks it fired (R465). -/
def State.injectFire (s : State) (ck : Nat) : State :=
  s.modCore ck fun c => { c with inject := (c.inject &&& ~~~1#64) ||| 0x100000000 }

/-- Writes the result of a fixed-latency instruction (R109, R131): through an index register it is pending until it arrives;
a mapped shared register is written at once; any other register takes it through the window. A result that INJECT meets is
flipped, in the window and in the bank (R465). -/
def State.put1 (s : State) (l : Lane) (n : BitVec 6) (v : Word) : State :=
  let fen := (s.pipe l.i.ck l.i.half).fenced
  let hit := s.injectArmed l.i l.tk && s.injectLane l.i.ck == l.i.lane fen (l.i.position l.tk) && !l.i.g.tandem && !l.u.vl
    && !l.r.ind
  let v := if hit then v ^^^ BitVec.twoPow 64 (field (s.core l.i.ck).inject.toNat 12 7) else v
  let s := if hit then s.injectFire l.i.ck else s
  if (s.sharedOf l.tk n).isSome then (s.writeReg l.tk n v).noteShared l.tk n v
  else
    s.modThr l.tk fun t =>
      let r := t.r.forward n v l.i.g.wn
      { t with r := if hit then r.set n v else r }

/-- A computed result for a mapped shared register is compared in a pair (R144). -/
def State.noteResult (s : State) (l : Lane) (d : RD) (v : Word) : State :=
  match d.regs with
  | n :: _ => s.noteShared l.tk n v
  | [] => s

/-- A value that is known travels to a pending destination. -/
def State.sendValue (s : State) (l : Lane) (d : RD) (v : Word) : State :=
  let (u, s) := (s.noteResult l d v).fresh
  s.modThr l.tk fun t =>
    { t.await d 7 with pend := t.pend ++ [l.pend u t.nw (.value v none) d 7] }

/-- Writes an instruction's 64-bit result. -/
def State.put (s : State) (l : Lane) (v : Word) : State :=
  match l.r.d with
  | .none => s
  | .reg n => if l.r.ind then s.sendValue l (.reg n) v else s.put1 l n v
  | .pair n | .run n _ => s.put1 l n v

/-- Writes a result of two registers. -/
def State.putPair (s : State) (l : Lane) (lo hi : Word) : State :=
  match l.r.d with
  | .none => s
  | .reg n | .run n _ => if l.r.ind then s.sendValue l (.reg n) lo else s.put1 l n lo
  | .pair n => (s.put1 l n lo).put1 l (n + 1) hi

/-- A variable-latency operation issues: its destination and predicate are pending (R71), and a value from outside has its place in a
pair's input queue (R404). -/
def State.pendAs (s : State) (l : Lane) (k : PK) (d : RD) (pn : BitVec 3) (also : BitVec 64 := 0) : Nat × State :=
  let (u, s) := s.fresh
  let lost := l.lost (fun n => (s.sharedOf l.tk n).isSome) u
  let s := if k.outside then s.passPlace l.tk (s.thr l.tk).nw else s
  (u, s.modThr l.tk fun t =>
    let t := { t.await d pn also with pend := t.pend ++ [l.pend u t.nw k d pn also] }
    { t with r := { t.r with lost := t.r.lost ++ lost } })

def State.pendNew (s : State) (l : Lane) (k : PK) (pn : BitVec 3) : Nat × State := s.pendAs l k l.r.d pn

/-- A result that has been computed and is pending until it arrives. -/
def State.sendPut (s : State) (l : Lane) (v : Word) : State := ((s.noteResult l l.r.d v).pendNew l (.value v none) 7).2

/-! ### What comes before the effect -/

/-- Strict decode: the context's attribute, forced by SPAN (R72, R383). -/
def State.strict (s : State) (tk : Nat) : Bool :=
  let a := (s.ctxOf tk).attr
  a.getLsbD 3 || a.getLsbD 2

/-- The decode fault of a feature or a privilege (R55, R73, R93). -/
def State.decodeFault (s : State) (tk : Nat) (u : Use) : Option FI :=
  let t := s.thr tk
  let a := (s.ctxOf tk).attr
  let feat := match u.feat with
    | some b => !s.taken (pkgOfThr tk) t.ctx b
    | none => false
  if feat then some { code := 0x18 }
  else if (u.priv = 1 ∧ !a.getLsbD 0) ∨ (u.priv = 2 ∧ !a.getLsbD 0 ∧ !a.getLsbD 1) then some { code := 0x09 }
  else none

/-- Registers of a thread whose value is provisional, as a mask (R327): its own, and the shared ones it has mapped. -/
def State.provMask (s : State) (tk : Nat) : BitVec 64 :=
  let own : BitVec 64 := (s.thr tk).r.prov.foldl (fun m e => m ||| BitVec.twoPow 64 e.1) 0
  if (s.thr tk).shr.isNone then own
  else
    (List.range 8).foldl (fun m k =>
      match s.sharedOf tk (BitVec.ofNat 6 (56 + k)) with
      | some j => if (s.shReg tk j).prov.isSome then m ||| BitVec.twoPow 64 (56 + k) else m
      | none => m) (own &&& 0x00FFFFFFFFFFFFFF)

/-- What a member has pending, from an earlier run, of what the word touches (R109), or provisional of what it reads. -/
def State.waitsFor (s : State) (tk : Nat) (f : Frame) (u : Use) : BitVec 64 × BitVec 7 :=
  let t := s.thr tk
  let gp := framePreds f
  let oldP := t.r.pendP &&& ~~~t.r.runP
  if gp &&& t.r.pendP ≠ 0 then (0, gp &&& oldP)
  else if !frameOn f t.r.p then (0, 0)
  else
    match resolve t u with
    | .error _ => (0, 0)
    | .ok r =>
      let (m, q) := r.touch u f
      ((m &&& t.r.pendG &&& ~~~t.r.runG) ||| (regsMask (r.reads u) &&& s.provMask tk),
        q &&& oldP)

/-- The members that still have to issue the word and must wait, with what for. -/
def State.gangWaits (s : State) (l : List Nat) (f : Frame) (u : Use) : List (Nat × BitVec 64 × BitVec 7) :=
  (l.map fun tk => (tk, s.waitsFor tk f u)).filter fun x => x.2.1 != 0 || x.2.2 != 0

/-- A register number names a mapped shared register (R135). -/
def Thread.isShared (t : Thread) (n : BitVec 6) : Bool := t.shr.isSome && decide (56 ≤ n.toNat)

/-- A last-use flag of a source discards after its read (R132); a shared register has no unbanked value to discard (R131). -/
def Thread.useUp (t : Thread) (x : RSrc) : Thread :=
  match x.lu, x.reg with
  | true, some n => if t.isShared n then t else { t with r := t.r.discard n }
  | _, _ => t

/-- The values of the sources, read in field order: what a last-use flag has discarded a later field no longer reads (R58, R132). -/
def State.valuesOf (s : State) (tk : Nat) (u : Use) : List RSrc → List (Nat × RV × Word)
  | [] => []
  | x :: rest =>
    (x.fld, s.value tk x, match x.reg with | some n => if u.srcPair.contains x.fld then s.readReg tk (n + 1) else 0 | none => 0)
      :: (s.modThr tk fun t => t.useUp x).valuesOf tk u rest

def State.values (s : State) (tk : Nat) (u : Use) (r : Resolved) : List (Nat × RV × Word) := s.valuesOf tk u r.srcs

/-- Index registers step and last-use flags discard, for a member that executes the word (R70, R132). -/
def Thread.consume (t : Thread) (r : Resolved) : Thread :=
  let t := r.srcs.foldl Thread.useUp t
  { t with r := { t.r with ix := r.ix } }

/-- The address of the load that poisoned a register, where one has: of the thread's own, or of a mapped shared one (R262). -/
def State.psnOf (s : State) (tk : Nat) (n : BitVec 6) : Option Nat :=
  match s.sharedOf tk n with
  | some k => (s.shReg tk k).psn
  | none => let r := (s.thr tk).r; if r.psn.getLsbD n.toNat then some (Tab.getOr r.psnA n.toNat 0) else none

/-- The load that poisoned the first poisoned register that the word reads. -/
def State.poisoned (s : State) (tk : Nat) (l : List (BitVec 6)) : Option Nat := l.findSome? fun n => s.psnOf tk n

/-- Inputs of the word that a trailing copy takes from the leading one: %clock, mapped shared registers (R144, R404), and what coins
come from (R223). -/
def State.outside (s : State) (tk : Nat) (u : Use) (r : Resolved) : Option PairVal :=
  let clk := r.srcs.any fun x => x.opd == .spec .clock
  let shr := ((r.reads u).filter fun n => (s.sharedOf tk n).isSome).map fun n => (n.toNat, s.readReg tk n)
  if clk ∨ !shr.isEmpty ∨ u.coin then
    some { pos := (s.thr tk).nw, src := true, v := [BitVec.ofNat 64 (s.special tk .clock)], regs := shr,
           coin := if u.coin then some (s.coinNow tk) else none }
  else none

/-! ### Tandem pairs at a word (R404 to R406, R466) -/

/-- Images that a closing instruction adds to the compare buffer: its entry, and before it that of what it writes (R405). -/
def Use.images (u : Use) (on : Bool) : Nat := if on && u.img.isSome then 2 else 1

/-- What a pair does before a word's effect: the leading copy passes operands on, the trailing one waits for them; at a closing
instruction each forms its closing entry and waits for the region to match. -/
def State.pairGate (s : State) (tk : Nat) (u : Use) (on : Bool) (r : Resolved) (vals : List (Nat × RV × Word)) :
    Except Why State :=
  match (s.thr tk).pair with
  | none => .ok s
  | some p =>
    let ends := u.close || (u.last && on)
    if ends ∧ !p.closed then
      if u.close ∧ !p.trail ∧ cmpMax < s.cmpUsed (ckOf tk) + u.images on then .error (.room (if u.images on = 1 then 5 else 11))
      else .error .region
    else if ends ∧ !p.matchedAll then .error .region
    else if !on then .ok s
    else
      let _ := vals
      match s.outside tk u r with
      | none => if u.vl ∧ !p.trail ∧ !s.inqRoom tk then .error .copies else .ok s
      | some v =>
        if p.trail then (if (s.pairSrc tk).isSome then .ok s else .error .copies)
        else if s.inqRoom tk (if u.vl then 2 else 1) then .ok (s.pass tk v) else .error .copies

/-- The closing entry is formed when the copy first meets its closing instruction. -/
def State.pairClose (s : State) (tk : Nat) (u : Use) (on : Bool) (vals : List (Nat × RV × Word)) : State :=
  match (s.thr tk).pair with
  | some p =>
    if u.last ∧ on ∧ !p.closed then s.modPair tk fun p => { p with closed := true, opened := false, ended := p.ended + 1 }
    else if u.close ∧ !p.closed ∧ (p.trail ∨ s.cmpUsed (ckOf tk) + u.images on ≤ cmpMax) then
      let v (k : Nat) : Word := if on then ((vals.find? fun x => x.1 == k).map fun x => x.2.1.w64).getD 0 else 0
      let s := match u.img, on with
        | some (kind, n), true =>
          s.addSig tk { addr := v 0, lo := if n < 8 then BitVec.ofNat 64 ((v 1).toNat % 2 ^ (8 * n)) else v 1, hi := 0, size := n,
                        kind := kind, region := (s.thr tk).region, space := 0, pos := (s.thr tk).nw }
        | _, _ => s
      s.closeRegion tk (v 0) (v 1) (v 2)
    else s
  | none => s

/-- After the word: the clause after a closing instruction is a region head (R380), a trailing copy has used the operands
passed to it, and a closing instruction has performed. -/
def State.pairAfter (s : State) (tk nw : Nat) (u : Use) : State :=
  let s := if u.close then s.modThr tk fun t => { t with head := true } else s
  match (s.thr tk).pair with
  | some p =>
    let s := if p.trail then s.takePassed tk nw true else s
    if u.close then s.modPair tk fun p => { p with closed := false } else s
  | none => s

/-! ### Tandem issue (R400, R401) -/

/-- A member's effect on the word in one of its issues, before any write-back: none where something comes before the effect. -/
def State.trial (s : State) (i : Issue) (f : Frame) (u : Use) (body : State → Lane → Res) (tk : Nat) : Option State :=
  let s := s.modThr tk fun t => { t with r := t.r.age i.g.wn }
  let t := s.thr tk
  if !frameOn f t.r.p then none
  else
    match resolve t u with
    | .error _ => none
    | .ok r =>
      let (m, q) := r.touch u f
      if m &&& t.r.runG ≠ 0 ∨ q &&& t.r.runP ≠ 0 ∨ (s.poisoned tk (r.reads u)).isSome ∨ t.late.any (·.load)
          ∨ ((u.rel ∨ u.drain) ∧ t.late.any fun x => !x.load) ∨ (u.rel ∧ !t.relReady) then none
      else
        let vals := s.values tk u r
        match s.pairGate tk u true r vals with
        | .error _ => none
        | .ok s1 =>
          match body (s1.modThr tk fun t => t.consume r) ⟨tk, i, f, u, r, vals, (s1.thr tk).r⟩ with
          | .ok s2 => some s2
          | _ => none

def State.setInject (s : State) (ck : Nat) (v : Word) : State := s.modCore ck fun c => { c with inject := v }

/-- What one issue of a word comes to for a member: its effect, and the error of a defective lane that it has met. -/
abbrev Issued := Option State × Option LaneErr

/-- The defect of the lane on which a member issues. -/
def State.laneErr (s : State) (i : Issue) (tk : Nat) : Option LaneErr :=
  let p := s.pipe i.ck i.half
  p.bad.find? fun e => e.lane == i.lane p.fenced (i.position tk)

/-- One issue of the word for the members in order: what each comes to, the test register apart, and the test register
afterwards. -/
def State.issueOnce (s : State) (i : Issue) (f : Frame) (u : Use) (body : State → Lane → Res) (inj : Word) :
    List Nat → List Issued × Word
  | [] => ([], inj)
  | tk :: rest =>
    let x := (s.setInject i.ck inj).trial { i with g := { i.g with tandem := false } } f u body tk
    let inj := match x with | some y => (y.core i.ck).inject | none => inj
    let (l, inj) := s.issueOnce i f u body inj rest
    ((x.map fun y => y.setInject i.ck 0, if x.isSome then s.laneErr i tk else none) :: l, inj)

/-- A lane of the pipe is defective, or INJECT is armed for a member that has still to issue the word. Where neither is so, nothing
tells the two issues of a word apart, and they come to the same. -/
def State.tandemArmed (s : State) (i : Issue) : Bool :=
  !(s.pipe i.ck i.half).bad.isEmpty || i.g.todo.any fun tk => s.injectArmed i tk

/-- Both issues of the word: what they come to for each member that has still to issue it, and the test register after them. -/
def State.issueTwice (s : State) (i : Issue) (f : Frame) (u : Use) (body : State → Lane → Res) :
    List (Nat × Issued × Issued) × Word :=
  let (a, inj) := s.issueOnce i f u body (s.core i.ck).inject i.g.todo
  let (b, inj) := s.issueOnce (i.again 1) f u body inj i.g.todo
  (i.g.todo.zip (a.zip b), inj)

/-- Which of three results stands against two equal ones; 3 where all are equal, none where all differ. -/
def minority {α : Type} [DecidableEq α] (a b c : α) : Option Nat :=
  if a = b then if b = c then some 3 else some 2 else if a = c then some 1 else if b = c then some 0 else none

/-- The vote of R401: the one lane that every minority result names, where every position that disagrees has a majority. -/
def voteLane (lanes : List (Option Nat)) : Option Nat :=
  match lanes with
  | some l :: rest => if rest.all fun x => x == some l then some l else none
  | _ => none

/-- A defect has shown in a word. -/
def LaneErr.next (e : LaneErr) : Option LaneErr := if e.left ≤ 1 then none else some { e with left := e.left - 1 }

/-- A mismatch between the two issues (R401): no member writes the word and all restart from their region heads. Where a member that
disagrees has met one in its region before, the word issues a third time, and the vote fences the lane it names; where it names
none, or the pipe has a fenced lane already, each member that disagrees stops. -/
def State.tandemMismatch (s : State) (i : Issue) (f : Frame) (u : Use) (body : State → Lane → Res)
    (l : List (Nat × Issued × Issued)) (inj : Word) : State :=
  let p := pkgOfCore i.ck
  let dk := dkOf i.ck
  let pipe := s.pipe i.ck i.half
  let fen := pipe.fenced
  let unit (lane : Nat) : Nat := unitId 1 p (dieIx dk) (s.phys i.ck) (lane + 32 * i.half)
  let off := (l.filter fun x => decide (x.2.1 ≠ x.2.2)).map (·.1)
  let laneOf (nth tk : Nat) : Nat := (i.again nth).lane fen (i.position tk)
  let third := s.issueOnce (i.again 2) f u body inj i.g.todo
  let three := l.zip third.1
  let again := off.any fun tk => (s.thr tk).mism != 0
  let odd := three.filter fun x => minority x.1.2.1 x.1.2.2 x.2 != some 3
  let off := if again then odd.map (·.1.1) else off
  let mask := off.foldl (fun m tk => m ||| 2 ^ i.position tk) 0
  let detail := [i.g.wordAddr.toNat, mask]
  let u1 := unit (laneOf 0 (off.headD 0))
  let u2 := unit (laneOf 1 (off.headD 0))
  let vote := voteLane (odd.map fun x => (minority x.1.2.1 x.1.2.2 x.2).map fun k => laneOf k x.1.1)
  let s := s.setInject i.ck (if again then third.2 else inj)
  let s := (s.setPipe i.ck i.half { pipe with mism := pipe.mism + 1, bad := pipe.bad.filterMap LaneErr.next }).errRecord p 1 0x0B u1 u2 0 detail
  let s := i.g.members.foldl (fun s k => s.beginRestart k (s.thr k).sketch) s
  let s := off.foldl (fun s k => s.modThr k fun t => { t with mism := t.mism + 1 }) s
  let s := if !again then s
    else
      match vote, fen with
      | some lane, none =>
        let s := (s.setPipe i.ck i.half { s.pipe i.ck i.half with fenced := some lane }).errRecord p 4 0x0C (unit lane) 0 0 detail
        s.modDie dk fun d => { d with failed := (s.phys i.ck) :: d.failed.filter (· != s.phys i.ck) }
      | _, _ =>
        off.foldl (fun s tk => (s.modThr tk fun t => { t with doom := some 0x13 }).restartCheck tk) (s.errRecord p 6 0x0D u1 u2 0 detail)
  (s.setPipe i.ck i.half { s.pipe i.ck i.half with gang := none }).again i.ck i.half

/-! ### The word -/

/-- A member forms its closing entry where nothing comes before the word's effect (R406, R466). -/
def State.closeLane (s : State) (i : Issue) (f : Frame) (u : Use) (tk : Nat) : State :=
  let s := s.modThr tk fun t => { t with r := t.r.age i.g.wn }
  let t := s.thr tk
  if t.late.any (·.load) ∨ framePreds f &&& t.r.runP ≠ 0 then s
  else if !frameOn f t.r.p then s.pairClose tk u false []
  else
    match resolve t u with
    | .error _ => s
    | .ok r =>
      let (m, q) := r.touch u f
      if m &&& t.r.runG ≠ 0 ∨ q &&& t.r.runP ≠ 0 ∨ (s.poisoned tk (r.reads u)).isSome then s
      else s.pairClose tk u true (s.values tk u r)

/-- A gang of pairs parks at a word. At a closing instruction every member that has come to it forms its entry first, since the gang
issues the word for all of them at once (R406, R468). -/
def State.pairPark (s : State) (i : Issue) (f : Frame) (u : Use) (w : Why) : State :=
  (i.g.todo.foldl (fun s tk => s.closeLane i f u tk) s).parkGang i i.g w

/-- Runs the effect of a member whose guards hold, once nothing stops it. -/
def State.laneBody (s : State) (i : Issue) (tk : Nat) (f : Frame) (u : Use) (r : Resolved)
    (body : State → Lane → Res) : State :=
  let vals := s.values tk u r
  let nw := (s.thr tk).nw
  match s.pairGate tk u true r vals with
  | .error w => s.pairPark i f u w
  | .ok s1 =>
    let s2 := s1.modThr tk fun t => t.consume r
    match body s2 ⟨tk, i, f, u, r, vals, (s1.thr tk).r⟩ with
    | .ok s3 => (s3.pairAfter tk nw u).retire tk f
    | .late => s.lateStores tk f.park
    | .fault x => s.wordFault tk x f.park
    | .park w => s.parkGang i i.g w
    | .start s3 w => s3.parkGang i i.g w
    | .gone s3 => s3.checkWord f.park

/-- The instruction's own fault, which comes before the poison of a register it reads (R188, R213, R224, R279, R315, log 63). -/
def State.ownFault? (s : State) (i : Issue) (tk : Nat) (f : Frame) (u : Use) (r : Resolved) (body : State → Lane → Res) : Option FI :=
  match body (s.modThr tk fun t => t.consume r) ⟨tk, i, f, u, r, s.values tk u r, (s.thr tk).r⟩ with
  | .fault x => some x
  | _ => none

/-- One member at the word, in the order of R75; a guard that is pending is waited for before the operands are resolved (log 78). `off` is what a member whose guards do not hold does. -/
def State.lane (s : State) (i : Issue) (tk : Nat) (f : Frame) (u : Use) (off : State → Lane → Res)
    (body : State → Lane → Res) : State :=
  let s := s.modThr tk fun t => { t with r := t.r.age i.g.wn }
  let t := s.thr tk
  if t.late.any (·.load) then s.lateLoads tk f.park
  else
    match if s.strict tk || i.g.anyOn then s.decodeFault tk u else none with
    | some x => s.wordFault tk x f.park
    | none =>
      let waits := s.gangWaits i.g.todo f u
      if !waits.isEmpty then s.parkGang i i.g (.regs waits)
      else if framePreds f &&& t.r.runP ≠ 0 then s.wordFault tk { code := 0x03 } f.park
      else if i.g.tandem ∧ s.tandemArmed i ∧ ((s.issueTwice i f u body).1.any fun x => decide (x.2.1 ≠ x.2.2)) then
        s.tandemMismatch i f u body (s.issueTwice i f u body).1 (s.issueTwice i f u body).2
      else if !frameOn f t.r.p then
        match s.pairGate tk u false { ix := t.r.ix, srcs := [] } [] with
        | .error w => s.pairPark i f u w
        | .ok s1 =>
          match off s1 ⟨tk, i, f, u, { ix := t.r.ix, srcs := [] }, [], t.r⟩ with
          | .ok s2 => (s2.pairAfter tk t.nw u).retire tk f
          | .late => s.lateStores tk f.park
          | .fault x => s.wordFault tk x f.park
          | .park w => s.parkGang i i.g w
          | .start s2 w => s2.parkGang i i.g w
          | .gone s2 => s2.checkWord f.park
      else
        match resolve t u with
        | .error x => s.wordFault tk x f.park
        | .ok r =>
          let (m, q) := r.touch u f
          if m &&& t.r.runG ≠ 0 ∨ q &&& t.r.runP ≠ 0 then s.wordFault tk { code := 0x03 } f.park
          else
            match s.poisoned tk (r.reads u) with
            | some a => s.wordFault tk ((s.ownFault? i tk f u r body).getD { code := 0x0D, addr := BitVec.ofNat 64 a }) f.park
            | none =>
              if (u.rel ∨ u.drain) ∧ t.late.any (fun x => !x.load) then s.lateStores tk f.park
              else if u.rel ∧ !t.relReady then s.parkGang i i.g .rel
              else s.laneBody i tk f u r body

/-- A word issues for the next member of the gang. -/
def issueWord (f : Frame) (u : Use) (off body : State → Lane → Res) (s : State) : Out :=
  match s.iss with
  | none => .fault .noThread
  | some i =>
    match i.g.todo with
    | [] => .fault .noThread
    | tk :: _ => .next (s.lane i tk f u off body)

/-- A word whose members with false guards do nothing. -/
def word (f : Frame) (u : Use) (body : State → Lane → Res) (s : State) : Out := issueWord f u (fun s _ => .ok s) body s

/-- A fixed-latency instruction that writes one register. -/
def compute (f : Frame) (u : Use) (v : Lane → Word) (s : State) : Out := word f u (fun s l => .ok (s.put l (v l))) s

/-! ### Use of the common operand shapes -/

def use1 (o : O1) : Use := { src := [(0, o.a)], dst := some o.d }
def use2 (o : O2) : Use := { src := [(0, o.a), (1, o.b)], dst := some o.d }
def use3 (o : O3) : Use := { src := [(0, o.a), (1, o.b), (2, o.c)], dst := some o.d }
def use4 (o : O4) : Use := { src := [(0, o.a), (1, o.b), (2, o.c), (3, o.e)], dst := some o.d }
def useS2 (o : S2) : Use := { src := [(0, o.a), (1, o.b)] }
def useS4 (o : S4) : Use := { src := [(0, o.a), (1, o.b), (2, o.c), (3, o.e)] }

end Sys2Proof.Machine
end

