-- ==== Sys2Proof/Machine/ConvMath.lean ====
section
/-! DEFINITION. Conversions (R176 to R182) and block-scaled elements (R29, R30, R34, R35, R183 to R185). -/

namespace Sys2Proof.Machine

/-- Element width of a format code (R91). -/
def codeWidth (c : Nat) : Nat :=
  match c with
  | 0 => 64 | 1 => 32 | 2 => 16 | 3 => 16 | 4 => 8 | 5 => 8 | 6 => 4 | 7 => 4 | 8 => 6 | 9 => 8
  | 10 => 8 | 11 => 16 | 12 => 32 | 13 => 64 | _ => 4

def codeIsInt (c : Nat) : Bool := decide (10 ≤ c)

def rndOf (c : Nat) : Rnd :=
  match c % 4 with
  | 0 => .rne | 1 => .rz | 2 => .ru | _ => .rd

/-- Rounding and saturation of a CVMODE destination, codes 0x2 to 0x9 (R42). -/
def cvField (cv : BitVec 32) (code : Nat) : Rnd × Bool :=
  let x := cv.toNat / 2 ^ (3 * (code - 2))
  (rndOf x, x / 4 % 2 == 1)

/-- Rounding and saturation of a floating destination (R176). -/
def narrowMode (cv : BitVec 32) (cc : Nat) (dst : Nat) : Rnd × Bool :=
  if dst < 2 then (rndOf cc, cc / 4 % 2 == 1) else cvField cv dst

/-- Narrow of R178: RoundTo, Sat when it is on, and encoding. -/
def narrow (dst : Nat) (mode : Rnd × Bool) (x : FV) : Nat :=
  let f := fdOfCode dst
  let y := x.round f mode.1
  f.encode (if mode.2 then f.sat y else y)

/-- An element's value times 2^k. -/
def FV.scale (x : FV) (k : Int) : FV :=
  match x with
  | .fin n m e => .fin n m (e + clampExp k)
  | y => y

/-- CVT of one element (R178). -/
def cvtElem (src dst : Nat) (mode : Rnd × Bool) (k : Int) (b : Nat) : Nat :=
  match (fdOfCode src).decode b with
  | .nan n fr => (fdOfCode dst).encode (convNan (fdOfCode src) (fdOfCode dst) n fr)
  | x => narrow dst mode (x.scale k)

/-- CVTS of one element; `q` is a value of FP64 or FP32 (R178). -/
def cvtsElem (src dst : Nat) (mode : Rnd × Bool) (q : FV) (b : Nat) : Nat :=
  let qf := if src = 0 then fd64 else fd32
  let f := fdOfCode dst
  match (fdOfCode src).decode b, q with
  | .nan n fr, _ => f.encode (convNan (fdOfCode src) f n fr)
  | _, .nan n fr => f.encode (convNan qf f n fr)
  | x, y =>
    match prodOf x y with
    | .bad => f.encode (f.genNan 4)
    | .inf n => narrow dst mode (.inf n)
    | .fin d => narrow dst mode (.fin d.neg d.m d.e)

/-- CVTI of one element (R179). -/
def cvtiElem (src : Nat) (w : Nat) (sgn : Bool) (mode : Rnd) (k : Int) (b : Nat) : Nat :=
  match (fdOfCode src).decode b with
  | .nan .. => 0
  | .inf n => wrap w (satInt w sgn (if n then -(2 ^ 200) else 2 ^ 200))
  | .fin n m e =>
    let v : Int := roundGrid mode n m (e + clampExp k) 0 false
    wrap w (satInt w sgn (if n then -v else v))

/-- CVTF of one element (R180). -/
def cvtfElem (dst : Nat) (mode : Rnd × Bool) (w : Nat) (sgn : Bool) (k : Int) (b : Nat) : Nat :=
  let v := toInt w sgn b
  narrow dst mode (.fin (decide (v < 0)) v.natAbs (clampExp k))

/-- Elements as one number, low element first. -/
def elemsNat (w : Nat) (l : List Nat) : Nat := l.foldr (fun e acc => e % 2 ^ w + 2 ^ w * acc) 0

/-- Elements placed into a register from element `start` on; the other bits are kept (R177, R181). -/
def placeElems (d : Word) (w start : Nat) (l : List Nat) : Word :=
  let sh := w * start
  let m : Nat := (2 ^ (w * l.length) - 1) * 2 ^ sh
  (d &&& ~~~BitVec.ofNat 64 m) ||| BitVec.ofNat 64 (elemsNat w l * 2 ^ sh)

/-- Converts the elements of part P of a register by R177. -/
def convertPart (ws wd part : Nat) (op : Nat → Nat) (a d : Word) : Word :=
  let n := 64 / max ws wd
  if wd ≤ ws then placeElems d wd (part * n) ((List.range n).map fun k => op (elem a ws k))
  else mkElems wd fun k => op (elem a ws (part * n + k))

/-- PACKN's placement (R181). -/
def packPart (ws wd part : Nat) (op : Nat → Nat) (a b d : Word) : Word :=
  let n := 64 / ws
  placeElems d wd (2 * n * part)
    (((List.range n).map fun k => op (elem a ws k)) ++ ((List.range n).map fun k => op (elem b ws k)))

/-- The element format of MXFP4 (R29): no infinity and no NaN. -/
def fdE2m1 : FD := ⟨4, 2, 1, 1, 3, 1, false⟩

/-- An operand as elements of a format code (R60). A small immediate that the format cannot hold exactly is rounded to nearest
even, or taken modulo 2^w (log 77). -/
def RV.elems (v : RV) (code : Nat) : Word :=
  if codeIsInt code then v.ints (codeWidth code) else v.floats (if code = 6 then fdE2m1 else fdOfCode code)

/-- PACKN of one integer element (R181). -/
def packInt (ws wd : Nat) (sgn sat : Bool) (b : Nat) : Nat :=
  let v := toInt ws sgn b
  wrap wd (if sat then satInt wd sgn v else v)

/-! ### Block scales and block-scaled elements -/

/-- Magnitude bits of a BX format code (R30). -/
def bxM (code : Nat) : Nat := if code = 7 then 3 else if code = 8 then 5 else 7

/-- The largest magnitude factor F as m * 2^e (R29, R30). -/
def scaleF (code : Nat) : Nat × Int :=
  if code = 6 then (6, 0) else (2 ^ bxM code - 1, 1 - (bxM code : Int))

/-- The magnitude of a value is at most F * 2^e. -/
def FV.atMost (x : FV) (code : Nat) (e : Int) : Bool :=
  match x with
  | .fin _ m k => !dyadicGt m k (scaleF code).1 ((scaleF code).2 + e)
  | _ => false

/-- The scale byte SCLX forms (R183). -/
def scaleByte (code : Nat) (x : FV) : Nat :=
  match x with
  | .fin .. => ((List.range 255).find? fun (e : Nat) => x.atMost code ((e : Int) - 127)).getD 254
  | _ => 0xFF

def getByte (v : Word) (k : Nat) : Nat := elem v 8 k
def setByte (v : Word) (k b : Nat) : Word := placeElems v 8 k [b]

/-- The format of a wide code of R175. -/
def wideFd (w : Nat) : FD := match w with | 0 => fd32 | 1 => fdBf16 | _ => fdF16

/-- One element quantised on its scale: its code, or none when an overflow remains (R184). -/
def quantise (code : Nat) (mode : Rnd × Bool) (s mu : Nat) (x : FV) : Option Nat :=
  if code = 6 then
    match (x.scale (127 - (s : Int))).round fdE2m1 mode.1 with
    | .inf n => if mode.2 then some (fdE2m1.encode (.fin n fdE2m1.maxM fdE2m1.maxE)) else none
    | .nan .. => none
    | y => some (fdE2m1.encode y)
  else
    let m := bxM code
    match x with
    | .nan .. => none
    | .inf n => if mode.2 then some ((if n then 2 ^ m else 0) + (2 ^ m - 1)) else none
    | .fin n v e =>
      let q := roundGrid mode.1 n v (e + 127 + mu - s + (m - 1)) 0 false
      let toInf : Bool := match mode.1 with | .rne => true | .rz => false | .ru => !n | .rd => n
      if 2 ^ m ≤ q ∧ toInf ∧ !mode.2 then none
      else some ((if n then 2 ^ m else 0) + min q (2 ^ m - 1))

/-- An E2M1 magnitude as m * 2^e (R29). -/
def e2m1Mag (c : Nat) : Nat × Int := if c < 4 then (c, -1) else (2 + c % 2, (c / 2 : Nat) - 2)

/-- The value of a block element under its scale (R29, R30). -/
def blockValue (code s mu c : Nat) : FV :=
  if code = 6 then .fin (c / 8 % 2 == 1) (e2m1Mag (c % 8)).1 ((e2m1Mag (c % 8)).2 + s - 127)
  else
    let m := bxM code
    .fin (c / 2 ^ m % 2 == 1) (c % 2 ^ m) ((s : Int) - 127 - mu - (m - 1))

/-- What BXPACK and MXPACK leave: the element register (128 bits) and the scale register (R184). -/
def blockPack (code wide part sel : Nat) (cv : BitVec 32) (a : Word) (dlo dhi b : Word) : Word × Word × Word :=
  let f := wideFd wide
  let n := 64 / f.w
  let xs := (List.range n).map fun k => f.decode (elem a f.w k)
  let s := getByte b sel
  let bx := code != 6
  let mu (k : Nat) : Nat :=
    let p := k / 2 * 2
    let ok (j : Nat) : Bool := (xs[j]?.getD (.fin false 0 0)).atMost code ((s : Int) - 128)
    if bx && ok p && ok (p + 1) then 1 else 0
  let cs := (List.range n).map fun k => quantise code (cvField cv code) s (mu k) (xs[k]?.getD (.fin false 0 0))
  let bad := s == 0xFF || cs.any (·.isNone)
  let w := codeWidth code
  let els := cs.map fun c => if bad then 0 else c.getD 0
  let old := dlo.toNat + 2 ^ 64 * dhi.toNat
  let mask : Nat := (2 ^ (w * n) - 1) * 2 ^ (w * part * n)
  let new0 := (old - (old &&& mask)) + elemsNat w els * 2 ^ (w * part * n)
  let new1 := if code = 8 then new0 % 2 ^ 96 else new0
  let b1 := if bx then
      let m0 := getByte b (sel + 1)
      let m1 := (List.range (n / 2)).foldl (fun acc i =>
        let j := part * n / 2 + i
        if mu (2 * i) = 1 then acc ||| 2 ^ j else acc - (acc &&& 2 ^ j)) m0
      setByte b (sel + 1) m1
    else b
  let b2 := if bad then setByte b1 sel 0xFF else b1
  (BitVec.ofNat 64 new1, BitVec.ofNat 64 (new1 / 2 ^ 64), b2)

/-- The wide elements that BXUNP and MXUNP give (R185). -/
def blockUnpack (code wide part sel : Nat) (cv : BitVec 32) (alo ahi b : Word) : Word :=
  let f := wideFd wide
  let n := 64 / f.w
  let s := getByte b sel
  let v := alo.toNat + 2 ^ 64 * ahi.toNat
  let w := codeWidth code
  let mode : Rnd × Bool := if wide = 0 then (.rne, false) else cvField cv (if wide = 1 then 2 else 3)
  mkElems f.w fun k =>
    let j := part * n + k
    if s = 0xFF then f.encode (f.genNan 2)
    else
      let mu := if code = 6 then 0 else getByte b (sel + 1) / 2 ^ (j / 2) % 2
      let y := (blockValue code s mu (v / 2 ^ (w * j) % 2 ^ w)).round f mode.1
      f.encode (if mode.2 then f.sat y else y)

end Sys2Proof.Machine
end

