-- ==== Sys2Proof/Machine/TileMath.lean ====
section
/-! DEFINITION. Tiles: their geometry (R284 to R287), elements and scales in memory (R33, R287), the slab accumulation of the
matrix array (R43 to R45) and the arithmetic of the epilogue (R309). -/

namespace Sys2Proof.Machine

/-! ### Formats -/

/-- 2-bit magnitude digits of an element (R32). -/
def fmtDigits (c : Nat) : Nat :=
  match c with
  | 2 => 4 | 4 => 2 | 5 => 2 | 6 => 1 | 7 => 2 | 8 => 3 | 9 => 4 | 10 => 4 | 14 => 2 | _ => 0

/-- Exponent bits of an element of a digit-plane tile (R286). -/
def fmtExpBits (c : Nat) : Nat :=
  match c with
  | 2 => 8 | 5 => 8 | 4 => 4 | 6 => 2 | _ => 0

/-- Fraction bits of a floating matrix format. -/
def fmtFrac (c : Nat) : Nat :=
  match c with
  | 2 => 7 | 4 => 3 | 5 => 2 | _ => 1

def fmtIsBlock (c : Nat) : Bool := decide (6 ≤ c) && decide (c ≤ 9)
def fmtIsFloatIn (c : Nat) : Bool := c == 2 || (decide (4 ≤ c) && decide (c ≤ 9))

/-- Elements of one block (R29, R30). -/
def fmtBlock (c : Nat) : Nat := if c = 6 then 32 else 16

/-- Bytes of one block's scale (R33). -/
def fmtScale (c : Nat) : Nat := if c = 6 then 1 else 2

/-- Formats a layout takes, and its column rule (R285). -/
def layoutOk (plane : Bool) (c cols : Nat) : Bool :=
  if plane then (c == 2 || c == 4 || c == 5 || fmtIsBlock c || c == 10 || c == 14) && cols % 32 == 0
  else (decide (1 ≤ c) && decide (c ≤ 10) || c == 12 || c == 13 || c == 14)
    && (if c = 6 then cols % 32 == 0 else if fmtIsBlock c then cols % 16 == 0 else if c = 14 then cols % 2 == 0 else true)

/-! ### Geometry -/

def Tile.defined (t : Tile) : Bool := t.fmt != 0

/-- Bytes of a tile (R286). -/
def Tile.len (t : Tile) : Nat :=
  if t.plane then t.rows * t.cols * (2 * fmtDigits t.fmt + 1 + fmtExpBits t.fmt) / 8
  else t.rows * t.cols * codeWidth t.fmt / 8

/-- Bytes of its scale array. -/
def Tile.scaleLen (t : Tile) : Nat :=
  if fmtIsBlock t.fmt then t.rows * t.cols / fmtBlock t.fmt * fmtScale t.fmt else 0

def Tile.rowBytes (t : Tile) : Nat := t.cols * codeWidth t.fmt / 8

/-- The tile's bytes, or its scale array, meet a span of locations. -/
def Tile.meets (t : Tile) (loc n : Nat) : Bool :=
  overlaps t.loc t.len loc n || overlaps t.sloc t.scaleLen loc n

/-- The image of an entry (R284). -/
def Tile.word0 (t : Tile) : Word :=
  if !t.defined then 0
  else BitVec.ofNat 64 ((if t.vault then 1 else 0) + (if t.plane then 2 else 0) + t.fmt * 4 + t.base * 2 ^ 8
    + (t.rows - 1) * 2 ^ 37 + (t.cols - 1) * 2 ^ 49)

def stCode : TileState → Nat
  | .empty => 0 | .filling => 1 | .ready => 2 | .draining => 3

def Tile.word1 (t : Tile) : Word :=
  let b (x : Bool) (k : Nat) : Nat := if x then 2 ^ k else 0
  BitVec.ofNat 64 (stCode t.st + b t.byeng 2 + t.readers * 8 + b t.clus 7 + b t.follow 8 + t.sbase * 2 ^ 16
    + b t.armed 48 + b t.faulted 49 + b t.latched 50 + t.route * 2 ^ 51 + t.op * 2 ^ 56)

/-! ### Bits of memory -/

def bytesBy (rd : Nat → Nat) (a : Nat) : Nat → Nat
  | 0 => 0
  | k + 1 => rd a + 256 * bytesBy rd (a + 1) k

/-- Bits `bit` and up of what stands at a location, through a reader of bytes. -/
def bitsBy (rd : Nat → Nat) (loc bit n : Nat) : Nat :=
  bytesBy rd (loc + bit / 8) ((bit % 8 + n + 7) / 8) / 2 ^ (bit % 8) % 2 ^ n

def State.writeBits (s : State) (loc bit n v : Nat) : State :=
  s.writeMask (loc + bit / 8) ((bit % 8 + n + 7) / 8) (v % 2 ^ n * 2 ^ (bit % 8)) ((2 ^ n - 1) * 2 ^ (bit % 8))

/-! ### Digit planes (R287) -/

/-- Sign, magnitude integer and exponent field of an element. -/
def elemSplit (c raw : Nat) : Nat × Nat × Nat :=
  let w := codeWidth c
  let s := raw / 2 ^ (w - 1) % 2
  if c = 10 ∨ c = 14 then
    let v := toInt w true (raw % 2 ^ w)
    (s, v.natAbs, 0)
  else if 7 ≤ c then (s, raw % 2 ^ (w - 1), 0)
  else
    let fb := fmtFrac c
    let ex := raw % 2 ^ (w - 1) / 2 ^ fb
    (s, (if ex = 0 then 0 else 2 ^ fb) + raw % 2 ^ fb, ex)

def elemJoin (c s g ex : Nat) : Nat :=
  let w := codeWidth c
  if c = 10 ∨ c = 14 then wrap w (if s = 1 then -(g : Int) else g)
  else if 7 ≤ c then s * 2 ^ (w - 1) + g % 2 ^ (w - 1)
  else s * 2 ^ (w - 1) + (ex % 2 ^ (w - 1 - fmtFrac c)) * 2 ^ fmtFrac c + g % 2 ^ fmtFrac c

/-- The parts of a plane element: bit offset within the tile, width and value. -/
def Tile.planeParts (t : Tile) (r c raw : Nat) : List (Nat × Nat × Nat) :=
  let d := fmtDigits t.fmt
  let x := fmtExpBits t.fmt
  let n := t.rows * t.cols
  let i := r * t.cols + c
  let (s, g, ex) := elemSplit t.fmt raw
  ((List.range d).map fun j => (2 * n * j + 2 * i, 2, g / 4 ^ j % 4))
    ++ [(2 * n * d + i, 1, s)] ++ (if x = 0 then [] else [(2 * n * d + n + x * i, x, ex)])

/-- The element at row r, column c, through a reader of bytes by location. -/
def Tile.getBy (t : Tile) (rd : Nat → Nat) (r c : Nat) : Nat :=
  let i := r * t.cols + c
  if t.plane then
    let d := fmtDigits t.fmt
    let x := fmtExpBits t.fmt
    let n := t.rows * t.cols
    let g := (List.range d).foldl (fun a j => a + 4 ^ j * bitsBy rd t.loc (2 * n * j + 2 * i) 2) 0
    elemJoin t.fmt (bitsBy rd t.loc (2 * n * d + i) 1) g
      (if x = 0 then 0 else bitsBy rd t.loc (2 * n * d + n + x * i) x)
  else bitsBy rd t.loc (i * codeWidth t.fmt) (codeWidth t.fmt)

/-- A byte of a tile as the plane path shows it: a store that no TREADY has followed does not show in a plane tile, and in a
row-major one it may (R245, R291). -/
def State.planeByte (s : State) (t : Tile) (b : Nat) : Nat :=
  match Tab.look t.stale b with
  | some v => if t.plane || !Config.planePath s.clock b then v.toNat else (s.byte b).toNat
  | none => (s.byte b).toNat

/-- Bytes of a tile, or of its scale array, as the plane path shows them. -/
def State.planeRead (s : State) (t : Tile) (loc n : Nat) : Nat := bytesBy (s.planeByte t) loc n

def State.tileGet (s : State) (t : Tile) (r c : Nat) : Nat := t.getBy (s.planeByte t) r c

/-- Cores whose threads and engines a byte of a vault or a local store is for. -/
def State.nearCores (s : State) (loc : Nat) : Tab Core :=
  s.cores.filter fun e =>
    if 2 ^ 52 ≤ loc then e.1 == (loc - 2 ^ 52) / 2 ^ 20 else dkOf e.1 == dieKey (homeOf loc) (loc % 2 ^ 31 / 2 ^ 29)

def Core.mapTiles (c : Core) (f : Tile → Tile) : Core := { c with tiles := c.tiles.map fun t => (t.1, f t.2) }

/-- A tile whose bytes the plane path already shows: a store into them shows only after another TREADY. -/
def Tile.shown (t : Tile) : Bool := t.st == .ready || t.st == .draining || (t.st == .filling && t.byeng)

/-- What the plane path keeps of the bytes that a thread's store is about to change (R291). -/
def Tile.keepOld (s : State) (loc n : Nat) (t : Tile) : Tile :=
  if t.defined && t.shown && t.meets loc n then
    { t with stale := (List.range n).foldl (fun (o : Tab Byte) k =>
        if t.meets (loc + k) 1 && (Tab.look o (loc + k)).isNone then Tab.put o (loc + k) (s.byte (loc + k)) else o) t.stale }
  else t

def State.keepPlanes (s : State) (loc n : Nat) : State :=
  (s.nearCores loc).foldl (fun s e =>
    if e.2.tiles.any fun t => t.2.defined && t.2.shown && t.2.meets loc n then s.setCore e.1 (e.2.mapTiles (Tile.keepOld s loc n)) else s) s

/-- Bytes that an engine has written show on the plane path at once. -/
def Tile.showNew (loc n : Nat) (t : Tile) : Tile :=
  { t with stale := t.stale.filter fun e => !(decide (loc ≤ e.1) && decide (e.1 < loc + n)) }

def State.showPlanes (s : State) (loc n : Nat) : State :=
  (s.nearCores loc).foldl (fun s e =>
    if e.2.tiles.any fun t => !t.2.stale.isEmpty then s.setCore e.1 (e.2.mapTiles (Tile.showNew loc n)) else s) s

def State.tilePut (s : State) (t : Tile) (r c raw : Nat) : State :=
  if t.plane then (t.planeParts r c raw).foldl (fun s p => s.writeBits t.loc p.1 p.2.1 p.2.2) s
  else s.writeBits t.loc ((r * t.cols + c) * codeWidth t.fmt) (codeWidth t.fmt) raw

/-- Place of the scale of the block that holds element (r, c). -/
def Tile.scaleAt (t : Tile) (r c : Nat) : Nat :=
  t.sloc + (r * t.cols + c) / fmtBlock t.fmt * fmtScale t.fmt

/-! ### What the array reads of an element (R29, R30, R44) -/

inductive MatV where
  | nanScale
  | nanElem
  | val (v : FV)
  deriving DecidableEq, Repr

/-- An element with its block scale. -/
def State.matElem (s : State) (t : Tile) (r c : Nat) : MatV :=
  let raw := s.tileGet t r c
  if fmtIsBlock t.fmt then
    let at_ := t.scaleAt r c
    let e := s.planeByte t at_
    if e = 0xFF then .nanScale
    else
      let mu := if t.fmt = 6 then 0 else s.planeByte t (at_ + 1) / 2 ^ (c % 16 / 2) % 2
      .val (blockValue t.fmt e mu raw)
  else
    match (fdOfCode t.fmt).decode raw with
    | .nan .. => .nanElem
    | v => .val v

def MatV.isNan : MatV → Bool
  | .val _ => false
  | _ => true

/-- NaN test mode reads a NaN as zero (R38). -/
def MatV.tested (nt : Bool) (x : MatV) : MatV := if nt && x.isNan then .val (.fin false 0 0) else x

def MatV.v : MatV → FV
  | .val v => v
  | _ => .fin false 0 0

/-! ### One slab of one output (R43, R44) -/

/-- Exponent of a non-zero dyadic. -/
def Dy.exp (d : Dy) : Int := d.e + d.m.log2

/-- A product truncated toward zero to a multiple of 2^g, in units of 2^k with k at most g. -/
def Dy.trunc (d : Dy) (g k : Int) : Int :=
  let q : Nat := if g ≤ d.e then d.m * 2 ^ (d.e - g).toNat else d.m / 2 ^ (g - d.e).toNat
  let v : Int := (q : Int) * 2 ^ (g - k).toNat
  if d.neg then -v else v

/-- The finite case of R43. -/
def slabFinite (acc : Dy) (ps : List Dy) : FV :=
  let nz := ps.filter fun p => p.m != 0
  if nz.isEmpty ∧ acc.m = 0 then
    .fin (acc.neg && ps.all (·.neg)) 0 0
  else
    let all := if acc.m = 0 then nz else acc :: nz
    let emax := all.foldl (fun a d => max a d.exp) (all.headD acc).exp
    let g := emax - 46
    let k := if acc.m = 0 then g else min g acc.e
    let sum := nz.foldl (fun a p => a + p.trunc g k) (if acc.m = 0 then 0 else acc.toInt k)
    if sum = 0 then .fin false 0 0 else roundTo fd32 .rne (decide (sum < 0)) sum.natAbs k

/-- One slab of one floating-point output: the accumulator's new bits. -/
def slabFp (acc : BitVec 32) (l : List (MatV × MatV)) : BitVec 32 :=
  let enc (v : FV) : BitVec 32 := BitVec.ofNat 32 (fd32.encode v)
  match fd32.decode acc.toNat with
  | .nan .. => acc
  | a =>
    let ps := l.map fun x => prodOf x.1.v x.2.v
    let ts := a.term :: ps
    if l.any fun x => x.1 == .nanScale || x.2 == .nanScale then enc (fd32.genNan 2)
    else if l.any fun x => x.1 == .nanElem || x.2 == .nanElem then enc (fd32.genNan 1)
    else if ps.any (· == .bad) then enc (fd32.genNan 4)
    else if ts.any (· == .inf false) && ts.any (· == .inf true) then enc (fd32.genNan 3)
    else if ts.any (· == .inf false) then enc (.inf false)
    else if ts.any (· == .inf true) then enc (.inf true)
    else
      match a with
      | .fin n m e => enc (slabFinite ⟨n, m, e⟩ (ps.filterMap fun | .fin d => some d | _ => none))
      | _ => acc

/-- One slab of one integer output (R45). -/
def slabInt (acc : BitVec 32) (l : List (Int × Int)) : BitVec 32 :=
  acc + BitVec.ofInt 32 ((l.map fun x => x.1 * x.2).sum)

/-! ### The epilogue (R308, R309) -/

/-- The fields of an epilogue image. -/
structure EpiIm where
  acc : Nat
  out : Nat
  glob : Bool
  ofmt : Nat
  rnd : Rnd
  sat : Bool
  act : Nat
  sb : Bool
  keep : Bool
  draw : Nat
  site : Nat
  deriving DecidableEq, Repr

def epiIm (w : Word) : EpiIm :=
  let n := w.toNat
  { acc := field n 5 0, out := field n 11 6, glob := w.getLsbD 12, ofmt := field n 16 13, rnd := rndOf (field n 18 17),
    sat := w.getLsbD 19, act := field n 21 20, sb := w.getLsbD 22, keep := w.getLsbD 23, draw := field n 25 24,
    site := field n 37 26 }

/-- A code or bit of the image that is reserved, or a combination R308 refuses. -/
def epiBad (w : Word) (e : Word) : Bool :=
  let i := epiIm w
  field w.toNat 63 38 != 0 || i.ofmt == 15 || i.act == 3 || i.draw == 3
    || (i.glob && (fmtIsBlock i.ofmt || i.draw != 0)) || (!i.glob && e != 0)

/-- The value of a column before activation: RoundTo, then scale and bias. -/
def epiT (isInt : Bool) (i : EpiIm) (a : BitVec 32) (scale bias : FV) : FV :=
  let x := if isInt then roundTo fd32 .rne (a.msb) a.toInt.natAbs 0 else fd32.decode a.toNat
  let y := fd32.decode (fd32.encode x)
  if i.sb then fd32.decode (fd32.encode (ffmaV fd32 .rne y scale bias)) else y

/-- Activation of a column. -/
def epiV (i : EpiIm) (lo hi t : FV) : FV :=
  if i.act = 1 then fmaxV fd32 t (.fin false 0 0)
  else if i.act = 2 then fminV fd32 (fmaxV fd32 t lo) hi
  else t

/-- The exact branch of R309. -/
def epiExact (isInt : Bool) (i : EpiIm) : Bool :=
  i.draw == 0 && isInt && !i.sb && i.act == 0 && codeIsInt i.ofmt

/-- Narrow of a plain output format; a float value goes to an integer as CVTI does. -/
def epiNarrow (i : EpiIm) (v : FV) : Nat :=
  if codeIsInt i.ofmt then cvtiElem 1 (codeWidth i.ofmt) true i.rnd 0 (fd32.encode v)
  else
    match v with
    | .nan n fr => (fdOfCode i.ofmt).encode (convNan fd32 (fdOfCode i.ofmt) n fr)
    | x => narrow i.ofmt (i.rnd, i.sat) x

/-- An exact integer output. -/
def epiInt (i : EpiIm) (a : BitVec 32) : Nat := packInt 32 (codeWidth i.ofmt) true i.sat a.toNat

/-- The larger magnitude of two values; a NaN or an infinity stays. -/
def magMax (a b : FV) : FV :=
  if a.isNan || a.isInf then a
  else if b.isNan || b.isInf then b
  else match (fabsV fd32 a).cmp (fabsV fd32 b) with
    | some .lt => b
    | _ => a

/-- One block of an epilogue output: its elements and its scale bytes (R309, R184). -/
def epiBlock (i : EpiIm) (vs : List FV) : List Nat × Nat :=
  let s := scaleByte i.ofmt (vs.foldl magMax (.fin false 0 0))
  let bx := i.ofmt != 6
  let mu (k : Nat) : Nat :=
    let ok (j : Nat) : Bool := (vs[j]?.getD (.fin false 0 0)).atMost i.ofmt ((s : Int) - 128)
    if bx && ok (k / 2 * 2) && ok (k / 2 * 2 + 1) then 1 else 0
  let cs := vs.zipIdx.map fun x => quantise i.ofmt (i.rnd, i.sat) s (mu x.2) x.1
  let bad := s == 0xFF || cs.any (·.isNone)
  let mus := (List.range 8).foldl (fun a j => a + mu (2 * j) * 2 ^ j) 0
  (cs.map fun c => if bad then 0 else c.getD 0, (if bad then 0xFF else s) + (if bx then 256 * mus else 0))

end Sys2Proof.Machine
end

