-- ==== Sys2Proof/Machine/Access.lean ====
section
/-! DEFINITION. Accesses of threads as they issue (R225 to R233, R257 to R266, R271, R275) and as they return or fail (R261,
R262, R473); the values that pass to trailing copies (R404). -/

namespace Sys2Proof.Machine

/-! ### Addresses and parts at issue -/

def sizeBytes : Size → Nat
  | .b1 => 1 | .b2 => 2 | .b4 => 4 | .b8 => 8 | .b16 => 16

/-- The address of group 0x6 (R257). -/
def memAddr (base : RV) (off : BitVec 14) : Word := base.w64 + off.signExtend 64

/-- The fault of a translation at issue; a lost home shows only when the access reaches it (R262, R265). -/
def State.issueFault (s : State) (p va n : Nat) (x : Xl) (need : Need) (atomic : Bool) : Option Nat :=
  match s.checkXl p va n x need atomic with
  | some 0x0C => none
  | f => f

/-- The translation of one part, from the TLB or, where `walk` holds, from the tables; a fault code otherwise. -/
def State.xlAt (s : State) (tk va n : Nat) (need : Need) (atomic walk : Bool) : Except Nat (Option Xl × State) :=
  if 2 ^ 55 ≤ va then .error 0x09
  else
    let p := pkgOfThr tk
    let c := (s.thr tk).ctx
    match s.tlbFind (ckOf tk) c va with
    | some x => match s.issueFault p va n x need atomic with | some e => .error e | none => .ok (some x, s)
    | none =>
      if !walk then .ok (none, s)
      else
        match s.walkE p (s.ctxOf tk).root va with
        | .error e => .error e
        | .ok x =>
          match s.issueFault p va n x need atomic with
          | some e => .error e
          | none => .ok (some x, s.tlbAdd (ckOf tk) c x)

/-- The parts of a global access. -/
def State.globParts (s : State) (tk : Nat) (need : Need) (atomic walk : Bool) :
    List (Nat × Nat) → Except Nat (List Piece × State)
  | [] => .ok ([], s)
  | (va, n) :: rest => do
    let (x, s) ← s.xlAt tk va n need atomic walk
    let (l, s) ← s.globParts tk need atomic walk rest
    .ok ({ va := va, n := n, xl := x } :: l, s)

/-- The parts of an access of `n` bytes at an address operand of a space. -/
def State.parts (s : State) (tk : Nat) (sp : Space) (a : Word) (n : Nat) (need : Need) (walk : Bool) :
    Except Nat (List Piece × State) :=
  let at_ (loc : Option Nat) : Except Nat (List Piece × State) :=
    match loc with
    | none => .error 0x09
    | some b => .ok ((splitVa a.toNat n).map fun q => { va := q.1, n := q.2, loc := some (b + (q.1 - a.toNat)) }, s)
  match sp with
  | .vault => at_ (s.vaultAt tk a n)
  | .store => at_ (s.storeAt tk a n)
  | .glob => s.globParts tk need false walk (splitVa a.toNat n)

/-- The home of some part is another package, by the translation held or the tables as they stand (R105). -/
def State.anyRemote (s : State) (tk : Nat) (ps : List Piece) : Bool :=
  ps.any fun q => q.loc.isNone && s.isRemote (pkgOfThr tk) (q.xl <|> s.walk (pkgOfThr tk) (s.ctxOf tk).root q.va) q.va

/-! ### Loads and atomics as they issue -/

/-- A load or atomic begins: it counts in LDC and perhaps FRC, and its destination is pending (R261, R271). -/
def State.beginAcc (s : State) (l : Lane) (a : Acc) (pn : BitVec 3) : Res :=
  let t := s.thr l.tk
  if ctrMax ≤ t.c.ldc then .park (.room 6)
  else if a.remote && decide (ctrMax ≤ t.c.frc) then .park (.room 9)
  else
    let (_, s) := s.pendNew l (.acc a) pn
    .ok (s.modThr l.tk fun t => { t with c := t.c.bump 1 0 (if a.remote then 1 else 0) })

/-- A trailing copy waits for what its leading copy takes (R404). -/
def State.follow (s : State) (l : Lane) (pn : BitVec 3 := 7) : Res := .ok (s.pendNew l .copied pn).2

/-- LD, LDACQ, LDVT and LDLS (R259, R261). -/
def loadBody (sp : Space) (m : MMod) (acq : Bool) (h : Hint) (off : BitVec 14) (s : State) (l : Lane) : Res :=
  let n := sizeBytes m.sz
  let a := memAddr l.a off
  let t := s.thr l.tk
  if acq ∧ a.toNat % n ≠ 0 then .fault { code := 0x07, addr := a }
  else
    match s.parts l.tk sp a n .rd t.pair.isSome with
    | .error c => .fault { code := c, addr := a }
    | .ok (ps, s) =>
      if t.trails && sp != .store then s.follow l
      else
        s.beginAcc l { space := sp, k := .load, size := n, sx := m.sx, acq := acq, hint := h, pieces := ps,
                       remote := s.anyRemote l.tk ps } 7

/-- The element addresses of LDGX (R266). -/
def gatherAddrs (n : Nat) (sx : Bool) (a : Word) (ix : Word) : List Nat :=
  (List.range (8 / n)).map fun k => (wrap 64 (a.toNat + toInt (8 * n) sx (elem ix (8 * n) k) * n))

/-- The first element that faults by its alignment or its translation, with its code. -/
def State.gatherFault (s : State) (tk n : Nat) (walk : Bool) : List Nat → Option (Nat × Nat)
  | [] => none
  | va :: rest =>
    if va % n ≠ 0 then some (0x07, va)
    else
      match s.xlAt tk va n .rd false walk with
      | .error c => some (c, va)
      | .ok _ => s.gatherFault tk n walk rest

/-- LDGX (R266). -/
def gatherBody (m : MMod) (h : Hint) (off : BitVec 14) (s : State) (l : Lane) : Res :=
  let n := sizeBytes m.sz
  let t := s.thr l.tk
  let vas := gatherAddrs n m.sx (memAddr l.a off) l.b.w64
  -- one element that faults now decides, and the lowest of those that the tables show then gives the record
  match (s.gatherFault l.tk n t.pair.isSome vas).bind fun _ => s.gatherFault l.tk n true vas with
  | some (c, va) => .fault { code := c, addr := BitVec.ofNat 64 va }
  | none =>
    match s.globParts l.tk .rd false t.pair.isSome (vas.map fun va => (va, n)) with
    | .error c => .fault { code := c }
    | .ok (ps, s) =>
      if t.trails then s.follow l
      else s.beginAcc l { space := .glob, k := .gather, size := n, hint := h, pieces := ps, remote := s.anyRemote l.tk ps } 7

/-! ### Stores as they issue (R244, R263, R264, R405) -/

/-- A store into the bytes of a tile of the issuing core (R264). -/
def State.tileFault (s : State) (ck : Nat) (ps : List Piece) : Option Nat :=
  let hit (t : Tile) : Bool :=
    t.defined && ps.any fun q => match q.loc with | some b => overlaps t.loc t.len b q.n | none => false
  let ts := ((s.core ck).tiles.map (·.2)).filter hit
  if ts.any fun t => !t.plane && (t.st == .filling || t.st == .draining) then some 0x0E
  else if ts.any fun t => t.plane then some 0x0F
  else none

/-- The parts of a store, each with its bytes. -/
def storeParts (a data : Nat) (ps : List Piece) : List SPiece :=
  ps.map fun q =>
    { va := q.va, n := q.n, loc := q.loc, xl := q.xl, data := data / 256 ^ ((q.va + 2 ^ 64 - a) % 2 ^ 64) % 256 ^ q.n,
      mask := 256 ^ q.n - 1 }

/-- An entry goes into the thread's store buffer if there is room (R244, R472). -/
def State.enterStore (s : State) (tk : Nat) (e : SbE) : Res :=
  let t := s.thr tk
  if sbMax ≤ t.sbUsed then .park (.room 4)
  else if ctrMax ≤ t.c.suc then .park (.room 7)
  else if e.remote && decide (ctrMax ≤ t.c.frc) then .park (.room 9)
  else
    let (u, s) := s.fresh
    .ok (s.modThr tk fun t => { t with sb := t.sb ++ [{ e with u := u }], c := t.c.bump 0 1 (if e.remote then 1 else 0) })

/-- A store of one copy of a pair: the leading copy holds it, both form its image (R405); any other thread buffers it. -/
def State.addStore (s : State) (tk : Nat) (e : SbE) (img : SigE) : Res :=
  let t := s.thr tk
  if t.pair.isNone || e.space == .store then s.enterStore tk e
  else if t.trails then .ok (s.addSig tk img)
  else if cmpMax ≤ s.cmpUsed (ckOf tk) then .park (.room 5)
  else
    let (u, s) := s.fresh
    .ok (s.addSig tk { img with held := some { e with u := u } })

/-- ST, STREL, STVT and STLS (R259, R263, R264). -/
def storeBody (sp : Space) (m : MMod) (rel : Bool) (h : Hint) (off : BitVec 14) (s : State) (l : Lane) : Res :=
  let n := sizeBytes m.sz
  let a := memAddr l.a off
  let lo := l.b.w64
  let data := (lo.toNat + (if n = 16 then 2 ^ 64 * (l.hi 1).toNat else 0)) % 256 ^ n
  if rel ∧ a.toNat % n ≠ 0 then .fault { code := 0x07, addr := a }
  else
    match s.parts l.tk sp a n .wr true with
    | .error c => .fault { code := c, addr := a }
    | .ok (ps, s) =>
      match if sp = .glob then none else s.tileFault (ckOf l.tk) ps with
      | some c => .fault { code := c, addr := a }
      | none =>
        s.addStore l.tk
          { u := 0, gid := l.i.g.gid, k := .store, rel := rel, hint := h, pieces := storeParts a.toNat data ps, space := sp,
            remote := s.anyRemote l.tk ps }
          ⟨a, BitVec.ofNat 64 data, if n = 16 then l.hi 1 else 0, n, if rel then 1 else 0, (s.thr l.tk).region,
            if sp = .vault then 1 else 0, none, (s.thr l.tk).nw, 0⟩

/-! ### Results of loads and atomics -/

/-- The bytes of a load, once all its parts have come. -/
def Acc.value (a : Acc) : Nat :=
  let base := (a.pieces.head?.map (·.va)).getD 0
  (a.pieces.map fun q => q.got.getD 0 * 256 ^ ((q.va + 2 ^ 64 - base) % 2 ^ 64)).sum

/-- What goes to the destination (R261, R266, R271). -/
def Acc.words (a : Acc) : List Word :=
  match a.k with
  | .gather => [mkElems (8 * a.size) fun k => ((a.pieces[k]?).bind (·.got)).getD 0]
  | .atomic .. => [BitVec.ofNat 64 a.value]
  | .load =>
    if a.size = 16 then [BitVec.ofNat 64 a.value, BitVec.ofNat 64 (a.value / 2 ^ 64)]
    else [if a.sx then BitVec.ofInt 64 (toInt (8 * a.size) true a.value) else BitVec.ofNat 64 a.value]

/-- The predicate an atomic writes. -/
def Acc.pred (a : Acc) : Option Bool :=
  match a.k with
  | .atomic op w32 sgn b c => (op.apply w32 sgn a.value b.toNat c.toNat).2
  | _ => none

/-- A mark of poison on registers; a mapped shared register carries its own, for every thread that reads it (R262, log 62). -/
def State.poisonRD (s : State) (tk : Nat) (d : RD) (addr : Nat) : State :=
  d.regs.foldl (fun s n =>
    match s.sharedOf tk n with
    | some k => s.setShReg tk k { s.shReg tk k with psn := some addr }
    | none => s.modThr tk fun t => { t with r := { t.r with psn := t.r.psn ||| regBit n, psnA := Tab.put t.r.psnA n.toNat addr } }) s

/-- Registers whose value awaits a message's verdict, with the load's address, should they come to be poisoned (R327, R328). -/
def State.provRD (s : State) (tk : Nat) (d : RD) (msg addr : Nat) : State :=
  d.regs.foldl (fun s n =>
    match s.sharedOf tk n with
    | some k => s.setShReg tk k { s.shReg tk k with prov := some (msg, addr) }
    | none => s.modThr tk fun t =>
      { t with r := { t.r with prov := Tab.put t.r.prov n.toNat msg, psnA := Tab.put t.r.psnA n.toNat addr } }) s

/-- A result of a word issued before the region head reaches the sketch as well (R381, R382). -/
def Sketch.take (k : Sketch) (q : Pend) (v : List Word) (p : Option Bool) (psn : Bool) : Sketch :=
  if q.nw < k.nw then
    let m := regsMask q.d.regs
    { k with g := (q.d.regs.zip v).foldl (fun g x => g.set x.1.toNat x.2 x.1.isLt) k.g,
             psn := if psn then k.psn ||| m else k.psn &&& ~~~m,
             p := match p with | some b => setPred k.p q.pn b | none => k.p }
  else k

/-- A pending operation ends with a result: it is written with its marks, and no longer pending. A return-stack entry has no mark of a
verdict (log 95). -/
def State.finishPend (s : State) (tk : Nat) (q : Pend) (v : List Word) (p : Option Bool) (psn : Option Nat)
    (prov : Option (Nat × Nat)) : State :=
  let s := s.writeRD tk q.d v
  let s := match psn with | some a => s.poisonRD tk q.d a | none => s
  let s := match prov with | some m => s.provRD tk q.d m.1 m.2 | none => s
  s.modThr tk fun t =>
    let t := match p with | some b => { t with r := { t.r with p := setPred t.r.p q.pn b } } | none => t
    let t := match t.reload with
      | some (u, _) => if u = q.u then { t with reload := some (u, some (v.headD 0, psn)), hold := false } else t
      | none => t
    (({ t with sketch := t.sketch.take q v p psn.isSome }.dropPend q.u).settle q.d q.pn q.also).forgetLost q.u

/-- A result that came from outside the thread, in its leading copy: it is written, and passes to the trailing copy. -/
def State.finishOutside (s : State) (tk : Nat) (q : Pend) (v : List Word) (p : Option Bool := none) (psn : Option Nat := none)
    (prov : Option (Nat × Nat) := none) : State :=
  (s.finishPend tk q v p psn prov).passLate tk { pos := q.nw, src := false, v := v, p := p, psn := psn }

/-- A load or atomic has performed whole (R261, R271). -/
def State.finishAcc (s : State) (tk : Nat) (q : Pend) (a : Acc) : State :=
  if ((s.thr tk).pendAt q.u).isNone then s.modThr tk fun t => { t with orph := t.orph.filter fun p => p.u != q.u }
  else
    let s := s.modThr tk fun t => { t with c := t.c.drop 1 0 (if a.remote then 1 else 0) }
    s.finishOutside tk q a.words a.pred a.psn (a.prov.map fun m => (m, (a.pieces.head?.map (·.va)).getD 0))

/-! ### Failures (R473) -/

/-- Number of the destination register a late record names (R376). -/
def Pend.regNo (q : Pend) : Nat := (q.d.regs.head?.map (·.toNat)).getD 0

/-- A pending operation fails: precisely, at its own word, where the thread has issued nothing since, or late. A restart that waits takes
the failures of the abandoned attempt with it, a kill every failure. -/
def State.failPend (s : State) (tk : Nat) (q : Pend) (code addr : Nat) : State :=
  let t := s.thr tk
  if t.killing || t.rst.any (fun k => decide (k.nw ≤ q.nw)) then s.endPend tk q.u
  else
  let mine : Bool := match t.reload with | some (u, _) => u == q.u | none => false
  let s1 := (s.modThr tk fun t => { t.undo q with reload := if mine then none else t.reload }).endPend tk q.u
  if t.st = .live ∧ t.rst.isNone ∧ (t.nw = q.nw + 1 ∨ mine = true) then
    s1.pairFault tk { code := code, addr := BitVec.ofNat 64 addr } q.pc q.hpc q.hdr q.word
  else
    s1.modThr tk fun t =>
      { t with late := t.late ++ [{ code := code, addr := addr, reg := q.regNo, load := true, pc := q.pc, word := q.word,
                                    hdr := q.hdr, nw := q.nw }] }

/-- A load, gather, wait or atomic fails after it has issued. -/
def State.failAcc (s : State) (tk u code addr : Nat) : State :=
  let t := s.thr tk
  match t.pendAt u with
  | none => s.modThr tk fun t => { t with orph := t.orph.filter fun p => p.u != u }
  | some q =>
    let rem := match q.k.acc? with | some a => a.remote | none => false
    let s := s.modThr tk fun t => { t with c := t.c.drop 1 0 (if rem then 1 else 0) }
    (s.passLate tk { pos := q.nw, src := false, fail := some (code, addr) }).failPend tk q code addr

/-- A part of an access fails: a gather fails once the elements before it have come, with the lowest element that failed (R266). -/
def State.failPart (s : State) (tk u code addr : Nat) : State :=
  let cut (a : Acc) : Acc :=
    let keep := a.pieces.takeWhile fun q => q.got.isSome || q.va != addr
    { a with pieces := keep, bad := some (code, addr) }
  match (s.thr tk).pendAt u with
  | some q =>
    match q.k with
    | .acc a =>
      if a.k ≠ .gather then s.failAcc tk u code addr
      else if (cut a).undone then s.modThr tk fun t => t.setPend { q with k := .acc (cut a) }
      else s.failAcc tk u code addr
    | _ => s.failAcc tk u code addr
  | none => s.failAcc tk u code addr

/-- Values and failures that a trailing copy waits for and that have come (R404). -/
def State.copyCheck (s : State) (tk : Nat) : State :=
  if (s.thr tk).trails then
    (s.thr tk).pend.foldl (fun s q =>
      if q.k = .copied then
        match s.passed tk q.nw with
        | some v =>
          let s := s.takePassed tk q.nw false
          match v.fail with
          | some (c, a) => s.failPend tk q c a
          | none => s.finishPend tk q v.v v.p v.psn none
        | none => s
      else s) s
  else s

/-! ### Failures of stores (R265) -/

/-- Entries that R237 holds behind the entries in `out`: a release, a later SO store, or a store to the same bytes. -/
def State.heldBehind (s : State) (out : List SbE) (e : SbE) : Bool :=
  out.any fun b => decide (b.u < e.u) && e.pieces.any fun q => b.pieces.any fun r =>
    (isSo q.xl && isSo r.xl) || (e.rel && !isUo q.xl && !isUo r.xl)
      || shareByte q.va q.n (e.place s q) r.va r.n (b.place s r)

/-- A failed entry with everything held behind it, in program order. -/
def State.discards (s : State) : List SbE → List SbE → List SbE
  | out, [] => out
  | out, e :: rest => if s.heldBehind out e then s.discards (out ++ [e]) rest else s.discards out rest

/-- Puts a late fault among the others, in program order. -/
def lateInsert (x : Late) : List Late → List Late
  | [] => [x]
  | y :: r => if !y.load && x.nw < y.nw then x :: y :: r else y :: lateInsert x r

/-- A store-buffer entry fails: it and what is held behind it are discarded, and each gives a fault of its own. -/
def State.failStore (s : State) (tk u code : Nat) : State :=
  let t := s.thr tk
  match t.sb.find? fun e => e.u == u with
  | none => s
  | some e =>
    let out := s.discards [e] (t.owed.filter fun x => decide (u < x.u))
    let gone (x : SbE) : Bool := out.any fun y => y.u == x.u
    let mine := t.sb.filter gone
    let frc := (mine.filter (·.remote)).length
    let mk (x : SbE) : Late :=
      { code := code, addr := (x.pieces.head?.map (·.va)).getD 0, load := false, nw := x.u }
    let s := s.modThr tk fun t =>
      Thread.feed { t with sb := t.sb.filter fun x => !gone x, c := t.c.drop 0 mine.length frc,
                           pair := t.pair.map fun p => { p with moving := p.moving.filter fun x => !gone x },
                           late := out.foldl (fun l x => lateInsert (mk x) l) t.late }
    s.killCheck tk

end Sys2Proof.Machine
end

