-- ==== Sys2Proof/Machine/Barriers.lean ====
section
/-! DEFINITION. Named barriers and the launch-wide barrier: 0x200 to 0x205 (R207 to R212). -/

namespace Sys2Proof.Machine

/-- A barrier of the context's allotment; a number at or above the count is fault 0x10 (R211). -/
def atBarrier (s : State) (l : Lane) (b : BitVec 10) (k : Nat → Res) : Res :=
  match s.barNo l.tk b.toNat with
  | none => .fault { code := 0x10 }
  | some n => k n

/-- BARINIT (R210, R211). -/
def execBarinit (f : Frame) (b : BitVec 10) (a : Src) (s : State) : Out :=
  word f { src := [(0, a)] }
    (fun s l =>
      atBarrier s l b fun k =>
        let n := l.a.w64.toNat
        let v := s.bar l.ck k
        if n = 0 ∨ 1024 < n ∨ v.count ≠ 0 ∨ v.wait ≠ 0 then .fault { code := 0x10 }
        else .ok (s.setBar l.ck k { n := n })) s

/-- BARARV: arrives; D is the arrived phase (R208). -/
def execBararv (f : Frame) (d : Dst) (b : BitVec 10) (s : State) : Out :=
  word f { dst := some d, rel := true, close := true }
    (fun s l =>
      atBarrier s l b fun k =>
        match s.barArrive l.tk k with
        | none => .fault { code := 0x10 }
        | some (s, ph) => .ok (s.put l (if ph then 1 else 0))) s

/-- BARWAIT: the wait takes place at the end of the clause (R209). -/
def execBarwait (f : Frame) (b : BitVec 10) (a : Src) (s : State) : Out :=
  word f { src := [(0, a)] }
    (fun s l => atBarrier s l b fun k => .ok (s.atEnd l.tk (.bar k (l.a.w64.getLsbD 0)))) s

/-- BARSYNC: arrives, then waits for the arrived phase. -/
def execBarsync (f : Frame) (b : BitVec 10) (s : State) : Out :=
  word f { rel := true, close := true }
    (fun s l =>
      atBarrier s l b fun k =>
        match s.barArrive l.tk k with
        | none => .fault { code := 0x10 }
        | some (s, ph) => .ok (s.atEnd l.tk (.bar k ph))) s

/-- The snapshot of BARQRY (R210). -/
def Bar.word (v : Bar) : Word :=
  BitVec.ofNat 64 (v.count % 2 ^ 11 + v.n % 2 ^ 11 * 2 ^ 11 + (if v.phi then 2 ^ 22 else 0)
    + ((List.range 1024).filter fun k => v.wait.getLsbD k).length * 2 ^ 23)

def execBarqry (f : Frame) (d : Dst) (b : BitVec 10) (s : State) : Out :=
  word f { dst := some d } (fun s l => atBarrier s l b fun k => .ok (s.put l (s.bar l.ck k).word)) s

/-- LBAR: arrives at the launch's barrier and then waits; D is the number of completions before this one (R212). A tandem pair
arrives once, by its leading copy, and the trailing copy receives the number that copy received (R404). -/
def lbarBody (s : State) (l : Lane) : Res :=
  match (s.thr l.tk).launch with
  | none => .fault { code := 0x10 }
  | some lk =>
    match Tab.look s.launches lk with
    | none => .fault { code := 0x10 }
    | some la =>
      let t := s.thr l.tk
      let go (s : State) (n : Nat) : Res := .ok ((s.put l (BitVec.ofNat 64 (n % 2 ^ 32))).atEnd l.tk (.lbar n))
      if t.trails then
        match (s.pairSrc l.tk).bind fun v => v.v.head? with
        | some n => go s n.toNat
        | none => .park .copies
      else if t.leads && !s.inqRoom l.tk then .park .copies
      else
        let s := s.pass l.tk { pos := t.nw, src := true, v := [BitVec.ofNat 64 la.lbarN] }
        go ((s.setLaunch lk { la with lbarArr := la.lbarArr ++ [l.tk] }).lbarCheck lk) la.lbarN

def execLbar (f : Frame) (d : Dst) (s : State) : Out :=
  word f { dst := some d, rel := true, close := true } lbarBody s

end Sys2Proof.Machine
end

