-- ==== Sys2Proof/Machine/Queues.lean ====
section
/-! DEFINITION. The queues between stages: QPUSH and QPOP (R100, R103). -/

namespace Sys2Proof.Machine

/-- A queue of a thread's launch on the thread's die: the launch's key, the thread's stage, the queue and the launch's part
there. -/
def State.queueOf (s : State) (tk q : Nat) : Option (Nat × StageR × QueueR × LDie) := do
  let t := s.thr tk
  let lk ← t.launch
  let l ← Tab.look s.launches lk
  let g ← l.stages[t.stage]?
  let r ← l.queues[q]?
  let d ← l.dies.find? fun d => d.dk == dkOf (ckOf tk)
  some (lk, g, r, d)

/-- The absolute place of a queue's control block: within the launch's span, or in a system-privileged context within the
vault (R226). -/
def State.queueLoc (s : State) (lk : Nat) (r : QueueR) (d : LDie) : Nat :=
  match Tab.look s.launches lk with
  | none => 0
  | some l =>
    let base := if (s.ctx (pkgOfDie d.dk) l.ctx).attr.getLsbD 0 then 0 else ((Tab.look d.vs r.vault).map (·.1)).getD 0
    vaultLoc d.dk r.vault (base + r.off)

/-- A place in the control block of a live launch's queue, where a program's store is ignored (R100). -/
def State.inControl (s : State) (loc : Nat) : Bool :=
  s.launches.any fun e => e.2.dies.any fun d => d.answered && e.2.queues.any fun r =>
    let b := s.queueLoc e.1 r d
    decide (b ≤ loc) && decide (loc < b + 128)

/-- Sets a queue's counts, which its control block shows. -/
def State.setCounts (s : State) (lk q : Nat) (r : QueueR) (d : LDie) (head tail : Nat) : State :=
  let loc := s.queueLoc lk r d
  let s := s.modLaunch lk fun l => l.onDie d.dk fun d => { d with qs := Tab.put d.qs q (head, tail) }
  (s.write loc 8 head).write (loc + 8) 8 tail

/-- Threads of a launch on a die with an operation on a queue that has not performed, oldest first. -/
def State.queueWaits (s : State) (lk dk q : Nat) (push : Bool) : List (Nat × Pend) :=
  let l := (s.launchThreads lk).filter fun e => dkOf (ckOf e.1) == dk && e.2.st != .saved
  let ps := l.flatMap fun e => (e.2.pend.filter fun p =>
    match p.k with
    | .qpush j _ => push && j == q
    | .qpop j _ => !push && j == q
    | _ => false).map fun p => (e.1, p)
  ps.foldl (fun acc x => (acc.takeWhile fun y => decide (y.2.u < x.2.u)) ++ x :: (acc.dropWhile fun y => decide (y.2.u < x.2.u))) []

/-- The oldest waiting push performs if the queue has room. -/
def State.pushOne (s : State) (lk q : Nat) (r : QueueR) (d : LDie) (head tail at_ : Nat) : List (Nat × Pend) → Option State
  | (tk, p) :: _ =>
    match p.k with
    | .qpush _ ws =>
      if tail - head < r.depth then
        let s := s.writeBytes at_ (ws.flatMap fun w => leBytes 8 w.toNat)
        some ((s.setCounts lk q r d head (tail + 1)).endPend tk p.u)
      else none
    | _ => none
  | [] => none

/-- Serves a queue while an operation can perform; `n` bounds the performances. -/
def State.queueServe (s : State) (lk dk q : Nat) : Nat → State
  | 0 => s
  | n + 1 =>
    match Tab.look s.launches lk with
    | none => s
    | some l =>
      match l.queues[q]?, l.dies.find? fun d => d.dk == dk with
      | some r, some d =>
        let (head, tail) := Tab.getOr d.qs q (0, 0)
        let loc := s.queueLoc lk r d
        let slot (k : Nat) : Nat := loc + 128 + k % r.depth * r.recb
        match s.queueWaits lk dk q false, s.queueWaits lk dk q true with
        | (tk, p) :: _, ps =>
          if head < tail then
            let ws := (List.range (r.recb / 8)).map fun k => BitVec.ofNat 64 (s.read (slot head + 8 * k) 8)
            ((s.setCounts lk q r d (head + 1) tail).finishOutside tk p ws (some true)).queueServe lk dk q n
          else s.pushOne lk q r d head tail (slot tail) ps |>.elim s fun s => s.queueServe lk dk q n
        | [], ps => s.pushOne lk q r d head tail (slot tail) ps |>.elim s fun s => s.queueServe lk dk q n
      | _, _ => s

/-- Serves every operation of a queue that can perform. -/
def State.queueCheck (s : State) (lk dk q : Nat) : State :=
  s.queueServe lk dk q ((s.queueWaits lk dk q true).length + (s.queueWaits lk dk q false).length)

/-- The registers of a record that starts at `g`, as far as g63. -/
def runRegs (g : BitVec 6) (n : Nat) : List (BitVec 6) := (List.range (min n (64 - g.toNat))).map fun k => g + BitVec.ofNat 6 k

/-- The thread that stands at the word. -/
def State.lead (s : State) : Nat := ((s.iss.bind fun i => i.g.todo.head?)).getD 0

/-- Words of a record of queue `q` for the thread that stands at the word; 1 where it has no such queue. -/
def State.recWords (s : State) (q : Nat) : Nat := ((s.queueOf s.lead q).map fun x => x.2.2.1.recb / 8).getD 1

/-- QPUSH: the record's words are read, and the thread is blocked until the push has performed (R103). -/
def qpushBody (ga : BitVec 6) (q : Nat) (s : State) (l : Lane) : Res :=
  match s.queueOf l.tk q with
  | none => .fault { code := 0x11 }
  | some (lk, g, r, d) =>
    let n := r.recb / 8
    if g.outq ≠ q ∨ 64 < ga.toNat + n ∨ (s.thr l.tk).retired then .fault { code := 0x11 }
    else if (s.thr l.tk).trails then .ok s
    else
      let ws := (runRegs ga n).map fun k => s.before l k
      let (_, s) := s.pendAs l (.qpush q ws) .none 7
      .ok (s.queueCheck lk d.dk q)

def execQpush (f : Frame) (ga : BitVec 6) (lu : Bool) (q : BitVec 3) (s : State) : Out :=
  word f { src := [(0, ⟨.reg ga, lu⟩)], rd := runRegs ga (s.recWords q.toNat), rel := true, close := true, feat := some 5 } (qpushBody ga q.toNat) s

/-- QPOP: the record's registers are pending, and the thread is blocked, until the pop has performed. -/
def qpopBody (gd : BitVec 6) (q : Nat) (pn : BitVec 3) (s : State) (l : Lane) : Res :=
  match s.queueOf l.tk q with
  | none => .fault { code := 0x11 }
  | some (lk, g, r, d) =>
    let n := r.recb / 8
    if g.inq ≠ q ∨ 64 < gd.toNat + n ∨ (s.thr l.tk).retired then .fault { code := 0x11 }
    else if (s.thr l.tk).trails then .ok (s.pendAs l .copied (.run gd n) pn).2
    else
      let (_, s) := s.pendAs l (.qpop q n) (.run gd n) pn
      .ok (s.queueCheck lk d.dk q)

def execQpop (f : Frame) (gd : BitVec 6) (q : BitVec 3) (pn : BitVec 3) (s : State) : Out :=
  word f { wr := runRegs gd (s.recWords q.toNat), pw := predBit pn, vl := true, close := true, feat := some 5 }
    (qpopBody gd q.toNat pn) s

end Sys2Proof.Machine
end

