-- ==== Sys2Proof/Machine/Touch.lean ====
section
/-! DEFINITION. What a line lets one part of an access do now (R336, R341, R345), the request timer (R343), and uncorrectable
errors of the package's SRAM (R414, R415). -/

namespace Sys2Proof.Machine

/-- What a part of an access comes to now: it waits, fails with a code, or may perform at a place. A wait says whether a
request to another package is out for its line, and whether it has been sent now. -/
inductive Touch where
  | wait (s : State) (asked : Option Bool)
  | fail (code : Nat)
  | ok (s : State) (pa : Nat) (psn : Bool) (unver : Option Nat)

/-- A part of `n` bytes at a physical address, for the access `u` of package `p`. Of a line whose Data is still coming, a load takes
bytes that have come (R327). -/
def State.touchPa (s : State) (p u pa : Nat) (need : LineNeed) (atomic : Bool) (n : Nat := 1) : Touch :=
  match s.paFault p pa atomic with
  | some c => .fail c
  | none =>
    if isAperture pa then .ok s pa false none
    else
      let line := lineOf pa
      let a := s.aline p line
      if a.grants need && decide (pa % 128 + n ≤ a.upto) then .ok s pa a.psn a.unver
      else
        let s1 := s.askLine p u line need
        let b := s1.aline p line
        let remote := homeOf pa != p
        let out := b.req.isSome || (b.put.isSome && b.putBy == some u)
        .wait s1 (if remote && out then some (a.req.isNone && !(a.put.isSome && a.putBy == some u)) else none)

/-- A part of a global access, at its virtual address. -/
def State.touch (s : State) (p u : Nat) (x : Xl) (va : Nat) (need : LineNeed) (atomic : Bool := false)
    (engineWrite : Bool := false) (n : Nat := 1) : Touch :=
  match s.paOf x va engineWrite with
  | none => .fail 0x08
  | some pa => s.touchPa p u pa need atomic n

/-- When an access's timer started: at the request it waits for. -/
def timerFrom (now : Nat) (asked : Option Bool) (since : Option Nat) : Option Nat :=
  match asked with
  | none => since
  | some true => some now
  | some false => since <|> some now

/-! ### Uncorrectable SRAM errors (R414 to R416) -/

/-- The unit and the word of an error in a vault or a local store. -/
def State.sramUnit (s : State) (loc : Nat) : Nat × Nat × Nat :=
  if 2 ^ 52 ≤ loc then
    let ck := (loc - 2 ^ 52) / 2 ^ 20
    (2, unitId 0 (pkgOfCore ck) (dieIx (dkOf ck)) (s.phys ck) 0, (loc - 2 ^ 52) % 2 ^ 20 / 8)
  else (3, unitId 8 (homeOf loc) (loc % 2 ^ 31 / 2 ^ 29) 0 0, loc % 2 ^ 29 / 8)

/-- The record of an error in a vault or a local store, of class 1 where it is corrected. -/
def State.sramError (s : State) (loc : Nat) (cls : Nat := 2) : State :=
  let (src, unit, ix) := s.sramUnit loc
  let p := if 2 ^ 52 ≤ loc then pkgOfCore ((loc - 2 ^ 52) / 2 ^ 20) else homeOf loc
  s.errRecord p cls src unit 0 0 [ix]

/-- An error in a cached line: a clean line is dropped, a dirty one is poisoned where it is (R415). Answers whether the
access meets a poisoned line. -/
def State.cacheError (s : State) (p ck line : Nat) : Bool × State :=
  let a := s.aline p line
  let unit := unitId 0 p (dieIx (dkOf ck)) (s.phys ck) 0
  match a.st with
  | .S | .E =>
    (false, (s.setALine p line { a with st := .I, psn := false }).errRecord p 1 4 unit 0 (line * 128) [line % 16384])
  | .M | .O => (true, (s.setALine p line { a with psn := true }).errRecord p 2 4 unit 0 (line * 128) [line % 16384])
  | _ => (a.psn, s)

end Sys2Proof.Machine
end

