-- ==== Sys2Proof/Machine/MemoryEvents.lean ====
section
/-! DEFINITION. The performance of threads' accesses: loads, gathers and atomics (R236, R244, R260 to R262, R271, R273),
WAITA (R122), store-buffer entries (R244, R248, R260, R265, R297), and their timers (R343). -/

namespace Sys2Proof.Machine

/-! ### Accesses of one instruction that share bytes perform together (R260, R273) -/

/-- A part of an access of some thread: the thread, the access, the part's number, its bytes and its place. -/
structure PartRef where
  tk : Nat
  u : Nat
  ix : Nat
  va : Nat
  n : Nat
  loc : Option Nat
  deriving DecidableEq, Repr

def PartRef.meets (a b : PartRef) : Bool := shareByte a.va a.n a.loc b.va b.n b.loc

/-- The parts connected with `l` by shared bytes. -/
def connected (all : List PartRef) : Nat → List PartRef → List PartRef
  | 0, l => l
  | n + 1, l => connected all n (all.filter fun x => l.contains x || l.any fun y => y.meets x)

/-- Parts in ascending slot order. -/
def bySlot (l : List PartRef) : List PartRef :=
  l.foldl (fun acc x =>
    (acc.takeWhile fun y => decide (y.tk ≤ x.tk)) ++ x :: (acc.dropWhile fun y => decide (y.tk ≤ x.tk))) []

/-- Some member of the instruction that made the accesses `gid` has still to issue it. -/
def State.gidOpen (s : State) (ck gid : Nat) : Bool :=
  let live (g : Gang) : Bool := g.gid == gid && !g.todo.isEmpty
  (match s.iss with | some i => live i.g | none => false)
    || [0, 1].any fun h => let p := s.pipe ck h
        (match p.gang with | some g => live g | none => false) || p.parked.any live || p.excess.any live

/-- Threads' accesses of one instruction. -/
def State.gidPends (s : State) (ck gid : Nat) : List (Nat × Pend) :=
  (s.threads.filter fun e => ckOf e.1 == ck).flatMap fun e =>
    ((e.2.pend ++ e.2.orph).filter fun q => q.gid == gid).map fun q => (e.1, q)

def State.modPend (s : State) (tk u : Nat) (f : Pend → Pend) : State :=
  s.modThr tk fun t => { t with pend := t.pend.map fun q => if q.u = u then f q else q,
                                orph := t.orph.map fun q => if q.u = u then f q else q }

def State.findPend (s : State) (tk u : Nat) : Option Pend :=
  let t := s.thr tk
  (t.pend ++ t.orph).find? fun q => q.u == u

/-- The access of a pending operation, changed. -/
def PK.mapAcc (k : PK) (f : Acc → Acc) : PK :=
  match k with
  | .acc a => .acc (f a)
  | .waita a c d => .waita (f a) c d
  | .tldb a g => .tldb (f a) g
  | x => x

def State.modAcc (s : State) (tk u : Nat) (f : Acc → Acc) : State :=
  s.modPend tk u fun q => { q with k := q.k.mapAcc f }

/-- What a load-like access needs of a page. -/
def AccK.need : AccK → Need
  | .atomic .. => .rw
  | _ => .rd

def AccK.isAtomic : AccK → Bool
  | .atomic .. => true
  | _ => false

/-- Replaces one element of a list. -/
def setAt {α : Type} (l : List α) (k : Nat) (x : α) : List α := l.zipIdx.map fun e => if e.2 = k then x else e.1

/-- Translates the parts of an access that are not translated yet; the first failure is the answer's. -/
def State.transPieces (s : State) (tk : Nat) (k : AccK) : List Piece → List Piece × Option (Nat × Nat) × State
  | [] => ([], none, s)
  | q :: rest =>
    let need := k.need
    if q.loc.isSome ∨ q.xl.isSome then
      let (l, e, s) := s.transPieces tk k rest
      (q :: l, e, s)
    else
      match s.xlAt tk q.va q.n need k.isAtomic true with
      | .error c =>
        let (l, _, s) := s.transPieces tk k rest
        (q :: l, some (c, q.va), s)
      | .ok (x, s) =>
        let (l, e, s) := s.transPieces tk k rest
        ({ q with xl := x } :: l, e, s)

/-- Translates an access (R233, R473): its failure, if any. -/
def State.transAcc (s : State) (tk : Nat) (q : Pend) : Option (Nat × Nat) × State :=
  match q.k.acc? with
  | none => (none, s)
  | some a =>
    let (ps, e, s) := s.transPieces tk a.k a.pieces
    (e, s.modAcc tk q.u fun a => { a with pieces := ps })

/-! ### A part of a load or an atomic -/

/-- What the part comes to now. -/
def State.touchPiece (s : State) (tk u : Nat) (a : Acc) (q : Piece) : Touch :=
  match q.loc, q.xl with
  | some b, _ => .ok s b false none
  | none, none => .wait s none
  | none, some x => s.touch (pkgOfThr tk) u x q.va (if a.k.isAtomic then .wr else .rd) a.k.isAtomic false q.n

/-- The part performs at `pa` (R236, R262, R271, R327). -/
def State.performPiece (s : State) (tk u ix : Nat) (a : Acc) (q : Piece) (pa : Nat) (psn : Bool) (unver : Option Nat) : State :=
  let p := pkgOfThr tk
  let (v, s) := s.readFree pa q.n
  let s := match a.k with
    | .atomic op w32 sgn b c => (s.write pa q.n (op.apply w32 sgn v b.toNat c.toNat).1).dirtyLine p (lineOf pa)
    | _ => s
  s.modAcc tk u fun a =>
    { a with pieces := setAt a.pieces ix { q with got := some v }, since := none,
             psn := if psn then a.psn <|> some (match a.k with | .gather => q.va | _ => (a.pieces.head?.map (·.va)).getD 0)
                    else a.psn,
             prov := unver <|> a.prov }

/-- Bits of a tile element as the pieces of a TLDB brought them (R295). -/
def pieceByte (ps : List Piece) (b : Nat) : Nat :=
  (ps.findSome? fun q =>
    match q.loc, q.got with
    | some l, some v => if l ≤ b ∧ b < l + q.n then some (v / 256 ^ (b - l) % 256) else none
    | _, _ => none).getD 0

/-- What a TLDB keeps of its tile: format and layout, rows and columns, the element's row and column, how many elements, and
the tile's location. -/
def tldbGeo (t : Tile) (r c e : Nat) : List (Nat × Nat) :=
  [(t.fmt, if t.plane then 1 else 0), (t.rows, t.cols), (r, c), (e, t.loc)]

/-- The register image of a TLDB's elements. -/
def tldbImage (geo : List (Nat × Nat)) (ps : List Piece) : Nat :=
  match geo with
  | [(fmt, pl), (rows, cols), (r, c), (e, loc)] =>
    let t : Tile := { fmt := fmt, plane := pl = 1, rows := rows, cols := cols, loc := loc }
    ((List.range e).map fun k => t.getBy (pieceByte ps) r (c + k) * 2 ^ (codeWidth fmt * k)).sum
  | _ => 0

/-- An access whose parts have all performed ends. -/
def State.settleAcc (s : State) (tk u : Nat) : State :=
  match s.findPend tk u with
  | none => s
  | some q =>
    match q.k with
    | .acc a =>
      if a.undone then s
      else match a.bad with
        | some (c, va) => s.failAcc tk u c va
        | none => s.finishAcc tk q a
    | .tldb a geo =>
      if a.undone then s
      else
        let v := tldbImage geo a.pieces
        let s := s.modThr tk fun t => { t with c := t.c.drop 1 0 0 }
        s.finishPend tk q [BitVec.ofNat 64 v, BitVec.ofNat 64 (v / 2 ^ 64)] none a.psn none
    | _ => s

/-- An access fails that meets a poisoned line: an LDACQ, a WAITA or an atomic (R262, R271). -/
def Acc.refusesPoison (a : Acc) : Bool := a.acq || a.k.isAtomic

/-- Whether all parts of a group can perform; otherwise the state with what they ask for, or the failure of one of them. -/
inductive Ready where
  | yes (s : State)
  | no (s : State)
  | fail (s : State) (tk u code va : Nat)

/-- Looks at the parts of a group of loads or atomics, in order. -/
def State.groupReady (s : State) (ok : Bool) : List PartRef → Ready
  | [] => if ok then .yes s else .no s
  | g :: rest =>
    match (s.findPend g.tk g.u).bind fun q => q.k.acc? with
    | none => s.groupReady ok rest
    | some a =>
      match a.pieces[g.ix]? with
      | none => s.groupReady ok rest
      | some q =>
        if !s.inOrder g.tk g.u q.va q.n (q.at s) q.xl a.rel then s.groupReady false rest
        else
          match s.touchPiece g.tk g.u a q with
          | .fail c =>
            .fail s g.tk g.u (if c = 0x0A then s.refusedCode (pkgOfThr g.tk) (s.thr g.tk).ctx else c) q.va
          | .wait s1 asked =>
            (s1.modAcc g.tk g.u fun a => { a with since := timerFrom s1.clock asked a.since }).groupReady false rest
          | .ok s1 _ psn unver =>
            if psn && a.refusesPoison then .fail s1 g.tk g.u 0x0D q.va
            else if unver.isSome && a.prov.isSome && a.prov != unver then s1.groupReady false rest
            else if unver.isSome && a.refusesPoison then s1.groupReady false rest
            else s1.groupReady ok rest

/-- The caches take what a part has read or written, once its whole group has performed (R260, R269, R273). -/
def State.useLine (s : State) (g : PartRef) : State :=
  match (s.findPend g.tk g.u).bind fun q => q.k.acc? with
  | none => s
  | some a =>
    match a.pieces[g.ix]?.bind fun q => q.xl.bind fun x => (s.paOf x q.va).map fun pa => (x, pa, q.got.isSome) with
    | some (x, pa, true) => if isAperture pa then s else s.l1Use (ckOf g.tk) (lineOf pa) a.hint x a.k.isAtomic
    | _ => s

/-- A part of a load, gather or atomic that needs a line of another package asks for it; its timer starts then (R343). -/
def State.askPart (s : State) (tk u : Nat) (q : Piece) : State :=
  match (s.findPend tk u).bind fun q => q.k.acc? with
  | none => s
  | some a =>
    if q.got.isSome || q.xl.isNone || !s.inOrder tk u q.va q.n (q.at s) q.xl a.rel then s
    else
      match if a.k.isAtomic then Fwd.no else s.forward tk u q.va q.n (q.at s) q.xl a.space with
      | .no =>
        match s.touchPiece tk u a q with
        | .wait s1 (some x) => s1.modAcc tk u fun a => { a with since := timerFrom s1.clock (some x) a.since }
        | _ => s
      | _ => s

/-- Accesses whose translation is at hand ask for their lines in the cycle in which they issue (R461; log 98). -/
def State.askAll (s : State) : State :=
  s.threads.foldl (fun s e =>
    e.2.pend.foldl (fun s q =>
      match q.k with
      | .acc a => a.pieces.foldl (fun s x => s.askPart e.1 q.u x) s
      | _ => s) s) s

/-- Every part of the group performs, in slot order. -/
def State.performGroup (s : State) (l : List PartRef) : State :=
  let s := l.foldl (fun s g =>
    match (s.findPend g.tk g.u).bind fun q => q.k.acc? with
    | none => s
    | some a =>
      match a.pieces[g.ix]? with
      | none => s
      | some q =>
        match s.touchPiece g.tk g.u a q with
        | .ok s1 pa psn unver => s1.performPiece g.tk g.u g.ix a q pa psn unver
        | _ => s) s
  let s := l.foldl (fun s g => s.useLine g) s
  l.foldl (fun s g => s.settleAcc g.tk g.u) s

/-- The parts of one instruction's loads that have not performed. -/
def State.loadParts (s : State) (ck gid : Nat) : List PartRef :=
  (s.gidPends ck gid).flatMap fun e =>
    match e.2.k with
    | .acc a => (a.pieces.zipIdx.filter fun x => x.1.got.isNone).map fun x => ⟨e.1, e.2.u, x.2, x.1.va, x.1.n, x.1.at s⟩
    | _ => []

/-- An error that its code corrects is recorded, and changes nothing (R414). -/
def State.pieceFixed (s : State) (tk : Nat) (q : Piece) : State :=
  match q.loc <|> q.at s with
  | none => s
  | some pa =>
    if q.loc.isSome || isAperture pa then s.sramError pa 1
    else
      let ck := ckOf tk
      s.errRecord (pkgOfThr tk) 1 4 (unitId 0 (pkgOfThr tk) (dieIx (dkOf ck)) (s.phys ck) 0) 0 (lineOf pa * 128) [lineOf pa % 16384]

/-- An uncorrectable error met by the part: what becomes of it before it performs (R414, R415). -/
def State.pieceEcc (s : State) (tk u : Nat) (a : Acc) (q : Piece) : Bool × State :=
  match q.loc with
  | some b =>
    (false, (s.sramError b).modAcc tk u fun x => { x with psn := x.psn <|> (a.pieces.head?.map (·.va)) })
  | none =>
    match q.at s with
    | none => (false, s)
    | some pa =>
      if isAperture pa then (false, (s.sramError pa).modAcc tk u fun x => { x with psn := x.psn <|> (a.pieces.head?.map (·.va)) })
      else s.cacheError (pkgOfThr tk) (ckOf tk) (lineOf pa)

/-- LOAD_RETURN: one part of a load, gather, TLDB or atomic performs, with the parts of the same instruction that share bytes
with it; `name` is the access's name plus the part's number. `ecc` is an error that the part meets in SRAM. -/
def execLoadReturn (tk name : Nat) (ecc : Upset) (s : State) : Out :=
  let u := name / 16 * 16
  let ix := name % 16
  .next <|
    match s.findPend tk u with
    | none => s
    | some p0 =>
      match p0.k with
      | .acc _ | .tldb .. =>
        let ck := ckOf tk
        if s.gidOpen ck p0.gid then s
        else
          let s := ((s.gidPends ck p0.gid).filter fun e => e.1 != tk || e.2.u != u).foldl (fun s e => (s.transAcc e.1 e.2).2) s
          match s.transAcc tk p0 with
          | (some (c, va), s) => s.failPart tk u c va
          | (none, s) =>
            match ((s.findPend tk u).bind fun q => q.k.acc?) with
            | none => s
            | some a =>
              match a.pieces[ix]? with
              | none => s
              | some q =>
                if q.got.isSome then s
                else
                  let fw := if a.k.isAtomic then Fwd.no else s.forward tk u q.va q.n (q.at s) q.xl a.space
                  match fw with
                  | .wait => s
                  | .hit v =>
                    if !s.inOrderF tk u q.xl then s
                    else (s.modAcc tk u fun a => { a with pieces := setAt a.pieces ix { q with got := some v } }).settleAcc tk u
                  | .no =>
                    let (bad, s) := match ecc with
                      | .none => (false, s)
                      | .fixed => (false, s.pieceFixed tk q)
                      | .lost => s.pieceEcc tk u a q
                    if bad then s.failPart tk u 0x0D q.va
                    else
                      let me : PartRef := ⟨tk, u, ix, q.va, q.n, q.at s⟩
                      let l := match p0.k with
                        | .acc _ =>
                          let all := (s.loadParts ck p0.gid).filter fun x =>
                            x = me || !((match (s.findPend x.tk x.u).bind fun q => q.k.acc? with
                              | some b => if b.k.isAtomic then Fwd.no else
                                  match b.pieces[x.ix]? with
                                  | some y => s.forward x.tk x.u y.va y.n (y.at s) y.xl b.space
                                  | none => .no
                              | none => .no) matches .hit _)
                          bySlot (connected all all.length [me])
                        | _ => [me]
                      match s.groupReady true l with
                      | .no s => s
                      | .fail s k v c va => s.failPart k v c va
                      | .yes s => s.performGroup l
      | _ => s

/-! ### WAITA (R122) -/

/-- The watched word, read with an acquire: what it says, or why it does not perform now. -/
def State.waitaRead (s : State) (tk : Nat) (q : Pend) (done : Word → Bool) : State :=
  match s.transAcc tk q with
  | (some (c, va), s) => s.failAcc tk q.u c va
  | (none, s) =>
    match (s.findPend tk q.u).bind fun q => q.k.acc? with
    | none => s
    | some a =>
      match a.pieces with
      | [x] =>
        let finish (s : State) (v : Nat) : State :=
          if done (BitVec.ofNat 64 v) then
            let s := s.modThr tk fun t => { t with c := t.c.drop 1 0 (if a.remote then 1 else 0) }
            s.finishOutside tk q [BitVec.ofNat 64 v]
          else s
        match s.forward tk q.u x.va x.n (x.at s) x.xl .glob with
        | .wait => s
        | .hit v => if s.inOrderF tk q.u x.xl then finish s v else s
        | .no =>
          if !s.inOrder tk q.u x.va x.n (x.at s) x.xl false then s
          else
            match s.touchPiece tk q.u a x with
            | .fail c => s.failAcc tk q.u c x.va
            | .wait s asked => s.modAcc tk q.u fun a => { a with since := timerFrom s.clock asked a.since }
            | .ok s pa psn unver =>
              if psn then s.failAcc tk q.u 0x0D x.va
              else if unver.isSome then s
              else finish (s.modAcc tk q.u fun a => { a with since := none }) (s.read pa 8)
      | _ => s

/-- WAITA_WAKE: the word differs from the comparand. -/
def execWaitaWake (tk u : Nat) (s : State) : Out :=
  .next <|
    match (s.thr tk).pendAt u with
    | some q =>
      match q.k with
      | .waita _ cmp _ => if (s.thr tk).st = .saved then s else s.waitaRead tk q fun v => v != cmp
      | _ => s
    | none => s

/-- WAITA_TIMEOUT: the cycles have passed. -/
def execWaitaTimeout (tk u : Nat) (s : State) : Out :=
  .next <|
    match (s.thr tk).pendAt u with
    | some q =>
      match q.k with
      | .waita _ _ (some d) => if d.2 ≤ s.time (pkgOfThr tk) ∧ (s.thr tk).st ≠ .saved then s.waitaRead tk q fun _ => true else s
      | _ => s
    | none => s

/-! ### Store-buffer entries -/

def Thread.entry (t : Thread) (u : Nat) : Option SbE := t.sb.find? fun e => e.u == u

def State.modEntry (s : State) (tk u : Nat) (f : SbE → SbE) : State :=
  s.modThr tk fun t => { t with sb := t.sb.map fun e => if e.u = u then f e else e }

/-- SHADOW's descriptor store is no store of R105: its gang is held instead. -/
def StK.inSuc : StK → Bool
  | .shadow => false
  | _ => true

/-- An entry has performed and leaves the buffer. -/
def State.endEntry (s : State) (tk : Nat) (e : SbE) : State :=
  let s := s.modThr tk fun t =>
    Thread.feed
      { t with
        sb := t.sb.filter fun x => x.u != e.u
        hold := if e.k = .shadow then false else t.hold
        c := t.c.drop 0 (if e.k.inSuc then 1 else 0) (if e.remote then 1 else 0) }
  s.killCheck tk

/-- What a store's part needs of its line: a reduction on an SO page is taken as a store (R248). -/
def SbE.need (e : SbE) (q : SPiece) : LineNeed :=
  match e.k with
  | .red b => if isSo q.xl then .wr else .red b
  | _ => .wr

/-- What a part of an entry comes to now. Once one part has performed no other can fail: the agent keeps its lines (R265). -/
def State.touchSPiece (s : State) (tk : Nat) (e : SbE) (q : SPiece) : Touch :=
  let p := pkgOfThr tk
  if e.begun then match e.place s q with | some pa => .ok s pa false none | none => .wait s none
  else match e.k with
  | .publish | .shadow => s.touchPa p e.u (q.loc.getD 0) .wr false
  | .engine clr =>
    match q.xl with
    | some x =>
      match s.touch p e.u x q.va .wr false true with
      | .ok s pa psn unver => .ok s pa (psn && !clr) unver
      | t => t
    | none => .wait s none
  | _ =>
    match q.loc, q.xl with
    | some b, _ => .ok s b false none
    | none, none => .wait s none
    | none, some x => s.touch p e.u x q.va (e.need q) (match e.k with | .red _ => true | _ => false)

/-- Whether the lines of all parts of an entry let it perform (R265: a store that fails performs none of its bytes). -/
def State.entryReady (s : State) (tk : Nat) (e : SbE) (ok : Bool) : List SPiece → Ready
  | [] => if ok then .yes s else .no s
  | q :: rest =>
    if q.done then s.entryReady tk e ok rest
    else
      match s.touchSPiece tk e q with
      | .fail c => .fail s tk e.u (if c = 0x0A then s.refusedCode (pkgOfThr tk) (s.thr tk).ctx else c) q.va
      | .wait s1 asked =>
        (s1.modEntry tk e.u fun e => { e with since := timerFrom s1.clock asked e.since }).entryReady tk e false rest
      | .ok s1 _ psn _ => if psn then .fail s1 tk e.u 0x0D q.va else s1.entryReady tk e ok rest

/-- Writes a store's bytes, but for those of a queue's control block (R100). -/
def State.storeBytes (s : State) (pa n data mask : Nat) : State :=
  if isAperture pa && decide (pa < 2 ^ 52) then
    let mask := (List.range n).foldl (fun m k => if s.inControl (pa + k) then m else m + mask / 256 ^ k % 256 * 256 ^ k) 0
    s.writeMask pa n data mask
  else s.writeMask pa n data mask

/-- The last byte of a line that a pair's copy writes whole in a system context clears the line's poison (R314, R347). -/
def State.wipeHeld (s : State) (tk : Nat) (e : SbE) (line : Nat) : State :=
  let t := s.thr tk
  let held : List SbE := match t.pair with | some p => p.sig.filterMap (·.held) | none => []
  let more := (t.owed ++ held).any fun x =>
    x.u != e.u && x.k == .engine true && x.pieces.any fun q => !q.done && ((x.place s) q).any fun pa => lineOf pa == line
  if e.k = .engine true ∧ !more then s.wipePoison (pkgOfThr tk) line else s

/-- The part of an entry performs at `pa` (R236, R248, R297). -/
def State.performSPiece (s : State) (tk : Nat) (e : SbE) (ix : Nat) (q : SPiece) (pa : Nat) : State :=
  let p := pkgOfThr tk
  let line := lineOf pa
  let s := match e.k with
    | .red b =>
      if isSo q.xl then (s.write pa q.n (b.combine (s.read pa q.n) q.data)).dirtyLine p line
      else s.redLine p pa q.n b q.data
    | .publish => (s.write pa 8 ((s.read pa 8 + 2) % 2 ^ 64 ^^^ 1)).dirtyLine p line
    | .shadow => (s.write pa q.n q.data).dirtyLine p line
    | _ =>
      let s := if q.loc.isSome || isAperture pa then s.keepPlanes pa q.n else s
      let s := s.storeBytes pa q.n q.data q.mask
      if q.loc.isSome || isAperture pa then s else (s.dirtyLine p line).wipeHeld tk e line
  s.modEntry tk e.u fun e => { e with pieces := setAt e.pieces ix { q with done := true }, since := none }

/-- The parts of one instruction's stores that have not performed. -/
def State.storeParts' (s : State) (ck gid : Nat) : List PartRef :=
  (s.coreThreads ck).flatMap fun e =>
    (e.2.sb.filter fun x => x.gid == gid).flatMap fun x =>
      (x.pieces.zipIdx.filter fun y => !y.1.done).map fun y => ⟨e.1, x.u, y.2, y.1.va, y.1.n, x.place s y.1⟩

/-- Stores of the same instruction that leading copies still hold (R405). -/
def State.heldParts (s : State) (ck gid : Nat) : List PartRef :=
  (s.coreThreads ck).flatMap fun e =>
    match e.2.pair with
    | some p => ((p.sig.filterMap fun x => x.held) ++ p.moving).flatMap fun x =>
        if x.gid = gid then x.pieces.map fun y => ⟨e.1, x.u, 0, y.va, y.n, x.place s y⟩ else []
    | none => []

/-- Whether the parts of a group of stores can perform. -/
def State.storesReady (s : State) (ok : Bool) : List PartRef → Ready
  | [] => if ok then .yes s else .no s
  | g :: rest =>
    match (s.thr g.tk).entry g.u with
    | none => s.storesReady ok rest
    | some e =>
      match e.pieces[g.ix]? with
      | none => s.storesReady ok rest
      | some q =>
        if (s.thr g.tk).st = .saved ∨ !s.inOrder g.tk g.u q.va q.n (e.place s q) q.xl e.rel then s.storesReady false rest
        else
          match s.entryReady g.tk e true e.pieces with
          | .yes s => s.storesReady ok rest
          | .no s => s.storesReady false rest
          | f => f

/-- The caches take the lines that an entry has written, once all of it has performed: until then its agent keeps them (R265, R269). -/
def State.useEntry (s : State) (tk : Nat) (e : SbE) : State :=
  e.pieces.foldl (fun s q =>
    match q.xl, e.place s q with
    | some x, some pa => if isAperture pa then s else s.l1Use (ckOf tk) (lineOf pa) e.hint x true
    | _, _ => s) s

/-- Every part of the group performs, in slot order. -/
def State.performStores (s : State) (l : List PartRef) : State :=
  let s := l.foldl (fun s g =>
    match (s.thr g.tk).entry g.u with
    | none => s
    | some e =>
      match e.pieces[g.ix]? with
      | none => s
      | some q =>
        match s.touchSPiece g.tk e q with
        | .ok s1 pa _ _ => s1.performSPiece g.tk e g.ix q pa
        | _ => s) s
  l.foldl (fun s g =>
    match (s.thr g.tk).entry g.u with
    | some e => if e.undone then s else (s.useEntry g.tk e).endEntry g.tk e
    | none => s) s

/-- CFLUSH: the agent sends Flush once nothing of the line is under way (R268, R336). -/
def State.sendFlush (s : State) (tk : Nat) (e : SbE) (line : Nat) : State :=
  let p := pkgOfThr tk
  let a := s.aline p line
  let h := homeOf (line * 128)
  if s.isLost p h then s.failStore tk e.u 0x0C
  else if a.put.isSome || a.flushing.isSome || a.req.isSome || a.unver.isSome then s
  else
    let dirty := a.st == .M || a.st == .O
    let s := (s.setALine p line { a with flushing := some e.u }).sendMsg .flush p h p line (txid := e.u) (carries := dirty)
      (status := if dirty && a.psn then 8 else 0)
    s.modEntry tk e.u fun e => { e with since := if h = p then none else some s.clock }

/-- CINV: the line leaves the issuing core's L1 alone. Where the package holds it dirty, it is written back first and CINV waits for the
Ack: a line that this L1 holds dirty, or that no other L1 holds. Copies that other L1s of the package hold stay, clean (R268). -/
def State.invalLine (s : State) (tk : Nat) (e : SbE) (line : Nat) : State :=
  let p := pkgOfThr tk
  let ck := ckOf tk
  let began := e.pieces.any fun q => q.mask != 0
  let a := s.aline p line
  if began then (if a.put.isNone && a.flushing.isNone then s.endEntry tk e else s)
  else
    match (s.core ck).l1.find? fun x => x.line == line with
    | none => s.endEntry tk e
    | some x =>
      let out := s.modCore ck fun c => { c with l1 := c.l1.filter fun y => y.line != line }
      let others := out.l1Holds p line
      let mark (s : State) : State := s.modEntry tk e.u fun e => { e with pieces := e.pieces.map fun q => { q with mask := 1 } }
      if !(a.st == .M || a.st == .O) || (!x.dirty && others) then (s.l1Leave ck line).endEntry tk e
      else if a.put.isSome || a.flushing.isSome || a.req.isSome || a.unver.isSome || s.pinned p line then s
      else if others then mark (out.sendFlush tk e line)
      else
        let s := mark (out.evictLine p line 0 (some e.u))
        s.modEntry tk e.u fun e => { e with since := if homeOf (line * 128) = p then none else some s.clock }

/-- STORE_PERFORM: one part of a store-buffer entry performs, with the parts of the same instruction that share bytes with
it. -/
def execStorePerform (tk name : Nat) (s : State) : Out :=
  let u := name / 16 * 16
  let ix := name % 16
  .next <|
    match (s.thr tk).entry u with
    | none => s
    | some e =>
      let ck := ckOf tk
      match e.pieces[ix]? with
      | none => s
      | some q =>
        if (s.thr tk).st = .saved then s
        else
          match e.k with
          | .flush line =>
            if e.since.isSome ∨ !s.inOrder tk u q.va q.n (e.place s q) q.xl false then s else s.sendFlush tk e line
          | .inval line => if !s.inOrder tk u q.va q.n (e.place s q) q.xl false then s else s.invalLine tk e line
          | _ =>
            if q.done ∨ s.gidOpen ck e.gid then s
            else
              let me : PartRef := ⟨tk, u, ix, q.va, q.n, e.place s q⟩
              let all := s.storeParts' ck e.gid
              let l := bySlot (connected all all.length [me])
              if (s.heldParts ck e.gid).any fun h => l.any fun x => x.meets h then s
              else
                match s.storesReady true l with
                | .no s => s
                | .fail s k v c _ => s.failStore k v c
                | .yes s => s.performStores l

end Sys2Proof.Machine
end

