-- ==== Sys2Proof/Machine/Tiles.lean ====
section
/-! DEFINITION. The tile table and the instructions of group 0x9: TDEF to TLDB, SHADOW and PUBLISH (R283 to R297). -/

namespace Sys2Proof.Machine

/-! ### The table (R283, R284, R289) -/

/-- The entry of a context's tile number, or none at or above its allotment. -/
def State.tileIx (s : State) (tk : Nat) (n : Nat) : Option Nat :=
  let x := s.ctxOf tk
  if n < x.tilen then some (x.tile0 + n) else none

def State.tile (s : State) (ck i : Nat) : Tile := Tab.getOr (s.core ck).tiles i {}

/-- TWAITs of a core that a tile's state ends. -/
def State.tileWaits (s : State) (ck i : Nat) (st : TileState) : List Ev :=
  (s.coreThreads ck).flatMap fun e =>
    (e.2.pend.filter fun q => q.k == .twait i st).map fun q => .twaitComplete e.1 q.u

/-- Changes an entry. Where its state changes, the waits for the new state end before anything else happens (R294). -/
def State.setTile (s : State) (ck i : Nat) (t : Tile) : State :=
  let old := s.tile ck i
  let s := s.modCore ck fun c => { c with tiles := Tab.put c.tiles i t }
  if old.st = t.st then s else { s with agenda := s.tileWaits ck i t.st ++ s.agenda }

def State.modTile (s : State) (ck i : Nat) (f : Tile → Tile) : State := s.setTile ck i (f (s.tile ck i))

/-- Empty, or ready and read by no command. -/
def Tile.idle (t : Tile) : Bool := t.st == .empty || (t.st == .ready && t.readers == 0)

/-- A state by hand: a new state that no engine command brought. -/
def Tile.become (t : Tile) (st : TileState) : Tile := { t with st := st, byeng := false, publ := false }

/-- The contents were last written by something else than MMAC (R284). -/
def Tile.plainContents (t : Tile) : Tile := { t with clus := false, grid := none }

/-- The entry that an instruction names and that must be defined, or fault 0x0E. -/
def State.useTile (s : State) (tk n : Nat) : Option (Nat × Tile) :=
  match s.tileIx tk n with
  | some i => let t := s.tile (ckOf tk) i; if t.defined then some (i, t) else none
  | none => none

/-! ### TDEF, TQRY, TREADY, TEMPTY (R291, R293) -/

/-- The place of `n` bytes at an address of the tile's space as an image gives it: a vault or a local-store offset. -/
def State.tilePlace (s : State) (tk : Nat) (vault : Bool) (base n : Nat) : Option Nat :=
  let a : Word := BitVec.ofNat 64 base
  if vault then s.vaultAt tk a n else s.storeAt tk a n

/-- The features of a block format (R94). -/
def State.fmtRefused (s : State) (tk c : Nat) : Bool :=
  let p := pkgOfThr tk
  let x := (s.thr tk).ctx
  (c == 6 && !s.taken p x 4) || (decide (7 ≤ c) && decide (c ≤ 9) && !s.taken p x 3)

/-- The entry an image makes of an old one, before its places are known. -/
def Tile.ofImage (t : Tile) (w0 w1 : Nat) : Tile :=
  { t with vault := w0 % 2 = 1, plane := w0 / 2 % 2 = 1, fmt := field w0 5 2, base := field w0 36 8,
           rows := field w0 48 37 + 1, cols := field w0 60 49 + 1, sbase := field w1 44 16, st := .empty, byeng := false,
           publ := false, stale := [] }

/-- Reserved bits of an image: those of R284, and the bits above a local-store offset. -/
def imageBad (w0 w1 : Nat) : Bool :=
  field w0 7 6 != 0 || field w0 63 61 != 0 || field w1 15 9 != 0 || field w1 47 45 != 0
    || (w0 % 2 == 0 && (field w0 36 28 != 0 || field w1 44 36 != 0))

/-- Another defined entry of the allotment whose bytes or scales the tile's bytes meet (R286). -/
def State.tileOverlap (s : State) (tk i : Nat) (t : Tile) : Bool :=
  let x := s.ctxOf tk
  (s.core (ckOf tk)).tiles.any fun e =>
    e.1 != i && decide (x.tile0 ≤ e.1) && decide (e.1 < x.tile0 + x.tilen) && e.2.defined && e.2.meets t.loc t.len

def tdefBody (n : Nat) (s : State) (l : Lane) : Res :=
  let ck := ckOf l.tk
  let w0 := l.a.w64.toNat
  let w1 := (l.hi 0).toNat
  if s.fmtRefused l.tk (field w0 5 2) then .fault { code := 0x18 }
  else match s.tileIx l.tk n with
  | none => .fault { code := 0x0E }
  | some i =>
    let old := s.tile ck i
    let t := old.ofImage w0 w1
    if imageBad w0 w1 then .fault { code := 0x02 }
    else if w0 = 0 ∧ t.sbase = 0 then
      if old.idle then .ok (s.setTile ck i {}) else .fault { code := 0x0E }
    else if !layoutOk t.plane t.fmt t.cols ∨ (!fmtIsBlock t.fmt ∧ t.sbase ≠ 0) then .fault { code := 0x02 }
    else if t.base % 128 ≠ 0 ∨ t.sbase % 128 ≠ 0 then .fault { code := 0x07 }
    else
      match s.tilePlace l.tk t.vault t.base t.len,
        (if fmtIsBlock t.fmt then s.tilePlace l.tk t.vault t.sbase t.scaleLen else some 0) with
      | some b, some sb =>
        let t := { t with loc := b, sloc := sb }
        if !old.idle ∨ s.tileOverlap l.tk i t then .fault { code := 0x0E }
        else .ok (s.setTile ck i t)
      | _, _ => .fault { code := 0x09 }

def execTdef (f : Frame) (a : Src) (t : BitVec 6) (s : State) : Out :=
  word f { src := [(0, a)], srcPair := [0] } (tdefBody t.toNat) s

def execTqry (f : Frame) (d : Dst) (t : BitVec 6) (wd : Bool) (s : State) : Out :=
  word f { dst := some d }
    (fun s l =>
      match s.tileIx l.tk t.toNat with
      | none => .fault { code := 0x0E }
      | some i =>
        let e := s.tile (ckOf l.tk) i
        .ok (s.put l (if wd then e.word1 else e.word0))) s

/-- TREADY is a release at core scope: the thread's earlier stores have performed when it issues, and the tile becomes ready
by an event of its own. -/
def execTready (f : Frame) (t : BitVec 6) (s : State) : Out :=
  word f { rel := true }
    (fun s l =>
      match s.useTile l.tk t.toNat with
      | none => .fault { code := 0x0E }
      | some (i, e) =>
        if e.st = .draining ∨ (e.st = .filling ∧ e.byeng) then .fault { code := 0x0E }
        else .ok (s.setTile (ckOf l.tk) i { e with publ := true })) s

def execTempty (f : Frame) (t : BitVec 6) (s : State) : Out :=
  word f {}
    (fun s l =>
      match s.useTile l.tk t.toNat with
      | none => .fault { code := 0x0E }
      | some (i, e) => if e.idle then .ok (s.setTile (ckOf l.tk) i (e.become .empty)) else .fault { code := 0x0E }) s

/-- TREADY_COMPLETE: the bytes have reached the plane path and the tile becomes ready. -/
def execTreadyComplete (ck t : Nat) (s : State) : Out :=
  .next (if (s.tile ck t).publ then s.modTile ck t fun e => { e.become .ready with stale := [] } else s)

/-! ### TWAIT (R294) -/

/-- The wait's value is the image's second word at the moment the tile stands in the state. -/
def State.twaitDone (s : State) (tk : Nat) (q : Pend) (i : Nat) : State :=
  let s := s.modThr tk fun t => { t with c := t.c.drop 1 0 0 }
  s.finishOutside tk q [(s.tile (ckOf tk) i).word1]

def execTwait (f : Frame) (ws : TileState) (d : Dst) (t : BitVec 6) (s : State) : Out :=
  word f { dst := some d, vl := true }
    (fun s l =>
      match s.tileIx l.tk t.toNat with
      | none => .fault { code := 0x0E }
      | some i =>
        if (s.thr l.tk).trails then s.follow l
        else if ctrMax ≤ (s.thr l.tk).c.ldc then .park (.room 6)
        else
          let (u, s) := s.pendNew l (.twait i ws) 7
          let s := s.modThr l.tk fun t => { t with c := t.c.bump 1 0 0 }
          .ok (if (s.tile (ckOf l.tk) i).st = ws then { s with agenda := .twaitComplete l.tk u :: s.agenda } else s)) s

/-- TWAIT_COMPLETE: the tile stands in the awaited state. -/
def execTwaitComplete (tk u : Nat) (s : State) : Out :=
  .next <|
    match (s.thr tk).pendAt u with
    | some q =>
      match q.k with
      | .twait i st => if (s.tile (ckOf tk) i).st = st ∧ (s.thr tk).st ≠ .saved then s.twaitDone tk q i else s
      | _ => s
    | none => s

/-! ### TSTB and TLDB (R295) -/

/-- Elements of one register image. -/
def imageElems (c : Nat) : Nat := if c = 8 then 16 else 64 / codeWidth c

/-- Row and column of a position, or none for fault 0x02. -/
def tilePos (t : Tile) (b : Word) (e : Nat) : Option (Nat × Nat) :=
  let r := field b.toNat 11 0
  let c := field b.toNat 23 12
  if t.rows ≤ r ∨ t.cols < c + e ∨ c % e ≠ 0 ∨ field b.toNat 63 24 ≠ 0 then none else some (r, c)

/-- Bits that `e` elements from (r, c) on take, by part: bit offset in the tile and width for each element. -/
def Tile.spans (t : Tile) (r c e : Nat) : List (Nat × Nat) :=
  let i := r * t.cols + c
  if t.plane then
    let d := fmtDigits t.fmt
    let x := fmtExpBits t.fmt
    let n := t.rows * t.cols
    ((List.range d).map fun j => (2 * n * j + 2 * i, 2 * e)) ++ [(2 * n * d + i, e)]
      ++ (if x = 0 then [] else [(2 * n * d + n + x * i, x * e)])
  else [(i * codeWidth t.fmt, e * codeWidth t.fmt)]

/-- The values that a TSTB writes to those spans (R287). -/
def Tile.spanData (t : Tile) (e v : Nat) : List Nat :=
  let w := codeWidth t.fmt
  let el := (List.range e).map fun k => elemSplit t.fmt (v / 2 ^ (w * k) % 2 ^ w)
  let pack (n : Nat) (g : Nat × Nat × Nat → Nat) : Nat := (el.zipIdx.map fun x => g x.1 % 2 ^ n * 2 ^ (n * x.2)).sum
  let x := fmtExpBits t.fmt
  ((List.range (fmtDigits t.fmt)).map fun j => pack 2 fun y => y.2.1 / 4 ^ j)
    ++ [pack 1 fun y => y.1] ++ (if x = 0 then [] else [pack x fun y => y.2.2])

/-- The store parts of a TSTB: each the bytes of one span, with the bits it writes. -/
def Tile.storeParts (t : Tile) (r c e v : Nat) : List SPiece :=
  ((t.spans r c e).zip (t.spanData e v)).map fun x =>
    let b := t.loc + x.1.1 / 8
    let sh := x.1.1 % 8
    { va := b, n := (sh + x.1.2 + 7) / 8, loc := some b, data := x.2 * 2 ^ sh, mask := (2 ^ x.1.2 - 1) * 2 ^ sh }

/-- The parts of a TLDB's read. -/
def Tile.loadPieces (t : Tile) (r c e : Nat) : List Piece :=
  (t.spans r c e).flatMap fun x =>
    let b := t.loc + x.1 / 8
    (splitVa b ((x.1 % 8 + x.2 + 7) / 8)).map fun q => { va := q.1, n := q.2, loc := some q.1 }

/-- Format of the tile that a word names, for the thread that stands at the word. -/
def State.wordFmt (s : State) (t : BitVec 6) : Nat := ((s.useTile s.lead t.toNat).map fun x => x.2.fmt).getD 0

/-- A direct code that names a register pair. -/
def directPair : Opd → Bool
  | .reg n => n.toNat < 63
  | _ => false

def tstbBody (n : Nat) (a : Src) (s : State) (l : Lane) : Res :=
  let ck := ckOf l.tk
  match s.useTile l.tk n with
  | none => .fault { code := 0x0E }
  | some (i, t) =>
    let e := imageElems t.fmt
    if t.fmt = 8 ∧ !directPair a.opd then .fault { code := 0x02 }
    else
      match if t.plane then tilePos t l.b.w64 e else some (0, 0) with
      | none => .fault { code := 0x02 }
      | some (r, c) =>
        if !t.plane ∨ !(t.idle || (t.st == .filling && !t.byeng)) then .fault { code := 0x0E }
        else
          let v := l.a.w64.toNat + (if t.fmt = 8 then 2 ^ 64 * ((l.hi 0).toNat % 2 ^ 32) else 0)
          match s.enterStore l.tk { u := 0, gid := l.i.g.gid, k := .tile, pieces := t.storeParts r c e v,
                                    space := if t.vault then .vault else .store } with
          -- a publication under way goes on (R291)
          | .ok s => .ok (s.setTile ck i { (t.become .filling).plainContents with publ := t.publ })
          | x => x

def execTstb (f : Frame) (o : S2) (t : BitVec 6) (s : State) : Out :=
  let pair := s.wordFmt t = 8 && directPair o.a.opd
  word f { useS2 o with srcPair := if pair then [0] else [] } (tstbBody t.toNat o.a) s

def tldbBody (n : Nat) (d : Dst) (s : State) (l : Lane) : Res :=
  match s.useTile l.tk n with
  | none => .fault { code := 0x0E }
  | some (_, t) =>
    let e := imageElems t.fmt
    if t.fmt = 8 ∧ !directPair (dstOpd d) then .fault { code := 0x02 }
    else
      match tilePos t l.b.w64 e with
      | none => .fault { code := 0x02 }
      | some (r, c) =>
        if t.st ≠ .ready then .fault { code := 0x0E }
        else if ctrMax ≤ (s.thr l.tk).c.ldc then .park (.room 6)
        else
          let a : Acc := { space := if t.vault then .vault else .store, k := .load, size := 8, pieces := t.loadPieces r c e }
          let (_, s) := s.pendNew l (.tldb a (tldbGeo t r c e)) 7
          .ok (s.modThr l.tk fun t => { t with c := t.c.bump 1 0 0 })

def execTldb (f : Frame) (d : Dst) (b : Src) (t : BitVec 6) (s : State) : Out :=
  let pair := s.wordFmt t = 8 && directPair (dstOpd d)
  word f { src := [(1, b)], dst := some d, pair := pair, vl := true } (tldbBody t.toNat d) s

/-! ### SHADOW and PUBLISH (R296, R297) -/

/-- The pages of a backing: the physical base, if every page may be written, is no shadow page, and follows the one before. -/
def State.backing (s : State) (tk va : Nat) (prev : Option Nat) : Nat → Except Nat (Option Nat × State)
  | 0 => .ok (prev, s)
  | n + 1 =>
    if 2 ^ 55 ≤ va then .error 0x09
    else
      match s.xlate tk va with
      | (none, _) => .error 0x08
      | (some x, s) =>
        if pteShadow x.pte then .error 0x09
        else
          match s.issueFault (pkgOfThr tk) va 1 x .wr false, s.paOf x va with
          | some c, _ => .error c
          | none, none => .error 0x08
          | none, some pa =>
            if prev.any fun b => pa != b + 0x10000 then .error 0x09
            else
              match s.backing tk (va + 0x10000) (some pa) n with
              | .error c => .error c
              | .ok (_, s) => .ok (some pa, s)

/-- The descriptor of the shadow page at an address, or a fault. -/
def State.shadowDesc (s : State) (tk va : Nat) : Except Nat (Nat × Xl × State) :=
  if 2 ^ 55 ≤ va then .error 0x09
  else
    match s.xlate tk va with
    | (none, _) => .error 0x08
    | (some x, s) =>
      if !pteShadow x.pte then .error 0x09
      else
        let d := pteFrame x.pte * 2 ^ 16 + 128 * field x.pte.toNat 63 55
        match s.paFault (pkgOfThr tk) d false with
        | some 0x09 => .error 0x09
        | _ => .ok (d, x, s)

def shadowBody (s : State) (l : Lane) : Res :=
  let a := l.a.w64.toNat
  let b := l.b.w64.toNat
  let c := l.c.w64.toNat
  let n := l.e.w64.toNat
  if a % 0x10000 ≠ 0 ∨ b % 0x10000 ≠ 0 ∨ c % 0x10000 ≠ 0 ∨ n % 0x10000 ≠ 0 ∨ n = 0 then
    .fault { code := 0x07, addr := l.a.w64 }
  else
    match s.shadowDesc l.tk a with
    | .error c => .fault { code := c, addr := l.a.w64 }
    | .ok (d, _, s) =>
      match s.backing l.tk b none (n / 0x10000) with
      | .error x => .fault { code := x, addr := l.b.w64 }
      | .ok (b0, s) =>
        match s.backing l.tk c none (n / 0x10000) with
        | .error x => .fault { code := x, addr := l.c.w64 }
        | .ok (c0, s) =>
          if (s.thr l.tk).trails then .ok s
          else if sbMax ≤ (s.thr l.tk).sbUsed then .park (.room 4)
          else
            -- SEL, BACK0, BACK1, VBASE and SIZE of R231, as one store
            let v := b0.getD 0 * 2 ^ 64 + c0.getD 0 * 2 ^ 128 + a * 2 ^ 192 + n * 2 ^ 256
            let (u, s) := s.fresh
            let e : SbE := { u := u, gid := l.i.g.gid, k := .shadow, rel := true,
                             pieces := [{ va := a, n := 40, loc := some d, data := v, mask := 2 ^ 320 - 1 }] }
            .ok (s.modThr l.tk fun t => { t with sb := t.sb ++ [e], hold := true })

/-- SHADOW: the gang is held until the store has performed, and no counter counts it (R105). -/
def execShadow (f : Frame) (o : S4) (s : State) : Out := word f { useS4 o with feat := some 6 } shadowBody s

def publishBody (s : State) (l : Lane) : Res :=
  let a := l.a.w64
  match s.shadowDesc l.tk a.toNat with
  | .error c => .fault { code := c, addr := a }
  | .ok (d, x, s) =>
    match s.issueFault (pkgOfThr l.tk) a.toNat 1 x .wr false with
    | some c => .fault { code := c, addr := a }
    | none =>
      if (s.thr l.tk).trails then .ok s
      else
        s.enterStore l.tk { u := 0, gid := l.i.g.gid, k := .publish, rel := true,
                            pieces := [{ va := a.toNat, n := 8, loc := some d, data := 0, mask := 2 ^ 64 - 1 }],
                            remote := homeOf d != pkgOfThr l.tk }

/-- PUBLISH: the flip enters the store buffer as a release (R232, R244). -/
def execPublish (f : Frame) (sc : Scope) (a : Src) (s : State) : Out :=
  let _ := sc
  word f { src := [(0, a)], close := true, feat := some 6, img := some (5, 0) } publishBody s

end Sys2Proof.Machine
end

