-- ==== Sys2Proof/Machine/Engines.lean ====
section
/-! DEFINITION. Engine commands as they are accepted: engine addresses (R301), queues, tickets and counters (R299, R313, R314),
and the instructions CPY, CPYM, MMA, MMAB, MMAC and MEPI (R298 to R308). -/

namespace Sys2Proof.Machine

/-! ### Engine addresses (R301) -/

/-- An engine address of `n` bytes for a thread, or fault 0x09. A tile number is the context's. -/
def State.engAddr (s : State) (tk : Nat) (v : Word) (n : Nat) : Option EAd :=
  let w := v.toNat
  match field w 63 62 with
  | 0 => if field w 61 55 ≠ 0 then none else some (.glob (field w 54 0))
  | 1 => if field w 61 29 ≠ 0 then none else (s.vaultAt tk (BitVec.ofNat 64 (field w 28 0)) n).map .loc
  | 2 => if field w 61 20 ≠ 0 then none else (s.storeAt tk (BitVec.ofNat 64 (field w 19 0)) n).map .loc
  | _ => if field w 61 6 ≠ 0 then none else some (.tile (field w 5 0))

/-- An engine address of a command's operand; the fault's address field is the operand (R225, R376). -/
def State.engOperand (s : State) (tk : Nat) (v : Word) (n : Nat) : Except FI EAd :=
  match s.engAddr tk v n with
  | some a => .ok a
  | none => .error { code := 0x09, addr := v }

/-- The page of an operand is translated as the command is accepted, through the issuing thread's context; what fails there is the
word's own fault (R233, R247, R315). Later pages are translated as the command reaches them (R301). Writes to a shadow page go to the
backing that is not visible (R232). -/
def State.firstPage (s : State) (tk : Nat) (a : EAd) (need : Need) : Except FI State :=
  match a with
  | .glob va =>
    let ck := ckOf tk
    let c := (s.thr tk).ctx
    let bad (code : Nat) : Except FI State := .error { code := code, addr := BitVec.ofNat 64 va }
    match (match s.tlbFind ck c va with | some x => Except.ok x | none => s.walkE (pkgOfThr tk) (s.ctxOf tk).root va) with
    | .error e => bad e
    | .ok x =>
      if !need.ok x.pte then bad 0x09
      else
        match s.paOf x va (match need with | .wr => true | _ => false) with
        | none => bad 0x08
        | some pa =>
          if s.paFault (pkgOfThr tk) pa false = some 0x09 then bad 0x09
          else .ok (if (s.tlbFind ck c va).isSome then s else s.tlbAdd ck c x)
  | _ => .ok s

/-- The first pages of a command's operands, in turn. -/
def State.firstPages (s : State) (tk : Nat) : List (EAd × Need) → Except FI State
  | [] => .ok s
  | (a, n) :: r => match s.firstPage tk a n with | .ok s => s.firstPages tk r | .error f => .error f

/-- An address names a tile. -/
def isTileAddr (v : Word) : Bool := field v.toNat 63 62 == 3

/-! ### Acceptance (R299, R313, R314) -/

def copyqMax : Nat := 32
def matqMax : Nat := 16

/-- Places of the matrix queue that are taken, those that follow-on commands reserve among them. -/
def Core.matUsed (c : Core) : Nat :=
  c.matq.length + (c.copyq.filter fun q => match q.k with | .cpy _ _ _ _ _ _ (some _) => true | _ => false).length

/-- What an own-core command needs and takes: places in the queues, and its counters. -/
structure Slots where
  copy : Bool := false
  mat : Bool := false
  enc : Bool := false
  twc : Bool := false
  deriving DecidableEq, Repr

/-- Why a command cannot be accepted now (R472). -/
def State.slotsFull (s : State) (tk : Nat) (w : Slots) : Option Nat :=
  let c := s.core (ckOf tk)
  let t := s.thr tk
  let cf := w.copy && decide (copyqMax ≤ c.copyq.length)
  let mf := w.mat && decide (matqMax ≤ c.matUsed)
  if w.copy && w.mat && (cf || mf) then some 2
  else if cf then some 0
  else if mf then some 1
  else if w.enc && decide (ctrMax ≤ t.c.enc) then some 8
  else if w.twc && decide (ctrMax ≤ t.c.twc) then some 10
  else none

/-- The command as its word gives it; coins are read here (R220). -/
def State.newCmd (s : State) (l : Lane) (u ticket : Nat) (k : CmdK) (rel : Bool) (h : Hint) : Cmd :=
  let t := s.thr l.tk
  let c := s.coinSrc l.tk
  { u := u, ticket := ticket, tk := l.tk, ctx := t.ctx, launch := t.launch, tid := t.tid, pc := l.i.g.wordAddr, hdr := l.i.g.hdr,
    word := l.i.g.word, k := k, rel := rel, hint := h, copy := if t.leads then 1 else if t.trails then 2 else 0,
    region := t.region, nw := t.nw, key := c.key, gen := c.gen, table := c.table }

/-- A launch has one more engine command (R102). -/
def State.launchCmd (s : State) (lk : Option Nat) : State :=
  match lk with
  | some k => s.modLaunch k fun l => { l with cmds := l.cmds + 1 }
  | none => s

/-- A ticket of the core, for a command of a context (R299, R370). -/
def State.takeTicket (s : State) (ck ctx : Nat) (coll bind : Bool) : Nat × State :=
  let c := s.core ck
  let n := c.ticket % 2 ^ 32
  (n, s.setCore ck { c with ticket := c.ticket + 1, ticks := Tab.put c.ticks n { ctx := ctx, coll := coll, bind := bind } })

/-- The ticket that a word's thread writes: a re-executed word's own (R313), what the leading copy passed (R314), or none
where it has to be taken anew. The last component says whether the command is skipped. -/
inductive TicketSrc where
  | park
  | skip (n : Nat)
  | given (n : Nat)
  | fresh
  deriving DecidableEq, Repr

def State.ticketSrc (s : State) (tk : Nat) : TicketSrc :=
  let t := s.thr tk
  if t.trails then
    match s.passed tk t.nw with
    | none => .park
    | some v =>
      let n := (v.v.headD 0).toNat
      if t.skip.isEmpty then .given n else .skip n
  else if t.leads && !s.inqRoom tk then .park
  else match t.skip with
    | n :: _ => .skip n
    | [] => .fresh

/-- A skipped command word: it writes its old ticket and accepts nothing (R313). -/
def State.skipCmd (s : State) (l : Lane) (n : Nat) : State :=
  let nw := (s.thr l.tk).nw
  let s := s.takePassed l.tk nw false
  let s := s.modThr l.tk fun t => { t with skip := t.skip.drop 1 }
  let v : Word := BitVec.ofNat 64 n
  (s.pass l.tk { pos := nw, src := false, v := [v] }).put l v

/-- An own-core command is accepted: it has its ticket, its counters rise, and `enter` puts it into its queue with its effects
on tiles. -/
def State.acceptCmd (s : State) (l : Lane) (w : Slots) (k : CmdK) (rel : Bool) (h : Hint) (enter : State → Cmd → State) : Res :=
  match s.slotsFull l.tk w with
  | some r => .park (.room r)
  | none =>
    let t := s.thr l.tk
    let go (n : Nat) (s : State) : State :=
      let (u, s) := s.fresh
      let c := s.newCmd l u n k rel h
      let s := enter (s.launchCmd c.launch) c
      let s := s.modThr l.tk fun t =>
        { t with cmds := t.cmds ++ [n],
                 c := { t.c with enc := t.c.enc + (if w.enc then 1 else 0), twc := t.c.twc + (if w.twc then 1 else 0) } }
      let v : Word := BitVec.ofNat 64 n
      (s.pass l.tk { pos := t.nw, src := false, v := [v] }).put l v
    match s.ticketSrc l.tk with
    | .park => .park (if t.trails then .passed else .copies)
    | .skip n => .ok (s.skipCmd l n)
    | .given n => .ok (go n (s.takePassed l.tk t.nw false))
    | .fresh => let (n, s) := s.takeTicket (ckOf l.tk) t.ctx false false; .ok (go n s)

/-- A command word whose faults `check` gives; a word that R313 skips raises none. -/
def commandBody (check : State → Lane → Except FI (State → Res)) (s : State) (l : Lane) : Res :=
  match s.ticketSrc l.tk with
  | .skip n => .ok (s.skipCmd l n)
  | _ =>
    match check s l with
    | .error f => .fault f
    | .ok go => go s

def State.pushCopy (s : State) (ck : Nat) (c : Cmd) : State := s.modCore ck fun x => { x with copyq := x.copyq ++ [c] }
def State.pushMat (s : State) (ck : Nat) (c : Cmd) : State := s.modCore ck fun x => { x with matq := x.matq ++ [c] }

/-! ### Matrix images (R305 to R307) -/

structure MatIm where
  acc : Nat
  ta : Nat
  tb : Nat
  z : Bool
  k : Nat
  k0 : Nat
  deriving DecidableEq, Repr

def matIm (w : Word) : MatIm :=
  let n := w.toNat
  { acc := field n 5 0, ta := field n 11 6, tb := field n 17 12, z := w.getLsbD 18, k := (field n 25 19 + 1) * 32,
    k0 := field n 32 26 * 32 }

/-- The tiles of a matrix command: the accumulator, and the operands that this core reads. -/
structure MatT where
  acc : Nat
  ops : List Nat
  deriving DecidableEq, Repr

/-- An operand tile that a command can take, apart from its state: a plane tile of 32 K columns. -/
def matOperandOk (im : MatIm) (t : Tile) : Bool := t.plane && decide (im.k0 + im.k ≤ t.cols)

def fmtIsMatInt (c : Nat) : Bool := c == 10 || c == 14

/-- Checks a matrix command (R289, R305, R306). `fill` is the tile that a copy fills first (R290), `ra` and `rb` say which
operands this core reads (R307), `batch` is MMAB. -/
def State.checkMat (s : State) (tk : Nat) (w : Word) (batch ra rb : Bool) (fill : Option Nat) : Except FI MatT :=
  let bad : Except FI MatT := .error { code := 0x0E }
  let im := matIm w
  let ck := ckOf tk
  match s.useTile tk im.acc, s.useTile tk im.ta, s.useTile tk im.tb with
  | none, _, _ => bad
  | some (ai, at_), xa, xb =>
    if (ra && xa.isNone) || (rb && xb.isNone) then bad
    else
      let ops : List (Nat × Tile) := (if ra then xa.toList else []) ++ (if rb then xb.toList else [])
      let ids := ops.map (·.1)
      let m := if ra then (xa.map fun x => x.2.rows).getD 0 else at_.rows
      let n := if rb then (xb.map fun x => x.2.rows).getD 0 else at_.cols
      let shape := if batch then m == 512 && n == 512 && at_.rows == 512 && at_.cols == 32
        else decide (m ≤ 128) && decide (n ≤ 128) && at_.rows == m && at_.cols == n
      let kinds := ops.all fun x => if fmtIsMatInt x.2.fmt then at_.fmt == 12 else fmtIsFloatIn x.2.fmt && at_.fmt == 1
      if (fill.any fun f => !ids.contains f) || ids.contains ai || at_.plane || (at_.fmt != 1 && at_.fmt != 12)
          || !(at_.st == .empty || at_.st == .ready) then bad
      else if ops.any fun x => !matOperandOk im x.2 || (x.2.st != .ready && fill != some x.1) then bad
      else if !kinds || !shape then bad
      else if ids.any fun i => decide (15 < (s.tile ck i).readers + (ids.filter (· == i)).length) then bad
      else .ok { acc := ai, ops := ids }

/-- A matrix command's effect on its tiles as it is accepted (R289, R290). -/
def State.takeMat (s : State) (ck : Nat) (t : MatT) (fill : Option Nat) : State :=
  let s := t.ops.foldl (fun s i => if fill = some i then s else s.modTile ck i fun x => { x with readers := x.readers + 1 }) s
  s.modTile ck t.acc fun x => { x with st := .filling, byeng := true, publ := false }

/-- The accumulator's state before the command (R306, R307). -/
def State.accBefore (s : State) (ck : Nat) (t : MatT) : Option TileState := some (s.tile ck t.acc).st

/-- MMA and MMAB. -/
def matBody (batch : Bool) (k : Word → CmdK) (h : Hint) : State → Lane → Res :=
  commandBody fun s l =>
    let w := l.a.w64
    if field w.toNat 63 33 ≠ 0 then .error { code := 0x02 }
    else
      match s.checkMat l.tk w batch true true none with
      | .error f => .error f
      | .ok t => .ok fun s =>
        s.acceptCmd l { mat := true, twc := true } (k w) false h fun s c =>
          let ck := ckOf l.tk
          (s.pushMat ck { c with acc0 := s.accBefore ck t }).takeMat ck t none

def execMma (f : Frame) (h : Hint) (o : O1) (s : State) : Out := word f (use1 o) (matBody false .mma h) s
def execMmab (f : Frame) (h : Hint) (o : O1) (s : State) : Out := word f (use1 o) (matBody true .mmab h) s

/-! ### Cluster products (R307) -/

/-- A cluster image: first core, rows, columns and TAG. -/
def clusIm (w : Word) : Nat × Nat × Nat × Nat :=
  let n := w.toNat
  (field n 6 0, field n 9 7 + 1, field n 12 10 + 1, field n 31 16)

/-- The partner core of a tandem pair (R403). -/
def pairCore (c : Nat) : Nat := (c + 14) % 96

/-- The key of the grid's core at a row and a column. -/
def gridCore (dk : Nat) (clus : Word) (trail : Bool) (r c : Nat) : Nat :=
  let (c0, _, gc, _) := clusIm clus
  let n := c0 + r * gc + c
  dk * 128 + (if trail then pairCore n else n)

/-- The row and the column of a thread's core in a grid, or none for fault 0x02. -/
def State.gridPlace (s : State) (tk : Nat) (clus : Word) : Option (Nat × Nat) :=
  let (c0, gr, gc, _) := clusIm clus
  let me := coreOf (ckOf (s.idOf tk))
  if field clus.toNat 15 13 ≠ 0 ∨ field clus.toNat 63 32 ≠ 0 ∨ 96 < c0 + gr * gc ∨ me < c0 ∨ c0 + gr * gc ≤ me then none
  else some ((me - c0) / gc, (me - c0) % gc)

/-- A core lies in the grid of a cluster image. -/
def inGrid (dk : Nat) (clus : Word) (trail : Bool) (ck : Nat) : Bool :=
  let (_, gr, gc, _) := clusIm clus
  (List.range (gr * gc)).any fun k => gridCore dk clus trail 0 k == ck

/-- Joins the cluster product of the same context that still lacks this core, where the core's grid and that of each core that has
joined hold each other, or begins one. -/
def State.joinGrid (s : State) (dk ctx : Nat) (trail : Bool) (m : GridM) : State :=
  let d := s.die dk
  let open_ (g : GridOp) : Bool :=
    let (_, gr, gc, _) := clusIm g.clus
    g.ctx == ctx && g.trail == trail && decide (g.mem.length < gr * gc)
      && g.mem.all fun x => x.ck != m.ck && inGrid dk m.clus trail x.ck && inGrid dk x.clus trail m.ck
  match d.grids.find? open_ with
  | some g => s.setDie dk { d with grids := d.grids.map fun x => if x.id = g.id then { x with mem := x.mem ++ [m] } else x }
  | none =>
    let (id, s) := s.fresh
    s.modDie dk fun d =>
      { d with grids := d.grids ++ [{ id := id, ctx := ctx, trail := trail, clus := m.clus, since := s.clock, mem := [m] }] }

/-- MMAC. -/
def mmacBody (h : Hint) : State → Lane → Res :=
  commandBody fun s l =>
    let w := l.a.w64
    let cl := l.b.w64
    match s.gridPlace l.tk cl with
    | none => .error { code := 0x02 }
    | some (r, c) =>
      if field w.toNat 63 33 ≠ 0 then .error { code := 0x02 }
      else
        match s.checkMat l.tk w false (c == 0) (r == 0) none with
        | .error f => .error f
        | .ok t => .ok fun s =>
          s.acceptCmd l { mat := true, twc := true } (.mmac w cl) false h fun s cmd =>
            let ck := ckOf l.tk
            let a := s.tile ck t.acc
            let im := matIm w
            let fmt (on : Bool) (n : Nat) : Option Nat := if on then (s.useTile l.tk n).map fun x => x.2.fmt else none
            let m : GridM := { ck := ck, u := cmd.u, clus := cl, shape := [a.rows, a.cols, im.k, a.fmt], fa := fmt (c == 0) im.ta,
                               fb := fmt (r == 0) im.tb }
            ((s.pushMat ck { cmd with acc0 := s.accBefore ck t }).takeMat ck t none).joinGrid (dkOf ck) cmd.ctx (cmd.copy == 2) m

def execMmac (f : Frame) (h : Hint) (o : O2) (s : State) : Out := word f (use2 o) (mmacBody h) s

/-! ### Copies (R301 to R304) -/

/-- Geometry of a copy: rows, row bytes and stride, or fault 0x02; `t` is the side that is a tile (R302). -/
def copyGeo (c : Word) (t : Option Tile) : Option (Nat × Nat × Nat) :=
  let rb := field c.toNat 23 0
  let n := field c.toNat 39 24
  let st := field c.toNat 63 40
  match t with
  | some t =>
    if c = 0 then some (t.rows, t.rowBytes, t.rowBytes)
    else if n ≠ t.rows ∨ rb ≠ t.rowBytes ∨ rb = 0 ∨ (st ≠ 0 ∧ st < rb) then none
    else some (n, rb, if st = 0 then rb else st)
  | none => if rb = 0 ∨ n = 0 ∨ (st ≠ 0 ∧ st < rb) then none else some (n, rb, if st = 0 then rb else st)

/-- What a copy word comes to: the sides with their tiles, the geometry, and the other side's scales. -/
structure CopyPlan where
  src : EAd
  dst : EAd
  rows : Nat
  rb : Nat
  stride : Nat
  scale : Option EAd
  deriving DecidableEq, Repr

/-- The addresses that a copy's operands name, with what the copy does there; CPYM has no operand for scales. -/
def CopyPlan.pages (p : CopyPlan) (m : Bool) : List (EAd × Need) :=
  let scale := match p.scale, m with
    | some z, false => [(z, match p.src with | .tile _ => Need.wr | _ => .rd)]
    | _, _ => []
  [(p.src, .rd), (p.dst, .wr)] ++ scale

/-- Checks a copy word: `m` is CPYM, of whose follow-on image no tile counts for R94 (R302, R303; log 90). -/
def State.planCopy (s : State) (tk : Nat) (a b c e : Word) (m : Bool) : Except FI CopyPlan :=
  let f2 : Except FI CopyPlan := .error { code := 0x02 }
  let f9 (v : Word) : Except FI CopyPlan := .error { code := 0x09, addr := v }
  let fE : Except FI CopyPlan := .error { code := 0x0E }
  let side (v : Word) : Option (Nat × Tile) := if isTileAddr v then s.useTile tk (field v.toNat 5 0) else none
  let ut := side a <|> side b
  if [side a, side b].any fun x => x.any fun y => s.fmtRefused tk y.2.fmt then .error { code := 0x18 }
  else if (isTileAddr a && isTileAddr b) || (m && !isTileAddr b) || (!m && isTileAddr e) then f2
  else if (isTileAddr a || isTileAddr b) && ut.isNone then
    if isTileAddr a && field a.toNat 61 6 != 0 then f9 a else if isTileAddr b && field b.toNat 61 6 != 0 then f9 b else fE
  else
    match copyGeo c (ut.map (·.2)) with
    | none => f2
    | some (n, rb, st) =>
      let block := ut.any fun x => fmtIsBlock x.2.fmt
      let sl := (ut.map fun x => x.2.scaleLen).getD 0
      if !m && !block && e != 0 then f2
      else
        let strided := (n - 1) * st + rb
        let plain := n * rb
        -- the stride is that of the side that is no tile, or of the source (R302)
        let na := if isTileAddr b || !isTileAddr a then strided else plain
        let nb := if isTileAddr a then strided else plain
        let na := if m && block then max na (n * st + sl) else na
        match s.engOperand tk a na, s.engOperand tk b nb, (if !m && block then (s.engOperand tk e sl).map some else .ok none) with
        | .ok x, .ok y, .ok z =>
          let fix (v : EAd) : EAd := match v with | .tile _ => .tile ((ut.map (·.1)).getD 0) | w => w
          let ready (t : Tile) : Bool := if isTileAddr a then t.st == .ready else t.st == .empty || t.st == .ready
          if ut.any fun t => !ready t.2 then fE
          else
            let z := if m && block then some (match x with | .glob v => EAd.glob (v + n * st) | .loc v => .loc (v + n * st) | w => w)
              else z
            .ok { src := fix x, dst := fix y, rows := n, rb := rb, stride := st, scale := z }
        | .error f, _, _ | _, .error f, _ | _, _, .error f => .error f

/-- A copy's effect on its tile as it is accepted (R289, R290). -/
def State.takeCopy (s : State) (ck : Nat) (p : CopyPlan) (follow : Bool) : State :=
  let s := match p.src with
    | .tile i => s.modTile ck i fun t => { t with st := .draining, byeng := true, publ := false }
    | _ => s
  match p.dst with
  | .tile i => s.modTile ck i fun t => { t with st := .filling, byeng := true, publ := false, follow := follow }
  | _ => s

def cpyBody (rel : Bool) (h : Hint) : State → Lane → Res :=
  commandBody fun s l =>
    match s.planCopy l.tk l.a.w64 l.b.w64 l.c.w64 l.e.w64 false with
    | .error f => .error f
    | .ok p =>
      match s.firstPages l.tk (p.pages false) with
      | .error f => .error f
      | .ok t => .ok fun _ =>
        t.acceptCmd l { copy := true, enc := true } (.cpy p.src p.dst p.rows p.rb p.stride p.scale none) rel h fun s c =>
          (s.pushCopy (ckOf l.tk) c).takeCopy (ckOf l.tk) p false

def execCpy (f : Frame) (rel : Bool) (h : Hint) (o : O4) (s : State) : Out := word f (use4 o) (cpyBody rel h) s

/-- CPYM: the copy and its follow-on are accepted together (R290, R304). -/
def cpymBody (rel : Bool) (h : Hint) : State → Lane → Res :=
  commandBody fun s l =>
    let e := l.e.w64
    match s.planCopy l.tk l.a.w64 l.b.w64 l.c.w64 e true with
    | .error f => .error f
    | .ok p =>
      let kind := field e.toNat 63 62
      if 2 ≤ kind ∨ field e.toNat 61 33 ≠ 0 then .error { code := 0x02 }
      else
        let fill := match p.dst with | .tile i => some i | _ => none
        match s.checkMat l.tk e (kind == 1) true true fill with
        | .error f => .error f
        | .ok t =>
          match s.firstPages l.tk (p.pages true) with
          | .error f => .error f
          | .ok s => .ok fun _ =>
            s.acceptCmd l { copy := true, mat := true, enc := true, twc := true }
              (.cpy p.src p.dst p.rows p.rb p.stride p.scale (some e)) rel h fun s c =>
                let ck := ckOf l.tk
                ((s.pushCopy ck { c with acc0 := s.accBefore ck t }).takeMat ck t fill).takeCopy ck p true

def execCpym (f : Frame) (rel : Bool) (h : Hint) (o : O4) (s : State) : Out := word f (use4 o) (cpymBody rel h) s

/-! ### MEPI (R308) -/

/-- Bytes of the parameter block that the image's fields use. -/
def epiParLen (i : EpiIm) (cols : Nat) : Nat := if i.sb then 128 + 8 * cols else if i.act = 2 then 8 else 0

/-- The word of C: an immediate is β, in FP32, with an index offset of 0 (R60, R308). -/
def epiWord (v : RV) : Word :=
  match v with
  | .word x => x
  | .imm n => BitVec.ofNat 64 (fd32.ofInt n)

/-- MEPI: its checks, and the command (R94, R308; log 90). -/
def mepiBody (h : Hint) : State → Lane → Res :=
  commandBody fun s l =>
    let w := l.a.w64
    let i := epiIm w
    let e := l.e.w64
    let p := pkgOfThr l.tk
    let x := (s.thr l.tk).ctx
    -- the reserved code of DRAW selects no draw: it is fault 0x02 alone (R94, R308; log 90)
    if ((i.draw = 1 ∨ i.draw = 2) ∧ !s.taken p x 2) ∨ s.fmtRefused l.tk i.ofmt then .error { code := 0x18 }
    else if epiBad w e ∨ isTileAddr l.b.w64 then .error { code := 0x02 }
    else
      let ua := s.useTile l.tk i.acc
      let cols := (ua.map fun t => t.2.cols).getD 1
      let n := epiParLen i cols
      -- a block that no field uses is not read, but its address has the form of R301
      match s.engOperand l.tk l.b.w64 n, (if i.glob && decide (2 ^ 55 ≤ e.toNat) then .error { code := 0x09, addr := e } else .ok (EAd.glob e.toNat) : Except FI EAd) with
      | .error f, _ | _, .error f => .error f
      | .ok par, .ok dst =>
        match ua with
        | none => .error { code := 0x0E }
        | some (ai, at_) =>
          let accBad := at_.plane || (at_.fmt != 1 && at_.fmt != 12) || at_.st != .ready || at_.readers != 0
            || (i.draw != 0 && decide (128 < at_.cols))
          let uo := s.useTile l.tk i.out
          let outBad : Bool :=
            if i.glob then false
            else match uo with
              | none => true
              | some (oi, t) =>
                oi == ai || t.fmt != i.ofmt || t.plane || !(t.st == .empty || t.st == .ready)
                  || (if i.draw = 0 then t.rows != at_.rows || t.cols != at_.cols
                      else t.fmt != 13 || t.rows != at_.rows || t.cols != 1)
          if accBad ∨ outBad then .error { code := 0x0E }
          else match s.firstPages l.tk ((if n = 0 then [] else [(par, .rd)]) ++ if i.glob then [(dst, .wr)] else []) with
          | .error f => .error f
          | .ok s => .ok fun _ =>
            s.acceptCmd l { mat := true, twc := true } (.mepi w (if n = 0 then none else some par) (epiWord l.c) e.toNat) false h
              fun s c =>
                let ck := ckOf l.tk
                let s := (s.pushMat ck c).modTile ck ai fun t => { t with st := .draining, byeng := true, publ := false }
                match i.glob, uo with
                | false, some (oi, _) => s.modTile ck oi fun t => { t with st := .filling, byeng := true, publ := false }
                | _, _ => s

def execMepi (f : Frame) (h : Hint) (o : O4) (s : State) : Out := word f { use4 o with coin := true } (mepiBody h) s

/-! ### The end of a command (R102, R299, R370) -/

/-- The thread that issued a command is still there. -/
def State.issuer (s : State) (c : Cmd) : Bool :=
  let t := s.thr c.tk
  t.st != .free && t.tid == c.tid && t.launch == c.launch && t.ctx == c.ctx

def State.modIssuer (s : State) (c : Cmd) (f : Thread → Thread) : State := if s.issuer c then s.modThr c.tk f else s

/-- ENC and TWC fall. -/
def State.dropCounters (s : State) (c : Cmd) (enc twc : Nat) : State :=
  s.modIssuer c fun t => { t with c := { t.c with enc := t.c.enc - enc, twc := t.c.twc - twc } }

/-- Replacements of NaN test mode count to the thread that issued the command (R38). -/
def State.countNan (s : State) (c : Cmd) (n : Nat) : State := if n ≠ 0 ∧ s.issuer c then s.addNan c.tk n else s

/-- A ticket has its status; the CWAITs that wait for it receive it. -/
def State.closeTicket (s : State) (ck ctx ticket status : Nat) : State :=
  let c := s.core ck
  let tick := Tab.getOr c.ticks ticket { ctx := ctx, coll := false, bind := false }
  let s := s.setCore ck { c with ticks := Tab.put c.ticks ticket { tick with done := some status, fin := c.ticket } }
  (s.coreAll ck).foldl (fun s e =>
    if e.2.ctx = ctx then
      (e.2.pend.filter fun q => q.k == .cwait ticket).foldl (fun s q => s.deliverOut e.1 q.u [BitVec.ofNat 64 status] none) s
    else s) s

/-- A command finishes: its counters fall, its ticket has a status, and its launch has one command less. -/
def State.endCmd (s : State) (c : Cmd) (status enc twc : Nat) : State :=
  let s := (s.dropCounters c enc twc).countNan c c.nan
  let s := match c.launch with
    | some k => s.modLaunch k fun l => { l with cmds := l.cmds - 1 }
    | none => s
  if c.copy = 2 then s else s.closeTicket (ckOf c.tk) c.ctx c.ticket status

/-- The unit that an engine record names: 3 copy engine, 4 sequencer, 5 collective engine (R376, R377). -/
def State.engUnit (s : State) (ck kind : Nat) : Nat :=
  let dk := dkOf ck
  unitId kind (pkgOfDie dk) (dieIx dk) (if kind = 5 then 0 else s.phys ck) 0

/-- Engine fault 0x12 of a command. -/
def State.cmdFault (s : State) (c : Cmd) (kind addr : Nat) : State :=
  let ck := ckOf c.tk
  s.engineFault (pkgOfCore ck) c.ctx c.tk c.tid c.pc c.hdr c.word addr (s.engUnit ck kind)

end Sys2Proof.Machine
end

