-- ==== Sys2Proof/Machine/LaunchOps.lean ====
section
/-! DEFINITION. Launches: LAUNCH and LWAIT, the events of a launch's life, rebalancing and the launch-wide barrier (R97 to
R104, R212, R384, R385, R403). -/

namespace Sys2Proof.Machine

/-! ### The launch record (R99) -/

/-- A field of a record. -/
def recField (b : List Byte) (off n : Nat) : Nat := ofLeBytes ((b.drop off).take n)

def allZero (b : List Byte) (off n : Nat) : Bool := ((b.drop off).take n).all (· == 0)

def stageOf (b : List Byte) (k : Nat) : StageR :=
  let o := 0x40 + 32 * k
  { entry := BitVec.ofNat 64 (recField b o 8), threads := recField b (o + 8) 4, lsb := recField b (o + 0xC) 2,
    xstart := recField b (o + 0xE) 1 == 1, vaultb := recField b (o + 0x10) 4, inq := recField b (o + 0x14) 1,
    outq := recField b (o + 0x15) 1, core0 := recField b (o + 0x16) 2, ncore := recField b (o + 0x18) 2 }

def queueRec (b : List Byte) (k : Nat) : QueueR :=
  let o := 0x140 + 32 * k
  let base := recField b o 4
  { vault := field base 28 24, off := field base 23 0, recb := recField b (o + 4) 2, depth := 2 ^ recField b (o + 6) 1 }

/-- Threads of a stage on one core (R100). -/
def StageR.perCore (g : StageR) : Nat := (g.threads + g.ncore - 1) / max 1 g.ncore

/-- The core of thread j of a stage. -/
def StageR.coreOf (g : StageR) (j : Nat) : Nat := g.core0 + j / max 1 g.perCore

/-- Cores that a stage uses. -/
def StageR.cores (g : StageR) : List Nat :=
  if g.threads = 0 then [] else (List.range ((g.threads - 1) / max 1 g.perCore + 1)).map fun k => g.core0 + k

/-- The partner's core of a tandem pair (R403). -/
def partnerCore (c : Nat) : Nat := (c + 14) % 96

/-- Bytes of vault span in a quad (R100). -/
def Launch.vaultSpan (l : Launch) (v : Nat) : Nat :=
  l.stages.foldl (fun n g => if g.cores.any (fun c => c / 4 == v) then max n g.vaultb else n) 0

/-- Status 0x01: the record is malformed (R99, R100; log 94). -/
def malformed (b : List Byte) (l : Launch) (priv : Bool) : Bool :=
  let ns := recField b 4 1
  let nq := recField b 5 1
  let stageBad (k : Nat) : Bool :=
    let o := 0x40 + 32 * k
    if ns ≤ k then !allZero b o 32
    else
      let g := stageOf b k
      g.entry.toNat % 8 != 0 || (k == 0 && g.threads == 0) || g.lsb % 64 != 0 || 1 < recField b (o + 0xE) 1
        || !allZero b (o + 0xF) 1 || g.vaultb % 128 != 0 || (g.inq != 0xFF && decide (nq ≤ g.inq))
        || (g.outq != 0xFF && decide (nq ≤ g.outq)) || 95 < g.core0 || g.ncore == 0 || 96 - g.core0 < g.ncore
        || !allZero b (o + 0x1A) 6
  let queueBad (k : Nat) : Bool :=
    let o := 0x140 + 32 * k
    if nq ≤ k then !allZero b o 32
    else
      let q := queueRec b k
      let outs := (List.range ns).filter fun j => (stageOf b j).outq == k
      let ins := (List.range ns).filter fun j => (stageOf b j).inq == k
      let size := if priv then 0xC00000 else l.vaultSpan q.vault
      decide (23 < q.vault) || recField b o 4 / 2 ^ 29 != 0 || q.off % 128 != 0
        || !([8, 16, 32, 64, 128, 256].contains q.recb) || recField b (o + 6) 1 == 0 || decide (16 < recField b (o + 6) 1)
        || !allZero b (o + 7) 25 || decide (size < q.off + 128 + q.depth * q.recb)
        || (match outs, ins with | [x], [y] => decide (y ≤ x) | _, _ => true)
  -- the cores that a stage names, whether or not it places a thread there (R403)
  let used := l.stages.flatMap fun g => (List.range g.ncore).map (g.core0 + ·)
  recField b 0 4 != 1 || ns == 0 || 8 < ns || 8 < nq || l.attr / 32 != 0 || !allZero b 0x30 16 || l.gen == 0
    || l.stackb % 8 != 0 || 65536 < l.stackb || l.stackbase.toNat % 128 != 0 || l.done.toNat % 8 != 0
    || ((List.range 8).any stageBad) || ((List.range 8).any queueBad)
    || (l.attr % 2 == 1 && used.any fun c => used.contains (partnerCore c))

/-- The dies a record names, in ascending bit position. -/
def diesOf (m : Nat) : List Nat := (List.range 64).filter fun b => m / 2 ^ b % 2 == 1

/-- The launch that a record asks for, as LAUNCH issues. -/
def State.parseLaunch (s : State) (l : Lane) (b : List Byte) (lk : Nat) : Launch :=
  let t := s.thr l.tk
  let ds := diesOf (recField b 8 8)
  let stages := (List.range (min 8 (recField b 4 1))).map (stageOf b)
  { handle := BitVec.ofNat 32 lk, ctx := t.ctx, pkg := pkgOfThr l.tk, die := dieIx (dkOf l.ck), attr := recField b 6 2,
    gen := BitVec.ofNat 32 (recField b 0x10 4), stackb := recField b 0x14 4, stackbase := BitVec.ofNat 64 (recField b 0x18 8),
    args := BitVec.ofNat 64 (recField b 0x20 8), done := BitVec.ofNat 64 (recField b 0x28 8), stages := stages,
    queues := (List.range (min 8 (recField b 5 1))).map (queueRec b),
    ntid := ds.length * (stages.map (·.threads)).sum, dies := ds.map fun d => { dk := d }, since := s.clock, tk := l.tk,
    tid := t.tid, pc := l.i.g.wordAddr, hdr := l.i.g.hdr, word := l.i.g.word }

/-! ### Checks in order (R100, R20, R385) -/

/-- The context's copies agree on a package (R385). -/
def sameCtx (a b : Ctx) : Bool :=
  a.attr == b.attr && a.prio == b.prio && a.win == b.win && a.timeout == b.timeout && a.slots == b.slots && b.attr.getLsbD 2

/-- The lasting causes of refusal, the first of which LAUNCH reports; 0 for none. A launch whose dies have still to answer is live
(log 94). -/
def State.launchStatus (s : State) (l : Launch) (b : List Byte) : Nat :=
  let p := l.pkg
  let x := s.ctx p l.ctx
  let ps := l.dies.map fun d => pkgOfDie d.dk
  let need (on : Bool) (bit : Nat) : Bool := on && !s.taken p l.ctx bit
  if malformed b l (x.attr.getLsbD 0) then 1
  else if l.dies.isEmpty || ps.any fun q => !(s.pkg q).present || s.isLost p q then 2
  else if need (l.attr % 2 == 1) 1 || need (decide (1 < l.stages.length)) 5 || need (l.attr / 16 % 2 == 1) 12
      || (ps.any fun q => q != p && (!x.attr.getLsbD 2 ||
            match s.ctx? q l.ctx with | some y => !sameCtx x y | none => true))
      || l.dies.any fun d => !(s.ctx (pkgOfDie d.dk) l.ctx).dies.getLsbD (dieIx d.dk) then 3
  else if ps.any fun q => ps.any fun r => (s.pkg q).featTake != (s.pkg r).featTake then 4
  else if s.launches.any fun e => e.2.ctx == l.ctx && e.2.gen == l.gen && (e.2.pkg == p || x.attr.getLsbD 2) then 6
  else 0

/-! ### Placement (R100, R226, R384, R403) -/

/-- The lowest free slot of the half with fewer occupied slots, half 0 when both hold equally many. -/
def State.freeSlot (s : State) (ck : Nat) : Option Nat :=
  let used := (s.coreThreads ck).map fun e => slotOf e.1
  let n1 := (used.filter fun k => decide (512 ≤ k)).length
  let half := if n1 < used.length - n1 then 512 else 0
  ((List.range 512).map fun k => half + k).find? fun k => !(used.contains k)

/-- The lowest place for a span among the spans in use. -/
def firstFit (busy : List (Nat × Nat)) (size align top : Nat) : Option Nat :=
  let starts := 0 :: busy.map fun b => (b.1 + b.2 + align - 1) / align * align
  let ok (a : Nat) : Bool := decide (a + size ≤ top) && busy.all fun b => !overlaps a size b.1 b.2
  ((starts.filter ok).foldl (fun m a => match m with | none => some a | some x => some (min x a)) none)

/-- Places one thread, with its trailing copy in a tandem pair. Its reserved block may come ahead of waiting XACQ requests (log 79). -/
def State.placeOne (s : State) (lk : Nat) (l : Launch) (dk stage : Nat) (g : StageR) (j tid : Nat) : Option State :=
  let core := g.coreOf j
  let ck := dk * 128 + core
  match s.freeSlot ck with
  | none => none
  | some k =>
    let tk := thrKey ck k
    let x := s.ctx (pkgOfDie dk) l.ctx
    let mine (ck : Nat) : Nat := ((s.coreThreads ck).filter fun e => e.2.ctx == l.ctx).length
    let blk (s : State) (ck : Nat) : Option State :=
      if !g.xstart then some s
      else if (s.core ck).pool = 0 then none
      else some (s.modCore ck fun c => { c with pool := c.pool - 1 })
    if x.slots ≤ mine ck then none
    else if l.attr % 2 = 1 then
      let ck2 := dk * 128 + partnerCore core
      let tk2 := thrKey ck2 k
      if (s.thr tk2).st ≠ .free ∨ x.slots ≤ mine ck2 then none
      else do
        let s ← blk s ck
        let s ← blk s ck2
        let slack := l.attr / 2 % 8 + 1
        let t := newThread l lk stage g tid (s.thr tk).orph
        let t2 := newThread l lk stage g tid (s.thr tk2).orph
        some ((s.setThr tk { t with pair := some { partner := tk2, trail := false, slack := slack } }).setThr tk2
          { t2 with pair := some { partner := tk, trail := true, slack := slack } })
    else do
      let s ← blk s ck
      some (s.setThr tk (newThread l lk stage g tid (s.thr tk).orph))

/-- Places the threads of one die, in order of stage and index. -/
def State.placeDie (s : State) (lk : Nat) (l : Launch) (dk : Nat) (first : Nat) : Option State :=
  let all := l.stages.zipIdx.flatMap fun g => (List.range g.1.threads).map fun j => (g.1, g.2, j)
  (all.zipIdx.foldl (fun (s : Option State) x => s.bind fun s => s.placeOne lk l dk x.1.2.1 x.1.1 x.1.2.2 (first + x.2)) (some s))

/-- The most local-store bytes of a slot over all stages. -/
def Launch.lsb (l : Launch) : Nat := l.stages.foldl (fun n g => max n g.lsb) 0

/-- Reserves the local-store span of a core and the vault span of a quad, after the threads are placed; a span that no core or vault
could hold is refused like one that does not fit now (log 94). -/
def State.spanDie (s : State) (lk : Nat) (l : Launch) (dk : Nat) : Option (Tab (Nat × Nat) × Tab (Nat × Nat)) :=
  let others := s.launches.filterMap fun e => if e.1 = lk then none else e.2.dies.find? fun d => d.dk == dk && d.answered
  let ls := (List.range 96).foldl (fun (acc : Option (Tab (Nat × Nat))) c =>
    acc.bind fun t =>
      let n := ((s.coreThreads (dk * 128 + c)).filter fun e => e.2.launch == some lk).length
      let size := n * l.lsb
      if size = 0 then some t
      else (firstFit (others.filterMap fun d => Tab.look d.ls c) size 64 0xA0000).map fun b => Tab.put t c (b, size)) (some [])
  let vs := (List.range 24).foldl (fun (acc : Option (Tab (Nat × Nat))) v =>
    acc.bind fun t =>
      let size := l.vaultSpan v
      if size = 0 then some t
      else
        let saves := (s.ctxs.filter fun e => e.1 / 64 == pkgOfDie dk && e.2.dies.getLsbD (dieIx dk) && e.1 % 64 != 0).map
          fun e => (e.2.saveoff, e.2.saveLen)
        (firstFit ((others.filterMap fun d => Tab.look d.vs v) ++ saves) size 128 0xC00000).map fun b => Tab.put t v (b, size))
    (some [])
  match ls, vs with
  | some a, some b => some (a, b)
  | _, _ => none

/-- A context runs on a die. -/
def State.runsOn (s : State) (dk c : Nat) : Bool := Tab.getOr (s.ctx (pkgOfDie dk) c).st (dieIx dk) 0 == 1

/-- A context is under pre-emption on a die: its gangs complete their clauses, and its engines stop after them (R386, steps 2 and 3). -/
def State.finishing (s : State) (dk c : Nat) : Bool := Tab.getOr (s.ctx (pkgOfDie dk) c).st (dieIx dk) 0 == 2

/-- Every named die reserves and places, or none does. -/
def State.reserve (s : State) (lk : Nat) (l : Launch) : Option State :=
  let per := (l.stages.map (·.threads)).sum
  l.dies.zipIdx.foldl (fun (s : Option State) d => s.bind fun s => do
    let s ← s.placeDie lk l d.1.dk (d.2 * per)
    let (ls, vs) ← s.spanDie lk l d.1.dk
    some (s.modLaunch lk fun l => l.onDie d.1.dk fun x =>
      { x with answered := true, ls := ls, vs := vs, arrived := s.runsOn d.1.dk l.ctx })) (some s)

/-- The control blocks of a die's queues show empty queues. -/
def State.openQueues (s : State) (lk dk : Nat) : State :=
  match Tab.look s.launches lk with
  | none => s
  | some l =>
    match l.dies.find? fun d => d.dk == dk with
    | none => s
    | some d => l.queues.zipIdx.foldl (fun s q => s.setCounts lk q.2 q.1 d 0 0) s

/-! ### LAUNCH (R100, R101) -/

/-- Messages from `p` reach `q` (R331). -/
def State.reaches (s : State) (p q : Nat) : Bool :=
  p == q || s.direct p q || ((s.path p q).relays &&& s.live p q) != 0

/-- What stops the package's own access of a context to one unit of memory: the address, the firewall for a write, a lost or
unreachable home, or poison. -/
def State.ownFault (s : State) (p ctx pa : Nat) (wr : Bool := false) : Option Nat :=
  match s.paFault p pa false with
  | some c => some c
  | none =>
    let h := homeOf pa
    if isAperture pa then none
    else if wr && !(Tab.getOr (s.pkg h).fw (pa % 2 ^ 48 / 2 ^ 16) 0xFFFF).getLsbD (s.pkg p).cell then some (s.refusedCode p ctx)
    else if !s.reaches p h then some 0x0B
    else if (s.dir (lineOf pa)).psn || (s.aline p (lineOf pa)).psn then some 0x0D
    else none

/-- The bytes of a range of virtual addresses read as a load of the thread would read them, or a fault code; 0x100 and a package where
that package cannot be reached now. -/
def State.readVirt (s : State) (tk a : Nat) : Nat → Except Nat (List Byte × State)
  | 0 => .ok ([], s)
  | n + 1 => do
    let (x, s) ← s.xlAt tk a 8 .rd false true
    match x.bind fun x => s.paOf x a with
    | none => .error 0x08
    | some pa =>
      match s.ownFault (pkgOfThr tk) (s.thr tk).ctx pa with
      | some c => .error (if c = 0x0B then 0x100 + homeOf pa else c)
      | none =>
        let s := s.settle (lineOf pa)
        let (r, s') ← s.readVirt tk (a + 8) n
        .ok (s.bytes pa 8 ++ r, s')

/-- The thread's own buffered stores touch a range of addresses. -/
def Thread.buffers (t : Thread) (a n : Nat) : Bool := t.sb.any fun e => e.pieces.any fun q => !q.done && overlaps q.va q.n a n

/-- The thread asks now for what it needs of a home that it cannot reach, if it has not asked before. -/
def State.askNow (s : State) (tk : Nat) : State :=
  let t := s.thr tk
  if (t.waited).isSome then s else s.modThr tk fun t => { t with asked := some (t.nw, s.clock) }

/-- The thread has waited for a path for the context's timeout. -/
def State.askOver (s : State) (tk : Nat) : Bool :=
  (s.thr tk).waited.any fun n => decide (n + (s.ctxOf tk).timer ≤ s.clock)

/-- A word whose access to a home waits for a path, as a load's request does, and times out as one (R331, R343). -/
def State.pathWait (s : State) (l : Lane) (q : Nat) (a : Word) : Res :=
  if s.askOver l.tk then .fault { code := 0x0B, addr := a } else .start (s.askNow l.tk) (.path q)

def launchBody (s : State) (l : Lane) : Res :=
  let a := l.a.w64
  let t := s.thr l.tk
  if a.toNat % 64 ≠ 0 then .fault { code := 0x07, addr := a }
  else
    match s.readVirt l.tk a.toNat 72 with
    | .error c =>
      if c < 0x100 then .fault { code := c, addr := a }
      else if t.trails then s.follow l
      else s.pathWait l (c - 0x100) a
    | .ok (b, s) =>
      if t.buffers a.toNat 576 then .park (.ctrs false true false)
      else if t.trails then s.follow l
      else
        let lk := s.lnext
        let la := s.parseLaunch l b lk
        let st := s.launchStatus la b
        if st ≠ 0 then
          let (u, s) := s.pendNew l (.launch 0) 7
          .ok (s.deliverOut l.tk u [BitVec.ofNat 64 (st * 2 ^ 56)] none)
        else
          let (_, s) := s.pendNew l (.launch lk) 7
          .ok ({ s with lnext := lk + 1 }.setLaunch lk la)

def execLaunch (f : Frame) (o : O1) (s : State) : Out :=
  word f { use1 o with priv := 2, vl := true, close := true } launchBody s

/-- The thread whose LAUNCH waits for an answer. -/
def State.launcher (s : State) (lk : Nat) : Option (Nat × Pend) :=
  s.threads.findSome? fun e => (e.2.pend.find? fun p => p.k == .launch lk).map fun p => (e.1, p)

/-- What LAUNCH answers reaches the thread that issued it, if it still lives (R100, R120). -/
def State.tellLauncher (s : State) (lk : Nat) (v : Word) : State :=
  match s.launcher lk with
  | some (tk, p) => s.deliverOut tk p.u [v] none
  | none => s

/-- Every die has answered: the launch stands with its resources, or LAUNCH reports why not. -/
def State.launchAnswer (s : State) (lk : Nat) : State :=
  match Tab.look s.launches lk with
  | some l =>
    let ps := l.dies.map fun d => pkgOfDie d.dk
    let refuse (st : Nat) : State :=
      let s := s.tellLauncher lk (BitVec.ofNat 64 (st * 2 ^ 56))
      { s with launches := Tab.cut s.launches lk }
    if l.dies.any (·.answered) then s
    else if ps.any fun q => s.isLost l.pkg q then refuse 2
    else if ps.any fun q => !s.reaches l.pkg q then s
    else
      match s.reserve lk l with
      | none => refuse 5
      | some s =>
        let s := l.dies.foldl (fun s d => s.openQueues lk d.dk) s
        (s.modLaunch lk fun l => { l with since := s.clock }).tellLauncher lk (l.handle.setWidth 64)
  | none => s

def execLaunchAnswer (lk : Nat) (s : State) : Out := .next (s.launchAnswer lk)

/-- The threads of a die begin when every named die has arrived at the start barrier (R101). -/
def State.launchStart (s : State) (lk dk : Nat) : State :=
  match Tab.look s.launches lk with
  | none => s
  | some l =>
    match l.dies.find? fun d => d.dk == dk with
    | none => s
    | some d =>
      if d.started || !d.arrived || l.ended || !(l.dies.all fun d => d.arrived) then s
      else
        let s := s.modLaunch lk fun l => l.onDie dk fun d => { d with started := true }
        (s.launchThreads lk).foldl (fun s e =>
          if dkOf (ckOf e.1) = dk ∧ e.2.st = .placed then s.modThr e.1 fun t => { t with st := .live } else s) s

def execLaunchStart (lk dk : Nat) (s : State) : Out := .next (s.launchStart lk dk)

/-! ### Completion and LWAIT (R102) -/

/-- The value of completion. -/
def Launch.result (l : Launch) (doneFailed : Bool) : Word :=
  BitVec.ofNat 64 (l.status % 256 + (if doneFailed then 256 else 0) + min l.killed (2 ^ 32 - 1) * 2 ^ 32)

/-- Where the package writes DONE, or none where the write fails (R102). -/
def State.donePlace (s : State) (l : Launch) : Option Nat :=
  let va := l.done.toNat
  if 2 ^ 55 ≤ va then none
  else
    match s.walk l.pkg (s.ctx l.pkg l.ctx).root va with
    | none => none
    | some x =>
      match s.checkXl l.pkg va 8 x .wr false, s.paOf x va with
      | none, some pa =>
        let line := lineOf pa
        let fw := Tab.getOr (s.pkg (homeOf pa)).fw (pa % 2 ^ 48 / 2 ^ 16) 0xFFFF
        if !fw.getLsbD (s.pkg l.pkg).cell || (s.dir line).psn || (s.aline l.pkg line).psn then none
        else some pa
      | _, _ => none

/-- The thread's context is the launch's: on the launching package, or on another where it spans packages (R385). -/
def State.sameSpan (s : State) (l : Launch) (tk : Nat) : Bool := pkgOfThr tk == l.pkg || (s.ctx l.pkg l.ctx).attr.getLsbD 2

/-- The write of DONE waits for a path to its home, and its request has not timed out (R331, R343). -/
def State.doneWaits (s : State) (l : Launch) (pa : Nat) : Bool :=
  !s.reaches l.pkg (homeOf pa) && l.doneT.all fun n => decide (s.clock < n + (s.ctx l.pkg l.ctx).timer)

/-- A launch completes: DONE is written, the handle is freed, and every waiting LWAIT completes. While the write of DONE waits, the launch
stands with its status. -/
def State.finishLaunch (s : State) (lk : Nat) (l : Launch) : State :=
  let place := if l.done = 0 then none else s.donePlace l
  if place.any (s.doneWaits l) then s.setLaunch lk { l with doneT := l.doneT <|> some s.clock }
  else
  let (s, bad) :=
    if l.done = 0 then (s, false)
    else
      match place.filter fun pa => s.reaches l.pkg (homeOf pa) with
      | some pa => ((s.settle (lineOf pa)).write pa 8 (l.result false).toNat, false)
      | none =>
        let ck := ckOf l.tk
        let b := recordBytes 0x12 2 l.ctx (l.pkg + 16 * l.die) (slotOf l.tk) (coreOf ck) 0 l.tid.toNat
          (unitId 8 l.pkg l.die 0 0) l.pc.toNat l.hdr.toNat l.word.toNat l.done.toNat 0 (s.clockOf l.pkg)
        (s.queueEngineRecord l.pkg l.ctx (dieKey l.pkg l.die) b, true)
  let s : State := { s with launches := Tab.cut s.launches lk }
  s.threads.foldl (fun s e =>
    if e.2.ctx = l.ctx ∧ s.sameSpan l e.1 then
      e.2.pend.foldl (fun s p => if p.k = .lwait l.handle.toNat then s.deliverOut e.1 p.u [l.result bad] none else s) s
    else s) s

/-- LAUNCH_COMPLETE: every thread has ended and every engine command has finished. -/
def State.launchComplete (s : State) (lk : Nat) : State :=
  match Tab.look s.launches lk with
  | none => s
  | some l =>
    if !(l.dies.all (·.answered)) || !(s.launchThreads lk).isEmpty || l.cmds ≠ 0 then s
    else s.finishLaunch lk l

def execLaunchComplete (lk : Nat) (s : State) : Out := .next (s.launchComplete lk)

/-- A start barrier of several dies that one has not reached in time: every die releases its reservations, and the launch completes
with status 0x02. A launch on one die has no barrier. -/
def State.startTimeout (s : State) (lk : Nat) : State :=
  match Tab.look s.launches lk with
  | none => s
  | some l =>
    if decide (l.dies.length ≤ 1) || !(l.dies.all (·.answered)) || l.dies.all (fun d => d.arrived) || s.clock < l.since + (s.ctx l.pkg l.ctx).timer then s
    else
      let s := (s.launchThreads lk).foldl (fun s e =>
        let s := if e.2.xblk then s.modCore (ckOf e.1) fun c => { c with pool := c.pool + 1 } else s
        (s.setThr e.1 { orph := e.2.orph }).poolCheck (ckOf e.1)) s
      s.finishLaunch lk { l with status := 2 }

def execStartBarrierTimeout (lk : Nat) (s : State) : Out := .next (s.startTimeout lk)

/-- A live launch of the thread's context by its handle. -/
def State.byHandle (s : State) (tk h : Nat) : Option (Nat × Launch) :=
  s.launches.find? fun e => e.2.handle.toNat == h && e.2.ctx == (s.thr tk).ctx && s.sameSpan e.2 tk
    && e.2.dies.all (·.answered)

def lwaitBody (s : State) (l : Lane) : Res :=
  let h := l.a.w64.toNat
  if (s.thr l.tk).trails then s.follow l
  else
    let (u, s) := s.pendNew l (.lwait h) 7
    match s.byHandle l.tk h with
    | none => .ok (s.deliverOut l.tk u [0xFE] none)
    | some _ => if l.b.w64 ≠ 0 then .ok (s.deliverOut l.tk u [0xFF] none) else .ok s

def execLwait (f : Frame) (o : O2) (s : State) : Out := word f { use2 o with priv := 2, vl := true } lwaitBody s

/-! ### The launch-wide barrier learns of a completion (R212) -/

/-- A die learns of the LBAR completions so far, and releases its own waiters of earlier numbers together. -/
def State.lbarRelease (s : State) (lk dk : Nat) : State :=
  match Tab.look s.launches lk with
  | none => s
  | some l =>
    let s := s.modLaunch lk fun l => l.onDie dk fun d => { d with lbarSeen := l.lbarN }
    (s.launchThreads lk).foldl (fun s e =>
      if dkOf (ckOf e.1) = dk then
        s.modThr e.1 fun t => { t with blk := t.blk.filter fun b => match b with | .lbar n => decide (l.lbarN ≤ n) | _ => true }
      else s) s

def execLbarRelease (lk dk : Nat) (s : State) : Out := .next (s.lbarRelease lk dk)

/-! ### Rebalancing (R104) -/

/-- Records in the queue of a stage's input, and whether its output is full. -/
def LDie.count (d : LDie) (q : Nat) : Nat := let (h, t) := Tab.getOr d.qs q (0, 0); t - h

def Launch.depth (l : Launch) (q : Nat) : Nat := ((l.queues[q]?).map (·.depth)).getD 0

def Launch.pressed (l : Launch) (d : LDie) (g : StageR) : Bool :=
  (g.inq != 0xFF && decide (3 * l.depth g.inq < 4 * d.count g.inq)) || (g.outq != 0xFF && l.depth g.outq == d.count g.outq)

def Launch.starved (l : Launch) (d : LDie) (g : StageR) : Bool :=
  g.inq != 0xFF && decide (4 * d.count g.inq < l.depth g.inq) && !l.pressed d g

/-- The pressed stage with the fullest input, the one that holds the most records (log 67); the lower stage of equals. -/
def Launch.fullest (l : Launch) (d : LDie) : Option Nat :=
  (l.stages.zipIdx.foldl (fun (a : Option (Nat × Nat)) x =>
    if l.pressed d x.1 then
      let n := if x.1.inq = 0xFF then 0 else d.count x.1.inq
      match a with
      | some (_, m) => if m < n then some (x.2, n) else a
      | none => some (x.2, n)
    else a) none).map (·.1)

/-- Threads of starved stages that are blocked in QPOP, by stage, core and slot. -/
def State.victims (s : State) (lk : Nat) (l : Launch) (d : LDie) : List (Nat × Pend) :=
  l.stages.zipIdx.flatMap fun x =>
    if l.starved d x.1 then
      (s.launchThreads lk).filterMap fun e =>
        if e.2.stage = x.2 ∧ dkOf (ckOf e.1) = d.dk ∧ !e.2.retired ∧ !e.2.trails ∧ e.2.st ≠ .saved then
          (e.2.pend.find? fun p => match p.k with | .qpop .. => true | _ => false).map fun p => (e.1, p)
        else none
    else []

/-- A victim of rebalancing: its QPOP completes with RETIRE, and it is to be followed by a thread of the pressed stage. -/
def State.retireFor (s : State) (v : Nat × Pend) (g : Nat) : State :=
  let retire (s : State) (tk : Nat) : State := s.modThr tk fun t => { t with retired := true, retireTo := g }
  let s := retire (s.finishOutside v.1 v.2 [] (some false)) v.1
  match (s.thr v.1).pair with
  | some p => retire s p.partner
  | none => s

/-- Slots that a die's dispatcher moves at one time (R104). -/
def rebalanceMax : Nat := 32

/-- The moves that one launch asks of a die's dispatcher, by the queue counts `e` and `d` as the interval began: each victim with the
stage it is to serve. -/
def State.moves (s : State) (e : Nat × Launch) (dk : Nat) : List ((Nat × Pend) × Nat) :=
  match e.2.dies.find? fun d => d.dk == dk && d.started with
  | none => []
  | some d =>
    if e.2.attr / 16 % 2 = 0 then []
    else match e.2.fullest d with
      | none => []
      | some g => (s.victims e.1 e.2 d).map fun v => (v, g)

/-- REBALANCE: every 1,024 cycles, up to 32 slots of starved stages are told to retire for the pressed stage, one at a time; where
several rebalanced launches stand on the die, the earlier launch's come first (log 67). -/
def State.rebalance (s : State) (dk : Nat) : State :=
  if s.clock < (s.die dk).rebal + 1024 then s
  else
    let s := s.modDie dk fun d => { d with rebal := s.clock }
    ((s.launches.flatMap fun e => s.moves e dk).take rebalanceMax).foldl (fun s m => s.retireFor m.1 m.2) s

def execRebalance (dk : Nat) (s : State) : Out := .next (s.rebalance dk)

end Sys2Proof.Machine
end

