-- ==== Sys2Proof/Machine/Copy.lean ====
section
/-! DEFINITION. The copy engine (R300 to R304, R312, R347) and what engines read and write (R232, R241, R247, R314). -/

namespace Sys2Proof.Machine

/-! ### What an engine reads and writes -/

/-- A step of an engine: it waits, fails at an address, or goes on with a value. -/
inductive Eng where
  | wait (s : State)
  | fail (s : State) (addr : Nat)
  | ok (s : State) (v : Nat)

/-- Cuts a span at the ends of lines. -/
def lineCuts (a n : Nat) : List (Nat × Nat) :=
  let k0 := a / 128
  let k1 := (a + n - 1) / 128
  if n = 0 then []
  else (List.range (k1 + 1 - k0)).map fun j =>
    let lo := max a ((k0 + j) * 128)
    let hi := min (a + n) ((k0 + j + 1) * 128)
    (lo, hi - lo)

/-- Cuts `n` bytes into aligned units of 16 bytes and single bytes (R241), in at most `fuel` pieces. -/
def cutsOf (a n : Nat) : Nat → List (Nat × Nat)
  | 0 => []
  | fuel + 1 =>
    if n = 0 then []
    else if a % 16 = 0 ∧ 16 ≤ n then (a, 16) :: cutsOf (a + 16) (n - 16) fuel
    else (a, 1) :: cutsOf (a + 1) (n - 1) fuel

def unitCuts (a n : Nat) : List (Nat × Nat) := cutsOf a n n

/-- The translation that an engine of a core has of an address of a context, or a walk's (R233). -/
def State.engXl (s : State) (ck ctx va : Nat) (need : Need) : Option (Xl × State) :=
  if 2 ^ 55 ≤ va then none
  else
    let p := pkgOfCore ck
    let x? : Option (Xl × State) :=
      match s.tlbFind ck ctx va with
      | some x => some (x, s)
      | none => (s.walk p (s.ctx p ctx).root va).map fun x => (x, s.tlbAdd ck ctx x)
    x?.bind fun y => if need.ok y.1.pte then some y else none

/-- A line's part of an engine's access to the global space. `clr` lets a write pass over poison (R347). -/
def State.engTouch (s : State) (ck ctx u va : Nat) (wr clr : Bool) : Touch :=
  match s.engXl ck ctx va (if wr then .wr else .rd) with
  | none => .fail 0x12
  | some (x, s) =>
    match s.touch (pkgOfCore ck) u x va (if wr then .wr else .rd) false wr with
    | .ok s pa psn unver =>
      if psn && !clr then .fail 0x12
      else if unver.isSome then .wait s none
      else .ok s pa psn none
    | t => t

/-- Changes a command of a core or of its die's engine, wherever it stands. -/
def State.modCmd (s : State) (ck u : Nat) (f : Cmd → Cmd) : State :=
  let g (q : Cmd) : Cmd := if q.u = u then f q else q
  (s.modCore ck fun x => { x with copyq := x.copyq.map g, matq := x.matq.map g }).modDie (dkOf ck) fun d =>
    { d with collq := d.collq.map g, binds := d.binds.map fun b => { b with cmd := g b.cmd },
             ops := d.ops.map fun o => { o with cmd := g o.cmd }, puts := d.puts.map g }

/-- The line of an engine's address. -/
def State.engLine (s : State) (ck ctx va : Nat) (wr : Bool) : Nat :=
  (((s.engXl ck ctx va (if wr then .wr else .rd)).bind fun x => s.paOf x.1 va wr).map lineOf).getD 0

/-- All line parts of a span, or the first that stands in the way. A request to another package runs a timer (R343). -/
def State.engSpan (s : State) (ck : Nat) (c : Cmd) (wr clr : Bool) : List (Nat × Nat) → Except Eng (State × List (Nat × Nat × Nat))
  | [] => .ok (s, [])
  | (va, n) :: rest =>
    let line := s.engLine ck c.ctx va wr
    match s.engTouch ck c.ctx c.u va wr clr with
    | .fail _ => .error (.fail s va)
    | .wait s asked =>
      .error (.wait (s.modCmd ck c.u fun q =>
        { q with asks := Tab.put q.asks line (va, timerFrom s.clock asked ((Tab.look q.asks line).bind (·.2))) }))
    | .ok s pa _ _ =>
      match (s.modCmd ck c.u fun q => { q with asks := Tab.cut q.asks line }).engSpan ck c wr clr rest with
      | .error e => .error e
      | .ok (s, l) => .ok (s, (va, pa, n) :: l)

/-- What the cache hint of a COLL or an ENGQ makes of a line that the engine has read or written (R269, R367): the place that L1s give
it, or, unallocated, back to its home. -/
def State.engHint (s : State) (ck : Nat) (c : Cmd) (line : Nat) : State :=
  let p := pkgOfCore ck
  let mine := match c.k with | .coll .. | .engq .. => true | _ => false
  if !mine then s
  else match c.hint with
  | .dflt => s
  | .noalloc => if s.l1Holds p line then s else s.evictLine p line
  | h =>
    { s with cores := s.cores.map fun e =>
        if pkgOfCore e.1 = p then (e.1, { e.2 with l1 := e.2.l1.map fun x => if x.line = line then { x with keep := keepOf h } else x })
        else e }

def State.engHints (s : State) (ck : Nat) (c : Cmd) (l : List (Nat × Nat × Nat)) : State :=
  l.foldl (fun s x => if isAperture x.2.1 then s else s.engHint ck c (lineOf x.2.1)) s

/-- An engine reads `n` bytes at an address that is no tile's. -/
def State.engRead (s : State) (ck : Nat) (c : Cmd) (a : EAd) (n : Nat) : Eng :=
  match a with
  | .loc b => let (v, s) := s.readFree b n; .ok s v
  | .glob va =>
    match s.engSpan ck c false false (lineCuts va n) with
    | .error e => e
    | .ok (s, l) =>
      let v := (l.map fun x => s.read x.2.1 x.2.2 * 256 ^ (x.1 - va)).sum
      .ok (s.engHints ck c l) v
  | .tile _ => .fail s 0

/-- What the copies of a pair make of an engine's write to the global space (R314, R405): the leading copy holds it, both form
its image, which stands where its word stands in program order. `clr` lets it pass over poison (R347). -/
def State.pairWrite (s : State) (ck : Nat) (c : Cmd) (va n v : Nat) (clr : Bool) : State :=
  (unitCuts va n).foldl (fun s q =>
    let d := v / 256 ^ (q.1 - va) % 256 ^ q.2
    let (u, s) := s.fresh
    let x := (s.engXl ck c.ctx q.1 .wr).map (·.1)
    let e : SbE := { u := u, gid := u, k := .engine clr, hint := c.hint,
                     pieces := [{ va := q.1, n := q.2, xl := x, data := d, mask := 256 ^ q.2 - 1 }],
                     remote := s.isRemote (pkgOfCore ck) x q.1 }
    s.addSig c.tk { addr := BitVec.ofNat 64 q.1, lo := BitVec.ofNat 64 d, hi := BitVec.ofNat 64 (d / 2 ^ 64), size := q.2, kind := 4,
                    region := c.region, space := 0, held := if c.copy = 1 then some e else none, pos := c.nw, sub := q.1 }) s

/-- An engine's bytes come to stand at a place: they show on the plane path at once (R291). -/
def State.engStore (s : State) (pa n v : Nat) : State := (s.storeBytes pa n v (256 ^ n - 1)).showPlanes pa n

/-- Writes a span whose lines have been granted. -/
def State.engPut (s : State) (ck : Nat) (va v : Nat) (l : List (Nat × Nat × Nat)) : State :=
  l.foldl (fun s x =>
    let b := v / 256 ^ (x.1 - va) % 256 ^ x.2.2
    if isAperture x.2.1 then s.engStore x.2.1 x.2.2 b
    else (s.storeBytes x.2.1 x.2.2 b (256 ^ x.2.2 - 1)).dirtyLine (pkgOfCore ck) (lineOf x.2.1)) s

/-- An engine writes `n` bytes at an address that is no tile's; `clr` lets it pass over poison. Of a tandem pair, the leading copy's
global writes are held, where the compare buffer has room for them, and the trailing copy's only form images (R314, R405). A thread
leaves only when its commands have formed theirs; what a dead thread's commands still write performs for the leading copy (log 71). -/
def State.engWrite (s : State) (ck : Nat) (c : Cmd) (a : EAd) (n v : Nat) (clr : Bool := false) : Eng :=
  match a with
  | .loc b => .ok (s.engStore b n v) 0
  | .glob va =>
    if c.copy ≠ 0 ∧ s.issuer c then
      if (s.engXl ck c.ctx va .wr).isNone then .fail s va
      else if c.copy = 1 ∧ cmpMax < s.cmpUsed ck + (unitCuts va n).length then .wait s
      else .ok (s.pairWrite ck c va n v clr) 0
    else if c.copy = 2 then .ok s 0
    else
      match s.engSpan ck c true clr (lineCuts va n) with
      | .error e => e
      | .ok (s, l) => .ok ((s.engPut ck va v l).engHints ck c l) 0
  | .tile _ => .fail s 0

/-- The address some bytes further on. -/
def EAd.plus (a : EAd) (n : Nat) : EAd :=
  match a with
  | .glob v => .glob (v + n)
  | .loc b => .loc (b + n)
  | .tile i => .tile i

/-- The number of an address, for a record. -/
def EAd.num : EAd → Nat
  | .glob v => v
  | .loc b => b
  | .tile i => i

/-! ### Order: `.rel` (R237 rule 7) -/

/-- The issuing thread waits for an earlier command's finish, which stood before the command (R237 rule 8). -/
def State.obsBlocked (s : State) (c : Cmd) : Bool :=
  s.issuer c && (s.thr (s.leadOf c.tk)).pend.any fun q => decide (q.u < c.u) && match q.k with | .cwait _ => true | _ => false

/-- Accesses of the issuing thread before the command that have not performed, but for those to UO pages, and waits that acquire; the
finish of an earlier command, also without `.rel`. For a pair, those are the leading copy's. -/
def State.relBlocked (s : State) (c : Cmd) : Bool :=
  s.obsBlocked c || c.rel && s.issuer c &&
    let tk := s.leadOf c.tk
    let t := s.thr tk
    let held : List SbE := match t.pair with | some p => p.sig.filterMap fun e => e.held | none => []
    ((held ++ t.owed).any fun e => decide (e.u < c.u) && e.undone && e.nonUo)
      || ((t.pend ++ t.orph).any fun q => decide (q.u < c.u) && (q.k.acquires || match q.k.acc? with | some a => a.undone && a.nonUo | none => false))

/-- The context of a command runs on its die. -/
def State.cmdRuns (s : State) (ck : Nat) (c : Cmd) : Bool := s.runsOn (dkOf ck) c.ctx || s.finishing (dkOf ck) c.ctx

def State.modCopy (s : State) (ck u : Nat) (f : Cmd → Cmd) : State :=
  s.modCore ck fun x => { x with copyq := x.copyq.map fun c => if c.u = u then f c else c }

def State.modMat (s : State) (ck u : Nat) (f : Cmd → Cmd) : State :=
  s.modCore ck fun x => { x with matq := x.matq.map fun c => if c.u = u then f c else c }

/-- Commands that the copy engine works on at once (R300). -/
def copyAtOnce : Nat := 4

/-- The copy may begin: no earlier copy of its core waits to begin, fewer than four run, and its tile is read by none. -/
def State.copyMayBegin (s : State) (ck u : Nat) : Bool :=
  let q := (s.core ck).copyq.filter fun c => s.cmdRuns ck c
  let before := q.takeWhile fun c => c.u != u
  before.all (·.began) && decide ((q.filter (·.began)).length < copyAtOnce)
    && (q.find? fun c => c.u == u).any fun c =>
      !s.relBlocked c && match c.k with
        | .cpy _ (.tile i) _ _ _ _ _ => (s.tile ck i).readers == 0
        | _ => true

/-! ### The end of a copy (R289, R290, R303, R304) -/

/-- A copy leaves the engine: its tiles take their states, and a follow-on goes to the matrix queue or is dropped. -/
def State.copyDone (s : State) (ck : Nat) (c : Cmd) (ok : Bool) : State :=
  match c.k with
  | .cpy src dst _ _ _ _ follow =>
    let s := s.modCore ck fun x => { x with copyq := x.copyq.filter fun q => q.u != c.u }
    let s := match src with
      | .tile i => s.modTile ck i fun t => { t with st := .ready, byeng := false }
      | _ => s
    let im := follow.map matIm
    let s := match dst with
      | .tile i =>
        let n := match im with
          | some m => if ok then
              (([m.ta, m.tb].filter fun n => (s.ctx (pkgOfCore ck) c.ctx).tile0 + n == i)).length else 0
          | none => 0
        s.modTile ck i fun t =>
          { t.plainContents with st := if ok then .ready else .empty, byeng := false, follow := false, readers := t.readers + n }
      | _ => s
    match follow, im with
    | some w, some m =>
      let s := s.dropCounters c 1 0
      if ok then
        s.pushMat ck { c with k := if field w.toNat 63 62 = 1 then .mmab (w &&& 0x3FFFFFFFFFFFFFFF) else .mma (w &&& 0x3FFFFFFFFFFFFFFF),
                              pos := 0, began := false, got := [], wr := [], asks := [] }
      else
        -- the follow-on is dropped with a record of its own; its other operands and its accumulator are free again
        let x := s.ctx (pkgOfCore ck) c.ctx
        let fill := match dst with | .tile i => i | _ => 0
        let s := [m.ta, m.tb].foldl (fun s n =>
          if x.tile0 + n = fill then s else s.modTile ck (x.tile0 + n) fun t => { t with readers := t.readers - 1 }) s
        let s := s.modTile ck (x.tile0 + m.acc) fun t => { t with st := c.acc0.getD .empty, byeng := false }
        (s.cmdFault c 4 0).endCmd c 2 0 1
    | _, _ => s.endCmd c (if ok then 0 else 2) 1 0
  | _ => s

/-- A copy stops at a failing line (R303): bytes already written stay. -/
def State.copyFail (s : State) (ck : Nat) (c : Cmd) (addr : Nat) : State := (s.cmdFault c 3 addr).copyDone ck c false

/-! ### The bytes of a copy (R241, R302, R303) -/

/-- One side of a copy as a run of numbered bytes: elements, in pieces of `piece` bytes that stand `stride` apart, then scales. -/
structure CopySide where
  base : EAd
  main : Nat
  piece : Nat
  stride : Nat
  scale : EAd
  slen : Nat
  tile : Option Tile
  deriving DecidableEq, Repr

def CopySide.len (d : CopySide) : Nat := d.main + d.slen

/-- Where byte `x` stands, and how many bytes stand from there on in one piece. -/
def CopySide.place (d : CopySide) (x : Nat) : EAd × Nat :=
  if x < d.main then (d.base.plus (x / d.piece * d.stride + x % d.piece), d.piece - x % d.piece)
  else (d.scale.plus (x - d.main), d.len - x)

/-- The part that begins at byte `x`: an aligned unit of 16 bytes where one stands whole, else one byte. -/
def CopySide.unit (d : CopySide) (x : Nat) : EAd × Nat :=
  let (a, n) := d.place x
  (a, if a.num % 16 = 0 ∧ 16 ≤ n then 16 else 1)

/-- The digit planes of a side. -/
def CopySide.plane (d : CopySide) : Option Tile := d.tile.filter (·.plane)

/-- The number of the byte at an address. -/
def CopySide.number (d : CopySide) (a : Nat) : Option Nat :=
  let b := d.base.num
  let x := (a - b) / d.stride * d.piece + (a - b) % d.stride
  if b ≤ a ∧ (a - b) % d.stride < d.piece ∧ x < d.main then some x
  else if d.scale.num ≤ a ∧ a < d.scale.num + d.slen then some (d.main + (a - d.scale.num))
  else none

/-- The source and the destination of a copy. -/
def State.copySides (s : State) (ck : Nat) (c : Cmd) : Option (CopySide × CopySide) :=
  match c.k with
  | .cpy src dst rows rb stride scale _ =>
    let tileOf (e : EAd) : Option Tile := match e with | .tile i => some (s.tile ck i) | _ => none
    let t := tileOf src <|> tileOf dst
    let total := rows * rb
    let sl := if scale.isSome then (t.map Tile.scaleLen).getD 0 else 0
    let side (e : EAd) (rowed : Bool) : CopySide :=
      match tileOf e with
      | some t => { base := .loc t.loc, main := t.len, piece := t.len, stride := t.len, scale := .loc t.sloc, slen := sl, tile := some t }
      | none =>
        let whole := !rowed || stride == rb
        { base := e, main := total, piece := if whole then total else rb, stride := if whole then total else stride,
          scale := scale.getD e, slen := sl, tile := none }
    -- the stride is that of the side that is no tile, or of the source
    some (side src true, side dst (tileOf src).isSome)
  | _ => none

/-- Elements of a plane tile that byte `y` of its planes holds: first and count, with the part of each element that stands there, by
sign, magnitude integer and exponent field, and its width (R287). -/
def Tile.byteParts (t : Tile) (y : Nat) : Nat × Nat × Nat × (Nat × Nat × Nat → Nat) :=
  let n := t.rows * t.cols
  let d := fmtDigits t.fmt
  let x := fmtExpBits t.fmt
  let bit := 8 * y
  if bit < 2 * n * d then (bit % (2 * n) / 2, 4, 2, fun e => e.2.1 / 4 ^ (bit / (2 * n)) % 4)
  else if bit < 2 * n * d + n then (bit - 2 * n * d, 8, 1, fun e => e.1)
  else ((bit - 2 * n * d - n) / x, 8 / x, x, fun e => e.2.2)

/-- Elements of an image that its byte `y` holds bits of: first and count. -/
def imageSpan (w y : Nat) : Nat × Nat :=
  let i0 := 8 * y / w
  (i0, (8 * y + 7) / w + 1 - i0)

/-- Source bytes that destination byte `y` is made of. -/
def copyNeeds (a b : CopySide) (y : Nat) : List Nat :=
  if b.main ≤ y then [a.main + (y - b.main)]
  else match a.plane, b.plane with
    | some t, _ =>
      let (i0, n) := imageSpan (codeWidth t.fmt) y
      (List.range n).flatMap fun k =>
        (t.spans ((i0 + k) / t.cols) ((i0 + k) % t.cols) 1).flatMap fun x =>
          (List.range ((x.1 + x.2 + 7) / 8 - x.1 / 8)).map fun j => x.1 / 8 + j
    | none, some t =>
      let w := codeWidth t.fmt
      let (i0, n, _, _) := t.byteParts y
      (List.range (((i0 + n) * w + 7) / 8 - i0 * w / 8)).map fun j => i0 * w / 8 + j
    | none, none => [y]

/-- Destination byte `y`, from the source's bytes. -/
def copyByte (a b : CopySide) (g : Nat → Nat) (y : Nat) : Nat :=
  if b.main ≤ y then g (a.main + (y - b.main))
  else match a.plane, b.plane with
    | some t, _ =>
      let w := codeWidth t.fmt
      let (i0, n) := imageSpan w y
      let v := ((List.range n).map fun k =>
        t.getBy (fun loc => g (loc - t.loc)) ((i0 + k) / t.cols) ((i0 + k) % t.cols) * 2 ^ (w * k)).sum
      v / 2 ^ (8 * y - i0 * w) % 256
    | none, some t =>
      let w := codeWidth t.fmt
      let (i0, n, x, f) := t.byteParts y
      ((List.range n).map fun k => f (elemSplit t.fmt (bitsBy g 0 ((i0 + k) * w) w)) % 2 ^ x * 2 ^ (x * k)).sum
    | none, none => g y

/-- A byte that the copy has read and still holds. -/
def Cmd.gotByte (c : Cmd) (x : Nat) : Option Nat :=
  (c.got.find? fun e => decide (e.1 ≤ x) && decide (x < e.1 + e.2.1)).map fun e => e.2.2 / 256 ^ (x - e.1) % 256

/-- The `k`-th part of a side, from byte `x` on, of those that are not `done`. -/
def CopySide.pick (d : CopySide) (done : Nat → Nat → Bool) (k x : Nat) : Nat → Option Nat
  | 0 => none
  | fuel + 1 =>
    if d.len ≤ x then none
    else
      let n := (d.unit x).2
      if done x n then d.pick done k (x + n) fuel
      else match k with
        | 0 => some x
        | j + 1 => d.pick done j (x + n) fuel

/-- Number `x` of the first byte, from `x` on, that has not been written, and the parts written beyond it. -/
def CopySide.forward (d : CopySide) (wr : List (Nat × Nat)) (x : Nat) : Nat → Nat × List (Nat × Nat)
  | 0 => (x, wr)
  | fuel + 1 =>
    match wr.find? fun e => e.1 == x with
    | some e => d.forward (wr.filter fun y => y.1 != x) (x + e.2) fuel
    | none => (x, wr)

/-- A whole line of the destination that a CPY of a system-privileged context writes loses its poison (R347): such a line. -/
def State.copyClears (s : State) (ck : Nat) (c : Cmd) (b : CopySide) (va : Nat) : Bool :=
  match c.k with
  | .cpy _ (.glob _) _ _ _ _ none =>
    (s.ctx (pkgOfCore ck) c.ctx).attr.getLsbD 0 && (List.range 128).all fun j => (b.number (va / 128 * 128 + j)).isSome
  | _ => false

/-- Every byte of a line has been written. -/
def Cmd.wroteLine (c : Cmd) (b : CopySide) (va : Nat) : Bool :=
  (List.range 128).all fun j => (b.number (va / 128 * 128 + j)).any fun x =>
    decide (x < c.pos) || c.wr.any fun e => decide (e.1 ≤ x) && decide (x < e.1 + e.2)

def State.findCopy (s : State) (ck u : Nat) : Option Cmd := (s.core ck).copyq.find? fun c => c.u == u

/-- Reads a part of the source; bytes of a tile come over the plane path (R291). -/
def State.copyRead (s : State) (ck : Nat) (c : Cmd) (a : CopySide) (x : Nat) : Eng :=
  let (p, n) := a.unit x
  let r : Eng := match a.tile, p with
    | some t, .loc b => .ok s (s.planeRead t b n)
    | _, _ => s.engRead ck c p n
  match r with
  | .ok s v => .ok (s.modCopy ck c.u fun c => { c with got := c.got ++ [(x, n, v)] }) 0
  | e => e

/-- Writes a part of the destination whose source bytes have been read. -/
def State.copyWrite (s : State) (ck : Nat) (c : Cmd) (a b : CopySide) (y : Nat) : Eng :=
  let (p, n) := b.unit y
  let ys := (List.range n).map (y + ·)
  if !(ys.all fun k => (copyNeeds a b k).all fun x => (c.gotByte x).isSome) then .wait s
  else
    let v := ofLeBytes (ys.map fun k => BitVec.ofNat 8 (copyByte a b (fun x => (c.gotByte x).getD 0) k))
    let clr := s.copyClears ck c b p.num
    match s.engWrite ck c p n v clr with
    | .ok s _ =>
      let (pos, wr) := b.forward ((y, n) :: c.wr) c.pos (b.len + 1)
      -- bytes that stand in one order on both sides are not needed again
      let keep (e : Nat × Nat × Nat) : Bool := (a.plane <|> b.plane).isSome || decide (pos < e.1 + e.2.1)
      let s := s.modCopy ck c.u fun c => { c with pos := pos, wr := wr, got := c.got.filter keep }
      match s.findCopy ck c.u, p with
      | some c, .glob va =>
        if clr && c.wroteLine b va && c.copy == 0 then
          match (s.engXl ck c.ctx va .wr).bind fun x => s.paOf x.1 va true with
          | some pa => .ok (s.wipePoison (pkgOfCore ck) (lineOf pa)) 0
          | none => .ok s 0
        else .ok s 0
      | _, _ => .ok s 0
    | e => e

/-- What the `k`-th choice of a copy does: with an even number it reads a part of its source, with an odd one it writes a part of its
destination; none where no such part is left (R247: no order among them). -/
def State.copyChoice (s : State) (ck : Nat) (c : Cmd) (k : Nat) : Option Eng :=
  (s.copySides ck c).bind fun (a, b) =>
    if k % 2 = 0 then
      let plain := (a.plane <|> b.plane).isNone
      (a.pick (fun x n => (c.gotByte x).isSome || (plain && decide (x + n ≤ c.pos))) (k / 2) 0 (a.len + 1)).map fun x =>
        s.copyRead ck c a x
    else
      (b.pick (fun y _ => c.wr.any fun e => e.1 == y) (k / 2) c.pos (b.len + 1)).map fun y => s.copyWrite ck c a b y

/-- Every byte of the destination has been written. -/
def State.copyOver (s : State) (ck : Nat) (c : Cmd) : Bool :=
  match s.copySides ck c with
  | some (_, b) => decide (b.len ≤ c.pos)
  | none => true

/-! ### Writes on their way as a context is pre-empted (R312) -/

/-- A late failure of such a write: engine fault 0x12 with its address; its command, if it is still there, finishes as failed (R303). -/
def State.failSent (s : State) (ck : Nat) (x : Sent) : State :=
  ((s.modCore ck fun c => { c with sent := c.sent.filter fun y => y.u != x.u }).modCmd ck x.cmd.u fun c => { c with failed := true }).cmdFault
    x.cmd (match x.cmd.k with | .cpy .. => 3 | _ => 4) x.va

/-- Such a write looks at its line, and performs. -/
def State.runSent (s : State) (ck : Nat) (x : Sent) : State :=
  let p := pkgOfCore ck
  match s.touch p x.u x.xl x.va .wr false true with
  | .fail _ => s.failSent ck x
  | .wait s asked =>
    s.modCore ck fun c => { c with sent := c.sent.map fun y => if y.u = x.u then { y with since := timerFrom s.clock asked y.since } else y }
  | .ok s pa psn unver =>
    if psn && !x.clr then s.failSent ck x
    else if unver.isSome then s
    else
      let s := (s.engPut ck x.va x.v [(x.va, pa, x.n)]).modCore ck fun c => { c with sent := c.sent.filter fun y => y.u != x.u }
      let more := (s.core ck).sent.any fun y => y.cmd.u == x.cmd.u && y.va / 128 == x.va / 128
      if x.wipe && !more then s.wipePoison p (lineOf pa) else s

/-- The write of `n` bytes of a command, as one that is on its way. -/
def State.sendOff (s : State) (ck : Nat) (c : Cmd) (va n v : Nat) (since : Option Nat) (clr wipe : Bool) : State :=
  match s.engXl ck c.ctx va .wr with
  | none => (s.modCmd ck c.u fun c => { c with failed := true }).cmdFault c (match c.k with | .cpy .. => 3 | _ => 4) va
  | some (x, s) =>
    let (u, s) := s.fresh
    s.modCore ck fun k =>
      { k with sent := k.sent ++ [{ u := u, cmd := { c with asks := [], got := [], wr := [] }, va := va, n := n, v := v, xl := x,
                                    since := since, clr := clr, wipe := wipe }] }

/-- The parts of a destination's line at a virtual address: the number of each part's first byte. -/
def CopySide.partsIn (d : CopySide) (va : Nat) : List Nat :=
  (List.range 128).filterMap fun j =>
    let a := va / 128 * 128 + j
    (d.number a).filter fun x => a % 16 == 0 || decide (x < a % 16) || (d.unit (x - a % 16)).2 != 16

/-- A copy stops (R312): parts whose bytes it has read and whose line it has asked for are on their way, its reads are dropped, and its
progress is the last unit of 4 KiB whose every write has been sent. -/
def State.stopCopy (s : State) (ck : Nat) (c : Cmd) : State :=
  match s.copySides ck c with
  | none => s
  | some (a, b) =>
    let ready (y : Nat) : Bool :=
      decide (c.pos ≤ y) && !(c.wr.any fun e => e.1 == y)
        && (List.range (b.unit y).2).all fun j => (copyNeeds a b (y + j)).all fun x => (c.gotByte x).isSome
    let out : List (Nat × Option Nat) := match b.base with
      | .glob _ => c.asks.flatMap fun e => ((b.partsIn e.2.1).filter ready).map fun y => (y, e.2.2)
      | _ => []
    let (pos, _) := b.forward (c.wr ++ out.map fun o => (o.1, (b.unit o.1).2)) c.pos (b.len + 1)
    let pos := if b.len ≤ pos then pos else pos / 4096 * 4096
    let s := out.foldl (fun s o =>
      let (p, n) := b.unit o.1
      let v := ofLeBytes ((List.range n).map fun j => BitVec.ofNat 8 (copyByte a b (fun x => (c.gotByte x).getD 0) (o.1 + j)))
      let clr := s.copyClears ck c b p.num
      s.sendOff ck c p.num n v o.2 clr (clr && { c with pos := pos, wr := [] }.wroteLine b p.num)) s
    s.modCopy ck c.u fun c => { c with pos := pos, got := [], wr := [], asks := [] }

/-- COPY_COMPLETE: the copy makes choice `k` among its reads and writes; with the last write it completes. A write that was on its way
at a pre-emption performs under a name of its own. -/
def execCopyComplete (ck u k : Nat) (s : State) : Out :=
  .next <|
    match s.findCopy ck u, (s.core ck).sent.find? fun x => x.u == u with
    | none, some x => s.runSent ck x
    | none, none => s
    | some c, _ =>
      if !s.cmdRuns ck c ∨ (!c.began ∧ !s.copyMayBegin ck u) then s
      else if c.failed then s.copyDone ck c false
      else
        let s := s.modCopy ck u fun c => { c with began := true }
        let done (s : State) : State :=
          match s.findCopy ck u with
          | some c => if s.copyOver ck c && !(s.core ck).sent.any (fun x => x.cmd.u == u) then s.copyDone ck c true else s
          | none => s
        match s.copyChoice ck { c with began := true } k with
        | none => done s
        | some (.wait s) => s
        | some (.fail s a) => s.copyFail ck ((s.findCopy ck u).getD c) a
        | some (.ok s _) => done s

/-- A byte of a side stands in a line. -/
def CopySide.touches (d : CopySide) (line : Nat) : Bool := (List.range 128).any fun j => (d.number (line * 128 + j)).isSome

end Sys2Proof.Machine
end

