-- ==== Sys2Proof/Machine/Matrix.lean ====
section
/-! DEFINITION. The sequencer: slab steps of the matrix commands, cluster products and their failures, and the row steps of
the epilogue with draws and chunk hand-over (R43 to R45, R115, R305 to R311). -/

namespace Sys2Proof.Machine

/-! ### The command under way (R300) -/

/-- The sequencer stands at an interruptible boundary of a command: no row and no tile is partly written (R311). -/
def Cmd.atStep (c : Cmd) : Bool := c.wr.isEmpty

/-- The first command of the matrix queue whose context runs. After a resume it waits until chunks that were latched have been sent
(R312, R366); once its context stops on the die it only comes to its next boundary. -/
def State.matHead (s : State) (ck : Nat) : Option Cmd :=
  ((s.core ck).matq.find? fun c => s.cmdRuns ck c).filter fun c =>
    !(c.atStep && (s.ctx (pkgOfCore ck) c.ctx).halt.contains (dieIx (dkOf ck))) && !((s.die (dkOf ck)).trigs.any fun x => x.ck == ck && x.cmd.ctx == c.ctx && x.late && !x.sent)

def State.findMat (s : State) (ck u : Nat) : Option Cmd := (s.core ck).matq.find? fun c => c.u == u

/-- The entry that a command's tile number names. -/
def State.cmdTile (s : State) (ck : Nat) (c : Cmd) (n : Nat) : Nat := (s.ctx (pkgOfCore ck) c.ctx).tile0 + n

def State.popMat (s : State) (ck u : Nat) : State := s.modCore ck fun x => { x with matq := x.matq.filter fun q => q.u != u }

/-- NaN test mode of a command's context (R38). -/
def State.cmdNanTest (s : State) (ck : Nat) (c : Cmd) : Bool := (s.ctx (pkgOfCore ck) c.ctx).attr.getLsbD 6

/-! ### Cluster products (R115, R307) -/

def State.gridOf (s : State) (ck u : Nat) : Option GridOp :=
  (s.die (dkOf ck)).grids.find? fun g => g.mem.any fun m => m.ck == ck && m.u == u

def GridOp.member (g : GridOp) (ck : Nat) : Option GridM := g.mem.find? fun m => m.ck == ck

/-- The member at a row and a column. -/
def GridOp.on (g : GridOp) (dk r c : Nat) : Option GridM := g.member (gridCore dk g.clus g.trail r c)

/-- Row and column of a core of the grid. -/
def GridOp.place (g : GridOp) (ck : Nat) : Nat × Nat :=
  let (c0, gr, gc, _) := clusIm g.clus
  let i := ((List.range (gr * gc)).find? fun i => gridCore (dkOf ck) g.clus g.trail (i / gc) (i % gc) == ck).getD (coreOf ck - c0)
  (i / gc, i % gc)

/-- Every core of the grid has accepted its command. -/
def GridOp.full (g : GridOp) : Bool := let (_, gr, gc, _) := clusIm g.clus; g.mem.length == gr * gc

/-- The members' commands agree in what the exchange compares. -/
def GridOp.agrees (g : GridOp) : Bool :=
  let same (l : List Nat) : Bool := l.all fun x => some x == l.head?
  (g.mem.all fun m => m.clus == g.clus && some m.shape == (g.mem.head?.map (·.shape)))
    && same (g.mem.filterMap (·.fa)) && same (g.mem.filterMap (·.fb))

def State.modGrid (s : State) (dk id : Nat) (f : GridOp → GridOp) : State :=
  s.modDie dk fun d => { d with grids := d.grids.map fun g => if g.id = id then f g else g }

def State.setGridPos (s : State) (ck id n : Nat) : State :=
  s.modGrid (dkOf ck) id fun g => { g with mem := g.mem.map fun m => if m.ck = ck then { m with pos := n } else m }

/-- The phase counter that the cores of a grid exchange, and LEAD shows (R115). -/
def State.setPhase (s : State) (ck ctx n : Nat) : State :=
  s.modCore ck fun c => { c with lead := Tab.put c.lead ctx { Tab.getOr c.lead ctx {} with phase := n % 2 ^ 24 } }

/-- Counters of the adjacent cores of a grid; a core that has not accepted has completed none. -/
def GridOp.near (g : GridOp) (dk r c : Nat) : List Nat :=
  let (_, gr, gc, _) := clusIm g.clus
  let pos (r c : Nat) : Nat := ((g.on dk r c).map (·.pos)).getD 0
  (if r = 0 then [] else [pos (r - 1) c]) ++ (if r + 1 < gr then [pos (r + 1) c] else [])
    ++ (if c = 0 then [] else [pos r (c - 1)]) ++ (if c + 1 < gc then [pos r (c + 1)] else [])

/-- The lead allowance lets a core begin its next slab. -/
def State.mayLead (s : State) (ck ctx : Nat) (g : GridOp) (pos : Nat) : Bool :=
  let (r, c) := g.place ck
  let l := (Tab.getOr (s.core ck).lead ctx {}).l
  (g.near (dkOf ck) r c).all fun n => decide (pos < n + l)

/-- Operand entries that a command's reading counts in READERS. -/
def State.matReads (s : State) (ck : Nat) (c : Cmd) : List Nat :=
  match c.k with
  | .mma w | .mmab w => [s.cmdTile ck c (matIm w).ta, s.cmdTile ck c (matIm w).tb]
  | .mmac w _ =>
    match (s.gridOf ck c.u).bind (·.member ck) with
    | some m => (if m.fa.isSome then [s.cmdTile ck c (matIm w).ta] else [])
        ++ (if m.fb.isSome then [s.cmdTile ck c (matIm w).tb] else [])
    | none => []
  | _ => []

def State.dropReaders (s : State) (ck : Nat) (l : List Nat) : State :=
  l.foldl (fun s i => s.modTile ck i fun t => { t with readers := t.readers - 1 }) s

def cmdImage (c : Cmd) : Word :=
  match c.k with
  | .mma w | .mmab w | .mmac w _ | .mepi w .. => w
  | _ => 0

/-- A cluster product fails at every core that has accepted: each accumulator tile returns to its state before (R307). -/
def State.gridFail (s : State) (dk : Nat) (g : GridOp) : State :=
  let s := g.mem.foldl (fun s m =>
    match s.findMat m.ck m.u with
    | none => s
    | some c =>
      let s := (s.dropReaders m.ck (s.matReads m.ck c)).popMat m.ck m.u
      let s := s.modTile m.ck (s.cmdTile m.ck c (matIm (cmdImage c)).acc) fun t =>
        { t with st := c.acc0.getD .empty, byeng := false }
      (s.cmdFault c 4 0).endCmd c 2 0 1) s
  s.modDie dk fun d => { d with grids := d.grids.filter fun x => x.id != g.id }

/-! ### Slabs (R43 to R45, R306) -/

/-- Where a slab's operands stand: tile, first column, by operand. -/
structure SlabSrc where
  ta : Tile
  ka : Nat
  tb : Tile
  kb : Nat
  deriving DecidableEq, Repr

/-- The operands of the next slab, or none while a core of a grid has to wait (R307). -/
def State.slabSrc (s : State) (ck : Nat) (c : Cmd) : Option SlabSrc :=
  let own (w : Word) : SlabSrc :=
    let im := matIm w
    ⟨s.tile ck (s.cmdTile ck c im.ta), im.k0, s.tile ck (s.cmdTile ck c im.tb), im.k0⟩
  match c.k with
  | .mma w | .mmab w => some (own w)
  | .mmac _ _ =>
    match s.gridOf ck c.u with
    | none => none
    | some g =>
      let (r, cl) := g.place ck
      let dk := dkOf ck
      match g.member ck, g.on dk r 0, g.on dk 0 cl with
      | some m, some a, some b =>
        if a.shape = m.shape ∧ b.shape = m.shape ∧ a.fa.isSome ∧ b.fb.isSome ∧ s.mayLead ck c.ctx g c.pos then
          match s.findMat a.ck a.u, s.findMat b.ck b.u with
          | some ca, some cb =>
            let ia := matIm (cmdImage ca)
            let ib := matIm (cmdImage cb)
            some ⟨s.tile a.ck (s.cmdTile a.ck ca ia.ta), ia.k0, s.tile b.ck (s.cmdTile b.ck cb ib.tb), ib.k0⟩
          | _, _ => none
        else none
      | _, _, _ => none
  | _ => none

/-- A slab of an operand row as the array reads it. -/
def State.slabRow (s : State) (nt : Bool) (t : Tile) (r k : Nat) : List MatV :=
  (List.range 32).map fun j => (s.matElem t r (k + j)).tested nt

/-- NaN elements that NaN test mode replaces in a slab of an operand (R38). -/
def State.slabNans (s : State) (t : Tile) (rows k : Nat) : Nat :=
  ((List.range rows).map fun r => ((List.range 32).filter fun j => (s.matElem t r (k + j)).isNan).length).sum

def State.slabInts (s : State) (t : Tile) (r k : Nat) : List Int :=
  let w := codeWidth t.fmt
  (List.range 32).map fun j => toInt w true (s.tileGet t r (k + j))

/-- The accumulators of a command after its next slab; `batch` is MMAB, whose operand rows go in sixteen groups. -/
def State.slabAccs (s : State) (nt batch : Bool) (x : SlabSrc) (pos : Nat) (acc : Tile) (old : Tab (BitVec 32)) :
    Tab (BitVec 32) :=
  let ka := x.ka + 32 * pos
  let kb := x.kb + 32 * pos
  let row (m n : Nat) : Nat := if batch then m / 32 * 32 + n else n
  let rows := List.range (if batch then acc.rows else acc.cols)
  let isInt := acc.fmt == 12
  let bf := if isInt then [] else rows.map fun r => s.slabRow nt x.tb r kb
  let bi := if isInt then rows.map fun r => s.slabInts x.tb r kb else []
  (List.range acc.rows).flatMap fun m =>
    let af := if isInt then [] else s.slabRow nt x.ta m ka
    let ai := if isInt then s.slabInts x.ta m ka else []
    (List.range acc.cols).map fun n =>
      let i := m * acc.cols + n
      let a := Tab.getOr old i 0
      (i, if isInt then slabInt a (ai.zip (bi[row m n]?.getD [])) else slabFp a (af.zip (bf[row m n]?.getD [])))

/-- The accumulators as a command begins: zero, or the tile's (R306). -/
def State.firstAccs (s : State) (c : Cmd) (t : Tile) : Tab (BitVec 32) :=
  let z := (matIm (cmdImage c)).z || c.acc0 == some .empty
  (List.range (t.rows * t.cols)).map fun i => (i, if z then 0 else BitVec.ofNat 32 (s.planeRead t (t.loc + 4 * i) 4))

/-- The place of a core in a finished cluster product. -/
def State.placeOf (s : State) (ck u : Nat) : Option Place :=
  (s.gridOf ck u).map fun g =>
    let (r, c) := g.place ck
    let (_, _, gc, _) := clusIm g.clus
    { id := g.id, row := r, col := c, cores := (List.range gc).map fun j => gridCore (dkOf ck) g.clus g.trail r j }

/-- The units of an accumulator tile that its command still has to write, by number (R241): 16 bytes each, but for the last. -/
def Cmd.unitsLeft (c : Cmd) : List Nat :=
  (List.range ((4 * c.accs.length + 15) / 16)).filter fun j => !c.wr.any fun e => e.1 == j

/-- Writes a unit of the accumulator tile. -/
def State.writeAccs (s : State) (ck : Nat) (c : Cmd) (t : Tile) (j : Nat) : State :=
  (((c.accs.drop (4 * j)).take 4).foldl (fun s e => s.write (t.loc + 4 * e.1) 4 e.2.toNat) s).modMat ck c.u fun c =>
    { c with wr := (j, 1) :: c.wr }

/-- The accumulators of a command whose slabs are done go to its tile: with 0 all units that are left, with `k + 1` the `k`-th of them.
The last component says whether all are there. -/
def State.storeAccs (s : State) (ck : Nat) (c : Cmd) (k : Nat) : State × Bool :=
  let t := s.tile ck (s.cmdTile ck c (matIm (cmdImage c)).acc)
  let left := c.unitsLeft
  match k with
  | 0 =>
    (if c.wr.isEmpty then c.accs.foldl (fun s e => s.write (t.loc + 4 * e.1) 4 e.2.toNat) s
     else left.foldl (fun s j => s.writeAccs ck c t j) s, true)
  | k + 1 => match left[k]? with
    | some j => (s.writeAccs ck c t j, left.length ≤ 1)
    | none => (s, left.isEmpty)

/-- A matrix command finishes: its accumulators have gone to its tile, which is ready. -/
def State.matFinish (s : State) (ck : Nat) (c : Cmd) : State :=
  let i := s.cmdTile ck c (matIm (cmdImage c)).acc
  let place := s.placeOf ck c.u
  let s := (s.dropReaders ck (s.matReads ck c)).popMat ck c.u
  let s := s.modTile ck i fun t => { t with st := .ready, byeng := false, clus := place.isSome, grid := place, stale := [] }
  s.endCmd c (if c.failed then 2 else 0) 0 1

/-- A core of a grid finishes: every core has accepted, and those that read its operands have taken every slab. The grid's
record goes with the last. -/
def State.gridFinish (s : State) (ck : Nat) (c : Cmd) (g : GridOp) (n k : Nat) : State :=
  let dk := dkOf ck
  if !g.full then s
  else if !g.agrees then s.gridFail dk g
  else
    let (r, cl) := g.place ck
    let served := g.mem.all fun m =>
      let (mr, mc) := g.place m.ck
      decide (n ≤ m.pos) || !((cl == 0 && mr == r) || (r == 0 && mc == cl))
    if !served then s
    else
      let (s, all) := s.storeAccs ck c k
      if !all then s
      else
      let s := (s.matFinish ck c).setGridPos ck g.id (n + 1)
      s.modDie dk fun d => { d with grids := d.grids.filter fun x => !(x.id == g.id && x.mem.all fun m => m.pos == n + 1) }

/-- A command whose slabs are done writes its accumulators and finishes, where it may. -/
def State.matTryFinish (s : State) (ck u k : Nat) : State :=
  match s.findMat ck u with
  | none => s
  | some c =>
    let n := (matIm (cmdImage c)).k / 32
    if c.pos < n then s
    else match c.k with
      | .mmac .. =>
        match s.gridOf ck u with
        | some g => s.gridFinish ck c g n k
        | none => s
      | _ => let (s, all) := s.storeAccs ck c k; if all then s.matFinish ck c else s

/-- A matrix product takes no further slab: engine fault 0x12, and its accumulators stand as they are. -/
def State.matAbort (s : State) (ck : Nat) (c : Cmd) (addr : Nat) : State :=
  let n := (matIm (cmdImage c)).k / 32
  let s := (s.cmdFault c 4 addr).modMat ck c.u fun c => { c with failed := true, pos := n }
  match s.gridOf ck c.u with
  | some g => s.setGridPos ck g.id n
  | none => s

/-- The second residue mismatch of a slab (R45): an error record that names the core's array, engine fault 0x12, and the command
ends with the accumulators as they were. -/
def State.slabFail (s : State) (ck : Nat) (c : Cmd) : State :=
  let dk := dkOf ck
  (s.errRecord (pkgOfCore ck) 2 0x0A (unitId 2 (pkgOfCore ck) (dieIx dk) (s.phys ck) 0) 0 0 [c.ticket, c.pos]).matAbort ck c 0

/-- One slab of a command that has begun; the first residue mismatch of a slab is counted and the slab repeated; a second one ends the
command (R45). `mism` counts the mismatches of this slab now. -/
def State.slabRun (s : State) (ck : Nat) (c : Cmd) (mism : Nat) : State :=
  match s.slabSrc ck c with
  | none => s
  | some x =>
    let bad := mism + (if c.retried then 1 else 0)
    -- the first mismatch shows as a correctable count, whether or not a second one follows at once
    let s := if mism ≠ 0 ∧ !c.retried then
        (s.modMat ck c.u fun c => { c with retried := true }).modCore ck fun x => { x with slabFix := x.slabFix + 1 }
      else s
    if 2 ≤ bad ∧ mism ≠ 0 then s.slabFail ck c
    else if mism ≠ 0 then s
    else
      let acc := s.tile ck (s.cmdTile ck c (matIm (cmdImage c)).acc)
      let nt := s.cmdNanTest ck c && acc.fmt != 12
      let batch := match c.k with | .mmab _ => true | _ => false
      let rb := if batch then acc.rows else acc.cols
      let nan := if nt then s.slabNans x.ta acc.rows (x.ka + 32 * c.pos) + s.slabNans x.tb rb (x.kb + 32 * c.pos) else 0
      let accs := s.slabAccs nt batch x c.pos acc c.accs
      let s := s.modMat ck c.u fun c => { c with accs := accs, pos := c.pos + 1, retried := false, nan := c.nan + nan }
      match s.gridOf ck c.u with
      | some g => (s.setGridPos ck g.id (c.pos + 1)).setPhase ck c.ctx (c.pos + 1)
      | none => s

/-- SLAB_STEP: the command at the head takes its next slab, where `mism % 4` counts residue mismatches, and after the last slab writes its
accumulators, by choice `mism / 4`: all that are left, or one unit of them (R241, R247). The power clamp delays it (R428). -/
def execSlabStep (ck mism : Nat) (s : State) : Out :=
  .next <|
    match if s.powerHolds (pkgOfCore ck) 1 then none else s.matHead ck with
    | none => s
    | some c =>
      let isMat := match c.k with | .mma _ | .mmab _ | .mmac .. => true | _ => false
      let t := s.tile ck (s.cmdTile ck c (matIm (cmdImage c)).acc)
      if !isMat || (!c.began && t.readers != 0) then s
      else
        let s := if c.began then s
          else
            let s := s.modMat ck c.u fun x => { x with began := true, accs := s.firstAccs c t }
            if (s.gridOf ck c.u).isSome then s.setPhase ck c.ctx 0 else s
        match s.findMat ck c.u, (s.gridOf ck c.u).filter fun g => g.full && !g.agrees with
        | none, _ => s
        -- every core has accepted, and what the cores compare is not equal (R307)
        | some _, some g => s.gridFail (dkOf ck) g
        | some c, none =>
          let s := if c.pos < (matIm (cmdImage c)).k / 32 then s.slabRun ck c (mism % 4) else s
          s.matTryFinish ck c.u (mism / 4)

/-- MMAC_TIMEOUT: some core of the grid has not accepted within CTX_TIMEOUT of the first acceptance (R307). -/
def execMmacTimeout (ck : Nat) (s : State) : Out :=
  .next <|
    let dk := dkOf ck
    match (s.die dk).grids.find? fun g =>
      (g.mem.any fun m => m.ck == ck) && !g.full && decide (g.since + (s.ctx (pkgOfDie dk) g.ctx).timer ≤ s.clock) with
    | some g => s.gridFail dk g
    | none => s

/-! ### The epilogue: a row's values (R308 to R310) -/

/-- Values of the parameter block: lo, hi, scales and biases. -/
structure EpiPar where
  lo : FV
  hi : FV
  scale : List FV
  bias : List FV
  deriving DecidableEq, Repr

/-- The parts of the parameter block that the fields in use take, by number from its first byte, each an access of its own (R241). -/
def epiCuts (i : EpiIm) (par : Option EAd) (cols : Nat) : List (Nat × Nat) :=
  match par with
  | none => []
  | some a =>
    let cut (off n : Nat) : List (Nat × Nat) := (unitCuts (a.num + off) n).map fun x => (x.1 - a.num, x.2)
    (if i.act = 2 then cut 0 8 else []) ++ if i.sb then cut 128 (8 * cols) else []

/-- Parts that the command has not read. -/
def Cmd.unread (c : Cmd) (l : List (Nat × Nat)) : List (Nat × Nat) := l.filter fun x => !(c.got.any fun e => e.1 == x.1)

/-- The fields in use of the parameter block, once it has been read. -/
def Cmd.epiPar (c : Cmd) (cols : Nat) : EpiPar :=
  let f (k : Nat) : FV := fd32.decode (ofLeBytes ((List.range 4).map fun j => BitVec.ofNat 8 ((c.gotByte (k + j)).getD 0)))
  { lo := f 0, hi := f 4, scale := (List.range cols).map fun n => f (128 + 4 * n),
    bias := (List.range cols).map fun n => f (128 + 4 * (cols + n)) }

/-- The accumulators of a row. -/
def State.accRow (s : State) (t : Tile) (m : Nat) : List (BitVec 32) :=
  (List.range t.cols).map fun n => BitVec.ofNat 32 (s.planeRead t (t.loc + 4 * (m * t.cols + n)) 4)

/-- Columns of a row before activation. -/
def epiTs (isInt : Bool) (i : EpiIm) (p : EpiPar) (row : List (BitVec 32)) : List FV :=
  row.zipIdx.map fun x => epiT isInt i x.1 (p.scale[x.2]?.getD (.fin false 0 0)) (p.bias[x.2]?.getD (.fin false 0 0))

/-- A row's outputs in a format without blocks. -/
def epiRow (isInt : Bool) (i : EpiIm) (p : EpiPar) (row : List (BitVec 32)) : List Nat :=
  if epiExact isInt i then row.map (epiInt i)
  else (epiTs isInt i p row).map fun t => epiNarrow i (epiV i p.lo p.hi t)

/-- Cuts a list into runs of a length. -/
def chunksOf (n : Nat) (l : List FV) : List (List FV) :=
  (List.range ((l.length + n - 1) / n)).map fun k => (l.drop (k * n)).take n

/-- The bits of a list of elements, packed from the low end (R33). -/
def packRow (w : Nat) (l : List Nat) : Nat := (l.zipIdx.map fun x => x.1 % 2 ^ w * 2 ^ (w * x.2)).sum

/-- A run of bytes that a row writes: place, count and value. -/
structure RowSpan where
  at_ : EAd
  n : Nat
  v : Nat
  deriving DecidableEq, Repr

/-- A row of the output tile, with the scales of its blocks. -/
def epiTile (t : Tile) (m : Nat) (isInt : Bool) (i : EpiIm) (p : EpiPar) (row : List (BitVec 32)) : List RowSpan :=
  let body (l : List Nat) : RowSpan := ⟨.loc (t.loc + m * t.rowBytes), t.rowBytes, packRow (codeWidth i.ofmt) l⟩
  if fmtIsBlock i.ofmt then
    let bs := (chunksOf (fmtBlock i.ofmt) ((epiTs isInt i p row).map (epiV i p.lo p.hi))).map (epiBlock i)
    [body (bs.flatMap (·.1)), ⟨.loc (t.scaleAt m 0), bs.length * fmtScale i.ofmt, packRow (8 * fmtScale i.ofmt) (bs.map (·.2))⟩]
  else [body (epiRow isInt i p row)]

/-- A row at its global place. A row of an odd number of 4-bit elements may begin within a byte, which then holds the last element
of the row before. -/
def State.epiGlobal (s : State) (acc : Tile) (dst m : Nat) (isInt : Bool) (i : EpiIm) (p : EpiPar) : List RowSpan :=
  let w := codeWidth i.ofmt
  let start := m * acc.cols * w
  let sh := start % 8
  let head : List Nat := if sh = 0 then [] else ((epiRow isInt i p (s.accRow acc (m - 1))).getLast?).toList
  [⟨.glob (dst + start / 8), (sh + acc.cols * w + 7) / 8, packRow w (head ++ epiRow isInt i p (s.accRow acc m))⟩]

/-- A row's runs of bytes. -/
def State.epiSpans (s : State) (acc out : Tile) (dst m : Nat) (isInt : Bool) (i : EpiIm) (p : EpiPar) : List RowSpan :=
  if i.glob then s.epiGlobal acc dst m isInt i p else epiTile out m isInt i p (s.accRow acc m)

/-- The parts of a run of bytes, each an access of its own (R241): aligned units of 16 bytes, and single bytes. -/
def RowSpan.cuts (r : RowSpan) : List RowSpan :=
  (unitCuts r.at_.num r.n).map fun x =>
    ⟨r.at_.plus (x.1 - r.at_.num), x.2, r.v / 256 ^ (x.1 - r.at_.num) % 256 ^ x.2⟩

/-! ### Row draws (R217, R218, R310) -/

/-- The pair of a row on one core, and the replacements of NaN test mode. A leaf's index wraps modulo 2^32 (log 22). -/
def rowPair (c : Cmd) (nt : Bool) (i : EpiIm) (be : Word) (acc : Tile) (m : Nat) (ts : List FV) : Word × Nat :=
  let lg := i.draw == 2
  let (base, row) := match acc.clus, acc.grid with
    | true, some g => (acc.cols * g.col, m + acc.rows * g.row)
    | _, _ => (0, m)
  let off := field be.toNat 63 32
  let beta := fd32.decode (field be.toNat 31 0)
  let leaves := ts.zipIdx.map fun x =>
    let ix := (x.2 + base + off) % 2 ^ 32
    if lg then logLeaf nt x.1 beta ix else linLeaf nt (fd32.encode x.1) ix
  let l := leaves.map (fun x => some x.1) ++ List.replicate (128 - leaves.length) none
  let src : CoinSrc := ⟨c.key, c.gen, c.table⟩
  let (root, n) := drawTree lg nt (fun h => src.coin i.site (row * 128 + h)) 7 l
  (root.getD (zeroMass lg), n + (leaves.map (·.2)).sum)

/-- The chain over the cores of a grid row, and the replacements it makes (R217). -/
def chainPairs (c : Cmd) (nt : Bool) (i : EpiIm) (row : Nat) (l : List Word) : Word × Nat :=
  let lg := i.draw == 2
  let src : CoinSrc := ⟨c.key, c.gen, c.table⟩
  match l with
  | [] => (zeroMass lg, 0)
  | x :: r =>
    r.zipIdx.foldl (fun (a : Word × Nat) y =>
      let (v, n) := mergeV lg nt (src.coin i.site (0x80000 + row * 64 + (y.2 + 1))) a.1 y.1
      (v, a.2 + n)) (x, 0)

/-! ### Chunks of an armed tile (R311, R365) -/

def chunkBytes : Nat := 4096

/-- Chunks of a command that the collective engine has not accepted. -/
def State.unsent (s : State) (ck : Nat) (c : Cmd) : Nat :=
  ((s.die (dkOf ck)).trigs.filter fun x => !x.sent && x.cmd.u == c.u).length

/-- A row that would begin a third chunk waits. -/
def State.rowWaits (s : State) (ck : Nat) (c : Cmd) (t : Tile) : Bool :=
  let rb := t.rowBytes
  let up (n : Nat) : Nat := (n + chunkBytes - 1) / chunkBytes
  let begun := up (c.pos * rb)
  let accepted := c.handed - s.unsent ck c
  t.armed && !t.faulted && decide (begun < up ((c.pos + 1) * rb)) && decide (accepted + 2 ≤ begun)

/-- Hands the chunks from one number up to another to the collective engine, with the route as it now stands. Once pre-emption of the
context has begun they are latched (R366). ENC may pass 255 (log 80). -/
def State.handOver (s : State) (ck i : Nat) (c : Cmd) (from_ upTo : Nat) : State :=
  let t := s.tile ck i
  -- the trailing copy of a pair hands nothing over
  if !t.armed || t.faulted || c.copy == 2 then s
  else
    let stops := s.finishing (dkOf ck) c.ctx
    (List.range (upTo - from_)).foldl (fun s j =>
      let s := if stops then s.modTile ck i fun t => { t with latched := true } else s
      let k := from_ + j
      let route := Tab.getOr (s.core ck).routes (c.ctx * 32 + t.route) 0
      let (u, s) := s.fresh
      let x : Trig := { u := u, ck := ck, tile := i, cmd := c, index := k, route := route, op := t.op,
                        addr := field route.toNat 118 64 + t.roff + chunkBytes * k,
                        bytes := s.bytes (t.loc + chunkBytes * k) (min chunkBytes (t.len - chunkBytes * k)), late := stops }
      (s.modDie (dkOf ck) fun d => { d with trigs := d.trigs ++ [x] }).modIssuer c fun t =>
        { t with c := { t.c with enc := t.c.enc + 1 } }) s

/-! ### Row steps (R309) -/

/-- The epilogue ends; `ok` is false after a failed access. -/
def State.epiEnd (s : State) (ck : Nat) (c : Cmd) (i : EpiIm) (ok : Bool) : State :=
  let ai := s.cmdTile ck c i.acc
  let oi := s.cmdTile ck c i.out
  let s := s.popMat ck c.u
  let s := s.modTile ck ai fun t => { t with st := if i.keep then .ready else .empty, byeng := false }
  let s := if i.glob then s
    else
      let s := s.modTile ck oi fun t => { t.plainContents with st := .ready, byeng := false, mepi := some c }
      if ok then s.handOver ck oi c c.handed (((s.tile ck oi).len + chunkBytes - 1) / chunkBytes) else s
  s.endCmd c (if ok && !c.failed then 0 else 2) 0 1

/-- After the last row the epilogue ends, once writes that were on their way at a pre-emption have performed (R312). -/
def State.epiLast (s : State) (ck : Nat) (c : Cmd) (i : EpiIm) : State :=
  if (s.core ck).sent.any fun x => x.cmd.u == c.u then s else s.epiEnd ck c i true

/-- A row stands: chunks it completes are handed over, and after the last row the epilogue ends. -/
def State.rowDone (s : State) (ck u : Nat) (i : EpiIm) (rows : Nat) (nan : Nat) : State :=
  match s.findMat ck u with
  | none => s
  | some c =>
    let oi := s.cmdTile ck c i.out
    let full := if i.glob then c.handed else (c.pos + 1) * (s.tile ck oi).rowBytes / chunkBytes
    let s := if i.glob then s else s.handOver ck oi c c.handed full
    let s := s.modMat ck u fun c =>
      { c with pos := c.pos + 1, handed := max c.handed full, nan := c.nan + nan, wr := [], merged := none }
    match s.findMat ck u with
    | some c => if rows ≤ c.pos then s.epiLast ck c i else s
    | none => s

/-- The commands that draw one row of a product, by core in ascending order, once every core of the grid row has its pair. -/
def State.rowMates (s : State) (g : Place) (m : Nat) : Option (List (Nat × Cmd × Word)) :=
  g.cores.mapM fun ck => do
    let c ← s.matHead ck
    let v ← Tab.look c.pairs m
    let t := s.tile ck (s.cmdTile ck c (epiIm (cmdImage c)).acc)
    if c.pos = m ∧ (t.grid.map (·.id)) = some g.id then some (ck, c, v) else none

/-- CLUSTER_MERGE: the row pairs of a grid row merge, and every core has the merged pair to write; the chain's replacements count to the
command of the lowest core (R310). -/
def State.rowMerge (s : State) (g : Place) (acc : Tile) (m : Nat) : State :=
  match s.rowMates g m with
  | some ((ck0, c0, v0) :: rest) =>
    let i0 := epiIm (cmdImage c0)
    let nt := s.cmdNanTest ck0 c0
    let (v, n) := chainPairs c0 nt i0 (m + acc.rows * g.row) (v0 :: rest.map fun x => x.2.2)
    ((ck0, c0, v0) :: rest).foldl (fun s x =>
      s.modMat x.1 x.2.1.u fun c => { c with pairs := [], merged := some (v, if x.1 = ck0 then n else 0) }) s
  | _ => s

/-- Writes the `k`-th part of a row that has not been written; with the last one the row stands, and `nan` counts. -/
def State.rowWrite (s : State) (ck : Nat) (c : Cmd) (i : EpiIm) (rows k nan : Nat) (l : List RowSpan) : Eng :=
  let left := l.zipIdx.filter fun x => !(c.wr.any fun e => e.1 == x.2)
  match left[k]? with
  | none => .wait s
  | some (r, j) =>
    match s.engWrite ck c r.at_ r.n r.v with
    | .ok s _ =>
      let s := s.modMat ck c.u fun c => { c with wr := (j, 1) :: c.wr }
      .ok (if left.length ≤ 1 then s.rowDone ck c.u i rows nan else s) 0
    | e => e

/-- A drawn row: its pair, merged over the grid row where the product is a cluster's, is written as eight single bytes. -/
def State.rowDraw (s : State) (ck : Nat) (c : Cmd) (i : EpiIm) (be : Word) (acc out : Tile) (p : EpiPar) (k : Nat) : Eng :=
  let m := c.pos
  let nt := s.cmdNanTest ck c
  let pair (_ : Unit) : Word × Nat := rowPair c nt i be acc m (epiTs (acc.fmt == 12) i p (s.accRow acc m))
  let put (v : Word × Nat) : Eng := s.rowWrite ck c i acc.rows k v.2 (RowSpan.cuts ⟨.loc (out.loc + 8 * m), 8, v.1.toNat⟩)
  match acc.clus, acc.grid with
  | true, some g =>
    match c.merged with
    | some v => put v
    | none =>
      if (Tab.look c.pairs m).isSome then .wait s
      else
        let (v, n) := pair ()
        .ok ((s.modMat ck c.u fun c => { c with pairs := [(m, v)], nan := c.nan + n }).rowMerge g acc m) 0
  | _, _ => put (pair ())

/-- EPILOGUE_ROW_STEP: the epilogue makes choice `k` among the reads of its parameter block and then among the writes of its row
(R247: no order among them). -/
def execEpilogueRowStep (ck k : Nat) (s : State) : Out :=
  .next <|
    match s.matHead ck with
    | none => s
    | some c =>
      match c.k with
      | .mepi w par be dst =>
        let i := epiIm w
        let acc := s.tile ck (s.cmdTile ck c i.acc)
        let out := s.tile ck (s.cmdTile ck c i.out)
        if s.obsBlocked c then s
        else if i.glob && c.failed then s.epiEnd ck c i false
        else if i.glob && decide (acc.rows ≤ c.pos) then s.epiLast ck c i
        else if !i.glob && ((!c.began && out.readers != 0) || (c.wr.isEmpty && s.rowWaits ck c out)) then s
        else
          let s := s.modMat ck c.u fun c => { c with began := true }
          let p := c.epiPar acc.cols
          let isInt := acc.fmt == 12
          let r : Eng :=
            match c.unread (epiCuts i par acc.cols), par with
            | x :: rest, some a =>
              match (x :: rest)[k]? with
              | none => .wait s
              | some x =>
                match s.engRead ck c (a.plus x.1) x.2 with
                | .ok s v => .ok (s.modMat ck c.u fun c => { c with got := c.got ++ [(x.1, x.2, v)] }) 0
                | e => e
            | _, _ =>
              if i.draw ≠ 0 then s.rowDraw ck c i be acc out p k
              else s.rowWrite ck c i acc.rows k 0 ((s.epiSpans acc out dst c.pos isInt i p).flatMap RowSpan.cuts)
          match r with
          | .fail s a => (s.cmdFault c 4 a).epiEnd ck ((s.findMat ck c.u).getD c) i false
          | .wait s | .ok s _ => s
      | _ => s

/-- A row that goes to the global space is on its way as its context is pre-empted: what is left of it is sent, and the sequencer stands
at its boundary without waiting for an answer (R311, R312). A request for the parameter block is dropped. -/
def State.stopRow (s : State) (ck : Nat) (c : Cmd) : State :=
  match c.k with
  | .mepi w par _ dst =>
    let i := epiIm w
    let acc := s.tile ck (s.cmdTile ck c i.acc)
    if i.glob && (c.unread (epiCuts i par acc.cols)).isEmpty && decide (c.pos < acc.rows) && !(c.wr.isEmpty && c.asks.isEmpty) then
      let l := (s.epiGlobal acc dst c.pos (acc.fmt == 12) i (c.epiPar acc.cols)).flatMap RowSpan.cuts
      let left := l.zipIdx.filter fun x => !(c.wr.any fun e => e.1 == x.2)
      let s := left.foldl (fun s x => s.sendOff ck c x.1.at_.num x.1.n x.1.v none false false) s
      (s.modMat ck c.u fun c => { c with asks := [] }).rowDone ck c.u i acc.rows 0
    else s.modMat ck c.u fun c => { c with asks := [] }
  | _ => s

end Sys2Proof.Machine
end

