-- ==== Sys2Proof/Machine/CollOps.lean ====
section
/-! DEFINITION. The instructions of the collective engine: TARM, ROUTE, COLL, CWAIT, CCANCEL and ENGQ (R352, R353, R363 to
R373). -/

namespace Sys2Proof.Machine

/-! ### Communicators and operation images (R348, R352, R353) -/

def State.comm (s : State) (dk c : Nat) : Comm := Tab.getOr (s.die dk).comms c {}
def State.setComm (s : State) (dk c : Nat) (x : Comm) : State := s.modDie dk fun d => { d with comms := Tab.put d.comms c x }
def State.modComm (s : State) (dk c : Nat) (f : Comm → Comm) : State := s.setComm dk c (f (s.comm dk c))

structure CollIm where
  op : Nat
  oper : Nat
  comm : Nat
  root : Nat
  site : Nat
  deriving DecidableEq, Repr

def collIm (w : Word) : CollIm :=
  let n := w.toNat
  { op := field n 3 0, oper := field n 7 4, comm := field n 11 8, root := field n 15 12, site := field n 27 16 }

/-- Bytes that an operation writes at C, for `n` members and `e` bytes. -/
def CollIm.outLen (i : CollIm) (n e : Nat) : Nat := if i.op = 1 then e / n else if i.op = 2 then n * e else e

/-- The image's own form: operators an operation takes, and unused fields zero. -/
def CollIm.ok (i : CollIm) (w : Word) : Bool :=
  let operOk := if i.op = 1 ∨ i.op = 3 ∨ i.op = 4 then decide (i.oper ≤ 6) else if i.op = 7 then i.oper == 7 || i.oper == 8 else i.oper == 0
  field w.toNat 63 28 == 0 && decide (i.op ≤ 7) && operOk && (i.op == 5 || i.root == 0) && (i.op == 7 || i.site == 0)

/-- Two engine spans share a byte. -/
def EAd.meets (a b : EAd) (n m : Nat) : Bool :=
  match a, b with
  | .glob x, .glob y => overlaps x n y m
  | .loc x, .loc y => overlaps x n y m
  | _, _ => false

/-- Checks a COLL (R352, R369). -/
def State.checkColl (s : State) (tk : Nat) (w b c e : Word) : Except FI CmdK :=
  let f2 : Except FI CmdK := .error { code := 0x02 }
  let i := collIm w
  let n := e.toNat
  let cm := s.comm (dkOf (ckOf tk)) i.comm
  if !i.ok w then f2
  else if i.op = 0 then
    if c ≠ 0 ∨ e ≠ 0 ∨ field b.toNat 63 62 ≠ 0 then f2
    else match s.engOperand tk b 64 with
      | .ok x => .ok (.coll w x (.glob 0) 0)
      | .error f => .error f
  else if i.op = 6 ∧ (b ≠ 0 ∨ c ≠ 0 ∨ e ≠ 0) then f2
  else if i.op ≠ 6 ∧ (isTileAddr b ∨ isTileAddr c ∨ n = 0 ∨ 2 ^ 28 < n ∨ n % 4096 ≠ 0) then f2
  else if cm.st = 0 ∨ cm.unbind ∨ cm.ctx ≠ (s.thr tk).ctx then .error { code := 0x12 }
  else if i.op = 6 then .ok (.coll w (.glob 0) (.glob 0) 0)
  else
    let k := cm.ring.length
    if ((i.op = 1 ∨ i.op = 3) ∧ n % (4096 * k) ≠ 0) ∨ k ≤ i.root then f2
    else
      match s.engOperand tk b n, s.engOperand tk c (i.outLen k n) with
      | .ok x, .ok y => if x.meets y n (i.outLen k n) then f2 else .ok (.coll w x y n)
      | .error f, _ | _, .error f => .error f

/-! ### Acceptance by the die's engine (R369, R372, R373) -/

def collqMax : Nat := 64

/-- Commands of a die's engine that have not finished. -/
def Die.collUsed (d : Die) : Nat := d.collq.length + d.binds.length + d.ops.length

/-- A command of the collective engine is accepted; a pair's trailing copy only waits for what the leading one takes. -/
def State.acceptDie (s : State) (l : Lane) (k : CmdK) (rel coll bind : Bool) (h : Hint) (enter : State → Cmd → State) : Res :=
  let t := s.thr l.tk
  if t.trails then s.follow l
  else match s.ticketSrc l.tk with
  | .skip n => .ok (s.skipCmd l n)
  | .park => .park .copies
  | _ =>
    if collqMax ≤ (s.die (dkOf l.ck)).collUsed then .park (.room 3)
    else if ctrMax ≤ t.c.enc then .park (.room 8)
    else
      let (n, s) := s.takeTicket l.ck t.ctx coll bind
      let (u, s) := s.fresh
      -- its writes perform directly, in a pair as well (R373)
      let c := { s.newCmd l u n k rel h with copy := 0 }
      let s := enter (s.launchCmd c.launch) c
      let s := s.modThr l.tk fun t => { t with cmds := t.cmds ++ [n], c := { t.c with enc := t.c.enc + 1 } }
      let v : Word := BitVec.ofNat 64 n
      .ok ((s.pass l.tk { pos := t.nw, src := false, v := [v] }).put l v)

/-- COLL of operation `op`; a word whose image names another operation is malformed as that row. -/
def collBody (op : Nat) (rel : Bool) (h : Hint) (s : State) (l : Lane) : Res :=
  let i := collIm l.a.w64
  if i.op ≠ op ∧ i.op ≤ 7 then .fault { code := 0x02 }
  else
    match s.checkColl l.tk l.a.w64 l.b.w64 l.c.w64 l.e.w64 with
    | .error f => .fault f
    | .ok k =>
      s.acceptDie l k rel true (op == 0) h fun s c =>
        let dk := dkOf l.ck
        if op = 0 then s.modDie dk fun d => { d with binds := d.binds ++ [{ comm := i.comm, cmd := c, since := s.clock }] }
        else
          let cm := s.comm dk i.comm
          (s.setComm dk i.comm { cm with issued := cm.issued + 1 }).modDie dk fun d =>
            { d with ops := d.ops ++ [{ comm := i.comm, seq := cm.issued + 1, cmd := c, since := s.clock }] }

def collUse (o : O4) : Use := { use4 o with feat := some 8, close := true }

def execCollBind (f : Frame) (rel : Bool) (h : Hint) (o : O4) (s : State) : Out := word f (collUse o) (collBody 0 rel h) s
def execCollReduceScatter (f : Frame) (rel : Bool) (h : Hint) (o : O4) (s : State) : Out :=
  word f (collUse o) (collBody 1 rel h) s
def execCollAllGather (f : Frame) (rel : Bool) (h : Hint) (o : O4) (s : State) : Out := word f (collUse o) (collBody 2 rel h) s
def execCollAllReduceRing (f : Frame) (rel : Bool) (h : Hint) (o : O4) (s : State) : Out :=
  word f (collUse o) (collBody 3 rel h) s
def execCollAllReduceTree (f : Frame) (rel : Bool) (h : Hint) (o : O4) (s : State) : Out :=
  word f (collUse o) (collBody 4 rel h) s
def execCollBroadcast (f : Frame) (rel : Bool) (h : Hint) (o : O4) (s : State) : Out := word f (collUse o) (collBody 5 rel h) s
def execCollBarrier (f : Frame) (rel : Bool) (h : Hint) (o : O4) (s : State) : Out := word f (collUse o) (collBody 6 rel h) s
def execCollDrawMerge (f : Frame) (rel : Bool) (h : Hint) (o : O4) (s : State) : Out := word f (collUse o) (collBody 7 rel h) s

/-- ENGQ. -/
def execEngq (f : Frame) (h : Hint) (o : O2) (s : State) : Out :=
  word f (use2 o)
    (fun s l =>
      let a := l.a.w64.toNat
      let b := l.b.w64
      if 16 ≤ a then .fault { code := 0x02 }
      else if b.toNat % 64 ≠ 0 then .fault { code := 0x07, addr := b }
      else s.acceptDie l (.engq a b.toNat) false false false h fun s c =>
        s.modDie (dkOf l.ck) fun d => { d with collq := d.collq ++ [c] }) s

/-! ### CWAIT and CCANCEL (R370, R371) -/

/-- How a ticket of a core stands for a context: its record, and its status as CWAIT reads it. -/
def State.ticketStatus (s : State) (ck ctx n : Nat) : Option Tick × Nat :=
  let c := s.core ck
  match (if n < 2 ^ 32 then Tab.look c.ticks n else none) with
  | none => (none, 0xFE)
  | some t =>
    if t.ctx ≠ ctx then (none, 0xFE)
    else match t.done with
      | none => (some t, 0xFF)
      | some v => (some t, if t.fin + 4096 < c.ticket then 0xFD else v)

/-- CWAIT: a wait that counts in no counter, or a poll. -/
def cwaitBody (s : State) (l : Lane) : Res :=
  let t := s.thr l.tk
  if t.trails then s.follow l
  else
    let n := l.a.w64.toNat
    let (_, v) := s.ticketStatus l.ck t.ctx n
    if l.b.w64 = 0 ∧ v = 0xFF then .ok (s.pendNew l (.cwait n) 7).2
    else
      let (u, s) := s.pendNew l (.cwait n) 7
      .ok (s.deliverOut l.tk u [BitVec.ofNat 64 v] none)

def execCwait (f : Frame) (h : Hint) (o : O2) (s : State) : Out :=
  let _ := h
  word f { use2 o with vl := true } cwaitBody s

/-- The operation of a die's engine that a ticket names. -/
def State.opOfTicket (s : State) (ck ctx n : Nat) : Option CollOp :=
  (s.die (dkOf ck)).ops.find? fun o => o.cmd.ticket == n && ckOf o.cmd.tk == ck && o.cmd.ctx == ctx && !o.fin

/-- An operation is cancelled at every member; a member that has not issued it will end it as it does. -/
def State.cancelOp (s : State) (dk : Nat) (o : CollOp) : State :=
  (s.comm dk o.comm).ring.foldl (fun s m =>
    let k := dieKey m.1 m.2
    if (s.die k).ops.any fun x => x.comm == o.comm && x.seq == o.seq then
      s.modDie k fun d =>
        { d with ops := d.ops.map fun x => if x.comm = o.comm ∧ x.seq = o.seq then { x with cancel := true } else x }
    else if (s.comm k o.comm).issued < o.seq then s.modComm k o.comm fun c => { c with ended := c.ended ++ [(o.seq, 1)] }
    else s) s

/-- CCANCEL. -/
def ccancelBody (s : State) (l : Lane) : Res :=
  let t := s.thr l.tk
  if t.trails then s.follow l
  else if t.leads && !s.inqRoom l.tk then .park .copies
  else
    let n := l.a.w64.toNat
    let give (s : State) (v : Word) : Res := .ok ((s.pass l.tk { pos := t.nw, src := false, v := [v] }).put l v)
    match s.opOfTicket l.ck t.ctx n with
    | some o => give (s.cancelOp (dkOf l.ck) o) 0
    | none =>
      match s.ticketStatus l.ck t.ctx n with
      | (some k, v) => give s (if k.coll && k.done.isSome && v != 0xFD then 1 else 2)
      | (none, _) => give s 2

def execCcancel (f : Frame) (h : Hint) (o : O1) (s : State) : Out :=
  let _ := h
  word f (use1 o) ccancelBody s

/-! ### TARM and ROUTE (R363 to R368) -/

/-- The format that an operator of R353 takes. -/
def operFmt (op : Nat) : Nat := match op with | 0 | 3 | 4 => 1 | 1 => 2 | _ => 12

/-- A command that stands for a tile that no epilogue has written: chunks that TARM fires are those of the thread that arms, under a
number of their own that no ticket has (log 74). -/
def State.armCmd (s : State) (l : Lane) : Cmd × State :=
  let (u, s) := s.fresh
  (s.newCmd l u (2 ^ 32 + u) (.engq 0 0) false .dflt, s)

/-- TARM: an armed entry with an equal image stays as it is; a ready tile fires at once. -/
def tarmBody (n r : Nat) (s : State) (l : Lane) : Res :=
  let a := l.a.w64.toNat
  let off := l.b.w64.toNat
  let op := a % 16
  let fE : Res := .fault { code := 0x0E }
  if 16 ≤ a ∨ (7 ≤ op ∧ op ≠ 15) ∨ off % 128 ≠ 0 ∨ 2 ^ 48 ≤ off then .fault { code := 0x02 }
  else
    match s.useTile l.tk n with
    | none => fE
    | some (i, t) =>
      if t.armed ∧ !t.faulted ∧ t.route = r ∧ t.op = op ∧ t.roff = off then .ok s
      else if (t.armed ∧ !t.faulted) ∨ t.plane ∨ (t.st ≠ .empty ∧ t.st ≠ .ready) ∨ (op ≠ 15 ∧ t.fmt ≠ operFmt op)
          ∨ !(Tab.getOr (s.core l.ck).routes ((s.thr l.tk).ctx * 32 + r) 0).getLsbD 10 then fE
      else
        let s := s.modTile l.ck i fun t =>
          { t with armed := true, faulted := false, latched := false, route := r, op := op, roff := off, acked := 0 }
        if t.st = .ready then
          let (c, s) := match t.mepi with | some c => (c, s) | none => s.armCmd l
          .ok (s.handOver l.ck i c 0 ((t.len + chunkBytes - 1) / chunkBytes))
        else .ok s

def execTarm (f : Frame) (h : Hint) (o : S2) (t : BitVec 6) (wr : BitVec 5) (s : State) : Out :=
  let _ := h
  word f { useS2 o with feat := some 8 } (tarmBody t.toNat wr.toNat) s

def execRoute (f : Frame) (h : Hint) (o : S2) (wr : BitVec 5) (s : State) : Out :=
  let _ := h
  word f (useS2 o)
    (fun s l =>
      let lo := l.a.w64
      let hi := l.b.w64
      if field lo.toNat 63 11 ≠ 0 ∨ field hi.toNat 63 55 ≠ 0 then .fault { code := 0x02 }
      else
        let v : BitVec 128 := hi ++ lo
        .ok (s.modCore l.ck fun c => { c with routes := Tab.put c.routes ((s.thr l.tk).ctx * 32 + wr.toNat) v })) s

end Sys2Proof.Machine
end

