-- ==== Sys2Proof/Machine/Collective.lean ====
section
/-! DEFINITION. The collective engine at work: binds, operations and their fixed combine orders, chunks with absent blocks,
buffers and acknowledgements, arbitration, re-formation of the ring, and chunks of armed tiles (R348 to R366). -/

namespace Sys2Proof.Machine

/-! ### Members -/

def memberDk (m : Nat × Nat) : Nat := dieKey m.1 m.2
def dkMember (dk : Nat) : Nat × Nat := (pkgOfDie dk, dieIx dk)

/-- The position of a die in a ring. -/
def ringPos (ring : List (Nat × Nat)) (m : Nat × Nat) : Option Nat := ring.findIdx? fun x => x == m

def State.collOp (s : State) (dk c seq : Nat) : Option CollOp := (s.die dk).ops.find? fun o => o.comm == c && o.seq == seq

/-- An operation at a member, finished there or not. -/
def State.opAt (s : State) (dk c seq : Nat) : Option CollOp :=
  s.collOp dk c seq <|> (s.die dk).ending.find? fun o => o.comm == c && o.seq == seq

def State.modOp (s : State) (dk u : Nat) (f : CollOp → CollOp) : State :=
  s.modDie dk fun d => { d with ops := d.ops.map fun o => if o.cmd.u = u then f o else o }

def State.dropOp (s : State) (dk u : Nat) : State := s.modDie dk fun d => { d with ops := d.ops.filter fun o => o.cmd.u != u }

/-- The core whose translations serve a command. -/
def Cmd.ck (c : Cmd) : Nat := ckOf c.tk

/-- Image, sides and byte count of an operation. -/
def CollOp.parts (o : CollOp) : CollIm × EAd × EAd × Nat :=
  match o.cmd.k with
  | .coll w b c n => (collIm w, b, c, n)
  | _ => (collIm 0, .glob 0, .glob 0, 0)

/-! ### The end of an operation (R355, R356, R369) -/

/-- An operation that has finished at every member serves no other any more. -/
def State.overEnd (s : State) (c seq : Nat) (ring : List (Nat × Nat)) : State :=
  if ring.any fun m => (s.collOp (memberDk m) c seq).any fun o => !o.fin then s
  else ring.foldl (fun s m => s.modDie (memberDk m) fun d =>
    { d with ending := d.ending.filter fun o => !(o.comm == c && o.seq == seq),
             ops := d.ops.filter fun o => !(o.comm == c && o.seq == seq && o.fin) }) s

/-- An operation ends at a member with a status of CWAIT; a failure is recorded there. One that finishes is kept for members that
still run it (R362). -/
def State.collEnd (s : State) (dk : Nat) (o : CollOp) (status addr : Nat) : State :=
  let ring := (s.comm dk o.comm).ring
  let s := s.dropOp dk o.cmd.u
  let s := if status = 0 then s.modDie dk fun d => { d with ending := d.ending ++ [o] } else s
  if o.fin then s.overEnd o.comm o.seq ring
  else
  let s := s.overEnd o.comm o.seq ring
  let s := if status = 2 then s.cmdFault o.cmd 5 addr else s
  let s := s.modComm dk o.comm fun c =>
    if o.begun || c.st != 2 then { c with st := if status = 2 then 3 else 1 } else c
  let s := if (s.comm dk o.comm).unbind && !((s.die dk).ops.any fun x => x.comm == o.comm) then s.setComm dk o.comm {} else s
  s.endCmd o.cmd status 1 0

/-- An operation ends with one status at every member; those that have not issued it end it as they do. -/
def State.endAll (s : State) (dk c seq status : Nat) : State :=
  (s.comm dk c).ring.foldl (fun s m =>
    let k := memberDk m
    match s.collOp k c seq with
    | some o => s.collEnd k o status 0
    | none =>
      if (s.comm k c).issued < seq then s.modComm k c fun x => { x with ended := x.ended ++ [(seq, status)] } else s) s

/-! ### Messages (R357, R359) -/

/-- Bytes of the blocks present in one half of a chunk. -/
def halfBytes (bytes : List Byte) (pres : BitVec 32) (half : Nat) : List Byte :=
  (List.range 16).flatMap fun b =>
    let j := 16 * half + b
    if pres.getLsbD j then (bytes.drop (128 * j)).take 128 else []

/-- A chunk from the halves' bytes; absent blocks are zeros. -/
def joinHalves (pres : BitVec 32) (lo hi : List Byte) : List Byte :=
  let one (half : Nat) (l : List Byte) : List Byte :=
    ((List.range 16).foldl (fun (a : List Byte × List Byte) b =>
      if pres.getLsbD (16 * half + b) then (a.1 ++ a.2.take 128, a.2.drop 128) else (a.1 ++ List.replicate 128 0, a.2)) ([], l)).1
  one 0 lo ++ one 1 hi

/-- Blocks that a sender finds present: all, or those with a byte that is not zero (R358). -/
def presOf (elide : Bool) (bytes : List Byte) : BitVec 32 :=
  (List.range 32).foldl (fun m b =>
    if !elide || ((bytes.drop (128 * b)).take 128).any (· != 0) then m ||| BitVec.twoPow 32 b else m) 0

/-- The fields that messages of one communicator share. -/
def collMsg (dk : Nat) (dst : Nat × Nat) (comm kind seq index step epoch score : Nat) : Msg :=
  { u := 0, ty := .chunk, src := pkgOfDie dk, dst := dst.1, req := 0, sdie := dieIx dk, ddie := dst.2, comm := comm, kind := kind,
    seq := seq, opno := seq, index := index, step := step, txid := epoch, score := score }

/-- Sends a chunk as its two messages. -/
def State.sendHalves (s : State) (m : Msg) (bytes : List Byte) (pres : BitVec 32) : State :=
  (s.send { m with half := 0, pres := pres, bytes := halfBytes bytes pres 0 }).send
    { m with half := 1, pres := pres, bytes := halfBytes bytes pres 1 }

/-- What tells one message of a chunk from another (R359); STATUS tells triggered data apart. -/
def chunkKey (m : Msg) (half : Nat) : List Nat := [m.src, m.sdie, m.ddie, m.comm, m.kind, m.seq, m.index, m.step, m.txid, m.score, half]

/-- The answer to a chunk message: an acknowledgement (1) or a refusal (3). -/
def State.answerChunk (s : State) (dk : Nat) (m : Msg) (kind : Nat) : State :=
  s.send { collMsg dk (m.src, m.sdie) m.comm kind m.seq m.index m.step m.txid m.score with
    opno := m.opno, status := if m.kind = 4 then 1 else 0 }

/-- The other half of a chunk, arrived and good. -/
def State.sibling (s : State) (p : Nat) (m : Msg) : Option Msg :=
  s.net.find? fun x => x.ty == .chunk && x.dst == p && x.st == .arrived && !x.bad && x.half == 1 - m.half
    && chunkKey x 0 == chunkKey m 0

/-- A message that has been accepted before is dropped and counted, and acknowledged again. -/
def State.dupChunk (s : State) (dk : Nat) (m : Msg) (again : Bool) : State :=
  let s := (s.dropMsg m.u).modDie dk fun d => { d with dup := d.dup + 1 }
  if again then s.answerChunk dk m 1 else s

/-! ### Combines (R353, R358) -/

/-- Sums elide their zero blocks, and so do all-gather and broadcast. -/
def CollIm.elides (i : CollIm) : Bool := i.op == 2 || i.op == 5 || ((i.op == 1 || i.op == 3 || i.op == 4) && decide (i.oper ≤ 2))

/-- One element of an operator 0 to 6. -/
def combineEl (oper l r : Nat) : Nat :=
  match oper with
  | 0 => fd32.encode (faddV fd32 .rne (fd32.decode l) (fd32.decode r))
  | 1 => fdBf16.encode (faddV fdBf16 .rne (fdBf16.decode l) (fdBf16.decode r))
  | 2 => (l + r) % 2 ^ 32
  | 3 => fd32.encode (fmaxV fd32 (fd32.decode l) (fd32.decode r))
  | 4 => fd32.encode (fminV fd32 (fd32.decode l) (fd32.decode r))
  | 5 => if toInt 32 true l < toInt 32 true r then r else l
  | _ => if toInt 32 true r < toInt 32 true l then r else l

def operWidth (oper : Nat) : Nat := if oper = 1 then 2 else 4

/-- Elements of `w` bytes of two runs of bytes, combined. -/
def combineBytes (oper w : Nat) (l r : List Byte) : List Byte :=
  (List.range (l.length / w)).flatMap fun k =>
    let el (x : List Byte) : Nat := ofLeBytes ((x.drop (k * w)).take w)
    leBytes w (combineEl oper (el l) (el r))

/-- A draw merge of a block of pairs, the first of which is element `e0`; and the replacements (R354). -/
def drawBytes (c : Cmd) (nt : Bool) (i : CollIm) (k e0 : Nat) (l r : List Byte) : List Byte × Nat :=
  let src : CoinSrc := ⟨c.key, c.gen, c.table⟩
  (List.range 16).foldl (fun (a : List Byte × Nat) j =>
    let el (x : List Byte) : Word := BitVec.ofNat 64 (ofLeBytes ((x.drop (8 * j)).take 8))
    let u := src.coin i.site (0xC0000 + (16 * (e0 + j) + k) % 2 ^ 18)
    let (v, n) := mergeV (i.oper == 8) nt u (el l) (el r)
    (a.1 ++ leBytes 8 v.toNat, a.2 + n)) ([], 0)

/-- Blocks of a combined chunk that a later combine finds present: a sum's zero block is absent (R358). -/
def afresh (i : CollIm) (v : List Byte × BitVec 32) : List Byte × BitVec 32 := (v.1, v.2 &&& presOf i.elides v.1)

/-- Combines two chunks block by block; an absent block passes the other through. `x` is the chunk index, `k` the merge. -/
def combineChunk (c : Cmd) (nt : Bool) (i : CollIm) (x k : Nat) (l r : List Byte × BitVec 32) : List Byte × BitVec 32 × Nat :=
  (List.range 32).foldl (fun (a : List Byte × BitVec 32 × Nat) b =>
    let blk (v : List Byte × BitVec 32) : List Byte := (v.1.drop (128 * b)).take 128
    let bit := BitVec.twoPow 32 b
    match l.2.getLsbD b, r.2.getLsbD b with
    | true, true =>
      if 7 ≤ i.oper then
        let (v, n) := drawBytes c nt i k (512 * x + 16 * b) (blk l) (blk r)
        (a.1 ++ v, a.2.1 ||| bit, a.2.2 + n)
      else (a.1 ++ combineBytes i.oper (operWidth i.oper) (blk l) (blk r), a.2.1 ||| bit, a.2.2)
    | true, false => (a.1 ++ blk l, a.2.1 ||| bit, a.2.2)
    | false, true => (a.1 ++ blk r, a.2.1 ||| bit, a.2.2)
    | false, false => (a.1 ++ List.replicate 128 0, a.2.1, a.2.2)) ([], 0, 0)

/-! ### The orders of R354 -/

/-- The way of a chunk round the ring: the position of its first step, the steps that combine, all its steps, the first step that
writes at C and the offset written, and the offset read at B. Step `i` takes place `i - 1` positions after the first. -/
structure RingWay where
  start : Nat
  comb : Nat
  total : Nat
  writes : Nat
  off : Nat
  src : Nat
  deriving DecidableEq, Repr

def ringWay (i : CollIm) (n e x : Nat) : RingWay :=
  let cpc := e / 4096
  let at_ := x * 4096
  match i.op with
  | 1 => let per := cpc / n; { start := x / per + 1, comb := n, total := n, writes := n, off := x % per * 4096, src := at_ }
  | 3 => { start := x / (cpc / n) + 1, comb := n, total := 2 * n - 1, writes := n, off := at_, src := at_ }
  | 2 => { start := x / cpc, comb := 1, total := n, writes := 1, off := x / cpc * e + x % cpc * 4096, src := x % cpc * 4096 }
  | 5 => { start := i.root, comb := 1, total := n, writes := 1, off := at_, src := at_ }
  | _ => { start := 0, comb := n, total := 2 * n - 1, writes := n, off := at_, src := at_ }

def RingWay.pos (w : RingWay) (n i : Nat) : Nat := (w.start + i - 1) % n

/-- Positions below a position in the tree, in the order they are combined: those whose subtree its own nodes have at their
right. -/
def treeKids (n p : Nat) : List Nat :=
  (List.range 4).filterMap fun j => if p % 2 ^ (j + 1) = 0 ∧ p + 2 ^ j < n then some (p + 2 ^ j) else none

/-- The position above, and the number of the child it is there. -/
def treeUp (p : Nat) : Nat × Nat :=
  let j := ((List.range 4).find? fun j => p / 2 ^ j % 2 == 1).getD 0
  (p - 2 ^ j, j)

/-- The step of a tree that brings the result down. -/
def treeDown : Nat := 9

def CollIm.chunks (i : CollIm) (n e : Nat) : Nat := if i.op = 6 then 0 else if i.op = 2 then n * (e / 4096) else e / 4096

/-- The steps of a chunk at a position. -/
def CollIm.steps (i : CollIm) (n e x p : Nat) : List Nat :=
  if i.op = 4 then
    let kids := treeKids n p
    (if kids.isEmpty then [0] else (List.range kids.length).map (· + 1)) ++ (if p = 0 then [] else [treeDown])
  else
    let w := ringWay i n e x
    ((List.range w.total).map (· + 1)).filter fun k => w.pos n k == p

/-- The step that takes a chunk from B with nothing received, where a position has one. -/
def CollIm.first (i : CollIm) (n e x p : Nat) : Option Nat :=
  if i.op = 4 then (if (treeKids n p).isEmpty then some 0 else none)
  else if (ringWay i n e x).pos n 1 = p then some 1 else none

/-! ### Steps -/

/-- A part that a command has to read or to write: its number and its count of bytes, by aligned units and single bytes (R241). -/
def stageCuts (a : EAd) (off n : Nat) : List (Nat × Nat) := (unitCuts (a.num + off) n).map fun x => (x.1 - a.num, x.2)

/-- Reads `n` bytes from byte `off` of a span, part by part in any order (R247): choice `k` among the parts still unread; once all are
read, their value. -/
def State.pull (s : State) (ck : Nat) (c : Cmd) (a : EAd) (off n k : Nat) : Eng :=
  match c.unread (stageCuts a off n) with
  | [] => .ok s (ofLeBytes ((List.range n).map fun j => BitVec.ofNat 8 ((c.gotByte (off + j)).getD 0)))
  | l =>
    match l[k]? with
    | none => .wait s
    | some x =>
      match s.engRead ck c (a.plus x.1) x.2 with
      | .ok s v => .wait (s.modCmd ck c.u fun c => { c with got := c.got ++ [(x.1, x.2, v)] })
      | e => e

/-- Writes `n` bytes at byte `off` of a span, part by part in any order: choice `k` among the parts still unwritten; it is done with the
last of them. -/
def State.push (s : State) (ck : Nat) (c : Cmd) (a : EAd) (off n v k : Nat) : Eng :=
  let left := (stageCuts a off n).filter fun x => !c.wr.contains x
  match left[k]? with
  | none => if left.isEmpty then .ok s 0 else .wait s
  | some x =>
    match s.engWrite ck c (a.plus x.1) x.2 (v / 256 ^ (x.1 - off) % 256 ^ x.2) with
    | .ok s _ => if left.length ≤ 1 then .ok s 0 else .wait (s.modCmd ck c.u fun c => { c with wr := x :: c.wr })
    | e => e

/-- A command's notes of a chunk that it has read from byte `a` on, or written from byte `b` on, are of no more use. -/
def Cmd.unstage (c : Cmd) (a : Nat) (b : Option Nat) : Cmd :=
  { c with got := c.got.filter fun e => !(decide (a ≤ e.1) && decide (e.1 < a + 4096)),
           wr := c.wr.filter fun e => !(b.any fun y => decide (y ≤ e.1) && decide (e.1 < y + 4096)) }

/-- A member's own bytes of a chunk. -/
def State.ownChunk (s : State) (o : CollOp) (src : EAd) (off k : Nat) : Except Eng (State × List Byte) :=
  if s.relBlocked o.cmd then .error (.wait s)
  else match s.pull o.cmd.ck o.cmd src off 4096 k with
    | .ok s v => .ok (s, leBytes 4096 v)
    | e => .error e

/-- What a step makes of a member: the offset it reads at B, what is written at C, what goes on, and how the operation stands. -/
structure StepOut where
  src : Nat
  write : Option (Nat × List Byte) := none
  send : List CollOut := []
  keep : Option (Option (List Byte × BitVec 32)) := none
  nan : Nat := 0
  deriving Repr

/-- Writes at C, by choice `k` among the parts left, and records a step once they are written. A member that has finished writes nothing
again, but what a re-formed ring gives it anew (R362). -/
def State.stepDone (s : State) (dk : Nat) (o : CollOp) (x st k : Nat) (dst : EAd) (r : StepOut) : Eng :=
  let fin (s : State) : Eng :=
    .ok (s.modOp dk o.cmd.u fun o =>
      { o with done := o.done ++ [(x, st)], ready := o.ready ++ r.send, wrote := if r.write.isSome then x :: o.wrote else o.wrote,
               vals := match r.keep with | none => o.vals | some none => Tab.cut o.vals x | some (some v) => Tab.put o.vals x v,
               cmd := { o.cmd.unstage r.src (r.write.map (·.1)) with nan := o.cmd.nan + r.nan } }) 0
  match r.write with
  | none => fin s
  | some (off, b) =>
    if o.fin ∧ o.wrote.contains x then fin s
    else match s.push o.cmd.ck o.cmd dst off 4096 (ofLeBytes b) k with
      | .ok s _ => fin s
      | e => e

/-- One step of a ring operation; `ch` chooses among the reads or writes that are left. -/
def State.ringStep (s : State) (dk : Nat) (o : CollOp) (x k ch : Nat) (inc : Option (List Byte × BitVec 32)) : Eng :=
  let (i, b, c, e) := o.parts
  let n := (s.comm dk o.comm).ring.length
  let w := ringWay i n e x
  let nt := s.cmdNanTest o.cmd.ck o.cmd
  let go (s : State) (v : List Byte × BitVec 32) (nan : Nat) : Eng :=
    s.stepDone dk o x k ch c
      { src := w.src, write := if w.writes ≤ k then some (w.off, v.1) else none,
        send := if k < w.total then [⟨0, w.pos n (k + 1), x, k + 1, v.1, v.2⟩] else [],
        nan := nan }
  if w.comb < k then (match inc with | some v => go s v 0 | none => .wait s)
  else
    match s.ownChunk o b w.src ch with
    | .error e => e
    | .ok (s, own) =>
      let mine := (own, presOf i.elides own)
      match inc with
      | none => go s mine 0
      | some v => let (r, p, nan) := combineChunk o.cmd nt i x (k - 1) v mine; go s (afresh i (r, p)) nan

/-- One step of the tree. -/
def State.treeStep (s : State) (dk : Nat) (o : CollOp) (x k ch : Nat) (inc : Option (List Byte × BitVec 32)) : Eng :=
  let (i, b, c, _) := o.parts
  let cm := s.comm dk o.comm
  let n := cm.ring.length
  let p := cm.pos
  let kids := treeKids n p
  let nt := s.cmdNanTest o.cmd.ck o.cmd
  let down (v : List Byte × BitVec 32) : List CollOut := kids.map fun q => ⟨0, q, x, treeDown, v.1, v.2⟩
  let up (v : List Byte × BitVec 32) : List CollOut := let (q, j) := treeUp p; [⟨0, q, x, j + 1, v.1, v.2⟩]
  if k = treeDown then
    match inc with
    | some v => s.stepDone dk o x k ch c { src := x * 4096, write := some (x * 4096, v.1), send := down v }
    | none => .wait s
  else if k = 0 then
    match s.ownChunk o b (x * 4096) ch with
    | .error e => e
    | .ok (s, own) => s.stepDone dk o x k ch c { src := x * 4096, send := up (own, presOf i.elides own) }
  else
    let comb (s : State) (l : List Byte × BitVec 32) : Eng :=
      match inc with
      | none => .wait s
      | some v =>
        let (r, pr, nan) := combineChunk o.cmd nt i x 0 l v
        let (r, pr) := afresh i (r, pr)
        let last := decide (kids.length ≤ k)
        s.stepDone dk o x k ch c
          { src := x * 4096, write := if last && p == 0 then some (x * 4096, r) else none,
            send := if last then (if p = 0 then down (r, pr) else up (r, pr)) else [],
            keep := if last then some none else some (some (r, pr)), nan := nan }
    if k = 1 then
      match s.ownChunk o b (x * 4096) ch with
      | .error e => e
      | .ok (s, own) => comb s (own, presOf i.elides own)
    else match Tab.look o.vals x with
      | some l => if o.done.contains (x, k - 1) then comb s l else .wait s
      | none => .wait s

def State.collStep (s : State) (dk : Nat) (o : CollOp) (x k ch : Nat) (inc : Option (List Byte × BitVec 32)) : Eng :=
  if o.parts.1.op = 4 then s.treeStep dk o x k ch inc else s.ringStep dk o x k ch inc

/-- An operation fails at a member: the other members are told (R369). -/
def State.collFail (s : State) (dk : Nat) (o : CollOp) (addr : Nat) : State :=
  let cm := s.comm dk o.comm
  let s := s.collEnd dk o 2 addr
  (cm.ring.filter fun m => memberDk m != dk).foldl (fun s m =>
    s.send { collMsg dk m o.comm 3 o.seq 0 0 cm.reform 0 with opno := o.no }) s

/-! ### Binds (R349) -/

/-- The fields of a descriptor, if it is well-formed: ring, priority, buffers. -/
def parseDesc (d : List Byte) : Option (List (Nat × Nat) × Nat × Nat) :=
  let b (k : Nat) : Nat := (d[k]?.getD 0).toNat
  let n := b 0
  let mem (k : Nat) : Nat := b (8 + 2 * k) + 256 * b (9 + 2 * k)
  let ring := (List.range n).map fun k => (mem k % 16, mem k / 16 % 4)
  let rest := (List.range 16).all fun k => if k < n then decide (mem k < 64) else mem k == 0
  let zero := ((d.drop 3).take 5).all (· == 0) && (d.drop 0x28).all (· == 0)
  if n < 2 ∨ 16 < n ∨ 3 < b 1 ∨ b 2 < 1 ∨ 8 < b 2 ∨ !rest ∨ !zero ∨ !ring.Nodup then none else some (ring, b 1, b 2)

/-- The oldest bind of a communicator on a die. -/
def State.bindAt (s : State) (dk c : Nat) : Option BindOp := (s.die dk).binds.find? fun b => b.comm == c

def BindOp.ring (b : BindOp) : List (Nat × Nat) :=
  match b.desc.bind parseDesc with
  | some (r, _, _) => r
  | none => []

/-- The binds that belong together with one: those of its ring's members, and those whose ring names its die. -/
def State.bindGroup (s : State) (dk : Nat) (b : BindOp) : List (Nat × BindOp) :=
  (s.dies.map (·.1)).filterMap fun k =>
    match s.bindAt k b.comm with
    | some x => if k = dk ∨ b.ring.contains (dkMember k) ∨ x.ring.contains (dkMember dk) then some (k, x) else none
    | none => none

def State.dropBind (s : State) (dk u : Nat) : State := s.modDie dk fun d => { d with binds := d.binds.filter fun b => b.cmd.u != u }

/-- A bind fails at every member that has issued it, and leaves the communicator unbound. -/
def State.bindFail (s : State) (dk : Nat) (b : BindOp) (addr : Nat) : State :=
  (s.bindGroup dk b).foldl (fun s x =>
    let (k, y) := x
    let running := (s.die k).ops.any fun o => o.comm == b.comm
    let own := (s.comm k b.comm).ctx == y.cmd.ctx
    let s := (s.dropBind k y.cmd.u).cmdFault y.cmd 5 (if k = dk then addr else 0)
    let s := if !own then s else if running then s.modComm k b.comm fun c => { c with unbind := true } else s.setComm k b.comm {}
    s.endCmd y.cmd 2 1 0) s

/-- Receive memory of a die, and what a ring of `n` members with a number of buffers takes of it. -/
def recvBytes : Nat := 8 * 2 ^ 20
def ringBytes (n nbuf : Nat) : Nat := (n - 1) * nbuf * 4104

/-- Receive memory that the other communicators of a die have reserved. -/
def State.recvUsed (s : State) (dk c : Nat) : Nat :=
  (((s.die dk).comms.filter fun x => x.1 != c && x.2.st != 0).map fun x => ringBytes x.2.ring.length x.2.nbuf).sum

/-- A bind whose descriptor has been read fails, completes at every member, or waits for members. -/
def State.bindTry (s : State) (dk : Nat) (b : BindOp) : State :=
  match b.desc with
  | none => s
  | some d =>
    let at_ := match b.cmd.k with | .coll _ (.glob a) _ _ => a | _ => 0
    match parseDesc d with
    | none => s.bindFail dk b 0
    | some (ring, prio, nbuf) =>
      let busy (k : Nat) (x : BindOp) : Bool :=
        ((s.die k).ops.any fun o => o.comm == b.comm) || ((s.comm k b.comm).st != 0 && (s.comm k b.comm).ctx != x.cmd.ctx)
      if !ring.contains (dkMember dk) ∨ at_ % 64 ≠ 0 ∨ busy dk b then s.bindFail dk b 0
      else
        let ms := ring.map fun m => (memberDk m, s.bindAt (memberDk m) b.comm)
        if ms.any fun x => x.2.any fun y => y.desc.any fun z => z != d then s.bindFail dk b 0
        else if ms.any fun x => x.2.all fun y => y.desc.isNone then s
        else if ms.any fun x => decide (recvBytes < s.recvUsed x.1 b.comm + ringBytes ring.length nbuf) || x.2.any (busy x.1) then
          s.bindFail dk b 0
        else
          ms.zipIdx.foldl (fun s x =>
            match x.1.2 with
            | none => s
            | some y =>
              let s := s.dropBind x.1.1 y.cmd.u
              let s := s.setComm x.1.1 b.comm
                { ctx := y.cmd.ctx, st := 1, ring := ring, pos := x.2, prio := prio, nbuf := nbuf, desc := d }
              -- the operations number anew, and so do their messages (R349, R359)
              let s := s.modDie x.1.1 fun d =>
                { d with accepted := d.accepted.filter fun a => a[3]? != some b.comm || a[4]? == some 4,
                         ending := d.ending.filter fun o => o.comm != b.comm }
              s.endCmd y.cmd 0 1 0) s

/-- Reads the descriptor of a die's oldest bind of a communicator. -/
def State.bindRead (s : State) (dk k : Nat) (b : BindOp) : State :=
  if b.desc.isSome || s.relBlocked b.cmd then s
  else match b.cmd.k with
    | .coll _ a _ _ =>
      match s.pull b.cmd.ck b.cmd a 0 64 k with
      | .ok s v =>
        s.modDie dk fun d =>
          { d with binds := d.binds.map fun x => if x.cmd.u = b.cmd.u then { x with desc := some (leBytes 64 v) } else x }
      | .wait s => s
      | .fail s addr => s.bindFail dk b addr
    | _ => s

/-- COLL_BIND_TIMEOUT: a member has not bound within CTX_TIMEOUT of the first bind. -/
def execCollBindTimeout (dk comm : Nat) (s : State) : Out :=
  .next <|
    match s.bindAt dk comm with
    | none => s
    | some b =>
      let g := s.bindGroup dk b
      let first := g.foldl (fun (a : Nat × Nat) x => if x.2.since < a.1 then (x.2.since, ctxKey (pkgOfDie x.1) x.2.cmd.ctx) else a)
        (b.since, ctxKey (pkgOfDie dk) b.cmd.ctx)
      if first.1 + (s.ctx (first.2 / 64) (first.2 % 64)).timer ≤ s.clock then s.bindFail dk b 0 else s

/-! ### The course of an operation at a member -/

/-- An operation that has not begun: it has ended elsewhere, differs from another member's, waits for members, or begins
(R355). -/
def State.opTry (s : State) (dk : Nat) (o : CollOp) : State :=
  let cm := s.comm dk o.comm
  match cm.ended.find? fun x => x.1 == o.seq with
  | some (_, st) => s.collEnd dk o st 0
  | none =>
    let ms := cm.ring.map fun m => s.opAt (memberDk m) o.comm o.seq
    let (i, _, _, n) := o.parts
    if ms.any fun x => x.any fun y => y.parts.1 != i || y.parts.2.2.2 != n then s.endAll dk o.comm o.seq 2
    else if ms.any (·.isNone) then s
    else if (s.die dk).ops.any fun x => x.comm == o.comm && decide (x.seq < o.seq) then s
    else
      let n := (cm.opseq + 1) % 2 ^ 32
      (s.modOp dk o.cmd.u fun o => { o with begun := true, no := n }).modComm dk o.comm fun c =>
        { c with opseq := n, sent := 0, acked := 0, st := 2, noPath := none }

/-- Tokens of a barrier, to every other member (R356). -/
def State.makeTokens (s : State) (dk : Nat) (o : CollOp) : State :=
  let cm := s.comm dk o.comm
  if o.told || s.relBlocked o.cmd then s
  else
    let l := ((List.range cm.ring.length).filter fun q => q != cm.pos).map fun q => (⟨2, q, 0, 0, [], 0⟩ : CollOut)
    s.modOp dk o.cmd.u fun o => { o with told := true, ready := o.ready ++ l }

/-- Takes the next chunk that starts at this member from B. -/
def State.firstStep (s : State) (dk k0 : Nat) (o : CollOp) : State :=
  let cm := s.comm dk o.comm
  let (i, _, _, e) := o.parts
  let n := cm.ring.length
  let next := (List.range (i.chunks n e)).findSome? fun x =>
    match i.first n e x cm.pos with
    | some k => if o.done.contains (x, k) || o.stood.contains x then none else some (x, k)
    | none => none
  match next with
  | none => s
  | some (x, k) =>
    match s.collStep dk o x k k0 none with
    | .ok s _ | .wait s => s
    | .fail s a => s.collFail dk o a

/-- Every step is done, every chunk acknowledged, or every member's token has come: the operation finishes (R356). Tokens of its own
that have no acknowledgement yet keep their buffers (R359). -/
def State.opFinish (s : State) (dk : Nat) (o : CollOp) : State :=
  let cm := s.comm dk o.comm
  let (i, _, _, e) := o.parts
  let n := cm.ring.length
  let all := (List.range (i.chunks n e)).all fun x =>
    o.stood.contains x || (i.steps n e x cm.pos).all fun k => o.done.contains (x, k)
  let told := i.op != 6 || (o.told && (List.range n).all fun q => q == cm.pos || o.tokens.contains q)
  if all && told && o.ready.isEmpty && (i.op == 6 || o.out.isEmpty) then
    (s.modComm dk o.comm fun c => { c with lent := c.lent ++ o.out.map fun x => (x.1, o.seq) }).collEnd dk o 0 0
  else s

/-- The 64 bytes of ENGQ (R351). -/
def State.engqBytes (s : State) (dk c ctx : Nat) : List Byte :=
  let x := s.comm dk c
  let x : Comm := if x.ctx = ctx then x else {}
  leBytes 8 (x.st + x.pos * 4 + (x.ring.length - 1) * 64 + x.prio * 1024 + x.opseq * 2 ^ 16) ++ leBytes 8 x.sent ++ leBytes 8 x.acked
    ++ leBytes 8 (s.die dk).dup
    ++ ((List.range 16).flatMap fun k => leBytes 1 (match x.ring[k]? with | some m => m.1 + 16 * m.2 + 128 | none => 0))
    ++ leBytes 8 x.reform ++ leBytes 8 0

/-- An ENGQ writes its record once every earlier operation of its communicator has begun, and every earlier bind has read its
descriptor (R372). The record is the communicator's as the first part of it is written. -/
def State.engqTry (s : State) (dk k : Nat) (c : Cmd) : State :=
  match c.k with
  | .engq n va =>
    if (s.die dk).ops.any (fun o => o.comm == n && decide (o.cmd.u < c.u) && !o.begun)
        || (s.die dk).binds.any fun b => b.comm == n && decide (b.cmd.u < c.u) && b.desc.isNone then s
    else
      let v := match c.got with | e :: _ => e.2.2 | [] => ofLeBytes (s.engqBytes dk n c.ctx)
      let s := s.modDie dk fun d => { d with collq := d.collq.map fun x => if x.u = c.u then { x with got := [(0, 64, v)] } else x }
      let pop (s : State) : State := s.modDie dk fun d => { d with collq := d.collq.filter fun x => x.u != c.u }
      match s.push c.ck c (.glob va) 0 64 v k with
      | .ok s _ => (pop s).endCmd c 0 1 0
      | .wait s => s
      | .fail s a => ((pop s).cmdFault c 5 a).endCmd c 2 1 0
  | _ => s

/-- Everything a die's engine can do by itself now; `k` chooses among the reads or writes that are left of each. -/
def State.engineLocal (s : State) (dk k : Nat) : State :=
  let opsNow (s : State) : List CollOp := (s.die dk).ops
  let each (s : State) (f : State → CollOp → State) (ok : CollOp → Bool) : State :=
    (opsNow s).foldl (fun s o =>
      match s.collOp dk o.comm o.seq with
      | some o => if ok o then f s o else s
      | none => s) s
  let s := each s (fun s o => s.collEnd dk o 1 0) (·.cancel)
  let binds (s : State) (f : State → BindOp → State) : State :=
    (List.range 16).foldl (fun s c => match s.bindAt dk c with | some b => f s b | none => s) s
  let s := binds s fun s b => s.bindRead dk k b
  let s := binds s fun s b => s.bindTry dk b
  let s := each s (fun s o => s.opTry dk o) (!·.begun)
  let s := each s (fun s o => s.makeTokens dk o) fun o => o.begun && o.parts.1.op == 6
  let s := each s (fun s o => s.firstStep dk k o) fun o => o.begun && o.parts.1.op != 6
  let s := each s (fun s o => s.opFinish dk o) (·.begun)
  (s.die dk).collq.foldl (fun s c => s.engqTry dk k c) s

/-- Some member has not issued an operation within CTX_TIMEOUT of the first that has. -/
def State.matchLate (s : State) (dk : Nat) (o : CollOp) : Bool :=
  let ring := (s.comm dk o.comm).ring
  let ms := ring.filterMap fun m => (s.opAt (memberDk m) o.comm o.seq).map fun x => (memberDk m, x)
  let first := ms.foldl (fun (a : Nat × Nat) x => if x.2.since < a.1 then (x.2.since, ctxKey (pkgOfDie x.1) x.2.cmd.ctx) else a)
    (o.since, ctxKey (pkgOfDie dk) o.cmd.ctx)
  decide (ms.length < ring.length) && decide (first.1 + (s.ctx (first.2 / 64) (first.2 % 64)).timer ≤ s.clock)

/-- COLL_MATCH_TIMEOUT: a member has not issued an operation within CTX_TIMEOUT of the first (R355). -/
def execCollMatchTimeout (dk comm : Nat) (s : State) : Out :=
  .next <|
    match (s.die dk).ops.find? fun o => o.comm == comm && !o.begun && s.matchLate dk o with
    | none => s
    | some o => s.endAll dk comm o.seq 2

/-! ### Chunks of armed tiles (R365, R366) -/

def State.modTrig (s : State) (dk u : Nat) (f : Trig → Trig) : State :=
  s.modDie dk fun d => { d with trigs := d.trigs.map fun x => if x.u = u then f x else x }

/-- A firing fails: the entry sends nothing more, a record is queued, and its MEPI finishes as failed. -/
def State.trigFail (s : State) (dk : Nat) (x : Trig) : State :=
  let gone := (s.die dk).trigs.filter fun y => y.ck == x.ck && y.tile == x.tile
  let s := s.modDie dk fun d => { d with trigs := d.trigs.filter fun y => !(y.ck == x.ck && y.tile == x.tile) }
  let s := gone.foldl (fun s y => if y.acked then s else s.dropCounters y.cmd 1 0) s
  let s := s.modTile x.ck x.tile fun t => { t with faulted := true }
  (s.cmdFault x.cmd 5 0).modMat x.ck x.cmd.u fun c => { c with failed := true }

/-- Acknowledged chunks leave in order; after the last the entry is disarmed. -/
def State.trigRetire (s : State) (dk ck tile : Nat) : Nat → State
  | 0 => s
  | n + 1 =>
    let t := s.tile ck tile
    match (s.die dk).trigs.find? fun y => y.ck == ck && y.tile == tile && y.index == t.acked && y.acked with
    | none => s
    | some y =>
      let s := s.modDie dk fun d => { d with trigs := d.trigs.filter fun z => z.u != y.u }
      let last := decide ((t.len + chunkBytes - 1) / chunkBytes ≤ t.acked + 1)
      (s.modTile ck tile fun t => { t with acked := t.acked + 1, armed := t.armed && !last }).trigRetire dk ck tile n

/-- The chunk of a trigger has been acknowledged. -/
def State.trigAck (s : State) (dk : Nat) (x : Trig) : State :=
  if x.acked then s
  else
    let s := (s.modTrig dk x.u fun y => { y with acked := true, sent := true }).dropCounters x.cmd 1 0
    s.trigRetire dk x.ck x.tile (s.die dk).trigs.length

/-- The peer of a firing, by its route. -/
def Trig.peer (x : Trig) : Nat × Nat := (field x.route.toNat 3 0, field x.route.toNat 5 4)
def Trig.comm (x : Trig) : Nat := field x.route.toNat 9 6

/-! ### Arbitration (R350, R359, R360) -/

/-- Port 16 stands for the crossbar. -/
def crossbar : Nat := 16

/-- The port that takes a chunk of a communicator toward a package. -/
def State.chunkPort (s : State) (p q c : Nat) : Option Nat :=
  if p = q then some crossbar
  else if (s.path p q).lost then none
  else if s.direct p q then some (s.portTo p q)
  else (s.relayFor p { collMsg (dieKey p 0) (q, 0) c 0 0 0 0 0 0 with u := 0 }).map fun r => s.portTo p r

/-- Buffers that a member holds at a position. -/
def State.buffersOut (s : State) (dk c q : Nat) : Nat :=
  let d := s.die dk
  let m := (s.comm dk c).ring[q]?
  (((d.ops.filter fun o => o.comm == c).map fun o => (o.out.filter fun x => x.1 == q).length).sum)
    + ((s.comm dk c).lent.filter fun x => x.1 == q).length
    + (d.trigs.filter fun x => x.sent && !x.acked && x.comm == c && some x.peer == m).length

def State.hasBuffer (s : State) (dk c q : Nat) : Bool := decide (s.buffersOut dk c q < (s.comm dk c).nbuf)

/-- What a communicator of a die has ready. -/
inductive Item where
  | out (o : CollOp) (x : CollOut)
  | trig (x : Trig)
  deriving Repr

/-- The first item of a communicator that goes through a port and holds a buffer. -/
def State.itemFor (s : State) (dk c port : Nat) : Option Item :=
  let p := pkgOfDie dk
  let cm := s.comm dk c
  let via (m : Nat × Nat) (q : Nat) : Bool := s.chunkPort p m.1 c == some port && s.hasBuffer dk c q
  let trig := (s.die dk).trigs.find? fun x =>
    !x.sent && x.comm == c && (s.runsOn dk x.cmd.ctx || (s.finishing dk x.cmd.ctx && !x.late)) && match ringPos cm.ring x.peer with | some q => via x.peer q | none => false
  match trig with
  | some x => some (.trig x)
  | none =>
    ((s.die dk).ops.filter fun o => o.comm == c && o.begun).findSome? fun o =>
      (o.ready.find? fun x => match cm.ring[x.dst]? with | some m => via m x.dst | none => false).map (Item.out o)

/-- Sends an item. -/
def State.sendItem (s : State) (dk c : Nat) (x : Item) : State :=
  let cm := s.comm dk c
  match x with
  | .out o y =>
    match cm.ring[y.dst]? with
    | none => s
    | some m =>
      let msg := { collMsg dk m c y.kind o.seq y.index y.step cm.reform 0 with opno := o.no }
      let s := if y.kind = 2 then s.send msg
        else
          let pres := y.pres &&& presOf o.parts.1.elides y.bytes
          (s.sendHalves msg y.bytes pres).modComm dk c fun z => { z with sent := z.sent + 1 }
      s.modOp dk o.cmd.u fun o =>
        { o with ready := o.ready.filter fun z => !(z.dst == y.dst && z.index == y.index && z.step == y.step),
                 out := o.out ++ [(y.dst, y.index, y.step)] }
  | .trig t =>
    let bytes := t.bytes ++ List.replicate (4096 - t.bytes.length) 0
    let pres := presOf true bytes
    let all : BitVec 32 := (List.range ((t.bytes.length + 127) / 128)).foldl (fun m b => m ||| BitVec.twoPow 32 b) 0
    let pres := if t.op = 15 ∨ t.op ≤ 2 then pres else all
    let msg := { collMsg dk t.peer c 4 t.cmd.ticket t.index t.bytes.length 0 (coreOf t.ck) with line := t.addr, bind := t.op }
    (s.sendHalves msg bytes pres).modTrig dk t.u fun x => { x with sent := true }

/-- Firings whose communicator is not bound here, or whose peer is no member, fail (R366). -/
def State.trigCheck (s : State) (dk : Nat) : State :=
  (s.die dk).trigs.foldl (fun s x =>
    let cm := s.comm dk x.comm
    let here := (s.die dk).trigs.any fun y => y.u == x.u
    if here && !x.sent && s.cmdRuns x.ck x.cmd && (cm.st == 0 || cm.ctx != x.cmd.ctx || (ringPos cm.ring x.peer).isNone) then
      s.trigFail dk x
    else s) s

/-- A port still sends the chunk or the token that its engine arbiter chose last (R360). -/
def Port.inChunk (v : Port) (p : Nat) : Bool := v.sending.any fun x => x.1.src == p && x.1.lanes.contains 8

/-- ENGINE_ARBITRATE: the engines of a package do what they can, and one port, at a chunk's boundary, takes the next chunk: the highest
priority, then the first communicator at or after the pointer. -/
def execEngineArbitrate (pkg port k : Nat) (s : State) : Out :=
  .next <|
    let dks := (List.range 4).map (dieKey pkg)
    let s := dks.foldl (fun s dk => (s.engineLocal dk k).trigCheck dk) s
    if port < 16 ∧ (s.port pkg port).inChunk pkg then s
    else
    let ptr := if port < 16 then (s.port pkg port).arb else 0
    let cand := (List.range 16).flatMap fun j =>
      let c := (ptr + j) % 16
      dks.filterMap fun dk => if (s.comm dk c).st = 0 then none else (s.itemFor dk c port).map fun x => (dk, c, x)
    let best := (List.range 4).foldl (fun (b : Option (Nat × Nat × Item)) q =>
      match cand.find? fun x => (s.comm x.1 x.2.1).prio == q with
      | some x => some x
      | none => b) none
    match best with
    | none => s
    | some (dk, c, x) =>
      let s := s.sendItem dk c x
      if port < 16 then s.modPort pkg port fun v => { v with arb := (c + 1) % 16 } else s

/-! ### Messages of the chunk class at their receivers -/

def State.acceptChunk (s : State) (dk : Nat) (l : List Msg) : State :=
  l.foldl (fun s m => (s.dropMsg m.u).modDie dk fun d => { d with accepted := chunkKey m m.half :: d.accepted }) s

def State.hasAccepted (s : State) (dk : Nat) (m : Msg) : Bool := (s.die dk).accepted.contains (chunkKey m m.half)

/-- A message of the chunk class that has arrived, with its die; a failed tag asks for it again. -/
def onChunk (p j kind : Nat) (s : State) (f : Nat → Msg → State) : Out :=
  .next <|
    match s.arrived p j .chunk with
    | none => s
    | some m => if m.kind ≠ kind then s else if m.bad then s.askAgain p m else f (dieKey p m.ddie) m

/-- CHUNK_DATA: both halves have arrived, and the chunk is combined or written, and acknowledged (R359). -/
def execChunkData (pkg j k : Nat) (s : State) : Out :=
  onChunk pkg j 0 s fun dk m =>
    let cm := s.comm dk m.comm
    if s.hasAccepted dk m then s.dupChunk dk m true
    else if cm.st = 0 then s.dropMsg m.u
    else if m.txid ≠ cm.reform then s.dupChunk dk m false
    else
      match s.collOp dk m.comm m.seq with
      | none => if m.seq ≤ cm.issued then s.dropMsg m.u else s
      | some o =>
        match s.sibling pkg m with
        | none => s
        | some m2 =>
          if !o.begun then s
          else
            let (lo, hi) := if m.half = 0 then (m, m2) else (m2, m)
            match s.collStep dk o m.index m.step k (some (joinHalves m.pres lo.bytes hi.bytes, m.pres)) with
            | .wait s => s
            | .fail s a => (s.acceptChunk dk [m, m2]).collFail dk o a
            | .ok s _ => ((s.acceptChunk dk [m, m2]).answerChunk dk m 1)

/-- BARRIER_TOKEN (R356). -/
def execBarrierToken (pkg j : Nat) (s : State) : Out :=
  onChunk pkg j 2 s fun dk m =>
    let cm := s.comm dk m.comm
    if s.hasAccepted dk m then s.dupChunk dk m true
    else if cm.st = 0 then s.dropMsg m.u
    else if m.txid ≠ cm.reform then s.dupChunk dk m false
    else
      match s.collOp dk m.comm m.seq, ringPos cm.ring (m.src, m.sdie) with
      | some o, some q =>
        ((s.acceptChunk dk [m]).modOp dk o.cmd.u fun o => { o with tokens := o.tokens ++ [q] }).answerChunk dk m 1
      | _, _ => if m.seq ≤ cm.issued then s.dropMsg m.u else s

/-- The trigger that an answer names. -/
def State.trigOf (s : State) (dk : Nat) (m : Msg) : Option Trig :=
  (s.die dk).trigs.find? fun x => coreOf x.ck == m.score && x.cmd.ticket == m.seq && x.index == m.index

/-- CHUNK_ACKNOWLEDGEMENT: the buffer is free again (R359), and a trigger's chunk is done (R365). -/
def execChunkAcknowledgement (pkg j : Nat) (s : State) : Out :=
  onChunk pkg j 1 s fun dk m =>
    let s := s.dropMsg m.u
    if m.status = 1 then
      match s.trigOf dk m with
      | some x => s.trigAck dk x
      | none => s
    else
      let cm := s.comm dk m.comm
      match s.collOp dk m.comm m.seq, ringPos cm.ring (m.src, m.sdie) with
      | some o, some q =>
        if m.txid = cm.reform ∧ o.out.contains (q, m.index, m.step) then
          let s := s.modOp dk o.cmd.u fun o => { o with out := o.out.filter fun x => x != (q, m.index, m.step) }
          if o.parts.1.op = 6 then s else s.modComm dk m.comm fun c => { c with acked := c.acked + 1 }
        else s
      | none, some q => if m.txid = cm.reform then s.modComm dk m.comm fun c => { c with lent := c.lent.erase (q, m.seq) } else s
      | _, _ => s

/-- CHUNK_REFUSAL: an operation failed at its sender (R369), or a firing was refused (R366). -/
def execChunkRefusal (pkg j : Nat) (s : State) : Out :=
  onChunk pkg j 3 s fun dk m =>
    let s := s.dropMsg m.u
    if m.status = 1 then
      match s.trigOf dk m with
      | some x => s.trigFail dk x
      | none => s
    else match s.collOp dk m.comm m.seq with
      | some o => s.collEnd dk o 2 0
      | none => s

/-- One block of memory under a chunk of `n` bytes, combined with memory at the left; an all-zero block of memory is absent under a
sum (R358). -/
def putBlock (oper : Nat) (old data : List Byte) : List Byte :=
  if oper ≤ 2 && old.all (· == 0) then data else combineBytes oper (operWidth oper) old data

/-- What is left of a chunk to put into memory: for a put its parts, for a combine its present blocks, each with the bytes it takes. -/
def putParts (oper va n : Nat) (pres : BitVec 32) : List (Nat × Nat) :=
  if oper = 15 then (unitCuts va n).map fun x => (x.1 - va, x.2)
  else ((List.range 32).filter fun b => pres.getLsbD b && decide (128 * b < n)).map fun b => (128 * b, min 128 (n - 128 * b))

/-- One part of a chunk goes into memory; a block is read, combined and written at once (log 73). -/
def State.putPart (s : State) (c : Cmd) (oper va : Nat) (data : List Byte) (x : Nat × Nat) : Eng :=
  let d := (data.drop x.1).take x.2
  let put (s : State) (b : List Byte) : Eng :=
    match s.engWrite c.ck c (.glob (va + x.1)) x.2 (ofLeBytes b) with
    | .ok s _ => .ok (s.modCmd c.ck c.u fun c => { c with wr := x :: c.wr }) 0
    | e => e
  if oper = 15 then put s d
  else
    match s.engRead c.ck c (.glob (va + x.1)) x.2 with
    | .ok s v => put s (putBlock oper (leBytes x.2 v) d)
    | e => e

/-- CHUNK_TRIGGERED: the peer combines the chunk into memory, with memory at the left, or writes it, by choice `k` among the parts
left; once all are written it acknowledges. Or it refuses (R365, R366). -/
def execChunkTriggered (pkg j k : Nat) (s : State) : Out :=
  onChunk pkg j 4 s fun dk m =>
    let cm := s.comm dk m.comm
    if s.hasAccepted dk m then s.dupChunk dk m true
    else
      match s.sibling pkg m with
      | none => s
      | some m2 =>
        let (lo, hi) := if m.half = 0 then (m, m2) else (m2, m)
        let drop (s : State) : State := s.modDie dk fun d => { d with puts := d.puts.filter fun c => c.u != lo.u }
        let refuse (s : State) : State := (((drop s).dropMsg m.u).dropMsg m2.u).answerChunk dk m 3
        if cm.st = 0 ∨ (ringPos cm.ring (m.src, m.sdie)).isNone then refuse s
        else
          let n := m.step
          let data := (joinHalves m.pres lo.bytes hi.bytes).take n
          let new : Cmd := { u := lo.u, ticket := 0, tk := thrKey (coreKey pkg m.ddie 0) 0, ctx := cm.ctx, launch := none, tid := 0,
                             pc := 0, hdr := 0, word := 0, k := .engq 0 0 }
          let s := if (s.die dk).puts.any fun c => c.u == lo.u then s else s.modDie dk fun d => { d with puts := d.puts ++ [new] }
          let c := ((s.die dk).puts.find? fun c => c.u == lo.u).getD new
          let left := (putParts m.bind m.line n m.pres).filter fun x => !c.wr.contains x
          let accept (s : State) : State := ((drop s).acceptChunk dk [m, m2]).answerChunk dk m 1
          match left[k]? with
          | none => if left.isEmpty then accept s else s
          | some x =>
            match s.putPart c m.bind m.line data x with
            | .ok s _ => if left.length ≤ 1 then accept s else s
            | .wait s => s
            | .fail s _ => refuse s

/-! ### Re-formation of the ring (R362) -/

/-- An edge of the ring has a path. -/
def State.edgeOpen (s : State) (c : Nat) (a b : Nat × Nat) : Bool := (s.chunkPort a.1 b.1 c).isSome

def swapAt (l : List (Nat × Nat)) (a b : Nat) : List (Nat × Nat) :=
  match l[a]?, l[b]? with
  | some x, some y => (l.set a y).set b x
  | _, _ => l

/-- A chunk stands: its last step has been done and acknowledged. -/
def State.chunkStands (s : State) (cm : Comm) (c seq x : Nat) : Bool :=
  let ops := cm.ring.filterMap fun m => s.opAt (memberDk m) c seq
  match ops with
  | [] => false
  | o :: _ =>
    let (i, _, _, e) := o.parts
    let n := cm.ring.length
    (List.range n).all fun p => (i.steps n e x p).all fun k =>
      ops.any fun o => (s.comm (dkOf o.cmd.ck) c).pos == p && o.done.contains (x, k) && o.out.all fun y => y.2.1 != x

/-- Operations of a communicator that have begun and that some member has not finished, each as one such member has it. -/
def State.liveOps (s : State) (dk c : Nat) : List CollOp :=
  (s.comm dk c).ring.foldl (fun l m =>
    l ++ (s.die (memberDk m)).ops.filter fun o => o.comm == c && o.begun && !l.any fun x => x.seq == o.seq) []

/-- An operation starts again at every member, but for the chunks that stand. -/
def State.opAgain (s : State) (c : Nat) (ring : List (Nat × Nat)) (seq : Nat) (stood : List Nat) : State :=
  let again (y : CollOp) : CollOp :=
    { y with done := [], vals := [], ready := [], out := [], told := false, tokens := [], stood := stood,
             cmd := { y.cmd with got := [], wr := [] } }
  ring.foldl (fun s m =>
    let k := memberDk m
    match s.collOp k c seq, (s.die k).ending.find? fun y => y.comm == c && y.seq == seq with
    | some y, _ => if y.begun then s.modOp k y.cmd.u again else s
    -- a member that has finished takes part again, for the others
    | none, some y => s.modDie k fun d =>
        { d with ending := d.ending.filter fun z => z.cmd.u != y.cmd.u, ops := d.ops ++ [again { y with fin := true }] }
    | none, none => s) s

/-- The members take a new order: chunks that stand stay, every other starts again from B. -/
def State.reformTo (s : State) (dk c : Nat) (ring : List (Nat × Nat)) : State :=
  let cm := s.comm dk c
  let live := (s.liveOps dk c).map fun o =>
    (o.seq, (List.range (o.parts.1.chunks cm.ring.length o.parts.2.2.2)).filter fun x => o.stood.contains x || s.chunkStands cm c o.seq x)
  let s := ring.zipIdx.foldl (fun s m =>
    s.modComm (memberDk m.1) c fun x => { x with ring := ring, pos := m.2, reform := x.reform + 1, noPath := none, lent := [] }) s
  live.foldl (fun s x => s.opAgain c ring x.1 x.2) s

/-- The edges of a ring. -/
def ringEdges (l : List (Nat × Nat)) : List ((Nat × Nat) × (Nat × Nat)) := l.zip (l.drop 1 ++ l.take 1)

/-- RING_REFORM: a ring edge of this member has no path at all: the engine exchanges the next member with a later one until every
new edge has a path; where no order has one, it waits for CTX_TIMEOUT and ends the operation. -/
def execRingReform (dk comm : Nat) (s : State) : Out :=
  .next <|
    let cm := s.comm dk comm
    let n := cm.ring.length
    let at_ (l : List (Nat × Nat)) (k : Nat) : Nat × Nat := l[k % n]?.getD (0, 0)
    let ok (l : List (Nat × Nat)) : Bool := (ringEdges l).all fun x => (ringEdges cm.ring).contains x || s.edgeOpen comm x.1 x.2
    if cm.st = 0 then s
    else if s.edgeOpen comm (at_ cm.ring cm.pos) (at_ cm.ring (cm.pos + 1)) then
      if cm.noPath.isSome then s.modComm dk comm fun c => { c with noPath := none } else s
    else
      let tries := (List.range (n - 2)).map fun j => swapAt cm.ring ((cm.pos + 1) % n) ((cm.pos + 2 + j) % n)
      match tries.find? ok with
      | some r => s.reformTo dk comm r
      | none =>
        match s.liveOps dk comm with
        | [] => s
        | o :: _ =>
          let k := dkOf o.cmd.ck
          match cm.noPath with
          | none => s.modComm dk comm fun c => { c with noPath := some s.clock }
          | some t => if t + (s.ctx (pkgOfDie k) o.cmd.ctx).timer ≤ s.clock then s.collFail k o 0 else s

/-! ### Memory beyond repair (R303, R309, R366, R369, R414) -/

/-- The tiles that a matrix command reads or writes, and its parameter block, have a byte in a line. -/
def State.matTouches (s : State) (ck : Nat) (c : Cmd) (line : Nat) : Bool :=
  let i := match c.k with
    | .mepi w .. => [s.cmdTile ck c (epiIm w).acc]
    | _ => s.cmdTile ck c (matIm (cmdImage c)).acc :: s.matReads ck c
  i.any (fun n => (s.tile ck n).meets (line * 128) 128) || match c.k with
    | .mepi w (some a) _ _ => overlaps a.num (epiParLen (epiIm w) (s.tile ck (s.cmdTile ck c (epiIm w).acc)).cols) (line * 128) 128
    | _ => false

/-- The spans of an operation's B and C have a byte in a line. -/
def State.collTouches (s : State) (dk : Nat) (o : CollOp) (line : Nat) : Bool :=
  let (i, b, c, e) := o.parts
  i.op != 6 && (overlaps b.num e (line * 128) 128 || overlaps c.num (i.outLen (s.comm dk o.comm).ring.length e) (line * 128) 128)

/-- The error of a vault or a local store is recorded (R416). -/
def State.sramLine (s : State) (line : Nat) : State :=
  if 2 ^ 52 ≤ line * 128 || isAperture (line * 128) then s.sramError (line * 128) else s

/-- A bind that has still to read its descriptor reads the line. -/
def BindOp.reads (b : BindOp) (line : Nat) : Bool :=
  b.desc.isNone && match b.cmd.k with | .coll _ (.glob a) _ _ => overlaps a 64 (line * 128) 128 | _ => false

/-- The message whose chunk a triggered combine puts into memory. -/
def State.putMsg (s : State) (dk : Nat) (c : Cmd) : Option Msg :=
  s.net.find? fun m => m.u == c.u && m.ty == .chunk && m.dst == pkgOfDie dk && m.st == .arrived && m.bind != 15

/-- A triggered combine reads the line of memory. -/
def State.putReads (s : State) (dk : Nat) (c : Cmd) (line : Nat) : Bool :=
  (s.putMsg dk c).any fun m => overlaps m.line m.step (line * 128) 128

/-- Memory that a triggered combine reads is beyond repair: the chunk is refused (R366). -/
def State.putSpoiled (s : State) (dk : Nat) (c : Cmd) (line : Nat) : State :=
  match s.putMsg dk c with
  | none => s
  | some m =>
    if !s.putReads dk c line then s
    else match s.sibling (pkgOfDie dk) m with
    | some m2 =>
      let s := (s.sramLine line).modDie dk fun d => { d with puts := d.puts.filter fun x => x.u != c.u }
      ((s.dropMsg m.u).dropMsg m2.u).answerChunk dk m 3
    | none => s

/-- COPY_FAILURE: a line that an engine's command touches fails, as a memory, a vault or a local store beyond repair does: the
command `u` of the core, be it a copy, a matrix command, a firing of an armed tile or a collective operation. -/
def execCopyFailure (ck u line : Nat) (s : State) : Out :=
  .next <|
    let dk := dkOf ck
    let runs (c : Cmd) : Bool := c.began && s.cmdRuns ck c
    match s.findCopy ck u, s.findMat ck u, (s.die dk).trigs.find? fun x => x.u == u, (s.die dk).ops.find? fun o => o.cmd.u == u with
    | some c, _, _, _ =>
      match s.copySides ck c with
      | some (a, b) => if runs c && (a.touches line || b.touches line) then (s.sramLine line).copyFail ck c (line * 128) else s
      | none => s
    | _, some c, _, _ =>
      if !runs c || !s.matTouches ck c line then s
      else
        let s := s.sramLine line
        match c.k with
        | .mepi w .. => (s.cmdFault c 4 (line * 128)).epiEnd ck c (epiIm w) false
        | _ => s.matAbort ck c (line * 128)
    | _, _, some x, _ =>
      let t := s.tile x.ck x.tile
      if !x.sent && overlaps (t.loc + chunkBytes * x.index) chunkBytes (line * 128) 128 then (s.sramLine line).trigFail dk x else s
    | _, _, _, some o => if o.begun && s.collTouches dk o line then (s.sramLine line).collFail dk o (line * 128) else s
    | _, _, _, _ =>
      match (s.die dk).binds.find? fun b => b.cmd.u == u, (s.die dk).puts.find? fun c => c.u == u with
      | some b, _ => if b.reads line then (s.sramLine line).bindFail dk b (line * 128) else s
      | _, some c => s.putSpoiled dk c line
      | _, _ => s

/-- SRAM_FIXED: an engine's command reads a word of a vault or a local store in error, which its code corrects: it is recorded, and
changes nothing (R414). -/
def execSramFixed (ck u loc : Nat) (s : State) : Out :=
  .next <|
    let dk := dkOf ck
    let line := lineOf loc
    let reads :=
      ((s.findCopy ck u).any fun c => c.began && (s.copySides ck c).any fun x => x.1.touches line)
        || ((s.findMat ck u).any fun c => c.began && s.matTouches ck c line)
        || ((s.die dk).trigs.any fun x => x.u == u && overlaps ((s.tile x.ck x.tile).loc + chunkBytes * x.index) chunkBytes (line * 128) 128)
        || ((s.die dk).ops.any fun o => o.cmd.u == u && o.begun && s.collTouches dk o line)
        || ((s.die dk).binds.any fun b => b.cmd.u == u && b.reads line)
        || (s.die dk).puts.any fun c => c.u == u && s.putReads dk c line
    if reads && (decide (2 ^ 52 ≤ loc) || isAperture loc) then s.sramError loc 1 else s

end Sys2Proof.Machine
end

