-- ==== Sys2Proof/Machine/Registers.lean ====
section
/-! DEFINITION. Register access: index registers, the extended block, shared blocks and full/empty registers: group 0xD and
0x206 to 0x209 (R137 to R144). -/

namespace Sys2Proof.Machine

/-! ### Index registers (R138) -/

def State.setIx (s : State) (tk : Nat) (i : BitVec 3) (x : BitVec 30) : State :=
  s.modThr tk fun t => { t with r := { t.r with ix := ixPut t.r.ix i x } }

/-- IXSET's write: the register whole, by the word the thread stands at (R138, R473). -/
def State.writeIx (s : State) (tk : Nat) (i : BitVec 3) (x : BitVec 30) : State :=
  (s.setIx tk i x).modThr tk fun t => { t with ixw := Tab.put t.ixw i.toNat t.nw }

def execIxset (f : Frame) (ix : BitVec 3) (a : Src) (s : State) : Out :=
  word f { src := [(0, a)] }
    (fun s l =>
      let v := l.a.w64
      if field v.toNat 63 30 ≠ 0 ∨ field v.toNat 26 25 = 3 then .fault { code := 0x02 }
      else .ok (s.writeIx l.tk ix (v.setWidth 30))) s

def execIxget (f : Frame) (d : Dst) (ix : BitVec 3) (s : State) : Out :=
  word f { dst := some d } (fun s l => .ok (s.put l ((ixGet (s.thr l.tk).r.ix ix).setWidth 64))) s

/-- The image with another current register and sub-element. -/
def ixSetPos (x : BitVec 30) (cur sub : Nat) : BitVec 30 :=
  BitVec.ofNat 30 (field x.toNat 26 7 * 2 ^ 7 + cur % 128 + sub % 8 * 2 ^ 27)

/-- IXADV moves cur, or cur and sub as one element position; none where sub is no element of the width. -/
def ixAdvance (x : BitVec 30) (w : Width) (a : Int) : Option (BitVec 30) :=
  let v := ixFields x
  match w with
  | .w64 => some (ixSetPos x ((v.cur + a) % 128).toNat v.sub)
  | _ =>
    let n := 64 / wbits w
    if n ≤ v.sub then none
    else
      let p := ((v.cur * n + v.sub + a) % (128 * n : Nat)).toNat
      some (ixSetPos x (p / n) (p % n))

def execIxadv (f : Frame) (ix : BitVec 3) (a : Src) (ew : Width) (s : State) : Out :=
  word f { src := [(0, a)] }
    (fun s l =>
      match ixAdvance (ixGet (s.thr l.tk).r.ix ix) ew l.a.w64.toInt with
      | none => .fault { code := 0x02 }
      | some x => .ok (s.setIx l.tk ix x)) s

/-! ### The extended block (R139 to R141) -/

/-- XACQ: a thread without a block wants one; the gang's request is made when the word ends (R139). -/
def execXacq (f : Frame) (s : State) : Out :=
  word f {}
    (fun s l =>
      if (s.thr l.tk).xblk then .ok s
      else .ok (s.modThr l.tk fun t => { t with xwant := true, hold := true })) s

/-- g32 to g63. -/
def upperRegs : BitVec 64 := 0xFFFFFFFF00000000
/-- g56 to g63. -/
def mapRegs : BitVec 64 := 0xFF00000000000000

/-- Parks before the word until registers are not pending (R140, R143). -/
def untilClear (m : BitVec 64) (body : State → Lane → Res) (s : State) (l : Lane) : Res :=
  let w := (s.thr l.tk).r.pendG &&& m
  if w ≠ 0 then .park (.regs [(l.tk, w, 0)]) else body s l

def execXrel (f : Frame) (s : State) : Out :=
  word f {}
    (untilClear upperRegs fun s l =>
      .ok (((s.modThr l.tk fun t => { t with shr := none }).freeBlock l.tk).poolCheck l.ck)) s

/-- The word XQRY returns (R141). -/
def State.xqry (s : State) (tk : Nat) : Word :=
  let t := s.thr tk
  let ck := ckOf tk
  let waiting := ((s.coreThreads ck).filter fun e => e.2.xwant && e.2.hold).length
  BitVec.ofNat 64 ((if t.xblk then 1 else 0) + (if t.shr.isSome then 2 else 0) + t.shr.getD 0 % 256 * 4
    + (s.core ck).pool * 2 ^ 16 + min 1023 waiting * 2 ^ 26)

def execXqry (f : Frame) (d : Dst) (s : State) : Out :=
  word f { dst := some d } (fun s l => .ok (s.put l (s.xqry l.tk))) s

/-! ### Shared blocks (R143) -/

def execShrmap (f : Frame) (a : Src) (s : State) : Out :=
  word f { src := [(0, a)], feat := some 13 }
    (fun s l =>
      let b := l.a.w64.toNat
      if !(s.thr l.tk).xblk then .fault { code := 0x05 }
      else if (s.ctxOf l.tk).shrn ≤ b then .fault { code := 0x02 }
      else untilClear mapRegs (fun s l => .ok (s.modThr l.tk fun t => { t with shr := some b })) s l) s

def execShrunmap (f : Frame) (s : State) : Out :=
  word f { feat := some 13 }
    (fun s l =>
      if !(s.thr l.tk).xblk then .fault { code := 0x05 }
      else untilClear mapRegs (fun s l => .ok (s.modThr l.tk fun t => { t with shr := none })) s l) s

/-! ### Full/empty access (R144) -/

/-- RDFE: a request on the register's queue; the destination, and the shared register in this thread, are pending until it
performs (R136, R144). -/
def rdfeBody (s : State) (l : Lane) : Res :=
  let n := (l.src 0).bind fun x => x.reg
  match n.bind fun n => s.sharedOf l.tk n with
  | none => .fault { code := 0x02 }
  | some r =>
    if (s.thr l.tk).trails then s.follow l
    else
      let (u, s) := s.pendAs l (.rdfe r) l.r.d 7 (regsMask n.toList)
      let x := s.shReg l.tk r
      .ok ((s.setShReg l.tk r { x with rq := x.rq ++ [(l.tk, u)] }).feCheck l.ck r)

def execRdfe (f : Frame) (o : O1) (s : State) : Out :=
  word f { use1 o with vl := true, close := true, feat := some 13 } rdfeBody s

/-- WRFE: a request with its value; the shared register is pending in this thread until it performs. -/
def wrfeBody (s : State) (l : Lane) : Res :=
  match l.r.d.regs.head?.bind fun n => s.sharedOf l.tk n with
  | none => .fault { code := 0x02 }
  | some r =>
    if (s.thr l.tk).trails then .ok s
    else
      let (u, s) := s.pendNew l (.wrfe r l.a.w64) 7
      let x := s.shReg l.tk r
      .ok ((s.setShReg l.tk r { x with wq := x.wq ++ [(l.tk, u)] }).feCheck l.ck r)

def execWrfe (f : Frame) (o : O1) (s : State) : Out :=
  word f { use1 o with vl := true, close := true, feat := some 13 } wrfeBody s

end Sys2Proof.Machine
end

