-- ==== Sys2Proof/Machine/System.lean ====
section
/-! DEFINITION. Group 0xC (R389 to R399, R464): control registers, THRCTL, XRET, BARSAVE and BARREST, TLBINV, MAPSET, SELFTEST,
ERRRD, FEATRD and CTXSW. -/

namespace Sys2Proof.Machine

/-! ### How a system operation completes (R389) -/

/-- What a system operation comes to: done with a status, waiting, or parked before the word. -/
inductive SysRes where
  | done (s : State) (v : Word)
  | wait (s : State) (w : OpW)
  | park (w : Why)
  | fault (f : FI)
  /-- A home that it needs cannot be reached now, for an address (R331). -/
  | far (q : Nat) (addr : Word)

/-- The gang waits for the thread's operation, and D is written when it has completed. -/
def State.holdFor (s : State) (l : Lane) (w : Option OpW) (v : Option Word) : State :=
  (if w.isSome then s.passPlace l.tk (s.thr l.tk).nw else s).modThr l.tk fun t =>
    { t with hold := true, opW := w, opDone := v, opD := l.r.d }

/-- A held operation has completed with a status, which passes to the trailing copy of a pair. -/
def State.sysDone (s : State) (tk : Nat) (v : Word) : State :=
  (s.modThr tk fun t => { t with opW := none, opDone := some v }).passLate tk { pos := (s.thr tk).nw - 1, src := false, v := [v] }

/-- In a pair, the leading copy acts and the trailing copy receives what it received (R389). -/
def once (act : State → Lane → Res) (s : State) (l : Lane) (put : State → Word → State) : Res :=
  let t := s.thr l.tk
  if t.trails then
    match s.passed l.tk t.nw with
    | some v => .ok (put (s.takePassed l.tk t.nw false) (v.v.headD 0))
    | none => .park .passed
  else if t.leads && !s.inqRoom l.tk then .park .copies
  else act s l

/-- An operation that parks its gang until it has completed. `chk` is what both copies of a pair check. -/
def sysBody (chk : State → Lane → Option FI) (act : State → Lane → SysRes) (s : State) (l : Lane) : Res :=
  match chk s l with
  | some f => .fault f
  | none =>
    once (fun s l =>
      let nw := (s.thr l.tk).nw
      match act s l with
      | .done s v => .ok ((s.holdFor l none (some v)).pass l.tk { pos := nw, src := false, v := [v] })
      | .wait s w => .ok (s.holdFor l (some w) none)
      | .park w => .park w
      | .far q a => s.pathWait l q a
      | .fault f => .fault f) s l fun s v => s.writeRD l.tk l.r.d [v]

/-- An operation of fixed latency that both copies of a pair see once. -/
def sysNow (chk : State → Lane → Option FI) (act : State → Lane → State × Word) (s : State) (l : Lane) : Res :=
  match chk s l with
  | some f => .fault f
  | none =>
    once (fun s l =>
      let nw := (s.thr l.tk).nw
      let (s, v) := act s l
      .ok ((s.put l v).pass l.tk { pos := nw, src := false, v := [v] })) s l fun s v => s.put l v

/-- Bits of an operand that have to be 0. -/
def reservedBits (v : Word) (mask : Word) : Option FI := if v &&& mask ≠ 0 then some { code := 0x02 } else none

def misaligned (a : Word) (n : Nat) : Option FI := if a.toNat % n ≠ 0 then some { code := 0x07, addr := a } else none

/-! ### Control registers (R392, R417, R427, R464) -/

/-- The fields of A that a control register uses: the context, how many instances and cores it has, and the die. -/
structure CtlF where
  ctx : Bool := false
  inst : Nat := 1
  core : Nat := 1
  die : Bool := false
  deriving DecidableEq, Repr

def ctlFields (n : Nat) : Option CtlF :=
  if n ≤ 0x004 ∨ n = 0x006 ∨ n = 0x007 then some { ctx := true }
  else if n = 0x005 ∨ n = 0x010 then some { ctx := true, inst := 4 }
  else if n = 0x011 then some { ctx := true, inst := 64 }
  else if n = 0x020 then some { ctx := true, core := 96, die := true }
  else if n = 0x021 ∨ n = 0x022 then some { ctx := true, inst := 32, core := 96, die := true }
  else if n = 0x040 then some { inst := 16 }
  else if n = 0x041 then some { core := 96, die := true }
  else if (0x042 ≤ n ∧ n ≤ 0x046) ∨ n = 0x080 ∨ n = 0x081 then some {}
  else if 0x050 ≤ n ∧ n ≤ 0x052 then some { inst := 16, die := true }
  else if n = 0x053 ∨ n = 0x102 then some { inst := 4, die := true }
  else if n = 0x054 then some { die := true }
  else if n = 0x100 ∨ n = 0x101 then some { inst := 36, die := true }
  else if (0x200 ≤ n ∧ n ≤ 0x21F) ∨ (0x240 ≤ n ∧ n ≤ 0x247) then some { inst := 16, core := 24, die := true }
  else if n = 0x280 then some { core := 24, die := true }
  else if n = 0x300 then some { core := 96, die := true }
  else none

def ctlWritable (n : Nat) : Bool :=
  (1 ≤ n && n ≤ 4) || n == 7 || n == 0x010 || n == 0x011 || (0x020 ≤ n && n ≤ 0x022) || n == 0x040 || n == 0x046 || n == 0x100
    || n == 0x102 || (0x200 ≤ n && n ≤ 0x21F) || n == 0x280 || n == 0x300

/-- A control register as A names it. -/
structure Ctl1 where
  num : Nat
  ctx : Nat
  inst : Nat
  core : Nat
  die : Nat
  deriving DecidableEq, Repr

def ctlOf (a : Word) : Ctl1 :=
  let n := a.toNat
  { num := field n 11 0, ctx := field n 17 12, inst := field n 23 18, core := field n 30 24, die := field n 32 31 }

/-- Fault 0x02 of a number that is not listed, an index out of range, an unused field that is not 0, or a write of a register
that is read only. -/
def ctlFault (write : Bool) (a : Word) : Option FI :=
  let c := ctlOf a
  match ctlFields c.num with
  | none => some { code := 0x02 }
  | some f =>
    if field a.toNat 63 33 ≠ 0 ∨ (!f.ctx && c.ctx != 0) ∨ f.inst ≤ c.inst ∨ f.core ≤ c.core ∨ (!f.die && c.die != 0)
        ∨ (write && !ctlWritable c.num) then some { code := 0x02 }
    else none

/-- Number of a bank's and of a channel's counters on a package. -/
def chanKey (die ctrl ch : Nat) : Nat := (die * 24 + ctrl) * 16 + ch
def bankKey (die ctrl ch bank : Nat) : Nat := chanKey die ctrl ch * 32 + bank

/-- MEM_THR's value after reset. -/
def memThrReset : Word := 0x100000200100

def State.memThr (s : State) (p ctrl : Nat) : Word := Tab.getOr (s.pkg p).memThr ctrl memThrReset
def State.bank (s : State) (p k : Nat) : BankC := Tab.getOr (s.pkg p).banks k {}

def Filt.word (f : Filt) : Word :=
  BitVec.ofNat 64 ((if f.valid then 1 else 0) + (if f.v6 then 2 else 0) + f.len * 4)

/-- What SYSRD reads. -/
def State.ctlRead (s : State) (tk : Nat) (c : Ctl1) : Word :=
  let p := pkgOfThr tk
  let k := s.pkg p
  let x := s.ctx p c.ctx
  let ck := coreKey p c.die c.core
  let port := s.port p (4 * c.die + c.inst)
  let lane := s.port p (4 * c.die + c.inst / 9)
  let filt := Tab.getOr k.filters (16 * c.die + c.inst) {}
  let nat (n : Nat) : Word := BitVec.ofNat 64 n
  let none_ := match ctlFields c.num with | some f => f.ctx && (s.ctx? p c.ctx).isNone | none => true
  if none_ then 0
  else if c.num = 0x000 then x.attr
  else if c.num = 0x001 then nat x.prio
  else if c.num = 0x002 then nat x.win
  else if c.num = 0x003 then nat x.timeout
  else if c.num = 0x004 then x.root
  else if c.num = 0x005 then nat (Tab.getOr x.st c.inst 0)
  else if c.num = 0x006 then nat (x.held.length % 2 ^ 32 + x.dropped % 2 ^ 32 * 2 ^ 32)
  else if c.num = 0x007 then x.hndpc
  else if c.num = 0x010 then Tab.getOr (s.die (dieKey p c.inst)).key c.ctx 0
  else if c.num = 0x011 then (Tab.getOr x.coins c.inst 0).setWidth 64
  else if c.num = 0x020 then
    let v := Tab.getOr (s.core ck).lead c.ctx {}
    nat (v.l + v.phase % 2 ^ 24 * 256)
  else if c.num = 0x021 then (Tab.getOr (s.core ck).routes (c.ctx * 32 + c.inst) 0).setWidth 64
  else if c.num = 0x022 then ((Tab.getOr (s.core ck).routes (c.ctx * 32 + c.inst) 0) >>> 64).setWidth 64
  else if c.num = 0x040 then s.pathWord p c.inst
  else if c.num = 0x041 then nat (s.phys ck)
  else if c.num = 0x042 then nat k.lostDrop
  else if c.num = 0x043 then nat k.lateAns
  else if c.num = 0x044 then nat k.dupDrop
  else if c.num = 0x045 then nat k.errProd
  else if c.num = 0x046 then k.errCons
  else if c.num = 0x050 then filt.word
  else if c.num = 0x051 then filt.addr.setWidth 64
  else if c.num = 0x052 then (filt.addr >>> 64).setWidth 64
  else if c.num = 0x053 then nat (port.rate + port.burst * 2 ^ 16)
  else if c.num = 0x054 then nat (Tab.getOr k.ethDrop c.die 0)
  else if c.num = 0x080 then (s.thr tk).xpc
  else if c.num = 0x081 then (s.thr tk).xinfo
  else if c.num = 0x100 then lane.crcOf (c.inst % 9)
  else if c.num = 0x101 then (lane.eyeOf (c.inst % 9)).setWidth 64
  else if c.num = 0x102 then port.thr
  else if c.num = 0x280 then s.memThr p (24 * c.die + c.core)
  else if c.num = 0x300 then (s.core ck).inject
  else if c.num < 0x240 then
    let b := s.bank p (bankKey c.die c.core c.inst (c.num - 0x200))
    nat (b.fixed + b.lost * 2 ^ 32)
  else
    match (Tab.getOr k.rows (chanKey c.die c.core c.inst) [])[c.num - 0x240]? with
    | some (row, bank, n) => nat (row % 2 ^ 18 + bank % 32 * 2 ^ 18 + min n 65535 * 2 ^ 32)
    | none => 0

/-- A write of INJECT (R464): ARM, PIPE, LANE, BIT, COPY and REGION; with ARM = 1 it clears FIRED. -/
def injectWord (old v : Word) : Word :=
  (v &&& 0xFFFF3FFF) ||| (if v.getLsbD 0 then 0 else old &&& 0x100000000)

/-- What SYSWR does. -/
def State.ctlWrite (s : State) (tk : Nat) (c : Ctl1) (v : Word) : State :=
  let p := pkgOfThr tk
  let ck := coreKey p c.die c.core
  let n := v.toNat
  let x := s.ctx p c.ctx
  let none_ := match ctlFields c.num with | some f => f.ctx && (s.ctx? p c.ctx).isNone | none => true
  let set (x : Ctx) : State := s.setCtx p c.ctx x
  if none_ then s
  else if c.num = 0x001 then set { x with prio := n % 4 }
  else if c.num = 0x002 then if n % 256 = 0 ∧ 256 ≤ n ∧ n ≤ 65536 then set { x with win := n } else s
  else if c.num = 0x003 then if 10 ≤ n ∧ n ≤ 1000000 then set { x with timeout := n } else s
  else if c.num = 0x004 then set { x with root := v }
  else if c.num = 0x007 then if x.attr.getLsbD 0 then set { x with hndpc := v } else s
  else if c.num = 0x010 then s.modDie (dieKey p c.inst) fun d => { d with key := Tab.put d.key c.ctx v }
  else if c.num = 0x011 then set { x with coins := Tab.put x.coins c.inst (v.setWidth 24) }
  else if c.num = 0x020 then
    if n % 16 = 0 then s
    else s.modCore ck fun k => { k with lead := Tab.put k.lead c.ctx { (Tab.getOr k.lead c.ctx {}) with l := n % 16 } }
  else if c.num = 0x021 then
    s.modCore ck fun k =>
      let r := Tab.getOr k.routes (c.ctx * 32 + c.inst) 0
      { k with routes := Tab.put k.routes (c.ctx * 32 + c.inst) ((r >>> 64 <<< 64) ||| (v &&& 0x7FF).setWidth 128) }
  else if c.num = 0x022 then
    s.modCore ck fun k =>
      let r := Tab.getOr k.routes (c.ctx * 32 + c.inst) 0
      let w := (r.setWidth 64).setWidth 128 ||| ((v &&& 0x7FFFFFFFFFFFFF).setWidth 128 <<< 64)
      { k with routes := Tab.put k.routes (c.ctx * 32 + c.inst) w }
  else if c.num = 0x040 then
    (s.setPath p c.inst { (s.path p c.inst) with relays := BitVec.ofNat 16 (field n 31 16) }).routeWaiting p
  else if c.num = 0x046 then s.modPkg p fun k => { k with errCons := v }
  else if c.num = 0x100 then
    s.modPort p (4 * c.die + c.inst / 9) fun w =>
      let w := w.setCrc (c.inst % 9) v
      if field n 31 0 < field w.thr.toNat 15 0 then w.setAlarm (c.inst % 9) false false else w
  else if c.num = 0x102 then s.modPort p (4 * c.die + c.inst) fun w => { w with thr := v &&& 0xFFFFFFFF }
  else if c.num = 0x280 then
    s.modPkg p fun k => { k with memThr := Tab.put k.memThr (24 * c.die + c.core) (v &&& 0xFFFFFFFFFFFF) }
  else if c.num = 0x300 then s.modCore ck fun k => { k with inject := injectWord k.inject v }
  else if 0x200 ≤ c.num ∧ c.num < 0x220 then
    let key := bankKey c.die c.core c.inst (c.num - 0x200)
    let b := s.bank p key
    let b := { b with fixed := field n 31 0, lost := field n 63 32,
                      alarmed := b.alarmed && decide (field (s.memThr p (24 * c.die + c.core)).toNat 15 0 ≤ field n 31 0) }
    s.modPkg p fun k => { k with banks := Tab.put k.banks key b }
  else s

/-- SYSRD (R392). -/
def execSysrd (f : Frame) (o : O1) (s : State) : Out :=
  word f { use1 o with priv := 1 }
    (sysNow (fun _ l => ctlFault false l.a.w64) fun s l => (s, s.ctlRead l.tk (ctlOf l.a.w64))) s

/-- A write of a control register by the issuing thread, performed once for a pair (R389, R392). -/
def syswrBody (s : State) (l : Lane) : Res :=
  match ctlFault true l.a.w64 with
  | some x => .fault x
  | none => .ok (if (s.thr l.tk).trails then s else s.ctlWrite l.tk (ctlOf l.a.w64) l.b.w64)

/-- SYSWR (R392). -/
def execSyswr (f : Frame) (o : S2) (s : State) : Out := word f { useS2 o with priv := 1 } syswrBody s

/-- SYSWR of INJECT (R464). -/
def execInjectWrite (f : Frame) (o : S2) (s : State) : Out := word f { useS2 o with priv := 1 } syswrBody s

/-! ### FEATRD (R393) -/

def execFeatrd (f : Frame) (o : O1) (s : State) : Out :=
  word f { use1 o with priv := 1 }
    (sysNow (fun _ l => reservedBits l.a.w64 (~~~7)) fun s l =>
      let k := field l.a.w64.toNat 2 1
      let v : BitVec 256 := if l.a.w64.getLsbD 0 then (s.pkg (pkgOfThr l.tk)).featTake else 0xFFFF
      (s, (v >>> (64 * k)).setWidth 64)) s

/-! ### XRET (R391) -/

def execXret (f : Frame) (a : Src) (s : State) : Out :=
  word f { src := [(0, a)], priv := 1 }
    (fun s l =>
      let a := l.a.w64
      if !(s.thr l.tk).hand then .fault { code := 0x09 }
      else if a = 0 then .ok (s.modThr l.tk fun t => { t with hand := false, xgo := true })
      else
        match misaligned a 8 with
        | some x => .fault x
        | none => .ok (s.modThr l.tk fun t => { t with hand := false, jump := some a, head := true, xends := [] })) s

/-! ### Bytes at a virtual address (R390, R398, R399; log 6) -/

/-- The places of `n` 8-byte units from a virtual address on, or the fault of the first that has none: 0x100 and a package where that
package cannot be reached now. -/
def State.unitPlaces (s : State) (tk a : Nat) (need : Need) : Nat → Except FI (List Nat × State)
  | 0 => .ok ([], s)
  | n + 1 =>
    match s.xlAt tk a 8 need false true with
    | .error c => .error { code := c, addr := BitVec.ofNat 64 a }
    | .ok (x, s) =>
      match x.bind fun x => s.paOf x a with
      | none => .error { code := 0x08, addr := BitVec.ofNat 64 a }
      | some pa =>
        match s.ownFault (pkgOfThr tk) (s.thr tk).ctx pa (need == .wr) with
        | some c => .error { code := if c = 0x0B then 0x100 + homeOf pa else c, addr := BitVec.ofNat 64 a }
        | none =>
          match s.unitPlaces tk (a + 8) need n with
          | .error f => .error f
          | .ok (l, s) => .ok (pa :: l, s)

/-- What an image's first failing unit makes of the word. -/
def placeFail (f : FI) : SysRes := if 0x100 ≤ f.code then .far (f.code - 0x100) f.addr else .fault f

/-- Writes an image at a virtual address, for a thread. -/
def State.putImage (s : State) (l : Lane) (a : Word) (bytes : List Byte) (v : Word) : SysRes :=
  if (s.thr l.tk).buffers a.toNat bytes.length then .park (.ctrs false true false)
  else
    match s.unitPlaces l.tk a.toNat .wr (bytes.length / 8) with
    | .error f => placeFail f
    | .ok (ps, s) =>
      .done (ps.zipIdx.foldl (fun s x => (s.settle (lineOf x.1)).writeBytes x.1 ((bytes.drop (8 * x.2)).take 8)) s) v

/-- Reads an image at a virtual address, for a thread, and goes on with it. -/
def State.getImage (s : State) (l : Lane) (a : Word) (n : Nat) (k : State → List Byte → SysRes) : SysRes :=
  if (s.thr l.tk).buffers a.toNat n then .park (.ctrs false true false)
  else
    match s.unitPlaces l.tk a.toNat .rd (n / 8) with
    | .error f => placeFail f
    | .ok (ps, s) =>
      let s := ps.foldl (fun s x => s.settle (lineOf x)) s
      k s (ps.flatMap fun x => s.bytes x 8)

/-! ### THRCTL (R390) -/

/-- The thread that A names. -/
def thrTarget (tk : Nat) (a : Word) : Nat :=
  let n := a.toNat
  thrKey (coreKey (pkgOfThr tk) (field n 18 17) (field n 16 10)) (field n 9 0)

def thrCtx (a : Word) : Nat := field a.toNat 24 19

/-- Checks of every THRCTL: reserved bits of A. -/
def thrChk (more : Lane → Option FI) (_ : State) (l : Lane) : Option FI :=
  match reservedBits l.a.w64 0xFFFFFFFFFE000000 with
  | some f => some f
  | none => more l

/-- Status 3 of a pre-empted context and status 1 of a thread that is not there, before an operation on a thread that is. -/
def onThread (k : State → Lane → Nat → SysRes) (s : State) (l : Lane) : SysRes :=
  let a := l.a.w64
  let p := pkgOfThr l.tk
  let c := thrCtx a
  let tk := thrTarget l.tk a
  if Tab.getOr (s.ctx p c).st (field a.toNat 18 17) 0 = 3 then .done s 3
  else if 96 ≤ field a.toNat 16 10 ∨ (s.thr tk).st = .free ∨ (s.thr tk).ctx ≠ c then .done s 1
  else k s l tk

/-- The copies of the thread a key names: both of a tandem pair (R406). -/
def State.copiesOf (s : State) (tk : Nat) : List Nat :=
  match (s.thr tk).pair with
  | some p => [tk, p.partner]
  | none => [tk]

/-- An operation on a stopped thread. -/
def onStopped (k : State → Lane → Nat → SysRes) : State → Lane → SysRes :=
  onThread fun s l tk => if (s.thr tk).st ≠ .stopped then .done s 2 else k s l tk

/-- THRCTL's use: a release toward the target. -/
def thrUse (o : O2) : Use := { use2 o with priv := 1, rel := true }

def execThrctlResume (f : Frame) (o : O2) (s : State) : Out :=
  word f (thrUse o)
    (sysBody (thrChk fun _ => none)
      (onStopped fun s _ tk => .done ((s.copiesOf tk).foldl (fun s k => s.modThr k Thread.resume) s) 0)) s

def execThrctlRedirect (f : Frame) (o : O2) (s : State) : Out :=
  word f (thrUse o)
    (sysBody (thrChk fun l => misaligned l.b.w64 8)
      (onStopped fun s l tk => .done ((s.copiesOf tk).foldl (fun s k => s.modThr k fun t => t.redirect l.b.w64) s) 0)) s

def execThrctlKill (f : Frame) (o : O2) (s : State) : Out :=
  word f (thrUse o)
    (sysBody (thrChk fun _ => none)
      (onThread fun s _ tk =>
        let ks := s.copiesOf tk
        let s := ks.foldl (fun s k => s.modThr k fun t => { t with killing := true }) s
        .done (ks.foldl (fun s k => s.killCheck k) s) 0)) s

def execThrctlStop (f : Frame) (o : O2) (s : State) : Out :=
  word f (thrUse o)
    (sysBody (thrChk fun _ => none)
      (onThread fun s _ tk =>
        let t := s.thr tk
        if t.st = .stopped ∨ t.stopping then .done s 2
        else .done ((s.copiesOf tk).foldl (fun s k => s.modThr k fun t => { t with stopping := true }) s) 0)) s

/-- Marks of poison as a thread sees them: those of its own registers, and of the shared ones that its numbers name. -/
def State.poisonMarks (s : State) (tk : Nat) : BitVec 64 :=
  (List.range 64).foldl (fun m k =>
    let psn := match s.sharedOf tk (BitVec.ofNat 6 k) with
      | some j => (s.shReg tk j).psn.isSome
      | none => (s.thr tk).r.psn.getLsbD k
    if psn then m ||| BitVec.twoPow 64 k else m) 0

/-- Registers that name shared ones. -/
def State.sharedMask (s : State) (tk : Nat) : BitVec 64 :=
  (List.range 64).foldl (fun m k => if (s.sharedOf tk (BitVec.ofNat 6 k)).isSome then m ||| BitVec.twoPow 64 k else m) 0

/-- The image of a stopped thread. -/
def State.threadImage (s : State) (tk : Nat) : List Byte :=
  let t := s.thr tk
  let reg (k : Nat) : Nat := if 32 ≤ k ∧ !t.xblk then 0 else (s.readReg tk (BitVec.ofNat 6 k)).toNat
  let psn := if t.xblk then s.poisonMarks tk else s.poisonMarks tk &&& 0xFFFFFFFF
  ((List.range 64).flatMap fun k => leBytes 8 (reg k)) ++ ((List.range 8).flatMap fun k => leBytes 8 (ixGet t.r.ix (BitVec.ofNat 3 k)).toNat)
    ++ leBytes 8 t.r.p.toNat ++ leBytes 8 t.pc.toNat ++ leBytes 8 t.cvmode.toNat ++ leBytes 8 t.nancnt.toNat ++ leBytes 8 psn.toNat
    ++ List.replicate 408 0

def execThrctlGetst (f : Frame) (o : O2) (s : State) : Out :=
  word f (thrUse o)
    (sysBody (thrChk fun l => misaligned l.b.w64 64)
      (onStopped fun s l tk => s.putImage l l.b.w64 (s.threadImage tk) 0)) s

/-- R138's checks of the index images. -/
def ixImagesOk (b : List Byte) : Bool :=
  (List.range 8).all fun k => let v := recField b (0x200 + 8 * k) 8; decide (field v 63 30 = 0) && decide (field v 26 25 ≠ 3)

/-- A shared register keeps or loses its mark of poison, as the image says. -/
def State.loadMark (s : State) (tk k : Nat) (was : Option Nat) (marked : Bool) : State :=
  if (s.thr tk).trails then s
  else s.setShReg tk k { s.shReg tk k with psn := if marked then was <|> some 0 else none }

/-- Loads an image into one copy of a stopped thread; the pc is not loaded. A mark of poison goes only where the image has none. -/
def State.loadImage (s : State) (tk : Nat) (b : List Byte) : State :=
  let regs := if (s.thr tk).xblk then 64 else 32
  let s0 := s
  let s := (List.range regs).foldl (fun s k => s.writeReg tk (BitVec.ofNat 6 k) (BitVec.ofNat 64 (recField b (8 * k) 8))) s
  let keep : BitVec 64 := (if regs = 64 then 0 else 0xFFFFFFFF00000000) ||| s.sharedMask tk
  let psn := BitVec.ofNat 64 (recField b 0x260 8)
  let s := (List.range regs).foldl (fun s k =>
    match s0.sharedOf tk (BitVec.ofNat 6 k) with
    | some j => s.loadMark tk j (s0.shReg tk j).psn (psn.getLsbD k)
    | none => s) s
  s.modThr tk fun t =>
    { t with cvmode := BitVec.ofNat 32 (recField b 0x250 3), nancnt := BitVec.ofNat 32 (recField b 0x258 4),
             r := { t.r with ix := Vector.ofFn fun k : Fin 8 => BitVec.ofNat 30 (recField b (0x200 + 8 * k.val) 8),
                             p := BitVec.ofNat 7 (recField b 0x240 1), psn := (psn &&& ~~~keep) ||| (t.r.psn &&& keep) } }

def execThrctlSetst (f : Frame) (o : O2) (s : State) : Out :=
  word f (thrUse o)
    (sysBody (thrChk fun l => misaligned l.b.w64 64)
      (onStopped fun s l tk =>
        s.getImage l l.b.w64 1024 fun s b =>
          if !ixImagesOk b then .fault { code := 0x02 }
          else .done ((s.copiesOf tk).foldl (fun s k => s.loadImage k b) s) 0)) s

/-! ### BARSAVE and BARREST (R399) -/

structure BarSel where
  first : Nat
  count : Nat
  ck : Nat
  deriving DecidableEq, Repr

def barSel (tk : Nat) (b : Word) : BarSel :=
  let n := b.toNat
  { first := field n 9 0, count := field n 20 10, ck := coreKey (pkgOfThr tk) (field n 29 28) (field n 27 21) }

def barChk (_ : State) (l : Lane) : Option FI :=
  let b := l.b.w64
  match reservedBits b 0xFFFFFFFFC0000000 with
  | some f => some f
  | none => if field b.toNat 20 10 = 0 ∨ 96 ≤ field b.toNat 27 21 then some { code := 0x02 } else misaligned l.a.w64 128

/-- The context of a core's barrier. -/
def State.barOwner (s : State) (ck b : Nat) : Option Nat :=
  let dk := dkOf ck
  (s.ctxs.find? fun e => e.1 / 64 == pkgOfDie dk && e.2.dies.getLsbD (dieIx dk) && decide (e.2.bar0 ≤ b)
    && decide (b < e.2.bar0 + e.2.barn)).map fun e => e.1 % 64

/-- Status 2 of a range past 1,024 and status 1 of a running owner. -/
def barStatus (s : State) (r : BarSel) : Nat :=
  if 1024 < r.first + r.count then 2
  else if (List.range r.count).any fun k =>
      match s.barOwner r.ck (r.first + k) with
      | some c => let st := Tab.getOr (s.ctx (pkgOfCore r.ck) c).st (dieIx (dkOf r.ck)) 0; st == 1 || st == 2
      | none => false then 1
  else 0

def Bar.image (v : Bar) : List Byte :=
  leBytes 8 (v.n % 2 ^ 11 + v.count % 2 ^ 11 * 2 ^ 11 + (if v.phi then 2 ^ 22 else 0)) ++ List.replicate 120 0
    ++ leBytes 128 v.m1.toNat ++ leBytes 128 v.m2.toNat ++ leBytes 128 v.wait.toNat

def barFrom (b : List Byte) : Bar :=
  let w := recField b 0 8
  { n := field w 10 0, count := field w 21 11, phi := field w 22 22 == 1, m1 := BitVec.ofNat 1024 (recField b 128 128),
    m2 := BitVec.ofNat 1024 (recField b 256 128), wait := BitVec.ofNat 1024 (recField b 384 128) }

def execBarsave (f : Frame) (o : O2) (s : State) : Out :=
  word f { use2 o with priv := 1 }
    (sysBody barChk fun s l =>
      let r := barSel l.tk l.b.w64
      let st := barStatus s r
      if st ≠ 0 then .done s (BitVec.ofNat 64 st)
      else s.putImage l l.a.w64 ((List.range r.count).flatMap fun k => (s.bar r.ck (r.first + k)).image) 0) s

/-- A barrier is restored: the saved threads of its owner that its waiter mask names are blocked at it, no other thread is. -/
def State.restoreBar (s : State) (ck b : Nat) (v : Bar) : State :=
  let own := s.barOwner ck b
  let ts := (s.coreAll ck).filter fun e => e.2.st == .saved && some e.2.ctx == own
  let m := ts.foldl (fun (m : BitVec 1024) e =>
    if v.wait.getLsbD (slotOf e.1) then m ||| BitVec.twoPow 1024 (slotOf e.1) else m) 0
  let s := s.setBar ck b { v with wait := m }
  ts.foldl (fun s e =>
    s.modThr e.1 fun t =>
      let l := t.blk.filter fun x => match x with | .bar c _ => c != b | _ => true
      { t with blk := if m.getLsbD (slotOf e.1) then .bar b v.phi :: l else l }) s

def execBarrest (f : Frame) (o : O2) (s : State) : Out :=
  word f { use2 o with priv := 1 }
    (sysBody barChk fun s l =>
      let r := barSel l.tk l.b.w64
      let st := barStatus s r
      if st ≠ 0 then .done s (BitVec.ofNat 64 st)
      else
        s.getImage l l.a.w64 (512 * r.count) fun s b =>
          .done ((List.range r.count).foldl (fun s k => s.restoreBar r.ck (r.first + k) (barFrom (b.drop (512 * k)))) s) 0) s

/-! ### TLBINV (R395, R234) -/

/-- Cores that a scope names. -/
def State.inScope (s : State) (sc : Scope) (ck other : Nat) : Bool :=
  match sc with
  | .die => dkOf other == dkOf ck
  | .package => pkgOfCore other == pkgOfCore ck
  | .cell => (s.pkg (pkgOfCore other)).cell == (s.pkg (pkgOfCore ck)).cell
  | .rack => true
  | _ => other == ck

/-- A translation that TLBINV's operands name. -/
def tlbNames (a b : Word) (ctx : Nat) (x : Xl) : Bool :=
  (a.getLsbD 6 || ctx == field a.toNat 5 0) && (b.getLsbD 0 || x.covers (field b.toNat 54 16 * 2 ^ 16))

/-- Every entry of a thread that has not performed, those that a leading copy holds as well (R405). -/
def Thread.entries (t : Thread) : List SbE :=
  (match t.pair with | some p => p.sig.filterMap fun e => e.held | none => []) ++ t.owed

/-- Accesses in a scope that were translated through entries that are dropped and have not performed. -/
def State.oldAccesses (s : State) (sc : Scope) (ck : Nat) (a b : Word) : List (Nat × Nat) :=
  s.threads.flatMap fun e =>
    if !s.inScope sc ck (ckOf e.1) then []
    else
      let hit (x : Option Xl) : Bool := match x with | some x => tlbNames a b e.2.ctx x | none => false
      ((e.2.pend ++ e.2.orph).filterMap fun q =>
        match q.k.acc? with
        | some c => if c.pieces.any fun p => p.got.isNone && hit p.xl then some (e.1, q.u) else none
        | none => none)
        ++ ((e.2.entries.filter fun x => x.pieces.any fun p => !p.done && hit p.xl).map fun x => (e.1, x.u))

/-- The entries are dropped, and the thread waits for the accesses that used them. -/
def State.tlbDrop (s : State) (sc : Scope) (ck : Nat) (a b : Word) : State :=
  let cores : Tab Core := s.cores.map fun e =>
    if s.inScope sc ck e.1 then (e.1, { e.2 with tlb := e.2.tlb.filter fun x => !tlbNames a b x.ctx x.x }) else e
  { s with cores := cores }

def execTlbinv (f : Frame) (sc : Scope) (o : S2) (s : State) : Out :=
  word f { useS2 o with priv := 1 }
    (sysBody (fun _ l => reservedBits l.a.w64 (~~~0x7F) <|> reservedBits l.b.w64 0xFF8000000000FFFE)
      fun s l => .wait (s.tlbDrop sc l.ck l.a.w64 l.b.w64) (.tlb (s.oldAccesses sc l.ck l.a.w64 l.b.w64))) s

/-! ### MAPSET and SELFTEST (R396, R397, R116, R419) -/

def execMapset (f : Frame) (o : O2) (s : State) : Out :=
  word f { use2 o with priv := 1 }
    (sysBody (fun _ l => reservedBits l.a.w64 (~~~0x1FF) <|> reservedBits l.b.w64 (~~~0x7F))
      fun s l =>
        let core := field l.a.w64.toNat 6 0
        let phys := l.b.w64.toNat
        let dk := dieKey (pkgOfThr l.tk) (field l.a.w64.toNat 8 7)
        let d := s.die dk
        if 96 ≤ core ∨ 100 ≤ phys then .done s 3
        else if s.phys (dk * 128 + core) = phys then .done s 0
        else if ((List.range 96).any fun c => s.phys (dk * 128 + c) == phys) || d.testing.contains phys then .done s 1
        else if d.failed.contains phys then .done s 2
        else .done (s.moveCore dk core phys) 0) s

def execSelftest (f : Frame) (o : O1) (s : State) : Out :=
  word f { use1 o with priv := 1 }
    (sysBody (fun _ l => reservedBits l.a.w64 (~~~0x7FF))
      fun s l =>
        let n := l.a.w64.toNat
        let phys := field n 6 0
        let dk := dieKey (pkgOfThr l.tk) (field n 8 7)
        let d := s.die dk
        if field n 10 9 = 0 ∨ 100 ≤ phys then .done s 3
        else if ((List.range 96).any fun c => s.phys (dk * 128 + c) == phys) || d.testing.contains phys then .done s 2
        else
          let (u, s) := s.fresh
          let s := s.modPkg (pkgOfDie dk) fun k => { k with tests := k.tests ++ [(u, dieIx dk, phys, field n 10 9)] }
          .wait (s.modDie dk fun d => { d with testing := phys :: d.testing }) (.test dk phys)) s

/-! ### ERRRD (R398) -/

def execErrrd (f : Frame) (o : O2) (s : State) : Out :=
  word f { use2 o with priv := 1 }
    (sysBody (fun _ l => misaligned l.a.w64 64)
      fun s l =>
        let k := s.pkg (pkgOfThr l.tk)
        let b := l.b.w64.toNat
        if k.errProd ≤ b then .done s 1
        else if b + 4096 < k.errProd then .done s 2
        else s.putImage l l.a.w64 ((Tab.getOr k.errLog b (List.replicate 64 0))) 0) s

/-! ### CTXSW (R383 to R388, R394) -/

/-- The context that a descriptor describes. -/
def ctxFrom (b : List Byte) : Ctx :=
  let attr := BitVec.ofNat 64 (recField b 0 8)
  let t := recField b 0x0C 4
  let w := recField b 0x22 2
  let dies := BitVec.ofNat 4 (recField b 0x40 4)
  { attr := if attr.getLsbD 2 then attr ||| 8 else attr, prio := recField b 8 1 % 4, slots := recField b 0xA 2,
    timeout := if t = 0 then 1000 else t, root := BitVec.ofNat 64 (recField b 0x10 8), fqbase := BitVec.ofNat 64 (recField b 0x18 8),
    fqlog := recField b 0x20 1, win := if w = 0 then 2048 else 256 * w, saveoff := recField b 0x24 4, shr0 := recField b 0x28 2,
    shrn := recField b 0x2A 2, bar0 := recField b 0x2C 2, barn := recField b 0x2E 2, tile0 := recField b 0x30 1,
    tilen := recField b 0x31 1, hndpc := BitVec.ofNat 64 (recField b 0x38 8), dies := dies,
    st := ((List.range 4).filter fun d => dies.getLsbD d).map fun d => (d, 1) }

/-- A descriptor field is out of range, or a reserved byte is not 0. -/
def ctxMalformed (b : List Byte) : Bool :=
  let x := ctxFrom b
  let t := recField b 0x0C 4
  recField b 0 8 / 512 != 0 || decide (3 < recField b 8 1) || !allZero b 9 1 || x.slots == 0 || decide (1024 < x.slots)
    || (t != 0 && (decide (t < 10) || decide (1000000 < t))) || x.root.toNat % 65536 != 0 || x.fqbase.toNat % 128 != 0
    || decide (x.fqlog < 4) || decide (16 < x.fqlog) || !allZero b 0x21 1 || decide (256 < recField b 0x22 2)
    || x.saveoff % 128 != 0 || decide (0xC00000 < x.saveoff + x.saveLen) || decide (256 < x.shr0 + x.shrn)
    || decide (1024 < x.bar0 + x.barn) || decide (64 < x.tile0 + x.tilen) || !allZero b 0x32 6
    || (x.hndpc != 0 && !x.attr.getLsbD 0) || x.hndpc.toNat % 8 != 0 || recField b 0x40 4 / 16 != 0 || !allZero b 0x44 60

/-- A policy that the descriptor asks for is not taken (R19, R383). -/
def State.ctxUntaken (s : State) (p : Nat) (x : Ctx) : Bool :=
  let t := (s.pkg p).featTake
  let need (bit feat : Nat) : Bool := x.attr.getLsbD bit && !t.getLsbD feat
  need 8 0 || need 5 14 || need 6 15 || need 7 11 || need 2 10 || need 3 10

/-- Two contexts' allotments or save areas share something on a die that both name. -/
def ctxOverlap (x y : Ctx) : Bool :=
  x.dies &&& y.dies != 0
    && (overlaps x.shr0 x.shrn y.shr0 y.shrn || overlaps x.bar0 x.barn y.bar0 y.barn || overlaps x.tile0 x.tilen y.tile0 y.tilen
      || overlaps x.saveoff x.saveLen y.saveoff y.saveLen)

/-- The save area meets a vault span that a launch has reserved. -/
def State.saveTaken (s : State) (p : Nat) (x : Ctx) : Bool :=
  s.launches.any fun e => e.2.dies.any fun d =>
    pkgOfDie d.dk == p && x.dies.getLsbD (dieIx d.dk) && d.vs.any fun v => overlaps v.2.1 v.2.2 x.saveoff x.saveLen

/-- What a context holds on its cores and dies goes back to its creation state. -/
def State.clearCtx (s : State) (p c : Nat) (x : Ctx) : State :=
  let cut {β : Type} (t : Tab β) (a n : Nat) : Tab β := t.filter fun e => decide (e.1 < a) || decide (a + n ≤ e.1)
  let cores : Tab Core := s.cores.map fun e =>
    if pkgOfCore e.1 = p ∧ x.dies.getLsbD (dieIx (dkOf e.1)) then
      (e.1, { e.2 with bars := cut e.2.bars x.bar0 x.barn, shr := cut e.2.shr (8 * x.shr0) (8 * x.shrn),
                       tiles := cut e.2.tiles x.tile0 x.tilen, routes := cut e.2.routes (32 * c) 32, lead := Tab.cut e.2.lead c,
                       ticks := e.2.ticks.filter fun t => t.2.ctx != c, grps := e.2.grps.filter fun g => g.2.ctx != c })
    else e
  let dies : Tab Die := s.dies.map fun e =>
    if pkgOfDie e.1 = p then
      (e.1, { e.2 with key := Tab.cut e.2.key c, comms := e.2.comms.filter fun m => m.2.ctx != c,
                       binds := e.2.binds.filter fun b => b.cmd.ctx != c, ops := e.2.ops.filter fun o => o.cmd.ctx != c,
                       ending := e.2.ending.filter fun o => o.cmd.ctx != c, puts := e.2.puts.filter fun q => q.ctx != c,
                       trigs := e.2.trigs.filter fun t => t.cmd.ctx != c })
    else e
  { s with cores := cores, dies := dies }

def ctxChk (b : Word) (l : Lane) : Option FI := reservedBits l.a.w64 (~~~0x3F) <|> reservedBits l.b.w64 b

/-- A context that an operation acts on: status 2 for the supervisor's, 1 for one that is absent. -/
def onCtx (k : State → Lane → Nat → Ctx → SysRes) (s : State) (l : Lane) : SysRes :=
  let p := pkgOfThr l.tk
  let c := l.a.w64.toNat
  if c = 0 then .done s 2
  else
    match s.ctx? p c with
    | none => .done s 1
    | some x => k s l c x

def execCtxswCreate (f : Frame) (o : O2) (s : State) : Out :=
  word f { use2 o with priv := 1 }
    (sysBody (fun _ l => ctxChk 0 l)
      fun s l =>
        let p := pkgOfThr l.tk
        let c := l.a.w64.toNat
        let a := l.b.w64.toNat
        if c = 0 then .done s 2
        else if !(s.pkg p).featLock then .done s 3
        else if (s.ctx? p c).isSome then .done s 1
        else if a % 128 ≠ 0 ∨ 2 ^ 52 ≤ a then .done s 2
        else
          match s.ownFault p 0 a with
          | some 0x0D => .fault { code := 0x0D, addr := l.b.w64 }
          | some 0x0B => .far (homeOf a) l.b.w64
          | some _ => .done s 2
          | none =>
            let s := s.settle (lineOf a)
            let b := s.bytes a 128
            let x := ctxFrom b
            if ctxMalformed b || s.ctxUntaken p x || s.saveTaken p x
                || s.ctxs.any fun e => e.1 / 64 == p && ctxOverlap x e.2 then .done s 2
            else .done ((s.clearCtx p c x).setCtx p c x) 0) s

/-- Engine records of a context that were held for a full queue go with it. -/
def State.dropHeld (s : State) (p c : Nat) : State :=
  (s.ctx p c).held.foldl (fun s r =>
    if (r.bytes[1]?.getD 0).getLsbD 1 then
      s.modDie (dieKey p (((r.bytes[3]?.getD 0).toNat / 16) % 4)) fun d => { d with engHeld := d.engHeld - 1 }
    else s) s

def execCtxswDestroy (f : Frame) (o : O2) (s : State) : Out :=
  word f { use2 o with priv := 1 }
    (sysBody (fun _ l => ctxChk (~~~0) l)
      (onCtx fun s l c x =>
        let p := pkgOfThr l.tk
        if s.launches.any fun e => e.2.ctx == c && (e.2.pkg == p || e.2.dies.any fun d => pkgOfDie d.dk == p) then .done s 4
        else
          let s := (s.dropHeld p c).clearCtx p c x
          .done { s with ctxs := Tab.cut s.ctxs (ctxKey p c) } 0)) s

/-- Dies of a mask on which a context stands in one of some states. -/
def ctxDies (x : Ctx) (m : Word) (l : List Nat) : List Nat :=
  (List.range 4).filter fun d => m.getLsbD d && l.contains (Tab.getOr x.st d 0)

def execCtxswPreempt (f : Frame) (o : O2) (s : State) : Out :=
  word f { use2 o with priv := 1 }
    (sysBody (fun _ l => ctxChk (~~~0xF) l)
      (onCtx fun s l c x =>
        let ds := ctxDies x l.b.w64 [1, 2]
        if ds.isEmpty then .done s 6
        else
          let x := { x with st := ds.foldl (fun t d => Tab.put t d 2) x.st }
          .wait (s.setCtx (pkgOfThr l.tk) c x) (.preempt c (l.b.w64.setWidth 4)))) s

/-- Every name of a thread becomes another: in its pair, in its launch's barrier and in the commands it issued. -/
def State.rename (s : State) (a b : Nat) : State :=
  let cmd (c : Cmd) : Cmd := if c.tk = a then { c with tk := b } else c
  let cores : Tab Core := s.cores.map fun e =>
    if dkOf e.1 = dkOf (ckOf a) then
      (e.1, { e.2 with copyq := e.2.copyq.map cmd, matq := e.2.matq.map cmd, sent := e.2.sent.map fun x => { x with cmd := cmd x.cmd },
                       tiles := e.2.tiles.map fun t => (t.1, { t.2 with mepi := t.2.mepi.map cmd }) })
    else e
  let dies : Tab Die := s.dies.map fun e =>
    if e.1 = dkOf (ckOf a) then
      (e.1, { e.2 with collq := e.2.collq.map cmd, binds := e.2.binds.map fun x => { x with cmd := cmd x.cmd },
                       ops := e.2.ops.map fun x => { x with cmd := cmd x.cmd },
                       ending := e.2.ending.map fun x => { x with cmd := cmd x.cmd },
                       trigs := e.2.trigs.map fun x => { x with cmd := cmd x.cmd } })
    else e
  let launches : Tab Launch := s.launches.map fun e =>
    (e.1, { e.2 with lbarArr := e.2.lbarArr.map fun t => if t = a then b else t })
  let s : State := { s with cores := cores, dies := dies, launches := launches }
  match (s.thr a).pair with
  | some q => s.modThr q.partner fun t => { t with pair := t.pair.map fun r => { r with partner := b } }
  | none => s

/-- Moves a thread's record to another key. -/
def State.rekey (s : State) (a b : Nat) : State :=
  let s := s.rename a b
  let t := s.thr a
  State.setThr { s with threads := Tab.cut s.threads a } b t

/-- The waits that a thread was saved with begin again, under names of their own (R386, R388). -/
def State.rearm (s : State) (tk : Nat) : State :=
  ((s.thr tk).pend.filter fun q => q.k.isWait).foldl (fun s q =>
    let (u, s) := s.fresh
    let k : PK := match q.k with
      | .waita a c d =>
        .waita { a with pieces := a.pieces.map fun p => { p with xl := none, got := none } } c (d.map fun d => (d.1, s.time (pkgOfThr tk) + d.1))
      | k => k
    let s := s.modThr tk fun t =>
      { t with pend := t.pend.map fun x => if x.u = q.u then { x with u := u, k := k } else x,
               c := t.c.bump (if k.inLdc then 1 else 0) 0 (if k.remote then 1 else 0) }
    let ck := ckOf tk
    match k with
    | .rdfe r =>
      let x := s.shReg tk r
      (s.setShReg tk r { x with rq := x.rq ++ [(tk, u)] }).feCheck ck r
    | .wrfe r _ =>
      let x := s.shReg tk r
      (s.setShReg tk r { x with wq := x.wq ++ [(tk, u)] }).feCheck ck r
    | .qpush j _ | .qpop j _ => match (s.thr tk).launch with | some lk => s.queueCheck lk (dkOf ck) j | none => s
    | .twait i st => if (s.tile ck i).st = st then { s with agenda := .twaitComplete tk u :: s.agenda } else s
    | _ => s) s

/-- A saved thread takes its slot again (R388). -/
def State.restoreThread (s : State) (key : Nat) : State :=
  let tk := key % slotKeys
  let orph := (s.thr tk).orph
  let s := (s.rekey key tk).modThr tk fun t => { t with st := t.back, cut := false, orph := orph ++ t.orph }
  let s := s.rearm tk
  if (s.thr tk).xback then
    let s := s.modThr tk fun t => { t with xwant := true }
    (s.modCore (ckOf tk) fun c => { c with poolq := c.poolq ++ [⟨[tk], s.clock⟩] }).poolCheck (ckOf tk)
  else s

/-- The saved threads of a context on a die. -/
def State.savedThreads (s : State) (dk c : Nat) : List Nat :=
  (s.threads.filter fun e => e.2.st == .saved && e.2.ctx == c && dkOf (ckOf e.1) == dk && decide (slotKeys ≤ e.1)).map (·.1)

/-- A context returns to a die: its threads to their slots, its launches that wait there, and the chunks latched for it (R366). -/
def State.resumeDie (s : State) (p c d : Nat) : State :=
  let dk := dieKey p d
  let s := s.modCtx p c fun x => { x with st := Tab.put x.st d 1 }
  let s := (s.savedThreads dk c).foldl (fun s k => s.restoreThread k) s
  let launches : Tab Launch := s.launches.map fun e =>
    if e.2.ctx = c then (e.1, e.2.onDie dk fun x => { x with arrived := x.arrived || x.answered }) else e
  let x := s.ctx p c
  let cores : Tab Core := s.cores.map fun e =>
    if dkOf e.1 = dk then
      (e.1, { e.2 with tiles := e.2.tiles.map fun t =>
                (t.1, if decide (x.tile0 ≤ t.1) && decide (t.1 < x.tile0 + x.tilen) then { t.2 with latched := false } else t.2) })
    else e
  let s : State := { s with launches := launches, cores := cores }
  s.modDie dk fun y => { y with trigs := y.trigs.map fun t => if t.cmd.ctx = c ∧ !t.acked then { t with sent := false } else t }

def execCtxswResume (f : Frame) (o : O2) (s : State) : Out :=
  word f { use2 o with priv := 1 }
    (sysBody (fun _ l => ctxChk (~~~0xF) l)
      (onCtx fun s l c x =>
        let p := pkgOfThr l.tk
        let ds := ctxDies x l.b.w64 [3]
        if ds.isEmpty then .done s 6
        else if ds.any fun d => (s.savedThreads (dieKey p d) c).any fun k => (s.thr (k % slotKeys)).st != .free then .done s 5
        else .done (ds.foldl (fun s d => s.resumeDie p c d) s) 0)) s

end Sys2Proof.Machine
end

