-- ==== Sys2Proof/Machine/Ecc.lean ====
section
/-! DEFINITION. The protection of memory lines: the Reed-Solomon code (R410), the counters of banks, channels and rows with
their alarms (R417, R418), and what a read of a line in error comes to (R412). -/

namespace Sys2Proof.Machine

/-! ### The code (R410) -/

/-- Product in GF(2^8) with x^8 + x^4 + x^3 + x^2 + 1. -/
def gfMul (a b : Nat) : Nat :=
  ((List.range 8).foldl (fun (x : Nat × Nat) k =>
    (if b.testBit k then x.1 ^^^ x.2 else x.1, if x.2 < 128 then 2 * x.2 else (2 * x.2) ^^^ 0x11D)) (0, a)).1

def gfPow (a : Nat) : Nat → Nat
  | 0 => 1
  | n + 1 => gfMul a (gfPow a n)

/-- Symbols of a codeword: 128 of data, 2 of the directory field, 6 of check. -/
def codeSymbols : Nat := 136
def errSymbol (e : BitVec 1088) (k : Nat) : Nat := e.toNat / 256 ^ k % 256

def wrongSymbols (e : BitVec 1088) : Nat := ((List.range codeSymbols).filter fun k => errSymbol e k != 0).length

/-- The generator's coefficients below the first, the highest first. -/
def rsGen : List Nat :=
  ((List.range 6).foldl (fun p i => List.zipWith (· ^^^ ·) (p ++ [0]) (0 :: p.map (gfMul (gfPow 2 i)))) [1]).drop 1

/-- The six check symbols of a message, which complete a codeword: the remainder of the message by the generator, the highest power
first (log 41). -/
def rsCheck (msg : List Byte) : List Byte :=
  (msg.foldl (fun (r : List Nat) m =>
    let f := r.headD 0 ^^^ m.toNat
    List.zipWith (· ^^^ ·) (r.drop 1 ++ [0]) (rsGen.map (gfMul f))) (List.replicate 6 0)).map (BitVec.ofNat 8 ·)

/-- Syndrome `i`: the error pattern at α^i; the first symbol has the highest degree (log 41). -/
def syndromeAt (e : BitVec 1088) (i : Nat) : Nat :=
  (List.range codeSymbols).foldl (fun acc k => gfMul acc (gfPow 2 i) ^^^ errSymbol e k) 0

/-- The six syndromes, the first in the low byte. -/
def syndrome (e : BitVec 1088) : Nat := ((List.range 6).map fun i => syndromeAt e i * 256 ^ i).sum

/-! ### Where a line stands, and the counters (R417, R418) -/

/-- The bank and the channel as a unit (R377). -/
def MemPlace.unit (m : MemPlace) (p : Nat) : Nat := unitId 7 p (m.ctrl / 24) (m.ctrl % 24) (m.ch * 256 + m.bank)

def MemPlace.chan (m : MemPlace) : Nat := m.ctrl * 16 + m.ch

/-- Puts a row of a channel among the others, the most corrected first. -/
def rowInsert (x : Nat × Nat × Nat) : List (Nat × Nat × Nat) → List (Nat × Nat × Nat)
  | [] => [x]
  | y :: r => if y.2.2 < x.2.2 then x :: y :: r else y :: rowInsert x r

/-- A corrected event of a line: the bank's and the row's counts, and the alarm of each, which it writes once (R418). -/
def State.countFixed (s : State) (p line : Nat) : State :=
  let m := memPlace line
  let key := m.chan * 32 + m.bank
  let thr := (s.memThr p m.ctrl).toNat
  let b := s.bank p key
  let b1 := { b with fixed := satAdd32 b.fixed }
  let l := Tab.getOr (s.pkg p).rows m.chan []
  let old := ((l.find? fun r => r.1 == m.row && r.2.1 == m.bank).map fun r => r.2.2).getD 0
  let l := rowInsert (m.row, m.bank, old + 1) (l.filter fun r => !(r.1 == m.row && r.2.1 == m.bank))
  let alarm := decide (field thr 15 0 ≤ b1.fixed) && !b.alarmed
  let row := (m.chan, m.bank, m.row)
  let rowAlarm := decide (field thr 31 16 ≤ old + 1) && !(s.pkg p).rowMarks.contains row
  let s := s.modPkg p fun k =>
    { k with rowMarks := if rowAlarm then row :: k.rowMarks else k.rowMarks,
             banks := Tab.put k.banks key { b1 with alarmed := b.alarmed || alarm }, rows := Tab.put k.rows m.chan l }
  let s := if alarm then s.errRecord p 3 0x15 (m.unit p) 0 0 [m.bank] else s
  if rowAlarm then s.errRecord p 3 0x16 (m.unit p) 0 0 [m.bank, m.row] else s

/-- An uncorrectable event of a line. -/
def State.countLost (s : State) (p line : Nat) : State :=
  let m := memPlace line
  let key := m.chan * 32 + m.bank
  s.modPkg p fun k =>
    let b := Tab.getOr k.banks key {}
    { k with banks := Tab.put k.banks key { b with lost := satAdd32 b.lost } }

/-! ### The controllers' check-bit caches (R413) -/

/-- Check lines of 64 KiB. -/
def chkMax : Nat := 512

/-- Data lines of a unit of 2 KiB (R409). -/
def unitLines : Nat := 15

/-- The check line of a line, as its unit, with its controller; and the line's place in the unit. -/
def chkOf (line : Nat) : Nat × Nat := ((memPlace line).ctrl, Config.checkLine line / unitLines)
def chkSlot (line : Nat) : Nat := Config.checkLine line % unitLines

/-- The directory field of a line (R334), as memory takes it. -/
def Dir.word (d : Dir) : Nat :=
  let st := match d.st with | .uncached => 0 | .shared => 1 | .excl => 2 | .owned => 3 | .update => 4
  let pairs := (List.range 8).foldl (fun m j => if d.cells.getLsbD (2 * j) || d.cells.getLsbD (2 * j + 1) then m + 2 ^ (7 + j) else m) 0
  st + (if d.st = .excl ∨ d.st = .owned then d.owner % 16 * 8 else 0) + pairs + (if d.psn then 2 ^ 15 else 0)

/-- The eight bytes of a check line that belong to a data line, at eight times its place (R409): its directory field and its check
symbols. -/
def State.chkWord (s : State) (line : Nat) : List Byte :=
  let d := s.dir line
  let f := leBytes 2 d.word
  let sym := rsCheck (s.lineBytes line ++ f)
  f ++ (if d.psn then List.zipWith (· ^^^ ·) sym [0x5A, 0xA5, 0x5A, 0xA5, 0x5A, 0xA5] else sym)

/-- A check line: the words of its data lines, and in bytes 120 to 127 a check over bytes 0 to 119 in the same code (R409; log 70). -/
def State.checkLine (s : State) (x : Nat × Nat) : List Byte :=
  let b := (List.range unitLines).flatMap fun j =>
    match s.dirs.find? fun e => chkOf e.1 == x && chkSlot e.1 == j with
    | some e => s.chkWord e.1
    | none => List.replicate 8 0
  b ++ rsCheck b ++ List.replicate 2 0

/-- The controller reads or writes a line: its check line is in the cache, and the oldest of a full cache leaves for memory. -/
def State.chkHold (s : State) (line : Nat) : State :=
  let x := chkOf line
  s.modPkg (homeOf (line * 128)) fun k =>
    let l := k.chk.filter (· != x)
    { k with chk := x :: ((l.filter fun y => y.1 == x.1).take (chkMax - 1) ++ l.filter fun y => y.1 != x.1) }

def State.chkHeld (s : State) (line : Nat) : Bool := (s.pkg (homeOf (line * 128))).chk.contains (chkOf line)

/-- The part of an error pattern that lies in the data symbols, and its part in the word of the check line. -/
def dataErr (e : BitVec 1088) : BitVec 1088 := e &&& BitVec.ofNat 1088 (2 ^ 1024 - 1)
def chkErr (e : BitVec 1088) : BitVec 1088 := e &&& ~~~BitVec.ofNat 1088 (2 ^ 1024 - 1)

/-- Wrong bits of a pattern. -/
def wrongBits (e : BitVec 1088) : Nat := ((List.range 1088).filter fun i => e.getLsbD i).length

/-! ### A read of a line (R412) -/

/-- The line can be corrected: at most 3 symbols are wrong and its controller corrects (R410). -/
def State.correctable (s : State) (line : Nat) : Bool :=
  decide (wrongSymbols (s.dir line).err ≤ 3) && !((s.pkg (homeOf (line * 128))).detect.contains (memPlace line).ctrl)

/-- The controller returns the corrected line and writes it back. -/
def State.correctLine (s : State) (line : Nat) : State :=
  let h := homeOf (line * 128)
  let n := wrongSymbols (s.dir line).err
  let s := ((s.modDir line fun d => { d with err := 0 }).countFixed h line).chkHold line
  s.errRecord h 1 0x07 ((memPlace line).unit h) 0 (line * 128) [n]

/-- The bytes of a line as they stand in memory, wrong symbols and all. -/
def State.spoilLine (s : State) (line : Nat) : State :=
  let e := (s.dir line).err
  (List.range 128).foldl (fun s k =>
    s.write (line * 128 + k) 1 ((s.byte (line * 128 + k)).toNat ^^^ errSymbol e k)) s

/-- A cached check line proves uncorrectable: its symbols are computed again from its data lines as they stand, errors and all, and
the controller writes a record (R413). -/
def State.chkRecompute (s : State) (line : Nat) : State :=
  let x := chkOf line
  let h := homeOf (line * 128)
  let l := (s.dirs.filter fun e => homeOf (e.1 * 128) == h && chkOf e.1 == x && !e.2.psn).map (·.1)
  let s := l.foldl (fun s y => (s.spoilLine y).modDir y fun d => { d with err := 0 }) s
  s.errRecord h 1 0x07 ((memPlace line).unit h) 0 (line * 128) [0]

end Sys2Proof.Machine
end

