-- ==== Sys2Proof/Machine/Home.lean ====
section
/-! DEFINITION. The home of a line (R333 to R342): whom it addresses, one transaction at a time, what each request comes to,
the recovery of a line in error (R412), firewall recalls (R342), and what the loss of a cell makes of a line (R346, R347). -/

namespace Sys2Proof.Machine

/-! ### Names, messages and whom they address (R333) -/

def lineHome (line : Nat) : Nat := homeOf (line * 128)
def State.cellOf (s : State) (p : Nat) : Nat := (s.pkg p).cell

/-- The live packages of a set of cells, but for one. -/
def State.addressed (s : State) (h : Nat) (cells : BitVec 16) (but : Option Nat) : List Nat :=
  (List.range 16).filter fun q => (s.pkg q).present && cells.getLsbD (s.cellOf q) && !s.isLost h q && some q != but

def cellBit (c : Nat) : BitVec 16 := BitVec.twoPow 16 c

/-- The binding that a BIND field names (R325). -/
def bindOf (n : Nat) : Bind := { op := n % 8, w32 := n.testBit 3, sgn := n.testBit 4, fp := n.testBit 5 }

def State.modTx (s : State) (line : Nat) (f : Tx → Tx) : State := s.modDir line fun d => { d with tx := d.tx.map f }

/-- Places that an agent keeps for a home's Inv, FwdGetS, FwdGetM and Collect messages (R321). -/
def homePlaces : Nat := 256

/-- A transaction has a message out to a package that the package has not answered. -/
def Tx.asks (t : Tx) (q : Nat) : Bool := decide (t.phase < 2) && t.wait.contains q && !t.unsent.any fun x => x.2.2.2 == q

/-- How many messages of a home a package has not answered. -/
def State.homeOut (s : State) (h q : Nat) : Nat :=
  (s.dirs.filter fun e => lineHome e.1 == h && e.2.tx.any fun t => t.asks q).length

/-- One message of a home about a line; `home` says that the home itself is the requester. -/
def State.homeMsg (s : State) (ty : MsgTy) (line req : Nat) (home : Bool) (q : Nat) : State :=
  s.send { u := 0, ty := ty, src := lineHome line, dst := q, req := req, line := line, kind := if home then 1 else 0 }

/-- A message of a home to each package of a list, for which the transaction waits already; where the agent has no place, it
waits for one (R321). -/
def State.homeSend (s : State) (ty : MsgTy) (line req : Nat) (home : Bool) (l : List Nat) : State :=
  l.foldl (fun s q =>
    if s.homeOut (lineHome line) q ≤ homePlaces then s.homeMsg ty line req home q
    else s.modTx line fun t => { t with unsent := t.unsent ++ [(ty, req, home, q)] }) s

/-- A place at a package is free: a message of the home that waits for one goes. -/
def State.homeNext (s : State) (h q : Nat) : State :=
  let next := s.dirs.findSome? fun e =>
    if lineHome e.1 == h then e.2.tx.bind fun t => (t.unsent.find? fun x => x.2.2.2 == q).map fun x => (e.1, x) else none
  match next with
  | some (line, x) =>
    if s.homeOut h q < homePlaces then
      (s.modTx line fun t => { t with unsent := t.unsent.erase x }).homeMsg x.1 line x.2.1 x.2.2.1 q
    else s
  | none => s

/-- Roles of an Ack (log 42): an answer to a home, of a Put, of a Flush, a grant, a requester's Ack of its Data. -/
def ackAnswer : Nat := 0
def ackPut : Nat := 1
def ackFlush : Nat := 2
def ackGrant : Nat := 3
def ackData : Nat := 4

def State.sendAck (s : State) (src dst line role status : Nat) (txid : Nat := 0) (bind : Nat := 0) : State :=
  s.send { u := 0, ty := .ack, src := src, dst := dst, req := dst, line := line, status := status, kind := role, txid := txid,
           bind := bind }

/-- Data that grants a state to a requester; poisoned Data says so in its status (R337, R339). -/
def State.sendData (s : State) (src dst line grant : Nat) (psn : Bool) (txid : Nat) : State :=
  s.send { u := 0, ty := .data, src := src, dst := dst, req := dst, line := line, status := if psn then 8 else grant, seq := grant,
           carries := true, txid := txid, bytes := s.lineBytes line }

/-! ### The firewall (R341, R342) -/

def pageOf (line : Nat) : Nat := line * 128 % 2 ^ 48 / 65536

/-- The firewall lets a package gain write ownership of a line. -/
def State.fwAllows (s : State) (q line : Nat) : Bool :=
  (Tab.getOr (s.pkg (lineHome line)).fw (pageOf line) 0xFFFF).getLsbD (s.cellOf q)

/-- A recall of the line's page is under way that refuses the package. -/
def State.recalling (s : State) (q line : Nat) : Bool :=
  (s.pkg (lineHome line)).recalls.any fun r => r.1 == pageOf line && !r.2.1.getLsbD (s.cellOf q)

/-- The request waits for a recall to end. -/
def State.heldBack (s : State) (m : Msg) : Bool :=
  (m.ty == .getM || m.ty == .getU) && s.recalling m.src m.line

/-! ### The course of a transaction -/

def Dir.owns (d : Dir) : Bool := d.st == .excl || d.st == .owned

/-- Packages that first receive Inv. -/
def State.invList (s : State) (h : Nat) (d : Dir) (k : TxK) (wide : Bool) : List Nat :=
  let shares := d.st == .shared || d.st == .owned
  if wide then s.addressed h 0xFFFF none
  else match k with
  | .req m => if shares && (m.ty == .getM || m.ty == .getU) then s.addressed h d.cells (some m.src) else []
  | .repair _ => if shares then s.addressed h d.cells none else []
  | .lost => if shares then s.addressed h d.cells none else []
  | .recall | .room | .wipe => []

/-- The binding of a GetU is the line's. -/
def Dir.binds (d : Dir) (m : Msg) : Bool := m.ty == .getU && d.st == .update && d.bind == some (bindOf m.bind)

/-- Then the forwards or Collects: type, requester, whether that is the home, and the packages. -/
def State.fwdPlan (s : State) (h : Nat) (d : Dir) (k : TxK) : Option (MsgTy × Nat × Bool × List Nat) :=
  let owner (but : Option Nat) : List Nat := s.addressed h (cellBit d.owner) but
  let all : List Nat := s.addressed h d.cells none
  match k with
  | .req m =>
    if d.owns then
      match m.ty with
      | .getS => some (.fwdGetS, m.src, false, owner (some m.src))
      | .getM => some (.fwdGetM, m.src, false, owner (some m.src))
      | .getU => some (.fwdGetM, h, true, owner (some m.src))
      | .flush => some (.fwdGetS, h, true, owner (some m.src))
      | _ => none
    else if d.st = .update ∧ !d.binds m then some (.collect, h, true, all)
    else none
  | .recall | .repair _ | .wipe =>
    if d.owns then some (.fwdGetM, h, true, owner none) else if d.st = .update then some (.collect, h, true, all) else none
  | .lost | .room => if d.st = .update then some (.collect, h, true, all) else none

/-- A request waits at its home (R338). -/
def State.enqueue (s : State) (m : Msg) (front : Bool := false) : State :=
  s.modDir m.line fun d => { d with queue := if front then m :: d.queue else d.queue ++ [m] }

/-- The requester has its answer on the way; the line stays busy until it has arrived (R338), unless it cannot. -/
def State.granted (s : State) (m : Msg) : State :=
  s.modTx m.line fun t => { t with phase := 2, wait := [], got := t.got || s.isLost (lineHome m.line) m.src }

/-- What memory itself holds of a line: of one that an agent may have written and not written back, the bytes from before (R462). -/
def State.memoryLine (s : State) (line : Nat) : List Byte := ((s.dir line).old).getD (s.lineBytes line)

/-- The directory after a grant. Memory keeps its bytes while the line has an owner. -/
def State.setHolder (s : State) (line : Nat) (st : DirSt) (owner : Nat) (cells : BitVec 16) (bind : Option Bind := none) : State :=
  let old := if st = .excl ∨ st = .owned then some (if (s.dir line).owns then s.memoryLine line else s.lineBytes line) else none
  s.modDir line fun d => { d with st := st, owner := owner, cells := cells, bind := bind, old := old }

/-- A request for ownership whose cell a narrowing refuses by now (R342). -/
def State.refusedNow (s : State) (m : Msg) : Bool := (m.ty == .getM || m.ty == .getU) && !s.fwAllows m.src m.line

/-- Its transaction ends without a grant, and it waits for the recall (R342). -/
def State.holdReq (s : State) (m : Msg) : State := s.modDir m.line fun d => { d with tx := none, queue := m :: d.queue }

/-- A request is served from memory, as for an uncached line (R339); the line is in the home's cache, and its check line in the
controller's, from then on (R267, R413). -/
def State.fromMemory (s : State) (m : Msg) : State :=
  let h := lineHome m.line
  let a := s.cellOf m.src
  let psn := (s.dir m.line).psn
  let s := (s.homeHold m.line).chkHold m.line
  if s.refusedNow m then (s.setHolder m.line .uncached 0 0).holdReq m
  else match m.ty with
  | .getS =>
    if psn || !s.fwAllows m.src m.line then ((s.setHolder m.line .shared 0 (cellBit a)).sendData h m.src m.line 4 psn m.txid).granted m
    else ((s.setHolder m.line .excl a 0).sendData h m.src m.line 5 false m.txid).granted m
  | .getM => ((s.setHolder m.line .excl a 0).sendData h m.src m.line 6 psn m.txid).granted m
  | .getU =>
    ((s.setHolder m.line .update 0 (cellBit a) (some (bindOf m.bind))).sendAck h m.src m.line ackGrant 7 m.txid m.bind).granted m
  | _ => ((s.setHolder m.line .uncached 0 0).sendAck h m.src m.line ackFlush 0 m.txid).granted m

/-- All answers to a request have come (R339). -/
def State.answerReq (s : State) (m : Msg) (t : Tx) : State :=
  let h := lineHome m.line
  let a := s.cellOf m.src
  let d := s.dir m.line
  let share (cells : BitVec 16) : State := (s.setHolder m.line .shared 0 cells).granted m
  match m.ty, d.st with
  | .getS, .shared =>
    ((s.setHolder m.line .shared 0 (d.cells ||| cellBit a)).sendData h m.src m.line 4 d.psn m.txid).granted m
  | .getS, .excl =>
    if !t.held then s.fromMemory m
    else if t.dirty then (s.setHolder m.line .owned d.owner (cellBit a)).granted m
    else share (cellBit d.owner ||| cellBit a)
  | .getS, .owned =>
    if !t.held then s.fromMemory m else (s.setHolder m.line .owned d.owner (d.cells ||| cellBit a)).granted m
  | .getM, .excl | .getM, .owned =>
    if t.got then (s.setHolder m.line .excl a 0).granted m
    else if d.st = .owned ∧ d.owner = a then
      if s.refusedNow m then (s.setHolder m.line .owned a 0).holdReq m
      else ((s.setHolder m.line .excl a 0).sendAck h m.src m.line ackGrant 6 m.txid).granted m
    else s.fromMemory m
  | .getU, .update =>
    if d.binds m then
      ((s.setHolder m.line .update 0 (d.cells ||| cellBit a) d.bind).sendAck h m.src m.line ackGrant 7 m.txid m.bind).granted m
    else s.fromMemory m
  | .flush, .uncached | .flush, .shared => (s.sendAck h m.src m.line ackFlush 0 m.txid).granted m
  | .flush, .excl => (share (cellBit d.owner ||| cellBit a)).sendAck h m.src m.line ackFlush 0 m.txid
  | .flush, .owned => (share (d.cells ||| cellBit d.owner ||| cellBit a)).sendAck h m.src m.line ackFlush 0 m.txid
  | _, _ => s.fromMemory m

/-- Lost cells that may have held the line's value: a lost owner, or the lost holders of a line in update (R346). -/
def Dir.lostIn (d : Dir) (lost : BitVec 16) : BitVec 16 :=
  if d.owns then cellBit d.owner &&& lost else if d.st = .update then d.cells &&& lost else 0

/-- Counts a poisoned line with the first of the losses whose cell is one of these. -/
def bumpLoss (cells : BitVec 16) : List (Nat × Nat × Nat) → List (Nat × Nat × Nat)
  | [] => []
  | x :: r => if cells.getLsbD x.1 then (x.1, x.2.1 + 1, x.2.2) :: r else x :: bumpLoss cells r

/-- The loss of a cell poisons a line that it may have held, and counts it; of a line it owned, the bytes of memory stand (R346). -/
def State.losePoison (s : State) (line : Nat) : State :=
  let h := lineHome line
  let cells := (s.dir line).lostIn (s.lostMask h)
  if cells = 0 || (s.dir line).psn then s
  else
    let s := if (s.dir line).owns then s.writeBytes (line * 128) (s.memoryLine line) else s
    (s.modDir line fun d => { d with psn := true }).modPkg h fun k => { k with losses := bumpLoss cells k.losses }

/-- A line whose lost owner or holder may have held its value: poisoned and uncached, its bytes kept (R346, R411). -/
def State.poisonHome (s : State) (line : Nat) : State :=
  s.modDir line fun d => { d with st := .uncached, owner := 0, cells := 0, bind := none, psn := true, old := none }

/-- A recovery ends (R412): the line an owner returned stands, or the line is written back poisoned. -/
def State.repairEnd (s : State) (line : Nat) (t : Tx) : State :=
  let h := lineHome line
  let syn := syndrome (s.dir line).err
  let good := t.held && !t.part
  let s := if good then s.setHolder line .uncached 0 0 else (s.spoilLine line).poisonHome line
  let s := ((s.modDir line fun d => { d with err := 0 }).countLost h line).chkHold line
  s.errRecord h (if good then 1 else 2) 0x08 ((memPlace line).unit h) 0 (line * 128) [syn]

/-- A recall of the line ends. -/
def State.recallEnd (s : State) (line : Nat) : State :=
  s.modPkg (lineHome line) fun k =>
    { k with recalls := (k.recalls.map fun r => (r.1, r.2.1, r.2.2.filter (· != line))).filter fun r => !r.2.2.isEmpty }

/-- What stands once a recall has its answers: the remaining sharers of an owned line keep their copies. -/
def State.recalled (s : State) (line : Nat) : State :=
  let d := s.dir line
  if d.st = .owned ∧ d.cells ≠ 0 then s.setHolder line .shared 0 d.cells else s.setHolder line .uncached 0 0

/-- The last phase has its answers. -/
def State.endFwd (s : State) (line : Nat) : State :=
  match (s.dir line).tx with
  | some t =>
    match t.k with
    | .req m => s.answerReq m t
    | .recall => ((s.recalled line).modDir line fun d => { d with tx := none }).recallEnd line
    | .lost => ((s.losePoison line).poisonHome line).modDir line fun d => { d with tx := none }
    | .room => (s.setHolder line .uncached 0 0).modDir line fun d => { d with tx := none }
    | .wipe => (s.poisonHome line).modDir line fun d => { d with tx := none }
    | .repair r =>
      let s := (s.repairEnd line t).modDir line fun d => { d with tx := none }
      match r with | some m => s.enqueue m true | none => s
  | none => s

/-- A phase that goes to every cell (R412): FwdGetM with the home as requester, then Collect. -/
def State.wideSend (s : State) (line n : Nat) : State :=
  let h := lineHome line
  let l := s.addressed h 0xFFFF none
  let s := (s.modTx line fun t => { t with phase := 1, wait := l, wide := n }).homeSend (if n = 2 then .fwdGetM else .collect) line h true l
  if l.isEmpty then s.endFwd line else s

/-- All forwards have been answered: on to the Collects where the holders are not known, else to the end. -/
def State.afterFwd (s : State) (line : Nat) : State :=
  match (s.dir line).tx with
  | some t => if t.wide = 2 then s.wideSend line 3 else s.endFwd line
  | none => s

/-- The forwards or Collects of a transaction go out. An owner that is lost by now leaves the line poisoned (R346). -/
def State.sendFwd (s : State) (line : Nat) (k : TxK) : State :=
  let s := if (s.dir line).owns then s.losePoison line else s
  match s.fwdPlan (lineHome line) (s.dir line) k with
  | some (ty, req, home, l) =>
    let s := (s.modTx line fun t => { t with phase := 1, wait := l }).homeSend ty line req home l
    if l.isEmpty then s.afterFwd line else s
  | none => (s.modTx line fun t => { t with phase := 1, wait := [] }).afterFwd line

/-- All Invs have been answered. A request that has come to be refused waits for the recall (R342). -/
def State.afterInv (s : State) (line : Nat) : State :=
  match (s.dir line).tx with
  | some t =>
    match t.k with
    | .req m =>
      if s.refusedNow m then
        let d := s.dir line
        ((if d.st = .owned then s.setHolder line .owned d.owner 0 else if d.st = .shared then s.setHolder line .uncached 0 0 else s).holdReq m)
      else s.sendFwd line t.k
    | _ => if t.wide = 1 then s.wideSend line 2 else s.sendFwd line t.k
  | none => s

/-- The transaction needs no answer any more in its phase. The holder that a FwdGetM reached answers the requester alone. -/
def Tx.ready (t : Tx) : Bool :=
  let direct := match t.k with | .req m => m.ty == .getM && t.got && !t.part | _ => false
  t.wait.isEmpty || (t.phase == 1 && direct && decide (t.wait.length ≤ 1))

/-- A transaction begins; `wide` says that the holders of the line are not known. -/
def State.beginTx (s : State) (line : Nat) (k : TxK) (wide : Bool := false) : State :=
  let h := lineHome line
  let l := s.invList h (s.dir line) k wide
  let s := (s.modDir line fun d => { d with tx := some { k := k, wait := l, wide := if wide then 1 else 0 } }).homeSend .inv line h false l
  if l.isEmpty then s.afterInv line else s

/-! ### Loss of a cell: the walk of one line (R346 step 2, R347) -/

/-- The walk of one line that is not busy; it may begin a transaction. -/
def State.walkLine (s : State) (line : Nat) : State :=
  let lost := s.lostMask (lineHome line)
  let s := s.modDir line fun d => { d with walked := true }
  let d := s.dir line
  match d.st with
  | .uncached => s
  | .shared =>
    let cells := d.cells &&& ~~~lost
    s.setHolder line (if cells = 0 then .uncached else .shared) 0 cells
  | .excl => if lost.getLsbD d.owner then (s.losePoison line).poisonHome line else s
  | .owned =>
    if lost.getLsbD d.owner then s.beginTx line .lost else s.setHolder line .owned d.owner (d.cells &&& ~~~lost)
  | .update => if d.cells &&& lost ≠ 0 then s.beginTx line .lost else s

/-! ### Firewall recalls: one line (R342) -/

/-- Whether a recall of a page needs this line. -/
def Dir.needsRecall (d : Dir) (fw : BitVec 16) : Bool :=
  if d.owns then !fw.getLsbD d.owner else d.st == .update && d.cells &&& ~~~fw != 0

/-- A line that is not busy is recalled, or leaves the recall. -/
def State.recallLine (s : State) (line : Nat) : State :=
  let l := (s.pkg (lineHome line)).recalls.filter fun r => r.2.2.contains line
  if l.isEmpty then s
  else if l.any fun r => (s.dir line).needsRecall r.2.1 then s.beginTx line .recall
  else s.recallEnd line

/-- Every line has been walked and no collection of the walk is under way: one record for each loss (R346, step 4). -/
def State.walkEnds (s : State) (h : Nat) : State :=
  let k := s.pkg h
  if k.losses.isEmpty || s.dirs.any fun e => lineHome e.1 == h && (!e.2.walked || e.2.tx.any fun t => t.k == .lost) then s
  else
    k.losses.foldl (fun s x => s.errRecord h 2 0x18 (unitId 8 h 0 0 0) 0 0 [x.1, x.2.1 + 2 ^ 32 * x.2.2, (s.pkg h).lostDrop])
      (s.modPkg h fun k => { k with losses := [] })

/-- RDMA operations that waited for a line are tried again, in their order and before any that come later (R13, R412). -/
def State.hostAgain (s : State) (p : Nat) : State :=
  if (s.pkg p).hostq.isEmpty then s
  else { s.modPkg p fun k => { k with hostq := [] } with
         agenda := ((s.pkg p).hostq.map fun x => Ev.hostOp p x.1 x.2) ++ s.agenda }

/-- A line is free again: a loss that it has not been walked for and a recall come first. -/
def State.lineFree (s : State) (line : Nat) : State :=
  let h := lineHome line
  let s := if (s.dir line).tx.isNone && !(s.dir line).walked then s.walkLine line else s
  let s := if (s.dir line).tx.isNone then s.recallLine line else s
  let s := if s.dirs.any fun e => e.2.tx.any fun t => !t.unsent.isEmpty then (List.range 16).foldl (fun s q => s.homeNext h q) s else s
  (s.walkEnds h).hostAgain h

def State.closeTx (s : State) (line : Nat) : State := (s.modDir line fun d => { d with tx := none }).lineFree line

/-- After an answer: the transaction goes on as far as it can. -/
def State.advance (s : State) (line : Nat) : State :=
  match (s.dir line).tx with
  | none => s
  | some t =>
    if !t.ready then s
    else
      let s := if t.phase = 0 then s.afterInv line else if t.phase = 1 then s.afterFwd line else s
      match (s.dir line).tx with
      | none => s.lineFree line
      | some t => if t.phase = 2 ∧ t.got then s.closeTx line else s

/-! ### Serving a request (R338, R339) -/

/-- Begins a transaction and takes it as far as it can go now. -/
def State.openTx (s : State) (line : Nat) (k : TxK) (wide : Bool := false) : State :=
  let s := s.beginTx line k wide
  match (s.dir line).tx with
  | none => s.lineFree line
  | some t => if t.phase = 2 ∧ t.got then s.closeTx line else s

/-- The sender of a Put still holds the line in its write-back buffer: no forward or Collect has taken it (R337; log 43). -/
def State.putStands (s : State) (m : Msg) : Bool :=
  let a := s.aline m.src m.line
  match a.put with
  | some .M | some .O => true
  | some .U => a.putPart.isSome
  | _ => false

/-- A PutU of a holder: the home combines the partial; the cell leaves the holders unless another package of it holds the line
(log 43). -/
def State.takePartial (s : State) (m : Msg) : State :=
  let a := s.cellOf m.src
  let d := s.dir m.line
  let s : State := match m.part with | some q => ((s.combineLine m.line q).chkHold m.line).homeHold m.line true | none => s
  let other : Bool := (s.addressed (lineHome m.line) (cellBit a) (some m.src)).any fun q => (s.aline q m.line).st == .U
  let cells : BitVec 16 := if other then d.cells else d.cells &&& ~~~cellBit a
  if cells = 0 then s.setHolder m.line .uncached 0 0 else s.setHolder m.line .update 0 cells d.bind

/-- A PutM or PutO of the owner: the line is in memory, whole and free of errors. -/
def State.takeLine (s : State) (m : Msg) : State :=
  let d := s.dir m.line
  let shared := d.st == .owned && d.cells != 0
  (((s.setHolder m.line (if shared then .shared else .uncached) 0 (if shared then d.cells else 0)).modDir m.line fun d =>
    { d with err := 0, psn := d.psn || m.status == 8 }).chkHold m.line).homeHold m.line true

/-- A Put is Acked in any case (R339). -/
def State.servePut (s : State) (m : Msg) : State :=
  let a := s.cellOf m.src
  let d := s.dir m.line
  let s : State :=
    if !s.putStands m then s
    else if m.ty == .putU then (if d.st == .update && d.cells.getLsbD a then s.takePartial m else s)
    else if d.owns && d.owner == a then s.takeLine m
    else s
  ((s.modDir m.line fun d => { d with tx := some { k := .req m } }).sendAck (lineHome m.line) m.src m.line ackPut 0 m.txid).granted m

/-- The line carries poison that its agent gave it. -/
def State.takePoison (s : State) (m : Msg) : State :=
  if m.status = 8 then s.modDir m.line fun d => { d with psn := true } else s

/-- A request of a line that is free and free of errors. -/
def State.serveNow (s : State) (m : Msg) : State :=
  if m.ty = .putM ∨ m.ty = .putO ∨ m.ty = .putU then
    let s := s.servePut m
    match (s.dir m.line).tx with
    | some t => if t.got then s.closeTx m.line else s
    | none => s
  else if (m.ty = .getM ∨ m.ty = .getU) ∧ !s.fwAllows m.src m.line then
    s.sendMsg .nak (lineHome m.line) m.src m.src m.line (txid := m.txid)
  else (if m.ty = .flush then s.takePoison m else s).openTx m.line (.req m)

/-! ### The directory caches (R335) -/

/-- Cells that the field in memory names for a set of holders: both of each pair (R334). -/
def pairsOf (cells : BitVec 16) : BitVec 16 := cells ||| ((cells &&& 0x5555) <<< 1) ||| ((cells &&& 0xAAAA) >>> 1)

/-- Entries that 8 MiB hold at 128 bytes an entry; `Config.dirEntries` says how many more (log 57). -/
def dirMin : Nat := 65536

/-- An entry leaves its cache: the field in memory is what stands of it. -/
def State.dirLeave (s : State) (line : Nat) : State :=
  (s.modDir line fun d => { d with cells := pairsOf d.cells }).modPkg (lineHome line) fun k =>
    { k with dcache := k.dcache.filter (· != line) }

/-- The entry of a line enters the cache of its die. In a full one, the oldest that is neither pinned nor busy leaves; where none can,
the least recently used line in update is collected. -/
def State.dirEnter (s : State) (line : Nat) : State :=
  let l := line :: (s.pkg (lineHome line)).dcache.filter (· != line)
  let s := s.modPkg (lineHome line) fun k => { k with dcache := l }
  if l.length ≤ dirMin then s
  else
    let mine := l.filter fun x => dieOfLine x == dieOfLine line
    if mine.length ≤ dirMin + Config.dirEntries then s
    else
      let free := mine.filter fun x => x != line && (s.dir x).tx.isNone
      match (free.filter fun x => (s.dir x).st != .update).getLast? with
      | some x => s.dirLeave x
      | none => match free.getLast? with | some x => s.openTx x .room | none => s

/-- The recovery of a line whose memory cannot be corrected. Where its directory field is among what cannot be read and no entry is
cached, the messages go to every cell (R412). -/
def State.repairLine (s : State) (line : Nat) (m : Option Msg) (cached : Bool) : State :=
  let e := (s.dir line).err
  s.openTx line (.repair m) (!cached && (errSymbol e 128 != 0 || errSymbol e 129 != 0))

/-- A line of the home's cache proves uncorrectable there and is dirty: memory takes it poisoned, once the copies that follow from it
have ended. An owner's copy is newer, and stands (R411, R415). -/
def State.homeSpoil (s : State) (line : Nat) : State :=
  let d := s.dir line
  if d.owns then s
  else if d.tx.isSome then s.modDir line fun d => { d with psn := true }
  else if d.st = .uncached then s.poisonHome line
  else s.openTx line .lost

/-- The home takes a request: it waits for a busy line or a recall, a line not yet walked is walked first, and a line in error
is corrected or recovered first (R338, R342, R347, R412). Requests that wait go before it (R338). A PutM and a PutO write the line without reading it. -/
def State.serve (s : State) (m : Msg) (again : Bool := false) : State :=
  let s := if (s.dir m.line).tx.isNone && !(s.dir m.line).walked then s.walkLine m.line else s
  let cached := (s.pkg (lineHome m.line)).dcache.contains m.line
  let s := s.dirEnter m.line
  let d := s.dir m.line
  if s.isLost (lineHome m.line) m.src then s
  else if d.tx.isSome || s.heldBack m || (!again && d.queue.any fun x => !s.heldBack x) then s.enqueue m again
  else if d.err = 0 ∨ d.psn ∨ m.ty = .putM ∨ m.ty = .putO then s.serveNow m
  else if s.correctable m.line then (s.correctLine m.line).serveNow m
  else s.repairLine m.line (some m) cached

/-! ### A request message arrives -/

/-- A Put or a Flush whose tag fails has written the line it names: the home poisons it until a clean copy comes (R328). -/
def State.homeTag (s : State) (m : Msg) : State :=
  if m.carries && m.part.isNone && !(s.dir m.line).psn then
    (s.modDir m.line fun d => { d with psn := true }).askAgain m.dst { m with released := true }
  else s.askAgain m.dst m

/-- The clean copy of a message whose tag had failed takes its poison away. -/
def State.homeClean (s : State) (m : Msg) : State :=
  if m.released then s.modDir m.line fun d => { d with psn := false } else s

/-- A request of a type that has arrived at its home. -/
def onRequest (ty : MsgTy) (p j : Nat) (s : State) : Out :=
  .next <|
    match s.arrived p j ty with
    | none => s
    | some m => if m.bad then s.homeTag m else ((s.dropMsg j).homeClean m).serve m

/-- GETS (R339). -/
def execGets (pkg j : Nat) (s : State) : Out := onRequest .getS pkg j s

/-- GETM (R339). -/
def execGetm (pkg j : Nat) (s : State) : Out := onRequest .getM pkg j s

/-- GETU (R339). -/
def execGetu (pkg j : Nat) (s : State) : Out := onRequest .getU pkg j s

/-- PUTM (R339). -/
def execPutm (pkg j : Nat) (s : State) : Out := onRequest .putM pkg j s

/-- PUTO (R339). -/
def execPuto (pkg j : Nat) (s : State) : Out := onRequest .putO pkg j s

/-- PUTU (R339, R340). -/
def execPutu (pkg j : Nat) (s : State) : Out := onRequest .putU pkg j s

/-- FLUSH (R268, R339). -/
def execFlush (pkg j : Nat) (s : State) : Out := onRequest .flush pkg j s

/-- HOME_DEQUEUE_REQUEST: the oldest waiting request that no recall holds back is served (R338, R342). -/
def execHomeDequeueRequest (line : Nat) (s : State) : Out :=
  .next <|
    let d := s.dir line
    if d.tx.isSome then s
    else
      match d.queue.find? fun m => !s.heldBack m with
      | none => s
      | some m => (s.setDir line { d with queue := d.queue.filter fun x => x.u != m.u }).serve m true

end Sys2Proof.Machine
end

