-- ==== Sys2Proof/Machine/Coherence.lean ====
section
/-! DEFINITION. A package as the agent of its lines: what it answers to a home's messages (R336, R337), what Data, grants and
refusals bring (R327, R328, R341, R345), and the failures of accesses that they name (R343, R345, R473). -/

namespace Sys2Proof.Machine

/-! ### The failure of an access by its name -/

/-- The virtual address that a command needs in a line it waits for. -/
def Cmd.vaOfLine (c : Cmd) (line : Nat) : Nat := ((Tab.look c.asks line).map (·.1)).getD 0

/-- The thread of a package that has an access of a name. -/
def State.accessOf (s : State) (p u : Nat) : Option (Nat × Thread) :=
  s.threads.find? fun e => pkgOfThr e.1 == p && ((e.2.pend ++ e.2.orph).any (fun q => q.u == u) || e.2.sb.any fun x => x.u == u)

/-- The address of the part of an access that lies in a line. -/
def Acc.partIn (s : State) (a : Acc) (line : Nat) : Nat :=
  ((a.pieces.find? fun q => (q.at s).any fun pa => lineOf pa == line).map (·.va)).getD ((a.pieces.head?.map (·.va)).getD 0)

/-- Writes that were on their way at a pre-emption fail with the request of their line, by their own name or their command's (R312). -/
def State.failSents (s : State) (p u line : Nat) : State :=
  s.cores.foldl (fun s e =>
    if pkgOfCore e.1 ≠ p then s
    else (e.2.sent.filter fun x => (x.u == u || x.cmd.u == u) && (s.paOf x.xl x.va true).any fun pa => lineOf pa == line).foldl
      (fun s x => s.failSent e.1 x) s) s

/-- An engine's access fails: its command ends with fault 0x12 (R303). The answer to a read that was dropped at a pre-emption does nothing
(R312). -/
def State.failCmd (s : State) (p u line : Nat) : State :=
  let s := s.failSents p u line
  let onCore := s.cores.findSome? fun e =>
    if pkgOfCore e.1 ≠ p then none else ((e.2.copyq ++ e.2.matq).find? fun c => c.u == u).map fun c => (e.1, c)
  match onCore with
  | some (ck, c) =>
    let va := c.vaOfLine line
    match c.k with
    | .mepi w .. => if (Tab.look c.asks line).isSome then (s.cmdFault c 4 va).epiEnd ck c (epiIm w) false else s
    | .cpy .. => if (Tab.look c.asks line).isSome then s.copyFail ck c va else s
    | _ => s
  | none =>
    (List.range 4).foldl (fun s i =>
      let dk := dieKey p i
      let d := s.die dk
      let s := match d.ops.find? fun o => o.cmd.u == u with
        | some o => s.collFail dk o (o.cmd.vaOfLine line)
        | none => s
      let s := match d.binds.find? fun b => b.cmd.u == u with
        | some b => s.bindFail dk b (b.cmd.vaOfLine line)
        | none => s
      match d.collq.find? fun c => c.u == u with
      | some c =>
        let s := s.modDie dk fun d => { d with collq := d.collq.filter fun x => x.u != u }
        (s.cmdFault c 5 (c.vaOfLine line)).endCmd c 2 1 0
      | none => s) s

/-- A triggered chunk that cannot be written is refused (R366). -/
def State.failChunk (s : State) (p u : Nat) : State :=
  match s.arrived p u .chunk with
  | some m =>
    match s.sibling p m with
    | some m2 => ((s.dropMsg u).dropMsg m2.u).answerChunk (dieKey p m.ddie) m 3
    | none => s
  | none => s

/-- The access of a name fails with a code; 0x0A is what the context's features make of it (R341). -/
def State.failName (s : State) (p u code line : Nat) : State :=
  match s.accessOf p u with
  | some (tk, t) =>
    let code := if code = 0x0A then s.refusedCode p t.ctx else code
    match (t.pend ++ t.orph).find? fun q => q.u == u with
    | some q => s.failPart tk u code ((q.k.acc?.map fun a => a.partIn s line).getD 0)
    | none => s.failStore tk u code
  | none => (s.failCmd p u line).failChunk p u

/-! ### Registers whose value awaits a verdict (R327, R328) -/

/-- The verdict of a message for one thread's registers. -/
def Regs.verdict (r : Regs) (u : Nat) (good : Bool) : Regs :=
  let mine := r.prov.filter fun e => e.2 == u
  { r with prov := r.prov.filter fun e => e.2 != u
           psn := if good then r.psn else mine.foldl (fun m e => m ||| BitVec.twoPow 64 e.1) r.psn }

/-- The same for an access of which a part took the message's bytes. -/
def Acc.verdict (a : Acc) (u : Nat) (good : Bool) : Acc :=
  if a.prov = some u then { a with prov := none, psn := if good then a.psn else a.psn <|> (a.pieces.head?.map (·.va)) } else a

/-- The same for a shared register. -/
def ShReg.verdict (x : ShReg) (u : Nat) (good : Bool) : ShReg :=
  match x.prov with
  | some (m, a) => if m = u then { x with prov := none, psn := if good then x.psn else some a } else x
  | none => x

def State.verdict (s : State) (p u : Nat) (good : Bool) : State :=
  { s with
    cores := s.cores.map fun e =>
      if pkgOfCore e.1 = p then (e.1, { e.2 with shr := e.2.shr.map fun x => (x.1, x.2.verdict u good) }) else e
    threads := s.threads.map fun e =>
      if pkgOfThr e.1 = p then
        (e.1, { e.2 with r := e.2.r.verdict u good,
                         pend := e.2.pend.map fun q => { q with k := q.k.mapAcc fun a => a.verdict u good } })
      else e }

/-! ### Answers of an agent to its homes (R336, R337) -/

/-- What the agent has of a line: in its caches, or in its write-back buffer while a Put awaits its Ack. -/
def ALine.holds (a : ALine) : LineSt := match a.put with | some st => st | none => a.st

/-- The agent's line after a forward or a Collect has taken it to a state. -/
def ALine.become (a : ALine) (st : LineSt) : ALine :=
  match a.put with
  | some _ => { a with put := some st, putPart := if st = .I then none else a.putPart }
  | none => { a with st := st, psn := a.psn && st != .I, part := if st = .I then none else a.part }

/-- The line itself, to a home that is the requester. -/
def State.lineToHome (s : State) (p line : Nat) (psn : Bool) (part : Option Part) : State :=
  s.send { u := 0, ty := .data, src := p, dst := lineHome line, req := lineHome line, line := line, status := if psn then 8 else 0,
           carries := true, part := part, bytes := if part.isNone then s.lineBytes line else [] }

/-- The agent gives the line up: it leaves every L1 as well. -/
def State.giveUp (s : State) (p line : Nat) (a : ALine) : State := (s.setALine p line (a.become .I)).dropL1 p line

/-- A message of a home that has arrived at an agent; one whose tag fails is asked for again, and one for a line of which a store still
has to write a part waits for it (R265). -/
def onHome (ty : MsgTy) (p j : Nat) (s : State) (f : State → Msg → ALine → State) : Out :=
  .next <|
    match s.arrived p j ty with
    | none => s
    | some m =>
      if m.bad then s.askAgain p m
      else if s.pinned p m.line then s
      else let s := s.dropMsg j; f s m (s.aline p m.line)

/-- INV. -/
def execInv (pkg j : Nat) (s : State) : Out :=
  onHome .inv pkg j s fun s m a =>
    match a.st with
    | .S | .E => (s.giveUp pkg m.line a).sendAck pkg m.src m.line ackAnswer 0
    | _ => s.sendAck pkg m.src m.line ackAnswer 1

/-- FWDGETS. -/
def execFwdgets (pkg j : Nat) (s : State) : Out :=
  onHome .fwdGetS pkg j s fun s m a =>
    let home := m.kind == 1
    match a.holds with
    | .E | .M | .O =>
      if home then (s.setALine pkg m.line (a.become .S)).lineToHome pkg m.line a.psn none
      else
        let dirty := a.holds != .E
        ((s.setALine pkg m.line (a.become (if dirty then .O else .S))).sendData pkg m.req m.line 4 a.psn 0).sendAck pkg m.src
          m.line ackAnswer (if dirty then 3 else 2)
    | _ => s.sendAck pkg m.src m.line ackAnswer 1

/-- FWDGETM. -/
def execFwdgetm (pkg j : Nat) (s : State) : Out :=
  onHome .fwdGetM pkg j s fun s m a =>
    match a.holds with
    | .E | .M | .O =>
      let t := s.giveUp pkg m.line a
      if m.kind = 1 then t.lineToHome pkg m.line a.psn none else t.sendData pkg m.req m.line 6 a.psn 0
    | _ => s.sendAck pkg m.src m.line ackAnswer 1

/-- COLLECT. -/
def execCollect (pkg j : Nat) (s : State) : Out :=
  onHome .collect pkg j s fun s m a =>
    match a.holds, (if a.put.isSome then a.putPart else a.part) with
    | .U, some q => (s.giveUp pkg m.line a).lineToHome pkg m.line false (some q)
    | _, _ => s.sendAck pkg m.src m.line ackAnswer 1

/-! ### Acks -/

/-- An answer has come to the home from a package. -/
def State.answered (s : State) (line q : Nat) (f : Tx → Tx) : State :=
  ((s.modTx line fun t => if t.wait.contains q then f { t with wait := t.wait.erase q } else t).advance line).homeNext
    (lineHome line) q

/-- The transaction that a requester's own answer ends. -/
def State.endFor (s : State) (line q : Nat) : State :=
  match (s.dir line).tx with
  | some t =>
    match t.k with
    | .req m => if m.src = q ∧ t.phase = 2 then s.closeTx line else s
    | _ => s
  | none => s

/-- The request of a line has its answer; one whose access timed out is counted (R343). -/
def State.requestEnds (s : State) (p line : Nat) : State :=
  let a := s.aline p line
  match a.req with
  | none => s
  | some u =>
    let s := s.setALine p line { a with req := none }
    if (s.pkg p).timedOut.contains u then
      s.modPkg p fun k => { k with timedOut := k.timedOut.filter (· != u), lateAns := k.lateAns + 1 }
    else s

/-- The prefetches that await a line have it. -/
def State.prefDone (s : State) (p line : Nat) : State :=
  let want := (s.aline p line).pref
  want.foldl (fun s w => s.l1Fill w.1 { line := line, keep := w.2 }) (s.modALine p line fun a => { a with pref := [] })

/-- Prefetches that had to wait for a Put or a Flush ask for the line, or have it (R267). -/
def State.askPref (s : State) (p line : Nat) : State :=
  let a := s.aline p line
  if a.pref.isEmpty then s else if a.has .rd then s.prefDone p line else s.askLine p 0 line .rd

/-- A name whose access timed out has its answer, which is counted (R343). -/
def State.lateAnswer (s : State) (p u : Nat) : State :=
  if (s.pkg p).timedOut.contains u then
    s.modPkg p fun k => { k with timedOut := k.timedOut.filter (· != u), lateAns := k.lateAns + 1 }
  else s

/-- A Put has been Acked. -/
def State.putEnds (s : State) (p line : Nat) : State :=
  let by_ := (s.aline p line).putBy
  let s := s.modALine p line fun a => { a with put := none, putPart := none, putBy := none, psn := a.psn && a.st != .I }
  (match by_ with | some u => s.lateAnswer p u | none => s).askPref p line

/-- A Flush has been Acked: M, O and E become S, and the entry of CFLUSH ends (R336, R268). -/
def State.flushEnds (s : State) (p line : Nat) : State :=
  let a := s.aline p line
  match a.flushing with
  | none => s
  | some u =>
    let st := match a.st with | .M | .O | .E => LineSt.S | x => x
    let s := (s.setALine p line { a with st := st, flushing := none }).askPref p line
    match s.accessOf p u with
    | some (tk, t) => match t.entry u with | some e => s.endEntry tk e | none => s
    | none => s.lateAnswer p u

/-- What an Ack does, by its role. -/
def State.takeAck (s : State) (p : Nat) (m : Msg) : State :=
  if m.status = 9 ∨ m.status = 10 then s.resend m.txid
  else if m.kind = ackAnswer then
    s.answered m.line m.src fun t => { t with held := t.held || m.status == 2 || m.status == 3, dirty := t.dirty || m.status == 3 }
  else if m.kind = ackData then
    match (s.dir m.line).tx with
    | some t =>
      match t.k with
      | .req r => if r.src = m.src then (s.modTx m.line fun t => { t with got := true }).advance m.line else s
      | _ => s
    | none => s
  else if m.kind = ackPut then
    (s.putEnds p m.line).endFor m.line p
  else if m.kind = ackFlush then (s.flushEnds p m.line).endFor m.line p
  else
    let st : LineSt := if m.status = 6 then .M else .U
    let s := s.modALine p m.line fun a =>
      { a with st := st, part := if m.status = 6 then none else some (Part.new (bindOf m.bind)) }
    (s.requestEnds p m.line).endFor m.line p

/-- ACK. -/
def execAck (pkg j : Nat) (s : State) : Out :=
  .next <|
    match s.arrived pkg j .ack with
    | none => s
    | some m => if m.bad then s.askAgain pkg m else (s.dropMsg j).takeAck pkg m

/-! ### Data -/

/-- Data for the home: a line that its owner gave back, or a partial that is combined (R340). -/
def State.dataHome (s : State) (m : Msg) : State :=
  if m.bad then s.homeTag m
  else
    let s := (s.dropMsg m.u).homeClean m
    let repair := match (s.dir m.line).tx with | some t => (match t.k with | .repair _ => true | _ => false) | none => false
    match m.part with
    | some q =>
      let s := if repair then s else ((s.combineLine m.line q).chkHold m.line).homeHold m.line true
      s.answered m.line m.src fun t => { t with held := true, part := true }
    | none => (s.takePoison m).answered m.line m.src fun t => { t with held := true }

/-- The line is in the caches from now on, its tag not yet judged (R327). -/
def State.install (s : State) (p : Nat) (m : Msg) (unver : Option Nat) : State :=
  let st : LineSt := if m.seq = 4 then .S else if m.seq = 5 then .E else .M
  (s.modALine p m.line fun a =>
    { a with st := st, psn := m.status == 8, unver := unver, part := none, upto := 128, rel := [] }).prefDone p m.line

/-- What a message has released and no copy of it will confirm is as after a failed tag (R329; log 56). -/
def State.abandon (s : State) (p : Nat) (m : Msg) : State :=
  match (s.aline p m.line).unver with
  | some k =>
    if k = m.org then s
    else ((s.modALine p m.line fun a => { a with unver := none, psn := true, upto := 128, rel := [] })).verdict p k false
  | none => s

/-- Data with a grant (R327 to R329): its bytes are usable as they come; the verdict of its tag comes once it is whole, but for a
message within the package. A tag that fails poisons the line and the registers loaded from it until a clean copy comes. -/
def State.dataGrant (s : State) (p : Nat) (m : Msg) : State :=
  let s := s.abandon p m
  let a := s.aline p m.line
  let done (s : State) : State := ((s.dropMsg m.u).requestEnds p m.line).sendAck p (lineHome m.line) m.line ackData 0
  if a.req.isNone ∧ !m.released ∧ a.unver ≠ some m.org then
    done (if m.status = 8 && a.st != .I then s.setALine p m.line { a with psn := true } else s)
  else if m.src = p then done (s.install p m none)
  else if a.unver = some m.org then
    let s := ((s.setALine p m.line { a with unver := none, upto := 128, rel := [] }).prefDone p m.line).verdict p m.org (!m.bad)
    if m.bad then (s.modALine p m.line fun a => { a with psn := true }).askAgain p { m with released := true } else done s
  else if m.released then
    -- the copy sent again: it writes the line that has been poisoned
    if m.bad then s.askAgain p m
    else done (s.modALine p m.line fun a => { a with psn := m.status == 8 })
  else s.install p m (some m.org)

/-- DATA. -/
def execData (pkg j : Nat) (s : State) : Out :=
  .next <|
    match s.arrived pkg j .data with
    | none => s
    | some m => if m.seq = 0 then s.dataHome m else s.dataGrant pkg m

/-! ### Refusals -/

/-- NAKFIREWALL: the access whose request was refused fails (R341). -/
def execNakfirewall (pkg j : Nat) (s : State) : Out :=
  onHome .nak pkg j s fun s m a =>
    match a.req with
    | some u => ((s.requestEnds pkg m.line).modALine pkg m.line fun a => { a with pref := [] }).failName pkg u 0x0A m.line
    | none => s

/-- ERRSYNTH: the home is lost, and so is what the agent had asked of it: an access, a Flush or a Put (R345). -/
def execErrsynth (pkg j : Nat) (s : State) : Out :=
  onHome .err pkg j s fun s m a =>
    let s := s.modALine pkg m.line fun a => { a with put := none, putPart := none, flushing := none, psn := a.psn && a.st != .I }
    let s := match a.flushing with | some u => s.failName pkg u 0x0C m.line | none => s
    match a.req with
    | some u => (s.requestEnds pkg m.line).failName pkg u 0x0C m.line
    | none => s

end Sys2Proof.Machine
end

