-- ==== Sys2Proof/Machine/Convert.lean ====
section
/-! DEFINITION. The instructions of group 0x3: conversions, block scales, CVMODE and the NaN count (R175 to R188). -/

namespace Sys2Proof.Machine

/-- The value that the destination register has before the word; a discarding destination has none (R177). It is read after the
sources, whose last-use flags have acted (log 9). -/
def State.oldD (s : State) (l : Lane) : Word :=
  match l.r.d with
  | .none => 0
  | .reg n | .pair n | .run n _ => s.readReg l.tk n

def State.oldHi (s : State) (l : Lane) : Word :=
  match l.r.d with
  | .pair n => s.readReg l.tk (n + 1)
  | _ => 0

/-- A word that reads its destination before it writes it. -/
def useD (u : Use) : Use := { u with rdD := true }

/-- CVT, CVTS, CVTI and CVTF: the elements of part P converted one by one (R177). -/
def convert (f : Frame) (o : O2) (src dst part : Nat) (op : BitVec 32 → RV → Nat → Nat) (s : State) : Out :=
  word f (useD (use2 o))
    (fun s l =>
      let cv := (s.thr l.tk).cvmode
      .ok (s.put l (convertPart (codeWidth src) (codeWidth dst) part (op cv l.b) (l.a.elems src) (s.oldD l)))) s

def execCvt (f : Frame) (fmt : BitVec 4) (o : O2) (cc src : BitVec 4) (part : BitVec 3) (s : State) : Out :=
  convert f o src.toNat fmt.toNat part.toNat
    (fun cv b => cvtElem src.toNat fmt.toNat (narrowMode cv cc.toNat fmt.toNat) b.w64.toInt) s

def execCvts (f : Frame) (fmt : BitVec 4) (o : O2) (cc src : BitVec 4) (part : BitVec 3) (s : State) : Out :=
  convert f o src.toNat fmt.toNat part.toNat
    (fun cv b => cvtsElem src.toNat fmt.toNat (narrowMode cv cc.toNat fmt.toNat)
      (if src = 0 then b.f64 else b.f32)) s

def execCvti (f : Frame) (fmt : BitVec 4) (o : O2) (cc src : BitVec 4) (part : BitVec 3) (s : State) : Out :=
  convert f o src.toNat fmt.toNat part.toNat
    (fun _ b => cvtiElem src.toNat (codeWidth fmt.toNat) (!cc.getLsbD 3) (rndOf cc.toNat) b.w64.toInt) s

def execCvtf (f : Frame) (fmt : BitVec 4) (o : O2) (cc src : BitVec 4) (part : BitVec 3) (s : State) : Out :=
  convert f o src.toNat fmt.toNat part.toNat
    (fun cv b => cvtfElem fmt.toNat (narrowMode cv cc.toNat fmt.toNat) (codeWidth src.toNat) (!cc.getLsbD 3)
      b.w64.toInt) s

def execPackn (f : Frame) (fmt : BitVec 4) (o : O2) (cc src : BitVec 4) (part : BitVec 3) (s : State) : Out :=
  word f (useD (use2 o))
    (fun s l =>
      let ws := codeWidth src.toNat
      let wd := codeWidth fmt.toNat
      let op : Nat → Nat :=
        if codeIsInt fmt.toNat then packInt ws wd (!cc.getLsbD 3) (cc.getLsbD 2)
        else cvtElem src.toNat fmt.toNat (narrowMode (s.thr l.tk).cvmode cc.toNat fmt.toNat) 0
      .ok (s.put l (packPart ws wd part.toNat op (l.a.elems src.toNat) (l.b.elems src.toNat) (s.oldD l)))) s

def execUnpack (f : Frame) (fmt : BitVec 4) (o : O1) (cc src : BitVec 4) (part : BitVec 3) (s : State) : Out :=
  compute f (use1 o)
    (fun l =>
      let ws := codeWidth src.toNat
      let wd := codeWidth fmt.toNat
      let op : Nat → Nat :=
        if codeIsInt fmt.toNat then packInt ws wd (!cc.getLsbD 3) false
        else cvtElem src.toNat fmt.toNat (.rne, false) 0
      convertPart ws wd part.toNat op (l.a.elems src.toNat) 0) s

/-! ### Blocks -/

/-- The scale register of a block instruction. -/
def Lane.scaleReg (l : Lane) : Option (BitVec 6 × Bool) :=
  (l.src 1).bind fun x => x.reg.map fun n => (n, match x.opd with | .ind .. => true | _ => false)

/-- BXPACK and MXPACK (R184). B is written where a bit of its μ-byte is (BX), or where its scale byte becomes 0xFF. -/
def packBlock (f : Frame) (code : Nat) (feat : Nat) (o : O2) (part : BitVec 3) (wide : BitVec 2) (sel : BitVec 3)
    (s : State) : Out :=
  let two := code == 8 || code == 9
  word f { useD (use2 o) with pair := two, feat := some feat }
    (fun s l =>
      match l.scaleReg with
      | none => .fault { code := 0x02 }
      | some (n, ind) =>
        if n ∈ l.r.d.regs then .fault { code := 0x02 }
        else
          let b0 := l.b.w64
          let r := blockPack code wide.toNat part.toNat sel.toNat (s.thr l.tk).cvmode (l.a.floats (wideFd wide.toNat))
            (s.oldD l) (s.oldHi l) b0
          let s := if two then s.putPair l r.1 r.2.1 else s.put l r.1
          .ok (if code = 6 ∧ getByte r.2.2 sel.toNat ≠ 0xFF then s
            else if ind then s.sendValue l (.reg n) r.2.2 else s.put1 l n r.2.2)) s

def execBxpack (f : Frame) (fmt : BitVec 4) (o : O2) (part : BitVec 3) (wide : BitVec 2) (sel : BitVec 3)
    (s : State) : Out := packBlock f fmt.toNat 3 o part wide sel s

def execMxpack (f : Frame) (fmt : BitVec 4) (o : O2) (part : BitVec 3) (wide : BitVec 2) (sel : BitVec 3)
    (s : State) : Out := packBlock f fmt.toNat 4 o part wide sel s

/-- BXUNP and MXUNP (R185). An immediate A of MXUNP stands, as E2M1, in every element (R60); of BXUNP, whose elements have no value
without their scale, it is the 64-bit image (log 49). -/
def unpackBlock (f : Frame) (code : Nat) (feat : Nat) (o : O2) (part : BitVec 3) (wide : BitVec 2) (sel : BitVec 3)
    (s : State) : Out :=
  let two := code == 8 || code == 9
  word f { use2 o with srcPair := if two then [0] else [], feat := some feat }
    (fun s l =>
      let a := if code = 6 then l.a.elems 6 else l.a.w64
      .ok (s.put l (blockUnpack code wide.toNat part.toNat sel.toNat (s.thr l.tk).cvmode a (l.hi 0) l.b.w64))) s

def execBxunp (f : Frame) (fmt : BitVec 4) (o : O2) (part : BitVec 3) (wide : BitVec 2) (sel : BitVec 3)
    (s : State) : Out := unpackBlock f fmt.toNat 3 o part wide sel s

def execMxunp (f : Frame) (fmt : BitVec 4) (o : O2) (part : BitVec 3) (wide : BitVec 2) (sel : BitVec 3)
    (s : State) : Out := unpackBlock f fmt.toNat 4 o part wide sel s

def execSclx (f : Frame) (o : O1) (sfmt : BitVec 4) (sel : BitVec 3) (s : State) : Out :=
  word f { useD (use1 o) with feat := some (if sfmt = 6 then 4 else 3) }
    (fun s l =>
      let d := setByte (s.oldD l) sel.toNat (scaleByte sfmt.toNat l.a.f32)
      .ok (s.put l (if sfmt = 6 then d else setByte d (sel.toNat + 1) 0))) s

/-! ### CVMODE and the NaN count -/

def execCmode (f : Frame) (o : O2) (s : State) : Out :=
  word f (use2 o)
    (fun s l =>
      let a := l.a.w64.setWidth 32
      let b := l.b.w64
      if b >>> 24 ≠ 0 then .fault { code := 0x02 }
      else
        let cv := (s.thr l.tk).cvmode
        let s := s.put l (cv.setWidth 64)
        .ok (s.modThr l.tk fun t => { t with cvmode := (cv &&& ~~~b.setWidth 32) ||| (a &&& b.setWidth 32) })) s

def execNanct (f : Frame) (d : Dst) (s : State) : Out :=
  word f { dst := some d, feat := some 15 } (fun s l => .ok (s.put l ((s.thr l.tk).nancnt.setWidth 64))) s

end Sys2Proof.Machine
end

