-- ==== Sys2Proof/Machine/Control.lean ====
section
/-! DEFINITION. The control instructions of group 0x5 (R113, R114, R117 to R122). -/

namespace Sys2Proof.Machine

/-- A thread's next header is `t`, from the end of its clause. -/
def State.jumpTo (s : State) (tk : Nat) (t : Word) : State := s.modThr tk fun x => { x with jump := some t }

/-- h + 8 × o (R118). -/
def Lane.target (l : Lane) (o : Word) : Word := l.i.g.hpc + 8 * o

/-- A target that is not a multiple of 8 is fault 0x07 (R118). -/
def badTarget (t : Word) : Bool := t.toNat % 8 != 0

def execBra (f : Frame) (off : BitVec 35) (s : State) : Out :=
  word f {} (fun s l => .ok (s.jumpTo l.tk (l.target (off.signExtend 64)))) s

def execBrx (f : Frame) (a : Src) (s : State) : Out :=
  word f { src := [(0, a)] }
    (fun s l =>
      let t := l.a.w64
      if badTarget t then .fault { code := 0x07, addr := t } else .ok (s.jumpTo l.tk t)) s

def execLoop (f : Frame) (d : Dst) (off : BitVec 28) (s : State) : Out :=
  word f { dst := some d, rdD := true }
    (fun s l =>
      let v := s.oldD l - 1
      let s := s.put l v
      .ok (if v ≠ 0 then s.jumpTo l.tk (l.target (off.signExtend 64)) else s)) s

/-! ### Calls (R118) -/

/-- The spill area of a thread: its first address and how many bytes it has; a thread of no launch has none. -/
def State.spillArea (s : State) (tk : Nat) : Nat × Nat :=
  let t := s.thr tk
  match s.launch? t.launch with
  | none => (0, 0)
  | some l => ((l.stackbase.toNat + t.tid.toNat * l.stackb) % 2 ^ 64, l.stackb)

/-- Stores the bottom entry of a full return stack to the spill area. -/
def State.spillBottom (s : State) (l : Lane) : Res :=
  let t := s.thr l.tk
  let (base, size) := s.spillArea l.tk
  let a := (base + 8 * t.spill) % 2 ^ 64
  let aw : Word := BitVec.ofNat 64 a
  if size < 8 * (t.spill + 1) then .fault { code := 0x09, addr := aw }
  else
    match s.globParts l.tk .wr false true (splitVa a 8) with
    | .error c => .fault { code := c, addr := aw }
    | .ok (ps, s) =>
      let v := t.stack.headD 0
      match s.addStore l.tk
          { u := 0, gid := l.i.g.gid, k := .store, pieces := storeParts a v.toNat ps, remote := s.anyRemote l.tk ps }
          ⟨aw, v, 0, 8, 0, t.region, 0, none, t.nw, 0⟩ with
      | .ok s => .ok (s.modThr l.tk fun t => { t with stack := t.stack.drop 1, spill := t.spill + 1 })
      | r => r

/-- CALL and CALLX: the return address is pushed. -/
def callBody (t : Word) (s : State) (l : Lane) : Res :=
  let push (s : State) : State :=
    s.modThr l.tk fun x => { x with stack := x.stack ++ [nextHeader l.i.g.hpc l.i.g.hdr], jump := some t }
  if badTarget t then .fault { code := 0x07, addr := t }
  else if (s.thr l.tk).stack.length < 16 then .ok (push s)
  else
    match s.spillBottom l with
    | .ok s => .ok (push s)
    | r => r

def execCall (f : Frame) (off : BitVec 35) (s : State) : Out :=
  word f {} (fun s l => callBody (l.target (off.signExtend 64)) s l) s

def execCallx (f : Frame) (a : Src) (s : State) : Out :=
  word f { src := [(0, a)] } (fun s l => callBody l.a.w64 s l) s

/-- RET goes to the top entry, which opens a region (R380). -/
def retTo (t : Word) (spill : Nat) (stack : List Word) (s : State) (l : Lane) : Res :=
  if badTarget t then .fault { code := 0x07, addr := t }
  else .ok (s.modThr l.tk fun x => { x with stack := stack, spill := spill, jump := some t, head := true })

/-- The load of a spilled entry begins: an access of the thread's own at the word it stands at, or in a trailing copy the wait for what
the leading copy's brings. -/
def State.retLoad (s : State) (l : Lane) (ps : List Piece) : State :=
  let rem := s.anyRemote l.tk ps
  let acc : Acc := { space := .glob, k := .load, size := 8, pieces := ps, remote := rem }
  let trail := (s.thr l.tk).trails
  let (u, s) := s.pendAs l (if trail then .copied else .acc acc) .none 7
  s.modThr l.tk fun t =>
    { t with reload := some (u, none), hold := true,
             c := if trail then t.c else t.c.bump 1 0 (if rem then 1 else 0) }

/-- RET: an empty return stack reloads its top entry with a load of the thread's own, for which the gang waits before the word (R118).
The trailing copy of a pair takes the entry that the leading copy read (R404). -/
def retBody (s : State) (l : Lane) : Res :=
  let t := s.thr l.tk
  match t.stack.getLast? with
  | some v => retTo v t.spill t.stack.dropLast s l
  | none =>
    if t.spill = 0 then .fault { code := 0x09 }
    else
      let a := ((s.spillArea l.tk).1 + 8 * (t.spill - 1)) % 2 ^ 64
      let aw : Word := BitVec.ofNat 64 a
      match t.reload with
      | some (_, none) => .park .hold
      | some (_, some (v, psn)) =>
        -- a target that is none leaves the spilled entry to be loaded again
        if psn.isSome then .fault { code := 0x0D, addr := aw }
        else retTo v (t.spill - 1) [] (s.modThr l.tk fun t => { t with reload := none }) l
      | none =>
        match s.globParts l.tk .rd false true (splitVa a 8) with
        | .error c => .fault { code := c, addr := aw }
        | .ok (ps, s) =>
          if ctrMax ≤ t.c.ldc then .park (.room 6)
          else if s.anyRemote l.tk ps && decide (ctrMax ≤ t.c.frc) then .park (.room 9)
          else .start (s.retLoad l ps) .hold

def execRet (f : Frame) (s : State) : Out := word f { vl := true } retBody s

/-! ### EXIT, YIELD, NOP, SLEEP, TRAP and BRK (R113, R114, R120, R121) -/

/-- A region of a pair that begins at EXIT: commands that waited for the region before it write in this one, which is compared before
the thread ends (R237, R314). -/
def Thread.lastRegion (t : Thread) (pc hpc hdr : Word) : Thread :=
  let t : Thread :=
    { t with region := t.region + 1, cmds := [], skip := [], mism := 0,
             pair := t.pair.map fun p => { p with closed := false, opened := true } }
  { t with sketch := { t.toSketch 0xFFFFFFFF with pc := pc, mid := some (hpc, hdr) } }

/-- EXIT ends the thread at once where its stores have performed; else the thread leaves its gang and ends as soon as they have
(R120). -/
def exitBody (s : State) (l : Lane) : Res :=
  let t := s.thr l.tk
  let g := l.i.g
  if t.pair.any (fun p => p.more == some (t.region + 1)) then .start (s.modThr l.tk fun t => t.lastRegion g.wordAddr g.hpc g.hdr) .region
  else if t.c.suc = 0 then .gone (s.endThread l.tk false)
  else .gone ((s.dropMember l.tk).modThr l.tk fun t => { t.endRun with pc := g.wordAddr, mid := true, leaving := true })

def execExit (f : Frame) (s : State) : Out := word f { drain := true, last := true } exitBody s

def execYield (f : Frame) (s : State) : Out := word f {} (fun s l => .ok (s.atEnd l.tk .yield)) s

def execNop (f : Frame) (s : State) : Out := word f {} (fun s _ => .ok s) s

def execSleep (f : Frame) (a : Src) (s : State) : Out :=
  word f { src := [(0, a)] } (fun s l => .ok (s.atEnd l.tk (.sleep (min l.a.w64.toNat (2 ^ 32 - 1))))) s

def execTrap (f : Frame) (n : BitVec 14) (s : State) : Out :=
  word f {} (fun _ _ => .fault { code := 0x15, addr := n.setWidth 64 }) s

def execBrk (f : Frame) (n : BitVec 14) (s : State) : Out :=
  word f {} (fun _ _ => .fault { code := 0x16, addr := n.setWidth 64 }) s

/-! ### WAITA (R122) -/

/-- WAITA begins to watch its word. -/
def waitaBody (s : State) (l : Lane) : Res :=
  let a := l.a.w64
  let t := s.thr l.tk
  if a.toNat % 8 ≠ 0 then .fault { code := 0x07, addr := a }
  else
    match s.globParts l.tk .rd false t.pair.isSome [(a.toNat, 8)] with
    | .error c => .fault { code := c, addr := a }
    | .ok (ps, s) =>
      if t.trails then s.follow l
      else
        let acc : Acc := { space := .glob, k := .load, size := 8, acq := true, pieces := ps, remote := s.anyRemote l.tk ps }
        let c := l.c.w64.toNat
        if ctrMax ≤ t.c.ldc then .park (.room 6)
        else if acc.remote && decide (ctrMax ≤ t.c.frc) then .park (.room 9)
        else
          let (_, s) := s.pendNew l (.waita acc l.b.w64 (if c = 0 then none else some (c, s.time (pkgOfThr l.tk) + c))) 7
          .ok (s.modThr l.tk fun t => { t with c := t.c.bump 1 0 (if acc.remote then 1 else 0) })

def execWaita (f : Frame) (o : O3) (s : State) : Out := word f { use3 o with vl := true } waitaBody s

end Sys2Proof.Machine
end

