-- ==== Sys2Proof/Machine/Group.lean ====
section
/-! DEFINITION. Groups, masks and exchanges: group 0x4 (R189 to R206, R213). -/

namespace Sys2Proof.Machine

/-- What a rule on groups comes to for a thread in no group: fault 0x17 (R202, R213). -/
def inGroup (s : State) (l : Lane) (k : Nat → Nat → Grp → Res) : Res :=
  match (s.thr l.tk).grp with
  | none => .fault { code := 0x17 }
  | some (e, _, r) =>
    match s.grpAt l.ck e with
    | none => .fault { code := 0x17 }
    | some g => k e r g

/-! ### Joining and leaving (R198, R199) -/

def grpHandle (e serial : Nat) : Nat := e + serial * 2 ^ 8

/-- What GJOIN answers. -/
def joinWord (h r st : Nat) : Word := BitVec.ofNat 64 (h + r * 2 ^ 32 + st * 2 ^ 40)

def lowestVacant (g : Grp) : Nat := ((List.range 32).find? fun r => (Tab.look g.ranks r).isNone).getD 0

/-- The thread enters a group's lowest vacant rank. -/
def State.enterGroup (s : State) (tk e : Nat) (g : Grp) : State :=
  let r := lowestVacant g
  (s.setGrp (ckOf tk) e { g with ranks := Tab.put g.ranks r (slotOf tk) }).modThr tk fun t =>
    { t with grp := some (e, g.serial, r) }

/-- GJOIN (R198). -/
def joinBody (s : State) (l : Lane) : Res :=
  let key : BitVec 32 := l.a.w64.setWidth 32
  let cap := l.b.w64.toNat
  let t := s.thr l.tk
  let c := s.core l.ck
  if cap < 1 ∨ 32 < cap then .fault { code := 0x17 }
  else
    match t.grp with
    | some (e, sn, r) =>
      match s.grpAt l.ck e with
      | some g => if g.key = key then .ok (s.put l (joinWord (grpHandle e sn) r 0)) else .fault { code := 0x17 }
      | none => .fault { code := 0x17 }
    | none =>
      match c.grps.find? fun x => x.2.ctx == t.ctx && x.2.key == key with
      | some (e, g) =>
        if g.cap ≤ g.ranks.length then .ok (s.put l (joinWord 0 0 2))
        else .ok ((s.enterGroup l.tk e g).put l (joinWord (grpHandle e g.serial) (lowestVacant g) 0))
      | none =>
        match (List.range 256).find? fun e => (Tab.look c.grps e).isNone with
        | none => .ok (s.put l (joinWord 0 0 3))
        | some e =>
          let sn := (Tab.getOr c.serials e 0 + 1) % 2 ^ 24
          let s := s.modCore l.ck fun c => { c with serials := Tab.put c.serials e sn }
          let g : Grp := { ctx := t.ctx, key := key, cap := cap, serial := sn, ranks := [] }
          .ok ((s.enterGroup l.tk e g).put l (joinWord (grpHandle e sn) 0 1))

def execGjoin (f : Frame) (o : O2) (s : State) : Out := word f (use2 o) joinBody s

def execGleave (f : Frame) (s : State) : Out := word f {} (fun s l => .ok (s.leaveGroup l.tk)) s

/-! ### Waits and masks (R200 to R202) -/

/-- GWAIT: the thread's rank arrives on a mask; the wait takes place at the end of its clause. -/
def gwaitBody (k : Nat) (s : State) (l : Lane) : Res :=
  inGroup s l fun e r g =>
    if !((g.stamp k).read s.clock).getLsbD r || (g.arr k).getLsbD r then .fault { code := 0x17 }
    else
      let s := s.setGrp l.ck e (g.setArr k (g.arr k ||| BitVec.twoPow 32 r))
      .ok ((s.atEnd l.tk (.group k)).gwaitCheck l.ck e k)

def execGwait (f : Frame) (mk : BitVec 4) (s : State) : Out := word f { rel := true } (gwaitBody mk.toNat) s

/-- A member writes a mask register (R192). -/
def State.setMask (s : State) (l : Lane) (e k : Nat) (g : Grp) (v : Word) : State :=
  s.setGrp l.ck e (g.setStamp k ((g.stamp k).write s.clock l.i.g.gid (v &&& 0xFFFFFFFF)))

/-- GVOTE writes the bit of the thread's own rank, and no other. -/
def gvoteBody (k : Nat) (pe : PredN) (s : State) (l : Lane) : Res :=
  inGroup s l fun e r g =>
    let b : Word := BitVec.twoPow 64 r
    let v := (g.stamp k).cur
    .ok (s.setMask l e k g (if guardHolds (s.thr l.tk).r.p pe then v ||| b else v &&& ~~~b))

def execGvote (f : Frame) (mk : BitVec 4) (pe : PredN) (s : State) : Out :=
  word f { pr := predBit pe.p } (gvoteBody mk.toNat pe) s

def mskEval (op : MskOp) (a b : Word) : Word :=
  match op with
  | .and => a &&& b
  | .or => a ||| b
  | .xor => a ^^^ b
  | .andn => a &&& ~~~b
  | .not => ~~~a
  | .copy => a
  | .clr => 0
  | .set => 0xFFFFFFFF

/-- MSKOP: the members perform in turn, each on what the one before it left (R192, R201). -/
def execMskop (f : Frame) (op : MskOp) (md ma mb : BitVec 4) (s : State) : Out :=
  word f {}
    (fun s l =>
      inGroup s l fun e _ g =>
        let v (k : BitVec 4) : Word := (g.stamp k.toNat).readIn s.clock l.i.g.gid
        .ok (s.setMask l e md.toNat g (mskEval op (v ma) (v mb)))) s

/-- MSKMOV: `dir` set writes the mask register (R201). -/
def execMskmov (f : Frame) (o : O1) (mk : BitVec 4) (dir : Bool) (s : State) : Out :=
  if dir then
    word f { src := [(0, o.a)] } (fun s l => inGroup s l fun e _ g => .ok (s.setMask l e mk.toNat g l.a.w64)) s
  else
    word f { dst := some o.d } (fun s l => inGroup s l fun _ _ g => .ok (s.put l ((g.stamp mk.toNat).read s.clock))) s

/-- The word GINFO returns; 0 in no group. -/
def State.ginfo (s : State) (tk : Nat) : Word :=
  match (s.thr tk).grp, s.grpOf tk with
  | some (e, _, r), some g => BitVec.ofNat 64 (g.occ.toNat + g.ranks.length * 2 ^ 32 + r * 2 ^ 40 + e * 2 ^ 48)
  | _, _ => 0

def execGinfo (f : Frame) (d : Dst) (s : State) : Out :=
  word f { dst := some d } (fun s l => .ok (s.put l (s.ginfo l.tk))) s

/-! ### Exchanges (R193 to R195) -/

/-- A member arrives at an exchange: present with its operands, or absent. The destination is pending until the exchange
performs; the gang waits while some member's exchange has not performed. -/
def arrive (i : Instr) (mk : Nat) (present : Bool) (s : State) (l : Lane) : Res :=
  inGroup s l fun e r g =>
    if !(g.part mk s.clock).getLsbD r then .fault { code := 0x17 }
    else
      let (u, s) := if present then s.pendNew l .exch 7 else (0, s)
      let sub : Option Nat := (l.src 0).bind fun x =>
        match x.opd with
        | .ind n _ => some (ixFields (ixGet (s.thr l.tk).r.ix n)).sub
        | _ => none
      let a : Arr := { mreg := mk, present := present, addr := l.i.g.wordAddr, ins := i, a := l.a, b := l.b, sub := sub,
                       d := l.r.d, u := u, word := l.i.g.word }
      .ok ((s.modThr l.tk fun t => { t with arr := some a, hold := true }).exchangeCheck l.ck e mk)

/-- A group-synchronous word: a member whose guards do not hold arrives as well, absent (R193). -/
def exchange (i : Instr) (f : Frame) (u : Use) (mk : BitVec 4) (s : State) : Out :=
  issueWord f { u with vl := true } (arrive i mk.toNat false) (arrive i mk.toNat true) s

def execShfl (f : Frame) (m : IMod) (o : O2) (mk : BitVec 4) (s : State) : Out :=
  exchange (.shfl f m o mk) f (use2 o) mk s
def execShflx (f : Frame) (m : IMod) (o : O2) (mk : BitVec 4) (s : State) : Out :=
  exchange (.shflx f m o mk) f (use2 o) mk s
def execShfldn (f : Frame) (m : IMod) (o : O2) (mk : BitVec 4) (s : State) : Out :=
  exchange (.shfldn f m o mk) f (use2 o) mk s
def execShflup (f : Frame) (m : IMod) (o : O2) (mk : BitVec 4) (s : State) : Out :=
  exchange (.shflup f m o mk) f (use2 o) mk s
def execBcast (f : Frame) (m : IMod) (o : O2) (mk : BitVec 4) (s : State) : Out :=
  exchange (.bcast f m o mk) f (use2 o) mk s
def execGred (f : Frame) (op : RedOp) (o : O1) (mk : BitVec 4) (s : State) : Out :=
  exchange (.gred f op o mk) f (use1 o) mk s
def execGscan (f : Frame) (op : RedOp) (o : O1) (mk : BitVec 4) (s : State) : Out :=
  exchange (.gscan f op o mk) f (use1 o) mk s
def execCompress (f : Frame) (m : IMod) (o : O2) (mk : BitVec 4) (s : State) : Out :=
  exchange (.compress f m o mk) f (use2 o) mk s
def execExpand (f : Frame) (m : IMod) (o : O2) (mk : BitVec 4) (s : State) : Out :=
  exchange (.expand f m o mk) f (use2 o) mk s
def execMatchRank (f : Frame) (m : IMod) (o : O1) (mk : BitVec 4) (s : State) : Out :=
  exchange (.matchRank f m o mk) f (use1 o) mk s

end Sys2Proof.Machine
end

