-- ==== Sys2Proof/Machine/Draw.lean ====
section
/-! DEFINITION. The draw instructions: group 0xB (R214 to R224). -/

namespace Sys2Proof.Machine

/-- An operand's low 32 bits as an FP32 pattern (R60). -/
def RV.bits32 (v : RV) : Nat := field (v.floats fd32).toNat 31 0

/-- A draw instruction of fixed latency: its result, and the replacements it counts (R38). -/
def drawLeaf (f : Frame) (u : Use) (v : Bool → Lane → Word × Nat) (s : State) : Out :=
  word f { u with feat := some 2 }
    (fun s l =>
      let (w, n) := v (s.nanTest l.tk) l
      .ok ((s.addNan l.tk n).put l w)) s

def execDrawl (f : Frame) (o : O2) (s : State) : Out :=
  drawLeaf f (use2 o) (fun nt l => linLeaf nt l.a.bits32 (field l.b.w64.toNat 31 0)) s

def execDrawg (f : Frame) (o : O3) (s : State) : Out :=
  drawLeaf f (use3 o) (fun nt l => logLeaf nt l.a.f32 l.b.f32 (field l.c.w64.toNat 31 0)) s

/-- DMRG: the coin is that of the counter's site and node (R216). -/
def execDmrg (f : Frame) (lg : Bool) (o : O3) (s : State) : Out :=
  word f { use3 o with vl := true, coin := true, feat := some 2 }
    (fun s l =>
      let c := l.c.w64.toNat
      let u := (s.coinSrc l.tk).coin (field c 31 20) (field c 19 0)
      let (v, n) := mergeV lg (s.nanTest l.tk) u l.a.w64 l.b.w64
      .ok ((s.addNan l.tk n).sendPut l v)) s

def execGdraw (f : Frame) (lg : Bool) (o : O2) (mk : BitVec 4) (s : State) : Out :=
  exchange (.gdraw f lg o mk) f { use2 o with feat := some 2 } mk s

/-- DSEED writes the context's key on the thread's die (R220), in a pair the leading copy's (R223, log 65). -/
def execDseed (f : Frame) (a : Src) (s : State) : Out :=
  word f { src := [(0, a)], feat := some 2 }
    (fun s l =>
      let c := (s.thr l.tk).ctx
      .ok (if (s.thr l.tk).trails then s else s.modDie (dkOf l.ck) fun d => { d with key := Tab.put d.key c l.a.w64 })) s

def execDrnd (f : Frame) (o : O1) (s : State) : Out :=
  word f { use1 o with coin := true, feat := some 2 }
    (fun s l => .ok (s.put l ((s.coinSrc l.tk).draw (l.a.w64.setWidth 32)))) s

end Sys2Proof.Machine
end

