-- ==== Sys2Proof/Machine/Float.lean ====
section
/-! DEFINITION. The instructions of group 0x2: floating-point arithmetic (R164 to R174). -/

namespace Sys2Proof.Machine

def fpUn (m : FMod) (op : FD → Rnd → FV → FV) (a : RV) : Word :=
  let f := fdOf m.fmt
  fmap1 f (op f m.rnd) (a.floats f)

def fpBin (m : FMod) (op : FD → Rnd → FV → FV → FV) (a b : RV) : Word :=
  let f := fdOf m.fmt
  fmap2 f (op f m.rnd) (a.floats f) (b.floats f)

/-- A special function: its destination is pending until the result arrives (R165). -/
def special1 (f : Frame) (m : FMod) (o : O1) (op : FD → Rnd → FV → FV) (s : State) : Out :=
  word f { use1 o with vl := true } (fun s l => .ok (s.sendPut l (fpUn m op l.a))) s

def execFadd (f : Frame) (m : FMod) (o : O2) (s : State) : Out := compute f (use2 o) (fun l => fpBin m faddV l.a l.b) s
def execFsub (f : Frame) (m : FMod) (o : O2) (s : State) : Out := compute f (use2 o) (fun l => fpBin m fsubV l.a l.b) s
def execFmul (f : Frame) (m : FMod) (o : O2) (s : State) : Out := compute f (use2 o) (fun l => fpBin m fmulV l.a l.b) s

def execFfma (f : Frame) (m : FMod) (o : O3) (s : State) : Out :=
  compute f (use3 o)
    (fun l => let q := fdOf m.fmt
              fmap3 q (ffmaV q m.rnd) (l.a.floats q) (l.b.floats q) (l.c.floats q)) s

def execFmin (f : Frame) (m : FMod) (o : O2) (s : State) : Out :=
  compute f (use2 o) (fun l => fpBin m (fun q _ => fminV q) l.a l.b) s

def execFmax (f : Frame) (m : FMod) (o : O2) (s : State) : Out :=
  compute f (use2 o) (fun l => fpBin m (fun q _ => fmaxV q) l.a l.b) s

def execFabs (f : Frame) (m : FMod) (o : O1) (s : State) : Out :=
  compute f (use1 o) (fun l => fpUn m (fun q _ => fabsV q) l.a) s

def execFneg (f : Frame) (m : FMod) (o : O1) (s : State) : Out :=
  compute f (use1 o) (fun l => fpUn m (fun q _ => fnegV q) l.a) s

def execFcmp (f : Frame) (m : FMod) (pd : BitVec 3) (o : S2) (cond : Cond) (anyE : Bool) (s : State) : Out :=
  word f { useS2 o with pw := predBit pd }
    (fun s l => let q := fdOf m.fmt
                .ok (s.setP l.tk pd (fcmpV cond anyE q (l.a.floats q) (l.b.floats q)))) s

def execFclass (f : Frame) (m : FMod) (o : O1) (s : State) : Out :=
  compute f (use1 o)
    (fun l => let q := fdOf m.fmt
              let a := l.a.floats q
              mkElems q.w fun k => fclassV q (elem a q.w k)) s

def execFdiv (f : Frame) (m : FMod) (o : O2) (s : State) : Out :=
  word f { use2 o with vl := true } (fun s l => .ok (s.sendPut l (fpBin m fdivV l.a l.b))) s

def execFsqrt (f : Frame) (m : FMod) (o : O1) (s : State) : Out := special1 f m o fsqrtV s
def execFrcp (f : Frame) (m : FMod) (o : O1) (s : State) : Out := special1 f m o frcpV s
def execFrsq (f : Frame) (m : FMod) (o : O1) (s : State) : Out := special1 f m o frsqV s
def execFex2 (f : Frame) (m : FMod) (o : O1) (s : State) : Out := special1 f m o fex2V s
def execFlg2 (f : Frame) (m : FMod) (o : O1) (s : State) : Out := special1 f m o flg2V s
def execFlg2p (f : Frame) (m : FMod) (o : O1) (s : State) : Out := special1 f m o flg2pV s
def execFsinpi (f : Frame) (m : FMod) (o : O1) (s : State) : Out := special1 f m o fsinpiV s
def execFcospi (f : Frame) (m : FMod) (o : O1) (s : State) : Out := special1 f m o fcospiV s

def execFdot2 (f : Frame) (m : FMod) (o : O3) (s : State) : Out :=
  compute f (use3 o)
    (fun l => let q := fdOf m.fmt
              fdot2V q m.rnd (l.a.floats q) (l.b.floats q) (l.c.floats fd32)) s

def execFscale (f : Frame) (m : FMod) (o : O2) (s : State) : Out :=
  compute f (use2 o) (fun l => fpBin m fscaleV l.a l.b) s

def execFrnd (f : Frame) (m : FMod) (o : O1) (s : State) : Out := compute f (use1 o) (fun l => fpUn m frndV l.a) s

end Sys2Proof.Machine
end

