-- ==== Sys2Proof/Machine/IntMath.lean ====
section
/-! DEFINITION. Integer and bit arithmetic of groups 0x0 and 0x1, element by element (R145, R150 to R162). -/

namespace Sys2Proof.Machine

/-- Element by element on integers: signedness and width from the modifier, clamped under saturate, then modulo 2^w
(R145). -/
def imap1 (m : IMod) (op : Int → Int) (a : RV) : Word :=
  let w := wbits m.w
  mkElems w fun k =>
    let t := op (toInt w m.sgn (elem (a.ints w) w k))
    wrap w (if m.sat then satInt w m.sgn t else t)

def imap2 (m : IMod) (op : Int → Int → Int) (a b : RV) : Word :=
  let w := wbits m.w
  mkElems w fun k =>
    let t := op (toInt w m.sgn (elem (a.ints w) w k)) (toInt w m.sgn (elem (b.ints w) w k))
    wrap w (if m.sat then satInt w m.sgn t else t)

def imap3 (m : IMod) (op : Int → Int → Int → Int) (a b c : RV) : Word :=
  let w := wbits m.w
  mkElems w fun k =>
    let t := op (toInt w m.sgn (elem (a.ints w) w k)) (toInt w m.sgn (elem (b.ints w) w k))
      (toInt w m.sgn (elem (c.ints w) w k))
    wrap w (if m.sat then satInt w m.sgn t else t)

/-- Element by element on unsigned numbers. -/
def umap1 (m : IMod) (op : Nat → Nat) (a : RV) : Word :=
  let w := wbits m.w
  mkElems w fun k => op (elem (a.ints w) w k)

def umap2 (m : IMod) (op : Nat → Nat → Nat) (a b : RV) : Word :=
  let w := wbits m.w
  mkElems w fun k => op (elem (a.ints w) w k) (elem (b.ints w) w k)

def umap3 (m : IMod) (op : Nat → Nat → Nat → Nat) (a b c : RV) : Word :=
  let w := wbits m.w
  mkElems w fun k => op (elem (a.ints w) w k) (elem (b.ints w) w k) (elem (c.ints w) w k)

/-- Some element of an exact result lies outside the range (R150). -/
def anyOverflow (m : IMod) (op : Int → Int → Int) (a b : RV) : Bool :=
  let w := wbits m.w
  (List.range (64 / w)).any fun k =>
    let t := op (toInt w m.sgn (elem (a.ints w) w k)) (toInt w m.sgn (elem (b.ints w) w k))
    satInt w m.sgn t != t

/-- IADDC: carry-in to every element, carry out of the highest (R150). -/
def addCarry (m : IMod) (cin : Bool) (a b : RV) : Word × Bool :=
  let w := wbits m.w
  let t (k : Nat) : Nat := elem (a.ints w) w k + elem (b.ints w) w k + (if cin then 1 else 0)
  (mkElems w t, decide (2 ^ w ≤ t (64 / w - 1)))

/-- IMULH: the high half of each product (R151). -/
def mulHigh (m : IMod) (a b : RV) : Word := imap2 m (fun x y => x * y / 2 ^ wbits m.w) a b

/-- IMADW: products of width w added to elements of width 2w; `hi` takes the upper elements (R151). -/
def madWide (m : IMod) (a b c : RV) : Word :=
  let w := wbits m.w
  let o := if m.sat then 64 / w / 2 else 0
  mkElems (2 * w) fun j =>
    wrap (2 * w) (toInt w m.sgn (elem (a.ints w) w (j + o)) * toInt w m.sgn (elem (b.ints w) w (j + o))
      + toInt (2 * w) m.sgn (elem (c.ints (2 * w)) (2 * w) j))

/-- IDOT4 and IDOT2: `per` products of width `w` added to each 32-bit element (R151). -/
def dot (m : IMod) (w per : Nat) (a b c : RV) : Word :=
  mkElems 32 fun h =>
    let t := toInt 32 m.sgn (elem (c.ints 32) 32 h) +
      ((List.range per).map fun j =>
        toInt w m.sgn (elem (a.ints w) w (per * h + j)) * toInt w m.sgn (elem (b.ints w) w (per * h + j))).sum
    wrap 32 (if m.sat then satInt 32 m.sgn t else t)

/-- IDIV and IREM: toward zero; a zero divisor gives all ones and the dividend (R152). -/
def divElem (w : Nat) (a b : Int) : Int := if b = 0 then 2 ^ w - 1 else a.tdiv b
def remElem (a b : Int) : Int := if b = 0 then a else a - a.tdiv b * b

/-- BFN3 (R156): table bit A + 2B + 4C at each position. -/
def bfn3 (tab : BitVec 8) (a b c : Word) : Word :=
  let pick (k : Nat) (m : Word) : Word := if tab.getLsbD k then m else 0
  pick 0 (~~~a &&& ~~~b &&& ~~~c) ||| pick 1 (a &&& ~~~b &&& ~~~c) ||| pick 2 (~~~a &&& b &&& ~~~c)
    ||| pick 3 (a &&& b &&& ~~~c) ||| pick 4 (~~~a &&& ~~~b &&& c) ||| pick 5 (a &&& ~~~b &&& c)
    ||| pick 6 (~~~a &&& b &&& c) ||| pick 7 (a &&& b &&& c)

/-- Shifts and rotates on an element of width w (R157). -/
def shlElem (w a x : Nat) : Nat := if x < w then a * 2 ^ x else 0
def shrElem (w a x : Nat) : Nat := if x < w then a / 2 ^ x else 0
def sarElem (w a x : Nat) : Nat :=
  let v := toInt w true a
  if x < w then wrap w (v / 2 ^ x) else if v < 0 then 2 ^ w - 1 else 0
def rolElem (w a x : Nat) : Nat := a * 2 ^ (x % w) % 2 ^ w + a / 2 ^ (w - x % w)
def rorElem (w a x : Nat) : Nat := a / 2 ^ (x % w) + a * 2 ^ (w - x % w) % 2 ^ w
def fshElem (w a b c : Nat) : Nat := (a * 2 ^ w + b) / 2 ^ (c % w)

/-- Counts and reversal on an element (R158). -/
def popElem (w a : Nat) : Nat := ((List.range w).filter fun k => a.testBit k).length
def clzElem (w a : Nat) : Nat := if a = 0 then w else w - 1 - a.log2
def ctzElem (w a : Nat) : Nat := ((List.range w).takeWhile fun k => !a.testBit k).length
def brevElem (w a : Nat) : Nat := ((List.range w).map fun k => if a.testBit k then 2 ^ (w - 1 - k) else 0).sum

/-- BFX (R159). -/
def bfxElem (w : Nat) (sgn : Bool) (a b c : Nat) : Nat :=
  let p := min b w
  let len := min c w
  let v : Int := toInt w sgn a / 2 ^ p % 2 ^ len
  wrap w (if sgn && decide (0 < len) && decide (len < w) && decide (2 ^ (len - 1) ≤ v) then v - 2 ^ len else v)

/-- BFI (R159). -/
def bfiElem (w a b p len : Nat) : Nat :=
  if w ≤ p then a
  else
    let n := min len (w - p)
    a % 2 ^ p + b % 2 ^ n * 2 ^ p + a / 2 ^ (p + n) * 2 ^ (p + n)

/-- PRMB (R160). -/
def prmb (a b c : Word) : Word :=
  mkElems 8 fun j =>
    let x := field c.toNat (4 * j + 3) (4 * j)
    if x < 8 then elem a 8 x else elem b 8 (x - 8)

/-- ICMP (R161). -/
def icmp (m : IMod) (c : Cond) (anyE : Bool) (a b : RV) : Bool :=
  let w := wbits m.w
  let l := (List.range (64 / w)).map fun k =>
    condHolds c (some (compare (toInt w m.sgn (elem (a.ints w) w k)) (toInt w m.sgn (elem (b.ints w) w k))))
  if anyE then l.any id else l.all id

end Sys2Proof.Machine
end

