-- ==== Sys2Proof/Machine/Integer.lean ====
section
/-! DEFINITION. The instructions of groups 0x0 and 0x1 (R145 to R163). -/

namespace Sys2Proof.Machine

def execIadd (f : Frame) (m : IMod) (o : O2) (s : State) : Out :=
  compute f (use2 o) (fun l => imap2 m (· + ·) l.a l.b) s

def execIsub (f : Frame) (m : IMod) (o : O2) (s : State) : Out :=
  compute f (use2 o) (fun l => imap2 m (· - ·) l.a l.b) s

/-- IADDS and ISUBS: the wrapped result, and the status predicate (R150). -/
def overflowing (f : Frame) (m : IMod) (o : O2) (pe : BitVec 3) (op : Int → Int → Int) (s : State) : Out :=
  word f { use2 o with pw := predBit pe }
    (fun s l => .ok ((s.put l (imap2 { m with sat := false } op l.a l.b)).setP l.tk pe (anyOverflow m op l.a l.b))) s

def execIadds (f : Frame) (m : IMod) (o : O2) (pe : BitVec 3) (s : State) : Out := overflowing f m o pe (· + ·) s
def execIsubs (f : Frame) (m : IMod) (o : O2) (pe : BitVec 3) (s : State) : Out := overflowing f m o pe (· - ·) s

def execImul (f : Frame) (m : IMod) (o : O2) (s : State) : Out :=
  compute f (use2 o) (fun l => imap2 m (· * ·) l.a l.b) s

def execImulh (f : Frame) (m : IMod) (o : O2) (s : State) : Out := compute f (use2 o) (fun l => mulHigh m l.a l.b) s

def execImad (f : Frame) (m : IMod) (o : O3) (s : State) : Out :=
  compute f (use3 o) (fun l => imap3 m (fun a b c => a * b + c) l.a l.b l.c) s

def execImadw (f : Frame) (m : IMod) (o : O3) (s : State) : Out :=
  compute f (use3 o) (fun l => madWide m l.a l.b l.c) s

def execIdiv (f : Frame) (m : IMod) (o : O2) (s : State) : Out :=
  compute f (use2 o) (fun l => imap2 m (divElem (wbits m.w)) l.a l.b) s

def execIrem (f : Frame) (m : IMod) (o : O2) (s : State) : Out :=
  compute f (use2 o) (fun l => imap2 m remElem l.a l.b) s

def execImin (f : Frame) (m : IMod) (o : O2) (s : State) : Out :=
  compute f (use2 o) (fun l => imap2 m (fun a b => if b < a then b else a) l.a l.b) s

def execImax (f : Frame) (m : IMod) (o : O2) (s : State) : Out :=
  compute f (use2 o) (fun l => imap2 m (fun a b => if a < b then b else a) l.a l.b) s

def execIclamp (f : Frame) (m : IMod) (o : O3) (s : State) : Out :=
  compute f (use3 o)
    (fun l => imap3 m (fun a b c => let x := if a < b then b else a; if c < x then c else x) l.a l.b l.c) s

def execIabs (f : Frame) (m : IMod) (o : O1) (s : State) : Out :=
  compute f (use1 o) (fun l => imap1 m (fun a => if a < 0 then -a else a) l.a) s

def execIneg (f : Frame) (m : IMod) (o : O1) (s : State) : Out := compute f (use1 o) (fun l => imap1 m (fun a => -a) l.a) s

def execIdot4 (f : Frame) (m : IMod) (o : O3) (s : State) : Out :=
  compute f (use3 o) (fun l => dot m 8 4 l.a l.b l.c) s

def execIdot2 (f : Frame) (m : IMod) (o : O3) (s : State) : Out :=
  compute f (use3 o) (fun l => dot m 16 2 l.a l.b l.c) s

def execIsad (f : Frame) (m : IMod) (o : O3) (s : State) : Out :=
  compute f (use3 o) (fun l => imap3 m (fun a b c => c + (if a < b then b - a else a - b)) l.a l.b l.c) s

def execIaddc (f : Frame) (m : IMod) (o : O2) (pc : PredN) (pe : BitVec 3) (s : State) : Out :=
  word f { use2 o with pr := predBit pc.p, pw := predBit pe }
    (fun s l =>
      let r := addCarry m (guardHolds (s.thr l.tk).r.p pc) l.a l.b
      .ok ((s.put l r.1).setP l.tk pe r.2)) s

def execLea (f : Frame) (o : O2) (sh : BitVec 6) (s : State) : Out :=
  compute f (use2 o) (fun l => l.a.w64 + l.b.w64 <<< sh.toNat) s

def execMov (f : Frame) (o : O1) (s : State) : Out := compute f (use1 o) (fun l => l.a.w64) s

def execMovi (f : Frame) (m : IMod) (d : Dst) (imm : BitVec 28) (s : State) : Out :=
  compute f { dst := some d } (fun _ => mkElems (wbits m.w) fun _ => wrap (wbits m.w) (toInt 28 m.sgn imm.toNat)) s

def execMovhi (f : Frame) (o : O2) (s : State) : Out :=
  compute f (use2 o) (fun l => (l.b.w64.setWidth 32 : BitVec 32) ++ (l.a.w64.setWidth 32 : BitVec 32)) s

def execSel (f : Frame) (o : O2) (pc : PredN) (s : State) : Out :=
  word f { use2 o with pr := predBit pc.p }
    (fun s l => .ok (s.put l (if guardHolds (s.thr l.tk).r.p pc then l.a.w64 else l.b.w64))) s

def execAnd (f : Frame) (o : O2) (s : State) : Out := compute f (use2 o) (fun l => l.a.w64 &&& l.b.w64) s
def execOr (f : Frame) (o : O2) (s : State) : Out := compute f (use2 o) (fun l => l.a.w64 ||| l.b.w64) s
def execXor (f : Frame) (o : O2) (s : State) : Out := compute f (use2 o) (fun l => l.a.w64 ^^^ l.b.w64) s
def execAndn (f : Frame) (o : O2) (s : State) : Out := compute f (use2 o) (fun l => l.a.w64 &&& ~~~l.b.w64) s
def execNot (f : Frame) (o : O1) (s : State) : Out := compute f (use1 o) (fun l => ~~~l.a.w64) s

def execBfn3 (f : Frame) (o : O3) (tab : BitVec 8) (s : State) : Out :=
  compute f (use3 o) (fun l => bfn3 tab l.a.w64 l.b.w64 l.c.w64) s

def execShl (f : Frame) (m : IMod) (o : O2) (s : State) : Out :=
  compute f (use2 o) (fun l => umap2 m (shlElem (wbits m.w)) l.a l.b) s

def execShr (f : Frame) (m : IMod) (o : O2) (s : State) : Out :=
  compute f (use2 o) (fun l => umap2 m (shrElem (wbits m.w)) l.a l.b) s

def execSar (f : Frame) (m : IMod) (o : O2) (s : State) : Out :=
  compute f (use2 o) (fun l => umap2 m (sarElem (wbits m.w)) l.a l.b) s

def execRol (f : Frame) (m : IMod) (o : O2) (s : State) : Out :=
  compute f (use2 o) (fun l => umap2 m (rolElem (wbits m.w)) l.a l.b) s

def execRor (f : Frame) (m : IMod) (o : O2) (s : State) : Out :=
  compute f (use2 o) (fun l => umap2 m (rorElem (wbits m.w)) l.a l.b) s

def execFshf (f : Frame) (m : IMod) (o : O3) (s : State) : Out :=
  compute f (use3 o) (fun l => umap3 m (fshElem (wbits m.w)) l.a l.b l.c) s

def execPopc (f : Frame) (m : IMod) (o : O1) (s : State) : Out :=
  compute f (use1 o) (fun l => umap1 m (popElem (wbits m.w)) l.a) s

def execClz (f : Frame) (m : IMod) (o : O1) (s : State) : Out :=
  compute f (use1 o) (fun l => umap1 m (clzElem (wbits m.w)) l.a) s

def execCtz (f : Frame) (m : IMod) (o : O1) (s : State) : Out :=
  compute f (use1 o) (fun l => umap1 m (ctzElem (wbits m.w)) l.a) s

def execBrev (f : Frame) (m : IMod) (o : O1) (s : State) : Out :=
  compute f (use1 o) (fun l => umap1 m (brevElem (wbits m.w)) l.a) s

def execBfx (f : Frame) (m : IMod) (o : O3) (s : State) : Out :=
  compute f (use3 o) (fun l => umap3 m (bfxElem (wbits m.w) m.sgn) l.a l.b l.c) s

def execBfi (f : Frame) (m : IMod) (o : O4) (s : State) : Out :=
  compute f (use4 o)
    (fun l =>
      let w := wbits m.w
      mkElems w fun k =>
        bfiElem w (elem (l.a.ints w) w k) (elem (l.b.ints w) w k) (elem (l.c.ints w) w k) (elem (l.e.ints w) w k)) s

def execPrmb (f : Frame) (o : O3) (s : State) : Out := compute f (use3 o) (fun l => prmb l.a.w64 l.b.w64 l.c.w64) s

def execIcmp (f : Frame) (m : IMod) (pd : BitVec 3) (o : S2) (cond : Cond) (anyE : Bool) (s : State) : Out :=
  word f { useS2 o with pw := predBit pd } (fun s l => .ok (s.setP l.tk pd (icmp m cond anyE l.a l.b))) s

def execPset (f : Frame) (pd pa pb : BitVec 3) (tab : BitVec 4) (s : State) : Out :=
  word f { pr := predBit pa ||| predBit pb, pw := predBit pd }
    (fun s l =>
      let p := (s.thr l.tk).r.p
      let x := (if getPred p pa then 2 else 0) + (if getPred p pb then 1 else 0)
      .ok (s.setP l.tk pd (tab.getLsbD x))) s

/-- PMOV (R162): all predicates into a register, or the chosen ones out of one. -/
def execPmov (f : Frame) (o : O1) (msk : BitVec 7) (dir : Bool) (s : State) : Out :=
  if dir then
    word f { src := [(0, o.a)], pw := msk }
      (fun s l => .ok (s.modThr l.tk fun t =>
        { t with r := { t.r with p := (t.r.p &&& ~~~msk) ||| (l.a.w64.setWidth 7 &&& msk) } })) s
  else
    word f { dst := some o.d, pr := 0x7F }
      (fun s l => .ok (s.put l ((1#1 ++ (s.thr l.tk).r.p).setWidth 64))) s

end Sys2Proof.Machine
end

