-- ==== Sys2Proof/Machine/Link.lean ====
section
/-! DEFINITION. Links (R316 to R324, R427) and the loss of a cell (R344 to R347): what each flit, timer and lane event does, and
what a survivor does when it accepts a loss. -/

namespace Sys2Proof.Machine

/-! ### Data flits (R322 to R324) -/

/-- The bytes of a flit. -/
def flitBytes (b : BitVec 1024) : List Byte := leBytes 128 b.toNat

/-- A flit checks: its CRC against the seed of the number expected, and its reserved fields. -/
def flitOk (l : List Byte) (expect : Nat) : Bool :=
  let hdr := ofLeBytes (l.take 4)
  ofLeBytes (l.drop 124) == (crc32c (dataSeed expect) (l.take 124)).toNat && !hdr.testBit 3 && field hdr 31 21 == 0

/-- The payload so far of a channel. -/
def Port.payload (v : Port) (vc : Nat) : List Byte := if h : vc < 8 then v.inc.get ⟨vc, h⟩ else []
def Port.setPayload (v : Port) (vc : Nat) (l : List Byte) : Port := if h : vc < 8 then { v with inc := v.inc.set vc l h } else v

/-- The receiver accepts the flit it expects: its buffer is freed at once, and its header returns credits (R320). -/
def Port.take (v : Port) (now : Nat) (l : List Byte) (vc : Nat) : Port :=
  let hdr := ofLeBytes (l.take 4)
  let first := hdr.testBit 4
  let v := v.addCredit (field hdr 12 10) (field hdr 20 13)
  let v := v.setPayload vc ((if first then [] else v.payload vc) ++ (l.drop 4).take 120)
  let v : Port := { (v.setOwed vc (v.owes vc + 1)) with expect := (v.expect + 1) % 2 ^ 24, naked := false, accepted := v.accepted + 1 }
  if 64 ≤ v.accepted then v.ackOut now else v

/-- A flit that is discarded is charged to a lane as a CRC failure (R322, R417). -/
def State.flitCounted (s : State) (p k : Nat) (err : BitVec 1024) : State :=
  let v := s.port p k
  let lane := v.worstLane err
  (s.setPort p k (v.bumpCrc lane s.clock)).laneAlarm p k lane false

/-- A flit fails its check as a data flit: it is NAKed once for its number, charged to a lane, and discarded (R324). -/
def State.flitFails (s : State) (p k : Nat) (err : BitVec 1024) : State :=
  let v := s.port p k
  (s.setPort p k (if v.naked then v else { v.ctlOut 2 v.expect 0 with naked := true })).flitCounted p k err

/-- A flit checks as a control flit: its CRC against the control seed, its reserved fields, and its KIND (R322, R323). -/
def ctlOk (l : List Byte) : Bool :=
  let hdr := ofLeBytes (l.take 4)
  let kind := field hdr 7 4
  ofLeBytes (l.drop 124) == (crc32c ctlSeed (l.take 124)).toNat && hdr.testBit 3 && hdr % 8 == 0 && decide (kind ≤ 6)
    && (kind == 1 || kind == 2 || field hdr 31 8 == 0)

/-- What a package receives as the answer to a request, a Put or a Flush (R345). -/
def Msg.responds (m : Msg) : Bool :=
  match m.ty with
  | .data => m.seq != 0
  | .ack => m.status != 9 && m.status != 10 && (m.kind == ackPut || m.kind == ackFlush || m.kind == ackGrant)
  | .nak | .err => true
  | _ => false

/-- A flit comes to an isolated port: it is dropped, and an answer of which it is the last is counted (R345). -/
def State.flitDropped (s : State) (p : Nat) (f : Flit) : State :=
  match s.msg? f.msg with
  | some m =>
    if !f.last then s
    else (s.dropMsg m.u).modPkg p fun g => { g with lostDrop := if m.responds then g.lostDrop + 1 else g.lostDrop }
  | none => s

/-- A flit that checks as a data flit: its payload goes to its channel, and with its last flit the message `u` is whole. -/
def State.flitIn (s : State) (p k u : Nat) (l : List Byte) : State :=
  let hdr := ofLeBytes (l.take 4)
  let vc := hdr % 8
  let last := field hdr 9 5 == 0
  let v := (s.port p k).take s.clock l vc
  let whole := v.payload vc
  let s := (s.setPort p k (if last then v.setPayload vc [] else v)).pump p k
  if last then s.received p k u whole
  else if hdr.testBit 4 then s.firstFlit p u whole
  else s

/-- What a flit is once it has come, by the CTL bit it then has (R323): a control flit that checks and is not idle is answered, any
other is taken or charged at once; `u` is the message whose data flit it was, if any. -/
def State.flitSeen (s : State) (p k u : Nat) (l : List Byte) (err : BitVec 1024) : Option (BitVec 1024) × State :=
  if (ofLeBytes (l.take 4)).testBit 3 then
    if !ctlOk l then (none, s.flitCounted p k err)
    else (if field (ofLeBytes (l.take 4)) 7 4 = 0 then none else some (BitVec.ofNat 1024 (ofLeBytes l)), s)
  else if flitOk l (s.port p k).expect then (none, s.flitIn p k u l)
  else (none, s.flitFails p k err)

/-- DATA_FLIT: the next data flit of the link into a port, with the bits that have turned on the way. One that has turned into a control
flit that checks stands among the control flits of the link. -/
def execDataFlit (pkg port : Nat) (err : BitVec 1024) (s : State) : Out :=
  .next <|
    match s.peer pkg port with
    | none => s
    | some (q, j) =>
      match (s.port q j).wire with
      | [] => s
      | f :: rest =>
        let s := s.modPort q j fun v => { v with wire := rest }
        if (s.port pkg port).isolated then s.flitDropped pkg f
        else if !(s.port pkg port).up then s
        else
          match s.flitSeen pkg port f.msg (flitBytes (f.bits ^^^ err)) err with
          | (some b, s) => s.modPort q j fun v => { v with ctl := ⟨b, 0⟩ :: v.ctl }
          | (none, s) => s

/-! ### Control flits (R320, R322, R324) -/

/-- The next control flit of a kind on the link into a port comes, with the bits that have turned on the way: one that fails its
check is counted and dropped. The flit, if there was a good one, and the state without it. -/
def State.takeCtl (s : State) (p k kind : Nat) (err : BitVec 1024) : Option Ctl × State :=
  match s.peer p k with
  | none => (none, s)
  | some (q, j) =>
    if !(s.port p k).up then (none, s)
    else
      match (s.port q j).ctl.find? fun c => c.kind == kind with
      | none => (none, s)
      | some c =>
        let s := s.modPort q j fun v => { v with ctl := v.ctl.erase c }
        let r : Ctl := { c with bits := c.bits ^^^ err }
        match s.flitSeen p k 0 (flitBytes r.bits) err with
        | (some _, s) => if r.kind = kind then (some r, s) else (none, s.modPort q j fun v => { v with ctl := r :: v.ctl })
        | (none, s) => (none, s)

/-- LINK_ACK: covered flits are freed, and messages that waited for room in the window go (R326). -/
def execLinkAck (pkg port : Nat) (err : BitVec 1024) (s : State) : Out :=
  .next <|
    match s.takeCtl pkg port 1 err with
    | (none, s) => s
    | (some c, s) =>
      (List.range 16).foldl (fun s r => s.routeWaiting r) ((s.modPort pkg port fun v => v.ackTo c.seq s.clock).pump pkg port)

/-- Replays without an acknowledgement that bring the port down (R318). -/
def replayMax : Nat := 8

/-- The sender goes back; the eighth time for one number, the port goes down. -/
def State.goBack (s : State) (p k : Nat) : State :=
  let v := (s.port p k).goBack s.clock
  let v := v.bumpReplay (v.worstLane 0)
  let s := s.setPort p k v
  if replayMax ≤ v.replays then s.linkDown p k else s.pump p k

/-- LINK_NAK. -/
def execLinkNak (pkg port : Nat) (err : BitVec 1024) (s : State) : Out :=
  .next <|
    match s.takeCtl pkg port 2 err with
    | (none, s) => s
    | (some c, s) => (s.modPort pkg port fun v => v.ackTo c.seq s.clock).goBack pkg port

/-- CREDIT_FLIT. -/
def execCreditFlit (pkg port : Nat) (err : BitVec 1024) (s : State) : Out :=
  .next <|
    match s.takeCtl pkg port 3 err with
    | (none, s) => s
    | (some c, s) =>
      (s.modPort pkg port fun v => (List.range 8).foldl (fun v i => v.addCredit i (c.pay / 2 ^ (16 * i) % 65536)) v).pump pkg port

/-- ACK_TIMER: 256 cycles have passed since the last ACK. -/
def execAckTimer (pkg port : Nat) (s : State) : Out :=
  .next <|
    let v := s.port pkg port
    if v.up && decide (v.ackT + 256 ≤ s.clock) then s.setPort pkg port (v.ackOut s.clock) else s

/-- RETRY_TIMEOUT: 2,048 cycles without an ACK or a NAK of the oldest flit. -/
def execRetryTimeout (pkg port : Nat) (s : State) : Out :=
  .next <|
    let v := s.port pkg port
    if v.up && !v.retry.isEmpty && decide (v.oldest + 2048 ≤ s.clock) then s.goBack pkg port else s

/-! ### Lanes and ports (R317, R318, R332, R417) -/

/-- LANE_SPARE: a lane's retraining has failed. -/
def execLaneSpare (pkg port lane : Nat) (s : State) : Out :=
  .next (if (s.port pkg port).up then s.spareLane pkg port lane else s)

/-- PORT_DOWN. -/
def execPortDown (pkg port : Nat) (s : State) : Out := .next (if (s.port pkg port).up then s.linkDown pkg port else s)

/-- PORT_UP. -/
def execPortUp (pkg port : Nat) (s : State) : Out :=
  .next <|
    match s.peer pkg port with
    | none => s
    | some (q, _) =>
      if !(s.pkg pkg).booted || !(s.pkg q).booted then s
      else s.linkUp pkg port

/-- LANE_EYE_MEASURE: the margins of a physical lane, measured every 1 ms. -/
def execLaneEyeMeasure (pkg port lane : Nat) (hor ver : BitVec 8) (s : State) : Out :=
  .next <|
    (s.modPort pkg port fun v => v.setEye lane (hor.setWidth 16 ||| (ver.setWidth 16 <<< 8))).laneAlarm pkg port lane true

/-- TOKEN_ACCRUAL: the rate limiter of a port gains RATE / 256 of a token, up to BURST (R427). -/
def execTokenAccrual (pkg port : Nat) (s : State) : Out :=
  .next <|
    (s.modPort pkg port fun v => { v with tokens := min (v.tokens + v.rate) (256 * v.burst) }).pump pkg port

/-! ### Probes (R344; log 44) -/

/-- Packages that a package has been out of reach of, and whose probes a relay may carry. -/
def State.probed (s : State) (p r : Nat) : List Nat :=
  (List.range 16).filter fun q => q != p && q != r && (s.pkg q).present && (s.path p q).silent.isSome && !(s.path p q).lost
    && (s.path p q).relays.getLsbD r

/-- Passes a probe or a reply on, with the prober in byte 0. -/
def State.probeOn (s : State) (p to_ kind : Nat) (c : Ctl) : State :=
  let k := s.portTo p to_
  if (s.port p k).up then s.modPort p k fun v => v.ctlOut kind 0 (c.pay % 256) c.far else s

/-- PROBE: a probe that has come is answered, or passed on to the package it is for; with none on the link, the recovery engine
sends its own probes through the package at the other end. -/
def execProbe (pkg port : Nat) (err : BitVec 1024) (s : State) : Out :=
  .next <|
    match s.takeCtl pkg port 5 err with
    | (some c, s) =>
      if c.far = pkg then s.modPort pkg port fun v => v.ctlOut 6 0 (c.pay % 256) c.far else s.probeOn pkg c.far 5 c
    | (none, s) =>
      match s.peer pkg port with
      | some (r, _) =>
        if !(s.port pkg port).up then s
        else
          let s := s.modPort pkg port fun v => { v with probeT := s.clock }
          (s.probed pkg r).foldl (fun s q => s.modPort pkg port fun v => v.ctlOut 5 0 pkg q) s
      | none => s

/-- PROBE_REPLY: the prober learns that the package is there; a relay passes the reply on. -/
def execProbeReply (pkg port : Nat) (err : BitVec 1024) (s : State) : Out :=
  .next <|
    match s.takeCtl pkg port 6 err with
    | (some c, s) =>
      let p := c.pay % 16
      if p = pkg then
        (if (s.path p c.far).silent.isSome then s.setPath p c.far { (s.path p c.far) with silent := some s.clock } else s)
      else s.probeOn pkg p 6 c
    | (none, s) => s

/-! ### Isolation and ErrSynth (R345) -/

/-- Packages of a cell. -/
def State.cellMembers (s : State) (c : Nat) : List Nat := (List.range 16).filter fun q => (s.pkg q).present && s.cellOf q == c

/-- The port that is the last hop of a package's requests to another: its own, or a live relay's. -/
def State.lastHop (s : State) (x line : Nat) : Nat :=
  let q := lineHome line
  if s.direct x q then x
  else
    (s.relayFor x { u := 0, ty := .getS, src := x, dst := q, req := x, line := line }).getD x

/-- A response to a request of a package about a line is on this side of the last hop. -/
def State.hasAnswer (s : State) (x line : Nat) : Bool :=
  s.net.any fun m => m.dst == x && m.line == line && m.responds && (m.st == .arrived || m.hop2)

/-- Lines of a package homed in a set of packages whose request, Put or Flush has no answer. -/
def State.unanswered (s : State) (x : Nat) (homes : List Nat) : List Nat :=
  ((s.pkg x).lines.filter fun e =>
    homes.contains (lineHome e.1) && (e.2.req.isSome || e.2.put.isSome || e.2.flushing.isSome) && !s.hasAnswer x e.1).map (·.1)

/-- The ErrSynths that a package's ports toward lost packages make: for its own requests, and for those it relays. -/
def State.synthErrors (s : State) (p : Nat) (homes : List Nat) : State :=
  (List.range 16).foldl (fun s x =>
    if !(s.pkg x).present || homes.contains x then s
    else (s.unanswered x homes).foldl (fun s line =>
      let r := s.lastHop x line
      if r = p ∨ (x = p ∧ (s.isLost r (lineHome line))) then
        s.send { u := 0, ty := .err, src := p, dst := x, req := x, line := line, hop2 := p != x }
      else s) s) s

/-- Messages that end with the isolation: those of the package to the lost ones, and those of the lost ones that have not come
whole. One whose last flit is on the wire is dropped as it comes (`State.flitDropped`). -/
def State.cutMessages (s : State) (p : Nat) (gone : List Nat) : State :=
  let coming (m : Msg) : Bool :=
    match s.peer p (s.portTo p m.src) with
    | some (r, j) => (s.port r j).wire.any fun f => f.msg == m.u && f.last
    | none => false
  let cut (m : Msg) : Bool :=
    (gone.contains m.src && (m.st == .travels || m.st == .waiting)
      && ((m.dst == p && m.relay.isNone) || (m.relay == some p && !m.hop2)))
  { s with net := s.net.filterMap fun m =>
      if m.src == p && gone.contains m.dst then none
      else if !(cut m) then some m
      else if coming m then some { m with st := .failed } else none }

/-- A package isolates its port toward a lost one; the other end is down as well. Flits on the wire still come. -/
def State.isolate (s : State) (p q : Nat) : State :=
  let k := s.portTo p q
  let v := s.port p k
  let s := s.setPort p k { v.reset false with isolated := true }
  let s := s.setPath p q { (s.path p q) with lost := true, silent := none }
  match s.peer p k with
  | some (r, j) =>
    let v := s.port r j
    let held := (v.out ++ v.sending.map (·.1)).filter fun m => m.src != r
    held.foldl (fun s m => s.sendAgain r m) (s.setPort r j { v.reset false with wire := v.wire })
  | none => s

/-! ### The recovery engine (R346) -/

/-- The transaction of a line without the answers of lost packages (step 1). -/
def State.dropAnswers (s : State) (h line : Nat) : State :=
  match (s.dir line).tx with
  | none => s
  | some t =>
    let missing := t.wait.filter fun q => s.isLost h q
    let mine := match t.k with | .req m => s.isLost h m.src | _ => false
    -- a holder's Data may have reached the requester already
    let direct := match t.k with
      | .req m => m.ty == .getM && t.phase == 1
          && (s.net.any fun x => x.ty == .data && x.dst == m.src && x.line == line && x.seq != 0 && x.st == .arrived)
      | _ => false
    let poison := decide (t.phase = 1) && !missing.isEmpty && ((s.dir line).st == .update || (!t.held && !t.got && !direct))
    let s := if poison then s.losePoison line else s
    let s := s.modTx line fun t =>
      { t with wait := t.wait.filter (fun q => !s.isLost h q) ++ (if direct then [16] else []), got := t.got || mine,
               unsent := t.unsent.filter fun x => !s.isLost h x.2.2.2 }
    s.advance line

/-- The lines of which a package is the home. -/
def State.homed (s : State) (p : Nat) : List Nat := (s.dirs.filter fun e => lineHome e.1 == p).map (·.1)

/-- Steps 1 and 2: transactions end, and every line is walked, a busy one when it is free. -/
def State.walkHome (s : State) (p : Nat) : State :=
  let l := s.homed p
  let s := l.foldl (fun s line => s.modDir line fun d => { d with walked := false, queue := d.queue.filter fun m => !s.isLost p m.src }) s
  l.foldl (fun s line => if (s.dir line).tx.isSome then s.dropAnswers p line else if (s.dir line).walked then s else s.lineFree line) s

/-- Step 3: own copies of lines whose home is lost go, dirty data with them; what awaits a verdict of such a line is as after a
failed tag (log 56). -/
def State.dropCopies (s : State) (p : Nat) (gone : List Nat) : State :=
  let held := (s.pkg p).lines.filterMap fun e => if gone.contains (lineHome e.1) then e.2.unver else none
  (held.foldl (fun s u => s.verdict p u false) s).modPkg p fun k =>
    { k with lines := k.lines.map fun e =>
        if gone.contains (lineHome e.1) then (e.1, { e.2 with st := .I, part := none, psn := false, unver := none, upto := 128, rel := [] })
        else e }

/-- Own copies of lines whose home is lost. -/
def State.copyCount (s : State) (p : Nat) (gone : List Nat) : Nat :=
  ((s.pkg p).lines.filter fun e => gone.contains (lineHome e.1) && e.2.st != .I).length

/-! ### Launches that span a lost cell (R24, R102) -/

/-- Commands of a launch that have not finished on packages that are not lost. -/
def State.liveCmds (s : State) (p lk : Nat) : Nat :=
  let on (c : Cmd) : Bool := c.launch == some lk
  let cores := s.cores.filter fun e => !s.isLost p (pkgOfCore e.1)
  let dies := s.dies.filter fun e => !s.isLost p (pkgOfDie e.1)
  ((cores.map fun e => ((e.2.copyq ++ e.2.matq).filter on).length).sum)
    + ((dies.map fun e => (e.2.collq.filter on).length + (e.2.binds.filter fun b => on b.cmd).length
          + (e.2.ops.filter fun o => on o.cmd).length).sum)

/-- Launches over a lost cell end with status 0x03: their threads elsewhere are killed. -/
def State.loseLaunches (s : State) (p : Nat) (gone : List Nat) : State :=
  s.launches.foldl (fun s e =>
    let lk := e.1
    if !(e.2.dies.any fun d => gone.contains (pkgOfDie d.dk)) then s
    else
      let s := if e.2.pkg = p then
          let s := (s.launchThreads lk).foldl (fun s x =>
            if gone.contains (pkgOfThr x.1) then s.setThr x.1 {} else s) s
          s.modLaunch lk fun l => { l with status := 3, cmds := s.liveCmds p lk }
        else s
      (s.launchThreads lk).foldl (fun s x =>
        if pkgOfThr x.1 = p then (s.modThr x.1 fun t => { t with killing := true }).killCheck x.1 else s) s) s

/-! ### Accepting a loss -/

/-- A package passes a loss notice on to every package it reaches directly (R344). -/
def State.noticeOut (s : State) (p c : Nat) : State :=
  let mask := (s.cellMembers c).foldl (fun m q => m + 2 ^ q) 0
  (List.range 16).foldl (fun s k =>
    if (s.port p k).up then s.modPort p k fun v => v.ctlOut 4 0 (c + 256 * mask) else s) s

/-- A package accepts the loss of a cell: it passes the notice on, and a survivor takes the steps of R345 and R346. A package of
the lost cell itself is no survivor (log 76). -/
def State.acceptLoss (s : State) (p c : Nat) : State :=
  if (s.pkg p).lostCells.getLsbD c then s
  else if s.cellOf p = c then (s.noticeOut p c).modPkg p fun k => { k with lostCells := k.lostCells ||| BitVec.twoPow 16 c }
  else
    let gone := s.cellMembers c
    let s := s.noticeOut p c
    let s := s.synthErrors p gone
    let s := (s.modPkg p fun k => { k with lostCells := k.lostCells ||| BitVec.twoPow 16 c }).cutMessages p gone
    let s := gone.foldl (fun s q => s.isolate p q) s
    let s := s.modPkg p fun k => { k with losses := k.losses ++ [(c, 0, s.copyCount p gone)] }
    (((s.walkHome p).dropCopies p gone).loseLaunches p gone).walkEnds p

/-- LOSS_DECLARE: for 100 µs the port toward a package has been down and no probe answered. -/
def execLossDeclare (pkg q : Nat) (s : State) : Out :=
  .next <|
    match (s.path pkg q).silent with
    | some t =>
      if (s.pkg pkg).booted && !s.direct pkg q && decide (t + 100 * cyclesPerUs ≤ s.clock) then s.acceptLoss pkg (s.cellOf q) else s
    | none => s

/-- LOSS_NOTICE: a notice has come. -/
def execLossNotice (pkg port : Nat) (err : BitVec 1024) (s : State) : Out :=
  .next <|
    match s.takeCtl pkg port 4 err with
    | (some c, s) => s.acceptLoss pkg (c.pay % 256)
    | (none, s) => s

end Sys2Proof.Machine
end

