-- ==== Sys2Proof/Machine/Preempt.lean ====
section
/-! DEFINITION. Pre-emption (R386, R387, R408): which waits are withdrawn, when a context may be saved, and how each thread is
saved. -/

namespace Sys2Proof.Machine

/-! ### Withdrawn waits (R386, step 2) -/

/-- The gang that holds a thread and waits. -/
def State.waitingGang (s : State) (tk : Nat) : Option Gang :=
  let p := s.pipe (ckOf tk) (halfOf tk)
  (p.gang.toList ++ p.parked ++ p.excess).find? fun g => g.members.contains tk && g.why != .running

/-- FENCE and SDRAIN, among the words that wait for counters. -/
def fences (w : Word) : Bool :=
  match decode w none with
  | .ok (.fence ..) | .ok (.sdrain ..) => true
  | _ => false

/-- The gang waits for something that pre-emption withdraws, in a clause whose header lets it (R54, R386): an exchange or a block,
registers that only withdrawn waits leave pending, or such waits as a release stands after, a place in a counter that only such waits fill, or FENCE and SDRAIN. Any other wait
ends before the gang completes its clause. -/
def Thread.cutAt (t : Thread) (g : Gang) : Bool :=
  !g.hdr.getLsbD 9 &&
    match g.why with
    | .running | .copies | .passed | .region | .path _ => false
    | .rel => !t.pend.isEmpty && t.pend.all fun q => q.k.withdrawn
    | .pend | .regs _ => (!t.pend.isEmpty && t.pend.all fun q => q.k.withdrawn) || t.arr.isSome || (t.hold && t.xwant)
    | .room k => (k == 6 || k == 10) && t.pend.any (fun q => q.k.inLdc) && t.pend.all fun q => q.k.withdrawn
    | .hold => t.arr.isSome || t.xwant
    | .ctrs .. => fences g.word

/-- A thread leaves a gang that waits for what is withdrawn: it stands before the instruction, or, where the instruction's own
wait stays with the thread, after it. -/
def State.cutThread (s : State) (tk : Nat) (g : Gang) : State :=
  let s := match (s.thr tk).arr with
    | some a =>
      let back (t : Thread) : Thread := match t.pendAt a.u with | some p => t.undo p | none => t
      ((s.modThr tk back).endPend tk a.u).modThr tk fun t => { t with arr := none, hold := false, pc := a.addr, nw := t.nw - 1 }
    | none => s
  let s := if (s.thr tk).xwant ∧ (s.thr tk).hold then
      (s.unwant tk).modThr tk fun t => { t with hold := false, pc := t.pc - 8, nw := t.nw - 1 }
    else s
  let s := s.dropMember tk
  if (g.hpc + BitVec.ofNat 64 (8 * g.words.length)).toNat < (s.thr tk).pc.toNat then
    (s.leaveClause tk g).modThr tk fun t => { t with park := t.park || g.why == .pend }
  else s.modThr tk fun t => { t.endRun with mid := true, cut := true, park := t.park || g.why == .pend }

/-! ### When the context may be saved (R386, steps 2 and 4) -/

/-- The thread waits in a queue operation. -/
def Thread.inQueue (t : Thread) : Bool := t.pend.any fun q => match q.k with | .qpush .. | .qpop .. => true | _ => false

/-- The thread stands where pre-emption may strike: at a boundary that its header allows, also where a pair's copy has read the header
and may not go past it yet, in a queue operation that ended its clause, or where its wait was withdrawn (R54, R386). -/
def Thread.atBoundary (t : Thread) : Bool :=
  if t.mid then t.cut
  else if t.fresh then t.park || (t.inQueue && !t.hdr.getLsbD 9) || (t.started && t.seen.any fun h => !h.getLsbD 9)
  else !t.hdr.getLsbD 9

def Thread.saveReady (t : Thread) : Bool :=
  !t.inGang && t.rst.isNone && t.sb.all (fun e => !e.begun) && t.c.ldc == (t.pend.filter fun q => q.k.inLdc).length
    && (t.pend.all fun q => q.k.isWait || match q.k with | .launch _ => true | _ => false) && (t.st != .live || t.atBoundary)

/-- Threads of a context on a die that hold a slot. -/
def State.dieThreads (s : State) (dk c : Nat) : List (Nat × Thread) :=
  s.threads.filter fun e => decide (e.1 < slotKeys) && e.2.ctx == c && e.2.st != .free && dkOf (ckOf e.1) == dk

/-! ### Saving a thread (R386, step 5; R387; R408) -/

/-- The waits that stay with a saved thread leave their counters and queues. -/
def State.suspend (s : State) (tk : Nat) : State :=
  ((s.thr tk).pend.filter fun q => q.k.isWait).foldl (fun s q =>
    let s := s.modThr tk fun t => { t with c := t.c.drop (if q.k.inLdc then 1 else 0) 0 (if q.k.remote then 1 else 0) }
    match q.k with
    | .rdfe r => let x := s.shReg tk r; s.setShReg tk r { x with rq := x.rq.filter fun e => e != (tk, q.u) }
    | .wrfe r _ => let x := s.shReg tk r; s.setShReg tk r { x with wq := x.wq.filter fun e => e != (tk, q.u) }
    | _ => s) s

/-- The thread goes back to a sketch, with nothing of the abandoned attempt in flight. -/
def State.backTo (s : State) (tk : Nat) (k : Sketch) : State :=
  ((s.modThr tk fun t =>
      { t.endRun.withdraw k.nw with ends := [], jump := none, late := t.late.filter fun l => !l.load || decide (l.nw < k.nw) }).finishRestart tk k)

/-- Both copies of a pair go back to the trailing copy's region head, without a record (R408). -/
def State.pairSave (s : State) (l t : Nat) : State :=
  let k := (s.thr t).sketch
  if !(s.thr t).started then s
  else
    let back (s : State) (tk : Nat) : State :=
      (s.modThr tk fun x =>
          let old := match x.pair with | some p => p.hist.flatMap (·.2) | none => []
          { x with sketch := k, cmds := old ++ x.cmds,
                   pair := x.pair.map fun p => { p with inq := [], hist := [], sig := [], closed := false, opened := true,
                                                        shw := [], more := none, ended := p.matched, fault := none } }).backTo tk k
    back (back s l) t

/-- A thread leaves its slot, with its state. Its arrival at a GWAIT stays with its group (log 83). -/
def State.saveThread (s : State) (tk : Nat) (resident : Bool) : State :=
  let s := s.modThr tk Thread.bank
  let t := s.thr tk
  let s := if t.pair.isNone && t.started && !resident then s.backTo tk t.sketch else s
  let s := s.suspend tk
  let s := if (s.thr tk).xwant then (s.unwant tk).modThr tk fun t => { t with xback := true } else s
  let s := if (s.thr tk).xblk ∧ !resident then
      (s.modThr tk fun t => { t with xblk := false, xback := true }).modCore (ckOf tk) fun c => { c with pool := c.pool + 1 }
    else s
  let t := s.thr tk
  let s := (s.setThr tk { t with st := .saved, back := t.st, orph := [] }).rekey tk (savedKey tk t.ctx)
  if t.orph.isEmpty then s else s.setThr tk { orph := t.orph }

/-- The copy engine and the sequencers stop, and what they have not handed over is latched (R312, R366). -/
def State.stopEngines (s : State) (dk c : Nat) : State :=
  let late (ck i : Nat) : Bool := (s.die dk).trigs.any fun t => t.ck == ck && t.tile == i && t.cmd.ctx == c && !t.sent
  let s := (s.cores.filter fun e => dkOf e.1 == dk).foldl (fun s e =>
    let s := (e.2.copyq.filter fun q => q.ctx == c).foldl (fun s q => s.stopCopy e.1 q) s
    (e.2.matq.filter fun q => q.ctx == c).foldl (fun s q => s.stopRow e.1 q) s) s
  let cores : Tab Core := s.cores.map fun e =>
    if dkOf e.1 = dk then
      (e.1, { e.2 with tiles := e.2.tiles.map fun t => (t.1, if late e.1 t.1 then { t.2 with latched := true } else t.2) })
    else e
  let s : State := { s with cores := cores }
  -- what is kept of the context goes to its save area in every vault of the die, in a layout of the package's own (R282, R384; log 72)
  let x := s.ctx (pkgOfDie dk) c
  let s := (List.range 24).foldl (fun s v => s.spill (vaultLoc dk v x.saveoff) x.saveLen) s
  s.modDie dk fun d => { d with trigs := d.trigs.map fun t => if t.cmd.ctx = c ∧ !t.sent then { t with late := true } else t }

/-- Every sequencer of a die stands at an interruptible boundary of the context's command, or of a row whose writes can be sent off
(R311, R312). -/
def State.seqReady (s : State) (dk c : Nat) : Bool :=
  (s.cores.filter fun e => dkOf e.1 == dk).all fun e => (e.2.matq.filter fun q => q.ctx == c).all fun q =>
    q.atStep || match q.k with | .mepi w .. => (epiIm w).glob | _ => false

/-- One look at a pre-emption under way: withdrawn waits end, and once every thread may be saved the sequencers come to their next
boundary and the context leaves the die. -/
def State.preemptDie (s : State) (p c d : Nat) : State :=
  let dk := dieKey p d
  let s := (s.dieThreads dk c).foldl (fun s e =>
    match s.waitingGang e.1 with
    | some g => if e.2.cutAt g then s.cutThread e.1 g else s
    | none => s) s
  let ts := s.dieThreads dk c
  if !(ts.all fun e => e.2.saveReady) then s
  else if !s.seqReady dk c then s.modCtx p c fun x => { x with halt := d :: x.halt.filter (· != d) }
  else
    let resident := (s.ctx p c).attr.getLsbD 5
    let s := ts.foldl (fun s e => match e.2.pair with | some q => if q.trail then s else s.pairSave e.1 q.partner | none => s) s
    let s := ts.foldl (fun s e => s.saveThread e.1 resident) s
    let s := (ts.map fun e => ckOf e.1).eraseDups.foldl (fun s ck => s.poolCheck ck) s
    (s.stopEngines dk c).modCtx p c fun x => { x with st := Tab.put x.st d 3, halt := x.halt.filter (· != d) }

/-- Looks at every pre-emption under way. -/
def State.preemptCheck (s : State) : State :=
  s.ctxs.foldl (fun s e =>
    e.2.st.foldl (fun s x => if x.2 = 2 then s.preemptDie (e.1 / 64) (e.1 % 64) x.1 else s) s) s

/-! ### Operations that wait (R386, R395) -/

/-- An access has performed, whichever thread or slot holds it by now: names are unique. -/
def State.accessDone (s : State) (x : Nat × Nat) : Bool :=
  s.threads.all fun e => !((e.2.pend ++ e.2.orph).any fun q => q.u == x.2) && !(e.2.entries.any fun q => q.u == x.2)

/-- A held system operation has completed. -/
def State.opReady (s : State) (tk : Nat) (w : OpW) : Bool :=
  match w with
  | .preempt c m =>
    match s.ctx? (pkgOfThr tk) c with
    | none => true
    | some x => (List.range 4).all fun d => !m.getLsbD d || Tab.getOr x.st d 0 != 2
  | .tlb l => l.all fun a => s.accessDone a
  | .test .. => false

def State.opCheck (s : State) (tk : Nat) : State :=
  match (s.thr tk).opW with
  | some w => if s.opReady tk w then s.sysDone tk 0 else s
  | none => s

end Sys2Proof.Machine
end

