-- ==== Sys2Proof/Machine/Reliability.lean ====
section
/-! DEFINITION. Evictions (R336, R415), request timers (R343), scrubs (R412), spare channels (R418), self-tests (R419), the end of
a region of a pair (R406), and the package's power and heat (R428, R429). -/

namespace Sys2Proof.Machine

/-! ### Evictions -/

/-- The unit of a package's cache that holds a line: a core whose L1 does, else the package (R377, R415). -/
def State.cacheUnit (s : State) (p line : Nat) : Nat :=
  match s.cores.find? fun e => pkgOfCore e.1 == p && e.2.l1.any fun x => x.line == line with
  | some (ck, _) => unitId 0 p (dieIx (dkOf ck)) (s.phys ck) 0
  | none => unitId 8 p 0 0 0

/-- The agent gives a line up; a line found uncorrectable as it leaves is dropped clean, or put poisoned (R336, R415). -/
def State.evictAgent (s : State) (p line : Nat) (ecc : Upset) : State :=
  let a := s.aline p line
  let unit := s.cacheUnit p line
  let dirty := a.st == .M || a.st == .O
  if !(a.put.isNone && a.flushing.isNone && a.req.isNone && a.unver.isNone) then s
  else if ecc = .lost && dirty then
    let s := (s.setALine p line { a with psn := true }).errRecord p 2 0x09 unit 0 (line * 128) []
    s.evictLine p line 8
  else
    let s := if ecc = .fixed || (ecc = .lost && (a.st == .S || a.st == .E)) then s.errRecord p 1 0x04 unit 0 (line * 128) [line % 16384] else s
    s.evictLine p line (if a.psn then 8 else 0)

/-- A line leaves its home's cache, or an error of it is corrected there (R414, R415). -/
def State.evictHome (s : State) (p line : Nat) (ecc : Upset) : State :=
  match (s.pkg p).hcache.find? fun x => x.1 == line with
  | none => s
  | some (_, dirty) =>
    let unit := unitId 8 p (dieOfLine line) 0 0
    let out := s.modPkg p fun k => { k with hcache := k.hcache.filter fun x => x.1 != line }
    match ecc with
    | .none => out
    | .fixed => s.errRecord p 1 0x05 unit 0 (line * 128) [line % 2 ^ 19]
    | .lost =>
      if dirty then (out.errRecord p 2 0x09 unit 0 (line * 128) []).homeSpoil line
      else out.errRecord p 1 0x05 unit 0 (line * 128) [line % 2 ^ 19]

/-- An entry leaves a directory cache, unless it is pinned or busy; an entry that cannot be read leaves its line poisoned, and every
copy ends (R335, R414). -/
def State.evictDir (s : State) (p line : Nat) (ecc : Upset) : State :=
  if !(s.pkg p).dcache.contains line then s
  else
    let d := s.dir line
    match ecc with
    | .none => if d.tx.isSome || d.st == .update then s else s.dirLeave line
    | .fixed => s.errRecord p 1 0x06 (unitId 8 p (dieOfLine line) 0 0) 0 (line * 128) [line % dirMin]
    | .lost =>
      let s := s.errRecord p 2 0x06 (unitId 8 p (dieOfLine line) 0 0) 0 (line * 128) [line % dirMin]
      if d.tx.isSome then s.modDir line fun d => { d with psn := true } else s.openTx line .wipe true

/-- CACHE_EVICTION: a line leaves one of a package's caches; `ecc` is an error that it shows as it leaves. -/
def execCacheEviction (pkg line : Nat) (cache : CacheK) (ecc : Upset) (s : State) : Out :=
  .next <|
    match cache with
    | .agent => s.evictAgent pkg line ecc
    | .home => if lineHome line = pkg then s.evictHome pkg line ecc else s
    | .dir => if lineHome line = pkg then s.evictDir pkg line ecc else s

/-! ### Request timers (R343) -/

/-- The command of a package's engines that has a name. -/
def State.cmdNamed (s : State) (p u : Nat) : Option Cmd :=
  ((s.cores.filter fun e => pkgOfCore e.1 == p).flatMap (fun e => e.2.copyq ++ e.2.matq)
    ++ (s.dies.filter fun e => pkgOfDie e.1 == p).flatMap fun e =>
      e.2.collq ++ e.2.binds.map (·.cmd) ++ e.2.ops.map (·.cmd) ++ e.2.puts).find? fun c => c.u == u

/-- The line whose request an access has out. -/
def State.lineOfName (s : State) (p u : Nat) : Option Nat :=
  ((s.pkg p).lines.find? fun e => e.2.req == some u || e.2.flushing == some u || (e.2.put.isSome && e.2.putBy == some u)).map (·.1)

/-- Of an access or a command: its context, the cycle its oldest timer started, and the line it waits for. -/
def State.timerOf (s : State) (p u : Nat) : Option (Nat × Nat × Option Nat) :=
  match s.accessOf p u with
  | some (_, t) =>
    let a := ((t.pend ++ t.orph).find? fun q => q.u == u).bind fun q => q.k.acc?.bind fun a => a.since
    (a <|> (t.entry u).bind fun e => e.since).map fun n => (t.ctx, n, s.lineOfName p u)
  | none =>
    (s.cores.findSome? fun e =>
      if pkgOfCore e.1 ≠ p then none
      else (e.2.sent.find? fun x => x.u == u).bind fun x =>
        x.since.map fun n => (x.cmd.ctx, n, (s.paOf x.xl x.va true).map lineOf)) <|>
    (s.cmdNamed p u).bind fun c =>
      (c.asks.foldl (fun (m : Option (Nat × Nat)) x =>
        match m, x.2.2 with
        | none, some n => some (n, x.1)
        | some y, some n => if n < y.1 then some (n, x.1) else some y
        | m, none => m) none).map fun x => (c.ctx, x.1, some x.2)

/-- REQUEST_TIMEOUT: the access never performs; the answer, when it comes, still ends the exchange. -/
def execRequestTimeout (pkg u : Nat) (s : State) : Out :=
  .next <|
    match s.timerOf pkg u with
    | none => s
    | some (c, since, line) =>
      if s.clock < since + (s.ctx pkg c).timer then s
      else
        match line with
        | some line => (s.modPkg pkg fun k => { k with timedOut := k.timedOut ++ [u] }).failName pkg u 0x0B line
        | none => s.failName pkg u 0x0B 0

/-! ### Memory (R412, R418) -/

/-- MEMORY_SCRUB: the controller reads a line in which `err` has come to be wrong. A busy line is read when it is next served. -/
def execMemoryScrub (line : Nat) (err : BitVec 1088) (s : State) : Out :=
  .next <|
    let h := lineHome line
    if 16 ≤ h || !(s.pkg h).booted || !backed (line * 128 % 2 ^ 48) || isAperture (line * 128) then s
    else
      let d := s.dir line
      if d.psn then s
      else
        -- with the check line cached, the word of it is the cache's, which corrects one wrong bit itself
        let held := s.chkHeld line
        let e := d.err ^^^ (if held then dataErr err else err)
        let s := s.setDir line { d with err := e }
        let s := if held && decide (1 < wrongBits (chkErr err)) then s.chkRecompute line else s
        if d.tx.isSome || (s.dir line).err = 0 then s
        else if s.correctable line then s.correctLine line
        else s.repairLine line none ((s.pkg h).dcache.contains line)

/-- Corrected events of a channel over its 32 banks. -/
def State.chanFixed (s : State) (p chan : Nat) : Nat := ((List.range 32).map fun b => (s.bank p (chan * 32 + b)).fixed).sum

/-- CHANNEL_SPARED: the copy of a channel that has reached its threshold onto a spare of its stack is complete; controllers are
counted over the package, and eight of them share a stack. -/
def execChannelSpared (pkg mc ch : Nat) (s : State) : Out :=
  .next <|
    let chan := mc * 16 + ch
    let k := s.pkg pkg
    let used := (k.spared.filter fun e => e.1 / 128 == chan / 128).map (·.2)
    let thr := field (s.memThr pkg mc).toNat 47 32
    match (List.range 8).find? fun n => !used.contains n with
    | none => s
    | some n =>
      if 96 ≤ mc ∨ 16 ≤ ch ∨ (Tab.look k.spared chan).isSome ∨ s.chanFixed pkg chan < thr then s
      else
        (s.setPkg pkg { k with spared := Tab.put k.spared chan n }).errRecord pkg 4 0x17
          (unitId 7 pkg (mc / 24) (mc % 24) (ch * 256)) 0 0 [0, 0, n]

/-! ### Self-tests (R397, R419) -/

/-- SELFTEST_RESULT: the test named `j` ends. `detail` gives the failing chain, array and address. -/
def execSelftestResult (pkg j : Nat) (scanFail arrayFail : Bool) (detail : BitVec 64) (s : State) : Out :=
  .next <|
    match (s.pkg pkg).tests.find? fun t => t.1 == j with
    | none => s
    | some (_, die, phys, sel) =>
      let dk := dieKey pkg die
      let sf := scanFail && sel % 2 == 1
      let af := arrayFail && sel / 2 % 2 == 1
      let fails := sf || af
      let word := (if sf then 1 else 0) + (if af then 2 else 0)
        + (if fails then field detail.toNat 63 8 * 256 else 0)
      let s := s.modPkg pkg fun k => { k with tests := k.tests.filter fun t => t.1 != j }
      let s := s.modDie dk fun d =>
        { d with testing := d.testing.filter (· != phys),
                 failed := if fails then phys :: d.failed.filter (· != phys) else d.failed.filter (· != phys),
                 fencedAt := if fails then d.fencedAt else Tab.cut (Tab.cut d.fencedAt (2 * phys)) (2 * phys + 1) }
      let s := s.errRecord pkg 5 0x11 (unitId 0 pkg die phys 0) 0 0 [word]
      match s.threads.find? fun e => e.2.opW == some (OpW.test dk phys) with
      | some (tk, _) => s.sysDone tk (if fails then 1 else 0)
      | none => s

/-! ### The end of a region of a tandem pair (R314, R406) -/

/-- The commands of both copies of a pair in a region. -/
def State.regionCmds (s : State) (l t : Nat) (region : BitVec 16) : List Cmd :=
  let mine (c : Cmd) : Bool := c.copy != 0 && (c.tk == l || c.tk == t) && c.region == region
  (s.core (ckOf l)).copyq.filter mine ++ (s.core (ckOf l)).matq.filter mine
    ++ (s.core (ckOf t)).copyq.filter mine ++ (s.core (ckOf t)).matq.filter mine

/-- Commands that wait for stores of the region take part in the next one. -/
def State.laterRegion (s : State) (l t : Nat) (region : BitVec 16) : State :=
  let f (c : Cmd) : Cmd := if (c.tk == l || c.tk == t) && c.region == region then { c with region := region + 1 } else c
  let on (s : State) (ck : Nat) : State := s.modCore ck fun x => { x with copyq := x.copyq.map f, matq := x.matq.map f }
  let s := if (s.regionCmds l t region).isEmpty then s
    else [l, t].foldl (fun s k => s.modPair k fun p => { p with more := some (region + 1) }) s
  on (on s (ckOf l)) (ckOf t)

/-- REGION_COMPARE: both copies have ended their region, or one of them has raised a fault that the other has passed by. -/
def execRegionCompare (tk : Nat) (s : State) : Out :=
  .next <|
    match (s.thr tk).pair with
    | none => s
    | some pt =>
      match (s.thr pt.partner).pair with
      | none => s
      | some pl =>
        let region := (s.thr tk).region
        if !pt.trail then s
        else if s.faultsAlone tk || s.faultsAlone pt.partner then
          s.pairMismatch pt.partner tk (regionSig pl.sig region) (regionSig pt.sig region)
        else if pt.ended ≤ pt.matched || pl.ended ≤ pl.matched then s
        else if (s.regionCmds pt.partner tk region).any fun c => !s.relBlocked c then s
        else (s.laterRegion pt.partner tk region).pairCompare tk

/-! ### Power and heat (R428, R429) -/

/-- Samples of the power in a millisecond, one every 10 µs. -/
def powerSamples : Nat := 100

/-- The average of the samples of the last millisecond is above 2.4 kW. -/
def powerAbove (l : List Nat) : Bool := decide (powerSamples * 2400000 < l.sum)

/-- POWER_SAMPLE: while the average over 1 ms is above 2.4 kW the package delays slab steps, and from the next sample on picks as well;
programs see time alone (log 92). -/
def execPowerSample (pkg mW : Nat) (s : State) : Out :=
  .next <| s.modPkg pkg fun k =>
    let l := (mW :: k.power).take powerSamples
    { k with power := l, clamp := if powerAbove l then min 2 (k.clamp + 1) else 0 }

/-- THERMAL_THROTTLE: a sensor above 105 °C, in tenths of a degree; the clock halves. -/
def execThermalThrottle (dk tenths : Nat) (s : State) : Out :=
  .next (if 1050 < tenths then s.modDie dk fun d => { d with halved := true } else s)

/-- THERMAL_RECOVER: every sensor of the package reads below 95 °C; the hottest reads `tenths`. -/
def execThermalRecover (dk tenths : Nat) (s : State) : Out :=
  .next <|
    if tenths < 950 then
      (List.range 4).foldl (fun s i => s.modDie (dieKey (pkgOfDie dk) i) fun d => { d with halved := false }) s
    else s

end Sys2Proof.Machine
end

