-- ==== Sys2Proof/Machine/Management.lean ====
section
/-! DEFINITION. The host: RDMA into the host window (R11 to R15), the package control page (R16 to R18, R423, R426), and what the
management controller does: bring-up and package reset (R421, R422, R429), attestation (R423), and host-signed commands (R424 to
R427). -/

namespace Sys2Proof.Machine

/-! ### Package reset and bring-up (R421, R422) -/

/-- The type of a configuration record. -/
def RecBody.ty : RecBody → Nat
  | .root .. => 1 | .identity .. => 2 | .fabric .. => 3 | .host .. => 4 | .firewall _ => 5 | .memory _ => 6

/-- The record of a type. -/
def Conf.rec? (c : Conf) (ty : Nat) : Option CfgRec := c.recs.find? fun r => r.body.ty == ty

/-- The owner's public key and the host command public key, which the root record holds. -/
def Conf.keys (c : Conf) : Option (List Byte × List Byte) :=
  match (c.rec? 1).map CfgRec.body with
  | some (.root owner command) => some (owner, command)
  | _ => none

/-- Version of the last accepted record of a type, 0 where none has been accepted. -/
def Pkg.version (k : Pkg) (ty : Nat) : BitVec 64 := k.versions.toList[ty - 1]?.getD 0

/-- The records of types 1 to 6, in type order. -/
def Conf.inOrder (c : Conf) : List CfgRec := (List.range 6).filterMap fun i => c.rec? (i + 1)

/-- The cell that the identity record gives a package; its own number where there is none (R422; log 51). -/
def Conf.cellOr (c : Conf) (p : Nat) : Nat :=
  match (c.rec? 2).map CfgRec.body with | some (.identity _ cell) => cell | _ => p

/-- Every other package forgets the message numbers it had with a package that restarts (log 52). -/
def State.forget (s : State) (p : Nat) : State :=
  { s with pkgs := s.pkgs.map fun e =>
      (e.1, { e.2 with mnum := e.2.mnum.filter fun x => x.1 / 4 != p, seen := e.2.seen.filter fun x => x.1 / 4 != p }) }

/-- A reset takes a package's whole state, but for flash, records and the bytes of its memory (log 53); its links go down. -/
def State.clearPackage (s : State) (p : Nat) : State :=
  let s := (List.range 16).foldl (fun s k => if (s.port p k).up then s.linkDown p k else s) s
  let k := s.pkg p
  let s : State := { s with
    threads := s.threads.filter fun e => pkgOfThr e.1 != p
    cores := s.cores.filter fun e => pkgOfCore e.1 != p
    dies := s.dies.filter fun e => pkgOfDie e.1 != p
    ctxs := s.ctxs.filter fun e => e.1 / 64 != p
    launches := s.launches.filter fun e => e.2.pkg != p
    dirs := s.dirs.filter fun e => lineHome e.1 != p
    net := s.net.filter fun m => m.dst != p && (m.src != p || m.st == .arrived)
    turn := s.turn.filter fun x => pkgOfCore x.1 != p
    iss := match s.iss with | some i => if pkgOfCore i.ck = p then none else some i | none => none }
  (s.forget p).setPkg p { conf := k.conf, qps := k.qps, present := true, counter := k.counter, versions := k.versions, t0 := s.clock,
                          answers := k.answers, cell := k.conf.cellOr p }

/-- The image verifies against the Rhavon key (step 2), and every record against the owner key of the root record, with a version that
is not below the last accepted one of its type (step 3, R422). -/
def Pkg.verified (k : Pkg) : Bool :=
  match k.conf.keys with
  | none => false
  | some (owner, _) =>
    k.conf.recs.all (fun r => k.version r.body.ty ≤ r.version)
      && Config.verify Config.rhavonKey (Config.sha3 k.conf.image) k.conf.imageSig
      && k.conf.recs.all fun r => Config.verify owner (Config.sha3 r.block) r.sig

/-- The largest host window, and what its place is a multiple of (R12). -/
def windowMax : Nat := 2 ^ 32
def windowStep : Nat := 65536

/-- The host window that a record names: within the package's memory, at a multiple of 64 KiB, of at most 4 GiB (R12; log 51). -/
def windowOf (base size : Nat) : Nat × Nat :=
  let b := base % 2 ^ 48 / windowStep * windowStep
  (b, min (min size windowMax) (memTop - b))

/-- The package as its accepted records make it (step 4). -/
def Pkg.load (k : Pkg) (p : Nat) : Pkg :=
  let c := k.conf
  let body (ty : Nat) : Option RecBody := (c.rec? ty).map CfgRec.body
  let k := { k with cell := c.cellOr p }
  let k := match body 3 with
    | some (.fabric ports relays) => { k with paths := Vector.ofFn fun q => { port := ports.get q, relays := relays.get q } }
    | _ => { k with paths := Vector.ofFn fun q => { port := q.val, relays := 0xFFFF } }
  let k := match body 4 with
    | some (.host base size) => { k with hostBase := (windowOf base size).1, hostSize := (windowOf base size).2 }
    | _ => k
  let k := match body 5 with | some (.firewall fw) => { k with fw := fw } | _ => k
  let k := match body 6 with | some (.memory detect) => { k with detect := detect } | _ => k
  { k with booted := true, versions := Vector.ofFn fun i => match c.rec? (i.val + 1) with | some r => r.version | none => k.version (i.val + 1) }

/-- The packages of the rack and a package that comes up count the time without each other, until a port between them comes up (R344). -/
def State.unreached (s : State) (p : Nat) : State :=
  (List.range 16).foldl (fun s q =>
    if q = p ∨ !(s.pkg q).present then s
    else
      let back := s.path q p
      let s := s.setPath p q { (s.path p q) with silent := some s.clock }
      if back.silent.isSome || back.lost then s else s.setPath q p { back with silent := some s.clock }) s

/-- What the accepted records load (steps 4 and 5); context 0 exists and the supervisor's thread is ready. Until a port comes up, the
package it faces is out of reach (R344). -/
def State.bringUp (s : State) (p : Nat) : State :=
  let c := (s.pkg p).conf
  let s := (s.modPkg p fun k => k.load p).unreached p
  (s.setCtx p 0 c.sup).setThr (thrKey (coreKey p 0 0) 0) (supervisorThread c.entry c.arg)

/-- PACKAGE_RESET: the package boots; where a check fails it opens the recovery window alone. -/
def State.resetPackage (s : State) (p : Nat) : State :=
  let s := s.clearPackage p
  if (s.pkg p).verified then s.bringUp p else s.modPkg p fun k => { k with recovery := true }

def execPackageReset (pkg : Nat) (s : State) : Out := .next (if pkg < 16 then s.resetPackage pkg else s)

/-- THERMAL_RESET: at 115 °C, a record of class 6 that names the package, and the reset (R429). -/
def execThermalReset (dk tenths : Nat) (s : State) : Out :=
  .next <|
    let p := pkgOfDie dk
    if tenths < 1150 ∨ 16 ≤ p then s
    else
      -- the record's source is open (log 75)
      let (w, s) := s.freeVal
      (s.errRecord p 6 (w.toNat % 256) (unitId 8 p 0 0 0) 0 0 []).resetPackage p

/-! ### Answers to the host (R11, R12, R427) -/

/-- Bit `i` of an address in network byte order. -/
def netBit (a : BitVec 128) (i : Nat) : Bool := a.getLsbD (8 * (i / 8) + (7 - i % 8))

/-- A filter entry admits a destination. -/
def Filt.admits (f : Filt) (d : QpDest) : Bool :=
  f.valid && f.v6 == d.v6 && (List.range f.len).all fun i => netBit f.addr i == netBit d.addr i

/-- A frame leaves by the queue pair's Ethernet port, or its filter drops it. When the package marks one for congestion is open
(R11; log 93). -/
def State.answer (s : State) (p qp kind : Nat) (bytes : List Byte) : State :=
  let (w, s) := s.freeVal
  s.modPkg p fun k =>
    let d := Tab.getOr k.qps qp {}
    if (List.range 16).any fun i => (Tab.getOr k.filters (16 * d.port + i) {}).admits d then
      { k with answers := ⟨qp, kind, bytes, w.getLsbD 0⟩ :: k.answers }
    else { k with ethDrop := Tab.put k.ethDrop d.port (satAdd32 (Tab.getOr k.ethDrop d.port 0)) }

/-! ### The control page (R16, R423, R426) -/

def pageSize : Nat := 0x10000
def reportBytes : Nat := 4867

/-- A byte of the control page as the host reads it. -/
def Pkg.pageByte (k : Pkg) (off : Nat) : Byte :=
  let of (v base : Nat) : Byte := BitVec.ofNat 8 (v / 256 ^ (off - base))
  if off < 0x20 then of 0xFFFF 0
  else if off < 0x40 then of k.featTake.toNat 0x20
  else if off < 0x48 then of (if k.featLock then 1 else 0) 0x40
  else if off < 0x80 then 0
  else if off < 0xA0 then of k.attNonce.toNat 0x80
  else if off < 0xA8 then of k.attDest.toNat 0xA0
  else if off < 0xB0 then of (2 * k.attStatus) 0xA8
  else if off < 0xC0 then 0
  else if off < 0xC8 then of k.cmdLen.toNat 0xC0
  else if off < 0xD0 then of (2 * k.cmdStatus) 0xC8
  else if 0x1000 ≤ off ∧ off < 0x4000 then Tab.getOr k.cmdBuf (off - 0x1000) 0
  else 0

/-- Sets one byte of a register. -/
def putByte {w : Nat} (v : BitVec w) (i : Nat) (b : Byte) : BitVec w :=
  (v &&& ~~~(BitVec.ofNat w (255 * 256 ^ i))) ||| BitVec.ofNat w (b.toNat * 256 ^ i)

/-- Bytes of the command in CMD_BUF. -/
def Pkg.cmdBytes (k : Pkg) (off n : Nat) : List Byte := (List.range n).map fun i => Tab.getOr k.cmdBuf (off + i) 0
def Pkg.cmdField (k : Pkg) (off n : Nat) : Nat := ofLeBytes (k.cmdBytes off n)

/-- A request for a report (R423). -/
def Pkg.attRequest (k : Pkg) : Pkg :=
  if k.attStatus = 1 then k
  else if k.attDest.toNat % 64 ≠ 0 ∨ k.hostSize < k.attDest.toNat + reportBytes then { k with attStatus := 3 }
  else { k with attStatus := 1, attJob := (k.attDest, k.attNonce) }

/-- The host writes one byte of the page. A write to FEAT_TAKE takes only what FEAT_HAVE offers, and none after the lock. -/
def Pkg.setPageByte (k : Pkg) (off : Nat) (b : Byte) : Pkg :=
  if 0x20 ≤ off ∧ off < 0x40 then
    (if k.featLock then k else { k with featTake := putByte k.featTake (off - 0x20) b &&& 0xFFFF })
  else if off = 0x40 then (if b.getLsbD 0 then { k with featLock := true } else k)
  else if 0x80 ≤ off ∧ off < 0xA0 then { k with attNonce := putByte k.attNonce (off - 0x80) b }
  else if 0xA0 ≤ off ∧ off < 0xA8 then { k with attDest := putByte k.attDest (off - 0xA0) b }
  else if off = 0xA8 then (if b.getLsbD 0 then k.attRequest else k)
  else if 0xC0 ≤ off ∧ off < 0xC4 then { k with cmdLen := putByte k.cmdLen (off - 0xC0) b }
  else if off = 0xC8 then
    (if b.getLsbD 0 && k.cmdStatus != 1 then { k with cmdStatus := 1, cmdBase := Tab.getOr k.fw (k.cmdField 0x18 4) 0xFFFF } else k)
  else if 0x1000 ≤ off ∧ off < 0x4000 then { k with cmdBuf := Tab.put k.cmdBuf (off - 0x1000) b }
  else k

/-- The host writes bytes of the page, in rising order. -/
def State.pageWrite (s : State) (p off : Nat) (data : List Byte) : State :=
  s.modPkg p fun k => (data.zipIdx).foldl (fun k x => k.setPageByte (off + x.2) x.1) k

/-! ### The host window (R12, R13) -/

/-- The rack physical address of an offset in the window. -/
def State.windowPa (s : State) (p off : Nat) : Nat := p * 2 ^ 48 + (s.pkg p).hostBase + off

/-- A line of the window as a host access finds it: ready, poisoned, or in recovery, which it waits for (R412). -/
inductive HostLine where
  | ready (s : State)
  | poisoned (s : State)
  | busy (s : State)

/-- The line is marked poisoned: at its home, or in the caches of the package that owns it, whose value an access takes (R12, R339). -/
def State.hostPoison (s : State) (p line : Nat) : Bool :=
  (s.dir line).psn || (s.aline p line).psn || (List.range 16).any fun q =>
    let a := s.aline q line
    a.psn && (a.holds == .M || a.holds == .O || a.holds == .E)

def State.hostLine (s : State) (p pa : Nat) : HostLine :=
  let line := lineOf pa
  let d := s.dir line
  if s.hostPoison p line then .poisoned s
  else if d.err = 0 then .ready (s.settle line)
  else if s.correctable line then .ready ((s.correctLine line).settle line)
  else if d.tx.isSome then .busy s
  else
    let s := s.repairLine line none ((s.pkg (lineHome line)).dcache.contains line)
    if (s.dir line).tx.isSome then .busy s else if (s.dir line).psn then .poisoned s else .ready s

/-- Lines of a range of offsets that lie outside the control page. -/
def windowLines (off n : Nat) : List (Nat × Nat) := (lineCuts off n).filter fun c => decide (pageSize ≤ c.1)

/-- Makes the lines of a range ready: the state, and the offsets of those that are poisoned; none while one is in recovery. -/
def State.readyLines (s : State) (p : Nat) : List (Nat × Nat) → Option (State × List Nat) × State
  | [] => (some (s, []), s)
  | c :: rest =>
    match s.hostLine p (s.windowPa p c.1) with
    | .busy s => (none, s)
    | .ready s => s.readyLines p rest
    | .poisoned s =>
      match s.readyLines p rest with
      | (some (t, l), s) => (some (t, c.1 :: l), s)
      | r => r

/-- What the host may do with a package: nothing, the recovery window through Ethernet port 0, or the host window (R421). -/
def State.hostOpen (s : State) (p qp : Nat) : Bool :=
  let k := s.pkg p
  decide (p < 16) && decide (qp < 4096) && (k.booted || (k.recovery && (Tab.getOr k.qps qp {}).port == 0))

def nakInvalid : Nat := 3
def nakAccess : Nat := 4
def nakOperational : Nat := 5

/-- Bytes of the recovery window of a package that has not booted (R421). -/
def recoverySize : Nat := 2 ^ 26
def recoveryLoc (p off : Nat) : Nat := 2 ^ 53 + p * recoverySize + off

/-- A congestion notification packet (R11). -/
def answerCnp : Nat := 6

/-- An earlier operation of the queue pair waits, and an operation comes behind it (R13). -/
def State.hostBehind (s : State) (p qp : Nat) : Bool := (s.pkg p).hostq.any fun x => x.1 == qp
def State.hostWait (s : State) (p qp : Nat) (op : HostOp) : State := s.modPkg p fun k => { k with hostq := k.hostq ++ [(qp, op)] }

/-- RDMA WRITE: all bytes perform as one release-consistent access; a poisoned line keeps its bytes. -/
def State.hostWrite (s : State) (p qp off : Nat) (data : List Byte) : State :=
  let k := s.pkg p
  let n := data.length
  if k.recovery then
    (if recoverySize < off + n then s.answer p qp nakAccess [] else (s.writeBytes (recoveryLoc p off) data).answer p qp 0 [])
  else if k.hostSize < off + n then s.answer p qp nakAccess []
  else
    match s.readyLines p (windowLines off n) with
    | (none, s) => s.hostWait p qp (.write off data)
    | (some (s, bad), _) =>
      let s := if off < pageSize then s.pageWrite p off (data.take (pageSize - off)) else s
      let s := (windowLines off n).foldl (fun s c =>
        if bad.contains c.1 then s else s.writeBytes (s.windowPa p c.1) ((data.drop (c.1 - off)).take c.2)) s
      s.answer p qp (if bad.isEmpty then 0 else nakOperational) []

/-- The payload of a response packet of a queue pair: its path MTU, of at most 4,096 bytes (R11). -/
def QpDest.pathMtu (d : QpDest) : Nat := min 4096 d.mtu

/-- A byte of the window: of the control page, or of memory. -/
def State.windowByte (s : State) (p off : Nat) : Byte :=
  if off < pageSize then (s.pkg p).pageByte off else s.byte (s.windowPa p off)

/-- The response packets of a read, each a frame of the path MTU at most (R11, R427). -/
def State.answerRead (s : State) (p qp : Nat) (data : List Byte) : State :=
  let mtu := max 1 (Tab.getOr (s.pkg p).qps qp {}).pathMtu
  (List.range (max 1 ((data.length + mtu - 1) / mtu))).foldl (fun s i => s.answer p qp 1 ((data.drop (mtu * i)).take mtu)) s

/-- RDMA READ: the response packets, up to the one that would hold a poisoned byte. -/
def State.hostRead (s : State) (p qp off len : Nat) : State :=
  let k := s.pkg p
  if k.recovery then s.answer p qp nakInvalid []
  else if k.hostSize < off + len then s.answer p qp nakAccess []
  else
    match s.readyLines p (windowLines off len) with
    | (none, s) => s.hostWait p qp (.read off len)
    | (some (s, bad), _) =>
      let data := (List.range len).map fun i => s.windowByte p (off + i)
      match bad with
      | [] => s.answerRead p qp data
      | b :: _ =>
        let mtu := max 1 (Tab.getOr k.qps qp {}).pathMtu
        let whole := (b - off) / mtu * mtu
        let s := if whole = 0 then s else s.answerRead p qp (data.take whole)
        s.answer p qp nakOperational []

/-- An atomic on 8 bytes of the window (R12, R13): the old value goes back. -/
def State.hostAtomic (s : State) (p qp off : Nat) (op : HostOp) (f : Word → Word) : State :=
  if (s.pkg p).recovery || off % 8 != 0 then s.answer p qp nakInvalid []
  else if (s.pkg p).hostSize < off + 8 ∨ off < pageSize then s.answer p qp nakAccess []
  else
    let pa := s.windowPa p off
    match s.hostLine p pa with
    | .busy s => s.hostWait p qp op
    | .poisoned s => s.answer p qp nakOperational []
    | .ready s =>
      let old : Word := BitVec.ofNat 64 (s.read pa 8)
      (s.write pa 8 (f old).toNat).answer p qp 2 (leBytes 8 old.toNat)

/-- A write to registers of the control page. -/
def State.pageWriteOp (s : State) (p qp off : Nat) (data : List Byte) : State :=
  if (s.pkg p).recovery then s.answer p qp nakAccess []
  else if min pageSize (s.pkg p).hostSize < off + data.length then s.answer p qp nakAccess []
  else (s.pageWrite p off data).answer p qp 0 []

/-- What an RDMA operation does when its turn has come. -/
def State.hostDo (s : State) (p qp : Nat) (op : HostOp) : State :=
  match op with
  | .write off data => s.hostWrite p qp off data
  | .read off len => s.hostRead p qp off len
  | .compareSwap off cmp swp => s.hostAtomic p qp off op fun old => if old = cmp then swp else old
  | .fetchAdd off add => s.hostAtomic p qp off op fun old => old + add
  | .invalid => s.answer p qp nakInvalid []
  | .page off data => s.pageWriteOp p qp off data

/-- An RDMA operation takes its turn on its queue pair (R13). `ce` says that its frame came marked for congestion, which a
notification packet answers (R11). -/
def State.hostTurn (s : State) (p qp : Nat) (ce : Bool) (op : HostOp) : State :=
  if !s.hostOpen p qp then s
  else
    let s := if ce then s.answer p qp answerCnp [] else s
    if s.hostBehind p qp then s.hostWait p qp op else s.hostDo p qp op

/-- RDMA_WRITE. -/
def execRdmaWrite (pkg qp off : Nat) (data : List Byte) (ce : Bool) (s : State) : Out := .next (s.hostTurn pkg qp ce (.write off data))

/-- RDMA_READ. -/
def execRdmaRead (pkg qp off len : Nat) (ce : Bool) (s : State) : Out := .next (s.hostTurn pkg qp ce (.read off len))

/-- COMPARE_SWAP. -/
def execCompareSwap (pkg qp off : Nat) (cmp swp : BitVec 64) (ce : Bool) (s : State) : Out :=
  .next (s.hostTurn pkg qp ce (.compareSwap off cmp swp))

/-- FETCH_ADD. -/
def execFetchAdd (pkg qp off : Nat) (add : BitVec 64) (ce : Bool) (s : State) : Out := .next (s.hostTurn pkg qp ce (.fetchAdd off add))

/-- INVALID_REQUEST: an operation that the package does not support. -/
def execInvalidRequest (pkg qp : Nat) (ce : Bool) (s : State) : Out := .next (s.hostTurn pkg qp ce .invalid)

/-- FEAT_TAKE_WRITE: bytes of FEAT_TAKE from byte `off` of the register on. -/
def execFeatTakeWrite (pkg : Nat) (qp : QpFrame) (off : Nat) (data : List Byte) (s : State) : Out :=
  .next (s.hostTurn pkg qp.qp qp.ce (if off + data.length ≤ 32 then .page (0x20 + off) data else .page pageSize [0]))

/-- FEAT_LOCK_WRITE. -/
def execFeatLockWrite (pkg : Nat) (qp : QpFrame) (v : BitVec 64) (s : State) : Out :=
  .next (s.hostTurn pkg qp.qp qp.ce (.page 0x40 (leBytes 8 v.toNat)))

/-- ATT_GO. -/
def execAttGo (pkg : Nat) (qp : QpFrame) (v : BitVec 64) (s : State) : Out := .next (s.hostTurn pkg qp.qp qp.ce (.page 0xA8 (leBytes 8 v.toNat)))

/-- CONTROL_PAGE_WRITE. -/
def execControlPageWrite (pkg : Nat) (qp : QpFrame) (off : Nat) (data : List Byte) (s : State) : Out :=
  .next (s.hostTurn pkg qp.qp qp.ce (.page off data))

/-- The package issues an RDMA operation of its own, which the port's filter admits or drops like any frame (R427). -/
def execHostSend (p qp : Nat) (bytes : List Byte) (s : State) : Out :=
  .next (if (s.pkg p).booted && decide (qp < 4096) then s.answer p qp 7 bytes else s)

/-! ### Attestation (R423) -/

/-- The digests of the firmware image and of the accepted records. -/
def Conf.digests (c : Conf) : List Byte :=
  leBytes 64 (Config.sha3 c.image).toNat ++ leBytes 64 (Config.sha3 (c.inOrder.flatMap (·.block))).toNat

/-- Bytes 0x000 to 0x0EF of the report: digests, FEAT_HAVE, versions and nonce. -/
def Pkg.reportHead (k : Pkg) : List Byte :=
  k.conf.digests ++ leBytes 32 0xFFFF ++ (k.versions.toList.flatMap fun v => leBytes 8 v.toNat) ++ leBytes 32 k.attJob.2.toNat

/-- The whole report, signed over the digest of its head. -/
def Pkg.report (k : Pkg) (p : Nat) : List Byte := k.reportHead ++ leBytes 4627 (Config.sign p (Config.sha3 k.reportHead)).toNat

/-- ATTESTATION_REPORT: the report stands in the host window, and ATT_STATUS is 2. -/
def execAttestationReport (pkg : Nat) (s : State) : Out :=
  .next <|
    let k := s.pkg pkg
    if k.attStatus ≠ 1 then s
    else
      let s := (k.report pkg).zipIdx.foldl (fun s x =>
        let off := k.attJob.1.toNat + x.2
        if off < pageSize then s
        else
          let pa := s.windowPa pkg off
          (if pa % 128 = 0 then s.settle (lineOf pa) else s).write pa 1 x.1.toNat) (s.settle (lineOf (s.windowPa pkg k.attJob.1.toNat)))
      s.modPkg pkg fun k => { k with attStatus := 2 }

/-! ### Host-signed commands (R424 to R427) -/

def signatureBytes : Nat := 4627

/-- The body's length by TYPE. -/
def cmdBlen (ty : Nat) : Option Nat := if ty = 1 then some 8 else if ty = 2 then some 324 else if ty = 3 then some 8 else none

/-- An entry image of a filter: the entry, if its fields are in range. -/
def filtOf (b : List Byte) : Option Filt :=
  let f16 := ((b[16]?).getD 0).toNat
  let len := ((b[17]?).getD 0).toNat
  let v6 := f16.testBit 1
  if f16 / 4 ≠ 0 ∨ ofLeBytes ((b.drop 18).take 2) ≠ 0 ∨ (if v6 then 128 else 32) < len
      ∨ (!v6 && ofLeBytes ((b.drop 4).take 12) != 0) then none
  else some { valid := f16.testBit 0, v6 := v6, len := len, addr := BitVec.ofNat 128 (ofLeBytes (b.take 16)) }

/-- The sixteen entries of a type 2 body. -/
def Pkg.cmdFilters (k : Pkg) : Option (List Filt) := (List.range 16).mapM fun i => filtOf (k.cmdBytes (0x1C + 20 * i) 20)

/-- The body is in range (step 4). -/
def Pkg.cmdBodyOk (k : Pkg) (ty : Nat) : Bool :=
  let b (off n : Nat) : Nat := k.cmdField (0x18 + off) n
  if ty = 1 then decide (b 0 4 * 65536 < memTop) && b 6 2 == 0
  else if ty = 2 then decide (b 0 1 < 4) && b 1 3 == 0 && k.cmdFilters.isSome
  else decide (b 0 1 < 16) && b 1 3 == 0 && decide (1 ≤ b 4 2) && decide (b 4 2 ≤ 256) && decide (1 ≤ b 6 2) && decide (b 6 2 ≤ 512)

/-- The status a command's checks end with, in the order of R426: 2 where all pass. The key is the host command key of the root record. -/
def Pkg.cmdCheck (k : Pkg) (p : Nat) : Nat :=
  let key := (k.conf.keys.map (·.2)).getD []
  let ty := k.cmdField 0 4
  let blen := k.cmdField 4 4
  if cmdBlen ty ≠ some blen ∨ k.cmdLen.toNat ≠ 0x18 + blen + signatureBytes ∨ k.cmdField 0x10 8 ≠ p then 5
  else if !Config.verify key (Config.sha3 (k.cmdBytes 0 (0x18 + blen))) (k.cmdBytes (0x18 + blen) signatureBytes) then 3
  else if k.cmdField 8 8 ≤ k.counter then 4
  else if !k.cmdBodyOk ty then 6
  else 2

/-- Lines of a page that are cached or busy. -/
def State.pageLines (s : State) (p page : Nat) : List Nat :=
  (s.dirs.filter fun e => lineHome e.1 == p && pageOf e.1 == page && (e.2.tx.isSome || e.2.owns || e.2.st == .update)).map (·.1)

/-- A firewall entry changes: the cells it now refuses lose what they hold, line by line (R342, R425). -/
def State.setFirewall (s : State) (p page : Nat) (new : BitVec 16) : State :=
  let old := Tab.getOr (s.pkg p).fw page 0xFFFF
  let s := s.modPkg p fun k => { k with fw := Tab.put k.fw page new }
  if old &&& ~~~new = 0 then s
  else
    let l := s.pageLines p page
    if l.isEmpty then s
    else
      let s := s.modPkg p fun k => { k with recalls := k.recalls ++ [(page, new, l)] }
      l.foldl (fun s line =>
        if (s.dir line).tx.isSome then s else s.recallLine line) s

/-- A recall of a page is under way. -/
def Pkg.recallsPage (k : Pkg) (page : Nat) : Bool := k.recalls.any fun r => r.1 == page

/-- Firmware clears bits of a firewall entry: a narrowing, which the home accepts once no earlier change of the entry is under way
(R424, R425). -/
def execFwNarrow (p page : Nat) (clear : BitVec 16) (s : State) : Out :=
  .next <|
    if !(s.pkg p).booted || decide (memTop ≤ page * 65536) || (s.pkg p).recallsPage page then s
    else s.setFirewall p page (Tab.getOr (s.pkg p).fw page 0xFFFF &&& ~~~clear)

/-- The effect of a command whose checks have passed. -/
def State.applyCmd (s : State) (p : Nat) : State :=
  let k := s.pkg p
  let b (off n : Nat) : Nat := k.cmdField (0x18 + off) n
  let ty := k.cmdField 0 4
  if ty = 1 then
    -- the bits it clears and those it sets, of the entry it was made for (R425)
    let new := BitVec.ofNat 16 (b 4 2)
    s.setFirewall p (b 0 4) ((Tab.getOr k.fw (b 0 4) 0xFFFF &&& ~~~(k.cmdBase &&& ~~~new)) ||| (new &&& ~~~k.cmdBase))
  else if ty = 2 then
    s.modPkg p fun k =>
      { k with filters := ((k.cmdFilters.getD []).zipIdx).foldl (fun t x => Tab.put t (16 * b 0 1 + x.2) x.1) k.filters }
  else s.modPort p (b 0 1) fun v => { v with rate := b 4 2, burst := b 6 2, tokens := min v.tokens (256 * b 6 2) }

/-- The controller takes a submitted command on: it refuses it, applies it, or waits for a recall. `only` names one TYPE. -/
def State.runCmd (s : State) (p : Nat) (only : Option Nat) : State :=
  let k := s.pkg p
  let ty := k.cmdField 0 4
  let st := k.cmdCheck p
  if k.cmdStatus ≠ 1 then s
  else if k.cmdRun then
    (if k.recalls.isEmpty then s.modPkg p fun k => { k with cmdRun := false, cmdStatus := 2 } else s)
  else if only.any fun t => t != ty || st != 2 then s
  else if st ≠ 2 then s.modPkg p fun k => { k with cmdStatus := st }
  else if ty = 1 ∧ k.recallsPage (k.cmdField 0x18 4) then s
  else
    let s := (s.applyCmd p).modPkg p fun x => { x with counter := k.cmdField 8 8 }
    s.modPkg p fun x => if x.recalls.isEmpty then { x with cmdStatus := 2 } else { x with cmdRun := true }

/-- CMD_FIREWALL_ENTRY. -/
def execCmdFirewallEntry (pkg : Nat) (s : State) : Out := .next (s.runCmd pkg (some 1))

/-- CMD_EGRESS_FILTER. -/
def execCmdEgressFilter (pkg : Nat) (s : State) : Out := .next (s.runCmd pkg (some 2))

/-- CMD_RATE_LIMITER. -/
def execCmdRateLimiter (pkg : Nat) (s : State) : Out := .next (s.runCmd pkg (some 3))

/-- COMMAND_APPLIED. -/
def execCommandApplied (pkg : Nat) (s : State) : Out := .next (s.runCmd pkg none)

end Sys2Proof.Machine
end

