-- ==== Sys2Proof/Machine/MemoryOps.lean ====
section
/-! DEFINITION. The instructions of groups 0x6 and 0x7: loads, stores, gathers, cache maintenance, atomics, reductions and
fences (R257 to R279). -/

namespace Sys2Proof.Machine

/-! ### Loads and stores (R261, R263, R266) -/

/-- What a load names: its result has variable latency, and 16 bytes take a register pair. -/
def useLoad (m : MMod) (o : O1) : Use := { use1 o with vl := true, pair := m.sz == .b16 }
def useStore (m : MMod) (o : S2) : Use := { useS2 o with srcPair := if m.sz == .b16 then [1] else [] }

def execLd (f : Frame) (sz : MMod) (h : Hint) (o : O1) (off : BitVec 14) (s : State) : Out :=
  word f (useLoad sz o) (loadBody .glob sz false h off) s

def execLdacq (f : Frame) (sz : MMod) (h : Hint) (o : O1) (off : BitVec 14) (s : State) : Out :=
  word f (useLoad sz o) (loadBody .glob sz true h off) s

def execLdvt (f : Frame) (sz : MMod) (h : Hint) (o : O1) (off : BitVec 14) (s : State) : Out :=
  word f (useLoad sz o) (loadBody .vault sz false h off) s

def execLdls (f : Frame) (sz : MMod) (h : Hint) (o : O1) (off : BitVec 14) (s : State) : Out :=
  word f (useLoad sz o) (loadBody .store sz false h off) s

def execLdgx (f : Frame) (sz : MMod) (h : Hint) (o : O2) (off : BitVec 14) (s : State) : Out :=
  word f { use2 o with vl := true } (gatherBody sz h off) s

def execSt (f : Frame) (sz : MMod) (h : Hint) (o : S2) (off : BitVec 14) (s : State) : Out :=
  word f (useStore sz o) (storeBody .glob sz false h off) s

def execStrel (f : Frame) (sz : MMod) (h : Hint) (o : S2) (off : BitVec 14) (s : State) : Out :=
  word f (useStore sz o) (storeBody .glob sz true h off) s

def execStvt (f : Frame) (sz : MMod) (h : Hint) (o : S2) (off : BitVec 14) (s : State) : Out :=
  word f (useStore sz o) (storeBody .vault sz false h off) s

def execStls (f : Frame) (sz : MMod) (h : Hint) (o : S2) (off : BitVec 14) (s : State) : Out :=
  word f (useStore sz o) (storeBody .store sz false h off) s

/-! ### Prefetch and cache maintenance (R267, R268) -/

/-- The physical address of a line that caches may hold: not on a page of POLICY 10, and not in a canvas aperture. -/
def State.cachedPa (s : State) (x : Xl) (va : Nat) : Option Nat :=
  if field x.pte.toNat 8 7 = 2 then none
  else match s.paOf x va with
    | some pa => if isAperture pa then none else some pa
    | none => none

/-- PREF (R267): the line comes into the core's L1, asked for where the package does not hold it; with hint 11, or on a page that L1s
do not cache, only into its home's cache. A prefetch that would fault is dropped. -/
def prefBody (h : Hint) (off : BitVec 14) (s : State) (l : Lane) : Res :=
  let va := (memAddr l.a off).toNat
  let p := pkgOfThr l.tk
  match s.xlAt l.tk va 1 .rd false true with
  | .error _ => .ok s
  | .ok (none, s) => .ok s
  | .ok (some x, s) =>
    match s.cachedPa x va with
    | none => .ok s
    | some pa =>
      let line := lineOf pa
      if (s.paFault p pa false).isSome then .ok s
      else if skipsL1 h x then .ok (s.homeHold line)
      else if (s.aline p line).has .rd then .ok (s.l1Fill l.ck { line := line, keep := keepOf h })
      else .ok ((s.askLine p 0 line .rd).modALine p line fun a => { a with pref := a.pref ++ [(l.ck, keepOf h)] })

/-- CFLUSH and CINV (R268): they need RD, and count in SUC until their write-back completes. The leading copy of a pair acts
for both. -/
def cacheBody (k : Nat → StK) (h : Hint) (off : BitVec 14) (s : State) (l : Lane) : Res :=
  let a := memAddr l.a off
  let va := a.toNat
  match s.xlAt l.tk va 1 .rd false true with
  | .error c => .fault { code := c, addr := a }
  | .ok (none, s) => .ok s
  | .ok (some x, s) =>
    match s.cachedPa x va with
    | none => .ok s
    | some pa =>
      if (s.thr l.tk).trails then .ok s
      else
        let p : SPiece := { va := va / 128 * 128, n := 128, xl := some x, data := 0, mask := 0 }
        let t := s.thr l.tk
        let rem := homeOf pa != pkgOfThr l.tk
        if ctrMax ≤ t.c.suc then .park (.room 7)
        else if rem && decide (ctrMax ≤ t.c.frc) then .park (.room 9)
        else
          let (u, s) := s.fresh
          let e : SbE := { u := u, gid := l.i.g.gid, k := k (lineOf pa), hint := h, pieces := [p], remote := rem }
          .ok (s.modThr l.tk fun t => { t with sb := t.sb ++ [e], c := t.c.bump 0 1 (if rem then 1 else 0) })

def execPref (f : Frame) (h : Hint) (a : Src) (off : BitVec 14) (s : State) : Out :=
  word f { src := [(0, a)] } (prefBody h off) s

def execCflush (f : Frame) (h : Hint) (a : Src) (off : BitVec 14) (s : State) : Out :=
  word f { src := [(0, a)] } (cacheBody .flush h off) s

def execCinv (f : Frame) (h : Hint) (a : Src) (off : BitVec 14) (s : State) : Out :=
  word f { src := [(0, a)] } (cacheBody .inval h off) s

/-! ### Returning atomics (R271, R272) -/

/-- A returning atomic issues. A release waits for what it stands after, and raises the failures of earlier stores (R265);
on a UO page the annotations are ignored (R239). -/
def atomicBody (op : AtOp) (m : AMod) (h : Hint) (pn : BitVec 3) (s : State) (l : Lane) : Res :=
  let n := if m.w32 then 4 else 8
  let a := l.a.w64
  let t := s.thr l.tk
  if a.toNat % n ≠ 0 then .fault { code := 0x07, addr := a }
  else
    match s.globParts l.tk .rw true true [(a.toNat, n)] with
    | .error c => .fault { code := c, addr := a }
    | .ok (ps, s) =>
      let rel := m.rel && ps.any fun q => !isUo q.xl
      if t.trails then s.follow l pn
      else if rel && t.late.any (fun x => !x.load) then .late
      else if rel && !t.relReady then .park .rel
      else
        s.beginAcc l { space := .glob, k := .atomic op m.w32 m.sgn l.b.w64 l.c.w64, size := n, acq := m.acq, rel := m.rel,
                       hint := h, pieces := ps, remote := s.anyRemote l.tk ps } pn

def useAt (u : Use) : Use := { u with vl := true, close := true }

def execAadd (f : Frame) (m : AMod) (h : Hint) (o : O2) (s : State) : Out := word f (useAt (use2 o)) (atomicBody .add m h 7) s
def execAmin (f : Frame) (m : AMod) (h : Hint) (o : O2) (s : State) : Out := word f (useAt (use2 o)) (atomicBody .min m h 7) s
def execAmax (f : Frame) (m : AMod) (h : Hint) (o : O2) (s : State) : Out := word f (useAt (use2 o)) (atomicBody .max m h 7) s
def execAand (f : Frame) (m : AMod) (h : Hint) (o : O2) (s : State) : Out := word f (useAt (use2 o)) (atomicBody .and m h 7) s
def execAor (f : Frame) (m : AMod) (h : Hint) (o : O2) (s : State) : Out := word f (useAt (use2 o)) (atomicBody .or m h 7) s
def execAxor (f : Frame) (m : AMod) (h : Hint) (o : O2) (s : State) : Out := word f (useAt (use2 o)) (atomicBody .xor m h 7) s
def execAxchg (f : Frame) (m : AMod) (h : Hint) (o : O2) (s : State) : Out := word f (useAt (use2 o)) (atomicBody .xchg m h 7) s
def execAincw (f : Frame) (m : AMod) (h : Hint) (o : O2) (s : State) : Out := word f (useAt (use2 o)) (atomicBody .incw m h 7) s
def execAdecw (f : Frame) (m : AMod) (h : Hint) (o : O2) (s : State) : Out := word f (useAt (use2 o)) (atomicBody .decw m h 7) s
def execAfadd (f : Frame) (m : AMod) (h : Hint) (o : O2) (s : State) : Out := word f (useAt (use2 o)) (atomicBody .fadd m h 7) s

def execAcas (f : Frame) (m : AMod) (h : Hint) (o : O3) (pe : BitVec 3) (s : State) : Out :=
  word f { useAt (use3 o) with pw := predBit pe } (atomicBody .cas m h pe) s

def execAbadd (f : Frame) (m : AMod) (h : Hint) (o : O3) (pe : BitVec 3) (s : State) : Out :=
  word f { useAt (use3 o) with pw := predBit pe } (atomicBody .badd m h pe) s

/-! ### Update-only reductions (R275) -/

/-- A reduction enters the store buffer; the leading copy of a pair performs it for both, once its region has matched. -/
def redBody (b : Bind) (m : AMod) (h : Hint) (s : State) (l : Lane) : Res :=
  let n := if m.w32 then 4 else 8
  let a := l.a.w64
  if a.toNat % n ≠ 0 then .fault { code := 0x07, addr := a }
  else
    match s.globParts l.tk .wr true true [(a.toNat, n)] with
    | .error c => .fault { code := c, addr := a }
    | .ok (ps, s) =>
      if (s.thr l.tk).trails then .ok s
      else
        s.enterStore l.tk { u := 0, gid := l.i.g.gid, k := .red b, rel := m.rel, hint := h,
                            pieces := storeParts a.toNat (l.b.w64.toNat % 256 ^ n) ps, remote := s.anyRemote l.tk ps }

def useRed (m : AMod) (o : S2) : Use := { useS2 o with close := true, feat := some 7, img := some (2, if m.w32 then 4 else 8) }

def execRedadd (f : Frame) (m : AMod) (h : Hint) (o : S2) (s : State) : Out :=
  word f (useRed m o) (redBody ⟨0, m.w32, m.sgn, false⟩ m h) s

def execRedfadd (f : Frame) (m : AMod) (h : Hint) (o : S2) (s : State) : Out :=
  word f (useRed m o) (redBody ⟨0, m.w32, m.sgn, true⟩ m h) s

def execRedmin (f : Frame) (m : AMod) (h : Hint) (o : S2) (s : State) : Out :=
  word f (useRed m o) (redBody ⟨1, m.w32, m.sgn, false⟩ m h) s

def execRedmax (f : Frame) (m : AMod) (h : Hint) (o : S2) (s : State) : Out :=
  word f (useRed m o) (redBody ⟨2, m.w32, m.sgn, false⟩ m h) s

/-! ### FENCE and SDRAIN (R276, R277) -/

/-- The counters that a wait needs at zero are. -/
def Ctrs.clear (c : Ctrs) (ldc suc eng : Bool) : Bool :=
  (!ldc || c.ldc == 0) && (!suc || c.suc == 0) && (!eng || (c.enc == 0 && c.twc == 0))

/-- The thread does not go on until its counters are zero. -/
def waitCtrs (ldc suc eng : Bool) (s : State) (l : Lane) : Res :=
  if (s.thr l.tk).c.clear ldc suc eng then .ok s else .park (.ctrs ldc suc eng)

def execFence (f : Frame) (sc : Scope) (h : Hint) (kind : FenceKind) (s : State) : Out :=
  let _ := sc
  let _ := h
  match kind with
  | .loads => word f { close := true } (waitCtrs true false false) s
  | .stores => word f { close := true, drain := true } (waitCtrs false true false) s
  | .both => word f { close := true, drain := true } (waitCtrs true true false) s
  | .engines => word f { close := true, drain := true } (waitCtrs true true true) s

def execSdrain (f : Frame) (h : Hint) (s : State) : Out :=
  let _ := h
  word f { close := true, drain := true } (waitCtrs false true false) s

end Sys2Proof.Machine
end

