-- ==== Sys2Proof/Machine/Pipes.lean ====
section
/-! DEFINITION. The issue pipes: clause fetch and header checks (R53, R54, R73, R235), region heads (R380), readiness and picking
(R106 to R112), the release of parked gangs (R109, R472), illegal words (R55, R56, R61, R73, R74), and what a cycle does by
itself. -/

namespace Sys2Proof.Machine

/-! ### Clause fetch (R235) -/

/-- A word of code, or why it cannot be had now. -/
inductive Fetch where
  /-- It is not there yet; `far` where its home cannot be reached now (R331). -/
  | wait (far : Bool)
  | fault (code va : Nat)
  | ok (s : State) (w : Word)

def State.fetchWord (s : State) (tk va : Nat) : Fetch :=
  if va % 8 ≠ 0 then .fault 0x07 va
  else
    match s.xlAt tk va 8 .ex false true with
    | .error c => .fault c va
    | .ok (x, s) =>
      match x.bind fun x => s.paOf x va with
      | none => .fault 0x08 va
      | some pa =>
        let p := pkgOfThr tk
        match s.ownFault p (s.thr tk).ctx pa with
        | some c => if c = 0x0B && !s.askOver tk then .wait true else .fault c va
        | none => if (s.aline p (lineOf pa)).unver.isSome then .wait false else .ok s (BitVec.ofNat 64 (s.readNow pa 8))

/-- Several words of code. -/
inductive FetchAll where
  | wait (far : Bool)
  | fault (code va : Nat)
  | ok (s : State) (l : List Word)

def State.fetchWords (s : State) (tk va : Nat) : Nat → FetchAll
  | 0 => .ok s []
  | n + 1 =>
    match s.fetchWord tk va with
    | .wait far => .wait far
    | .fault c a => .fault c a
    | .ok s w =>
      match s.fetchWords tk (va + 8) n with
      | .ok s l => .ok s (w :: l)
      | r => r

/-- Words of a clause after its header (R53). -/
def clauseCount (hdr : Word) : Nat := field hdr.toNat 3 0 + 1

/-! ### Headers (R54, R73) -/

/-- The fault of a header, if it has one. -/
def State.headerCode (s : State) (tk : Nat) (hdr : Word) : Option Nat :=
  let h := hdr.toNat
  if field h 31 28 ≠ 10 ∨ 3 ≤ field h 6 4 ∨ field h 27 24 ≠ 0 ∨ field h 15 15 ≠ 0 ∨ (field h 8 8 = 0 ∧ field h 63 32 ≠ 0) then
    some 0x02
  else if field h 7 7 = 1 ∧ !s.taken (pkgOfThr tk) (s.thr tk).ctx 0 then some 0x18
  else none

/-- A fault at the header stops the thread before it. -/
def State.headerFault (s : State) (tk code va : Nat) (hdr : Word) : State :=
  let pc := (s.thr tk).pc
  s.pairFault tk { code := code, addr := BitVec.ofNat 64 va, header := true } pc pc hdr 0

/-- The header at which a thread has arrived has been read. -/
def Thread.stand (t : Thread) (hdr : Word) : Thread :=
  { t with hdr := hdr, hpc := t.pc, fresh := false, redo := false, head := false, seen := none }

/-- The live-in mask of a region head (R380). -/
def liveIn (hdr : Word) : BitVec 32 := if hdr.getLsbD 8 then BitVec.ofNat 32 (field hdr.toNat 63 32) else 0xFFFFFFFF

/-- Arrival at a header: a region head opens a region, in a pair once the region before has matched, or within the slack of the
leading copy (R380, R381, R404, R406). -/
def State.stand (s : State) (tk : Nat) (hdr : Word) : State :=
  let t := s.thr tk
  if t.redo || !(hdr.getLsbD 8 || t.head) then s.modThr tk fun t => t.stand hdr
  else
    let go (s : State) : State :=
      s.modThr tk fun t =>
        let t := t.regionHead (liveIn hdr)
        { t.stand hdr with pair := t.pair.map fun p => { p with opened := true } }
    let stay (s : State) : State := s.modThr tk fun t => { t with seen := some hdr }
    match t.pair with
    | none => go s
    | some p =>
      let s := if p.opened then s.modPair tk fun p => { p with opened := false, ended := p.ended + 1 } else s
      match (s.thr tk).pair with
      | none => s
      | some p =>
        if p.trail then if p.matchedAll then go s else stay s
        else
          let other := match (s.thr p.partner).pair with | some q => q.ended | none => p.ended
          if p.slack ≤ p.ended - other then stay s else go s

/-- An acquire of the thread has not performed: a later fetch of it may not count yet (R237 rule 2). -/
def Thread.acquiring (t : Thread) : Bool :=
  !t.blk.isEmpty || t.pend.any fun p => p.k.acquires || match p.k.acc? with | some a => a.acq && a.nonUo && a.undone | none => false

/-- A thread that has reached a header reads it and its clause; while an acquire is pending, or the thread sleeps, this only looks
ahead, and finds no fault (log 64). -/
def State.arrive (s : State) (tk : Nat) : State :=
  let pc := (s.thr tk).pc.toNat
  let ahead := (s.thr tk).acquiring || decide (s.time (pkgOfThr tk) < (s.thr tk).sleep)
  let fail (s : State) (c a : Nat) (hdr : Word) : State := if ahead then s else s.headerFault tk c a hdr
  match s.fetchWord tk pc with
  | .wait far => if far then s.askNow tk else s
  | .fault c a => fail s c a 0
  | .ok s hdr =>
    match s.headerCode tk hdr with
    | some c => fail s c 0 hdr
    | none =>
      match s.fetchWords tk (pc + 8) (clauseCount hdr) with
      | .wait far => if far then s.askNow tk else s
      | .fault c a => fail s c a hdr
      | .ok s _ => s.stand tk hdr

/-- Where a thread's context stands on its die. -/
def State.ctxState (s : State) (tk : Nat) (t : Thread) : Nat :=
  Tab.getOr (s.ctx (pkgOfThr tk) t.ctx).st (dieIx (dkOf (ckOf tk))) 0

/-- The thread has no copy's fault that waits for the other copy. -/
def Thread.unfaulted (t : Thread) : Bool := match t.pair with | some p => p.fault.isNone | none => true

/-- No operation of its own holds the thread any longer (R139, R194, R297, R389). -/
def Thread.holdOver (t : Thread) : Bool := !t.hold || t.opDone.isSome

/-- The wait that pre-emption took the thread from inside its clause has ended (R388). -/
def Thread.unparked (t : Thread) : Bool := !t.park || (t.r.pendG == 0 && t.r.pendP == 0 && t.holdOver)

/-- A live thread that stands outside gangs and has a header to read; one that sleeps reads it only for a pre-emption (R114, R431). -/
def State.mayArrive (s : State) (tk : Nat) (t : Thread) : Bool :=
  let c := s.ctxState tk t
  t.st == .live && t.fresh && !t.inGang && !t.inQueue && t.rst.isNone && t.unfaulted && t.unparked
    && ((c == 1 && decide (t.sleep ≤ s.time (pkgOfThr tk))) || c == 2)

/-- What a thread that stands at a boundary does before it reads on: an ordered stop or end takes place (R390). -/
def State.settleThread (s : State) (tk : Nat) : State :=
  let t := s.thr tk
  if t.killing then s.killCheck tk
  else if t.stopping && t.st == .live && !t.inGang && !t.mid then
    s.modThr tk fun t => { t with st := .stopped, stopping := false, stopCode := none }
  else s

/-- Threads of one half of a core. -/
def State.halfThreads (s : State) (ck half : Nat) : List (Nat × Thread) := (s.coreThreads ck).filter fun e => halfOf e.1 == half

def State.arriveAll (s : State) (ck half : Nat) : State :=
  (s.halfThreads ck half).foldl (fun s e =>
    let s := s.settleThread e.1
    if s.mayArrive e.1 (s.thr e.1) then s.arrive e.1 else s) s

/-! ### Readiness (R106, R57) -/

/-- The wait condition of a header. -/
def Ctrs.within (c : Ctrs) (hdr : Word) : Bool :=
  let n := field hdr.toNat 23 16
  let ok (b v : Nat) : Bool := !hdr.getLsbD b || decide (v ≤ n)
  ok 10 c.ldc && ok 11 c.suc && ok 12 c.enc && ok 13 c.frc && ok 14 c.twc

/-- Blocked in QPUSH, QPOP or LWAIT. -/
def Thread.blockedOp (t : Thread) : Bool :=
  t.pend.any fun q => match q.k with | .qpush .. | .qpop .. | .lwait _ => true | _ => false

/-- The other copy of the thread's pair stands in a clause, or at one that pre-emption may not strike, and waits for this one. -/
def State.awaited (s : State) (t : Thread) : Bool :=
  match t.pair with
  | some p =>
    ((s.thr p.partner).seen.any fun h => h.getLsbD 9)
      || match s.waitingGang p.partner with | some g => g.why == .copies || g.why == .passed || g.why == .region | none => false
  | none => false

/-- The thread is ready at its clause; a thread that continues inside one has no header condition, and an ordered stop or end lets it
reach the clause's end (R390). Under pre-emption only what must still complete is picked: the rest of a clause, a clause at which
pre-emption may not strike, and the copy that a picked gang's copy waits for (R54, R386). -/
def State.isReady (s : State) (tk : Nat) (t : Thread) : Bool :=
  let c := s.ctxState tk t
  t.st == .live && !t.inGang && !t.fresh && t.blk.isEmpty && (t.mid || !t.acquiring) && decide (t.sleep ≤ s.time (pkgOfThr tk)) && (t.mid || t.c.within t.hdr)
    && !t.blockedOp && !t.xwant && !t.hold && t.rst.isNone && t.unfaulted && (t.mid || (!t.stopping && !t.killing))
    && t.unparked && !(t.leaving && t.c.suc != 0)
    && (c == 1 || (c == 2 && (if t.mid then !t.cut else t.hdr.getLsbD 9 || s.awaited t)))

/-! ### Released gangs (R109, R472) -/

/-- A tandem pair's copy need not wait for the input queue any longer (R404). -/
def State.copiesReady (s : State) (tk : Nat) : Bool :=
  match (s.thr tk).pair with
  | none => true
  | some p =>
    if p.trail then (s.pairSrc tk).isSome else s.inqRoom tk 2

/-- The resource has room for the thread. -/
def State.hasRoom (s : State) (tk k : Nat) : Bool :=
  let t := s.thr tk
  let c := s.core (ckOf tk)
  match k with
  | 0 => decide (c.copyq.length < copyqMax)
  | 1 => decide (c.matUsed < matqMax)
  | 2 => decide (c.copyq.length < copyqMax) && decide (c.matUsed < matqMax)
  | 3 => decide ((s.die (dkOf (ckOf tk))).collUsed < collqMax)
  | 4 => decide (t.sbUsed < sbMax)
  | 5 => decide (s.cmpUsed (ckOf tk) < cmpMax)
  | 6 => decide (t.c.ldc < ctrMax)
  | 7 => decide (t.c.suc < ctrMax)
  | 8 => decide (t.c.enc < ctrMax)
  | 9 => decide (t.c.frc < ctrMax)
  | 10 => decide (t.c.twc < ctrMax)
  | _ => decide (s.cmpUsed (ckOf tk) + 2 ≤ cmpMax)

/-- A parked gang's condition holds, or the member that it waited for has left it; one that waits for room is released by an event
of its own. -/
def State.released (s : State) (g : Gang) : Bool :=
  match g.why with
  | .running => true
  | .pend => g.members.all fun tk => let t := s.thr tk; t.r.pendG == 0 && t.r.pendP == 0 && t.holdOver
  | .regs l => l.all fun x =>
      !g.members.contains x.1 || (let r := (s.thr x.1).r; (r.pendG ||| s.provMask x.1) &&& x.2.1 == 0 && r.pendP &&& x.2.2 == 0)
  | .room _ => false
  | .copies => g.first != g.waiter || s.copiesReady g.first
  | .passed => g.first != g.waiter || (s.passed g.first (s.thr g.first).nw).isSome
  | .region => g.first != g.waiter || (s.thr g.first).pair.all PairS.matchedAll
  | .path q =>
    g.first != g.waiter || s.reaches (pkgOfThr g.first) q || s.askOver g.first
  | .hold => g.members.all fun tk => (s.thr tk).holdOver
  | .ctrs a b c => g.first != g.waiter || (s.thr g.first).c.clear a b c
  | .rel => g.first != g.waiter || (s.thr g.first).relReady

/-- A member's operation has completed: its status is written (R389). -/
def State.takeDone (s : State) (tk : Nat) : State :=
  let t := s.thr tk
  match t.opDone with
  | some v => (s.writeRD tk t.opD [v]).modThr tk fun t => { t with hold := false, opDone := none, opD := .none }
  | none => s

/-- A gang goes on. -/
def State.wake (s : State) (g : Gang) : Gang × State := ({ g with why := .running }, g.members.foldl (fun s tk => s.takeDone tk) s)

/-- The gang that parked earliest of those that are released. -/
def earliest (l : List Gang) : Option Gang :=
  l.foldl (fun (m : Option Gang) g => match m with | none => some g | some x => if g.since < x.since then some g else some x) none

/-! ### Picking (R107) -/

/-- The context's progress promise is on. -/
def Ctx.promise (x : Ctx) : Bool := !x.attr.getLsbD 4

/-- The thread with the greatest cadence age, the lowest slot of equals. -/
def oldest (l : List (Nat × Thread)) : Option (Nat × Thread) :=
  l.foldl (fun (m : Option (Nat × Thread)) e =>
    match m with
    | none => some e
    | some x => if x.2.age < e.2.age then some e else some x) none

/-- The leader of a context with its promise off: of the clause with the most ready threads, of equals the clause led last. -/
def busiest (led : Nat × Word) (l : List (Nat × Thread)) : Option (Nat × Thread) :=
  let n (t : Thread) : Nat := (l.filter fun e => e.2.pc == t.pc).length
  let better (a b : Thread) : Bool := decide (n b < n a) || (n a == n b && (a.ctx, a.pc) == led && (b.ctx, b.pc) != led)
  l.foldl (fun (m : Option (Nat × Thread)) e =>
    match m with
    | none => some e
    | some x => if better e.2 x.2 then some e else some x) none

/-- The leader of a gang, with the pipe's pointer after it. -/
def State.leader (s : State) (ck half : Nat) (rdy : List (Nat × Thread)) : Option (Nat × Thread × Nat) :=
  let p := s.pipe ck half
  let x (t : Thread) : Ctx := s.ctx (pkgOfCore ck) t.ctx
  match oldest (rdy.filter fun e => (x e.2).promise && decide ((x e.2).win < e.2.age)) with
  | some e => some (e.1, e.2, p.ptr)
  | none =>
    let top := rdy.foldl (fun m e => max m (x e.2).prio) 0
    let l := rdy.filter fun e => (x e.2).prio == top
    let cs := l.map fun e => (e.2.ctx + 64 - p.ptr % 64) % 64
    match cs with
    | [] => none
    | c0 :: r =>
      let c := (r.foldl min c0 + p.ptr) % 64
      let mine := l.filter fun e => e.2.ctx == c
      let lead :=
        if (s.ctx (pkgOfCore ck) c).promise then
          let may := mine.filter fun e => decide (e.2.excl ≤ s.time (pkgOfCore ck))
          oldest (if may.isEmpty then mine else may)
        else busiest p.led mine
      lead.map fun e => (e.1, e.2, (c + 1) % 64)

/-- A gang of the leader and further ready threads of its context at its clause. -/
def State.formGang (s : State) (ck half : Nat) (rdy : List (Nat × Thread)) (tk : Nat) (t : Thread) (words : List Word) : Gang :=
  let n := laneCount (s.pipe ck half).fenced
  let more := rdy.filter fun e => e.1 != tk && e.2.ctx == t.ctx && e.2.pc == t.pc && !e.2.mid
  let keep := if t.mid then [] else (more.take (n - 1)).map (·.1)
  let ms := (keep.takeWhile fun k => decide (k < tk)) ++ tk :: (keep.dropWhile fun k => decide (k < tk))
  { ctx := t.ctx, hpc := t.hpc, hdr := t.hdr, words := words, members := ms, order := ms,
    pos := if t.mid then ((t.pc.toNat - t.hpc.toNat) / 8) - 1 else 0,
    tandem := t.hdr.getLsbD 7 || (s.ctx (pkgOfCore ck) t.ctx).attr.getLsbD 8 }

/-- The pipe takes a gang. -/
def State.take (s : State) (ck half ptr : Nat) (g : Gang) : State :=
  let s := g.members.foldl (fun s tk =>
    s.modThr tk fun t => { t with inGang := true, age := 0, ready := 0, park := false, r := { t.r with runG := 0, runP := 0 } }) s
  let p := s.pipe ck half
  s.setPipe ck half { p with gang := some g, ptr := ptr, led := (g.ctx, g.hpc) }

/-- A free pipe picks (R107): a released gang resumes, else a new gang is formed. -/
def State.pick (s : State) (ck half : Nat) : State :=
  if (s.pipe ck half).gang.isSome || s.powerHolds (pkgOfCore ck) 2 then s
  else
    let s := s.arriveAll ck half
    let p := s.pipe ck half
    let p := { p with parked := p.parked.filter (fun g => !g.members.isEmpty), excess := p.excess.filter (fun g => !g.members.isEmpty) }
    match earliest ((p.parked ++ p.excess).filter fun g => s.released g) with
    | some g =>
      let (g1, s) := s.wake g
      let p := { p with parked := p.parked.filter (fun x => x != g), excess := p.excess.filter (fun x => x != g), gang := some g1 }
      s.setPipe ck half p
    | none =>
      let s := s.setPipe ck half p
      let rdy := (s.halfThreads ck half).filter fun e => s.isReady e.1 e.2
      match s.leader ck half rdy with
      | none => s
      | some (tk, t, ptr) =>
        -- inside its clause a thread stops before a word it cannot read; at the header it arrives again (log 64)
        let opened := t.started && t.sketch.pc == t.hpc && t.sketch.nw == t.nw
        let again (s : State) : State := s.modThr tk fun t => { t with fresh := true, redo := opened }
        match s.fetchWords tk t.hpc.toNat (clauseCount t.hdr + 1) with
        | .wait _ | .ok _ [] => s
        | .fault c a =>
          if t.mid then s.pairFault tk { code := c, addr := BitVec.ofNat 64 a } t.pc t.hpc t.hdr 0 else again s
        | .ok s (hdr :: ws) =>
          if hdr != t.hdr && !t.mid then again s else s.take ck half ptr (s.formGang ck half rdy tk t ws)

/-- An error in a register bank, found as the banks are read: a record, and of one that cannot be corrected the mark of poison on the
thread's own register (R414). -/
def State.bankError (s : State) (tk : Nat) (n : BitVec 6) (hard : Bool) : State :=
  let ck := ckOf tk
  let p := pkgOfCore ck
  let s := s.errRecord p (if hard then 2 else 1) 0x01 (unitId 0 p (dieIx (dkOf ck)) (s.phys ck) 0) 0 0 [slotOf tk * 64 + n.toNat]
  if hard then s.modThr tk fun t => { t with r := { t.r with psn := t.r.psn ||| BitVec.twoPow 64 n.toNat, psnA := Tab.cut t.r.psnA n.toNat } }
  else s

/-- A lane of a pipe turns out defective (R400). -/
def State.laneFails (s : State) (ck half : Nat) (e : LaneErr) : State :=
  let p := s.pipe ck half
  if 32 ≤ e.lane ∨ e.pattern = 0 ∨ e.left = 0 then s
  else s.setPipe ck half { p with bad := e :: p.bad.filter fun x => x.lane != e.lane }

/-- PIPE_PICK: a free pipe picks; `up` is what proves wrong in the pipe as it does. -/
def execPipePick (ck half : Nat) (up : PickErr) (s : State) : Out :=
  .next <|
    match up with
    | .bank tk n hard =>
      if ckOf tk = ck ∧ halfOf tk = half ∧ (s.thr tk).st ≠ .free then (s.bankError tk n hard).pick ck half else s.pick ck half
    | .lane k pat n => (s.laneFails ck half ⟨k, pat, n⟩).pick ck half
    | .none => s.pick ck half

/-! ### A pipe's turn (R108, R400) -/

/-- The frame of a word. -/
def frameOf (w : Word) : Frame := (RawW.ofWord w).frame

/-- The guards of a thread hold, as far as they are known. -/
def Thread.onFor (t : Thread) (f : Frame) : Bool := framePreds f &&& t.r.pendP == 0 && frameOn f t.r.p

/-- The gang in a pipe goes on with its word, starts the next one, or is done. -/
def State.loadGang (s : State) (ck half : Nat) (g : Gang) : State :=
  if g.members.isEmpty then (s.setPipe ck half { s.pipe ck half with gang := none }).again ck half
  else if g.gid ≠ 0 ∧ g.todo.isEmpty then
    State.endWord { s with iss := some ⟨ck, half, g⟩ } ⟨ck, half, g⟩ (frameOf g.word).park
  else if g.words.length ≤ g.pos then s.endClause ⟨ck, half, g⟩ g
  else
    let (gid, s) := if g.gid = 0 then s.fresh else (g.gid, s)
    let todo := if g.gid = 0 then g.members else g.todo
    let on := todo.any fun tk => (s.thr tk).onFor (frameOf g.word)
    let g := { g with gid := gid, todo := todo, anyOn := (g.gid != 0 && g.anyOn) || on, why := .running }
    { s.setPipe ck half { s.pipe ck half with gang := some g } with iss := some ⟨ck, half, g⟩ }

/-- A gang that stays in its pipe for want of a place takes a place that has become free (R109). -/
def State.leavePipe (s : State) (ck half : Nat) (g : Gang) : State :=
  let p := s.pipe ck half
  if p.parked.length < parkPlaces then (s.setPipe ck half { p with gang := none, parked := p.parked ++ [g] }).again ck half else s

/-- The turn of a pipe that holds a gang: a clause under tandem issue takes two. -/
def State.pipeTurn (s : State) (ck half : Nat) (g : Gang) : State :=
  if g.members.isEmpty then (s.setPipe ck half { s.pipe ck half with gang := none }).again ck half
  else if g.why != .running then
    if s.released g then let (g, s) := s.wake g; s.loadGang ck half g else s.leavePipe ck half g
  else if g.tandem && !g.second then s.setPipe ck half { s.pipe ck half with gang := some { g with second := true } }
  else s.loadGang ck half g

/-! ### The word a gang stands at (R55, R56, R61, R73, R74) -/

/-- The opcode group may stand in a clause of the class. -/
def classAllows (cls grp : Nat) : Bool :=
  let general := decide (grp ≤ 8) || grp == 0xB || grp == 0xD
  match cls with
  | 0 => general
  | 1 => grp == 9 || grp == 0xA || grp == 0xB
  | _ => general || grp == 0xC

/-- Opcodes that end their clause. -/
def endsClause (op : Nat) : Bool :=
  decide (0x140 ≤ op ∧ op ≤ 0x145) || op == 0x148 || decide (0x1C0 ≤ op ∧ op < 0x200)
    || [0x201, 0x203, 0x205, 0x208, 0x209, 0x20A, 0x20B, 0x248, 0x288, 0x302, 0x305].contains op

/-- A row of COLL that its image names, and SYSWR of INJECT: the constructor that the thread's operand chooses. -/
def State.refine (s : State) (tk : Nat) (i : Instr) : Instr :=
  let value (a : Src) : Option Word :=
    match resolve (s.thr tk) { src := [(0, a)] } with
    | .ok r => (s.values tk { src := [(0, a)] } r).head?.map fun v => v.2.1.w64
    | .error _ => none
  match i with
  | .collBind f rel h o =>
    match (value o.a).map fun w => field w.toNat 3 0 with
    | some 1 => .collReduceScatter f rel h o
    | some 2 => .collAllGather f rel h o
    | some 3 => .collAllReduceRing f rel h o
    | some 4 => .collAllReduceTree f rel h o
    | some 5 => .collBroadcast f rel h o
    | some 6 => .collBarrier f rel h o
    | some 7 => .collDrawMerge f rel h o
    | _ => i
  | .syswr f o =>
    match value o.a with
    | some a => if field a.toNat 11 0 = 0x300 then .injectWrite f o else i
    | none => i
  | i => i

/-- The instruction of the word a gang stands at. -/
def Gang.instr (g : Gang) : Instr :=
  let w := g.word
  let op := (RawW.ofWord w).op.toNat
  let bad (c : BitVec 8) : Instr := .illegalInstruction (frameOf w) c (hasLiteral w)
  match decode w g.next? with
  | .error .reservedOpcode => bad 0x01
  | r =>
    if !classAllows (field g.hdr.toNat 6 4) (op / 64) || (endsClause op && decide (g.pos + g.len < g.words.length)) then bad 0x01
    else match r with
      | .ok i => i
      | .error e => bad e.code

/-- An illegal word (R73, R74): checked in strict decode, or where some member's guards hold, for every member; where that depends
on predicates that are pending, the gang waits for them before any member goes on. -/
def State.illegal (s : State) (i : Issue) (tk : Nat) (f : Frame) (code : Nat) : State :=
  if (s.thr tk).late.any (·.load) then s.lateLoads tk f.park
  else if s.strict tk || i.g.anyOn then s.wordFault tk { code := code } f.park
  else
    let waits := (i.g.todo.map fun k => (k, 0, framePreds f &&& (s.thr k).r.pendP)).filter fun x => x.2.2 != 0
    if waits.isEmpty then s.retire tk f else s.parkGang i i.g (.regs waits)

/-- ILLEGAL_INSTRUCTION: the word has no legal meaning. `wide` says whether a literal follows it. -/
def execIllegalInstruction (f : Frame) (code : BitVec 8) (_wide : Bool) (s : State) : Out :=
  match s.iss with
  | none => .fault .noThread
  | some i =>
    match i.g.todo with
    | [] => .fault .noThread
    | tk :: _ => .next (s.illegal i tk f code.toNat)

/-! ### Events of waiting threads -/

/-- HELD_RECORD_WRITE (R378). -/
def execHeldRecordWrite (cx : Nat) (s : State) : Out :=
  .next (if (Tab.look s.ctxs cx).isSome then s.writeHeld (cx / 64) (cx % 64) else s)

/-- SLEEP_EXPIRE (R114). -/
def execSleepExpire (tk : Nat) (s : State) : Out :=
  .next (if (s.thr tk).sleep ≤ s.time (pkgOfThr tk) then s.modThr tk fun t => { t with sleep := 0 } else s)

/-- VARIABLE_LATENCY_RESULT: a computed result reaches its register (R109). -/
def execVariableLatencyResult (tk u : Nat) (s : State) : Out :=
  .next <|
    match (s.thr tk).pendAt u with
    | some q =>
      match q.k with
      | .value v p => s.finishPend tk q [v] p none none
      | _ => s
    | none => s

/-- Cycles that the progress watchdog allows (R112). -/
def watchdogCycles : Nat := 2 ^ 20

/-- PROGRESS_WATCHDOG: fault 0x14 on the oldest of the context's threads that have been ready for too long. -/
def State.watchdog (s : State) (ck ctx : Nat) : State :=
  let due := (s.coreThreads ck).filter fun e => e.2.ctx == ctx && decide (watchdogCycles ≤ e.2.ready) && !e.2.inGang
  match oldest due with
  | none => s
  | some (tk, t) =>
    let s := due.foldl (fun s e => s.modThr e.1 fun t => { t with ready := 0 }) s
    s.pairFault tk { code := 0x14, header := !t.mid } t.pc t.hpc t.hdr 0

def execProgressWatchdog (ck ctx : Nat) (s : State) : Out := .next (s.watchdog ck ctx)

/-- Cycles of a deadlocked pool (R142). -/
def deadlockCycles : Nat := 2 ^ 16

/-- A parked gang waits for a block of the pool, for an RDFE or WRFE that has not performed, or for an LWAIT. -/
def State.gangStuck (s : State) (g : Gang) : Bool :=
  let waits (tk : Nat) (m : BitVec 64) : Bool := (s.thr tk).pend.any fun q =>
    match q.k with
    | .rdfe _ | .wrfe .. | .lwait _ => (regsMask q.d.regs ||| q.also) &&& m != 0
    | _ => false
  match g.why with
  | .hold => g.members.any fun tk => let t := s.thr tk; t.xwant && t.hold
  | .pend => g.members.any fun tk => let t := s.thr tk; (t.xwant && t.hold) || waits tk t.r.pendG
  | .regs l => l.any fun x => g.members.contains x.1 && waits x.1 x.2.1
  | _ => false

/-- A thread that R142 counts as blocked: stopped by a fault, or standing in one of the waits it names, or waiting for a block otherwise
(log 97). -/
def State.stuck (s : State) (tk : Nat) (t : Thread) : Bool :=
  if t.st == .stopped then t.stopCode.isSome
  else if t.inGang then match s.waitingGang tk with | some g => s.gangStuck g | none => false
  else t.xwant || t.blockedOp || !t.blk.isEmpty

/-- The condition of R142 on a core. -/
def State.poolStuck (s : State) (ck : Nat) : Bool :=
  let ts := (s.coreThreads ck).filter fun e => s.ctxState e.1 e.2 == 1
  (s.core ck).pool == 0 && (ts.any fun e => e.2.xwant && e.2.hold) && ts.all fun e => s.stuck e.1 e.2

/-- The word of a waiting gang's thread, at an address of its clause. -/
def State.wordAt (s : State) (tk : Nat) (pc : Word) : Word :=
  match s.waitingGang tk with
  | some g => (g.words[(pc.toNat - g.hpc.toNat) / 8 - 1]?).getD 0
  | none => 0

/-- POOL_DEADLOCK: the thread that has waited longest in XACQ stops before it with fault 0x06. -/
def State.poolFault (s : State) (ck : Nat) : State :=
  if (s.core ck).dead < deadlockCycles then s
  else
    let s := s.modCore ck fun c => { c with dead := 0 }
    let waits := (s.core ck).poolq.flatMap fun q =>
      (q.members.filter fun tk => (s.thr tk).hold && (s.thr tk).xwant).map fun tk => (q.since, tk)
    match waits with
    | [] => s
    | w :: r =>
      let (_, tk) := r.foldl (fun (m : Nat × Nat) x => if x.1 < m.1 || (x.1 == m.1 && decide (x.2 < m.2)) then x else m) w
      let t := s.thr tk
      let pc := t.pc - 8
      let wd := s.wordAt tk pc
      let s := (s.unwant tk).modThr tk fun t => { t with hold := false, nw := t.nw - 1 }
      (s.pairFault tk { code := 0x06 } pc t.hpc t.hdr wd).poolCheck ck

def execPoolDeadlock (ck : Nat) (s : State) : Out := .next (s.poolFault ck)

/-- RESOURCE_ROOM_RESUME: a gang that waits for room, and whose next member has it now, is released (R472). -/
def State.roomResume (s : State) (ck half : Nat) : State :=
  let p := s.pipe ck half
  let free (g : Gang) : Bool := match g.why with | .room k => g.first != g.waiter || s.hasRoom g.first k | _ => false
  let go (g : Gang) : Gang := if free g then { g with why := .running } else g
  s.setPipe ck half { p with gang := p.gang.map go, parked := p.parked.map go, excess := p.excess.map go }

def execResourceRoomResume (ck half : Nat) (s : State) : Out := .next (s.roomResume ck half)

/-! ### What a cycle does by itself -/

def ageMax : Nat := 2 ^ 24 - 1

/-- Cadence ages and the counts of the watchdog, in the cycles of the package's clock (R110, R112, R429). -/
def State.ageAll (s : State) : State :=
  let threads : Tab Thread := s.threads.map fun e =>
    if !s.ticks (pkgOfThr e.1) then e
    else if decide (e.1 < slotKeys) && s.isReady e.1 e.2 then (e.1, { e.2 with age := min ageMax (e.2.age + 1), ready := e.2.ready + 1 })
    else (e.1, { e.2 with ready := 0 })
  { s with threads := threads }

/-- Cores that have threads. -/
def State.busyCores (s : State) : List Nat :=
  ((s.threads.filter fun e => e.2.st != .free && decide (e.1 < slotKeys)).map fun e => ckOf e.1).eraseDups

/-- A thread that stands at its EXIT ends once its stores have performed, but for failures of theirs that it has to raise (R120,
R265). -/
def State.leaveCheck (s : State) (tk : Nat) : State :=
  let t := s.thr tk
  if t.leaving && t.st == .live && !t.inGang && t.c.suc == 0 && t.late.all (·.load) then s.endThread tk false else s

/-- Everything that is looked at once in a cycle: waits, exchanges, restarts, values for trailing copies, threads that leave,
pre-emptions. -/
def State.sweep (s : State) : State :=
  let cores := s.busyCores
  let s := cores.foldl (fun s ck => (s.core ck).grps.foldl (fun s g => s.groupCheck ck g.1) (s.poolCheck ck)) s
  let s := (s.threads.map (·.1)).foldl (fun s tk => (((s.restartCheck tk).copyCheck tk).opCheck tk).leaveCheck tk) s
  let s := s.preemptCheck
  (cores.filter fun ck => s.ticks (pkgOfCore ck)).foldl (fun s ck => let b := s.poolStuck ck; s.modCore ck fun c => { c with dead := if b then c.dead + 1 else 0 }) s

/-- Threads that have come to a header read it, whether their pipe is free or not (R106). -/
def State.arriveCores (s : State) : State := s.busyCores.foldl (fun s ck => (s.arriveAll ck 0).arriveAll ck 1) s

/-- Packages whose halved clock stands still in this cycle count it (R429). -/
def State.standStill (s : State) : State :=
  { s with pkgs := s.pkgs.map fun e => if s.ticks e.1 then e else (e.1, { e.2 with slow := e.2.slow + 1 }) }

/-- A cycle ends: ages rise, the clock advances, and every pipe has its turn again (R107). -/
def State.beat (s : State) : State :=
  let s := s.arriveCores.ageAll
  let s := (State.standStill { s with clock := s.clock + 1 }).sweep
  { s with turn := (s.busyCores.filter fun ck => s.ticks (pkgOfCore ck)).flatMap fun ck => [(ck, 0), (ck, 1)] }

end Sys2Proof.Machine
end

