-- ==== Sys2Proof/Machine/Dispatch.lean ====
section
/-! DEFINITION. The dispatch: one arm for each constructor of `Instr`, each a direct call of its meaning. -/

namespace Sys2Proof.Machine

/-- The effect of one instruction or event. -/
def exec (i : Instr) (s : State) : Host.Outcome State Fault Refusal :=
  match i with
  | .iadd f m o => Sys2Proof.Machine.execIadd f m o s
  | .isub f m o => Sys2Proof.Machine.execIsub f m o s
  | .iadds f m o pe => Sys2Proof.Machine.execIadds f m o pe s
  | .isubs f m o pe => Sys2Proof.Machine.execIsubs f m o pe s
  | .imul f m o => Sys2Proof.Machine.execImul f m o s
  | .imulh f m o => Sys2Proof.Machine.execImulh f m o s
  | .imad f m o => Sys2Proof.Machine.execImad f m o s
  | .imadw f m o => Sys2Proof.Machine.execImadw f m o s
  | .idiv f m o => Sys2Proof.Machine.execIdiv f m o s
  | .irem f m o => Sys2Proof.Machine.execIrem f m o s
  | .imin f m o => Sys2Proof.Machine.execImin f m o s
  | .imax f m o => Sys2Proof.Machine.execImax f m o s
  | .iabs f m o => Sys2Proof.Machine.execIabs f m o s
  | .ineg f m o => Sys2Proof.Machine.execIneg f m o s
  | .idot4 f m o => Sys2Proof.Machine.execIdot4 f m o s
  | .idot2 f m o => Sys2Proof.Machine.execIdot2 f m o s
  | .isad f m o => Sys2Proof.Machine.execIsad f m o s
  | .iaddc f m o pc pe => Sys2Proof.Machine.execIaddc f m o pc pe s
  | .lea f o sh => Sys2Proof.Machine.execLea f o sh s
  | .mov f o => Sys2Proof.Machine.execMov f o s
  | .movi f m d imm => Sys2Proof.Machine.execMovi f m d imm s
  | .movhi f o => Sys2Proof.Machine.execMovhi f o s
  | .sel f o pc => Sys2Proof.Machine.execSel f o pc s
  | .iclamp f m o => Sys2Proof.Machine.execIclamp f m o s
  | .and f o => Sys2Proof.Machine.execAnd f o s
  | .or f o => Sys2Proof.Machine.execOr f o s
  | .xor f o => Sys2Proof.Machine.execXor f o s
  | .andn f o => Sys2Proof.Machine.execAndn f o s
  | .not f o => Sys2Proof.Machine.execNot f o s
  | .bfn3 f o tab => Sys2Proof.Machine.execBfn3 f o tab s
  | .shl f m o => Sys2Proof.Machine.execShl f m o s
  | .shr f m o => Sys2Proof.Machine.execShr f m o s
  | .sar f m o => Sys2Proof.Machine.execSar f m o s
  | .rol f m o => Sys2Proof.Machine.execRol f m o s
  | .ror f m o => Sys2Proof.Machine.execRor f m o s
  | .fshf f m o => Sys2Proof.Machine.execFshf f m o s
  | .popc f m o => Sys2Proof.Machine.execPopc f m o s
  | .clz f m o => Sys2Proof.Machine.execClz f m o s
  | .ctz f m o => Sys2Proof.Machine.execCtz f m o s
  | .brev f m o => Sys2Proof.Machine.execBrev f m o s
  | .bfx f m o => Sys2Proof.Machine.execBfx f m o s
  | .bfi f m o => Sys2Proof.Machine.execBfi f m o s
  | .prmb f o => Sys2Proof.Machine.execPrmb f o s
  | .icmp f m pd o cond anyE => Sys2Proof.Machine.execIcmp f m pd o cond anyE s
  | .pset f pd pa pb tab => Sys2Proof.Machine.execPset f pd pa pb tab s
  | .pmov f o msk dir => Sys2Proof.Machine.execPmov f o msk dir s
  | .fadd f m o => Sys2Proof.Machine.execFadd f m o s
  | .fsub f m o => Sys2Proof.Machine.execFsub f m o s
  | .fmul f m o => Sys2Proof.Machine.execFmul f m o s
  | .ffma f m o => Sys2Proof.Machine.execFfma f m o s
  | .fmin f m o => Sys2Proof.Machine.execFmin f m o s
  | .fmax f m o => Sys2Proof.Machine.execFmax f m o s
  | .fabs f m o => Sys2Proof.Machine.execFabs f m o s
  | .fneg f m o => Sys2Proof.Machine.execFneg f m o s
  | .fcmp f m pd o cond anyE => Sys2Proof.Machine.execFcmp f m pd o cond anyE s
  | .fclass f m o => Sys2Proof.Machine.execFclass f m o s
  | .fdiv f m o => Sys2Proof.Machine.execFdiv f m o s
  | .fsqrt f m o => Sys2Proof.Machine.execFsqrt f m o s
  | .frcp f m o => Sys2Proof.Machine.execFrcp f m o s
  | .frsq f m o => Sys2Proof.Machine.execFrsq f m o s
  | .fex2 f m o => Sys2Proof.Machine.execFex2 f m o s
  | .flg2 f m o => Sys2Proof.Machine.execFlg2 f m o s
  | .flg2p f m o => Sys2Proof.Machine.execFlg2p f m o s
  | .fsinpi f m o => Sys2Proof.Machine.execFsinpi f m o s
  | .fcospi f m o => Sys2Proof.Machine.execFcospi f m o s
  | .fdot2 f m o => Sys2Proof.Machine.execFdot2 f m o s
  | .fscale f m o => Sys2Proof.Machine.execFscale f m o s
  | .frnd f m o => Sys2Proof.Machine.execFrnd f m o s
  | .cvt f fmt o cc src part => Sys2Proof.Machine.execCvt f fmt o cc src part s
  | .cvts f fmt o cc src part => Sys2Proof.Machine.execCvts f fmt o cc src part s
  | .cvti f fmt o cc src part => Sys2Proof.Machine.execCvti f fmt o cc src part s
  | .cvtf f fmt o cc src part => Sys2Proof.Machine.execCvtf f fmt o cc src part s
  | .packn f fmt o cc src part => Sys2Proof.Machine.execPackn f fmt o cc src part s
  | .unpack f fmt o cc src part => Sys2Proof.Machine.execUnpack f fmt o cc src part s
  | .bxpack f fmt o part wide sel => Sys2Proof.Machine.execBxpack f fmt o part wide sel s
  | .bxunp f fmt o part wide sel => Sys2Proof.Machine.execBxunp f fmt o part wide sel s
  | .mxpack f fmt o part wide sel => Sys2Proof.Machine.execMxpack f fmt o part wide sel s
  | .mxunp f fmt o part wide sel => Sys2Proof.Machine.execMxunp f fmt o part wide sel s
  | .sclx f o sfmt sel => Sys2Proof.Machine.execSclx f o sfmt sel s
  | .cmode f o => Sys2Proof.Machine.execCmode f o s
  | .nanct f d => Sys2Proof.Machine.execNanct f d s
  | .gjoin f o => Sys2Proof.Machine.execGjoin f o s
  | .gleave f => Sys2Proof.Machine.execGleave f s
  | .gwait f mk => Sys2Proof.Machine.execGwait f mk s
  | .gvote f mk pe => Sys2Proof.Machine.execGvote f mk pe s
  | .mskop f op md ma mb => Sys2Proof.Machine.execMskop f op md ma mb s
  | .mskmov f o mk dir => Sys2Proof.Machine.execMskmov f o mk dir s
  | .shfl f m o mk => Sys2Proof.Machine.execShfl f m o mk s
  | .shflx f m o mk => Sys2Proof.Machine.execShflx f m o mk s
  | .shfldn f m o mk => Sys2Proof.Machine.execShfldn f m o mk s
  | .shflup f m o mk => Sys2Proof.Machine.execShflup f m o mk s
  | .bcast f m o mk => Sys2Proof.Machine.execBcast f m o mk s
  | .gred f op o mk => Sys2Proof.Machine.execGred f op o mk s
  | .gscan f op o mk => Sys2Proof.Machine.execGscan f op o mk s
  | .compress f m o mk => Sys2Proof.Machine.execCompress f m o mk s
  | .expand f m o mk => Sys2Proof.Machine.execExpand f m o mk s
  | .matchRank f m o mk => Sys2Proof.Machine.execMatchRank f m o mk s
  | .ginfo f d => Sys2Proof.Machine.execGinfo f d s
  | .bra f off => Sys2Proof.Machine.execBra f off s
  | .brx f a => Sys2Proof.Machine.execBrx f a s
  | .call f off => Sys2Proof.Machine.execCall f off s
  | .callx f a => Sys2Proof.Machine.execCallx f a s
  | .ret f => Sys2Proof.Machine.execRet f s
  | .exit f => Sys2Proof.Machine.execExit f s
  | .yield f => Sys2Proof.Machine.execYield f s
  | .nop f => Sys2Proof.Machine.execNop f s
  | .loop f d off => Sys2Proof.Machine.execLoop f d off s
  | .trap f n => Sys2Proof.Machine.execTrap f n s
  | .brk f n => Sys2Proof.Machine.execBrk f n s
  | .waita f o => Sys2Proof.Machine.execWaita f o s
  | .sleep f a => Sys2Proof.Machine.execSleep f a s
  | .ld f sz h o off => Sys2Proof.Machine.execLd f sz h o off s
  | .st f sz h o off => Sys2Proof.Machine.execSt f sz h o off s
  | .ldacq f sz h o off => Sys2Proof.Machine.execLdacq f sz h o off s
  | .strel f sz h o off => Sys2Proof.Machine.execStrel f sz h o off s
  | .ldvt f sz h o off => Sys2Proof.Machine.execLdvt f sz h o off s
  | .stvt f sz h o off => Sys2Proof.Machine.execStvt f sz h o off s
  | .ldls f sz h o off => Sys2Proof.Machine.execLdls f sz h o off s
  | .stls f sz h o off => Sys2Proof.Machine.execStls f sz h o off s
  | .ldgx f sz h o off => Sys2Proof.Machine.execLdgx f sz h o off s
  | .pref f h a off => Sys2Proof.Machine.execPref f h a off s
  | .cflush f h a off => Sys2Proof.Machine.execCflush f h a off s
  | .cinv f h a off => Sys2Proof.Machine.execCinv f h a off s
  | .aadd f m h o => Sys2Proof.Machine.execAadd f m h o s
  | .amin f m h o => Sys2Proof.Machine.execAmin f m h o s
  | .amax f m h o => Sys2Proof.Machine.execAmax f m h o s
  | .aand f m h o => Sys2Proof.Machine.execAand f m h o s
  | .aor f m h o => Sys2Proof.Machine.execAor f m h o s
  | .axor f m h o => Sys2Proof.Machine.execAxor f m h o s
  | .axchg f m h o => Sys2Proof.Machine.execAxchg f m h o s
  | .acas f m h o pe => Sys2Proof.Machine.execAcas f m h o pe s
  | .aincw f m h o => Sys2Proof.Machine.execAincw f m h o s
  | .adecw f m h o => Sys2Proof.Machine.execAdecw f m h o s
  | .abadd f m h o pe => Sys2Proof.Machine.execAbadd f m h o pe s
  | .afadd f m h o => Sys2Proof.Machine.execAfadd f m h o s
  | .redadd f m h o => Sys2Proof.Machine.execRedadd f m h o s
  | .redfadd f m h o => Sys2Proof.Machine.execRedfadd f m h o s
  | .redmin f m h o => Sys2Proof.Machine.execRedmin f m h o s
  | .redmax f m h o => Sys2Proof.Machine.execRedmax f m h o s
  | .fence f sc h kind => Sys2Proof.Machine.execFence f sc h kind s
  | .sdrain f h => Sys2Proof.Machine.execSdrain f h s
  | .barinit f b a => Sys2Proof.Machine.execBarinit f b a s
  | .bararv f d b => Sys2Proof.Machine.execBararv f d b s
  | .barwait f b a => Sys2Proof.Machine.execBarwait f b a s
  | .barsync f b => Sys2Proof.Machine.execBarsync f b s
  | .barqry f d b => Sys2Proof.Machine.execBarqry f d b s
  | .lbar f d => Sys2Proof.Machine.execLbar f d s
  | .shrmap f a => Sys2Proof.Machine.execShrmap f a s
  | .shrunmap f => Sys2Proof.Machine.execShrunmap f s
  | .rdfe f o => Sys2Proof.Machine.execRdfe f o s
  | .wrfe f o => Sys2Proof.Machine.execWrfe f o s
  | .qpush f ga lu q => Sys2Proof.Machine.execQpush f ga lu q s
  | .qpop f gd q pn => Sys2Proof.Machine.execQpop f gd q pn s
  | .tdef f a t => Sys2Proof.Machine.execTdef f a t s
  | .tqry f d t wd => Sys2Proof.Machine.execTqry f d t wd s
  | .tready f t => Sys2Proof.Machine.execTready f t s
  | .tempty f t => Sys2Proof.Machine.execTempty f t s
  | .twait f ws d t => Sys2Proof.Machine.execTwait f ws d t s
  | .tstb f o t => Sys2Proof.Machine.execTstb f o t s
  | .tldb f d b t => Sys2Proof.Machine.execTldb f d b t s
  | .shadow f o => Sys2Proof.Machine.execShadow f o s
  | .publish f sc a => Sys2Proof.Machine.execPublish f sc a s
  | .cpy f rel h o => Sys2Proof.Machine.execCpy f rel h o s
  | .cpym f rel h o => Sys2Proof.Machine.execCpym f rel h o s
  | .mma f h o => Sys2Proof.Machine.execMma f h o s
  | .mmab f h o => Sys2Proof.Machine.execMmab f h o s
  | .mmac f h o => Sys2Proof.Machine.execMmac f h o s
  | .mepi f h o => Sys2Proof.Machine.execMepi f h o s
  | .tarm f h o t wr => Sys2Proof.Machine.execTarm f h o t wr s
  | .route f h o wr => Sys2Proof.Machine.execRoute f h o wr s
  | .collBind f rel h o => Sys2Proof.Machine.execCollBind f rel h o s
  | .collReduceScatter f rel h o => Sys2Proof.Machine.execCollReduceScatter f rel h o s
  | .collAllGather f rel h o => Sys2Proof.Machine.execCollAllGather f rel h o s
  | .collAllReduceRing f rel h o => Sys2Proof.Machine.execCollAllReduceRing f rel h o s
  | .collAllReduceTree f rel h o => Sys2Proof.Machine.execCollAllReduceTree f rel h o s
  | .collBroadcast f rel h o => Sys2Proof.Machine.execCollBroadcast f rel h o s
  | .collBarrier f rel h o => Sys2Proof.Machine.execCollBarrier f rel h o s
  | .collDrawMerge f rel h o => Sys2Proof.Machine.execCollDrawMerge f rel h o s
  | .cwait f h o => Sys2Proof.Machine.execCwait f h o s
  | .ccancel f h o => Sys2Proof.Machine.execCcancel f h o s
  | .engq f h o => Sys2Proof.Machine.execEngq f h o s
  | .drawl f o => Sys2Proof.Machine.execDrawl f o s
  | .drawg f o => Sys2Proof.Machine.execDrawg f o s
  | .dmrg f lg o => Sys2Proof.Machine.execDmrg f lg o s
  | .gdraw f lg o mk => Sys2Proof.Machine.execGdraw f lg o mk s
  | .dseed f a => Sys2Proof.Machine.execDseed f a s
  | .drnd f o => Sys2Proof.Machine.execDrnd f o s
  | .sysrd f o => Sys2Proof.Machine.execSysrd f o s
  | .syswr f o => Sys2Proof.Machine.execSyswr f o s
  | .injectWrite f o => Sys2Proof.Machine.execInjectWrite f o s
  | .launch f o => Sys2Proof.Machine.execLaunch f o s
  | .lwait f o => Sys2Proof.Machine.execLwait f o s
  | .thrctlResume f o => Sys2Proof.Machine.execThrctlResume f o s
  | .thrctlRedirect f o => Sys2Proof.Machine.execThrctlRedirect f o s
  | .thrctlKill f o => Sys2Proof.Machine.execThrctlKill f o s
  | .thrctlStop f o => Sys2Proof.Machine.execThrctlStop f o s
  | .thrctlGetst f o => Sys2Proof.Machine.execThrctlGetst f o s
  | .thrctlSetst f o => Sys2Proof.Machine.execThrctlSetst f o s
  | .xret f a => Sys2Proof.Machine.execXret f a s
  | .barsave f o => Sys2Proof.Machine.execBarsave f o s
  | .barrest f o => Sys2Proof.Machine.execBarrest f o s
  | .tlbinv f sc o => Sys2Proof.Machine.execTlbinv f sc o s
  | .mapset f o => Sys2Proof.Machine.execMapset f o s
  | .selftest f o => Sys2Proof.Machine.execSelftest f o s
  | .errrd f o => Sys2Proof.Machine.execErrrd f o s
  | .featrd f o => Sys2Proof.Machine.execFeatrd f o s
  | .ctxswCreate f o => Sys2Proof.Machine.execCtxswCreate f o s
  | .ctxswDestroy f o => Sys2Proof.Machine.execCtxswDestroy f o s
  | .ctxswPreempt f o => Sys2Proof.Machine.execCtxswPreempt f o s
  | .ctxswResume f o => Sys2Proof.Machine.execCtxswResume f o s
  | .ixset f ix a => Sys2Proof.Machine.execIxset f ix a s
  | .ixget f d ix => Sys2Proof.Machine.execIxget f d ix s
  | .ixadv f ix a ew => Sys2Proof.Machine.execIxadv f ix a ew s
  | .xacq f => Sys2Proof.Machine.execXacq f s
  | .xrel f => Sys2Proof.Machine.execXrel f s
  | .xqry f d => Sys2Proof.Machine.execXqry f d s
  | .illegalInstruction f code wide => Sys2Proof.Machine.execIllegalInstruction f code wide s
  | .pipePick ck half up => Sys2Proof.Machine.execPipePick ck half up s
  | .heldRecordWrite cx => Sys2Proof.Machine.execHeldRecordWrite cx s
  | .loadReturn tk u ecc => Sys2Proof.Machine.execLoadReturn tk u ecc s
  | .storePerform tk u => Sys2Proof.Machine.execStorePerform tk u s
  | .waitaWake tk u => Sys2Proof.Machine.execWaitaWake tk u s
  | .waitaTimeout tk u => Sys2Proof.Machine.execWaitaTimeout tk u s
  | .sleepExpire tk => Sys2Proof.Machine.execSleepExpire tk s
  | .progressWatchdog ck ctx => Sys2Proof.Machine.execProgressWatchdog ck ctx s
  | .poolDeadlock ck => Sys2Proof.Machine.execPoolDeadlock ck s
  | .resourceRoomResume ck half => Sys2Proof.Machine.execResourceRoomResume ck half s
  | .rebalance dk => Sys2Proof.Machine.execRebalance dk s
  | .launchStart lk dk => Sys2Proof.Machine.execLaunchStart lk dk s
  | .startBarrierTimeout lk => Sys2Proof.Machine.execStartBarrierTimeout lk s
  | .launchComplete lk => Sys2Proof.Machine.execLaunchComplete lk s
  | .lbarRelease lk dk => Sys2Proof.Machine.execLbarRelease lk dk s
  | .treadyComplete ck t => Sys2Proof.Machine.execTreadyComplete ck t s
  | .twaitComplete tk u => Sys2Proof.Machine.execTwaitComplete tk u s
  | .copyComplete ck u k => Sys2Proof.Machine.execCopyComplete ck u k s
  | .copyFailure ck u line => Sys2Proof.Machine.execCopyFailure ck u line s
  | .slabStep ck mism => Sys2Proof.Machine.execSlabStep ck mism s
  | .mmacTimeout ck => Sys2Proof.Machine.execMmacTimeout ck s
  | .epilogueRowStep ck k => Sys2Proof.Machine.execEpilogueRowStep ck k s
  | .engineArbitrate pkg port k => Sys2Proof.Machine.execEngineArbitrate pkg port k s
  | .chunkData pkg j k => Sys2Proof.Machine.execChunkData pkg j k s
  | .chunkTriggered pkg j k => Sys2Proof.Machine.execChunkTriggered pkg j k s
  | .chunkAcknowledgement pkg j => Sys2Proof.Machine.execChunkAcknowledgement pkg j s
  | .barrierToken pkg j => Sys2Proof.Machine.execBarrierToken pkg j s
  | .chunkRefusal pkg j => Sys2Proof.Machine.execChunkRefusal pkg j s
  | .collBindTimeout dk comm => Sys2Proof.Machine.execCollBindTimeout dk comm s
  | .collMatchTimeout dk comm => Sys2Proof.Machine.execCollMatchTimeout dk comm s
  | .ringReform dk comm => Sys2Proof.Machine.execRingReform dk comm s
  | .dataFlit pkg port err => Sys2Proof.Machine.execDataFlit pkg port err s
  | .linkAck pkg port err => Sys2Proof.Machine.execLinkAck pkg port err s
  | .linkNak pkg port err => Sys2Proof.Machine.execLinkNak pkg port err s
  | .creditFlit pkg port err => Sys2Proof.Machine.execCreditFlit pkg port err s
  | .ackTimer pkg port => Sys2Proof.Machine.execAckTimer pkg port s
  | .retryTimeout pkg port => Sys2Proof.Machine.execRetryTimeout pkg port s
  | .laneSpare pkg port lane => Sys2Proof.Machine.execLaneSpare pkg port lane s
  | .portDown pkg port => Sys2Proof.Machine.execPortDown pkg port s
  | .portUp pkg port => Sys2Proof.Machine.execPortUp pkg port s
  | .gets pkg j => Sys2Proof.Machine.execGets pkg j s
  | .getm pkg j => Sys2Proof.Machine.execGetm pkg j s
  | .getu pkg j => Sys2Proof.Machine.execGetu pkg j s
  | .putm pkg j => Sys2Proof.Machine.execPutm pkg j s
  | .puto pkg j => Sys2Proof.Machine.execPuto pkg j s
  | .putu pkg j => Sys2Proof.Machine.execPutu pkg j s
  | .flush pkg j => Sys2Proof.Machine.execFlush pkg j s
  | .inv pkg j => Sys2Proof.Machine.execInv pkg j s
  | .fwdgets pkg j => Sys2Proof.Machine.execFwdgets pkg j s
  | .fwdgetm pkg j => Sys2Proof.Machine.execFwdgetm pkg j s
  | .collect pkg j => Sys2Proof.Machine.execCollect pkg j s
  | .ack pkg j => Sys2Proof.Machine.execAck pkg j s
  | .data pkg j => Sys2Proof.Machine.execData pkg j s
  | .nakfirewall pkg j => Sys2Proof.Machine.execNakfirewall pkg j s
  | .errsynth pkg j => Sys2Proof.Machine.execErrsynth pkg j s
  | .homeDequeueRequest line => Sys2Proof.Machine.execHomeDequeueRequest line s
  | .cacheEviction pkg line cache ecc => Sys2Proof.Machine.execCacheEviction pkg line cache ecc s
  | .requestTimeout pkg u => Sys2Proof.Machine.execRequestTimeout pkg u s
  | .probe pkg port err => Sys2Proof.Machine.execProbe pkg port err s
  | .probeReply pkg port err => Sys2Proof.Machine.execProbeReply pkg port err s
  | .lossDeclare pkg q => Sys2Proof.Machine.execLossDeclare pkg q s
  | .lossNotice pkg port err => Sys2Proof.Machine.execLossNotice pkg port err s
  | .memoryScrub line err => Sys2Proof.Machine.execMemoryScrub line err s
  | .laneEyeMeasure pkg port lane hor ver => Sys2Proof.Machine.execLaneEyeMeasure pkg port lane hor ver s
  | .channelSpared pkg mc ch => Sys2Proof.Machine.execChannelSpared pkg mc ch s
  | .regionCompare tk => Sys2Proof.Machine.execRegionCompare tk s
  | .rdmaWrite pkg qp off data ce => Sys2Proof.Machine.execRdmaWrite pkg qp off data ce s
  | .rdmaRead pkg qp off len ce => Sys2Proof.Machine.execRdmaRead pkg qp off len ce s
  | .compareSwap pkg qp off cmp swp ce => Sys2Proof.Machine.execCompareSwap pkg qp off cmp swp ce s
  | .fetchAdd pkg qp off add ce => Sys2Proof.Machine.execFetchAdd pkg qp off add ce s
  | .invalidRequest pkg qp ce => Sys2Proof.Machine.execInvalidRequest pkg qp ce s
  | .featTakeWrite pkg qp off data => Sys2Proof.Machine.execFeatTakeWrite pkg qp off data s
  | .featLockWrite pkg qp v => Sys2Proof.Machine.execFeatLockWrite pkg qp v s
  | .attGo pkg qp v => Sys2Proof.Machine.execAttGo pkg qp v s
  | .cmdFirewallEntry pkg => Sys2Proof.Machine.execCmdFirewallEntry pkg s
  | .cmdEgressFilter pkg => Sys2Proof.Machine.execCmdEgressFilter pkg s
  | .cmdRateLimiter pkg => Sys2Proof.Machine.execCmdRateLimiter pkg s
  | .controlPageWrite pkg qp off data => Sys2Proof.Machine.execControlPageWrite pkg qp off data s
  | .packageReset pkg => Sys2Proof.Machine.execPackageReset pkg s
  | .powerSample pkg mW => Sys2Proof.Machine.execPowerSample pkg mW s
  | .thermalThrottle dk tenths => Sys2Proof.Machine.execThermalThrottle dk tenths s
  | .thermalRecover dk tenths => Sys2Proof.Machine.execThermalRecover dk tenths s
  | .thermalReset dk tenths => Sys2Proof.Machine.execThermalReset dk tenths s
  | .variableLatencyResult tk u => Sys2Proof.Machine.execVariableLatencyResult tk u s
  | .selftestResult pkg j scanFail arrayFail detail => Sys2Proof.Machine.execSelftestResult pkg j scanFail arrayFail detail s
  | .attestationReport pkg => Sys2Proof.Machine.execAttestationReport pkg s
  | .commandApplied pkg => Sys2Proof.Machine.execCommandApplied pkg s
  | .launchAnswer lk => Sys2Proof.Machine.execLaunchAnswer lk s
  | .tokenAccrual pkg port => Sys2Proof.Machine.execTokenAccrual pkg port s

end Sys2Proof.Machine
end

