-- ==== Sys2Proof/Machine/Events.lean ====
section
/-! DEFINITION. What an event of the agenda does: the meaning of the constructor of `Instr` that it stands for. -/

namespace Sys2Proof.Machine

/-- The constructors of `Instr` that are events of the machine and no instruction words. -/
def isEvent : Instr → Bool
  | .pipePick .. | .heldRecordWrite .. | .loadReturn .. | .storePerform .. | .waitaWake .. | .waitaTimeout .. | .sleepExpire ..
  | .progressWatchdog .. | .poolDeadlock .. | .resourceRoomResume .. | .rebalance .. | .launchStart .. | .startBarrierTimeout ..
  | .launchComplete .. | .lbarRelease .. | .treadyComplete .. | .twaitComplete .. | .copyComplete .. | .copyFailure ..
  | .slabStep .. | .mmacTimeout .. | .epilogueRowStep .. | .engineArbitrate .. | .chunkData .. | .chunkTriggered ..
  | .chunkAcknowledgement .. | .barrierToken .. | .chunkRefusal .. | .collBindTimeout .. | .collMatchTimeout .. | .ringReform ..
  | .dataFlit .. | .linkAck .. | .linkNak .. | .creditFlit .. | .ackTimer .. | .retryTimeout .. | .laneSpare .. | .portDown ..
  | .portUp .. | .gets .. | .getm .. | .getu .. | .putm .. | .puto .. | .putu .. | .flush .. | .inv .. | .fwdgets .. | .fwdgetm ..
  | .collect .. | .ack .. | .data .. | .nakfirewall .. | .errsynth .. | .homeDequeueRequest .. | .cacheEviction ..
  | .requestTimeout .. | .probe .. | .probeReply .. | .lossDeclare .. | .lossNotice .. | .memoryScrub .. | .laneEyeMeasure ..
  | .channelSpared .. | .regionCompare .. | .rdmaWrite .. | .rdmaRead .. | .compareSwap .. | .fetchAdd .. | .invalidRequest ..
  | .featTakeWrite .. | .featLockWrite .. | .attGo .. | .cmdFirewallEntry .. | .cmdEgressFilter .. | .cmdRateLimiter ..
  | .controlPageWrite .. | .packageReset .. | .powerSample .. | .thermalThrottle .. | .thermalRecover .. | .thermalReset ..
  | .variableLatencyResult .. | .selftestResult .. | .attestationReport .. | .commandApplied .. | .launchAnswer ..
  | .tokenAccrual .. => true
  | _ => false

/-- An event takes place. One from outside that is no event is passed over. -/
def Ev.run (e : Ev) (s : State) : Out :=
  match e with
  | .outside i => if isEvent i then exec i s else .next s
  | .heldRecordWrite cx => execHeldRecordWrite cx s
  | .loadReturn tk u => execLoadReturn tk u .none s
  | .storePerform tk u => execStorePerform tk u s
  | .waitaWake tk u => execWaitaWake tk u s
  | .waitaTimeout tk u => execWaitaTimeout tk u s
  | .sleepExpire tk => execSleepExpire tk s
  | .progressWatchdog ck ctx => execProgressWatchdog ck ctx s
  | .poolDeadlock ck => execPoolDeadlock ck s
  | .resourceRoomResume ck half => execResourceRoomResume ck half s
  | .rebalance dk => execRebalance dk s
  | .launchStart lk dk => execLaunchStart lk dk s
  | .startBarrierTimeout lk => execStartBarrierTimeout lk s
  | .launchComplete lk => execLaunchComplete lk s
  | .lbarRelease lk dk => execLbarRelease lk dk s
  | .treadyComplete ck t => execTreadyComplete ck t s
  | .twaitComplete tk u => execTwaitComplete tk u s
  | .copyComplete ck u k => execCopyComplete ck u k s
  | .slabStep ck => execSlabStep ck 0 s
  | .mmacTimeout ck => execMmacTimeout ck s
  | .epilogueRowStep ck k => execEpilogueRowStep ck k s
  | .engineArbitrate pkg port k => execEngineArbitrate pkg port k s
  | .chunkData pkg j k => execChunkData pkg j k s
  | .chunkTriggered pkg j k => execChunkTriggered pkg j k s
  | .chunkAcknowledgement pkg j => execChunkAcknowledgement pkg j s
  | .barrierToken pkg j => execBarrierToken pkg j s
  | .chunkRefusal pkg j => execChunkRefusal pkg j s
  | .collBindTimeout dk comm => execCollBindTimeout dk comm s
  | .collMatchTimeout dk comm => execCollMatchTimeout dk comm s
  | .ringReform dk comm => execRingReform dk comm s
  | .dataFlit pkg port => execDataFlit pkg port 0 s
  | .linkAck pkg port => execLinkAck pkg port 0 s
  | .hostOp pkg qp op => .next (s.hostTurn pkg qp false op)
  | .hostSend pkg qp bytes => execHostSend pkg qp bytes s
  | .fwNarrow pkg page clear => execFwNarrow pkg page clear s
  | .sramFixed ck u loc => execSramFixed ck u loc s
  | .linkNak pkg port => execLinkNak pkg port 0 s
  | .creditFlit pkg port => execCreditFlit pkg port 0 s
  | .ackTimer pkg port => execAckTimer pkg port s
  | .retryTimeout pkg port => execRetryTimeout pkg port s
  | .portUp pkg port => execPortUp pkg port s
  | .gets pkg j => execGets pkg j s
  | .getm pkg j => execGetm pkg j s
  | .getu pkg j => execGetu pkg j s
  | .putm pkg j => execPutm pkg j s
  | .puto pkg j => execPuto pkg j s
  | .putu pkg j => execPutu pkg j s
  | .flush pkg j => execFlush pkg j s
  | .inv pkg j => execInv pkg j s
  | .fwdgets pkg j => execFwdgets pkg j s
  | .fwdgetm pkg j => execFwdgetm pkg j s
  | .collect pkg j => execCollect pkg j s
  | .ack pkg j => execAck pkg j s
  | .data pkg j => execData pkg j s
  | .nakfirewall pkg j => execNakfirewall pkg j s
  | .errsynth pkg j => execErrsynth pkg j s
  | .homeDequeueRequest line => execHomeDequeueRequest line s
  | .requestTimeout pkg u => execRequestTimeout pkg u s
  | .probe pkg port => execProbe pkg port 0 s
  | .probeReply pkg port => execProbeReply pkg port 0 s
  | .lossDeclare pkg q => execLossDeclare pkg q s
  | .lossNotice pkg port => execLossNotice pkg port 0 s
  | .regionCompare tk => execRegionCompare tk s
  | .variableLatencyResult tk u => execVariableLatencyResult tk u s
  | .selftestResult pkg j => execSelftestResult pkg j false false 0 s
  | .attestationReport pkg => execAttestationReport pkg s
  | .commandApplied pkg => execCommandApplied pkg s
  | .launchAnswer lk => execLaunchAnswer lk s
  | .tokenAccrual pkg port => execTokenAccrual pkg port s

end Sys2Proof.Machine
end

