-- ==== Sys2Proof/Machine/Schedule.lean ====
section
/-! DEFINITION. Which events a cycle takes when nothing outside has named them (log 1): every event of the rack's own that has
something to do now. Each event's meaning checks its own conditions again, so the order and the choice here are time alone. -/

namespace Sys2Proof.Machine

/-! ### Threads -/

/-- The thread's gang is parked, or it is in none. -/
def State.rests (s : State) (tk : Nat) : Bool :=
  !(s.thr tk).inGang || (s.waitingGang tk).isSome

def numbered {α : Type} (l : List α) (f : α → Bool) : List Nat := (l.zipIdx.filter fun x => f x.1).map (·.2)

/-- Events of one thread's pending operations and store buffer. -/
def State.threadEvents (s : State) (tk : Nat) (t : Thread) : List Ev :=
  let ops := t.pend.flatMap fun q =>
    match q.k with
    | .value .. => if s.rests tk then [Ev.variableLatencyResult tk q.u] else []
    | .acc a | .tldb a _ => (numbered a.pieces fun x => x.got.isNone).map fun i => .loadReturn tk (q.u + i)
    | .waita _ _ d => .waitaWake tk q.u :: (if d.any fun x => decide (x.2 ≤ s.time (pkgOfThr tk)) then [.waitaTimeout tk q.u] else [])
    | .twait .. => [.twaitComplete tk q.u]
    | _ => []
  let orph := t.orph.flatMap fun q =>
    match q.k with
    | .acc a => (numbered a.pieces fun x => x.got.isNone).map fun i => Ev.loadReturn tk (q.u + i)
    | _ => []
  let sb := t.sb.flatMap fun e => (numbered e.pieces fun x => !x.done).map fun i => Ev.storePerform tk (e.u + i)
  let nap := if t.sleep ≠ 0 ∧ t.sleep ≤ s.time (pkgOfThr tk) then [Ev.sleepExpire tk] else []
  let pair := match t.pair with
    | some p => if p.trail && (decide (p.matched < p.ended) || s.faultsAlone tk || s.faultsAlone p.partner) then [Ev.regionCompare tk] else []
    | none => []
  ops ++ orph ++ sb ++ nap ++ pair

/-- Names of accesses of a package whose timer may have run out. -/
def State.timerNames (s : State) : List (Nat × Nat) :=
  let late (c since : Nat) (p : Nat) : Bool := decide (since + (s.ctx p c).timer ≤ s.clock)
  let thr := s.threads.flatMap fun e =>
    let p := pkgOfThr e.1
    ((e.2.pend ++ e.2.orph).filterMap fun q => q.k.acc?.bind fun a => a.since.bind fun n => if late e.2.ctx n p then some (p, q.u) else none)
      ++ e.2.sb.filterMap fun x => x.since.bind fun n => if late e.2.ctx n p then some (p, x.u) else none
  let cmd (p : Nat) (c : Cmd) : Option (Nat × Nat) := if c.asks.any fun x => x.2.2.any fun n => late c.ctx n p then some (p, c.u) else none
  let sent := s.cores.flatMap fun e => e.2.sent.filterMap fun x =>
    x.since.bind fun n => if late x.cmd.ctx n (pkgOfCore e.1) then some (pkgOfCore e.1, x.u) else none
  thr ++ sent ++ (s.cores.flatMap fun e => (e.2.copyq ++ e.2.matq).filterMap (cmd (pkgOfCore e.1)))
    ++ s.dies.flatMap fun e =>
      (e.2.collq ++ e.2.binds.map (·.cmd) ++ e.2.ops.map (·.cmd) ++ e.2.puts).filterMap (cmd (pkgOfDie e.1))

/-! ### Cores, dies and launches -/

/-- Some gang of a half waits for room in a resource. -/
def Pipe.wantsRoom (p : Pipe) : Bool :=
  (p.gang.toList ++ p.parked ++ p.excess).any fun g => match g.why with | .room _ => true | _ => false

def State.coreEvents (s : State) (ck : Nat) (c : Core) : List Ev :=
  let tiles := (c.tiles.filter fun t => t.2.publ).map fun t => Ev.treadyComplete ck t.1
  let copies := (c.sent.map fun x => Ev.copyComplete ck x.u 0) ++ c.copyq.flatMap fun q => [Ev.copyComplete ck q.u 0, .copyComplete ck q.u 1]
  let mat := match s.matHead ck with
    | some q =>
      (match q.k with
       | .mma _ | .mmab _ | .mmac .. => [Ev.slabStep ck]
       | .mepi .. => [Ev.epilogueRowStep ck 0]
       | _ => [])
    | none => []
  let grid := if (s.die (dkOf ck)).grids.any fun g => !g.full && g.mem.any fun m => m.ck == ck then [Ev.mmacTimeout ck] else []
  let room := [0, 1].filterMap fun h => if (c.pipe h).wantsRoom then some (Ev.resourceRoomResume ck h) else none
  let dog := (((s.coreThreads ck).filter fun e => decide (watchdogCycles ≤ e.2.ready)).map fun e => e.2.ctx).eraseDups.map
    fun x => Ev.progressWatchdog ck x
  let dead := if deadlockCycles ≤ c.dead then [Ev.poolDeadlock ck] else []
  tiles ++ copies ++ mat ++ grid ++ room ++ dog ++ dead

def State.dieEvents (s : State) (dk : Nat) (d : Die) : List Ev :=
  let work := !d.ops.isEmpty || !d.binds.isEmpty || !d.collq.isEmpty || !d.trigs.isEmpty
  let arb := if work then (List.range 17).map fun k => Ev.engineArbitrate (pkgOfDie dk) k 0 else []
  let binds := d.binds.map fun b => Ev.collBindTimeout dk b.comm
  let ops := (d.ops.filter fun o => !o.begun).map fun o => Ev.collMatchTimeout dk o.comm
  let ring := (d.ops.filter (·.begun)).map fun o => Ev.ringReform dk o.comm
  let bal := if s.clock % 1024 = 0 then [Ev.rebalance dk] else []
  arb ++ binds ++ ops ++ ring ++ bal

def launchEvents (lk : Nat) (l : Launch) : List Ev :=
  .launchAnswer lk :: .launchComplete lk :: .startBarrierTimeout lk
    :: l.dies.flatMap fun d => [.launchStart lk d.dk] ++ if d.lbarSeen < l.lbarN then [.lbarRelease lk d.dk] else []

/-! ### Messages, links and homes -/

/-- The event of a message that has arrived. -/
def Msg.event (m : Msg) : Ev :=
  let p := m.dst
  match m.ty with
  | .getS => .gets p m.u | .getM => .getm p m.u | .getU => .getu p m.u | .putM => .putm p m.u | .putO => .puto p m.u
  | .putU => .putu p m.u | .flush => .flush p m.u | .inv => .inv p m.u | .fwdGetS => .fwdgets p m.u | .fwdGetM => .fwdgetm p m.u
  | .collect => .collect p m.u | .ack => .ack p m.u | .data => .data p m.u | .nak => .nakfirewall p m.u | .err => .errsynth p m.u
  | .chunk =>
    if m.kind = 0 then .chunkData p m.u 0 else if m.kind = 1 then .chunkAcknowledgement p m.u
    else if m.kind = 2 then .barrierToken p m.u else if m.kind = 3 then .chunkRefusal p m.u else .chunkTriggered p m.u 0

/-- Messages that have come, by source package (R340: partials of one cycle are combined in that order). -/
def State.msgEvents (s : State) : List Ev :=
  (List.range 16).flatMap fun q => (s.net.filter fun m => m.src == q && m.st == .arrived).map Msg.event

/-- Cycles between a recovery engine's probes (log 44). -/
def probeCycles : Nat := 10 * cyclesPerUs

/-- Events of one port: what comes over its link, its timers, training, and probes. -/
def State.portEvents (s : State) (p k : Nat) : List Ev :=
  match s.peer p k with
  | none => []
  | some (q, j) =>
    let v := s.port p k
    let o := s.port q j
    if v.isolated then o.wire.map fun _ => Ev.dataFlit p k
    else if !v.up then (if o.isolated || !(s.pkg q).booted || q < p then [] else [.portUp p k])
    else
      let flits := o.wire.map fun _ => Ev.dataFlit p k
      let ctl := o.ctl.filterMap fun c =>
        if c.kind = 1 then some (Ev.linkAck p k) else if c.kind = 2 then some (.linkNak p k)
        else if c.kind = 3 then some (.creditFlit p k) else if c.kind = 4 then some (.lossNotice p k)
        else if c.kind = 5 then some (.probe p k) else if c.kind = 6 then some (.probeReply p k) else none
      let ackNow := if decide (v.ackT + 256 ≤ s.clock) && (v.accepted != 0 || (List.range 8).any fun c => v.owes c != 0) then [Ev.ackTimer p k] else []
      let retry := if !v.retry.isEmpty && decide (v.oldest + 2048 ≤ s.clock) then [Ev.retryTimeout p k] else []
      let token := if v.tokens < 256 * v.burst then [Ev.tokenAccrual p k] else []
      let probe := if decide (v.probeT + probeCycles ≤ s.clock) && !(s.probed p q).isEmpty then [Ev.probe p k] else []
      flits ++ ctl ++ ackNow ++ retry ++ token ++ probe

def State.pkgEvents (s : State) (p : Nat) (k : Pkg) : List Ev :=
  if !k.booted then []
  else
    let ports := (List.range 16).flatMap fun i => s.portEvents p i
    let lost := (List.range 16).filterMap fun q =>
      match (s.path p q).silent with
      | some t => if decide (t + 100 * cyclesPerUs ≤ s.clock) && !s.direct p q then some (Ev.lossDeclare p q) else none
      | none => none
    let tests := k.tests.map fun t => Ev.selftestResult p t.1
    let man := (if k.attStatus = 1 then [Ev.attestationReport p] else []) ++ if k.cmdStatus = 1 then [Ev.commandApplied p] else []
    ports ++ lost ++ tests ++ man

/-- Everything the rack would do of itself in the coming cycle. -/
def State.autoEvents (s : State) : List Ev :=
  (s.threads.flatMap fun e => s.threadEvents e.1 e.2)
    ++ (s.cores.flatMap fun e => s.coreEvents e.1 e.2)
    ++ (s.dies.flatMap fun e => s.dieEvents e.1 e.2)
    ++ (s.launches.flatMap fun e => launchEvents e.1 e.2)
    ++ ((s.ctxs.filter fun e => !e.2.held.isEmpty).map fun e => Ev.heldRecordWrite e.1)
    ++ s.msgEvents
    ++ ((s.dirs.filter fun e => e.2.tx.isNone && !e.2.queue.isEmpty).map fun e => Ev.homeDequeueRequest e.1)
    ++ (s.pkgs.flatMap fun e => s.pkgEvents e.1 e.2)
    ++ s.timerNames.map fun x => Ev.requestTimeout x.1 x.2

end Sys2Proof.Machine
end

