-- ==== Sys2Proof/Machine/Step.lean ====
section
/-! DEFINITION. One step of the machine (log 1): an event that has been named, one lane of the word being issued, one pipe's turn,
or the beginning of the next cycle. -/

namespace Sys2Proof.Machine

/-- The partial that an event brings to a home: the line, and the package it comes from. -/
def State.partialOf (s : State) (e : Ev) : Option (Nat × Nat) :=
  let of (p j : Nat) (ty : MsgTy) : Option (Nat × Nat) := (s.arrived p j ty).bind fun m => if m.part.isSome then some (m.line, m.src) else none
  match e with
  | .data p j => of p j .data
  | .putu p j => of p j .putU
  | .outside (.data p j) => of p j .data
  | .outside (.putu p j) => of p j .putU
  | _ => none

/-- The event of a list that brings a line's partial from the lowest package, or `e` itself. -/
def State.lowest (s : State) (line : Nat) (e : Ev) (l : List Ev) : Ev :=
  let src (x : Ev) : Nat := match s.partialOf x with | some y => if y.1 = line then y.2 else 16 | none => 16
  l.foldl (fun m x => if src x < src m then x else m) e

/-- Partials of one line that come in one cycle are combined in ascending order of source package (R340; log 98). -/
def State.bySource (s : State) : Nat → List Ev → List Ev
  | 0, l => l
  | _, [] => []
  | n + 1, e :: rest =>
    match s.partialOf e with
    | none => e :: s.bySource n rest
    | some (line, _) =>
      let m := s.lowest line e rest
      m :: s.bySource n (if m = e then rest else rest.map fun x => if x = m then e else x)

/-- A cycle begins: ages and the clock go on, and the cycle's events are those that the schedule names or, where it names none,
those the rack takes of itself. A request timer that has expired is among them in any case (R343, R463). -/
def nextCycle (s : State) : State :=
  let s := s.askAll.beat
  match s.sched with
  | l :: rest =>
    { s with sched := rest, agenda := s.bySource l.length l ++ s.timerNames.map fun x => Ev.requestTimeout x.1 x.2 }
  | [] => { s with agenda := s.autoEvents }

/-- One step. -/
def step (s : State) : Host.Outcome State Fault Refusal :=
  match s.agenda with
  | e :: rest => e.run { s with agenda := rest }
  | [] =>
    match s.iss with
    | some i =>
      match i.g.todo with
      | [] => .next (s.checkWord (frameOf i.g.word).park)
      | tk :: _ => exec (s.refine tk i.g.instr) s
    | none =>
      match s.turn with
      | (ck, half) :: rest =>
        let s : State := { s with turn := rest }
        match (s.pipe ck half).gang with
        | some g => .next (s.pipeTurn ck half g)
        | none => exec (.pipePick ck half .none) s
      | [] => .next (nextCycle s)

/-- The class of a clause that may hold an opcode group (R55). -/
def classFor (grp : Nat) : Nat := if grp = 9 ∨ grp = 10 then 1 else if grp = 12 then 2 else 0

/-- A header of a class for a clause of one word or two. -/
def headerFor (cls : Nat) (two : Bool) : Word := BitVec.ofNat 64 (0xA0000000 + 16 * cls + if two then 1 else 0)

/-- A thread of the supervisor's context stands at the one instruction of a clause that it has just read, alone in its gang, in
the pipe of half 0 of core 0 (log 60): the next step issues it. -/
def State.withFetchWord (s : State) (nbits w : Nat) : State :=
  let v := w % 2 ^ nbits
  let w0 : Word := BitVec.ofNat 64 v
  let lit : Word := BitVec.ofNat 64 (v / 2 ^ 64)
  let two := hasLiteral w0
  let hdr := headerFor (classFor ((RawW.ofWord w0).op.toNat / 64)) two
  let words := if two then [w0, lit] else [w0]
  let g : Gang := { ctx := 0, hpc := 0, hdr := hdr, words := words, members := [0], todo := [0], order := [0], gid := s.uid, anyOn := true }
  let t : Thread := { s.thr 0 with st := .live, ctx := 0, pc := 8, hpc := 0, hdr := hdr, fresh := false, mid := false, inGang := true }
  let s := (s.modPkg 0 fun k => { k with present := true, booted := true }).setThr 0 t
  let s := match s.ctx? 0 0 with
    | some _ => s
    | none => s.setCtx 0 0 (s.pkg 0).conf.sup
  { s.modCore 0 fun c => { c with p0 := { c.p0 with gang := some g } } with
    uid := s.uid + 16, agenda := [], iss := some ⟨0, 0, g⟩ }

end Sys2Proof.Machine
end

