-- ==== Sys2Proof/Safety.lean ====
section
/-! DEFINITION. The terms that claims use: a well-formed state and a safe step, and a thread that stands at a word whose checks
all pass (R75), with what the word's own effect acts on and what follows it. -/

namespace Sys2Proof.Machine

/-- Every table of the state is in rising key order and memory is in its canonical form (log 3). -/
def State.wf (s : State) : Bool :=
  Mem.wf s.mem && Tab.rising s.threads && Tab.rising s.cores && Tab.rising s.dies && Tab.rising s.pkgs && Tab.rising s.ctxs
    && Tab.rising s.launches && Tab.rising s.dirs

/-- The machine goes on. -/
def Goes (o : Out) : Prop := ∃ t, o = .next t

/-- The outcome is a next state, and that state is well formed. -/
def SafeStep (s : State) : Prop := ∃ t, step s = .next t ∧ t.wf = true

/-- A member of the gang whose word is being issued: its thread, the gang with its pipe, the word's frame, what the word names,
and its operands after Resolve. -/
structure Stand where
  i : Issue
  tk : Nat
  f : Frame
  u : Use
  r : Resolved
  deriving DecidableEq, Repr

/-- The state once values that have left the thread's forwarding window are in the banks (R131). -/
def Stand.aged (w : Stand) (s : State) : State := s.modThr w.tk fun t => { t with r := t.r.age w.i.g.wn }

/-- The operands' values. -/
def Stand.vals (w : Stand) (s : State) : List (Nat × RV × Word) := (w.aged s).values w.tk w.u w.r

/-- The state once a leading copy of a pair has passed on what its trailing copy needs (R404); a thread of no pair passes
nothing. -/
def Stand.gated (w : Stand) (s : State) : State :=
  match (w.aged s).pairGate w.tk w.u true w.r (w.vals s) with
  | .ok t => t
  | .error _ => w.aged s

/-- What the word's own effect acts on: index registers have stepped, and last-use flags have discarded (R70, R132). -/
def Stand.begun (w : Stand) (s : State) : State := (w.gated s).modThr w.tk fun t => t.consume w.r

/-- The member with its operands, as the word's own effect sees it. -/
def Stand.lane (w : Stand) (s : State) : Lane := ⟨w.tk, w.i, w.f, w.u, w.r, w.vals s, ((w.gated s).thr w.tk).r⟩

/-- What follows the word's own effect `t`: the thread's program counter moves past the word, and the gang goes on. -/
def Stand.done (w : Stand) (s t : State) : State := (t.pairAfter w.tk (s.thr w.tk).nw w.u).retire w.tk w.f

/-- The thread's word meets none of the checks of R75 that come before its own effect: no failure waits to be raised, feature and
privilege are there, no member waits for a register, the guards hold, the operands resolve, nothing it touches is pending in
this run, INJECT is armed for no member of a gang under tandem issue, nothing it reads is poisoned, and the accesses that a release stands after have performed. -/
structure Stand.Clear (w : Stand) (s : State) : Prop where
  issuing : s.iss = some w.i
  first : w.i.g.todo.head? = some w.tk
  calm : (s.thr w.tk).late = []
  legal : (w.aged s).decodeFault w.tk w.u = none
  ready : (w.aged s).gangWaits w.i.g.todo w.f w.u = []
  guardsKnown : framePreds w.f &&& (s.thr w.tk).r.runP = 0
  same : w.i.g.tandem = true → (w.aged s).tandemArmed w.i = false
  guards : frameOn w.f (s.thr w.tk).r.p = true
  names : resolve ((w.aged s).thr w.tk) w.u = .ok w.r
  regsKnown : (w.r.touch w.u w.f).1 &&& (s.thr w.tk).r.runG = 0
  predsKnown : (w.r.touch w.u w.f).2 &&& (s.thr w.tk).r.runP = 0
  sound : (w.aged s).poisoned w.tk (w.r.reads w.u) = none
  released : w.u.rel = true → (s.thr w.tk).relReady = true
  copied : ∃ t, (w.aged s).pairGate w.tk w.u true w.r (w.vals s) = .ok t

/-- The instruction completes: its own effect is `t`, and the thread goes on past the word. -/
def Stand.Completes (w : Stand) (s : State) (ins : Instr) (t : State) : Prop := exec ins s = .next (w.done s t)

/-- The instruction completes with a result in its destination register, and `P` holds of the result. -/
def Stand.Writes (w : Stand) (s : State) (ins : Instr) (P : Word → Prop) : Prop :=
  ∃ v, w.Completes s ins ((w.begun s).put (w.lane s) v) ∧ P v

/-- The instruction completes with a result that is pending until it arrives in its destination register, and `P` holds of it. -/
def Stand.Sends (w : Stand) (s : State) (ins : Instr) (P : Word → Prop) : Prop :=
  ∃ v, w.Completes s ins ((w.begun s).sendPut (w.lane s) v) ∧ P v

/-- The instruction completes with a predicate written, and nothing else. -/
def Stand.Tests (w : Stand) (s : State) (ins : Instr) (pd : BitVec 3) (b : Bool) : Prop :=
  w.Completes s ins ((w.begun s).setP w.tk pd b)

/-- The instruction raises a fault at its word, with none of its effects. -/
def Stand.Faults (w : Stand) (s : State) (ins : Instr) (x : FI) : Prop :=
  exec ins s = .next ((w.aged s).wordFault w.tk x w.f.park)

/-- The instruction waits: its gang leaves the pipe and issues the word again later. -/
def Stand.Parks (w : Stand) (s : State) (ins : Instr) (y : Why) : Prop :=
  exec ins s = .next ((w.aged s).parkGang w.i w.i.g y)

/-- The instruction makes `t` of the state and waits: its gang leaves the pipe and issues the word again later. -/
def Stand.Starts (w : Stand) (s : State) (ins : Instr) (t : State) (y : Why) : Prop :=
  exec ins s = .next (t.parkGang w.i w.i.g y)

/-- The instruction needs a home that cannot be reached: it waits for a path as a load's request does, and is fault 0x0B once the
context's timeout has passed (R331, R343). -/
def Stand.Awaits (w : Stand) (s : State) (ins : Instr) (q : Nat) (a : Word) : Prop :=
  if (w.begun s).askOver w.tk = true then w.Faults s ins { code := 0x0B, addr := a }
  else w.Starts s ins ((w.begun s).askNow w.tk) (.path q)

/-- A word that a tandem pair performs once (R389, R404): the trailing copy parks until its leading copy has passed a value for the
word and goes on with `put` of it, a leading copy whose queue is full parks, and otherwise `P` holds. -/
def Stand.Once (w : Stand) (s : State) (ins : Instr) (put : State → Word → State) (P : Prop) : Prop :=
  let b := w.begun s
  let t := b.thr w.tk
  (t.trails = true →
    (b.passed w.tk t.nw = none → w.Parks s ins .passed)
    ∧ ∀ x, b.passed w.tk t.nw = some x → w.Completes s ins (put (b.takePassed w.tk t.nw false) (x.v.headD 0)))
  ∧ (t.trails = false → t.leads = true → b.inqRoom w.tk = false → w.Parks s ins .copies)
  ∧ (t.trails = false → (t.leads = true → b.inqRoom w.tk = true) → P)

/-- The value `v` of the word as a leading copy passes it to its trailing copy; a thread of no pair passes nothing. -/
def Stand.passing (w : Stand) (s t : State) (v : Word) : State :=
  t.pass w.tk { pos := ((w.begun s).thr w.tk).nw, src := false, v := [v] }

/-- A word that a tandem pair performs once holds its gang until it has completed with the value `v`, which is known in `t` (R389). -/
def Stand.Answers (w : Stand) (s : State) (ins : Instr) (t : State) (v : Word) : Prop :=
  w.Once s ins (fun t v => t.writeRD w.tk w.r.d [v]) (w.Completes s ins (w.passing s (t.holdFor (w.lane s) none (some v)) v))

/-- Element `k` of an operand as an integer of a modifier's width and signedness (R26, R60, R145). -/
def sAt (m : IMod) (v : RV) (k : Nat) : Int := toInt (wbits m.w) m.sgn (elem (v.ints (wbits m.w)) (wbits m.w) k)

/-- Element `k` of an operand as an unsigned number of width `n`. -/
def uAt (n : Nat) (v : RV) (k : Nat) : Nat := elem (v.ints n) n k

/-- What an exact element becomes: clamped under saturate, then modulo 2^w (R145). -/
def cutTo (m : IMod) (x : Int) : Nat := wrap (wbits m.w) (if m.sat then satInt (wbits m.w) m.sgn x else x)

end Sys2Proof.Machine
end

