-- ==== Sys2Proof/Safety/Exact.lean ====
section
/-! DEFINITION. What an exact number becomes (R39 to R41): the terms in which claims say that a result is the rounding of a real
number. -/

namespace Sys2Proof.Machine

/-- The number that a finite value stands for. -/
noncomputable def FV.real : FV → ℝ
  | .fin n m e => (if n then -1 else 1) * (m * (2 : ℝ) ^ e)
  | _ => 0

/-- The code of m * 2^e with a sign in a format: RoundTo, Sat where saturation is on, and encoding (R39 to R41). -/
def FD.rounded (q : FD) (md : Rnd) (sat n : Bool) (m : Nat) (e : Int) : Nat :=
  let y := roundTo q md n m e
  q.encode (if sat then q.sat y else y)

/-- `c` is the code of the number of sign `n` and magnitude `x`: the code of every two numbers that enclose the magnitude and have one
code (R39). A number m * 2^e encloses itself; any other number lies between two such numbers. -/
def RoundsTo (q : FD) (md : Rnd) (sat n : Bool) (x : ℝ) (c : Nat) : Prop :=
  ∀ (m k : Nat) (e d : Int), m ≠ 0 → m * (2 : ℝ) ^ e ≤ x → x ≤ k * (2 : ℝ) ^ d →
    q.rounded md sat n m e = q.rounded md sat n k d → c = q.rounded md sat n m e

/-- `t` is `x` rounded to an integer: the nearest with ties to the even one, toward zero, up or down (R39). -/
def RoundsToInt (md : Rnd) (x : ℝ) (t : Int) : Prop :=
  match md with
  | .rne => |x - t| ≤ 1 / 2 ∧ (|x - t| = 1 / 2 → t % 2 = 0)
  | .rz => if 0 ≤ x then t = ⌊x⌋ else t = ⌈x⌉
  | .ru => t = ⌈x⌉
  | .rd => t = ⌊x⌋

/-- The range that Sat clamps an integer into (R40). -/
def clampTo (w : Nat) (sgn : Bool) (t : Int) : Int :=
  if sgn then max (-(2 ^ (w - 1))) (min (2 ^ (w - 1) - 1) t) else max 0 (min (2 ^ w - 1) t)

end Sys2Proof.Machine
end

