-- ==== Sys2Proof/WellFormed.lean ====
section
/-! DEFINITION. Well-formed instructions: the terms that some legal word (and literal) stands for (R61 to R69, R73). -/

namespace Sys2Proof

/-- Why a term is no legal instruction word. -/
inductive Ill where
  /-- An event or the step of an illegal word: nothing encodes it. -/
  | notWord
  /-- A form that the machine takes from another constructor's word by its image or operand (COLL, SYSWR to INJECT). -/
  | refined
  /-- Two literals (R61). -/
  | literal
  /-- A destination the operation does not take (R62). -/
  | destination
  /-- A reserved field or last-use flag that is not zero (R63, R67, R68). -/
  | reservedField
  /-- A selector, part, mask register or register code the entry reserves. -/
  | selector
  deriving DecidableEq, Repr

/-- Whether the constructor is a refinement: its word decodes to another constructor, and the step replaces it. -/
def isRefined : Instr → Bool
  | .collReduceScatter .. | .collAllGather .. | .collAllReduceRing .. | .collAllReduceTree .. | .collBroadcast ..
  | .collBarrier .. | .collDrawMerge .. | .injectWrite .. => true
  | _ => false

/-- The first check that a term fails. -/
def illFormed (i : Instr) : Option Ill :=
  match encodeRaw i with
  | none => some .notWord
  | some r =>
    match rowOf r.op with
    | none => some .notWord
    | some row =>
      if isRefined i then some .refined
      else if 1 < row.literals r then some .literal
      else if !row.d.okDst r.e r.d then some .destination
      else if !(row.a.okSrc r.e r.a r.la && row.b.okSrc r.e r.b r.lb && row.c.okSrc r.e r.c r.lc
          && row.e.okSrc r.e r.e r.le && row.md.ok r.md && hintOk r) then some .reservedField
      else if !selectorsOk r then some .selector
      else none

/-- A well-formed instruction. -/
def wellFormed (i : Instr) : Bool := (illFormed i).isNone

end Sys2Proof
end

