-- ==== Sys2Proof/Certificates/Slice0/Obligations.lean ====
section
/-! DEFINITION. The statements about the model, for the provers. A statement about a word speaks of any thread that stands at the
word with none of the checks of R75 in its way (`Stand.Clear`); `Completes` says the whole next state. -/

open Sys2Proof Sys2Proof.Machine

/-! ### Integer words (R145 to R162) -/

/-- Sums, products, quotients, minima and differences, element by element: the exact result, clamped under saturate, modulo
2^w (R145, R150, R151, R152, R153). The one-operand and three-operand forms: magnitude and negation, multiply-add, sum of
differences, clamping to a range (R151, R153). -/
def Obligations.IntegerElements : Prop :=
  (∀ (w : Stand) (s : State) (m : IMod) (o : O2), w.u = use2 o → w.Clear s →
      let a := sAt m (w.lane s).a
      let b := sAt m (w.lane s).b
      let els (t : Nat → Int) (v : Word) : Prop := ∀ k, k < 64 / wbits m.w → elem v (wbits m.w) k = cutTo m (t k)
      w.Writes s (.iadd w.f m o) (els fun k => a k + b k)
        ∧ w.Writes s (.isub w.f m o) (els fun k => a k - b k)
        ∧ w.Writes s (.imul w.f m o) (els fun k => a k * b k)
        ∧ w.Writes s (.imulh w.f m o) (els fun k => a k * b k / 2 ^ wbits m.w)
        ∧ w.Writes s (.idiv w.f m o) (els fun k => if b k = 0 then 2 ^ wbits m.w - 1 else (a k).tdiv (b k))
        ∧ w.Writes s (.irem w.f m o) (els fun k => if b k = 0 then a k else (a k).tmod (b k))
        ∧ w.Writes s (.imin w.f m o) (els fun k => min (a k) (b k))
        ∧ w.Writes s (.imax w.f m o) (els fun k => max (a k) (b k)))
  ∧ ((∀ (w : Stand) (s : State) (m : IMod) (o : O1), w.u = use1 o → w.Clear s →
      let a := sAt m (w.lane s).a
      let els (t : Nat → Int) (v : Word) : Prop := ∀ k, k < 64 / wbits m.w → elem v (wbits m.w) k = cutTo m (t k)
      w.Writes s (.iabs w.f m o) (els fun k => (a k).natAbs) ∧ w.Writes s (.ineg w.f m o) (els fun k => -a k))
    ∧ ∀ (w : Stand) (s : State) (m : IMod) (o : O3), w.u = use3 o → w.Clear s →
      let a := sAt m (w.lane s).a
      let b := sAt m (w.lane s).b
      let c := sAt m (w.lane s).c
      let els (t : Nat → Int) (v : Word) : Prop := ∀ k, k < 64 / wbits m.w → elem v (wbits m.w) k = cutTo m (t k)
      w.Writes s (.imad w.f m o) (els fun k => a k * b k + c k)
        ∧ w.Writes s (.isad w.f m o) (els fun k => c k + (a k - b k).natAbs)
        ∧ w.Writes s (.iclamp w.f m o) (els fun k => min (max (a k) (b k)) (c k)))

/-- The widening products: IMADW adds products of elements of width w to elements of width 2w, IDOT4 and IDOT2 add four or two
products to each 32-bit element (R151). Sums with a status: the wrapped elements, and in the status predicate whether some
exact element is out of range, or the carry out of the highest element (R150). -/
def Obligations.ProductsAndStatus : Prop :=
  (∀ (w : Stand) (s : State) (m : IMod) (o : O3), w.u = use3 o → w.Clear s →
      let x (n : Nat) (v : RV) (k : Nat) : Int := toInt n m.sgn (uAt n v k)
      let cut32 (t : Int) : Nat := wrap 32 (if m.sat then satInt 32 m.sgn t else t)
      let n := wbits m.w
      let a := (w.lane s).a
      let b := (w.lane s).b
      let c := (w.lane s).c
      (m.w ≠ .w64 → w.Writes s (.imadw w.f m o) fun v => ∀ j, j < 64 / n / 2 →
        let i := j + if m.sat then 64 / n / 2 else 0
        elem v (2 * n) j = wrap (2 * n) (x n a i * x n b i + x (2 * n) c j))
      ∧ w.Writes s (.idot4 w.f m o) (fun v => ∀ h, h < 2 → elem v 32 h = cut32 (x 32 c h + x 8 a (4 * h) * x 8 b (4 * h)
          + x 8 a (4 * h + 1) * x 8 b (4 * h + 1) + x 8 a (4 * h + 2) * x 8 b (4 * h + 2)
          + x 8 a (4 * h + 3) * x 8 b (4 * h + 3)))
      ∧ w.Writes s (.idot2 w.f m o) (fun v => ∀ h, h < 2 → elem v 32 h = cut32 (x 32 c h + x 16 a (2 * h) * x 16 b (2 * h)
          + x 16 a (2 * h + 1) * x 16 b (2 * h + 1))))
  ∧ (∀ (w : Stand) (s : State) (m : IMod) (o : O2) (pe : BitVec 3) (pc : PredN), w.Clear s →
      let a := sAt m (w.lane s).a
      let b := sAt m (w.lane s).b
      let n := wbits m.w
      let out (ins : Instr) (P : Word → Bool → Prop) : Prop :=
        ∃ v q, w.Completes s ins (((w.begun s).put (w.lane s) v).setP w.tk pe q) ∧ P v q
      let status (t : Nat → Int) (v : Word) (q : Bool) : Prop :=
        (∀ k, k < 64 / n → elem v n k = wrap n (t k)) ∧
          (q = true ↔ ∃ k, k < 64 / n ∧ satInt n m.sgn (t k) ≠ t k)
      (w.u = { use2 o with pw := predBit pe } →
        out (.iadds w.f m o pe) (status fun k => a k + b k) ∧ out (.isubs w.f m o pe) (status fun k => a k - b k))
      ∧ (w.u = { use2 o with pr := predBit pc.p, pw := predBit pe } →
        out (.iaddc w.f m o pc pe) fun v q =>
          let t (k : Nat) : Nat := uAt n (w.lane s).a k + uAt n (w.lane s).b k
            + if guardHolds ((w.begun s).thr w.tk).r.p pc then 1 else 0
          (∀ k, k < 64 / n → elem v n k = t k % 2 ^ n) ∧ (q = true ↔ 2 ^ n ≤ t (64 / n - 1))))

/-- Moves, addresses and selection act on the whole register. AND, OR, XOR, ANDN and NOT act bit by bit on all 64 bits (R155);
BFN3 takes bit A + 2B + 4C of its table. A special register, a small immediate and a literal read as the thread, its place and
its launch give them. -/
def Obligations.MovesAndLogic : Prop :=
  ((∀ (w : Stand) (s : State) (o : O1), w.u = use1 o → w.Clear s →
      w.Writes s (.mov w.f o) fun v => v = (w.lane s).a.w64)
    ∧ (∀ (w : Stand) (s : State) (m : IMod) (d : Dst) (imm : BitVec 28), w.u = { dst := some d } → w.Clear s →
      w.Writes s (.movi w.f m d imm) fun v => ∀ k, k < 64 / wbits m.w →
        elem v (wbits m.w) k = wrap (wbits m.w) (if m.sgn then imm.toInt else imm.toNat))
    ∧ (∀ (w : Stand) (s : State) (o : O2) (sh : BitVec 6), w.u = use2 o → w.Clear s →
      let a := (w.lane s).a.w64.toNat
      let b := (w.lane s).b.w64.toNat
      w.Writes s (.movhi w.f o) (fun v => v.toNat = a % 2 ^ 32 + b % 2 ^ 32 * 2 ^ 32)
        ∧ w.Writes s (.lea w.f o sh) (fun v => v.toNat = (a + b * 2 ^ sh.toNat) % 2 ^ 64))
    ∧ (∀ (w : Stand) (s : State) (o : O2) (pc : PredN), w.u = { use2 o with pr := predBit pc.p } → w.Clear s →
      w.Writes s (.sel w.f o pc) fun v =>
        v = if guardHolds ((w.begun s).thr w.tk).r.p pc then (w.lane s).a.w64 else (w.lane s).b.w64)
    ∧ ∀ (s : State) (tk : Nat) (x : RSrc),
      let t := s.thr tk
      let p := pkgOfThr tk
      let own := match t.pair with | some q => if q.trail then q.partner else tk | none => tk
      let as (o : Opd) (n : Nat) : Prop := x.opd = o → (s.value tk x).w64 = BitVec.ofNat 64 n
      as (.spec .zero) 0 ∧ as (.spec .one) 1 ∧ as (.spec .tid) t.tid.toNat ∧ as (.spec .slot) (slotOf own)
        ∧ as (.spec .core) (coreOf (ckOf own)) ∧ as (.spec .quad) (coreOf (ckOf own) / 4) ∧ as (.spec .die) (dieIx (dkOf (ckOf tk)))
        ∧ as (.spec .pkg) p ∧ as (.spec .cell) (s.pkg p).cell ∧ as (.spec .stage) t.stage
        ∧ (t.grp = none → as (.spec .rank) (2 ^ 64 - 1) ∧ as (.spec .gsize) 0)
        ∧ (∀ e sn r, t.grp = some (e, sn, r) → as (.spec .rank) r
          ∧ ∀ g, Tab.look (s.core (ckOf tk)).grps e = some g → as (.spec .gsize) g.ranks.length)
        ∧ (∀ lk la, t.launch = some lk → Tab.look s.launches lk = some la →
          as (.spec .launch) la.handle.toNat ∧ as (.spec .gen) la.gen.toNat ∧ as (.spec .ntid) la.ntid)
        ∧ (t.pair = none → as (.spec .clock) (s.clockOf p))
        ∧ (∀ k : Fin 31, x.opd = .imm k → (s.value tk x).w64 = BitVec.ofInt 64 ((k.val : Int) - 15)) ∧ ∀ v : Word, as (.lit v) v.toNat)
  ∧ ((∀ (w : Stand) (s : State) (o : O2), w.u = use2 o → w.Clear s →
      let a (i : Nat) : Bool := (w.lane s).a.w64.getLsbD i
      let b (i : Nat) : Bool := (w.lane s).b.w64.getLsbD i
      let bits (t : Nat → Bool) (v : Word) : Prop := ∀ i, i < 64 → v.getLsbD i = t i
      w.Writes s (.and w.f o) (bits fun i => a i && b i)
        ∧ w.Writes s (.or w.f o) (bits fun i => a i || b i)
        ∧ w.Writes s (.xor w.f o) (bits fun i => a i != b i)
        ∧ w.Writes s (.andn w.f o) (bits fun i => a i && !b i))
    ∧ (∀ (w : Stand) (s : State) (o : O1), w.u = use1 o → w.Clear s →
      w.Writes s (.not w.f o) fun v => ∀ i, i < 64 → v.getLsbD i = !(w.lane s).a.w64.getLsbD i)
    ∧ ∀ (w : Stand) (s : State) (o : O3) (tab : BitVec 8), w.u = use3 o → w.Clear s →
      let x (v : RV) (i : Nat) : Nat := if v.w64.getLsbD i then 1 else 0
      w.Writes s (.bfn3 w.f o tab) fun v => ∀ i, i < 64 →
        v.getLsbD i = tab.getLsbD (x (w.lane s).a i + 2 * x (w.lane s).b i + 4 * x (w.lane s).c i))

/-- Shifts and rotates of elements (R157). -/
def Obligations.Shifts : Prop :=
  (∀ (w : Stand) (s : State) (m : IMod) (o : O2), w.u = use2 o → w.Clear s →
    let n := wbits m.w
    let a := uAt n (w.lane s).a
    let x := uAt n (w.lane s).b
    let els (t : Nat → Nat) (v : Word) : Prop := ∀ k, k < 64 / n → elem v n k = t k
    let sa (k : Nat) : Int := toInt n true (a k)
    w.Writes s (.shl w.f m o) (els fun k => if x k < n then a k * 2 ^ x k % 2 ^ n else 0)
      ∧ w.Writes s (.shr w.f m o) (els fun k => if x k < n then a k / 2 ^ x k else 0)
      ∧ w.Writes s (.sar w.f m o)
        (els fun k => if x k < n then wrap n (sa k / 2 ^ x k) else if sa k < 0 then 2 ^ n - 1 else 0)
      ∧ w.Writes s (.rol w.f m o) (els fun k => a k * 2 ^ (x k % n) % 2 ^ n + a k / 2 ^ (n - x k % n))
      ∧ w.Writes s (.ror w.f m o) (els fun k => a k / 2 ^ (x k % n) + a k * 2 ^ (n - x k % n) % 2 ^ n))
  ∧ ∀ (w : Stand) (s : State) (m : IMod) (o : O3), w.u = use3 o → w.Clear s →
    let n := wbits m.w
    w.Writes s (.fshf w.f m o) fun v => ∀ k, k < 64 / n →
      elem v n k = (uAt n (w.lane s).a k * 2 ^ n + uAt n (w.lane s).b k) / 2 ^ (uAt n (w.lane s).c k % n) % 2 ^ n

/-- Counts and reversal of elements (R158), and the permutation of bytes (R160); bit fields are extracted and inserted element
by element. -/
def Obligations.BitFields : Prop :=
  (∀ (w : Stand) (s : State) (m : IMod) (o : O1), w.u = use1 o → w.Clear s →
    let n := wbits m.w
    let a := uAt n (w.lane s).a
    let els (P : Nat → Nat → Prop) (v : Word) : Prop := ∀ k, k < 64 / n → P (a k) (elem v n k)
    w.Writes s (.popc w.f m o) (els fun a e => e = ((List.range n).filter fun j => a.testBit j).length)
      ∧ w.Writes s (.clz w.f m o) (els fun a e => e ≤ n ∧ a < 2 ^ (n - e) ∧ (e < n → a.testBit (n - 1 - e) = true))
      ∧ w.Writes s (.ctz w.f m o) (els fun a e => e ≤ n ∧ (∀ j, j < e → a.testBit j = false) ∧ (e < n → a.testBit e = true))
      ∧ w.Writes s (.brev w.f m o) (els fun a e => ∀ j, j < n → e.testBit (n - 1 - j) = a.testBit j))
  ∧ (∀ (w : Stand) (s : State) (m : IMod) (o : O3), w.u = use3 o → w.Clear s →
    let n := wbits m.w
    w.Writes s (.bfx w.f m o) fun v => ∀ k, k < 64 / n →
      let len := min (uAt n (w.lane s).c k) n
      let x : Int := toInt n m.sgn (uAt n (w.lane s).a k) / 2 ^ min (uAt n (w.lane s).b k) n % 2 ^ len
      elem v n k = wrap n (if m.sgn = true ∧ 0 < len ∧ len < n ∧ 2 ^ (len - 1) ≤ x then x - 2 ^ len else x))
  ∧ (∀ (w : Stand) (s : State) (m : IMod) (o : O4), w.u = use4 o → w.Clear s →
    let n := wbits m.w
    w.Writes s (.bfi w.f m o) fun v => ∀ k, k < 64 / n → ∀ j, j < n →
      let p := uAt n (w.lane s).c k
      (elem v n k).testBit j = if p ≤ j ∧ j < p + uAt n (w.lane s).e k then (uAt n (w.lane s).b k).testBit (j - p)
        else (uAt n (w.lane s).a k).testBit j)
  ∧ ∀ (w : Stand) (s : State) (o : O3), w.u = use3 o → w.Clear s →
    w.Writes s (.prmb w.f o) fun v => ∀ j, j < 8 →
      let x := field (w.lane s).c.w64.toNat (4 * j + 3) (4 * j)
      elem v 8 j = if x < 8 then elem (w.lane s).a.w64 8 x else elem (w.lane s).b.w64 8 (x - 8)

/-- ICMP, FCMP and PSET write one predicate, PMOV the predicates of its mask or a register of all of them (R161, R162, R171).
-/
def Obligations.Predicates : Prop :=
  (∀ (w : Stand) (s : State) (m : IMod) (fm : FMod) (pd : BitVec 3) (o : S2) (cond : Cond) (anyE : Bool),
    w.u = { useS2 o with pw := predBit pd } → w.Clear s →
    let n := wbits m.w
    let q := fdOf fm.fmt
    let among (n : Nat) (P : Nat → Prop) : Prop := if anyE then ∃ k, k < 64 / n ∧ P k else ∀ k, k < 64 / n → P k
    let holds (x y : Int) : Bool :=
      match cond with
      | .eq => x == y | .ne => x != y | .lt => decide (x < y) | .le => decide (x ≤ y) | .gt => decide (y < x)
      | .ge => decide (y ≤ x)
    (∃ b, w.Tests s (.icmp w.f m pd o cond anyE) pd b
      ∧ (b = true ↔ among n fun k => holds (sAt m (w.lane s).a k) (sAt m (w.lane s).b k) = true))
    ∧ w.Tests s (.fcmp w.f fm pd o cond anyE) pd (fcmpV cond anyE q ((w.lane s).a.floats q) ((w.lane s).b.floats q)))
  ∧ (∀ (w : Stand) (s : State) (pd pa pb : BitVec 3) (tab : BitVec 4),
    w.u = { pr := predBit pa ||| predBit pb, pw := predBit pd } → w.Clear s →
    let p := ((w.begun s).thr w.tk).r.p
    w.Tests s (.pset w.f pd pa pb tab) pd
      (tab.getLsbD ((if getPred p pa then 2 else 0) + if getPred p pb then 1 else 0)))
  ∧ (∀ (w : Stand) (s : State) (o : O1) (msk : BitVec 7), w.u = { dst := some o.d, pr := 0x7F } → w.Clear s →
    w.Writes s (.pmov w.f o msk false) fun v =>
      v.toNat = ((w.begun s).thr w.tk).r.p.toNat + 128)
  ∧ ∀ (w : Stand) (s : State) (o : O1) (msk : BitVec 7), w.u = { src := [(0, o.a)], pw := msk } → w.Clear s →
    ∃ p : BitVec 7, w.Completes s (.pmov w.f o msk true) ((w.begun s).modThr w.tk fun t => { t with r := { t.r with p := p } })
      ∧ ∀ j, j < 7 → p.getLsbD j = if msk.getLsbD j then (w.lane s).a.w64.getLsbD j else ((w.begun s).thr w.tk).r.p.getLsbD j

/-! ### Floating-point words (R164 to R174) -/

/-- The fixed-latency words of group 0x2 act element by element in the modifier's format and rounding mode (R164, R167 to
R170, R172, R173). -/
def Obligations.FloatElements : Prop :=
  (∀ (w : Stand) (s : State) (m : FMod) (o : O2), w.u = use2 o → w.Clear s →
    let q := fdOf m.fmt
    let a (k : Nat) : FV := q.decode (elem ((w.lane s).a.floats q) q.w k)
    let b (k : Nat) : FV := q.decode (elem ((w.lane s).b.floats q) q.w k)
    let els (t : Nat → FV) (v : Word) : Prop := ∀ k, k < 64 / q.w → elem v q.w k = q.encode (t k) % 2 ^ q.w
    w.Writes s (.fadd w.f m o) (els fun k => faddV q m.rnd (a k) (b k))
      ∧ w.Writes s (.fsub w.f m o) (els fun k => fsubV q m.rnd (a k) (b k))
      ∧ w.Writes s (.fmul w.f m o) (els fun k => fmulV q m.rnd (a k) (b k))
      ∧ w.Writes s (.fmin w.f m o) (els fun k => fminV q (a k) (b k))
      ∧ w.Writes s (.fmax w.f m o) (els fun k => fmaxV q (a k) (b k))
      ∧ w.Writes s (.fscale w.f m o) (els fun k => fscaleV q m.rnd (a k) (b k)))
  ∧ (∀ (w : Stand) (s : State) (m : FMod) (o : O1), w.u = use1 o → w.Clear s →
    let q := fdOf m.fmt
    let x (k : Nat) : Nat := elem ((w.lane s).a.floats q) q.w k
    let els (t : Nat → Nat) (v : Word) : Prop := ∀ k, k < 64 / q.w → elem v q.w k = t k % 2 ^ q.w
    w.Writes s (.fabs w.f m o) (els fun k => q.encode (fabsV q (q.decode (x k))))
      ∧ w.Writes s (.fneg w.f m o) (els fun k => q.encode (fnegV q (q.decode (x k))))
      ∧ w.Writes s (.frnd w.f m o) (els fun k => q.encode (frndV q m.rnd (q.decode (x k))))
      ∧ w.Writes s (.fclass w.f m o) (els fun k => fclassV q (x k)))
  ∧ ∀ (w : Stand) (s : State) (m : FMod) (o : O3), w.u = use3 o → w.Clear s →
    let q := fdOf m.fmt
    let x (v : RV) (k : Nat) : FV := q.decode (elem (v.floats q) q.w k)
    w.Writes s (.ffma w.f m o) (fun v => ∀ k, k < 64 / q.w →
      elem v q.w k = q.encode (ffmaV q m.rnd (x (w.lane s).a k) (x (w.lane s).b k) (x (w.lane s).c k)) % 2 ^ q.w)
    ∧ w.Writes s (.fdot2 w.f m o) (fun v => ∀ h, h < 2 →
      let c := fd32.decode (elem ((w.lane s).c.floats fd32) 32 h)
      let a0 := x (w.lane s).a (2 * h)
      let a1 := x (w.lane s).a (2 * h + 1)
      let b0 := x (w.lane s).b (2 * h)
      let b1 := x (w.lane s).b (2 * h + 1)
      a0.isNan = false → a1.isNan = false → b0.isNan = false → b1.isNan = false → c.isNan = false →
      elem v 32 h = fd32.encode (sumTerms fd32 m.rnd [c.term, prodOf a0 b0, prodOf a1 b1]) % 2 ^ 32)

/-- Sums, products and fused multiply-adds of finite numbers that are not zero are exact and rounded once; a product 0 times
infinity is the NaN of cause 4, a sum of opposite infinities that of cause 3, and a NaN operand comes back quiet, the first
one first. A slab of the matrix array truncates each product to a multiple of 2^(emax - 46), sums them with the accumulator
exactly and rounds once; its special cases come in the order of R44, and integers accumulate modulo 2^32 (R37, R43 to R45,
R164, R167). Rounding: on the format's grid, to the nearest with ties to even, toward zero, up or down; a magnitude above the
largest finite value becomes that value or an infinity (R39). -/
def Obligations.FloatArithmeticAndRounding : Prop :=
  ((∀ (q : FD) (md : Rnd),
      let sgn (n : Bool) (m : Nat) (e k : Int) : Int := (if n then -1 else 1) * ((m : Int) * 2 ^ (e - k).toNat)
      let once (t k : Int) (x : FV) : Prop := t ≠ 0 → x = roundTo q md (decide (t < 0)) t.natAbs k
      (∀ (n p : Bool) (m l : Nat) (e d : Int), m ≠ 0 → l ≠ 0 →
        let k := min e d
        once (sgn n m e k + sgn p l d k) k (faddV q md (.fin n m e) (.fin p l d))
          ∧ once (sgn n m e k - sgn p l d k) k (fsubV q md (.fin n m e) (.fin p l d))
          ∧ fmulV q md (.fin n m e) (.fin p l d) = roundTo q md (n != p) (m * l) (e + d))
      ∧ (∀ (n p r : Bool) (m l j : Nat) (e d c : Int), m ≠ 0 → l ≠ 0 → j ≠ 0 →
        let k := min (e + d) c
        once (sgn (n != p) (m * l) (e + d) k + sgn r j c k) k (ffmaV q md (.fin n m e) (.fin p l d) (.fin r j c)))
      ∧ (∀ (n p : Bool) (e : Int) (c : FV), c.isNan = false →
        fmulV q md (.inf n) (.fin p 0 e) = q.genNan 4 ∧ fmulV q md (.fin p 0 e) (.inf n) = q.genNan 4
          ∧ ffmaV q md (.inf n) (.fin p 0 e) c = q.genNan 4
          ∧ faddV q md (.inf n) (.inf (!n)) = q.genNan 3 ∧ fsubV q md (.inf n) (.inf n) = q.genNan 3)
      ∧ ∀ (n : Bool) (fr : Nat) (y z : FV), y.isNan = false →
        let x := FV.nan n fr
        faddV q md x z = q.quieten x ∧ faddV q md y x = q.quieten x ∧ fmulV q md x z = q.quieten x
          ∧ fmulV q md y x = q.quieten x ∧ fminV q y x = q.quieten x ∧ fmaxV q x z = q.quieten x ∧ fabsV q x = q.quieten x)
    ∧ (∀ (acc : BitVec 32) (l : List (Int × Int)),
      (slabInt acc l).toNat = (acc.toNat + (l.map fun x => x.1 * x.2).sum) % 2 ^ 32)
    ∧ ∀ (acc : BitVec 32) (l : List (MatV × MatV)),
      let a := fd32.decode acc.toNat
      let out := (slabFp acc l).toNat
      let ps := l.map fun x => prodOf x.1.v x.2.v
      let scaleNan := ∃ x, x ∈ l ∧ (x.1 = .nanScale ∨ x.2 = .nanScale)
      let elemNan := ∃ x, x ∈ l ∧ (x.1 = .nanElem ∨ x.2 = .nanElem)
      let up := a = .inf false ∨ .inf false ∈ ps
      let down := a = .inf true ∨ .inf true ∈ ps
      let nan (c : Nat) : Prop := out = fd32.encode (fd32.genNan c)
      (a.isNan = true → slabFp acc l = acc)
      ∧ (a.isNan = false →
        (scaleNan → nan 2) ∧ (¬scaleNan → elemNan → nan 1)
        ∧ (¬scaleNan → ¬elemNan →
          (.bad ∈ ps → nan 4)
          ∧ (.bad ∉ ps → (up → down → nan 3) ∧ (up → ¬down → out = fd32.encode (.inf false)) ∧ (¬up → down → out = fd32.encode (.inf true))
            ∧ (¬up → ¬down → ∀ ds : List Dy, ps = ds.map Prod.fin →
              let x (d : Dy) : ℝ := (FV.fin d.neg d.m d.e).real
              ((∀ d, d ∈ ds → d.m = 0) → a.real = 0 → out = if a.neg = true ∧ ∀ d, d ∈ ds → d.neg = true then 2 ^ 31 else 0)
              ∧ ∀ g : Int, (∀ y, y = a.real ∨ y ∈ ds.map x → |y| < 2 ^ (g + 47)) → (∃ y, (y = a.real ∨ y ∈ ds.map x) ∧ 2 ^ (g + 46) ≤ |y|) →
                let cut (d : Dy) : ℝ := (if d.neg then -1 else 1) * (⌊|x d| / 2 ^ g⌋ * 2 ^ g)
                let sum := a.real + (ds.map cut).sum
                (sum = 0 → out = 0) ∧ (sum ≠ 0 → RoundsTo fd32 .rne false (decide (a.real + (ds.map cut).sum < 0)) |sum| out))))))
  ∧ (∀ (q : FD) (n : Bool) (m : Nat) (e : Int), m ≠ 0 →
      let k := max (e + m.log2 - q.fb) q.emin
      (∀ md, roundTo q md n m e =
        if dyadicGt (roundGrid md n m e k false) k q.maxM q.maxE then
          (if md = .rne ∨ (md = .ru ∧ n = false) ∨ (md = .rd ∧ n = true) then .inf n else .fin n q.maxM q.maxE)
        else .fin n (roundGrid md n m e k false) k)
      ∧ (∀ md, k ≤ e → roundGrid md n m e k false = m * 2 ^ (e - k).toNat)
      ∧ (e < k →
        let u : Nat := 2 ^ (k - e).toNat
        let z := roundGrid .rz n m e k false
        let t := roundGrid .rne n m e k false
        (z * u ≤ m ∧ m < (z + 1) * u)
          ∧ (m ≤ roundGrid .ru false m e k false * u ∧ roundGrid .ru false m e k false * u < m + u)
          ∧ roundGrid .ru true m e k false = z ∧ roundGrid .rd false m e k false = z
          ∧ roundGrid .rd true m e k false = roundGrid .ru false m e k false
          ∧ 2 * (t * u) ≤ 2 * m + u ∧ 2 * m ≤ 2 * (t * u) + u
          ∧ (2 * (t * u) = 2 * m + u ∨ 2 * m = 2 * (t * u) + u → t % 2 = 0)))

/-- The correctly rounded functions complete with their result pending until it arrives (R165, R174). -/
def Obligations.SpecialFunctions : Prop :=
  (∀ (w : Stand) (s : State) (m : FMod) (o : O2), w.u = { use2 o with vl := true } → w.Clear s →
    let q := fdOf m.fmt
    w.Sends s (.fdiv w.f m o) fun v => ∀ k, k < 64 / q.w →
      elem v q.w k = q.encode (fdivV q m.rnd (q.decode (elem ((w.lane s).a.floats q) q.w k))
        (q.decode (elem ((w.lane s).b.floats q) q.w k))) % 2 ^ q.w)
  ∧ ∀ (w : Stand) (s : State) (m : FMod) (o : O1), w.u = { use1 o with vl := true } → w.Clear s →
    let q := fdOf m.fmt
    let els (op : FD → Rnd → FV → FV) (v : Word) : Prop := ∀ k, k < 64 / q.w →
      elem v q.w k = q.encode (op q m.rnd (q.decode (elem ((w.lane s).a.floats q) q.w k))) % 2 ^ q.w
    w.Sends s (.fsqrt w.f m o) (els fsqrtV) ∧ w.Sends s (.frcp w.f m o) (els frcpV) ∧ w.Sends s (.frsq w.f m o) (els frsqV)
      ∧ w.Sends s (.fex2 w.f m o) (els fex2V) ∧ w.Sends s (.flg2 w.f m o) (els flg2V) ∧ w.Sends s (.flg2p w.f m o) (els flg2pV)
      ∧ w.Sends s (.fsinpi w.f m o) (els fsinpiV) ∧ w.Sends s (.fcospi w.f m o) (els fcospiV)

/-- The correctly rounded functions. Their special cases; a quotient, a root, a reciprocal and a reciprocal root of finite
numbers that are not zero are the exact ones, rounded once; 2^a is so where a is an integer, lies beyond the formats' range or
is so small that the result is next to 1, and log2 of a power of two. The others round bounds in fixed point that narrow:
where each bound holds the exact number and some bound's two ends round alike, the result is that number, rounded once (R174).
-/
def Obligations.SpecialCases : Prop :=
  (∀ (q : FD) (md : Rnd) (n p : Bool) (m : Nat) (e d : Int), m ≠ 0 →
    let x := FV.fin n m e
    let zero (n : Bool) := FV.fin n 0 d
    let bad := q.genNan 5
    fdivV q md x (zero p) = .inf (n != p) ∧ fdivV q md (zero n) (zero p) = bad ∧ fdivV q md (.inf n) (.inf p) = bad
    ∧ fsqrtV q md (zero true) = .fin true 0 0 ∧ fsqrtV q md (.inf false) = .inf false ∧ fsqrtV q md (.fin true m e) = bad
    ∧ frcpV q md (zero n) = .inf n ∧ frcpV q md (.inf n) = .fin n 0 0
    ∧ frsqV q md (zero n) = .inf n ∧ frsqV q md (.inf false) = .fin false 0 0 ∧ frsqV q md (.fin true m e) = bad
    ∧ fex2V q md (.inf true) = .fin false 0 0 ∧ fex2V q md (.inf false) = .inf false
    ∧ flg2V q md (zero n) = .inf true ∧ flg2V q md (.fin false 1 0) = .fin false 0 0 ∧ flg2V q md (.inf false) = .inf false
    ∧ flg2V q md (.fin true m e) = bad
    ∧ flg2pV q md (.fin true 1 0) = .inf true ∧ flg2pV q md (zero n) = .fin n 0 0 ∧ flg2pV q md (.inf false) = .inf false
    ∧ (0 ≤ e → 1 < m → flg2pV q md (.fin true m e) = bad)
    ∧ fsinpiV q md (zero n) = .fin n 0 0 ∧ (0 ≤ e → fsinpiV q md x = .fin n 0 0) ∧ fsinpiV q md (.inf n) = bad
    ∧ (m % 2 = 1 → fcospiV q md (.fin n m (-1)) = .fin false 0 0) ∧ fcospiV q md (.inf n) = bad)
  ∧ (∀ (fm : FFmt) (md : Rnd) (n p : Bool) (m l : Nat) (e d : Int), m ≠ 0 → l ≠ 0 →
    let q := fdOf fm
    let x := FV.fin n m e
    let v : ℝ := m * (2 : ℝ) ^ e
    RoundsTo q md false (n != p) (v / (l * (2 : ℝ) ^ d)) (q.encode (fdivV q md x (.fin p l d)))
    ∧ RoundsTo q md false false (Real.sqrt v) (q.encode (fsqrtV q md (.fin false m e)))
    ∧ RoundsTo q md false n (1 / v) (q.encode (frcpV q md x))
    ∧ RoundsTo q md false false (1 / Real.sqrt v) (q.encode (frsqV q md (.fin false m e)))
    ∧ ((∃ j : Int, x.real = j) ∨ e + m.log2 < -(q.fb : Int) - 8 ∨ 16 < e + m.log2 →
      RoundsTo q md false false ((2 : ℝ) ^ x.real) (q.encode (fex2V q md x)))
    ∧ ∀ j : Nat, (j : Int) + e ≠ 0 →
      RoundsTo q md false (decide ((j : Int) + e < 0)) |((j : ℝ) + e)| (q.encode (flg2V q md (.fin false (2 ^ j) e))))
  ∧ ∀ (fm : FFmt) (md : Rnd) (n : Bool) (x : ℝ) (approx : Nat → Nat × Int) (ws : List Nat),
    let q := fdOf fm
    let ends (w : Nat) (y : Nat) : Nat := q.encode (roundTo q md n y (approx w).2 true)
    (∀ w, w ∈ ws → 2 ^ 64 ≤ (approx w).1 ∧ |x - (approx w).1 * (2 : ℝ) ^ (approx w).2| < 2 ^ 32 * (2 : ℝ) ^ (approx w).2) →
    (∃ w, w ∈ ws ∧ ends w ((approx w).1 - 2 ^ 32) = ends w ((approx w).1 + 2 ^ 32)) →
    RoundsTo q md false n x (q.encode (zivRound q md n approx ws))

/-! ### Conversions (R175 to R187) -/

/-- Conversions place the converted elements of part P and keep the other bits of the destination (R177 to R182). Placing the
converted elements: a narrowing conversion writes elements Pn to Pn + n - 1 of the destination and keeps its other bits, a
widening one reads elements Pn to Pn + n - 1 and fills the destination. What an element becomes: the exact product with 2^k or
with a value, rounded once, with Sat where saturation is on; an integer rounded and clamped; an integer's value times 2^k,
rounded once; a clamped or wrapped integer (R40, R177 to R181). -/
def Obligations.Conversions : Prop :=
  ((∀ (w : Stand) (s : State) (fmt cc src : BitVec 4) (part : BitVec 3) (o : O2), w.u = useD (use2 o) → w.Clear s →
      let cv := ((w.begun s).thr w.tk).cvmode
      let l := w.lane s
      let k := l.b.w64.toInt
      let dst := fmt.toNat
      let ws := codeWidth src.toNat
      let wd := codeWidth dst
      let mode := narrowMode cv cc.toNat dst
      let sgn := !cc.getLsbD 3
      let placed (op : Nat → Nat) (v : Word) : Prop := v = convertPart ws wd part.toNat op (l.a.elems src.toNat) ((w.begun s).oldD l)
      w.Writes s (.cvt w.f fmt o cc src part) (placed (cvtElem src.toNat dst mode k))
        ∧ w.Writes s (.cvts w.f fmt o cc src part) (placed (cvtsElem src.toNat dst mode (if src = 0 then l.b.f64 else l.b.f32)))
        ∧ w.Writes s (.cvti w.f fmt o cc src part) (placed (cvtiElem src.toNat wd sgn (Machine.rndOf cc.toNat) k))
        ∧ w.Writes s (.cvtf w.f fmt o cc src part) (placed (cvtfElem dst mode ws sgn k))
        ∧ w.Writes s (.packn w.f fmt o cc src part) fun v =>
          v = packPart ws wd part.toNat
            (if codeIsInt dst then packInt ws wd sgn (cc.getLsbD 2) else cvtElem src.toNat dst mode 0)
            (l.a.elems src.toNat) (l.b.elems src.toNat) ((w.begun s).oldD l))
    ∧ ∀ (w : Stand) (s : State) (fmt cc src : BitVec 4) (part : BitVec 3) (o : O1), w.u = use1 o → w.Clear s →
      let l := w.lane s
      let ws := codeWidth src.toNat
      let wd := codeWidth fmt.toNat
      w.Writes s (.unpack w.f fmt o cc src part) fun v =>
        v = convertPart ws wd part.toNat
          (if codeIsInt fmt.toNat then packInt ws wd (!cc.getLsbD 3) false else cvtElem src.toNat fmt.toNat (.rne, false) 0)
          (l.a.elems src.toNat) 0)
  ∧ ((∀ (ws wd part : Nat) (op : Nat → Nat) (a d : Word), ws ∈ [4, 8, 16, 32, 64] → wd ∈ [4, 8, 16, 32, 64] →
      part < max ws wd / min ws wd →
      let n := 64 / max ws wd
      let v := convertPart ws wd part op a d
      (wd ≤ ws → ∀ j, j < 64 / wd →
        elem v wd j = if part * n ≤ j ∧ j < part * n + n then op (elem a ws (j - part * n)) % 2 ^ wd else elem d wd j)
      ∧ (ws < wd → ∀ j, j < n → elem v wd j = op (elem a ws (part * n + j)) % 2 ^ wd))
    ∧ (∀ (src dst : Nat) (mode : Rnd × Bool) (k : Int) (b : Nat), src ≤ 5 → dst ≤ 5 →
      let f := fdOfCode src
      let q := fdOfCode dst
      let x := f.decode b
      let signed (n : Bool) : Nat := if n then 2 ^ (q.w - 1) else 0
      let endless (n : Bool) : Nat := q.encode (if mode.2 then .fin n q.maxM q.maxE else .inf n)
      let quiet (g : FD) (n : Bool) (fr : Nat) : Nat :=
        q.encode (if g.w = 8 then q.genNan 1 else .nan n (q.quiet + if 4 ≤ q.fb then fr % 16 else 0))
      (∀ n m e, x = .fin n m e → m ≠ 0 → RoundsTo q mode.1 mode.2 n (m * (2 : ℝ) ^ (e + k)) (cvtElem src dst mode k b))
      ∧ (∀ n e, x = .fin n 0 e → cvtElem src dst mode k b = signed n)
      ∧ (∀ n, x = .inf n → cvtElem src dst mode k b = endless n)
      ∧ (∀ n fr, x = .nan n fr → cvtElem src dst mode k b = quiet f n fr ∧ ∀ y, cvtsElem src dst mode y b = quiet f n fr)
      ∧ ∀ p l d, l ≠ 0 →
        let y := FV.fin p l d
        (∀ n m e, x = .fin n m e → m ≠ 0 →
          RoundsTo q mode.1 mode.2 (n != p) (m * l * (2 : ℝ) ^ (e + d)) (cvtsElem src dst mode y b)
            ∧ cvtsElem src dst mode (.inf p) b = endless (n != p))
        ∧ (∀ n e, x = .fin n 0 e → cvtsElem src dst mode y b = signed (n != p)
          ∧ cvtsElem src dst mode (.inf p) b = q.encode (q.genNan 4))
        ∧ (∀ n, x = .inf n → cvtsElem src dst mode y b = endless (n != p)
          ∧ cvtsElem src dst mode (.fin p 0 d) b = q.encode (q.genNan 4)))
    ∧ (∀ (src w : Nat) (sgn : Bool) (md : Rnd) (k : Int) (b : Nat), src ≤ 3 → 0 < w → w ≤ 64 →
      let x := (fdOfCode src).decode b
      let out := cvtiElem src w sgn md k b
      (∀ n m e t, x = .fin n m e → RoundsToInt md ((FV.fin n m e).real * (2 : ℝ) ^ k) t → out = wrap w (clampTo w sgn t))
      ∧ (∀ n, x = .inf n → out = wrap w (clampTo w sgn (if n then -(2 ^ 64) else 2 ^ 64))) ∧ ∀ n fr, x = .nan n fr → out = 0)
    ∧ (∀ (dst w : Nat) (mode : Rnd × Bool) (sgn : Bool) (k : Int) (b : Nat), dst ≤ 3 → 0 < w → w ≤ 64 →
      let v := toInt w sgn (b % 2 ^ w)
      let out := cvtfElem dst mode w sgn k (b % 2 ^ w)
      (v = 0 → out = 0) ∧ (v ≠ 0 → RoundsTo (fdOfCode dst) mode.1 mode.2 (decide (v < 0)) (v.natAbs * (2 : ℝ) ^ k) out))
    ∧ ∀ (ws wd : Nat) (sgn sat : Bool) (b : Nat), 0 < wd →
      packInt ws wd sgn sat b = wrap wd (if sat then clampTo wd sgn (toInt ws sgn b) else toInt ws sgn b))

/-- The block-scale words: SCLX forms a scale byte, BXUNP and MXUNP decode a block, BXPACK and MXPACK quantise one and write
the scale register back, MXPACK only where its byte is 0xFF; a scale operand that is no register, or is a destination, is
fault 0x02. A scale byte is the least whose range holds the magnitude; an element reads as its magnitude on its scale, rounded
once to the wide format, and is packed by rounding to that grid; where the scale is 0xFF, an element is NaN or an overflow
remains, all are zero and the scale becomes 0xFF (R29, R30, R183 to R185). -/
def Obligations.Blocks : Prop :=
  (∀ (w : Stand) (s : State) (sfmt : BitVec 4) (sel : BitVec 3) (o : O1),
    w.u = { useD (use1 o) with feat := some (if sfmt = 6 then 4 else 3) } → w.Clear s →
    w.Writes s (.sclx w.f o sfmt sel) fun v =>
      let d := setByte ((w.begun s).oldD (w.lane s)) sel.toNat (scaleByte sfmt.toNat (w.lane s).a.f32)
      v = if sfmt = 6 then d else setByte d (sel.toNat + 1) 0)
  ∧ (∀ (w : Stand) (s : State) (fmt : BitVec 4) (part sel : BitVec 3) (wide : BitVec 2) (o : O2) (x : Bool),
    let two := fmt.toNat == 8 || fmt.toNat == 9
    w.u = { use2 o with srcPair := if two then [0] else [], feat := some (if x then 4 else 3) } → w.Clear s →
    let l := w.lane s
    let a := if fmt.toNat = 6 then l.a.elems 6 else l.a.w64
    let P (v : Word) : Prop := v = blockUnpack fmt.toNat wide.toNat part.toNat sel.toNat ((w.begun s).thr w.tk).cvmode a
      (l.hi 0) l.b.w64
    if x then w.Writes s (.mxunp w.f fmt o part wide sel) P else w.Writes s (.bxunp w.f fmt o part wide sel) P)
  ∧ (∀ (w : Stand) (s : State) (fmt : BitVec 4) (part sel : BitVec 3) (wide : BitVec 2) (o : O2) (x ind : Bool) (n : BitVec 6),
    let two := fmt.toNat == 8 || fmt.toNat == 9
    w.u = { useD (use2 o) with pair := two, feat := some (if x then 4 else 3) } → w.Clear s →
    let l := w.lane s
    let bad : FI := { code := 0x02 }
    (l.scaleReg = none ∨ (l.scaleReg = some (n, ind) ∧ n ∈ l.r.d.regs) →
      if x then w.Faults s (.mxpack w.f fmt o part wide sel) bad else w.Faults s (.bxpack w.f fmt o part wide sel) bad)
    ∧ (l.scaleReg = some (n, ind) → n ∉ l.r.d.regs →
      let r := blockPack fmt.toNat wide.toNat part.toNat sel.toNat ((w.begun s).thr w.tk).cvmode (l.a.floats (wideFd wide.toNat))
        ((w.begun s).oldD l) ((w.begun s).oldHi l) l.b.w64
      let t := if two then (w.begun s).putPair l r.1 r.2.1 else (w.begun s).put l r.1
      let t' := if fmt.toNat = 6 ∧ getByte r.2.2 sel.toNat ≠ 0xFF then t else if ind then t.sendValue l (.reg n) r.2.2 else t.put1 l n r.2.2
      if x then w.Completes s (.mxpack w.f fmt o part wide sel) t' else w.Completes s (.bxpack w.f fmt o part wide sel) t'))
  ∧ ∀ code : Nat, code ∈ [6, 7, 8, 9] →
    -- magnitude bits, the largest factor F, and the grid step under a scale byte and a micro-exponent
    let m := if code = 7 then 3 else if code = 8 then 5 else 7
    let top : ℝ := if code = 6 then 6 else (2 ^ m - 1) / 2 ^ (m - 1)
    let step (sc mu : Nat) : ℝ := (2 : ℝ) ^ ((sc : Int) - 127 - mu) / 2 ^ (m - 1)
    let wd := if code = 8 then 6 else if code = 9 then 8 else 4
    (∀ n v e,
      let sc := scaleByte code (.fin n v e)
      sc ≤ 254 ∧ (∀ j : Nat, j < sc → top * (2 : ℝ) ^ ((j : Int) - 127) < v * (2 : ℝ) ^ e)
        ∧ (sc < 254 → v * (2 : ℝ) ^ e ≤ top * (2 : ℝ) ^ ((sc : Int) - 127)))
    ∧ (∀ n fr, scaleByte code (.inf n) = 0xFF ∧ scaleByte code (.nan n fr) = 0xFF)
    ∧ (∀ (mode : Rnd × Bool) (sc mu : Nat) (n : Bool) (fr : Nat),
      let most := (if n then 2 ^ (wd - 1) else 0) + (2 ^ (wd - 1) - 1)
      let lost (n : Bool) : Prop := mode.2 = false ∧ (mode.1 = .rne ∨ (mode.1 = .ru ∧ n = false) ∨ (mode.1 = .rd ∧ n = true))
      quantise code mode sc mu (.nan n fr) = none ∧ quantise code mode sc mu (.inf n) = (if mode.2 then some most else none)
      ∧ ∀ (v : Nat) (e : Int),
        (code = 6 → ∀ y, y = roundTo ⟨4, 2, 1, 1, 3, 1, false⟩ mode.1 n v (e + 127 - sc) → sc ≤ 255 → e.natAbs ≤ 2000 →
          quantise code mode sc mu (.fin n v e)
            = if y.isInf then (if mode.2 then some most else none) else some (FD.encode ⟨4, 2, 1, 1, 3, 1, false⟩ y))
        ∧ (code ≠ 6 → ∀ t : Nat, RoundsToInt mode.1 ((FV.fin n v e).real / step sc mu) (if n then -(t : Int) else t) →
          (lost n → 2 ^ m ≤ t → quantise code mode sc mu (.fin n v e) = none)
          ∧ (¬lost n ∨ t < 2 ^ m → quantise code mode sc mu (.fin n v e) = some ((if n then 2 ^ m else 0) + min t (2 ^ m - 1)))))
    ∧ ∀ (wide part sel : Nat) (cv : BitVec 32) (a lo hi b : Word), wide < 3 → sel < 8 → (code ≠ 6 → sel % 2 = 0) →
      let f := wideFd wide
      let n := 64 / f.w
      part < 16 / n →
      let sc := getByte b sel
      (∀ k, k < n →
        let j := part * n + k
        let out := elem (blockUnpack code wide part sel cv lo hi b) f.w k
        let raw := (lo.toNat + 2 ^ 64 * hi.toNat) / 2 ^ (wd * j) % 2 ^ wd
        let neg := decide (2 ^ (wd - 1) ≤ raw)
        let mag : Nat := raw % 2 ^ (wd - 1)
        let fp4 : List ℝ := [0, 1 / 2, 1, 3 / 2, 2, 3, 4, 6]
        let mu := getByte b (sel + 1) / 2 ^ (j / 2) % 2
        let v : ℝ := if code = 6 then fp4.getD mag 0 * (2 : ℝ) ^ ((sc : Int) - 127) else (mag : ℝ) * step sc mu
        let mode : Rnd × Bool := if wide = 0 then (.rne, false) else cvField cv (wide + 1)
        (sc = 0xFF → out = f.encode (f.genNan 2))
        ∧ (sc ≠ 0xFF → (mag = 0 → out = if neg then 2 ^ (f.w - 1) else 0) ∧ (mag ≠ 0 → RoundsTo f mode.1 mode.2 neg v out)))
      ∧ ∀ mus : Nat → Nat,
        let x (k : Nat) : FV := f.decode (elem a f.w k)
        let small (k : Nat) : Prop := (∃ s v e, x k = .fin s v e) ∧ |(x k).real| ≤ top * (2 : ℝ) ^ ((sc : Int) - 128)
        (∀ i, i < n → mus i ≤ 1 ∧ (mus i = 1 ↔ code ≠ 6 ∧ small (i / 2 * 2) ∧ small (i / 2 * 2 + 1))) →
        let c (k : Nat) : Option Nat := quantise code (cvField cv code) sc (mus k) (x k)
        let bad := sc = 0xFF ∨ ∃ k, k < n ∧ c k = none
        let r := blockPack code wide part sel cv a lo hi b
        let old := lo.toNat + 2 ^ 64 * hi.toNat
        let at_ := wd * part * n
        (∀ i, i < 128 → (r.1.toNat + 2 ^ 64 * r.2.1.toNat).testBit i =
          if code = 8 ∧ 96 ≤ i then false
          else if at_ ≤ i ∧ i < at_ + wd * n then decide (¬bad) && ((c ((i - at_) / wd)).getD 0).testBit ((i - at_) % wd)
          else old.testBit i)
        ∧ (bad → getByte r.2.2 sel = 0xFF) ∧ (¬bad → getByte r.2.2 sel = sc)
        ∧ (code ≠ 6 → ∀ i, i < 8 → (getByte r.2.2 (sel + 1)).testBit i =
          if part * n / 2 ≤ i ∧ i < part * n / 2 + n / 2 then mus (2 * (i - part * n / 2)) == 1 else (getByte b (sel + 1)).testBit i)
        ∧ ∀ j, j < 8 → j ≠ sel → (code ≠ 6 → j ≠ sel + 1) → getByte r.2.2 j = getByte b j

/-- CMODE writes the old conversion modes and merges new fields under its mask; a mask beyond the register is fault 0x02 at
execution; NANCT reads the NaN count and changes nothing (R186, R187). -/
def Obligations.ConversionModes : Prop :=
  (∀ (w : Stand) (s : State) (o : O2), w.u = use2 o → w.Clear s →
    let a := (w.lane s).a.w64
    let b := (w.lane s).b.w64
    let cv := ((w.begun s).thr w.tk).cvmode
    (b.toNat < 2 ^ 24 → w.Completes s (.cmode w.f o)
      (((w.begun s).put (w.lane s) (cv.setWidth 64)).modThr w.tk fun t =>
        { t with cvmode := (cv &&& ~~~b.setWidth 32) ||| (a.setWidth 32 &&& b.setWidth 32) }))
    ∧ (2 ^ 24 ≤ b.toNat → exec (.cmode w.f o) s = .next ((w.aged s).wordFault w.tk { code := 0x02 } w.f.park)))
  ∧ ∀ (w : Stand) (s : State) (d : Dst), w.u = { dst := some d, feat := some 15 } → w.Clear s →
    w.Writes s (.nanct w.f d) fun v => v.toNat = ((w.begun s).thr w.tk).nancnt.toNat

/-! ### Groups, masks and exchanges (R189 to R206) -/

/-- GJOIN answers handle, rank and status, and changes the group table as R198 gives: a member's repeated join changes
nothing, a join of a live group takes its lowest vacant rank, a join of no group creates one in the lowest free entry, and a
join that a full group or table refuses leaves the thread in no group. GLEAVE removes the thread at issue (R199). A thread
enters at the lowest vacant rank, and no other rank of the group changes (R191). -/
def Obligations.GroupMembership : Prop :=
  ((∀ (w : Stand) (s : State) (o : O2), w.u = use2 o → w.Clear s →
      let b := w.begun s
      let l := w.lane s
      let key : BitVec 32 := l.a.w64.setWidth 32
      let cap := l.b.w64.toNat
      let c := b.core l.ck
      let found := c.grps.find? fun x => x.2.ctx == (b.thr w.tk).ctx && x.2.key == key
      let answer (h r st : Nat) : Word := BitVec.ofNat 64 (h + r * 2 ^ 32 + st * 2 ^ 40)
      (cap = 0 ∨ 32 < cap → w.Faults s (.gjoin w.f o) { code := 0x17 })
      ∧ (0 < cap → cap ≤ 32 →
        (∀ e sn r g, (b.thr w.tk).grp = some (e, sn, r) → b.grpAt l.ck e = some g →
          if g.key = key then w.Completes s (.gjoin w.f o) (b.put l (answer (e + sn * 2 ^ 8) r 0))
          else w.Faults s (.gjoin w.f o) { code := 0x17 })
        ∧ ((b.thr w.tk).grp = none →
          (∀ e g, found = some (e, g) →
            if g.cap ≤ g.ranks.length then w.Completes s (.gjoin w.f o) (b.put l (answer 0 0 2))
            else w.Completes s (.gjoin w.f o)
              ((b.enterGroup w.tk e g).put l (answer (e + g.serial * 2 ^ 8) (lowestVacant g) 0)))
          ∧ (found = none → ((List.range 256).find? fun e => (Tab.look c.grps e).isNone) = none →
            w.Completes s (.gjoin w.f o) (b.put l (answer 0 0 3)))
          ∧ ∀ e, found = none → ((List.range 256).find? fun e => (Tab.look c.grps e).isNone) = some e →
            let sn := (Tab.getOr c.serials e 0 + 1) % 2 ^ 24
            w.Completes s (.gjoin w.f o)
              (((b.modCore l.ck fun c => { c with serials := Tab.put c.serials e sn }).enterGroup w.tk e
                { ctx := (b.thr w.tk).ctx, key := key, cap := cap, serial := sn, ranks := [] }).put l (answer (e + sn * 2 ^ 8) 0 1)))))
    ∧ ∀ (w : Stand) (s : State), w.u = {} → w.Clear s → w.Completes s (.gleave w.f) ((w.begun s).leaveGroup w.tk))
  ∧ (∀ (s : State) (tk e : Nat) (g : Grp), g.ranks.length < 32 →
      let r := lowestVacant g
      let t := s.enterGroup tk e g
      (∃ g', t.grpAt (ckOf tk) e = some g' ∧ Tab.look g.ranks r = none ∧ Tab.look g'.ranks r = some (slotOf tk)
        ∧ (∀ q, q < r → Tab.look g.ranks q ≠ none) ∧ (∀ q, q ≠ r → Tab.look g'.ranks q = Tab.look g.ranks q))
      ∧ (t.thr tk).grp = some (e, g.serial, r) ∧ r < 32)

/-- The mask words of a member at rank r: GWAIT adds its rank to the arrival set, GVOTE writes its own bit, MSKOP writes one
register from two, MSKMOV moves one to or from a general register, GINFO describes the group; in no group each but GINFO is
fault 0x17 (R200, R201, R202). What MSKOP reads within one instruction is the model's reading (log 7). -/
def Obligations.MaskWords : Prop :=
  ∀ (w : Stand) (s : State), w.Clear s →
    let b := w.begun s
    let l := w.lane s
    ((b.thr w.tk).grp = none →
      (∀ mk, w.u = { rel := true } → w.Faults s (.gwait w.f mk) { code := 0x17 })
      ∧ (∀ mk pe, w.u = { pr := predBit pe.p } → w.Faults s (.gvote w.f mk pe) { code := 0x17 })
      ∧ (∀ op md ma mb, w.u = {} → w.Faults s (.mskop w.f op md ma mb) { code := 0x17 })
      ∧ (∀ o mk, w.u = { src := [(0, o.a)] } → w.Faults s (.mskmov w.f o mk true) { code := 0x17 })
      ∧ (∀ o mk, w.u = { dst := some o.d } → w.Faults s (.mskmov w.f o mk false) { code := 0x17 })
      ∧ (∀ d, w.u = { dst := some d } → w.Completes s (.ginfo w.f d) (b.put l 0)))
    ∧ ∀ e sn r g, (b.thr w.tk).grp = some (e, sn, r) → b.grpAt l.ck e = some g →
      let seen (k : Nat) : Word := (g.stamp k).read b.clock
      (∀ mk, w.u = { rel := true } →
        if (seen mk.toNat).getLsbD r = true ∧ (g.arr mk.toNat).getLsbD r = false then
          w.Completes s (.gwait w.f mk)
            (((b.setGrp l.ck e (g.setArr mk.toNat (g.arr mk.toNat ||| BitVec.twoPow 32 r))).atEnd w.tk (.group mk.toNat)).gwaitCheck
              l.ck e mk.toNat)
        else w.Faults s (.gwait w.f mk) { code := 0x17 })
      ∧ (∀ mk pe, w.u = { pr := predBit pe.p } →
        let old := (g.stamp mk.toNat).cur
        w.Completes s (.gvote w.f mk pe) (b.setMask l e mk.toNat g
          (if guardHolds (b.thr w.tk).r.p pe then old ||| BitVec.twoPow 64 r else old &&& ~~~BitVec.twoPow 64 r)))
      ∧ (∀ op md ma mb, w.u = {} →
        let x := (g.stamp ma.toNat).readIn b.clock w.i.g.gid
        let y := (g.stamp mb.toNat).readIn b.clock w.i.g.gid
        w.Completes s (.mskop w.f op md ma mb) (b.setMask l e md.toNat g (match op with
          | .and => x &&& y | .or => x ||| y | .xor => x ^^^ y | .andn => x &&& ~~~y | .not => ~~~x | .copy => x | .clr => 0
          | .set => 0xFFFFFFFF)))
      ∧ (∀ o mk, w.u = { src := [(0, o.a)] } → w.Completes s (.mskmov w.f o mk true) (b.setMask l e mk.toNat g l.a.w64))
      ∧ (∀ o mk, w.u = { dst := some o.d } → w.Completes s (.mskmov w.f o mk false) (b.put l (seen mk.toNat)))
      ∧ (∀ d, w.u = { dst := some d } → l.ck = ckOf w.tk →
        w.Completes s (.ginfo w.f d) (b.put l
          (BitVec.ofNat 64 (g.occ.toNat + g.ranks.length * 2 ^ 32 + r * 2 ^ 40 + e * 2 ^ 48))))

/-- A group-synchronous word of a participant arrives with its operands, its destination pending, and its gang waits (R193,
R194, R195); outside the participants, or in no group, it is fault 0x17. Guarded-off threads in no group are the model's
reading (log 38). -/
def Obligations.Exchanges : Prop :=
  ∀ (w : Stand) (s : State), w.Clear s →
    let b := w.begun s
    let l := w.lane s
    let arrives (ins : Instr) (mk : BitVec 4) : Prop :=
      ((b.thr w.tk).grp = none → w.Faults s ins { code := 0x17 })
      ∧ ∀ e sn r g, (b.thr w.tk).grp = some (e, sn, r) → b.grpAt l.ck e = some g →
        if (g.part mk.toNat b.clock).getLsbD r then
          ∃ sub, w.Completes s ins (((b.pendNew l .exch 7).2.modThr w.tk fun t =>
            { t with arr := some { mreg := mk.toNat, present := true, addr := w.i.g.wordAddr, ins := ins, a := l.a, b := l.b, sub := sub,
                                   d := w.r.d, u := b.uid, word := w.i.g.word }, hold := true }).exchangeCheck l.ck e mk.toNat)
        else w.Faults s ins { code := 0x17 }
    (∀ (m : IMod) (o : O2) (mk : BitVec 4), w.u = { use2 o with vl := true } →
      arrives (.shfl w.f m o mk) mk ∧ arrives (.shflx w.f m o mk) mk ∧ arrives (.shfldn w.f m o mk) mk
        ∧ arrives (.shflup w.f m o mk) mk ∧ arrives (.bcast w.f m o mk) mk ∧ arrives (.compress w.f m o mk) mk
        ∧ arrives (.expand w.f m o mk) mk)
    ∧ (∀ (op : RedOp) (m : IMod) (o : O1) (mk : BitVec 4), w.u = { use1 o with vl := true } →
      arrives (.gred w.f op o mk) mk ∧ arrives (.gscan w.f op o mk) mk ∧ arrives (.matchRank w.f m o mk) mk)
    ∧ ∀ (lg : Bool) (o : O2) (mk : BitVec 4), w.u = { use2 o with feat := some 2, vl := true } → arrives (.gdraw w.f lg o mk) mk

/-- What a present rank receives: SHFL, SHFLX, SHFLDN, SHFLUP and BCAST by source rank, COMPRESS and EXPAND along the stream
of the present ranks, MATCH the ranks that hold the same element. An exchange performs once every participant has arrived, all
at one address, and gives each present rank the value of its word; arrivals at different addresses, and one that is no
participant, are fault 0x17 (R194, R203, R205, R206). GRED combines in a tree of five levels over ranks 0 to 31, in which an
absent side passes the other on, and GSCAN from left to right over the present ranks at or below one's own; a combine acts
element by element at its code's width. GDRAW merges the present ranks' pairs in the same tree with the coin of each node,
invalid leaves counting as zero mass under NaN test mode (R49, R92, R204, R217, R219). -/
def Obligations.ExchangeResults : Prop :=
  ((∀ (l : List Part1) (me : Part1) (wd : Width), (l.map (·.rank)).Pairwise (· < ·) → me ∈ l → (∀ p, p ∈ l → p.rank < 32) →
      let n := 64 / wbits wd
      let x (p : Part1) (k : Nat) : Nat := elem (p.a.ints (wbits wd)) (wbits wd) k
      let from_ (v : Word) (r : Nat → Nat) (sub : Nat → Nat) : Prop := ∀ k, k < n →
        (∀ p, p ∈ l → p.rank = r k → elem v (wbits wd) k = x p (sub k))
          ∧ ((∀ p, p ∈ l → p.rank ≠ r k) → elem v (wbits wd) k = x me k)
      let b := me.b.w64.toNat
      let at_ (k : Nat) : Nat := elem (me.b.ints (wbits wd)) (wbits wd) k % (32 * n)
      let chosen (p : Part1) : List Nat := (List.range n).filter fun k => p.b.w64.getLsbD k
      let before := l.filter fun p => decide (p.rank < me.rank)
      from_ (shflV l me (wbits wd)) (fun k => at_ k / n) (fun k => at_ k % n)
        ∧ from_ (shflxV l me (wbits wd)) (fun _ => me.rank ^^^ (b % 32)) id
        ∧ from_ (shfldnV l me (wbits wd)) (fun _ => me.rank + b) id
        ∧ (b ≤ me.rank → from_ (shflupV l me (wbits wd)) (fun _ => me.rank - b) id)
        ∧ (me.rank < b → ∀ k, k < n → elem (shflupV l me (wbits wd)) (wbits wd) k = x me k)
        ∧ (∀ q, q < 32 → (matchV l me (wbits wd)).getLsbD q = l.any fun p => p.rank == q && x p 0 == x me 0)
        ∧ (∀ k, k < n →
          (∀ p, p ∈ l → p.rank = b % 32 → elem (bcastV l me (wbits wd)) (wbits wd) k = x p (p.sub.getD (b / 32 % 8) % n))
          ∧ ((∀ p, p ∈ l → p.rank ≠ b % 32) → elem (bcastV l me (wbits wd)) (wbits wd) k = x me k))
        ∧ (∀ k, k < n → elem (compressV l me (wbits wd)) (wbits wd) k
          = (l.flatMap fun p => (chosen p).map (x p))[before.length * n + k]?.getD 0)
        ∧ ∀ k, k < n → elem (expandV l me (wbits wd)) (wbits wd) k =
          if me.b.w64.getLsbD k then
            (l.flatMap fun p => (List.range n).map (x p))[(before.map fun p => (chosen p).length).sum
              + ((List.range k).filter fun j => me.b.w64.getLsbD j).length]?.getD 0
          else 0)
    ∧ ∀ (s : State) (ck e k : Nat) (g : Grp), s.grpAt ck e = some g →
      let part := g.part k s.clock
      let arrived : List (Nat × Nat × Arr) := (s.grpThreads ck g).filterMap fun x =>
        (s.thr x.2).arr.bind fun a => if a.mreg = k then some (x.1, x.2, a) else none
      let inn := arrived.filter fun x => part.getLsbD x.1
      let here := (arrived.filter fun x => !part.getLsbD x.1).foldl (fun s x => s.exchangeFault x.2.1 x.2.2) s
      let whole := ∀ r, r < 32 → part.getLsbD r = true → ∃ x, x ∈ inn ∧ x.1 = r
      let same := ∀ x, x ∈ inn → ∀ y, y ∈ inn → x.2.2.addr = y.2.2.addr
      let pres := inn.filter fun x => x.2.2.present
      let parts : List Part1 := pres.map fun x => ⟨x.1, x.2.2.a, x.2.2.b, x.2.2.sub⟩
      let left := inn.foldl (fun s x => s.exchangeQuit x.2.1) here
      let gets (v : Nat × Nat × Arr → Word) (b : State) : Prop :=
        s.exchangeCheck ck e k = pres.foldl (fun s x => s.deliver x.2.1 x.2.2.u (v x) none) b
      let ways (i : Instr) (v : List Part1 → Part1 → Word) : Prop := ∀ l me, exchangeV i l me = v l me
      (inn = [] ∨ ¬whole → s.exchangeCheck ck e k = here)
      ∧ (inn ≠ [] → whole → here.gdrawWaits inn = false →
        (¬same → s.exchangeCheck ck e k = inn.foldl (fun s x => s.exchangeFault x.2.1 x.2.2) here)
        ∧ (same → (pres = [] → s.exchangeCheck ck e k = left)
          ∧ ∀ y rest, pres = y :: rest →
            ((∀ f lg o mk, y.2.2.ins ≠ .gdraw f lg o mk) →
              gets (fun x => exchangeV x.2.2.ins parts ⟨x.1, x.2.2.a, x.2.2.b, x.2.2.sub⟩) left)
            ∧ ∀ f lg o mk, y.2.2.ins = .gdraw f lg o mk →
              gets (fun _ => (left.gdrawPerform lg pres).2) (left.gdrawPerform lg pres).1))
      ∧ ∀ f m o mk, ways (.shfl f m o mk) (fun l me => shflV l me (wbits m.w))
        ∧ ways (.shflx f m o mk) (fun l me => shflxV l me (wbits m.w)) ∧ ways (.shfldn f m o mk) (fun l me => shfldnV l me (wbits m.w))
        ∧ ways (.shflup f m o mk) (fun l me => shflupV l me (wbits m.w)) ∧ ways (.bcast f m o mk) (fun l me => bcastV l me (wbits m.w))
        ∧ ways (.compress f m o mk) (fun l me => compressV l me (wbits m.w))
        ∧ ways (.expand f m o mk) (fun l me => expandV l me (wbits m.w))
        ∧ ∀ o1 op, ways (.matchRank f m o1 mk) (fun l me => matchV l me (wbits m.w)) ∧ ways (.gred f op o1 mk) (fun l _ => gredV op l)
          ∧ ways (.gscan f op o1 mk) (fun l me => gscanV op l me.rank))
  ∧ ((∀ (op : RedOp) (p : Part1), p.rank < 32 → gredV op [p] = redArg op p.a ∧ gscanV op [p] p.rank = redArg op p.a)
    ∧ (∀ (op : RedOp) (p q : Part1), p.rank < q.rank → q.rank < 32 →
      gredV op [p, q] = redCombine op (redArg op p.a) (redArg op q.a)
        ∧ gscanV op [p, q] p.rank = redArg op p.a
        ∧ gscanV op [p, q] q.rank = redCombine op (redArg op p.a) (redArg op q.a))
    ∧ (∀ (l : List Part1), (l.map (·.rank)).Pairwise (· < ·) → l ≠ [] → (∀ p, p ∈ l → p.rank < 32) →
      (gredV .add64 l).toNat = (l.map fun p => p.a.w64.toNat).sum % 2 ^ 64)
    ∧ (∀ (op : RedOp) (l : List Part1), (l.map (·.rank)).Pairwise (· < ·) → l ≠ [] → (∀ p, p ∈ l → p.rank < 32) →
      (∃ node : Nat → Option Word,
        (∀ q, q < 32 → (∀ p, p ∈ l → p.rank = q → node (32 + q) = some (redArg op p.a))
          ∧ ((∀ p, p ∈ l → p.rank ≠ q) → node (32 + q) = none))
        ∧ (∀ h, 1 ≤ h → h < 32 → node h = match node (2 * h), node (2 * h + 1) with
          | some a, some b => some (redCombine op a b)
          | some a, none => some a
          | none, b => b)
        ∧ node 1 = some (gredV op l))
      ∧ (∀ p rest, l = p :: rest → gscanV op l p.rank = redArg op p.a)
      ∧ ∀ before p q rest, l = before ++ p :: q :: rest →
        gscanV op l q.rank = redCombine op (gscanV op l p.rank) (redArg op q.a))
    ∧ (∀ (op : RedOp) (x y : Word),
      let els (w : Nat) (f : Nat → Nat → Nat) : Prop := ∀ k, k < 64 / w →
        elem (redCombine op x y) w k = f (elem x w k) (elem y w k) % 2 ^ w
      let least (w : Nat) (a b : Nat) : Nat := if toInt w true b < toInt w true a then b else a
      let most (w : Nat) (a b : Nat) : Nat := if toInt w true a < toInt w true b then b else a
      let fp (q : FD) (f : FV → FV → FV) (a b : Nat) : Nat := q.encode (f (q.decode a) (q.decode b))
      (op = .add64 → els 64 (· + ·)) ∧ (op = .add32 → els 32 (· + ·)) ∧ (op = .smin64 → els 64 (least 64))
        ∧ (op = .smin32 → els 32 (least 32)) ∧ (op = .smax64 → els 64 (most 64)) ∧ (op = .smax32 → els 32 (most 32))
        ∧ (op = .umin64 → els 64 min) ∧ (op = .umax64 → els 64 max) ∧ (op = .fadd64 → els 64 (fp fd64 (faddV fd64 .rne)))
        ∧ (op = .fadd32 → els 32 (fp fd32 (faddV fd32 .rne))) ∧ (op = .fmin32 → els 32 (fp fd32 (fminV fd32)))
        ∧ (op = .fmax32 → els 32 (fp fd32 (fmaxV fd32))) ∧ (op = .and → els 64 (· &&& ·)) ∧ (op = .or → els 64 (· ||| ·))
        ∧ (op = .xor → els 64 (· ^^^ ·)))
    ∧ ∀ (s : State) (lg : Bool) (tk r : Nat) (a : Arr) (rest : List (Nat × Nat × Arr)),
      let l := (r, tk, a) :: rest
      (s.thr tk).pair = none → (l.map (·.1)).Pairwise (· < ·) → (∀ x, x ∈ l → x.1 < 32) →
      let nt := s.nanTest tk
      let coin := (s.coinSrc tk).coin (a.b.w64.toNat % 2 ^ 12)
      let leaf (x : Nat × Nat × Arr) : Word := if nt && pairInvalid lg x.2.2.a.w64 then zeroMass lg else x.2.2.a.w64
      ∃ node : Nat → Option Word,
        (∀ q, q < 32 → (∀ x, x ∈ l → x.1 = q → node (32 + q) = some (leaf x)) ∧ ((∀ x, x ∈ l → x.1 ≠ q) → node (32 + q) = none))
        ∧ (∀ h, 1 ≤ h → h < 32 → node h = match node (2 * h), node (2 * h + 1) with
          | some a, some b => some (mergeV lg nt (coin h) a b).1
          | some a, none => some a
          | none, b => b)
        ∧ node 1 = some (s.gdrawPerform lg l).2
        ∧ (s.gdrawPerform lg l).1 = l.foldl (fun s x => if nt && pairInvalid lg x.2.2.a.w64 then s.addNan x.2.1 1 else s) s)

/-! ### Control (R117 to R122) -/

/-- Branches, calls and returns name the header that the thread goes to when its clause ends; a target that is no multiple of
8 is fault 0x07, a call beyond the spill area and a return with nothing to return to are fault 0x09; a return whose stack is
empty takes the spilled entry that its load has brought (R118). -/
def Obligations.Branches : Prop :=
  ∀ (w : Stand) (s : State), w.Clear s →
    let b := w.begun s
    let l := w.lane s
    let h := w.i.g.hpc
    let goes (b : State) (t : Word) : State := b.modThr w.tk fun x => { x with jump := some t }
    let pushed (b : State) (t : Word) : State :=
      b.modThr w.tk fun x => { x with stack := x.stack ++ [nextHeader h w.i.g.hdr], jump := some t }
    let calls (ins : Instr) (t : Word) : Prop :=
      (t.toNat % 8 ≠ 0 → w.Faults s ins { code := 0x07, addr := t })
      ∧ (t.toNat % 8 = 0 → (b.thr w.tk).stack.length < 16 → w.Completes s ins (pushed b t))
      ∧ (t.toNat % 8 = 0 → 16 ≤ (b.thr w.tk).stack.length →
        (∀ b', b.spillBottom l = .ok b' → w.Completes s ins (pushed b' t))
        ∧ ((b.spillArea w.tk).2 < 8 * ((b.thr w.tk).spill + 1) →
          w.Faults s ins { code := 0x09, addr := BitVec.ofNat 64 ((b.spillArea w.tk).1 + 8 * (b.thr w.tk).spill) }))
    (∀ off, w.u = {} → w.Completes s (.bra w.f off) (goes b (h + 8 * off.signExtend 64)))
    ∧ (∀ a, w.u = { src := [(0, a)] } →
      if l.a.w64.toNat % 8 = 0 then w.Completes s (.brx w.f a) (goes b l.a.w64)
      else w.Faults s (.brx w.f a) { code := 0x07, addr := l.a.w64 })
    ∧ (∀ d off, w.u = { dst := some d, rdD := true } →
      let v := b.oldD l - 1
      w.Completes s (.loop w.f d off) (if v = 0 then b.put l v else goes (b.put l v) (h + 8 * off.signExtend 64)))
    ∧ (∀ off, w.u = {} → calls (.call w.f off) (h + 8 * off.signExtend 64))
    ∧ (∀ a, w.u = { src := [(0, a)] } → calls (.callx w.f a) l.a.w64)
    ∧ (w.u = { vl := true } → (∀ st v, (b.thr w.tk).stack = st ++ [v] →
        if v.toNat % 8 = 0 then
          w.Completes s (.ret w.f) (b.modThr w.tk fun x => { x with stack := st, jump := some v, head := true })
        else w.Faults s (.ret w.f) { code := 0x07, addr := v })
      ∧ ((b.thr w.tk).stack = [] →
        ((b.thr w.tk).spill = 0 → w.Faults s (.ret w.f) { code := 0x09 })
        ∧ ∀ n u v, (b.thr w.tk).spill = n + 1 → (b.thr w.tk).reload = some (u, some (v, none)) → v.toNat % 8 = 0 →
          w.Completes s (.ret w.f)
            (b.modThr w.tk fun x => { x with reload := none, stack := [], spill := n, jump := some v, head := true })))

/-- NOP changes nothing; YIELD and SLEEP act at the clause end; EXIT ends the thread at once where its stores have performed,
else the thread leaves its gang and stays at the word till they have (in a pair for whose last region commands still wait,
that region begins first); TRAP and BRK raise their faults with their number in the address field (R113, R114, R120, R121,
R314). -/
def Obligations.ThreadControl : Prop :=
  ∀ (w : Stand) (s : State), w.Clear s →
    let b := w.begun s
    (w.u = {} → w.Completes s (.nop w.f) b ∧ w.Completes s (.yield w.f) (b.atEnd w.tk .yield))
    ∧ (∀ a, w.u = { src := [(0, a)] } →
      w.Completes s (.sleep w.f a) (b.atEnd w.tk (.sleep (min (w.lane s).a.w64.toNat (2 ^ 32 - 1)))))
    ∧ (w.u = { drain := true, last := true } →
      let more := (b.thr w.tk).pair.any fun p => p.more == some ((b.thr w.tk).region + 1)
      let gone (t : State) : Prop := exec (.exit w.f) s = .next (t.checkWord w.f.park)
      (more = false → (b.thr w.tk).c.suc = 0 → gone (b.endThread w.tk false))
      ∧ (more = false → (b.thr w.tk).c.suc ≠ 0 → gone ((b.dropMember w.tk).modThr w.tk fun t =>
        { t.endRun with pc := w.i.g.wordAddr, mid := true, leaving := true }))
      ∧ (more = true → exec (.exit w.f) s = .next
        ((b.modThr w.tk fun t => t.lastRegion w.i.g.wordAddr w.i.g.hpc w.i.g.hdr).parkGang w.i w.i.g .region)))
    ∧ (∀ n : BitVec 14, w.u = {} →
      (∃ x, x.code = 0x15 ∧ x.addr.toNat = n.toNat ∧ x.late = false ∧ w.Faults s (.trap w.f n) x)
        ∧ ∃ x, x.code = 0x16 ∧ x.addr.toNat = n.toNat ∧ x.late = false ∧ w.Faults s (.brk w.f n) x)

/-- WAITA begins to watch its word, for a time that its package's arithmetic clock counts: its destination is pending and the
wait counts in LDC, and in FRC where the word is remote, a full counter parking it; an address that is no multiple of 8 is
fault 0x07, one that cannot be read its translation's fault. The trailing copy of a pair waits for what its leading copy
receives (R122, R404, R472). -/
def Obligations.WaitOnWord : Prop :=
  ∀ (w : Stand) (s : State) (o : O3), w.u = { use3 o with vl := true } → w.Clear s →
    let b := w.begun s
    let l := w.lane s
    let a := l.a.w64
    let c := l.c.w64.toNat
    let found := b.globParts w.tk .rd false (b.thr w.tk).pair.isSome [(a.toNat, 8)]
    (a.toNat % 8 ≠ 0 → w.Faults s (.waita w.f o) { code := 0x07, addr := a })
    ∧ (a.toNat % 8 = 0 →
      (∀ code, found = .error code → w.Faults s (.waita w.f o) { code := code, addr := a })
      ∧ ∀ ps b', found = .ok (ps, b') →
        let far := b'.anyRemote w.tk ps
        let n := (b.thr w.tk).c
        ((b.thr w.tk).trails = true → w.Completes s (.waita w.f o) (b'.pendNew l .copied 7).2)
        ∧ ((b.thr w.tk).trails = false → 255 ≤ n.ldc → w.Parks s (.waita w.f o) (.room 6))
        ∧ ((b.thr w.tk).trails = false → n.ldc < 255 → far = true → 255 ≤ n.frc → w.Parks s (.waita w.f o) (.room 9))
        ∧ ((b.thr w.tk).trails = false → n.ldc < 255 → (far = true → n.frc < 255) →
        let acc : Acc := { space := .glob, k := .load, size := 8, acq := true, pieces := ps, remote := far }
        w.Completes s (.waita w.f o)
          ((b'.pendNew l (.waita acc l.b.w64 (if c = 0 then none else some (c, b'.time (pkgOfThr w.tk) + c))) 7).2.modThr w.tk fun t =>
            { t with c := { t.c with ldc := t.c.ldc + 1, frc := t.c.frc + if far then 1 else 0 } })))

/-! ### Registers (R135 to R144) -/

/-- IXSET writes an image whose reserved bits and mode are legal, IXGET reads it, IXADV moves the element position modulo 128
registers (R138). -/
def Obligations.IndexRegisters : Prop :=
  ∀ (w : Stand) (s : State), w.Clear s →
    let b := w.begun s
    let l := w.lane s
    let ixs := (b.thr w.tk).r.ix
    let becomes (ix : BitVec 3) (x : BitVec 30) : State :=
      b.modThr w.tk fun t => { t with r := { t.r with ix := t.r.ix.set ix.toNat x ix.isLt } }
    (∀ ix a, w.u = { src := [(0, a)] } →
      let v := l.a.w64.toNat
      if v < 2 ^ 30 ∧ v / 2 ^ 25 % 4 ≠ 3 then
        w.Completes s (.ixset w.f ix a) ((becomes ix (BitVec.ofNat 30 v)).modThr w.tk fun t =>
          { t with ixw := Tab.put t.ixw ix.toNat t.nw })
      else w.Faults s (.ixset w.f ix a) { code := 0x02 })
    ∧ (∀ (ix : BitVec 3) d, w.u = { dst := some d } →
      w.Writes s (.ixget w.f d ix) fun v => v.toNat = (ixs.get ix.toFin).toNat)
    ∧ ∀ (ix : BitVec 3) (a : Src) (ew : Width), w.u = { src := [(0, a)] } →
      let x := ixFields (ixs.get ix.toFin)
      let n := 64 / wbits ew
      let p := (x.cur * n + (if ew = .w64 then 0 else x.sub) + l.a.w64.toInt) % (128 * n : Nat)
      if ew = .w64 ∨ x.sub < n then
        ∃ y, w.Completes s (.ixadv w.f ix a ew) (becomes ix y)
          ∧ ((ixFields y).cur : Int) = p / n ∧ ((ixFields y).sub : Int) = (if ew = .w64 then (x.sub : Int) else p % n)
          ∧ (ixFields y).base = x.base ∧ (ixFields y).bound = x.bound ∧ (ixFields y).step = x.step ∧ (ixFields y).mode = x.mode
      else w.Faults s (.ixadv w.f ix a ew) { code := 0x02 }

/-- XACQ leaves a thread wanting a block unless it holds one, XREL gives the block back once none of its registers is pending,
XQRY reads where the thread stands; SHRMAP and SHRUNMAP map and unmap a shared block of the allotment once no mapped register
is pending, and need an extended block (R139 to R141, R143). -/
def Obligations.RegisterBlocks : Prop :=
  ∀ (w : Stand) (s : State), w.Clear s →
    let b := w.begun s
    let l := w.lane s
    let t := b.thr w.tk
    let hi := t.r.pendG &&& 0xFFFFFFFF00000000
    let map := t.r.pendG &&& 0xFF00000000000000
    (w.u = {} →
      w.Completes s (.xacq w.f) (if t.xblk then b else b.modThr w.tk fun t => { t with xwant := true, hold := true })
      ∧ if hi = 0 then w.Completes s (.xrel w.f) (((b.modThr w.tk fun t => { t with shr := none }).freeBlock w.tk).poolCheck l.ck)
        else w.Parks s (.xrel w.f) (.regs [(w.tk, hi, 0)]))
    ∧ (∀ d, w.u = { dst := some d } → (b.core (ckOf w.tk)).pool < 1024 → w.Writes s (.xqry w.f d) fun v =>
      v.toNat % 2 = (if t.xblk then 1 else 0) ∧ v.toNat / 2 % 2 = (if t.shr.isSome then 1 else 0)
        ∧ v.toNat / 4 % 256 = t.shr.getD 0 % 256 ∧ v.toNat / 2 ^ 10 % 64 = 0
        ∧ v.toNat / 2 ^ 16 % 1024 = (b.core (ckOf w.tk)).pool
        ∧ v.toNat / 2 ^ 26 = min 1023 ((b.coreThreads (ckOf w.tk)).filter fun e => e.2.xwant && e.2.hold).length)
    ∧ (∀ a, w.u = { src := [(0, a)], feat := some 13 } →
      let k := l.a.w64.toNat
      (t.xblk = false → w.Faults s (.shrmap w.f a) { code := 0x05 })
      ∧ (t.xblk = true → (b.ctxOf w.tk).shrn ≤ k → w.Faults s (.shrmap w.f a) { code := 0x02 })
      ∧ (t.xblk = true → k < (b.ctxOf w.tk).shrn →
        if map = 0 then w.Completes s (.shrmap w.f a) (b.modThr w.tk fun t => { t with shr := some k })
        else w.Parks s (.shrmap w.f a) (.regs [(w.tk, map, 0)])))
    ∧ (w.u = { feat := some 13 } →
      (t.xblk = false → w.Faults s (.shrunmap w.f) { code := 0x05 })
      ∧ (t.xblk = true →
        if map = 0 then w.Completes s (.shrunmap w.f) (b.modThr w.tk fun t => { t with shr := none })
        else w.Parks s (.shrunmap w.f) (.regs [(w.tk, map, 0)])))

/-- RDFE and WRFE each make a request on the shared register that their operand names; the register and the destination are
pending meanwhile. A full register serves its oldest RDFE with its value and is empty; an empty one serves its oldest WRFE,
whose value it then holds, full; a request whose thread no longer waits falls away. The trailing copy of a pair waits for what
its leading copy receives, and passes WRFE by (R136, R144, R404). The order of one cycle's requests is log 15. -/
def Obligations.FullEmptyAccess : Prop :=
  (∀ (w : Stand) (s : State) (o : O1), w.u = { use1 o with vl := true, close := true, feat := some 13 } → w.Clear s →
    let b := w.begun s
    let l := w.lane s
    let tr := (b.thr w.tk).trails
    (∀ n r, ((l.src 0).bind fun x => x.reg) = some n → b.sharedOf w.tk n = some r →
      (tr = true → w.Completes s (.rdfe w.f o) (b.pendNew l .copied 7).2)
      ∧ (tr = false →
      let b' := (b.pendAs l (.rdfe r) l.r.d 7 (regsMask [n])).2
      let x := b'.shReg w.tk r
      w.Completes s (.rdfe w.f o) ((b'.setShReg w.tk r { x with rq := x.rq ++ [(w.tk, b.uid)] }).feCheck l.ck r)))
    ∧ (∀ n, ((l.src 0).bind fun x => x.reg) = some n → b.sharedOf w.tk n = none → w.Faults s (.rdfe w.f o) { code := 0x02 })
    ∧ ∀ n ns, l.r.d.regs = n :: ns →
      (∀ r, b.sharedOf w.tk n = some r → (tr = true → w.Completes s (.wrfe w.f o) b) ∧ (tr = false →
        let b' := (b.pendNew l (.wrfe r l.a.w64) 7).2
        let x := b'.shReg w.tk r
        w.Completes s (.wrfe w.f o) ((b'.setShReg w.tk r { x with wq := x.wq ++ [(w.tk, b.uid)] }).feCheck l.ck r)))
      ∧ (b.sharedOf w.tk n = none → w.Faults s (.wrfe w.f o) { code := 0x02 }))
  ∧ ∀ (s : State) (ck r : Nat) (x : ShReg), Tab.look (s.core ck).shr r = some x →
    (∀ tk u rest p, x.full = true → x.rq = (tk, u) :: rest → (s.thr tk).pendAt u = some p → p.k = .rdfe r → ∀ n,
      ∃ t, s.feServe ck r (n + 1) = State.feServe t ck r n
        ∧ Tab.look (t.core ck).shr r = some { x with full := false, rq := rest }
        ∧ ∃ q, (t.thr tk).pendAt u = some q ∧ q.k = .value x.v.cur none ∧ q.d = p.d)
    ∧ (∀ tk u rest p v, x.full = false → x.wq = (tk, u) :: rest → (s.thr tk).pendAt u = some p → p.k = .wrfe r v → ∀ n,
      ∃ t, s.feServe ck r (n + 1) = State.feServe t ck r n
        ∧ Tab.look (t.core ck).shr r
          = some { x with full := true, wq := rest, v := x.v.writeBy s.clock 0 v, psn := none, prov := none }
        ∧ (t.thr tk).pend = ((s.thr tk).dropPend u).pend ∧ (∀ k, k ≠ tk → t.thr k = s.thr k) ∧ t.mem = s.mem)
    ∧ (∀ tk u rest, (s.thr tk).pendAt u = none → (s.thr tk).orph.find? (fun p => p.u == u) = none → ∀ n,
      (x.full = true → x.rq = (tk, u) :: rest →
        s.feServe ck r (n + 1)
          = (s.modCore ck fun c => { c with shr := Tab.put c.shr r { x with rq := rest } }).feServe ck r n)
      ∧ (x.full = false → x.wq = (tk, u) :: rest →
        s.feServe ck r (n + 1)
          = (s.modCore ck fun c => { c with shr := Tab.put c.shr r { x with wq := rest } }).feServe ck r n))
    ∧ ((x.full = true ∧ x.rq = []) ∨ (x.full = false ∧ x.wq = []) → s.feCheck ck r = s)

/-! ### Barriers (R207 to R212) -/

/-- The barrier words on barrier k of the context's allotment: initialise, arrive, wait at the clause end, arrive and wait,
query; a number outside the allotment and a misuse are fault 0x10. LBAR counts the thread at its launch's barrier and gives it
the number of completions before this one; a pair arrives once, and its trailing copy gets the number that its leading copy
passed (R208 to R212, R404). An arrival: fault where the barrier is not initialised or the thread has arrived twice; otherwise
the count rises, and the arrival that reaches the target flips the phase, clears count and masks and empties the waiter mask;
the arrived phase is the one before (R208). -/
def Obligations.Barriers : Prop :=
  (∀ (w : Stand) (s : State), w.Clear s →
      let b := w.begun s
      let l := w.lane s
      let bad (ins : Instr) : Prop := w.Faults s ins { code := 0x10 }
      (∀ (n : BitVec 10) (a : Src), w.u = { src := [(0, a)] } →
        (b.barNo w.tk n.toNat = none → bad (.barinit w.f n a) ∧ bad (.barwait w.f n a))
        ∧ ∀ k, b.barNo w.tk n.toNat = some k →
          let v := b.bar l.ck k
          let x := l.a.w64.toNat
          (if 0 < x ∧ x ≤ 1024 ∧ v.count = 0 ∧ v.wait = 0 then w.Completes s (.barinit w.f n a) (b.setBar l.ck k { n := x })
            else bad (.barinit w.f n a))
          ∧ w.Completes s (.barwait w.f n a) (b.atEnd w.tk (.bar k (decide (x % 2 = 1)))))
      ∧ (∀ (n : BitVec 10) (d : Dst), w.u = { dst := some d, rel := true, close := true } →
        (b.barNo w.tk n.toNat = none → bad (.bararv w.f d n))
        ∧ ∀ k, b.barNo w.tk n.toNat = some k → (b.barArrive w.tk k = none → bad (.bararv w.f d n))
          ∧ ∀ b' ph, b.barArrive w.tk k = some (b', ph) →
            w.Completes s (.bararv w.f d n) (b'.put l (if ph then 1 else 0)))
      ∧ (∀ (n : BitVec 10), w.u = { rel := true, close := true } →
        (b.barNo w.tk n.toNat = none → bad (.barsync w.f n))
        ∧ ∀ k, b.barNo w.tk n.toNat = some k → (b.barArrive w.tk k = none → bad (.barsync w.f n))
          ∧ ∀ b' ph, b.barArrive w.tk k = some (b', ph) → w.Completes s (.barsync w.f n) (b'.atEnd w.tk (.bar k ph)))
      ∧ (∀ (n : BitVec 10) (d : Dst), w.u = { dst := some d } →
        (b.barNo w.tk n.toNat = none → bad (.barqry w.f d n))
        ∧ ∀ k, b.barNo w.tk n.toNat = some k →
          let v := b.bar l.ck k
          let waiters := ((List.range 1024).filter fun j => v.wait.getLsbD j).length
          v.count < 2 ^ 11 → v.n < 2 ^ 11 →
          w.Writes s (.barqry w.f d n) fun x =>
            x.toNat = v.count + v.n * 2 ^ 11 + (if v.phi then 1 else 0) * 2 ^ 22 + waiters * 2 ^ 23)
      ∧ ∀ d, w.u = { dst := some d, rel := true, close := true } →
        ((b.thr w.tk).launch = none → bad (.lbar w.f d))
        ∧ ∀ lk la, (b.thr w.tk).launch = some lk → Tab.look b.launches lk = some la →
          let t := b.thr w.tk
          let goes (b : State) (n : Nat) : Prop :=
            w.Completes s (.lbar w.f d) ((b.put l (BitVec.ofNat 64 (n % 2 ^ 32))).atEnd w.tk (.lbar n))
          (t.trails = false → (t.leads = true → b.inqRoom w.tk = true) →
            goes (((b.pass w.tk { pos := t.nw, src := true, v := [BitVec.ofNat 64 la.lbarN] }).setLaunch lk
              { la with lbarArr := la.lbarArr ++ [w.tk] }).lbarCheck lk) la.lbarN)
          ∧ (t.trails = false → t.leads = true → b.inqRoom w.tk = false → w.Parks s (.lbar w.f d) .copies)
          ∧ (t.trails = true → ((b.pairSrc w.tk).bind fun v => v.v.head?) = none → w.Parks s (.lbar w.f d) .copies)
          ∧ (t.trails = true → ∀ n, ((b.pairSrc w.tk).bind fun v => v.v.head?) = some n → goes b n.toNat))
  ∧ (∀ (s : State) (tk k : Nat),
      let v := s.bar (ckOf tk) k
      let j := slotOf tk
      (v.n = 0 ∨ v.m2.getLsbD j = true → s.barArrive tk k = none)
      ∧ (v.n ≠ 0 → v.m2.getLsbD j = false →
        ∃ t, s.barArrive tk k = some (t, v.phi)
          ∧ (let x := t.bar (ckOf tk) k
            x.n = v.n ∧ if v.count + 1 = v.n then x = { n := v.n, phi := !v.phi }
              else x.count = v.count + 1 ∧ x.phi = v.phi ∧ x.wait = v.wait
                ∧ (∀ i, i < 1024 → x.m1.getLsbD i = (v.m1.getLsbD i || decide (i = j)))
                ∧ (∀ i, i < 1024 → x.m2.getLsbD i = (v.m2.getLsbD i || (decide (i = j) && v.m1.getLsbD j))))
          ∧ (∀ i, i ≠ k → t.bar (ckOf tk) i = s.bar (ckOf tk) i) ∧ t.mem = s.mem))

/-! ### Queues and draws (R103, R214 to R224) -/

/-- QPUSH gives its queue a record of the thread's registers, QPOP waits for one; a queue that is not the stage's, a record
past g63, and a thread that has been retired are fault 0x11. The oldest push fills the slot at the tail while the queue has
room; the oldest pop takes the record at the head while there is one; each moves its count in the control block. A pop whose
thread is retired ends with its predicate 0. The trailing copy of a pair passes a push by and waits for its leading copy's
record (R103, R104, R404). The order in which requests are served is log 15. -/
def Obligations.StageQueues : Prop :=
  (∀ (w : Stand) (s : State) (g : BitVec 6) (q : BitVec 3), w.Clear s →
    let b := w.begun s
    let l := w.lane s
    let tr := (b.thr w.tk).trails
    (∀ lu, w.u = { src := [(0, ⟨.reg g, lu⟩)], rd := runRegs g (s.recWords q.toNat), rel := true, close := true, feat := some 5 } →
      (b.queueOf w.tk q.toNat = none → w.Faults s (.qpush w.f g lu q) { code := 0x11 })
      ∧ ∀ lk st r d, b.queueOf w.tk q.toNat = some (lk, st, r, d) →
        let n := r.recb / 8
        if st.outq = q.toNat ∧ g.toNat + n ≤ 64 ∧ (b.thr w.tk).retired = false then
          if tr then w.Completes s (.qpush w.f g lu q) b
          else w.Completes s (.qpush w.f g lu q)
            ((b.pendAs l (.qpush q.toNat ((runRegs g n).map fun k => b.before l k)) .none 7).2.queueCheck lk d.dk q.toNat)
        else w.Faults s (.qpush w.f g lu q) { code := 0x11 })
    ∧ ∀ (pn : BitVec 3),
      w.u = { wr := runRegs g (s.recWords q.toNat), pw := predBit pn, vl := true, close := true, feat := some 5 } →
      (b.queueOf w.tk q.toNat = none → w.Faults s (.qpop w.f g q pn) { code := 0x11 })
      ∧ ∀ lk st r d, b.queueOf w.tk q.toNat = some (lk, st, r, d) →
        let n := r.recb / 8
        if st.inq = q.toNat ∧ g.toNat + n ≤ 64 ∧ (b.thr w.tk).retired = false then
          if tr then w.Completes s (.qpop w.f g q pn) (b.pendAs l .copied (.run g n) pn).2
          else w.Completes s (.qpop w.f g q pn) ((b.pendAs l (.qpop q.toNat n) (.run g n) pn).2.queueCheck lk d.dk q.toNat)
        else w.Faults s (.qpop w.f g q pn) { code := 0x11 })
  ∧ (∀ (s : State) (lk q n : Nat) (la : Launch) (r : QueueR) (d : LDie) (head tail : Nat),
    Tab.look s.launches lk = some la → la.queues[q]? = some r → (la.dies.find? fun e => e.dk == d.dk) = some d →
    Tab.getOr d.qs q (0, 0) = (head, tail) →
    let slot (k : Nat) : Nat := s.queueLoc lk r d + 128 + k % r.depth * r.recb
    let pops := s.queueWaits lk d.dk q false
    let pushes := s.queueWaits lk d.dk q true
    (∀ tk p rest, pops = (tk, p) :: rest → head < tail →
      s.queueServe lk d.dk q (n + 1)
        = ((s.setCounts lk q r d (head + 1) tail).finishOutside tk p
          ((List.range (r.recb / 8)).map fun k => BitVec.ofNat 64 (s.read (slot head + 8 * k) 8)) (some true)).queueServe lk d.dk q n)
    ∧ (∀ tk p rest ws, (pops = [] ∨ tail ≤ head) → pushes = (tk, p) :: rest → p.k = .qpush q ws → tail - head < r.depth →
      s.queueServe lk d.dk q (n + 1)
        = ((((s.writeBytes (slot tail) (ws.flatMap fun w => leBytes 8 w.toNat)).setCounts lk q r d head (tail + 1)).endPend tk p.u).queueServe
          lk d.dk q n))
    ∧ ((pops = [] ∨ tail ≤ head) → (pushes = [] ∨ r.depth ≤ tail - head) → s.queueServe lk d.dk q (n + 1) = s))
  ∧ ∀ (s : State) (tk g : Nat) (p : Pend), (s.thr tk).pair = none → (s.thr tk).pendAt p.u = some p → p.pn ≠ 7 →
    let t := (s.retireFor (tk, p) g).thr tk
    t.retired = true ∧ t.retireTo = g ∧ t.pendAt p.u = none ∧ t.r.p.getLsbD p.pn.toNat = false
      ∧ ∀ k, k ≠ p.pn.toNat → t.r.p.getLsbD k = (s.thr tk).r.p.getLsbD k

/-- The draw words: DRAWL and DRAWG write a leaf and count the NaNs they replaced, DMRG sends the winner of a merge, DSEED
writes the context's key on the thread's die (in a pair the leading copy's word does, log 65), DRND the coin of a counter.
Leaves are formed and two pairs merged as R48 and R49 give: the exact comparison under the coin picks the index, and the mass
is the rounded sum (R47 to R49, R215 to R222). -/
def Obligations.Draws : Prop :=
  (∀ (w : Stand) (s : State), w.Clear s →
    let b := w.begun s
    let l := w.lane s
    let nt := b.nanTest w.tk
    let coin := b.coinSrc w.tk
    (∀ o, w.u = { use2 o with feat := some 2 } →
      let r := linLeaf nt l.a.bits32 (l.b.w64.toNat % 2 ^ 32)
      w.Completes s (.drawl w.f o) ((b.addNan w.tk r.2).put l r.1))
    ∧ (∀ o, w.u = { use3 o with feat := some 2 } →
      let r := logLeaf nt l.a.f32 l.b.f32 (l.c.w64.toNat % 2 ^ 32)
      w.Completes s (.drawg w.f o) ((b.addNan w.tk r.2).put l r.1))
    ∧ (∀ lg o, w.u = { use3 o with vl := true, coin := true, feat := some 2 } →
      let c := l.c.w64.toNat
      let r := mergeV lg nt (coin.coin (c / 2 ^ 20 % 2 ^ 12) (c % 2 ^ 20)) l.a.w64 l.b.w64
      w.Completes s (.dmrg w.f lg o) ((b.addNan w.tk r.2).sendPut l r.1))
    ∧ (∀ a, w.u = { src := [(0, a)], feat := some 2 } →
      if (b.thr w.tk).trails = true then w.Completes s (.dseed w.f a) b else
      let dk := dkOf l.ck
      ∃ t, w.Completes s (.dseed w.f a) t ∧ t.threads = b.threads ∧ t.mem = b.mem
        ∧ Tab.look (t.die dk).key (b.thr w.tk).ctx = some l.a.w64
        ∧ (∀ c, c ≠ (b.thr w.tk).ctx → Tab.look (t.die dk).key c = Tab.look (b.die dk).key c)
        ∧ ∀ d, d ≠ dk → t.die d = b.die d)
    ∧ ∀ o, w.u = { use1 o with coin := true, feat := some 2 } →
      w.Writes s (.drnd w.f o) fun v => v = coin.draw (l.a.w64.setWidth 32))
  ∧ (∀ (c : CoinSrc) (ctr : BitVec 32) (site node : Nat),
    let z := (c.key ^^^ (c.gen ++ ctr)) * 0xC7A15E39B26D0F4B
    let y := (z ^^^ (z >>> 29)) * 0x8E3D59A714C6F2B9
    (c.table = none → c.draw ctr = y ^^^ (y >>> 32))
    ∧ (∀ t, c.table = some t → (c.draw ctr).toNat = (t[ctr.toNat % 64]?.getD 0).toNat * 2 ^ 40)
    ∧ c.coin site node = (c.draw (BitVec.ofNat 32 (site % 2 ^ 12 * 2 ^ 20 + node % 2 ^ 20))).toNat / 2 ^ 40)
  ∧ (∀ (nt : Bool) (wt ix : Nat) (x beta : FV), ix < 2 ^ 32 →
    let none_ := ix = 0xFFFFFFFF
    let made (lg : Bool) (r : Word × Nat) (invalid zero : Prop) (p : Word) : Prop :=
      (invalid → r = if nt then (zeroMass lg, 1) else (invalidPair, 0)) ∧ (¬invalid → zero → r = (zeroMass lg, 0))
      ∧ (¬invalid → ¬zero → r = (p, 0))
    let wv := fd32.decode wt
    let lv := fmulV fd32 .rne x beta
    made false (linLeaf nt wt ix) (wv.isNan = true ∨ (¬none_ ∧ wv.neg = true ∧ wv.isZero = false)) (none_ ∨ wv.isZero = true)
      (BitVec.ofNat 64 (ix * 2 ^ 32 + wt % 2 ^ 32))
    ∧ made true (logLeaf nt x beta ix)
      (if none_ then lv.isNan = true
        else x.isNan = true ∨ beta.isNan = true ∨ beta.isInf = true ∨ (x = .inf false ∧ beta.isZero = true))
      (none_ ∨ x = .inf true ∨ lv = .inf true) (BitVec.ofNat 64 (ix * 2 ^ 32 + fd32.encode lv % 2 ^ 32)))
  ∧ ∀ (lg nt : Bool) (u : Nat) (l r : Word), u < 2 ^ 24 →
    let ix (p : Word) : Nat := p.toNat / 2 ^ 32
    let raw (p : Word) : FV := fd32.decode (p.toNat % 2 ^ 32)
    let none_ (p : Word) : Prop := ix p = 0xFFFFFFFF
    let invalid (p : Word) : Prop := (raw p).isNan = true ∨ (¬none_ p ∧ lg = false ∧ (raw p).neg = true ∧ (raw p).isZero = false)
    let mass (p : Word) : FV := if ix p = 0xFFFFFFFF then (if lg then .inf true else .fin false 0 0) else raw p
    let gives (p : Word) (m : Nat) : Prop := mergeV lg nt u l r = (BitVec.ofNat 64 (ix p * 2 ^ 32 + m % 2 ^ 32), 0)
    let inf := fd32.encode (.inf false)
    (nt = false → invalid l ∨ invalid r → mergeV lg nt u l r = (invalidPair, 0))
    ∧ (nt = true → invalid l → ¬invalid r → mergeV lg nt u l r = ((mergeV lg nt u (zeroMass lg) r).1, 1))
    ∧ (nt = true → ¬invalid l → invalid r → mergeV lg nt u l r = ((mergeV lg nt u l (zeroMass lg)).1, 1))
    ∧ (nt = true → invalid l → invalid r → mergeV lg nt u l r = (zeroMass lg, 2))
    ∧ (¬invalid l → ¬invalid r →
      (mass l = .inf false → mass r = .inf false → if u < 2 ^ 23 then gives l inf else gives r inf)
      ∧ (lg = false →
        (mass l = .inf false → mass r ≠ .inf false → gives l inf) ∧ (mass l ≠ .inf false → mass r = .inf false → gives r inf)
        ∧ (mass l ≠ .inf false → mass r ≠ .inf false →
          let a := (mass l).real
          let b := (mass r).real
          (a + b = 0 → mergeV lg nt u l r = (zeroMass false, 0))
          ∧ (a + b ≠ 0 → ∃ m, gives (if u * (a + b) < a * 2 ^ 24 then l else r) m ∧ RoundsTo fd32 .rne false false (a + b) m)))
      ∧ (lg = true →
        (mass l = .inf true → mass r = .inf true → mergeV lg nt u l r = (zeroMass true, 0))
        ∧ ∀ hi lo, (hi = l ∧ lo = r ∧ mass l ≠ .inf true ∧ (mass l = .inf false ∨ mass r = .inf true ∨ (mass r).real ≤ (mass l).real)
              ∧ mass r ≠ .inf false)
            ∨ (hi = r ∧ lo = l ∧ mass r ≠ .inf true ∧ (mass r = .inf false ∨ mass l = .inf true ∨ (mass l).real < (mass r).real)
              ∧ mass l ≠ .inf false) →
          (mass hi = .inf false ∨ mass lo = .inf true → gives hi (fd32.encode (mass hi)))
          ∧ (mass hi ≠ .inf false → mass lo ≠ .inf true →
            let q := fd32.decode (fd32.encode (fex2V fd32 .rne (fsubV fd32 .rne (mass lo) (mass hi))))
            let m := fd32.encode (faddV fd32 .rne (mass hi) (fd32.decode (fd32.encode (flg2pV fd32 .rne q))))
            if (u : ℝ) * (1 + q.real) < 2 ^ 24 then gives hi m else gives lo m)))

/-! ### Memory words (R257 to R277) -/

/-- A load issues: its destination is pending, and it counts in LDC, and in FRC where a part is remote; a full counter parks
it. An acquire that is not aligned is fault 0x07, an address outside its space or its translation's permission is the fault of
R225 to R232. The trailing copy of a pair waits for the value that its leading copy loads, but for a local store's (R259,
R261, R266, R404, R472). -/
def Obligations.Loads : Prop :=
  ∀ (w : Stand) (s : State) (m : MMod) (h : Hint) (off : BitVec 14), w.Clear s →
    let b := w.begun s
    let l := w.lane s
    let pr := (b.thr w.tk).pair.isSome
    let tr := (b.thr w.tk).trails
    let begins (ins : Instr) (b' : State) (acc : Acc) : Prop :=
      let c := (b'.thr w.tk).c
      (255 ≤ c.ldc → w.Parks s ins (.room 6))
      ∧ (c.ldc < 255 → acc.remote = true → 255 ≤ c.frc → w.Parks s ins (.room 9))
      ∧ (c.ldc < 255 → (acc.remote = true → c.frc < 255) →
        w.Completes s ins ((b'.pendNew l (.acc acc) 7).2.modThr w.tk fun t =>
          { t with c := { t.c with ldc := t.c.ldc + 1, frc := t.c.frc + if acc.remote then 1 else 0 } }))
    (∀ o : O1, w.u = { use1 o with vl := true, pair := m.sz == .b16 } →
      let a := l.a.w64 + off.signExtend 64
      let n := sizeBytes m.sz
      let plain (ins : Instr) (sp : Space) (acq : Bool) : Prop :=
        (∀ c, b.parts w.tk sp a n .rd pr = .error c → w.Faults s ins { code := c, addr := a })
        ∧ ∀ ps b', b.parts w.tk sp a n .rd pr = .ok (ps, b') →
          (tr = true → sp ≠ .store → w.Completes s ins (b'.pendNew l .copied 7).2)
          ∧ (tr = false ∨ sp = .store →
            begins ins b' { space := sp, k := .load, size := n, sx := m.sx, acq := acq, hint := h, pieces := ps,
                            remote := b'.anyRemote w.tk ps })
      plain (.ld w.f m h o off) .glob false ∧ plain (.ldvt w.f m h o off) .vault false ∧ plain (.ldls w.f m h o off) .store false
        ∧ if a.toNat % n = 0 then plain (.ldacq w.f m h o off) .glob true
          else w.Faults s (.ldacq w.f m h o off) { code := 0x07, addr := a })
    ∧ ∀ o : O2, w.u = { use2 o with vl := true } →
      let n := sizeBytes m.sz
      let vas := gatherAddrs n m.sx (l.a.w64 + off.signExtend 64) l.b.w64
      (∀ va rest, vas = va :: rest → va % n ≠ 0 →
        w.Faults s (.ldgx w.f m h o off) { code := 0x07, addr := BitVec.ofNat 64 va })
      ∧ (∀ c va, b.gatherFault w.tk n pr vas ≠ none → b.gatherFault w.tk n true vas = some (c, va) →
        w.Faults s (.ldgx w.f m h o off) { code := c, addr := BitVec.ofNat 64 va })
      ∧ ∀ ps b', b.gatherFault w.tk n pr vas = none →
        b.globParts w.tk .rd false pr (vas.map fun va => (va, n)) = .ok (ps, b') →
        (tr = true → w.Completes s (.ldgx w.f m h o off) (b'.pendNew l .copied 7).2)
        ∧ (tr = false → begins (.ldgx w.f m h o off) b' { space := .glob, k := .gather, size := n, hint := h, pieces := ps,
                                                          remote := b'.anyRemote w.tk ps })

/-- A store issues: an entry with its bytes joins the thread's store buffer and counts in SUC, and in FRC where a part is
remote; a release that is not aligned is fault 0x07, a store into a defined tile 0x0E or 0x0F, a full buffer or counter parks.
In a pair both copies form the entry's image and the leading one holds the entry, but for a local store's; a full compare
buffer parks (R244, R263, R264, R405, R472). -/
def Obligations.Stores : Prop :=
  ∀ (w : Stand) (s : State) (m : MMod) (h : Hint) (off : BitVec 14) (o : S2),
    w.u = { useS2 o with srcPair := if m.sz == .b16 then [1] else [] } → w.Clear s →
    let b := w.begun s
    let l := w.lane s
    let a := l.a.w64 + off.signExtend 64
    let n := sizeBytes m.sz
    let data := (l.b.w64.toNat + (if n = 16 then 2 ^ 64 * (l.hi 1).toNat else 0)) % 256 ^ n
    let plain (ins : Instr) (sp : Space) (rel : Bool) : Prop :=
      (∀ c, b.parts w.tk sp a n .wr true = .error c → w.Faults s ins { code := c, addr := a })
      ∧ ∀ ps b', b.parts w.tk sp a n .wr true = .ok (ps, b') →
        (∀ c, sp ≠ .glob → b'.tileFault (ckOf w.tk) ps = some c → w.Faults s ins { code := c, addr := a })
        ∧ ((sp = .glob ∨ b'.tileFault (ckOf w.tk) ps = none) →
          let t := b'.thr w.tk
          let far := b'.anyRemote w.tk ps
          let e : SbE := { u := b'.uid, gid := w.i.g.gid, k := .store, rel := rel, hint := h, pieces := storeParts a.toNat data ps,
                           space := sp, remote := far }
          let img : SigE := { addr := a, lo := BitVec.ofNat 64 data, hi := if n = 16 then l.hi 1 else 0, size := n,
                              kind := if rel then 1 else 0, region := t.region, space := if sp = .vault then 1 else 0, pos := t.nw }
          (t.pair = none ∨ sp = .store →
            (16 ≤ t.sbUsed → w.Parks s ins (.room 4))
            ∧ (t.sbUsed < 16 → 255 ≤ t.c.suc → w.Parks s ins (.room 7))
            ∧ (t.sbUsed < 16 → t.c.suc < 255 → far = true → 255 ≤ t.c.frc → w.Parks s ins (.room 9))
            ∧ (t.sbUsed < 16 → t.c.suc < 255 → (far = true → t.c.frc < 255) →
              w.Completes s ins (b'.fresh.2.modThr w.tk fun t =>
                { t with sb := t.sb ++ [e], c := { t.c with suc := t.c.suc + 1, frc := t.c.frc + if far then 1 else 0 } })))
          ∧ (t.pair ≠ none → sp ≠ .store →
            (t.trails = true → w.Completes s ins (b'.addSig w.tk img))
            ∧ (t.trails = false →
              if 256 ≤ b'.cmpUsed (ckOf w.tk) then w.Parks s ins (.room 5)
              else w.Completes s ins (b'.fresh.2.addSig w.tk { img with held := some e }))))
    plain (.st w.f m h o off) .glob false ∧ plain (.stvt w.f m h o off) .vault false ∧ plain (.stls w.f m h o off) .store false
      ∧ if a.toNat % n = 0 then plain (.strel w.f m h o off) .glob true
        else w.Faults s (.strel w.f m h o off) { code := 0x07, addr := a }

/-- An atomic or a reduction issues: a returning atomic is pending like a load, a reduction joins the store buffer; an address
that is not aligned is fault 0x07; a release waits until what it stands after has performed; a full counter or buffer parks.
The leading copy of a pair acts for both: the trailing one waits for the atomic's value, and passes the reduction by (R271,
R275, R404, R405, R472). What an atomic makes of its word, at its width and signedness: the new value, and for ACAS and ABADD
whether it took effect (R272). -/
def Obligations.Atomics : Prop :=
  (∀ (w : Stand) (s : State) (m : AMod) (h : Hint), w.Clear s →
      let b := w.begun s
      let l := w.lane s
      let n := if m.w32 then 4 else 8
      let a := l.a.w64
      let returns (ins : Instr) (op : AtOp) (pn : BitVec 3) : Prop :=
        (a.toNat % n ≠ 0 → w.Faults s ins { code := 0x07, addr := a })
        ∧ (a.toNat % n = 0 → (∀ c, b.globParts w.tk .rw true true [(a.toNat, n)] = .error c → w.Faults s ins { code := c, addr := a })
          ∧ ∀ ps b', b.globParts w.tk .rw true true [(a.toNat, n)] = .ok (ps, b') →
            let rel := m.rel && ps.any fun q => !isUo q.xl
            let far := b'.anyRemote w.tk ps
            let acc : Acc := { space := .glob, k := .atomic op m.w32 m.sgn l.b.w64 l.c.w64, size := n, acq := m.acq, rel := m.rel,
                               hint := h, pieces := ps, remote := far }
            let t := b'.thr w.tk
            (t.trails = true → w.Completes s ins (b'.pendNew l .copied pn).2)
            ∧ (t.trails = false → rel = true → t.relReady = false → t.late = [] → w.Parks s ins .rel)
            ∧ (t.trails = false → t.late = [] → (rel = true → t.relReady = true) →
              (255 ≤ t.c.ldc → w.Parks s ins (.room 6))
              ∧ (t.c.ldc < 255 → far = true → 255 ≤ t.c.frc → w.Parks s ins (.room 9))
              ∧ (t.c.ldc < 255 → (far = true → t.c.frc < 255) →
                w.Completes s ins ((b'.pendNew l (.acc acc) pn).2.modThr w.tk fun t =>
                  { t with c := { t.c with ldc := t.c.ldc + 1, frc := t.c.frc + if far then 1 else 0 } }))))
      (∀ o : O2, w.u = { use2 o with vl := true, close := true } →
        returns (.aadd w.f m h o) .add 7 ∧ returns (.amin w.f m h o) .min 7 ∧ returns (.amax w.f m h o) .max 7
          ∧ returns (.aand w.f m h o) .and 7 ∧ returns (.aor w.f m h o) .or 7 ∧ returns (.axor w.f m h o) .xor 7
          ∧ returns (.axchg w.f m h o) .xchg 7 ∧ returns (.aincw w.f m h o) .incw 7 ∧ returns (.adecw w.f m h o) .decw 7
          ∧ returns (.afadd w.f m h o) .fadd 7)
      ∧ (∀ (o : O3) (pe : BitVec 3), w.u = { use3 o with vl := true, close := true, pw := predBit pe } →
        returns (.acas w.f m h o pe) .cas pe ∧ returns (.abadd w.f m h o pe) .badd pe)
      ∧ ∀ o : S2, w.u = { useS2 o with close := true, feat := some 7, img := some (2, n) } →
        let joins (ins : Instr) (k : Bind) : Prop :=
          (a.toNat % n ≠ 0 → w.Faults s ins { code := 0x07, addr := a })
          ∧ (a.toNat % n = 0 → (∀ c, b.globParts w.tk .wr true true [(a.toNat, n)] = .error c → w.Faults s ins { code := c, addr := a })
            ∧ ∀ ps b', b.globParts w.tk .wr true true [(a.toNat, n)] = .ok (ps, b') →
              let t := b'.thr w.tk
              let far := b'.anyRemote w.tk ps
              let e : SbE := { u := b'.uid, gid := w.i.g.gid, k := .red k, rel := m.rel, hint := h, remote := far,
                               pieces := storeParts a.toNat (l.b.w64.toNat % 256 ^ n) ps }
              (t.trails = true → w.Completes s ins b')
              ∧ (t.trails = false →
                (16 ≤ t.sbUsed → w.Parks s ins (.room 4))
                ∧ (t.sbUsed < 16 → 255 ≤ t.c.suc → w.Parks s ins (.room 7))
                ∧ (t.sbUsed < 16 → t.c.suc < 255 → far = true → 255 ≤ t.c.frc → w.Parks s ins (.room 9))
                ∧ (t.sbUsed < 16 → t.c.suc < 255 → (far = true → t.c.frc < 255) →
                  w.Completes s ins (b'.fresh.2.modThr w.tk fun t =>
                    { t with sb := t.sb ++ [e], c := { t.c with suc := t.c.suc + 1, frc := t.c.frc + if far then 1 else 0 } }))))
        joins (.redadd w.f m h o) ⟨0, m.w32, m.sgn, false⟩ ∧ joins (.redfadd w.f m h o) ⟨0, m.w32, m.sgn, true⟩
          ∧ joins (.redmin w.f m h o) ⟨1, m.w32, m.sgn, false⟩ ∧ joins (.redmax w.f m h o) ⟨2, m.w32, m.sgn, false⟩)
  ∧ (∀ (w32 sgn : Bool) (x b c : Nat),
      let n := if w32 then 32 else 64
      let v (y : Nat) : Int := toInt n sgn (y % 2 ^ n)
      let next (op : AtOp) : Nat := (op.apply w32 sgn x b c).1
      x < 2 ^ n →
      next .add = (x + b) % 2 ^ n ∧ next .and = x &&& b % 2 ^ n ∧ next .or = x ||| b % 2 ^ n ∧ next .xor = x ^^^ b % 2 ^ n
        ∧ next .xchg = b % 2 ^ n ∧ v (next .min) = min (v x) (v b) ∧ v (next .max) = max (v x) (v b)
        ∧ next .incw = (if b % 2 ^ n ≤ x then 0 else x + 1)
        ∧ next .decw = (if x = 0 ∨ b % 2 ^ n < x then b % 2 ^ n else x - 1)
        ∧ AtOp.apply .cas w32 sgn x b c = (if x = b % 2 ^ n then (c % 2 ^ n, some true) else (x, some false))
        ∧ AtOp.apply .badd w32 sgn x b c =
          (let y := b % 2 ^ n
            if x + y < 2 ^ n ∧ x + y ≤ c % 2 ^ n then (x + y, some true) else (x, some false)))

/-- PREF never faults, and brings its line where no fault is in the way and caches may hold it: into the L1 where the package
holds the line, else by a request of the agent, whose grant fills the L1; with hint 11, or on a page that L1s do not cache,
into its home's cache alone. CFLUSH and CINV of a line that caches may hold join the store buffer, a full counter parking
them; the trailing copy of a pair passes them by. FENCE and SDRAIN let the thread go on when the counters they name are zero,
and hold it until then (R267, R268, R276, R277, R472). That CFLUSH and CINV take no place in the buffer is log 14, and that
scopes do not relax an order is log 8. -/
def Obligations.CacheAndFences : Prop :=
  ∀ (w : Stand) (s : State) (h : Hint), w.Clear s →
    let b := w.begun s
    let l := w.lane s
    let c := (b.thr w.tk).c
    (∀ (src : Src) (off : BitVec 14), w.u = { src := [(0, src)] } →
      let a := l.a.w64 + off.signExtend 64
      let p := pkgOfThr w.tk
      (∀ code, b.xlAt w.tk a.toNat 1 .rd false true = .error code → w.Completes s (.pref w.f h src off) b)
      ∧ (∀ x b', b.xlAt w.tk a.toNat 1 .rd false true = .ok (some x, b') →
        (b'.cachedPa x a.toNat = none → w.Completes s (.pref w.f h src off) b')
        ∧ ∀ pa, b'.cachedPa x a.toNat = some pa →
          (b'.paFault p pa false ≠ none → w.Completes s (.pref w.f h src off) b')
          ∧ (b'.paFault p pa false = none →
            let skip := h = .noalloc ∨ field x.pte.toNat 8 7 ≠ 0
            (skip → w.Completes s (.pref w.f h src off) (b'.homeHold (lineOf pa)))
            ∧ (¬skip → (b'.aline p (lineOf pa)).has .rd = true →
              w.Completes s (.pref w.f h src off) (b'.l1Fill l.ck { line := lineOf pa, keep := keepOf h }))
            ∧ (¬skip → (b'.aline p (lineOf pa)).has .rd = false →
              w.Completes s (.pref w.f h src off) ((b'.askLine p 0 (lineOf pa) .rd).modALine p (lineOf pa) fun y =>
                { y with pref := y.pref ++ [(l.ck, keepOf h)] }))))
      ∧ (∀ code, b.xlAt w.tk a.toNat 1 .rd false true = .error code →
        w.Faults s (.cflush w.f h src off) { code := code, addr := a }
          ∧ w.Faults s (.cinv w.f h src off) { code := code, addr := a })
      ∧ ∀ x b', b.xlAt w.tk a.toNat 1 .rd false true = .ok (some x, b') →
        (b'.cachedPa x a.toNat = none → w.Completes s (.cflush w.f h src off) b' ∧ w.Completes s (.cinv w.f h src off) b')
        ∧ ∀ pa, b'.cachedPa x a.toNat = some pa →
          let t := b'.thr w.tk
          let far := homeOf pa != pkgOfThr w.tk
          let e (k : Nat → StK) : SbE :=
            { u := b'.uid, gid := w.i.g.gid, k := k (lineOf pa), hint := h, remote := far,
              pieces := [{ va := a.toNat / 128 * 128, n := 128, xl := some x, data := 0, mask := 0 }] }
          let entry (k : Nat → StK) : State := b'.fresh.2.modThr w.tk fun t =>
            { t with sb := t.sb ++ [e k], c := { t.c with suc := t.c.suc + 1, frc := t.c.frc + if far then 1 else 0 } }
          (t.trails = true → w.Completes s (.cflush w.f h src off) b' ∧ w.Completes s (.cinv w.f h src off) b')
          ∧ (t.trails = false → 255 ≤ t.c.suc → w.Parks s (.cflush w.f h src off) (.room 7) ∧ w.Parks s (.cinv w.f h src off) (.room 7))
          ∧ (t.trails = false → t.c.suc < 255 → far = true → 255 ≤ t.c.frc →
            w.Parks s (.cflush w.f h src off) (.room 9) ∧ w.Parks s (.cinv w.f h src off) (.room 9))
          ∧ (t.trails = false → t.c.suc < 255 → (far = true → t.c.frc < 255) →
            w.Completes s (.cflush w.f h src off) (entry .flush) ∧ w.Completes s (.cinv w.f h src off) (entry .inval)))
    ∧ ∀ (sc : Scope) (kind : FenceKind),
      let ldc := kind != .stores
      let suc := kind != .loads
      let eng := kind == .engines
      (w.u = { close := true, drain := suc } →
        if (ldc = true → c.ldc = 0) ∧ (suc = true → c.suc = 0) ∧ (eng = true → c.enc = 0 ∧ c.twc = 0)
        then w.Completes s (.fence w.f sc h kind) b else w.Parks s (.fence w.f sc h kind) (.ctrs ldc suc eng))
      ∧ (w.u = { close := true, drain := true } →
        if c.suc = 0 then w.Completes s (.sdrain w.f h) b else w.Parks s (.sdrain w.f h) (.ctrs false true false))

/-! ### Tiles (R283 to R297) -/

/-- The words of the tile table: TDEF defines an entry whose image, places and neighbours are legal, or clears one, TQRY reads
it, TREADY publishes a tile that no engine command holds, TEMPTY empties an idle one, TWAIT waits for a state, a full counter
parking it, and the trailing copy of a pair for the image that its leading copy takes; a number outside the allotment is fault
0x0E (R291, R293, R294, R404). The order of TDEF's checks is log 19. -/
def Obligations.TileTable : Prop :=
  ∀ (w : Stand) (s : State) (n : BitVec 6), w.Clear s →
    let b := w.begun s
    let l := w.lane s
    let ck := ckOf w.tk
    let bad (ins : Instr) (c : Nat) : Prop := w.Faults s ins { code := c }
    let table (i : Option Nat) (a : Src) (d : Dst) (wd : Bool) (ws : TileState) : Prop :=
      (w.u = { src := [(0, a)], srcPair := [0] } →
        let w0 := l.a.w64.toNat
        let w1 := (l.hi 0).toNat
        (b.fmtRefused w.tk (w0 / 4 % 16) = true → bad (.tdef w.f a n) 0x18)
        ∧ (i = none → b.fmtRefused w.tk (w0 / 4 % 16) = false → bad (.tdef w.f a n) 0x0E)
        ∧ ∀ k, i = some k →
          let old := b.tile ck k
          let t := old.ofImage w0 w1
          (b.fmtRefused w.tk t.fmt = false → imageBad w0 w1 = true → bad (.tdef w.f a n) 0x02)
          ∧ (b.fmtRefused w.tk t.fmt = false → imageBad w0 w1 = false →
            (w0 = 0 → t.sbase = 0 → if old.idle then w.Completes s (.tdef w.f a n) (b.setTile ck k {}) else bad (.tdef w.f a n) 0x0E)
            ∧ (¬(w0 = 0 ∧ t.sbase = 0) → (layoutOk t.plane t.fmt t.cols = false ∨ (fmtIsBlock t.fmt = false ∧ t.sbase ≠ 0)) →
              bad (.tdef w.f a n) 0x02)
            ∧ (¬(w0 = 0 ∧ t.sbase = 0) → layoutOk t.plane t.fmt t.cols = true → (fmtIsBlock t.fmt = true ∨ t.sbase = 0) →
              (t.base % 128 ≠ 0 ∨ t.sbase % 128 ≠ 0 → bad (.tdef w.f a n) 0x07)
              ∧ (t.base % 128 = 0 → t.sbase % 128 = 0 → (b.tilePlace w.tk t.vault t.base t.len = none
                ∨ (fmtIsBlock t.fmt = true ∧ b.tilePlace w.tk t.vault t.sbase t.scaleLen = none)) → bad (.tdef w.f a n) 0x09)
              ∧ (t.base % 128 = 0 → t.sbase % 128 = 0 → ∀ p q, b.tilePlace w.tk t.vault t.base t.len = some p →
                (if fmtIsBlock t.fmt then b.tilePlace w.tk t.vault t.sbase t.scaleLen else some 0) = some q →
                let t' := { t with loc := p, sloc := q }
                if old.idle = true ∧ b.tileOverlap w.tk k t' = false then w.Completes s (.tdef w.f a n) (b.setTile ck k t')
                else bad (.tdef w.f a n) 0x0E))))
      ∧ (w.u = { dst := some d } → (i = none → bad (.tqry w.f d n wd) 0x0E)
        ∧ ∀ k, i = some k →
          w.Completes s (.tqry w.f d n wd) (b.put l (if wd then (b.tile ck k).word1 else (b.tile ck k).word0)))
      ∧ (w.u = { dst := some d, vl := true } → (i = none → bad (.twait w.f ws d n) 0x0E)
        ∧ (∀ k, i = some k → (b.thr w.tk).trails = true → w.Completes s (.twait w.f ws d n) (b.pendNew l .copied 7).2)
        ∧ (∀ k, i = some k → (b.thr w.tk).trails = false → 255 ≤ (b.thr w.tk).c.ldc → w.Parks s (.twait w.f ws d n) (.room 6))
        ∧ ∀ k, i = some k → (b.thr w.tk).trails = false → (b.thr w.tk).c.ldc < 255 →
          let b' := (b.pendNew l (.twait k ws) 7).2.modThr w.tk fun t => { t with c := { t.c with ldc := t.c.ldc + 1 } }
          ∃ t, w.Completes s (.twait w.f ws d n) t ∧ t.threads = b'.threads ∧ t.mem = b.mem
            ∧ t.agenda = (if (b.tile ck k).st = ws then [.twaitComplete w.tk b.uid] else []) ++ b.agenda)
    (∀ a d wd ws, table (b.tileIx w.tk n.toNat) a d wd ws)
    ∧ (b.useTile w.tk n.toNat = none →
      (w.u = { rel := true } → bad (.tready w.f n) 0x0E) ∧ (w.u = {} → bad (.tempty w.f n) 0x0E))
    ∧ ∀ k e, b.useTile w.tk n.toNat = some (k, e) →
      (w.u = { rel := true } → if e.st = .draining ∨ (e.st = .filling ∧ e.byeng = true) then bad (.tready w.f n) 0x0E
        else w.Completes s (.tready w.f n) (b.setTile ck k { e with publ := true }))
      ∧ (w.u = {} →
        if e.idle then w.Completes s (.tempty w.f n) (b.setTile ck k { e with st := .empty, byeng := false, publ := false })
        else bad (.tempty w.f n) 0x0E)

/-- The words that reach tile contents and shadow pages: TSTB leaves a store of one register image for the tile and fills it,
TLDB reads one, SHADOW leaves the store of a descriptor, PUBLISH that of a flip, the trailing copy of a pair passing both by;
a full counter or buffer parks (R295, R296, R297, R472). -/
def Obligations.TileData : Prop :=
  ∀ (w : Stand) (s : State) (n : BitVec 6), w.Clear s →
    let b := w.begun s
    let l := w.lane s
    let ck := ckOf w.tk
    (∀ (o : S2) (i : Nat) (t : Tile) (r c : Nat),
      w.u = { useS2 o with srcPair := if s.wordFmt n = 8 && directPair o.a.opd then [0] else [] } →
      b.useTile w.tk n.toNat = some (i, t) → (t.fmt = 8 → directPair o.a.opd = true) → t.plane = true →
      tilePos t l.b.w64 (imageElems t.fmt) = some (r, c) → (t.idle = true ∨ (t.st = .filling ∧ t.byeng = false)) →
      (16 ≤ (b.thr w.tk).sbUsed → w.Parks s (.tstb w.f o n) (.room 4))
      ∧ ((b.thr w.tk).sbUsed < 16 → 255 ≤ (b.thr w.tk).c.suc → w.Parks s (.tstb w.f o n) (.room 7))
      ∧ ((b.thr w.tk).sbUsed < 16 → (b.thr w.tk).c.suc < 255 →
      let v := l.a.w64.toNat + (if t.fmt = 8 then 2 ^ 64 * ((l.hi 0).toNat % 2 ^ 32) else 0)
      let e : SbE := { u := b.uid, gid := w.i.g.gid, k := .tile, pieces := t.storeParts r c (imageElems t.fmt) v,
                       space := if t.vault then .vault else .store }
      w.Completes s (.tstb w.f o n) ((b.fresh.2.modThr w.tk fun t =>
        { t with sb := t.sb ++ [e], c := { t.c with suc := t.c.suc + 1 } }).setTile ck i
          { t with st := .filling, byeng := false, clus := false, grid := none })))
    ∧ (∀ (d : Dst) (a : Src) (i : Nat) (t : Tile) (r c : Nat),
      w.u = { src := [(1, a)], dst := some d, pair := s.wordFmt n = 8 && directPair (dstOpd d), vl := true } →
      b.useTile w.tk n.toNat = some (i, t) → (t.fmt = 8 → directPair (dstOpd d) = true) →
      tilePos t l.b.w64 (imageElems t.fmt) = some (r, c) →
      let e := imageElems t.fmt
      let acc : Acc := { space := if t.vault then .vault else .store, k := .load, size := 8, pieces := t.loadPieces r c e }
      if t.st = .ready then
        if 255 ≤ (b.thr w.tk).c.ldc then w.Parks s (.tldb w.f d a n) (.room 6) else w.Completes s (.tldb w.f d a n) ((b.pendNew l (.tldb acc (tldbGeo t r c e)) 7).2.modThr w.tk fun t =>
          { t with c := { t.c with ldc := t.c.ldc + 1 } })
      else w.Faults s (.tldb w.f d a n) { code := 0x0E })
    ∧ (∀ o : S4, w.u = { useS4 o with feat := some 6 } →
      let a := l.a.w64.toNat
      let len := l.e.w64.toNat
      let x (v : RV) : Nat := v.w64.toNat
      (x l.a % 2 ^ 16 ≠ 0 ∨ x l.b % 2 ^ 16 ≠ 0 ∨ x l.c % 2 ^ 16 ≠ 0 ∨ len % 2 ^ 16 ≠ 0 ∨ len = 0 →
        w.Faults s (.shadow w.f o) { code := 0x07, addr := l.a.w64 })
      ∧ ∀ d xl b1 p b2 q b3, a % 2 ^ 16 = 0 → x l.b % 2 ^ 16 = 0 → x l.c % 2 ^ 16 = 0 → len % 2 ^ 16 = 0 → len ≠ 0 →
        b.shadowDesc w.tk a = .ok (d, xl, b1) → b1.backing w.tk (x l.b) none (len / 2 ^ 16) = .ok (some p, b2) →
        b2.backing w.tk (x l.c) none (len / 2 ^ 16) = .ok (some q, b3) →
        ((b3.thr w.tk).trails = true → w.Completes s (.shadow w.f o) b3)
        ∧ ((b3.thr w.tk).trails = false → 16 ≤ (b3.thr w.tk).sbUsed → w.Parks s (.shadow w.f o) (.room 4))
        ∧ ((b3.thr w.tk).trails = false → (b3.thr w.tk).sbUsed < 16 →
        let v := p * 2 ^ 64 + q * 2 ^ 128 + a * 2 ^ 192 + len * 2 ^ 256
        let e : SbE := { u := b3.uid, gid := w.i.g.gid, k := .shadow, rel := true,
                         pieces := [{ va := a, n := 40, loc := some d, data := v, mask := 2 ^ 320 - 1 }] }
        w.Completes s (.shadow w.f o) (b3.fresh.2.modThr w.tk fun t =>
          { t with sb := t.sb ++ [e], hold := true })))
    ∧ ∀ (sc : Scope) (a : Src), w.u = { src := [(0, a)], close := true, feat := some 6, img := some (5, 0) } →
      let v := l.a.w64
      (∀ c, b.shadowDesc w.tk v.toNat = .error c → w.Faults s (.publish w.f sc a) { code := c, addr := v })
      ∧ ∀ d x b1, b.shadowDesc w.tk v.toNat = .ok (d, x, b1) → b1.issueFault (pkgOfThr w.tk) v.toNat 1 x .wr false = none →
        let t := b1.thr w.tk
        let far := homeOf d != pkgOfThr w.tk
        let e : SbE := { u := b1.uid, gid := w.i.g.gid, k := .publish, rel := true, remote := far,
                         pieces := [{ va := v.toNat, n := 8, loc := some d, data := 0, mask := 2 ^ 64 - 1 }] }
        (t.trails = true → w.Completes s (.publish w.f sc a) b1)
        ∧ (t.trails = false →
          (16 ≤ t.sbUsed → w.Parks s (.publish w.f sc a) (.room 4))
          ∧ (t.sbUsed < 16 → 255 ≤ t.c.suc → w.Parks s (.publish w.f sc a) (.room 7))
          ∧ (t.sbUsed < 16 → t.c.suc < 255 → far = true → 255 ≤ t.c.frc → w.Parks s (.publish w.f sc a) (.room 9))
          ∧ (t.sbUsed < 16 → t.c.suc < 255 → (far = true → t.c.frc < 255) →
            w.Completes s (.publish w.f sc a) (b1.fresh.2.modThr w.tk fun t =>
              { t with sb := t.sb ++ [e], c := { t.c with suc := t.c.suc + 1, frc := t.c.frc + if far then 1 else 0 } })))

/-! ### Engine commands (R299 to R308, R352, R369 to R372) -/

/-- A command of a core's own engines whose checks pass, the first page of each global operand translated among them, and
which finds room is accepted: it stands at the end of its queue, its tiles change state, its ticket is the core's next one and
goes to the destination, and ENC or TWC rises; a check that fails is its fault. Of a pair each copy's command is accepted,
with the ticket that the leading copy has taken; a word that a restart skips takes its old ticket and accepts nothing (R233,
R289, R290, R299, R302, R304, R305, R307, R308, R313, R314). Room in queues follows log 28. -/
def Obligations.EngineCommands : Prop :=
  ∀ (w : Stand) (s : State) (h : Hint), w.Clear s →
    let b := w.begun s
    let l := w.lane s
    let ck := ckOf w.tk
    let t0 := b.thr w.tk
    let skips (ins : Instr) : Prop :=
      (∀ n rest, t0.trails = false → (t0.leads = true → b.inqRoom w.tk = true) → t0.skip = n :: rest →
        w.Completes s ins (b.skipCmd l n))
      ∧ ∀ v, t0.trails = true → b.passed w.tk t0.nw = some v → t0.skip ≠ [] → w.Completes s ins (b.skipCmd l (v.v.headD 0).toNat)
    let accepts (ins : Instr) (b : State) (room : Slots) (k : CmdK) (rel : Bool) (P : State → Prop) : Prop :=
      let q := b.core ck
      let t := b.thr w.tk
      (∀ r, b.slotsFull w.tk room = some r → w.Parks s ins (.room r))
      ∧ (b.slotsFull w.tk room = none → t.trails = true → b.passed w.tk t.nw = none → w.Parks s ins .passed)
      ∧ (b.slotsFull w.tk room = none → t.trails = false → t.leads = true → b.inqRoom w.tk = false → w.Parks s ins .copies)
      ∧ ∀ n, b.slotsFull w.tk room = none →
        (if t.trails then ∃ v, b.passed w.tk t.nw = some v ∧ n = (v.v.headD 0).toNat
          else (t.leads = true → b.inqRoom w.tk = true) ∧ n = q.ticket % 2 ^ 32) →
        ∃ (t' : State) (c : Cmd), w.Completes s ins (t'.put l (BitVec.ofNat 64 n))
          ∧ c.k = k ∧ c.ticket = n ∧ c.tk = w.tk ∧ c.rel = rel ∧ c.began = false ∧ c.pos = 0
          ∧ c.copy = (if t.leads then 1 else if t.trails then 2 else 0)
          ∧ (t'.core ck).copyq = q.copyq ++ (if room.copy then [c] else [])
          ∧ (t'.core ck).matq = q.matq ++ (if room.copy then [] else [c])
          ∧ (t'.core ck).ticket = q.ticket + (if t.trails then 0 else 1) ∧ t'.mem = b.mem
          ∧ (t'.thr w.tk).cmds = t.cmds ++ [n]
          ∧ (t'.thr w.tk).c.enc = t.c.enc + (if room.enc then 1 else 0)
          ∧ (t'.thr w.tk).c.twc = t.c.twc + (if room.twc then 1 else 0) ∧ P t'
    let fills (i : Nat) (t : State) : Prop := (t.tile ck i).st = .filling ∧ (t.tile ck i).byeng = true ∧ (t.tile ck i).publ = false
    let drains (i : Nat) (t : State) : Prop := (t.tile ck i).st = .draining ∧ (t.tile ck i).byeng = true ∧ (t.tile ck i).publ = false
    let a := l.a.w64
    let mat : Slots := { mat := true, twc := true }
    (∀ (o : O1) (batch : Bool), w.u = use1 o →
      let ins : Instr := if batch then .mmab w.f h o else .mma w.f h o
      skips ins
      ∧ (t0.skip = [] →
        (2 ^ 33 ≤ a.toNat → w.Faults s ins { code := 0x02 })
        ∧ (a.toNat < 2 ^ 33 → (∀ x, b.checkMat w.tk a batch true true none = .error x → w.Faults s ins x)
          ∧ ∀ t, b.checkMat w.tk a batch true true none = .ok t →
            accepts ins b mat (if batch then .mmab a else .mma a) false (fills t.acc))))
    ∧ (∀ o : O2, w.u = use2 o →
      let cl := l.b.w64
      skips (.mmac w.f h o)
      ∧ (t0.skip = [] →
        (b.gridPlace w.tk cl = none ∨ 2 ^ 33 ≤ a.toNat → w.Faults s (.mmac w.f h o) { code := 0x02 })
        ∧ ∀ r c, b.gridPlace w.tk cl = some (r, c) → a.toNat < 2 ^ 33 →
          (∀ x, b.checkMat w.tk a false (c == 0) (r == 0) none = .error x → w.Faults s (.mmac w.f h o) x)
          ∧ ∀ t, b.checkMat w.tk a false (c == 0) (r == 0) none = .ok t →
            accepts (.mmac w.f h o) b mat (.mmac a cl) false (fills t.acc)))
    ∧ ∀ (o : O4) (rel : Bool),
      let e := l.e.w64
      (w.u = use4 o → skips (.cpy w.f rel h o) ∧ skips (.cpym w.f rel h o) ∧ (t0.skip = [] →
        let plan (m : Bool) := b.planCopy w.tk a l.b.w64 l.c.w64 e m
        let sides (p : CopyPlan) (t : State) : Prop :=
          (∀ i, p.src = .tile i → (∀ j, p.dst ≠ .tile j) → drains i t) ∧ ∀ i, p.dst = .tile i → fills i t
        (∀ x, plan false = .error x → w.Faults s (.cpy w.f rel h o) x)
        ∧ (∀ p, plan false = .ok p →
          (∀ x, b.firstPages w.tk (p.pages false) = .error x → w.Faults s (.cpy w.f rel h o) x)
          ∧ ∀ b', b.firstPages w.tk (p.pages false) = .ok b' →
            accepts (.cpy w.f rel h o) b' { copy := true, enc := true } (.cpy p.src p.dst p.rows p.rb p.stride p.scale none) rel
              (sides p))
        ∧ (∀ x, plan true = .error x → w.Faults s (.cpym w.f rel h o) x)
        ∧ ∀ p, plan true = .ok p →
          let sound := e.toNat < 2 ^ 33 ∨ (2 ^ 62 ≤ e.toNat ∧ e.toNat < 2 ^ 62 + 2 ^ 33)
          let fill := match p.dst with | .tile i => some i | _ => none
          let chk := b.checkMat w.tk e (decide (2 ^ 62 ≤ e.toNat)) true true fill
          (¬sound → w.Faults s (.cpym w.f rel h o) { code := 0x02 })
          ∧ (sound → (∀ x, chk = .error x → w.Faults s (.cpym w.f rel h o) x)
            ∧ ∀ t, chk = .ok t → (∀ x, b.firstPages w.tk (p.pages true) = .error x → w.Faults s (.cpym w.f rel h o) x)
              ∧ ∀ b', b.firstPages w.tk (p.pages true) = .ok b' →
                accepts (.cpym w.f rel h o) b' { copy := true, mat := true, enc := true, twc := true }
                  (.cpy p.src p.dst p.rows p.rb p.stride p.scale (some e)) rel (sides p))))
      ∧ (w.u = { use4 o with coin := true } → skips (.mepi w.f h o) ∧ (t0.skip = [] →
        let i := epiIm a
        let gated := ((i.draw = 1 ∨ i.draw = 2) ∧ b.taken (pkgOfThr w.tk) t0.ctx 2 = false) ∨ b.fmtRefused w.tk i.ofmt = true
        (gated → w.Faults s (.mepi w.f h o) { code := 0x18 })
        ∧ (¬gated → (epiBad a e = true ∨ isTileAddr l.b.w64 = true) → w.Faults s (.mepi w.f h o) { code := 0x02 })
        ∧ ∀ cols, cols = ((b.useTile w.tk i.acc).map fun t => t.2.cols).getD 1 → ¬gated → epiBad a e = false → isTileAddr l.b.w64 = false →
          (b.engAddr w.tk l.b.w64 (epiParLen i cols) = none → w.Faults s (.mepi w.f h o) { code := 0x09, addr := l.b.w64 })
          ∧ (∀ par, b.engAddr w.tk l.b.w64 (epiParLen i cols) = some par → i.glob = true → 2 ^ 55 ≤ e.toNat →
            w.Faults s (.mepi w.f h o) { code := 0x09, addr := e })
          ∧ ∀ par ai acc, b.engAddr w.tk l.b.w64 (epiParLen i cols) = some par → (i.glob = true → e.toNat < 2 ^ 55) →
            b.useTile w.tk i.acc = some (ai, acc) →
            acc.plane = false → (acc.fmt = 1 ∨ acc.fmt = 12) → acc.st = .ready → acc.readers = 0 → (i.draw = 0 ∨ cols ≤ 128) →
            (i.glob = true ∨ ∃ oi out, b.useTile w.tk i.out = some (oi, out) ∧ oi ≠ ai ∧ out.fmt = i.ofmt ∧ out.plane = false
              ∧ (out.st = .empty ∨ out.st = .ready) ∧ out.rows = acc.rows
              ∧ if i.draw = 0 then out.cols = cols else out.fmt = 13 ∧ out.cols = 1) →
            let pages := (if epiParLen i cols = 0 then [] else [(par, Need.rd)]) ++ (if i.glob then [(EAd.glob e.toNat, Need.wr)] else [])
            (∀ x, b.firstPages w.tk pages = .error x → w.Faults s (.mepi w.f h o) x)
            ∧ ∀ b', b.firstPages w.tk pages = .ok b' →
              accepts (.mepi w.f h o) b' mat (.mepi a (if epiParLen i cols = 0 then none else some par) (epiWord l.c) e.toNat) false
                fun t => drains ai t ∧ ∀ oi out, i.glob = false → b.useTile w.tk i.out = some (oi, out) → fills oi t))

/-- A command of the die's collective engine whose checks pass and which finds room is accepted with the core's next ticket:
COLL BIND joins the engine's binds, any other COLL is the next operation of its communicator, ENGQ joins the engine's queue.
Of a pair the leading copy's word acts for both, and the trailing one waits for its ticket; a word that a restart skips
accepts nothing (R313, R352, R369, R372, R373). The order of the checks is log 28. -/
def Obligations.CollectiveCommands : Prop :=
  ∀ (w : Stand) (s : State) (h : Hint), w.Clear s →
    let b := w.begun s
    let l := w.lane s
    let dk := dkOf l.ck
    let n := (b.core l.ck).ticket % 2 ^ 32
    let t0 := b.thr w.tk
    let accepts (ins : Instr) (k : CmdK) (rel : Bool) (P : State → Cmd → Prop) : Prop :=
      (t0.trails = true → w.Completes s ins (b.pendNew l .copied 7).2)
      ∧ (t0.trails = false → t0.leads = true → b.inqRoom w.tk = false → w.Parks s ins .copies)
      ∧ (t0.trails = false → (t0.leads = true → b.inqRoom w.tk = true) →
        (∀ m rest, t0.skip = m :: rest → w.Completes s ins (b.skipCmd l m))
        ∧ (t0.skip = [] → 64 ≤ (b.die dk).collUsed → w.Parks s ins (.room 3))
        ∧ (t0.skip = [] → (b.die dk).collUsed < 64 → 255 ≤ t0.c.enc → w.Parks s ins (.room 8))
        ∧ (t0.skip = [] → (b.die dk).collUsed < 64 → t0.c.enc < 255 →
          ∃ (t : State) (c : Cmd), w.Completes s ins (t.put l (BitVec.ofNat 64 n))
            ∧ c.k = k ∧ c.ticket = n ∧ c.tk = w.tk ∧ c.rel = rel ∧ c.copy = 0 ∧ t.mem = b.mem
            ∧ (t.thr w.tk).c.enc = t0.c.enc + 1 ∧ (t.core l.ck).ticket = (b.core l.ck).ticket + 1 ∧ P t c))
    (∀ (o : O4) (rel : Bool), w.u = { use4 o with feat := some 8, close := true } →
      let im := collIm l.a.w64
      let coll (ins : Instr) (op : Nat) : Prop :=
        (im.op ≤ 7 → im.op ≠ op → w.Faults s ins { code := 0x02 })
        ∧ (im.op = op → (∀ x, b.checkColl w.tk l.a.w64 l.b.w64 l.c.w64 l.e.w64 = .error x → w.Faults s ins x)
          ∧ ∀ k, b.checkColl w.tk l.a.w64 l.b.w64 l.c.w64 l.e.w64 = .ok k → accepts ins k rel fun t c =>
            let d := b.die dk
            let d' := t.die dk
            if op = 0 then d'.binds = d.binds ++ [{ comm := im.comm, cmd := c, since := b.clock }] ∧ d'.ops = d.ops
            else d'.ops = d.ops ++ [{ comm := im.comm, seq := (b.comm dk im.comm).issued + 1, cmd := c, since := b.clock }]
              ∧ d'.binds = d.binds ∧ (t.comm dk im.comm).issued = (b.comm dk im.comm).issued + 1)
      coll (.collBind w.f rel h o) 0 ∧ coll (.collReduceScatter w.f rel h o) 1 ∧ coll (.collAllGather w.f rel h o) 2
        ∧ coll (.collAllReduceRing w.f rel h o) 3 ∧ coll (.collAllReduceTree w.f rel h o) 4 ∧ coll (.collBroadcast w.f rel h o) 5
        ∧ coll (.collBarrier w.f rel h o) 6 ∧ coll (.collDrawMerge w.f rel h o) 7)
    ∧ ∀ o : O2, w.u = use2 o →
      let a := l.a.w64.toNat
      let at_ := l.b.w64.toNat
      (16 ≤ a → w.Faults s (.engq w.f h o) { code := 0x02 })
      ∧ (a < 16 → at_ % 64 ≠ 0 → w.Faults s (.engq w.f h o) { code := 0x07, addr := l.b.w64 })
      ∧ (a < 16 → at_ % 64 = 0 → accepts (.engq w.f h o) (.engq a at_) false fun t c =>
        (t.die dk).collq = (b.die dk).collq ++ [c])

/-- CWAIT answers a ticket's status, at once or when its command finishes; CCANCEL cancels a running operation and says how
the ticket stood; of a pair the leading copy's word acts and its answer passes to the trailing one. ROUTE writes a route of
the context; TARM arms an unarmed tile of the operator's format and an element layout whose route is valid, and a ready one
hands its chunks over at once, else it is fault 0x0E (R363, R365, R370, R371, R404). -/
def Obligations.TicketsAndRoutes : Prop :=
  ∀ (w : Stand) (s : State) (h : Hint), w.Clear s →
    let b := w.begun s
    let l := w.lane s
    let t := b.thr w.tk
    (∀ o : O2, w.u = { use2 o with vl := true } →
      let n := l.a.w64.toNat
      let v := (b.ticketStatus l.ck t.ctx n).2
      let p := (b.pendNew l (.cwait n) 7).2
      (t.trails = true → w.Completes s (.cwait w.f h o) (b.pendNew l .copied 7).2)
      ∧ (t.trails = false →
        w.Completes s (.cwait w.f h o) (if l.b.w64 = 0 ∧ v = 0xFF then p else p.deliverOut w.tk b.uid [BitVec.ofNat 64 v] none)))
    ∧ (∀ o : O1, w.u = use1 o →
      let n := l.a.w64.toNat
      let gives (b : State) (v : Word) : Prop :=
        w.Completes s (.ccancel w.f h o)
          ((if t.leads then b.modPair w.tk fun p => { p with inq := p.inq ++ [{ pos := t.nw, src := false, v := [v] }] } else b).put l v)
      (t.trails = true → w.Completes s (.ccancel w.f h o) (b.pendNew l .copied 7).2)
      ∧ (t.trails = false → t.leads = true → b.inqRoom w.tk = false → w.Parks s (.ccancel w.f h o) .copies)
      ∧ (t.trails = false → (t.leads = true → b.inqRoom w.tk = true) →
        (∀ op, b.opOfTicket l.ck t.ctx n = some op → gives (b.cancelOp (dkOf l.ck) op) 0)
        ∧ (b.opOfTicket l.ck t.ctx n = none →
          (∀ k v, b.ticketStatus l.ck t.ctx n = (some k, v) →
            gives b (if k.coll = true ∧ k.done.isSome = true ∧ v ≠ 0xFD then 1 else 2))
          ∧ ∀ v, b.ticketStatus l.ck t.ctx n = (none, v) → gives b 2)))
    ∧ (∀ (o : S2) (r : BitVec 5), w.u = useS2 o →
      let lo := l.a.w64
      let hi := l.b.w64
      if lo.toNat < 2 ^ 11 ∧ hi.toNat < 2 ^ 55 then
        w.Completes s (.route w.f h o r) (b.modCore l.ck fun c => { c with routes := Tab.put c.routes (t.ctx * 32 + r.toNat) (hi ++ lo) })
      else w.Faults s (.route w.f h o r) { code := 0x02 })
    ∧ ∀ (o : S2) (n : BitVec 6) (r : BitVec 5), w.u = { useS2 o with feat := some 8 } →
      let a := l.a.w64.toNat
      let off := l.b.w64.toNat
      (16 ≤ a ∨ (7 ≤ a ∧ a ≠ 15) ∨ off % 128 ≠ 0 ∨ 2 ^ 48 ≤ off → w.Faults s (.tarm w.f h o n r) { code := 0x02 })
      ∧ (a = 15 ∨ a < 7 → off % 128 = 0 → off < 2 ^ 48 →
        (b.useTile w.tk n.toNat = none → w.Faults s (.tarm w.f h o n r) { code := 0x0E })
        ∧ ∀ i e, b.useTile w.tk n.toNat = some (i, e) →
          (e.armed = true → e.faulted = false →
            if e.route = r.toNat ∧ e.op = a ∧ e.roff = off then w.Completes s (.tarm w.f h o n r) b
            else w.Faults s (.tarm w.f h o n r) { code := 0x0E })
          ∧ ((e.armed = false ∨ e.faulted = true) →
            let valid := (Tab.getOr (b.core l.ck).routes (t.ctx * 32 + r.toNat) 0).getLsbD 10
            let armed := b.modTile l.ck i fun t =>
              { t with armed := true, faulted := false, latched := false, route := r.toNat, op := a, roff := off, acked := 0 }
            (e.plane = true ∨ (e.st ≠ .empty ∧ e.st ≠ .ready) ∨ (a ≠ 15 ∧ e.fmt ≠ operFmt a) ∨ valid = false →
              w.Faults s (.tarm w.f h o n r) { code := 0x0E })
            ∧ (e.plane = false → (a = 15 ∨ e.fmt = operFmt a) → valid = true →
              (e.st = .empty → w.Completes s (.tarm w.f h o n r) armed)
              ∧ (e.st = .ready →
                -- the chunks are those of the epilogue that wrote the tile, else of the thread that arms it (log 74)
                let x := match e.mepi with | some c => (c, armed) | none => armed.armCmd l
                w.Completes s (.tarm w.f h o n r) (x.2.handOver l.ck i x.1 0 ((e.len + 4095) / 4096))))))

/-! ### System words (R389 to R399, R417, R464) -/

/-- The control registers that SYSRD reads and SYSWR writes. A selection that names no register of the tables, an index out of
range, an unused field that is not 0 and a write of a read-only register are fault 0x02; a context that does not exist reads
as 0 and ignores a write. A pair reads and writes once (R389, R392, R417, R427). -/
def Obligations.ControlRegisters : Prop :=
  ∀ (w : Stand) (s : State), w.Clear s →
    let b := w.begun s
    let l := w.lane s
    let a := l.a.w64.toNat
    let v := l.b.w64
    let p := pkgOfThr w.tk
    let n := a % 2 ^ 12
    let c := a / 2 ^ 12 % 64
    let i := a / 2 ^ 18 % 64
    let core := a / 2 ^ 24 % 128
    let die := a / 2 ^ 31 % 4
    let x := b.ctx p c
    let k := b.pkg p
    let ck := coreKey p die core
    let port := 4 * die + i
    let uses (ctx : Bool) (inst cores : Nat) (dies : Bool) : Prop :=
      a < 2 ^ 33 ∧ (ctx = true ∨ c = 0) ∧ i < inst ∧ core < cores ∧ (dies = true ∨ die = 0)
    let named : Prop :=
      ((n ≤ 4 ∨ n = 6 ∨ n = 7) ∧ uses true 1 1 false) ∨ ((n = 5 ∨ n = 0x10) ∧ uses true 4 1 false) ∨ (n = 0x11 ∧ uses true 64 1 false)
        ∨ (n = 0x20 ∧ uses true 1 96 true) ∨ ((n = 0x21 ∨ n = 0x22) ∧ uses true 32 96 true) ∨ (n = 0x40 ∧ uses false 16 1 false)
        ∨ ((n = 0x41 ∨ n = 0x300) ∧ uses false 1 96 true) ∨ (((0x42 ≤ n ∧ n ≤ 0x46) ∨ n = 0x80 ∨ n = 0x81) ∧ uses false 1 1 false)
        ∨ ((0x50 ≤ n ∧ n ≤ 0x52) ∧ uses false 16 1 true) ∨ ((n = 0x53 ∨ n = 0x102) ∧ uses false 4 1 true)
        ∨ (n = 0x54 ∧ uses false 1 1 true) ∨ ((n = 0x100 ∨ n = 0x101) ∧ uses false 36 1 true)
        ∨ (((0x200 ≤ n ∧ n < 0x220) ∨ (0x240 ≤ n ∧ n < 0x248)) ∧ uses false 16 24 true) ∨ (n = 0x280 ∧ uses false 1 24 true)
    let writable : Prop := (1 ≤ n ∧ n ≤ 4) ∨ n = 7 ∨ n = 0x10 ∨ n = 0x11 ∨ (0x20 ≤ n ∧ n ≤ 0x22) ∨ n = 0x40 ∨ n = 0x46 ∨ n = 0x100
      ∨ n = 0x102 ∨ (0x200 ≤ n ∧ n < 0x220) ∨ n = 0x280 ∨ n = 0x300
    let absent := n < 0x40 ∧ b.ctx? p c = none
    let there := b.ctx? p c = some x
    let route := Tab.getOr (b.core ck).routes (c * 32 + i) 0
    let lead := Tab.getOr (b.core ck).lead c {}
    let filt := Tab.getOr k.filters (16 * die + i) {}
    let lane := b.port p (4 * die + i / 9)
    let chan := (die * 24 + core) * 16 + i
    let bank := Tab.getOr k.banks (chan * 32 + (n - 0x200)) {}
    let thr := Tab.getOr k.memThr (24 * die + core) 0x100000200100
    (∀ o : O1, w.u = { use1 o with priv := 1 } →
      let ins : Instr := .sysrd w.f o
      let reads (u : Word) : Prop := w.Completes s ins (w.passing s (b.put l u) u)
      let nat (m : Nat) : Prop := reads (BitVec.ofNat 64 m)
      (¬named → w.Faults s ins { code := 0x02 })
      ∧ (named → w.Once s ins (fun t u => t.put l u)
        ((absent → reads 0)
        ∧ (there → (n = 0 → reads x.attr) ∧ (n = 1 → nat x.prio) ∧ (n = 2 → nat x.win) ∧ (n = 3 → nat x.timeout)
          ∧ (n = 4 → reads x.root) ∧ (n = 5 → nat (Tab.getOr x.st i 0))
          ∧ (n = 6 → nat (x.held.length % 2 ^ 32 + x.dropped % 2 ^ 32 * 2 ^ 32)) ∧ (n = 7 → reads x.hndpc)
          ∧ (n = 0x10 → reads (Tab.getOr (b.die (dieKey p i)).key c 0)) ∧ (n = 0x11 → reads ((Tab.getOr x.coins i 0).setWidth 64))
          ∧ (n = 0x20 → nat (lead.l + lead.phase % 2 ^ 24 * 2 ^ 8))
          ∧ (n = 0x21 → reads (route.setWidth 64)) ∧ (n = 0x22 → reads ((route >>> 64).setWidth 64)))
        ∧ (n = 0x40 → nat ((b.path p i).port + (if b.direct p i then 2 ^ 4 else 0) + (if (b.path p i).lost then 2 ^ 5 else 0)
          + (b.path p i).relays.toNat * 2 ^ 16 + (b.live p i).toNat * 2 ^ 32))
        ∧ (n = 0x41 → nat (b.phys ck)) ∧ (n = 0x42 → nat k.lostDrop) ∧ (n = 0x43 → nat k.lateAns) ∧ (n = 0x44 → nat k.dupDrop)
        ∧ (n = 0x45 → nat k.errProd) ∧ (n = 0x46 → reads k.errCons) ∧ (n = 0x80 → reads (b.thr w.tk).xpc)
        ∧ (n = 0x81 → reads (b.thr w.tk).xinfo) ∧ (n = 0x300 → reads (b.core ck).inject)
        ∧ (n = 0x50 → nat ((if filt.valid then 1 else 0) + (if filt.v6 then 2 else 0) + filt.len * 4))
        ∧ (n = 0x51 → reads (filt.addr.setWidth 64)) ∧ (n = 0x52 → reads ((filt.addr >>> 64).setWidth 64))
        ∧ (n = 0x53 → nat ((b.port p port).rate + (b.port p port).burst * 2 ^ 16)) ∧ (n = 0x54 → nat (Tab.getOr k.ethDrop die 0))
        ∧ (n = 0x100 → reads (lane.crcOf (i % 9))) ∧ (n = 0x101 → reads ((lane.eyeOf (i % 9)).setWidth 64))
        ∧ (n = 0x102 → reads (b.port p port).thr) ∧ (n = 0x280 → reads thr)
        ∧ (0x200 ≤ n → n < 0x220 → nat (bank.fixed + bank.lost * 2 ^ 32))
        ∧ (0x240 ≤ n → n < 0x248 → ((Tab.getOr k.rows chan [])[n - 0x240]? = none → reads 0)
          ∧ ∀ row bk m, (Tab.getOr k.rows chan [])[n - 0x240]? = some (row, bk, m) →
            nat (row % 2 ^ 18 + bk % 32 * 2 ^ 18 + min m 65535 * 2 ^ 32)))))
    ∧ (∀ (o : S2) (inj : Bool), w.u = { useS2 o with priv := 1 } →
      let ins : Instr := if inj then .injectWrite w.f o else .syswr w.f o
      let goes (t : State) : Prop := w.Completes s ins t
      let sets (y : Ctx) : Prop := goes (b.setCtx p c y)
      let routes (r : BitVec 128) : Prop := goes (b.modCore ck fun k => { k with routes := Tab.put k.routes (c * 32 + i) r })
      let m := v.toNat
      (¬(named ∧ writable) → w.Faults s ins { code := 0x02 })
      ∧ (named → writable → (b.thr w.tk).trails = true → goes b)
      ∧ (named → writable → (b.thr w.tk).trails = false → (absent → goes b)
        ∧ (there → (n = 1 → sets { x with prio := m % 4 })
          ∧ (n = 2 → if m % 256 = 0 ∧ 256 ≤ m ∧ m ≤ 65536 then sets { x with win := m } else goes b)
          ∧ (n = 3 → if 10 ≤ m ∧ m ≤ 1000000 then sets { x with timeout := m } else goes b)
          ∧ (n = 4 → sets { x with root := v }) ∧ (n = 7 → if x.attr.getLsbD 0 then sets { x with hndpc := v } else goes b)
          ∧ (n = 0x10 → goes (b.modDie (dieKey p i) fun d => { d with key := Tab.put d.key c v }))
          ∧ (n = 0x11 → sets { x with coins := Tab.put x.coins i (v.setWidth 24) })
          ∧ (n = 0x20 → if m % 16 = 0 then goes b
            else goes (b.modCore ck fun k => { k with lead := Tab.put k.lead c { Tab.getOr k.lead c {} with l := m % 16 } }))
          ∧ (n = 0x21 → ∃ r, routes r ∧ r >>> 64 = route >>> 64 ∧ r.toNat % 2 ^ 64 = m % 2 ^ 11)
          ∧ (n = 0x22 → ∃ r, routes r ∧ r.setWidth 64 = route.setWidth 64 ∧ r.toNat / 2 ^ 64 = m % 2 ^ 55))
        ∧ (n = 0x40 → goes ((b.setPath p i { (b.path p i) with relays := BitVec.ofNat 16 (m / 2 ^ 16 % 2 ^ 16) }).routeWaiting p))
        ∧ (n = 0x46 → goes (b.modPkg p fun k => { k with errCons := v }))
        ∧ (n = 0x100 → goes (b.modPort p (4 * die + i / 9) fun q =>
          let q := q.setCrc (i % 9) v
          if m % 2 ^ 32 < q.thr.toNat % 2 ^ 16 then q.setAlarm (i % 9) false false else q))
        ∧ (n = 0x102 → ∃ y : Word, goes (b.modPort p port fun q => { q with thr := y }) ∧ y.toNat = m % 2 ^ 32)
        ∧ (n = 0x280 → ∃ y : Word, goes (b.modPkg p fun k => { k with memThr := Tab.put k.memThr (24 * die + core) y })
          ∧ y.toNat = m % 2 ^ 48)
        ∧ (0x200 ≤ n → n < 0x220 → goes (b.modPkg p fun k => { k with
          banks := Tab.put k.banks (chan * 32 + (n - 0x200)) { bank with
            fixed := m % 2 ^ 32, lost := m / 2 ^ 32, alarmed := bank.alarmed && decide (thr.toNat % 2 ^ 16 ≤ m % 2 ^ 32) } }))
        ∧ (n = 0x300 → ∃ y : Word,
          goes (b.modCore ck fun k => { k with inject := y })
            ∧ (∀ j, j < 32 → y.getLsbD j = (v.getLsbD j && decide (j ≠ 14) && decide (j ≠ 15)))
            ∧ y.getLsbD 32 = ((b.core ck).inject.getLsbD 32 && !v.getLsbD 0) ∧ y.toNat < 2 ^ 33)))

/-- FEATRD writes to D word A[2:1] of FEAT_TAKE where A[0] is 1, and of FEAT_HAVE, which is 0xFFFF, where it is 0; an A of 8
or more is fault 0x02 (R393). A leading copy passes the word on while its queue has room, and the trailing copy gets that word
(R404). -/
def Obligations.FeatureWords : Prop :=
  ∀ (w : Stand) (s : State) (o : O1), w.u = { use1 o with priv := 1 } → w.Clear s →
    let b := w.begun s
    let l := w.lane s
    let a := l.a.w64.toNat
    let t := b.thr w.tk
    let v : Word := if a % 2 = 1 then ((b.pkg (pkgOfThr w.tk)).featTake >>> (64 * (a / 2))).setWidth 64
      else if a / 2 = 0 then 0xFFFF else 0
    (8 ≤ a → w.Faults s (.featrd w.f o) { code := 0x02 })
    ∧ (a < 8 → t.trails = false → (t.leads = true → b.inqRoom w.tk = true) →
      w.Completes s (.featrd w.f o) ((b.put l v).pass w.tk { pos := t.nw, src := false, v := [v] }))
    ∧ (a < 8 → t.trails = false → t.leads = true → b.inqRoom w.tk = false → w.Parks s (.featrd w.f o) .copies)
    ∧ (a < 8 → t.trails = true → b.passed w.tk t.nw = none → w.Parks s (.featrd w.f o) .passed)
    ∧ (a < 8 → t.trails = true → ∀ x, b.passed w.tk t.nw = some x →
      w.Completes s (.featrd w.f o) ((b.takePassed w.tk t.nw false).put l (x.v.headD 0)))

/-- THRCTL acts on the thread that A names, in both copies of a pair, and answers a status when it has completed; a pair that
issues it acts once; XRET leaves handler state and returns to the saved place or to a header. A misplaced target is fault
0x07, XRET outside handler state fault 0x09 (R390, R391). The statuses of pairs and of a stopped thread are log 33. -/
def Obligations.ThreadCommands : Prop :=
  ∀ (w : Stand) (s : State), w.Clear s →
    let b := w.begun s
    let l := w.lane s
    let a := l.a.w64
    let v := l.b.w64
    let n := a.toNat
    let core := n / 2 ^ 10 % 128
    let die := n / 2 ^ 17 % 4
    let c := n / 2 ^ 19 % 64
    let tk := thrKey (coreKey (pkgOfThr w.tk) die core) (n % 2 ^ 10)
    let t := b.thr tk
    let st := Tab.getOr (b.ctx (pkgOfThr w.tk) c).st die 0
    let absent := 96 ≤ core ∨ t.st = .free ∨ t.ctx ≠ c
    let both (b : State) (g : Thread → Thread) : State := (b.copiesOf tk).foldl (fun s k => s.modThr k g) b
    (∀ o : O2, w.u = thrUse o →
      let answers (ins : Instr) (b : State) (x : Word) : Prop := w.Answers s ins b x
      let once (ins : Instr) (P : Prop) : Prop := w.Once s ins (fun t v => t.writeRD w.tk l.r.d [v]) P
      let misses (ins : Instr) (y : FI) : Prop :=
        once ins (if 0x100 ≤ y.code then w.Awaits s ins (y.code - 0x100) y.addr else w.Faults s ins y)
      let checked (ins : Instr) (m : Nat) : Prop :=
        (2 ^ 25 ≤ n → w.Faults s ins { code := 0x02 })
        ∧ (n < 2 ^ 25 → v.toNat % m ≠ 0 → w.Faults s ins { code := 0x07, addr := v })
        ∧ (n < 2 ^ 25 → v.toNat % m = 0 → (st = 3 → answers ins b 3) ∧ (st ≠ 3 → absent → answers ins b 1))
      let reached (m : Nat) : Prop := n < 2 ^ 25 ∧ v.toNat % m = 0 ∧ st ≠ 3 ∧ ¬absent
      let resume : Instr := .thrctlResume w.f o
      let redirect : Instr := .thrctlRedirect w.f o
      let kill : Instr := .thrctlKill w.f o
      let stop : Instr := .thrctlStop w.f o
      let getst : Instr := .thrctlGetst w.f o
      let setst : Instr := .thrctlSetst w.f o
      (checked resume 1 ∧ checked redirect 8 ∧ checked kill 1 ∧ checked stop 1 ∧ checked getst 64 ∧ checked setst 64)
      ∧ (reached 1 → if t.st = .stopped then answers resume (both b Thread.resume) 0 else answers resume b 2)
      ∧ (reached 8 → if t.st = .stopped then answers redirect (both b fun t => t.redirect v) 0 else answers redirect b 2)
      ∧ (reached 1 → ∃ b' : State, answers kill b' 0
        ∧ b' = (b.copiesOf tk).foldl (fun s k => s.killCheck k) (both b fun t => { t with killing := true }))
      ∧ (reached 1 → if t.st = .stopped ∨ t.stopping = true then answers stop b 2
        else answers stop (both b fun t => { t with stopping := true }) 0)
      ∧ (reached 64 → if t.st = .stopped then
          ((b.thr w.tk).buffers v.toNat 1024 = true → once getst (w.Parks s getst (.ctrs false true false)))
          ∧ ((b.thr w.tk).buffers v.toNat 1024 = false →
            (∀ y, b.unitPlaces w.tk v.toNat .wr 128 = .error y → misses getst y)
            ∧ ∀ ps b', b.unitPlaces w.tk v.toNat .wr 128 = .ok (ps, b') → answers getst
              (ps.zipIdx.foldl (fun s x => (s.settle (lineOf x.1)).writeBytes x.1 (((b.threadImage tk).drop (8 * x.2)).take 8)) b') 0)
        else answers getst b 2)
      ∧ (reached 64 → if t.st = .stopped then
          ((b.thr w.tk).buffers v.toNat 1024 = true → once setst (w.Parks s setst (.ctrs false true false)))
          ∧ ((b.thr w.tk).buffers v.toNat 1024 = false →
            (∀ y, b.unitPlaces w.tk v.toNat .rd 128 = .error y → misses setst y)
            ∧ ∀ ps b', b.unitPlaces w.tk v.toNat .rd 128 = .ok (ps, b') →
              let b'' := ps.foldl (fun s x => s.settle (lineOf x)) b'
              let im := ps.flatMap fun x => b''.bytes x 8
              if ixImagesOk im then answers setst ((b''.copiesOf tk).foldl (fun s k => s.loadImage k im) b'') 0
              else once setst (w.Faults s setst { code := 0x02 }))
        else answers setst b 2))
    ∧ ∀ x : Src, w.u = { src := [(0, x)], priv := 1 } →
      let ins : Instr := .xret w.f x
      ((b.thr w.tk).hand = false → w.Faults s ins { code := 0x09 })
      ∧ ((b.thr w.tk).hand = true →
        (a = 0 → w.Completes s ins (b.modThr w.tk fun t => { t with hand := false, xgo := true }))
        ∧ (a ≠ 0 → n % 8 ≠ 0 → w.Faults s ins { code := 0x07, addr := a })
        ∧ (a ≠ 0 → n % 8 = 0 → w.Completes s ins (b.modThr w.tk fun t =>
          { t with hand := false, jump := some a, head := true, xends := [] })))

/-- The words for barrier images, translations, the core map, tests and the error log: checks with their faults, and the
statuses that they answer; a pair performs each once (R389, R395 to R399). Misplaced operands are log 34. -/
def Obligations.SystemCommands : Prop :=
  ∀ (w : Stand) (s : State), w.Clear s →
    let b := w.begun s
    let l := w.lane s
    let a := l.a.w64
    let v := l.b.w64
    let n := a.toNat
    let p := pkgOfThr w.tk
    let answers (ins : Instr) (b : State) (x : Nat) : Prop := w.Answers s ins b (BitVec.ofNat 64 x)
    let once (ins : Instr) (P : Prop) : Prop := w.Once s ins (fun t v => t.writeRD w.tk l.r.d [v]) P
    let misses (ins : Instr) (y : FI) : Prop :=
      once ins (if 0x100 ≤ y.code then w.Awaits s ins (y.code - 0x100) y.addr else w.Faults s ins y)
    let bad (ins : Instr) : Prop := w.Faults s ins { code := 0x02 }
    (∀ o : O2, w.u = { use2 o with priv := 1 } →
      let first := v.toNat % 2 ^ 10
      let count := v.toNat / 2 ^ 10 % 2 ^ 11
      let core := v.toNat / 2 ^ 21 % 128
      let ck := coreKey p (v.toNat / 2 ^ 28 % 4) core
      let legal := v.toNat < 2 ^ 30 ∧ 0 < count ∧ core < 96
      let runs : Prop := ∃ k c, k < count ∧ b.barOwner ck (first + k) = some c ∧
        (Tab.getOr (b.ctx (pkgOfCore ck) c).st (dieIx (dkOf ck)) 0 = 1 ∨ Tab.getOr (b.ctx (pkgOfCore ck) c).st (dieIx (dkOf ck)) 0 = 2)
      let checked (ins : Instr) : Prop :=
        (¬legal → bad ins) ∧ (legal → n % 128 ≠ 0 → w.Faults s ins { code := 0x07, addr := a })
        ∧ (legal → n % 128 = 0 → (1024 < first + count → answers ins b 2) ∧ (first + count ≤ 1024 → runs → answers ins b 1)
          ∧ (first + count ≤ 1024 → ¬runs → (b.thr w.tk).buffers n (512 * count) = true → once ins (w.Parks s ins (.ctrs false true false))))
      let clear := legal ∧ n % 128 = 0 ∧ first + count ≤ 1024 ∧ ¬runs ∧ (b.thr w.tk).buffers n (512 * count) = false
      checked (.barsave w.f o) ∧ checked (.barrest w.f o)
      ∧ (clear → (∀ y, b.unitPlaces w.tk n .wr (512 * count / 8) = .error y → misses (.barsave w.f o) y)
        ∧ ∀ y, b.unitPlaces w.tk n .rd (512 * count / 8) = .error y → misses (.barrest w.f o) y)
      ∧ (clear → ∀ ps b', b.unitPlaces w.tk n .wr (512 * count / 8) = .ok (ps, b') →
        let im := (List.range count).flatMap fun k => (b.bar ck (first + k)).image
        im.length = 512 * count ∧ answers (.barsave w.f o)
          (ps.zipIdx.foldl (fun s x => (s.settle (lineOf x.1)).writeBytes x.1 ((im.drop (8 * x.2)).take 8)) b') 0)
      ∧ (clear → ∀ ps b', b.unitPlaces w.tk n .rd (512 * count / 8) = .ok (ps, b') →
        let b'' := ps.foldl (fun s x => s.settle (lineOf x)) b'
        let im := ps.flatMap fun x => b''.bytes x 8
        answers (.barrest w.f o)
          ((List.range count).foldl (fun s k => s.restoreBar ck (first + k) (barFrom (im.drop (512 * k)))) b'') 0))
    ∧ (∀ (o : S2) (sc : Scope), w.u = { useS2 o with priv := 1 } →
      (2 ^ 7 ≤ n ∨ v.toNat % 2 ^ 16 / 2 ≠ 0 ∨ 2 ^ 55 ≤ v.toNat → bad (.tlbinv w.f sc o))
      ∧ (n < 2 ^ 7 → v.toNat % 2 ^ 16 / 2 = 0 → v.toNat < 2 ^ 55 →
        let named (x : TlbE) : Bool :=
          (decide (64 ≤ n) || x.ctx == n % 64) && (decide (v.toNat % 2 = 1) || x.x.covers (v.toNat / 2 ^ 16 * 2 ^ 16))
        once (.tlbinv w.f sc o) (∃ t : State, w.Completes s (.tlbinv w.f sc o) (t.holdFor l (some (.tlb (b.oldAccesses sc l.ck a v))) none)
          ∧ t.threads = b.threads ∧ t.mem = b.mem
          ∧ ∀ ck c, Tab.look b.cores ck = some c → (t.core ck).tlb =
            if b.inScope sc l.ck ck then c.tlb.filter fun x => !named x else c.tlb)))
    ∧ (∀ o : O2, w.u = { use2 o with priv := 1 } →
      let ins : Instr := .mapset w.f o
      let core := n % 128
      let dk := dieKey p (n / 128)
      let phys := v.toNat
      let used := ∃ c, c < 96 ∧ b.phys (dk * 128 + c) = phys
      (2 ^ 9 ≤ n ∨ 2 ^ 7 ≤ phys → bad ins)
      ∧ (n < 2 ^ 9 → phys < 2 ^ 7 → (96 ≤ core ∨ 100 ≤ phys → answers ins b 3)
        ∧ (core < 96 → phys < 100 → (b.phys (dk * 128 + core) = phys → answers ins b 0)
          ∧ (b.phys (dk * 128 + core) ≠ phys → (used ∨ phys ∈ (b.die dk).testing → answers ins b 1)
            ∧ (¬used → phys ∉ (b.die dk).testing → (phys ∈ (b.die dk).failed → answers ins b 2)
              ∧ (phys ∉ (b.die dk).failed → answers ins (b.moveCore dk core phys) 0))))))
    ∧ (∀ o : O1, w.u = { use1 o with priv := 1 } →
      let ins : Instr := .selftest w.f o
      let phys := n % 128
      let dk := dieKey p (n / 128 % 4)
      let used := (∃ c, c < 96 ∧ b.phys (dk * 128 + c) = phys) ∨ phys ∈ (b.die dk).testing
      (2 ^ 11 ≤ n → bad ins)
      ∧ (n < 2 ^ 11 → (n / 2 ^ 9 = 0 ∨ 100 ≤ phys → answers ins b 3)
        ∧ (n / 2 ^ 9 ≠ 0 → phys < 100 → (used → answers ins b 2)
          ∧ (¬used → once ins (∃ t : State, w.Completes s ins (t.holdFor l (some (.test dk phys)) none)
            ∧ (t.die dk).testing = phys :: (b.die dk).testing ∧ t.threads = b.threads ∧ t.mem = b.mem
            ∧ (t.pkg (pkgOfDie dk)).tests = (b.pkg (pkgOfDie dk)).tests ++ [(b.uid, dieIx dk, phys, n / 2 ^ 9)])))))
    ∧ ∀ o : O2, w.u = { use2 o with priv := 1 } →
      let ins : Instr := .errrd w.f o
      let k := b.pkg p
      let r := v.toNat
      (n % 64 ≠ 0 → w.Faults s ins { code := 0x07, addr := a })
      ∧ (n % 64 = 0 → (k.errProd ≤ r → answers ins b 1) ∧ (r + 4096 < k.errProd → answers ins b 2)
        ∧ (r < k.errProd → k.errProd ≤ r + 4096 → ∀ rec, Tab.look k.errLog r = some rec → rec.length = 64 →
          ((b.thr w.tk).buffers n 64 = true → once ins (w.Parks s ins (.ctrs false true false)))
          ∧ ((b.thr w.tk).buffers n 64 = false → ∀ y, b.unitPlaces w.tk n .wr 8 = .error y → misses ins y)
          ∧ ((b.thr w.tk).buffers n 64 = false → ∀ ps b', b.unitPlaces w.tk n .wr 8 = .ok (ps, b') → answers ins
            (ps.zipIdx.foldl (fun s x => (s.settle (lineOf x.1)).writeBytes x.1 ((rec.drop (8 * x.2)).take 8)) b') 0)))

/-- CTXSW creates a context from its descriptor, destroys one that no launch uses, pre-empts and resumes one on named dies,
and answers why it does not; a descriptor whose home cannot be reached is waited for; reserved operand bits are fault 0x02; a
pair performs it once (R331, R383, R386, R388, R389, R394). The order of creation's checks is log 35. -/
def Obligations.ContextCommands : Prop :=
  ∀ (w : Stand) (s : State) (o : O2), w.u = { use2 o with priv := 1 } → w.Clear s →
    let b := w.begun s
    let l := w.lane s
    let n := l.a.w64.toNat
    let v := l.b.w64.toNat
    let p := pkgOfThr w.tk
    let answers (ins : Instr) (b : State) (x : Nat) : Prop := w.Answers s ins b (BitVec.ofNat 64 x)
    let once (ins : Instr) (P : Prop) : Prop := w.Once s ins (fun t v => t.writeRD w.tk l.r.d [v]) P
    let checked (ins : Instr) (top : Nat) : Prop :=
      (2 ^ 6 ≤ n ∨ top ≤ v → w.Faults s ins { code := 0x02 }) ∧ (n = 0 → v < top → answers ins b 2)
    let create : Instr := .ctxswCreate w.f o
    let destroy : Instr := .ctxswDestroy w.f o
    let preempt : Instr := .ctxswPreempt w.f o
    let resume : Instr := .ctxswResume w.f o
    let on (x : Ctx) (l : List Nat) : List Nat := (List.range 4).filter fun d => v.testBit d && l.contains (Tab.getOr x.st d 0)
    checked create (2 ^ 64) ∧ checked destroy 1 ∧ checked preempt 16 ∧ checked resume 16
    ∧ (0 < n → n < 64 →
      ((b.pkg p).featLock = false → answers create b 3)
      ∧ ((b.pkg p).featLock = true → ((b.ctx? p n).isSome = true → answers create b 1)
        ∧ (b.ctx? p n = none → (v % 128 ≠ 0 ∨ 2 ^ 52 ≤ v → answers create b 2)
          ∧ (v % 128 = 0 → v < 2 ^ 52 → (b.ownFault p 0 v = some 0x0D →
              once create (w.Faults s create { code := 0x0D, addr := l.b.w64 }))
            ∧ (b.ownFault p 0 v = some 0x0B → once create (w.Awaits s create (homeOf v) l.b.w64))
            ∧ (∀ e, b.ownFault p 0 v = some e → e ≠ 0x0D → e ≠ 0x0B → answers create b 2)
            ∧ (b.ownFault p 0 v = none →
              let t := b.settle (lineOf v)
              let im := t.bytes v 128
              let x := ctxFrom im
              let refused := ctxMalformed im = true ∨ t.ctxUntaken p x = true ∨ t.saveTaken p x = true
                ∨ ∃ k y, (k, y) ∈ t.ctxs ∧ k / 64 = p ∧ ctxOverlap x y = true
              (refused → answers create t 2) ∧ (¬refused → answers create ((t.clearCtx p n x).setCtx p n x) 0))))))
    ∧ (0 < n → n < 64 → b.ctx? p n = none →
      (v = 0 → answers destroy b 1) ∧ (v < 16 → answers preempt b 1 ∧ answers resume b 1))
    ∧ (∀ x, 0 < n → n < 64 → b.ctx? p n = some x →
      let live := ∃ k y, (k, y) ∈ b.launches ∧ y.ctx = n ∧ (y.pkg = p ∨ ∃ d ∈ y.dies, pkgOfDie d.dk = p)
      (v = 0 → live → answers destroy b 4)
      ∧ (v = 0 → ¬live → ∃ t : State, answers destroy t 0 ∧ t.ctx? p n = none ∧ t.mem = b.mem)
      ∧ (v < 16 → on x [1, 2] = [] → answers preempt b 6)
      ∧ (v < 16 → on x [1, 2] ≠ [] → once preempt (w.Completes s preempt
        ((b.setCtx p n { x with st := (on x [1, 2]).foldl (fun t d => Tab.put t d 2) x.st }).holdFor l
          (some (.preempt n (BitVec.ofNat 4 v))) none)))
      ∧ (v < 16 → on x [3] = [] → answers resume b 6)
      ∧ (v < 16 → on x [3] ≠ [] →
        let occupied := ∃ d ∈ on x [3], ∃ k ∈ b.savedThreads (dieKey p d) n, (b.thr (k % slotKeys)).st ≠ .free
        (occupied → answers resume b 5)
        ∧ (¬occupied → answers resume ((on x [3]).foldl (fun s d => s.resumeDie p n d) b) 0)))

/-- LAUNCH reads its record, reports the first lasting cause of refusal and otherwise makes a launch under the next handle and
waits for the dies; LWAIT waits for a live launch or answers at once. A record that is not aligned is fault 0x07, one that
cannot be read the fault of its access, and one whose home cannot be reached is waited for; the trailing copy of a pair checks
its access and waits for what its leading copy receives (R99, R100, R102, R331, R404). Handles, spans and the order of
refusals are log 16. -/
def Obligations.Launching : Prop :=
  ∀ (w : Stand) (s : State), w.Clear s →
    let b := w.begun s
    let l := w.lane s
    let a := l.a.w64
    let tr := (b.thr w.tk).trails
    (∀ o : O1, w.u = { use1 o with priv := 2, vl := true, close := true } →
      let ins : Instr := .launch w.f o
      (a.toNat % 64 ≠ 0 → w.Faults s ins { code := 0x07, addr := a })
      ∧ (a.toNat % 64 = 0 → (∀ c, b.readVirt w.tk a.toNat 72 = .error c →
          if c < 0x100 then w.Faults s ins { code := c, addr := a }
          else if tr then w.Completes s ins (b.pendNew l .copied 7).2
          else w.Awaits s ins (c - 0x100) a)
        ∧ ∀ im t, b.readVirt w.tk a.toNat 72 = .ok (im, t) →
          if (b.thr w.tk).buffers a.toNat 576 then w.Parks s ins (.ctrs false true false)
          else if tr then w.Completes s ins (t.pendNew l .copied 7).2
          else
            let la := t.parseLaunch l im t.lnext
            let st := t.launchStatus la im
            if st = 0 then
              w.Completes s ins ({ (t.pendNew l (.launch t.lnext) 7).2 with lnext := t.lnext + 1 }.setLaunch t.lnext la)
            else w.Completes s ins ((t.pendNew l (.launch 0) 7).2.deliverOut w.tk t.uid [BitVec.ofNat 64 (st * 2 ^ 56)] none)))
    ∧ ∀ o : O2, w.u = { use2 o with priv := 2, vl := true } →
      let t := (b.pendNew l (.lwait a.toNat) 7).2
      if tr then w.Completes s (.lwait w.f o) (b.pendNew l .copied 7).2
      else w.Completes s (.lwait w.f o)
        (match t.byHandle w.tk a.toNat with
        | none => t.deliverOut w.tk b.uid [0xFE] none
        | some _ => if l.b.w64 = 0 then t else t.deliverOut w.tk b.uid [0xFF] none)

/-! ### Events of threads and pipes (R106 to R114, R122, R142, R236, R294, R378, R472) -/

/-- What a cycle's events do to threads: a pipe without a gang resumes a released gang, else takes a new one of ready threads
at one clause, after the mark of a register bank's error or of a lane that turns out defective, and takes none in a cycle that
the power clamp holds (log 92); sleeps end, results arrive, waits on words and tiles end with the word they saw. A part of a
load, gather or atomic performs where its line lets it: forwarded from the store buffer, or failed, or asking for the line, or
refused for poison or an unjudged tag, or read; an atomic writes what its operation makes of the word, and nothing else in
memory changes. A part of a store buffer's entry performs likewise: a store writes its bytes, a reduction combines in place or
into the partial, a flip adds 2 to the count and changes SEL, a descriptor its word; CFLUSH sends its Flush, CINV gives a
clean line back. A failed entry leaves with its late fault, which the next word that waits raises. Held records are written,
gangs that waited for room go on, and the watchdog and a deadlocked pool stop one thread (R107, R109, R112, R114, R122, R142,
R236, R244, R248, R262, R265, R268, R271, R294, R297, R378, R472, R473). -/
def Obligations.ThreadEvents : Prop :=
  ∀ s : State,
    (∀ ck half, (∀ tk n hard, exec (.pipePick ck half (.bank tk n hard)) s =
        exec (.pipePick ck half .none) (if ckOf tk = ck ∧ halfOf tk = half ∧ (s.thr tk).st ≠ .free then s.bankError tk n hard else s))
      ∧ (∀ k pat n, exec (.pipePick ck half (.lane k pat n)) s =
        exec (.pipePick ck half .none) (if 32 ≤ k ∨ pat = 0 ∨ n = 0 then s else
          s.setPipe ck half { s.pipe ck half with bad := ⟨k, pat, n⟩ :: (s.pipe ck half).bad.filter fun x => x.lane != k }))
      ∧ ((s.pipe ck half).gang.isSome = true ∨ s.powerHolds (pkgOfCore ck) 2 = true → exec (.pipePick ck half .none) s = .next s)
      ∧ ((s.pipe ck half).gang = none → s.powerHolds (pkgOfCore ck) 2 = false →
        let t := s.arriveAll ck half
        let q := t.pipe ck half
        (∀ g, q.parked = [g] → q.excess = [] → g.members ≠ [] → t.released g = true →
          exec (.pipePick ck half .none) s = .next ((g.members.foldl (fun s tk => s.takeDone tk) t).setPipe ck half
            { q with parked := [], gang := some { g with why := .running } }))
        ∧ (q.parked = [] → q.excess = [] →
          let t := t.setPipe ck half q
          let rdy := (t.halfThreads ck half).filter fun e => t.isReady e.1 e.2
          (rdy = [] → exec (.pipePick ck half .none) s = .next t)
          ∧ ∀ tk th ptr ws u, t.leader ck half rdy = some (tk, th, ptr) →
            t.fetchWords tk th.hpc.toNat (clauseCount th.hdr + 1) = .ok u (th.hdr :: ws) →
            ∃ g : Gang, exec (.pipePick ck half .none) s = .next (u.take ck half ptr g)
              ∧ g.words = ws ∧ g.hpc = th.hpc ∧ g.ctx = th.ctx ∧ tk ∈ g.members
              ∧ ∀ k ∈ g.members, k = tk ∨ ∃ y : Thread, (k, y) ∈ rdy ∧ y.ctx = th.ctx ∧ y.pc = th.pc ∧ y.mid = false)))
    ∧ (∀ tk, exec (.sleepExpire tk) s = .next
        (if (s.thr tk).sleep ≤ s.time (pkgOfThr tk) then s.modThr tk fun t => { t with sleep := 0 } else s))
    ∧ (∀ tk u q v p, (s.thr tk).pendAt u = some q → q.k = .value v p →
      exec (.variableLatencyResult tk u) s = .next (s.finishPend tk q [v] p none none))
    ∧ (∀ tk u q w cmp d, (s.thr tk).pendAt u = some q → q.k = .waita w cmp d → (s.thr tk).st ≠ .saved →
      let due := match d with | some (_, n) => n ≤ s.time (pkgOfThr tk) | none => False
      (¬due → exec (.waitaTimeout tk u) s = .next s)
      ∧ ∀ b x a t pa, s.transAcc tk q = (none, b) → ((b.findPend tk q.u).bind fun q => q.k.acc?) = some a → a.pieces = [x] →
        b.forward tk q.u x.va x.n (x.at b) x.xl .glob = .no → b.inOrder tk q.u x.va x.n (x.at b) x.xl false = true →
        b.touchPiece tk q.u a x = .ok t pa false none →
        let v : Word := BitVec.ofNat 64 (t.read pa 8)
        let t := t.modAcc tk q.u fun a => { a with since := none }
        let ends := (t.modThr tk fun t => { t with c := t.c.drop 1 0 (if a.remote then 1 else 0) }).finishOutside tk q [v]
        exec (.waitaWake tk u) s = .next (if v = cmp then t else ends) ∧ (due → exec (.waitaTimeout tk u) s = .next ends))
    ∧ (∀ tk u q i st, (s.thr tk).pendAt u = some q → q.k = .twait i st → exec (.twaitComplete tk u) s = .next
      (if (s.tile (ckOf tk) i).st = st ∧ (s.thr tk).st ≠ .saved then
        (s.modThr tk fun t => { t with c := t.c.drop 1 0 0 }).finishOutside tk q [(s.tile (ckOf tk) i).word1] else s))
    ∧ (∀ ck t, exec (.treadyComplete ck t) s = .next
      (if (s.tile ck t).publ then s.modTile ck t fun e => { e with st := .ready, byeng := false, publ := false, stale := [] } else s))
    ∧ (∀ tk u q a x, u % 16 = 0 → s.findPend tk u = some q → q.u = u → q.k = .acc a → a.pieces = [x] → x.got = none →
      s.gidOpen (ckOf tk) q.gid = false → s.gidPends (ckOf tk) q.gid = [(tk, q)] → s.transAcc tk q = (none, s) →
      let ev : Instr := .loadReturn tk u .none
      let fw := s.forward tk u x.va x.n (x.at s) x.xl a.space
      let ordered := s.inOrder tk u x.va x.n (x.at s) x.xl a.rel
      (a.k.isAtomic = false → fw = .wait → exec ev s = .next s)
      ∧ (a.k.isAtomic = false → ∀ v, fw = .hit v → exec ev s = .next (if s.inOrderF tk u x.xl then
        (s.modAcc tk u fun c => { c with pieces := setAt c.pieces 0 { x with got := some v } }).settleAcc tk u else s))
      ∧ (a.k.isAtomic = true ∨ fw = .no → ordered = false → exec ev s = .next s)
      ∧ (a.k.isAtomic = true ∨ fw = .no → ordered = true →
        (∀ b, x.loc = some b → x.xl = none → a.k = .load → exec ev s = .next (((s.readFree b x.n).2.modAcc tk u fun c =>
          { c with pieces := setAt c.pieces 0 { x with got := some (s.readFree b x.n).1 }, since := none }).settleAcc tk u))
        ∧ (∀ c, c ≠ 0x0A → s.touchPiece tk u a x = .fail c → exec ev s = .next (s.failPart tk u c x.va))
        ∧ (∀ t asked, s.touchPiece tk u a x = .wait t asked →
          exec ev s = .next (t.modAcc tk u fun a => { a with since := timerFrom t.clock asked a.since }))
        ∧ ∀ t pa psn unver, s.touchPiece tk u a x = .ok t pa psn unver →
          (psn = true → a.refusesPoison = true → exec ev s = .next (t.failPart tk u 0x0D x.va))
          ∧ (psn = false → unver.isSome = true → a.refusesPoison = true → exec ev s = .next t)
          ∧ ((psn = false ∧ unver = none) ∨ (a.refusesPoison = false ∧ (unver = none ∨ a.prov = none ∨ a.prov = unver)) →
            exec ev s = .next (((t.performPiece tk u 0 a x pa psn unver).useLine ⟨tk, u, 0, x.va, x.n, x.at s⟩).settleAcc tk u))))
    ∧ (∀ tk u ix a (x : Piece) pa psn unver,
      let b := s.performPiece tk u ix a x pa psn unver
      (a.k.isAtomic = false → b.mem = s.mem ∧ b.haze = s.haze)
      ∧ ∀ op w32 sgn y c, a.k = .atomic op w32 sgn y c →
        b.read pa x.n = (op.apply w32 sgn (s.readFree pa x.n).1 y.toNat c.toNat).1 % 256 ^ x.n
          ∧ ∀ e, e < pa ∨ pa + x.n ≤ e → b.byte e = s.byte e)
    ∧ (∀ tk u ix e x, ix < 16 → u % 16 = 0 → (s.thr tk).entry u = some e → e.pieces[ix]? = some x → (s.thr tk).st ≠ .saved →
      (∀ l, e.k ≠ .flush l ∧ e.k ≠ .inval l) → x.done = false → s.gidOpen (ckOf tk) e.gid = false →
      s.heldParts (ckOf tk) e.gid = [] →
      let all := s.storeParts' (ckOf tk) e.gid
      let l := bySlot (connected all all.length [⟨tk, u, ix, x.va, x.n, e.place s x⟩])
      (∀ t, s.storesReady true l = .no t → exec (.storePerform tk (u + ix)) s = .next t)
      ∧ (∀ t k v c a, s.storesReady true l = .fail t k v c a → exec (.storePerform tk (u + ix)) s = .next (t.failStore k v c))
      ∧ ∀ t, s.storesReady true l = .yes t → exec (.storePerform tk (u + ix)) s = .next (t.performStores l))
    ∧ (∀ tk e ix (x : SPiece) pa,
      let b := s.performSPiece tk e ix x pa
      let p := pkgOfThr tk
      let old := s.read pa x.n
      let wrote (v : Nat) : Prop := b.read pa x.n = v % 256 ^ x.n ∧ ∀ y, y < pa ∨ pa + x.n ≤ y → b.byte y = s.byte y
      (e.k = .store → x.loc = none → isAperture pa = false → b.mem = (s.writeMask pa x.n x.data x.mask).mem
        ∧ b.haze = (s.writeMask pa x.n x.data x.mask).haze)
      ∧ (e.k = .shadow → wrote x.data)
      ∧ (e.k = .publish → b.read pa 8 = ((s.read pa 8 + 2) % 2 ^ 64 ^^^ 1) ∧ ∀ y, y < pa ∨ pa + 8 ≤ y → b.byte y = s.byte y)
      ∧ ∀ r, e.k = .red r →
        (isSo x.xl = true ∨ (s.aline p (lineOf pa)).st = .M → wrote (r.combine old x.data))
        ∧ (isSo x.xl = false → (s.aline p (lineOf pa)).st ≠ .M → b.mem = s.mem ∧ b.haze = s.haze
          ∧ (b.aline p (lineOf pa)).part = (s.aline p (lineOf pa)).part.map fun q => q.add (pa % 128) x.data))
    ∧ (∀ tk u e x line, u % 16 = 0 → (s.thr tk).entry u = some e → e.u = u → e.pieces = [x] → (s.thr tk).st ≠ .saved →
      let p := pkgOfThr tk
      let h := homeOf (line * 128)
      let a := s.aline p line
      let calm := a.put = none ∧ a.flushing = none ∧ a.req = none ∧ a.unver = none
      let ordered := s.inOrder tk u x.va x.n (e.place s x) x.xl false
      let dirty := a.st = .M ∨ a.st = .O
      (e.k = .flush line ∨ e.k = .inval line → ordered = false → exec (.storePerform tk u) s = .next s)
      ∧ (e.k = .flush line → ordered = true → e.since = none →
        (s.isLost p h = true → exec (.storePerform tk u) s = .next (s.failStore tk u 0x0C))
        ∧ (s.isLost p h = false → ¬calm → exec (.storePerform tk u) s = .next s)
        ∧ (s.isLost p h = false → calm → exec (.storePerform tk u) s = .next
          (((s.setALine p line { a with flushing := some u }).sendMsg .flush p h p line (txid := u) (carries := decide dirty)
            (status := if dirty ∧ a.psn = true then 8 else 0)).modEntry tk u fun e =>
              { e with since := if h = p then none else some s.clock })))
      ∧ (e.k = .inval line → ordered = true → x.mask = 0 →
        let entry := (s.core (ckOf tk)).l1.find? fun y => y.line == line
        (entry = none → exec (.storePerform tk u) s = .next (s.endEntry tk e))
        ∧ (entry.isSome = true → ¬dirty → exec (.storePerform tk u) s = .next ((s.l1Leave (ckOf tk) line).endEntry tk e)))
      ∧ (e.k = .inval line → ordered = true → x.mask ≠ 0 →
        exec (.storePerform tk u) s = .next (if a.put = none ∧ a.flushing = none then s.endEntry tk e else s)))
    ∧ (∀ tk u code e, (s.thr tk).sb = [e] → e.u = u → (s.thr tk).pair = none → (s.thr tk).killing = false →
      let x : Late := { code := code, addr := (e.pieces.head?.map (·.va)).getD 0, load := false, nw := u }
      let b := s.failStore tk u code
      (b.thr tk).sb = [] ∧ (b.thr tk).late = lateInsert x (s.thr tk).late ∧ b.mem = s.mem ∧ ∀ k, k ≠ tk → b.thr k = s.thr k)
    ∧ (∀ tk i x park, s.iss = some i → (s.thr tk).late = [x] → (s.thr tk).pair = none →
      let b := s.modThr tk fun t => { t with late := [] }
      let f : FI := { code := x.code, addr := BitVec.ofNat 64 x.addr, late := true, ixinfo := if x.load then x.reg * 2 ^ 30 else 0 }
      let raised := (b.takeFault tk f i.g.wordAddr i.g.hpc i.g.hdr i.g.word).checkWord park
      (x.load = true → s.lateLoads tk park = raised) ∧ (x.load = false → s.lateStores tk park = raised))
    ∧ (∀ p c x r rest, c < 64 → s.ctx? p c = some x → x.held = r :: rest → s.fqFull x = false → (r.bytes[1]?.getD 0).getLsbD 1 = false →
      exec (.heldRecordWrite (p * 64 + c)) s = .next ((s.setCtx p c { x with held := rest }).writeRecord p c r.bytes))
    ∧ (∀ ck ctx,
      let due := (s.coreThreads ck).filter fun e => e.2.ctx == ctx && decide (2 ^ 20 ≤ e.2.ready) && !e.2.inGang
      (due = [] → exec (.progressWatchdog ck ctx) s = .next s)
      ∧ ∀ tk t, oldest due = some (tk, t) → exec (.progressWatchdog ck ctx) s = .next
        ((due.foldl (fun s e => s.modThr e.1 fun t => { t with ready := 0 }) s).pairFault tk { code := 0x14, header := !t.mid }
          t.pc t.hpc t.hdr 0))
    ∧ (∀ ck, ((s.core ck).dead < 2 ^ 16 → exec (.poolDeadlock ck) s = .next s)
      ∧ ∀ tk n, 2 ^ 16 ≤ (s.core ck).dead → (s.core ck).poolq = [⟨[tk], n⟩] → (s.thr tk).hold = true → (s.thr tk).xwant = true →
        let b := s.modCore ck fun c => { c with dead := 0 }
        let t := b.thr tk
        exec (.poolDeadlock ck) s = .next ((((b.unwant tk).modThr tk fun t => { t with hold := false, nw := t.nw - 1 }).pairFault tk
          { code := 0x06 } (t.pc - 8) t.hpc t.hdr (b.wordAt tk (t.pc - 8))).poolCheck ck))
    ∧ ∀ ck half,
      let p := s.pipe ck half
      ∃ q : Pipe, exec (.resourceRoomResume ck half) s = .next (s.setPipe ck half q)
        ∧ (∀ g ∈ p.parked, ∀ k, g.why = .room k → s.hasRoom g.first k = true → { g with why := .running } ∈ q.parked)
        ∧ ∀ g ∈ p.parked, (∀ k, g.why ≠ .room k) → g ∈ q.parked

/-! ### Events of launches (R100 to R104, R212) -/

/-- The life of a launch: its dies answer and its resources stand, or LAUNCH reports 0x02 or 0x05; a die's threads begin once
every die has arrived; it completes when its threads and commands have ended, and writes DONE, for which it waits while no
path leads to DONE's home; the start barrier of several dies fails after CTX_TIMEOUT; LBAR's waiters of a die go on together;
every 1,024 cycles a die moves up to 32 threads of starved stages, those of earlier launches first (R100 to R104, R212). Where
spans are placed is log 16. -/
def Obligations.LaunchEvents : Prop :=
  ∀ (s : State) (lk : Nat) (l : Launch), Tab.look s.launches lk = some l →
    (let ps := l.dies.map fun d => pkgOfDie d.dk
      let refused (st : Nat) : State :=
        let t := s.tellLauncher lk (BitVec.ofNat 64 (st * 2 ^ 56))
        { t with launches := Tab.cut t.launches lk }
      ((∃ d ∈ l.dies, d.answered = true) → exec (.launchAnswer lk) s = .next s)
      ∧ ((∀ d ∈ l.dies, d.answered = false) →
        ((∃ q ∈ ps, s.isLost l.pkg q = true) → exec (.launchAnswer lk) s = .next (refused 2))
        ∧ ((∀ q ∈ ps, s.isLost l.pkg q = false) → (∃ q ∈ ps, s.reaches l.pkg q = false) → exec (.launchAnswer lk) s = .next s)
        ∧ ((∀ q ∈ ps, s.isLost l.pkg q = false ∧ s.reaches l.pkg q = true) →
          (s.reserve lk l = none → exec (.launchAnswer lk) s = .next (refused 5))
          ∧ ∀ t, s.reserve lk l = some t →
            let b := l.dies.foldl (fun s d => s.openQueues lk d.dk) t
            exec (.launchAnswer lk) s = .next
              ((b.modLaunch lk fun l => { l with since := b.clock }).tellLauncher lk (l.handle.setWidth 64)))))
    ∧ (∀ d ∈ l.dies, (l.dies.find? fun x => x.dk == d.dk) = some d →
      let dk := d.dk
      ((∃ x ∈ l.dies, x.arrived = false) → exec (.launchStart lk dk) s = .next s)
      ∧ (d.started = false → l.ended = false → (∀ x ∈ l.dies, x.arrived = true) →
        let b := s.modLaunch lk fun l => l.onDie dk fun d => { d with started := true }
        exec (.launchStart lk dk) s = .next ((b.launchThreads lk).foldl (fun s e =>
          if dkOf (ckOf e.1) = dk ∧ e.2.st = .placed then s.modThr e.1 fun t => { t with st := .live } else s) b)))
    ∧ ((∃ d ∈ l.dies, d.answered = false) ∨ s.launchThreads lk ≠ [] ∨ l.cmds ≠ 0 → exec (.launchComplete lk) s = .next s)
    ∧ ((∀ d ∈ l.dies, d.answered = true) → s.launchThreads lk = [] → l.cmds = 0 →
      let result (bad : Bool) : Word :=
        BitVec.ofNat 64 (l.status % 256 + (if bad then 256 else 0) + min l.killed (2 ^ 32 - 1) * 2 ^ 32)
      let ends (t : State) (bad : Bool) : State :=
        let b : State := { t with launches := Tab.cut t.launches lk }
        b.threads.foldl (fun s e =>
          if e.2.ctx = l.ctx ∧ (pkgOfThr e.1 = l.pkg ∨ (s.ctx l.pkg l.ctx).attr.getLsbD 2 = true) then
            e.2.pend.foldl (fun s p => if p.k = .lwait l.handle.toNat then s.deliverOut e.1 p.u [result bad] none else s) s
          else s) b
      (l.done = 0 → exec (.launchComplete lk) s = .next (ends s false))
      ∧ (l.done ≠ 0 →
        let timer := (s.ctx l.pkg l.ctx).timer
        let bad : State :=
          let b := recordBytes 0x12 2 l.ctx (l.pkg + 16 * l.die) (slotOf l.tk) (coreOf (ckOf l.tk)) 0 l.tid.toNat
            (unitId 8 l.pkg l.die 0 0) l.pc.toNat l.hdr.toNat l.word.toNat l.done.toNat 0 (s.clockOf l.pkg)
          ends (s.queueEngineRecord l.pkg l.ctx (dieKey l.pkg l.die) b) true
        (s.donePlace l = none → exec (.launchComplete lk) s = .next bad)
        ∧ ∀ pa, s.donePlace l = some pa →
          (s.reaches l.pkg (homeOf pa) = true →
            exec (.launchComplete lk) s = .next (ends ((s.settle (lineOf pa)).write pa 8 (result false).toNat) false))
          ∧ (s.reaches l.pkg (homeOf pa) = false → l.doneT = none →
            exec (.launchComplete lk) s = .next (s.setLaunch lk { l with doneT := some s.clock }))
          ∧ ∀ n, s.reaches l.pkg (homeOf pa) = false → l.doneT = some n →
            exec (.launchComplete lk) s = .next (if s.clock < n + timer then s.setLaunch lk l else bad)))
    ∧ (l.dies.length ≤ 1 ∨ (∃ d ∈ l.dies, d.answered = false) ∨ (∀ d ∈ l.dies, d.arrived = true)
        ∨ s.clock < l.since + (s.ctx l.pkg l.ctx).timer →
      exec (.startBarrierTimeout lk) s = .next s)
    ∧ (2 ≤ l.dies.length → (∀ d ∈ l.dies, d.answered = true) → (∃ d ∈ l.dies, d.arrived = false) → l.since + (s.ctx l.pkg l.ctx).timer ≤ s.clock →
      exec (.startBarrierTimeout lk) s = .next (((s.launchThreads lk).foldl (fun s e =>
        let t := if e.2.xblk then s.modCore (ckOf e.1) fun c => { c with pool := c.pool + 1 } else s
        (t.setThr e.1 { orph := e.2.orph }).poolCheck (ckOf e.1)) s).finishLaunch lk { l with status := 2 }))
    ∧ (∀ dk,
      let b := s.modLaunch lk fun l => l.onDie dk fun d => { d with lbarSeen := l.lbarN }
      exec (.lbarRelease lk dk) s = .next ((b.launchThreads lk).foldl (fun s e =>
        if dkOf (ckOf e.1) = dk then
          s.modThr e.1 fun t => { t with blk := t.blk.filter fun x => match x with | .lbar n => decide (l.lbarN ≤ n) | _ => true }
        else s) b))
    ∧ ∀ dk, (s.clock < (s.die dk).rebal + 1024 → exec (.rebalance dk) s = .next s)
      ∧ ((s.die dk).rebal + 1024 ≤ s.clock →
        let b := s.modDie dk fun x => { x with rebal := s.clock }
        (∀ n, n < 32 → (b.launches.flatMap fun e => b.moves e dk).length = n → exec (.rebalance dk) s = .next
          ((b.launches.flatMap fun e => b.moves e dk).foldl (fun s m => s.retireFor m.1 m.2) b))
        ∧ (s.launches = [(lk, l)] → ∀ d, (l.dies.find? fun x => x.dk == dk && x.started) = some d →
          (l.attr / 16 % 2 = 0 → exec (.rebalance dk) s = .next b)
          ∧ (l.attr / 16 % 2 = 1 → (l.fullest d = none → exec (.rebalance dk) s = .next b)
            ∧ ∀ g, l.fullest d = some g → exec (.rebalance dk) s = .next
              (((b.victims lk l d).take 32).foldl (fun s v =>
                let t := (s.finishOutside v.1 v.2 [] (some false)).modThr v.1 fun x => { x with retired := true, retireTo := g }
                match (t.thr v.1).pair with
                | some p => t.modThr p.partner fun x => { x with retired := true, retireTo := g }
                | none => t) b))))

/-! ### Events of a core's engines (R284, R303 to R312) -/

/-- A core's engines step by step: a copy makes its choice among its reads and writes and completes with its last, or stops at
a failing line; what was on its way at a pre-emption performs; the matrix command at the head takes a slab, again once where
its residues differ, counting that, and fails at the second difference; after the last slab its accumulators go to its tile
and it finishes; the power clamp holds slabs (log 92); a grid not complete in CTX_TIMEOUT, or one whose cores disagree, fails;
an epilogue reads its parameter block, then writes the parts of a row, a drawn row's pair in eight single bytes, and the row
is done with the last of them (R303 to R305, R307, R309, R310, R312). Which commands make one product is log 21. -/
def Obligations.EngineEvents : Prop :=
  ∀ (s : State) (ck : Nat),
    (∀ u k line,
      let sent := (s.core ck).sent.find? fun x => x.u == u
      (s.findCopy ck u = none → (sent = none → exec (.copyComplete ck u k) s = .next s)
        ∧ ∀ x, sent = some x → exec (.copyComplete ck u k) s = .next (s.runSent ck x))
      ∧ (s.findCopy ck u = none → s.findMat ck u = none → (∀ x ∈ (s.die (dkOf ck)).trigs, x.u ≠ u) →
        (∀ o ∈ (s.die (dkOf ck)).ops, o.cmd.u ≠ u) → (∀ x ∈ (s.die (dkOf ck)).binds, x.cmd.u ≠ u) →
        (∀ x ∈ (s.die (dkOf ck)).puts, x.u ≠ u) → exec (.copyFailure ck u line) s = .next s)
      ∧ ∀ c, s.findCopy ck u = some c →
        let finish (t : State) : State := match t.findCopy ck u with
          | some d => if t.copyOver ck d = true ∧ ((t.core ck).sent.any fun x => x.cmd.u == u) = false then t.copyDone ck d true else t
          | none => t
        (s.cmdRuns ck c = false → exec (.copyComplete ck u k) s = .next s)
        ∧ (s.cmdRuns ck c = true → c.began = true ∨ s.copyMayBegin ck u = true → c.failed = true →
          exec (.copyComplete ck u k) s = .next (s.copyDone ck c false))
        ∧ (s.cmdRuns ck c = true → c.began = true ∨ s.copyMayBegin ck u = true → c.failed = false →
          let b := s.modCopy ck u fun c => { c with began := true }
          let choice := b.copyChoice ck { c with began := true } k
          (choice = none → exec (.copyComplete ck u k) s = .next (finish b))
          ∧ (∀ t, choice = some (.wait t) → exec (.copyComplete ck u k) s = .next t)
          ∧ (∀ t a, choice = some (.fail t a) →
            exec (.copyComplete ck u k) s = .next (t.copyFail ck ((t.findCopy ck u).getD c) a))
          ∧ ∀ t v, choice = some (.ok t v) → exec (.copyComplete ck u k) s = .next (finish t))
        ∧ ∀ a b, s.copySides ck c = some (a, b) →
          (a.touches line = true ∨ b.touches line = true → c.began = true → s.cmdRuns ck c = true →
            exec (.copyFailure ck u line) s = .next (((s.sramLine line).cmdFault c 3 (line * 128)).copyDone ck c false))
          ∧ (a.touches line = false ∧ b.touches line = false ∨ c.began = false ∨ s.cmdRuns ck c = false →
            exec (.copyFailure ck u line) s = .next s))
    ∧ (∀ mism, s.matHead ck = none ∨ s.powerHolds (pkgOfCore ck) 1 = true → exec (.slabStep ck mism) s = .next s)
    ∧ (∀ k, s.matHead ck = none → exec (.epilogueRowStep ck k) s = .next s)
    ∧ (∀ mism c w, s.powerHolds (pkgOfCore ck) 1 = false → s.matHead ck = some c → c.k = .mma w → s.findMat ck c.u = some c →
      c.began = true → s.gridOf ck c.u = none → (matIm w).k / 32 ≤ c.pos →
      exec (.slabStep ck mism) s = .next (s.matTryFinish ck c.u (mism / 4)))
    ∧ (∀ mism c w x, s.powerHolds (pkgOfCore ck) 1 = false → s.matHead ck = some c → c.k = .mma w → s.findMat ck c.u = some c →
      c.began = true → s.gridOf ck c.u = none → c.pos < (matIm w).k / 32 → s.slabSrc ck c = some x →
      let counted := (s.modMat ck c.u fun c => { c with retried := true }).modCore ck fun x => { x with slabFix := x.slabFix + 1 }
      let goes (t : State) : Prop := exec (.slabStep ck mism) s = .next (t.matTryFinish ck c.u (mism / 4))
      (mism % 4 = 1 → c.retried = false → goes counted)
      ∧ (2 ≤ mism % 4 → c.retried = false → goes (counted.slabFail ck c))
      ∧ (mism % 4 ≠ 0 → c.retried = true → goes (s.slabFail ck c))
      ∧ (mism % 4 = 0 → s.cmdNanTest ck c = false →
        let acc := s.tile ck (s.cmdTile ck c (matIm w).acc)
        let t := s.modMat ck c.u fun y =>
          { y with accs := s.slabAccs false false x c.pos acc c.accs, pos := y.pos + 1, retried := false }
        t.gridOf ck c.u = none → goes t))
    ∧ (∀ u c w, s.findMat ck u = some c → c.k = .mma w →
      let t := s.tile ck (s.cmdTile ck c (matIm w).acc)
      (c.pos < (matIm w).k / 32 → ∀ k, s.matTryFinish ck u k = s)
      ∧ ((matIm w).k / 32 ≤ c.pos →
        (c.wr = [] → s.matTryFinish ck u 0 = (c.accs.foldl (fun s e => s.write (t.loc + 4 * e.1) 4 e.2.toNat) s).matFinish ck c)
        ∧ ∀ k j, c.unitsLeft[k]? = some j →
          s.matTryFinish ck u (k + 1) = if c.unitsLeft.length ≤ 1 then (s.writeAccs ck c t j).matFinish ck c else s.writeAccs ck c t j))
    ∧ (∀ mism c w cl g, s.powerHolds (pkgOfCore ck) 1 = false → s.matHead ck = some c → c.k = .mmac w cl → c.began = true →
      s.findMat ck c.u = some c → s.gridOf ck c.u = some g → g.full = true → g.agrees = false →
      exec (.slabStep ck mism) s = .next (s.gridFail (dkOf ck) g))
    ∧ (∀ dk, dk = dkOf ck →
      let late (g : GridOp) : Bool :=
        (g.mem.any fun m => m.ck == ck) && !g.full && decide (g.since + (s.ctx (pkgOfDie dk) g.ctx).timer ≤ s.clock)
      ((s.die dk).grids.find? late = none → exec (.mmacTimeout ck) s = .next s)
      ∧ ∀ g, (s.die dk).grids.find? late = some g → exec (.mmacTimeout ck) s = .next (s.gridFail dk g))
    ∧ ∀ c w par be dst, s.matHead ck = some c → c.k = .mepi w par be dst → s.obsBlocked c = false →
      let i := epiIm w
      let acc := s.tile ck (s.cmdTile ck c i.acc)
      let out := s.tile ck (s.cmdTile ck c i.out)
      let b := s.modMat ck c.u fun c => { c with began := true }
      let left := c.unread (epiCuts i par acc.cols)
      let p := c.epiPar acc.cols
      let settles (r : Eng) : State := match r with
        | .fail t a => (t.cmdFault c 4 a).epiEnd ck ((t.findMat ck c.u).getD c) i false
        | .wait t | .ok t _ => t
      let runs := (i.glob = true ∧ c.failed = false ∧ c.pos < acc.rows)
        ∨ (i.glob = false ∧ (c.began = true ∨ out.readers = 0) ∧ (c.wr ≠ [] ∨ s.rowWaits ck c out = false))
      (i.glob = true → c.failed = true → ∀ k, exec (.epilogueRowStep ck k) s = .next (s.epiEnd ck c i false))
      ∧ (i.glob = true → c.failed = false → acc.rows ≤ c.pos → ∀ k, exec (.epilogueRowStep ck k) s = .next (s.epiLast ck c i))
      ∧ (i.glob = false → (c.began = false ∧ out.readers ≠ 0) ∨ (c.wr = [] ∧ s.rowWaits ck c out = true) →
        ∀ k, exec (.epilogueRowStep ck k) s = .next s)
      ∧ (runs →
        (∀ a k y, par = some a → left[k]? = some y → exec (.epilogueRowStep ck k) s = .next
          (match b.engRead ck c (a.plus y.1) y.2 with
          | .ok t v => t.modMat ck c.u fun c => { c with got := c.got ++ [(y.1, y.2, v)] }
          | r => settles r))
        ∧ (left = [] → i.draw ≠ 0 →
          ∀ k, exec (.epilogueRowStep ck k) s = .next (settles (b.rowDraw ck c i be acc out p k)))
        ∧ (left = [] → i.draw = 0 →
          let l := if i.glob then b.epiGlobal acc dst c.pos (acc.fmt == 12) i p
            else epiTile out c.pos (acc.fmt == 12) i p (b.accRow acc c.pos)
          ∀ k, exec (.epilogueRowStep ck k) s = .next (settles (b.rowWrite ck c i acc.rows k 0 (l.flatMap RowSpan.cuts))))
        ∧ (acc.clus = false → ∀ k,
          let v := rowPair c (b.cmdNanTest ck c) i be acc c.pos (epiTs (acc.fmt == 12) i p (b.accRow acc c.pos))
          b.rowDraw ck c i be acc out p k =
            b.rowWrite ck c i acc.rows k v.2 (RowSpan.cuts ⟨.loc (out.loc + 8 * c.pos), 8, v.1.toNat⟩))
        ∧ ∀ (l : List RowSpan) k r j t v nan, (l.zipIdx.filter fun x => !(c.wr.any fun e => e.1 == x.2))[k]? = some (r, j) →
          b.engWrite ck c r.at_ r.n r.v = .ok t v →
          let t := t.modMat ck c.u fun c => { c with wr := (j, 1) :: c.wr }
          b.rowWrite ck c i acc.rows k nan l =
            .ok (if (l.zipIdx.filter fun x => !(c.wr.any fun e => e.1 == x.2)).length ≤ 1 then t.rowDone ck c.u i acc.rows nan else t) 0)
    ∧ ∀ (nt batch : Bool) x pos (acc : Tile) old m n, m < acc.rows → n < acc.cols →
      let row := if batch then m / 32 * 32 + n else n
      (batch = true → row < acc.rows) →
      let a := Tab.getOr old (m * acc.cols + n) 0
      let k (j : Nat) : Nat := 32 * pos + j
      let out := Tab.look (s.slabAccs nt batch x pos acc old) (m * acc.cols + n)
      (acc.fmt = 12 → out = some (slabInt a ((List.range 32).map fun j =>
        (toInt (codeWidth x.ta.fmt) true (s.tileGet x.ta m (x.ka + k j)), toInt (codeWidth x.tb.fmt) true (s.tileGet x.tb row (x.kb + k j))))))
      ∧ (acc.fmt ≠ 12 → out = some (slabFp a ((List.range 32).map fun j =>
        ((s.matElem x.ta m (x.ka + k j)).tested nt, (s.matElem x.tb row (x.kb + k j)).tested nt))))

/-! ### Events of the collective engine (R351 to R366) -/

/-- What the collective engine does with a message of the chunk class that has arrived: a failed tag asks for it again; a
duplicate is counted and acknowledged again, one of an older order of the ring is dropped; a chunk whose halves are both there
takes the operation's step and is acknowledged; a token is recorded and acknowledged; an acknowledgement frees its buffer or
ends its firing's chunk; a refusal fails the operation or the firing; a triggered chunk is put into memory part by part and
acknowledged, or refused. Binds and operations that some member does not join in CTX_TIMEOUT fail; a ring edge without a path
re-forms the ring; a port takes at a chunk's boundary the item of the highest priority (R352, R355, R356, R359, R360, R362,
R365, R366). How operations match and what tells chunks apart is log 29, what becomes of the chunks of a pre-empted or
restarted operation log 74. -/
def Obligations.CollectiveEvents : Prop :=
  ∀ s : State,
    (∀ p j k,
      let events : List (Nat × Instr) := [(0, .chunkData p j k), (1, .chunkAcknowledgement p j), (2, .barrierToken p j),
        (3, .chunkRefusal p j), (4, .chunkTriggered p j k)]
      (s.arrived p j .chunk = none → ∀ e ∈ events, exec e.2 s = .next s)
      ∧ ∀ m, s.arrived p j .chunk = some m →
        let dk := dieKey p m.ddie
        let cm := s.comm dk m.comm
        (∀ e ∈ events, (m.kind ≠ e.1 → exec e.2 s = .next s) ∧ (m.kind = e.1 → m.bad = true → exec e.2 s = .next (s.askAgain p m)))
        ∧ (m.bad = false → s.hasAccepted dk m = true →
          ∀ e ∈ events, e.1 = m.kind → e.1 = 0 ∨ e.1 = 2 ∨ e.1 = 4 → exec e.2 s = .next (s.dupChunk dk m true))
        ∧ (m.bad = false → s.hasAccepted dk m = false → ∀ e ∈ events, e.1 = m.kind → e.1 = 0 ∨ e.1 = 2 →
          (cm.st = 0 → exec e.2 s = .next (s.dropMsg m.u))
          ∧ (cm.st ≠ 0 → m.txid ≠ cm.reform → exec e.2 s = .next (s.dupChunk dk m false)))
        ∧ (m.bad = false → m.kind = 0 → s.hasAccepted dk m = false → cm.st ≠ 0 → m.txid = cm.reform →
          (s.collOp dk m.comm m.seq = none →
            exec (.chunkData p j k) s = .next (if m.seq ≤ cm.issued then s.dropMsg m.u else s))
          ∧ ∀ o, s.collOp dk m.comm m.seq = some o →
            (s.sibling p m = none ∨ o.begun = false → exec (.chunkData p j k) s = .next s)
            ∧ ∀ m2, s.sibling p m = some m2 → o.begun = true →
              let lo := if m.half = 0 then m else m2
              let hi := if m.half = 0 then m2 else m
              exec (.chunkData p j k) s = .next
                (match s.collStep dk o m.index m.step k (some (joinHalves m.pres lo.bytes hi.bytes, m.pres)) with
                | .wait t => t
                | .fail t a => (t.acceptChunk dk [m, m2]).collFail dk o a
                | .ok t _ => (t.acceptChunk dk [m, m2]).answerChunk dk m 1))
        ∧ (m.bad = false → m.kind = 2 → s.hasAccepted dk m = false → cm.st ≠ 0 → m.txid = cm.reform →
          (s.collOp dk m.comm m.seq = none ∨ ringPos cm.ring (m.src, m.sdie) = none →
            exec (.barrierToken p j) s = .next (if m.seq ≤ cm.issued then s.dropMsg m.u else s))
          ∧ ∀ o q, s.collOp dk m.comm m.seq = some o → ringPos cm.ring (m.src, m.sdie) = some q →
            exec (.barrierToken p j) s = .next (((s.acceptChunk dk [m]).modOp dk o.cmd.u fun o =>
              { o with tokens := o.tokens ++ [q] }).answerChunk dk m 1))
        ∧ (m.bad = false → m.kind = 1 →
          let b := s.dropMsg j
          let cm := b.comm dk m.comm
          (m.status = 1 → exec (.chunkAcknowledgement p j) s = .next
            (match b.trigOf dk m with | some x => b.trigAck dk x | none => b))
          ∧ (m.status ≠ 1 → ringPos cm.ring (m.src, m.sdie) = none → exec (.chunkAcknowledgement p j) s = .next b)
          -- the operation is over: a token's buffer that it left behind is free again
          ∧ (m.status ≠ 1 → b.collOp dk m.comm m.seq = none → ∀ q, ringPos cm.ring (m.src, m.sdie) = some q →
            exec (.chunkAcknowledgement p j) s = .next (if m.txid = cm.reform then
              b.modComm dk m.comm fun c => { c with lent := c.lent.erase (q, m.seq) } else b))
          ∧ (m.status ≠ 1 → ∀ o q, b.collOp dk m.comm m.seq = some o → ringPos cm.ring (m.src, m.sdie) = some q →
            let t := b.modOp dk o.cmd.u fun o => { o with out := o.out.filter fun x => x != (q, m.index, m.step) }
            exec (.chunkAcknowledgement p j) s = .next
              (if m.txid = cm.reform ∧ o.out.contains (q, m.index, m.step) = true then
                if o.parts.1.op = 6 then t else t.modComm dk m.comm fun c => { c with acked := c.acked + 1 }
              else b)))
        ∧ (m.bad = false → m.kind = 3 →
          let b := s.dropMsg j
          (m.status = 1 → exec (.chunkRefusal p j) s = .next
            (match b.trigOf dk m with | some x => b.trigFail dk x | none => b))
          ∧ (m.status ≠ 1 → exec (.chunkRefusal p j) s = .next
            (match b.collOp dk m.comm m.seq with | some o => b.collEnd dk o 2 0 | none => b)))
        ∧ (m.bad = false → m.kind = 4 → s.hasAccepted dk m = false →
          (s.sibling p m = none → exec (.chunkTriggered p j k) s = .next s)
          ∧ ∀ m2, s.sibling p m = some m2 →
            let lo := if m.half = 0 then m else m2
            let hi := if m.half = 0 then m2 else m
            let gone (t : State) : State := t.modDie dk fun d => { d with puts := d.puts.filter fun c => c.u != lo.u }
            let refused (t : State) : State := (((gone t).dropMsg m.u).dropMsg m2.u).answerChunk dk m 3
            let accepted (t : State) : State := ((gone t).acceptChunk dk [m, m2]).answerChunk dk m 1
            (cm.st = 0 ∨ ringPos cm.ring (m.src, m.sdie) = none → exec (.chunkTriggered p j k) s = .next (refused s))
            ∧ (cm.st ≠ 0 → ringPos cm.ring (m.src, m.sdie) ≠ none → ∀ c, ((s.die dk).puts.find? fun c => c.u == lo.u) = some c →
              let data := (joinHalves m.pres lo.bytes hi.bytes).take m.step
              let left := (putParts m.bind m.line m.step m.pres).filter fun x => !c.wr.contains x
              (left = [] → exec (.chunkTriggered p j k) s = .next (accepted s))
              ∧ ∀ x, left[k]? = some x → exec (.chunkTriggered p j k) s = .next
                (match s.putPart c m.bind m.line data x with
                | .ok t _ => if left.length ≤ 1 then accepted t else t
                | .wait t => t
                | .fail t _ => refused t))))
    ∧ (∀ dk c, (s.bindAt dk c = none → exec (.collBindTimeout dk c) s = .next s)
      ∧ ∀ b, s.bindAt dk c = some b → (∀ x ∈ s.bindGroup dk b, b.since ≤ x.2.since) → b.cmd.ctx < 64 →
        exec (.collBindTimeout dk c) s = .next
          (if b.since + (s.ctx (pkgOfDie dk) b.cmd.ctx).timer ≤ s.clock then s.bindFail dk b 0 else s))
    ∧ (∀ dk c, (∀ o ∈ (s.die dk).ops, o.comm = c → o.begun = true) → exec (.collMatchTimeout dk c) s = .next s)
    ∧ (∀ dk c o rest, ((s.die dk).ops.filter fun o => o.comm == c && !o.begun) = o :: rest → o.cmd.ctx < 64 →
      (∀ m ∈ (s.comm dk c).ring, ∀ x, s.opAt (memberDk m) c o.seq = some x → o.since ≤ x.since) →
      let late := (((s.comm dk c).ring.filter fun m => (s.opAt (memberDk m) c o.seq).isSome).length < (s.comm dk c).ring.length)
        ∧ o.since + (s.ctx (pkgOfDie dk) o.cmd.ctx).timer ≤ s.clock
      (late → exec (.collMatchTimeout dk c) s = .next (s.endAll dk c o.seq 2))
      ∧ (¬late → rest = [] → exec (.collMatchTimeout dk c) s = .next s))
    ∧ (∀ dk c,
      let cm := s.comm dk c
      let n := cm.ring.length
      let at_ (l : List (Nat × Nat)) (k : Nat) : Nat × Nat := l[k % n]?.getD (0, 0)
      let ours := s.edgeOpen c (at_ cm.ring cm.pos) (at_ cm.ring (cm.pos + 1))
      (cm.st = 0 → exec (.ringReform dk c) s = .next s)
      ∧ (cm.st ≠ 0 → ours = true → exec (.ringReform dk c) s = .next
        (if cm.noPath.isSome = true then s.modComm dk c fun c => { c with noPath := none } else s))
      ∧ (cm.st ≠ 0 → ours = false →
        let tries := (List.range (n - 2)).map fun j => swapAt cm.ring ((cm.pos + 1) % n) ((cm.pos + 2 + j) % n)
        let ok (l : List (Nat × Nat)) : Bool := (ringEdges l).all fun x => (ringEdges cm.ring).contains x || s.edgeOpen c x.1 x.2
        let op := (s.liveOps dk c).head?
        (∀ r, tries.find? ok = some r → exec (.ringReform dk c) s = .next (s.reformTo dk c r))
        ∧ (tries.find? ok = none → op = none → exec (.ringReform dk c) s = .next s)
        ∧ (tries.find? ok = none → ∀ o, op = some o →
          (cm.noPath = none → exec (.ringReform dk c) s = .next (s.modComm dk c fun c => { c with noPath := some s.clock }))
          ∧ ∀ t, cm.noPath = some t → exec (.ringReform dk c) s = .next
            (let k := dkOf o.cmd.ck
              if t + (s.ctx (pkgOfDie k) o.cmd.ctx).timer ≤ s.clock then s.collFail k o 0 else s))))
    ∧ ∀ p port k,
      let dks := (List.range 4).map (dieKey p)
      let b := dks.foldl (fun s dk => (s.engineLocal dk k).trigCheck dk) s
      let busy := port < 16 ∧ (b.port p port).inChunk p = true
      (busy → exec (.engineArbitrate p port k) s = .next b)
      ∧ ((∀ dk ∈ dks, ∀ c, c < 16 → (b.comm dk c).st = 0 ∨ b.itemFor dk c port = none) → exec (.engineArbitrate p port k) s = .next b)
      ∧ ∀ dk c x, ¬busy → dk ∈ dks → c < 16 → (b.comm dk c).st ≠ 0 → (b.comm dk c).prio < 4 → b.itemFor dk c port = some x →
        (∀ dk' ∈ dks, ∀ c', c' < 16 → (dk', c') ≠ (dk, c) →
          (b.comm dk' c').st = 0 ∨ b.itemFor dk' c' port = none ∨ (b.comm dk' c').prio < (b.comm dk c).prio) →
        let t := b.sendItem dk c x
        exec (.engineArbitrate p port k) s = .next (if port < 16 then t.modPort p port fun v => { v with arb := (c + 1) % 16 } else t)

/-! ### Coherence (R333 to R343, R345) -/

/-- A request arrives at the home of its line: a failed tag asks for it again, and poisons the line it wrote; a request for a
busy line, or behind others that wait, waits; one that the firewall refuses is answered NakFirewall; on an uncached line GetS
is granted E, or S where the firewall refuses its cell or the line is poisoned, GetM M, GetU U, a Flush is Acked; on a line
that is shared, exclusive, owned or in update the home sends the Inv, FwdGetS, FwdGetM or Collect of R339's row, or answers at
once, and once the answers have come the requester's grant and the directory are the row's, or those of an uncached line where
none held it; a partial combines with memory element by element; a Put of the owner's line is written back; a free line serves
the oldest request that no recall holds back (R328, R338 to R342). Races of Puts are log 43, and the bounds of the directory
log 57. -/
def Obligations.HomeRequests : Prop :=
  ∀ (s : State) (p j : Nat),
    let kinds : List (MsgTy × Instr) := [(.getS, .gets p j), (.getM, .getm p j), (.getU, .getu p j), (.putM, .putm p j),
      (.putO, .puto p j), (.putU, .putu p j), (.flush, .flush p j)]
    (∀ e ∈ kinds, s.arrived p j e.1 = none → exec e.2 s = .next s)
    ∧ (∀ line,
      let d := s.dir line
      exec (.homeDequeueRequest line) s = .next
        (if d.tx.isSome then s else match d.queue.find? fun m => !s.heldBack m with
          | none => s
          | some m => (s.setDir line { d with queue := d.queue.filter fun x => x.u != m.u }).serve m true))
    ∧ (∀ m, ∀ e ∈ kinds, s.arrived p j e.1 = some m → m.bad = true →
      (m.carries = false → exec e.2 s = .next (s.askAgain m.dst m))
      ∧ (m.carries = true → m.part = none → (s.dir m.line).psn = false →
        exec e.2 s = .next ((s.modDir m.line fun d => { d with psn := true }).askAgain m.dst { m with released := true })))
    ∧ (∀ m, ∀ e ∈ kinds, s.arrived p j e.1 = some m → m.bad = false → m.released = false →
      ((s.dropMsg j).dir m.line).tx.isSome = true ∨ ((s.dropMsg j).dir m.line).walked = true →
      let b := (s.dropMsg j).dirEnter m.line
      let d := b.dir m.line
      let h := lineHome m.line
      let a := b.cellOf m.src
      let free := d.tx = none ∧ b.heldBack m = false ∧ ∀ x ∈ d.queue, b.heldBack x = true
      -- a requester that is lost by now ends the transaction at once
      let ends (t : State) : State := match (t.dir m.line).tx with
        | some x => if x.phase = 2 ∧ x.got = true then t.closeTx m.line else t
        | none => t.lineFree m.line
      b.isLost h m.src = false →
      (¬free → exec e.2 s = .next (b.modDir m.line fun d => { d with queue := d.queue ++ [m] }))
      ∧ (free → d.err = 0 → d.st = .uncached →
        let opened := b.modDir m.line fun d => { d with tx := some { k := .req m, phase := 1 } }
        let read := (opened.homeHold m.line).chkHold m.line
        let clear := d.psn = false ∧ b.fwAllows m.src m.line = true
        (m.ty = .getS → clear → exec e.2 s = .next
          (ends (((read.setHolder m.line .excl a 0).sendData h m.src m.line 5 false m.txid).granted m)))
        ∧ (m.ty = .getS → ¬clear → exec e.2 s = .next
          (ends (((read.setHolder m.line .shared 0 (cellBit a)).sendData h m.src m.line 4 d.psn m.txid).granted m)))
        ∧ (m.ty = .getM ∨ m.ty = .getU → b.fwAllows m.src m.line = false →
          exec e.2 s = .next (b.sendMsg .nak h m.src m.src m.line (txid := m.txid)))
        ∧ (m.ty = .getM → b.fwAllows m.src m.line = true → exec e.2 s = .next
          (ends (((read.setHolder m.line .excl a 0).sendData h m.src m.line 6 d.psn m.txid).granted m)))
        ∧ (m.ty = .getU → b.fwAllows m.src m.line = true → exec e.2 s = .next (ends
          (((read.setHolder m.line .update 0 (cellBit a) (some (bindOf m.bind))).sendAck h m.src m.line ackGrant 7 m.txid
            m.bind).granted m)))
        ∧ (m.ty = .flush → m.status ≠ 8 → exec e.2 s = .next
          (ends ((opened.sendAck h m.src m.line ackFlush 0 m.txid).granted m))))
      ∧ (free → d.err = 0 → d.lostIn (b.lostMask h) = 0 →
        let opened := b.modDir m.line fun d => { d with tx := some { k := .req m, phase := 1 } }
        -- the messages go out, and the line stays busy until they have been answered
        let asks (ty : MsgTy) (phase req : Nat) (home : Bool) (l : List Nat) : Prop := exec e.2 s = .next
          ((b.modDir m.line fun d => { d with tx := some { k := .req m, phase := phase, wait := l } }).homeSend ty m.line req home l)
        let others := b.addressed h d.cells (some m.src)
        let owner := b.addressed h (cellBit d.owner) (some m.src)
        let holders := b.addressed h d.cells none
        let gains := (m.ty = .getM ∨ m.ty = .getU) ∧ b.fwAllows m.src m.line = true
        let flushes := m.ty = .flush ∧ m.status ≠ 8
        (d.st = .shared ∨ d.st = .owned → gains → others ≠ [] → asks .inv 0 h false others)
        ∧ (d.st = .shared → m.ty = .getS → exec e.2 s = .next (ends
          (((opened.setHolder m.line .shared 0 (d.cells ||| cellBit a)).sendData h m.src m.line 4 d.psn m.txid).granted m)))
        ∧ (d.st = .shared → flushes → exec e.2 s = .next (ends ((opened.sendAck h m.src m.line ackFlush 0 m.txid).granted m)))
        ∧ (d.st = .excl ∨ d.st = .owned → owner ≠ [] →
          (m.ty = .getS → asks .fwdGetS 1 m.src false owner) ∧ (flushes → asks .fwdGetS 1 h true owner)
          ∧ (gains → d.st = .excl ∨ others = [] →
            (m.ty = .getM → asks .fwdGetM 1 m.src false owner) ∧ (m.ty = .getU → asks .fwdGetM 1 h true owner)))
        ∧ (d.st = .update → d.binds m = true → gains → exec e.2 s = .next (ends
          (((opened.setHolder m.line .update 0 (d.cells ||| cellBit a) d.bind).sendAck h m.src m.line ackGrant 7 m.txid
            m.bind).granted m)))
        ∧ (d.st = .update → d.binds m = false → holders ≠ [] → m.ty = .getS ∨ gains ∨ flushes → asks .collect 1 h true holders))
      ∧ (free →
        let acked (t : State) : State :=
          let t := t.modDir m.line fun d => { d with tx := some { k := .req m } }
          let t := (t.sendAck h m.src m.line ackPut 0 m.txid).granted m
          match (t.dir m.line).tx with
          | some x => if x.got = true then t.closeTx m.line else t
          | none => t
        (m.ty = .putM ∨ m.ty = .putO → b.putStands m = true → d.st = .excl ∨ d.st = .owned → d.owner = a →
          let keep := d.st == .owned && d.cells != 0
          let t := b.setHolder m.line (if keep then .shared else .uncached) 0 (if keep then d.cells else 0)
          let t := t.modDir m.line fun d => { d with err := 0, psn := d.psn || m.status == 8 }
          exec e.2 s = .next (acked ((t.chkHold m.line).homeHold m.line true)))
        ∧ (m.ty = .putM ∨ m.ty = .putO → b.putStands m = false → exec e.2 s = .next (acked b))
        ∧ (m.ty = .putU → d.err = 0 → b.putStands m = true → d.st = .update → d.cells.getLsbD a = true →
          exec e.2 s = .next (acked (b.takePartial m)))))
    -- the answers to a request have come
    ∧ (∀ (m : Msg) (t : Tx),
      let d := s.dir m.line
      let h := lineHome m.line
      let a := s.cellOf m.src
      let share (cells : BitVec 16) : State := (s.setHolder m.line .shared 0 cells).granted m
      let has := d.st = .excl ∨ d.st = .owned
      (d.tx = some t → t.k = .req m → s.endFwd m.line = s.answerReq m t)
      ∧ (m.ty = .getS → has → t.held = false → s.answerReq m t = s.fromMemory m)
      ∧ (m.ty = .getS → d.st = .excl → t.held = true → s.answerReq m t =
        if t.dirty then (s.setHolder m.line .owned d.owner (cellBit a)).granted m else share (cellBit d.owner ||| cellBit a))
      ∧ (m.ty = .getS → d.st = .owned → t.held = true →
        s.answerReq m t = (s.setHolder m.line .owned d.owner (d.cells ||| cellBit a)).granted m)
      ∧ (m.ty = .getM → has → t.got = true → s.answerReq m t = (s.setHolder m.line .excl a 0).granted m)
      ∧ (m.ty = .getM → d.st = .owned → d.owner = a → t.got = false → s.refusedNow m = false → s.answerReq m t =
        ((s.setHolder m.line .excl a 0).sendAck h m.src m.line ackGrant 6 m.txid).granted m)
      ∧ (m.ty = .getM → d.st = .excl ∨ (d.st = .owned ∧ d.owner ≠ a) → t.got = false → s.answerReq m t = s.fromMemory m)
      ∧ (m.ty = .getM → d.st = .shared ∨ d.st = .update → s.answerReq m t = s.fromMemory m)
      ∧ (m.ty = .getU → has ∨ d.st = .shared ∨ (d.st = .update ∧ d.binds m = false) → s.answerReq m t = s.fromMemory m)
      ∧ (m.ty = .getS → d.st = .update → s.answerReq m t = s.fromMemory m)
      ∧ (m.ty = .flush → d.st = .excl →
        s.answerReq m t = (share (cellBit d.owner ||| cellBit a)).sendAck h m.src m.line ackFlush 0 m.txid)
      ∧ (m.ty = .flush → d.st = .owned →
        s.answerReq m t = (share (d.cells ||| cellBit d.owner ||| cellBit a)).sendAck h m.src m.line ackFlush 0 m.txid)
      ∧ (m.ty = .flush → d.st = .update → s.answerReq m t = s.fromMemory m)
      -- as for an uncached line
      ∧ (let read := (s.homeHold m.line).chkHold m.line
        let clear := d.psn = false ∧ s.fwAllows m.src m.line = true
        (m.ty = .getS → clear →
          s.fromMemory m = ((read.setHolder m.line .excl a 0).sendData h m.src m.line 5 false m.txid).granted m)
        ∧ (m.ty = .getS → ¬clear →
          s.fromMemory m = ((read.setHolder m.line .shared 0 (cellBit a)).sendData h m.src m.line 4 d.psn m.txid).granted m)
        ∧ (s.refusedNow m = false →
          (m.ty = .getM → s.fromMemory m = ((read.setHolder m.line .excl a 0).sendData h m.src m.line 6 d.psn m.txid).granted m)
          ∧ (m.ty = .getU → s.fromMemory m = ((read.setHolder m.line .update 0 (cellBit a) (some (bindOf m.bind))).sendAck h m.src
            m.line ackGrant 7 m.txid m.bind).granted m))
        ∧ (m.ty = .flush → s.fromMemory m = ((read.setHolder m.line .uncached 0 0).sendAck h m.src m.line ackFlush 0 m.txid).granted m)))
    -- a partial joins memory
    ∧ ∀ (line : Nat) (q : Part),
      let n := q.bind.bits / 8
      (∀ k, k < 128 / n → (s.combineLine line q).read (line * 128 + k * n) n
        = q.bind.combine (s.read (line * 128 + k * n) n) (q.at (k * n)) % 256 ^ n)
      ∧ ∀ y, y < line * 128 ∨ line * 128 + 128 ≤ y → (s.combineLine line q).byte y = s.byte y

/-- A package answers its homes by the state in which it holds the line: Inv takes a shared or exclusive copy, FwdGetS leaves
the line shared or owned, FwdGetM takes it, Collect takes the partial, and a package that does not hold the line says so; a
line of which a store has still to write a part stays until then; Data and grants install their state and end the request, and
the verdict of a tag settles what was used before it; a refusal, an ErrSynth and an expired timer fail the access; an eviction
writes M, O and U back; a line or an entry leaves the home's and the directory's cache, and an error that it shows there is
recorded, corrected, or leaves the line poisoned (R265, R327, R328, R335 to R337, R339 to R341, R343, R345, R411, R414, R415).
The roles of an Ack are log 42, and bytes released before a message's end log 56. -/
def Obligations.AgentAnswers : Prop :=
  ∀ (s : State) (p j : Nat),
    let fromHome : List (MsgTy × Instr) := [(.inv, .inv p j), (.fwdGetS, .fwdgets p j), (.fwdGetM, .fwdgetm p j),
      (.collect, .collect p j), (.nak, .nakfirewall p j), (.err, .errsynth p j)]
    let kinds := (.ack, .ack p j) :: fromHome
    (∀ e ∈ (.data, .data p j) :: kinds, s.arrived p j e.1 = none → exec e.2 s = .next s)
    ∧ (∀ m, ∀ e ∈ kinds, s.arrived p j e.1 = some m → m.bad = true → exec e.2 s = .next (s.askAgain p m))
    ∧ (∀ m, ∀ e ∈ fromHome, s.arrived p j e.1 = some m → m.bad = false → s.pinned p m.line = true → exec e.2 s = .next s)
    ∧ (∀ m, m.bad = false → s.pinned p m.line = false →
      let b := s.dropMsg j
      let a := b.aline p m.line
      let tells (t : State) (k : Nat) : Host.Outcome State Fault Refusal := .next (t.sendAck p m.src m.line ackAnswer k)
      let has := a.holds
      let keeps (st : LineSt) : State := b.setALine p m.line (a.become st)
      let gone := (b.setALine p m.line (a.become .I)).dropL1 p m.line
      (s.arrived p j .inv = some m → (a.st = .S ∨ a.st = .E → exec (.inv p j) s = tells gone 0)
        ∧ (a.st ≠ .S → a.st ≠ .E → exec (.inv p j) s = tells b 1))
      ∧ (s.arrived p j .fwdGetS = some m →
        (has = .I ∨ has = .S ∨ has = .U → exec (.fwdgets p j) s = tells b 1)
        ∧ (has = .E → m.kind ≠ 1 → exec (.fwdgets p j) s = tells ((keeps .S).sendData p m.req m.line 4 a.psn 0) 2)
        ∧ (has = .M ∨ has = .O → m.kind ≠ 1 → exec (.fwdgets p j) s = tells ((keeps .O).sendData p m.req m.line 4 a.psn 0) 3)
        ∧ (has = .E ∨ has = .M ∨ has = .O → m.kind = 1 → exec (.fwdgets p j) s = .next ((keeps .S).lineToHome p m.line a.psn none)))
      ∧ (s.arrived p j .fwdGetM = some m →
        (has = .I ∨ has = .S ∨ has = .U → exec (.fwdgetm p j) s = tells b 1)
        ∧ (has = .E ∨ has = .M ∨ has = .O → exec (.fwdgetm p j) s = .next
          (if m.kind = 1 then gone.lineToHome p m.line a.psn none else gone.sendData p m.req m.line 6 a.psn 0)))
      ∧ (s.arrived p j .collect = some m →
        (has ≠ .U → exec (.collect p j) s = tells b 1)
        ∧ ∀ q, has = .U → (if a.put.isSome then a.putPart else a.part) = some q →
          exec (.collect p j) s = .next (gone.lineToHome p m.line false (some q)))
      ∧ (s.arrived p j .nak = some m → exec (.nakfirewall p j) s = .next
        (match a.req with
        | some u => ((b.requestEnds p m.line).modALine p m.line fun a => { a with pref := [] }).failName p u 0x0A m.line
        | none => b))
      ∧ (s.arrived p j .err = some m →
        let t := b.modALine p m.line fun a => { a with put := none, putPart := none, flushing := none, psn := a.psn && a.st != .I }
        let t := match a.flushing with | some u => t.failName p u 0x0C m.line | none => t
        exec (.errsynth p j) s = .next (match a.req with | some u => (t.requestEnds p m.line).failName p u 0x0C m.line | none => t)))
    ∧ (∀ m, m.bad = false → s.arrived p j .ack = some m →
      let b := s.dropMsg j
      (m.status = 9 ∨ m.status = 10 → exec (.ack p j) s = .next (b.resend m.txid))
      ∧ (m.status ≠ 9 → m.status ≠ 10 →
        (m.kind = ackAnswer → exec (.ack p j) s = .next (b.answered m.line m.src fun t =>
          { t with held := t.held || m.status == 2 || m.status == 3, dirty := t.dirty || m.status == 3 }))
        ∧ (m.kind = ackData → ∀ t r, (b.dir m.line).tx = some t → t.k = .req r → exec (.ack p j) s = .next
          (if r.src = m.src then (b.modTx m.line fun t => { t with got := true }).advance m.line else b))
        ∧ (m.kind = ackPut → exec (.ack p j) s = .next
          (let a := b.aline p m.line
            let t := b.modALine p m.line fun a => { a with put := none, putPart := none, putBy := none, psn := a.psn && a.st != .I }
            let t := match a.putBy with | some u => t.lateAnswer p u | none => t
            (t.askPref p m.line).endFor m.line p))
        ∧ (m.kind = ackGrant → exec (.ack p j) s = .next (((b.modALine p m.line fun a =>
          { a with st := if m.status = 6 then .M else .U, part := if m.status = 6 then none else some (Part.new (bindOf m.bind)) }).requestEnds
            p m.line).endFor m.line p))
        ∧ (m.kind = ackFlush → exec (.ack p j) s = .next ((b.flushEnds p m.line).endFor m.line p))))
    ∧ (∀ m, s.arrived p j .data = some m →
      let a := s.aline p m.line
      let st : LineSt := if m.seq = 4 then .S else if m.seq = 5 then .E else .M
      let took (unver : Option Nat) : State := (s.modALine p m.line fun a =>
        { a with st := st, psn := m.status == 8, unver := unver, part := none, upto := 128, rel := [] }).prefDone p m.line
      let ends (t : State) : State := ((t.dropMsg j).requestEnds p m.line).sendAck p (lineHome m.line) m.line ackData 0
      (m.seq = 0 → m.bad = false → m.released = false → m.part = none → exec (.data p j) s = .next
        (((s.dropMsg j).takePoison m).answered m.line m.src fun t => { t with held := true }))
      ∧ (m.seq = 0 → m.bad = false → m.released = false → ∀ q t, m.part = some q → ((s.dropMsg j).dir m.line).tx = some t →
        (∀ r, t.k ≠ .repair r) → exec (.data p j) s = .next
          (((((s.dropMsg j).combineLine m.line q).chkHold m.line).homeHold m.line true).answered m.line m.src fun t =>
            { t with held := true, part := true }))
      ∧ (m.seq ≠ 0 → a.req.isSome = true → a.unver = none →
        (m.src = p → exec (.data p j) s = .next (ends (took none)))
        ∧ (m.src ≠ p → m.released = false → exec (.data p j) s = .next (took (some m.org)))
        ∧ (m.src ≠ p → m.released = true → exec (.data p j) s = .next
          (if m.bad = true then s.askAgain p m else ends (s.modALine p m.line fun a => { a with psn := m.status == 8 }))))
      ∧ (m.seq ≠ 0 → m.src ≠ p → a.unver = some m.org →
        let judged := ((s.setALine p m.line { a with unver := none, upto := 128, rel := [] }).prefDone p m.line).verdict p m.org (!m.bad)
        exec (.data p j) s = .next (if m.bad = true then
          (judged.modALine p m.line fun a => { a with psn := true }).askAgain p { m with released := true } else ends judged)))
    ∧ (∀ line,
      let a := s.aline p line
      let h := lineHome line
      let free := a.put = none ∧ a.flushing = none ∧ a.req = none ∧ a.unver = none ∧ s.pinned p line = false
      let b := s.dropL1 p line
      let out (ty : MsgTy) (st : LineSt) : State :=
        (b.setALine p line { a with st := .I, put := some st, putBy := none }).sendMsg ty p h p line
        (status := if a.psn then 8 else 0) (carries := true)
      (¬free → exec (.cacheEviction p line .agent .none) s = .next s)
      ∧ (free → (a.st = .I → exec (.cacheEviction p line .agent .none) s = .next b)
        ∧ (a.st = .S ∨ a.st = .E → exec (.cacheEviction p line .agent .none) s = .next (b.setALine p line { a with st := .I, psn := false, putBy := none }))
        ∧ (a.st = .M → exec (.cacheEviction p line .agent .none) s = .next (out .putM .M))
        ∧ (a.st = .O → exec (.cacheEviction p line .agent .none) s = .next (out .putO .O))
        ∧ (∀ q, a.st = .U → a.part = some q → exec (.cacheEviction p line .agent .none) s = .next
          ((b.setALine p line { a with st := .I, put := some .U, part := none, putPart := some q, putBy := none }).sendMsg .putU p h p line
            (carries := true) (part := some q) (bind := q.bind.code)))))
    -- the home's cache and the directory's
    ∧ (∀ line, lineHome line = p →
      let d := s.dir line
      let k := s.pkg p
      let unit := unitId 8 p (dieOfLine line) 0 0
      let held := k.hcache.find? fun x => x.1 == line
      let out := s.modPkg p fun k => { k with hcache := k.hcache.filter fun x => x.1 != line }
      (held = none → ∀ ecc, exec (.cacheEviction p line .home ecc) s = .next s)
      ∧ (∀ dirty, held = some (line, dirty) →
        exec (.cacheEviction p line .home .none) s = .next out
        ∧ exec (.cacheEviction p line .home .fixed) s = .next (s.errRecord p 1 0x05 unit 0 (line * 128) [line % 2 ^ 19])
        ∧ exec (.cacheEviction p line .home .lost) s = .next
          (if dirty then (out.errRecord p 2 0x09 unit 0 (line * 128) []).homeSpoil line
          else out.errRecord p 1 0x05 unit 0 (line * 128) [line % 2 ^ 19]))
      ∧ (k.dcache.contains line = false → ∀ ecc, exec (.cacheEviction p line .dir ecc) s = .next s)
      ∧ (k.dcache.contains line = true →
        let lost := s.errRecord p 2 0x06 unit 0 (line * 128) [line % 65536]
        exec (.cacheEviction p line .dir .none) s = .next (if d.tx.isSome = true ∨ d.st = .update then s else s.dirLeave line)
        ∧ exec (.cacheEviction p line .dir .fixed) s = .next (s.errRecord p 1 0x06 unit 0 (line * 128) [line % 65536])
        ∧ exec (.cacheEviction p line .dir .lost) s = .next
          (if d.tx.isSome then lost.modDir line fun d => { d with psn := true } else lost.openTx line .wipe true))
      ∧ (s.homeSpoil line = if d.st = .excl ∨ d.st = .owned then s else if d.tx.isSome then s.modDir line fun d => { d with psn := true }
        else if d.st = .uncached then s.poisonHome line else s.openTx line .lost))
    ∧ (∀ line q, lineHome line ≠ q → ∀ ecc, exec (.cacheEviction q line .home ecc) s = .next s
      ∧ exec (.cacheEviction q line .dir ecc) s = .next s)
    ∧ ∀ u, (s.timerOf p u = none → exec (.requestTimeout p u) s = .next s)
      ∧ ∀ c n line, s.timerOf p u = some (c, n, line) →
        (s.clock < n + (s.ctx p c).timer → exec (.requestTimeout p u) s = .next s)
        ∧ (n + (s.ctx p c).timer ≤ s.clock → exec (.requestTimeout p u) s = .next
          (match line with
          | some l => (s.modPkg p fun k => { k with timedOut := k.timedOut ++ [u] }).failName p u 0x0B l
          | none => s.failName p u 0x0B 0))

/-! ### Links (R317 to R324, R332, R344, R345, R417, R427) -/

/-- What each event of a port does: a flit is checked as the kind its CTL bit, as received, says, against that kind's seed, so
that one whose wrong bits make it the other kind is taken as that kind; a data flit is accepted in order, its bytes of a line
released as they come, or charged, NAKed once and discarded; one for an isolated port is dropped; a control flit that fails
its check is counted and dropped; acknowledgements free flits and let waiting messages go, a NAK and 2,048 silent cycles go
back, credits are restored, an ACK is sent after 256 cycles; lanes move to the spare, ports go down and up at both ends;
tokens accrue to the burst; probes are answered or passed on; a package silent for 100 µs is lost with its cell, and a notice
is accepted (R317, R318, R320 to R324, R326, R327, R344, R345, R427). Both ends of a link act in one step (log 46), control
flits are compared as their 128 bytes (log 27), and probes and notices are log 44. -/
def Obligations.LinkEvents : Prop :=
  ∀ (s : State) (p k : Nat),
    let v := s.port p k
    let ctl (err : BitVec 1024) : List (Nat × Instr) := [(1, .linkAck p k err), (2, .linkNak p k err), (3, .creditFlit p k err),
      (4, .lossNotice p k err), (5, .probe p k err), (6, .probeReply p k err)]
    (v.up = false → (∀ err, ∀ e ∈ ctl err, exec e.2 s = .next s) ∧ exec (.ackTimer p k) s = .next s
      ∧ exec (.retryTimeout p k) s = .next s ∧ exec (.portDown p k) s = .next s ∧ ∀ l, exec (.laneSpare p k l) s = .next s)
    ∧ (∀ err b, ∀ e ∈ ctl err, e.1 ≠ 5 → s.takeCtl p k e.1 err = (none, b) → exec e.2 s = .next b)
    ∧ (∀ q i c err, s.peer p k = some (q, i) → v.up = true → (s.port q i).ctl = [c] →
      let l := flitBytes (c.bits ^^^ err)
      let b := s.modPort q i fun v => { v with ctl := [] }
      (if (ofLeBytes (l.take 4)).testBit 3 then ctlOk l else flitOk l (b.port p k).expect) = false →
      ∀ e ∈ ctl err, e.1 = c.kind → e.1 ≠ 5 → exec e.2 s = .next
          (let w := b.port p k
           let n := if (ofLeBytes (l.take 4)).testBit 3 then b
             else b.setPort p k (if w.naked then w else { w.ctlOut 2 w.expect 0 with naked := true })
           n.flitCounted p k err))
    ∧ (∀ q i f rest err, s.peer p k = some (q, i) → (s.port q i).wire = f :: rest →
      let b := s.modPort q i fun v => { v with wire := rest }
      let l := flitBytes (f.bits ^^^ err)
      let hdr := ofLeBytes (l.take 4)
      let w := (b.port p k).take b.clock l (hdr % 8)
      let all := w.payload (hdr % 8)
      ((b.port p k).isolated = true → exec (.dataFlit p k err) s = .next (b.flitDropped p f))
      ∧ ((b.port p k).isolated = false → (b.port p k).up = false → exec (.dataFlit p k err) s = .next b)
      ∧ ((b.port p k).isolated = false → (b.port p k).up = true →
        (hdr.testBit 3 = false →
          (flitOk l (b.port p k).expect = false → exec (.dataFlit p k err) s = .next
            ((b.setPort p k (if (b.port p k).naked then b.port p k
              else { (b.port p k).ctlOut 2 (b.port p k).expect 0 with naked := true })).flitCounted p k err))
          ∧ (flitOk l (b.port p k).expect = true →
            (field hdr 9 5 ≠ 0 → exec (.dataFlit p k err) s = .next
              (let t := (b.setPort p k w).pump p k; if hdr.testBit 4 then t.firstFlit p f.msg all else t))
            ∧ (field hdr 9 5 = 0 → exec (.dataFlit p k err) s = .next
              (((b.setPort p k (w.setPayload (hdr % 8) [])).pump p k).received p k f.msg all))))
        ∧ (hdr.testBit 3 = true →
          (ctlOk l = false → exec (.dataFlit p k err) s = .next (b.flitCounted p k err))
          ∧ (ctlOk l = true → exec (.dataFlit p k err) s = .next
            (if field hdr 7 4 = 0 then b
             else b.modPort q i fun v => { v with ctl := ⟨BitVec.ofNat 1024 (ofLeBytes l), 0⟩ :: v.ctl })))))
    ∧ (∀ err c b, s.takeCtl p k 1 err = (some c, b) → exec (.linkAck p k err) s = .next ((List.range 16).foldl (fun s r => s.routeWaiting r)
      ((b.modPort p k fun v => v.ackTo c.seq b.clock).pump p k)))
    ∧ (∀ err c b, s.takeCtl p k 2 err = (some c, b) →
      exec (.linkNak p k err) s = .next ((b.modPort p k fun v => v.ackTo c.seq b.clock).goBack p k))
    ∧ (∀ err c b, s.takeCtl p k 3 err = (some c, b) → exec (.creditFlit p k err) s = .next ((b.modPort p k fun v =>
      (List.range 8).foldl (fun v i => v.addCredit i (c.pay / 2 ^ (16 * i) % 65536)) v).pump p k))
    ∧ (v.up = true → exec (.ackTimer p k) s = .next (if v.ackT + 256 ≤ s.clock then s.setPort p k (v.ackOut s.clock) else s))
    ∧ (v.up = true → v.retry ≠ [] → exec (.retryTimeout p k) s = .next
      (if v.oldest + 2048 ≤ s.clock then
        let w := v.goBack s.clock
        let w := w.bumpReplay (w.worstLane 0)
        if 8 ≤ w.replays then (s.setPort p k w).linkDown p k else (s.setPort p k w).pump p k
      else s))
    ∧ (v.up = true → (∀ l, exec (.laneSpare p k l) s = .next (s.spareLane p k l)) ∧ exec (.portDown p k) s = .next (s.linkDown p k))
    ∧ (∀ q i, s.peer p k = some (q, i) →
      ((s.pkg p).booted = false ∨ (s.pkg q).booted = false → exec (.portUp p k) s = .next s)
      ∧ ((s.pkg p).booted = true → (s.pkg q).booted = true → exec (.portUp p k) s = .next (s.linkUp p k)))
    ∧ (∀ l hor ver, exec (.laneEyeMeasure p k l hor ver) s = .next
      ((s.modPort p k fun v => v.setEye l (hor.setWidth 16 ||| (ver.setWidth 16 <<< 8))).laneAlarm p k l true))
    ∧ exec (.tokenAccrual p k) s = .next
      ((s.setPort p k { v with tokens := min (v.tokens + v.rate) (256 * v.burst) }).pump p k)
    ∧ (∀ err c b, s.takeCtl p k 5 err = (some c, b) → exec (.probe p k err) s = .next
      (if c.far = p then b.modPort p k fun v => v.ctlOut 6 0 (c.pay % 256) c.far else b.probeOn p c.far 5 c))
    ∧ (∀ err b r i, s.takeCtl p k 5 err = (none, b) → b.peer p k = some (r, i) → (b.port p k).up = true →
      let t := b.modPort p k fun v => { v with probeT := b.clock }
      exec (.probe p k err) s = .next ((t.probed p r).foldl (fun s q => s.modPort p k fun v => v.ctlOut 5 0 p q) t))
    ∧ (∀ err c b, s.takeCtl p k 6 err = (some c, b) →
      (c.pay % 16 ≠ p → exec (.probeReply p k err) s = .next (b.probeOn p (c.pay % 16) 6 c))
      ∧ (c.pay % 16 = p → exec (.probeReply p k err) s = .next
        (if (b.path p c.far).silent.isSome then b.setPath p c.far { (b.path p c.far) with silent := some b.clock } else b)))
    ∧ (∀ err c b, s.takeCtl p k 4 err = (some c, b) → exec (.lossNotice p k err) s = .next (b.acceptLoss p (c.pay % 256)))
    ∧ ∀ q, exec (.lossDeclare p q) s = .next
      (match (s.path p q).silent with
      | some t => if (s.pkg p).booted ∧ s.direct p q = false ∧ t + 100 * cyclesPerUs ≤ s.clock then s.acceptLoss p (s.cellOf q) else s
      | none => s)

/-! ### The package and its host (R11 to R18, R397, R406, R412, R418, R421 to R429) -/

/-- Events of a package: bring-up after a reset, heat and power, a scrub that finds a line in error, a channel spared, a
self-test's result, the compare at the end of a pair's region (R397, R406, R412, R418, R419, R421, R428, R429). What flash
holds is log 51, what memory keeps over a reset log 53, and how heat and power act log 47. -/
def Obligations.PackageEvents : Prop :=
  ∀ s : State,
    (∀ p,
      let b := s.clearPackage p
      let k := b.pkg p
      let passes := ∃ owner command, (k.conf.rec? 1).map CfgRec.body = some (.root owner command)
        ∧ Config.verify Config.rhavonKey (Config.sha3 k.conf.image) k.conf.imageSig = true
        ∧ ∀ r ∈ k.conf.recs, k.version r.body.ty ≤ r.version ∧ Config.verify owner (Config.sha3 r.block) r.sig = true
      (16 ≤ p → exec (.packageReset p) s = .next s)
      ∧ (p < 16 → passes → exec (.packageReset p) s = .next (b.bringUp p))
      ∧ (p < 16 → ¬passes → exec (.packageReset p) s = .next (b.modPkg p fun k => { k with recovery := true })))
    ∧ (∀ p mW,
      -- the samples of the last millisecond, one every 10 µs; slab steps are delayed first, and then picks (log 92)
      let l := (mW :: (s.pkg p).power).take 100
      exec (.powerSample p mW) s = .next (s.modPkg p fun k =>
        { k with power := l, clamp := if 100 * 2400000 < l.sum then min 2 (k.clamp + 1) else 0 }))
    ∧ (∀ dk n, exec (.thermalThrottle dk n) s = .next (if 1050 < n then s.modDie dk fun d => { d with halved := true } else s)
      ∧ (950 ≤ n → exec (.thermalRecover dk n) s = .next s)
      ∧ (n < 950 → ∃ t : State, exec (.thermalRecover dk n) s = .next t ∧ t.threads = s.threads ∧ t.mem = s.mem
        ∧ ∀ i < 4, (t.die (dieKey (pkgOfDie dk) i)).halved = false)
      ∧ exec (.thermalReset dk n) s = .next
        (if n < 1150 ∨ 16 ≤ pkgOfDie dk then s
        else
          -- the source that the record names is free (log 75)
          let x := s.freeVal
          (x.2.errRecord (pkgOfDie dk) 6 (x.1.toNat % 256) (unitId 8 (pkgOfDie dk) 0 0 0) 0 0 []).resetPackage (pkgOfDie dk)))
    ∧ (∀ (line : Nat) (err : BitVec 1088),
      let h := lineHome line
      let d := s.dir line
      -- with the check line cached, the check bits that turn are those of the cache, and one wrong bit is corrected there (log 70)
      let held := s.chkHeld line
      let b := s.setDir line { d with err := d.err ^^^ if held then dataErr err else err }
      let b := if held = true ∧ 1 < wrongBits (chkErr err) then b.chkRecompute line else b
      (d.psn = true → exec (.memoryScrub line err) s = .next s)
      ∧ (h < 16 → (s.pkg h).booted = true → backed (line * 128 % 2 ^ 48) = true → isAperture (line * 128) = false → d.psn = false →
        (d.tx.isSome = true ∨ (b.dir line).err = 0 → exec (.memoryScrub line err) s = .next b)
        ∧ (d.tx = none → (b.dir line).err ≠ 0 →
          (b.correctable line = true → exec (.memoryScrub line err) s = .next (b.correctLine line))
          ∧ (b.correctable line = false → exec (.memoryScrub line err) s = .next
            (b.repairLine line none ((b.pkg h).dcache.contains line))))))
    ∧ (∀ p mc ch, mc < 96 → ch < 16 →
      let k := s.pkg p
      let chan := mc * 16 + ch
      let used := (k.spared.filter fun e => e.1 / 128 == chan / 128).map (·.2)
      let due := field (s.memThr p mc).toNat 47 32 ≤ s.chanFixed p chan ∧ Tab.look k.spared chan = none
      (¬due ∨ (∀ n < 8, n ∈ used) → exec (.channelSpared p mc ch) s = .next s)
      ∧ ∀ n, due → n < 8 → n ∉ used → (∀ m < n, m ∈ used) → exec (.channelSpared p mc ch) s = .next
        ((s.setPkg p { k with spared := Tab.put k.spared chan n }).errRecord p 4 0x17 (unitId 7 p (mc / 24) (mc % 24) (ch * 256)) 0 0 [0, 0, n]))
    ∧ (∀ p j sf af det, ((s.pkg p).tests.find? fun t => t.1 == j) = none → exec (.selftestResult p j sf af det) s = .next s)
    ∧ (∀ p j (det : BitVec 64) die phys, ((s.pkg p).tests.find? fun t => t.1 == j) = some (j, die, phys, 3) →
      let dk := dieKey p die
      let b := s.modPkg p fun k => { k with tests := k.tests.filter fun t => t.1 != j }
      ∀ fails : Bool,
        let t := (b.modDie dk fun d =>
          { d with testing := d.testing.filter (· != phys),
                   failed := if fails then phys :: d.failed.filter (· != phys) else d.failed.filter (· != phys),
                   fencedAt := if fails then d.fencedAt else Tab.cut (Tab.cut d.fencedAt (2 * phys)) (2 * phys + 1) }).errRecord p 5 0x11
            (unitId 0 p die phys 0) 0 0 [if fails then 1 + det.toNat / 256 * 256 else 0]
        exec (.selftestResult p j fails false det) s = .next
          (match t.threads.find? fun e => e.2.opW == some (OpW.test dk phys) with
          | some (tk, _) => t.sysDone tk (if fails then 1 else 0)
          | none => t))
    ∧ ∀ tk, ((s.thr tk).pair = none → exec (.regionCompare tk) s = .next s)
      ∧ ∀ pt pl, (s.thr tk).pair = some pt → (s.thr pt.partner).pair = some pl →
        let alone := s.faultsAlone tk = true ∨ s.faultsAlone pt.partner = true
        (pt.trail = false ∨ (¬alone ∧ (pt.ended ≤ pt.matched ∨ pl.ended ≤ pl.matched)) → exec (.regionCompare tk) s = .next s)
        ∧ (pt.trail = true → alone → exec (.regionCompare tk) s = .next
          (s.pairMismatch pt.partner tk (regionSig pl.sig (s.thr tk).region) (regionSig pt.sig (s.thr tk).region)))
        ∧ (pt.trail = true → ¬alone → pt.matched < pt.ended → pl.matched < pl.ended →
          s.regionCmds pt.partner tk (s.thr tk).region = [] → exec (.regionCompare tk) s = .next
            ((s.laterRegion pt.partner tk (s.thr tk).region).pairCompare tk))

/-- What the host does: it reads and writes the window of a package, with atomics on 8 aligned bytes outside the control page,
in the order of its queue pair; a frame marked for congestion is notified; an answer's frames pass the port's filter or are
counted; it writes the page's registers, asks for a report, whose 4,867 bytes are written before its status, and submits
commands, of which the controller checks the layout, the signature, the counter and the body, in this order (R11 to R13, R16
to R18, R421, R423, R425 to R427). When an answer is marked for congestion is open (log 93). Waiting and partial writes are
log 48. -/
def Obligations.HostEvents : Prop :=
  ∀ (s : State) (p qp : Nat),
    let k := s.pkg p
    let opened := p < 16 ∧ qp < 4096 ∧ (k.booted = true ∨ (k.recovery = true ∧ (Tab.getOr k.qps qp {}).port = 0))
    let ops (ce : Bool) (off n : Nat) (data : List Byte) (x y : BitVec 64) : List (HostOp × Instr) :=
      [(.write off data, .rdmaWrite p qp off data ce), (.read off n, .rdmaRead p qp off n ce),
       (.fetchAdd off x, .fetchAdd p qp off x ce), (.compareSwap off x y, .compareSwap p qp off x y ce),
       (.invalid, .invalidRequest p qp ce)]
    let page (ce : Bool) (off : Nat) (data : List Byte) (v : BitVec 64) : List (Nat × List Byte × Instr) :=
      [(off, data, .controlPageWrite p ⟨qp, ce⟩ off data), (0x40, leBytes 8 v.toNat, .featLockWrite p ⟨qp, ce⟩ v),
       (0xA8, leBytes 8 v.toNat, .attGo p ⟨qp, ce⟩ v)]
    (∀ ce off n data x y,
      let b := if ce then s.answer p qp answerCnp [] else s
      (¬opened → (∀ e ∈ ops ce off n data x y, exec e.2 s = .next s) ∧ (∀ e ∈ page ce off data x, exec e.2.2 s = .next s)
        ∧ exec (.featTakeWrite p ⟨qp, ce⟩ off data) s = .next s)
      ∧ (opened → b.hostBehind p qp = true → (∀ e ∈ ops ce off n data x y, exec e.2 s = .next (b.hostWait p qp e.1))
        ∧ ∀ e ∈ page ce off data x, exec e.2.2 s = .next (b.hostWait p qp (.page e.1 e.2.1)))
      ∧ (opened → b.hostBehind p qp = false → exec (.invalidRequest p qp ce) s = .next (b.answer p qp nakInvalid [])))
    ∧ (∀ ce,
      let b := if ce then s.answer p qp answerCnp [] else s
      let size := (b.pkg p).hostSize
      opened → b.hostBehind p qp = false → (b.pkg p).recovery = false →
      let answers (ev : Instr) (t : State) (kind : Nat) (l : List Byte) : Prop := exec ev s = .next (t.answer p qp kind l)
      (∀ off data,
        (size < off + data.length → answers (.rdmaWrite p qp off data ce) b nakAccess [])
        ∧ (off + data.length ≤ size →
          (∀ t, b.readyLines p (windowLines off data.length) = (none, t) →
            exec (.rdmaWrite p qp off data ce) s = .next (t.hostWait p qp (.write off data)))
          ∧ ∀ t bad r, b.readyLines p (windowLines off data.length) = (some (t, bad), r) →
            answers (.rdmaWrite p qp off data ce) ((windowLines off data.length).foldl (fun s c =>
              if bad.contains c.1 then s else s.writeBytes (s.windowPa p c.1) ((data.drop (c.1 - off)).take c.2))
                (if off < pageSize then t.pageWrite p off (data.take (pageSize - off)) else t))
              (if bad.isEmpty then 0 else nakOperational) []))
      ∧ (∀ off n,
        (size < off + n → answers (.rdmaRead p qp off n ce) b nakAccess [])
        ∧ (off + n ≤ size →
          (∀ t, b.readyLines p (windowLines off n) = (none, t) →
            exec (.rdmaRead p qp off n ce) s = .next (t.hostWait p qp (.read off n)))
          ∧ ∀ t r, b.readyLines p (windowLines off n) = (some (t, []), r) →
            let l := (List.range n).map fun i => t.windowByte p (off + i)
            exec (.rdmaRead p qp off n ce) s = .next (t.answerRead p qp l)
              ∧ (0 < n → n ≤ (Tab.getOr (t.pkg p).qps qp {}).pathMtu → answers (.rdmaRead p qp off n ce) t 1 l)))
      ∧ (∀ off data v,
        (∀ e ∈ page ce off data v, exec e.2.2 s = .next
          (if e.1 + e.2.1.length ≤ min pageSize size then (b.pageWrite p e.1 e.2.1).answer p qp 0 [] else b.answer p qp nakAccess []))
        ∧ exec (.featTakeWrite p ⟨qp, ce⟩ off data) s = .next
          (if off + data.length ≤ 32 ∧ 0x20 + off + data.length ≤ size then (b.pageWrite p (0x20 + off) data).answer p qp 0 []
          else b.answer p qp nakAccess []))
      ∧ ∀ off (x y : BitVec 64),
        (off % 8 ≠ 0 → answers (.fetchAdd p qp off x ce) b nakInvalid [] ∧ answers (.compareSwap p qp off x y ce) b nakInvalid [])
        ∧ (off % 8 = 0 → size < off + 8 ∨ off < pageSize →
          answers (.fetchAdd p qp off x ce) b nakAccess [] ∧ answers (.compareSwap p qp off x y ce) b nakAccess [])
        ∧ (off % 8 = 0 → off + 8 ≤ size → pageSize ≤ off →
          let pa := b.windowPa p off
          (∀ t, b.hostLine p pa = .busy t →
            exec (.fetchAdd p qp off x ce) s = .next (t.hostWait p qp (.fetchAdd off x))
            ∧ exec (.compareSwap p qp off x y ce) s = .next (t.hostWait p qp (.compareSwap off x y)))
          ∧ (∀ t, b.hostLine p pa = .poisoned t →
            answers (.fetchAdd p qp off x ce) t nakOperational [] ∧ answers (.compareSwap p qp off x y ce) t nakOperational [])
          ∧ ∀ t, b.hostLine p pa = .ready t →
            let old : Word := BitVec.ofNat 64 (t.read pa 8)
            answers (.fetchAdd p qp off x ce) (t.write pa 8 (old + x).toNat) 2 (leBytes 8 old.toNat)
            ∧ answers (.compareSwap p qp off x y ce) (t.write pa 8 (if old = x then y else old).toNat) 2 (leBytes 8 old.toNat)))
    ∧ (∀ kind l,
      let d := Tab.getOr k.qps qp {}
      let t := ((s.answer p qp kind l).pkg p)
      ((∃ i < 16, (Tab.getOr k.filters (16 * d.port + i) {}).admits d = true) →
        t.answers = ⟨qp, kind, l, s.freeVal.1.getLsbD 0⟩ :: k.answers ∧ t.ethDrop = k.ethDrop)
      ∧ ((∀ i < 16, (Tab.getOr k.filters (16 * d.port + i) {}).admits d = false) →
        t.answers = k.answers ∧ t.ethDrop = Tab.put k.ethDrop d.port (satAdd32 (Tab.getOr k.ethDrop d.port 0))))
    ∧ (k.attStatus ≠ 1 → exec (.attestationReport p) s = .next s)
    ∧ (k.attStatus = 1 →
      let dest := k.attJob.1.toNat
      let head := leBytes 64 (Config.sha3 k.conf.image).toNat
        ++ leBytes 64 (Config.sha3 ((List.range 6).flatMap fun i => ((k.conf.rec? (i + 1)).map CfgRec.block).getD [])).toNat
        ++ leBytes 32 0xFFFF ++ ((List.range 6).flatMap fun i => leBytes 8 (k.version (i + 1)).toNat) ++ leBytes 32 k.attJob.2.toNat
      let report := head ++ leBytes 4627 (Config.sign p (Config.sha3 head)).toNat
      report.length = 4867 ∧ ∃ t : State, exec (.attestationReport p) s = .next t ∧ (t.pkg p).attStatus = 2
        ∧ ((∀ q line, (s.aline q line).part = none) → pageSize ≤ dest → ∀ i < 4867, some (t.byte (s.windowPa p (dest + i))) = report[i]?))
    ∧ (let key := match (k.conf.rec? 1).map CfgRec.body with | some (.root _ command) => command | _ => []
      let ty := k.cmdField 0 4
      let blen := k.cmdField 4 4
      let body (off n : Nat) : Nat := k.cmdField (0x18 + off) n
      let layout := ((ty = 1 ∧ blen = 8) ∨ (ty = 2 ∧ blen = 324) ∨ (ty = 3 ∧ blen = 8)) ∧ k.cmdLen.toNat = 0x18 + blen + 4627
        ∧ k.cmdField 0x10 8 = p
      let signed := Config.verify key (Config.sha3 (k.cmdBytes 0 (0x18 + blen))) (k.cmdBytes (0x18 + blen) 4627)
      let sound := (ty = 1 ∧ body 0 4 * 65536 < memTop ∧ body 6 2 = 0)
        ∨ (ty = 2 ∧ body 0 1 < 4 ∧ body 1 3 = 0 ∧ k.cmdFilters.isSome = true)
        ∨ (ty = 3 ∧ body 0 1 < 16 ∧ body 1 3 = 0 ∧ 1 ≤ body 4 2 ∧ body 4 2 ≤ 256 ∧ 1 ≤ body 6 2 ∧ body 6 2 ≤ 512)
      let st := if ¬layout then 5 else if signed = false then 3 else if k.cmdField 8 8 ≤ k.counter then 4 else if ¬sound then 6 else 2
      let only : List (Option Nat × Instr) := [(some 1, .cmdFirewallEntry p), (some 2, .cmdEgressFilter p), (some 3, .cmdRateLimiter p),
        (none, .commandApplied p)]
      (k.cmdStatus ≠ 1 → ∀ e ∈ only, exec e.2 s = .next s)
      ∧ (k.cmdStatus = 1 → k.cmdRun = false → st ≠ 2 → exec (.commandApplied p) s = .next (s.modPkg p fun k => { k with cmdStatus := st }))
      ∧ (k.cmdStatus = 1 → k.cmdRun = true → ∀ e ∈ only, exec e.2 s = .next
        (if k.recalls = [] then s.modPkg p fun k => { k with cmdRun := false, cmdStatus := 2 } else s))
      ∧ (k.cmdStatus = 1 → k.cmdRun = false → st = 2 → ∀ e ∈ only, e.1 = none ∨ e.1 = some ty →
        (ty ≠ 1 ∨ k.recallsPage (k.cmdField 0x18 4) = false) →
        let t := (s.applyCmd p).modPkg p fun x => { x with counter := k.cmdField 8 8 }
        exec e.2 s = .next (t.modPkg p fun x => if x.recalls.isEmpty then { x with cmdStatus := 2 } else { x with cmdRun := true })))

/-! ### Where results go, and what a word leaves alone (R62, R71, R75, R109, R126, R131 to R135) -/

/-- A fixed-latency result is its register's newest value, which clears the register's poison; through an index register it is
pending until it arrives, and no destination takes nothing. A mapped shared register loses its poison mark and shows the
result to every later instruction, of the other pipe in the same cycle as well, and to no other lane of the instruction that
wrote it. A result of a pair, a predicate and an arriving result likewise. No other register, thread, core or byte changes. A
result on the lane that INJECT names has the named bit flipped, and INJECT is disarmed and marked fired (R71, R126, R131,
R135, R262, R465). That a mapped shared register keeps the poison mark of what was written to it is log 62. -/
def Obligations.ResultPlaces : Prop :=
  ∀ (s : State) (l : Lane) (v hi : Word),
    let t := s.thr l.tk
    let alone (u : State) : Prop := u.mem = s.mem ∧ ∀ k, k ≠ l.tk → u.thr k = s.thr k
    let plain := s.injectArmed l.i l.tk = false
    (l.r.d = .none → s.put l v = s ∧ s.putPair l v hi = s)
    ∧ (∀ n, plain → l.r.d = .reg n → l.r.ind = false → s.sharedOf l.tk n = none →
      let u := s.put l v
      let x := u.thr l.tk
      alone u ∧ u.cores = s.cores ∧ x = { t with r := x.r } ∧ x.r.p = t.r.p ∧ x.r.ix = t.r.ix ∧ x.r.pendG = t.r.pendG ∧ x.r.pendP = t.r.pendP
        ∧ x.r.newest n = v ∧ (∀ m, m ≠ n → x.r.newest m = t.r.newest m)
        ∧ x.r.psn = t.r.psn &&& ~~~BitVec.twoPow 64 n.toNat
        ∧ ((t.r.win.map fun e => e.reg).Nodup → (x.r.win.map fun e => e.reg).Nodup))
    ∧ (∀ n k, plain → l.r.d = .reg n → l.r.ind = false → s.sharedOf l.tk n = some k → t.trails = false →
      let u := s.put l v
      let name := s.issueName 1
      let x := u.shReg l.tk k
      alone u ∧ u.threads = s.threads ∧ x = { s.shReg l.tk k with v := x.v, psn := none, prov := none }
        ∧ x.v.readBy s.clock name = (s.shReg l.tk k).v.readBy s.clock name
        ∧ (∀ other, other ≠ name → name ≠ 0 → x.v.readBy s.clock other = v)
        ∧ (∀ now other, now ≠ s.clock → x.v.readBy now other = v) ∧ ∀ j, j ≠ k → u.shReg l.tk j = s.shReg l.tk j)
    ∧ (∀ n, l.r.d = .reg n → l.r.ind = true →
      let u := s.put l v
      let x := u.thr l.tk
      alone u ∧ u.cores = s.cores ∧ x.r.pendG = t.r.pendG ||| BitVec.twoPow 64 n.toNat ∧ (∀ m, x.r.newest m = t.r.newest m)
        ∧ ∃ q : Pend, x.pend = t.pend ++ [q] ∧ q.u = s.uid ∧ q.k = .value v none ∧ q.d = .reg n)
    ∧ (∀ n, plain → l.r.d = .pair n → s.sharedOf l.tk n = none → s.sharedOf l.tk (n + 1) = none →
      let u := s.putPair l v hi
      let x := u.thr l.tk
      alone u ∧ x.r.newest n = v ∧ x.r.newest (n + 1) = hi ∧ ∀ m, m ≠ n → m ≠ n + 1 → x.r.newest m = t.r.newest m)
    ∧ (∀ (p : BitVec 3) (b : Bool),
      let u := s.setP l.tk p b
      let x := u.thr l.tk
      alone u ∧ u.cores = s.cores ∧ x = { t with r := { t.r with p := x.r.p } }
        ∧ ∀ j, j < 7 → x.r.p.getLsbD j = if p.toNat = j then b else t.r.p.getLsbD j)
    ∧ (∀ (q : Pend) (n : BitVec 6), q.d = .reg n → s.sharedOf l.tk n = none → q.pn = 7 → q.also = 0 →
      let u := s.finishPend l.tk q [v] none none none
      let x := u.thr l.tk
      alone u ∧ u.cores = s.cores ∧ x.r.newest n = v ∧ (∀ m, m ≠ n → x.r.newest m = t.r.newest m)
        ∧ x.r.pendG = t.r.pendG &&& ~~~BitVec.twoPow 64 n.toNat ∧ x.r.p = t.r.p ∧ x.r.pendP = t.r.pendP)
    ∧ (∀ n, l.r.d = .reg n → l.r.ind = false → s.sharedOf l.tk n = none → s.injectArmed l.i l.tk = true →
      s.injectLane l.i.ck = l.i.lane (s.pipe l.i.ck l.i.half).fenced (l.i.position l.tk) → l.i.g.tandem = false → l.u.vl = false →
      let u := s.put l v
      let bit := (s.core l.i.ck).inject.toNat / 2 ^ 7 % 64
      alone u ∧ (u.thr l.tk).r.newest n = v ^^^ BitVec.twoPow 64 bit ∧ (u.core l.i.ck).inject.getLsbD 0 = false
        ∧ (u.core l.i.ck).inject.getLsbD 32 = true)

/-- Before a word's own effect only its thread's registers change: index registers step, and a register read with its last-use
flag may lose the value of its window. After it, one member's program counter and word count pass the word, and once the last
member has issued it the gang stands at the next word of its clause (R65, R70, R107, R131, R132). One member at a time issues
the word (log 1). -/
def Obligations.WordFrame : Prop :=
  ∀ (w : Stand) (s : State),
    (w.Clear s → (s.thr w.tk).pair = none →
      let b := w.begun s
      let t := s.thr w.tk
      let x := b.thr w.tk
      b.mem = s.mem ∧ (∀ k, k ≠ w.tk → b.thr k = s.thr k) ∧ b.cores = s.cores ∧ b.iss = s.iss ∧ b.ctxs = s.ctxs
        ∧ x = { t with r := x.r } ∧ x.r.ix = w.r.ix ∧ x.r.p = t.r.p ∧ x.r.psn = t.r.psn ∧ x.r.pendG = t.r.pendG ∧ x.r.pendP = t.r.pendP
        ∧ ((t.r.win.map fun e => e.reg).Nodup → (x.r.win.map fun e => e.reg).Nodup
          ∧ ∀ n, (∀ y ∈ w.r.srcs, y.lu = true → y.reg ≠ some n) → x.r.newest n = t.r.newest n))
    ∧ ∀ t : State, w.u.close = false → (t.thr w.tk).pair = none → t.iss = some w.i → w.i.g.members.contains w.tk = true →
      let g := w.i.g
      let past := t.modThr w.tk fun x => { x with nw := x.nw + 1, pc := g.wordAddr + BitVec.ofNat 64 (8 * g.len) }
      (∀ k, k ∈ g.todo → k ≠ w.tk →
        w.done s t = { past with iss := some { w.i with g := { g with todo := g.todo.filter (· != w.tk) } } })
      ∧ ((∀ k ∈ g.todo, k = w.tk) → w.f.park = false → (∀ k ∈ g.members, (t.thr k).hold = false) → g.pos + g.len < g.words.length →
        w.done s t = { past.setPipe w.i.ck w.i.half { past.pipe w.i.ck w.i.half with
          gang := some { g with pos := g.pos + g.len, wn := g.wn + 1, todo := [], gid := 0, second := false } } with iss := none })

/-- What a word meets before its own effect, in order: failed loads that wait to be raised, a feature that is not taken
(0x18), a privilege that is not there (0x09), registers that are pending, guards that do not hold (the word does nothing), a
register pending in the same run (0x03), a poisoned register (a fault of the instruction's own, else 0x0D with the address of
the load; the order is the model's, log 63), failed stores that wait to be raised at a release or a drain, accesses that a
release stands after. An illegal word raises its fault where some member's guards hold or decode is strict; where guards are
pending the gang waits for them, for every member, and with all of them false the word is passed over (R55, R64, R73 to R75,
R93, R109, R262, R265, R473). That an instruction's own fault comes before the poison of a register it reads is log 63, and
illegal words in permissive decode are log 54. -/
def Obligations.ChecksBeforeEffect : Prop :=
  ∀ (s : State) (i : Issue) (tk : Nat) (rest : List Nat), s.iss = some i → i.g.todo = tk :: rest →
    let a := s.modThr tk fun t => { t with r := t.r.age i.g.wn }
    let t := a.thr tk
    let attr := (a.ctxOf tk).attr
    let loads := t.late.any fun x => x.load
    let checked := a.strict tk = true ∨ i.g.anyOn = true
    (∀ (ins : Instr) (f : Frame) (u : Use) (body : State → Lane → Res), exec ins s = word f u body s →
      let faults (x : FI) : Prop := exec ins s = .next (a.wordFault tk x f.park)
      let parks (y : Why) : Prop := exec ins s = .next (a.parkGang i i.g y)
      let lacks := ∃ k, u.feat = some k ∧ a.taken (pkgOfThr tk) t.ctx k = false
      let privileged := (u.priv = 1 → attr.getLsbD 0 = true) ∧ (u.priv = 2 → attr.getLsbD 0 = true ∨ attr.getLsbD 1 = true)
      let legal := loads = false ∧ (checked → ¬lacks ∧ privileged)
      let ready := legal ∧ a.gangWaits i.g.todo f u = [] ∧ framePreds f &&& t.r.runP = 0
        ∧ (i.g.tandem = true → a.tandemArmed i = false)
      (loads = true → exec ins s = .next (a.lateLoads tk f.park))
      ∧ (loads = false → checked → lacks → faults { code := 0x18 })
      ∧ (loads = false → checked → ¬lacks → ¬privileged → faults { code := 0x09 })
      ∧ (legal → ∀ x y, a.gangWaits i.g.todo f u = x :: y → parks (.regs (x :: y)))
      ∧ (legal → a.gangWaits i.g.todo f u = [] → framePreds f &&& t.r.runP ≠ 0 → faults { code := 0x03 })
      ∧ (ready → frameOn f t.r.p = false → t.pair = none → exec ins s = .next ((a.pairAfter tk t.nw u).retire tk f))
      ∧ (ready → frameOn f t.r.p = true →
        (∀ x, resolve t u = .error x → faults x)
        ∧ ∀ r, resolve t u = .ok r →
          let m := (r.touch u f).1
          let q := (r.touch u f).2
          let bad := a.poisoned tk (r.reads u)
          (m &&& t.r.runG ≠ 0 ∨ q &&& t.r.runP ≠ 0 → faults { code := 0x03 })
          ∧ (m &&& t.r.runG = 0 → q &&& t.r.runP = 0 →
            (∀ n, bad = some n → faults ((a.ownFault? i tk f u r body).getD { code := 0x0D, addr := BitVec.ofNat 64 n }))
            ∧ (bad = none → u.rel = true ∨ u.drain = true → (t.late.any fun x => !x.load) = true →
              exec ins s = .next (a.lateStores tk f.park))
            ∧ (bad = none → t.late = [] → u.rel = true → t.relReady = false → parks .rel))))
    ∧ ∀ (f : Frame) (code : BitVec 8) (wide : Bool),
      let ins : Instr := .illegalInstruction f code wide
      let failed := (s.thr tk).late.any fun x => x.load
      let waits := (i.g.todo.map fun k => (k, (0 : BitVec 64), framePreds f &&& (s.thr k).r.pendP)).filter fun x => x.2.2 != 0
      (failed = true → exec ins s = .next (s.lateLoads tk f.park))
      ∧ (failed = false → s.strict tk = true ∨ i.g.anyOn = true → exec ins s = .next (s.wordFault tk { code := code.toNat } f.park))
      ∧ (failed = false → s.strict tk = false → i.g.anyOn = false →
        (waits = [] → exec ins s = .next (s.retire tk f))
        ∧ (waits ≠ [] → exec ins s = .next (s.parkGang i i.g (.regs waits))))

/-! ### Taking an exception and returning from one (R374 to R379, R390, R391) -/

/-- A fault leaves the thread's registers, predicates and index registers as they are and every other thread alone. Its record
of 64 bytes goes to the context's fault queue, or is held while that is full. In a system-privileged context with a handler, a
thread outside handler state goes on at HNDPC as a region head, in handler state, with XPC and XINFO set (FLAGS as the record
has them, HELD where it is held), and what waited for the clause's end kept for XRET; any other stops before the word (R374,
R376, R378, R379). A resumed thread goes on where it stopped, a redirected one at a header as a region head, and XRET's thread
at XPC (R390, R391). That the record and the queue head are written in one step is log 6. -/
def Obligations.ExceptionEntry : Prop :=
  (∀ (s : State) (tk : Nat) (f : FI) (pc hpc hdr word : Word),
    let u := s.takeFault tk f pc hpc hdr word
    let t := s.thr tk
    let v := u.thr tk
    let p := pkgOfThr tk
    let x := s.ctx p t.ctx
    let y := u.ctx p t.ctx
    let dv := x.attr.getLsbD 0 && x.hndpc != 0 && !t.hand && f.code != 0x13
    let b := s.threadRecord tk f pc hdr word dv
    let at_ := x.fqbase.toNat + 0x80 + 64 * (x.prod % 2 ^ x.fqlog)
    (dv = true → v.pc = x.hndpc ∧ v.hpc = x.hndpc ∧ v.fresh = true ∧ v.head = true ∧ v.mid = false ∧ v.hand = true ∧ v.xpc = pc
      ∧ v.xhpc = hpc ∧ v.xhdr = hdr ∧ v.xmid = (!f.header) ∧ v.st = t.st
      ∧ v.redo = false ∧ v.ends = [] ∧ v.xends = t.ends
      ∧ v.xinfo = BitVec.ofNat 64 (f.code + 256 * (f.flags true + if x.held.isEmpty && !s.fqFull x then 0 else 16)
        + 2 ^ 32 * ((x.prod + x.held.length) % 2 ^ 32)))
    ∧ (dv = false → v.st = .stopped ∧ v.stopCode = some f.code ∧ v.pc = pc ∧ v.hpc = hpc ∧ v.hdr = hdr ∧ v.mid = !f.header
      ∧ v.hand = t.hand ∧ v.xpc = t.xpc ∧ v.xinfo = t.xinfo ∧ v.ends = t.ends)
    ∧ (∀ n, v.r.newest n = t.r.newest n) ∧ v.r.p = t.r.p ∧ v.r.ix = t.r.ix ∧ v.r.psn = t.r.psn ∧ v.r.pendG = t.r.pendG
    ∧ (∀ k, k ≠ tk → u.thr k = s.thr k)
    ∧ b.length = 64
    ∧ (x.held = [] → s.fqFull x = false →
      y = { x with prod := x.prod + 1 } ∧ u.bytes at_ 64 = b ∧ u.read x.fqbase.toNat 8 = (x.prod + 1) % 2 ^ 64
        ∧ ∀ a, (a < at_ ∨ at_ + 64 ≤ a) → (a < x.fqbase.toNat ∨ x.fqbase.toNat + 8 ≤ a) → u.byte a = s.byte a)
    ∧ (x.held ≠ [] ∨ s.fqFull x = true → u.mem = s.mem ∧ y = { x with held := x.held ++ [⟨heldBytes b⟩] }))
  ∧ (∀ (s : State) (i : Issue) (tk : Nat) (f : FI) (park : Bool), s.iss = some i → (s.thr tk).pair = none →
    s.wordFault tk f park = (s.takeFault tk f i.g.wordAddr i.g.hpc i.g.hdr i.g.word).checkWord park)
  ∧ (∀ t : Thread, (t.resume.st = .live ∧ t.resume.pc = t.pc ∧ t.resume.hpc = t.hpc ∧ t.resume.mid = t.mid ∧ t.resume.r = t.r)
    ∧ ∀ h, (t.redirect h).st = .live ∧ (t.redirect h).pc = h ∧ (t.redirect h).head = true ∧ (t.redirect h).mid = false
      ∧ (t.redirect h).redo = false ∧ (t.redirect h).r = t.r)
  ∧ ∀ (s : State) (tk : Nat) (g : Gang), (s.thr tk).xgo = true → (s.thr tk).ends = [] → (s.thr tk).killing = false →
    (s.thr tk).stopping = false →
    let t := s.thr tk
    let v := (s.leaveClause tk g).thr tk
    v.pc = t.xpc ∧ v.hpc = t.xhpc ∧ v.hdr = t.xhdr ∧ v.mid = t.xmid ∧ v.ends = t.xends ∧ v.inGang = false ∧ v.xgo = false ∧ ∀ n, v.r.newest n = t.r.newest n

/-! ### Reset and memory (R3, R16, R17, R236, R334, R341, R392) -/

/-- After reset the feature registers are 0, every firewall entry is 0xFFFF, logical cores stand on the physical cores of
their numbers, LEAD is 4, the route registers, INJECT and the counters are 0, every line is uncached, no access or message is
under way, and every table is in order. That nothing has booted is log 60, and the order of tables and memory is the model's
form (log 3). -/
def Obligations.ResetState : Prop :=
  let s := State.reset
  s.wf = true ∧ s.mem = [] ∧ s.threads = [] ∧ s.ctxs = [] ∧ s.launches = [] ∧ s.net = [] ∧ s.iss = none
    ∧ (∀ p page, Tab.getOr (s.pkg p).fw page 0xFFFF = 0xFFFF)
    ∧ (∀ p, (s.pkg p).featTake = 0 ∧ (s.pkg p).featLock = false ∧ (s.pkg p).booted = false ∧ (s.pkg p).attStatus = 0 ∧ (s.pkg p).cmdStatus = 0
      ∧ (s.pkg p).lostDrop = 0 ∧ (s.pkg p).lateAns = 0 ∧ (s.pkg p).dupDrop = 0 ∧ (s.pkg p).errProd = 0 ∧ (s.pkg p).errCons = 0)
    ∧ (∀ ck, s.phys ck = coreOf ck ∧ (s.core ck).inject = 0 ∧ (∀ c, (Tab.getOr (s.core ck).lead c {}).l = 4)
      ∧ ∀ k, Tab.getOr (s.core ck).routes k 0 = 0)
    ∧ (∀ line, (s.dir line).st = .uncached ∧ (s.dir line).psn = false ∧ (s.dir line).tx = none)
    ∧ (∀ p k, (s.port p k).up = false)
    ∧ ∀ p line, (s.aline p line).st = .I

/-- Memory is bytes in little-endian order: a write of n bytes leaves its bytes there and every other byte alone, and the
canonical form holds; two memories in that form with the same bytes are equal (R3, R236). The canonical form is the model's
(log 3). -/
def Obligations.MemoryBytes : Prop :=
  (∀ (s : State) (a n v b : Nat),
    (s.write a n v).byte b = (if a ≤ b ∧ b < a + n then BitVec.ofNat 8 (v / 256 ^ (b - a)) else s.byte b)
    ∧ (s.write a n v).read a n = v % 256 ^ n ∧ (Mem.wf s.mem = true → Mem.wf (s.write a n v).mem = true))
  ∧ (∀ (s : State) (a b : Nat) (l : List Byte),
    (s.writeBytes a l).byte b = (if a ≤ b ∧ b < a + l.length then l[b - a]?.getD 0 else s.byte b)
    ∧ (Mem.wf s.mem = true → Mem.wf (s.writeBytes a l).mem = true))
  ∧ (∀ (s : State) (a n v mask b : Nat),
    (s.writeMask a n v mask).byte b = (if a ≤ b ∧ b < a + n then
      BitVec.ofNat 8 (v / 256 ^ (b - a)) &&& BitVec.ofNat 8 (mask / 256 ^ (b - a)) ||| s.byte b &&& ~~~BitVec.ofNat 8 (mask / 256 ^ (b - a))
      else s.byte b))
  ∧ ∀ m n : List Host.Cell, Mem.wf m = true → Mem.wf n = true → (∀ a, Mem.get m a = Mem.get n a) → m = n

/-- Every step keeps memory in its canonical form: addresses rise strictly and no entry is what an unlisted byte reads as. The
form, and what an unlisted byte reads as, are the model's choice (log 3). -/
def Obligations.MemoryStaysCanonical : Prop :=
  ∀ s t : State, Mem.wf s.mem = true → step s = .next t → Mem.wf t.mem = true

/-! ### Steps, decoding and encoding -/

/-- A step takes the first event that has been named; else it runs, for the next member of the gang at its word, exactly the
instruction that the word decodes to, and where it decodes to none, or may not stand there, the illegal instruction; else it
gives the next pipe its turn; else it begins the next cycle (log 1, R55, R56, R60 to R62, R73). The schedule is the model's
choice (log 1). -/
def Obligations.StepRunsDecoded : Prop :=
  (∀ (s : State) (e : Ev) (rest : List Ev), s.agenda = e :: rest → step s = e.run { s with agenda := rest })
  ∧ (∀ (s : State) (ins : Instr) (rest : List Ev), s.agenda = .outside ins :: rest →
    step s = if isEvent ins then exec ins { s with agenda := rest } else .next { s with agenda := rest })
  ∧ (∀ (s : State) (i : Issue), s.agenda = [] → s.iss = some i →
    let w := i.g.word
    let op := (RawW.ofWord w).op.toNat
    let placed := classAllows (field i.g.hdr.toNat 6 4) (op / 64) = true ∧ (endsClause op = true → i.g.words.length ≤ i.g.pos + i.g.len)
    (i.g.todo = [] → step s = .next (s.checkWord (frameOf w).park))
    ∧ ∀ tk rest, i.g.todo = tk :: rest →
      (∀ ins, decode w i.g.next? = .ok ins → placed →
        (∀ f rel h o, ins ≠ .collBind f rel h o) → (∀ f o, ins ≠ .syswr f o) → step s = exec ins s)
      ∧ (∀ f rel h o, decode w i.g.next? = .ok (.collBind f rel h o) → placed →
        ∃ ins, step s = exec ins s ∧ ins ∈ ([.collBind f rel h o, .collReduceScatter f rel h o, .collAllGather f rel h o,
          .collAllReduceRing f rel h o, .collAllReduceTree f rel h o, .collBroadcast f rel h o, .collBarrier f rel h o,
          .collDrawMerge f rel h o] : List Instr))
      ∧ (∀ f o, decode w i.g.next? = .ok (.syswr f o) → placed → step s = exec (.syswr f o) s ∨ step s = exec (.injectWrite f o) s)
      ∧ (∀ e, decode w i.g.next? = .error e → e ≠ .reservedOpcode → placed →
        step s = .next (s.illegal i tk (frameOf w) e.code.toNat))
      ∧ (¬placed ∨ decode w i.g.next? = .error .reservedOpcode → step s = .next (s.illegal i tk (frameOf w) 0x01)))
  ∧ (∀ (s : State) (ck half : Nat) (rest : List (Nat × Nat)), s.agenda = [] → s.iss = none → s.turn = (ck, half) :: rest →
    let b : State := { s with turn := rest }
    (∀ g, (b.pipe ck half).gang = some g → step s = .next (b.pipeTurn ck half g))
    ∧ ((b.pipe ck half).gang = none → step s = exec (.pipePick ck half .none) b))
  ∧ ∀ s : State, s.agenda = [] → s.iss = none → s.turn = [] → step s = .next (nextCycle s)

/-- Words written out in the spec decode to the instructions that stand beside them. A word is refused with code 0x01 exactly
where its opcode's minor is not in its group's table, groups 14 and 15 having none; a destination field beyond 0x50 that an
instruction uses or has to leave zero, a last-use flag on a field with no register code and a cache hint outside groups 6, 7
and 10 are refused with 0x02, and so are words whose unused fields are not zero (R60 to R63, R66, R68, R73). -/
def Obligations.DecodeWords : Prop :=
  let f : Frame := { ga := { p := 7, neg := false }, gb := { p := 7, neg := false }, park := false }
  let g (n : BitVec 6) : Src := { opd := .reg n, lu := false }
  decode 0x600400284063B853 none = .ok (.icmp f { w := .w32, sgn := true, sat := false } 3 { a := g 4, b := g 5 } .lt false)
    ∧ decode 0x400400284043B888 none = .ok (.fcmp f { fmt := .f32, rnd := .rne } 2 { a := g 4, b := g 5 } .lt false)
    ∧ decode 0x5400244070C39483 none = .ok (.ffma { f with ga := { p := 2, neg := false }, park := true } { fmt := .f32, rnd := .rz }
      { d := .reg 6, a := g 7, b := g 8, c := { opd := .reg 9, lu := true } })
    ∧ decode 0xD01010182023B845 none = .ok (.bfn3 f { d := .reg 1, a := g 2, b := g 3, c := g 4 } 0xD8)
    ∧ decode 0x4001000040A3B980 none = .ok (.ld f { sz := .b4, sx := false } .dflt { d := .reg 5, a := g 4 } 0x40)
    ∧ decode 0x60FFE0304003B981 none = .ok (.st f { sz := .b8, sx := false } .dflt { a := g 4, b := g 6 } 0x3FF8)
    ∧ decode 0x0004182840E3B9C7 none = .ok (.acas f { w32 := false, sgn := false, acq := false, rel := false } .dflt
      { d := .reg 7, a := g 4, b := g 5, c := g 6 } 2)
    ∧ decode 0xC00200000003B9D0 none = .ok (.fence f .rack .dflt .stores)
    ∧ decode 0x000000280003BA03 none = .ok (.barsync f 5)
    ∧ decode 0x000014000003BA42 none = .ok (.tready f 5)
    ∧ decode 0x000000014123BA82 none = .ok (.mma f .dflt { d := .reg 9, a := g 20 })
    ∧ decode 0x00000004A283B813 none = .ok (.mov f { d := .reg 20, a := { opd := .ind 2 true, lu := false } })
    ∧ decode 0x00FFFFFFFF038940 none = .ok (.bra { f with ga := { p := 1, neg := false } } 0x7FFFFFFF8)
    ∧ decode 0xC00000305003BB08 none = .ok (.tlbinv f .rack { a := g 5, b := g 6 })
    ∧ decode 0x000000006083BB00 none = .ok (.sysrd f { d := .reg 4, a := g 6 })
    ∧ (∀ (x : Word) (next : Option Word),
      let op := x.toNat % 2 ^ 10
      let fd (k : Nat) : Nat := x.toNat / 2 ^ k % 2 ^ 7
      let minors := ([24, 22, 22, 13, 17, 13, 12, 18, 12, 9, 12, 6, 14, 6, 0, 0] : List Nat)[op / 64]?.getD 0
      let refused : Prop := ∃ e, decode x next = .error e ∧ e.code = if minors ≤ op % 64 then 0x01 else 0x02
      (minors ≤ op % 64 → refused) ∧ (minors ≤ op % 64 ↔ decode x next = .error .reservedOpcode)
      ∧ (op ≠ 0x140 → op ≠ 0x142 → 0x50 < fd 21 → refused)
      ∧ (∀ k, k < 4 → 0x50 ≤ fd (28 + 7 * k) → x.getLsbD (56 + k) = true → refused)
      ∧ (op / 64 ∉ [6, 7, 10] → x.toNat / 2 ^ 19 % 4 ≠ 0 → refused))
    ∧ decode 0x000400006083BB00 none = .error .reservedField
    ∧ decode 0x100000006083BB00 none = .error .reservedField ∧ decode 0x000000407FE3BB00 none = .error .literal
    ∧ decode 0x020000006083BB00 none = .error .reservedField ∧ decode 0x00000000608BBB00 none = .error .reservedField
    ∧ decode 0x000000006A83BB00 none = .error .destination

/-- Decoding gives back every well-formed instruction from the words that encode it, with every operand. -/
def Obligations.RoundTrip : Prop :=
  ∀ i : Instr, wellFormed i = true → ∃ w l, encode i = some (w, l) ∧ decode w l = .ok i
end

