-- ==== Sys2Proof/Laws/Elem.lean ====
section
/-! SUPPORT. The elements of a word that was built from its elements (R26), and the element maps of the integer words. -/

set_option Elab.async false

namespace Sys2Proof.Machine

/-- The number of a list of elements. -/
theorem foldElems_lt (w : Nat) (l : List Nat) :
    l.foldr (fun e acc => e % 2 ^ w + 2 ^ w * acc) 0 < 2 ^ (w * l.length) := by
  induction l with
  | nil => simp
  | cons e l ih =>
    simp only [List.foldr_cons, List.length_cons, Nat.mul_add, Nat.mul_one, Nat.pow_add]
    have h1 : e % 2 ^ w < 2 ^ w := Nat.mod_lt _ (Nat.two_pow_pos w)
    calc e % 2 ^ w + 2 ^ w * _ < 2 ^ w + 2 ^ w * _ := Nat.add_lt_add_right h1 _
      _ = 2 ^ w * (_ + 1) := by rw [Nat.mul_add, Nat.mul_one, Nat.add_comm]
      _ ≤ 2 ^ w * 2 ^ (w * l.length) := Nat.mul_le_mul_left _ ih
      _ = _ := Nat.mul_comm ..

theorem foldElems_get (w : Nat) (l : List Nat) (k : Nat) :
    l.foldr (fun e acc => e % 2 ^ w + 2 ^ w * acc) 0 / 2 ^ (w * k) % 2 ^ w = (l[k]?.getD 0) % 2 ^ w := by
  induction l generalizing k with
  | nil => simp
  | cons e l ih =>
    have hp := Nat.two_pow_pos w
    cases k with
    | zero => simp [Nat.add_mul_mod_self_left]
    | succ k =>
      simp only [List.foldr_cons, List.getElem?_cons_succ]
      rw [← ih k, Nat.mul_succ, Nat.add_comm (w * k) w, Nat.pow_add, ← Nat.div_div_eq_div_mul, Nat.add_mul_div_left _ _ hp,
        Nat.div_eq_of_lt (Nat.mod_lt e hp), Nat.zero_add]

/-- Element `k` of a word built element by element is what it was built from, modulo 2^w. -/
theorem elem_mkElems {w k : Nat} (f : Nat → Nat) (h : k < 64 / w) : elem (mkElems w f) w k = f k % 2 ^ w := by
  unfold elem mkElems ofElems
  have hlen := foldElems_lt w ((List.range (64 / w)).map f)
  rw [List.length_map, List.length_range] at hlen
  have h64 : w * (64 / w) ≤ 64 := Nat.mul_div_le 64 w
  rw [BitVec.toNat_ofNat, Nat.mod_eq_of_lt (Nat.lt_of_lt_of_le hlen (Nat.pow_le_pow_right (by decide) h64)), foldElems_get]
  simp [h]

theorem elem_lt (v : Word) (w k : Nat) : elem v w k < 2 ^ w := Nat.mod_lt _ (Nat.two_pow_pos w)

theorem wrap_lt (w : Nat) (x : Int) : wrap w x < 2 ^ w := by
  unfold wrap
  have hp : (0 : Int) < 2 ^ w := by exact_mod_cast Nat.two_pow_pos w
  have := Int.emod_lt_of_pos x hp
  have h0 := Int.emod_nonneg x (Int.ne_of_gt hp)
  have : ((x % 2 ^ w).toNat : Int) < ((2 ^ w : Nat) : Int) := by rw [Int.toNat_of_nonneg h0]; push_cast; exact this
  exact_mod_cast this

theorem wrap_mod (w : Nat) (x : Int) : wrap w x % 2 ^ w = wrap w x := Nat.mod_eq_of_lt (wrap_lt w x)

theorem elem_imap1 {m : IMod} {k : Nat} (op : Int → Int) (a : RV) (h : k < 64 / wbits m.w) :
    elem (imap1 m op a) (wbits m.w) k = cutTo m (op (sAt m a k)) := by
  simp only [imap1, elem_mkElems _ h, wrap_mod]; rfl

theorem elem_imap2 {m : IMod} {k : Nat} (op : Int → Int → Int) (a b : RV) (h : k < 64 / wbits m.w) :
    elem (imap2 m op a b) (wbits m.w) k = cutTo m (op (sAt m a k) (sAt m b k)) := by
  simp only [imap2, elem_mkElems _ h, wrap_mod]; rfl

theorem elem_imap3 {m : IMod} {k : Nat} (op : Int → Int → Int → Int) (a b c : RV) (h : k < 64 / wbits m.w) :
    elem (imap3 m op a b c) (wbits m.w) k = cutTo m (op (sAt m a k) (sAt m b k) (sAt m c k)) := by
  simp only [imap3, elem_mkElems _ h, wrap_mod]; rfl

theorem elem_umap1 {m : IMod} {k : Nat} (op : Nat → Nat) (a : RV) (h : k < 64 / wbits m.w) :
    elem (umap1 m op a) (wbits m.w) k = op (uAt (wbits m.w) a k) % 2 ^ wbits m.w := elem_mkElems _ h

theorem elem_umap2 {m : IMod} {k : Nat} (op : Nat → Nat → Nat) (a b : RV) (h : k < 64 / wbits m.w) :
    elem (umap2 m op a b) (wbits m.w) k = op (uAt (wbits m.w) a k) (uAt (wbits m.w) b k) % 2 ^ wbits m.w := elem_mkElems _ h

theorem elem_umap3 {m : IMod} {k : Nat} (op : Nat → Nat → Nat → Nat) (a b c : RV) (h : k < 64 / wbits m.w) :
    elem (umap3 m op a b c) (wbits m.w) k
      = op (uAt (wbits m.w) a k) (uAt (wbits m.w) b k) (uAt (wbits m.w) c k) % 2 ^ wbits m.w := elem_mkElems _ h

end Sys2Proof.Machine
end

