-- ==== Sys2Proof/Laws/Encode.lean ====
section
/-! SUPPORT. Small lemmas of the encodings: a field cut out of a word that was put together is the field, and each code
decodes to what it stands for. -/

namespace Sys2Proof

theorem extract_high {m n lo w : Nat} (x : BitVec m) (y : BitVec n) (h : n ≤ lo) :
    (x ++ y).extractLsb' lo w = x.extractLsb' (lo - n) w := by
  ext i hi
  simp only [BitVec.getElem_extractLsb', BitVec.getLsbD_append]
  rw [if_neg (by omega)]
  congr 1; omega

theorem extract_low {m n lo w : Nat} (x : BitVec m) (y : BitVec n) (h : lo + w ≤ n) :
    (x ++ y).extractLsb' lo w = y.extractLsb' lo w := by
  ext i hi
  simp only [BitVec.getElem_extractLsb', BitVec.getLsbD_append]
  rw [if_pos (by omega)]

theorem extract_all {n : Nat} (x : BitVec n) : x.extractLsb' 0 n = x := by simp

theorem bit_high {m n k : Nat} (x : BitVec m) (y : BitVec n) (h : n ≤ k) : (x ++ y).getLsbD k = x.getLsbD (k - n) := by
  rw [BitVec.getLsbD_append, if_neg (by omega)]

theorem bit_low {m n k : Nat} (x : BitVec m) (y : BitVec n) (h : k < n) : (x ++ y).getLsbD k = y.getLsbD k := by
  rw [BitVec.getLsbD_append, if_pos h]

/-- The fields of a word are those it was put together from (R58). -/
theorem RawW.ofWord_toWord (r : RawW) : RawW.ofWord r.toWord = r := by
  obtain ⟨md, le, lc, lb, la, e, c, b, a, d, hint, ⟨gbp, gbn⟩, ⟨gap, gan⟩, park, op⟩ := r
  simp (disch := omega) only [RawW.ofWord, RawW.toWord, bit, extract_high, extract_low, bit_high, bit_low, Nat.reduceSub,
    Nat.sub_self, extract_all]
  simp

/-! ### Operand codes (R59, R62) -/

theorem specialOf_specialBits (k : Special) : specialOf (specialBits k) = k := by cases k <;> rfl

/-- A code gives back its operand; a literal's value comes from the word after. -/
theorem opdOf_code (o : Opd) (l : Word) (h : ∀ v, o = .lit v → v = l) : opdOf o.code l = o := by
  cases o with
  | reg n =>
    have h1 : (n.setWidth 7 : BitVec 7) < 0x40 := by clear h; revert n; decide
    rw [opdOf, Opd.code, if_pos h1, BitVec.setWidth_setWidth_of_le _ (by decide), BitVec.setWidth_eq]
  | ind i s =>
    clear h
    have h1 : ∀ (i : BitVec 3) (s : Bool), ¬(Opd.ind i s).code < 0x40 := by decide
    have h2 : ∀ i : BitVec 3, (Opd.ind i false).code < 0x48 ∧ (Opd.ind i false).code.setWidth 3 = i := by decide
    have h3 : ∀ i : BitVec 3, ¬(Opd.ind i true).code < 0x48 ∧ (Opd.ind i true).code < 0x50
        ∧ (Opd.ind i true).code.setWidth 3 = i := by decide
    cases s <;> simp only [opdOf, h1, h2, h3, if_true, if_false]
  | spec k => clear h; cases k <;> rfl
  | imm k =>
    clear h
    have h1 : ∀ k : Fin 31, ¬(Opd.imm k).code < 0x60 ∧ (Opd.imm k).code.toNat - 0x60 = k.val := by decide
    have h2 : ∀ k : Fin 31, ¬(Opd.imm k).code < 0x50 ∧ ¬(Opd.imm k).code < 0x48 ∧ ¬(Opd.imm k).code < 0x40 := by decide
    simp only [opdOf, h1, h2, if_false]
    rw [dif_pos k.isLt]
  | lit v => rw [h v rfl]; rfl

theorem dstOf_code (d : Dst) : dstOf d.code = d := by
  cases d with
  | reg n => revert n; simp only [Dst.code, dstOf]; decide
  | ind i s => revert i s; simp only [Dst.code, dstOf]; decide
  | zero => rfl

def Opd.isLit : Opd → Bool
  | .lit _ => true
  | _ => false

/-- Code 0x7F is the literal's, and no other operand's (R61). -/
theorem code_lit (o : Opd) : (o.code == 0x7F) = o.isLit := by
  cases o with
  | reg n => revert n; simp only [Opd.code, Opd.isLit]; decide
  | ind i s => revert i s; simp only [Opd.code, Opd.isLit]; decide
  | spec k => cases k <;> rfl
  | imm k => revert k; simp only [Opd.code, Opd.isLit]; decide
  | lit v => rfl

theorem dst_code_lit (d : Dst) : (d.code == 0x7F) = false := by
  cases d with
  | reg n => revert n; simp only [Dst.code]; decide
  | ind i s => revert i s; simp only [Dst.code]; decide
  | zero => rfl

/-- The first register of a run is no literal. -/
theorem run_code_lit (n : BitVec 6) : ((n.setWidth 7 : BitVec 7) == 0x7F) = false := by revert n; decide

/-! ### Modifier codes (R67, R68, R89 to R92) -/

theorem imodOf_imodBits (m : IMod) : imodOf (imodBits m) = m := by
  obtain ⟨w, x, y⟩ := m; revert x y; cases w <;> decide

theorem fmodOf_fmodBits (m : FMod) : fmodOf (fmodBits m) = m := by obtain ⟨w, x⟩ := m; cases w <;> cases x <;> rfl

theorem amodOf_amodBits (m : AMod) : amodOf (amodBits m) = m := by
  obtain ⟨w, x, y, z⟩ := m; revert w x y z; decide

theorem mmodOf_mmodBits (m : MMod) : mmodOf (mmodBits m) = some m := by
  obtain ⟨w, x⟩ := m; revert x; cases w <;> decide

theorem hintOf_hintBits (h : Hint) : hintOf (hintBits h) = h := by cases h <;> rfl
theorem scopeOf_scopeBits (k : Scope) : scopeOf (scopeBits k) = some k := by cases k <;> rfl
theorem fenceKindOf_fenceKindBits (k : FenceKind) : fenceKindOf (fenceKindBits k) = k := by cases k <;> rfl
theorem condOf_condBits (k : Cond) : condOf (condBits k) = some k := by cases k <;> rfl
theorem mskOpOf_mskOpBits (k : MskOp) : mskOpOf (mskOpBits k) = some k := by cases k <;> rfl
theorem redOpOf_redOpBits (k : RedOp) : redOpOf (redOpBits k) = some k := by cases k <;> rfl
theorem tstateOf_tstateBits (k : TileState) : tstateOf (tstateBits k) = k := by cases k <;> rfl
theorem predNOf_predNBits (p : PredN) : predNOf (predNBits p) = p := by obtain ⟨p, n⟩ := p; revert p n; decide

/-! ### Literals (R61) -/

theorem src_code_lit (s : Src) : (s.code == 0x7F) = s.opd.isLit := code_lit _

theorem srcOf_code (s : Src) (l : Word) (h : ∀ v, s.opd = .lit v → v = l) : (⟨opdOf s.code l, s.last⟩ : Src) = s := by
  obtain ⟨o, u⟩ := s; simp only [Src.code, Src.last]; rw [opdOf_code o l h]

/-- How many sources are literals. -/
def litCount (l : List Src) : Nat := (l.filter fun s => s.opd.isLit).length

theorem lit_found {l : List Src} (h : litCount l = 1) : firstLiteral l ≠ none := by
  induction l with
  | nil => simp [litCount] at h
  | cons s r ih =>
    obtain ⟨o, u⟩ := s
    cases o <;> simp_all [litCount, firstLiteral, Src.literal?, Opd.isLit, List.findSome?]

theorem lit_none {l : List Src} (h : litCount l = 0) : ∀ s ∈ l, s.opd.isLit = false := by
  intro s hs; simp [litCount] at h; exact h s hs

theorem lit_same {l : List Src} (h : litCount l ≤ 1) : ∀ s ∈ l, ∀ v, s.opd = .lit v → v = (firstLiteral l).getD 0 := by
  induction l with
  | nil => simp
  | cons s r ih =>
    obtain ⟨o, u⟩ := s
    intro x hx v hv
    by_cases ho : o.isLit
    · obtain ⟨w, rfl⟩ : ∃ w, o = .lit w := by cases o <;> simp_all [Opd.isLit]
      have hr : litCount r = 0 := by simp_all [litCount, Opd.isLit]
      rcases List.mem_cons.1 hx with rfl | hx
      · simp_all [firstLiteral, Src.literal?, List.findSome?_cons]
      · have := lit_none hr x hx; simp [hv, Opd.isLit] at this
    · have h2 : litCount r ≤ 1 := by simpa [litCount, ho] using h
      rcases List.mem_cons.1 hx with rfl | hx
      · simp_all [Opd.isLit]
      · rw [ih h2 x hx v hv]
        cases o <;> simp_all [firstLiteral, Src.literal?, Opd.isLit, List.findSome?_cons]

/-! ### Raw fields cut out of a number and put together -/

theorem parts28 (x : BitVec 28) :
    x.extractLsb' 21 7 ++ x.extractLsb' 14 7 ++ x.extractLsb' 7 7 ++ x.extractLsb' 0 7 = x := by
  rw [BitVec.extractLsb'_append_extractLsb'_eq_extractLsb' (by rfl), BitVec.extractLsb'_append_extractLsb'_eq_extractLsb' (by rfl),
    BitVec.extractLsb'_append_extractLsb'_eq_extractLsb' (by rfl)]
  exact extract_all x

theorem parts35 (x : BitVec 35) :
    x.extractLsb' 28 7 ++ x.extractLsb' 21 7 ++ x.extractLsb' 14 7 ++ x.extractLsb' 7 7 ++ x.extractLsb' 0 7 = x := by
  rw [BitVec.extractLsb'_append_extractLsb'_eq_extractLsb' (by rfl), BitVec.extractLsb'_append_extractLsb'_eq_extractLsb' (by rfl),
    BitVec.extractLsb'_append_extractLsb'_eq_extractLsb' (by rfl), BitVec.extractLsb'_append_extractLsb'_eq_extractLsb' (by rfl)]
  exact extract_all x

theorem parts14 (x : BitVec 14) : x.extractLsb' 7 7 ++ x.extractLsb' 0 7 = x := by
  rw [BitVec.extractLsb'_append_extractLsb'_eq_extractLsb' (by rfl)]; exact extract_all x

theorem parts14' (x : BitVec 14) : x.extractLsb' 7 7 ++ x.setWidth 7 = x := by
  rw [BitVec.setWidth_eq_extractLsb' (by decide)]; exact parts14 x

theorem parts10 (x : BitVec 10) :
    (((x.extractLsb' 7 3).setWidth 7 : BitVec 7) ++ (x.setWidth 7 : BitVec 7)).setWidth 10 = x := by revert x; decide

theorem parts8 (x : BitVec 8) : x.extractLsb' 4 4 ++ (x.setWidth 4 : BitVec 4) = x := by revert x; decide

theorem wideField (w : BitVec 2) (p : BitVec 3) :
    ((w ++ p).setWidth 7 : BitVec 7).setWidth 3 = p ∧ ((w ++ p).setWidth 7 : BitVec 7).extractLsb' 3 2 = w := by
  revert w p; decide

theorem partField (p : BitVec 3) (s : BitVec 4) : (p ++ s).setWidth 4 = s ∧ (p ++ s).extractLsb' 4 3 = p := by
  revert p s; decide

theorem condField (c : Cond) (b : Bool) :
    condOf ((bit1 b 3 ||| (condBits c).setWidth 7 : BitVec 7).setWidth 3) = some c
      ∧ (bit1 b 3 ||| (condBits c).setWidth 7 : BitVec 7).getLsbD 3 = b := by cases c <;> cases b <;> decide

theorem bitField (b : Bool) : (bit1 b 0 : BitVec 7).getLsbD 0 = b := by revert b; decide
theorem bitField4 (b : Bool) : (bit1 b 0 : BitVec 4).getLsbD 0 = b := by revert b; decide
theorem scopeField (k : Scope) : scopeOf ((scopeBits k ++ 0#1).extractLsb' 1 3) = some k := by cases k <;> rfl
theorem stateField (k : TileState) : tstateOf ((tstateBits k ++ 0#2).extractLsb' 2 2) = k := by cases k <;> rfl
theorem widthOf_widthBits (w : Width) : widthOf (widthBits w) = w := by cases w <;> rfl

/-- A number widened and narrowed again. -/
theorem narrow {n m : Nat} (x : BitVec n) (h : n ≤ m) : (x.setWidth m).setWidth n = x := by
  rw [BitVec.setWidth_setWidth_of_le _ h, BitVec.setWidth_eq]

end Sys2Proof
end

