-- ==== Sys2Proof/Laws/Tab.lean ====
section
/-! SUPPORT. Tables and memory: what is put is found again, nothing else moves, and the canonical form stays (log 3). -/

set_option Elab.async false

namespace Sys2Proof.Machine

variable {β : Type}

@[simp] theorem Tab.look_put_same (t : Tab β) (k : Nat) (v : β) : Tab.look (Tab.put t k v) k = some v := by
  induction t with
  | nil => simp [Tab.put, Tab.look]
  | cons e r ih =>
    obtain ⟨j, w⟩ := e
    simp only [Tab.put]
    split
    · simp [Tab.look]
    · split
      · simp [Tab.look]
      · rename_i h; simp [Tab.look, h, ih]

theorem Tab.look_put_ne (t : Tab β) {k j : Nat} (v : β) (h : j ≠ k) : Tab.look (Tab.put t k v) j = Tab.look t j := by
  induction t with
  | nil => simp [Tab.put, Tab.look, Ne.symm h]
  | cons e r ih =>
    obtain ⟨i, w⟩ := e
    simp only [Tab.put]
    split
    · simp [Tab.look, Ne.symm h]
    · split
      · rename_i h1; subst h1; simp [Tab.look, Ne.symm h]
      · simp [Tab.look, ih]

theorem Tab.look_put (t : Tab β) (k j : Nat) (v : β) :
    Tab.look (Tab.put t k v) j = if j = k then some v else Tab.look t j := by
  split
  · rename_i h; rw [h, Tab.look_put_same]
  · rename_i h; exact Tab.look_put_ne t v h

@[simp] theorem Tab.getOr_put_same (t : Tab β) (k : Nat) (v d : β) : Tab.getOr (Tab.put t k v) k d = v := by
  simp [Tab.getOr]

theorem Tab.getOr_put_ne (t : Tab β) {k j : Nat} (v d : β) (h : j ≠ k) :
    Tab.getOr (Tab.put t k v) j d = Tab.getOr t j d := by
  simp [Tab.getOr, Tab.look_put_ne t v h]

@[simp] theorem Tab.look_cut_same (t : Tab β) (k : Nat) : Tab.look (Tab.cut t k) k = none := by
  induction t with
  | nil => rfl
  | cons e r ih =>
    obtain ⟨j, w⟩ := e
    by_cases h : j = k
    · simpa [Tab.cut, List.filter_cons, h] using ih
    · simpa [Tab.cut, List.filter_cons, h, Tab.look] using ih

theorem Tab.look_cut_ne (t : Tab β) {k j : Nat} (h : j ≠ k) : Tab.look (Tab.cut t k) j = Tab.look t j := by
  induction t with
  | nil => rfl
  | cons e r ih =>
    obtain ⟨i, w⟩ := e
    by_cases hk : i = k
    · simpa [Tab.cut, List.filter_cons, hk, Tab.look, Ne.symm h] using ih
    · by_cases hj : i = j
      · simp [Tab.cut, Tab.look, hj, h]
      · simpa [Tab.cut, List.filter_cons, hk, Tab.look, hj] using ih

/-! ### Rising key order -/

theorem Tab.rising_cons (j : Nat) (w : β) (r : Tab β) :
    Tab.rising ((j, w) :: r) = true ↔ (∀ e ∈ r, j < e.1) ∧ Tab.rising r = true := by
  simp [Tab.rising]

theorem Tab.mem_put {t : Tab β} {k : Nat} {v : β} {e : Nat × β} (h : e ∈ Tab.put t k v) : e = (k, v) ∨ e ∈ t := by
  induction t with
  | nil => simpa [Tab.put] using h
  | cons x r ih =>
    obtain ⟨j, w⟩ := x
    simp only [Tab.put] at h
    split at h
    · rcases List.mem_cons.1 h with h | h
      · exact .inl h
      · exact .inr h
    · split at h
      · rcases List.mem_cons.1 h with h | h
        · exact .inl h
        · exact .inr (List.mem_cons_of_mem _ h)
      · rcases List.mem_cons.1 h with h | h
        · exact .inr (h ▸ List.mem_cons_self ..)
        · exact (ih h).imp_right (List.mem_cons_of_mem _)

theorem Tab.rising_put {t : Tab β} (h : Tab.rising t = true) (k : Nat) (v : β) : Tab.rising (Tab.put t k v) = true := by
  induction t with
  | nil => simp [Tab.put, Tab.rising]
  | cons x r ih =>
    obtain ⟨j, w⟩ := x
    obtain ⟨h1, h2⟩ := (Tab.rising_cons j w r).1 h
    simp only [Tab.put]
    split
    · rename_i hk
      refine (Tab.rising_cons ..).2 ⟨fun e he => ?_, h⟩
      rcases List.mem_cons.1 he with rfl | he
      · exact hk
      · exact Nat.lt_trans hk (h1 e he)
    · split
      · rename_i hk; subst hk
        exact (Tab.rising_cons ..).2 ⟨h1, h2⟩
      · refine (Tab.rising_cons ..).2 ⟨fun e he => ?_, ih h2⟩
        rcases Tab.mem_put he with rfl | he
        · simp only; omega
        · exact h1 e he

theorem Tab.rising_filter {t : Tab β} (h : Tab.rising t = true) (p : Nat × β → Bool) : Tab.rising (t.filter p) = true := by
  induction t with
  | nil => rfl
  | cons x r ih =>
    obtain ⟨j, w⟩ := x
    obtain ⟨h1, h2⟩ := (Tab.rising_cons j w r).1 h
    simp only [List.filter_cons]
    split
    · exact (Tab.rising_cons ..).2 ⟨fun e he => h1 e (List.mem_filter.1 he).1, ih h2⟩
    · exact ih h2

theorem Tab.rising_cut {t : Tab β} (h : Tab.rising t = true) (k : Nat) : Tab.rising (Tab.cut t k) = true :=
  Tab.rising_filter h _

theorem Tab.rising_map {γ : Type} {t : Tab β} (h : Tab.rising t = true) (f : Nat × β → Nat × γ) (hf : ∀ e, (f e).1 = e.1) :
    Tab.rising (t.map f) = true := by
  induction t with
  | nil => rfl
  | cons x r ih =>
    obtain ⟨j, w⟩ := x
    obtain ⟨h1, h2⟩ := (Tab.rising_cons j w r).1 h
    have : f (j, w) = (j, (f (j, w)).2) := Prod.ext (hf (j, w)) rfl
    rw [List.map_cons, this]
    refine (Tab.rising_cons ..).2 ⟨fun e he => ?_, ih h2⟩
    obtain ⟨e', he', rfl⟩ := List.mem_map.1 he
    rw [hf]; exact h1 e' he'

/-! ### Memory -/

theorem Mem.get_set (m : List Host.Cell) (a b : Nat) (v : Byte) :
    Mem.get (Mem.set m a v) b = if b = a then v else Mem.get m b := by
  unfold Mem.set Mem.get Tab.getOr
  by_cases h : b = a
  · subst h
    split
    · rename_i hv; simp [hv]
    · simp
  · rw [if_neg h]
    split
    · rw [Tab.look_cut_ne m h]
    · rw [Tab.look_put_ne m v h]

theorem Mem.wf_iff (m : List Host.Cell) : Mem.wf m = true ↔ Tab.rising m = true ∧ ∀ e ∈ m, e.2 ≠ memDefault := by
  simp [Mem.wf]

theorem Mem.wf_set {m : List Host.Cell} (h : Mem.wf m = true) (a : Nat) (v : Byte) : Mem.wf (Mem.set m a v) = true := by
  obtain ⟨h1, h2⟩ := (Mem.wf_iff m).1 h
  unfold Mem.set
  split
  · exact (Mem.wf_iff _).2 ⟨Tab.rising_cut h1 a, fun e he => h2 e (List.mem_filter.1 he).1⟩
  · rename_i hv
    refine (Mem.wf_iff _).2 ⟨Tab.rising_put h1 a v, fun e he => ?_⟩
    rcases Tab.mem_put he with rfl | he
    · exact hv
    · exact h2 e he

theorem Mem.wf_write {m : List Host.Cell} (h : Mem.wf m = true) (a n v : Nat) : Mem.wf (Mem.write m a n v) = true := by
  induction n generalizing m a v with
  | zero => exact h
  | succ k ih => exact ih (Mem.wf_set h ..) _ _

/-- A write leaves every byte outside its own bytes as it was. -/
theorem Mem.get_write_ne (m : List Host.Cell) (a n v b : Nat) (h : b < a ∨ a + n ≤ b) :
    Mem.get (Mem.write m a n v) b = Mem.get m b := by
  induction n generalizing m a v with
  | zero => rfl
  | succ k ih =>
    rw [Mem.write, ih _ _ _ (by omega), Mem.get_set, if_neg (by omega)]

/-- Byte `k` of a write is byte `k` of its value, little-endian (R3). -/
theorem Mem.get_write (m : List Host.Cell) (a n v k : Nat) (h : k < n) :
    Mem.get (Mem.write m a n v) (a + k) = BitVec.ofNat 8 (v / 256 ^ k) := by
  induction n generalizing m a v k with
  | zero => omega
  | succ j ih =>
    rw [Mem.write]
    cases k with
    | zero => rw [Mem.get_write_ne _ _ _ _ _ (by omega), Mem.get_set, if_pos (by omega)]; simp
    | succ i =>
      have := ih (Mem.set m a (BitVec.ofNat 8 v)) (a + 1) (v / 256) i (by omega)
      rw [show a + (i + 1) = a + 1 + i by omega, this, Nat.div_div_eq_div_mul, Nat.pow_succ, Nat.mul_comm]

/-- Reading depends on the bytes read only. -/
theorem readBy_congr {f g : Nat → Byte} {a n : Nat} (h : ∀ k, k < n → f (a + k) = g (a + k)) : readBy f a n = readBy g a n := by
  induction n generalizing a with
  | zero => rfl
  | succ k ih =>
    simp only [readBy]
    have h0 := h 0 (by omega)
    simp only [Nat.add_zero] at h0
    rw [h0, ih fun j hj => by simpa [Nat.add_assoc, Nat.add_comm 1] using h (j + 1) (by omega)]

theorem Mem.read_write_ne (m : List Host.Cell) (a n v b k : Nat) (h : b + k ≤ a ∨ a + n ≤ b) :
    readBy (Mem.get (Mem.write m a n v)) b k = readBy (Mem.get m) b k :=
  readBy_congr fun j hj => Mem.get_write_ne m a n v (b + j) (by omega)

/-- What is written is read again. -/
theorem Mem.read_write (m : List Host.Cell) (a n v : Nat) : readBy (Mem.get (Mem.write m a n v)) a n = v % 256 ^ n := by
  induction n generalizing m a v with
  | zero => simp [readBy, Nat.mod_one]
  | succ k ih =>
    rw [Mem.write, readBy, ih, Mem.get_write_ne _ _ _ _ _ (by omega), Mem.get_set, if_pos rfl, BitVec.toNat_ofNat,
      show 256 ^ (k + 1) = 256 * 256 ^ k from Nat.pow_succ', Nat.mod_mul]

/-! ### Spills -/

theorem Haze.over_append (l m : List Haze) (b : Nat) : Haze.over (l ++ m) b = (Haze.over l b <|> Haze.over m b) := by
  induction l with
  | nil => rfl
  | cons h r ih => simp only [List.cons_append, Haze.over, ih]; split <;> rfl

/-- A write takes the bytes it writes out of every spill, and no other. -/
theorem Haze.over_cut (l : List Haze) (a n b : Nat) :
    Haze.over (Haze.cut l a n) b = if a ≤ b ∧ b < a + n then none else Haze.over l b := by
  induction l with
  | nil => simp [Haze.cut, Haze.over]
  | cons h r ih =>
    rw [Haze.cut, Haze.over_append, ih]
    by_cases hw : a ≤ b ∧ b < a + n
    · rw [if_pos hw, if_pos hw]
      split
      · simp only [Haze.over]; rw [if_neg (by omega)]; rfl
      · rw [Haze.over_append]
        split <;> split <;> simp only [Haze.over] <;> (repeat rw [if_neg (by omega)]) <;> rfl
    · rw [if_neg hw, if_neg hw]
      by_cases hb : h.lo ≤ b ∧ b < h.hi
      · have e : Haze.over (h :: r) b = some h.epoch := by simp only [Haze.over]; rw [if_pos hb]
        rw [e]
        split
        · simp only [Haze.over]; rw [if_pos hb]; rfl
        · rw [Haze.over_append]
          by_cases hl : b < a
          · rw [if_pos (by omega)]; simp only [Haze.over]; rw [if_pos (by omega)]; rfl
          · rw [if_pos (show a + n < h.hi by omega)]
            have e2 : Haze.over [{ h with lo := a + n }] b = some h.epoch := by simp only [Haze.over]; rw [if_pos (by omega)]
            rw [e2]
            split <;> simp only [Haze.over] <;> (try rw [if_neg (by omega)]) <;> rfl
      · have e : Haze.over (h :: r) b = Haze.over r b := by simp only [Haze.over]; rw [if_neg hb]
        rw [e]
        split
        · simp only [Haze.over]; rw [if_neg hb]; rfl
        · rw [Haze.over_append]
          split <;> split <;> simp only [Haze.over] <;> (repeat rw [if_neg (by omega)]) <;> rfl

end Sys2Proof.Machine
end

