-- ==== Sys2Proof/Laws/State.lean ====
section
/-! SUPPORT. What each update of the state leaves alone, field by field, and what each table reads as after it. -/

set_option Elab.async false

namespace Sys2Proof.Machine

variable (s : State)

/-! ### Fields that an update does not touch -/

@[simp] theorem State.setThr_clock (tk : Nat) (t : Thread) : (s.setThr tk t).clock = s.clock := rfl
@[simp] theorem State.setThr_agenda (tk : Nat) (t : Thread) : (s.setThr tk t).agenda = s.agenda := rfl
@[simp] theorem State.setThr_sched (tk : Nat) (t : Thread) : (s.setThr tk t).sched = s.sched := rfl
@[simp] theorem State.setThr_turn (tk : Nat) (t : Thread) : (s.setThr tk t).turn = s.turn := rfl
@[simp] theorem State.setThr_iss (tk : Nat) (t : Thread) : (s.setThr tk t).iss = s.iss := rfl
@[simp] theorem State.setThr_uid (tk : Nat) (t : Thread) : (s.setThr tk t).uid = s.uid := rfl
@[simp] theorem State.setThr_free (tk : Nat) (t : Thread) : (s.setThr tk t).free = s.free := rfl
@[simp] theorem State.setThr_mem (tk : Nat) (t : Thread) : (s.setThr tk t).mem = s.mem := rfl
@[simp] theorem State.setThr_haze (tk : Nat) (t : Thread) : (s.setThr tk t).haze = s.haze := rfl
@[simp] theorem State.setThr_cores (tk : Nat) (t : Thread) : (s.setThr tk t).cores = s.cores := rfl
@[simp] theorem State.setThr_dies (tk : Nat) (t : Thread) : (s.setThr tk t).dies = s.dies := rfl
@[simp] theorem State.setThr_pkgs (tk : Nat) (t : Thread) : (s.setThr tk t).pkgs = s.pkgs := rfl
@[simp] theorem State.setThr_ctxs (tk : Nat) (t : Thread) : (s.setThr tk t).ctxs = s.ctxs := rfl
@[simp] theorem State.setThr_launches (tk : Nat) (t : Thread) : (s.setThr tk t).launches = s.launches := rfl
@[simp] theorem State.setThr_lnext (tk : Nat) (t : Thread) : (s.setThr tk t).lnext = s.lnext := rfl
@[simp] theorem State.setThr_dirs (tk : Nat) (t : Thread) : (s.setThr tk t).dirs = s.dirs := rfl
@[simp] theorem State.setThr_net (tk : Nat) (t : Thread) : (s.setThr tk t).net = s.net := rfl

@[simp] theorem State.modThr_clock (tk : Nat) (f : Thread → Thread) : (s.modThr tk f).clock = s.clock := rfl
@[simp] theorem State.modThr_agenda (tk : Nat) (f : Thread → Thread) : (s.modThr tk f).agenda = s.agenda := rfl
@[simp] theorem State.modThr_sched (tk : Nat) (f : Thread → Thread) : (s.modThr tk f).sched = s.sched := rfl
@[simp] theorem State.modThr_turn (tk : Nat) (f : Thread → Thread) : (s.modThr tk f).turn = s.turn := rfl
@[simp] theorem State.modThr_iss (tk : Nat) (f : Thread → Thread) : (s.modThr tk f).iss = s.iss := rfl
@[simp] theorem State.modThr_uid (tk : Nat) (f : Thread → Thread) : (s.modThr tk f).uid = s.uid := rfl
@[simp] theorem State.modThr_free (tk : Nat) (f : Thread → Thread) : (s.modThr tk f).free = s.free := rfl
@[simp] theorem State.modThr_mem (tk : Nat) (f : Thread → Thread) : (s.modThr tk f).mem = s.mem := rfl
@[simp] theorem State.modThr_haze (tk : Nat) (f : Thread → Thread) : (s.modThr tk f).haze = s.haze := rfl
@[simp] theorem State.modThr_cores (tk : Nat) (f : Thread → Thread) : (s.modThr tk f).cores = s.cores := rfl
@[simp] theorem State.modThr_dies (tk : Nat) (f : Thread → Thread) : (s.modThr tk f).dies = s.dies := rfl
@[simp] theorem State.modThr_pkgs (tk : Nat) (f : Thread → Thread) : (s.modThr tk f).pkgs = s.pkgs := rfl
@[simp] theorem State.modThr_ctxs (tk : Nat) (f : Thread → Thread) : (s.modThr tk f).ctxs = s.ctxs := rfl
@[simp] theorem State.modThr_launches (tk : Nat) (f : Thread → Thread) : (s.modThr tk f).launches = s.launches := rfl
@[simp] theorem State.modThr_lnext (tk : Nat) (f : Thread → Thread) : (s.modThr tk f).lnext = s.lnext := rfl
@[simp] theorem State.modThr_dirs (tk : Nat) (f : Thread → Thread) : (s.modThr tk f).dirs = s.dirs := rfl
@[simp] theorem State.modThr_net (tk : Nat) (f : Thread → Thread) : (s.modThr tk f).net = s.net := rfl

@[simp] theorem State.setCore_clock (ck : Nat) (c : Core) : (s.setCore ck c).clock = s.clock := rfl
@[simp] theorem State.setCore_agenda (ck : Nat) (c : Core) : (s.setCore ck c).agenda = s.agenda := rfl
@[simp] theorem State.setCore_sched (ck : Nat) (c : Core) : (s.setCore ck c).sched = s.sched := rfl
@[simp] theorem State.setCore_turn (ck : Nat) (c : Core) : (s.setCore ck c).turn = s.turn := rfl
@[simp] theorem State.setCore_iss (ck : Nat) (c : Core) : (s.setCore ck c).iss = s.iss := rfl
@[simp] theorem State.setCore_uid (ck : Nat) (c : Core) : (s.setCore ck c).uid = s.uid := rfl
@[simp] theorem State.setCore_free (ck : Nat) (c : Core) : (s.setCore ck c).free = s.free := rfl
@[simp] theorem State.setCore_mem (ck : Nat) (c : Core) : (s.setCore ck c).mem = s.mem := rfl
@[simp] theorem State.setCore_haze (ck : Nat) (c : Core) : (s.setCore ck c).haze = s.haze := rfl
@[simp] theorem State.setCore_threads (ck : Nat) (c : Core) : (s.setCore ck c).threads = s.threads := rfl
@[simp] theorem State.setCore_dies (ck : Nat) (c : Core) : (s.setCore ck c).dies = s.dies := rfl
@[simp] theorem State.setCore_pkgs (ck : Nat) (c : Core) : (s.setCore ck c).pkgs = s.pkgs := rfl
@[simp] theorem State.setCore_ctxs (ck : Nat) (c : Core) : (s.setCore ck c).ctxs = s.ctxs := rfl
@[simp] theorem State.setCore_launches (ck : Nat) (c : Core) : (s.setCore ck c).launches = s.launches := rfl
@[simp] theorem State.setCore_lnext (ck : Nat) (c : Core) : (s.setCore ck c).lnext = s.lnext := rfl
@[simp] theorem State.setCore_dirs (ck : Nat) (c : Core) : (s.setCore ck c).dirs = s.dirs := rfl
@[simp] theorem State.setCore_net (ck : Nat) (c : Core) : (s.setCore ck c).net = s.net := rfl

@[simp] theorem State.modCore_clock (ck : Nat) (f : Core → Core) : (s.modCore ck f).clock = s.clock := rfl
@[simp] theorem State.modCore_agenda (ck : Nat) (f : Core → Core) : (s.modCore ck f).agenda = s.agenda := rfl
@[simp] theorem State.modCore_sched (ck : Nat) (f : Core → Core) : (s.modCore ck f).sched = s.sched := rfl
@[simp] theorem State.modCore_turn (ck : Nat) (f : Core → Core) : (s.modCore ck f).turn = s.turn := rfl
@[simp] theorem State.modCore_iss (ck : Nat) (f : Core → Core) : (s.modCore ck f).iss = s.iss := rfl
@[simp] theorem State.modCore_uid (ck : Nat) (f : Core → Core) : (s.modCore ck f).uid = s.uid := rfl
@[simp] theorem State.modCore_free (ck : Nat) (f : Core → Core) : (s.modCore ck f).free = s.free := rfl
@[simp] theorem State.modCore_mem (ck : Nat) (f : Core → Core) : (s.modCore ck f).mem = s.mem := rfl
@[simp] theorem State.modCore_haze (ck : Nat) (f : Core → Core) : (s.modCore ck f).haze = s.haze := rfl
@[simp] theorem State.modCore_threads (ck : Nat) (f : Core → Core) : (s.modCore ck f).threads = s.threads := rfl
@[simp] theorem State.modCore_dies (ck : Nat) (f : Core → Core) : (s.modCore ck f).dies = s.dies := rfl
@[simp] theorem State.modCore_pkgs (ck : Nat) (f : Core → Core) : (s.modCore ck f).pkgs = s.pkgs := rfl
@[simp] theorem State.modCore_ctxs (ck : Nat) (f : Core → Core) : (s.modCore ck f).ctxs = s.ctxs := rfl
@[simp] theorem State.modCore_launches (ck : Nat) (f : Core → Core) : (s.modCore ck f).launches = s.launches := rfl
@[simp] theorem State.modCore_lnext (ck : Nat) (f : Core → Core) : (s.modCore ck f).lnext = s.lnext := rfl
@[simp] theorem State.modCore_dirs (ck : Nat) (f : Core → Core) : (s.modCore ck f).dirs = s.dirs := rfl
@[simp] theorem State.modCore_net (ck : Nat) (f : Core → Core) : (s.modCore ck f).net = s.net := rfl

@[simp] theorem State.setDie_clock (dk : Nat) (d : Die) : (s.setDie dk d).clock = s.clock := rfl
@[simp] theorem State.setDie_agenda (dk : Nat) (d : Die) : (s.setDie dk d).agenda = s.agenda := rfl
@[simp] theorem State.setDie_sched (dk : Nat) (d : Die) : (s.setDie dk d).sched = s.sched := rfl
@[simp] theorem State.setDie_turn (dk : Nat) (d : Die) : (s.setDie dk d).turn = s.turn := rfl
@[simp] theorem State.setDie_iss (dk : Nat) (d : Die) : (s.setDie dk d).iss = s.iss := rfl
@[simp] theorem State.setDie_uid (dk : Nat) (d : Die) : (s.setDie dk d).uid = s.uid := rfl
@[simp] theorem State.setDie_free (dk : Nat) (d : Die) : (s.setDie dk d).free = s.free := rfl
@[simp] theorem State.setDie_mem (dk : Nat) (d : Die) : (s.setDie dk d).mem = s.mem := rfl
@[simp] theorem State.setDie_haze (dk : Nat) (d : Die) : (s.setDie dk d).haze = s.haze := rfl
@[simp] theorem State.setDie_threads (dk : Nat) (d : Die) : (s.setDie dk d).threads = s.threads := rfl
@[simp] theorem State.setDie_cores (dk : Nat) (d : Die) : (s.setDie dk d).cores = s.cores := rfl
@[simp] theorem State.setDie_pkgs (dk : Nat) (d : Die) : (s.setDie dk d).pkgs = s.pkgs := rfl
@[simp] theorem State.setDie_ctxs (dk : Nat) (d : Die) : (s.setDie dk d).ctxs = s.ctxs := rfl
@[simp] theorem State.setDie_launches (dk : Nat) (d : Die) : (s.setDie dk d).launches = s.launches := rfl
@[simp] theorem State.setDie_lnext (dk : Nat) (d : Die) : (s.setDie dk d).lnext = s.lnext := rfl
@[simp] theorem State.setDie_dirs (dk : Nat) (d : Die) : (s.setDie dk d).dirs = s.dirs := rfl
@[simp] theorem State.setDie_net (dk : Nat) (d : Die) : (s.setDie dk d).net = s.net := rfl

@[simp] theorem State.modDie_clock (dk : Nat) (f : Die → Die) : (s.modDie dk f).clock = s.clock := rfl
@[simp] theorem State.modDie_agenda (dk : Nat) (f : Die → Die) : (s.modDie dk f).agenda = s.agenda := rfl
@[simp] theorem State.modDie_sched (dk : Nat) (f : Die → Die) : (s.modDie dk f).sched = s.sched := rfl
@[simp] theorem State.modDie_turn (dk : Nat) (f : Die → Die) : (s.modDie dk f).turn = s.turn := rfl
@[simp] theorem State.modDie_iss (dk : Nat) (f : Die → Die) : (s.modDie dk f).iss = s.iss := rfl
@[simp] theorem State.modDie_uid (dk : Nat) (f : Die → Die) : (s.modDie dk f).uid = s.uid := rfl
@[simp] theorem State.modDie_free (dk : Nat) (f : Die → Die) : (s.modDie dk f).free = s.free := rfl
@[simp] theorem State.modDie_mem (dk : Nat) (f : Die → Die) : (s.modDie dk f).mem = s.mem := rfl
@[simp] theorem State.modDie_haze (dk : Nat) (f : Die → Die) : (s.modDie dk f).haze = s.haze := rfl
@[simp] theorem State.modDie_threads (dk : Nat) (f : Die → Die) : (s.modDie dk f).threads = s.threads := rfl
@[simp] theorem State.modDie_cores (dk : Nat) (f : Die → Die) : (s.modDie dk f).cores = s.cores := rfl
@[simp] theorem State.modDie_pkgs (dk : Nat) (f : Die → Die) : (s.modDie dk f).pkgs = s.pkgs := rfl
@[simp] theorem State.modDie_ctxs (dk : Nat) (f : Die → Die) : (s.modDie dk f).ctxs = s.ctxs := rfl
@[simp] theorem State.modDie_launches (dk : Nat) (f : Die → Die) : (s.modDie dk f).launches = s.launches := rfl
@[simp] theorem State.modDie_lnext (dk : Nat) (f : Die → Die) : (s.modDie dk f).lnext = s.lnext := rfl
@[simp] theorem State.modDie_dirs (dk : Nat) (f : Die → Die) : (s.modDie dk f).dirs = s.dirs := rfl
@[simp] theorem State.modDie_net (dk : Nat) (f : Die → Die) : (s.modDie dk f).net = s.net := rfl

@[simp] theorem State.setPkg_clock (p : Nat) (k : Pkg) : (s.setPkg p k).clock = s.clock := rfl
@[simp] theorem State.setPkg_agenda (p : Nat) (k : Pkg) : (s.setPkg p k).agenda = s.agenda := rfl
@[simp] theorem State.setPkg_sched (p : Nat) (k : Pkg) : (s.setPkg p k).sched = s.sched := rfl
@[simp] theorem State.setPkg_turn (p : Nat) (k : Pkg) : (s.setPkg p k).turn = s.turn := rfl
@[simp] theorem State.setPkg_iss (p : Nat) (k : Pkg) : (s.setPkg p k).iss = s.iss := rfl
@[simp] theorem State.setPkg_uid (p : Nat) (k : Pkg) : (s.setPkg p k).uid = s.uid := rfl
@[simp] theorem State.setPkg_free (p : Nat) (k : Pkg) : (s.setPkg p k).free = s.free := rfl
@[simp] theorem State.setPkg_mem (p : Nat) (k : Pkg) : (s.setPkg p k).mem = s.mem := rfl
@[simp] theorem State.setPkg_haze (p : Nat) (k : Pkg) : (s.setPkg p k).haze = s.haze := rfl
@[simp] theorem State.setPkg_threads (p : Nat) (k : Pkg) : (s.setPkg p k).threads = s.threads := rfl
@[simp] theorem State.setPkg_cores (p : Nat) (k : Pkg) : (s.setPkg p k).cores = s.cores := rfl
@[simp] theorem State.setPkg_dies (p : Nat) (k : Pkg) : (s.setPkg p k).dies = s.dies := rfl
@[simp] theorem State.setPkg_ctxs (p : Nat) (k : Pkg) : (s.setPkg p k).ctxs = s.ctxs := rfl
@[simp] theorem State.setPkg_launches (p : Nat) (k : Pkg) : (s.setPkg p k).launches = s.launches := rfl
@[simp] theorem State.setPkg_lnext (p : Nat) (k : Pkg) : (s.setPkg p k).lnext = s.lnext := rfl
@[simp] theorem State.setPkg_dirs (p : Nat) (k : Pkg) : (s.setPkg p k).dirs = s.dirs := rfl
@[simp] theorem State.setPkg_net (p : Nat) (k : Pkg) : (s.setPkg p k).net = s.net := rfl

@[simp] theorem State.modPkg_clock (p : Nat) (f : Pkg → Pkg) : (s.modPkg p f).clock = s.clock := rfl
@[simp] theorem State.modPkg_agenda (p : Nat) (f : Pkg → Pkg) : (s.modPkg p f).agenda = s.agenda := rfl
@[simp] theorem State.modPkg_sched (p : Nat) (f : Pkg → Pkg) : (s.modPkg p f).sched = s.sched := rfl
@[simp] theorem State.modPkg_turn (p : Nat) (f : Pkg → Pkg) : (s.modPkg p f).turn = s.turn := rfl
@[simp] theorem State.modPkg_iss (p : Nat) (f : Pkg → Pkg) : (s.modPkg p f).iss = s.iss := rfl
@[simp] theorem State.modPkg_uid (p : Nat) (f : Pkg → Pkg) : (s.modPkg p f).uid = s.uid := rfl
@[simp] theorem State.modPkg_free (p : Nat) (f : Pkg → Pkg) : (s.modPkg p f).free = s.free := rfl
@[simp] theorem State.modPkg_mem (p : Nat) (f : Pkg → Pkg) : (s.modPkg p f).mem = s.mem := rfl
@[simp] theorem State.modPkg_haze (p : Nat) (f : Pkg → Pkg) : (s.modPkg p f).haze = s.haze := rfl
@[simp] theorem State.modPkg_threads (p : Nat) (f : Pkg → Pkg) : (s.modPkg p f).threads = s.threads := rfl
@[simp] theorem State.modPkg_cores (p : Nat) (f : Pkg → Pkg) : (s.modPkg p f).cores = s.cores := rfl
@[simp] theorem State.modPkg_dies (p : Nat) (f : Pkg → Pkg) : (s.modPkg p f).dies = s.dies := rfl
@[simp] theorem State.modPkg_ctxs (p : Nat) (f : Pkg → Pkg) : (s.modPkg p f).ctxs = s.ctxs := rfl
@[simp] theorem State.modPkg_launches (p : Nat) (f : Pkg → Pkg) : (s.modPkg p f).launches = s.launches := rfl
@[simp] theorem State.modPkg_lnext (p : Nat) (f : Pkg → Pkg) : (s.modPkg p f).lnext = s.lnext := rfl
@[simp] theorem State.modPkg_dirs (p : Nat) (f : Pkg → Pkg) : (s.modPkg p f).dirs = s.dirs := rfl
@[simp] theorem State.modPkg_net (p : Nat) (f : Pkg → Pkg) : (s.modPkg p f).net = s.net := rfl

@[simp] theorem State.setCtx_clock (p c : Nat) (x : Ctx) : (s.setCtx p c x).clock = s.clock := rfl
@[simp] theorem State.setCtx_agenda (p c : Nat) (x : Ctx) : (s.setCtx p c x).agenda = s.agenda := rfl
@[simp] theorem State.setCtx_sched (p c : Nat) (x : Ctx) : (s.setCtx p c x).sched = s.sched := rfl
@[simp] theorem State.setCtx_turn (p c : Nat) (x : Ctx) : (s.setCtx p c x).turn = s.turn := rfl
@[simp] theorem State.setCtx_iss (p c : Nat) (x : Ctx) : (s.setCtx p c x).iss = s.iss := rfl
@[simp] theorem State.setCtx_uid (p c : Nat) (x : Ctx) : (s.setCtx p c x).uid = s.uid := rfl
@[simp] theorem State.setCtx_free (p c : Nat) (x : Ctx) : (s.setCtx p c x).free = s.free := rfl
@[simp] theorem State.setCtx_mem (p c : Nat) (x : Ctx) : (s.setCtx p c x).mem = s.mem := rfl
@[simp] theorem State.setCtx_haze (p c : Nat) (x : Ctx) : (s.setCtx p c x).haze = s.haze := rfl
@[simp] theorem State.setCtx_threads (p c : Nat) (x : Ctx) : (s.setCtx p c x).threads = s.threads := rfl
@[simp] theorem State.setCtx_cores (p c : Nat) (x : Ctx) : (s.setCtx p c x).cores = s.cores := rfl
@[simp] theorem State.setCtx_dies (p c : Nat) (x : Ctx) : (s.setCtx p c x).dies = s.dies := rfl
@[simp] theorem State.setCtx_pkgs (p c : Nat) (x : Ctx) : (s.setCtx p c x).pkgs = s.pkgs := rfl
@[simp] theorem State.setCtx_launches (p c : Nat) (x : Ctx) : (s.setCtx p c x).launches = s.launches := rfl
@[simp] theorem State.setCtx_lnext (p c : Nat) (x : Ctx) : (s.setCtx p c x).lnext = s.lnext := rfl
@[simp] theorem State.setCtx_dirs (p c : Nat) (x : Ctx) : (s.setCtx p c x).dirs = s.dirs := rfl
@[simp] theorem State.setCtx_net (p c : Nat) (x : Ctx) : (s.setCtx p c x).net = s.net := rfl

@[simp] theorem State.modCtx_clock (p c : Nat) (f : Ctx → Ctx) : (s.modCtx p c f).clock = s.clock := rfl
@[simp] theorem State.modCtx_agenda (p c : Nat) (f : Ctx → Ctx) : (s.modCtx p c f).agenda = s.agenda := rfl
@[simp] theorem State.modCtx_sched (p c : Nat) (f : Ctx → Ctx) : (s.modCtx p c f).sched = s.sched := rfl
@[simp] theorem State.modCtx_turn (p c : Nat) (f : Ctx → Ctx) : (s.modCtx p c f).turn = s.turn := rfl
@[simp] theorem State.modCtx_iss (p c : Nat) (f : Ctx → Ctx) : (s.modCtx p c f).iss = s.iss := rfl
@[simp] theorem State.modCtx_uid (p c : Nat) (f : Ctx → Ctx) : (s.modCtx p c f).uid = s.uid := rfl
@[simp] theorem State.modCtx_free (p c : Nat) (f : Ctx → Ctx) : (s.modCtx p c f).free = s.free := rfl
@[simp] theorem State.modCtx_mem (p c : Nat) (f : Ctx → Ctx) : (s.modCtx p c f).mem = s.mem := rfl
@[simp] theorem State.modCtx_haze (p c : Nat) (f : Ctx → Ctx) : (s.modCtx p c f).haze = s.haze := rfl
@[simp] theorem State.modCtx_threads (p c : Nat) (f : Ctx → Ctx) : (s.modCtx p c f).threads = s.threads := rfl
@[simp] theorem State.modCtx_cores (p c : Nat) (f : Ctx → Ctx) : (s.modCtx p c f).cores = s.cores := rfl
@[simp] theorem State.modCtx_dies (p c : Nat) (f : Ctx → Ctx) : (s.modCtx p c f).dies = s.dies := rfl
@[simp] theorem State.modCtx_pkgs (p c : Nat) (f : Ctx → Ctx) : (s.modCtx p c f).pkgs = s.pkgs := rfl
@[simp] theorem State.modCtx_launches (p c : Nat) (f : Ctx → Ctx) : (s.modCtx p c f).launches = s.launches := rfl
@[simp] theorem State.modCtx_lnext (p c : Nat) (f : Ctx → Ctx) : (s.modCtx p c f).lnext = s.lnext := rfl
@[simp] theorem State.modCtx_dirs (p c : Nat) (f : Ctx → Ctx) : (s.modCtx p c f).dirs = s.dirs := rfl
@[simp] theorem State.modCtx_net (p c : Nat) (f : Ctx → Ctx) : (s.modCtx p c f).net = s.net := rfl

@[simp] theorem State.setLaunch_clock (k : Nat) (l : Launch) : (s.setLaunch k l).clock = s.clock := rfl
@[simp] theorem State.setLaunch_agenda (k : Nat) (l : Launch) : (s.setLaunch k l).agenda = s.agenda := rfl
@[simp] theorem State.setLaunch_sched (k : Nat) (l : Launch) : (s.setLaunch k l).sched = s.sched := rfl
@[simp] theorem State.setLaunch_turn (k : Nat) (l : Launch) : (s.setLaunch k l).turn = s.turn := rfl
@[simp] theorem State.setLaunch_iss (k : Nat) (l : Launch) : (s.setLaunch k l).iss = s.iss := rfl
@[simp] theorem State.setLaunch_uid (k : Nat) (l : Launch) : (s.setLaunch k l).uid = s.uid := rfl
@[simp] theorem State.setLaunch_free (k : Nat) (l : Launch) : (s.setLaunch k l).free = s.free := rfl
@[simp] theorem State.setLaunch_mem (k : Nat) (l : Launch) : (s.setLaunch k l).mem = s.mem := rfl
@[simp] theorem State.setLaunch_haze (k : Nat) (l : Launch) : (s.setLaunch k l).haze = s.haze := rfl
@[simp] theorem State.setLaunch_threads (k : Nat) (l : Launch) : (s.setLaunch k l).threads = s.threads := rfl
@[simp] theorem State.setLaunch_cores (k : Nat) (l : Launch) : (s.setLaunch k l).cores = s.cores := rfl
@[simp] theorem State.setLaunch_dies (k : Nat) (l : Launch) : (s.setLaunch k l).dies = s.dies := rfl
@[simp] theorem State.setLaunch_pkgs (k : Nat) (l : Launch) : (s.setLaunch k l).pkgs = s.pkgs := rfl
@[simp] theorem State.setLaunch_ctxs (k : Nat) (l : Launch) : (s.setLaunch k l).ctxs = s.ctxs := rfl
@[simp] theorem State.setLaunch_lnext (k : Nat) (l : Launch) : (s.setLaunch k l).lnext = s.lnext := rfl
@[simp] theorem State.setLaunch_dirs (k : Nat) (l : Launch) : (s.setLaunch k l).dirs = s.dirs := rfl
@[simp] theorem State.setLaunch_net (k : Nat) (l : Launch) : (s.setLaunch k l).net = s.net := rfl

@[simp] theorem State.setDir_clock (l : Nat) (d : Dir) : (s.setDir l d).clock = s.clock := rfl
@[simp] theorem State.setDir_agenda (l : Nat) (d : Dir) : (s.setDir l d).agenda = s.agenda := rfl
@[simp] theorem State.setDir_sched (l : Nat) (d : Dir) : (s.setDir l d).sched = s.sched := rfl
@[simp] theorem State.setDir_turn (l : Nat) (d : Dir) : (s.setDir l d).turn = s.turn := rfl
@[simp] theorem State.setDir_iss (l : Nat) (d : Dir) : (s.setDir l d).iss = s.iss := rfl
@[simp] theorem State.setDir_uid (l : Nat) (d : Dir) : (s.setDir l d).uid = s.uid := rfl
@[simp] theorem State.setDir_free (l : Nat) (d : Dir) : (s.setDir l d).free = s.free := rfl
@[simp] theorem State.setDir_mem (l : Nat) (d : Dir) : (s.setDir l d).mem = s.mem := rfl
@[simp] theorem State.setDir_haze (l : Nat) (d : Dir) : (s.setDir l d).haze = s.haze := rfl
@[simp] theorem State.setDir_threads (l : Nat) (d : Dir) : (s.setDir l d).threads = s.threads := rfl
@[simp] theorem State.setDir_cores (l : Nat) (d : Dir) : (s.setDir l d).cores = s.cores := rfl
@[simp] theorem State.setDir_dies (l : Nat) (d : Dir) : (s.setDir l d).dies = s.dies := rfl
@[simp] theorem State.setDir_pkgs (l : Nat) (d : Dir) : (s.setDir l d).pkgs = s.pkgs := rfl
@[simp] theorem State.setDir_ctxs (l : Nat) (d : Dir) : (s.setDir l d).ctxs = s.ctxs := rfl
@[simp] theorem State.setDir_launches (l : Nat) (d : Dir) : (s.setDir l d).launches = s.launches := rfl
@[simp] theorem State.setDir_lnext (l : Nat) (d : Dir) : (s.setDir l d).lnext = s.lnext := rfl
@[simp] theorem State.setDir_net (l : Nat) (d : Dir) : (s.setDir l d).net = s.net := rfl

@[simp] theorem State.modDir_clock (l : Nat) (f : Dir → Dir) : (s.modDir l f).clock = s.clock := rfl
@[simp] theorem State.modDir_agenda (l : Nat) (f : Dir → Dir) : (s.modDir l f).agenda = s.agenda := rfl
@[simp] theorem State.modDir_sched (l : Nat) (f : Dir → Dir) : (s.modDir l f).sched = s.sched := rfl
@[simp] theorem State.modDir_turn (l : Nat) (f : Dir → Dir) : (s.modDir l f).turn = s.turn := rfl
@[simp] theorem State.modDir_iss (l : Nat) (f : Dir → Dir) : (s.modDir l f).iss = s.iss := rfl
@[simp] theorem State.modDir_uid (l : Nat) (f : Dir → Dir) : (s.modDir l f).uid = s.uid := rfl
@[simp] theorem State.modDir_free (l : Nat) (f : Dir → Dir) : (s.modDir l f).free = s.free := rfl
@[simp] theorem State.modDir_mem (l : Nat) (f : Dir → Dir) : (s.modDir l f).mem = s.mem := rfl
@[simp] theorem State.modDir_haze (l : Nat) (f : Dir → Dir) : (s.modDir l f).haze = s.haze := rfl
@[simp] theorem State.modDir_threads (l : Nat) (f : Dir → Dir) : (s.modDir l f).threads = s.threads := rfl
@[simp] theorem State.modDir_cores (l : Nat) (f : Dir → Dir) : (s.modDir l f).cores = s.cores := rfl
@[simp] theorem State.modDir_dies (l : Nat) (f : Dir → Dir) : (s.modDir l f).dies = s.dies := rfl
@[simp] theorem State.modDir_pkgs (l : Nat) (f : Dir → Dir) : (s.modDir l f).pkgs = s.pkgs := rfl
@[simp] theorem State.modDir_ctxs (l : Nat) (f : Dir → Dir) : (s.modDir l f).ctxs = s.ctxs := rfl
@[simp] theorem State.modDir_launches (l : Nat) (f : Dir → Dir) : (s.modDir l f).launches = s.launches := rfl
@[simp] theorem State.modDir_lnext (l : Nat) (f : Dir → Dir) : (s.modDir l f).lnext = s.lnext := rfl
@[simp] theorem State.modDir_net (l : Nat) (f : Dir → Dir) : (s.modDir l f).net = s.net := rfl

@[simp] theorem State.setALine_clock (p l : Nat) (a : ALine) : (s.setALine p l a).clock = s.clock := rfl
@[simp] theorem State.setALine_agenda (p l : Nat) (a : ALine) : (s.setALine p l a).agenda = s.agenda := rfl
@[simp] theorem State.setALine_sched (p l : Nat) (a : ALine) : (s.setALine p l a).sched = s.sched := rfl
@[simp] theorem State.setALine_turn (p l : Nat) (a : ALine) : (s.setALine p l a).turn = s.turn := rfl
@[simp] theorem State.setALine_iss (p l : Nat) (a : ALine) : (s.setALine p l a).iss = s.iss := rfl
@[simp] theorem State.setALine_uid (p l : Nat) (a : ALine) : (s.setALine p l a).uid = s.uid := rfl
@[simp] theorem State.setALine_free (p l : Nat) (a : ALine) : (s.setALine p l a).free = s.free := rfl
@[simp] theorem State.setALine_mem (p l : Nat) (a : ALine) : (s.setALine p l a).mem = s.mem := rfl
@[simp] theorem State.setALine_haze (p l : Nat) (a : ALine) : (s.setALine p l a).haze = s.haze := rfl
@[simp] theorem State.setALine_threads (p l : Nat) (a : ALine) : (s.setALine p l a).threads = s.threads := rfl
@[simp] theorem State.setALine_cores (p l : Nat) (a : ALine) : (s.setALine p l a).cores = s.cores := rfl
@[simp] theorem State.setALine_dies (p l : Nat) (a : ALine) : (s.setALine p l a).dies = s.dies := rfl
@[simp] theorem State.setALine_ctxs (p l : Nat) (a : ALine) : (s.setALine p l a).ctxs = s.ctxs := rfl
@[simp] theorem State.setALine_launches (p l : Nat) (a : ALine) : (s.setALine p l a).launches = s.launches := rfl
@[simp] theorem State.setALine_lnext (p l : Nat) (a : ALine) : (s.setALine p l a).lnext = s.lnext := rfl
@[simp] theorem State.setALine_dirs (p l : Nat) (a : ALine) : (s.setALine p l a).dirs = s.dirs := rfl
@[simp] theorem State.setALine_net (p l : Nat) (a : ALine) : (s.setALine p l a).net = s.net := rfl

@[simp] theorem State.modALine_clock (p l : Nat) (f : ALine → ALine) : (s.modALine p l f).clock = s.clock := rfl
@[simp] theorem State.modALine_agenda (p l : Nat) (f : ALine → ALine) : (s.modALine p l f).agenda = s.agenda := rfl
@[simp] theorem State.modALine_sched (p l : Nat) (f : ALine → ALine) : (s.modALine p l f).sched = s.sched := rfl
@[simp] theorem State.modALine_turn (p l : Nat) (f : ALine → ALine) : (s.modALine p l f).turn = s.turn := rfl
@[simp] theorem State.modALine_iss (p l : Nat) (f : ALine → ALine) : (s.modALine p l f).iss = s.iss := rfl
@[simp] theorem State.modALine_uid (p l : Nat) (f : ALine → ALine) : (s.modALine p l f).uid = s.uid := rfl
@[simp] theorem State.modALine_free (p l : Nat) (f : ALine → ALine) : (s.modALine p l f).free = s.free := rfl
@[simp] theorem State.modALine_mem (p l : Nat) (f : ALine → ALine) : (s.modALine p l f).mem = s.mem := rfl
@[simp] theorem State.modALine_haze (p l : Nat) (f : ALine → ALine) : (s.modALine p l f).haze = s.haze := rfl
@[simp] theorem State.modALine_threads (p l : Nat) (f : ALine → ALine) : (s.modALine p l f).threads = s.threads := rfl
@[simp] theorem State.modALine_cores (p l : Nat) (f : ALine → ALine) : (s.modALine p l f).cores = s.cores := rfl
@[simp] theorem State.modALine_dies (p l : Nat) (f : ALine → ALine) : (s.modALine p l f).dies = s.dies := rfl
@[simp] theorem State.modALine_ctxs (p l : Nat) (f : ALine → ALine) : (s.modALine p l f).ctxs = s.ctxs := rfl
@[simp] theorem State.modALine_launches (p l : Nat) (f : ALine → ALine) : (s.modALine p l f).launches = s.launches := rfl
@[simp] theorem State.modALine_lnext (p l : Nat) (f : ALine → ALine) : (s.modALine p l f).lnext = s.lnext := rfl
@[simp] theorem State.modALine_dirs (p l : Nat) (f : ALine → ALine) : (s.modALine p l f).dirs = s.dirs := rfl
@[simp] theorem State.modALine_net (p l : Nat) (f : ALine → ALine) : (s.modALine p l f).net = s.net := rfl

@[simp] theorem State.setPipe_clock (ck half : Nat) (p : Pipe) : (s.setPipe ck half p).clock = s.clock := rfl
@[simp] theorem State.setPipe_agenda (ck half : Nat) (p : Pipe) : (s.setPipe ck half p).agenda = s.agenda := rfl
@[simp] theorem State.setPipe_sched (ck half : Nat) (p : Pipe) : (s.setPipe ck half p).sched = s.sched := rfl
@[simp] theorem State.setPipe_turn (ck half : Nat) (p : Pipe) : (s.setPipe ck half p).turn = s.turn := rfl
@[simp] theorem State.setPipe_iss (ck half : Nat) (p : Pipe) : (s.setPipe ck half p).iss = s.iss := rfl
@[simp] theorem State.setPipe_uid (ck half : Nat) (p : Pipe) : (s.setPipe ck half p).uid = s.uid := rfl
@[simp] theorem State.setPipe_free (ck half : Nat) (p : Pipe) : (s.setPipe ck half p).free = s.free := rfl
@[simp] theorem State.setPipe_mem (ck half : Nat) (p : Pipe) : (s.setPipe ck half p).mem = s.mem := rfl
@[simp] theorem State.setPipe_haze (ck half : Nat) (p : Pipe) : (s.setPipe ck half p).haze = s.haze := rfl
@[simp] theorem State.setPipe_threads (ck half : Nat) (p : Pipe) : (s.setPipe ck half p).threads = s.threads := rfl
@[simp] theorem State.setPipe_dies (ck half : Nat) (p : Pipe) : (s.setPipe ck half p).dies = s.dies := rfl
@[simp] theorem State.setPipe_pkgs (ck half : Nat) (p : Pipe) : (s.setPipe ck half p).pkgs = s.pkgs := rfl
@[simp] theorem State.setPipe_ctxs (ck half : Nat) (p : Pipe) : (s.setPipe ck half p).ctxs = s.ctxs := rfl
@[simp] theorem State.setPipe_launches (ck half : Nat) (p : Pipe) : (s.setPipe ck half p).launches = s.launches := rfl
@[simp] theorem State.setPipe_lnext (ck half : Nat) (p : Pipe) : (s.setPipe ck half p).lnext = s.lnext := rfl
@[simp] theorem State.setPipe_dirs (ck half : Nat) (p : Pipe) : (s.setPipe ck half p).dirs = s.dirs := rfl
@[simp] theorem State.setPipe_net (ck half : Nat) (p : Pipe) : (s.setPipe ck half p).net = s.net := rfl

@[simp] theorem State.setShReg_clock (tk r : Nat) (x : ShReg) : (s.setShReg tk r x).clock = s.clock := rfl
@[simp] theorem State.setShReg_agenda (tk r : Nat) (x : ShReg) : (s.setShReg tk r x).agenda = s.agenda := rfl
@[simp] theorem State.setShReg_sched (tk r : Nat) (x : ShReg) : (s.setShReg tk r x).sched = s.sched := rfl
@[simp] theorem State.setShReg_turn (tk r : Nat) (x : ShReg) : (s.setShReg tk r x).turn = s.turn := rfl
@[simp] theorem State.setShReg_iss (tk r : Nat) (x : ShReg) : (s.setShReg tk r x).iss = s.iss := rfl
@[simp] theorem State.setShReg_uid (tk r : Nat) (x : ShReg) : (s.setShReg tk r x).uid = s.uid := rfl
@[simp] theorem State.setShReg_free (tk r : Nat) (x : ShReg) : (s.setShReg tk r x).free = s.free := rfl
@[simp] theorem State.setShReg_mem (tk r : Nat) (x : ShReg) : (s.setShReg tk r x).mem = s.mem := rfl
@[simp] theorem State.setShReg_haze (tk r : Nat) (x : ShReg) : (s.setShReg tk r x).haze = s.haze := rfl
@[simp] theorem State.setShReg_threads (tk r : Nat) (x : ShReg) : (s.setShReg tk r x).threads = s.threads := rfl
@[simp] theorem State.setShReg_dies (tk r : Nat) (x : ShReg) : (s.setShReg tk r x).dies = s.dies := rfl
@[simp] theorem State.setShReg_pkgs (tk r : Nat) (x : ShReg) : (s.setShReg tk r x).pkgs = s.pkgs := rfl
@[simp] theorem State.setShReg_ctxs (tk r : Nat) (x : ShReg) : (s.setShReg tk r x).ctxs = s.ctxs := rfl
@[simp] theorem State.setShReg_launches (tk r : Nat) (x : ShReg) : (s.setShReg tk r x).launches = s.launches := rfl
@[simp] theorem State.setShReg_lnext (tk r : Nat) (x : ShReg) : (s.setShReg tk r x).lnext = s.lnext := rfl
@[simp] theorem State.setShReg_dirs (tk r : Nat) (x : ShReg) : (s.setShReg tk r x).dirs = s.dirs := rfl
@[simp] theorem State.setShReg_net (tk r : Nat) (x : ShReg) : (s.setShReg tk r x).net = s.net := rfl

@[simp] theorem State.write_clock (a n v : Nat) : (s.write a n v).clock = s.clock := rfl
@[simp] theorem State.write_agenda (a n v : Nat) : (s.write a n v).agenda = s.agenda := rfl
@[simp] theorem State.write_sched (a n v : Nat) : (s.write a n v).sched = s.sched := rfl
@[simp] theorem State.write_turn (a n v : Nat) : (s.write a n v).turn = s.turn := rfl
@[simp] theorem State.write_iss (a n v : Nat) : (s.write a n v).iss = s.iss := rfl
@[simp] theorem State.write_uid (a n v : Nat) : (s.write a n v).uid = s.uid := rfl
@[simp] theorem State.write_free (a n v : Nat) : (s.write a n v).free = s.free := rfl
@[simp] theorem State.write_threads (a n v : Nat) : (s.write a n v).threads = s.threads := rfl
@[simp] theorem State.write_cores (a n v : Nat) : (s.write a n v).cores = s.cores := rfl
@[simp] theorem State.write_dies (a n v : Nat) : (s.write a n v).dies = s.dies := rfl
@[simp] theorem State.write_pkgs (a n v : Nat) : (s.write a n v).pkgs = s.pkgs := rfl
@[simp] theorem State.write_ctxs (a n v : Nat) : (s.write a n v).ctxs = s.ctxs := rfl
@[simp] theorem State.write_launches (a n v : Nat) : (s.write a n v).launches = s.launches := rfl
@[simp] theorem State.write_lnext (a n v : Nat) : (s.write a n v).lnext = s.lnext := rfl
@[simp] theorem State.write_dirs (a n v : Nat) : (s.write a n v).dirs = s.dirs := rfl
@[simp] theorem State.write_net (a n v : Nat) : (s.write a n v).net = s.net := rfl

theorem State.writeBytes_eq (l : List Byte) : ∀ (s : State) (a : Nat), s.writeBytes a l =
    { s with mem := (s.writeBytes a l).mem, haze := (s.writeBytes a l).haze } := by
  induction l with
  | nil => intro s a; rfl
  | cons b r ih => intro s a; rw [State.writeBytes, ih]

@[simp] theorem State.writeBytes_clock (a : Nat) (l : List Byte) : (s.writeBytes a l).clock = s.clock := by
  rw [State.writeBytes_eq]
@[simp] theorem State.writeBytes_agenda (a : Nat) (l : List Byte) : (s.writeBytes a l).agenda = s.agenda := by
  rw [State.writeBytes_eq]
@[simp] theorem State.writeBytes_sched (a : Nat) (l : List Byte) : (s.writeBytes a l).sched = s.sched := by
  rw [State.writeBytes_eq]
@[simp] theorem State.writeBytes_turn (a : Nat) (l : List Byte) : (s.writeBytes a l).turn = s.turn := by
  rw [State.writeBytes_eq]
@[simp] theorem State.writeBytes_iss (a : Nat) (l : List Byte) : (s.writeBytes a l).iss = s.iss := by
  rw [State.writeBytes_eq]
@[simp] theorem State.writeBytes_uid (a : Nat) (l : List Byte) : (s.writeBytes a l).uid = s.uid := by
  rw [State.writeBytes_eq]
@[simp] theorem State.writeBytes_free (a : Nat) (l : List Byte) : (s.writeBytes a l).free = s.free := by
  rw [State.writeBytes_eq]
@[simp] theorem State.writeBytes_threads (a : Nat) (l : List Byte) : (s.writeBytes a l).threads = s.threads := by
  rw [State.writeBytes_eq]
@[simp] theorem State.writeBytes_cores (a : Nat) (l : List Byte) : (s.writeBytes a l).cores = s.cores := by
  rw [State.writeBytes_eq]
@[simp] theorem State.writeBytes_dies (a : Nat) (l : List Byte) : (s.writeBytes a l).dies = s.dies := by
  rw [State.writeBytes_eq]
@[simp] theorem State.writeBytes_pkgs (a : Nat) (l : List Byte) : (s.writeBytes a l).pkgs = s.pkgs := by
  rw [State.writeBytes_eq]
@[simp] theorem State.writeBytes_ctxs (a : Nat) (l : List Byte) : (s.writeBytes a l).ctxs = s.ctxs := by
  rw [State.writeBytes_eq]
@[simp] theorem State.writeBytes_launches (a : Nat) (l : List Byte) : (s.writeBytes a l).launches = s.launches := by
  rw [State.writeBytes_eq]
@[simp] theorem State.writeBytes_lnext (a : Nat) (l : List Byte) : (s.writeBytes a l).lnext = s.lnext := by
  rw [State.writeBytes_eq]
@[simp] theorem State.writeBytes_dirs (a : Nat) (l : List Byte) : (s.writeBytes a l).dirs = s.dirs := by
  rw [State.writeBytes_eq]
@[simp] theorem State.writeBytes_net (a : Nat) (l : List Byte) : (s.writeBytes a l).net = s.net := by
  rw [State.writeBytes_eq]
@[simp] theorem State.writeMask_clock (a n v m : Nat) : (s.writeMask a n v m).clock = s.clock := rfl
@[simp] theorem State.writeMask_agenda (a n v m : Nat) : (s.writeMask a n v m).agenda = s.agenda := rfl
@[simp] theorem State.writeMask_sched (a n v m : Nat) : (s.writeMask a n v m).sched = s.sched := rfl
@[simp] theorem State.writeMask_turn (a n v m : Nat) : (s.writeMask a n v m).turn = s.turn := rfl
@[simp] theorem State.writeMask_iss (a n v m : Nat) : (s.writeMask a n v m).iss = s.iss := rfl
@[simp] theorem State.writeMask_uid (a n v m : Nat) : (s.writeMask a n v m).uid = s.uid := rfl
@[simp] theorem State.writeMask_free (a n v m : Nat) : (s.writeMask a n v m).free = s.free := rfl
@[simp] theorem State.writeMask_threads (a n v m : Nat) : (s.writeMask a n v m).threads = s.threads := rfl
@[simp] theorem State.writeMask_cores (a n v m : Nat) : (s.writeMask a n v m).cores = s.cores := rfl
@[simp] theorem State.writeMask_dies (a n v m : Nat) : (s.writeMask a n v m).dies = s.dies := rfl
@[simp] theorem State.writeMask_pkgs (a n v m : Nat) : (s.writeMask a n v m).pkgs = s.pkgs := rfl
@[simp] theorem State.writeMask_ctxs (a n v m : Nat) : (s.writeMask a n v m).ctxs = s.ctxs := rfl
@[simp] theorem State.writeMask_launches (a n v m : Nat) : (s.writeMask a n v m).launches = s.launches := rfl
@[simp] theorem State.writeMask_lnext (a n v m : Nat) : (s.writeMask a n v m).lnext = s.lnext := rfl
@[simp] theorem State.writeMask_dirs (a n v m : Nat) : (s.writeMask a n v m).dirs = s.dirs := rfl
@[simp] theorem State.writeMask_net (a n v m : Nat) : (s.writeMask a n v m).net = s.net := rfl
@[simp] theorem State.modLaunch_clock (k : Nat) (f : Launch → Launch) : (s.modLaunch k f).clock = s.clock := by
  unfold State.modLaunch; split <;> rfl
@[simp] theorem State.modLaunch_agenda (k : Nat) (f : Launch → Launch) : (s.modLaunch k f).agenda = s.agenda := by
  unfold State.modLaunch; split <;> rfl
@[simp] theorem State.modLaunch_sched (k : Nat) (f : Launch → Launch) : (s.modLaunch k f).sched = s.sched := by
  unfold State.modLaunch; split <;> rfl
@[simp] theorem State.modLaunch_turn (k : Nat) (f : Launch → Launch) : (s.modLaunch k f).turn = s.turn := by
  unfold State.modLaunch; split <;> rfl
@[simp] theorem State.modLaunch_iss (k : Nat) (f : Launch → Launch) : (s.modLaunch k f).iss = s.iss := by
  unfold State.modLaunch; split <;> rfl
@[simp] theorem State.modLaunch_uid (k : Nat) (f : Launch → Launch) : (s.modLaunch k f).uid = s.uid := by
  unfold State.modLaunch; split <;> rfl
@[simp] theorem State.modLaunch_free (k : Nat) (f : Launch → Launch) : (s.modLaunch k f).free = s.free := by
  unfold State.modLaunch; split <;> rfl
@[simp] theorem State.modLaunch_mem (k : Nat) (f : Launch → Launch) : (s.modLaunch k f).mem = s.mem := by
  unfold State.modLaunch; split <;> rfl
@[simp] theorem State.modLaunch_haze (k : Nat) (f : Launch → Launch) : (s.modLaunch k f).haze = s.haze := by
  unfold State.modLaunch; split <;> rfl
@[simp] theorem State.modLaunch_threads (k : Nat) (f : Launch → Launch) : (s.modLaunch k f).threads = s.threads := by
  unfold State.modLaunch; split <;> rfl
@[simp] theorem State.modLaunch_cores (k : Nat) (f : Launch → Launch) : (s.modLaunch k f).cores = s.cores := by
  unfold State.modLaunch; split <;> rfl
@[simp] theorem State.modLaunch_dies (k : Nat) (f : Launch → Launch) : (s.modLaunch k f).dies = s.dies := by
  unfold State.modLaunch; split <;> rfl
@[simp] theorem State.modLaunch_pkgs (k : Nat) (f : Launch → Launch) : (s.modLaunch k f).pkgs = s.pkgs := by
  unfold State.modLaunch; split <;> rfl
@[simp] theorem State.modLaunch_ctxs (k : Nat) (f : Launch → Launch) : (s.modLaunch k f).ctxs = s.ctxs := by
  unfold State.modLaunch; split <;> rfl
@[simp] theorem State.modLaunch_lnext (k : Nat) (f : Launch → Launch) : (s.modLaunch k f).lnext = s.lnext := by
  unfold State.modLaunch; split <;> rfl
@[simp] theorem State.modLaunch_dirs (k : Nat) (f : Launch → Launch) : (s.modLaunch k f).dirs = s.dirs := by
  unfold State.modLaunch; split <;> rfl
@[simp] theorem State.modLaunch_net (k : Nat) (f : Launch → Launch) : (s.modLaunch k f).net = s.net := by
  unfold State.modLaunch; split <;> rfl

/-! ### Tables after an update -/

@[simp] theorem State.thr_setThr (k : Nat) (v : Thread) : (s.setThr k v).thr k = v := by simp [State.thr, State.setThr]
theorem State.thr_setThr_ne (v : Thread) (h : j ≠ k) : (s.setThr k v).thr j = s.thr j := by
  simp [State.thr, State.setThr, Tab.getOr_put_ne _ _ _ h]
@[simp] theorem State.thr_modThr (k : Nat) (f : Thread → Thread) : (s.modThr k f).thr k = f (s.thr k) := by simp [State.modThr]
theorem State.thr_modThr_ne (f : Thread → Thread) (h : j ≠ k) : (s.modThr k f).thr j = s.thr j := by
  simp [State.modThr, State.thr_setThr_ne _ _ h]
@[simp] theorem State.core_setCore (k : Nat) (v : Core) : (s.setCore k v).core k = v := by simp [State.core, State.setCore]
theorem State.core_setCore_ne (v : Core) (h : j ≠ k) : (s.setCore k v).core j = s.core j := by
  simp [State.core, State.setCore, Tab.getOr_put_ne _ _ _ h]
@[simp] theorem State.core_modCore (k : Nat) (f : Core → Core) : (s.modCore k f).core k = f (s.core k) := by simp [State.modCore]
theorem State.core_modCore_ne (f : Core → Core) (h : j ≠ k) : (s.modCore k f).core j = s.core j := by
  simp [State.modCore, State.core_setCore_ne _ _ h]
@[simp] theorem State.die_setDie (k : Nat) (v : Die) : (s.setDie k v).die k = v := by simp [State.die, State.setDie]
theorem State.die_setDie_ne (v : Die) (h : j ≠ k) : (s.setDie k v).die j = s.die j := by
  simp [State.die, State.setDie, Tab.getOr_put_ne _ _ _ h]
@[simp] theorem State.die_modDie (k : Nat) (f : Die → Die) : (s.modDie k f).die k = f (s.die k) := by simp [State.modDie]
theorem State.die_modDie_ne (f : Die → Die) (h : j ≠ k) : (s.modDie k f).die j = s.die j := by
  simp [State.modDie, State.die_setDie_ne _ _ h]
@[simp] theorem State.pkg_setPkg (k : Nat) (v : Pkg) : (s.setPkg k v).pkg k = v := by simp [State.pkg, State.setPkg]
theorem State.pkg_setPkg_ne (v : Pkg) (h : j ≠ k) : (s.setPkg k v).pkg j = s.pkg j := by
  simp [State.pkg, State.setPkg, Tab.getOr_put_ne _ _ _ h]
@[simp] theorem State.pkg_modPkg (k : Nat) (f : Pkg → Pkg) : (s.modPkg k f).pkg k = f (s.pkg k) := by simp [State.modPkg]
theorem State.pkg_modPkg_ne (f : Pkg → Pkg) (h : j ≠ k) : (s.modPkg k f).pkg j = s.pkg j := by
  simp [State.modPkg, State.pkg_setPkg_ne _ _ h]
@[simp] theorem State.dir_setDir (k : Nat) (v : Dir) : (s.setDir k v).dir k = v := by simp [State.dir, State.setDir]
theorem State.dir_setDir_ne (v : Dir) (h : j ≠ k) : (s.setDir k v).dir j = s.dir j := by
  simp [State.dir, State.setDir, Tab.getOr_put_ne _ _ _ h]
@[simp] theorem State.dir_modDir (k : Nat) (f : Dir → Dir) : (s.modDir k f).dir k = f (s.dir k) := by simp [State.modDir]
theorem State.dir_modDir_ne (f : Dir → Dir) (h : j ≠ k) : (s.modDir k f).dir j = s.dir j := by
  simp [State.modDir, State.dir_setDir_ne _ _ h]
@[simp] theorem State.ctx_setCtx (p c : Nat) (x : Ctx) : (s.setCtx p c x).ctx p c = x := by
  simp [State.ctx, State.ctx?, State.setCtx]
@[simp] theorem State.ctx_modCtx (p c : Nat) (f : Ctx → Ctx) : (s.modCtx p c f).ctx p c = f (s.ctx p c) := by
  simp [State.modCtx]

@[simp] theorem State.thr_setCore_other (k : Nat) (ck' : Nat) (c' : Core) : (s.setCore ck' c').thr k = s.thr k := rfl
@[simp] theorem State.thr_modCore_other (k : Nat) (ck' : Nat) (f' : Core → Core) : (s.modCore ck' f').thr k = s.thr k := rfl
@[simp] theorem State.thr_setDie_other (k : Nat) (dk' : Nat) (d' : Die) : (s.setDie dk' d').thr k = s.thr k := rfl
@[simp] theorem State.thr_modDie_other (k : Nat) (dk' : Nat) (f' : Die → Die) : (s.modDie dk' f').thr k = s.thr k := rfl
@[simp] theorem State.thr_setPkg_other (k : Nat) (p' : Nat) (k' : Pkg) : (s.setPkg p' k').thr k = s.thr k := rfl
@[simp] theorem State.thr_modPkg_other (k : Nat) (p' : Nat) (f' : Pkg → Pkg) : (s.modPkg p' f').thr k = s.thr k := rfl
@[simp] theorem State.thr_setCtx_other (k : Nat) (p' c' : Nat) (x' : Ctx) : (s.setCtx p' c' x').thr k = s.thr k := rfl
@[simp] theorem State.thr_modCtx_other (k : Nat) (p' c' : Nat) (f' : Ctx → Ctx) : (s.modCtx p' c' f').thr k = s.thr k := rfl
@[simp] theorem State.thr_setLaunch_other (k : Nat) (k' : Nat) (l' : Launch) : (s.setLaunch k' l').thr k = s.thr k := rfl
@[simp] theorem State.thr_setDir_other (k : Nat) (l' : Nat) (d' : Dir) : (s.setDir l' d').thr k = s.thr k := rfl
@[simp] theorem State.thr_modDir_other (k : Nat) (l' : Nat) (f' : Dir → Dir) : (s.modDir l' f').thr k = s.thr k := rfl
@[simp] theorem State.thr_setALine_other (k : Nat) (p' l' : Nat) (a' : ALine) : (s.setALine p' l' a').thr k = s.thr k := rfl
@[simp] theorem State.thr_modALine_other (k : Nat) (p' l' : Nat) (f' : ALine → ALine) : (s.modALine p' l' f').thr k = s.thr k := rfl
@[simp] theorem State.thr_setPipe_other (k : Nat) (ck' half' : Nat) (p' : Pipe) : (s.setPipe ck' half' p').thr k = s.thr k := rfl
@[simp] theorem State.thr_setShReg_other (k : Nat) (tk' r' : Nat) (x' : ShReg) : (s.setShReg tk' r' x').thr k = s.thr k := rfl
@[simp] theorem State.thr_write_other (k : Nat) (a' n' v' : Nat) : (s.write a' n' v').thr k = s.thr k := rfl

@[simp] theorem State.core_setThr_other (k : Nat) (tk' : Nat) (t' : Thread) : (s.setThr tk' t').core k = s.core k := rfl
@[simp] theorem State.core_modThr_other (k : Nat) (tk' : Nat) (f' : Thread → Thread) : (s.modThr tk' f').core k = s.core k := rfl
@[simp] theorem State.core_setDie_other (k : Nat) (dk' : Nat) (d' : Die) : (s.setDie dk' d').core k = s.core k := rfl
@[simp] theorem State.core_modDie_other (k : Nat) (dk' : Nat) (f' : Die → Die) : (s.modDie dk' f').core k = s.core k := rfl
@[simp] theorem State.core_setPkg_other (k : Nat) (p' : Nat) (k' : Pkg) : (s.setPkg p' k').core k = s.core k := rfl
@[simp] theorem State.core_modPkg_other (k : Nat) (p' : Nat) (f' : Pkg → Pkg) : (s.modPkg p' f').core k = s.core k := rfl
@[simp] theorem State.core_setCtx_other (k : Nat) (p' c' : Nat) (x' : Ctx) : (s.setCtx p' c' x').core k = s.core k := rfl
@[simp] theorem State.core_modCtx_other (k : Nat) (p' c' : Nat) (f' : Ctx → Ctx) : (s.modCtx p' c' f').core k = s.core k := rfl
@[simp] theorem State.core_setLaunch_other (k : Nat) (k' : Nat) (l' : Launch) : (s.setLaunch k' l').core k = s.core k := rfl
@[simp] theorem State.core_setDir_other (k : Nat) (l' : Nat) (d' : Dir) : (s.setDir l' d').core k = s.core k := rfl
@[simp] theorem State.core_modDir_other (k : Nat) (l' : Nat) (f' : Dir → Dir) : (s.modDir l' f').core k = s.core k := rfl
@[simp] theorem State.core_setALine_other (k : Nat) (p' l' : Nat) (a' : ALine) : (s.setALine p' l' a').core k = s.core k := rfl
@[simp] theorem State.core_modALine_other (k : Nat) (p' l' : Nat) (f' : ALine → ALine) : (s.modALine p' l' f').core k = s.core k := rfl
@[simp] theorem State.core_write_other (k : Nat) (a' n' v' : Nat) : (s.write a' n' v').core k = s.core k := rfl

@[simp] theorem State.die_setThr_other (k : Nat) (tk' : Nat) (t' : Thread) : (s.setThr tk' t').die k = s.die k := rfl
@[simp] theorem State.die_modThr_other (k : Nat) (tk' : Nat) (f' : Thread → Thread) : (s.modThr tk' f').die k = s.die k := rfl
@[simp] theorem State.die_setCore_other (k : Nat) (ck' : Nat) (c' : Core) : (s.setCore ck' c').die k = s.die k := rfl
@[simp] theorem State.die_modCore_other (k : Nat) (ck' : Nat) (f' : Core → Core) : (s.modCore ck' f').die k = s.die k := rfl
@[simp] theorem State.die_setPkg_other (k : Nat) (p' : Nat) (k' : Pkg) : (s.setPkg p' k').die k = s.die k := rfl
@[simp] theorem State.die_modPkg_other (k : Nat) (p' : Nat) (f' : Pkg → Pkg) : (s.modPkg p' f').die k = s.die k := rfl
@[simp] theorem State.die_setCtx_other (k : Nat) (p' c' : Nat) (x' : Ctx) : (s.setCtx p' c' x').die k = s.die k := rfl
@[simp] theorem State.die_modCtx_other (k : Nat) (p' c' : Nat) (f' : Ctx → Ctx) : (s.modCtx p' c' f').die k = s.die k := rfl
@[simp] theorem State.die_setLaunch_other (k : Nat) (k' : Nat) (l' : Launch) : (s.setLaunch k' l').die k = s.die k := rfl
@[simp] theorem State.die_setDir_other (k : Nat) (l' : Nat) (d' : Dir) : (s.setDir l' d').die k = s.die k := rfl
@[simp] theorem State.die_modDir_other (k : Nat) (l' : Nat) (f' : Dir → Dir) : (s.modDir l' f').die k = s.die k := rfl
@[simp] theorem State.die_setALine_other (k : Nat) (p' l' : Nat) (a' : ALine) : (s.setALine p' l' a').die k = s.die k := rfl
@[simp] theorem State.die_modALine_other (k : Nat) (p' l' : Nat) (f' : ALine → ALine) : (s.modALine p' l' f').die k = s.die k := rfl
@[simp] theorem State.die_setPipe_other (k : Nat) (ck' half' : Nat) (p' : Pipe) : (s.setPipe ck' half' p').die k = s.die k := rfl
@[simp] theorem State.die_setShReg_other (k : Nat) (tk' r' : Nat) (x' : ShReg) : (s.setShReg tk' r' x').die k = s.die k := rfl
@[simp] theorem State.die_write_other (k : Nat) (a' n' v' : Nat) : (s.write a' n' v').die k = s.die k := rfl

@[simp] theorem State.pkg_setThr_other (k : Nat) (tk' : Nat) (t' : Thread) : (s.setThr tk' t').pkg k = s.pkg k := rfl
@[simp] theorem State.pkg_modThr_other (k : Nat) (tk' : Nat) (f' : Thread → Thread) : (s.modThr tk' f').pkg k = s.pkg k := rfl
@[simp] theorem State.pkg_setCore_other (k : Nat) (ck' : Nat) (c' : Core) : (s.setCore ck' c').pkg k = s.pkg k := rfl
@[simp] theorem State.pkg_modCore_other (k : Nat) (ck' : Nat) (f' : Core → Core) : (s.modCore ck' f').pkg k = s.pkg k := rfl
@[simp] theorem State.pkg_setDie_other (k : Nat) (dk' : Nat) (d' : Die) : (s.setDie dk' d').pkg k = s.pkg k := rfl
@[simp] theorem State.pkg_modDie_other (k : Nat) (dk' : Nat) (f' : Die → Die) : (s.modDie dk' f').pkg k = s.pkg k := rfl
@[simp] theorem State.pkg_setCtx_other (k : Nat) (p' c' : Nat) (x' : Ctx) : (s.setCtx p' c' x').pkg k = s.pkg k := rfl
@[simp] theorem State.pkg_modCtx_other (k : Nat) (p' c' : Nat) (f' : Ctx → Ctx) : (s.modCtx p' c' f').pkg k = s.pkg k := rfl
@[simp] theorem State.pkg_setLaunch_other (k : Nat) (k' : Nat) (l' : Launch) : (s.setLaunch k' l').pkg k = s.pkg k := rfl
@[simp] theorem State.pkg_setDir_other (k : Nat) (l' : Nat) (d' : Dir) : (s.setDir l' d').pkg k = s.pkg k := rfl
@[simp] theorem State.pkg_modDir_other (k : Nat) (l' : Nat) (f' : Dir → Dir) : (s.modDir l' f').pkg k = s.pkg k := rfl
@[simp] theorem State.pkg_setPipe_other (k : Nat) (ck' half' : Nat) (p' : Pipe) : (s.setPipe ck' half' p').pkg k = s.pkg k := rfl
@[simp] theorem State.pkg_setShReg_other (k : Nat) (tk' r' : Nat) (x' : ShReg) : (s.setShReg tk' r' x').pkg k = s.pkg k := rfl
@[simp] theorem State.pkg_write_other (k : Nat) (a' n' v' : Nat) : (s.write a' n' v').pkg k = s.pkg k := rfl

@[simp] theorem State.dir_setThr_other (k : Nat) (tk' : Nat) (t' : Thread) : (s.setThr tk' t').dir k = s.dir k := rfl
@[simp] theorem State.dir_modThr_other (k : Nat) (tk' : Nat) (f' : Thread → Thread) : (s.modThr tk' f').dir k = s.dir k := rfl
@[simp] theorem State.dir_setCore_other (k : Nat) (ck' : Nat) (c' : Core) : (s.setCore ck' c').dir k = s.dir k := rfl
@[simp] theorem State.dir_modCore_other (k : Nat) (ck' : Nat) (f' : Core → Core) : (s.modCore ck' f').dir k = s.dir k := rfl
@[simp] theorem State.dir_setDie_other (k : Nat) (dk' : Nat) (d' : Die) : (s.setDie dk' d').dir k = s.dir k := rfl
@[simp] theorem State.dir_modDie_other (k : Nat) (dk' : Nat) (f' : Die → Die) : (s.modDie dk' f').dir k = s.dir k := rfl
@[simp] theorem State.dir_setPkg_other (k : Nat) (p' : Nat) (k' : Pkg) : (s.setPkg p' k').dir k = s.dir k := rfl
@[simp] theorem State.dir_modPkg_other (k : Nat) (p' : Nat) (f' : Pkg → Pkg) : (s.modPkg p' f').dir k = s.dir k := rfl
@[simp] theorem State.dir_setCtx_other (k : Nat) (p' c' : Nat) (x' : Ctx) : (s.setCtx p' c' x').dir k = s.dir k := rfl
@[simp] theorem State.dir_modCtx_other (k : Nat) (p' c' : Nat) (f' : Ctx → Ctx) : (s.modCtx p' c' f').dir k = s.dir k := rfl
@[simp] theorem State.dir_setLaunch_other (k : Nat) (k' : Nat) (l' : Launch) : (s.setLaunch k' l').dir k = s.dir k := rfl
@[simp] theorem State.dir_setALine_other (k : Nat) (p' l' : Nat) (a' : ALine) : (s.setALine p' l' a').dir k = s.dir k := rfl
@[simp] theorem State.dir_modALine_other (k : Nat) (p' l' : Nat) (f' : ALine → ALine) : (s.modALine p' l' f').dir k = s.dir k := rfl
@[simp] theorem State.dir_setPipe_other (k : Nat) (ck' half' : Nat) (p' : Pipe) : (s.setPipe ck' half' p').dir k = s.dir k := rfl
@[simp] theorem State.dir_setShReg_other (k : Nat) (tk' r' : Nat) (x' : ShReg) : (s.setShReg tk' r' x').dir k = s.dir k := rfl
@[simp] theorem State.dir_write_other (k : Nat) (a' n' v' : Nat) : (s.write a' n' v').dir k = s.dir k := rfl

@[simp] theorem State.ctxOpt_setThr_other (p c : Nat) (tk' : Nat) (t' : Thread) : (s.setThr tk' t').ctx? p c = s.ctx? p c := rfl
@[simp] theorem State.ctxOpt_modThr_other (p c : Nat) (tk' : Nat) (f' : Thread → Thread) : (s.modThr tk' f').ctx? p c = s.ctx? p c := rfl
@[simp] theorem State.ctxOpt_setCore_other (p c : Nat) (ck' : Nat) (c' : Core) : (s.setCore ck' c').ctx? p c = s.ctx? p c := rfl
@[simp] theorem State.ctxOpt_modCore_other (p c : Nat) (ck' : Nat) (f' : Core → Core) : (s.modCore ck' f').ctx? p c = s.ctx? p c := rfl
@[simp] theorem State.ctxOpt_setDie_other (p c : Nat) (dk' : Nat) (d' : Die) : (s.setDie dk' d').ctx? p c = s.ctx? p c := rfl
@[simp] theorem State.ctxOpt_modDie_other (p c : Nat) (dk' : Nat) (f' : Die → Die) : (s.modDie dk' f').ctx? p c = s.ctx? p c := rfl
@[simp] theorem State.ctxOpt_setPkg_other (p c : Nat) (p' : Nat) (k' : Pkg) : (s.setPkg p' k').ctx? p c = s.ctx? p c := rfl
@[simp] theorem State.ctxOpt_modPkg_other (p c : Nat) (p' : Nat) (f' : Pkg → Pkg) : (s.modPkg p' f').ctx? p c = s.ctx? p c := rfl
@[simp] theorem State.ctxOpt_setLaunch_other (p c : Nat) (k' : Nat) (l' : Launch) : (s.setLaunch k' l').ctx? p c = s.ctx? p c := rfl
@[simp] theorem State.ctxOpt_setDir_other (p c : Nat) (l' : Nat) (d' : Dir) : (s.setDir l' d').ctx? p c = s.ctx? p c := rfl
@[simp] theorem State.ctxOpt_modDir_other (p c : Nat) (l' : Nat) (f' : Dir → Dir) : (s.modDir l' f').ctx? p c = s.ctx? p c := rfl
@[simp] theorem State.ctxOpt_setALine_other (p c : Nat) (p' l' : Nat) (a' : ALine) : (s.setALine p' l' a').ctx? p c = s.ctx? p c := rfl
@[simp] theorem State.ctxOpt_modALine_other (p c : Nat) (p' l' : Nat) (f' : ALine → ALine) : (s.modALine p' l' f').ctx? p c = s.ctx? p c := rfl
@[simp] theorem State.ctxOpt_setPipe_other (p c : Nat) (ck' half' : Nat) (p' : Pipe) : (s.setPipe ck' half' p').ctx? p c = s.ctx? p c := rfl
@[simp] theorem State.ctxOpt_setShReg_other (p c : Nat) (tk' r' : Nat) (x' : ShReg) : (s.setShReg tk' r' x').ctx? p c = s.ctx? p c := rfl
@[simp] theorem State.ctxOpt_write_other (p c : Nat) (a' n' v' : Nat) : (s.write a' n' v').ctx? p c = s.ctx? p c := rfl

@[simp] theorem State.ctx_setThr_other (p c : Nat) (tk' : Nat) (t' : Thread) : (s.setThr tk' t').ctx p c = s.ctx p c := rfl
@[simp] theorem State.ctx_modThr_other (p c : Nat) (tk' : Nat) (f' : Thread → Thread) : (s.modThr tk' f').ctx p c = s.ctx p c := rfl
@[simp] theorem State.ctx_setCore_other (p c : Nat) (ck' : Nat) (c' : Core) : (s.setCore ck' c').ctx p c = s.ctx p c := rfl
@[simp] theorem State.ctx_modCore_other (p c : Nat) (ck' : Nat) (f' : Core → Core) : (s.modCore ck' f').ctx p c = s.ctx p c := rfl
@[simp] theorem State.ctx_setDie_other (p c : Nat) (dk' : Nat) (d' : Die) : (s.setDie dk' d').ctx p c = s.ctx p c := rfl
@[simp] theorem State.ctx_modDie_other (p c : Nat) (dk' : Nat) (f' : Die → Die) : (s.modDie dk' f').ctx p c = s.ctx p c := rfl
@[simp] theorem State.ctx_setPkg_other (p c : Nat) (p' : Nat) (k' : Pkg) : (s.setPkg p' k').ctx p c = s.ctx p c := rfl
@[simp] theorem State.ctx_modPkg_other (p c : Nat) (p' : Nat) (f' : Pkg → Pkg) : (s.modPkg p' f').ctx p c = s.ctx p c := rfl
@[simp] theorem State.ctx_setLaunch_other (p c : Nat) (k' : Nat) (l' : Launch) : (s.setLaunch k' l').ctx p c = s.ctx p c := rfl
@[simp] theorem State.ctx_setDir_other (p c : Nat) (l' : Nat) (d' : Dir) : (s.setDir l' d').ctx p c = s.ctx p c := rfl
@[simp] theorem State.ctx_modDir_other (p c : Nat) (l' : Nat) (f' : Dir → Dir) : (s.modDir l' f').ctx p c = s.ctx p c := rfl
@[simp] theorem State.ctx_setALine_other (p c : Nat) (p' l' : Nat) (a' : ALine) : (s.setALine p' l' a').ctx p c = s.ctx p c := rfl
@[simp] theorem State.ctx_modALine_other (p c : Nat) (p' l' : Nat) (f' : ALine → ALine) : (s.modALine p' l' f').ctx p c = s.ctx p c := rfl
@[simp] theorem State.ctx_setPipe_other (p c : Nat) (ck' half' : Nat) (p' : Pipe) : (s.setPipe ck' half' p').ctx p c = s.ctx p c := rfl
@[simp] theorem State.ctx_setShReg_other (p c : Nat) (tk' r' : Nat) (x' : ShReg) : (s.setShReg tk' r' x').ctx p c = s.ctx p c := rfl
@[simp] theorem State.ctx_write_other (p c : Nat) (a' n' v' : Nat) : (s.write a' n' v').ctx p c = s.ctx p c := rfl

@[simp] theorem State.byte_setThr (tk : Nat) (t : Thread) (a' : Nat) : (s.setThr tk t).byte a' = s.byte a' := rfl
@[simp] theorem State.read_setThr (tk : Nat) (t : Thread) (a' n' : Nat) : (s.setThr tk t).read a' n' = s.read a' n' := rfl
@[simp] theorem State.byte_modThr (tk : Nat) (f : Thread → Thread) (a' : Nat) : (s.modThr tk f).byte a' = s.byte a' := rfl
@[simp] theorem State.read_modThr (tk : Nat) (f : Thread → Thread) (a' n' : Nat) : (s.modThr tk f).read a' n' = s.read a' n' := rfl
@[simp] theorem State.byte_setCore (ck : Nat) (c : Core) (a' : Nat) : (s.setCore ck c).byte a' = s.byte a' := rfl
@[simp] theorem State.read_setCore (ck : Nat) (c : Core) (a' n' : Nat) : (s.setCore ck c).read a' n' = s.read a' n' := rfl
@[simp] theorem State.byte_modCore (ck : Nat) (f : Core → Core) (a' : Nat) : (s.modCore ck f).byte a' = s.byte a' := rfl
@[simp] theorem State.read_modCore (ck : Nat) (f : Core → Core) (a' n' : Nat) : (s.modCore ck f).read a' n' = s.read a' n' := rfl
@[simp] theorem State.byte_setDie (dk : Nat) (d : Die) (a' : Nat) : (s.setDie dk d).byte a' = s.byte a' := rfl
@[simp] theorem State.read_setDie (dk : Nat) (d : Die) (a' n' : Nat) : (s.setDie dk d).read a' n' = s.read a' n' := rfl
@[simp] theorem State.byte_modDie (dk : Nat) (f : Die → Die) (a' : Nat) : (s.modDie dk f).byte a' = s.byte a' := rfl
@[simp] theorem State.read_modDie (dk : Nat) (f : Die → Die) (a' n' : Nat) : (s.modDie dk f).read a' n' = s.read a' n' := rfl
@[simp] theorem State.byte_setPkg (p : Nat) (k : Pkg) (a' : Nat) : (s.setPkg p k).byte a' = s.byte a' := rfl
@[simp] theorem State.read_setPkg (p : Nat) (k : Pkg) (a' n' : Nat) : (s.setPkg p k).read a' n' = s.read a' n' := rfl
@[simp] theorem State.byte_modPkg (p : Nat) (f : Pkg → Pkg) (a' : Nat) : (s.modPkg p f).byte a' = s.byte a' := rfl
@[simp] theorem State.read_modPkg (p : Nat) (f : Pkg → Pkg) (a' n' : Nat) : (s.modPkg p f).read a' n' = s.read a' n' := rfl
@[simp] theorem State.byte_setCtx (p c : Nat) (x : Ctx) (a' : Nat) : (s.setCtx p c x).byte a' = s.byte a' := rfl
@[simp] theorem State.read_setCtx (p c : Nat) (x : Ctx) (a' n' : Nat) : (s.setCtx p c x).read a' n' = s.read a' n' := rfl
@[simp] theorem State.byte_modCtx (p c : Nat) (f : Ctx → Ctx) (a' : Nat) : (s.modCtx p c f).byte a' = s.byte a' := rfl
@[simp] theorem State.read_modCtx (p c : Nat) (f : Ctx → Ctx) (a' n' : Nat) : (s.modCtx p c f).read a' n' = s.read a' n' := rfl
@[simp] theorem State.byte_setLaunch (k : Nat) (l : Launch) (a' : Nat) : (s.setLaunch k l).byte a' = s.byte a' := rfl
@[simp] theorem State.read_setLaunch (k : Nat) (l : Launch) (a' n' : Nat) : (s.setLaunch k l).read a' n' = s.read a' n' := rfl
@[simp] theorem State.byte_setDir (l : Nat) (d : Dir) (a' : Nat) : (s.setDir l d).byte a' = s.byte a' := rfl
@[simp] theorem State.read_setDir (l : Nat) (d : Dir) (a' n' : Nat) : (s.setDir l d).read a' n' = s.read a' n' := rfl
@[simp] theorem State.byte_modDir (l : Nat) (f : Dir → Dir) (a' : Nat) : (s.modDir l f).byte a' = s.byte a' := rfl
@[simp] theorem State.read_modDir (l : Nat) (f : Dir → Dir) (a' n' : Nat) : (s.modDir l f).read a' n' = s.read a' n' := rfl
@[simp] theorem State.byte_setALine (p l : Nat) (a : ALine) (a' : Nat) : (s.setALine p l a).byte a' = s.byte a' := rfl
@[simp] theorem State.read_setALine (p l : Nat) (a : ALine) (a' n' : Nat) : (s.setALine p l a).read a' n' = s.read a' n' := rfl
@[simp] theorem State.byte_modALine (p l : Nat) (f : ALine → ALine) (a' : Nat) : (s.modALine p l f).byte a' = s.byte a' := rfl
@[simp] theorem State.read_modALine (p l : Nat) (f : ALine → ALine) (a' n' : Nat) : (s.modALine p l f).read a' n' = s.read a' n' := rfl
@[simp] theorem State.byte_setPipe (ck half : Nat) (p : Pipe) (a' : Nat) : (s.setPipe ck half p).byte a' = s.byte a' := rfl
@[simp] theorem State.read_setPipe (ck half : Nat) (p : Pipe) (a' n' : Nat) : (s.setPipe ck half p).read a' n' = s.read a' n' := rfl
@[simp] theorem State.byte_setShReg (tk r : Nat) (x : ShReg) (a' : Nat) : (s.setShReg tk r x).byte a' = s.byte a' := rfl
@[simp] theorem State.read_setShReg (tk r : Nat) (x : ShReg) (a' n' : Nat) : (s.setShReg tk r x).read a' n' = s.read a' n' := rfl

/-! ### Memory through the state -/

theorem State.byte_write_ne (a n v b : Nat) (h : b < a ∨ a + n ≤ b) : (s.write a n v).byte b = s.byte b := by
  unfold State.byte State.write
  simp only [Haze.over_cut]
  rw [if_neg (by omega), Mem.get_write_ne _ _ _ _ _ h]
theorem State.byte_write (a n v b : Nat) (h : a ≤ b ∧ b < a + n) : (s.write a n v).byte b = Mem.get (Mem.write s.mem a n v) b := by
  unfold State.byte State.write
  simp only [Haze.over_cut]
  rw [if_pos h]
theorem State.read_write_same (a n v : Nat) : (s.write a n v).read a n = v % 256 ^ n :=
  (readBy_congr fun k hk => s.byte_write a n v (a + k) (by omega)).trans (Mem.read_write s.mem a n v)
theorem State.read_write_ne (a n v b k : Nat) (h : b + k ≤ a ∨ a + n ≤ b) : (s.write a n v).read b k = s.read b k :=
  readBy_congr fun j hj => s.byte_write_ne a n v (b + j) (by omega)

/-! ### Records of one thread, core and the rest: a second update of an entry overwrites the first -/

theorem Tab.put_put {β : Type} (t : Tab β) (k : Nat) (v w : β) : Tab.put (Tab.put t k v) k w = Tab.put t k w := by
  induction t with
  | nil => simp [Tab.put]
  | cons e r ih =>
    obtain ⟨j, x⟩ := e
    simp only [Tab.put]
    split
    · simp [Tab.put]
    · split
      · rename_i h; simp [Tab.put, h]
      · rename_i h1 h2; simp [Tab.put, h1, h2, ih]

@[simp] theorem State.modThr_modThr (k : Nat) (f g : Thread → Thread) :
    (s.modThr k f).modThr k g = s.modThr k fun t => g (f t) := by
  simp [State.modThr, State.setThr, State.thr, Tab.put_put]

@[simp] theorem State.modCore_modCore (k : Nat) (f g : Core → Core) :
    (s.modCore k f).modCore k g = s.modCore k fun t => g (f t) := by
  simp [State.modCore, State.setCore, State.core, Tab.put_put]

end Sys2Proof.Machine
end

