-- ==== Sys2Proof/Laws/Issue.lean ====
section
/-! SUPPORT. A word whose checks all pass comes to its own effect; what the small operations on a lane answer. -/

set_option Elab.async false

namespace Sys2Proof.Machine

/-! ### Ageing moves window values to the banks and touches nothing else -/

theorem Regs.bankAll (l : List WinE) (r : Regs) :
    ∃ g, l.foldr (fun e acc => acc.set e.reg e.val) r = { r with g := g } := by
  induction l with
  | nil => exact ⟨r.g, rfl⟩
  | cons e l ih => obtain ⟨g, hg⟩ := ih; exact ⟨_, by rw [List.foldr_cons, hg, Regs.set]⟩

theorem Regs.age_eq (r : Regs) (n : Nat) : ∃ g w, r.age n = { r with g := g, win := w } := by
  obtain ⟨g, hg⟩ := Regs.bankAll (r.win.filter fun e => decide (e.pos + 8 < n)) r
  exact ⟨g, _, by rw [Regs.age, hg]⟩

@[simp] theorem Regs.age_p (r : Regs) (n : Nat) : (r.age n).p = r.p := by obtain ⟨g, w, h⟩ := r.age_eq n; rw [h]
@[simp] theorem Regs.age_ix (r : Regs) (n : Nat) : (r.age n).ix = r.ix := by obtain ⟨g, w, h⟩ := r.age_eq n; rw [h]
@[simp] theorem Regs.age_psn (r : Regs) (n : Nat) : (r.age n).psn = r.psn := by obtain ⟨g, w, h⟩ := r.age_eq n; rw [h]
@[simp] theorem Regs.age_psnA (r : Regs) (n : Nat) : (r.age n).psnA = r.psnA := by obtain ⟨g, w, h⟩ := r.age_eq n; rw [h]
@[simp] theorem Regs.age_runG (r : Regs) (n : Nat) : (r.age n).runG = r.runG := by obtain ⟨g, w, h⟩ := r.age_eq n; rw [h]
@[simp] theorem Regs.age_runP (r : Regs) (n : Nat) : (r.age n).runP = r.runP := by obtain ⟨g, w, h⟩ := r.age_eq n; rw [h]
@[simp] theorem Regs.age_pendG (r : Regs) (n : Nat) : (r.age n).pendG = r.pendG := by obtain ⟨g, w, h⟩ := r.age_eq n; rw [h]
@[simp] theorem Regs.age_pendP (r : Regs) (n : Nat) : (r.age n).pendP = r.pendP := by obtain ⟨g, w, h⟩ := r.age_eq n; rw [h]

/-! ### The word -/

/-- Once its checks pass, a word is its own effect and what follows it. -/
theorem issue_clear {w : Stand} {s : State} (h : w.Clear s) (off body : State → Lane → Res) :
    issueWord w.f w.u off body s = .next (match body (w.begun s) (w.lane s) with
      | .ok t => w.done s t
      | .late => (w.aged s).lateStores w.tk w.f.park
      | .fault x => (w.aged s).wordFault w.tk x w.f.park
      | .park y => (w.aged s).parkGang w.i w.i.g y
      | .start t y => t.parkGang w.i w.i.g y
      | .gone t => t.checkWord w.f.park) := by
  obtain ⟨t, ht⟩ := h.copied
  have hg : w.gated s = t := by unfold Stand.gated; rw [ht]
  obtain ⟨tk', l, hl⟩ : ∃ tk' l, w.i.g.todo = tk' :: l := by
    have := h.first
    cases hx : w.i.g.todo with
    | nil => rw [hx] at this; cases this
    | cons a b => exact ⟨a, b, rfl⟩
  have htk : tk' = w.tk := by have := h.first; rw [hl] at this; simpa using this
  subst htk
  have hr := h.ready
  have hs := h.same
  rw [hl] at hr
  unfold issueWord
  rw [h.issuing]
  simp only [hl]
  congr 1
  have e1 : s.modThr w.tk (fun t => { t with r := t.r.age w.i.g.wn }) = w.aged s := rfl
  have hthr : (w.aged s).thr w.tk = { s.thr w.tk with r := (s.thr w.tk).r.age w.i.g.wn } := by simp [Stand.aged]
  have k1 : ((w.aged s).thr w.tk).late = [] := by rw [hthr]; exact h.calm
  have k2 : ((w.aged s).thr w.tk).r.runP = (s.thr w.tk).r.runP := by rw [hthr]; simp
  have k3 : ((w.aged s).thr w.tk).r.runG = (s.thr w.tk).r.runG := by rw [hthr]; simp
  have k4 : ((w.aged s).thr w.tk).r.p = (s.thr w.tk).r.p := by rw [hthr]; simp
  have k6 : ((w.aged s).thr w.tk).relReady = (s.thr w.tk).relReady := by rw [hthr]; rfl
  have k7 : ((w.aged s).thr w.tk).nw = (s.thr w.tk).nw := by rw [hthr]
  unfold State.lane
  simp only [e1, k1, List.any_nil, h.legal, hl, hr, List.isEmpty_nil, Bool.not_true, Bool.false_eq_true, if_false, ite_self,
    k2, h.guardsKnown, ne_eq, not_true_eq_false]
  rw [if_neg (by rintro ⟨a, b, -⟩; rw [hs a] at b; cases b)]
  simp only [k4, h.guards, Bool.not_true, Bool.false_eq_true, if_false, h.names, k3, h.regsKnown, h.predsKnown,
    not_true_eq_false, or_self, h.sound, and_false]
  rw [if_neg (by rintro ⟨a, b⟩; rw [k6, h.released a] at b; cases b)]
  unfold State.laneBody
  have ht' : (w.aged s).pairGate w.tk w.u true w.r ((w.aged s).values w.tk w.u w.r) = .ok t := ht
  simp only [ht', k7]
  have hb : t.modThr w.tk (fun t => t.consume w.r) = w.begun s := by rw [Stand.begun, hg]
  have hlane : (⟨w.tk, w.i, w.f, w.u, w.r, (w.aged s).values w.tk w.u w.r, (t.thr w.tk).r⟩ : Lane) = w.lane s := by
    rw [Stand.lane, hg]; rfl
  rw [hb, hlane]
  rfl

/-- A word whose own effect is `t` completes with `t`. -/
theorem word_ok {w : Stand} {s t : State} (h : w.Clear s) {body : State → Lane → Res}
    (hb : body (w.begun s) (w.lane s) = .ok t) : word w.f w.u body s = .next (w.done s t) := by
  unfold word; rw [issue_clear h, hb]

/-- A fixed-latency result completes with the result written. -/
theorem compute_ok {w : Stand} {s : State} (h : w.Clear s) (v : Lane → Word) :
    compute w.f w.u v s = .next (w.done s ((w.begun s).put (w.lane s) (v (w.lane s)))) := by
  unfold compute; exact word_ok h rfl

end Sys2Proof.Machine
end

