-- ==== Sys2Proof/Laws/PerInstr.lean ====
section
/-! SUPPORT. For each constructor: the fields of a well-formed instruction's word build it again, and its literal is found. -/

set_option Elab.async false
set_option linter.unusedSimpArgs false

namespace Sys2Proof.Laws

/-- The fields of a well-formed instruction's word build the instruction again, given its literal; and where a field of the
word names a literal, the instruction has one. -/
def Rebuilds.Statement (i : Instr) : Prop :=
  wellFormed i = true → ∀ r, encodeRaw i = some r →
    buildInstr (r.op.toNat / 64) (r.op.toNat % 64) r.frame r (r.fields ((literalOf i).getD 0)) = some i ∧
      ∀ row, rowOf r.op = some row → row.literals r = 1 → literalOf i ≠ none

/-- An event encodes to nothing. -/
theorem Rebuilds.event {i : Instr} (h : encodeRaw i = none) : Rebuilds.Statement i := by
  intro _ r hr; rw [h] at hr; cases hr

/-- A refinement is no well-formed word. -/
theorem Rebuilds.refined {i : Instr} (h : isRefined i = true) : Rebuilds.Statement i := by
  intro hw; simp only [wellFormed, illFormed, h] at hw; split at hw
  · cases hw
  · split at hw <;> cases hw

/-- What is left of the statement for a constructor: its row counts its literals, and its fields build it. -/
theorem Rebuilds.of {i : Instr} {r : RawW} {g m : Nat} (row : Row) (srcs : List Src) (he : encodeRaw i = some r)
    (hr : rowOf r.op = some row) (hg : r.op.toNat / 64 = g) (hm : r.op.toNat % 64 = m) (hs : literalOf i = firstLiteral srcs)
    (hl : row.a.okSrc r.e r.a r.la = true → row.literals r = litCount srcs)
    (hb : ∀ l, (∀ s ∈ srcs, (⟨opdOf s.code l, s.last⟩ : Src) = s) → buildInstr g m r.frame r (r.fields l) = some i) :
    Rebuilds.Statement i := by
  intro hw r' hr'
  rw [he, Option.some.injEq] at hr'; subst hr'
  simp only [wellFormed, illFormed, he, hr] at hw
  by_cases hR : isRefined i = true
  · rw [if_pos hR] at hw; cases hw
  by_cases h2 : 1 < row.literals r
  · rw [if_neg hR, if_pos h2] at hw; cases hw
  by_cases h3 : (!row.d.okDst r.e r.d) = true
  · rw [if_neg hR, if_neg h2, if_pos h3] at hw; cases hw
  by_cases h4 : row.a.okSrc r.e r.a r.la = true
  · have hl := hl h4
    refine ⟨?_, ?_⟩
    · rw [hg, hm]
      exact hb _ fun s hm => srcOf_code s _ (by rw [hs]; exact lit_same (by omega) s hm)
    · intro row' h1 h3
      rw [hr, Option.some.injEq] at h1; subst h1
      rw [hs]; exact lit_found (by omega)
  · simp [h4, hR, h2, h3] at hw

namespace Rebuilds

theorem iadd f m o : Statement (.iadd f m o) := by
  refine of (g := 0) (m := 0) ⟨0x000, .op, .op, .op, .unused, .unused, .any⟩ [o.a, o.b] rfl (by simp only [RawW.base]; decide) (by simp only [RawW.base]; rfl)
    (by simp only [RawW.base]; rfl) rfl ?_ ?_
  · intro _; simp only [Row.literals, FK.isCode, dst_code_lit, src_code_lit, litCount, RawW.base, List.filter_cons, List.filter_nil, Bool.true_and,
      Bool.false_and, Bool.false_eq_true, if_false]; repeat' split
    all_goals rfl
  · intro l h
    simp only [List.forall_mem_cons, List.not_mem_nil, false_imp_iff, implies_true, and_true] at h
    simp (disch := decide) only [buildInstr, buildG0, RawW.fields, RawW.base, RawW.frame, dstOf_code, h, imodOf_imodBits]
theorem isub f m o : Statement (.isub f m o) := by
  refine of (g := 0) (m := 1) ⟨0x001, .op, .op, .op, .unused, .unused, .any⟩ [o.a, o.b] rfl (by simp only [RawW.base]; decide) (by simp only [RawW.base]; rfl)
    (by simp only [RawW.base]; rfl) rfl ?_ ?_
  · intro _; simp only [Row.literals, FK.isCode, dst_code_lit, src_code_lit, litCount, RawW.base, List.filter_cons, List.filter_nil, Bool.true_and,
      Bool.false_and, Bool.false_eq_true, if_false]; repeat' split
    all_goals rfl
  · intro l h
    simp only [List.forall_mem_cons, List.not_mem_nil, false_imp_iff, implies_true, and_true] at h
    simp (disch := decide) only [buildInstr, buildG0, RawW.fields, RawW.base, RawW.frame, dstOf_code, h, imodOf_imodBits]
theorem iadds f m o pe : Statement (.iadds f m o pe) := by
  refine of (g := 0) (m := 2) ⟨0x002, .op, .op, .op, .unused, .raw 7, .lowZero⟩ [o.a, o.b] rfl (by simp only [RawW.base]; decide) (by simp only [RawW.base]; rfl)
    (by simp only [RawW.base]; rfl) rfl ?_ ?_
  · intro _; simp only [Row.literals, FK.isCode, dst_code_lit, src_code_lit, litCount, RawW.base, List.filter_cons, List.filter_nil, Bool.true_and,
      Bool.false_and, Bool.false_eq_true, if_false]; repeat' split
    all_goals rfl
  · intro l h
    simp only [List.forall_mem_cons, List.not_mem_nil, false_imp_iff, implies_true, and_true] at h
    simp (disch := decide) only [buildInstr, buildG0, RawW.fields, RawW.base, RawW.frame, dstOf_code, h, imodOf_imodBits, narrow]
theorem isubs f m o pe : Statement (.isubs f m o pe) := by
  refine of (g := 0) (m := 3) ⟨0x003, .op, .op, .op, .unused, .raw 7, .lowZero⟩ [o.a, o.b] rfl (by simp only [RawW.base]; decide) (by simp only [RawW.base]; rfl)
    (by simp only [RawW.base]; rfl) rfl ?_ ?_
  · intro _; simp only [Row.literals, FK.isCode, dst_code_lit, src_code_lit, litCount, RawW.base, List.filter_cons, List.filter_nil, Bool.true_and,
      Bool.false_and, Bool.false_eq_true, if_false]; repeat' split
    all_goals rfl
  · intro l h
    simp only [List.forall_mem_cons, List.not_mem_nil, false_imp_iff, implies_true, and_true] at h
    simp (disch := decide) only [buildInstr, buildG0, RawW.fields, RawW.base, RawW.frame, dstOf_code, h, imodOf_imodBits, narrow]
theorem imul f m o : Statement (.imul f m o) := by
  refine of (g := 0) (m := 4) ⟨0x004, .op, .op, .op, .unused, .unused, .lowZero⟩ [o.a, o.b] rfl (by simp only [RawW.base]; decide) (by simp only [RawW.base]; rfl)
    (by simp only [RawW.base]; rfl) rfl ?_ ?_
  · intro _; simp only [Row.literals, FK.isCode, dst_code_lit, src_code_lit, litCount, RawW.base, List.filter_cons, List.filter_nil, Bool.true_and,
      Bool.false_and, Bool.false_eq_true, if_false]; repeat' split
    all_goals rfl
  · intro l h
    simp only [List.forall_mem_cons, List.not_mem_nil, false_imp_iff, implies_true, and_true] at h
    simp (disch := decide) only [buildInstr, buildG0, RawW.fields, RawW.base, RawW.frame, dstOf_code, h, imodOf_imodBits]
theorem imulh f m o : Statement (.imulh f m o) := by
  refine of (g := 0) (m := 5) ⟨0x005, .op, .op, .op, .unused, .unused, .lowZero⟩ [o.a, o.b] rfl (by simp only [RawW.base]; decide) (by simp only [RawW.base]; rfl)
    (by simp only [RawW.base]; rfl) rfl ?_ ?_
  · intro _; simp only [Row.literals, FK.isCode, dst_code_lit, src_code_lit, litCount, RawW.base, List.filter_cons, List.filter_nil, Bool.true_and,
      Bool.false_and, Bool.false_eq_true, if_false]; repeat' split
    all_goals rfl
  · intro l h
    simp only [List.forall_mem_cons, List.not_mem_nil, false_imp_iff, implies_true, and_true] at h
    simp (disch := decide) only [buildInstr, buildG0, RawW.fields, RawW.base, RawW.frame, dstOf_code, h, imodOf_imodBits]
theorem imad f m o : Statement (.imad f m o) := by
  refine of (g := 0) (m := 6) ⟨0x006, .op, .op, .op, .op, .unused, .any⟩ [o.a, o.b, o.c] rfl (by simp only [RawW.base]; decide) (by simp only [RawW.base]; rfl)
    (by simp only [RawW.base]; rfl) rfl ?_ ?_
  · intro _; simp only [Row.literals, FK.isCode, dst_code_lit, src_code_lit, litCount, RawW.base, List.filter_cons, List.filter_nil, Bool.true_and,
      Bool.false_and, Bool.false_eq_true, if_false]; repeat' split
    all_goals rfl
  · intro l h
    simp only [List.forall_mem_cons, List.not_mem_nil, false_imp_iff, implies_true, and_true] at h
    simp (disch := decide) only [buildInstr, buildG0, RawW.fields, RawW.base, RawW.frame, dstOf_code, h, imodOf_imodBits]
theorem imadw f m o : Statement (.imadw f m o) := by
  refine of (g := 0) (m := 7) ⟨0x007, .op, .op, .op, .op, .unused, .imadw⟩ [o.a, o.b, o.c] rfl (by simp only [RawW.base]; decide) (by simp only [RawW.base]; rfl)
    (by simp only [RawW.base]; rfl) rfl ?_ ?_
  · intro _; simp only [Row.literals, FK.isCode, dst_code_lit, src_code_lit, litCount, RawW.base, List.filter_cons, List.filter_nil, Bool.true_and,
      Bool.false_and, Bool.false_eq_true, if_false]; repeat' split
    all_goals rfl
  · intro l h
    simp only [List.forall_mem_cons, List.not_mem_nil, false_imp_iff, implies_true, and_true] at h
    simp (disch := decide) only [buildInstr, buildG0, RawW.fields, RawW.base, RawW.frame, dstOf_code, h, imodOf_imodBits]
theorem idiv f m o : Statement (.idiv f m o) := by
  refine of (g := 0) (m := 8) ⟨0x008, .op, .op, .op, .unused, .unused, .lowZero⟩ [o.a, o.b] rfl (by simp only [RawW.base]; decide) (by simp only [RawW.base]; rfl)
    (by simp only [RawW.base]; rfl) rfl ?_ ?_
  · intro _; simp only [Row.literals, FK.isCode, dst_code_lit, src_code_lit, litCount, RawW.base, List.filter_cons, List.filter_nil, Bool.true_and,
      Bool.false_and, Bool.false_eq_true, if_false]; repeat' split
    all_goals rfl
  · intro l h
    simp only [List.forall_mem_cons, List.not_mem_nil, false_imp_iff, implies_true, and_true] at h
    simp (disch := decide) only [buildInstr, buildG0, RawW.fields, RawW.base, RawW.frame, dstOf_code, h, imodOf_imodBits]
theorem irem f m o : Statement (.irem f m o) := by
  refine of (g := 0) (m := 9) ⟨0x009, .op, .op, .op, .unused, .unused, .lowZero⟩ [o.a, o.b] rfl (by simp only [RawW.base]; decide) (by simp only [RawW.base]; rfl)
    (by simp only [RawW.base]; rfl) rfl ?_ ?_
  · intro _; simp only [Row.literals, FK.isCode, dst_code_lit, src_code_lit, litCount, RawW.base, List.filter_cons, List.filter_nil, Bool.true_and,
      Bool.false_and, Bool.false_eq_true, if_false]; repeat' split
    all_goals rfl
  · intro l h
    simp only [List.forall_mem_cons, List.not_mem_nil, false_imp_iff, implies_true, and_true] at h
    simp (disch := decide) only [buildInstr, buildG0, RawW.fields, RawW.base, RawW.frame, dstOf_code, h, imodOf_imodBits]
theorem imin f m o : Statement (.imin f m o) := by
  refine of (g := 0) (m := 10) ⟨0x00a, .op, .op, .op, .unused, .unused, .lowZero⟩ [o.a, o.b] rfl (by simp only [RawW.base]; decide) (by simp only [RawW.base]; rfl)
    (by simp only [RawW.base]; rfl) rfl ?_ ?_
  · intro _; simp only [Row.literals, FK.isCode, dst_code_lit, src_code_lit, litCount, RawW.base, List.filter_cons, List.filter_nil, Bool.true_and,
      Bool.false_and, Bool.false_eq_true, if_false]; repeat' split
    all_goals rfl
  · intro l h
    simp only [List.forall_mem_cons, List.not_mem_nil, false_imp_iff, implies_true, and_true] at h
    simp (disch := decide) only [buildInstr, buildG0, RawW.fields, RawW.base, RawW.frame, dstOf_code, h, imodOf_imodBits]
theorem imax f m o : Statement (.imax f m o) := by
  refine of (g := 0) (m := 11) ⟨0x00b, .op, .op, .op, .unused, .unused, .lowZero⟩ [o.a, o.b] rfl (by simp only [RawW.base]; decide) (by simp only [RawW.base]; rfl)
    (by simp only [RawW.base]; rfl) rfl ?_ ?_
  · intro _; simp only [Row.literals, FK.isCode, dst_code_lit, src_code_lit, litCount, RawW.base, List.filter_cons, List.filter_nil, Bool.true_and,
      Bool.false_and, Bool.false_eq_true, if_false]; repeat' split
    all_goals rfl
  · intro l h
    simp only [List.forall_mem_cons, List.not_mem_nil, false_imp_iff, implies_true, and_true] at h
    simp (disch := decide) only [buildInstr, buildG0, RawW.fields, RawW.base, RawW.frame, dstOf_code, h, imodOf_imodBits]
theorem iabs f m o : Statement (.iabs f m o) := by
  refine of (g := 0) (m := 12) ⟨0x00c, .op, .op, .unused, .unused, .unused, .any⟩ [o.a] rfl (by simp only [RawW.base]; decide) (by simp only [RawW.base]; rfl)
    (by simp only [RawW.base]; rfl) rfl ?_ ?_
  · intro _; simp only [Row.literals, FK.isCode, dst_code_lit, src_code_lit, litCount, RawW.base, List.filter_cons, List.filter_nil, Bool.true_and,
      Bool.false_and, Bool.false_eq_true, if_false]; repeat' split
    all_goals rfl
  · intro l h
    rw [List.forall_mem_singleton] at h
    simp (disch := decide) only [buildInstr, buildG0, RawW.fields, RawW.base, RawW.frame, dstOf_code, h, imodOf_imodBits]
theorem ineg f m o : Statement (.ineg f m o) := by
  refine of (g := 0) (m := 13) ⟨0x00d, .op, .op, .unused, .unused, .unused, .any⟩ [o.a] rfl (by simp only [RawW.base]; decide) (by simp only [RawW.base]; rfl)
    (by simp only [RawW.base]; rfl) rfl ?_ ?_
  · intro _; simp only [Row.literals, FK.isCode, dst_code_lit, src_code_lit, litCount, RawW.base, List.filter_cons, List.filter_nil, Bool.true_and,
      Bool.false_and, Bool.false_eq_true, if_false]; repeat' split
    all_goals rfl
  · intro l h
    rw [List.forall_mem_singleton] at h
    simp (disch := decide) only [buildInstr, buildG0, RawW.fields, RawW.base, RawW.frame, dstOf_code, h, imodOf_imodBits]
theorem idot4 f m o : Statement (.idot4 f m o) := by
  refine of (g := 0) (m := 14) ⟨0x00e, .op, .op, .op, .op, .unused, .dot4⟩ [o.a, o.b, o.c] rfl (by simp only [RawW.base]; decide) (by simp only [RawW.base]; rfl)
    (by simp only [RawW.base]; rfl) rfl ?_ ?_
  · intro _; simp only [Row.literals, FK.isCode, dst_code_lit, src_code_lit, litCount, RawW.base, List.filter_cons, List.filter_nil, Bool.true_and,
      Bool.false_and, Bool.false_eq_true, if_false]; repeat' split
    all_goals rfl
  · intro l h
    simp only [List.forall_mem_cons, List.not_mem_nil, false_imp_iff, implies_true, and_true] at h
    simp (disch := decide) only [buildInstr, buildG0, RawW.fields, RawW.base, RawW.frame, dstOf_code, h, imodOf_imodBits]
theorem idot2 f m o : Statement (.idot2 f m o) := by
  refine of (g := 0) (m := 15) ⟨0x00f, .op, .op, .op, .op, .unused, .dot2⟩ [o.a, o.b, o.c] rfl (by simp only [RawW.base]; decide) (by simp only [RawW.base]; rfl)
    (by simp only [RawW.base]; rfl) rfl ?_ ?_
  · intro _; simp only [Row.literals, FK.isCode, dst_code_lit, src_code_lit, litCount, RawW.base, List.filter_cons, List.filter_nil, Bool.true_and,
      Bool.false_and, Bool.false_eq_true, if_false]; repeat' split
    all_goals rfl
  · intro l h
    simp only [List.forall_mem_cons, List.not_mem_nil, false_imp_iff, implies_true, and_true] at h
    simp (disch := decide) only [buildInstr, buildG0, RawW.fields, RawW.base, RawW.frame, dstOf_code, h, imodOf_imodBits]
theorem isad f m o : Statement (.isad f m o) := by
  refine of (g := 0) (m := 16) ⟨0x010, .op, .op, .op, .op, .unused, .any⟩ [o.a, o.b, o.c] rfl (by simp only [RawW.base]; decide) (by simp only [RawW.base]; rfl)
    (by simp only [RawW.base]; rfl) rfl ?_ ?_
  · intro _; simp only [Row.literals, FK.isCode, dst_code_lit, src_code_lit, litCount, RawW.base, List.filter_cons, List.filter_nil, Bool.true_and,
      Bool.false_and, Bool.false_eq_true, if_false]; repeat' split
    all_goals rfl
  · intro l h
    simp only [List.forall_mem_cons, List.not_mem_nil, false_imp_iff, implies_true, and_true] at h
    simp (disch := decide) only [buildInstr, buildG0, RawW.fields, RawW.base, RawW.frame, dstOf_code, h, imodOf_imodBits]
theorem iaddc f m o pc pe : Statement (.iaddc f m o pc pe) := by
  refine of (g := 0) (m := 17) ⟨0x011, .op, .op, .op, .raw 15, .raw 7, .low2Zero⟩ [o.a, o.b] rfl (by simp only [RawW.base]; decide) (by simp only [RawW.base]; rfl)
    (by simp only [RawW.base]; rfl) rfl ?_ ?_
  · intro _; simp only [Row.literals, FK.isCode, dst_code_lit, src_code_lit, litCount, RawW.base, List.filter_cons, List.filter_nil, Bool.true_and,
      Bool.false_and, Bool.false_eq_true, if_false]; repeat' split
    all_goals rfl
  · intro l h
    simp only [List.forall_mem_cons, List.not_mem_nil, false_imp_iff, implies_true, and_true] at h
    simp (disch := decide) only [buildInstr, buildG0, RawW.fields, RawW.base, RawW.frame, dstOf_code, h, imodOf_imodBits, predNOf_predNBits, narrow]
theorem lea f o sh : Statement (.lea f o sh) := by
  refine of (g := 0) (m := 18) ⟨0x012, .op, .op, .op, .unused, .raw 63, .zero⟩ [o.a, o.b] rfl (by simp only [RawW.base]; decide) (by simp only [RawW.base]; rfl)
    (by simp only [RawW.base]; rfl) rfl ?_ ?_
  · intro _; simp only [Row.literals, FK.isCode, dst_code_lit, src_code_lit, litCount, RawW.base, List.filter_cons, List.filter_nil, Bool.true_and,
      Bool.false_and, Bool.false_eq_true, if_false]; repeat' split
    all_goals rfl
  · intro l h
    simp only [List.forall_mem_cons, List.not_mem_nil, false_imp_iff, implies_true, and_true] at h
    simp (disch := decide) only [buildInstr, buildG0, RawW.fields, RawW.base, RawW.frame, dstOf_code, h, narrow]
theorem mov f o : Statement (.mov f o) := by
  refine of (g := 0) (m := 19) ⟨0x013, .op, .op, .unused, .unused, .unused, .zero⟩ [o.a] rfl (by simp only [RawW.base]; decide) (by simp only [RawW.base]; rfl)
    (by simp only [RawW.base]; rfl) rfl ?_ ?_
  · intro _; simp only [Row.literals, FK.isCode, dst_code_lit, src_code_lit, litCount, RawW.base, List.filter_cons, List.filter_nil, Bool.true_and,
      Bool.false_and, Bool.false_eq_true, if_false]; repeat' split
    all_goals rfl
  · intro l h
    rw [List.forall_mem_singleton] at h
    simp (disch := decide) only [buildInstr, buildG0, RawW.fields, RawW.base, RawW.frame, dstOf_code, h]
theorem movi f m d imm : Statement (.movi f m d imm) := by
  refine of (g := 0) (m := 20) ⟨0x014, .op, .raw 127, .raw 127, .raw 127, .raw 127, .lowZero⟩ [] rfl (by simp only [RawW.base]; decide) (by simp only [RawW.base]; rfl)
    (by simp only [RawW.base]; rfl) rfl ?_ ?_
  · intro _; simp only [Row.literals, FK.isCode, dst_code_lit, src_code_lit, litCount, RawW.base, List.filter_cons, List.filter_nil, Bool.true_and,
      Bool.false_and, Bool.false_eq_true, if_false]; repeat' split
    all_goals rfl
  · intro l h
    simp (disch := decide) only [buildInstr, buildG0, RawW.fields, RawW.base, RawW.frame, dstOf_code, imodOf_imodBits, parts28]
theorem movhi f o : Statement (.movhi f o) := by
  refine of (g := 0) (m := 21) ⟨0x015, .op, .op, .op, .unused, .unused, .zero⟩ [o.a, o.b] rfl (by simp only [RawW.base]; decide) (by simp only [RawW.base]; rfl)
    (by simp only [RawW.base]; rfl) rfl ?_ ?_
  · intro _; simp only [Row.literals, FK.isCode, dst_code_lit, src_code_lit, litCount, RawW.base, List.filter_cons, List.filter_nil, Bool.true_and,
      Bool.false_and, Bool.false_eq_true, if_false]; repeat' split
    all_goals rfl
  · intro l h
    simp only [List.forall_mem_cons, List.not_mem_nil, false_imp_iff, implies_true, and_true] at h
    simp (disch := decide) only [buildInstr, buildG0, RawW.fields, RawW.base, RawW.frame, dstOf_code, h]
theorem sel f o pc : Statement (.sel f o pc) := by
  refine of (g := 0) (m := 22) ⟨0x016, .op, .op, .op, .raw 15, .unused, .zero⟩ [o.a, o.b] rfl (by simp only [RawW.base]; decide) (by simp only [RawW.base]; rfl)
    (by simp only [RawW.base]; rfl) rfl ?_ ?_
  · intro _; simp only [Row.literals, FK.isCode, dst_code_lit, src_code_lit, litCount, RawW.base, List.filter_cons, List.filter_nil, Bool.true_and,
      Bool.false_and, Bool.false_eq_true, if_false]; repeat' split
    all_goals rfl
  · intro l h
    simp only [List.forall_mem_cons, List.not_mem_nil, false_imp_iff, implies_true, and_true] at h
    simp (disch := decide) only [buildInstr, buildG0, RawW.fields, RawW.base, RawW.frame, dstOf_code, h, predNOf_predNBits]
theorem iclamp f m o : Statement (.iclamp f m o) := by
  refine of (g := 0) (m := 23) ⟨0x017, .op, .op, .op, .op, .unused, .lowZero⟩ [o.a, o.b, o.c] rfl (by simp only [RawW.base]; decide) (by simp only [RawW.base]; rfl)
    (by simp only [RawW.base]; rfl) rfl ?_ ?_
  · intro _; simp only [Row.literals, FK.isCode, dst_code_lit, src_code_lit, litCount, RawW.base, List.filter_cons, List.filter_nil, Bool.true_and,
      Bool.false_and, Bool.false_eq_true, if_false]; repeat' split
    all_goals rfl
  · intro l h
    simp only [List.forall_mem_cons, List.not_mem_nil, false_imp_iff, implies_true, and_true] at h
    simp (disch := decide) only [buildInstr, buildG0, RawW.fields, RawW.base, RawW.frame, dstOf_code, h, imodOf_imodBits]
theorem and f o : Statement (.and f o) := by
  refine of (g := 1) (m := 0) ⟨0x040, .op, .op, .op, .unused, .unused, .zero⟩ [o.a, o.b] rfl (by simp only [RawW.base]; decide) (by simp only [RawW.base]; rfl)
    (by simp only [RawW.base]; rfl) rfl ?_ ?_
  · intro _; simp only [Row.literals, FK.isCode, dst_code_lit, src_code_lit, litCount, RawW.base, List.filter_cons, List.filter_nil, Bool.true_and,
      Bool.false_and, Bool.false_eq_true, if_false]; repeat' split
    all_goals rfl
  · intro l h
    simp only [List.forall_mem_cons, List.not_mem_nil, false_imp_iff, implies_true, and_true] at h
    simp (disch := decide) only [buildInstr, buildG1, RawW.fields, RawW.base, RawW.frame, dstOf_code, h]
theorem or f o : Statement (.or f o) := by
  refine of (g := 1) (m := 1) ⟨0x041, .op, .op, .op, .unused, .unused, .zero⟩ [o.a, o.b] rfl (by simp only [RawW.base]; decide) (by simp only [RawW.base]; rfl)
    (by simp only [RawW.base]; rfl) rfl ?_ ?_
  · intro _; simp only [Row.literals, FK.isCode, dst_code_lit, src_code_lit, litCount, RawW.base, List.filter_cons, List.filter_nil, Bool.true_and,
      Bool.false_and, Bool.false_eq_true, if_false]; repeat' split
    all_goals rfl
  · intro l h
    simp only [List.forall_mem_cons, List.not_mem_nil, false_imp_iff, implies_true, and_true] at h
    simp (disch := decide) only [buildInstr, buildG1, RawW.fields, RawW.base, RawW.frame, dstOf_code, h]
theorem xor f o : Statement (.xor f o) := by
  refine of (g := 1) (m := 2) ⟨0x042, .op, .op, .op, .unused, .unused, .zero⟩ [o.a, o.b] rfl (by simp only [RawW.base]; decide) (by simp only [RawW.base]; rfl)
    (by simp only [RawW.base]; rfl) rfl ?_ ?_
  · intro _; simp only [Row.literals, FK.isCode, dst_code_lit, src_code_lit, litCount, RawW.base, List.filter_cons, List.filter_nil, Bool.true_and,
      Bool.false_and, Bool.false_eq_true, if_false]; repeat' split
    all_goals rfl
  · intro l h
    simp only [List.forall_mem_cons, List.not_mem_nil, false_imp_iff, implies_true, and_true] at h
    simp (disch := decide) only [buildInstr, buildG1, RawW.fields, RawW.base, RawW.frame, dstOf_code, h]
theorem andn f o : Statement (.andn f o) := by
  refine of (g := 1) (m := 3) ⟨0x043, .op, .op, .op, .unused, .unused, .zero⟩ [o.a, o.b] rfl (by simp only [RawW.base]; decide) (by simp only [RawW.base]; rfl)
    (by simp only [RawW.base]; rfl) rfl ?_ ?_
  · intro _; simp only [Row.literals, FK.isCode, dst_code_lit, src_code_lit, litCount, RawW.base, List.filter_cons, List.filter_nil, Bool.true_and,
      Bool.false_and, Bool.false_eq_true, if_false]; repeat' split
    all_goals rfl
  · intro l h
    simp only [List.forall_mem_cons, List.not_mem_nil, false_imp_iff, implies_true, and_true] at h
    simp (disch := decide) only [buildInstr, buildG1, RawW.fields, RawW.base, RawW.frame, dstOf_code, h]
theorem not f o : Statement (.not f o) := by
  refine of (g := 1) (m := 4) ⟨0x044, .op, .op, .unused, .unused, .unused, .zero⟩ [o.a] rfl (by simp only [RawW.base]; decide) (by simp only [RawW.base]; rfl)
    (by simp only [RawW.base]; rfl) rfl ?_ ?_
  · intro _; simp only [Row.literals, FK.isCode, dst_code_lit, src_code_lit, litCount, RawW.base, List.filter_cons, List.filter_nil, Bool.true_and,
      Bool.false_and, Bool.false_eq_true, if_false]; repeat' split
    all_goals rfl
  · intro l h
    rw [List.forall_mem_singleton] at h
    simp (disch := decide) only [buildInstr, buildG1, RawW.fields, RawW.base, RawW.frame, dstOf_code, h]
theorem bfn3 f o tab : Statement (.bfn3 f o tab) := by
  refine of (g := 1) (m := 5) ⟨0x045, .op, .op, .op, .op, .raw 15, .any⟩ [o.a, o.b, o.c] rfl (by simp only [RawW.base]; decide) (by simp only [RawW.base]; rfl)
    (by simp only [RawW.base]; rfl) rfl ?_ ?_
  · intro _; simp only [Row.literals, FK.isCode, dst_code_lit, src_code_lit, litCount, RawW.base, List.filter_cons, List.filter_nil, Bool.true_and,
      Bool.false_and, Bool.false_eq_true, if_false]; repeat' split
    all_goals rfl
  · intro l h
    simp only [List.forall_mem_cons, List.not_mem_nil, false_imp_iff, implies_true, and_true] at h
    simp (disch := decide) only [buildInstr, buildG1, RawW.fields, RawW.base, RawW.frame, dstOf_code, h, narrow, parts8]
theorem shl f m o : Statement (.shl f m o) := by
  refine of (g := 1) (m := 6) ⟨0x046, .op, .op, .op, .unused, .unused, .low2Zero⟩ [o.a, o.b] rfl (by simp only [RawW.base]; decide) (by simp only [RawW.base]; rfl)
    (by simp only [RawW.base]; rfl) rfl ?_ ?_
  · intro _; simp only [Row.literals, FK.isCode, dst_code_lit, src_code_lit, litCount, RawW.base, List.filter_cons, List.filter_nil, Bool.true_and,
      Bool.false_and, Bool.false_eq_true, if_false]; repeat' split
    all_goals rfl
  · intro l h
    simp only [List.forall_mem_cons, List.not_mem_nil, false_imp_iff, implies_true, and_true] at h
    simp (disch := decide) only [buildInstr, buildG1, RawW.fields, RawW.base, RawW.frame, dstOf_code, h, imodOf_imodBits]
theorem shr f m o : Statement (.shr f m o) := by
  refine of (g := 1) (m := 7) ⟨0x047, .op, .op, .op, .unused, .unused, .low2Zero⟩ [o.a, o.b] rfl (by simp only [RawW.base]; decide) (by simp only [RawW.base]; rfl)
    (by simp only [RawW.base]; rfl) rfl ?_ ?_
  · intro _; simp only [Row.literals, FK.isCode, dst_code_lit, src_code_lit, litCount, RawW.base, List.filter_cons, List.filter_nil, Bool.true_and,
      Bool.false_and, Bool.false_eq_true, if_false]; repeat' split
    all_goals rfl
  · intro l h
    simp only [List.forall_mem_cons, List.not_mem_nil, false_imp_iff, implies_true, and_true] at h
    simp (disch := decide) only [buildInstr, buildG1, RawW.fields, RawW.base, RawW.frame, dstOf_code, h, imodOf_imodBits]
theorem sar f m o : Statement (.sar f m o) := by
  refine of (g := 1) (m := 8) ⟨0x048, .op, .op, .op, .unused, .unused, .low2Zero⟩ [o.a, o.b] rfl (by simp only [RawW.base]; decide) (by simp only [RawW.base]; rfl)
    (by simp only [RawW.base]; rfl) rfl ?_ ?_
  · intro _; simp only [Row.literals, FK.isCode, dst_code_lit, src_code_lit, litCount, RawW.base, List.filter_cons, List.filter_nil, Bool.true_and,
      Bool.false_and, Bool.false_eq_true, if_false]; repeat' split
    all_goals rfl
  · intro l h
    simp only [List.forall_mem_cons, List.not_mem_nil, false_imp_iff, implies_true, and_true] at h
    simp (disch := decide) only [buildInstr, buildG1, RawW.fields, RawW.base, RawW.frame, dstOf_code, h, imodOf_imodBits]
theorem rol f m o : Statement (.rol f m o) := by
  refine of (g := 1) (m := 9) ⟨0x049, .op, .op, .op, .unused, .unused, .low2Zero⟩ [o.a, o.b] rfl (by simp only [RawW.base]; decide) (by simp only [RawW.base]; rfl)
    (by simp only [RawW.base]; rfl) rfl ?_ ?_
  · intro _; simp only [Row.literals, FK.isCode, dst_code_lit, src_code_lit, litCount, RawW.base, List.filter_cons, List.filter_nil, Bool.true_and,
      Bool.false_and, Bool.false_eq_true, if_false]; repeat' split
    all_goals rfl
  · intro l h
    simp only [List.forall_mem_cons, List.not_mem_nil, false_imp_iff, implies_true, and_true] at h
    simp (disch := decide) only [buildInstr, buildG1, RawW.fields, RawW.base, RawW.frame, dstOf_code, h, imodOf_imodBits]
theorem ror f m o : Statement (.ror f m o) := by
  refine of (g := 1) (m := 10) ⟨0x04a, .op, .op, .op, .unused, .unused, .low2Zero⟩ [o.a, o.b] rfl (by simp only [RawW.base]; decide) (by simp only [RawW.base]; rfl)
    (by simp only [RawW.base]; rfl) rfl ?_ ?_
  · intro _; simp only [Row.literals, FK.isCode, dst_code_lit, src_code_lit, litCount, RawW.base, List.filter_cons, List.filter_nil, Bool.true_and,
      Bool.false_and, Bool.false_eq_true, if_false]; repeat' split
    all_goals rfl
  · intro l h
    simp only [List.forall_mem_cons, List.not_mem_nil, false_imp_iff, implies_true, and_true] at h
    simp (disch := decide) only [buildInstr, buildG1, RawW.fields, RawW.base, RawW.frame, dstOf_code, h, imodOf_imodBits]
theorem fshf f m o : Statement (.fshf f m o) := by
  refine of (g := 1) (m := 11) ⟨0x04b, .op, .op, .op, .op, .unused, .low2Zero⟩ [o.a, o.b, o.c] rfl (by simp only [RawW.base]; decide) (by simp only [RawW.base]; rfl)
    (by simp only [RawW.base]; rfl) rfl ?_ ?_
  · intro _; simp only [Row.literals, FK.isCode, dst_code_lit, src_code_lit, litCount, RawW.base, List.filter_cons, List.filter_nil, Bool.true_and,
      Bool.false_and, Bool.false_eq_true, if_false]; repeat' split
    all_goals rfl
  · intro l h
    simp only [List.forall_mem_cons, List.not_mem_nil, false_imp_iff, implies_true, and_true] at h
    simp (disch := decide) only [buildInstr, buildG1, RawW.fields, RawW.base, RawW.frame, dstOf_code, h, imodOf_imodBits]
theorem popc f m o : Statement (.popc f m o) := by
  refine of (g := 1) (m := 12) ⟨0x04c, .op, .op, .unused, .unused, .unused, .low2Zero⟩ [o.a] rfl (by simp only [RawW.base]; decide) (by simp only [RawW.base]; rfl)
    (by simp only [RawW.base]; rfl) rfl ?_ ?_
  · intro _; simp only [Row.literals, FK.isCode, dst_code_lit, src_code_lit, litCount, RawW.base, List.filter_cons, List.filter_nil, Bool.true_and,
      Bool.false_and, Bool.false_eq_true, if_false]; repeat' split
    all_goals rfl
  · intro l h
    rw [List.forall_mem_singleton] at h
    simp (disch := decide) only [buildInstr, buildG1, RawW.fields, RawW.base, RawW.frame, dstOf_code, h, imodOf_imodBits]
theorem clz f m o : Statement (.clz f m o) := by
  refine of (g := 1) (m := 13) ⟨0x04d, .op, .op, .unused, .unused, .unused, .low2Zero⟩ [o.a] rfl (by simp only [RawW.base]; decide) (by simp only [RawW.base]; rfl)
    (by simp only [RawW.base]; rfl) rfl ?_ ?_
  · intro _; simp only [Row.literals, FK.isCode, dst_code_lit, src_code_lit, litCount, RawW.base, List.filter_cons, List.filter_nil, Bool.true_and,
      Bool.false_and, Bool.false_eq_true, if_false]; repeat' split
    all_goals rfl
  · intro l h
    rw [List.forall_mem_singleton] at h
    simp (disch := decide) only [buildInstr, buildG1, RawW.fields, RawW.base, RawW.frame, dstOf_code, h, imodOf_imodBits]
theorem ctz f m o : Statement (.ctz f m o) := by
  refine of (g := 1) (m := 14) ⟨0x04e, .op, .op, .unused, .unused, .unused, .low2Zero⟩ [o.a] rfl (by simp only [RawW.base]; decide) (by simp only [RawW.base]; rfl)
    (by simp only [RawW.base]; rfl) rfl ?_ ?_
  · intro _; simp only [Row.literals, FK.isCode, dst_code_lit, src_code_lit, litCount, RawW.base, List.filter_cons, List.filter_nil, Bool.true_and,
      Bool.false_and, Bool.false_eq_true, if_false]; repeat' split
    all_goals rfl
  · intro l h
    rw [List.forall_mem_singleton] at h
    simp (disch := decide) only [buildInstr, buildG1, RawW.fields, RawW.base, RawW.frame, dstOf_code, h, imodOf_imodBits]
theorem brev f m o : Statement (.brev f m o) := by
  refine of (g := 1) (m := 15) ⟨0x04f, .op, .op, .unused, .unused, .unused, .low2Zero⟩ [o.a] rfl (by simp only [RawW.base]; decide) (by simp only [RawW.base]; rfl)
    (by simp only [RawW.base]; rfl) rfl ?_ ?_
  · intro _; simp only [Row.literals, FK.isCode, dst_code_lit, src_code_lit, litCount, RawW.base, List.filter_cons, List.filter_nil, Bool.true_and,
      Bool.false_and, Bool.false_eq_true, if_false]; repeat' split
    all_goals rfl
  · intro l h
    rw [List.forall_mem_singleton] at h
    simp (disch := decide) only [buildInstr, buildG1, RawW.fields, RawW.base, RawW.frame, dstOf_code, h, imodOf_imodBits]
theorem bfx f m o : Statement (.bfx f m o) := by
  refine of (g := 1) (m := 16) ⟨0x050, .op, .op, .op, .op, .unused, .lowZero⟩ [o.a, o.b, o.c] rfl (by simp only [RawW.base]; decide) (by simp only [RawW.base]; rfl)
    (by simp only [RawW.base]; rfl) rfl ?_ ?_
  · intro _; simp only [Row.literals, FK.isCode, dst_code_lit, src_code_lit, litCount, RawW.base, List.filter_cons, List.filter_nil, Bool.true_and,
      Bool.false_and, Bool.false_eq_true, if_false]; repeat' split
    all_goals rfl
  · intro l h
    simp only [List.forall_mem_cons, List.not_mem_nil, false_imp_iff, implies_true, and_true] at h
    simp (disch := decide) only [buildInstr, buildG1, RawW.fields, RawW.base, RawW.frame, dstOf_code, h, imodOf_imodBits]
theorem bfi f m o : Statement (.bfi f m o) := by
  refine of (g := 1) (m := 17) ⟨0x051, .op, .op, .op, .op, .op, .low2Zero⟩ [o.a, o.b, o.c, o.e] rfl (by simp only [RawW.base]; decide) (by simp only [RawW.base]; rfl)
    (by simp only [RawW.base]; rfl) rfl ?_ ?_
  · intro _; simp only [Row.literals, FK.isCode, dst_code_lit, src_code_lit, litCount, RawW.base, List.filter_cons, List.filter_nil, Bool.true_and,
      Bool.false_and, Bool.false_eq_true, if_false]; repeat' split
    all_goals rfl
  · intro l h
    simp only [List.forall_mem_cons, List.not_mem_nil, false_imp_iff, implies_true, and_true] at h
    simp (disch := decide) only [buildInstr, buildG1, RawW.fields, RawW.base, RawW.frame, dstOf_code, h, imodOf_imodBits]
theorem prmb f o : Statement (.prmb f o) := by
  refine of (g := 1) (m := 18) ⟨0x052, .op, .op, .op, .op, .unused, .zero⟩ [o.a, o.b, o.c] rfl (by simp only [RawW.base]; decide) (by simp only [RawW.base]; rfl)
    (by simp only [RawW.base]; rfl) rfl ?_ ?_
  · intro _; simp only [Row.literals, FK.isCode, dst_code_lit, src_code_lit, litCount, RawW.base, List.filter_cons, List.filter_nil, Bool.true_and,
      Bool.false_and, Bool.false_eq_true, if_false]; repeat' split
    all_goals rfl
  · intro l h
    simp only [List.forall_mem_cons, List.not_mem_nil, false_imp_iff, implies_true, and_true] at h
    simp (disch := decide) only [buildInstr, buildG1, RawW.fields, RawW.base, RawW.frame, dstOf_code, h]
theorem icmp f m pd o cond anyE : Statement (.icmp f m pd o cond anyE) := by
  refine of (g := 1) (m := 19) ⟨0x053, .raw 7, .op, .op, .unused, .raw 15, .lowZero⟩ [o.a, o.b] rfl (by simp only [RawW.base]; decide) (by simp only [RawW.base]; rfl)
    (by simp only [RawW.base]; rfl) rfl ?_ ?_
  · intro _; simp only [Row.literals, FK.isCode, dst_code_lit, src_code_lit, litCount, RawW.base, List.filter_cons, List.filter_nil, Bool.true_and,
      Bool.false_and, Bool.false_eq_true, if_false]; repeat' split
    all_goals rfl
  · intro l h
    simp only [List.forall_mem_cons, List.not_mem_nil, false_imp_iff, implies_true, and_true] at h
    simp (disch := decide) only [buildInstr, buildG1, RawW.fields, RawW.base, RawW.frame, h, imodOf_imodBits, condField, narrow, Option.map_some]
theorem pset f pd pa pb tab : Statement (.pset f pd pa pb tab) := by
  refine of (g := 1) (m := 20) ⟨0x054, .raw 7, .raw 7, .raw 7, .unused, .raw 15, .zero⟩ [] rfl (by simp only [RawW.base]; decide) (by simp only [RawW.base]; rfl)
    (by simp only [RawW.base]; rfl) rfl ?_ ?_
  · intro _; simp only [Row.literals, FK.isCode, dst_code_lit, src_code_lit, litCount, RawW.base, List.filter_cons, List.filter_nil, Bool.true_and,
      Bool.false_and, Bool.false_eq_true, if_false]; repeat' split
    all_goals rfl
  · intro l h
    simp (disch := decide) only [buildInstr, buildG1, RawW.fields, RawW.base, RawW.frame, narrow]
theorem pmov f o msk dir : Statement (.pmov f o msk dir) := by
  refine of (g := 1) (m := 21) ⟨0x055, .opWhenE0 false, .opWhenE0 true, .unused, .raw 127, .raw 1, .zero⟩ [o.a] rfl (by simp only [RawW.base]; decide) (by simp only [RawW.base]; rfl)
    (by simp only [RawW.base]; rfl) rfl ?_ ?_
  · intro hA; cases dir <;> simp only [Row.literals, FK.isCode, dst_code_lit, src_code_lit, litCount, RawW.base, List.filter_cons, List.filter_nil, Bool.true_and,
      Bool.false_and, Bool.false_eq_true, if_false]; repeat' split
    all_goals simp_all [FK.okSrc, bitField, ← code_lit, Src.code]
  · intro l h
    rw [List.forall_mem_singleton] at h
    simp (disch := decide) only [buildInstr, buildG1, RawW.fields, RawW.base, RawW.frame, dstOf_code, h, bitField]
theorem fadd f m o : Statement (.fadd f m o) := by
  refine of (g := 2) (m := 0) ⟨0x080, .op, .op, .op, .unused, .unused, .any⟩ [o.a, o.b] rfl (by simp only [RawW.base]; decide) (by simp only [RawW.base]; rfl)
    (by simp only [RawW.base]; rfl) rfl ?_ ?_
  · intro _; simp only [Row.literals, FK.isCode, dst_code_lit, src_code_lit, litCount, RawW.base, List.filter_cons, List.filter_nil, Bool.true_and,
      Bool.false_and, Bool.false_eq_true, if_false]; repeat' split
    all_goals rfl
  · intro l h
    simp only [List.forall_mem_cons, List.not_mem_nil, false_imp_iff, implies_true, and_true] at h
    simp (disch := decide) only [buildInstr, buildG2, RawW.fields, RawW.base, RawW.frame, dstOf_code, h, fmodOf_fmodBits]
theorem fsub f m o : Statement (.fsub f m o) := by
  refine of (g := 2) (m := 1) ⟨0x081, .op, .op, .op, .unused, .unused, .any⟩ [o.a, o.b] rfl (by simp only [RawW.base]; decide) (by simp only [RawW.base]; rfl)
    (by simp only [RawW.base]; rfl) rfl ?_ ?_
  · intro _; simp only [Row.literals, FK.isCode, dst_code_lit, src_code_lit, litCount, RawW.base, List.filter_cons, List.filter_nil, Bool.true_and,
      Bool.false_and, Bool.false_eq_true, if_false]; repeat' split
    all_goals rfl
  · intro l h
    simp only [List.forall_mem_cons, List.not_mem_nil, false_imp_iff, implies_true, and_true] at h
    simp (disch := decide) only [buildInstr, buildG2, RawW.fields, RawW.base, RawW.frame, dstOf_code, h, fmodOf_fmodBits]
theorem fmul f m o : Statement (.fmul f m o) := by
  refine of (g := 2) (m := 2) ⟨0x082, .op, .op, .op, .unused, .unused, .any⟩ [o.a, o.b] rfl (by simp only [RawW.base]; decide) (by simp only [RawW.base]; rfl)
    (by simp only [RawW.base]; rfl) rfl ?_ ?_
  · intro _; simp only [Row.literals, FK.isCode, dst_code_lit, src_code_lit, litCount, RawW.base, List.filter_cons, List.filter_nil, Bool.true_and,
      Bool.false_and, Bool.false_eq_true, if_false]; repeat' split
    all_goals rfl
  · intro l h
    simp only [List.forall_mem_cons, List.not_mem_nil, false_imp_iff, implies_true, and_true] at h
    simp (disch := decide) only [buildInstr, buildG2, RawW.fields, RawW.base, RawW.frame, dstOf_code, h, fmodOf_fmodBits]
theorem ffma f m o : Statement (.ffma f m o) := by
  refine of (g := 2) (m := 3) ⟨0x083, .op, .op, .op, .op, .unused, .any⟩ [o.a, o.b, o.c] rfl (by simp only [RawW.base]; decide) (by simp only [RawW.base]; rfl)
    (by simp only [RawW.base]; rfl) rfl ?_ ?_
  · intro _; simp only [Row.literals, FK.isCode, dst_code_lit, src_code_lit, litCount, RawW.base, List.filter_cons, List.filter_nil, Bool.true_and,
      Bool.false_and, Bool.false_eq_true, if_false]; repeat' split
    all_goals rfl
  · intro l h
    simp only [List.forall_mem_cons, List.not_mem_nil, false_imp_iff, implies_true, and_true] at h
    simp (disch := decide) only [buildInstr, buildG2, RawW.fields, RawW.base, RawW.frame, dstOf_code, h, fmodOf_fmodBits]
theorem fmin f m o : Statement (.fmin f m o) := by
  refine of (g := 2) (m := 4) ⟨0x084, .op, .op, .op, .unused, .unused, .low2Zero⟩ [o.a, o.b] rfl (by simp only [RawW.base]; decide) (by simp only [RawW.base]; rfl)
    (by simp only [RawW.base]; rfl) rfl ?_ ?_
  · intro _; simp only [Row.literals, FK.isCode, dst_code_lit, src_code_lit, litCount, RawW.base, List.filter_cons, List.filter_nil, Bool.true_and,
      Bool.false_and, Bool.false_eq_true, if_false]; repeat' split
    all_goals rfl
  · intro l h
    simp only [List.forall_mem_cons, List.not_mem_nil, false_imp_iff, implies_true, and_true] at h
    simp (disch := decide) only [buildInstr, buildG2, RawW.fields, RawW.base, RawW.frame, dstOf_code, h, fmodOf_fmodBits]
theorem fmax f m o : Statement (.fmax f m o) := by
  refine of (g := 2) (m := 5) ⟨0x085, .op, .op, .op, .unused, .unused, .low2Zero⟩ [o.a, o.b] rfl (by simp only [RawW.base]; decide) (by simp only [RawW.base]; rfl)
    (by simp only [RawW.base]; rfl) rfl ?_ ?_
  · intro _; simp only [Row.literals, FK.isCode, dst_code_lit, src_code_lit, litCount, RawW.base, List.filter_cons, List.filter_nil, Bool.true_and,
      Bool.false_and, Bool.false_eq_true, if_false]; repeat' split
    all_goals rfl
  · intro l h
    simp only [List.forall_mem_cons, List.not_mem_nil, false_imp_iff, implies_true, and_true] at h
    simp (disch := decide) only [buildInstr, buildG2, RawW.fields, RawW.base, RawW.frame, dstOf_code, h, fmodOf_fmodBits]
theorem fabs f m o : Statement (.fabs f m o) := by
  refine of (g := 2) (m := 6) ⟨0x086, .op, .op, .unused, .unused, .unused, .low2Zero⟩ [o.a] rfl (by simp only [RawW.base]; decide) (by simp only [RawW.base]; rfl)
    (by simp only [RawW.base]; rfl) rfl ?_ ?_
  · intro _; simp only [Row.literals, FK.isCode, dst_code_lit, src_code_lit, litCount, RawW.base, List.filter_cons, List.filter_nil, Bool.true_and,
      Bool.false_and, Bool.false_eq_true, if_false]; repeat' split
    all_goals rfl
  · intro l h
    rw [List.forall_mem_singleton] at h
    simp (disch := decide) only [buildInstr, buildG2, RawW.fields, RawW.base, RawW.frame, dstOf_code, h, fmodOf_fmodBits]
theorem fneg f m o : Statement (.fneg f m o) := by
  refine of (g := 2) (m := 7) ⟨0x087, .op, .op, .unused, .unused, .unused, .low2Zero⟩ [o.a] rfl (by simp only [RawW.base]; decide) (by simp only [RawW.base]; rfl)
    (by simp only [RawW.base]; rfl) rfl ?_ ?_
  · intro _; simp only [Row.literals, FK.isCode, dst_code_lit, src_code_lit, litCount, RawW.base, List.filter_cons, List.filter_nil, Bool.true_and,
      Bool.false_and, Bool.false_eq_true, if_false]; repeat' split
    all_goals rfl
  · intro l h
    rw [List.forall_mem_singleton] at h
    simp (disch := decide) only [buildInstr, buildG2, RawW.fields, RawW.base, RawW.frame, dstOf_code, h, fmodOf_fmodBits]
theorem fcmp f m pd o cond anyE : Statement (.fcmp f m pd o cond anyE) := by
  refine of (g := 2) (m := 8) ⟨0x088, .raw 7, .op, .op, .unused, .raw 15, .low2Zero⟩ [o.a, o.b] rfl (by simp only [RawW.base]; decide) (by simp only [RawW.base]; rfl)
    (by simp only [RawW.base]; rfl) rfl ?_ ?_
  · intro _; simp only [Row.literals, FK.isCode, dst_code_lit, src_code_lit, litCount, RawW.base, List.filter_cons, List.filter_nil, Bool.true_and,
      Bool.false_and, Bool.false_eq_true, if_false]; repeat' split
    all_goals rfl
  · intro l h
    simp only [List.forall_mem_cons, List.not_mem_nil, false_imp_iff, implies_true, and_true] at h
    simp (disch := decide) only [buildInstr, buildG2, RawW.fields, RawW.base, RawW.frame, h, fmodOf_fmodBits, condField, narrow, Option.map_some]
theorem fclass f m o : Statement (.fclass f m o) := by
  refine of (g := 2) (m := 9) ⟨0x089, .op, .op, .unused, .unused, .unused, .low2Zero⟩ [o.a] rfl (by simp only [RawW.base]; decide) (by simp only [RawW.base]; rfl)
    (by simp only [RawW.base]; rfl) rfl ?_ ?_
  · intro _; simp only [Row.literals, FK.isCode, dst_code_lit, src_code_lit, litCount, RawW.base, List.filter_cons, List.filter_nil, Bool.true_and,
      Bool.false_and, Bool.false_eq_true, if_false]; repeat' split
    all_goals rfl
  · intro l h
    rw [List.forall_mem_singleton] at h
    simp (disch := decide) only [buildInstr, buildG2, RawW.fields, RawW.base, RawW.frame, dstOf_code, h, fmodOf_fmodBits]
theorem fdiv f m o : Statement (.fdiv f m o) := by
  refine of (g := 2) (m := 10) ⟨0x08a, .op, .op, .op, .unused, .unused, .any⟩ [o.a, o.b] rfl (by simp only [RawW.base]; decide) (by simp only [RawW.base]; rfl)
    (by simp only [RawW.base]; rfl) rfl ?_ ?_
  · intro _; simp only [Row.literals, FK.isCode, dst_code_lit, src_code_lit, litCount, RawW.base, List.filter_cons, List.filter_nil, Bool.true_and,
      Bool.false_and, Bool.false_eq_true, if_false]; repeat' split
    all_goals rfl
  · intro l h
    simp only [List.forall_mem_cons, List.not_mem_nil, false_imp_iff, implies_true, and_true] at h
    simp (disch := decide) only [buildInstr, buildG2, RawW.fields, RawW.base, RawW.frame, dstOf_code, h, fmodOf_fmodBits]
theorem fsqrt f m o : Statement (.fsqrt f m o) := by
  refine of (g := 2) (m := 11) ⟨0x08b, .op, .op, .unused, .unused, .unused, .any⟩ [o.a] rfl (by simp only [RawW.base]; decide) (by simp only [RawW.base]; rfl)
    (by simp only [RawW.base]; rfl) rfl ?_ ?_
  · intro _; simp only [Row.literals, FK.isCode, dst_code_lit, src_code_lit, litCount, RawW.base, List.filter_cons, List.filter_nil, Bool.true_and,
      Bool.false_and, Bool.false_eq_true, if_false]; repeat' split
    all_goals rfl
  · intro l h
    rw [List.forall_mem_singleton] at h
    simp (disch := decide) only [buildInstr, buildG2, RawW.fields, RawW.base, RawW.frame, dstOf_code, h, fmodOf_fmodBits]
theorem frcp f m o : Statement (.frcp f m o) := by
  refine of (g := 2) (m := 12) ⟨0x08c, .op, .op, .unused, .unused, .unused, .any⟩ [o.a] rfl (by simp only [RawW.base]; decide) (by simp only [RawW.base]; rfl)
    (by simp only [RawW.base]; rfl) rfl ?_ ?_
  · intro _; simp only [Row.literals, FK.isCode, dst_code_lit, src_code_lit, litCount, RawW.base, List.filter_cons, List.filter_nil, Bool.true_and,
      Bool.false_and, Bool.false_eq_true, if_false]; repeat' split
    all_goals rfl
  · intro l h
    rw [List.forall_mem_singleton] at h
    simp (disch := decide) only [buildInstr, buildG2, RawW.fields, RawW.base, RawW.frame, dstOf_code, h, fmodOf_fmodBits]
theorem frsq f m o : Statement (.frsq f m o) := by
  refine of (g := 2) (m := 13) ⟨0x08d, .op, .op, .unused, .unused, .unused, .any⟩ [o.a] rfl (by simp only [RawW.base]; decide) (by simp only [RawW.base]; rfl)
    (by simp only [RawW.base]; rfl) rfl ?_ ?_
  · intro _; simp only [Row.literals, FK.isCode, dst_code_lit, src_code_lit, litCount, RawW.base, List.filter_cons, List.filter_nil, Bool.true_and,
      Bool.false_and, Bool.false_eq_true, if_false]; repeat' split
    all_goals rfl
  · intro l h
    rw [List.forall_mem_singleton] at h
    simp (disch := decide) only [buildInstr, buildG2, RawW.fields, RawW.base, RawW.frame, dstOf_code, h, fmodOf_fmodBits]
theorem fex2 f m o : Statement (.fex2 f m o) := by
  refine of (g := 2) (m := 14) ⟨0x08e, .op, .op, .unused, .unused, .unused, .any⟩ [o.a] rfl (by simp only [RawW.base]; decide) (by simp only [RawW.base]; rfl)
    (by simp only [RawW.base]; rfl) rfl ?_ ?_
  · intro _; simp only [Row.literals, FK.isCode, dst_code_lit, src_code_lit, litCount, RawW.base, List.filter_cons, List.filter_nil, Bool.true_and,
      Bool.false_and, Bool.false_eq_true, if_false]; repeat' split
    all_goals rfl
  · intro l h
    rw [List.forall_mem_singleton] at h
    simp (disch := decide) only [buildInstr, buildG2, RawW.fields, RawW.base, RawW.frame, dstOf_code, h, fmodOf_fmodBits]
theorem flg2 f m o : Statement (.flg2 f m o) := by
  refine of (g := 2) (m := 15) ⟨0x08f, .op, .op, .unused, .unused, .unused, .any⟩ [o.a] rfl (by simp only [RawW.base]; decide) (by simp only [RawW.base]; rfl)
    (by simp only [RawW.base]; rfl) rfl ?_ ?_
  · intro _; simp only [Row.literals, FK.isCode, dst_code_lit, src_code_lit, litCount, RawW.base, List.filter_cons, List.filter_nil, Bool.true_and,
      Bool.false_and, Bool.false_eq_true, if_false]; repeat' split
    all_goals rfl
  · intro l h
    rw [List.forall_mem_singleton] at h
    simp (disch := decide) only [buildInstr, buildG2, RawW.fields, RawW.base, RawW.frame, dstOf_code, h, fmodOf_fmodBits]
theorem flg2p f m o : Statement (.flg2p f m o) := by
  refine of (g := 2) (m := 16) ⟨0x090, .op, .op, .unused, .unused, .unused, .any⟩ [o.a] rfl (by simp only [RawW.base]; decide) (by simp only [RawW.base]; rfl)
    (by simp only [RawW.base]; rfl) rfl ?_ ?_
  · intro _; simp only [Row.literals, FK.isCode, dst_code_lit, src_code_lit, litCount, RawW.base, List.filter_cons, List.filter_nil, Bool.true_and,
      Bool.false_and, Bool.false_eq_true, if_false]; repeat' split
    all_goals rfl
  · intro l h
    rw [List.forall_mem_singleton] at h
    simp (disch := decide) only [buildInstr, buildG2, RawW.fields, RawW.base, RawW.frame, dstOf_code, h, fmodOf_fmodBits]
theorem fsinpi f m o : Statement (.fsinpi f m o) := by
  refine of (g := 2) (m := 17) ⟨0x091, .op, .op, .unused, .unused, .unused, .any⟩ [o.a] rfl (by simp only [RawW.base]; decide) (by simp only [RawW.base]; rfl)
    (by simp only [RawW.base]; rfl) rfl ?_ ?_
  · intro _; simp only [Row.literals, FK.isCode, dst_code_lit, src_code_lit, litCount, RawW.base, List.filter_cons, List.filter_nil, Bool.true_and,
      Bool.false_and, Bool.false_eq_true, if_false]; repeat' split
    all_goals rfl
  · intro l h
    rw [List.forall_mem_singleton] at h
    simp (disch := decide) only [buildInstr, buildG2, RawW.fields, RawW.base, RawW.frame, dstOf_code, h, fmodOf_fmodBits]
theorem fcospi f m o : Statement (.fcospi f m o) := by
  refine of (g := 2) (m := 18) ⟨0x092, .op, .op, .unused, .unused, .unused, .any⟩ [o.a] rfl (by simp only [RawW.base]; decide) (by simp only [RawW.base]; rfl)
    (by simp only [RawW.base]; rfl) rfl ?_ ?_
  · intro _; simp only [Row.literals, FK.isCode, dst_code_lit, src_code_lit, litCount, RawW.base, List.filter_cons, List.filter_nil, Bool.true_and,
      Bool.false_and, Bool.false_eq_true, if_false]; repeat' split
    all_goals rfl
  · intro l h
    rw [List.forall_mem_singleton] at h
    simp (disch := decide) only [buildInstr, buildG2, RawW.fields, RawW.base, RawW.frame, dstOf_code, h, fmodOf_fmodBits]
theorem fdot2 f m o : Statement (.fdot2 f m o) := by
  refine of (g := 2) (m := 19) ⟨0x093, .op, .op, .op, .op, .unused, .fdot2⟩ [o.a, o.b, o.c] rfl (by simp only [RawW.base]; decide) (by simp only [RawW.base]; rfl)
    (by simp only [RawW.base]; rfl) rfl ?_ ?_
  · intro _; simp only [Row.literals, FK.isCode, dst_code_lit, src_code_lit, litCount, RawW.base, List.filter_cons, List.filter_nil, Bool.true_and,
      Bool.false_and, Bool.false_eq_true, if_false]; repeat' split
    all_goals rfl
  · intro l h
    simp only [List.forall_mem_cons, List.not_mem_nil, false_imp_iff, implies_true, and_true] at h
    simp (disch := decide) only [buildInstr, buildG2, RawW.fields, RawW.base, RawW.frame, dstOf_code, h, fmodOf_fmodBits]
theorem fscale f m o : Statement (.fscale f m o) := by
  refine of (g := 2) (m := 20) ⟨0x094, .op, .op, .op, .unused, .unused, .any⟩ [o.a, o.b] rfl (by simp only [RawW.base]; decide) (by simp only [RawW.base]; rfl)
    (by simp only [RawW.base]; rfl) rfl ?_ ?_
  · intro _; simp only [Row.literals, FK.isCode, dst_code_lit, src_code_lit, litCount, RawW.base, List.filter_cons, List.filter_nil, Bool.true_and,
      Bool.false_and, Bool.false_eq_true, if_false]; repeat' split
    all_goals rfl
  · intro l h
    simp only [List.forall_mem_cons, List.not_mem_nil, false_imp_iff, implies_true, and_true] at h
    simp (disch := decide) only [buildInstr, buildG2, RawW.fields, RawW.base, RawW.frame, dstOf_code, h, fmodOf_fmodBits]
theorem frnd f m o : Statement (.frnd f m o) := by
  refine of (g := 2) (m := 21) ⟨0x095, .op, .op, .unused, .unused, .unused, .any⟩ [o.a] rfl (by simp only [RawW.base]; decide) (by simp only [RawW.base]; rfl)
    (by simp only [RawW.base]; rfl) rfl ?_ ?_
  · intro _; simp only [Row.literals, FK.isCode, dst_code_lit, src_code_lit, litCount, RawW.base, List.filter_cons, List.filter_nil, Bool.true_and,
      Bool.false_and, Bool.false_eq_true, if_false]; repeat' split
    all_goals rfl
  · intro l h
    rw [List.forall_mem_singleton] at h
    simp (disch := decide) only [buildInstr, buildG2, RawW.fields, RawW.base, RawW.frame, dstOf_code, h, fmodOf_fmodBits]
theorem cvt f fmt o cc src part : Statement (.cvt f fmt o cc src part) := by
  refine of (g := 3) (m := 0) ⟨0x0c0, .op, .op, .op, .raw 15, .raw 127, .any⟩ [o.a, o.b] rfl (by simp only [RawW.base]; decide) (by simp only [RawW.base]; rfl)
    (by simp only [RawW.base]; rfl) rfl ?_ ?_
  · intro _; simp only [Row.literals, FK.isCode, dst_code_lit, src_code_lit, litCount, RawW.base, List.filter_cons, List.filter_nil, Bool.true_and,
      Bool.false_and, Bool.false_eq_true, if_false]; repeat' split
    all_goals rfl
  · intro l h
    simp only [List.forall_mem_cons, List.not_mem_nil, false_imp_iff, implies_true, and_true] at h
    simp (disch := decide) only [buildInstr, buildG3, RawW.fields, RawW.base, RawW.frame, dstOf_code, h, narrow, partField]
theorem cvts f fmt o cc src part : Statement (.cvts f fmt o cc src part) := by
  refine of (g := 3) (m := 1) ⟨0x0c1, .op, .op, .op, .raw 15, .raw 127, .any⟩ [o.a, o.b] rfl (by simp only [RawW.base]; decide) (by simp only [RawW.base]; rfl)
    (by simp only [RawW.base]; rfl) rfl ?_ ?_
  · intro _; simp only [Row.literals, FK.isCode, dst_code_lit, src_code_lit, litCount, RawW.base, List.filter_cons, List.filter_nil, Bool.true_and,
      Bool.false_and, Bool.false_eq_true, if_false]; repeat' split
    all_goals rfl
  · intro l h
    simp only [List.forall_mem_cons, List.not_mem_nil, false_imp_iff, implies_true, and_true] at h
    simp (disch := decide) only [buildInstr, buildG3, RawW.fields, RawW.base, RawW.frame, dstOf_code, h, narrow, partField]
theorem cvti f fmt o cc src part : Statement (.cvti f fmt o cc src part) := by
  refine of (g := 3) (m := 2) ⟨0x0c2, .op, .op, .op, .raw 15, .raw 127, .any⟩ [o.a, o.b] rfl (by simp only [RawW.base]; decide) (by simp only [RawW.base]; rfl)
    (by simp only [RawW.base]; rfl) rfl ?_ ?_
  · intro _; simp only [Row.literals, FK.isCode, dst_code_lit, src_code_lit, litCount, RawW.base, List.filter_cons, List.filter_nil, Bool.true_and,
      Bool.false_and, Bool.false_eq_true, if_false]; repeat' split
    all_goals rfl
  · intro l h
    simp only [List.forall_mem_cons, List.not_mem_nil, false_imp_iff, implies_true, and_true] at h
    simp (disch := decide) only [buildInstr, buildG3, RawW.fields, RawW.base, RawW.frame, dstOf_code, h, narrow, partField]
theorem cvtf f fmt o cc src part : Statement (.cvtf f fmt o cc src part) := by
  refine of (g := 3) (m := 3) ⟨0x0c3, .op, .op, .op, .raw 15, .raw 127, .any⟩ [o.a, o.b] rfl (by simp only [RawW.base]; decide) (by simp only [RawW.base]; rfl)
    (by simp only [RawW.base]; rfl) rfl ?_ ?_
  · intro _; simp only [Row.literals, FK.isCode, dst_code_lit, src_code_lit, litCount, RawW.base, List.filter_cons, List.filter_nil, Bool.true_and,
      Bool.false_and, Bool.false_eq_true, if_false]; repeat' split
    all_goals rfl
  · intro l h
    simp only [List.forall_mem_cons, List.not_mem_nil, false_imp_iff, implies_true, and_true] at h
    simp (disch := decide) only [buildInstr, buildG3, RawW.fields, RawW.base, RawW.frame, dstOf_code, h, narrow, partField]
theorem packn f fmt o cc src part : Statement (.packn f fmt o cc src part) := by
  refine of (g := 3) (m := 4) ⟨0x0c4, .op, .op, .op, .raw 15, .raw 127, .any⟩ [o.a, o.b] rfl (by simp only [RawW.base]; decide) (by simp only [RawW.base]; rfl)
    (by simp only [RawW.base]; rfl) rfl ?_ ?_
  · intro _; simp only [Row.literals, FK.isCode, dst_code_lit, src_code_lit, litCount, RawW.base, List.filter_cons, List.filter_nil, Bool.true_and,
      Bool.false_and, Bool.false_eq_true, if_false]; repeat' split
    all_goals rfl
  · intro l h
    simp only [List.forall_mem_cons, List.not_mem_nil, false_imp_iff, implies_true, and_true] at h
    simp (disch := decide) only [buildInstr, buildG3, RawW.fields, RawW.base, RawW.frame, dstOf_code, h, narrow, partField]
theorem unpack f fmt o cc src part : Statement (.unpack f fmt o cc src part) := by
  refine of (g := 3) (m := 5) ⟨0x0c5, .op, .op, .unused, .raw 8, .raw 127, .any⟩ [o.a] rfl (by simp only [RawW.base]; decide) (by simp only [RawW.base]; rfl)
    (by simp only [RawW.base]; rfl) rfl ?_ ?_
  · intro _; simp only [Row.literals, FK.isCode, dst_code_lit, src_code_lit, litCount, RawW.base, List.filter_cons, List.filter_nil, Bool.true_and,
      Bool.false_and, Bool.false_eq_true, if_false]; repeat' split
    all_goals rfl
  · intro l h
    rw [List.forall_mem_singleton] at h
    simp (disch := decide) only [buildInstr, buildG3, RawW.fields, RawW.base, RawW.frame, dstOf_code, h, narrow, partField]
theorem bxpack f fmt o part wide sel : Statement (.bxpack f fmt o part wide sel) := by
  refine of (g := 3) (m := 6) ⟨0x0c6, .op, .op, .op, .raw 31, .raw 7, .any⟩ [o.a, o.b] rfl (by simp only [RawW.base]; decide) (by simp only [RawW.base]; rfl)
    (by simp only [RawW.base]; rfl) rfl ?_ ?_
  · intro _; simp only [Row.literals, FK.isCode, dst_code_lit, src_code_lit, litCount, RawW.base, List.filter_cons, List.filter_nil, Bool.true_and,
      Bool.false_and, Bool.false_eq_true, if_false]; repeat' split
    all_goals rfl
  · intro l h
    simp only [List.forall_mem_cons, List.not_mem_nil, false_imp_iff, implies_true, and_true] at h
    simp (disch := decide) only [buildInstr, buildG3, RawW.fields, RawW.base, RawW.frame, dstOf_code, h, narrow, wideField]
theorem bxunp f fmt o part wide sel : Statement (.bxunp f fmt o part wide sel) := by
  refine of (g := 3) (m := 7) ⟨0x0c7, .op, .op, .op, .raw 31, .raw 7, .any⟩ [o.a, o.b] rfl (by simp only [RawW.base]; decide) (by simp only [RawW.base]; rfl)
    (by simp only [RawW.base]; rfl) rfl ?_ ?_
  · intro _; simp only [Row.literals, FK.isCode, dst_code_lit, src_code_lit, litCount, RawW.base, List.filter_cons, List.filter_nil, Bool.true_and,
      Bool.false_and, Bool.false_eq_true, if_false]; repeat' split
    all_goals rfl
  · intro l h
    simp only [List.forall_mem_cons, List.not_mem_nil, false_imp_iff, implies_true, and_true] at h
    simp (disch := decide) only [buildInstr, buildG3, RawW.fields, RawW.base, RawW.frame, dstOf_code, h, narrow, wideField]
theorem mxpack f fmt o part wide sel : Statement (.mxpack f fmt o part wide sel) := by
  refine of (g := 3) (m := 8) ⟨0x0c8, .op, .op, .op, .raw 31, .raw 7, .any⟩ [o.a, o.b] rfl (by simp only [RawW.base]; decide) (by simp only [RawW.base]; rfl)
    (by simp only [RawW.base]; rfl) rfl ?_ ?_
  · intro _; simp only [Row.literals, FK.isCode, dst_code_lit, src_code_lit, litCount, RawW.base, List.filter_cons, List.filter_nil, Bool.true_and,
      Bool.false_and, Bool.false_eq_true, if_false]; repeat' split
    all_goals rfl
  · intro l h
    simp only [List.forall_mem_cons, List.not_mem_nil, false_imp_iff, implies_true, and_true] at h
    simp (disch := decide) only [buildInstr, buildG3, RawW.fields, RawW.base, RawW.frame, dstOf_code, h, narrow, wideField]
theorem mxunp f fmt o part wide sel : Statement (.mxunp f fmt o part wide sel) := by
  refine of (g := 3) (m := 9) ⟨0x0c9, .op, .op, .op, .raw 31, .raw 7, .any⟩ [o.a, o.b] rfl (by simp only [RawW.base]; decide) (by simp only [RawW.base]; rfl)
    (by simp only [RawW.base]; rfl) rfl ?_ ?_
  · intro _; simp only [Row.literals, FK.isCode, dst_code_lit, src_code_lit, litCount, RawW.base, List.filter_cons, List.filter_nil, Bool.true_and,
      Bool.false_and, Bool.false_eq_true, if_false]; repeat' split
    all_goals rfl
  · intro l h
    simp only [List.forall_mem_cons, List.not_mem_nil, false_imp_iff, implies_true, and_true] at h
    simp (disch := decide) only [buildInstr, buildG3, RawW.fields, RawW.base, RawW.frame, dstOf_code, h, narrow, wideField]
theorem sclx f o sfmt sel : Statement (.sclx f o sfmt sel) := by
  refine of (g := 3) (m := 10) ⟨0x0ca, .op, .op, .unused, .raw 15, .raw 7, .zero⟩ [o.a] rfl (by simp only [RawW.base]; decide) (by simp only [RawW.base]; rfl)
    (by simp only [RawW.base]; rfl) rfl ?_ ?_
  · intro _; simp only [Row.literals, FK.isCode, dst_code_lit, src_code_lit, litCount, RawW.base, List.filter_cons, List.filter_nil, Bool.true_and,
      Bool.false_and, Bool.false_eq_true, if_false]; repeat' split
    all_goals rfl
  · intro l h
    rw [List.forall_mem_singleton] at h
    simp (disch := decide) only [buildInstr, buildG3, RawW.fields, RawW.base, RawW.frame, dstOf_code, h, narrow]
theorem cmode f o : Statement (.cmode f o) := by
  refine of (g := 3) (m := 11) ⟨0x0cb, .op, .op, .op, .unused, .unused, .zero⟩ [o.a, o.b] rfl (by simp only [RawW.base]; decide) (by simp only [RawW.base]; rfl)
    (by simp only [RawW.base]; rfl) rfl ?_ ?_
  · intro _; simp only [Row.literals, FK.isCode, dst_code_lit, src_code_lit, litCount, RawW.base, List.filter_cons, List.filter_nil, Bool.true_and,
      Bool.false_and, Bool.false_eq_true, if_false]; repeat' split
    all_goals rfl
  · intro l h
    simp only [List.forall_mem_cons, List.not_mem_nil, false_imp_iff, implies_true, and_true] at h
    simp (disch := decide) only [buildInstr, buildG3, RawW.fields, RawW.base, RawW.frame, dstOf_code, h]
theorem nanct f d : Statement (.nanct f d) := by
  refine of (g := 3) (m := 12) ⟨0x0cc, .op, .unused, .unused, .unused, .unused, .zero⟩ [] rfl (by simp only [RawW.base]; decide) (by simp only [RawW.base]; rfl)
    (by simp only [RawW.base]; rfl) rfl ?_ ?_
  · intro _; simp only [Row.literals, FK.isCode, dst_code_lit, src_code_lit, litCount, RawW.base, List.filter_cons, List.filter_nil, Bool.true_and,
      Bool.false_and, Bool.false_eq_true, if_false]; repeat' split
    all_goals rfl
  · intro l h
    simp (disch := decide) only [buildInstr, buildG3, RawW.fields, RawW.base, RawW.frame, dstOf_code]
theorem gjoin f o : Statement (.gjoin f o) := by
  refine of (g := 4) (m := 0) ⟨0x100, .op, .op, .op, .unused, .unused, .zero⟩ [o.a, o.b] rfl (by simp only [RawW.base]; decide) (by simp only [RawW.base]; rfl)
    (by simp only [RawW.base]; rfl) rfl ?_ ?_
  · intro _; simp only [Row.literals, FK.isCode, dst_code_lit, src_code_lit, litCount, RawW.base, List.filter_cons, List.filter_nil, Bool.true_and,
      Bool.false_and, Bool.false_eq_true, if_false]; repeat' split
    all_goals rfl
  · intro l h
    simp only [List.forall_mem_cons, List.not_mem_nil, false_imp_iff, implies_true, and_true] at h
    simp (disch := decide) only [buildInstr, buildG4, RawW.fields, RawW.base, RawW.frame, dstOf_code, h]
theorem gleave f : Statement (.gleave f) := by
  refine of (g := 4) (m := 1) ⟨0x101, .unused, .unused, .unused, .unused, .unused, .zero⟩ [] rfl (by simp only [RawW.base]; decide) (by simp only [RawW.base]; rfl)
    (by simp only [RawW.base]; rfl) rfl ?_ ?_
  · intro _; simp only [Row.literals, FK.isCode, dst_code_lit, src_code_lit, litCount, RawW.base, List.filter_cons, List.filter_nil, Bool.true_and,
      Bool.false_and, Bool.false_eq_true, if_false]; repeat' split
    all_goals rfl
  · intro l h
    simp (disch := decide) only [buildInstr, buildG4, RawW.fields, RawW.base, RawW.frame, ]
theorem gwait f mk : Statement (.gwait f mk) := by
  refine of (g := 4) (m := 2) ⟨0x102, .unused, .unused, .unused, .raw 15, .unused, .zero⟩ [] rfl (by simp only [RawW.base]; decide) (by simp only [RawW.base]; rfl)
    (by simp only [RawW.base]; rfl) rfl ?_ ?_
  · intro _; simp only [Row.literals, FK.isCode, dst_code_lit, src_code_lit, litCount, RawW.base, List.filter_cons, List.filter_nil, Bool.true_and,
      Bool.false_and, Bool.false_eq_true, if_false]; repeat' split
    all_goals rfl
  · intro l h
    simp (disch := decide) only [buildInstr, buildG4, RawW.fields, RawW.base, RawW.frame, narrow]
theorem gvote f mk pe : Statement (.gvote f mk pe) := by
  refine of (g := 4) (m := 3) ⟨0x103, .unused, .unused, .unused, .raw 15, .raw 15, .zero⟩ [] rfl (by simp only [RawW.base]; decide) (by simp only [RawW.base]; rfl)
    (by simp only [RawW.base]; rfl) rfl ?_ ?_
  · intro _; simp only [Row.literals, FK.isCode, dst_code_lit, src_code_lit, litCount, RawW.base, List.filter_cons, List.filter_nil, Bool.true_and,
      Bool.false_and, Bool.false_eq_true, if_false]; repeat' split
    all_goals rfl
  · intro l h
    simp (disch := decide) only [buildInstr, buildG4, RawW.fields, RawW.base, RawW.frame, predNOf_predNBits, narrow]
theorem mskop f op md ma mb : Statement (.mskop f op md ma mb) := by
  refine of (g := 4) (m := 4) ⟨0x104, .raw 15, .raw 15, .raw 15, .unused, .unused, .any⟩ [] rfl (by simp only [RawW.base]; decide) (by simp only [RawW.base]; rfl)
    (by simp only [RawW.base]; rfl) rfl ?_ ?_
  · intro _; simp only [Row.literals, FK.isCode, dst_code_lit, src_code_lit, litCount, RawW.base, List.filter_cons, List.filter_nil, Bool.true_and,
      Bool.false_and, Bool.false_eq_true, if_false]; repeat' split
    all_goals rfl
  · intro l h
    simp (disch := decide) only [buildInstr, buildG4, RawW.fields, RawW.base, RawW.frame, mskOpOf_mskOpBits, narrow, Option.map_some]
theorem mskmov f o mk dir : Statement (.mskmov f o mk dir) := by
  refine of (g := 4) (m := 5) ⟨0x105, .opWhenE0 false, .opWhenE0 true, .unused, .raw 15, .raw 1, .zero⟩ [o.a] rfl (by simp only [RawW.base]; decide) (by simp only [RawW.base]; rfl)
    (by simp only [RawW.base]; rfl) rfl ?_ ?_
  · intro hA; cases dir <;> simp only [Row.literals, FK.isCode, dst_code_lit, src_code_lit, litCount, RawW.base, List.filter_cons, List.filter_nil, Bool.true_and,
      Bool.false_and, Bool.false_eq_true, if_false]; repeat' split
    all_goals simp_all [FK.okSrc, bitField, ← code_lit, Src.code]
  · intro l h
    rw [List.forall_mem_singleton] at h
    simp (disch := decide) only [buildInstr, buildG4, RawW.fields, RawW.base, RawW.frame, dstOf_code, h, narrow, bitField]
theorem shfl f m o mk : Statement (.shfl f m o mk) := by
  refine of (g := 4) (m := 6) ⟨0x106, .op, .op, .op, .raw 15, .unused, .low2Zero⟩ [o.a, o.b] rfl (by simp only [RawW.base]; decide) (by simp only [RawW.base]; rfl)
    (by simp only [RawW.base]; rfl) rfl ?_ ?_
  · intro _; simp only [Row.literals, FK.isCode, dst_code_lit, src_code_lit, litCount, RawW.base, List.filter_cons, List.filter_nil, Bool.true_and,
      Bool.false_and, Bool.false_eq_true, if_false]; repeat' split
    all_goals rfl
  · intro l h
    simp only [List.forall_mem_cons, List.not_mem_nil, false_imp_iff, implies_true, and_true] at h
    simp (disch := decide) only [buildInstr, buildG4, RawW.fields, RawW.base, RawW.frame, dstOf_code, h, imodOf_imodBits, narrow]
theorem shflx f m o mk : Statement (.shflx f m o mk) := by
  refine of (g := 4) (m := 7) ⟨0x107, .op, .op, .op, .raw 15, .unused, .low2Zero⟩ [o.a, o.b] rfl (by simp only [RawW.base]; decide) (by simp only [RawW.base]; rfl)
    (by simp only [RawW.base]; rfl) rfl ?_ ?_
  · intro _; simp only [Row.literals, FK.isCode, dst_code_lit, src_code_lit, litCount, RawW.base, List.filter_cons, List.filter_nil, Bool.true_and,
      Bool.false_and, Bool.false_eq_true, if_false]; repeat' split
    all_goals rfl
  · intro l h
    simp only [List.forall_mem_cons, List.not_mem_nil, false_imp_iff, implies_true, and_true] at h
    simp (disch := decide) only [buildInstr, buildG4, RawW.fields, RawW.base, RawW.frame, dstOf_code, h, imodOf_imodBits, narrow]
theorem shfldn f m o mk : Statement (.shfldn f m o mk) := by
  refine of (g := 4) (m := 8) ⟨0x108, .op, .op, .op, .raw 15, .unused, .low2Zero⟩ [o.a, o.b] rfl (by simp only [RawW.base]; decide) (by simp only [RawW.base]; rfl)
    (by simp only [RawW.base]; rfl) rfl ?_ ?_
  · intro _; simp only [Row.literals, FK.isCode, dst_code_lit, src_code_lit, litCount, RawW.base, List.filter_cons, List.filter_nil, Bool.true_and,
      Bool.false_and, Bool.false_eq_true, if_false]; repeat' split
    all_goals rfl
  · intro l h
    simp only [List.forall_mem_cons, List.not_mem_nil, false_imp_iff, implies_true, and_true] at h
    simp (disch := decide) only [buildInstr, buildG4, RawW.fields, RawW.base, RawW.frame, dstOf_code, h, imodOf_imodBits, narrow]
theorem shflup f m o mk : Statement (.shflup f m o mk) := by
  refine of (g := 4) (m := 9) ⟨0x109, .op, .op, .op, .raw 15, .unused, .low2Zero⟩ [o.a, o.b] rfl (by simp only [RawW.base]; decide) (by simp only [RawW.base]; rfl)
    (by simp only [RawW.base]; rfl) rfl ?_ ?_
  · intro _; simp only [Row.literals, FK.isCode, dst_code_lit, src_code_lit, litCount, RawW.base, List.filter_cons, List.filter_nil, Bool.true_and,
      Bool.false_and, Bool.false_eq_true, if_false]; repeat' split
    all_goals rfl
  · intro l h
    simp only [List.forall_mem_cons, List.not_mem_nil, false_imp_iff, implies_true, and_true] at h
    simp (disch := decide) only [buildInstr, buildG4, RawW.fields, RawW.base, RawW.frame, dstOf_code, h, imodOf_imodBits, narrow]
theorem bcast f m o mk : Statement (.bcast f m o mk) := by
  refine of (g := 4) (m := 10) ⟨0x10a, .op, .op, .op, .raw 15, .unused, .low2Zero⟩ [o.a, o.b] rfl (by simp only [RawW.base]; decide) (by simp only [RawW.base]; rfl)
    (by simp only [RawW.base]; rfl) rfl ?_ ?_
  · intro _; simp only [Row.literals, FK.isCode, dst_code_lit, src_code_lit, litCount, RawW.base, List.filter_cons, List.filter_nil, Bool.true_and,
      Bool.false_and, Bool.false_eq_true, if_false]; repeat' split
    all_goals rfl
  · intro l h
    simp only [List.forall_mem_cons, List.not_mem_nil, false_imp_iff, implies_true, and_true] at h
    simp (disch := decide) only [buildInstr, buildG4, RawW.fields, RawW.base, RawW.frame, dstOf_code, h, imodOf_imodBits, narrow]
theorem gred f op o mk : Statement (.gred f op o mk) := by
  refine of (g := 4) (m := 11) ⟨0x10b, .op, .op, .unused, .raw 15, .unused, .any⟩ [o.a] rfl (by simp only [RawW.base]; decide) (by simp only [RawW.base]; rfl)
    (by simp only [RawW.base]; rfl) rfl ?_ ?_
  · intro _; simp only [Row.literals, FK.isCode, dst_code_lit, src_code_lit, litCount, RawW.base, List.filter_cons, List.filter_nil, Bool.true_and,
      Bool.false_and, Bool.false_eq_true, if_false]; repeat' split
    all_goals rfl
  · intro l h
    rw [List.forall_mem_singleton] at h
    simp (disch := decide) only [buildInstr, buildG4, RawW.fields, RawW.base, RawW.frame, dstOf_code, h, redOpOf_redOpBits, narrow, Option.map_some]
theorem gscan f op o mk : Statement (.gscan f op o mk) := by
  refine of (g := 4) (m := 12) ⟨0x10c, .op, .op, .unused, .raw 15, .unused, .any⟩ [o.a] rfl (by simp only [RawW.base]; decide) (by simp only [RawW.base]; rfl)
    (by simp only [RawW.base]; rfl) rfl ?_ ?_
  · intro _; simp only [Row.literals, FK.isCode, dst_code_lit, src_code_lit, litCount, RawW.base, List.filter_cons, List.filter_nil, Bool.true_and,
      Bool.false_and, Bool.false_eq_true, if_false]; repeat' split
    all_goals rfl
  · intro l h
    rw [List.forall_mem_singleton] at h
    simp (disch := decide) only [buildInstr, buildG4, RawW.fields, RawW.base, RawW.frame, dstOf_code, h, redOpOf_redOpBits, narrow, Option.map_some]
theorem compress f m o mk : Statement (.compress f m o mk) := by
  refine of (g := 4) (m := 13) ⟨0x10d, .op, .op, .op, .raw 15, .unused, .low2Zero⟩ [o.a, o.b] rfl (by simp only [RawW.base]; decide) (by simp only [RawW.base]; rfl)
    (by simp only [RawW.base]; rfl) rfl ?_ ?_
  · intro _; simp only [Row.literals, FK.isCode, dst_code_lit, src_code_lit, litCount, RawW.base, List.filter_cons, List.filter_nil, Bool.true_and,
      Bool.false_and, Bool.false_eq_true, if_false]; repeat' split
    all_goals rfl
  · intro l h
    simp only [List.forall_mem_cons, List.not_mem_nil, false_imp_iff, implies_true, and_true] at h
    simp (disch := decide) only [buildInstr, buildG4, RawW.fields, RawW.base, RawW.frame, dstOf_code, h, imodOf_imodBits, narrow]
theorem expand f m o mk : Statement (.expand f m o mk) := by
  refine of (g := 4) (m := 14) ⟨0x10e, .op, .op, .op, .raw 15, .unused, .low2Zero⟩ [o.a, o.b] rfl (by simp only [RawW.base]; decide) (by simp only [RawW.base]; rfl)
    (by simp only [RawW.base]; rfl) rfl ?_ ?_
  · intro _; simp only [Row.literals, FK.isCode, dst_code_lit, src_code_lit, litCount, RawW.base, List.filter_cons, List.filter_nil, Bool.true_and,
      Bool.false_and, Bool.false_eq_true, if_false]; repeat' split
    all_goals rfl
  · intro l h
    simp only [List.forall_mem_cons, List.not_mem_nil, false_imp_iff, implies_true, and_true] at h
    simp (disch := decide) only [buildInstr, buildG4, RawW.fields, RawW.base, RawW.frame, dstOf_code, h, imodOf_imodBits, narrow]
theorem matchRank f m o mk : Statement (.matchRank f m o mk) := by
  refine of (g := 4) (m := 15) ⟨0x10f, .op, .op, .unused, .raw 15, .unused, .low2Zero⟩ [o.a] rfl (by simp only [RawW.base]; decide) (by simp only [RawW.base]; rfl)
    (by simp only [RawW.base]; rfl) rfl ?_ ?_
  · intro _; simp only [Row.literals, FK.isCode, dst_code_lit, src_code_lit, litCount, RawW.base, List.filter_cons, List.filter_nil, Bool.true_and,
      Bool.false_and, Bool.false_eq_true, if_false]; repeat' split
    all_goals rfl
  · intro l h
    rw [List.forall_mem_singleton] at h
    simp (disch := decide) only [buildInstr, buildG4, RawW.fields, RawW.base, RawW.frame, dstOf_code, h, imodOf_imodBits, narrow]
theorem ginfo f d : Statement (.ginfo f d) := by
  refine of (g := 4) (m := 16) ⟨0x110, .op, .unused, .unused, .unused, .unused, .zero⟩ [] rfl (by simp only [RawW.base]; decide) (by simp only [RawW.base]; rfl)
    (by simp only [RawW.base]; rfl) rfl ?_ ?_
  · intro _; simp only [Row.literals, FK.isCode, dst_code_lit, src_code_lit, litCount, RawW.base, List.filter_cons, List.filter_nil, Bool.true_and,
      Bool.false_and, Bool.false_eq_true, if_false]; repeat' split
    all_goals rfl
  · intro l h
    simp (disch := decide) only [buildInstr, buildG4, RawW.fields, RawW.base, RawW.frame, dstOf_code]
theorem bra f off : Statement (.bra f off) := by
  refine of (g := 5) (m := 0) ⟨0x140, .raw 127, .raw 127, .raw 127, .raw 127, .raw 127, .zero⟩ [] rfl (by simp only [RawW.base]; decide) (by simp only [RawW.base]; rfl)
    (by simp only [RawW.base]; rfl) rfl ?_ ?_
  · intro _; simp only [Row.literals, FK.isCode, dst_code_lit, src_code_lit, litCount, RawW.base, List.filter_cons, List.filter_nil, Bool.true_and,
      Bool.false_and, Bool.false_eq_true, if_false]; repeat' split
    all_goals rfl
  · intro l h
    simp (disch := decide) only [buildInstr, buildG5, RawW.fields, RawW.base, RawW.frame, parts35]
theorem brx f a : Statement (.brx f a) := by
  refine of (g := 5) (m := 1) ⟨0x141, .unused, .op, .unused, .unused, .unused, .zero⟩ [a] rfl (by simp only [RawW.base]; decide) (by simp only [RawW.base]; rfl)
    (by simp only [RawW.base]; rfl) rfl ?_ ?_
  · intro _; simp only [Row.literals, FK.isCode, dst_code_lit, src_code_lit, litCount, RawW.base, List.filter_cons, List.filter_nil, Bool.true_and,
      Bool.false_and, Bool.false_eq_true, if_false]; repeat' split
    all_goals rfl
  · intro l h
    rw [List.forall_mem_singleton] at h
    simp (disch := decide) only [buildInstr, buildG5, RawW.fields, RawW.base, RawW.frame, h]
theorem call f off : Statement (.call f off) := by
  refine of (g := 5) (m := 2) ⟨0x142, .raw 127, .raw 127, .raw 127, .raw 127, .raw 127, .zero⟩ [] rfl (by simp only [RawW.base]; decide) (by simp only [RawW.base]; rfl)
    (by simp only [RawW.base]; rfl) rfl ?_ ?_
  · intro _; simp only [Row.literals, FK.isCode, dst_code_lit, src_code_lit, litCount, RawW.base, List.filter_cons, List.filter_nil, Bool.true_and,
      Bool.false_and, Bool.false_eq_true, if_false]; repeat' split
    all_goals rfl
  · intro l h
    simp (disch := decide) only [buildInstr, buildG5, RawW.fields, RawW.base, RawW.frame, parts35]
theorem callx f a : Statement (.callx f a) := by
  refine of (g := 5) (m := 3) ⟨0x143, .unused, .op, .unused, .unused, .unused, .zero⟩ [a] rfl (by simp only [RawW.base]; decide) (by simp only [RawW.base]; rfl)
    (by simp only [RawW.base]; rfl) rfl ?_ ?_
  · intro _; simp only [Row.literals, FK.isCode, dst_code_lit, src_code_lit, litCount, RawW.base, List.filter_cons, List.filter_nil, Bool.true_and,
      Bool.false_and, Bool.false_eq_true, if_false]; repeat' split
    all_goals rfl
  · intro l h
    rw [List.forall_mem_singleton] at h
    simp (disch := decide) only [buildInstr, buildG5, RawW.fields, RawW.base, RawW.frame, h]
theorem ret f : Statement (.ret f) := by
  refine of (g := 5) (m := 4) ⟨0x144, .unused, .unused, .unused, .unused, .unused, .zero⟩ [] rfl (by simp only [RawW.base]; decide) (by simp only [RawW.base]; rfl)
    (by simp only [RawW.base]; rfl) rfl ?_ ?_
  · intro _; simp only [Row.literals, FK.isCode, dst_code_lit, src_code_lit, litCount, RawW.base, List.filter_cons, List.filter_nil, Bool.true_and,
      Bool.false_and, Bool.false_eq_true, if_false]; repeat' split
    all_goals rfl
  · intro l h
    simp (disch := decide) only [buildInstr, buildG5, RawW.fields, RawW.base, RawW.frame, ]
theorem exit f : Statement (.exit f) := by
  refine of (g := 5) (m := 5) ⟨0x145, .unused, .unused, .unused, .unused, .unused, .zero⟩ [] rfl (by simp only [RawW.base]; decide) (by simp only [RawW.base]; rfl)
    (by simp only [RawW.base]; rfl) rfl ?_ ?_
  · intro _; simp only [Row.literals, FK.isCode, dst_code_lit, src_code_lit, litCount, RawW.base, List.filter_cons, List.filter_nil, Bool.true_and,
      Bool.false_and, Bool.false_eq_true, if_false]; repeat' split
    all_goals rfl
  · intro l h
    simp (disch := decide) only [buildInstr, buildG5, RawW.fields, RawW.base, RawW.frame, ]
theorem yield f : Statement (.yield f) := by
  refine of (g := 5) (m := 6) ⟨0x146, .unused, .unused, .unused, .unused, .unused, .zero⟩ [] rfl (by simp only [RawW.base]; decide) (by simp only [RawW.base]; rfl)
    (by simp only [RawW.base]; rfl) rfl ?_ ?_
  · intro _; simp only [Row.literals, FK.isCode, dst_code_lit, src_code_lit, litCount, RawW.base, List.filter_cons, List.filter_nil, Bool.true_and,
      Bool.false_and, Bool.false_eq_true, if_false]; repeat' split
    all_goals rfl
  · intro l h
    simp (disch := decide) only [buildInstr, buildG5, RawW.fields, RawW.base, RawW.frame, ]
theorem nop f : Statement (.nop f) := by
  refine of (g := 5) (m := 7) ⟨0x147, .unused, .unused, .unused, .unused, .unused, .zero⟩ [] rfl (by simp only [RawW.base]; decide) (by simp only [RawW.base]; rfl)
    (by simp only [RawW.base]; rfl) rfl ?_ ?_
  · intro _; simp only [Row.literals, FK.isCode, dst_code_lit, src_code_lit, litCount, RawW.base, List.filter_cons, List.filter_nil, Bool.true_and,
      Bool.false_and, Bool.false_eq_true, if_false]; repeat' split
    all_goals rfl
  · intro l h
    simp (disch := decide) only [buildInstr, buildG5, RawW.fields, RawW.base, RawW.frame, ]
theorem loop f d off : Statement (.loop f d off) := by
  refine of (g := 5) (m := 8) ⟨0x148, .op, .raw 127, .raw 127, .raw 127, .raw 127, .zero⟩ [] rfl (by simp only [RawW.base]; decide) (by simp only [RawW.base]; rfl)
    (by simp only [RawW.base]; rfl) rfl ?_ ?_
  · intro _; simp only [Row.literals, FK.isCode, dst_code_lit, src_code_lit, litCount, RawW.base, List.filter_cons, List.filter_nil, Bool.true_and,
      Bool.false_and, Bool.false_eq_true, if_false]; repeat' split
    all_goals rfl
  · intro l h
    simp (disch := decide) only [buildInstr, buildG5, RawW.fields, RawW.base, RawW.frame, dstOf_code, parts28]
theorem trap f n : Statement (.trap f n) := by
  refine of (g := 5) (m := 9) ⟨0x149, .unused, .raw 127, .raw 127, .unused, .unused, .zero⟩ [] rfl (by simp only [RawW.base]; decide) (by simp only [RawW.base]; rfl)
    (by simp only [RawW.base]; rfl) rfl ?_ ?_
  · intro _; simp only [Row.literals, FK.isCode, dst_code_lit, src_code_lit, litCount, RawW.base, List.filter_cons, List.filter_nil, Bool.true_and,
      Bool.false_and, Bool.false_eq_true, if_false]; repeat' split
    all_goals rfl
  · intro l h
    simp (disch := decide) only [buildInstr, buildG5, RawW.fields, RawW.base, RawW.frame, parts14, parts14']
theorem brk f n : Statement (.brk f n) := by
  refine of (g := 5) (m := 10) ⟨0x14a, .unused, .raw 127, .raw 127, .unused, .unused, .zero⟩ [] rfl (by simp only [RawW.base]; decide) (by simp only [RawW.base]; rfl)
    (by simp only [RawW.base]; rfl) rfl ?_ ?_
  · intro _; simp only [Row.literals, FK.isCode, dst_code_lit, src_code_lit, litCount, RawW.base, List.filter_cons, List.filter_nil, Bool.true_and,
      Bool.false_and, Bool.false_eq_true, if_false]; repeat' split
    all_goals rfl
  · intro l h
    simp (disch := decide) only [buildInstr, buildG5, RawW.fields, RawW.base, RawW.frame, parts14, parts14']
theorem waita f o : Statement (.waita f o) := by
  refine of (g := 5) (m := 11) ⟨0x14b, .op, .op, .op, .op, .unused, .zero⟩ [o.a, o.b, o.c] rfl (by simp only [RawW.base]; decide) (by simp only [RawW.base]; rfl)
    (by simp only [RawW.base]; rfl) rfl ?_ ?_
  · intro _; simp only [Row.literals, FK.isCode, dst_code_lit, src_code_lit, litCount, RawW.base, List.filter_cons, List.filter_nil, Bool.true_and,
      Bool.false_and, Bool.false_eq_true, if_false]; repeat' split
    all_goals rfl
  · intro l h
    simp only [List.forall_mem_cons, List.not_mem_nil, false_imp_iff, implies_true, and_true] at h
    simp (disch := decide) only [buildInstr, buildG5, RawW.fields, RawW.base, RawW.frame, dstOf_code, h]
theorem sleep f a : Statement (.sleep f a) := by
  refine of (g := 5) (m := 12) ⟨0x14c, .unused, .op, .unused, .unused, .unused, .zero⟩ [a] rfl (by simp only [RawW.base]; decide) (by simp only [RawW.base]; rfl)
    (by simp only [RawW.base]; rfl) rfl ?_ ?_
  · intro _; simp only [Row.literals, FK.isCode, dst_code_lit, src_code_lit, litCount, RawW.base, List.filter_cons, List.filter_nil, Bool.true_and,
      Bool.false_and, Bool.false_eq_true, if_false]; repeat' split
    all_goals rfl
  · intro l h
    rw [List.forall_mem_singleton] at h
    simp (disch := decide) only [buildInstr, buildG5, RawW.fields, RawW.base, RawW.frame, h]
theorem ld f sz h o off : Statement (.ld f sz h o off) := by
  refine of (g := 6) (m := 0) ⟨0x180, .op, .op, .unused, .raw 127, .raw 127, .load⟩ [o.a] rfl (by simp only [RawW.base]; decide) (by simp only [RawW.base]; rfl)
    (by simp only [RawW.base]; rfl) rfl ?_ ?_
  · intro _; simp only [Row.literals, FK.isCode, dst_code_lit, src_code_lit, litCount, RawW.base, List.filter_cons, List.filter_nil, Bool.true_and,
      Bool.false_and, Bool.false_eq_true, if_false]; repeat' split
    all_goals rfl
  · intro l h
    rw [List.forall_mem_singleton] at h
    simp (disch := decide) only [buildInstr, buildG6, RawW.fields, RawW.base, RawW.frame, dstOf_code, h, mmodOf_mmodBits, hintOf_hintBits, parts14, parts14', Option.map_some]
theorem st f sz h o off : Statement (.st f sz h o off) := by
  refine of (g := 6) (m := 1) ⟨0x181, .unused, .op, .op, .raw 127, .raw 127, .store⟩ [o.a, o.b] rfl (by simp only [RawW.base]; decide) (by simp only [RawW.base]; rfl)
    (by simp only [RawW.base]; rfl) rfl ?_ ?_
  · intro _; simp only [Row.literals, FK.isCode, dst_code_lit, src_code_lit, litCount, RawW.base, List.filter_cons, List.filter_nil, Bool.true_and,
      Bool.false_and, Bool.false_eq_true, if_false]; repeat' split
    all_goals rfl
  · intro l h
    simp only [List.forall_mem_cons, List.not_mem_nil, false_imp_iff, implies_true, and_true] at h
    simp (disch := decide) only [buildInstr, buildG6, RawW.fields, RawW.base, RawW.frame, h, mmodOf_mmodBits, hintOf_hintBits, parts14, parts14', Option.map_some]
theorem ldacq f sz h o off : Statement (.ldacq f sz h o off) := by
  refine of (g := 6) (m := 2) ⟨0x182, .op, .op, .unused, .raw 127, .raw 127, .load⟩ [o.a] rfl (by simp only [RawW.base]; decide) (by simp only [RawW.base]; rfl)
    (by simp only [RawW.base]; rfl) rfl ?_ ?_
  · intro _; simp only [Row.literals, FK.isCode, dst_code_lit, src_code_lit, litCount, RawW.base, List.filter_cons, List.filter_nil, Bool.true_and,
      Bool.false_and, Bool.false_eq_true, if_false]; repeat' split
    all_goals rfl
  · intro l h
    rw [List.forall_mem_singleton] at h
    simp (disch := decide) only [buildInstr, buildG6, RawW.fields, RawW.base, RawW.frame, dstOf_code, h, mmodOf_mmodBits, hintOf_hintBits, parts14, parts14', Option.map_some]
theorem strel f sz h o off : Statement (.strel f sz h o off) := by
  refine of (g := 6) (m := 3) ⟨0x183, .unused, .op, .op, .raw 127, .raw 127, .store⟩ [o.a, o.b] rfl (by simp only [RawW.base]; decide) (by simp only [RawW.base]; rfl)
    (by simp only [RawW.base]; rfl) rfl ?_ ?_
  · intro _; simp only [Row.literals, FK.isCode, dst_code_lit, src_code_lit, litCount, RawW.base, List.filter_cons, List.filter_nil, Bool.true_and,
      Bool.false_and, Bool.false_eq_true, if_false]; repeat' split
    all_goals rfl
  · intro l h
    simp only [List.forall_mem_cons, List.not_mem_nil, false_imp_iff, implies_true, and_true] at h
    simp (disch := decide) only [buildInstr, buildG6, RawW.fields, RawW.base, RawW.frame, h, mmodOf_mmodBits, hintOf_hintBits, parts14, parts14', Option.map_some]
theorem ldvt f sz h o off : Statement (.ldvt f sz h o off) := by
  refine of (g := 6) (m := 4) ⟨0x184, .op, .op, .unused, .raw 127, .raw 127, .load⟩ [o.a] rfl (by simp only [RawW.base]; decide) (by simp only [RawW.base]; rfl)
    (by simp only [RawW.base]; rfl) rfl ?_ ?_
  · intro _; simp only [Row.literals, FK.isCode, dst_code_lit, src_code_lit, litCount, RawW.base, List.filter_cons, List.filter_nil, Bool.true_and,
      Bool.false_and, Bool.false_eq_true, if_false]; repeat' split
    all_goals rfl
  · intro l h
    rw [List.forall_mem_singleton] at h
    simp (disch := decide) only [buildInstr, buildG6, RawW.fields, RawW.base, RawW.frame, dstOf_code, h, mmodOf_mmodBits, hintOf_hintBits, parts14, parts14', Option.map_some]
theorem stvt f sz h o off : Statement (.stvt f sz h o off) := by
  refine of (g := 6) (m := 5) ⟨0x185, .unused, .op, .op, .raw 127, .raw 127, .store⟩ [o.a, o.b] rfl (by simp only [RawW.base]; decide) (by simp only [RawW.base]; rfl)
    (by simp only [RawW.base]; rfl) rfl ?_ ?_
  · intro _; simp only [Row.literals, FK.isCode, dst_code_lit, src_code_lit, litCount, RawW.base, List.filter_cons, List.filter_nil, Bool.true_and,
      Bool.false_and, Bool.false_eq_true, if_false]; repeat' split
    all_goals rfl
  · intro l h
    simp only [List.forall_mem_cons, List.not_mem_nil, false_imp_iff, implies_true, and_true] at h
    simp (disch := decide) only [buildInstr, buildG6, RawW.fields, RawW.base, RawW.frame, h, mmodOf_mmodBits, hintOf_hintBits, parts14, parts14', Option.map_some]
theorem ldls f sz h o off : Statement (.ldls f sz h o off) := by
  refine of (g := 6) (m := 6) ⟨0x186, .op, .op, .unused, .raw 127, .raw 127, .load⟩ [o.a] rfl (by simp only [RawW.base]; decide) (by simp only [RawW.base]; rfl)
    (by simp only [RawW.base]; rfl) rfl ?_ ?_
  · intro _; simp only [Row.literals, FK.isCode, dst_code_lit, src_code_lit, litCount, RawW.base, List.filter_cons, List.filter_nil, Bool.true_and,
      Bool.false_and, Bool.false_eq_true, if_false]; repeat' split
    all_goals rfl
  · intro l h
    rw [List.forall_mem_singleton] at h
    simp (disch := decide) only [buildInstr, buildG6, RawW.fields, RawW.base, RawW.frame, dstOf_code, h, mmodOf_mmodBits, hintOf_hintBits, parts14, parts14', Option.map_some]
theorem stls f sz h o off : Statement (.stls f sz h o off) := by
  refine of (g := 6) (m := 7) ⟨0x187, .unused, .op, .op, .raw 127, .raw 127, .store⟩ [o.a, o.b] rfl (by simp only [RawW.base]; decide) (by simp only [RawW.base]; rfl)
    (by simp only [RawW.base]; rfl) rfl ?_ ?_
  · intro _; simp only [Row.literals, FK.isCode, dst_code_lit, src_code_lit, litCount, RawW.base, List.filter_cons, List.filter_nil, Bool.true_and,
      Bool.false_and, Bool.false_eq_true, if_false]; repeat' split
    all_goals rfl
  · intro l h
    simp only [List.forall_mem_cons, List.not_mem_nil, false_imp_iff, implies_true, and_true] at h
    simp (disch := decide) only [buildInstr, buildG6, RawW.fields, RawW.base, RawW.frame, h, mmodOf_mmodBits, hintOf_hintBits, parts14, parts14', Option.map_some]
theorem ldgx f sz h o off : Statement (.ldgx f sz h o off) := by
  refine of (g := 6) (m := 8) ⟨0x188, .op, .op, .op, .raw 127, .raw 127, .ldgx⟩ [o.a, o.b] rfl (by simp only [RawW.base]; decide) (by simp only [RawW.base]; rfl)
    (by simp only [RawW.base]; rfl) rfl ?_ ?_
  · intro _; simp only [Row.literals, FK.isCode, dst_code_lit, src_code_lit, litCount, RawW.base, List.filter_cons, List.filter_nil, Bool.true_and,
      Bool.false_and, Bool.false_eq_true, if_false]; repeat' split
    all_goals rfl
  · intro l h
    simp only [List.forall_mem_cons, List.not_mem_nil, false_imp_iff, implies_true, and_true] at h
    simp (disch := decide) only [buildInstr, buildG6, RawW.fields, RawW.base, RawW.frame, dstOf_code, h, mmodOf_mmodBits, hintOf_hintBits, parts14, parts14', Option.map_some]
theorem pref f h a off : Statement (.pref f h a off) := by
  refine of (g := 6) (m := 9) ⟨0x189, .unused, .op, .unused, .raw 127, .raw 127, .zero⟩ [a] rfl (by simp only [RawW.base]; decide) (by simp only [RawW.base]; rfl)
    (by simp only [RawW.base]; rfl) rfl ?_ ?_
  · intro _; simp only [Row.literals, FK.isCode, dst_code_lit, src_code_lit, litCount, RawW.base, List.filter_cons, List.filter_nil, Bool.true_and,
      Bool.false_and, Bool.false_eq_true, if_false]; repeat' split
    all_goals rfl
  · intro l h
    rw [List.forall_mem_singleton] at h
    simp (disch := decide) only [buildInstr, buildG6, RawW.fields, RawW.base, RawW.frame, h, hintOf_hintBits, parts14, parts14']
theorem cflush f h a off : Statement (.cflush f h a off) := by
  refine of (g := 6) (m := 10) ⟨0x18a, .unused, .op, .unused, .raw 127, .raw 127, .zero⟩ [a] rfl (by simp only [RawW.base]; decide) (by simp only [RawW.base]; rfl)
    (by simp only [RawW.base]; rfl) rfl ?_ ?_
  · intro _; simp only [Row.literals, FK.isCode, dst_code_lit, src_code_lit, litCount, RawW.base, List.filter_cons, List.filter_nil, Bool.true_and,
      Bool.false_and, Bool.false_eq_true, if_false]; repeat' split
    all_goals rfl
  · intro l h
    rw [List.forall_mem_singleton] at h
    simp (disch := decide) only [buildInstr, buildG6, RawW.fields, RawW.base, RawW.frame, h, hintOf_hintBits, parts14, parts14']
theorem cinv f h a off : Statement (.cinv f h a off) := by
  refine of (g := 6) (m := 11) ⟨0x18b, .unused, .op, .unused, .raw 127, .raw 127, .zero⟩ [a] rfl (by simp only [RawW.base]; decide) (by simp only [RawW.base]; rfl)
    (by simp only [RawW.base]; rfl) rfl ?_ ?_
  · intro _; simp only [Row.literals, FK.isCode, dst_code_lit, src_code_lit, litCount, RawW.base, List.filter_cons, List.filter_nil, Bool.true_and,
      Bool.false_and, Bool.false_eq_true, if_false]; repeat' split
    all_goals rfl
  · intro l h
    rw [List.forall_mem_singleton] at h
    simp (disch := decide) only [buildInstr, buildG6, RawW.fields, RawW.base, RawW.frame, h, hintOf_hintBits, parts14, parts14']
theorem aadd f m h o : Statement (.aadd f m h o) := by
  refine of (g := 7) (m := 0) ⟨0x1c0, .op, .op, .op, .unused, .unused, .atomic⟩ [o.a, o.b] rfl (by simp only [RawW.base]; decide) (by simp only [RawW.base]; rfl)
    (by simp only [RawW.base]; rfl) rfl ?_ ?_
  · intro _; simp only [Row.literals, FK.isCode, dst_code_lit, src_code_lit, litCount, RawW.base, List.filter_cons, List.filter_nil, Bool.true_and,
      Bool.false_and, Bool.false_eq_true, if_false]; repeat' split
    all_goals rfl
  · intro l h
    simp only [List.forall_mem_cons, List.not_mem_nil, false_imp_iff, implies_true, and_true] at h
    simp (disch := decide) only [buildInstr, buildG7, RawW.fields, RawW.base, RawW.frame, dstOf_code, h, amodOf_amodBits, hintOf_hintBits]
theorem amin f m h o : Statement (.amin f m h o) := by
  refine of (g := 7) (m := 1) ⟨0x1c1, .op, .op, .op, .unused, .unused, .atomicSigned⟩ [o.a, o.b] rfl (by simp only [RawW.base]; decide) (by simp only [RawW.base]; rfl)
    (by simp only [RawW.base]; rfl) rfl ?_ ?_
  · intro _; simp only [Row.literals, FK.isCode, dst_code_lit, src_code_lit, litCount, RawW.base, List.filter_cons, List.filter_nil, Bool.true_and,
      Bool.false_and, Bool.false_eq_true, if_false]; repeat' split
    all_goals rfl
  · intro l h
    simp only [List.forall_mem_cons, List.not_mem_nil, false_imp_iff, implies_true, and_true] at h
    simp (disch := decide) only [buildInstr, buildG7, RawW.fields, RawW.base, RawW.frame, dstOf_code, h, amodOf_amodBits, hintOf_hintBits]
theorem amax f m h o : Statement (.amax f m h o) := by
  refine of (g := 7) (m := 2) ⟨0x1c2, .op, .op, .op, .unused, .unused, .atomicSigned⟩ [o.a, o.b] rfl (by simp only [RawW.base]; decide) (by simp only [RawW.base]; rfl)
    (by simp only [RawW.base]; rfl) rfl ?_ ?_
  · intro _; simp only [Row.literals, FK.isCode, dst_code_lit, src_code_lit, litCount, RawW.base, List.filter_cons, List.filter_nil, Bool.true_and,
      Bool.false_and, Bool.false_eq_true, if_false]; repeat' split
    all_goals rfl
  · intro l h
    simp only [List.forall_mem_cons, List.not_mem_nil, false_imp_iff, implies_true, and_true] at h
    simp (disch := decide) only [buildInstr, buildG7, RawW.fields, RawW.base, RawW.frame, dstOf_code, h, amodOf_amodBits, hintOf_hintBits]
theorem aand f m h o : Statement (.aand f m h o) := by
  refine of (g := 7) (m := 3) ⟨0x1c3, .op, .op, .op, .unused, .unused, .atomic⟩ [o.a, o.b] rfl (by simp only [RawW.base]; decide) (by simp only [RawW.base]; rfl)
    (by simp only [RawW.base]; rfl) rfl ?_ ?_
  · intro _; simp only [Row.literals, FK.isCode, dst_code_lit, src_code_lit, litCount, RawW.base, List.filter_cons, List.filter_nil, Bool.true_and,
      Bool.false_and, Bool.false_eq_true, if_false]; repeat' split
    all_goals rfl
  · intro l h
    simp only [List.forall_mem_cons, List.not_mem_nil, false_imp_iff, implies_true, and_true] at h
    simp (disch := decide) only [buildInstr, buildG7, RawW.fields, RawW.base, RawW.frame, dstOf_code, h, amodOf_amodBits, hintOf_hintBits]
theorem aor f m h o : Statement (.aor f m h o) := by
  refine of (g := 7) (m := 4) ⟨0x1c4, .op, .op, .op, .unused, .unused, .atomic⟩ [o.a, o.b] rfl (by simp only [RawW.base]; decide) (by simp only [RawW.base]; rfl)
    (by simp only [RawW.base]; rfl) rfl ?_ ?_
  · intro _; simp only [Row.literals, FK.isCode, dst_code_lit, src_code_lit, litCount, RawW.base, List.filter_cons, List.filter_nil, Bool.true_and,
      Bool.false_and, Bool.false_eq_true, if_false]; repeat' split
    all_goals rfl
  · intro l h
    simp only [List.forall_mem_cons, List.not_mem_nil, false_imp_iff, implies_true, and_true] at h
    simp (disch := decide) only [buildInstr, buildG7, RawW.fields, RawW.base, RawW.frame, dstOf_code, h, amodOf_amodBits, hintOf_hintBits]
theorem axor f m h o : Statement (.axor f m h o) := by
  refine of (g := 7) (m := 5) ⟨0x1c5, .op, .op, .op, .unused, .unused, .atomic⟩ [o.a, o.b] rfl (by simp only [RawW.base]; decide) (by simp only [RawW.base]; rfl)
    (by simp only [RawW.base]; rfl) rfl ?_ ?_
  · intro _; simp only [Row.literals, FK.isCode, dst_code_lit, src_code_lit, litCount, RawW.base, List.filter_cons, List.filter_nil, Bool.true_and,
      Bool.false_and, Bool.false_eq_true, if_false]; repeat' split
    all_goals rfl
  · intro l h
    simp only [List.forall_mem_cons, List.not_mem_nil, false_imp_iff, implies_true, and_true] at h
    simp (disch := decide) only [buildInstr, buildG7, RawW.fields, RawW.base, RawW.frame, dstOf_code, h, amodOf_amodBits, hintOf_hintBits]
theorem axchg f m h o : Statement (.axchg f m h o) := by
  refine of (g := 7) (m := 6) ⟨0x1c6, .op, .op, .op, .unused, .unused, .atomic⟩ [o.a, o.b] rfl (by simp only [RawW.base]; decide) (by simp only [RawW.base]; rfl)
    (by simp only [RawW.base]; rfl) rfl ?_ ?_
  · intro _; simp only [Row.literals, FK.isCode, dst_code_lit, src_code_lit, litCount, RawW.base, List.filter_cons, List.filter_nil, Bool.true_and,
      Bool.false_and, Bool.false_eq_true, if_false]; repeat' split
    all_goals rfl
  · intro l h
    simp only [List.forall_mem_cons, List.not_mem_nil, false_imp_iff, implies_true, and_true] at h
    simp (disch := decide) only [buildInstr, buildG7, RawW.fields, RawW.base, RawW.frame, dstOf_code, h, amodOf_amodBits, hintOf_hintBits]
theorem acas f m h o pe : Statement (.acas f m h o pe) := by
  refine of (g := 7) (m := 7) ⟨0x1c7, .op, .op, .op, .op, .raw 7, .atomic⟩ [o.a, o.b, o.c] rfl (by simp only [RawW.base]; decide) (by simp only [RawW.base]; rfl)
    (by simp only [RawW.base]; rfl) rfl ?_ ?_
  · intro _; simp only [Row.literals, FK.isCode, dst_code_lit, src_code_lit, litCount, RawW.base, List.filter_cons, List.filter_nil, Bool.true_and,
      Bool.false_and, Bool.false_eq_true, if_false]; repeat' split
    all_goals rfl
  · intro l h
    simp only [List.forall_mem_cons, List.not_mem_nil, false_imp_iff, implies_true, and_true] at h
    simp (disch := decide) only [buildInstr, buildG7, RawW.fields, RawW.base, RawW.frame, dstOf_code, h, amodOf_amodBits, hintOf_hintBits, narrow]
theorem aincw f m h o : Statement (.aincw f m h o) := by
  refine of (g := 7) (m := 8) ⟨0x1c8, .op, .op, .op, .unused, .unused, .atomic⟩ [o.a, o.b] rfl (by simp only [RawW.base]; decide) (by simp only [RawW.base]; rfl)
    (by simp only [RawW.base]; rfl) rfl ?_ ?_
  · intro _; simp only [Row.literals, FK.isCode, dst_code_lit, src_code_lit, litCount, RawW.base, List.filter_cons, List.filter_nil, Bool.true_and,
      Bool.false_and, Bool.false_eq_true, if_false]; repeat' split
    all_goals rfl
  · intro l h
    simp only [List.forall_mem_cons, List.not_mem_nil, false_imp_iff, implies_true, and_true] at h
    simp (disch := decide) only [buildInstr, buildG7, RawW.fields, RawW.base, RawW.frame, dstOf_code, h, amodOf_amodBits, hintOf_hintBits]
theorem adecw f m h o : Statement (.adecw f m h o) := by
  refine of (g := 7) (m := 9) ⟨0x1c9, .op, .op, .op, .unused, .unused, .atomic⟩ [o.a, o.b] rfl (by simp only [RawW.base]; decide) (by simp only [RawW.base]; rfl)
    (by simp only [RawW.base]; rfl) rfl ?_ ?_
  · intro _; simp only [Row.literals, FK.isCode, dst_code_lit, src_code_lit, litCount, RawW.base, List.filter_cons, List.filter_nil, Bool.true_and,
      Bool.false_and, Bool.false_eq_true, if_false]; repeat' split
    all_goals rfl
  · intro l h
    simp only [List.forall_mem_cons, List.not_mem_nil, false_imp_iff, implies_true, and_true] at h
    simp (disch := decide) only [buildInstr, buildG7, RawW.fields, RawW.base, RawW.frame, dstOf_code, h, amodOf_amodBits, hintOf_hintBits]
theorem abadd f m h o pe : Statement (.abadd f m h o pe) := by
  refine of (g := 7) (m := 10) ⟨0x1ca, .op, .op, .op, .op, .raw 7, .atomic⟩ [o.a, o.b, o.c] rfl (by simp only [RawW.base]; decide) (by simp only [RawW.base]; rfl)
    (by simp only [RawW.base]; rfl) rfl ?_ ?_
  · intro _; simp only [Row.literals, FK.isCode, dst_code_lit, src_code_lit, litCount, RawW.base, List.filter_cons, List.filter_nil, Bool.true_and,
      Bool.false_and, Bool.false_eq_true, if_false]; repeat' split
    all_goals rfl
  · intro l h
    simp only [List.forall_mem_cons, List.not_mem_nil, false_imp_iff, implies_true, and_true] at h
    simp (disch := decide) only [buildInstr, buildG7, RawW.fields, RawW.base, RawW.frame, dstOf_code, h, amodOf_amodBits, hintOf_hintBits, narrow]
theorem afadd f m h o : Statement (.afadd f m h o) := by
  refine of (g := 7) (m := 11) ⟨0x1cb, .op, .op, .op, .unused, .unused, .atomic⟩ [o.a, o.b] rfl (by simp only [RawW.base]; decide) (by simp only [RawW.base]; rfl)
    (by simp only [RawW.base]; rfl) rfl ?_ ?_
  · intro _; simp only [Row.literals, FK.isCode, dst_code_lit, src_code_lit, litCount, RawW.base, List.filter_cons, List.filter_nil, Bool.true_and,
      Bool.false_and, Bool.false_eq_true, if_false]; repeat' split
    all_goals rfl
  · intro l h
    simp only [List.forall_mem_cons, List.not_mem_nil, false_imp_iff, implies_true, and_true] at h
    simp (disch := decide) only [buildInstr, buildG7, RawW.fields, RawW.base, RawW.frame, dstOf_code, h, amodOf_amodBits, hintOf_hintBits]
theorem redadd f m h o : Statement (.redadd f m h o) := by
  refine of (g := 7) (m := 12) ⟨0x1cc, .unused, .op, .op, .unused, .unused, .red⟩ [o.a, o.b] rfl (by simp only [RawW.base]; decide) (by simp only [RawW.base]; rfl)
    (by simp only [RawW.base]; rfl) rfl ?_ ?_
  · intro _; simp only [Row.literals, FK.isCode, dst_code_lit, src_code_lit, litCount, RawW.base, List.filter_cons, List.filter_nil, Bool.true_and,
      Bool.false_and, Bool.false_eq_true, if_false]; repeat' split
    all_goals rfl
  · intro l h
    simp only [List.forall_mem_cons, List.not_mem_nil, false_imp_iff, implies_true, and_true] at h
    simp (disch := decide) only [buildInstr, buildG7, RawW.fields, RawW.base, RawW.frame, h, amodOf_amodBits, hintOf_hintBits]
theorem redfadd f m h o : Statement (.redfadd f m h o) := by
  refine of (g := 7) (m := 13) ⟨0x1cd, .unused, .op, .op, .unused, .unused, .red⟩ [o.a, o.b] rfl (by simp only [RawW.base]; decide) (by simp only [RawW.base]; rfl)
    (by simp only [RawW.base]; rfl) rfl ?_ ?_
  · intro _; simp only [Row.literals, FK.isCode, dst_code_lit, src_code_lit, litCount, RawW.base, List.filter_cons, List.filter_nil, Bool.true_and,
      Bool.false_and, Bool.false_eq_true, if_false]; repeat' split
    all_goals rfl
  · intro l h
    simp only [List.forall_mem_cons, List.not_mem_nil, false_imp_iff, implies_true, and_true] at h
    simp (disch := decide) only [buildInstr, buildG7, RawW.fields, RawW.base, RawW.frame, h, amodOf_amodBits, hintOf_hintBits]
theorem redmin f m h o : Statement (.redmin f m h o) := by
  refine of (g := 7) (m := 14) ⟨0x1ce, .unused, .op, .op, .unused, .unused, .redSigned⟩ [o.a, o.b] rfl (by simp only [RawW.base]; decide) (by simp only [RawW.base]; rfl)
    (by simp only [RawW.base]; rfl) rfl ?_ ?_
  · intro _; simp only [Row.literals, FK.isCode, dst_code_lit, src_code_lit, litCount, RawW.base, List.filter_cons, List.filter_nil, Bool.true_and,
      Bool.false_and, Bool.false_eq_true, if_false]; repeat' split
    all_goals rfl
  · intro l h
    simp only [List.forall_mem_cons, List.not_mem_nil, false_imp_iff, implies_true, and_true] at h
    simp (disch := decide) only [buildInstr, buildG7, RawW.fields, RawW.base, RawW.frame, h, amodOf_amodBits, hintOf_hintBits]
theorem redmax f m h o : Statement (.redmax f m h o) := by
  refine of (g := 7) (m := 15) ⟨0x1cf, .unused, .op, .op, .unused, .unused, .redSigned⟩ [o.a, o.b] rfl (by simp only [RawW.base]; decide) (by simp only [RawW.base]; rfl)
    (by simp only [RawW.base]; rfl) rfl ?_ ?_
  · intro _; simp only [Row.literals, FK.isCode, dst_code_lit, src_code_lit, litCount, RawW.base, List.filter_cons, List.filter_nil, Bool.true_and,
      Bool.false_and, Bool.false_eq_true, if_false]; repeat' split
    all_goals rfl
  · intro l h
    simp only [List.forall_mem_cons, List.not_mem_nil, false_imp_iff, implies_true, and_true] at h
    simp (disch := decide) only [buildInstr, buildG7, RawW.fields, RawW.base, RawW.frame, h, amodOf_amodBits, hintOf_hintBits]
theorem fence f sc h kind : Statement (.fence f sc h kind) := by
  refine of (g := 7) (m := 16) ⟨0x1d0, .unused, .unused, .unused, .unused, .raw 3, .scope⟩ [] rfl (by simp only [RawW.base]; decide) (by simp only [RawW.base]; rfl)
    (by simp only [RawW.base]; rfl) rfl ?_ ?_
  · intro _; simp only [Row.literals, FK.isCode, dst_code_lit, src_code_lit, litCount, RawW.base, List.filter_cons, List.filter_nil, Bool.true_and,
      Bool.false_and, Bool.false_eq_true, if_false]; repeat' split
    all_goals rfl
  · intro l h
    simp (disch := decide) only [buildInstr, buildG7, RawW.fields, RawW.base, RawW.frame, hintOf_hintBits, scopeField, fenceKindOf_fenceKindBits, narrow, Option.map_some]
theorem sdrain f h : Statement (.sdrain f h) := by
  refine of (g := 7) (m := 17) ⟨0x1d1, .unused, .unused, .unused, .unused, .unused, .zero⟩ [] rfl (by simp only [RawW.base]; decide) (by simp only [RawW.base]; rfl)
    (by simp only [RawW.base]; rfl) rfl ?_ ?_
  · intro _; simp only [Row.literals, FK.isCode, dst_code_lit, src_code_lit, litCount, RawW.base, List.filter_cons, List.filter_nil, Bool.true_and,
      Bool.false_and, Bool.false_eq_true, if_false]; repeat' split
    all_goals rfl
  · intro l h
    simp (disch := decide) only [buildInstr, buildG7, RawW.fields, RawW.base, RawW.frame, hintOf_hintBits]
theorem barinit f b a : Statement (.barinit f b a) := by
  refine of (g := 8) (m := 0) ⟨0x200, .unused, .op, .raw 127, .raw 7, .unused, .zero⟩ [a] rfl (by simp only [RawW.base]; decide) (by simp only [RawW.base]; rfl)
    (by simp only [RawW.base]; rfl) rfl ?_ ?_
  · intro _; simp only [Row.literals, FK.isCode, dst_code_lit, src_code_lit, litCount, RawW.base, List.filter_cons, List.filter_nil, Bool.true_and,
      Bool.false_and, Bool.false_eq_true, if_false]; repeat' split
    all_goals rfl
  · intro l h
    rw [List.forall_mem_singleton] at h
    simp (disch := decide) only [buildInstr, buildG8, RawW.fields, RawW.base, RawW.frame, h, narrow, parts10]
theorem bararv f d b : Statement (.bararv f d b) := by
  refine of (g := 8) (m := 1) ⟨0x201, .op, .unused, .raw 127, .raw 7, .unused, .zero⟩ [] rfl (by simp only [RawW.base]; decide) (by simp only [RawW.base]; rfl)
    (by simp only [RawW.base]; rfl) rfl ?_ ?_
  · intro _; simp only [Row.literals, FK.isCode, dst_code_lit, src_code_lit, litCount, RawW.base, List.filter_cons, List.filter_nil, Bool.true_and,
      Bool.false_and, Bool.false_eq_true, if_false]; repeat' split
    all_goals rfl
  · intro l h
    simp (disch := decide) only [buildInstr, buildG8, RawW.fields, RawW.base, RawW.frame, dstOf_code, narrow, parts10]
theorem barwait f b a : Statement (.barwait f b a) := by
  refine of (g := 8) (m := 2) ⟨0x202, .unused, .op, .raw 127, .raw 7, .unused, .zero⟩ [a] rfl (by simp only [RawW.base]; decide) (by simp only [RawW.base]; rfl)
    (by simp only [RawW.base]; rfl) rfl ?_ ?_
  · intro _; simp only [Row.literals, FK.isCode, dst_code_lit, src_code_lit, litCount, RawW.base, List.filter_cons, List.filter_nil, Bool.true_and,
      Bool.false_and, Bool.false_eq_true, if_false]; repeat' split
    all_goals rfl
  · intro l h
    rw [List.forall_mem_singleton] at h
    simp (disch := decide) only [buildInstr, buildG8, RawW.fields, RawW.base, RawW.frame, h, narrow, parts10]
theorem barsync f b : Statement (.barsync f b) := by
  refine of (g := 8) (m := 3) ⟨0x203, .unused, .unused, .raw 127, .raw 7, .unused, .zero⟩ [] rfl (by simp only [RawW.base]; decide) (by simp only [RawW.base]; rfl)
    (by simp only [RawW.base]; rfl) rfl ?_ ?_
  · intro _; simp only [Row.literals, FK.isCode, dst_code_lit, src_code_lit, litCount, RawW.base, List.filter_cons, List.filter_nil, Bool.true_and,
      Bool.false_and, Bool.false_eq_true, if_false]; repeat' split
    all_goals rfl
  · intro l h
    simp (disch := decide) only [buildInstr, buildG8, RawW.fields, RawW.base, RawW.frame, narrow, parts10]
theorem barqry f d b : Statement (.barqry f d b) := by
  refine of (g := 8) (m := 4) ⟨0x204, .op, .unused, .raw 127, .raw 7, .unused, .zero⟩ [] rfl (by simp only [RawW.base]; decide) (by simp only [RawW.base]; rfl)
    (by simp only [RawW.base]; rfl) rfl ?_ ?_
  · intro _; simp only [Row.literals, FK.isCode, dst_code_lit, src_code_lit, litCount, RawW.base, List.filter_cons, List.filter_nil, Bool.true_and,
      Bool.false_and, Bool.false_eq_true, if_false]; repeat' split
    all_goals rfl
  · intro l h
    simp (disch := decide) only [buildInstr, buildG8, RawW.fields, RawW.base, RawW.frame, dstOf_code, narrow, parts10]
theorem lbar f d : Statement (.lbar f d) := by
  refine of (g := 8) (m := 5) ⟨0x205, .op, .unused, .unused, .unused, .unused, .zero⟩ [] rfl (by simp only [RawW.base]; decide) (by simp only [RawW.base]; rfl)
    (by simp only [RawW.base]; rfl) rfl ?_ ?_
  · intro _; simp only [Row.literals, FK.isCode, dst_code_lit, src_code_lit, litCount, RawW.base, List.filter_cons, List.filter_nil, Bool.true_and,
      Bool.false_and, Bool.false_eq_true, if_false]; repeat' split
    all_goals rfl
  · intro l h
    simp (disch := decide) only [buildInstr, buildG8, RawW.fields, RawW.base, RawW.frame, dstOf_code]
theorem shrmap f a : Statement (.shrmap f a) := by
  refine of (g := 8) (m := 6) ⟨0x206, .unused, .op, .unused, .unused, .unused, .zero⟩ [a] rfl (by simp only [RawW.base]; decide) (by simp only [RawW.base]; rfl)
    (by simp only [RawW.base]; rfl) rfl ?_ ?_
  · intro _; simp only [Row.literals, FK.isCode, dst_code_lit, src_code_lit, litCount, RawW.base, List.filter_cons, List.filter_nil, Bool.true_and,
      Bool.false_and, Bool.false_eq_true, if_false]; repeat' split
    all_goals rfl
  · intro l h
    rw [List.forall_mem_singleton] at h
    simp (disch := decide) only [buildInstr, buildG8, RawW.fields, RawW.base, RawW.frame, h]
theorem shrunmap f : Statement (.shrunmap f) := by
  refine of (g := 8) (m := 7) ⟨0x207, .unused, .unused, .unused, .unused, .unused, .zero⟩ [] rfl (by simp only [RawW.base]; decide) (by simp only [RawW.base]; rfl)
    (by simp only [RawW.base]; rfl) rfl ?_ ?_
  · intro _; simp only [Row.literals, FK.isCode, dst_code_lit, src_code_lit, litCount, RawW.base, List.filter_cons, List.filter_nil, Bool.true_and,
      Bool.false_and, Bool.false_eq_true, if_false]; repeat' split
    all_goals rfl
  · intro l h
    simp (disch := decide) only [buildInstr, buildG8, RawW.fields, RawW.base, RawW.frame, ]
theorem rdfe f o : Statement (.rdfe f o) := by
  refine of (g := 8) (m := 8) ⟨0x208, .op, .shared, .unused, .unused, .unused, .zero⟩ [o.a] rfl (by simp only [RawW.base]; decide) (by simp only [RawW.base]; rfl)
    (by simp only [RawW.base]; rfl) rfl ?_ ?_
  · intro _; simp only [Row.literals, FK.isCode, dst_code_lit, src_code_lit, litCount, RawW.base, List.filter_cons, List.filter_nil, Bool.true_and,
      Bool.false_and, Bool.false_eq_true, if_false]; repeat' split
    all_goals rfl
  · intro l h
    rw [List.forall_mem_singleton] at h
    simp (disch := decide) only [buildInstr, buildG8, RawW.fields, RawW.base, RawW.frame, dstOf_code, h]
theorem wrfe f o : Statement (.wrfe f o) := by
  refine of (g := 8) (m := 9) ⟨0x209, .shared, .op, .unused, .unused, .unused, .zero⟩ [o.a] rfl (by simp only [RawW.base]; decide) (by simp only [RawW.base]; rfl)
    (by simp only [RawW.base]; rfl) rfl ?_ ?_
  · intro _; simp only [Row.literals, FK.isCode, dst_code_lit, src_code_lit, litCount, RawW.base, List.filter_cons, List.filter_nil, Bool.true_and,
      Bool.false_and, Bool.false_eq_true, if_false]; repeat' split
    all_goals rfl
  · intro l h
    rw [List.forall_mem_singleton] at h
    simp (disch := decide) only [buildInstr, buildG8, RawW.fields, RawW.base, RawW.frame, dstOf_code, h]
theorem qpush f ga lu q : Statement (.qpush f ga lu q) := by
  refine of (g := 8) (m := 10) ⟨0x20a, .unused, .run, .raw 7, .unused, .unused, .zero⟩ [] rfl (by simp only [RawW.base]; decide) (by simp only [RawW.base]; rfl)
    (by simp only [RawW.base]; rfl) rfl ?_ ?_
  · intro _; simp only [Row.literals, FK.isCode, run_code_lit, dst_code_lit, src_code_lit, litCount, RawW.base, List.filter_cons, List.filter_nil, Bool.true_and,
      Bool.false_and, Bool.false_eq_true, if_false]; repeat' split
    all_goals rfl
  · intro l h
    simp (disch := decide) only [buildInstr, buildG8, RawW.fields, RawW.base, RawW.frame, narrow]
theorem qpop f gd q pn : Statement (.qpop f gd q pn) := by
  refine of (g := 8) (m := 11) ⟨0x20b, .run, .unused, .raw 7, .raw 7, .unused, .zero⟩ [] rfl (by simp only [RawW.base]; decide) (by simp only [RawW.base]; rfl)
    (by simp only [RawW.base]; rfl) rfl ?_ ?_
  · intro _; simp only [Row.literals, FK.isCode, run_code_lit, dst_code_lit, src_code_lit, litCount, RawW.base, List.filter_cons, List.filter_nil, Bool.true_and,
      Bool.false_and, Bool.false_eq_true, if_false]; repeat' split
    all_goals rfl
  · intro l h
    simp (disch := decide) only [buildInstr, buildG8, RawW.fields, RawW.base, RawW.frame, narrow]
theorem tdef f a t : Statement (.tdef f a t) := by
  refine of (g := 9) (m := 0) ⟨0x240, .unused, .op, .unused, .raw 63, .unused, .zero⟩ [a] rfl (by simp only [RawW.base]; decide) (by simp only [RawW.base]; rfl)
    (by simp only [RawW.base]; rfl) rfl ?_ ?_
  · intro _; simp only [Row.literals, FK.isCode, dst_code_lit, src_code_lit, litCount, RawW.base, List.filter_cons, List.filter_nil, Bool.true_and,
      Bool.false_and, Bool.false_eq_true, if_false]; repeat' split
    all_goals rfl
  · intro l h
    rw [List.forall_mem_singleton] at h
    simp (disch := decide) only [buildInstr, buildG9, RawW.fields, RawW.base, RawW.frame, h, narrow]
theorem tqry f d t wd : Statement (.tqry f d t wd) := by
  refine of (g := 9) (m := 1) ⟨0x241, .op, .unused, .raw 1, .raw 63, .unused, .zero⟩ [] rfl (by simp only [RawW.base]; decide) (by simp only [RawW.base]; rfl)
    (by simp only [RawW.base]; rfl) rfl ?_ ?_
  · intro _; simp only [Row.literals, FK.isCode, dst_code_lit, src_code_lit, litCount, RawW.base, List.filter_cons, List.filter_nil, Bool.true_and,
      Bool.false_and, Bool.false_eq_true, if_false]; repeat' split
    all_goals rfl
  · intro l h
    simp (disch := decide) only [buildInstr, buildG9, RawW.fields, RawW.base, RawW.frame, dstOf_code, narrow, bitField]
theorem tready f t : Statement (.tready f t) := by
  refine of (g := 9) (m := 2) ⟨0x242, .unused, .unused, .unused, .raw 63, .unused, .zero⟩ [] rfl (by simp only [RawW.base]; decide) (by simp only [RawW.base]; rfl)
    (by simp only [RawW.base]; rfl) rfl ?_ ?_
  · intro _; simp only [Row.literals, FK.isCode, dst_code_lit, src_code_lit, litCount, RawW.base, List.filter_cons, List.filter_nil, Bool.true_and,
      Bool.false_and, Bool.false_eq_true, if_false]; repeat' split
    all_goals rfl
  · intro l h
    simp (disch := decide) only [buildInstr, buildG9, RawW.fields, RawW.base, RawW.frame, narrow]
theorem tempty f t : Statement (.tempty f t) := by
  refine of (g := 9) (m := 3) ⟨0x243, .unused, .unused, .unused, .raw 63, .unused, .zero⟩ [] rfl (by simp only [RawW.base]; decide) (by simp only [RawW.base]; rfl)
    (by simp only [RawW.base]; rfl) rfl ?_ ?_
  · intro _; simp only [Row.literals, FK.isCode, dst_code_lit, src_code_lit, litCount, RawW.base, List.filter_cons, List.filter_nil, Bool.true_and,
      Bool.false_and, Bool.false_eq_true, if_false]; repeat' split
    all_goals rfl
  · intro l h
    simp (disch := decide) only [buildInstr, buildG9, RawW.fields, RawW.base, RawW.frame, narrow]
theorem twait f ws d t : Statement (.twait f ws d t) := by
  refine of (g := 9) (m := 4) ⟨0x244, .op, .unused, .unused, .raw 63, .unused, .low2Zero⟩ [] rfl (by simp only [RawW.base]; decide) (by simp only [RawW.base]; rfl)
    (by simp only [RawW.base]; rfl) rfl ?_ ?_
  · intro _; simp only [Row.literals, FK.isCode, dst_code_lit, src_code_lit, litCount, RawW.base, List.filter_cons, List.filter_nil, Bool.true_and,
      Bool.false_and, Bool.false_eq_true, if_false]; repeat' split
    all_goals rfl
  · intro l h
    simp (disch := decide) only [buildInstr, buildG9, RawW.fields, RawW.base, RawW.frame, dstOf_code, stateField, narrow]
theorem tstb f o t : Statement (.tstb f o t) := by
  refine of (g := 9) (m := 5) ⟨0x245, .unused, .op, .op, .raw 63, .unused, .zero⟩ [o.a, o.b] rfl (by simp only [RawW.base]; decide) (by simp only [RawW.base]; rfl)
    (by simp only [RawW.base]; rfl) rfl ?_ ?_
  · intro _; simp only [Row.literals, FK.isCode, dst_code_lit, src_code_lit, litCount, RawW.base, List.filter_cons, List.filter_nil, Bool.true_and,
      Bool.false_and, Bool.false_eq_true, if_false]; repeat' split
    all_goals rfl
  · intro l h
    simp only [List.forall_mem_cons, List.not_mem_nil, false_imp_iff, implies_true, and_true] at h
    simp (disch := decide) only [buildInstr, buildG9, RawW.fields, RawW.base, RawW.frame, h, narrow]
theorem tldb f d b t : Statement (.tldb f d b t) := by
  refine of (g := 9) (m := 6) ⟨0x246, .op, .unused, .op, .raw 63, .unused, .zero⟩ [b] rfl (by simp only [RawW.base]; decide) (by simp only [RawW.base]; rfl)
    (by simp only [RawW.base]; rfl) rfl ?_ ?_
  · intro _; simp only [Row.literals, FK.isCode, dst_code_lit, src_code_lit, litCount, RawW.base, List.filter_cons, List.filter_nil, Bool.true_and,
      Bool.false_and, Bool.false_eq_true, if_false]; repeat' split
    all_goals rfl
  · intro l h
    rw [List.forall_mem_singleton] at h
    simp (disch := decide) only [buildInstr, buildG9, RawW.fields, RawW.base, RawW.frame, dstOf_code, h, narrow]
theorem shadow f o : Statement (.shadow f o) := by
  refine of (g := 9) (m := 7) ⟨0x247, .unused, .op, .op, .op, .op, .zero⟩ [o.a, o.b, o.c, o.e] rfl (by simp only [RawW.base]; decide) (by simp only [RawW.base]; rfl)
    (by simp only [RawW.base]; rfl) rfl ?_ ?_
  · intro _; simp only [Row.literals, FK.isCode, dst_code_lit, src_code_lit, litCount, RawW.base, List.filter_cons, List.filter_nil, Bool.true_and,
      Bool.false_and, Bool.false_eq_true, if_false]; repeat' split
    all_goals rfl
  · intro l h
    simp only [List.forall_mem_cons, List.not_mem_nil, false_imp_iff, implies_true, and_true] at h
    simp (disch := decide) only [buildInstr, buildG9, RawW.fields, RawW.base, RawW.frame, h]
theorem publish f sc a : Statement (.publish f sc a) := by
  refine of (g := 9) (m := 8) ⟨0x248, .unused, .op, .unused, .unused, .unused, .scope⟩ [a] rfl (by simp only [RawW.base]; decide) (by simp only [RawW.base]; rfl)
    (by simp only [RawW.base]; rfl) rfl ?_ ?_
  · intro _; simp only [Row.literals, FK.isCode, dst_code_lit, src_code_lit, litCount, RawW.base, List.filter_cons, List.filter_nil, Bool.true_and,
      Bool.false_and, Bool.false_eq_true, if_false]; repeat' split
    all_goals rfl
  · intro l h
    rw [List.forall_mem_singleton] at h
    simp (disch := decide) only [buildInstr, buildG9, RawW.fields, RawW.base, RawW.frame, h, scopeField, Option.map_some]
theorem cpy f rel h o : Statement (.cpy f rel h o) := by
  refine of (g := 10) (m := 0) ⟨0x280, .op, .op, .op, .op, .op, .release⟩ [o.a, o.b, o.c, o.e] rfl (by simp only [RawW.base]; decide) (by simp only [RawW.base]; rfl)
    (by simp only [RawW.base]; rfl) rfl ?_ ?_
  · intro _; simp only [Row.literals, FK.isCode, dst_code_lit, src_code_lit, litCount, RawW.base, List.filter_cons, List.filter_nil, Bool.true_and,
      Bool.false_and, Bool.false_eq_true, if_false]; repeat' split
    all_goals rfl
  · intro l h
    simp only [List.forall_mem_cons, List.not_mem_nil, false_imp_iff, implies_true, and_true] at h
    simp (disch := decide) only [buildInstr, buildGA, RawW.fields, RawW.base, RawW.frame, dstOf_code, h, hintOf_hintBits, bitField4]
theorem cpym f rel h o : Statement (.cpym f rel h o) := by
  refine of (g := 10) (m := 1) ⟨0x281, .op, .op, .op, .op, .op, .release⟩ [o.a, o.b, o.c, o.e] rfl (by simp only [RawW.base]; decide) (by simp only [RawW.base]; rfl)
    (by simp only [RawW.base]; rfl) rfl ?_ ?_
  · intro _; simp only [Row.literals, FK.isCode, dst_code_lit, src_code_lit, litCount, RawW.base, List.filter_cons, List.filter_nil, Bool.true_and,
      Bool.false_and, Bool.false_eq_true, if_false]; repeat' split
    all_goals rfl
  · intro l h
    simp only [List.forall_mem_cons, List.not_mem_nil, false_imp_iff, implies_true, and_true] at h
    simp (disch := decide) only [buildInstr, buildGA, RawW.fields, RawW.base, RawW.frame, dstOf_code, h, hintOf_hintBits, bitField4]
theorem mma f h o : Statement (.mma f h o) := by
  refine of (g := 10) (m := 2) ⟨0x282, .op, .op, .unused, .unused, .unused, .zero⟩ [o.a] rfl (by simp only [RawW.base]; decide) (by simp only [RawW.base]; rfl)
    (by simp only [RawW.base]; rfl) rfl ?_ ?_
  · intro _; simp only [Row.literals, FK.isCode, dst_code_lit, src_code_lit, litCount, RawW.base, List.filter_cons, List.filter_nil, Bool.true_and,
      Bool.false_and, Bool.false_eq_true, if_false]; repeat' split
    all_goals rfl
  · intro l h
    rw [List.forall_mem_singleton] at h
    simp (disch := decide) only [buildInstr, buildGA, RawW.fields, RawW.base, RawW.frame, dstOf_code, h, hintOf_hintBits]
theorem mmab f h o : Statement (.mmab f h o) := by
  refine of (g := 10) (m := 3) ⟨0x283, .op, .op, .unused, .unused, .unused, .zero⟩ [o.a] rfl (by simp only [RawW.base]; decide) (by simp only [RawW.base]; rfl)
    (by simp only [RawW.base]; rfl) rfl ?_ ?_
  · intro _; simp only [Row.literals, FK.isCode, dst_code_lit, src_code_lit, litCount, RawW.base, List.filter_cons, List.filter_nil, Bool.true_and,
      Bool.false_and, Bool.false_eq_true, if_false]; repeat' split
    all_goals rfl
  · intro l h
    rw [List.forall_mem_singleton] at h
    simp (disch := decide) only [buildInstr, buildGA, RawW.fields, RawW.base, RawW.frame, dstOf_code, h, hintOf_hintBits]
theorem mmac f h o : Statement (.mmac f h o) := by
  refine of (g := 10) (m := 4) ⟨0x284, .op, .op, .op, .unused, .unused, .zero⟩ [o.a, o.b] rfl (by simp only [RawW.base]; decide) (by simp only [RawW.base]; rfl)
    (by simp only [RawW.base]; rfl) rfl ?_ ?_
  · intro _; simp only [Row.literals, FK.isCode, dst_code_lit, src_code_lit, litCount, RawW.base, List.filter_cons, List.filter_nil, Bool.true_and,
      Bool.false_and, Bool.false_eq_true, if_false]; repeat' split
    all_goals rfl
  · intro l h
    simp only [List.forall_mem_cons, List.not_mem_nil, false_imp_iff, implies_true, and_true] at h
    simp (disch := decide) only [buildInstr, buildGA, RawW.fields, RawW.base, RawW.frame, dstOf_code, h, hintOf_hintBits]
theorem mepi f h o : Statement (.mepi f h o) := by
  refine of (g := 10) (m := 5) ⟨0x285, .op, .op, .op, .op, .op, .zero⟩ [o.a, o.b, o.c, o.e] rfl (by simp only [RawW.base]; decide) (by simp only [RawW.base]; rfl)
    (by simp only [RawW.base]; rfl) rfl ?_ ?_
  · intro _; simp only [Row.literals, FK.isCode, dst_code_lit, src_code_lit, litCount, RawW.base, List.filter_cons, List.filter_nil, Bool.true_and,
      Bool.false_and, Bool.false_eq_true, if_false]; repeat' split
    all_goals rfl
  · intro l h
    simp only [List.forall_mem_cons, List.not_mem_nil, false_imp_iff, implies_true, and_true] at h
    simp (disch := decide) only [buildInstr, buildGA, RawW.fields, RawW.base, RawW.frame, dstOf_code, h, hintOf_hintBits]
theorem tarm f h o t wr : Statement (.tarm f h o t wr) := by
  refine of (g := 10) (m := 6) ⟨0x286, .unused, .op, .op, .raw 63, .raw 31, .zero⟩ [o.a, o.b] rfl (by simp only [RawW.base]; decide) (by simp only [RawW.base]; rfl)
    (by simp only [RawW.base]; rfl) rfl ?_ ?_
  · intro _; simp only [Row.literals, FK.isCode, dst_code_lit, src_code_lit, litCount, RawW.base, List.filter_cons, List.filter_nil, Bool.true_and,
      Bool.false_and, Bool.false_eq_true, if_false]; repeat' split
    all_goals rfl
  · intro l h
    simp only [List.forall_mem_cons, List.not_mem_nil, false_imp_iff, implies_true, and_true] at h
    simp (disch := decide) only [buildInstr, buildGA, RawW.fields, RawW.base, RawW.frame, h, hintOf_hintBits, narrow]
theorem route f h o wr : Statement (.route f h o wr) := by
  refine of (g := 10) (m := 7) ⟨0x287, .unused, .op, .op, .unused, .raw 31, .zero⟩ [o.a, o.b] rfl (by simp only [RawW.base]; decide) (by simp only [RawW.base]; rfl)
    (by simp only [RawW.base]; rfl) rfl ?_ ?_
  · intro _; simp only [Row.literals, FK.isCode, dst_code_lit, src_code_lit, litCount, RawW.base, List.filter_cons, List.filter_nil, Bool.true_and,
      Bool.false_and, Bool.false_eq_true, if_false]; repeat' split
    all_goals rfl
  · intro l h
    simp only [List.forall_mem_cons, List.not_mem_nil, false_imp_iff, implies_true, and_true] at h
    simp (disch := decide) only [buildInstr, buildGA, RawW.fields, RawW.base, RawW.frame, h, hintOf_hintBits, narrow]
theorem collBind f rel h o : Statement (.collBind f rel h o) := by
  refine of (g := 10) (m := 8) ⟨0x288, .op, .op, .op, .op, .op, .release⟩ [o.a, o.b, o.c, o.e] rfl (by simp only [RawW.base]; decide) (by simp only [RawW.base]; rfl)
    (by simp only [RawW.base]; rfl) rfl ?_ ?_
  · intro _; simp only [Row.literals, FK.isCode, dst_code_lit, src_code_lit, litCount, RawW.base, List.filter_cons, List.filter_nil, Bool.true_and,
      Bool.false_and, Bool.false_eq_true, if_false]; repeat' split
    all_goals rfl
  · intro l h
    simp only [List.forall_mem_cons, List.not_mem_nil, false_imp_iff, implies_true, and_true] at h
    simp (disch := decide) only [buildInstr, buildGA, RawW.fields, RawW.base, RawW.frame, dstOf_code, h, hintOf_hintBits, bitField4]
theorem collReduceScatter f rel h o : Statement (.collReduceScatter f rel h o) := refined rfl
theorem collAllGather f rel h o : Statement (.collAllGather f rel h o) := refined rfl
theorem collAllReduceRing f rel h o : Statement (.collAllReduceRing f rel h o) := refined rfl
theorem collAllReduceTree f rel h o : Statement (.collAllReduceTree f rel h o) := refined rfl
theorem collBroadcast f rel h o : Statement (.collBroadcast f rel h o) := refined rfl
theorem collBarrier f rel h o : Statement (.collBarrier f rel h o) := refined rfl
theorem collDrawMerge f rel h o : Statement (.collDrawMerge f rel h o) := refined rfl
theorem cwait f h o : Statement (.cwait f h o) := by
  refine of (g := 10) (m := 9) ⟨0x289, .op, .op, .op, .unused, .unused, .zero⟩ [o.a, o.b] rfl (by simp only [RawW.base]; decide) (by simp only [RawW.base]; rfl)
    (by simp only [RawW.base]; rfl) rfl ?_ ?_
  · intro _; simp only [Row.literals, FK.isCode, dst_code_lit, src_code_lit, litCount, RawW.base, List.filter_cons, List.filter_nil, Bool.true_and,
      Bool.false_and, Bool.false_eq_true, if_false]; repeat' split
    all_goals rfl
  · intro l h
    simp only [List.forall_mem_cons, List.not_mem_nil, false_imp_iff, implies_true, and_true] at h
    simp (disch := decide) only [buildInstr, buildGA, RawW.fields, RawW.base, RawW.frame, dstOf_code, h, hintOf_hintBits]
theorem ccancel f h o : Statement (.ccancel f h o) := by
  refine of (g := 10) (m := 10) ⟨0x28a, .op, .op, .unused, .unused, .unused, .zero⟩ [o.a] rfl (by simp only [RawW.base]; decide) (by simp only [RawW.base]; rfl)
    (by simp only [RawW.base]; rfl) rfl ?_ ?_
  · intro _; simp only [Row.literals, FK.isCode, dst_code_lit, src_code_lit, litCount, RawW.base, List.filter_cons, List.filter_nil, Bool.true_and,
      Bool.false_and, Bool.false_eq_true, if_false]; repeat' split
    all_goals rfl
  · intro l h
    rw [List.forall_mem_singleton] at h
    simp (disch := decide) only [buildInstr, buildGA, RawW.fields, RawW.base, RawW.frame, dstOf_code, h, hintOf_hintBits]
theorem engq f h o : Statement (.engq f h o) := by
  refine of (g := 10) (m := 11) ⟨0x28b, .op, .op, .op, .unused, .unused, .zero⟩ [o.a, o.b] rfl (by simp only [RawW.base]; decide) (by simp only [RawW.base]; rfl)
    (by simp only [RawW.base]; rfl) rfl ?_ ?_
  · intro _; simp only [Row.literals, FK.isCode, dst_code_lit, src_code_lit, litCount, RawW.base, List.filter_cons, List.filter_nil, Bool.true_and,
      Bool.false_and, Bool.false_eq_true, if_false]; repeat' split
    all_goals rfl
  · intro l h
    simp only [List.forall_mem_cons, List.not_mem_nil, false_imp_iff, implies_true, and_true] at h
    simp (disch := decide) only [buildInstr, buildGA, RawW.fields, RawW.base, RawW.frame, dstOf_code, h, hintOf_hintBits]
theorem drawl f o : Statement (.drawl f o) := by
  refine of (g := 11) (m := 0) ⟨0x2c0, .op, .op, .op, .unused, .unused, .zero⟩ [o.a, o.b] rfl (by simp only [RawW.base]; decide) (by simp only [RawW.base]; rfl)
    (by simp only [RawW.base]; rfl) rfl ?_ ?_
  · intro _; simp only [Row.literals, FK.isCode, dst_code_lit, src_code_lit, litCount, RawW.base, List.filter_cons, List.filter_nil, Bool.true_and,
      Bool.false_and, Bool.false_eq_true, if_false]; repeat' split
    all_goals rfl
  · intro l h
    simp only [List.forall_mem_cons, List.not_mem_nil, false_imp_iff, implies_true, and_true] at h
    simp (disch := decide) only [buildInstr, buildGB, RawW.fields, RawW.base, RawW.frame, dstOf_code, h]
theorem drawg f o : Statement (.drawg f o) := by
  refine of (g := 11) (m := 1) ⟨0x2c1, .op, .op, .op, .op, .unused, .zero⟩ [o.a, o.b, o.c] rfl (by simp only [RawW.base]; decide) (by simp only [RawW.base]; rfl)
    (by simp only [RawW.base]; rfl) rfl ?_ ?_
  · intro _; simp only [Row.literals, FK.isCode, dst_code_lit, src_code_lit, litCount, RawW.base, List.filter_cons, List.filter_nil, Bool.true_and,
      Bool.false_and, Bool.false_eq_true, if_false]; repeat' split
    all_goals rfl
  · intro l h
    simp only [List.forall_mem_cons, List.not_mem_nil, false_imp_iff, implies_true, and_true] at h
    simp (disch := decide) only [buildInstr, buildGB, RawW.fields, RawW.base, RawW.frame, dstOf_code, h]
theorem dmrg f lg o : Statement (.dmrg f lg o) := by
  refine of (g := 11) (m := 2) ⟨0x2c2, .op, .op, .op, .op, .unused, .release⟩ [o.a, o.b, o.c] rfl (by simp only [RawW.base]; decide) (by simp only [RawW.base]; rfl)
    (by simp only [RawW.base]; rfl) rfl ?_ ?_
  · intro _; simp only [Row.literals, FK.isCode, dst_code_lit, src_code_lit, litCount, RawW.base, List.filter_cons, List.filter_nil, Bool.true_and,
      Bool.false_and, Bool.false_eq_true, if_false]; repeat' split
    all_goals rfl
  · intro l h
    simp only [List.forall_mem_cons, List.not_mem_nil, false_imp_iff, implies_true, and_true] at h
    simp (disch := decide) only [buildInstr, buildGB, RawW.fields, RawW.base, RawW.frame, dstOf_code, h, bitField4]
theorem gdraw f lg o mk : Statement (.gdraw f lg o mk) := by
  refine of (g := 11) (m := 3) ⟨0x2c3, .op, .op, .op, .raw 15, .unused, .release⟩ [o.a, o.b] rfl (by simp only [RawW.base]; decide) (by simp only [RawW.base]; rfl)
    (by simp only [RawW.base]; rfl) rfl ?_ ?_
  · intro _; simp only [Row.literals, FK.isCode, dst_code_lit, src_code_lit, litCount, RawW.base, List.filter_cons, List.filter_nil, Bool.true_and,
      Bool.false_and, Bool.false_eq_true, if_false]; repeat' split
    all_goals rfl
  · intro l h
    simp only [List.forall_mem_cons, List.not_mem_nil, false_imp_iff, implies_true, and_true] at h
    simp (disch := decide) only [buildInstr, buildGB, RawW.fields, RawW.base, RawW.frame, dstOf_code, h, narrow, bitField4]
theorem dseed f a : Statement (.dseed f a) := by
  refine of (g := 11) (m := 4) ⟨0x2c4, .unused, .op, .unused, .unused, .unused, .zero⟩ [a] rfl (by simp only [RawW.base]; decide) (by simp only [RawW.base]; rfl)
    (by simp only [RawW.base]; rfl) rfl ?_ ?_
  · intro _; simp only [Row.literals, FK.isCode, dst_code_lit, src_code_lit, litCount, RawW.base, List.filter_cons, List.filter_nil, Bool.true_and,
      Bool.false_and, Bool.false_eq_true, if_false]; repeat' split
    all_goals rfl
  · intro l h
    rw [List.forall_mem_singleton] at h
    simp (disch := decide) only [buildInstr, buildGB, RawW.fields, RawW.base, RawW.frame, h]
theorem drnd f o : Statement (.drnd f o) := by
  refine of (g := 11) (m := 5) ⟨0x2c5, .op, .op, .unused, .unused, .unused, .zero⟩ [o.a] rfl (by simp only [RawW.base]; decide) (by simp only [RawW.base]; rfl)
    (by simp only [RawW.base]; rfl) rfl ?_ ?_
  · intro _; simp only [Row.literals, FK.isCode, dst_code_lit, src_code_lit, litCount, RawW.base, List.filter_cons, List.filter_nil, Bool.true_and,
      Bool.false_and, Bool.false_eq_true, if_false]; repeat' split
    all_goals rfl
  · intro l h
    rw [List.forall_mem_singleton] at h
    simp (disch := decide) only [buildInstr, buildGB, RawW.fields, RawW.base, RawW.frame, dstOf_code, h]
theorem sysrd f o : Statement (.sysrd f o) := by
  refine of (g := 12) (m := 0) ⟨0x300, .op, .op, .unused, .unused, .unused, .zero⟩ [o.a] rfl (by simp only [RawW.base]; decide) (by simp only [RawW.base]; rfl)
    (by simp only [RawW.base]; rfl) rfl ?_ ?_
  · intro _; simp only [Row.literals, FK.isCode, dst_code_lit, src_code_lit, litCount, RawW.base, List.filter_cons, List.filter_nil, Bool.true_and,
      Bool.false_and, Bool.false_eq_true, if_false]; repeat' split
    all_goals rfl
  · intro l h
    rw [List.forall_mem_singleton] at h
    simp (disch := decide) only [buildInstr, buildGC, RawW.fields, RawW.base, RawW.frame, dstOf_code, h]
theorem syswr f o : Statement (.syswr f o) := by
  refine of (g := 12) (m := 1) ⟨0x301, .unused, .op, .op, .unused, .unused, .zero⟩ [o.a, o.b] rfl (by simp only [RawW.base]; decide) (by simp only [RawW.base]; rfl)
    (by simp only [RawW.base]; rfl) rfl ?_ ?_
  · intro _; simp only [Row.literals, FK.isCode, dst_code_lit, src_code_lit, litCount, RawW.base, List.filter_cons, List.filter_nil, Bool.true_and,
      Bool.false_and, Bool.false_eq_true, if_false]; repeat' split
    all_goals rfl
  · intro l h
    simp only [List.forall_mem_cons, List.not_mem_nil, false_imp_iff, implies_true, and_true] at h
    simp (disch := decide) only [buildInstr, buildGC, RawW.fields, RawW.base, RawW.frame, h]
theorem injectWrite f o : Statement (.injectWrite f o) := refined rfl
theorem launch f o : Statement (.launch f o) := by
  refine of (g := 12) (m := 2) ⟨0x302, .op, .op, .unused, .unused, .unused, .zero⟩ [o.a] rfl (by simp only [RawW.base]; decide) (by simp only [RawW.base]; rfl)
    (by simp only [RawW.base]; rfl) rfl ?_ ?_
  · intro _; simp only [Row.literals, FK.isCode, dst_code_lit, src_code_lit, litCount, RawW.base, List.filter_cons, List.filter_nil, Bool.true_and,
      Bool.false_and, Bool.false_eq_true, if_false]; repeat' split
    all_goals rfl
  · intro l h
    rw [List.forall_mem_singleton] at h
    simp (disch := decide) only [buildInstr, buildGC, RawW.fields, RawW.base, RawW.frame, dstOf_code, h]
theorem lwait f o : Statement (.lwait f o) := by
  refine of (g := 12) (m := 3) ⟨0x303, .op, .op, .op, .unused, .unused, .zero⟩ [o.a, o.b] rfl (by simp only [RawW.base]; decide) (by simp only [RawW.base]; rfl)
    (by simp only [RawW.base]; rfl) rfl ?_ ?_
  · intro _; simp only [Row.literals, FK.isCode, dst_code_lit, src_code_lit, litCount, RawW.base, List.filter_cons, List.filter_nil, Bool.true_and,
      Bool.false_and, Bool.false_eq_true, if_false]; repeat' split
    all_goals rfl
  · intro l h
    simp only [List.forall_mem_cons, List.not_mem_nil, false_imp_iff, implies_true, and_true] at h
    simp (disch := decide) only [buildInstr, buildGC, RawW.fields, RawW.base, RawW.frame, dstOf_code, h]
theorem thrctlResume f o : Statement (.thrctlResume f o) := by
  refine of (g := 12) (m := 4) ⟨0x304, .op, .op, .op, .unused, .raw 7, .zero⟩ [o.a, o.b] rfl (by simp only [RawW.base]; decide) (by simp only [RawW.base]; rfl)
    (by simp only [RawW.base]; rfl) rfl ?_ ?_
  · intro _; simp only [Row.literals, FK.isCode, dst_code_lit, src_code_lit, litCount, RawW.base, List.filter_cons, List.filter_nil, Bool.true_and,
      Bool.false_and, Bool.false_eq_true, if_false]; repeat' split
    all_goals rfl
  · intro l h
    simp only [List.forall_mem_cons, List.not_mem_nil, false_imp_iff, implies_true, and_true] at h
    simp (disch := decide) only [buildInstr, buildGC, RawW.fields, RawW.base, RawW.frame, dstOf_code, h]; rfl
theorem thrctlRedirect f o : Statement (.thrctlRedirect f o) := by
  refine of (g := 12) (m := 4) ⟨0x304, .op, .op, .op, .unused, .raw 7, .zero⟩ [o.a, o.b] rfl (by simp only [RawW.base]; decide) (by simp only [RawW.base]; rfl)
    (by simp only [RawW.base]; rfl) rfl ?_ ?_
  · intro _; simp only [Row.literals, FK.isCode, dst_code_lit, src_code_lit, litCount, RawW.base, List.filter_cons, List.filter_nil, Bool.true_and,
      Bool.false_and, Bool.false_eq_true, if_false]; repeat' split
    all_goals rfl
  · intro l h
    simp only [List.forall_mem_cons, List.not_mem_nil, false_imp_iff, implies_true, and_true] at h
    simp (disch := decide) only [buildInstr, buildGC, RawW.fields, RawW.base, RawW.frame, dstOf_code, h]; rfl
theorem thrctlKill f o : Statement (.thrctlKill f o) := by
  refine of (g := 12) (m := 4) ⟨0x304, .op, .op, .op, .unused, .raw 7, .zero⟩ [o.a, o.b] rfl (by simp only [RawW.base]; decide) (by simp only [RawW.base]; rfl)
    (by simp only [RawW.base]; rfl) rfl ?_ ?_
  · intro _; simp only [Row.literals, FK.isCode, dst_code_lit, src_code_lit, litCount, RawW.base, List.filter_cons, List.filter_nil, Bool.true_and,
      Bool.false_and, Bool.false_eq_true, if_false]; repeat' split
    all_goals rfl
  · intro l h
    simp only [List.forall_mem_cons, List.not_mem_nil, false_imp_iff, implies_true, and_true] at h
    simp (disch := decide) only [buildInstr, buildGC, RawW.fields, RawW.base, RawW.frame, dstOf_code, h]; rfl
theorem thrctlStop f o : Statement (.thrctlStop f o) := by
  refine of (g := 12) (m := 4) ⟨0x304, .op, .op, .op, .unused, .raw 7, .zero⟩ [o.a, o.b] rfl (by simp only [RawW.base]; decide) (by simp only [RawW.base]; rfl)
    (by simp only [RawW.base]; rfl) rfl ?_ ?_
  · intro _; simp only [Row.literals, FK.isCode, dst_code_lit, src_code_lit, litCount, RawW.base, List.filter_cons, List.filter_nil, Bool.true_and,
      Bool.false_and, Bool.false_eq_true, if_false]; repeat' split
    all_goals rfl
  · intro l h
    simp only [List.forall_mem_cons, List.not_mem_nil, false_imp_iff, implies_true, and_true] at h
    simp (disch := decide) only [buildInstr, buildGC, RawW.fields, RawW.base, RawW.frame, dstOf_code, h]; rfl
theorem thrctlGetst f o : Statement (.thrctlGetst f o) := by
  refine of (g := 12) (m := 4) ⟨0x304, .op, .op, .op, .unused, .raw 7, .zero⟩ [o.a, o.b] rfl (by simp only [RawW.base]; decide) (by simp only [RawW.base]; rfl)
    (by simp only [RawW.base]; rfl) rfl ?_ ?_
  · intro _; simp only [Row.literals, FK.isCode, dst_code_lit, src_code_lit, litCount, RawW.base, List.filter_cons, List.filter_nil, Bool.true_and,
      Bool.false_and, Bool.false_eq_true, if_false]; repeat' split
    all_goals rfl
  · intro l h
    simp only [List.forall_mem_cons, List.not_mem_nil, false_imp_iff, implies_true, and_true] at h
    simp (disch := decide) only [buildInstr, buildGC, RawW.fields, RawW.base, RawW.frame, dstOf_code, h]; rfl
theorem thrctlSetst f o : Statement (.thrctlSetst f o) := by
  refine of (g := 12) (m := 4) ⟨0x304, .op, .op, .op, .unused, .raw 7, .zero⟩ [o.a, o.b] rfl (by simp only [RawW.base]; decide) (by simp only [RawW.base]; rfl)
    (by simp only [RawW.base]; rfl) rfl ?_ ?_
  · intro _; simp only [Row.literals, FK.isCode, dst_code_lit, src_code_lit, litCount, RawW.base, List.filter_cons, List.filter_nil, Bool.true_and,
      Bool.false_and, Bool.false_eq_true, if_false]; repeat' split
    all_goals rfl
  · intro l h
    simp only [List.forall_mem_cons, List.not_mem_nil, false_imp_iff, implies_true, and_true] at h
    simp (disch := decide) only [buildInstr, buildGC, RawW.fields, RawW.base, RawW.frame, dstOf_code, h]; rfl
theorem xret f a : Statement (.xret f a) := by
  refine of (g := 12) (m := 5) ⟨0x305, .unused, .op, .unused, .unused, .unused, .zero⟩ [a] rfl (by simp only [RawW.base]; decide) (by simp only [RawW.base]; rfl)
    (by simp only [RawW.base]; rfl) rfl ?_ ?_
  · intro _; simp only [Row.literals, FK.isCode, dst_code_lit, src_code_lit, litCount, RawW.base, List.filter_cons, List.filter_nil, Bool.true_and,
      Bool.false_and, Bool.false_eq_true, if_false]; repeat' split
    all_goals rfl
  · intro l h
    rw [List.forall_mem_singleton] at h
    simp (disch := decide) only [buildInstr, buildGC, RawW.fields, RawW.base, RawW.frame, h]
theorem barsave f o : Statement (.barsave f o) := by
  refine of (g := 12) (m := 6) ⟨0x306, .op, .op, .op, .unused, .unused, .zero⟩ [o.a, o.b] rfl (by simp only [RawW.base]; decide) (by simp only [RawW.base]; rfl)
    (by simp only [RawW.base]; rfl) rfl ?_ ?_
  · intro _; simp only [Row.literals, FK.isCode, dst_code_lit, src_code_lit, litCount, RawW.base, List.filter_cons, List.filter_nil, Bool.true_and,
      Bool.false_and, Bool.false_eq_true, if_false]; repeat' split
    all_goals rfl
  · intro l h
    simp only [List.forall_mem_cons, List.not_mem_nil, false_imp_iff, implies_true, and_true] at h
    simp (disch := decide) only [buildInstr, buildGC, RawW.fields, RawW.base, RawW.frame, dstOf_code, h]
theorem barrest f o : Statement (.barrest f o) := by
  refine of (g := 12) (m := 7) ⟨0x307, .op, .op, .op, .unused, .unused, .zero⟩ [o.a, o.b] rfl (by simp only [RawW.base]; decide) (by simp only [RawW.base]; rfl)
    (by simp only [RawW.base]; rfl) rfl ?_ ?_
  · intro _; simp only [Row.literals, FK.isCode, dst_code_lit, src_code_lit, litCount, RawW.base, List.filter_cons, List.filter_nil, Bool.true_and,
      Bool.false_and, Bool.false_eq_true, if_false]; repeat' split
    all_goals rfl
  · intro l h
    simp only [List.forall_mem_cons, List.not_mem_nil, false_imp_iff, implies_true, and_true] at h
    simp (disch := decide) only [buildInstr, buildGC, RawW.fields, RawW.base, RawW.frame, dstOf_code, h]
theorem tlbinv f sc o : Statement (.tlbinv f sc o) := by
  refine of (g := 12) (m := 8) ⟨0x308, .unused, .op, .op, .unused, .unused, .tlbScope⟩ [o.a, o.b] rfl (by simp only [RawW.base]; decide) (by simp only [RawW.base]; rfl)
    (by simp only [RawW.base]; rfl) rfl ?_ ?_
  · intro _; simp only [Row.literals, FK.isCode, dst_code_lit, src_code_lit, litCount, RawW.base, List.filter_cons, List.filter_nil, Bool.true_and,
      Bool.false_and, Bool.false_eq_true, if_false]; repeat' split
    all_goals rfl
  · intro l h
    simp only [List.forall_mem_cons, List.not_mem_nil, false_imp_iff, implies_true, and_true] at h
    simp (disch := decide) only [buildInstr, buildGC, RawW.fields, RawW.base, RawW.frame, h, scopeField, Option.map_some]
theorem mapset f o : Statement (.mapset f o) := by
  refine of (g := 12) (m := 9) ⟨0x309, .op, .op, .op, .unused, .unused, .zero⟩ [o.a, o.b] rfl (by simp only [RawW.base]; decide) (by simp only [RawW.base]; rfl)
    (by simp only [RawW.base]; rfl) rfl ?_ ?_
  · intro _; simp only [Row.literals, FK.isCode, dst_code_lit, src_code_lit, litCount, RawW.base, List.filter_cons, List.filter_nil, Bool.true_and,
      Bool.false_and, Bool.false_eq_true, if_false]; repeat' split
    all_goals rfl
  · intro l h
    simp only [List.forall_mem_cons, List.not_mem_nil, false_imp_iff, implies_true, and_true] at h
    simp (disch := decide) only [buildInstr, buildGC, RawW.fields, RawW.base, RawW.frame, dstOf_code, h, Option.map_some]
theorem selftest f o : Statement (.selftest f o) := by
  refine of (g := 12) (m := 10) ⟨0x30a, .op, .op, .unused, .unused, .unused, .zero⟩ [o.a] rfl (by simp only [RawW.base]; decide) (by simp only [RawW.base]; rfl)
    (by simp only [RawW.base]; rfl) rfl ?_ ?_
  · intro _; simp only [Row.literals, FK.isCode, dst_code_lit, src_code_lit, litCount, RawW.base, List.filter_cons, List.filter_nil, Bool.true_and,
      Bool.false_and, Bool.false_eq_true, if_false]; repeat' split
    all_goals rfl
  · intro l h
    rw [List.forall_mem_singleton] at h
    simp (disch := decide) only [buildInstr, buildGC, RawW.fields, RawW.base, RawW.frame, dstOf_code, h]
theorem errrd f o : Statement (.errrd f o) := by
  refine of (g := 12) (m := 11) ⟨0x30b, .op, .op, .op, .unused, .unused, .zero⟩ [o.a, o.b] rfl (by simp only [RawW.base]; decide) (by simp only [RawW.base]; rfl)
    (by simp only [RawW.base]; rfl) rfl ?_ ?_
  · intro _; simp only [Row.literals, FK.isCode, dst_code_lit, src_code_lit, litCount, RawW.base, List.filter_cons, List.filter_nil, Bool.true_and,
      Bool.false_and, Bool.false_eq_true, if_false]; repeat' split
    all_goals rfl
  · intro l h
    simp only [List.forall_mem_cons, List.not_mem_nil, false_imp_iff, implies_true, and_true] at h
    simp (disch := decide) only [buildInstr, buildGC, RawW.fields, RawW.base, RawW.frame, dstOf_code, h]
theorem featrd f o : Statement (.featrd f o) := by
  refine of (g := 12) (m := 12) ⟨0x30c, .op, .op, .unused, .unused, .unused, .zero⟩ [o.a] rfl (by simp only [RawW.base]; decide) (by simp only [RawW.base]; rfl)
    (by simp only [RawW.base]; rfl) rfl ?_ ?_
  · intro _; simp only [Row.literals, FK.isCode, dst_code_lit, src_code_lit, litCount, RawW.base, List.filter_cons, List.filter_nil, Bool.true_and,
      Bool.false_and, Bool.false_eq_true, if_false]; repeat' split
    all_goals rfl
  · intro l h
    rw [List.forall_mem_singleton] at h
    simp (disch := decide) only [buildInstr, buildGC, RawW.fields, RawW.base, RawW.frame, dstOf_code, h]
theorem ctxswCreate f o : Statement (.ctxswCreate f o) := by
  refine of (g := 12) (m := 13) ⟨0x30d, .op, .op, .op, .unused, .raw 7, .zero⟩ [o.a, o.b] rfl (by simp only [RawW.base]; decide) (by simp only [RawW.base]; rfl)
    (by simp only [RawW.base]; rfl) rfl ?_ ?_
  · intro _; simp only [Row.literals, FK.isCode, dst_code_lit, src_code_lit, litCount, RawW.base, List.filter_cons, List.filter_nil, Bool.true_and,
      Bool.false_and, Bool.false_eq_true, if_false]; repeat' split
    all_goals rfl
  · intro l h
    simp only [List.forall_mem_cons, List.not_mem_nil, false_imp_iff, implies_true, and_true] at h
    simp (disch := decide) only [buildInstr, buildGC, RawW.fields, RawW.base, RawW.frame, dstOf_code, h]; rfl
theorem ctxswDestroy f o : Statement (.ctxswDestroy f o) := by
  refine of (g := 12) (m := 13) ⟨0x30d, .op, .op, .op, .unused, .raw 7, .zero⟩ [o.a, o.b] rfl (by simp only [RawW.base]; decide) (by simp only [RawW.base]; rfl)
    (by simp only [RawW.base]; rfl) rfl ?_ ?_
  · intro _; simp only [Row.literals, FK.isCode, dst_code_lit, src_code_lit, litCount, RawW.base, List.filter_cons, List.filter_nil, Bool.true_and,
      Bool.false_and, Bool.false_eq_true, if_false]; repeat' split
    all_goals rfl
  · intro l h
    simp only [List.forall_mem_cons, List.not_mem_nil, false_imp_iff, implies_true, and_true] at h
    simp (disch := decide) only [buildInstr, buildGC, RawW.fields, RawW.base, RawW.frame, dstOf_code, h]; rfl
theorem ctxswPreempt f o : Statement (.ctxswPreempt f o) := by
  refine of (g := 12) (m := 13) ⟨0x30d, .op, .op, .op, .unused, .raw 7, .zero⟩ [o.a, o.b] rfl (by simp only [RawW.base]; decide) (by simp only [RawW.base]; rfl)
    (by simp only [RawW.base]; rfl) rfl ?_ ?_
  · intro _; simp only [Row.literals, FK.isCode, dst_code_lit, src_code_lit, litCount, RawW.base, List.filter_cons, List.filter_nil, Bool.true_and,
      Bool.false_and, Bool.false_eq_true, if_false]; repeat' split
    all_goals rfl
  · intro l h
    simp only [List.forall_mem_cons, List.not_mem_nil, false_imp_iff, implies_true, and_true] at h
    simp (disch := decide) only [buildInstr, buildGC, RawW.fields, RawW.base, RawW.frame, dstOf_code, h]; rfl
theorem ctxswResume f o : Statement (.ctxswResume f o) := by
  refine of (g := 12) (m := 13) ⟨0x30d, .op, .op, .op, .unused, .raw 7, .zero⟩ [o.a, o.b] rfl (by simp only [RawW.base]; decide) (by simp only [RawW.base]; rfl)
    (by simp only [RawW.base]; rfl) rfl ?_ ?_
  · intro _; simp only [Row.literals, FK.isCode, dst_code_lit, src_code_lit, litCount, RawW.base, List.filter_cons, List.filter_nil, Bool.true_and,
      Bool.false_and, Bool.false_eq_true, if_false]; repeat' split
    all_goals rfl
  · intro l h
    simp only [List.forall_mem_cons, List.not_mem_nil, false_imp_iff, implies_true, and_true] at h
    simp (disch := decide) only [buildInstr, buildGC, RawW.fields, RawW.base, RawW.frame, dstOf_code, h]; rfl
theorem ixset f ix a : Statement (.ixset f ix a) := by
  refine of (g := 13) (m := 0) ⟨0x340, .raw 7, .op, .unused, .unused, .unused, .zero⟩ [a] rfl (by simp only [RawW.base]; decide) (by simp only [RawW.base]; rfl)
    (by simp only [RawW.base]; rfl) rfl ?_ ?_
  · intro _; simp only [Row.literals, FK.isCode, dst_code_lit, src_code_lit, litCount, RawW.base, List.filter_cons, List.filter_nil, Bool.true_and,
      Bool.false_and, Bool.false_eq_true, if_false]; repeat' split
    all_goals rfl
  · intro l h
    rw [List.forall_mem_singleton] at h
    simp (disch := decide) only [buildInstr, buildGD, RawW.fields, RawW.base, RawW.frame, h, narrow]
theorem ixget f d ix : Statement (.ixget f d ix) := by
  refine of (g := 13) (m := 1) ⟨0x341, .op, .raw 7, .unused, .unused, .unused, .zero⟩ [] rfl (by simp only [RawW.base]; decide) (by simp only [RawW.base]; rfl)
    (by simp only [RawW.base]; rfl) rfl ?_ ?_
  · intro _; simp only [Row.literals, FK.isCode, dst_code_lit, src_code_lit, litCount, RawW.base, List.filter_cons, List.filter_nil, Bool.true_and,
      Bool.false_and, Bool.false_eq_true, if_false]; repeat' split
    all_goals rfl
  · intro l h
    simp (disch := decide) only [buildInstr, buildGD, RawW.fields, RawW.base, RawW.frame, dstOf_code, narrow]
theorem ixadv f ix a ew : Statement (.ixadv f ix a ew) := by
  refine of (g := 13) (m := 2) ⟨0x342, .raw 7, .op, .raw 3, .unused, .unused, .zero⟩ [a] rfl (by simp only [RawW.base]; decide) (by simp only [RawW.base]; rfl)
    (by simp only [RawW.base]; rfl) rfl ?_ ?_
  · intro _; simp only [Row.literals, FK.isCode, dst_code_lit, src_code_lit, litCount, RawW.base, List.filter_cons, List.filter_nil, Bool.true_and,
      Bool.false_and, Bool.false_eq_true, if_false]; repeat' split
    all_goals rfl
  · intro l h
    rw [List.forall_mem_singleton] at h
    simp (disch := decide) only [buildInstr, buildGD, RawW.fields, RawW.base, RawW.frame, h, widthOf_widthBits, narrow]
theorem xacq f : Statement (.xacq f) := by
  refine of (g := 13) (m := 3) ⟨0x343, .unused, .unused, .unused, .unused, .unused, .zero⟩ [] rfl (by simp only [RawW.base]; decide) (by simp only [RawW.base]; rfl)
    (by simp only [RawW.base]; rfl) rfl ?_ ?_
  · intro _; simp only [Row.literals, FK.isCode, dst_code_lit, src_code_lit, litCount, RawW.base, List.filter_cons, List.filter_nil, Bool.true_and,
      Bool.false_and, Bool.false_eq_true, if_false]; repeat' split
    all_goals rfl
  · intro l h
    simp (disch := decide) only [buildInstr, buildGD, RawW.fields, RawW.base, RawW.frame, ]
theorem xrel f : Statement (.xrel f) := by
  refine of (g := 13) (m := 4) ⟨0x344, .unused, .unused, .unused, .unused, .unused, .zero⟩ [] rfl (by simp only [RawW.base]; decide) (by simp only [RawW.base]; rfl)
    (by simp only [RawW.base]; rfl) rfl ?_ ?_
  · intro _; simp only [Row.literals, FK.isCode, dst_code_lit, src_code_lit, litCount, RawW.base, List.filter_cons, List.filter_nil, Bool.true_and,
      Bool.false_and, Bool.false_eq_true, if_false]; repeat' split
    all_goals rfl
  · intro l h
    simp (disch := decide) only [buildInstr, buildGD, RawW.fields, RawW.base, RawW.frame, ]
theorem xqry f d : Statement (.xqry f d) := by
  refine of (g := 13) (m := 5) ⟨0x345, .op, .unused, .unused, .unused, .unused, .zero⟩ [] rfl (by simp only [RawW.base]; decide) (by simp only [RawW.base]; rfl)
    (by simp only [RawW.base]; rfl) rfl ?_ ?_
  · intro _; simp only [Row.literals, FK.isCode, dst_code_lit, src_code_lit, litCount, RawW.base, List.filter_cons, List.filter_nil, Bool.true_and,
      Bool.false_and, Bool.false_eq_true, if_false]; repeat' split
    all_goals rfl
  · intro l h
    simp (disch := decide) only [buildInstr, buildGD, RawW.fields, RawW.base, RawW.frame, dstOf_code]
theorem illegalInstruction y0 y1 y2 : Statement (.illegalInstruction y0 y1 y2) := event rfl
theorem pipePick y0 y1 y2 : Statement (.pipePick y0 y1 y2) := event rfl
theorem heldRecordWrite y0 : Statement (.heldRecordWrite y0) := event rfl
theorem loadReturn y0 y1 y2 : Statement (.loadReturn y0 y1 y2) := event rfl
theorem storePerform y0 y1 : Statement (.storePerform y0 y1) := event rfl
theorem waitaWake y0 y1 : Statement (.waitaWake y0 y1) := event rfl
theorem waitaTimeout y0 y1 : Statement (.waitaTimeout y0 y1) := event rfl
theorem sleepExpire y0 : Statement (.sleepExpire y0) := event rfl
theorem progressWatchdog y0 y1 : Statement (.progressWatchdog y0 y1) := event rfl
theorem poolDeadlock y0 : Statement (.poolDeadlock y0) := event rfl
theorem resourceRoomResume y0 y1 : Statement (.resourceRoomResume y0 y1) := event rfl
theorem rebalance y0 : Statement (.rebalance y0) := event rfl
theorem launchStart y0 y1 : Statement (.launchStart y0 y1) := event rfl
theorem startBarrierTimeout y0 : Statement (.startBarrierTimeout y0) := event rfl
theorem launchComplete y0 : Statement (.launchComplete y0) := event rfl
theorem lbarRelease y0 y1 : Statement (.lbarRelease y0 y1) := event rfl
theorem treadyComplete y0 y1 : Statement (.treadyComplete y0 y1) := event rfl
theorem twaitComplete y0 y1 : Statement (.twaitComplete y0 y1) := event rfl
theorem copyComplete y0 y1 y2 : Statement (.copyComplete y0 y1 y2) := event rfl
theorem copyFailure y0 y1 y2 : Statement (.copyFailure y0 y1 y2) := event rfl
theorem slabStep y0 y1 : Statement (.slabStep y0 y1) := event rfl
theorem mmacTimeout y0 : Statement (.mmacTimeout y0) := event rfl
theorem epilogueRowStep y0 y1 : Statement (.epilogueRowStep y0 y1) := event rfl
theorem engineArbitrate y0 y1 y2 : Statement (.engineArbitrate y0 y1 y2) := event rfl
theorem chunkData y0 y1 y2 : Statement (.chunkData y0 y1 y2) := event rfl
theorem chunkTriggered y0 y1 y2 : Statement (.chunkTriggered y0 y1 y2) := event rfl
theorem chunkAcknowledgement y0 y1 : Statement (.chunkAcknowledgement y0 y1) := event rfl
theorem barrierToken y0 y1 : Statement (.barrierToken y0 y1) := event rfl
theorem chunkRefusal y0 y1 : Statement (.chunkRefusal y0 y1) := event rfl
theorem collBindTimeout y0 y1 : Statement (.collBindTimeout y0 y1) := event rfl
theorem collMatchTimeout y0 y1 : Statement (.collMatchTimeout y0 y1) := event rfl
theorem ringReform y0 y1 : Statement (.ringReform y0 y1) := event rfl
theorem dataFlit y0 y1 y2 : Statement (.dataFlit y0 y1 y2) := event rfl
theorem linkAck y0 y1 y2 : Statement (.linkAck y0 y1 y2) := event rfl
theorem linkNak y0 y1 y2 : Statement (.linkNak y0 y1 y2) := event rfl
theorem creditFlit y0 y1 y2 : Statement (.creditFlit y0 y1 y2) := event rfl
theorem ackTimer y0 y1 : Statement (.ackTimer y0 y1) := event rfl
theorem retryTimeout y0 y1 : Statement (.retryTimeout y0 y1) := event rfl
theorem laneSpare y0 y1 y2 : Statement (.laneSpare y0 y1 y2) := event rfl
theorem portDown y0 y1 : Statement (.portDown y0 y1) := event rfl
theorem portUp y0 y1 : Statement (.portUp y0 y1) := event rfl
theorem gets y0 y1 : Statement (.gets y0 y1) := event rfl
theorem getm y0 y1 : Statement (.getm y0 y1) := event rfl
theorem getu y0 y1 : Statement (.getu y0 y1) := event rfl
theorem putm y0 y1 : Statement (.putm y0 y1) := event rfl
theorem puto y0 y1 : Statement (.puto y0 y1) := event rfl
theorem putu y0 y1 : Statement (.putu y0 y1) := event rfl
theorem flush y0 y1 : Statement (.flush y0 y1) := event rfl
theorem inv y0 y1 : Statement (.inv y0 y1) := event rfl
theorem fwdgets y0 y1 : Statement (.fwdgets y0 y1) := event rfl
theorem fwdgetm y0 y1 : Statement (.fwdgetm y0 y1) := event rfl
theorem collect y0 y1 : Statement (.collect y0 y1) := event rfl
theorem ack y0 y1 : Statement (.ack y0 y1) := event rfl
theorem data y0 y1 : Statement (.data y0 y1) := event rfl
theorem nakfirewall y0 y1 : Statement (.nakfirewall y0 y1) := event rfl
theorem errsynth y0 y1 : Statement (.errsynth y0 y1) := event rfl
theorem homeDequeueRequest y0 : Statement (.homeDequeueRequest y0) := event rfl
theorem cacheEviction y0 y1 y2 y3 : Statement (.cacheEviction y0 y1 y2 y3) := event rfl
theorem requestTimeout y0 y1 : Statement (.requestTimeout y0 y1) := event rfl
theorem probe y0 y1 y2 : Statement (.probe y0 y1 y2) := event rfl
theorem probeReply y0 y1 y2 : Statement (.probeReply y0 y1 y2) := event rfl
theorem lossDeclare y0 y1 : Statement (.lossDeclare y0 y1) := event rfl
theorem lossNotice y0 y1 y2 : Statement (.lossNotice y0 y1 y2) := event rfl
theorem memoryScrub y0 y1 : Statement (.memoryScrub y0 y1) := event rfl
theorem laneEyeMeasure y0 y1 y2 y3 y4 : Statement (.laneEyeMeasure y0 y1 y2 y3 y4) := event rfl
theorem channelSpared y0 y1 y2 : Statement (.channelSpared y0 y1 y2) := event rfl
theorem regionCompare y0 : Statement (.regionCompare y0) := event rfl
theorem rdmaWrite y0 y1 y2 y3 y4 : Statement (.rdmaWrite y0 y1 y2 y3 y4) := event rfl
theorem rdmaRead y0 y1 y2 y3 y4 : Statement (.rdmaRead y0 y1 y2 y3 y4) := event rfl
theorem compareSwap y0 y1 y2 y3 y4 y5 : Statement (.compareSwap y0 y1 y2 y3 y4 y5) := event rfl
theorem fetchAdd y0 y1 y2 y3 y4 : Statement (.fetchAdd y0 y1 y2 y3 y4) := event rfl
theorem invalidRequest y0 y1 y2 : Statement (.invalidRequest y0 y1 y2) := event rfl
theorem featTakeWrite y0 y1 y2 y3 : Statement (.featTakeWrite y0 y1 y2 y3) := event rfl
theorem featLockWrite y0 y1 y2 : Statement (.featLockWrite y0 y1 y2) := event rfl
theorem attGo y0 y1 y2 : Statement (.attGo y0 y1 y2) := event rfl
theorem cmdFirewallEntry y0 : Statement (.cmdFirewallEntry y0) := event rfl
theorem cmdEgressFilter y0 : Statement (.cmdEgressFilter y0) := event rfl
theorem cmdRateLimiter y0 : Statement (.cmdRateLimiter y0) := event rfl
theorem controlPageWrite y0 y1 y2 y3 : Statement (.controlPageWrite y0 y1 y2 y3) := event rfl
theorem packageReset y0 : Statement (.packageReset y0) := event rfl
theorem powerSample y0 y1 : Statement (.powerSample y0 y1) := event rfl
theorem thermalThrottle y0 y1 : Statement (.thermalThrottle y0 y1) := event rfl
theorem thermalRecover y0 y1 : Statement (.thermalRecover y0 y1) := event rfl
theorem thermalReset y0 y1 : Statement (.thermalReset y0 y1) := event rfl
theorem variableLatencyResult y0 y1 : Statement (.variableLatencyResult y0 y1) := event rfl
theorem selftestResult y0 y1 y2 y3 y4 : Statement (.selftestResult y0 y1 y2 y3 y4) := event rfl
theorem attestationReport y0 : Statement (.attestationReport y0) := event rfl
theorem commandApplied y0 : Statement (.commandApplied y0) := event rfl
theorem launchAnswer y0 : Statement (.launchAnswer y0) := event rfl
theorem tokenAccrual y0 y1 : Statement (.tokenAccrual y0 y1) := event rfl

end Rebuilds

end Sys2Proof.Laws
end

