-- ==== Sys2Proof/Tests/Slice0.lean ====
section
/-! SUPPORT. Tests: words of the spec decode to their instructions, ill-formed terms are refused, one step on small states gives
what the spec's worked examples give, and the hypotheses of every statement are met by concrete states (`witness_…`). -/

set_option Elab.async false

open Sys2Proof Sys2Proof.Machine

namespace Sys2Proof.Tests

/-! ### Small states -/

/-- Thread 0 holds these values in these registers. -/
def setRegs (l : List (Nat × Nat)) (s : State) : State :=
  s.modThr 0 fun t => { t with r := l.foldl (fun r e => r.set (BitVec.ofNat 6 e.1) (BitVec.ofNat 64 e.2)) t.r }

/-- A word of `bits` bits stands at thread 0 of the supervisor's context, which holds `l` in its registers. -/
def at_ (bits w : Nat) (l : List (Nat × Nat)) : State := setRegs l (State.reset.withFetchWord bits w)

/-- The same for an instruction, by its encoding. -/
def on (ins : Instr) (l : List (Nat × Nat)) : State :=
  match encode ins with
  | some (w, some v) => at_ 128 (w.toNat + 2 ^ 64 * v.toNat) l
  | some (w, none) => at_ 64 w.toNat l
  | none => at_ 64 0xB850 l

/-- The next state of an outcome. -/
def next (o : Out) : State := match o with | .next t => t | _ => State.reset

/-- The state after a step. -/
def after (s : State) : State := next (step s)


def reg (s : State) (n : Nat) : Nat := ((s.thr 0).r.newest (BitVec.ofNat 6 n)).toNat
def fault (s : State) : Option Nat := (s.thr 0).stopCode

def fr : Frame := { ga := { p := 7, neg := false }, gb := { p := 7, neg := false }, park := false }
def g (n : BitVec 6) : Src := ⟨.reg n, false⟩
def k (n : Fin 31) : Src := ⟨.imm n, false⟩
def d (n : BitVec 6) : Dst := .reg n

/-! ### A thread that stands at a word with none of the checks of R75 in its way -/

/-- Thread 0 at the word of a state, with what an instruction names. -/
def standAt (s : State) (u : Use) : Stand :=
  let i : Issue := s.iss.getD ⟨0, 0, { ctx := 0, hpc := 0, hdr := 0, words := [], members := [] }⟩
  let r : Resolved :=
    match resolve ((s.modThr 0 fun t => { t with r := t.r.age i.g.wn }).thr 0) u with
    | .ok r => r
    | .error _ => { ix := (s.thr 0).r.ix, srcs := [] }
  ⟨i, 0, frameOf i.g.word, u, r⟩

/-- `Stand.Clear`, decided. -/
def clearB (w : Stand) (s : State) : Bool :=
  decide (s.iss = some w.i) && decide (w.i.g.todo.head? = some w.tk) && decide ((s.thr w.tk).late = [])
    && decide ((w.aged s).decodeFault w.tk w.u = none) && decide ((w.aged s).gangWaits w.i.g.todo w.f w.u = [])
    && decide (framePreds w.f &&& (s.thr w.tk).r.runP = 0)
    && (!w.i.g.tandem || !(w.aged s).tandemArmed w.i)
    && frameOn w.f (s.thr w.tk).r.p
    && (match resolve ((w.aged s).thr w.tk) w.u with | .ok r => decide (r = w.r) | .error _ => false)
    && decide ((w.r.touch w.u w.f).1 &&& (s.thr w.tk).r.runG = 0) && decide ((w.r.touch w.u w.f).2 &&& (s.thr w.tk).r.runP = 0)
    && decide ((w.aged s).poisoned w.tk (w.r.reads w.u) = none)
    && (!w.u.rel || (s.thr w.tk).relReady)
    && (match (w.aged s).pairGate w.tk w.u true w.r (w.vals s) with | .ok _ => true | .error _ => false)

theorem clear_of (w : Stand) (s : State) (h : clearB w s = true) : w.Clear s := by
  simp only [clearB, Bool.and_eq_true, decide_eq_true_eq] at h
  obtain ⟨⟨⟨⟨⟨⟨⟨⟨⟨⟨⟨⟨⟨h1, h2⟩, h3⟩, h4⟩, h5⟩, h6⟩, h7⟩, h8⟩, h9⟩, h10⟩, h11⟩, h12⟩, h13⟩, h14⟩ := h
  refine ⟨h1, h2, h3, h4, h5, h6, fun ht => ?_, h8, ?_, h10, h11, h12, fun hr => ?_, ?_⟩
  · simpa [ht] using h7
  · split at h9
    · rename_i r hr; simp only [decide_eq_true_eq] at h9; rw [hr, h9]
    · cases h9
  · simpa [hr] using h13
  · split at h14
    · rename_i t ht; exact ⟨t, ht⟩
    · cases h14

/-- A thread stands at the word of `s` with what the word names (`u`), with no check in the way. -/
def stands (s : State) (u : Use) : Bool := clearB (standAt s u) s

/-- So the hypotheses `w.u = u` and `w.Clear s` of a statement are met at `s`. -/
theorem stands_clear {s : State} {u : Use} (h : stands s u = true) : ∃ w : Stand, w.u = u ∧ w.Clear s :=
  ⟨standAt s u, rfl, clear_of _ _ h⟩

/-- The same with a further hypothesis on the state that the word acts on and its lane. -/
def meets (s : State) (u : Use) (P : State → Lane → Bool) : Bool :=
  let w := standAt s u
  clearB w s && P (w.begun s) (w.lane s)

theorem meets_clear {s : State} {u : Use} {P : State → Lane → Bool} (h : meets s u P = true) :
    ∃ w : Stand, w.u = u ∧ w.Clear s ∧ P (w.begun s) (w.lane s) = true := by
  simp only [meets, Bool.and_eq_true] at h
  exact ⟨standAt s u, rfl, clear_of _ _ h.1, h.2⟩

/-- What a step leaves in register `n`, where no check is in the way; likewise predicates, a fault, and a wait. -/
def leaves (s : State) (u : Use) (n : Nat) : Option Nat := if stands s u then some (reg (after s) n) else none
def predsOf (s : State) (u : Use) : Option Nat := if stands s u then some ((after s).thr 0).r.p.toNat else none
def trap (s : State) (u : Use) : Option Nat := if stands s u then fault (after s) else none
def waits (s : State) (u : Use) : Bool :=
  stands s u && decide ((((after s).pipe 0 0).parked.map fun g => g.pos) = [0] ∧ ((after s).thr 0).nw = 0)

/-- What a step shows, where no check is in the way. -/
def shows {α : Type} (s : State) (u : Use) (f : State → α) : Option α := if stands s u then some (f (after s)) else none

/-- The same for an instruction, from registers. -/
def gives (ins : Instr) (u : Use) (l : List (Nat × Nat)) (n : Nat) : Option Nat := leaves (on ins l) u n
def tests (ins : Instr) (u : Use) (l : List (Nat × Nat)) : Option Nat := predsOf (on ins l) u
def traps (ins : Instr) (u : Use) (l : List (Nat × Nat)) : Option Nat := trap (on ins l) u

/-- What a word with a pending result has left in register `n` once the result has arrived. -/
def sends (ins : Instr) (u : Use) (l : List (Nat × Nat)) (n : Nat) : Option Nat :=
  let s := after (on ins l)
  match (s.thr 0).pend with
  | [q] => if stands (on ins l) u then some (reg (next (execVariableLatencyResult 0 q.u s)) n) else none
  | _ => none

/-- The page at address 0 maps to itself: readable, writable, executable and RC. -/
def mapped (s : State) : State := s.modCore 0 fun c => { c with tlb := [⟨0, ⟨0x3F, 0, false⟩⟩] }

/-- The thread belongs to a launch on die 0 whose threads have `stackb` bytes of spill area from 0x1000 on. -/
def launched (stackb : Nat) (s : State) : State :=
  (s.setLaunch 1 { handle := 9, ctx := 0, pkg := 0, die := 0, attr := 0, gen := 0, stackb := stackb, stackbase := 0x1000, args := 0, done := 0,
                   stages := [], queues := [], ntid := 1, dies := [{ dk := 0, answered := true, arrived := true, started := true }] }).modThr 0
    fun t => { t with launch := some 1 }

/-- What a word decodes to. -/
def decoded (w : Word) (l : Option Word) : Option Instr := (decode w l).toOption

/-! ### Words written out in the spec -/

/-- 07, 09 and 03: `(p1) IADD.s.sat.b16 g9, g9, g10`, `IADD.b32 g3, g3, #1`, and words of ICMP, BFN3 and MOV. -/
theorem test_decode_integer :
    decoded 0xB000005091238800 none = some (.iadd { fr with ga := ⟨1, false⟩ } ⟨.w16, true, true⟩ ⟨d 9, g 9, g 10⟩)
      ∧ decoded 0x400003803063B800 none = some (.iadd fr ⟨.w32, false, false⟩ ⟨d 3, g 3, k 16⟩)
      ∧ decoded 0x600400284063B853 none = some (.icmp fr ⟨.w32, true, false⟩ 3 ⟨g 4, g 5⟩ .lt false)
      ∧ decoded 0xD01010182023B845 none = some (.bfn3 fr ⟨d 1, g 2, g 3, g 4⟩ 0xD8)
      ∧ decoded 0x5943B813 none = some (.mov fr ⟨.ind 2 true, g 5⟩) := by decide +kernel

theorem test_decode_float_and_convert :
    decoded 0x400400284043B888 none = some (.fcmp fr ⟨.f32, .rne⟩ 2 ⟨g 4, g 5⟩ .lt false)
      ∧ decoded 0x5400244070C39483 none = some (.ffma { fr with ga := ⟨2, false⟩, park := true } ⟨.f32, .rz⟩ ⟨d 6, g 7, g 8, ⟨.reg 9, true⟩⟩)
      ∧ decoded 0x200200386103B8C1 none = some (.cvts fr 2 ⟨d 8, g 6, g 7⟩ 0 1 0) := by decide +kernel

theorem test_decode_group_and_draw :
    decoded 0x400003805083B907 none = some (.shflx fr ⟨.w32, false, false⟩ ⟨d 4, g 5, k 16⟩ 0)
      ∧ decoded 0x100003C05103BAC3 none = some (.gdraw fr true ⟨d 8, g 5, k 24⟩ 0) := by decide +kernel

theorem test_decode_control :
    decoded 0x00FFFFFFFF038940 none = some (.bra { fr with ga := ⟨1, false⟩ } 0x7FFFFFFF8)
      ∧ decoded 0x000000280003BA03 none = some (.barsync fr 5) := by decide +kernel

theorem test_decode_memory :
    decoded 0x4001000040A3B980 none = some (.ld fr ⟨.b4, false⟩ .dflt ⟨d 5, g 4⟩ 0x40)
      ∧ decoded 0x60FFE0304003B981 none = some (.st fr ⟨.b8, false⟩ .dflt ⟨g 4, g 6⟩ 0x3FF8)
      ∧ decoded 0x0004182840E3B9C7 none = some (.acas fr ⟨false, false, false, false⟩ .dflt ⟨d 7, g 4, g 5, g 6⟩ 2)
      ∧ decoded 0xC00200000003B9D0 none = some (.fence fr .rack .dflt .stores)
      ∧ decoded 0x3B9D1 none = some (.sdrain fr .dflt) := by decide +kernel

theorem test_decode_tiles_and_engines :
    decoded 0x000014000003BA42 none = some (.tready fr 5) ∧ decoded 0x000000014123BA82 none = some (.mma fr .dflt ⟨d 9, g 20⟩)
      ∧ decoded 0x00A034B923A3BA85 none = some (.mepi fr .dflt ⟨d 29, g 18, g 23, g 13, ⟨.spec .zero, false⟩⟩)
      ∧ decoded 0x00040E870003BA86 none = some (.tarm fr .dflt ⟨k 16, ⟨.spec .zero, false⟩⟩ 3 2)
      ∧ decoded 0x102E58A94123BA88 none = some (.collBind fr true .dflt ⟨d 9, g 20, g 21, g 22, g 23⟩) := by decide +kernel

theorem test_decode_system_and_registers :
    decoded 0xC00000305003BB08 none = some (.tlbinv fr .rack ⟨g 5, g 6⟩) ∧ decoded 0x000000006083BB00 none = some (.sysrd fr ⟨d 4, g 6⟩)
      ∧ decoded 0x00000006E043BB42 none = some (.ixadv fr 2 (k 14) .w64)
      ∧ decoded 0x00000007F043BB40 (some 0x022C1428) = some (.ixset fr 2 ⟨.lit 0x022C1428, false⟩) := by decide +kernel

/-! ### Terms that no word stands for -/

/-- An event; a refinement; two literals; a destination that is no shared register; a reserved last-use flag; a mask register that
does not exist. -/
theorem test_ill_formed :
    illFormed (.tokenAccrual 0 0) = some .notWord
      ∧ illFormed (.injectWrite fr ⟨g 1, g 2⟩) = some .refined
      ∧ illFormed (.iadd fr ⟨.w64, false, false⟩ ⟨d 1, ⟨.lit 1, false⟩, ⟨.lit 2, false⟩⟩) = some .literal
      ∧ illFormed (.wrfe fr ⟨d 1, g 2⟩) = some .destination
      ∧ illFormed (.mov fr ⟨d 1, ⟨.imm 3, true⟩⟩) = some .reservedField
      ∧ illFormed (.gwait fr 15) = some .selector := by decide +kernel

/-! ### Integer words: worked values of chapter 07 -/

def nine : List (Nat × Nat) := [(9, 0x7FF080000001FFFF), (10, 0x0020FFFF00020001)]

/-- R150, the worked addition; `witness_` names a test that also meets the hypotheses of the statement it names. -/
theorem witness_IntegerElements_two :
    let o : O2 := ⟨d 9, g 9, g 10⟩
    gives (.iadd fr ⟨.w16, true, true⟩ o) (use2 o) nine 9 = some 0x7FFF800000030000
      ∧ gives (.iadd fr ⟨.w16, true, false⟩ o) (use2 o) nine 9 = some 0x80107FFF00030000
      ∧ gives (.iadd fr ⟨.w16, false, true⟩ o) (use2 o) nine 9 = some 0x8010FFFF0003FFFF
      ∧ gives (.iadd fr ⟨.w64, false, false⟩ o) (use2 o) nine 9 = some 0x80117FFF00040000
      ∧ gives (.iadds fr ⟨.w16, true, false⟩ o 4) { use2 o with pw := predBit 4 } nine 9 = some 0x80107FFF00030000
      ∧ tests (.iadds fr ⟨.w16, true, false⟩ o 4) { use2 o with pw := predBit 4 } nine = some 16 := by decide +kernel

/-- R152, the table: by 2, by -1, and by 0. -/
theorem test_division :
    let o : O2 := ⟨d 1, g 2, g 3⟩
    gives (.idiv fr ⟨.w32, true, false⟩ o) (use2 o) [(2, 0x80000000FFFFFFF9), (3, 0xFFFFFFFF00000002)] 1 = some 0x80000000FFFFFFFD
      ∧ gives (.irem fr ⟨.w32, true, false⟩ o) (use2 o) [(2, 0x80000000FFFFFFF9), (3, 0xFFFFFFFF00000002)] 1 = some 0xFFFFFFFF
      ∧ gives (.idiv fr ⟨.w32, false, false⟩ o) (use2 o) [(2, 0x00000005FFFFFFF9), (3, 2)] 1 = some 0xFFFFFFFF7FFFFFFC
      ∧ gives (.irem fr ⟨.w32, true, false⟩ o) (use2 o) [(2, 0xFFFFFFFB), (3, 0)] 1 = some 0xFFFFFFFB := by decide +kernel

theorem witness_IntegerElements_one_and_three :
    let o : O1 := ⟨d 1, g 2⟩
    let q : O3 := ⟨d 1, g 2, g 3, g 4⟩
    gives (.iabs fr ⟨.w32, true, true⟩ o) (use1 o) [(2, 0x80000000FFFFFFFE)] 1 = some 0x7FFFFFFF00000002
      ∧ gives (.ineg fr ⟨.w32, false, true⟩ o) (use1 o) [(2, 5)] 1 = some 0
      ∧ gives (.iclamp fr ⟨.w64, true, false⟩ q) (use3 q) [(2, 7), (3, 9), (4, 5)] 1 = some 5
      ∧ gives (.isad fr ⟨.w64, true, false⟩ q) (use3 q) [(2, 2), (3, 7), (4, 1)] 1 = some 6 := by decide +kernel

/-- R151, the example of IMADW; R150, the two words of a 128-bit addition. -/
theorem witness_ProductsAndStatus :
    let q : O3 := ⟨d 1, g 2, g 3, k 25⟩
    let o : O2 := ⟨d 5, g 1, g 3⟩
    let u : Use := { use2 o with pr := predBit 7, pw := predBit 1 }
    let l := [(1, 0xFFFFFFFFFFFFFFFF), (3, 1)]
    gives (.imadw fr ⟨.w32, true, false⟩ q) (use3 q) [(2, 0xFFFFFFFF00000003), (3, 0x0000000200000004)] 1 = some 22
      ∧ gives (.imadw fr ⟨.w32, true, true⟩ q) (use3 q) [(2, 0xFFFFFFFF00000003), (3, 0x0000000200000004)] 1 = some 8
      ∧ gives (.iaddc fr ⟨.w64, false, false⟩ o ⟨7, true⟩ 1) u l 5 = some 0
      ∧ tests (.iaddc fr ⟨.w64, false, false⟩ o ⟨7, true⟩ 1) u l = some 2 := by decide +kernel

theorem witness_MovesAndLogic :
    let o : O2 := ⟨d 1, g 2, g 3⟩
    let q : O3 := ⟨d 1, g 2, g 3, g 4⟩
    gives (.mov fr ⟨d 1, g 2⟩) (use1 ⟨d 1, g 2⟩) [(2, 7)] 1 = some 7
      ∧ gives (.movi fr ⟨.w16, true, false⟩ (d 2) 0xFFFFFFE) { dst := some (d 2) } [] 2 = some 0xFFFEFFFEFFFEFFFE
      ∧ gives (.lea fr o 63) (use2 o) [(2, 5), (3, 3)] 1 = some 0x8000000000000005
      ∧ gives (.sel fr o ⟨7, true⟩) { use2 o with pr := predBit 7 } [(2, 5), (3, 3)] 1 = some 3
      ∧ gives (.andn fr o) (use2 o) [(2, 0xFF), (3, 0x0F)] 1 = some 0xF0
      ∧ gives (.not fr ⟨d 1, g 2⟩) (use1 ⟨d 1, g 2⟩) [(2, 0xFF)] 1 = some 0xFFFFFFFFFFFFFF00
      ∧ gives (.bfn3 fr q 0xD8) (use3 q) [(2, 0xF0F0), (3, 0xFF00), (4, 0x00FF)] 1 = some 0xF00F := by decide +kernel

/-- R157 at an amount of the width, and R158 to R160 with the worked values of chapter 07. -/
theorem witness_Shifts :
    let o : O2 := ⟨d 1, g 2, g 3⟩
    let q : O3 := ⟨d 1, g 2, g 3, g 4⟩
    gives (.shl fr ⟨.w32, false, false⟩ o) (use2 o) [(2, 0x0000000180000001), (3, 0x0000001F00000020)] 1 = some 0x8000000000000000
      ∧ gives (.sar fr ⟨.w32, false, false⟩ o) (use2 o) [(2, 0x80000000FFFFFFF0), (3, 0x0000002000000002)] 1 = some 0xFFFFFFFFFFFFFFFC
      ∧ gives (.rol fr ⟨.w8, false, false⟩ o) (use2 o) [(2, 0x81), (3, 9)] 1 = some 0x03
      ∧ gives (.fshf fr ⟨.w8, false, false⟩ q) (use3 q) [(2, 0x12), (3, 0x34), (4, 12)] 1 = some 0x23 := by decide +kernel

theorem witness_BitFields :
    let o : O1 := ⟨d 1, g 2⟩
    let q : O3 := ⟨d 1, g 2, k 19, k 23⟩
    let p : O3 := ⟨d 1, g 2, g 3, g 4⟩
    let e : O4 := ⟨d 1, g 2, g 3, g 4, g 5⟩
    gives (.clz fr ⟨.w32, false, false⟩ o) (use1 o) [(2, 0x0000000100000000)] 1 = some 0x0000001F00000020
      ∧ gives (.brev fr ⟨.w8, false, false⟩ o) (use1 o) [(2, 0x01)] 1 = some 0x80
      ∧ gives (.bfx fr ⟨.w64, true, false⟩ q) (use3 q) [(2, 0xF80)] 1 = some 0xFFFFFFFFFFFFFFF8
      ∧ gives (.bfi fr ⟨.w64, false, false⟩ e) (use4 e) [(2, 0xFFFF), (3, 0), (4, 4), (5, 8)] 1 = some 0xF00F
      ∧ gives (.prmb fr p) (use3 p) [(2, 0x0102030405060708), (4, 0xFFFFFFFF01234567)] 1 = some 0x0807060504030201 := by decide +kernel

theorem witness_Predicates :
    let o : S2 := ⟨g 4, g 5⟩
    let l := [(4, 0x00000001FFFFFFFF), (5, 0x0000000200000001)]
    tests (.icmp fr ⟨.w32, true, false⟩ 3 o .lt false) { useS2 o with pw := predBit 3 } l = some 8
      ∧ tests (.icmp fr ⟨.w32, false, false⟩ 3 o .lt false) { useS2 o with pw := predBit 3 } l = some 0
      ∧ tests (.icmp fr ⟨.w32, false, false⟩ 3 o .lt true) { useS2 o with pw := predBit 3 } l = some 8
      ∧ tests (.fcmp fr ⟨.f32, .rne⟩ 2 o .ne true) { useS2 o with pw := predBit 2 } [(4, 0x7FC00000), (5, 0x7FC00000)] = some 4
      ∧ tests (.pset fr 2 7 3 4) { pr := predBit 7 ||| predBit 3, pw := predBit 2 } [] = some 4
      ∧ gives (.pmov fr ⟨d 1, g 0⟩ 0 false) { dst := some (d 1), pr := 0x7F } [] 1 = some 128
      ∧ tests (.pmov fr ⟨d 0, g 4⟩ 0x41 true) { src := [(0, g 4)], pw := 0x41 } [(4, 0x7F)] = some 0x41 := by decide +kernel

/-! ### Floating point and conversions: worked values of chapters 08 and 02 -/

theorem witness_FloatElements :
    let o : O2 := ⟨d 1, g 2, g 3⟩
    let q : O3 := ⟨d 1, g 2, g 3, g 4⟩
    gives (.fadd fr ⟨.f32, .rne⟩ o) (use2 o) [(2, 0x3F8000003F800000), (3, 0x7F80000033800000)] 1 = some 0x7F8000003F800000
      ∧ gives (.fmul fr ⟨.f32, .rd⟩ o) (use2 o) [(2, 0x7F800000), (3, 0)] 1 = some 0x7FC00004
      ∧ gives (.fmin fr ⟨.f32, .rne⟩ o) (use2 o) [(2, 0), (3, 0x80000000)] 1 = some 0x80000000
      ∧ gives (.frnd fr ⟨.f32, .ru⟩ ⟨d 1, g 2⟩) (use1 ⟨d 1, g 2⟩) [(2, 0xBE800000)] 1 = some 0x80000000
      ∧ gives (.fclass fr ⟨.f32, .rne⟩ ⟨d 1, g 2⟩) (use1 ⟨d 1, g 2⟩) [(2, 0xFF80000080000001)] 1 = some 0x0000000100000004
      ∧ gives (.ffma fr ⟨.f64, .rne⟩ q) (use3 q) [(2, 0x4008000000000000), (3, 0x4000000000000000), (4, 0xBFF0000000000000)] 1
        = some 0x4014000000000000 := by decide +kernel

/-- R174: 1/3 (R46), 4 ^ (1/2), and a negative argument. -/
theorem witness_SpecialFunctions :
    let o : O2 := ⟨d 7, g 9, g 8⟩
    sends (.frcp fr ⟨.f32, .rne⟩ ⟨d 7, g 9⟩) { use1 ⟨d 7, g 9⟩ with vl := true } [(9, 0x4040000040400000)] 7 = some 0x3EAAAAAB3EAAAAAB
      ∧ sends (.fsqrt fr ⟨.f32, .rne⟩ ⟨d 7, g 9⟩) { use1 ⟨d 7, g 9⟩ with vl := true } [(9, 0xBF80000040800000)] 7 = some 0x7FC0000540000000
      ∧ sends (.fdiv fr ⟨.f32, .rne⟩ o) { use2 o with vl := true } [(9, 0x3F800000C0000000), (8, 0)] 7 = some 0x7F800000FF800000 := by
  decide +kernel

/-- R49: the worked merge's 2^-1 and log2 1.5. -/
theorem test_exponential_and_logarithm :
    sends (.fex2 fr ⟨.f32, .rne⟩ ⟨d 7, g 9⟩) { use1 ⟨d 7, g 9⟩ with vl := true } [(9, 0xBF800000)] 7 = some 0x3F8000003F000000
      ∧ sends (.flg2p fr ⟨.f32, .rne⟩ ⟨d 7, g 9⟩) { use1 ⟨d 7, g 9⟩ with vl := true } [(9, 0x3F000000)] 7 = some 0x3F15C01A := by
  decide +kernel

/-- R178, the two roundings of R46; a widening and a narrowing of integers (R181, R182). -/
theorem witness_Conversions :
    let o : O2 := ⟨d 8, g 6, g 7⟩
    let c : O1 := ⟨d 8, g 6⟩
    gives (.cvts fr 2 o 0 1 0) (useD (use2 o)) [(6, 0x4040C000), (7, 0x3EAAAAAB3EAAAAAB)] 8 = some 0x3F81
      ∧ gives (.cvt fr 1 o 0 0 1) (useD (use2 o)) [(6, 0x3FF0000000000000), (7, 1), (8, 0x11)] 8 = some 0x4000000000000011
      ∧ gives (.packn fr 0xA o 4 0xB 0) (useD (use2 o)) [(6, 0x00010080FF7FFFFF), (7, 2)] 8 = some 0x00000002017F80FF
      ∧ gives (.unpack fr 0xB c 0 0xA 1) (use1 c) [(6, 0x80FFFFFF00000000)] 8 = some 0xFF80FFFFFFFFFFFF := by decide +kernel

/-- R183 to R185, the worked BX4 block; and a scale operand that is the destination. -/
theorem witness_Blocks :
    let o : O2 := ⟨d 12, g 13, g 11⟩
    let x : O2 := ⟨d 14, g 12, g 11⟩
    let b : O2 := ⟨d 12, g 13, g 12⟩
    gives (.sclx fr ⟨d 11, g 10⟩ 7 0) { useD (use1 ⟨d 11, g 10⟩) with feat := some 3 } [(10, 0x40400000)] 11 = some 0x80
      ∧ gives (.bxpack fr 7 o 0 1 0) { useD (use2 o) with feat := some 3 } [(13, 0x3EC03F80BF004040), (11, 0x80)] 12 = some 0x2496
      ∧ gives (.bxpack fr 7 o 0 1 0) { useD (use2 o) with feat := some 3 } [(13, 0x3EC03F80BF004040), (11, 0x80)] 11 = some 0x0280
      ∧ gives (.bxunp fr 7 x 0 1 0) { use2 x with feat := some 3 } [(12, 0x2496), (11, 0x0280)] 14 = some 0x3F003F80BF004040
      ∧ traps (.bxpack fr 7 b 0 1 0) { useD (use2 b) with feat := some 3 } [] = some 2 := by decide +kernel

/-- R186 at the last mask in range and the first beyond it; R187. -/
theorem witness_ConversionModes :
    let o : O2 := ⟨d 1, g 2, g 3⟩
    gives (.cmode fr o) (use2 o) [(2, 0xFF), (3, 0xFFFFFF)] 1 = some 0
      ∧ ((after (on (.cmode fr o) [(2, 0xFF), (3, 0xFFFFFF)])).thr 0).cvmode = 0xFF
      ∧ traps (.cmode fr o) (use2 o) [(2, 0xFF), (3, 0x1000000)] = some 2
      ∧ gives (.nanct fr (d 1)) { dst := some (d 1), feat := some 15 } [(1, 9)] 1 = some 0 := by decide +kernel

/-! ### Groups (R189 to R206) -/

/-- Thread 0 at rank 2 of a group of two, whose mask registers hold `m`. -/
def grouped (m : Word) (s : State) : State :=
  (s.modThr 0 fun t => { t with grp := some (4, 7, 2) }).modCore 0 fun c =>
    { c with grps := [(4, { ctx := 0, key := 9, cap := 4, serial := 7, ranks := [(1, 5), (2, 0)], masks := Vector.replicate 12 { cur := m } })] }

def crowd (cap : Nat) (ranks : List Nat) (s : State) : State :=
  s.modCore 0 fun c => { c with grps := [(0, { ctx := 0, key := 9, cap := cap, serial := 3, ranks := ranks.map fun r => (r, 5 + r) })] }

/-- R198 at each of its cases and at the ends of the range of capacities: a new group, a live one, a full one, a full table, a
member's repeated join with its key and with another, capacities 0, 1, 32 and 33. -/
theorem witness_GroupMembership_join :
    let o : O2 := ⟨d 1, g 2, g 3⟩
    let s (cap : Nat) : State := on (.gjoin fr o) [(2, 9), (3, cap)]
    trap (s 0) (use2 o) = some 0x17 ∧ trap (s 33) (use2 o) = some 0x17
      ∧ leaves (s 1) (use2 o) 1 = some 0x10000000100 ∧ leaves (s 32) (use2 o) 1 = some 0x10000000100
      ∧ leaves (crowd 2 [0] (s 2)) (use2 o) 1 = some 0x100000300
      ∧ leaves (crowd 3 [0, 2] (s 2)) (use2 o) 1 = some 0x100000300
      ∧ leaves (crowd 2 [0, 1] (s 2)) (use2 o) 1 = some 0x20000000000
      ∧ leaves (grouped 0 (s 2)) (use2 o) 1 = some 0x200000704
      ∧ trap (setRegs [(2, 8)] (grouped 0 (s 2))) (use2 o) = some 0x17 := by decide +kernel

theorem witness_GroupMembership_full_table_and_leave :
    let o : O2 := ⟨d 1, g 2, g 3⟩
    let s := (on (.gjoin fr o) [(2, 9), (3, 1)]).modCore 0 fun c =>
      { c with grps := (List.range 256).map fun e => (e, { ctx := 0, key := 1000 + BitVec.ofNat 32 e, cap := 1, serial := 1, ranks := [(0, 9)] }) }
    leaves s (use2 o) 1 = some 0x30000000000
      ∧ shows (grouped 0 (on (.gleave fr) [])) {} (fun s => ((s.thr 0).grp, (s.grpAt 0 4).map (·.ranks))) = some (none, some [(1, 5)]) := by
  decide +kernel

/-- R200 to R202 in a group and in none. -/
theorem witness_MaskWords_in_no_group :
    trap (on (.gwait fr 0) []) { rel := true } = some 0x17
      ∧ trap (on (.gvote fr 0 ⟨7, false⟩) []) { pr := predBit 7 } = some 0x17
      ∧ trap (on (.mskop fr .and 0 1 2) []) {} = some 0x17
      ∧ trap (on (.mskmov fr ⟨d 0, g 2⟩ 0 true) []) { src := [(0, g 2)] } = some 0x17
      ∧ trap (on (.mskmov fr ⟨d 1, g 0⟩ 0 false) []) { dst := some (d 1) } = some 0x17
      ∧ leaves (on (.ginfo fr (d 1)) [(1, 5)]) { dst := some (d 1) } 1 = some 0 := by decide +kernel

theorem witness_MaskWords_of_a_member :
    let mask (i : Nat) (s : State) : Option Nat := (s.grpAt 0 4).map fun g => (g.stamp i).cur.toNat
    trap (grouped 0 (on (.gwait fr 0) [])) { rel := true } = some 0x17
      ∧ shows (grouped 6 (on (.gwait fr 11) [])) { rel := true } (fun s => (s.grpAt 0 4).map fun g => g.arr 11) = some (some 4)
      ∧ shows (grouped 0 (on (.gvote fr 11 ⟨7, false⟩) [])) { pr := predBit 7 } (mask 11) = some (some 4)
      ∧ shows (grouped 6 (on (.mskop fr .not 0 11 0) [])) {} (mask 0) = some (some 0xFFFFFFF9)
      ∧ shows (grouped 6 (on (.mskmov fr ⟨d 0, g 2⟩ 0 true) [(2, 3)])) { src := [(0, g 2)] } (mask 0) = some (some 3)
      ∧ leaves (grouped 6 (on (.mskmov fr ⟨d 1, g 0⟩ 0 false) [])) { dst := some (d 1) } 1 = some 6
      ∧ leaves (grouped 6 (on (.ginfo fr (d 1)) [])) { dst := some (d 1) } 1 = some 0x0004020200000006 := by decide +kernel

/-- R193 to R195: a participant, a member outside the mask, a thread of no group. -/
theorem witness_Exchanges :
    let o : O2 := ⟨d 4, g 5, k 16⟩
    let q : O1 := ⟨d 4, g 5⟩
    let u : Use := { use2 o with vl := true }
    shows (grouped 6 (on (.shflx fr ⟨.w32, false, false⟩ o 0) [(5, 3)])) u (fun s => ((s.thr 0).arr.isSome, (s.thr 0).hold)) = some (true, true)
      ∧ trap (grouped 2 (on (.shflx fr ⟨.w32, false, false⟩ o 0) [])) u = some 0x17
      ∧ trap (on (.shflx fr ⟨.w32, false, false⟩ o 0) []) u = some 0x17
      ∧ shows (grouped 6 (on (.gred fr .add64 q 11) [])) { use1 q with vl := true } (fun s => (s.thr 0).hold) = some true
      ∧ shows (grouped 6 (on (.gdraw fr true o 0) [])) { use2 o with feat := some 2, vl := true } (fun s => (s.thr 0).hold) = some true := by
  decide +kernel

/-- A rank alone among the participants: the exchange performs at its issue, and its result arrives. -/
theorem test_exchange_of_one_rank :
    let q : O1 := ⟨d 4, g 5⟩
    let s := after (grouped 4 (on (.gred fr .add64 q 0) [(5, 3)]))
    ((s.thr 0).pend.map fun q => reg (next (execVariableLatencyResult 0 q.u s)) 4) = [3] := by decide +kernel

def part (rank a b : Nat) : Part1 := ⟨rank, .word (BitVec.ofNat 64 a), .word (BitVec.ofNat 64 b), none⟩

/-- R203 to R206: a shuffle with an absent source, the worked compaction, and MATCH, on the ranks of the worked compaction. -/
theorem witness_ExchangeResults :
    let l := [part 0 0x0000000B0000000A 2, part 1 0x0000001500000014 0, part 2 0x0000001F0000001E 3, part 3 0x0000002900000028 1]
    let me := part 0 0x0000000B0000000A 2
    ((l.map (·.rank)).Pairwise (· < ·) ∧ me ∈ l ∧ (∀ p ∈ l, p.rank < 32))
      ∧ shfldnV l me 64 = 0x0000001F0000001E ∧ shflupV l me 64 = 0x0000000B0000000A ∧ shflxV l me 64 = 0x0000001F0000001E
      ∧ (l.map fun p => compressV l p 32) = [0x0000001E0000000B, 0x000000280000001F, 0, 0]
      ∧ matchV l me 64 = 1 ∧ gredV .add64 l = 0x0000006800000064 ∧ gscanV .add64 l 1 = 0x000000200000001E := by decide +kernel

/-! ### Control (R113 to R122) -/

def onThr (f : Thread → Thread) (s : State) : State := s.modThr 0 f
def onCore (f : Core → Core) (s : State) : State := s.modCore 0 f
def onCtx (f : Ctx → Ctx) (s : State) : State := s.setCtx 0 0 (f (s.ctx 0 0))
def stackOf (n : Nat) (s : State) : State := onThr (fun t => { t with stack := (List.range n).map fun i => BitVec.ofNat 64 (0x400 + 8 * i) }) s
def pcOf (s : State) : Nat := (s.thr 0).pc.toNat

/-- R118: a branch back by 8 words, an indirect branch to an aligned and a misaligned place, a loop that goes on and one that ends. -/
theorem witness_Branches_and_loop :
    let x := g 2
    let u : Use := { src := [(0, x)] }
    let s := onThr (fun t => { t with hpc := 0x100, pc := 0x108 }) (on (.bra fr 0x7FFFFFFF8) [])
    let s : State := { s with iss := s.iss.map fun i => { i with g := { i.g with hpc := 0x100 } } }
    shows s {} pcOf = some 0xC0
      ∧ shows (on (.brx fr x) [(2, 0x88)]) u pcOf = some 0x88 ∧ trap (on (.brx fr x) [(2, 0x84)]) u = some 7
      ∧ shows (on (.loop fr (d 3) 2) [(3, 2)]) { dst := some (d 3), rdD := true } (fun s => (pcOf s, reg s 3)) = some (0x10, 1)
      ∧ shows (on (.loop fr (d 3) 2) [(3, 1)]) { dst := some (d 3), rdD := true } (fun s => (pcOf s, reg s 3)) = some (0x10, 0) := by
  decide +kernel

/-- R118: a call with 15 and with 16 entries on the stack, with room and without; a misaligned target; a return from a stack of one
entry, to a misaligned entry, and from an empty stack. -/
theorem witness_Branches_call_and_return :
    let u : Use := { src := [(0, g 2)] }
    let s := on (.callx fr (g 2)) [(2, 0x80)]
    let r := on (.ret fr) []
    shows (stackOf 15 s) u (fun s => ((s.thr 0).stack.length, pcOf s)) = some (16, 0x80)
      ∧ shows (stackOf 16 (mapped (launched 8 s))) u (fun s => ((s.thr 0).stack.length, (s.thr 0).spill, (s.thr 0).sb.length)) = some (16, 1, 1)
      ∧ trap (stackOf 16 (mapped (launched 7 s))) u = some 9 ∧ trap (on (.callx fr (g 2)) [(2, 0x84)]) u = some 7
      ∧ shows (on (.call fr 4) []) {} (fun s => ((s.thr 0).stack, pcOf s)) = some ([0x10], 0x20)
      ∧ shows (stackOf 1 r) {} (fun s => ((s.thr 0).stack, pcOf s)) = some ([], 0x400)
      ∧ trap (onThr (fun t => { t with stack := [0x404] }) r) {} = some 7 ∧ trap r {} = some 9 := by decide +kernel

theorem witness_ThreadControl :
    let u : Use := { src := [(0, g 2)] }
    let e : Use := { drain := true, last := true }
    shows (on (.nop fr) []) {} pcOf = some 0x10
      ∧ shows (on (.sleep fr (g 2)) [(2, 2 ^ 40)]) u (fun s => (s.thr 0).sleep) = some (2 ^ 32 - 1)
      ∧ shows (on (.exit fr) []) e (fun s => (s.thr 0).st) = some .free
      ∧ shows (onThr (fun t => { t with c := { t.c with suc := 1 } }) (on (.exit fr) [])) e (fun s => ((s.thr 0).leaving, pcOf s)) = some (true, 8)
      ∧ trap (on (.trap fr 0x3FFF) []) {} = some 0x15 ∧ trap (on (.brk fr 0) []) {} = some 0x16
      ∧ stands (on (.yield fr) []) {} = true := by decide +kernel

/-- R122: aligned, misaligned, and beyond the address space. -/
theorem witness_WaitOnWord :
    let o : O3 := ⟨d 1, g 2, g 3, g 4⟩
    let u : Use := { use3 o with vl := true }
    let s (a : Nat) : State := mapped (on (.waita fr o) [(2, a), (3, 0), (4, 100)])
    shows (s 0x40) u (fun s => ((s.thr 0).c.ldc, (s.thr 0).pend.length, (s.thr 0).r.pendG)) = some (1, 1, 2)
      ∧ trap (s 0x44) u = some 7 ∧ trap (s (2 ^ 55)) u = some 9 := by decide +kernel

/-! ### Registers (R135 to R144) -/

/-- R138: the worked IXADV, an image at the ends of its range, and an illegal mode and a reserved bit. -/
theorem witness_IndexRegisters :
    let u : Use := { src := [(0, g 2)] }
    let s (v : BitVec 30) : State := onThr (fun t => { t with r := { t.r with ix := t.r.ix.set 2 v } }) (on (.ixadv fr 2 (g 2) .w8) [(2, 1)])
    let x (v : Nat) : State := on (.ixset fr 2 (g 2)) [(2, v)]
    let image (s : State) : Nat := ((s.thr 0).r.ix.get 2).toNat
    shows (s (BitVec.ofNat 30 (41 + 64 * 2 ^ 14 + 7 * 2 ^ 27))) u image = some (42 + 64 * 2 ^ 14)
      ∧ shows (setRegs [(2, 2 ^ 64 - 1)] (s 0)) u image = some (127 + 7 * 2 ^ 27)
      ∧ shows (x (2 ^ 30 - 1 - 2 ^ 25)) u image = some (2 ^ 30 - 1 - 2 ^ 25)
      ∧ trap (x (2 ^ 30)) u = some 2 ∧ trap (x (3 * 2 ^ 25)) u = some 2
      ∧ leaves (onThr (fun t => { t with r := { t.r with ix := t.r.ix.set 7 5 } }) (on (.ixget fr (d 1) 7) [])) { dst := some (d 1) } 1 = some 5 := by
  decide +kernel

/-- R70: an element position beyond the registers of a width of 16 bits is fault 0x02 of IXADV. -/
theorem witness_IndexRegisters_position :
    let s := onThr (fun t => { t with r := { t.r with ix := t.r.ix.set 2 (BitVec.ofNat 30 (4 * 2 ^ 27)) } }) (on (.ixadv fr 2 (g 2) .w16) [(2, 1)])
    trap s { src := [(0, g 2)] } = some 2 := by decide +kernel

def withBlock (shr : Option Nat) (s : State) : State :=
  onCtx (fun c => { c with shr0 := 3, shrn := 2 }) (onThr (fun t => { t with xblk := true, shr := shr }) s)
def pendingG (m : BitVec 64) (s : State) : State := onThr (fun t => { t with r := { t.r with pendG := m } }) s

/-- R139, R140, R143: with and without a block, at both ends of the allotment, and with a register pending. -/
theorem witness_RegisterBlocks :
    let u : Use := { src := [(0, g 2)], feat := some 13 }
    let m (k : Nat) : State := on (.shrmap fr (g 2)) [(2, k)]
    shows (on (.xacq fr) []) {} (fun s => (s.thr 0).xblk || (s.thr 0).xwant) = some true
      ∧ shows (withBlock none (on (.xrel fr) [])) {} (fun s => ((s.thr 0).xblk, (s.core 0).pool)) = some (false, 513)
      ∧ waits (pendingG 0x100000000 (withBlock none (on (.xrel fr) []))) {} = true
      ∧ leaves (withBlock (some 1) (on (.xqry fr (d 1)) [])) { dst := some (d 1) } 1 = some 0x02000007
      ∧ trap (m 0) u = some 5 ∧ trap (withBlock none (m 2)) u = some 2
      ∧ shows (withBlock none (m 1)) u (fun s => (s.thr 0).shr) = some (some 1)
      ∧ waits (pendingG 0x100000000000000 (withBlock none (m 1))) u = true
      ∧ trap (on (.shrunmap fr) []) { feat := some 13 } = some 5
      ∧ shows (withBlock (some 1) (on (.shrunmap fr) [])) { feat := some 13 } (fun s => (s.thr 0).shr) = some none
      ∧ waits (pendingG 0x8000000000000000 (withBlock (some 1) (on (.shrunmap fr) []))) { feat := some 13 } = true := by decide +kernel

/-- R136, R144: a full register gives its value, an empty one takes it, and an operand that is not mapped is fault 0x02. -/
theorem witness_FullEmptyAccess :
    let o : O1 := ⟨d 1, g 56⟩
    let w : O1 := ⟨d 63, g 2⟩
    let u (o : O1) : Use := { use1 o with vl := true, close := true, feat := some 13 }
    let full (s : State) : State := onCore (fun c => { c with shr := [(32, { v := { cur := 5 }, full := true })] }) s
    let r := withBlock (some 1) (full (on (.rdfe fr o) []))
    let v := after r
    shows r (u o) (fun s => ((s.core 0).shr.map fun x => x.2.full)) = some [false]
      ∧ ((v.thr 0).pend.map fun q => reg (next (execVariableLatencyResult 0 q.u v)) 1) = [5]
      ∧ shows (withBlock (some 1) (on (.wrfe fr w) [(2, 8)])) (u w) (fun s => ((s.core 0).shr.map fun x => (x.1, x.2.full))) = some [(39, true)]
      ∧ trap (withBlock none (on (.rdfe fr o) [])) (u o) = some 2 ∧ trap (withBlock none (on (.wrfe fr w) [])) (u w) = some 2 := by
  decide +kernel

/-! ### Barriers (R207 to R212) -/

def bars (v : Bar) (s : State) : State :=
  (onCtx (fun c => { c with bar0 := 10, barn := 4 }) s).setBar 0 13 v

/-- R208, R209: the last barrier of the allotment and the one past it; counts 0, 1, 1,024 and 1,025; a barrier that is not
initialised, a last arrival, and a thread that has arrived twice. -/
theorem witness_Barriers_named :
    let a := g 2
    let u : Use := { src := [(0, a)] }
    let i (n : Nat) (v : Bar) : State := bars v (on (.barinit fr 3 a) [(2, n)])
    let r (v : Bar) : State := bars v (on (.bararv fr (d 1) 3) [(1, 9)])
    let x : Use := { dst := some (d 1), rel := true, close := true }
    let y : Use := { rel := true, close := true }
    (trap (i 0 {}) u = some 0x10 ∧ trap (i 1025 {}) u = some 0x10 ∧ trap (i 5 { n := 2, count := 1 }) u = some 0x10
      ∧ shows (i 1024 {}) u (fun s => (s.bar 0 13).n) = some 1024 ∧ shows (i 1 { n := 7, phi := true }) u (fun s => s.bar 0 13) = some { n := 1 }
      ∧ trap (bars {} (on (.barinit fr 4 a) [(2, 1)])) u = some 0x10)
      ∧ (trap (r {}) x = some 0x10 ∧ trap (r { n := 3, m1 := 1, m2 := 1, count := 2 }) x = some 0x10
      ∧ shows (r { n := 2 }) x (fun s => ((s.bar 0 13).count, reg s 1)) = some (1, 0)
      ∧ shows (r { n := 2, count := 1, phi := true }) x (fun s => (s.bar 0 13, reg s 1)) = some ({ n := 2 }, 1))
      ∧ shows (bars { n := 2 } (on (.barsync fr 3) [])) y (fun s => (s.thr 0).blk) = some [.bar 13 false]
      ∧ shows (bars { n := 2 } (on (.barwait fr 3 a) [(2, 1)])) u (fun s => (s.thr 0).blk) = some []
      ∧ shows (bars { n := 2 } (on (.barwait fr 3 a) [(2, 0)])) u (fun s => (s.thr 0).blk) = some [.bar 13 false]
      ∧ leaves (bars { n := 1024, count := 1023, phi := true, wait := 6 } (on (.barqry fr (d 1) 3) [])) { dst := some (d 1) } 1
        = some (1023 + 1024 * 2 ^ 11 + 2 ^ 22 + 2 * 2 ^ 23) := by decide +kernel

theorem witness_Barriers_launch :
    let x : Use := { dst := some (d 1), rel := true, close := true }
    trap (on (.lbar fr (d 1)) []) x = some 0x10
      ∧ shows (launched 0 (on (.lbar fr (d 1)) [(1, 9)])) x (fun s => (reg s 1, (s.launches.map fun l => l.2.lbarN))) = some (0, [1]) := by
  decide +kernel

/-! ### Queues and draws (R103, R214 to R224) -/

/-- The thread's launch has a stage whose queues are 0, into and out of it, with records of two words, two deep. -/
def queued (s : State) : State :=
  ((launched 0 s).modLaunch 1 fun l =>
    { l with stages := [⟨0, 1, 0, false, 0, 0, 0, 0, 1⟩], queues := [⟨0, 0x1000, 16, 2⟩] })

/-- R103: a record that ends at g63 and one that would pass it, a queue that is not the stage's, and a push that a pop takes. -/
theorem witness_StageQueues :
    let push (n : BitVec 6) : State := withBlock none (queued (on (.qpush fr n false 0) [(2, 7), (3, 8)]))
    let u (s : State) (n : BitVec 6) (q : Nat) : Use := { src := [(0, g n)], rd := runRegs n (s.recWords q), rel := true, close := true, feat := some 5 }
    let pop (n : BitVec 6) : State := withBlock none (queued (on (.qpop fr n 0 1) []))
    let v (s : State) (n : BitVec 6) : Use :=
      { wr := runRegs n (s.recWords 0), pw := predBit 1, vl := true, close := true, feat := some 5 }
    let other := withBlock none (queued (on (.qpush fr 2 false 1) []))
    shows (push 2) (u (push 2) 2 0) (fun s => (s.read (vaultLoc 0 0 0x1008) 8, s.read (vaultLoc 0 0 0x1080) 8, s.read (vaultLoc 0 0 0x1088) 8))
        = some (1, 7, 8)
      ∧ stands (push 62) (u (push 62) 62 0) = true ∧ trap (push 63) (u (push 63) 63 0) = some 0x11
      ∧ trap other (u other 2 1) = some 0x11
      ∧ shows (pop 62) (v (pop 62) 62) (fun s => ((s.thr 0).r.pendG, (s.thr 0).r.pendP)) = some (0xC000000000000000, 2)
      ∧ trap (pop 63) (v (pop 63) 63) = some 0x11 := by decide +kernel

/-- R48, R49, R215: leaves with the index NONE and a negative weight; the worked merge for both coins (R51). -/
theorem witness_Draws :
    let o : O2 := ⟨d 1, g 2, g 3⟩
    let q : O3 := ⟨d 1, g 2, g 3, g 4⟩
    let coin (u : BitVec 24) (s : State) : State := onCtx (fun c => { c with attr := 0x81, coins := [(5, u)] }) s
    let m (u : BitVec 24) : State := coin u (on (.dmrg fr true q) [(2, 0x0000000540400000), (3, 0x000000C840000000), (4, 5)])
    let result (u : BitVec 24) : Option (List Nat) :=
      shows (m u) { use3 q with vl := true, coin := true, feat := some 2 } fun s =>
        (s.thr 0).pend.map fun q => reg (next (execVariableLatencyResult 0 q.u s)) 1
    let f : Use := { use2 o with feat := some 2 }
    gives (.drawl fr o) f [(2, 0x3F800000), (3, 0xFFFFFFFF)] 1 = some 0xFFFFFFFF00000000
      ∧ gives (.drawl fr o) f [(2, 0xBF800000), (3, 5)] 1 = some 0xFFFFFFFF7FC00006
      ∧ gives (.drawl fr o) f [(2, 0x3F800000), (3, 5)] 1 = some 0x000000053F800000
      ∧ gives (.drawg fr q) { use3 q with feat := some 2 } [(2, 0x40400000), (3, 0x3F800000), (4, 5)] 1 = some 0x0000000540400000
      ∧ result 0x400000 = some [0x0000000540657006] ∧ result 0xC00000 = some [0x000000C840657006]
      ∧ shows (on (.dseed fr (g 2)) [(2, 77)]) { src := [(0, g 2)], feat := some 2 } (fun s => (s.die 0).key) = some [(0, 77)]
      ∧ stands (on (.drnd fr ⟨d 1, g 2⟩) []) { use1 ⟨d 1, g 2⟩ with coin := true, feat := some 2 } = true := by decide +kernel

/-- R217: the worked group draw, with the coins of nodes 17 and 8. -/
theorem test_group_draw :
    let leaf (r : Nat) : Option Word :=
      [some 0x0000000540400000, some 0xFFFFFFFFFF800000, some 0x000000C840000000, some 0x0000000740000000][r]?.getD none
    (drawTree true false (fun n => if n = 17 then 0x900000 else 0x100000) 5 ((List.range 32).map leaf)).1 = some 0x0000000540800000 := by
  decide +kernel

/-! ### Memory words (R257 to R277) -/

/-- R259, R261, R266: the three spaces; a misaligned acquire; an address beyond each space; a gather with a misaligned element. -/
theorem witness_Loads :
    let o : O1 := ⟨d 1, g 2⟩
    let p : O2 := ⟨d 1, g 2, g 3⟩
    let u : Use := { use1 o with vl := true }
    let b8 : MMod := ⟨.b8, false⟩
    let ld (a : Nat) : State := mapped (on (.ld fr b8 .dflt o 0x3FF8) [(2, a)])
    let issued (s : State) : Nat × Nat × Nat := ((s.thr 0).c.ldc, (s.thr 0).c.frc, (s.thr 0).r.pendG.toNat)
    shows (ld 0x48) u issued = some (1, 0, 2) ∧ trap (ld (2 ^ 55 + 8)) u = some 9
      ∧ shows (mapped (on (.ldacq fr b8 .dflt o 0) [(2, 8)])) u issued = some (1, 0, 2)
      ∧ trap (on (.ldacq fr b8 .dflt o 0) [(2, 12)]) u = some 7
      ∧ shows (on (.ldvt fr b8 .dflt o 0) [(2, 0x17BFFFF8)]) u issued = some (1, 0, 2)
      ∧ trap (on (.ldvt fr b8 .dflt o 0) [(2, 0x17BFFFF9)]) u = some 9 ∧ trap (on (.ldvt fr b8 .dflt o 0) [(2, 0x18000000)]) u = some 9
      ∧ shows (on (.ldls fr b8 .dflt o 0) [(2, 0xFFFF8)]) u issued = some (1, 0, 2)
      ∧ trap (on (.ldls fr b8 .dflt o 0) [(2, 0xFFFF9)]) u = some 9
      ∧ shows (mapped (on (.ldgx fr ⟨.b4, false⟩ .dflt p 0) [(2, 0x40), (3, 0x0000000200000001)])) { use2 p with vl := true } issued = some (1, 0, 2)
      ∧ trap (mapped (on (.ldgx fr ⟨.b4, false⟩ .dflt p 0) [(2, 0x41), (3, 0)])) { use2 p with vl := true } = some 7 := by decide +kernel

/-- A load of a local store returns its bytes, sign-extended (R261, R236). -/
theorem test_local_load :
    let o : O1 := ⟨d 1, g 2⟩
    let s := after ((on (.ldls fr ⟨.b2, true⟩ .dflt o 0) [(2, 6)]).write (lsLoc 0 6) 2 0x80FF)
    ((s.thr 0).pend.map fun q => reg (next (execLoadReturn 0 q.u .none s)) 1) = [0xFFFFFFFFFFFF80FF] := by decide +kernel

/-- R244, R263, R264: a store in each space, of a pair, into a tile that an engine fills, with a full buffer, misaligned releases. -/
theorem witness_Stores :
    let o : S2 := ⟨g 2, g 4⟩
    let u : Use := useS2 o
    let b8 : MMod := ⟨.b8, false⟩
    let st (a : Nat) : State := mapped (on (.st fr b8 .dflt o 0) [(2, a), (4, 0x1122334455667788)])
    let ls (a : Nat) : State := on (.stls fr b8 .dflt o 0) [(2, a)]
    let e : SbE := { u := 0, gid := 0, k := .store, pieces := [{ va := 0, n := 8, data := 0, mask := 0 }] }
    let full (n : Nat) (s : State) : State := onThr (fun t => { t with sb := List.replicate n e }) s
    let tile (st : TileState) (plane : Bool) (s : State) : State :=
      onCore (fun c => { c with tiles := [(0, { fmt := 1, rows := 32, cols := 32, loc := lsLoc 0 0, st := st, plane := plane })] }) s
    shows (st 0x40) u (fun s => ((s.thr 0).sb.map fun e => e.pieces.map fun q => (q.va, q.data), (s.thr 0).c.suc)) = some ([[(0x40, 0x1122334455667788)]], 1)
      ∧ trap (st (2 ^ 55)) u = some 9 ∧ shows (full 15 (st 0x40)) u (fun s => (s.thr 0).sb.length) = some 16 ∧ waits (full 16 (st 0x40)) u = true
      ∧ shows (ls 0xFFFF8) u (fun s => (s.thr 0).sb.length) = some 1 ∧ trap (ls 0xFFFF9) u = some 9
      ∧ trap (tile .filling false (ls 0)) u = some 0x0E ∧ trap (tile .empty true (ls 0)) u = some 0x0F
      ∧ shows (tile .ready false (ls 0)) u (fun s => (s.thr 0).sb.length) = some 1
      ∧ shows (on (.stvt fr b8 .dflt o 0) [(2, 0x17BFFFF8)]) u (fun s => (s.thr 0).sb.length) = some 1
      ∧ trap (mapped (on (.strel fr b8 .dflt o 0) [(2, 0x44)])) u = some 7
      ∧ shows (mapped (on (.strel fr ⟨.b16, false⟩ .dflt o 0) [(2, 0x40), (4, 1), (5, 2)])) { u with srcPair := [1] }
        (fun s => (s.thr 0).sb.map fun e => e.pieces.map fun q => q.data) = some [[2 ^ 65 + 1]] := by decide +kernel

/-- R271, R275: returning atomics and reductions, aligned, misaligned, beyond the space; a release behind a store. -/
theorem witness_Atomics :
    let o : O2 := ⟨d 1, g 2, g 3⟩
    let q : O3 := ⟨d 1, g 2, g 3, g 4⟩
    let r : S2 := ⟨g 2, g 3⟩
    let m : AMod := ⟨true, false, false, false⟩
    let u : Use := { use2 o with vl := true, close := true }
    let v : Use := { use3 q with vl := true, close := true, pw := predBit 2 }
    let x : Use := { useS2 r with close := true, feat := some 7, img := some (2, 4) }
    let add (m : AMod) (a : Nat) : State := mapped (on (.aadd fr m .dflt o) [(2, a), (3, 1)])
    let rel : AMod := { m with rel := true }
    let e : SbE := { u := 0, gid := 0, k := .store, pieces := [{ va := 0, n := 8, xl := some ⟨0x3F, 0, false⟩, data := 0, mask := 0 }] }
    let behind (s : State) : State := onThr (fun t => { t with sb := [e] }) s
    let issued (s : State) : Nat × Nat × Nat := ((s.thr 0).c.ldc, (s.thr 0).r.pendG.toNat, (s.thr 0).r.pendP.toNat)
    shows (add m 0x44) u issued = some (1, 2, 0) ∧ trap (add m 0x46) u = some 7 ∧ trap (add m (2 ^ 55)) u = some 9
      ∧ shows (add rel 0x44) u issued = some (1, 2, 0) ∧ waits (behind (add rel 0x44)) u = true
      ∧ shows (mapped (on (.acas fr m .dflt q 2) [(2, 0x44)])) v issued = some (1, 2, 4)
      ∧ shows (mapped (on (.redadd fr m .dflt r) [(2, 0x44), (3, 9)])) x (fun s => ((s.thr 0).sb.map fun e => e.k, (s.thr 0).c.suc))
        = some ([.red ⟨0, true, false, false⟩], 1)
      ∧ trap (mapped (on (.redmin fr m .dflt r) [(2, 0x42)])) x = some 7 ∧ trap (mapped (on (.redmax fr m .dflt r) [(2, 2 ^ 55)])) x = some 9 := by
  decide +kernel

/-- R273: the worked gang CAS, member by member; R274: the table of edges, on 32 bits. -/
theorem test_atomic_tables :
    let cas (x slot : Nat) : Nat × Option Bool := AtOp.cas.apply true false x 5 slot
    let inc (b x : Nat) : Nat := (AtOp.incw.apply true false x b 0).1
    let dec (b x : Nat) : Nat := (AtOp.decw.apply true false x b 0).1
    let add (b x v : Nat) : Nat × Option Bool := AtOp.badd.apply true false x v b
    let ones := 0xFFFFFFFF
    (cas 5 3 = (3, some true) ∧ cas 3 9 = (3, some false) ∧ cas 3 20 = (3, some false))
      ∧ (inc 0 7 = 0 ∧ inc ones ones = 0 ∧ inc 5 9 = 0) ∧ (dec 0 3 = 0 ∧ dec 5 0 = 5 ∧ dec 5 9 = 5)
      ∧ add 0 0 0 = (0, some true) ∧ add 0 0 1 = (0, some false) ∧ add ones 0xFFFFFFF0 0x20 = (0xFFFFFFF0, some false)
      ∧ add 5 9 0 = (9, some false) := by decide +kernel

/-- R267, R268, R276, R277: a line that maps and one that does not; fences with their counters at 0 and at 1. -/
theorem witness_CacheAndFences :
    let u : Use := { src := [(0, g 2)] }
    let f (a : Nat) : State := mapped (on (.cflush fr .dflt (g 2) 0) [(2, a)])
    let i (a : Nat) : State := mapped (on (.cinv fr .dflt (g 2) 0) [(2, a)])
    let ctrs (c : Ctrs) (s : State) : State := onThr (fun t => { t with c := c }) s
    let fence (kind : FenceKind) (c : Ctrs) : State := ctrs c (on (.fence fr .die .dflt kind) [])
    let v (suc : Bool) : Use := { close := true, drain := suc }
    shows (f 0x1234) u (fun s => (s.thr 0).sb.map fun e => e.k) = some [.flush 0x24] ∧ trap (f (2 ^ 55)) u = some 9
      ∧ shows (i 0xFFFF) u (fun s => (s.thr 0).sb.map fun e => e.k) = some [.inval 0x1FF] ∧ trap (i 0x10000) u = some 8
      ∧ stands (mapped (on (.pref fr .dflt (g 2) 0) [(2, 2 ^ 60)])) u = true
      ∧ shows (fence .loads { suc := 1 }) (v false) pcOf = some 0x10 ∧ waits (fence .loads { ldc := 1 }) (v false) = true
      ∧ shows (fence .stores { ldc := 1 }) (v true) pcOf = some 0x10 ∧ waits (fence .stores { suc := 1 }) (v true) = true
      ∧ waits (fence .both { ldc := 1 }) (v true) = true
      ∧ shows (fence .engines {}) (v true) pcOf = some 0x10 ∧ waits (fence .engines { twc := 1 }) (v true) = true
      ∧ shows (on (.sdrain fr .dflt) []) (v true) pcOf = some 0x10 ∧ waits (ctrs { suc := 1 } (on (.sdrain fr .dflt) [])) (v true) = true := by
  decide +kernel

/-! ### Tiles (R283 to R297) -/

/-- The context's tiles are 60 to 63 of the core. -/
def tiled (l : List (Nat × Tile)) (s : State) : State :=
  onCore (fun c => { c with tiles := l }) (onCtx (fun c => { c with tile0 := 60, tilen := 4 }) s)

/-- An FP32 tile of 32 rows of 32 columns at 0x1000 of the local store. -/
def flat (st : TileState) : Tile := { fmt := 1, base := 0x1000, rows := 32, cols := 32, loc := lsLoc 0 0x1000, st := st }

/-- Its image's first word. -/
def flatWord (base : Nat) : Nat := 4 + base * 2 ^ 8 + 31 * 2 ^ 37 + 31 * 2 ^ 49

/-- R293: numbers 3 and 4 of an allotment of four; a reserved bit; a clear of an idle and of a busy entry; misplaced bytes; an
overlap with another entry, and the place beside it. -/
theorem witness_TileTable_define :
    let u : Use := { src := [(0, g 2)], srcPair := [0] }
    let s (n : BitVec 6) (w0 w1 : Nat) (l : List (Nat × Tile)) : State := tiled l (on (.tdef fr (g 2) n) [(2, w0), (3, w1)])
    let base (s : State) : Nat × Nat := let t := s.tile 0 63; (t.base, t.rows)
    shows (s 3 (flatWord 0x1000) 0 []) u base = some (0x1000, 32) ∧ trap (s 4 (flatWord 0x1000) 0 []) u = some 0x0E
      ∧ trap (s 3 (flatWord 0x1000 + 64) 0 []) u = some 2 ∧ trap (s 3 (flatWord 0x1040) 0 []) u = some 7
      ∧ shows (s 3 0 0 [(63, flat .ready)]) u base = some (0, 0) ∧ trap (s 3 0 0 [(63, flat .filling)]) u = some 0x0E
      ∧ trap (s 3 (flatWord 0x1F80) 0 [(60, flat .ready)]) u = some 0x0E
      ∧ shows (s 3 (flatWord 0x2000) 0 [(60, flat .ready)]) u base = some (0x2000, 32) := by decide +kernel

/-- R291, R294: the words that read and move an entry, in each of its states, and past the allotment. -/
theorem witness_TileTable_states :
    let ready (n : BitVec 6) (st : TileState) (e : Bool) : State := tiled [(63, { flat st with byeng := e })] (on (.tready fr n) [])
    let empty (n : BitVec 6) (st : TileState) (k : Nat) : State := tiled [(63, { flat st with readers := k })] (on (.tempty fr n) [])
    let wait (n : BitVec 6) (st : TileState) : State := tiled [(63, flat .ready)] (on (.twait fr st (d 1) n) [])
    let r : Use := { rel := true }
    let w : Use := { dst := some (d 1), vl := true }
    let st (s : State) : TileState × Bool := let t := s.tile 0 63; (t.st, t.publ)
    (shows (ready 3 .empty false) r st = some (.empty, true) ∧ shows (ready 3 .filling false) r st = some (.filling, true)
      ∧ trap (ready 3 .filling true) r = some 0x0E ∧ trap (ready 3 .draining true) r = some 0x0E ∧ trap (ready 4 .empty false) r = some 0x0E)
      ∧ (shows (empty 3 .ready 0) {} st = some (.empty, false) ∧ trap (empty 3 .ready 1) {} = some 0x0E ∧ trap (empty 4 .ready 0) {} = some 0x0E)
      ∧ (shows (wait 3 .ready) w (fun s => (s.agenda.length, (s.thr 0).c.ldc)) = some (1, 1)
      ∧ shows (wait 3 .empty) w (fun s => (s.agenda.length, (s.thr 0).c.ldc)) = some (0, 1) ∧ trap (wait 4 .empty) w = some 0x0E)
      ∧ leaves (tiled [(63, flat .ready)] (on (.tqry fr (d 1) 3 false) [])) { dst := some (d 1) } 1 = some (flatWord 0x1000)
      ∧ trap (tiled [] (on (.tqry fr (d 1) 4 false) [])) { dst := some (d 1) } = some 0x0E := by decide +kernel

/-- R287, R295: a register image goes to a plane tile's digit planes, signs and exponents and to nothing else; a read of a ready tile
and of an empty one. -/
theorem witness_TileData_image :
    let pos := 2 + 4 * 2 ^ 12
    let bf : Tile := { flat .empty with fmt := 2, plane := true }
    let s := tiled [(63, bf)] (on (.tstb fr ⟨g 2, g 3⟩ 3) [(2, 0x3F80BF80), (3, pos)])
    let l (st : TileState) : State := tiled [(63, flat st)] (on (.tldb fr (d 1) (g 3) 3) [(3, pos)])
    let u : Use := { src := [(1, g 3)], dst := some (d 1), vl := true }
    shows s (useS2 ⟨g 2, g 3⟩) (fun s => ((s.thr 0).sb.map fun e => e.pieces.length, (s.tile 0 63).st)) = some ([6], .filling)
      ∧ shows (l .ready) u (fun s => (s.thr 0).c.ldc) = some 1 ∧ trap (l .empty) u = some 0x0E := by decide +kernel

/-- The page at 0x10000 is a shadow page whose descriptor stands at 0x500; pages 0 and 0x20000 are backing. -/
def shadowed (s : State) : State :=
  onCore (fun c => { c with tlb := [⟨0, ⟨BitVec.ofNat 64 (0x23F + 10 * 2 ^ 55), 0x10000, false⟩⟩, ⟨0, ⟨0x3F, 0, false⟩⟩,
    ⟨0, ⟨0x2003F, 0x20000, false⟩⟩] }) s

/-- R231, R296, R297: a descriptor for one page, a length of 0, a page that is no shadow page. -/
theorem witness_TileData_shadow :
    let o : S4 := ⟨g 2, g 3, g 4, g 5⟩
    let u : Use := { useS4 o with feat := some 6 }
    let v : Use := { src := [(0, g 2)], close := true, feat := some 6, img := some (5, 0) }
    let s (a n : Nat) : State := shadowed (on (.shadow fr o) [(2, a), (3, 0), (4, 0x20000), (5, n)])
    let p (a : Nat) : State := shadowed (on (.publish fr .rack (g 2)) [(2, a)])
    shows (s 0x10000 0x10000) u (fun s => ((s.thr 0).sb.map fun e => e.pieces.map fun q => (q.loc, q.data), (s.thr 0).hold))
        = some ([[(some 0x500, 0x20000 * 2 ^ 128 + 0x10000 * 2 ^ 192 + 0x10000 * 2 ^ 256)]], true)
      ∧ trap (s 0x10000 0) u = some 7 ∧ trap (s 0x10001 0x10000) u = some 7 ∧ trap (s 0 0x10000) u = some 9
      ∧ trap (p 0x10000) v = some 8 ∧ trap (p 0) v = some 9
      ∧ shows ((p 0x10000).write 0x518 8 0x10000 |>.write 0x520 8 0x10000) v (fun s => (s.thr 0).c.suc) = some 1 := by decide +kernel

/-! ### Engine commands (R299 to R308, R352, R369 to R372) -/

/-- An accumulator, two BF16 operands and an output, of 32 by 32. -/
def product (acc a : TileState) (s : State) : State :=
  let op (n : Nat) : Tile := { flat a with fmt := 2, plane := true, base := n, loc := lsLoc 0 n }
  tiled [(60, flat acc), (61, op 0x2000), (62, op 0x3000), (63, { flat .empty with base := 0x4000, loc := lsLoc 0 0x4000 })] s

/-- The image of MMA into tile 0 of tiles 1 and 2, K = 32. -/
def mmaImage : Nat := 1 * 2 ^ 6 + 2 * 2 ^ 12

/-- What a command's acceptance changes: tickets, queues and counters. -/
def accepted (s : State) : List Nat :=
  [(s.core 0).ticket, (s.core 0).copyq.length, (s.core 0).matq.length, (s.thr 0).c.enc, (s.thr 0).c.twc]

/-- R305, R307: an image with a reserved bit, operands that are not ready, a full queue, a grid that does not hold the core. -/
theorem witness_EngineCommands_matrix :
    let o : O1 := ⟨d 1, g 2⟩
    let q : O2 := ⟨d 1, g 2, g 3⟩
    let s (w : Nat) (a : TileState) : State := product .empty a (on (.mma fr .dflt o) [(2, w)])
    let c (cl : Nat) (a : TileState) : State := product .empty a (on (.mmac fr .dflt q) [(2, mmaImage), (3, cl)])
    let cmd : Cmd := { u := 0, ticket := 0, tk := 0, ctx := 0, launch := none, tid := 0, pc := 0, hdr := 0, word := 0, k := .mma 0 }
    shows (s mmaImage .ready) (use1 o) accepted = some [1, 0, 1, 0, 1] ∧ trap (s (2 ^ 33) .ready) (use1 o) = some 2
      ∧ trap (s mmaImage .empty) (use1 o) = some 0x0E
      ∧ waits (onCore (fun c => { c with matq := List.replicate 16 cmd }) (s mmaImage .ready)) (use1 o) = true
      ∧ shows (onCore (fun c => { c with matq := List.replicate 15 cmd }) (s mmaImage .ready)) (use1 o) accepted = some [1, 0, 16, 0, 1]
      ∧ shows (c 0 .ready) (use2 q) accepted = some [1, 0, 1, 0, 1] ∧ trap (c 1 .ready) (use2 q) = some 2
      ∧ trap (c 0 .empty) (use2 q) = some 0x0E
      ∧ trap (product .empty .ready (on (.mmab fr .dflt o) [(2, mmaImage)])) (use1 o) = some 0x0E := by decide +kernel

/-- R301 to R304, R308: a copy into a tile and one between two tiles; a copy that a product follows; an epilogue. -/
theorem witness_EngineCommands_copies_and_epilogue :
    let o : O4 := ⟨d 1, g 2, g 3, g 4, g 5⟩
    let ls : Nat := 2 ^ 63 + 0x8000
    let tile (n : Nat) : Nat := 3 * 2 ^ 62 + n
    let cpy (a b c e : Nat) : State := product .empty .ready (on (.cpy fr false .dflt o) [(2, a), (3, b), (4, c), (5, e)])
    let cpym (a b e : Nat) : State := product .empty .ready (on (.cpym fr false .dflt o) [(2, a), (3, b), (5, e)])
    let m : Use := { use4 o with coin := true }
    let mepi (acc : TileState) (w e : Nat) : State := product acc .ready (on (.mepi fr .dflt o) [(2, w), (5, e)])
    shows (cpy ls (tile 3) 0 0) (use4 o) accepted = some [1, 1, 0, 1, 0] ∧ trap (cpy (tile 1) (tile 3) 0 0) (use4 o) = some 2
      ∧ shows (cpym ls (tile 1) mmaImage) (use4 o) accepted = some [1, 1, 0, 1, 1] ∧ trap (cpym ls ls mmaImage) (use4 o) = some 2
      ∧ shows (mepi .ready (3 * 64 + 2 ^ 13) 0) m accepted = some [1, 0, 1, 0, 1]
      ∧ trap (mepi .empty (3 * 64 + 2 ^ 13) 0) m = some 0x0E ∧ trap (mepi .ready (3 * 64 + 2 ^ 13) 1) m = some 2 := by
  decide +kernel

/-- Communicator 2 of the die, bound by the context, of four members. -/
def bound (s : State) : State :=
  s.modDie 0 fun d => { d with comms := [(2, { ctx := 0, st := 1, ring := [(0, 0), (0, 1), (0, 2), (0, 3)], nbuf := 2 })] }

/-- R352, R369, R372: each operation, a bind, a communicator that is not bound, a word run as another operation, a full engine. -/
theorem witness_CollectiveCommands :
    let o : O4 := ⟨d 1, g 2, g 3, g 4, g 5⟩
    let u : Use := { use4 o with feat := some 8, close := true }
    let s (op n : Nat) : State := bound (on (.collBind fr false .dflt o) [(2, op + 0x200), (3, 0x10000), (4, 0x20000), (5, n)])
    let bind := on (.collBind fr true .dflt o) [(2, 0x200), (3, 0x10000)]
    let ops (s : State) : List Nat :=
      [(s.die 0).ops.length, (s.die 0).binds.length, (s.die 0).collq.length, (s.comm 0 2).issued, (s.thr 0).c.enc]
    let eng (a v : Nat) : State := on (.engq fr .dflt ⟨d 1, g 2, g 3⟩) [(2, a), (3, v)]
    let e : Use := use2 ⟨d 1, g 2, g 3⟩
    let cmd : Cmd := { u := 0, ticket := 0, tk := 0, ctx := 0, launch := none, tid := 0, pc := 0, hdr := 0, word := 0, k := .engq 0 0 }
    let full (n : Nat) (s : State) : State := s.modDie 0 fun d => { d with collq := List.replicate n cmd }
    ([1, 2, 3, 4, 5].map fun op => shows (s op 0x4000) u ops) = List.replicate 5 (some [1, 0, 0, 1, 1])
      ∧ shows (setRegs [(2, 0x206), (3, 0), (4, 0), (5, 0)] (s 6 0)) u ops = some [1, 0, 0, 1, 1]
      ∧ shows (s (7 + 0x70) 0x4000) u ops = some [1, 0, 0, 1, 1]
      ∧ shows bind u ops = some [0, 1, 0, 0, 1]
      ∧ trap (on (.collBind fr false .dflt o) [(2, 0x201), (3, 0x10000), (4, 0x20000), (5, 0x4000)]) u = some 0x12
      ∧ fault (next (exec (.collBroadcast fr false .dflt o) (s 1 0x4000))) = some 2
      ∧ shows (eng 15 0x40) e ops = some [0, 0, 1, 0, 1] ∧ trap (eng 16 0x40) e = some 2 ∧ trap (eng 15 0x44) e = some 7
      ∧ waits (full 64 (eng 0 0)) e = true ∧ shows (full 63 (eng 0 0)) e ops = some [0, 0, 64, 0, 1] := by decide +kernel

/-- R370, R371, R363, R365. -/
theorem witness_TicketsAndRoutes :
    let o : O2 := ⟨d 1, g 2, g 3⟩
    let p : S2 := ⟨g 2, g 3⟩
    let w (n b : Nat) : State := onCore (fun c => { c with ticket := 1, ticks := [(0, { ctx := 0, coll := false, bind := false })] })
      (on (.cwait fr .dflt o) [(2, n), (3, b)])
    let u : Use := { use2 o with vl := true }
    let kinds (s : State) : List PK := (s.thr 0).pend.map fun q => q.k
    let r (lo hi : Nat) : State := on (.route fr .dflt p 31) [(2, lo), (3, hi)]
    let t (a off : Nat) (rt : BitVec 128) (x : Tile) : State :=
      onCore (fun c => { c with routes := [(2, rt)] }) (tiled [(63, x)] (on (.tarm fr .dflt p 3 2) [(2, a), (3, off)]))
    let v : Use := { useS2 p with feat := some 8 }
    let armed (s : State) : Bool × Nat := let t := s.tile 0 63; (t.armed, t.op)
    (shows (w 0 0) u kinds = some [.cwait 0] ∧ shows (w 0 1) u kinds = some [.value 0xFF none]
      ∧ shows (on (.ccancel fr .dflt ⟨d 1, g 2⟩) []) (use1 ⟨d 1, g 2⟩) (fun s => reg s 1) = some 2
      ∧ shows (r 0x7FF (2 ^ 55 - 1)) (useS2 p) (fun s => (s.core 0).routes) = some [(31, BitVec.ofNat 128 ((2 ^ 55 - 1) * 2 ^ 64 + 0x7FF))]
      ∧ trap (r 0x800 0) (useS2 p) = some 2 ∧ trap (r 0 (2 ^ 55)) (useS2 p) = some 2)
      ∧ (shows (t 15 128 0x400 (flat .empty)) v armed = some (true, 15) ∧ trap (t 7 0 0x400 (flat .empty)) v = some 2
      ∧ trap (t 15 64 0x400 (flat .empty)) v = some 2 ∧ trap (t 15 (2 ^ 48) 0x400 (flat .empty)) v = some 2
      ∧ shows (t 0 0 0x400 { flat .empty with fmt := operFmt 0 }) v armed = some (true, 0)
      ∧ trap (t 15 0 0x400 {}) v = some 0x0E
      ∧ trap (t 15 0 0x400 { flat .empty with armed := true, route := 3, op := 15 }) v = some 0x0E
      ∧ shows (t 15 0 0x400 { flat .empty with armed := true, route := 2, op := 15 }) v armed = some (true, 15)) := by decide +kernel

/-! ### System words (R386 to R399, R417) -/

def priv1 (o : O1) : Use := { use1 o with priv := 1 }

/-- R392, R393: registers of each kind, a context that does not exist, an index at and past its end, a reserved selector bit. -/
theorem witness_ControlRegisters_read :
    let o : O1 := ⟨d 1, g 2⟩
    let s (a : Nat) : State := onCtx (fun c => { c with timeout := 77, coins := [(63, 5)], hndpc := 0x80 })
      (onThr (fun t => { t with xpc := 0x40 }) ((on (.sysrd fr o) [(2, a)]).modPkg 0 fun k => { k with errProd := 6, lostDrop := 4 }))
    let rd (a : Nat) : Option Nat := leaves (s a) (priv1 o) 1
    let no (a : Nat) : Option Nat := traps (.sysrd fr o) (priv1 o) [(2, a)]
    (rd 0 = some 1 ∧ rd 3 = some 77 ∧ rd 7 = some 0x80 ∧ rd (3 + 5 * 2 ^ 12) = some 0 ∧ rd 5 = some 1 ∧ rd (0x11 + 63 * 2 ^ 18) = some 5)
      ∧ (rd (0x41 + 95 * 2 ^ 24) = some 95 ∧ no (0x41 + 96 * 2 ^ 24) = some 2 ∧ no (2 ^ 33) = some 2 ∧ no 8 = some 2 ∧ no (5 + 4 * 2 ^ 18) = some 2)
      ∧ (rd 0x42 = some 4 ∧ rd 0x45 = some 6 ∧ rd 0x80 = some 0x40 ∧ rd (0x21 + 31 * 2 ^ 18) = some 0) := by decide +kernel

theorem witness_ControlRegisters_write :
    let o : S2 := ⟨g 2, g 3⟩
    let u : Use := { useS2 o with priv := 1 }
    let s (a v : Nat) : State := on (.syswr fr o) [(2, a), (3, v)]
    let x (f : Ctx → Nat) (s : State) : Nat := f (s.ctx 0 0)
    (shows (s 1 7) u (x (·.prio)) = some 3 ∧ shows (s 2 256) u (x (·.win)) = some 256 ∧ shows (s 2 65536) u (x (·.win)) = some 65536
      ∧ shows (s 2 255) u (x (·.win)) = some 2048 ∧ shows (s 3 10) u (x (·.timeout)) = some 10
      ∧ shows (s 3 1000001) u (x (·.timeout)) = some 1000 ∧ shows (s 7 0x88) u (x (·.hndpc.toNat)) = some 0x88)
      ∧ (trap (s 0 1) u = some 2 ∧ trap (s 5 1) u = some 2 ∧ trap (s 6 1) u = some 2 ∧ trap (s (2 ^ 33) 1) u = some 2)
      ∧ shows (s (0x10 + 3 * 2 ^ 18) 9) u (fun s => (s.die 3).key) = some [(0, 9)]
      ∧ shows (s 0x46 5) u (fun s => (s.pkg 0).errCons) = some 5
      ∧ shows (onCore (fun c => { c with inject := 0x100000000 }) (s 0x300 0xFFFFFFFF)) u (fun s => (s.core 0).inject) = some 0xFFFF3FFF := by
  decide +kernel

/-- A further thread in slot 5 of the core. -/
def other (t : Thread) (s : State) : State := s.setThr 5 t

/-- R393: each register, the last selector and the first that is too large; a leading and a trailing copy of a pair (R404). -/
theorem witness_FeatureWords :
    let o : O1 := ⟨d 1, g 2⟩
    let r (a : Nat) : State := on (.featrd fr o) [(2, a)]
    let v : PairVal := { pos := 0, src := false, v := [9] }
    let pair (trail : Bool) (mine theirs : List PairVal) : State :=
      ((other {} (r 0)).modThr 5 fun t => { t with pair := some { partner := 0, trail := !trail, slack := 1, inq := theirs } }).modThr 0
        fun t => { t with pair := some { partner := 5, trail := trail, slack := 1, inq := mine } }
    let queue (k : Nat) (s : State) : Option (List Nat) := (s.thr k).pair.map fun p => p.inq.map fun x => (x.v.headD 0).toNat
    (leaves (r 0) (priv1 o) 1 = some 0xFFFF ∧ leaves (r 7) (priv1 o) 1 = some 0 ∧ trap (r 8) (priv1 o) = some 2)
      ∧ (leaves (pair false [] []) (priv1 o) 1 = some 0xFFFF ∧ shows (pair false [] []) (priv1 o) (queue 0) = some (some [0xFFFF]))
      ∧ (leaves (pair true [] [v]) (priv1 o) 1 = some 9 ∧ shows (pair true [] [v]) (priv1 o) (queue 5) = some (some [])) := by
  decide +kernel

def opDone (s : State) : Option Nat := (s.thr 0).opDone.map (·.toNat)

/-- R390: a stopped thread, a live one, one that is not there; a target that is no multiple of 8; a reserved selector bit. -/
theorem witness_ThreadCommands_control :
    let o : O2 := ⟨d 1, g 2, g 3⟩
    let s (ins : Instr) (a v : Nat) (st : TStat) : State := other { st := st } (on ins [(2, a), (3, v)])
    let u := thrUse o
    let five (s : State) : Option Nat × TStat × Nat := (opDone s, (s.thr 5).st, (s.thr 5).pc.toNat)
    shows (s (.thrctlResume fr o) 5 0 .stopped) u five = some (some 0, .live, 0) ∧ shows (s (.thrctlResume fr o) 5 0 .live) u five = some (some 2, .live, 0)
      ∧ shows (s (.thrctlResume fr o) 6 0 .live) u opDone = some (some 1) ∧ trap (s (.thrctlResume fr o) (2 ^ 25) 0 .live) u = some 2
      ∧ shows (s (.thrctlRedirect fr o) 5 0x88 .stopped) u five = some (some 0, .live, 0x88)
      ∧ trap (s (.thrctlRedirect fr o) 5 0x84 .stopped) u = some 7 ∧ trap (s (.thrctlGetst fr o) 5 0x20 .stopped) u = some 7
      ∧ shows (s (.thrctlKill fr o) 5 0 .live) u opDone = some (some 0)
      ∧ shows (s (.thrctlStop fr o) 5 0 .live) u opDone = some (some 0) ∧ shows (s (.thrctlStop fr o) 5 0 .stopped) u opDone = some (some 2)
      ∧ shows (s (.thrctlSetst fr o) 5 0 .live) u opDone = some (some 2) := by decide +kernel

/-- R390, R391: a stopped thread's image is written and read; XRET in and outside handler state. -/
theorem witness_ThreadCommands_images_and_return :
    let o : O2 := ⟨d 1, g 2, g 3⟩
    let t : Thread := { st := .stopped, r := ({} : Regs).set 3 0x77 }
    let s (ins : Instr) (v : Nat) : State := mapped (other t (on ins [(2, 5), (3, v)]))
    let x (v : Nat) (h : Bool) : State := onThr (fun t => { t with hand := h, xpc := 0x48, xhpc := 0x40 }) (on (.xret fr (g 2)) [(2, v)])
    let u : Use := { src := [(0, g 2)], priv := 1 }
    shows (s (.thrctlGetst fr o) 0x400) (thrUse o) (fun s => (opDone s, ((List.range 128).map fun i => s.read (0x400 + 8 * i) 8).contains 0x77))
        = some (some 0, true)
      ∧ trap (s (.thrctlGetst fr o) (2 ^ 55)) (thrUse o) = some 9
      ∧ shows (s (.thrctlSetst fr o) 0x400) (thrUse o) opDone = some (some 0)
      ∧ trap (x 0 false) u = some 9 ∧ shows (x 0 true) u pcOf = some 0x48 ∧ trap (x 4 true) u = some 7 ∧ shows (x 8 true) u pcOf = some 8 := by
  decide +kernel

/-- R395, R396: barrier images at the ends of their range; a translation dropped and one kept. -/
theorem witness_SystemCommands_barriers_and_translations :
    let o : O2 := ⟨d 1, g 2, g 3⟩
    let p : S2 := ⟨g 2, g 3⟩
    let u : Use := { use2 o with priv := 1 }
    let save (a first n : Nat) : State := mapped (on (.barsave fr o) [(2, a), (3, first + n * 2 ^ 10)])
    let inv (a v : Nat) : State := mapped (on (.tlbinv fr .core p) [(2, a), (3, v)])
    let w : Use := { useS2 p with priv := 1 }
    let tlb (s : State) : Nat := (s.core 0).tlb.length
    shows (save 0 1023 1) u opDone = some (some 0) ∧ shows (save 0 1023 2) u opDone = some (some 2) ∧ trap (save 0 1023 0) u = some 2
      ∧ trap (save 64 0 1) u = some 7
      ∧ shows (onCtx (fun c => { c with bar0 := 1023, barn := 1 }) (save 0 1023 1)) u opDone = some (some 1)
      ∧ shows (mapped (on (.barrest fr o) [(2, 0), (3, 2 ^ 10)])) u opDone = some (some 0)
      ∧ shows (inv 0 0x10000) w tlb = some 1 ∧ shows (inv 0 0) w tlb = some 0 ∧ shows (inv 1 1) w tlb = some 1 ∧ shows (inv 64 1) w tlb = some 0
      ∧ trap (inv 128 0) w = some 2 ∧ trap (inv 0 2) w = some 2 ∧ trap (inv 0 (2 ^ 55)) w = some 2 := by decide +kernel

/-- R392, R397, R398: a spare core, a core in use, one that failed, numbers past the end; a test; records of the error log. -/
theorem witness_SystemCommands_map_test_and_log :
    let o : O2 := ⟨d 1, g 2, g 3⟩
    let q : O1 := ⟨d 1, g 2⟩
    let u : Use := { use2 o with priv := 1 }
    let m (a v : Nat) : State := (on (.mapset fr o) [(2, a), (3, v)]).modDie 0 fun d => { d with failed := [98] }
    let t (a : Nat) : State := on (.selftest fr q) [(2, a)]
    let e (a r : Nat) : State := mapped ((on (.errrd fr o) [(2, a), (3, r)]).modPkg 0 fun k =>
      { k with errProd := 4097, errLog := [(1, List.replicate 64 7), (4096, List.replicate 64 9)] })
    (shows (m 3 99) u (fun s => (opDone s, s.phys 3)) = some (some 0, 99) ∧ shows (m 3 3) u opDone = some (some 0) ∧ shows (m 3 4) u opDone = some (some 1)
      ∧ shows (m 3 98) u opDone = some (some 2) ∧ shows (m 3 100) u opDone = some (some 3) ∧ shows (m 96 99) u opDone = some (some 3)
      ∧ trap (m 512 99) u = some 2 ∧ trap (m 3 128) u = some 2)
      ∧ (shows (t (99 + 512)) (priv1 q) (fun s => ((s.die 0).testing, (s.thr 0).opW)) = some ([99], some (.test 0 99))
      ∧ shows (t (3 + 512)) (priv1 q) opDone = some (some 2) ∧ shows (t 99) (priv1 q) opDone = some (some 3) ∧ trap (t 2048) (priv1 q) = some 2)
      ∧ shows (e 0x40 4096) u (fun s => (opDone s, s.byte 0x7F)) = some (some 0, 9) ∧ shows (e 0x40 1) u (fun s => (opDone s, s.byte 0x40)) = some (some 0, 7)
      ∧ shows (e 0x40 0) u opDone = some (some 2) ∧ shows (e 0x40 4097) u opDone = some (some 1) ∧ trap (e 0x20 0) u = some 7 := by decide +kernel

/-- A descriptor of 128 bytes at 0x4000: 64 slots, a queue of 16 records, a save area past the supervisor's, barriers 8 to 11, die 0. -/
def descriptor (s : State) : State :=
  (((((s.write 0x400A 2 64).write 0x4020 1 4).write 0x4024 4 0x860000).write 0x402C 2 8).write 0x402E 2 4).write 0x4040 4 1 |>.modPkg 0 fun k => { k with featLock := true }

/-- R383, R394: creation at each end of the context numbers, of a live context, without FEAT_LOCK, of a bad descriptor; destruction. -/
theorem witness_ContextCommands_create :
    let o : O2 := ⟨d 1, g 2, g 3⟩
    let u : Use := { use2 o with priv := 1 }
    let c (n v : Nat) : State := descriptor (on (.ctxswCreate fr o) [(2, n), (3, v)])
    let x (s : State) : Option Nat × List (Nat × Nat) := (opDone s, s.ctxs.map fun e => (e.1, e.2.barn))
    let live (st : Nat) (s : State) : State := s.setCtx 0 9 { slots := 1, st := [(0, st)] }
    let des (n v : Nat) : State := live 1 (on (.ctxswDestroy fr o) [(2, n), (3, v)])
    shows (c 1 0x4000) u x = some (some 0, [(0, 0), (1, 4)]) ∧ shows (c 63 0x4000) u x = some (some 0, [(0, 0), (63, 4)])
      ∧ shows (c 0 0x4000) u x = some (some 2, [(0, 0)]) ∧ trap (c 64 0x4000) u = some 2
      ∧ shows (c 1 0x4040) u opDone = some (some 2) ∧ shows (c 1 0x5000) u opDone = some (some 2) ∧ shows (live 1 (c 9 0x4000)) u opDone = some (some 1)
      ∧ shows (on (.ctxswCreate fr o) [(2, 1), (3, 0x4000)]) u opDone = some (some 3)
      ∧ shows (des 9 0) u x = some (some 0, [(0, 0)]) ∧ shows (des 8 0) u opDone = some (some 1) ∧ trap (des 9 1) u = some 2
      ∧ shows ((launched 0 (des 9 0)).modLaunch 1 fun l => { l with ctx := 9 }) u opDone = some (some 4) := by decide +kernel

/-- R386, R388: pre-emption of a running context and of one that is not, resumption of a pre-empted one. -/
theorem witness_ContextCommands_switch :
    let o : O2 := ⟨d 1, g 2, g 3⟩
    let u : Use := { use2 o with priv := 1 }
    let live (st : Nat) (s : State) : State := s.setCtx 0 9 { slots := 1, st := [(0, st)] }
    let p (st v : Nat) : State := live st (on (.ctxswPreempt fr o) [(2, 9), (3, v)])
    let r (st v : Nat) : State := live st (on (.ctxswResume fr o) [(2, 9), (3, v)])
    let st (s : State) : Option Nat × Nat := (opDone s, Tab.getOr (s.ctx 0 9).st 0 0)
    shows (p 1 1) u (fun s => ((s.thr 0).opW, Tab.getOr (s.ctx 0 9).st 0 0)) = some (some (.preempt 9 1), 2)
      ∧ shows (p 3 15) u st = some (some 6, 3) ∧ trap (p 1 16) u = some 2
      ∧ shows (r 3 1) u st = some (some 0, 1) ∧ shows (r 1 1) u st = some (some 6, 1) ∧ shows (r 3 2) u st = some (some 6, 3) := by decide +kernel

/-- R99, R100, R102: a record that is read, one that is misplaced, one that cannot be read; waits for a launch. -/
theorem witness_Launching :
    let o : O1 := ⟨d 1, g 2⟩
    let q : O2 := ⟨d 1, g 2, g 3⟩
    let u : Use := { use1 o with priv := 2, vl := true, close := true }
    let v : Use := { use2 q with priv := 2, vl := true }
    let l (a : Nat) : State := mapped (on (.launch fr o) [(2, a)])
    let w (h b : Nat) : State := launched 0 (on (.lwait fr q) [(2, h), (3, b)])
    let ks (s : State) : List PK := (s.thr 0).pend.map (·.k)
    shows (l 0x400) u ks = some [.value 0x100000000000000 none] ∧ trap (l 0x420) u = some 7 ∧ trap (l 0x10000) u = some 8
      ∧ shows (w 9 0) v ks = some [.lwait 9] ∧ shows (w 9 1) v ks = some [.value 0xFF none] ∧ shows (w 8 0) v ks = some [.value 0xFE none] := by
  decide +kernel

/-! ### Events of threads and pipes (R106 to R114, R122, R142, R236, R294, R378, R472) -/

/-- Thread 0 stands before a clause of one word, NOP, at 0x100, and no pipe has a gang. -/
def waiting : State :=
  let s := mapped (onThr (fun t => { t with inGang := false, pc := 0x100, hpc := 0x100, fresh := true, hdr := 0 }) (on (.nop fr) []))
  ({ s.setPipe 0 0 {} with iss := none }.write 0x100 8 0xA0000000).write 0x108 8 (match encode (.nop fr) with | some x => x.1.toNat | none => 0)

/-- A pipe with a gang; one that forms a gang; one with a parked gang whose wait has ended; one with nobody ready. -/
theorem witness_ThreadEvents_pick :
    let s := on (.nop fr) []
    let g : Gang := { ctx := 0, hpc := 0x100, hdr := 0xA0000000, words := [0xB850], members := [0], why := .hold }
    let parked := { waiting.setPipe 0 0 { parked := [g] } with threads := (onThr (fun t => { t with inGang := true }) waiting).threads }
    let gang (s : State) : Option (Word × List Nat × Why) := (s.pipe 0 0).gang.map fun g => (g.hpc, g.members, g.why)
    next (execPipePick 0 0 .none s) = s
      ∧ gang (next (execPipePick 0 0 .none waiting)) = some (0x100, [0], .running)
      ∧ ((parked.arriveAll 0 0).released g = true ∧ gang (next (execPipePick 0 0 .none parked)) = some (0x100, [0], .running))
      ∧ gang (next (execPipePick 0 0 .none (onThr (fun t => { t with st := .stopped }) waiting))) = none := by decide +kernel

def pending (q : Pend) (s : State) : State := onThr (fun t => { t with pend := [q], r := { t.r with pendG := 2 }, c := { t.c with ldc := 1 } }) s

/-- A part of an access of 8 bytes at address 0x40 of the mapped page. -/
def piece : Piece := { va := 0x40, n := 8, xl := some ⟨0x3F, 0, false⟩ }

/-- Sleeps before and at their end; a result; a wait whose word has changed, has not, and has run out of time; a tile's state. -/
theorem witness_ThreadEvents_waits :
    let s := waiting
    let value := pending { u := 16, gid := 0, k := .value 5 none, d := .reg 1 } s
    let acc : Acc := { space := .glob, k := .load, size := 8, acq := true, pieces := [piece] }
    let wait (cmp : Word) (n : Nat) : State :=
      (pending { u := 16, gid := 0, k := .waita acc cmp (some (10, n)), d := .reg 1 } (s.write 0x40 8 7)).setALine 0 0 { st := .M }
    let tile (st : TileState) : State := tiled [(63, flat .ready)] (pending { u := 16, gid := 0, k := .twait 63 st, d := .reg 1 } s)
    let sleep (n : Nat) : State := onThr (fun t => { t with sleep := n }) s
    let ended (s : State) : Nat × Nat := ((s.thr 0).pend.length, reg s 1)
    (((next (execSleepExpire 0 (sleep 0))).thr 0).sleep = 0 ∧ ((next (execSleepExpire 0 (sleep 1))).thr 0).sleep = 1)
      ∧ ended (next (execVariableLatencyResult 0 16 value)) = (0, 5)
      ∧ ended (next (execWaitaWake 0 16 (wait 7 1))) = (1, 0) ∧ ended (next (execWaitaWake 0 16 (wait 6 1))) = (0, 7)
      ∧ ended (next (execWaitaTimeout 0 16 (wait 7 1))) = (1, 0) ∧ ended (next (execWaitaTimeout 0 16 (wait 7 0))) = (0, 7)
      ∧ ended (next (execTwaitComplete 0 16 (tile .ready))) = (0, (flat .ready).word1.toNat)
      ∧ ended (next (execTwaitComplete 0 16 (tile .empty))) = (1, 0)
      ∧ ((next (execTreadyComplete 0 63 (tiled [(63, { flat .empty with publ := true })] s))).tile 0 63).st = .ready := by decide +kernel

/-- A load and a store of one part perform; a held record is written once there is room. -/
theorem witness_ThreadEvents_accesses :
    let s := waiting
    let a : Acc := { space := .store, k := .load, size := 8, pieces := [{ va := 0, n := 8, loc := some (lsLoc 0 0) }] }
    let l := pending { u := 16, gid := 5, k := .acc a, d := .reg 1 } (s.write (lsLoc 0 0) 8 9)
    let e : SbE := { u := 16, gid := 5, k := .store, space := .store, pieces := [{ va := 0, n := 8, loc := some (lsLoc 0 0), data := 6, mask := 255 }] }
    let t := onThr (fun t => { t with sb := [e], c := { t.c with suc := 1 } }) s
    let rec64 : List Byte := 7 :: List.replicate 63 0
    let h := onCtx (fun c => { c with fqbase := 0x8000, fqlog := 4, held := [⟨rec64⟩] }) s
    let full := onCtx (fun c => { c with prod := 16 }) h
    (l.gidPends 0 5 = ((l.thr 0).pend.map fun q => (0, q)) ∧ l.gidOpen 0 5 = false
      ∧ reg (next (execLoadReturn 0 16 .none l)) 1 = 9)
      ∧ (t.heldParts 0 5 = [] ∧ (let u := next (execStorePerform 0 16 t); (u.read (lsLoc 0 0) 8, (u.thr 0).c.suc) = (6, 0)))
      ∧ ((next (execHeldRecordWrite 0 h)).read 0x8080 1 = 7 ∧ (next (execHeldRecordWrite 0 h)).read 0x8000 8 = 1)
      ∧ full.fqFull (full.ctx 0 0) = true := by decide +kernel

/-- The watchdog and the deadlocked pool one cycle before and at their count (R112, R142); room that has come (R472). -/
theorem witness_ThreadEvents_watchdogs :
    let s := waiting
    let age (n : Nat) : State := onThr (fun t => { t with ready := n, fresh := false, hdr := 0xA0000000 }) s
    let dead (n : Nat) : State :=
      onCore (fun c => { c with dead := n, poolq := [⟨[0], 0⟩] }) (onThr (fun t => { t with hold := true, xwant := true, pc := 0x108, nw := 1 }) s)
    let g : Gang := { ctx := 0, hpc := 0x100, hdr := 0xA0000000, words := [0xB850], members := [0], todo := [0], why := .room 4 }
    let room := s.setPipe 0 0 { parked := [g] }
    ((next (execProgressWatchdog 0 0 (age (2 ^ 20 - 1)))) = age (2 ^ 20 - 1) ∧ fault (next (execProgressWatchdog 0 0 (age (2 ^ 20)))) = some 0x14)
      ∧ (next (execPoolDeadlock 0 (dead (2 ^ 16 - 1))) = dead (2 ^ 16 - 1) ∧ fault (next (execPoolDeadlock 0 (dead (2 ^ 16)))) = some 6)
      ∧ room.hasRoom 0 4 = true ∧ ((next (execResourceRoomResume 0 0 room)).pipe 0 0).parked.map (·.why) = [.running] := by decide +kernel

/-! ### Events of launches (R100 to R104, R212) -/

/-- Launch 1 of context 0 with these stages, queues and dies; its record asked for `attr`, and its LAUNCH waits or not. -/
def staged (attr : Nat) (stages : List StageR) (queues : List QueueR) (dies : List LDie) (s : State) : State :=
  (launched 0 s).modLaunch 1 fun l => { l with attr := attr, stages := stages, queues := queues, dies := dies }

def stage (inq outq : Nat) : StageR := ⟨0x100, 1, 0, false, 0, inq, outq, 3, 1⟩

/-- The results on their way to thread 0. -/
def coming (s : State) : List PK := (s.thr 0).pend.map (·.k)

/-- LAUNCH's answer with room, without a slot, and from a lost package; its thread is then placed on core 3. -/
theorem witness_LaunchEvents_answer :
    let on_ (dk : Nat) : State := staged 0 [stage 255 255] [] [{ dk := dk }] (pending { u := 16, gid := 0, k := .launch 1, d := .reg 1 } waiting)
    let s := on_ 0
    let none_ := onCtx (fun c => { c with slots := 0 }) s
    let lost := ((on_ (dieKey 1 0)).modPkg 1 fun k => { k with cell := 1 }).modPkg 0 fun k => { k with lostCells := 2 }
    let go (s : State) : State := next (execLaunchAnswer 1 s)
    ((s.isLost 0 0 = false ∧ s.reaches 0 0 = true) ∧ coming (go s) = [.value 9 none] ∧ ((go s).thr (thrKey 3 0)).st = .placed)
      ∧ ((none_.launchThreads 1).length = 1 ∧ coming (go none_) = [.value 0x500000000000000 none]) ∧ coming (go lost) = [.value 0x200000000000000 none]
      ∧ (let far := on_ (dieKey 1 0); far.reaches 0 1 = false ∧ coming (go far) = [.launch 1]) := by
  decide +kernel

/-- The start barrier with a die that has not arrived and with all arrived, and its timeout one cycle before and at CTX_TIMEOUT. -/
theorem witness_LaunchEvents_barrier :
    let one (a st : Bool) : LDie := { dk := 0, answered := true, arrived := a, started := st }
    let placed := onThr (fun t => { t with st := .placed }) waiting
    let s (a : Bool) : State := staged 0 [] [] [one true false, { one a false with dk := 1 }] placed
    let st (s : State) : TStat := (s.thr 0).st
    let wait (n : Nat) : State := let x := (s false).setThr 0 {}; { x with clock := n }
    let ns := (waiting.ctx 0 0).timer
    st (next (execLaunchStart 1 0 (s false))) = .placed ∧ st (next (execLaunchStart 1 0 (s true))) = .live
      ∧ ((next (execStartBarrierTimeout 1 (wait (ns - 1)))).launches.length = 1 ∧ (wait ns).launchThreads 1 = []
        ∧ (next (execStartBarrierTimeout 1 (wait ns))).launches = []) := by decide +kernel

/-- A launch with a thread, and with none left: the waiting LWAIT then completes; LBAR's waiters of the last number go on. -/
theorem witness_LaunchEvents_complete :
    let s := launched 0 (pending { u := 16, gid := 0, k := .lwait 9, d := .reg 1 } waiting)
    let over_ := onThr (fun t => { t with launch := none }) (s.modLaunch 1 fun l => { l with killed := 2, status := 2 })
    let at_ (n : Nat) : State := onThr (fun t => { t with blk := [.lbar 2] }) (s.modLaunch 1 fun l => { l with lbarN := n })
    (next (execLaunchComplete 1 s)).launches.length = 1
      ∧ (over_.launchThreads 1 = [] ∧ coming (next (execLaunchComplete 1 over_)) = [.value 0x200000002 none])
      ∧ ((next (execLbarRelease 1 0 (at_ 2))).thr 0).blk = [.lbar 2] ∧ ((next (execLbarRelease 1 0 (at_ 3))).thr 0).blk = [] := by decide +kernel

/-- Rebalancing one cycle before and at its turn: stage 0's queue is 13 of 16 full, and stage 1 waits at a queue of 3 of 16. -/
theorem witness_LaunchEvents_rebalance :
    let q : QueueR := ⟨0, 0, 8, 16⟩
    let die (n m : Nat) : LDie := { dk := 0, answered := true, arrived := true, started := true, qs := [(0, (0, n)), (1, (0, m))] }
    let s (n m attr clock : Nat) : State :=
      let x := staged attr [stage 0 255, stage 1 255] [q, q] [die n m]
        (onThr (fun t => { t with stage := 1, pend := [{ u := 16, gid := 0, k := .qpop 1 1, d := .run 1 1, pn := 0 }] }) waiting)
      { x with clock := clock }
    let go (s : State) : Bool × Nat := let t := (next (execRebalance 0 s)).thr 0; (t.retired, t.pend.length)
    go (s 13 3 16 1023) = (false, 1) ∧ go (s 13 3 16 1024) = (true, 0) ∧ go (s 12 3 16 1024) = (false, 1) ∧ go (s 13 4 16 1024) = (false, 1)
      ∧ go (s 13 3 0 1024) = (false, 1) := by decide +kernel

/-! ### Events of a core's engines (R303 to R309) -/

/-- A command of thread 0 that has begun. -/
def cmdOf (k : CmdK) : Cmd :=
  { u := 20, ticket := 0, tk := 0, ctx := 0, launch := none, tid := 0, pc := 0, hdr := 0, word := 0, k := k, began := true }

/-- A copy reads and writes a part at a time: it waits where the source has not been read, completes with its last write, has no
choice past its parts, and stops at a poisoned line; a failing line of it stops it, another does not. -/
theorem witness_EngineEvents_copy :
    let s (n : Nat) : State := onCore (fun c =>
        { c with copyq := [cmdOf (.cpy (.loc (lsLoc 0 0x8000)) (.loc (lsLoc 0 0x9000)) 1 n n none none)] })
      (waiting.write (lsLoc 0 0x8000) 8 0x77)
    let q (s : State) : List Nat := ((s.core 0).copyq.map fun c => c.pos) ++ ((s.core 0).ticks.map fun t => t.2.done.getD 9)
    let go (k : Nat) (s : State) : State := next (execCopyComplete 0 20 k s)
    let line : Nat := lsLoc 0 0x9000 / 128
    let far : State := onCore (fun c => { c with copyq := [cmdOf (.cpy (.glob 0x800) (.loc (lsLoc 0 0x9000)) 1 16 16 none none)] })
      (waiting.setALine 0 16 { st := .M, psn := true })
    (q (go 1 (go 0 (s 32))) = [16] ∧ q (go 1 (s 16)) = [0] ∧ q (go 40 (s 16)) = [0] ∧ (go 1 (go 0 (s 16))).read (lsLoc 0 0x9000) 8 = 0x77
        ∧ q (go 1 (go 0 (s 16))) = [0] ∧ ((go 1 (go 0 (s 16))).core 0).copyq = [] ∧ q (go 0 far) = [2])
      ∧ q (next (execCopyFailure 0 20 line (s 32))) = [2] ∧ q (next (execCopyFailure 0 20 (line + 1) (s 32))) = [0] := by decide +kernel

/-- An accumulator and an output of one element, and operands of one row of 32. -/
def little (acc : TileState) (m : List Cmd) (s : State) : State :=
  let one (n : Nat) (st : TileState) : Tile := { flat st with rows := 1, cols := 1, base := n, loc := lsLoc 0 n }
  let op (n : Nat) : Tile := { flat .ready with rows := 1, fmt := 2, plane := true, base := n, loc := lsLoc 0 n, readers := 1 }
  onCore (fun c => { c with matq := m })
    (tiled [(60, one 0x1000 acc), (61, op 0x2000), (62, op 0x3000), (63, one 0x4000 .filling)] s)

/-- A slab whose residues agree, one that differs at first and at last, and a product of one slab that completes. -/
theorem witness_EngineEvents_slab :
    let s (r : Bool) : State := little .filling [{ cmdOf (.mma (BitVec.ofNat 64 mmaImage)) with retried := r }] waiting
    let q (m : Nat) (s : State) : Nat × TileState × List Nat :=
      let t := next (execSlabStep 0 m s)
      ((t.core 0).matq.length, (t.tile 0 60).st, (t.core 0).ticks.map fun t => t.2.done.getD 9)
    q 0 (s false) = (0, .ready, [0]) ∧ q 1 (s false) = (1, .filling, []) ∧ (q 1 (s true)).2.2 = [2] ∧ (q 2 (s false)).2.2 = [2] := by
  decide +kernel

/-- A grid of two cores that one has joined, one cycle before and at CTX_TIMEOUT; one whose cores disagree; an epilogue of one row of four
bytes into a tile. -/
theorem witness_EngineEvents_grid_and_epilogue :
    let clus : Word := 0x400
    let g : GridOp := { id := 30, ctx := 0, trail := false, clus := clus, since := 0,
                        mem := [{ ck := 0, u := 20, clus := clus, shape := [1, 1, 32, 1], fa := some 2, fb := some 2 }] }
    let t (n : Nat) : State :=
      let x := (little .filling [cmdOf (.mmac (BitVec.ofNat 64 mmaImage) clus)] waiting).modDie 0 fun d => { d with grids := [g] }
      { x with clock := n }
    let n := (waiting.ctx 0 0).timer
    let grids (s : State) : Nat := s.dies.foldl (fun n d => n + d.2.grids.length) 0
    let left (s : State) : Nat := grids (next (execMmacTimeout 0 s))
    let odd := (t 0).modDie 0 fun d =>
      { d with grids := d.grids.map fun g => { g with mem := g.mem ++ [{ ck := 1, u := 21, clus := clus, shape := [1, 2, 32, 1], fa := some 2, fb := some 2 }] } }
    let e := little .draining [cmdOf (.mepi (BitVec.ofNat 64 (3 * 64 + 2 ^ 13)) none 0 0)] (waiting.write (lsLoc 0 0x1000) 4 0x40000000)
    let step (s : State) : State := next (execEpilogueRowStep 0 0 s)
    let f := step (step (step (step e)))
    (left (t (n - 1)) = 1 ∧ left (t n) = 0 ∧ grids (next (execSlabStep 0 0 odd)) = 0) ∧ f.read (lsLoc 0 0x4000) 4 = 0x40000000 ∧ (f.tile 0 63).st = .ready := by decide +kernel

/-! ### Events of the collective engine (R349 to R366) -/

/-- The image of operation `op` of communicator 2, with root 3. -/
def collCmd (op : Nat) : Cmd :=
  cmdOf (.coll (BitVec.ofNat 64 (op + 0x200 + (if op = 5 then 0x3000 else 0))) (.glob 0x1000) (.glob 0x2000) 4096)

/-- The die's member of communicator 2 with an operation, and messages that have arrived. -/
def joined (op : CollOp) (l : List Msg) (s : State) : State :=
  let x : State := (bound (mapped s)).modDie 0 fun d => { d with ops := [op] }
  { x with net := l }

def opOf (op : Nat) : CollOp := { comm := 2, seq := 1, cmd := collCmd op, since := 0, begun := true }

/-- A message of communicator 2 from die 3, with no blocks. -/
def chunk (u kind half step : Nat) : Msg :=
  { u := u, ty := .chunk, src := 0, dst := 0, req := 0, kind := kind, sdie := 3, ddie := 0, comm := 2, seq := 1, half := half, step := step,
    st := .arrived }

/-- The package holds 32 lines from 0x2000 on modified. -/
def owning (s : State) : State := (List.range 32).foldl (fun s k => s.setALine 0 (64 + k) { st := .M }) s

/-- Messages under way: kind and status. -/
def answersOf (s : State) : List (Nat × Nat) := s.net.map fun m => (m.kind, m.status)

/-- A chunk with both halves is written part by part, then taken and acknowledged, one whose tag failed, one that came before, one of an older ring and one of
no communicator are not; a token; an
acknowledgement; a refusal. -/
theorem witness_CollectiveEvents_messages :
    let two := [chunk 7 0 0 2, chunk 8 0 1 2]
    let last : CollOp := { opOf 5 with cmd := { collCmd 5 with wr := (List.range 255).map fun k => (16 * k, 16) } }
    let s := owning (joined last two waiting)
    let go (p : Instr) (s : State) : State := next (match p with
      | .chunkData p j k => execChunkData p j k s | .barrierToken p j => execBarrierToken p j s
      | .chunkAcknowledgement p j => execChunkAcknowledgement p j s | .chunkRefusal p j => execChunkRefusal p j s | _ => .next s)
    let t := go (.chunkData 0 7 0) s
    let kinds (s : State) : List Nat := s.net.map (·.kind)
    let op (s : State) : Option (List Nat × Nat × Nat) := (s.collOp 0 2 1).map fun o => (o.tokens, o.out.length, o.done.length)
    (((go (.chunkData 0 7 0) (owning (joined (opOf 5) two waiting))).die 0).ops.map (fun o => o.cmd.wr) = [[(0, 16)]] ∧ kinds t = [1] ∧ op t = some ([], 0, 1) ∧ (s.sibling 0 (chunk 7 0 0 2)).isSome = true)
      ∧ answersOf (go (.chunkData 0 7 0) (joined (opOf 5) [{ chunk 7 0 0 2 with bad := true }] waiting)) = [(0, 0), (0, 9)]
      ∧ ((go (.chunkData 0 7 0) { t with net := two }).die 0).dup = 1
      ∧ ((go (.chunkData 0 7 0) (joined (opOf 5) [{ chunk 7 0 0 2 with txid := 3 }] waiting)).die 0).dup = 1
      ∧ kinds (go (.chunkData 0 7 0) ((joined (opOf 5) [chunk 7 0 0 2] waiting).modDie 0 fun d => { d with comms := [] })) = []
      ∧ op (go (.barrierToken 0 7) (joined (opOf 6) [chunk 7 2 0 0] waiting)) = some ([3], 0, 0)
      ∧ op (go (.chunkAcknowledgement 0 7) (joined { opOf 5 with out := [(3, 0, 2)] } [chunk 7 1 0 2] waiting)) = some ([], 0, 0)
      ∧ op (go (.chunkRefusal 0 7) (joined (opOf 5) [chunk 7 3 0 2] waiting)) = none := by decide +kernel

/-- A triggered chunk of 32 bytes is written, a part at a time, where its communicator is bound, and refused where it is not. -/
theorem witness_CollectiveEvents_triggered :
    let half (u h : Nat) : Msg :=
      { chunk u 4 h 32 with line := 0x2000, bind := 15, pres := 1, bytes := if h = 0 then List.replicate 32 0x55 else [] }
    let s := owning (joined (opOf 5) [half 7 0, half 8 1] waiting)
    let no := s.modDie 0 fun d => { d with comms := [] }
    let half1 := next (execChunkTriggered 0 7 0 s)
    let t := next (execChunkTriggered 0 7 0 half1)
    ((half1.die 0).puts.length = 1 ∧ t.read 0x2010 8 = 0x5555555555555555 ∧ t.read 0x2020 8 = 0 ∧ answersOf t = [(1, 1)])
      ∧ answersOf (next (execChunkTriggered 0 7 0 no)) = [(3, 1)] := by decide +kernel

/-- A bind and an operation that the other members do not join, one cycle before and at CTX_TIMEOUT. -/
theorem witness_CollectiveEvents_timeouts :
    let n := (waiting.ctx 0 0).timer
    let b : BindOp := { comm := 2, cmd := collCmd 0, since := 0 }
    let s (k : Nat) : State := let x := (joined { opOf 5 with begun := false } [] waiting).modDie 0 fun d => { d with binds := [b] }; { x with clock := k }
    let left (s : State) : Nat × Nat := ((s.die 0).binds.length, (s.die 0).ops.length)
    let g := (s 0).bindGroup 0 b
    (g = [(0, b)] ∧ left (next (execCollBindTimeout 0 2 (s (n - 1)))) = (1, 1) ∧ left (next (execCollBindTimeout 0 2 (s n))) = (0, 1))
      ∧ left (next (execCollMatchTimeout 0 2 (s (n - 1)))) = (1, 1) ∧ left (next (execCollMatchTimeout 0 2 (s n))) = (1, 0) := by decide +kernel

/-- A ring whose next member is in a package without a path: another order, no order, and the timeout of none; and an arbiter with
nothing to send and with a token. -/
theorem witness_CollectiveEvents_ring_and_arbiter :
    let ring (l : List (Nat × Nat)) (s : State) : State := s.modDie 0 fun d => { d with comms := [(2, { st := 2, ring := l, nbuf := 2 })] }
    let s := joined (opOf 6) [] waiting
    let far := ring [(0, 0), (1, 0), (0, 1)] s
    let go (s : State) : Comm := (next (execRingReform 0 2 s)).comm 0 2
    let late (n : Nat) : State := let x := far.modComm 0 2 fun c => { c with noPath := some 0 }; { x with clock := n }
    let n := (waiting.ctx 0 0).timer
    let item : CollOut := ⟨2, 1, 0, 0, [], 0⟩
    let near := joined { opOf 6 with told := true, ready := [item] } [] waiting
    let arb (s : State) : List Nat := (next (execEngineArbitrate 0 16 0 s)).net.map (·.kind)
    (go s = s.comm 0 2 ∧ (go far).noPath = some 0 ∧ (go (late (n - 1))).st = 2 ∧ (go (late n)).st = 3)
      ∧ arb near = [2] ∧ arb waiting = [] := by decide +kernel

/-! ### Coherence (R327 to R345) -/

/-- A message about line 64 from package 1 that has arrived at package 0, which is the line's home. -/
def toHome (ty : MsgTy) : Msg := { u := 7, ty := ty, src := 1, dst := 0, req := 1, line := 64, txid := 32, st := .arrived }

def mailed (l : List Msg) (s : State) : State := { s with net := l }

/-- What has been sent: type, kind, sequence and status. -/
def post (s : State) : List (MsgTy × List Nat) := s.net.map fun m => (m.ty, [m.dst, m.kind, m.seq, m.status])

/-- GetS, GetM, GetU and Flush on an uncached line, on a line of which the firewall refuses the cell, and on a poisoned line; a busy
line; a failed tag. -/
theorem witness_HomeRequests_grants :
    let s (ty : MsgTy) : State := mailed [toHome ty] waiting
    let home (s : State) : DirSt × Nat × Bool := let d := s.dir 64; (d.st, d.cells.toNat, d.tx.isSome)
    let closed (s : State) : State := s.modPkg 0 fun k => { k with fw := [(0, 0xFFFE)] }
    let psn (s : State) : State := s.setDir 64 { psn := true }
    let S := next (execGets 0 7 (s .getS))
    let F := next (execGets 0 7 (closed (s .getS)))
    (home S = (.excl, 0, true) ∧ home F = (.shared, 1, true) ∧ home (next (execGets 0 7 (psn (s .getS)))) = (.shared, 1, true)
      ∧ post S = [(.data, [1, 0, 5, 5])])
      ∧ home (next (execGetm 0 7 (s .getM))) = (.excl, 0, true) ∧ post (next (execGetm 0 7 (closed (s .getM)))) = [(.nak, [1, 0, 0, 0])]
      ∧ home (next (execGetu 0 7 (s .getU))) = (.update, 1, true) ∧ home (next (execFlush 0 7 (s .flush))) = (.uncached, 0, true)
      ∧ ((next (execGets 0 7 ((s .getS).setDir 64 { tx := some { k := .recall } }))).dir 64).queue.length = 1
      ∧ post (next (execGets 0 7 (mailed [{ toHome .getS with bad := true }] waiting))) = [(.getS, [0, 0, 0, 0]), (.ack, [1, 0, 0, 9])]
      ∧ ((next (execHomeDequeueRequest 64 (waiting.setDir 64 { queue := [toHome .getS] }))).dir 64).st = .excl := by decide +kernel

/-- Puts of the owner, of one that no longer has the line in its buffer, of an owner with sharers, and a partial. -/
theorem witness_HomeRequests_puts :
    let part (u : Bool) : Option Part := if u then some ⟨⟨0, false, false, false⟩, [(8, 5)]⟩ else none
    let s (ty : MsgTy) (put : Option LineSt) (d : Dir) : State :=
      (mailed [{ toHome ty with part := part (ty == .putU) }] (waiting.setALine 1 64 { put := put, putPart := part (put == some .U) })).setDir 64 d
    let home (s : State) : DirSt × Nat × Bool := let d := s.dir 64; (d.st, d.cells.toNat, d.tx.isSome)
    home (next (execPutm 0 7 (s .putM (some .M) { st := .excl }))) = (.uncached, 0, true)
      ∧ home (next (execPutm 0 7 (s .putM none { st := .excl }))) = (.excl, 0, true)
      ∧ home (next (execPuto 0 7 (s .putO (some .O) { st := .owned, cells := 2 }))) = (.shared, 2, true)
      ∧ (let t := next (execPutu 0 7 (s .putU (some .U) { st := .update, cells := 1, bind := some ⟨0, false, false, false⟩ }))
         ((t.dir 64).st, t.read 0x2008 8) = (.uncached, 5)) := by decide +kernel

/-- A message of the home, about line 64, to package 0. -/
def fromHome (ty : MsgTy) (kind : Nat) : Msg := { toHome ty with src := 1, kind := kind }

/-- Line 64 in a state and a message about it; the state that a message leaves with what is sent. -/
def held (ty : MsgTy) (kind : Nat) (st : LineSt) : State :=
  (mailed [fromHome ty kind] waiting).setALine 0 64
    { st := st, part := if st = .U then some ⟨⟨0, false, false, false⟩, [(8, 5)]⟩ else none }

def told (o : Out) : LineSt × List MsgTy × List Nat :=
  let s := next o
  ((s.aline 0 64).st, s.net.map (·.ty), s.net.map (·.status))

/-- Inv, Collect and the forwards at each state that answers them otherwise, and Inv of a line that a store still has to write. -/
theorem witness_AgentAnswers_inv_and_collect :
    told (execInv 0 7 (held .inv 0 .S)) = (.I, [.ack], [0]) ∧ told (execInv 0 7 (held .inv 0 .I)) = (.I, [.ack], [1])
      ∧ told (execCollect 0 7 (held .collect 0 .U)) = (.I, [.data], [0]) ∧ told (execCollect 0 7 (held .collect 0 .S)) = (.S, [.ack], [1])
      ∧ (let x : SPiece := { va := 0x2000, n := 8, xl := some ⟨0x3F, 0, false⟩, data := 1, mask := 255 }
         let e : SbE := { u := 16, gid := 5, k := .store, pieces := [{ x with done := true }, x] }
         let s := onThr (fun t => { t with sb := [e] }) (held .inv 0 .E)
         s.pinned 0 64 = true ∧ next (execInv 0 7 s) = s) := by decide +kernel

theorem witness_AgentAnswers_forwards :
    (told (execFwdgets 0 7 (held .fwdGetS 0 .E)) = (.S, [.data, .ack], [4, 2]) ∧ told (execFwdgets 0 7 (held .fwdGetS 0 .M)) = (.O, [.data, .ack], [4, 3])
        ∧ told (execFwdgets 0 7 (held .fwdGetS 0 .I)) = (.I, [.ack], [1]) ∧ told (execFwdgets 0 7 (held .fwdGetS 1 .O)) = (.S, [.data], [0]))
      ∧ told (execFwdgetm 0 7 (held .fwdGetM 0 .M)) = (.I, [.data], [6]) ∧ told (execFwdgetm 0 7 (held .fwdGetM 1 .M)) = (.I, [.data], [0])
      ∧ told (execFwdgetm 0 7 (held .fwdGetM 0 .S)) = (.S, [.ack], [1]) := by decide +kernel

/-- Acks of a Put, a grant and a Flush; Data, of the package itself and of another, the verdict
of its tag; a refusal and an ErrSynth fail the access. -/
theorem witness_AgentAnswers_answers :
    let acc : Acc := { space := .glob, k := .load, size := 8, pieces := [{ va := 0x2000, n := 8, xl := some ⟨0x3F, 0, false⟩ }], since := some 0 }
    let thread := pending { u := 32, gid := 0, k := .acc acc, d := .reg 1 } waiting
    let s (m : Msg) (a : ALine) : State := (mailed [m] thread).setALine 0 64 a
    let line (s : State) : ALine := s.aline 0 64
    let asked : ALine := { req := some 32 }
    let d (src seq : Nat) : Msg := { toHome .data with src := src, seq := seq }
    let late (n : Nat) : State := let x := s (toHome .inv) asked; { x with clock := n }
    let n := (waiting.ctx 0 0).timer
    let err (s : State) : Option Nat := (s.thr 0).late.head?.map (·.code)
    (line (next (execAck 0 7 (s (fromHome .ack ackPut) { put := some .M }))) = {}
        ∧ (line (next (execAck 0 7 (s { fromHome .ack ackGrant with status := 6 } asked)))).st = .M
        ∧ (line (next (execAck 0 7 (s (fromHome .ack ackFlush) { flushing := some 32 })))).flushing = none)
      ∧ (line (next (execData 0 7 (s (d 0 5) asked))) = { st := .E } ∧ line (next (execData 0 7 (s (d 1 4) asked))) = { st := .S, req := some 32, unver := some 0 }
        ∧ line (next (execData 0 7 (s (d 1 4) { asked with st := .S, unver := some 0 }))) = { st := .S }
        ∧ (line (next (execData 0 7 (s { d 1 4 with bad := true } { asked with st := .S, unver := some 0 })))).psn = true)
      ∧ (err (next (execNakfirewall 0 7 (s (toHome .nak) asked))) = some 0x0A ∧ err (next (execErrsynth 0 7 (s (toHome .err) asked))) = some 0x0C)
      ∧ (late n).timerOf 0 32 = some (0, 0, some 64) ∧ err (next (execRequestTimeout 0 32 (late (n - 1)))) = none
      ∧ err (next (execRequestTimeout 0 32 (late n))) = some 0x0B := by decide +kernel

/-- Evictions of a line in each state, and of one with a request out. -/
theorem witness_AgentAnswers_evictions :
    let part : Part := ⟨⟨0, false, false, false⟩, [(8, 5)]⟩
    let go (a : ALine) : List (MsgTy × List Nat) × LineSt :=
      let t := next (execCacheEviction 0 64 .agent .none (waiting.setALine 0 64 a)); (post t, (t.aline 0 64).st)
    go { st := .S } = ([], .I) ∧ go { st := .M } = ([(.putM, [0, 0, 0, 0])], .I) ∧ go { st := .O, psn := true } = ([(.putO, [0, 0, 0, 8])], .I)
      ∧ go { st := .U, part := some part } = ([(.putU, [0, 0, 0, 0])], .I) ∧ go { st := .S, req := some 32 } = ([], .S) := by decide +kernel

/-! ### Links (R317 to R324, R344, R345, R417, R427) -/

/-- Packages 0 and 1 and the link between them: package p's port toward q is q. Package 1 is in cell 1. -/
def linked (up : Bool) (s : State) : State :=
  let s := (s.modPkg 0 fun k => { k with booted := true }).modPkg 1 fun k => { k with present := true, booted := true, cell := 1 }
  (s.modPort 0 1 fun v => { v with up := up }).modPort 1 0 fun v => { v with up := up }

/-- A control flit on its way from package 1 to package 0; of a probe or a reply, the package the probe is for. -/
def ctl (kind seq pay : Nat) (s : State) (far : Nat := 0) : State :=
  (linked true s).modPort 1 0 fun v => { v with ctl := [⟨ctlBits kind seq pay, far⟩] }

set_option maxRecDepth 20000 in
/-- A message of one flit goes from package 1 to package 0: as it was sent, with a bit of its tag turned on the way, and to an
isolated port. -/
theorem witness_LinkEvents_data_flit :
    let s := (linked true waiting).sendMsg .inv 1 0 1 64
    let go (err : BitVec 1024) : State := next (execDataFlit 0 1 err s)
    let v (s : State) : List Nat := let v := s.port 0 1; [v.expect, v.accepted, v.ctl.length, (v.crc.toList.map (·.toNat)).sum]
    (v (go 0) = [1, 1, 0, 0] ∧ (go 0).net.map (fun m => (m.st, m.bad)) = [(.arrived, false)])
      ∧ v (go (BitVec.twoPow 1024 900)) = [0, 0, 1, 1]
      ∧ (next (execDataFlit 0 1 0 (s.modPort 0 1 fun v => { v with isolated := true }))).net = [] := by decide +kernel

set_option maxRecDepth 20000 in
/-- An ACK frees the flit it covers, and one with a bit turned is counted and dropped; a NAK sends it again; credits come back; the ACK timer one cycle before and at 256 cycles, the
retry timer at 2,047 and at 2,048. -/
theorem witness_LinkEvents_control :
    let sent (s : State) : State := s.sendMsg .inv 0 1 0 64
    let v (s : State) : Nat × Nat × Nat := let v := s.port 0 1; (v.retry.length, v.wire.length, v.replays)
    let at_ (n : Nat) (s : State) : State := { s with clock := n }
    let ack (n : Nat) : Nat := ((next (execAckTimer 0 1 (at_ n (linked true waiting)))).port 0 1).ctl.length
    let late (n : Nat) : Nat × Nat × Nat := v (next (execRetryTimeout 0 1 (at_ n (sent (linked true waiting)))))
    let credits (s : State) : Nat := ((s.port 0 1).credits.toList).sum
    v (sent (linked true waiting)) = (1, 1, 0) ∧ (v (next (execLinkAck 0 1 0 (sent (ctl 1 1 0 waiting))))).1 = 0
      ∧ (let t := next (execLinkAck 0 1 (BitVec.twoPow 1024 100) (sent (ctl 1 1 0 waiting)))
         ((t.port 0 1).crc.toList.map (·.toNat)).sum = 1 ∧ (t.port 1 0).ctl = [] ∧ (v t).1 = 1)
      ∧ v (next (execLinkNak 0 1 0 (sent (ctl 2 0 0 waiting)))) = (1, 2, 1)
      ∧ credits (next (execCreditFlit 0 1 0 (ctl 3 0 (5 + 2 * 2 ^ 16) waiting))) = credits waiting + 7
      ∧ (ack 255 = 0 ∧ ack 256 = 1) ∧ late 2047 = (1, 1, 0) ∧ late 2048 = (1, 2, 1) := by decide +kernel

/-- A port goes down at both ends and up again; a lane moves to the spare; an eye is measured; tokens accrue to the burst. -/
theorem witness_LinkEvents_ports :
    let s := linked true waiting
    let ends (s : State) : Bool × Bool := ((s.port 0 1).up, (s.port 1 0).up)
    let D := next (execPortDown 0 1 { s with clock := 9 })
    let tokens (n : Nat) : Nat := ((next (execTokenAccrual 0 1 (s.modPort 0 1 fun v => { v with tokens := n }))).port 0 1).tokens
    (ends D = (false, false) ∧ (D.path 0 1).silent = some 9 ∧ ends (next (execPortUp 0 1 D)) = (true, true)
      ∧ ((next (execPortUp 0 1 D)).path 0 1).silent = none)
      ∧ (let v := (next (execLaneSpare 0 1 3 s)).port 0 1; (v.spareUsed, v.lanes.toList) = (true, [0, 1, 2, 8, 4, 5, 6, 7]))
      ∧ (((next (execLaneEyeMeasure 0 1 8 0x21 0x43 s)).port 0 1).eye.get 8) = 0x4321
      ∧ tokens 0 = 256 ∧ tokens (512 * 256) = 512 * 256 := by decide +kernel

set_option maxRecDepth 20000 in
/-- A probe for this package and one for another, and the package's own; a reply for this package; a notice of the loss of cell 1; 100 µs of silence, one
cycle before and at their end. -/
theorem witness_LinkEvents_recovery :
    let silent (s : State) : State := s.setPath 0 1 { (s.path 0 1) with silent := some 0 }
    let out (s : State) : List Nat := (s.port 0 1).ctl.map (·.kind)
    let lost (s : State) : Nat × Nat := ((s.pkg 0).lostCells.toNat, (s.pkg 0).errProd)
    let wait (n : Nat) : State := let x := silent (linked false waiting); { x with clock := n }
    (out (next (execProbe 0 1 0 (ctl 5 0 1 waiting))) = [6] ∧ out (next (execProbe 0 1 0 (ctl 5 0 1 waiting (far := 1)))) = [5])
      ∧ (let x := ((linked true waiting).modPkg 2 fun k => { k with present := true }).setPath 0 2 { (waiting.path 0 2) with silent := some 0, relays := 2 }
         out (next (execProbe 0 1 0 x)) = [5])
      ∧ (let x := silent (ctl 6 0 0 waiting (far := 1)); ((next (execProbeReply 0 1 0 { x with clock := 7 })).path 0 1).silent = some 7)
      ∧ lost (next (execLossNotice 0 1 0 (ctl 4 0 1 waiting))) = (2, 1)
      ∧ lost (next (execLossDeclare 0 1 (wait (100 * cyclesPerUs - 1)))) = (0, 0) ∧ lost (next (execLossDeclare 0 1 (wait (100 * cyclesPerUs)))) = (2, 1) := by
  decide +kernel

/-! ### The package and its host (R11 to R18, R397, R406, R412, R418, R421 to R429) -/

/-- A reset without a root record, bring-up, and a reset of a package that does not exist. -/
theorem witness_PackageEvents_reset :
    let s := waiting.modPkg 0 fun k => { k with counter := 5, cmdStatus := 3 }
    let bad := s.modPkg 0 fun k => { k with conf := { k.conf with recs := [] } }
    let go (p : Nat) (s : State) : State := next (execPackageReset p s)
    let k (s : State) : Bool × Bool × Nat × Nat := let k := s.pkg 0; (k.booted, k.recovery, k.counter, k.cmdStatus)
    let up := (s.clearPackage 0).bringUp 0
    k up = (true, false, 5, 0) ∧ (up.thr 0).st = .live ∧ up.threads.length = 1 ∧ k (go 0 bad) = (false, true, 5, 0)
      ∧ (go 0 bad).threads = [] ∧ go 16 s = s := by decide +kernel

/-- Where the signatures of the image and of the records verify, the reset package passes. -/
theorem witness_PackageEvents_verified (image : Config.verify Config.rhavonKey (Config.sha3 []) [] = true)
    (records : Config.verify [] (Config.sha3 []) [] = true) : ((waiting.clearPackage 0).pkg 0).verified = true := by
  have c : ((waiting.clearPackage 0).pkg 0).conf = {} := by decide +kernel
  have v : ((waiting.clearPackage 0).pkg 0).versions = ({} : Pkg).versions := by decide +kernel
  simp [Pkg.verified, c, Pkg.version, v, Conf.keys, Conf.rec?, RecBody.ty, image, records]

/-- Heat and power at and beside their limits; a result of a self-test of core 99 that fails. -/
theorem witness_PackageEvents_heat_and_tests :
    let held (n : Nat) (k : Pkg) : Pkg := { k with power := List.replicate 100 2400000, clamp := n }
    let clamp (n mW : Nat) : Nat := ((next (execPowerSample 0 mW (waiting.modPkg 0 (held n)))).pkg 0).clamp
    let slow (n : Nat) : State := next (execThermalThrottle 0 n waiting)
    let half (s : State) : Bool := (s.die 0).halved
    let recs (n : Nat) : Bool := ((next (execThermalReset 0 n (waiting.modPkg 0 fun k => { k with featLock := true, conf := { k.conf with recs := [] } }))).pkg 0).featLock
    let t := (onThr (fun t => { t with opW := some (.test 0 99), hold := true, opD := .reg 1 }) waiting).modPkg 0 fun k => { k with tests := [(1, 0, 99, 3)] }
    let r (sf : Bool) : State := next (execSelftestResult 0 1 sf false 0 t)
    (clamp 2 2400000 = 0 ∧ clamp 0 2400001 = 1 ∧ clamp 1 2400001 = 2 ∧ clamp 2 2400001 = 2) ∧ (half (slow 1050) = false ∧ half (slow 1051) = true)
      ∧ (half (next (execThermalRecover 0 950 (slow 1051))) = true ∧ half (next (execThermalRecover 0 949 (slow 1051))) = false)
      ∧ (recs 1149 = true ∧ recs 1150 = false)
      ∧ (((r true).die 0).failed, opDone (r true), ((r true).pkg 0).errProd) = ([99], some 1, 1) ∧ opDone (r false) = some 0
      ∧ next (execSelftestResult 0 2 true false 0 t) = t := by decide +kernel

/-- A scrub that finds no error and a wrong symbol, which it corrects; a channel one event before and at its threshold; a pair's region
that both copies have ended and matched. -/
theorem witness_PackageEvents_memory_and_pairs :
    let s := waiting.modPkg 0 fun k => { k with booted := true }
    let scrub (e : BitVec 1088) : Nat × Bool := let t := next (execMemoryScrub 64 e s); ((t.pkg 0).errProd, decide ((t.dir 64).err = 0))
    let chan (n : Nat) : Tab Nat :=
      ((next (execChannelSpared 0 95 15 (s.modPkg 0 fun k => { k with banks := [((95 * 16 + 15) * 32, { fixed := n })] }))).pkg 0).spared
    let limit := field (s.memThr 0 95).toNat 47 32
    let pair (m : Nat) : State := ((other {} s).modThr 5 fun t => { t with pair := some { partner := 0, trail := false, slack := 1, ended := 1 } }).modThr 0
      fun t => { t with pair := some { partner := 5, trail := true, slack := 1, ended := 1, matched := m } }
    let matched (s : State) : Option Nat := (s.thr 0).pair.map (·.matched)
    (scrub 0).2 = true ∧ (scrub 1).2 = true ∧ (chan (limit - 1) = [] ∧ chan limit = [(95 * 16 + 15, 0)])
      ∧ ((pair 0).regionCmds 5 0 0 = [] ∧ matched (next (execRegionCompare 0 (pair 0))) = some 1) ∧ next (execRegionCompare 0 (pair 1)) = pair 1 := by
  decide +kernel

/-- The package open to its host, with a window of 0x20000 bytes at 0x40000. -/
def opened (s : State) : State := s.modPkg 0 fun k => { k with booted := true, hostBase := 0x40000, hostSize := 0x20000 }

def replies (s : State) : List (Nat × List Byte) := (s.pkg 0).answers.map fun a => (a.kind, a.bytes)

/-- Writes, reads and atomics at the ends of the window, at the end of the control page, misaligned, of a poisoned line and of a busy
one
in error, behind which the queue pair's later operations wait; a frame marked for congestion. -/
theorem witness_HostEvents_window :
    let s := opened (waiting.write 0x50000 8 6)
    let w (off : Nat) (l : List Byte) : State := next (execRdmaWrite 0 1 off l false s)
    let r (off n : Nat) : List (Nat × List Byte) := replies (next (execRdmaRead 0 1 off n false s))
    let fa (off : Nat) (s : State) : State := next (execFetchAdd 0 1 off 3 false s)
    let old : List Byte := leBytes 8 6
    ((s.readyLines 0 (windowLines 0x1FFFE 2)).1.isSome = true ∧ replies (w 0x1FFFE [1, 2]) = [(0, [])] ∧ (w 0x1FFFE [1, 2]).read 0x5FFFE 2 = 0x201
      ∧ replies (w 0x1FFFF [1, 2]) = [(4, [])])
      ∧ (r 0x10000 2 = [(1, [6, 0])] ∧ r 0x20000 1 = [(4, [])])
      ∧ (replies (fa 0x10000 s) = [(2, old)] ∧ (fa 0x10000 s).read 0x50000 8 = 9 ∧ replies (fa 0xFFF8 s) = [(4, [])] ∧ replies (fa 0x10004 s) = [(3, [])]
        ∧ replies (fa 0x20000 s) = [(4, [])] ∧ replies (fa 0x10000 (s.setDir (0x50000 / 128) { psn := true })) = [(5, [])])
      ∧ replies (next (execRdmaRead 0 1 0x10000 2 true s)) = [(1, [6, 0]), (answerCnp, [])]
      ∧ (let t := fa 0x10000 (s.setDir (0x50000 / 128) { tx := some { k := .recall }, err := 0x10001000100010001 })
         t.hostBehind 0 1 = true ∧ replies t = [] ∧ replies (next (execInvalidRequest 0 1 false t)) = [])
      ∧ ((next (execCompareSwap 0 1 0x10000 6 8 false s)).read 0x50000 8, (next (execCompareSwap 0 1 0x10000 7 8 false s)).read 0x50000 8) = (8, 6) := by
  decide +kernel

/-- Registers of the control page, a queue pair past the last, and a request for a report with a place for it and with none. -/
theorem witness_HostEvents_page :
    let s := opened waiting
    let fw (off : Nat) (l : List Byte) : Nat := ((next (execFeatTakeWrite 0 ⟨1, false⟩ off l s)).pkg 0).featTake.toNat
    let att (d : Word) : Nat := ((next (execAttGo 0 ⟨1, false⟩ 1 (s.modPkg 0 fun k => { k with attDest := d }))).pkg 0).attStatus
    (replies (next (execInvalidRequest 0 4095 false s)) = [(3, [])] ∧ next (execInvalidRequest 0 4096 false s) = s)
      ∧ (fw 0 [0x31] = 0x31 ∧ fw 31 [7] = 0 ∧ replies (next (execFeatTakeWrite 0 ⟨1, false⟩ 31 [7, 7] s)) = [(4, [])])
      ∧ ((next (execFeatLockWrite 0 ⟨1, false⟩ 1 s)).pkg 0).featLock = true
      ∧ ((next (execControlPageWrite 0 ⟨1, false⟩ 0xC0 [9] s)).pkg 0).cmdLen = 9 ∧ replies (next (execControlPageWrite 0 ⟨1, false⟩ 0xFFFF [1, 2] s)) = [(4, [])]
      ∧ att (0x20000 - 4928) = 1 ∧ att (0x20000 - 4864) = 3 ∧ next (execAttestationReport 0 s) = s := by decide +kernel

/-- A command's image in CMD_BUF: TYPE, BLEN, counter 1, package 0 and a body of up to 8 bytes. -/
def submitted (ty blen body : Nat) (s : State) : State :=
  let b : List Byte := leBytes 4 ty ++ leBytes 4 blen ++ leBytes 8 1 ++ leBytes 8 0 ++ leBytes 8 body
  (opened s).modPkg 0 fun k => { k with cmdStatus := 1, cmdLen := BitVec.ofNat 32 (0x18 + blen + signatureBytes), cmdBuf := b.zipIdx.map fun x => (x.2, x.1) }

/-- A malformed command, and one whose recall has ended. Commands of types 1 and 3 at the ends of their ranges pass every check but that of the
signature. -/
theorem witness_HostEvents_commands :
    let st (s : State) : Nat := (s.pkg 0).cmdStatus
    let run := (opened waiting).modPkg 0 fun k => { k with cmdStatus := 1, cmdRun := true }
    let ok (ty body : Nat) : Bool := ((submitted ty 8 body waiting).pkg 0).cmdBodyOk ty
    st (next (execCommandApplied 0 (submitted 4 8 0 waiting))) = 5 ∧ st (next (execCmdFirewallEntry 0 (submitted 1 9 0 waiting))) = 1
      ∧ st (next (execCommandApplied 0 run)) = 2 ∧ st (next (execCmdRateLimiter 0 waiting)) = 0
      ∧ (ok 1 (0x1234 * 2 ^ 32) = true ∧ ok 1 (2 ^ 48) = false)
      ∧ (ok 3 (15 + 256 * 2 ^ 32 + 512 * 2 ^ 48) = true ∧ ok 3 (15 + 257 * 2 ^ 32 + 512 * 2 ^ 48) = false ∧ ok 3 (16 + 2 ^ 32 + 2 ^ 48) = false) := by
  decide +kernel

/-- Where the signature verifies, such a command passes. -/
theorem witness_HostEvents_command_passes :
    let k := (submitted 3 8 (15 + 2 ^ 32 + 2 ^ 48) waiting).pkg 0
    Config.verify [] (Config.sha3 (k.cmdBytes 0 (24 + 8))) (k.cmdBytes (24 + 8) signatureBytes) = true → k.cmdCheck 0 = 2 := by
  intro k h
  have f0 : k.cmdField 0 4 = 3 := by decide +kernel
  have f1 : k.cmdField 4 4 = 8 := by decide +kernel
  have f2 : ¬(cmdBlen (k.cmdField 0 4) ≠ some (k.cmdField 4 4) ∨ k.cmdLen.toNat ≠ 0x18 + k.cmdField 4 4 + signatureBytes ∨ k.cmdField 0x10 8 ≠ 0) := by
    decide +kernel
  have f3 : ¬(k.cmdField 8 8 ≤ k.counter) := by decide +kernel
  have f4 : k.cmdBodyOk 3 = true := by decide +kernel
  rw [f0, f1] at f2
  have f5 : (k.conf.keys.map (·.2)).getD [] = [] := by decide +kernel
  unfold Pkg.cmdCheck
  simp only [f0, f1, f5, if_neg f2, h, if_neg f3, f4, Bool.not_true, Bool.false_eq_true, if_false]

/-! ### Where results go, and what a word leaves alone (R62, R71, R109, R126, R131 to R135, R464) -/

/-- A result to no destination, to a register, to a mapped shared register, through an index register, to a pair, and with INJECT armed
for its lane; the register is 1 (2 and 3 for a pair, 63 the shared one). -/
theorem witness_ResultPlaces :
    let s := on (.nop fr) []
    let plain (s : State) (l : Lane) : Bool := !(s.injectArmed l.i l.tk)
    let inj : State := onCore (fun c => { c with inject := 1 + 5 * 2 ^ 7 }) s
    meets s {} (fun s l => l.r.d = .none && decide (s.put l 7 = s)) = true
      ∧ meets s { dst := some (d 1) } (fun s l => plain s l && l.r.d = .reg 1 && !l.r.ind && (s.sharedOf l.tk 1).isNone && reg (s.put l 7) 1 = 7
          && reg (s.put l 7) 2 = 0) = true
      ∧ meets (withBlock (some 1) s) { dst := some (d 63) } (fun s l => plain s l && l.r.d = .reg 63 && !l.r.ind && (s.sharedOf l.tk 63).isSome
          && !(s.thr l.tk).trails && (s.issueName 1 != 0) && ((s.put l 7).shReg l.tk ((s.sharedOf l.tk 63).getD 0)).v.readBy s.clock (s.issueName 1 + 1) = 7
          && ((s.put l 7).shReg l.tk ((s.sharedOf l.tk 63).getD 0)).v.readBy s.clock (s.issueName 1) = 0) = true
      ∧ meets (onThr (fun t => { t with r := { t.r with ix := t.r.ix.set 2 (BitVec.ofNat 30 (32 * 2 ^ 14)) } }) s) { dst := some (.ind 2 false) } (fun s l => l.r.d = .reg 0 && l.r.ind && ((s.put l 7).thr 0).pend.map (·.k) = [.value 7 none]
          && reg (s.put l 7) 0 = 0) = true
      ∧ meets s { dst := some (d 2), pair := true } (fun s l => plain s l && l.r.d = .pair 2 && reg (s.putPair l 7 8) 2 = 7 && reg (s.putPair l 7 8) 3 = 8) = true
      ∧ meets inj { dst := some (d 1) } (fun s l => s.injectArmed l.i l.tk && s.injectLane l.i.ck = l.i.lane (s.pipe l.i.ck l.i.half).fenced (l.i.position l.tk)
          && !l.i.g.tandem && reg (s.put l 7) 1 = 7 + 32 && ((s.put l 7).core 0).inject.getLsbD 32) = true := by decide +kernel

theorem witness_ResultPlaces_predicates_and_results :
    let s := on (.nop fr) []
    let q : Pend := { u := 16, gid := 0, k := .value 7 none, d := .reg 1 }
    ((s.setP 0 6 true).thr 0).r.p = 64 ∧ ((s.setP 0 7 true).thr 0).r.p = 0
      ∧ (let t := (pending q s).finishPend 0 q [7] none none none; (reg t 1, (t.thr 0).r.pendG) = (7, 0)) := by decide +kernel

/-- A clause of two words and two members: the first member's issue leaves the second to issue, and the last one's moves the gang on. -/
theorem witness_WordFrame :
    let s : State := (on (.nop fr) []).setThr 5 { st := .live, inGang := true }
    let gang (l : List Nat) (s : State) : State :=
      { s with iss := s.iss.map fun i => { i with g := { i.g with words := i.g.words ++ i.g.words, members := [0, 5], todo := l } } }
    let go (l : List Nat) : Option (List Nat) × Option Nat × Nat :=
      let s := gang l s
      let t := (standAt s {}).done s s
      (t.iss.map fun i => i.g.todo, (t.pipe 0 0).gang.map (·.pos), (t.thr 0).nw)
    stands (gang [0, 5] s) {} = true ∧ stands (gang [0] s) {} = true ∧ go [0, 5] = (some [5], some 0, 1) ∧ go [0] = (none, some 1, 1) := by decide +kernel

/-! ### Checks in order (R55, R64, R73 to R75, R93, R109, R262, R473) -/

/-- Each check of R75 is the first that stands in the way: a late failure, a feature, a privilege, a pending register, guards that do not
hold, a register pending in this run, a register that is not there, a poisoned register. -/
theorem witness_ChecksBeforeEffect :
    let ins : Instr := .mov fr ⟨d 1, g 2⟩
    let s := on ins [(2, 9)]
    let user (s : State) : State := onThr (fun t => { t with ctx := 1 }) (s.setCtx 0 1 { slots := 1, st := [(0, 1)] })
    let r (f : Regs → Regs) : State := onThr (fun t => { t with r := f t.r }) s
    let off := on (.mov { fr with ga := ⟨3, false⟩ } ⟨d 1, g 2⟩) [(2, 9)]
    let poisoned := r fun r => { r with psn := 4, psnA := [(2, 0x40)] }
    fault (after (onThr (fun t => { t with late := [{ code := 0x0C, addr := 0, load := true }] }) s)) = some 0x0C
      ∧ fault (after (user (on (.shrmap fr (g 2)) []))) = some 0x18
      ∧ fault (after (user (on (.sysrd fr ⟨d 1, g 2⟩) []))) = some 9
      ∧ ((after (pendingG 4 s)).pipe 0 0).parked.map (·.why) = [.regs [(0, 4, 0)]]
      ∧ (reg (after off) 1, ((after off).thr 0).nw) = (0, 1) ∧ (reg (after s) 1, ((after s).thr 0).nw) = (9, 1)
      ∧ fault (after (r fun r => { r with pendG := 4, runG := 4 })) = some 3
      ∧ fault (after (on (.mov fr ⟨d 1, g 32⟩) [])) = some 5
      ∧ fault (after poisoned) = some 0x0D := by decide +kernel

/-- A release that a store stands before, and one after a store that failed; an illegal word with its guards on, off in permissive and in
strict decode, and pending. -/
theorem witness_ChecksBeforeEffect_release_and_illegal :
    let e : SbE := { u := 16, gid := 5, k := .store, pieces := [{ va := 0, n := 8, xl := some ⟨0x3F, 0, false⟩, data := 6, mask := 255 }] }
    let rel := grouped 0 (onThr (fun t => { t with sb := [e] }) (on (.tready fr 0) []))
    let ill (f : Frame) (a : Word) : Option Nat × Nat :=
      let s := onCtx (fun c => { c with attr := a }) (on (.nop f) [])
      let t := next (execIllegalInstruction f 1 false { s with iss := s.iss.map fun i => { i with g := { i.g with anyOn := frameOn f 0 } } })
      (fault t, (t.thr 0).nw)
    let late := grouped 0 (onThr (fun t => { t with late := [{ code := 0x0C, addr := 0, load := false }] }) (on (.tready fr 0) []))
    let wait := onThr (fun t => { t with r := { t.r with pendP := 8 } }) (on (.nop { fr with ga := ⟨3, false⟩ }) [])
    let wait : State := { wait with iss := wait.iss.map fun i => { i with g := { i.g with anyOn := false } } }
    ((after rel).pipe 0 0).parked.map (·.why) = [.rel] ∧ fault (after late) = some 0x0C
      ∧ ((next (execIllegalInstruction { fr with ga := ⟨3, false⟩ } 1 false wait)).pipe 0 0).parked.map (·.why) = [.regs [(0, 0, 8)]]
      ∧ ill fr 1 = (some 1, 0)
      ∧ ill { fr with ga := ⟨3, false⟩ } 1 = (none, 1) ∧ ill { fr with ga := ⟨3, false⟩ } 9 = (some 1, 0) := by decide +kernel

/-! ### Taking an exception and returning from one (R374 to R379, R390, R391) -/

/-- A fault with a handler and without, in handler state, of the code that no handler takes; with room in its queue and with none. -/
theorem witness_ExceptionEntry :
    let s := onCtx (fun c => { c with hndpc := 0x80, fqbase := 0x8000, fqlog := 4 }) (onThr (fun t => { t with hpc := 0x40 }) (on (.nop fr) []))
    let go (code : Nat) (s : State) : State := s.takeFault 0 { code := code } 0x48 0x40 0 0xB850
    let v (s : State) : List Nat := let t := s.thr 0; [t.pc.toNat, t.hpc.toNat, t.xpc.toNat, if t.hand then 1 else 0, t.stopCode.getD 0]
    let plain := onCtx (fun c => { c with hndpc := 0 }) s
    let hand := onThr (fun t => { t with hand := true, xpc := 0x10 }) s
    let full := onCtx (fun c => { c with prod := 16 }) s
    let q (s : State) : Nat × Nat := ((s.ctx 0 0).prod, (s.ctx 0 0).held.length)
    (v (go 7 s) = [0x80, 0x80, 0x48, 1, 0] ∧ v (go 7 plain) = [0x48, 0x40, 0, 0, 7] ∧ v (go 7 hand) = [0x48, 0x40, 0x10, 1, 7]
      ∧ v (go 0x13 s) = [0x48, 0x40, 0, 0, 0x13])
      ∧ (q (go 7 s) = (1, 0) ∧ (go 7 s).byte 0x8080 = 7 ∧ (go 7 s).read 0x8000 8 = 1)
      ∧ (full.fqFull (full.ctx 0 0) = true ∧ q (go 7 full) = (16, 1) ∧ (go 7 full).mem = full.mem) := by decide +kernel

/-- The end of the clause of an XRET. -/
theorem witness_ExceptionEntry_return :
    let s := onThr (fun t => { t with xgo := true, xpc := 0x48, xhpc := 0x40, xmid := true }) (on (.nop fr) [])
    let g : Gang := { ctx := 0, hpc := 0x80, hdr := 0, words := [], members := [0] }
    let t := (s.leaveClause 0 g).thr 0
    (t.pc, t.hpc, t.mid, t.inGang) = (0x48, 0x40, true, false) := by decide +kernel

/-! ### Memory, steps and encodings (R3, R60 to R64, R73, R236) -/

theorem witness_MemoryBytes :
    let m : List Host.Cell := [(3, 7), (9, 1)]
    Mem.wf m = true ∧ Mem.wf ((waiting.write 0x40 8 0x0100000000000002).write 0x40 1 0).mem = true
      ∧ ((waiting.write 0x40 8 0x0100000000000002).write 0x40 1 0).read 0x40 8 = 0x0100000000000000 := by decide +kernel

/-- A state with an event named, one with a word at which a member stands, one with a pipe to act, and one at the end of a cycle. -/
theorem witness_StepRunsDecoded :
    let s := on (.nop fr) []
    let named : State := { waiting with agenda := [.outside (.powerSample 0 240000001)] }
    let bad : State := { waiting with agenda := [.outside (.nop fr)] }
    let pipe : State := { waiting with turn := [(0, 0)] }
    (s.agenda = [] ∧ (s.iss.map fun i => i.g.todo) = some [0] ∧ s.iss.bind (fun i => decoded i.g.word none) = some (.nop fr))
      ∧ ((after named).pkg 0).clamp = 1 ∧ after bad = waiting
      ∧ (((after pipe).pipe 0 0).gang.map (·.hpc)) = some 0x100 ∧ (after waiting).clock = 1 := by decide +kernel

theorem witness_MemoryStaysCanonical : Mem.wf (on (.nop fr) []).mem = true ∧ Mem.wf (after (on (.nop fr) [])).mem = true := by decide +kernel

/-- Well-formed instructions of one and of two words. -/
theorem witness_RoundTrip :
    wellFormed (.iadd fr ⟨.w16, true, true⟩ ⟨d 9, g 9, g 10⟩) = true ∧ wellFormed (.fmax fr ⟨.f64, .rne⟩ ⟨d 2, g 3, ⟨.spec .zero, false⟩⟩) = true := by
  decide +kernel

/-! ### Numbers (R36, R37, R39, R164, R174) -/

/-- Sums that round, ties both ways, the largest finite value and beyond it in each direction, zero times infinity, and NaNs. -/
theorem witness_FloatArithmeticAndRounding :
    let one := FV.fin false 1 0
    let half := FV.fin false 1 (-24)
    let add (md : Rnd) (x y : FV) : Nat := fd32.encode (faddV fd32 md x y)
    let top := FV.fin false (2 ^ 24 - 1) 104
    let big (md : Rnd) : Nat := fd32.encode (fmulV fd32 md top (.fin false 2 0))
    (add .rne one half = 0x3F800000 ∧ add .rne (.fin false (2 ^ 23 + 1) (-23)) half = 0x3F800002 ∧ add .ru one half = 0x3F800001
      ∧ add .rz one half = 0x3F800000)
      ∧ (big .rne = 0x7F800000 ∧ big .ru = 0x7F800000 ∧ big .rd = 0x7F7FFFFF ∧ big .rz = 0x7F7FFFFF)
      ∧ fmulV fd32 .rne (.inf true) (.fin false 0 0) = fd32.genNan 4 ∧ faddV fd32 .rne (.inf false) (.inf true) = fd32.genNan 3
      ∧ fmulV fd32 .rne one (.nan true 5) = fd32.quieten (.nan true 5) := by decide +kernel

/-- A value at each special case that depends on one. -/
theorem witness_SpecialCases :
    let bad := fd32.genNan 5
    fdivV fd32 .rne (.fin true 3 0) (.fin false 0 0) = .inf true ∧ fsqrtV fd32 .rne (.fin true 2 0) = bad
      ∧ flg2pV fd32 .rne (.fin true 2 0) = bad ∧ flg2pV fd32 .rne (.fin true 1 0) = .inf true
      ∧ fsinpiV fd32 .rne (.fin true 3 0) = .fin true 0 0 ∧ fcospiV fd32 .rne (.fin false 3 (-1)) = .fin false 0 0 := by decide +kernel

/-! ### Pairs, full counters, and service (R103, R104, R144, R207, R404, R472) -/

/-- Threads 0 and 5 are the copies of a pair; thread 0 trails or leads, and the leading copy has passed these values on. -/
def paired (trail : Bool) (inq : List PairVal) (s : State) : State :=
  let p (partner : Nat) (tr : Bool) : PairS := { partner := partner, trail := tr, slack := 1, closed := true, inq := if tr then [] else inq }
  ((other { st := .live } s).modThr 5 fun t => { t with pair := some (p 0 !trail) }).modThr 0 fun t => { t with pair := some (p 5 trail) }

/-- What a leading copy has passed for its first word: a value, or its operands. -/
def passed (src : Bool) (v : Word) : List PairVal := [{ pos := 0, src := src, v := [v] }]

/-- What the leading copy thread 0 has passed on. -/
def passedOn (s : State) : List Nat := ((s.thr 0).pair.map fun p => p.inq.map fun x => (x.v.headD 0).toNat).getD []

def kindsOf (s : State) : List PK := (s.thr 0).pend.map (·.k)

theorem witness_WaitOnWord_counters_and_pairs :
    let o : O3 := ⟨d 1, g 2, g 3, g 4⟩
    let u : Use := { use3 o with vl := true }
    let s := mapped (on (.waita fr o) [(2, 0x40), (3, 0), (4, 100)])
    let n (k : Nat) (s : State) : State := onThr (fun t => { t with c := { t.c with ldc := k } }) s
    waits (n 255 s) u = true ∧ shows (n 254 s) u (fun s => (s.thr 0).c.ldc) = some 255 ∧ shows (paired true [] s) u kindsOf = some [.copied] := by
  decide +kernel

theorem witness_FullEmptyAccess_service :
    let p (k : PK) : Pend := { u := 16, gid := 0, k := k, d := .reg 1 }
    let s (k : PK) (x : ShReg) : State := onCore (fun c => { c with shr := [(9, x)] }) (pending (p k) waiting)
    let r := s (.rdfe 9) { v := { cur := 5 }, full := true, rq := [(0, 16)] }
    let w := s (.wrfe 9 7) { wq := [(0, 16)] }
    let v (s : State) : Option (Bool × Word × Nat × Nat) :=
      (Tab.look (s.core 0).shr 9).map fun x => (x.full, x.v.cur, x.rq.length, x.wq.length)
    let o : O1 := ⟨d 1, g 56⟩
    (((r.thr 0).pendAt 16).map (·.k) = some (.rdfe 9) ∧ v (r.feServe 0 9 1) = some (false, 5, 0, 0) ∧ kindsOf (r.feServe 0 9 1) = [.value 5 none])
      ∧ (v (w.feServe 0 9 1) = some (true, 7, 0, 0) ∧ kindsOf (w.feServe 0 9 1) = [])
      ∧ v ((onThr (fun t => { t with pend := [] }) r).feServe 0 9 1) = some (true, 5, 0, 0)
      ∧ shows (paired true (passed true 0) (withBlock (some 1) (on (.rdfe fr o) []))) { use1 o with vl := true, close := true, feat := some 13 } kindsOf
        = some [.copied] := by decide +kernel

theorem witness_Barriers_pairs :
    let x : Use := { dst := some (d 1), rel := true, close := true }
    let s := launched 0 (on (.lbar fr (d 1)) [(1, 9)])
    shows (paired false [] s) x (fun s => (reg s 1, s.launches.map fun l => l.2.lbarArr.length)) = some (0, [0])
      ∧ shows (paired true (passed true 6) s) x (fun s => (reg s 1, s.launches.map fun l => l.2.lbarArr.length)) = some (6, [0])
      ∧ waits (paired true [] s) x = true := by decide +kernel

theorem witness_StageQueues_pairs :
    let push := paired true [] (withBlock none (queued (on (.qpush fr 2 false 0) [(2, 7), (3, 8)])))
    let pop := paired true [] (withBlock none (queued (on (.qpop fr 2 0 1) [])))
    shows push { src := [(0, g 2)], rd := runRegs 2 (push.recWords 0), rel := true, close := true, feat := some 5 } kindsOf = some []
      ∧ shows pop { wr := runRegs 2 (pop.recWords 0), pw := predBit 1, vl := true, close := true, feat := some 5 } kindsOf = some [.copied] := by
  decide +kernel

/-- A pop of a queue that holds a record and of an empty one, a push with room and without, and a pop whose thread is retired. -/
theorem witness_StageQueues_service :
    let s (k : PK) (head tail : Nat) : State :=
      (queued (pending { u := 16, gid := 0, k := k, d := .run 2 2, pn := 1 } waiting)).modLaunch 1 fun l =>
        { l with dies := l.dies.map fun d => { d with qs := [(0, (head, tail))] } }
    let go (s : State) : List PK × List (Nat × Nat) × Nat :=
      let t := s.queueServe 1 0 0 1
      (kindsOf t, (t.launches.flatMap fun l => l.2.dies.flatMap fun d => d.qs.map (·.2)), t.read (vaultLoc 0 0 0x1080) 8)
    let pop := s (.qpop 0 2) 0
    let push := s (.qpush 0 [7, 8]) 0
    (((pop 1).queueWaits 1 0 0 false).length = 1 ∧ (go (pop 1)).2.1 = [(1, 1)] ∧ (go (pop 0)).1 = [.qpop 0 2])
      ∧ (go (push 1) = ([], [(0, 2)], 0) ∧ go (push 0) = ([], [(0, 1)], 7) ∧ (go (push 2)).1 = [.qpush 0 [7, 8]])
      ∧ (let q : Pend := { u := 16, gid := 0, k := .qpop 0 2, d := .run 2 2, pn := 1 }
         let t := ((pop 0).retireFor (0, q) 1).thr 0
         (t.retired, t.pend.length, t.r.p.getLsbD 1) = (true, 0, false)) := by decide +kernel

/-! ### Special registers and memory words (R59, R244, R261, R267, R271, R404, R472) -/

theorem witness_MovesAndLogic_special :
    let s := launched 0 (grouped 0 (onThr (fun t => { t with tid := 5 }) (on (.nop fr) [])))
    let v (s : State) (x : Special) : Nat := (s.value 0 ⟨0, .spec x, none, false⟩).w64.toNat
    (v s .tid, v s .rank, v s .gsize, v s .launch, v s .ntid, v s .one) = (5, 2, 2, 9, 1, 1)
      ∧ v (on (.nop fr) []) .rank = 2 ^ 64 - 1 ∧ (s.value 0 ⟨0, .imm 0, none, false⟩).w64.toNat = 2 ^ 64 - 15
      ∧ (s.value 0 ⟨0, .lit 7, none, false⟩).w64 = 7 := by decide +kernel

theorem witness_Loads_and_Stores_pairs_and_counters :
    let b8 : MMod := ⟨.b8, false⟩
    let o : O1 := ⟨d 1, g 2⟩
    let u : Use := { use1 o with vl := true }
    let x : S2 := ⟨g 2, g 4⟩
    let ld := mapped (on (.ld fr b8 .dflt o 0) [(2, 0x40)])
    let st := mapped (on (.st fr b8 .dflt x 0) [(2, 0x40), (4, 9)])
    let c (l n : Nat) (s : State) : State := onThr (fun t => { t with c := { t.c with ldc := l, suc := n } }) s
    let sigs (s : State) : Option (Nat × Bool) := (s.thr 0).pair.map fun p => (p.sig.length, p.sig.any fun e => e.held.isSome)
    (waits (c 255 0 ld) u = true ∧ shows (c 254 0 ld) u (fun s => (s.thr 0).c.ldc) = some 255 ∧ shows (paired true [] ld) u kindsOf = some [.copied]
        ∧ shows (paired false [] ld) u (fun s => (s.thr 0).c.ldc) = some 1)
      ∧ waits (c 0 255 st) (useS2 x) = true ∧ shows (c 0 254 st) (useS2 x) (fun s => (s.thr 0).c.suc) = some 255
      ∧ shows (paired true [] st) (useS2 x) sigs = some (some (1, false)) ∧ shows (paired false [] st) (useS2 x) sigs = some (some (1, true)) := by
  decide +kernel

theorem witness_Atomics_pairs_and_counters :
    let o : O2 := ⟨d 1, g 2, g 3⟩
    let r : S2 := ⟨g 2, g 3⟩
    let m : AMod := ⟨true, false, false, false⟩
    let u : Use := { use2 o with vl := true, close := true }
    let x : Use := { useS2 r with close := true, feat := some 7, img := some (2, 4) }
    let add := mapped (on (.aadd fr m .dflt o) [(2, 0x44), (3, 1)])
    let red := mapped (on (.redadd fr m .dflt r) [(2, 0x44), (3, 9)])
    let c (l n : Nat) (s : State) : State := onThr (fun t => { t with c := { t.c with ldc := l, suc := n } }) s
    (waits (c 255 0 add) u = true ∧ shows (paired true [] add) u kindsOf = some [.copied])
      ∧ waits (c 0 255 red) x = true ∧ shows (paired true [] red) x (fun s => (s.thr 0).sb.length) = some 0
      ∧ shows (paired false [] red) x (fun s => (s.thr 0).sb.length) = some 1 := by decide +kernel

/-- A line that the package holds, one that it asks for, one that only its home may keep; and a flush with a full counter and of a pair. -/
theorem witness_CacheAndFences_prefetch :
    let u : Use := { src := [(0, g 2)] }
    let p (h : Hint) : State := mapped (on (.pref fr h (g 2) 0) [(2, 0x80)])
    let f := mapped (on (.cflush fr .dflt (g 2) 0) [(2, 0x80)])
    let sees (s : State) : Nat × Nat × Nat := ((s.core 0).l1.length, (s.aline 0 1).pref.length, (s.pkg 0).hcache.length)
    let c (n : Nat) (s : State) : State := onThr (fun t => { t with c := { t.c with suc := n } }) s
    shows ((p .dflt).setALine 0 1 { st := .S }) u sees = some (1, 0, 0) ∧ shows (p .dflt) u sees = some (0, 1, 0)
      ∧ shows (p .noalloc) u sees = some (0, 0, 1)
      ∧ waits (c 255 f) u = true ∧ shows (c 254 f) u (fun s => (s.thr 0).c.suc) = some 255 ∧ shows (paired true [] f) u pcOf = some 0x10 := by
  decide +kernel

/-! ### Tiles and engine commands of pairs, with full counters and pages that do not map (R233, R294 to R297, R313, R371, R404, R472) -/

theorem witness_TileTable_and_TileData_pairs_and_counters :
    let u : Use := { dst := some (d 1), vl := true }
    let w := tiled [(63, flat .ready)] (on (.twait fr .empty (d 1) 3) [])
    let pos := 2 + 4 * 2 ^ 12
    let tstb := tiled [(63, { flat .empty with fmt := 2, plane := true })] (on (.tstb fr ⟨g 2, g 3⟩ 3) [(2, 0x3F80BF80), (3, pos)])
    let tldb := tiled [(63, flat .ready)] (on (.tldb fr (d 1) (g 3) 3) [(3, pos)])
    let l : Use := { src := [(1, g 3)], dst := some (d 1), vl := true }
    let pub := shadowed (on (.publish fr .rack (g 2)) [(2, 0x10000)]) |>.write 0x518 8 0x10000 |>.write 0x520 8 0x10000
    let v : Use := { src := [(0, g 2)], close := true, feat := some 6, img := some (5, 0) }
    let c (l n : Nat) (s : State) : State := onThr (fun t => { t with c := { t.c with ldc := l, suc := n } }) s
    (waits (c 255 0 w) u = true ∧ shows (paired true [] w) u kindsOf = some [.copied])
      ∧ waits (c 0 255 tstb) (useS2 ⟨g 2, g 3⟩) = true ∧ waits (c 255 0 tldb) l = true
      ∧ waits (c 0 255 pub) v = true ∧ shows (paired true [] pub) v (fun s => (s.thr 0).sb.length) = some 0
      ∧ shows (paired false [] pub) v (fun s => (s.thr 0).sb.length) = some 1 := by decide +kernel

/-- A pair's copies, each with its command; a trailing copy whose partner has no ticket yet; a word that a restart skips; a copy from a page
that does not map; an epilogue into an address that is none. -/
theorem witness_EngineCommands_pairs_and_pages :
    let o : O1 := ⟨d 1, g 2⟩
    let q : O4 := ⟨d 1, g 2, g 3, g 4, g 5⟩
    let s := product .empty .ready (on (.mma fr .dflt o) [(2, mmaImage)])
    let skip (s : State) : State := onThr (fun t => { t with skip := [9] }) s
    let cpy (a : Nat) : State := mapped (product .empty .ready (on (.cpy fr false .dflt q) [(2, a), (3, 3 * 2 ^ 62 + 3), (4, 0), (5, 0)]))
    let glob := product .ready .ready (on (.mepi fr .dflt q) [(2, 3 * 64 + 2 ^ 12 + 2 ^ 13), (5, 2 ^ 55)])
    let r (s : State) : Nat × List Nat := (reg s 1, accepted s)
    shows (paired false [] s) (use1 o) (fun s => (r s, passedOn s)) = some ((0, [1, 0, 1, 0, 1]), [0])
      ∧ shows (paired true (passed false 7) s) (use1 o) r = some (7, [0, 0, 1, 0, 1]) ∧ waits (paired true [] s) (use1 o) = true
      ∧ shows (skip s) (use1 o) r = some (9, [0, 0, 0, 0, 0])
      ∧ shows (cpy 0x1000) (use4 q) accepted = some [1, 1, 0, 1, 0] ∧ trap (cpy 0x10000) (use4 q) = some 8
      ∧ trap glob { use4 q with coin := true } = some 9 := by decide +kernel

theorem witness_CollectiveCommands_pairs :
    let o : O2 := ⟨d 1, g 2, g 3⟩
    let s := on (.engq fr .dflt o) [(2, 15), (3, 0x40)]
    let skip (s : State) : State := onThr (fun t => { t with skip := [9] }) s
    let c (n : Nat) (s : State) : State := onThr (fun t => { t with c := { t.c with enc := n } }) s
    let q (s : State) : Nat × Nat := ((s.die 0).collq.length, (s.thr 0).c.enc)
    shows (paired true [] s) (use2 o) kindsOf = some [.copied] ∧ shows (paired false [] s) (use2 o) q = some (1, 1)
      ∧ shows (skip s) (use2 o) (fun s => (reg s 1, q s)) = some (9, 0, 0) ∧ waits (c 255 s) (use2 o) = true
      ∧ shows (c 254 s) (use2 o) q = some (1, 255) := by decide +kernel

/-- Waits and cancellations of a pair; arming a tile that is ready. -/
theorem witness_TicketsAndRoutes_pairs_and_ready_tile :
    let o : O2 := ⟨d 1, g 2, g 3⟩
    let c := on (.cwait fr .dflt o) [(2, 0), (3, 1)]
    let k := on (.ccancel fr .dflt ⟨d 1, g 2⟩) []
    let p : S2 := ⟨g 2, g 3⟩
    let t (st : TileState) : State := onCore (fun c => { c with routes := [(2, 0x400)] }) (tiled [(63, flat st)] (on (.tarm fr .dflt p 3 2) [(2, 15), (3, 0)]))
    let v : Use := { useS2 p with feat := some 8 }
    shows (paired true [] c) { use2 o with vl := true } kindsOf = some [.copied] ∧ shows (paired true [] k) (use1 ⟨d 1, g 2⟩) kindsOf = some [.copied]
      ∧ shows (paired false [] k) (use1 ⟨d 1, g 2⟩) (fun s => (reg s 1, passedOn s)) = some (2, [2])
      ∧ shows (t .ready) v (fun s => ((s.tile 0 63).armed, ((s.die 0).trigs.length))) = some (true, 1) ∧ trap (t .filling) v = some 0x0E := by
  decide +kernel

/-! ### System words of pairs, and with homes that cannot be reached (R331, R343, R389, R392, R404, R417, R427) -/

/-- The page at address 0 maps to memory of package 1, to which no path leads. -/
def far (s : State) : State :=
  (s.modCore 0 fun c => { c with tlb := [⟨0, ⟨BitVec.ofNat 64 (0x3F + 2 ^ 48), 0, false⟩⟩] }).modPkg 1 fun k => { k with present := true, booted := true }

/-- The gang waits for a path to package 1; where it has waited for CTX_TIMEOUT, the word is fault 0x0B. -/
def awaits (s : State) (u : Use) : Bool :=
  let late : State := { onThr (fun t => { t with asked := some (0, 0) }) s with clock := (s.ctx 0 0).timer }
  stands s u && ((after s).pipe 0 0).parked.map (·.why) == [.path 1] && trap late u == some 0x0B

/-- A word that a pair performs once: the trailing copy waits, then takes 7, and the leading copy passes `v` on, or waits while there is no
room in its queue. -/
def pairOnce (s : State) (u : Use) (v : Nat) : Bool :=
  let full : List PairVal := List.replicate 256 { pos := 99, src := false, v := [0] }
  waits (paired true [] s) u && (leaves (paired true (passed false 7) s) u 1 == some 7) && (shows (paired false [] s) u passedOn == some [v])
    && waits (paired false full s) u

theorem witness_ControlRegisters_counters :
    let o : O1 := ⟨d 1, g 2⟩
    let k (k : Pkg) : Pkg :=
      { k with
        ethDrop := [(2, 8)], memThr := [(23, 77)], banks := [(31, { fixed := 4, lost := 2 })], rows := [(0, [(5, 1, 70000)])]
        filters := [(0, { valid := true, v6 := false, len := 24, addr := 0x11 })] }
    let c (c : Core) : Core := { c with lead := [(0, { l := 5 })], routes := [(1, BitVec.ofNat 128 (2 ^ 64 * 6 + 9))] }
    let s (a : Nat) : State := onCtx (fun c => { c with held := [⟨[]⟩, ⟨[]⟩], dropped := 3 })
      (onCore c ((((on (.sysrd fr o) [(2, a)]).modPkg 0 k).setPath 0 1 { port := 7, relays := 2 }).modPort 0 3 fun v => { v with rate := 9, burst := 2 }))
    let rd (a : Nat) : Option Nat := leaves (s a) (priv1 o) 1
    let no (a : Nat) : Bool := trap (s a) (priv1 o) == some 2
    (rd 6 = some (2 + 3 * 2 ^ 32) ∧ rd 0x20 = some 5 ∧ rd (0x21 + 2 ^ 18) = some 9 ∧ rd (0x22 + 2 ^ 18) = some 6 ∧ rd (0x40 + 2 ^ 18) = some (7 + 2 * 2 ^ 16))
      ∧ (rd (0x54 + 2 * 2 ^ 31) = some 8 ∧ rd (0x280 + 23 * 2 ^ 24) = some 77 ∧ rd 0x21F = some (4 + 2 * 2 ^ 32) ∧ rd 0x50 = some (1 + 24 * 4)
        ∧ rd 0x51 = some 0x11 ∧ rd (0x53 + 3 * 2 ^ 18) = some (9 + 2 * 2 ^ 16) ∧ rd 0x240 = some (5 + 2 ^ 18 + 65535 * 2 ^ 32) ∧ rd 0x241 = some 0
        ∧ rd (0x100 + 35 * 2 ^ 18) = some 0)
      ∧ (no (0x280 + 24 * 2 ^ 24) && no (0x21F + 16 * 2 ^ 18) && no (0x100 + 36 * 2 ^ 18) && no 0x220 && no 0x248 && no 0x55 && no (0x53 + 4 * 2 ^ 18)
        && no (0x20 + 2 ^ 18) && no (0x42 + 2 ^ 12)) = true ∧ pairOnce (s 0x45) (priv1 o) 0 = true := by decide +kernel

theorem witness_ControlRegisters_writes :
    let o : S2 := ⟨g 2, g 3⟩
    let u : Use := { useS2 o with priv := 1 }
    let s (a v : Nat) : State := on (.syswr fr o) [(2, a), (3, v)]
    shows (s 0x20 5) u (fun s => (s.core 0).lead.map fun e => e.2.l) = some [5] ∧ shows (s 0x20 16) u (fun s => (s.core 0).lead.length) = some 0
      ∧ shows (s 0x21 0x7FF) u (fun s => (s.core 0).routes) = some [(0, 0x7FF)] ∧ shows (s 0x22 1) u (fun s => (s.core 0).routes) = some [(0, BitVec.ofNat 128 (2 ^ 64))]
      ∧ shows (s (0x40 + 2 ^ 18) (5 * 2 ^ 16)) u (fun s => (s.path 0 1).relays) = some 5
      ∧ shows (s (0x280 + 23 * 2 ^ 24) 7) u (fun s => (s.memThr 0 23).toNat) = some 7 ∧ shows (s 0x102 9) u (fun s => (s.port 0 0).thr) = some 9
      ∧ shows (s 0x21F (3 + 2 ^ 32)) u (fun s => (s.pkg 0).banks.map fun e => (e.1, e.2.fixed, e.2.lost)) = some [(31, 3, 1)]
      ∧ shows (paired true [] (s 0x46 5)) u (fun s => (s.pkg 0).errCons) = some 0 ∧ trap (s 0x45 1) u = some 2 ∧ trap (s (0x280 + 24 * 2 ^ 24) 1) u = some 2 := by
  decide +kernel

theorem witness_SystemWords_of_pairs :
    let o : O2 := ⟨d 1, g 2, g 3⟩
    let u : Use := { use2 o with priv := 1 }
    let p : S2 := ⟨g 2, g 3⟩
    let w : Use := { useS2 p with priv := 1 }
    let inv := mapped (on (.tlbinv fr .core p) [(2, 0), (3, 0x10000)])
    pairOnce (on (.featrd fr ⟨d 1, g 2⟩) []) (priv1 ⟨d 1, g 2⟩) 0xFFFF = true ∧ pairOnce (on (.thrctlResume fr o) [(2, 6)]) (thrUse o) 1 = true
      ∧ pairOnce (on (.mapset fr o) [(2, 3), (3, 100)]) u 3 = true ∧ pairOnce (on (.selftest fr ⟨d 1, g 2⟩) [(2, 99)]) (priv1 ⟨d 1, g 2⟩) 3 = true
      ∧ pairOnce (on (.errrd fr o) [(2, 0x40), (3, 9)]) u 1 = true ∧ pairOnce (mapped (on (.barsave fr o) [(2, 0), (3, 1023 + 2 ^ 11)])) u 2 = true
      ∧ pairOnce (descriptor (on (.ctxswCreate fr o) [(2, 0), (3, 0x4000)])) u 2 = true
      ∧ waits (paired true [] inv) w = true ∧ shows (paired false [] inv) w (fun s => (s.thr 0).hold) = some true := by decide +kernel

theorem witness_SystemWords_far :
    let o : O2 := ⟨d 1, g 2, g 3⟩
    let u : Use := { use2 o with priv := 1 }
    let image (ins : Instr) : State := far (other { st := .stopped } (on ins [(2, 5), (3, 0x400)]))
    awaits (image (.thrctlGetst fr o)) (thrUse o) = true ∧ awaits (image (.thrctlSetst fr o)) (thrUse o) = true
      ∧ awaits (far (on (.barsave fr o) [(2, 0), (3, 1023 + 2 ^ 10)])) u = true
      ∧ awaits (far (descriptor (on (.ctxswCreate fr o) [(2, 1), (3, 2 ^ 48)]))) u = true
      ∧ awaits (far (on (.launch fr ⟨d 1, g 2⟩) [(2, 0x400)])) { use1 ⟨d 1, g 2⟩ with priv := 2, vl := true, close := true } = true := by decide +kernel

/-- Launches of a pair, and of one whose record a buffered store has still to reach. -/
theorem witness_Launching_pairs :
    let o : O1 := ⟨d 1, g 2⟩
    let q : O2 := ⟨d 1, g 2, g 3⟩
    let u : Use := { use1 o with priv := 2, vl := true, close := true }
    let l := mapped (on (.launch fr o) [(2, 0x400)])
    let e : SbE := { u := 0, gid := 0, k := .store, pieces := [{ va := 0x400, n := 8, xl := some ⟨0x3F, 0, false⟩, data := 0, mask := 255 }] }
    shows (paired true [] l) u kindsOf = some [.copied] ∧ shows (paired true [] (far l)) u kindsOf = some [.copied]
      ∧ waits (onThr (fun t => { t with sb := [e] }) l) u = true
      ∧ shows (paired true [] (on (.lwait fr q) [(2, 8)])) { use2 q with priv := 2, vl := true } kindsOf = some [.copied] := by decide +kernel

/-! ### Parts that perform (R236, R244, R248, R265, R268, R271, R297, R473) -/

/-- Thread 0 has one load or atomic of 8 bytes at 0x40, of the mapped page. -/
def oneAcc (k : AccK) (s : State) : State :=
  pending { u := 16, gid := 5, k := .acc { space := .glob, k := k, size := 8, pieces := [piece] }, d := .reg 1 } (s.write 0x40 8 9)

/-- Thread 0 has one entry with one part, at 0x40. -/
def oneEntry (k : StK) (s : State) (mask : Nat := 255) (loc : Option Nat := none) : State :=
  onThr (fun t => { t with
    sb := [{ u := 16, gid := 5, k := k, pieces := [{ va := 0x40, n := 8, loc := loc, xl := some ⟨0x3F, 0, false⟩, data := 6, mask := mask }] }]
    c := { t.c with suc := 1 } }) (s.write 0x40 8 9)

def line0 (a : ALine) (s : State) : State := s.setALine 0 0 a

/-- A load of a line that is held, one that is not, a poisoned one, one of an unmapped line's lost home; an atomic; a load that a buffered store
serves. -/
theorem witness_ThreadEvents_global_accesses :
    let go (s : State) : State := next (execLoadReturn 0 16 .none s)
    let seen (s : State) : List Nat := [reg s 1, s.read 0x40 8, (s.thr 0).pend.length, (s.aline 0 0).req.getD 0, ((s.thr 0).late.map (·.code)).headD 0]
    let m : ALine := { st := .M }
    let lost (s : State) : State := s.modPkg 0 fun k => { k with lostCells := 2 }
    let p : Piece := { va := 0x40, n := 8, xl := some ⟨BitVec.ofNat 64 (0x3F + 2 ^ 48), 0, false⟩ }
    let away : State := (pending { u := 16, gid := 5, d := .reg 1, k := .acc { space := .glob, k := .load, size := 8, pieces := [p] } } waiting).modPkg 1
      fun k => { k with present := true, cell := 1 }
    seen (go (line0 m (oneAcc .load waiting))) = [9, 9, 0, 0, 0] ∧ (seen (go (oneAcc .load waiting))).take 3 = [0, 9, 1]
      ∧ ((go (oneAcc .load waiting)).aline 0 0).req.isSome = true
      ∧ seen (go (line0 m (oneAcc (.atomic .add false false 5 0) waiting))) = [9, 14, 0, 0, 0]
      ∧ ((go (line0 { m with psn := true } (oneAcc (.atomic .add false false 5 0) waiting))).thr 0).late.map (·.code) = [0x0D]
      ∧ ((go (lost away)).thr 0).late.map (·.code) = [0x0C]
      ∧ reg (go (onThr (fun t => { t with sb := [{ u := 8, gid := 4, k := .store, pieces := [{ va := 0x40, n := 8, xl := some ⟨0x3F, 0, false⟩, data := 6, mask := 255 }] }] })
          (oneAcc .load waiting))) 1 = 6 := by decide +kernel

/-- A store, reductions on an owned line and into a partial, a flip; a Flush, and a line given back, clean and dirty. -/
theorem witness_ThreadEvents_entries :
    let go (s : State) : State := next (execStorePerform 0 16 s)
    let r : StK := .red ⟨0, false, false, false⟩
    let seen (s : State) : Nat × Nat × Nat := (s.read 0x40 8, (s.thr 0).sb.length, (s.thr 0).c.suc)
    let u (s : State) : State := line0 { st := .U, part := some ⟨⟨0, false, false, false⟩, []⟩ } s
    let l1 (s : State) : State := onCore (fun c => { c with l1 := [{ line := 0 }] }) s
    seen (go (line0 { st := .M } (oneEntry .store waiting))) = (6, 0, 0) ∧ seen (go (oneEntry .store waiting)) = (9, 1, 1)
      ∧ seen (go (line0 { st := .M } (oneEntry r waiting))) = (15, 0, 0)
      ∧ (seen (go (u (oneEntry r waiting))) = (9, 0, 0) ∧ (((go (u (oneEntry r waiting))).aline 0 0).part.map fun p => p.els) = some [(0x40, 6)])
      ∧ seen (go (line0 { st := .M } (oneEntry .publish waiting (loc := some 0x40)))) = (10, 0, 0)
      ∧ ((go (oneEntry (.flush 0) waiting)).net.map (·.ty) = [.flush] ∧ ((go (oneEntry (.flush 0) waiting)).aline 0 0).flushing = some 16)
      ∧ (go (l1 (line0 { st := .S } (oneEntry (.inval 0) waiting (mask := 0))))).net.length = 0
      ∧ ((go (l1 (line0 { st := .S } (oneEntry (.inval 0) waiting (mask := 0))))).core 0).l1.length = 0
      ∧ seen (go (oneEntry (.inval 0) waiting (mask := 0))) = (9, 0, 0) ∧ seen (go (oneEntry (.inval 0) waiting (mask := 1))) = (9, 0, 0) := by decide +kernel

/-- A store that fails leaves its late fault, which a drain raises; marks of a bank and of a lane. -/
theorem witness_ThreadEvents_late_and_marks :
    let s := (oneEntry .store waiting).failStore 0 16 0x0C
    let d := onThr (fun t => { t with late := (s.thr 0).late }) (on (.sdrain fr .dflt) [])
    let bank (h : Bool) : State := next (execPipePick 0 0 (.bank 0 3 h) waiting)
    let lane (k : Nat) : List LaneErr := ((next (execPipePick 0 0 (.lane k 4 2) waiting)).pipe 0 0).bad
    ((s.thr 0).sb.length, (s.thr 0).late.map (fun x => (x.code, x.addr, x.load))) = (0, [(0x0C, 0x40, false)]) ∧ fault (after d) = some 0x0C
      ∧ ((bank false).pkg 0).errProd = 1 ∧ (lane 31).length = 1 ∧ lane 32 = [] := by decide +kernel

/-! ### Exchanges, draws and slabs (R43, R45, R49, R203 to R206) -/

/-- BCAST of a present and of an absent rank, EXPAND, and sums of FP32 whose tree and whose scan differ. -/
theorem witness_ExchangeResults_orders :
    let l := [part 1 0x3F800000 0x22, part 4 0x4B800000 0, part 5 0x3F800000 3]
    let q := [part 0 0x4B800000 0, part 2 0x3F800000 0, part 3 0x3F800000 0]
    let from_ (b : Nat) : List Nat := l.map fun p => (bcastV l { p with b := .word (BitVec.ofNat 64 b) } 32).toNat
    ((q.map (·.rank)).Pairwise (· < ·) ∧ ∀ p ∈ q, p.rank < 32)
      ∧ from_ (4 + 32) = [0, 0, 0] ∧ from_ 4 = [0x4B8000004B800000, 0x4B8000004B800000, 0x4B8000004B800000]
      ∧ from_ 7 = [0x3F800000, 0x4B800000, 0x3F800000]
      ∧ (l.map fun p => (expandV l p 32).toNat) = [0x3F80000000000000, 0, 0x4B80000000000000]
      ∧ (gredV .fadd32 q).toNat = 0x4B800001 ∧ (q.map fun p => (gscanV .fadd32 q p.rank).toNat) = [0x4B800000, 0x4B800000, 0x4B800000] := by
  decide +kernel

/-- Merges in linear mode of the masses 1 and 3 at the coin where the choice changes, of two infinite masses, of none, and of a side that is no
number; in log mode of an infinite and of no mass. -/
theorem witness_Draws_merges :
    let p (ix m : Nat) : Word := pairOf ix m
    let lin (nt : Bool) (u : Nat) (a b : Nat) : Nat × Nat := let r := mergeV false nt u (p 5 a) (p 7 b); (r.1.toNat, r.2)
    let log (u a b : Nat) : Nat := (mergeV true false u (p 5 a) (p 7 b)).1.toNat
    let one := 0x3F800000
    (lin false (2 ^ 22 - 1) one 0x40400000 = (0x540800000, 0) ∧ lin false (2 ^ 22) one 0x40400000 = (0x740800000, 0))
      ∧ (lin false (2 ^ 23 - 1) 0x7F800000 0x7F800000 = (0x57F800000, 0) ∧ lin false (2 ^ 23) 0x7F800000 0x7F800000 = (0x77F800000, 0)
        ∧ lin false 0 one 0x7F800000 = (0x77F800000, 0))
      ∧ lin false 0 0 0x80000000 = (0xFFFFFFFF00000000, 0)
      ∧ (lin false 0 0x7FC00000 one = (0xFFFFFFFF7FC00006, 0) ∧ lin true 0 0x7FC00000 one = (0x73F800000, 1)
        ∧ lin true 0 0x7FC00000 0xBF800000 = (0xFFFFFFFF00000000, 2))
      ∧ (log 0 0xFF800000 0xFF800000 = 0xFFFFFFFFFF800000 ∧ log 0 one 0xFF800000 = 0x53F800000 ∧ log 0 one 0x7F800000 = 0x77F800000) := by
  decide +kernel

/-! ### Launches (R102) -/

/-- The root table at 0 maps the first page by a leaf. -/
def walkable (leaf : Nat) (s : State) : State := ((s.write 0 8 0x20001).write 0x20000 8 0x30001).write 0x30000 8 leaf

/-- A launch without threads and with a word for its result: the home of the word at hand; out of reach, before a timer, one cycle before
and at its end; a page that may not be written. -/
theorem witness_LaunchEvents_done :
    let s (leaf clock : Nat) (t : Option Nat) : State :=
      let x := onThr (fun t => { t with launch := none }) ((launched 0 (pending { u := 16, gid := 0, k := .lwait 9, d := .reg 1 }
        (walkable leaf waiting))).modLaunch 1 fun l => { l with done := 0x40, killed := 2, doneT := t })
      { x.modPkg 1 fun k => { k with present := true, booted := true } with clock := clock }
    let go (leaf clock : Nat) (t : Option Nat) : List PK × Nat × Nat := let t := next (execLaunchComplete 1 (s leaf clock t)); (coming t, t.launches.length, t.read 0x40 8)
    let far := 0x3F + 2 ^ 48
    let n := (waiting.ctx 0 0).timer
    (s far 5 none).reaches 0 1 = false ∧ go 0x3F 5 none = ([.value 0x200000000 none], 0, 0x200000000)
      ∧ go far 5 none = ([.lwait 9], 1, 0) ∧ go far (n + 4) (some 5) = ([.lwait 9], 1, 0) ∧ go far (n + 5) (some 5) = ([.value 0x200000100 none], 0, 0)
      ∧ go 0x37 5 none = ([.value 0x200000100 none], 0, 0) := by decide +kernel

/-! ### Coherence (R335 to R340, R414, R415) -/

/-- What a request of package 1 about line 64 leaves where package 2, of cell 2, is the other party: the entry, and what goes where. -/
def asked (d : Dir) (ty : MsgTy) (bind : Nat) (go : Nat → Nat → State → Out) : DirSt × Nat × List (MsgTy × Nat) :=
  let s := (mailed [{ toHome ty with bind := bind }] ((waiting.modPkg 1 fun k => { k with present := true, cell := 1 }).modPkg 2 fun k =>
    { k with present := true, cell := 2 })).setDir 64 d
  let t := next (go 0 7 s)
  ((t.dir 64).st, (t.dir 64).cells.toNat, t.net.map fun m => (m.ty, m.dst))

/-- Requests about a line that is shared. -/
theorem witness_HomeRequests_shared :
    let d : Dir := { st := .shared, cells := 4 }
    asked d .getS 0 execGets = (.shared, 6, [(.data, 1)]) ∧ asked d .getM 0 execGetm = (.shared, 4, [(.inv, 2)])
      ∧ asked d .flush 0 execFlush = (.shared, 4, [(.ack, 1)]) := by decide +kernel

/-- Requests about a line that is exclusive. -/
theorem witness_HomeRequests_exclusive :
    let d : Dir := { st := .excl, owner := 2 }
    (asked d .getS 0 execGets = (.excl, 0, [(.fwdGetS, 2)]) ∧ asked d .getM 0 execGetm = (.excl, 0, [(.fwdGetM, 2)]))
      ∧ asked d .getU 0 execGetu = (.excl, 0, [(.fwdGetM, 2)]) ∧ asked d .flush 0 execFlush = (.excl, 0, [(.fwdGetS, 2)]) := by decide +kernel

/-- Requests about a line that is owned, the requester alone sharing it, and with another sharer. -/
theorem witness_HomeRequests_owned :
    let d : Dir := { st := .owned, owner := 2, cells := 2 }
    asked d .getS 0 execGets = (.owned, 2, [(.fwdGetS, 2)]) ∧ asked d .getM 0 execGetm = (.owned, 2, [(.fwdGetM, 2)])
      ∧ asked { d with cells := 6 } .getM 0 execGetm = (.owned, 6, [(.inv, 2)]) := by decide +kernel

/-- Requests about a line in update: with its binding, with another, and of a reader. -/
theorem witness_HomeRequests_update :
    let d : Dir := { st := .update, cells := 4, bind := some (bindOf 0) }
    asked d .getU 0 execGetu = (.update, 6, [(.ack, 1)]) ∧ asked d .getU 1 execGetu = (.update, 4, [(.collect, 2)])
      ∧ asked d .getS 0 execGets = (.update, 4, [(.collect, 2)]) := by decide +kernel

/-- Line 64 leaves its home's cache, clean and dirty, and the directory's, with each error; a pinned entry stays. -/
theorem witness_AgentAnswers_caches :
    let s (dirty : Bool) (d : Dir) : State := (waiting.modPkg 0 fun k => { k with hcache := [(64, dirty)], dcache := [64] }).setDir 64 d
    let go (c : CacheK) (e : Upset) (s : State) : List Nat × Bool × Bool :=
      let t := next (execCacheEviction 0 64 c e s)
      ([(t.pkg 0).hcache.length, (t.pkg 0).dcache.length, (t.pkg 0).errProd], (t.dir 64).psn, (t.dir 64).tx.isSome)
    let d : Dir := { st := .shared, cells := 4 }
    (go .home .none (s true {}) = ([0, 1, 0], false, false) ∧ go .home .fixed (s true {}) = ([1, 1, 1], false, false)
        ∧ go .home .lost (s false {}) = ([0, 1, 1], false, false) ∧ go .home .lost (s true {}) = ([0, 1, 1], true, false))
      ∧ (go .dir .none (s true d) = ([1, 0, 0], false, false) ∧ go .dir .none (s true { d with st := .update }) = ([1, 1, 0], false, false)
        ∧ go .dir .fixed (s true d) = ([1, 1, 1], false, false) ∧ go .dir .lost (s true d) = ([1, 1, 1], false, true)
        ∧ go .dir .lost (s true { d with tx := some { k := .recall } }) = ([1, 1, 1], true, true))
      ∧ next (execCacheEviction 1 64 .dir .none (s true d)) = s true d := by decide +kernel

/-! ### Links and the host (R322, R323, R426, R427) -/

set_option maxRecDepth 20000 in
/-- A data flit that has turned into a control flit: an ACK, an idle flit, and one of no KIND. -/
theorem witness_LinkEvents_other_kind :
    let s := (linked true waiting).sendMsg .inv 1 0 1 64
    let sent : BitVec 1024 := ((s.port 1 0).wire.map (·.bits)).headD 0
    let go (b : BitVec 1024) : List Nat :=
      let t := next (execDataFlit 0 1 (sent ^^^ b) s)
      [(t.port 0 1).expect, ((t.port 0 1).crc.toList.map (·.toNat)).sum, (t.port 1 0).ctl.length, (t.port 1 0).wire.length]
    go (ctlBits 1 0 0) = [0, 0, 1, 0] ∧ go (ctlBits 0 0 0) = [0, 0, 0, 0] ∧ go (ctlBits 7 0 0) = [0, 1, 0, 0] := by decide +kernel

/-- An answer that a filter admits by 7 bits of the address and drops by 8; a read of more than the path MTU; the page in a window that ends in
it. -/
theorem witness_HostEvents_frames :
    let filtered (n : Nat) : State := (opened waiting).modPkg 0 fun k =>
      { k with filters := [(0, { valid := true, len := n, addr := 0x0A })], qps := [(1, { addr := 0x0B })] }
    let go (n : Nat) : List (Nat × List Byte) × Tab Nat := let t := next (execInvalidRequest 0 1 false (filtered n)); (replies t, (t.pkg 0).ethDrop)
    let small : State := (opened waiting).modPkg 0 fun k => { k with hostSize := 0xC2 }
    (go 7 = ([(3, [])], []) ∧ go 8 = ([], [(0, 1)]))
      ∧ (replies (next (execRdmaRead 0 1 0x10000 3 false ((opened waiting).modPkg 0 fun k => { k with qps := [(1, { mtu := 2 })] })))).map (fun x => x.2.length) = [1, 2]
      ∧ replies (next (execControlPageWrite 0 ⟨1, false⟩ 0xC0 [9, 9] small)) = [(0, [])]
      ∧ replies (next (execControlPageWrite 0 ⟨1, false⟩ 0xC0 [9, 9, 9] small)) = [(4, [])] := by decide +kernel

end Sys2Proof.Tests
end

section
/-! SUPPORT. The bytes of memory: what each write leaves in every byte, and that the canonical form is one list for each memory
(R3, R236; log 3). -/

namespace Sys2Proof.Machine

/-! ### The canonical form -/

section Tables

variable {β : Type}

theorem Tab.rising_iff_pairwise (t : Tab β) : Tab.rising t = true ↔ t.Pairwise fun e f => e.1 < f.1 := by
  induction t with
  | nil => simp [Tab.rising]
  | cons e r ih => rw [Tab.rising_cons, ih, List.pairwise_cons]

theorem Tab.mem_of_look {t : Tab β} {k : Nat} {v : β} (h : Tab.look t k = some v) : (k, v) ∈ t := by
  induction t with
  | nil => simp [Tab.look] at h
  | cons e r ih =>
    obtain ⟨j, w⟩ := e
    by_cases hj : j = k
    · obtain rfl : w = v := by simpa [Tab.look, hj] using h
      exact hj ▸ List.mem_cons_self
    · exact List.mem_cons_of_mem _ (ih (by simpa [Tab.look, hj] using h))

theorem Tab.mem_iff_look {t : Tab β} (ht : Tab.rising t = true) (k : Nat) (v : β) :
    (k, v) ∈ t ↔ Tab.look t k = some v := by
  refine ⟨fun h => ?_, Tab.mem_of_look⟩
  induction t with
  | nil => simp at h
  | cons e r ih =>
    obtain ⟨j, w⟩ := e
    obtain ⟨hlt, hr⟩ := (Tab.rising_cons j w r).1 ht
    rcases List.mem_cons.1 h with h | h
    · cases h; simp [Tab.look]
    · have hne : j ≠ k := Nat.ne_of_lt (hlt _ h)
      simpa [Tab.look, hne] using ih hr h

/-- A table in rising order is determined by what it answers. -/
theorem Tab.eq_of_look_eq {t u : Tab β} (ht : Tab.rising t = true) (hu : Tab.rising u = true)
    (h : ∀ k, Tab.look t k = Tab.look u k) : t = u := by
  have pt := (Tab.rising_iff_pairwise t).1 ht
  have pu := (Tab.rising_iff_pairwise u).1 hu
  have hmem : ∀ e, e ∈ t ↔ e ∈ u := fun (k, v) => by rw [Tab.mem_iff_look ht, Tab.mem_iff_look hu, h]
  have hne : ∀ {e f : Nat × β}, e.1 < f.1 → e ≠ f := fun hlt he => Nat.ne_of_lt hlt (congrArg Prod.fst he)
  have hperm : t.Perm u := (List.perm_ext_iff_of_nodup (pt.imp hne) (pu.imp hne)).2 hmem
  exact hperm.eq_of_pairwise (fun _ _ _ _ h1 h2 => absurd h1 (Nat.lt_asymm h2)) pt pu

end Tables

/-- In the canonical form exactly the bytes that do not read as the default are listed. -/
theorem Mem.look_of_wf {m : List Host.Cell} (h : Mem.wf m = true) (a : Nat) :
    Tab.look m a = if Mem.get m a = memDefault then none else some (Mem.get m a) := by
  obtain ⟨_, hdef⟩ := (Mem.wf_iff m).1 h
  unfold Mem.get Tab.getOr
  cases hl : Tab.look m a with
  | none => simp
  | some v => simp [hdef _ (Tab.mem_of_look hl)]

theorem Mem.eq_of_get_eq {m n : List Host.Cell} (hm : Mem.wf m = true) (hn : Mem.wf n = true)
    (h : ∀ a, Mem.get m a = Mem.get n a) : m = n :=
  Tab.eq_of_look_eq ((Mem.wf_iff m).1 hm).1 ((Mem.wf_iff n).1 hn).1 fun a => by
    rw [Mem.look_of_wf hm, Mem.look_of_wf hn, h]

/-! ### Writing a number -/

/-- What every byte reads as after a write, spilled bytes included. -/
theorem State.byte_write_eq_ite (s : State) (a n v b : Nat) :
    (s.write a n v).byte b = if a ≤ b ∧ b < a + n then BitVec.ofNat 8 (v / 256 ^ (b - a)) else s.byte b := by
  by_cases hin : a ≤ b ∧ b < a + n
  · obtain ⟨k, rfl⟩ := Nat.exists_eq_add_of_le hin.1
    rw [if_pos hin, s.byte_write a n v _ hin, Mem.get_write s.mem a n v k (by omega), Nat.add_sub_cancel_left]
  · rw [if_neg hin, s.byte_write_ne a n v b (by omega)]

theorem State.wf_mem_write {s : State} (h : Mem.wf s.mem = true) (a n v : Nat) : Mem.wf (s.write a n v).mem = true :=
  Mem.wf_write h a n v

/-! ### Writing a list of bytes -/

theorem State.writeBytes_cons (s : State) (a : Nat) (x : Byte) (r : List Byte) :
    s.writeBytes a (x :: r) = (s.write a 1 x.toNat).writeBytes (a + 1) r := by
  simp [State.writeBytes, State.write, Mem.write]

theorem State.byte_writeBytes (s : State) (a b : Nat) (l : List Byte) :
    (s.writeBytes a l).byte b = if a ≤ b ∧ b < a + l.length then l[b - a]?.getD 0 else s.byte b := by
  induction l generalizing s a with
  | nil => rw [if_neg (by simp)]; rfl
  | cons x r ih =>
    rw [State.writeBytes_cons, ih, State.byte_write_eq_ite, List.length_cons]
    by_cases hb : b = a
    · subst hb
      rw [if_neg (by omega), if_pos (by omega), if_pos (by omega)]
      simp
    · by_cases hin : a + 1 ≤ b ∧ b < a + 1 + r.length
      · rw [if_pos hin, if_pos (by omega), show b - a = b - (a + 1) + 1 by omega, List.getElem?_cons_succ]
      · rw [if_neg hin, if_neg (by omega), if_neg (by omega)]

theorem State.wf_mem_writeBytes {s : State} (h : Mem.wf s.mem = true) (a : Nat) (l : List Byte) :
    Mem.wf (s.writeBytes a l).mem = true := by
  induction l generalizing s a with
  | nil => exact h
  | cons x r ih => rw [State.writeBytes_cons]; exact ih (State.wf_mem_write h a 1 x.toNat) (a + 1)

/-! ### Writing under a mask -/

/-- Byte `k` of what is read is the byte that stands there, little-endian (R3). -/
theorem readBy_byte (f : Nat → Byte) (a n k : Nat) (h : k < n) : BitVec.ofNat 8 (readBy f a n / 256 ^ k) = f (a + k) := by
  induction n generalizing a k with
  | zero => omega
  | succ j ih =>
    have hlt := (f a).isLt
    rw [readBy]
    cases k with
    | zero => apply BitVec.eq_of_toNat_eq; rw [BitVec.toNat_ofNat]; simp; omega
    | succ i =>
      rw [Nat.pow_succ', ← Nat.div_div_eq_div_mul, show ((f a).toNat + 256 * readBy f (a + 1) j) / 256 = readBy f (a + 1) j by omega,
        ih _ _ (by omega), show a + 1 + i = a + (i + 1) by omega]

/-- Byte `k` of a number of `n` bytes that are all ones. -/
theorem ofNat_ones_byte (n k : Nat) (h : k < n) : BitVec.ofNat 8 ((2 ^ (8 * n) - 1) / 2 ^ (8 * k)) = BitVec.allOnes 8 := by
  refine BitVec.eq_of_getLsbD_eq fun i hi => ?_
  rw [BitVec.getLsbD_ofNat, Nat.testBit_div_two_pow, Nat.testBit_two_pow_sub_one, BitVec.getLsbD_allOnes]
  have hin : i + 8 * k < 8 * n := by omega
  simp [hin]

theorem State.byte_writeMask (s : State) (a n v mask b : Nat) :
    (s.writeMask a n v mask).byte b = if a ≤ b ∧ b < a + n then
      BitVec.ofNat 8 (v / 256 ^ (b - a)) &&& BitVec.ofNat 8 (mask / 256 ^ (b - a))
        ||| s.byte b &&& ~~~BitVec.ofNat 8 (mask / 256 ^ (b - a))
      else s.byte b := by
  rw [State.writeMask, State.byte_write_eq_ite]
  split
  · obtain ⟨k, rfl⟩ := Nat.exists_eq_add_of_le (show a ≤ b by omega)
    have hk : k < n := by omega
    have hpow : 256 ^ k = 2 ^ (8 * k) := (Nat.pow_mul 2 8 k).symm
    have hread : BitVec.ofNat 8 (s.read a n / 2 ^ (8 * k)) = s.byte (a + k) := hpow ▸ readBy_byte s.byte a n k hk
    rw [Nat.add_sub_cancel_left, hpow]
    simp only [Nat.or_div_two_pow, Nat.and_div_two_pow, Nat.xor_div_two_pow, BitVec.ofNat_or, BitVec.ofNat_and,
      BitVec.ofNat_xor, hread, ofNat_ones_byte n k hk, BitVec.and_allOnes, BitVec.allOnes_xor]
    exact BitVec.or_comm ..
  · rfl

/-- Settles O56: each write is stated byte by byte, and a canonical list is determined by what its bytes read as. -/
theorem memoryBytes : Obligations.MemoryBytes := by
  unfold Obligations.MemoryBytes
  exact ⟨fun s a n v b => ⟨State.byte_write_eq_ite s a n v b, State.read_write_same s a n v, fun h => State.wf_mem_write h a n v⟩,
    fun s a b l => ⟨State.byte_writeBytes s a b l, fun h => State.wf_mem_writeBytes h a l⟩,
    State.byte_writeMask, fun _ _ => Mem.eq_of_get_eq⟩

end Sys2Proof.Machine
end

section
/-! SUPPORT. A package in the rack: its state after reset (R16, R334, R341, R392), and what its host does with it (R11 to R18, R423,
R425 to R427). -/

namespace Sys2Proof.Machine

/-! ### After reset -/

@[simp] theorem State.pkg_reset (p : Nat) : State.reset.pkg p = {} := rfl
@[simp] theorem State.core_reset (ck : Nat) : State.reset.core ck = {} := rfl
@[simp] theorem State.die_reset (dk : Nat) : State.reset.die dk = {} := rfl
@[simp] theorem State.dir_reset (line : Nat) : State.reset.dir line = {} := rfl
@[simp] theorem State.aline_reset (p line : Nat) : State.reset.aline p line = {} := rfl

@[simp] theorem State.port_reset (p k : Nat) : State.reset.port p k = {} := by
  rw [State.port, State.pkg_reset]
  split
  · exact Vector.getElem_replicate _
  · rfl

theorem State.phys_reset (ck : Nat) : State.reset.phys ck = coreOf ck := by
  rw [State.phys, State.die_reset]; rfl

theorem State.wf_reset : State.reset.wf = true := by
  simp [State.wf, State.reset, Mem.wf, Tab.rising]

/-- Settles O55: every table of the reset state is empty, so each entry is its default, which holds the reset values. -/
theorem resetState : Obligations.ResetState := by
  unfold Obligations.ResetState
  refine ⟨State.wf_reset, rfl, rfl, rfl, rfl, rfl, rfl, fun p page => ?firewall, fun p => ?package, fun ck => ?core,
    fun line => ?directory, fun p k => ?port, fun p line => ?agent⟩
  case firewall => rw [State.pkg_reset]; rfl
  case package => simp
  case core => exact ⟨State.phys_reset ck, by simp, fun c => by rw [State.core_reset]; rfl, fun k => by rw [State.core_reset]; rfl⟩
  case directory => simp
  case port => simp
  case agent => simp

/-! ### Turns of a queue pair (R11, R13, R421) -/

theorem State.hostOpen_iff (s : State) (p qp : Nat) : s.hostOpen p qp = true ↔
    p < 16 ∧ qp < 4096 ∧ ((s.pkg p).booted = true ∨ ((s.pkg p).recovery = true ∧ (Tab.getOr (s.pkg p).qps qp {}).port = 0)) := by
  simp [State.hostOpen, and_assoc]

/-- The state in which a frame's operation takes its turn: a frame marked for congestion has been notified (R11). -/
def State.notified (s : State) (p qp : Nat) (ce : Bool) : State := if ce then s.answer p qp answerCnp [] else s

section
variable {s : State} {p qp : Nat} {ce : Bool} (op : HostOp)

theorem State.hostTurn_of_closed (h : ¬s.hostOpen p qp = true) : s.hostTurn p qp ce op = s := by
  simp [State.hostTurn, h]

theorem State.hostTurn_of_open (h : s.hostOpen p qp = true) : s.hostTurn p qp ce op =
    if (s.notified p qp ce).hostBehind p qp then (s.notified p qp ce).hostWait p qp op else (s.notified p qp ce).hostDo p qp op := by
  unfold State.hostTurn
  rw [h]
  rfl

theorem State.hostTurn_of_behind (h : s.hostOpen p qp = true) (hb : (s.notified p qp ce).hostBehind p qp = true) :
    s.hostTurn p qp ce op = (s.notified p qp ce).hostWait p qp op := by
  rw [State.hostTurn_of_open op h, if_pos hb]

theorem State.hostTurn_of_first (h : s.hostOpen p qp = true) (hb : (s.notified p qp ce).hostBehind p qp = false) :
    s.hostTurn p qp ce op = (s.notified p qp ce).hostDo p qp op := by
  rw [State.hostTurn_of_open op h, hb]; rfl

end

/-! ### What the host's instructions ask for -/

section
variable (s : State) (p qp off : Nat) (data : List Byte) (x y : BitVec 64) (ce : Bool)

theorem exec_rdmaWrite : exec (.rdmaWrite p qp off data ce) s = .next (s.hostTurn p qp ce (.write off data)) := rfl
theorem exec_rdmaRead (n : Nat) : exec (.rdmaRead p qp off n ce) s = .next (s.hostTurn p qp ce (.read off n)) := rfl
theorem exec_fetchAdd : exec (.fetchAdd p qp off x ce) s = .next (s.hostTurn p qp ce (.fetchAdd off x)) := rfl
theorem exec_compareSwap : exec (.compareSwap p qp off x y ce) s = .next (s.hostTurn p qp ce (.compareSwap off x y)) := rfl
theorem exec_invalidRequest : exec (.invalidRequest p qp ce) s = .next (s.hostTurn p qp ce .invalid) := rfl
theorem exec_controlPageWrite : exec (.controlPageWrite p ⟨qp, ce⟩ off data) s = .next (s.hostTurn p qp ce (.page off data)) := rfl
theorem exec_featLockWrite : exec (.featLockWrite p ⟨qp, ce⟩ x) s = .next (s.hostTurn p qp ce (.page 0x40 (leBytes 8 x.toNat))) := rfl
theorem exec_attGo : exec (.attGo p ⟨qp, ce⟩ x) s = .next (s.hostTurn p qp ce (.page 0xA8 (leBytes 8 x.toNat))) := rfl
theorem exec_featTakeWrite : exec (.featTakeWrite p ⟨qp, ce⟩ off data) s =
    .next (s.hostTurn p qp ce (if off + data.length ≤ 32 then .page (0x20 + off) data else .page pageSize [0])) := rfl

end

/-! ### Operations on the window (R12, R13, R412) -/

section
variable {s : State} {p off n : Nat} (qp : Nat) (data : List Byte)

theorem State.hostWrite_beyond (hr : (s.pkg p).recovery = false) (h : (s.pkg p).hostSize < off + data.length) :
    s.hostWrite p qp off data = s.answer p qp nakAccess [] := by
  simp [State.hostWrite, hr, h]

theorem State.hostWrite_waits (hr : (s.pkg p).recovery = false) (h : off + data.length ≤ (s.pkg p).hostSize) {t : State}
    (ht : s.readyLines p (windowLines off data.length) = (none, t)) :
    s.hostWrite p qp off data = t.hostWait p qp (.write off data) := by
  simp [State.hostWrite, hr, Nat.not_lt.2 h, ht]

theorem State.hostWrite_ready (hr : (s.pkg p).recovery = false) (h : off + data.length ≤ (s.pkg p).hostSize) {t r : State}
    {bad : List Nat} (ht : s.readyLines p (windowLines off data.length) = (some (t, bad), r)) :
    s.hostWrite p qp off data = ((windowLines off data.length).foldl (fun s c =>
      if bad.contains c.1 then s else s.writeBytes (s.windowPa p c.1) ((data.drop (c.1 - off)).take c.2))
        (if off < pageSize then t.pageWrite p off (data.take (pageSize - off)) else t)).answer p qp
          (if bad.isEmpty then 0 else nakOperational) [] := by
  simp only [State.hostWrite, hr, ht, Bool.false_eq_true, if_false, if_neg (Nat.not_lt.2 h)]

theorem State.hostRead_beyond (hr : (s.pkg p).recovery = false) (h : (s.pkg p).hostSize < off + n) :
    s.hostRead p qp off n = s.answer p qp nakAccess [] := by
  simp [State.hostRead, hr, h]

theorem State.hostRead_waits (hr : (s.pkg p).recovery = false) (h : off + n ≤ (s.pkg p).hostSize) {t : State}
    (ht : s.readyLines p (windowLines off n) = (none, t)) : s.hostRead p qp off n = t.hostWait p qp (.read off n) := by
  simp [State.hostRead, hr, Nat.not_lt.2 h, ht]

theorem State.hostRead_ready (hr : (s.pkg p).recovery = false) (h : off + n ≤ (s.pkg p).hostSize) {t r : State}
    (ht : s.readyLines p (windowLines off n) = (some (t, []), r)) :
    s.hostRead p qp off n = t.answerRead p qp ((List.range n).map fun i => t.windowByte p (off + i)) := by
  simp [State.hostRead, hr, Nat.not_lt.2 h, ht]

/-- What fits into one packet of the path MTU goes back in one. -/
theorem State.answerRead_one (h0 : data ≠ []) (h : data.length ≤ (Tab.getOr (s.pkg p).qps qp {}).pathMtu) :
    s.answerRead p qp data = s.answer p qp 1 data := by
  unfold State.answerRead
  generalize (Tab.getOr (s.pkg p).qps qp {}).pathMtu = m at h
  have hpos : 0 < data.length := List.length_pos_iff.2 h0
  have hone : (data.length + max 1 m - 1) / max 1 m = 1 := by
    rw [Nat.max_eq_right (by omega)]
    exact Nat.div_eq_of_lt_le (by omega) (by omega)
  simp [hone, List.range_succ, List.take_of_length_le (Nat.le_trans h (Nat.le_max_right 1 m))]

/-- A write to the page stays within the page and the window, or is refused. -/
theorem State.pageWriteOp_eq (hr : (s.pkg p).recovery = false) : s.pageWriteOp p qp off data =
    if off + data.length ≤ min pageSize (s.pkg p).hostSize then (s.pageWrite p off data).answer p qp 0 [] else s.answer p qp nakAccess [] := by
  simp only [State.pageWriteOp, hr, ← Nat.not_le, ite_not, Bool.false_eq_true, if_false]

/-- A write to FEAT_TAKE stays within its 32 bytes and the window, or is refused (R16). -/
theorem State.featTakeOp_eq (hr : (s.pkg p).recovery = false) :
    s.hostDo p qp (if off + data.length ≤ 32 then .page (0x20 + off) data else .page pageSize [0]) =
      if off + data.length ≤ 32 ∧ 0x20 + off + data.length ≤ (s.pkg p).hostSize then (s.pageWrite p (0x20 + off) data).answer p qp 0 []
      else s.answer p qp nakAccess [] := by
  by_cases h : off + data.length ≤ 32
  · have hmin : 0x20 + off + data.length ≤ min pageSize (s.pkg p).hostSize ↔ 0x20 + off + data.length ≤ (s.pkg p).hostSize := by
      rw [pageSize]; omega
    rw [if_pos h, State.hostDo, State.pageWriteOp_eq qp data hr]
    simp [h, hmin]
  · have hmin : ¬pageSize + [(0 : Byte)].length ≤ min pageSize (s.pkg p).hostSize := by
      rw [List.length_singleton]; omega
    rw [if_neg h, State.hostDo, State.pageWriteOp_eq qp [0] hr, if_neg hmin, if_neg fun hc => h hc.1]

variable (op : HostOp) (f : Word → Word)

theorem State.hostAtomic_misaligned (h : off % 8 ≠ 0) : s.hostAtomic p qp off op f = s.answer p qp nakInvalid [] := by
  simp [State.hostAtomic, h]

theorem State.hostAtomic_beyond (hr : (s.pkg p).recovery = false) (h8 : off % 8 = 0)
    (h : (s.pkg p).hostSize < off + 8 ∨ off < pageSize) : s.hostAtomic p qp off op f = s.answer p qp nakAccess [] := by
  simp [State.hostAtomic, hr, h8, h]

section
variable (hr : (s.pkg p).recovery = false) (h8 : off % 8 = 0) (h : off + 8 ≤ (s.pkg p).hostSize) (hp : pageSize ≤ off) {t : State}
include hr h8 h hp

theorem State.hostAtomic_busy (ht : s.hostLine p (s.windowPa p off) = .busy t) :
    s.hostAtomic p qp off op f = t.hostWait p qp op := by
  simp [State.hostAtomic, hr, h8, Nat.not_lt.2 h, Nat.not_lt.2 hp, ht]

theorem State.hostAtomic_poisoned (ht : s.hostLine p (s.windowPa p off) = .poisoned t) :
    s.hostAtomic p qp off op f = t.answer p qp nakOperational [] := by
  simp [State.hostAtomic, hr, h8, Nat.not_lt.2 h, Nat.not_lt.2 hp, ht]

theorem State.hostAtomic_ready (ht : s.hostLine p (s.windowPa p off) = .ready t) : s.hostAtomic p qp off op f =
    let old : Word := BitVec.ofNat 64 (t.read (s.windowPa p off) 8)
    (t.write (s.windowPa p off) 8 (f old).toNat).answer p qp 2 (leBytes 8 old.toNat) := by
  simp [State.hostAtomic, hr, h8, Nat.not_lt.2 h, Nat.not_lt.2 hp, ht]

end

end

/-! ### Frames that go out (R427) -/

section
variable {s : State} {p qp : Nat} (kind : Nat) (l : List Byte)

theorem State.pkg_answer_admitted :
    let d := Tab.getOr (s.pkg p).qps qp {}
    (∃ i < 16, (Tab.getOr (s.pkg p).filters (16 * d.port + i) {}).admits d = true) →
    (s.answer p qp kind l).pkg p = { s.pkg p with answers := ⟨qp, kind, l, s.freeVal.1.getLsbD 0⟩ :: (s.pkg p).answers } := by
  intro d h
  have hany := List.any_eq_true.2 (h.imp fun i hi => ⟨List.mem_range.2 hi.1, hi.2⟩)
  exact (State.pkg_modPkg ..).trans (if_pos hany)

theorem State.pkg_answer_dropped :
    let d := Tab.getOr (s.pkg p).qps qp {}
    (∀ i < 16, (Tab.getOr (s.pkg p).filters (16 * d.port + i) {}).admits d = false) →
    (s.answer p qp kind l).pkg p =
      { s.pkg p with ethDrop := Tab.put (s.pkg p).ethDrop d.port (satAdd32 (Tab.getOr (s.pkg p).ethDrop d.port 0)) } := by
  intro d h
  have hany := List.any_eq_false.2 fun i hi => Bool.not_eq_true _ ▸ h i (List.mem_range.1 hi)
  exact (State.pkg_modPkg ..).trans (if_neg (Bool.not_eq_true _ ▸ hany))

end

/-! ### The report (R423) -/

@[simp] theorem length_leBytes (n v : Nat) : (leBytes n v).length = n := by
  induction n generalizing v with
  | zero => rfl
  | succ k ih => simp [leBytes, ih]

theorem Conf.inOrder_blocks (c : Conf) : c.inOrder.flatMap (·.block) =
    (List.range 6).flatMap fun i => ((c.rec? (i + 1)).map CfgRec.block).getD [] := by
  unfold Conf.inOrder
  generalize List.range 6 = l
  induction l with
  | nil => rfl
  | cons i l ih => cases h : c.rec? (i + 1) <;> simp [h, ih]

theorem Pkg.versions_toList (k : Pkg) : k.versions.toList = (List.range 6).map fun i => k.version (i + 1) := by
  refine List.ext_getElem (by simp) fun i h _ => ?_
  have hi : i < 6 := by simpa using h
  simp [Pkg.version, hi]

theorem Pkg.report_eq (k : Pkg) (p : Nat) :
    let head := leBytes 64 (Config.sha3 k.conf.image).toNat
      ++ leBytes 64 (Config.sha3 ((List.range 6).flatMap fun i => ((k.conf.rec? (i + 1)).map CfgRec.block).getD [])).toNat
      ++ leBytes 32 0xFFFF ++ ((List.range 6).flatMap fun i => leBytes 8 (k.version (i + 1)).toNat) ++ leBytes 32 k.attJob.2.toNat
    k.report p = head ++ leBytes 4627 (Config.sign p (Config.sha3 head)).toNat := by
  intro head
  have hhead : k.reportHead = head := by
    rw [Pkg.reportHead, Conf.digests, Conf.inOrder_blocks, Pkg.versions_toList, List.flatMap_map]
  rw [Pkg.report, hhead]

theorem Pkg.length_report (k : Pkg) (p : Nat) : (k.report p).length = reportBytes := by
  simp [Pkg.report, Pkg.reportHead, Conf.digests, List.length_flatMap, reportBytes]

/-- No agent holds a partial that has not joined memory. -/
def State.NoPartials (s : State) : Prop := ∀ q line, (s.aline q line).part = none

theorem State.settle_of_noPartials {s : State} (h : s.NoPartials) (line : Nat) : s.settle line = s := by
  unfold State.settle
  exact List.foldl_fixed' (fun e => by simp only [h e.1 line]) _

/-- The controller writes one byte of the report, of which the second component is the place. -/
def State.putReportByte (p dest : Nat) (s : State) (x : Byte × Nat) : State :=
  let off := dest + x.2
  if off < pageSize then s
  else
    let pa := s.windowPa p off
    (if pa % 128 = 0 then s.settle (lineOf pa) else s).write pa 1 x.1.toNat

theorem exec_attestationReport_idle {s : State} {p : Nat} (h : (s.pkg p).attStatus ≠ 1) : exec (.attestationReport p) s = .next s := by
  change execAttestationReport p s = _
  simp [execAttestationReport, h]

theorem exec_attestationReport {s : State} {p : Nat} (h : (s.pkg p).attStatus = 1) : exec (.attestationReport p) s =
    .next ((((s.pkg p).report p).zipIdx.foldl (State.putReportByte p (s.pkg p).attJob.1.toNat)
      (s.settle (lineOf (s.windowPa p (s.pkg p).attJob.1.toNat)))).modPkg p fun k => { k with attStatus := 2 }) := by
  change execAttestationReport p s = _
  unfold execAttestationReport
  rw [if_neg (not_not_intro h)]
  rfl

/-- Outside the control page, the report's bytes stand one behind the other. -/
theorem State.putReport_eq_writeBytes {s : State} (h : s.NoPartials) (p : Nat) {dest : Nat} (l : List Byte) (n : Nat)
    (hd : pageSize ≤ dest + n) :
    (l.zipIdx n).foldl (State.putReportByte p dest) s = s.writeBytes (s.windowPa p (dest + n)) l := by
  induction l generalizing s n with
  | nil => rfl
  | cons x l ih =>
    have hput : State.putReportByte p dest s (x, n) = s.write (s.windowPa p (dest + n)) 1 x.toNat := by
      simp [State.putReportByte, Nat.not_lt.2 hd, State.settle_of_noPartials h]
    have hw : (s.write (s.windowPa p (dest + n)) 1 x.toNat).NoPartials := h
    have hpa : (s.write (s.windowPa p (dest + n)) 1 x.toNat).windowPa p (dest + (n + 1)) = s.windowPa p (dest + n) + 1 := by
      rw [State.windowPa, State.pkg_write_other, State.windowPa]; omega
    rw [List.zipIdx_cons, List.foldl_cons, hput, ih hw (n + 1) (by omega), State.writeBytes_cons, hpa]

theorem State.byte_putReport {s : State} (h : s.NoPartials) (p : Nat) {dest : Nat} (hd : pageSize ≤ dest) (l : List Byte) {i : Nat}
    (hi : i < l.length) :
    some ((l.zipIdx.foldl (State.putReportByte p dest) s).byte (s.windowPa p (dest + i))) = l[i]? := by
  have hpa : s.windowPa p (dest + i) = s.windowPa p dest + i := (Nat.add_assoc ..).symm
  rw [State.putReport_eq_writeBytes h p l 0 hd, Nat.add_zero, State.byte_writeBytes, hpa, if_pos (by omega), Nat.add_sub_cancel_left,
    List.getElem?_eq_getElem hi, Option.getD_some]

/-! ### Commands (R425 to R427) -/

theorem cmdBlen_eq_some_iff (ty blen : Nat) :
    cmdBlen ty = some blen ↔ (ty = 1 ∧ blen = 8) ∨ (ty = 2 ∧ blen = 324) ∨ (ty = 3 ∧ blen = 8) := by
  unfold cmdBlen
  split
  · simp_all [eq_comm]
  · split
    · simp_all [eq_comm]
    · split
      · simp_all [eq_comm]
      · simp_all

theorem Pkg.cmdBodyOk_iff (k : Pkg) {ty : Nat} (h : ty = 1 ∨ ty = 2 ∨ ty = 3) :
    let body (off n : Nat) : Nat := k.cmdField (0x18 + off) n
    k.cmdBodyOk ty = true ↔ (ty = 1 ∧ body 0 4 * 65536 < memTop ∧ body 6 2 = 0)
      ∨ (ty = 2 ∧ body 0 1 < 4 ∧ body 1 3 = 0 ∧ k.cmdFilters.isSome = true)
      ∨ (ty = 3 ∧ body 0 1 < 16 ∧ body 1 3 = 0 ∧ 1 ≤ body 4 2 ∧ body 4 2 ≤ 256 ∧ 1 ≤ body 6 2 ∧ body 6 2 ≤ 512) := by
  intro body
  rcases h with rfl | rfl | rfl
  · simp [Pkg.cmdBodyOk, body]
  · simp [Pkg.cmdBodyOk, body, and_assoc]
  · simp [Pkg.cmdBodyOk, body, and_assoc]

/-- The checks of R426 in their order, each by what it asks for. -/
theorem Pkg.cmdCheck_eq (k : Pkg) (p : Nat) {layout sound : Prop} [Decidable layout] [Decidable sound] {signed : Bool}
    (hl : layout ↔ cmdBlen (k.cmdField 0 4) = some (k.cmdField 4 4)
      ∧ k.cmdLen.toNat = 0x18 + k.cmdField 4 4 + signatureBytes ∧ k.cmdField 0x10 8 = p)
    (hv : signed = Config.verify ((k.conf.keys.map (·.2)).getD []) (Config.sha3 (k.cmdBytes 0 (0x18 + k.cmdField 4 4)))
      (k.cmdBytes (0x18 + k.cmdField 4 4) signatureBytes))
    (hs : layout → (sound ↔ k.cmdBodyOk (k.cmdField 0 4) = true)) :
    k.cmdCheck p = if ¬layout then 5 else if signed = false then 3 else if k.cmdField 8 8 ≤ k.counter then 4
      else if ¬sound then 6 else 2 := by
  have hlay : (cmdBlen (k.cmdField 0 4) ≠ some (k.cmdField 4 4) ∨ k.cmdLen.toNat ≠ 0x18 + k.cmdField 4 4 + signatureBytes
      ∨ k.cmdField 0x10 8 ≠ p) ↔ ¬layout := by
    rw [hl, not_and_or, not_and_or]
  unfold Pkg.cmdCheck
  simp only [hlay, ← hv]
  by_cases h : layout
  · simp [h, hs h]
  · simp [h]

theorem Conf.keys_command (c : Conf) : (c.keys.map (·.2)).getD [] =
    match (c.rec? 1).map CfgRec.body with | some (.root _ command) => command | _ => [] := by
  unfold Conf.keys
  cases (c.rec? 1).map CfgRec.body with
  | none => rfl
  | some b => cases b <;> rfl

section
variable {s : State} {p : Nat} {only : Option Nat}

theorem State.runCmd_idle (h : (s.pkg p).cmdStatus ≠ 1) : s.runCmd p only = s := by
  simp [State.runCmd, h]

theorem State.runCmd_recalling (h : (s.pkg p).cmdStatus = 1) (hr : (s.pkg p).cmdRun = true) : s.runCmd p only =
    if (s.pkg p).recalls = [] then s.modPkg p fun k => { k with cmdRun := false, cmdStatus := 2 } else s := by
  simp [State.runCmd, h, hr]

theorem State.runCmd_refused (h : (s.pkg p).cmdStatus = 1) (hr : (s.pkg p).cmdRun = false) (hc : (s.pkg p).cmdCheck p ≠ 2) :
    s.runCmd p none = s.modPkg p fun k => { k with cmdStatus := (s.pkg p).cmdCheck p } := by
  simp [State.runCmd, h, hr, hc]

theorem State.runCmd_applied (h : (s.pkg p).cmdStatus = 1) (hr : (s.pkg p).cmdRun = false) (hc : (s.pkg p).cmdCheck p = 2)
    (ho : only = none ∨ only = some ((s.pkg p).cmdField 0 4))
    (hf : (s.pkg p).cmdField 0 4 ≠ 1 ∨ (s.pkg p).recallsPage ((s.pkg p).cmdField 0x18 4) = false) : s.runCmd p only =
    ((s.applyCmd p).modPkg p fun x => { x with counter := (s.pkg p).cmdField 8 8 }).modPkg p fun x =>
      if x.recalls.isEmpty then { x with cmdStatus := 2 } else { x with cmdRun := true } := by
  have hany : only.any (fun t => t != (s.pkg p).cmdField 0 4 || 2 != 2) = false := by
    rcases ho with rfl | rfl
    · rfl
    · simp
  have hpage : ¬((s.pkg p).cmdField 0 4 = 1 ∧ (s.pkg p).recallsPage ((s.pkg p).cmdField 0x18 4) = true) := by
    rcases hf with hf | hf
    · simp [hf]
    · simp [hf]
  unfold State.runCmd
  simp only [h, hr, hc, hany, hpage, ne_eq, not_true_eq_false, if_false, Bool.false_eq_true]

end

section
variable (s : State) (p : Nat)

theorem exec_cmdFirewallEntry : exec (.cmdFirewallEntry p) s = .next (s.runCmd p (some 1)) := rfl
theorem exec_cmdEgressFilter : exec (.cmdEgressFilter p) s = .next (s.runCmd p (some 2)) := rfl
theorem exec_cmdRateLimiter : exec (.cmdRateLimiter p) s = .next (s.runCmd p (some 3)) := rfl
theorem exec_commandApplied : exec (.commandApplied p) s = .next (s.runCmd p none) := rfl

end

/-- Settles O50: each clause is the lemma about the operation it speaks of, in the state in which the operation takes its turn. -/
theorem hostEvents : Obligations.HostEvents := by
  unfold Obligations.HostEvents
  intro s p qp k opened ops page
  have hopen : s.hostOpen p qp = true ↔ opened := State.hostOpen_iff s p qp
  have hops : ∀ ce off n data x y, ∀ e ∈ ops ce off n data x y, exec e.2 s = .next (s.hostTurn p qp ce e.1) := by
    simp [ops, exec_rdmaWrite, exec_rdmaRead, exec_fetchAdd, exec_compareSwap, exec_invalidRequest]
  have hpage : ∀ ce off data v, ∀ e ∈ page ce off data v, exec e.2.2 s = .next (s.hostTurn p qp ce (.page e.1 e.2.1)) := by
    simp [page, exec_controlPageWrite, exec_featLockWrite, exec_attGo]
  refine ⟨fun ce off n data x y => ⟨fun hclosed => ?closed, fun ho hb => ?behind, fun ho hb => ?invalid⟩,
    fun ce => ?operations, fun kind l => ⟨fun h => ?admitted, fun h => ?dropped⟩,
    exec_attestationReport_idle, fun h => ?report, ?commands⟩
  case closed =>
    rw [← hopen] at hclosed
    refine ⟨fun e he => ?_, fun e he => ?_, ?_⟩
    · rw [hops _ _ _ _ _ _ e he, State.hostTurn_of_closed _ hclosed]
    · rw [hpage _ _ _ _ e he, State.hostTurn_of_closed _ hclosed]
    · rw [exec_featTakeWrite, State.hostTurn_of_closed _ hclosed]
  case behind =>
    refine ⟨fun e he => ?_, fun e he => ?_⟩
    · rw [hops _ _ _ _ _ _ e he, State.hostTurn_of_behind _ (hopen.2 ho) hb]; rfl
    · rw [hpage _ _ _ _ e he, State.hostTurn_of_behind _ (hopen.2 ho) hb]; rfl
  case invalid => rw [exec_invalidRequest, State.hostTurn_of_first _ (hopen.2 ho) hb]; rfl
  case operations =>
    intro b size ho hb hr answers
    have hdo (op : HostOp) : s.hostTurn p qp ce op = b.hostDo p qp op := State.hostTurn_of_first op (hopen.2 ho) hb
    have hwrite off data : exec (.rdmaWrite p qp off data ce) s = .next (b.hostWrite p qp off data) := congrArg _ (hdo (.write off data))
    have hread off n : exec (.rdmaRead p qp off n ce) s = .next (b.hostRead p qp off n) := congrArg _ (hdo (.read off n))
    have hadd off x : exec (.fetchAdd p qp off x ce) s = .next (b.hostAtomic p qp off (.fetchAdd off x) fun old => old + x) :=
      congrArg _ (hdo (.fetchAdd off x))
    have hswap off x y : exec (.compareSwap p qp off x y ce) s =
        .next (b.hostAtomic p qp off (.compareSwap off x y) fun old => if old = x then y else old) :=
      congrArg _ (hdo (.compareSwap off x y))
    refine ⟨fun off data => ⟨fun h => ?writeBeyond, fun h => ⟨fun t ht => ?writeWaits, fun t bad r ht => ?writeReady⟩⟩,
      fun off n => ⟨fun h => ?readBeyond, fun h => ⟨fun t ht => ?readWaits, fun t r ht => ?readReady⟩⟩,
      fun off data v => ⟨fun e he => ?page, ?featTake⟩, fun off x y => ⟨fun h8 => ?misaligned, fun h8 h => ?atomicBeyond,
        fun h8 h hp => ⟨fun t ht => ?busy, fun t ht => ?poisoned, fun t ht => ?ready⟩⟩⟩
    case writeBeyond => exact (hwrite off data).trans (congrArg _ (State.hostWrite_beyond qp data hr h))
    case writeWaits => exact (hwrite off data).trans (congrArg _ (State.hostWrite_waits qp data hr h ht))
    case writeReady => exact (hwrite off data).trans (congrArg _ (State.hostWrite_ready qp data hr h ht))
    case readBeyond => exact (hread off n).trans (congrArg _ (State.hostRead_beyond qp hr h))
    case readWaits => exact (hread off n).trans (congrArg _ (State.hostRead_waits qp hr h ht))
    case readReady =>
      intro l
      have hl : exec (.rdmaRead p qp off n ce) s = .next (t.answerRead p qp l) :=
        (hread off n).trans (congrArg _ (State.hostRead_ready qp hr h ht))
      refine ⟨hl, fun h0 hmtu => hl.trans (congrArg _ (State.answerRead_one qp l ?_ ?_))⟩
      · simpa [l] using Nat.ne_of_gt h0
      · simpa [l] using hmtu
    case page => exact (hpage _ _ _ _ e he).trans (congrArg _ ((hdo _).trans (State.pageWriteOp_eq qp _ hr)))
    case featTake => exact congrArg _ ((hdo _).trans (State.featTakeOp_eq qp data hr))
    case misaligned =>
      exact ⟨(hadd off x).trans (congrArg _ (State.hostAtomic_misaligned qp _ _ h8)),
        (hswap off x y).trans (congrArg _ (State.hostAtomic_misaligned qp _ _ h8))⟩
    case atomicBeyond =>
      exact ⟨(hadd off x).trans (congrArg _ (State.hostAtomic_beyond qp _ _ hr h8 h)),
        (hswap off x y).trans (congrArg _ (State.hostAtomic_beyond qp _ _ hr h8 h))⟩
    case busy =>
      exact ⟨(hadd off x).trans (congrArg _ (State.hostAtomic_busy qp _ _ hr h8 h hp ht)),
        (hswap off x y).trans (congrArg _ (State.hostAtomic_busy qp _ _ hr h8 h hp ht))⟩
    case poisoned =>
      exact ⟨(hadd off x).trans (congrArg _ (State.hostAtomic_poisoned qp _ _ hr h8 h hp ht)),
        (hswap off x y).trans (congrArg _ (State.hostAtomic_poisoned qp _ _ hr h8 h hp ht))⟩
    case ready =>
      exact ⟨(hadd off x).trans (congrArg _ (State.hostAtomic_ready qp _ _ hr h8 h hp ht)),
        (hswap off x y).trans (congrArg _ (State.hostAtomic_ready qp _ _ hr h8 h hp ht))⟩
  case admitted => exact ⟨by rw [State.pkg_answer_admitted kind l h], by rw [State.pkg_answer_admitted kind l h]⟩
  case dropped => exact ⟨by rw [State.pkg_answer_dropped kind l h], by rw [State.pkg_answer_dropped kind l h]⟩
  case report =>
    intro dest head report
    have hreport : k.report p = report := Pkg.report_eq k p
    refine ⟨hreport ▸ Pkg.length_report k p, _, exec_attestationReport h, by simp, fun hparts hd i hi => ?_⟩
    rw [State.byte_modPkg, State.settle_of_noPartials hparts, ← hreport]
    exact State.byte_putReport hparts p hd _ (by rwa [Pkg.length_report])
  case commands =>
    intro key ty blen body layout signed sound st only
    have hst : k.cmdCheck p = st := by
      refine Pkg.cmdCheck_eq k p (by rw [cmdBlen_eq_some_iff]; rfl) (by rw [Conf.keys_command]; rfl) fun hlay => (Pkg.cmdBodyOk_iff k ?_).symm
      exact hlay.1.imp And.left (Or.imp And.left And.left)
    have honly : ∀ e ∈ only, exec e.2 s = .next (s.runCmd p e.1) := by
      simp [only, exec_cmdFirewallEntry, exec_cmdEgressFilter, exec_cmdRateLimiter, exec_commandApplied]
    refine ⟨fun h e he => ?idle, fun h hr hne => ?refused, fun h hr e he => ?recalling, fun h hr h2 e he hty hpg => ?applied⟩
    case idle => rw [honly e he, State.runCmd_idle h]
    case refused => rw [exec_commandApplied, State.runCmd_refused h hr (hst ▸ hne)]; exact hst ▸ rfl
    case recalling => rw [honly e he, State.runCmd_recalling h hr]
    case applied => intro t; rw [honly e he, State.runCmd_applied h hr (hst.trans h2) hty hpg]

end Sys2Proof.Machine
end

section
/-! SUPPORT. What the decoder makes of any word (R60 to R63, R66, R68, R73, R86): which opcodes have a row, which words it refuses,
and that it gives back what the encoder has encoded. -/

namespace Sys2Proof.Laws.Rebuilds

/-- The fields of every constructor's word build it again. -/
theorem statement (i : Instr) : Statement i :=
  Instr.casesOn (motive := Statement) i
    iadd isub iadds isubs imul imulh imad imadw idiv irem imin imax iabs ineg idot4 idot2 isad iaddc lea mov movi movhi sel iclamp
    and or xor andn not bfn3 shl shr sar rol ror fshf popc clz ctz brev bfx bfi prmb icmp pset pmov fadd fsub fmul ffma fmin fmax
    fabs fneg fcmp fclass fdiv fsqrt frcp frsq fex2 flg2 flg2p fsinpi fcospi fdot2 fscale frnd cvt cvts cvti cvtf packn unpack
    bxpack bxunp mxpack mxunp sclx cmode nanct gjoin gleave gwait gvote mskop mskmov shfl shflx shfldn shflup bcast gred gscan
    compress expand matchRank ginfo bra brx call callx ret exit yield nop loop trap brk waita sleep ld st ldacq strel ldvt stvt
    ldls stls ldgx pref cflush cinv aadd amin amax aand aor axor axchg acas aincw adecw abadd afadd redadd redfadd redmin redmax
    fence sdrain barinit bararv barwait barsync barqry lbar shrmap shrunmap rdfe wrfe qpush qpop tdef tqry tready tempty twait
    tstb tldb shadow publish cpy cpym mma mmab mmac mepi tarm route collBind collReduceScatter collAllGather collAllReduceRing
    collAllReduceTree collBroadcast collBarrier collDrawMerge cwait ccancel engq drawl drawg dmrg gdraw dseed drnd sysrd syswr
    injectWrite launch lwait thrctlResume thrctlRedirect thrctlKill thrctlStop thrctlGetst thrctlSetst xret barsave barrest tlbinv
    mapset selftest errrd featrd ctxswCreate ctxswDestroy ctxswPreempt ctxswResume ixset ixget ixadv xacq xrel xqry
    illegalInstruction pipePick heldRecordWrite loadReturn storePerform waitaWake waitaTimeout sleepExpire progressWatchdog
    poolDeadlock resourceRoomResume rebalance launchStart startBarrierTimeout launchComplete lbarRelease treadyComplete
    twaitComplete copyComplete copyFailure slabStep mmacTimeout epilogueRowStep engineArbitrate chunkData chunkTriggered
    chunkAcknowledgement barrierToken chunkRefusal collBindTimeout collMatchTimeout ringReform dataFlit linkAck linkNak creditFlit
    ackTimer retryTimeout laneSpare portDown portUp gets getm getu putm puto putu flush inv fwdgets fwdgetm collect ack data
    nakfirewall errsynth homeDequeueRequest cacheEviction requestTimeout probe probeReply lossDeclare lossNotice memoryScrub
    laneEyeMeasure channelSpared regionCompare rdmaWrite rdmaRead compareSwap fetchAdd invalidRequest featTakeWrite featLockWrite
    attGo cmdFirewallEntry cmdEgressFilter cmdRateLimiter controlPageWrite packageReset powerSample thermalThrottle thermalRecover
    thermalReset variableLatencyResult selftestResult attestationReport commandApplied launchAnswer tokenAccrual

end Sys2Proof.Laws.Rebuilds

namespace Sys2Proof

/-! ### The order of the decoder's checks -/

/-- The source fields, the modifier and the cache hint obey the row (R63, R67, R68). -/
def Row.fieldsOk (row : Row) (r : RawW) : Bool :=
  row.a.okSrc r.e r.a r.la && row.b.okSrc r.e r.b r.lb && row.c.okSrc r.e r.c r.lc && row.e.okSrc r.e r.e r.le && row.md.ok r.md
    && hintOk r

theorem Row.fieldsOk_iff (row : Row) (r : RawW) : row.fieldsOk r = true ↔ row.a.okSrc r.e r.a r.la = true
    ∧ row.b.okSrc r.e r.b r.lb = true ∧ row.c.okSrc r.e r.c r.lc = true ∧ row.e.okSrc r.e r.e r.le = true
    ∧ row.md.ok r.md = true ∧ hintOk r = true := by
  simp only [Row.fieldsOk, Bool.and_eq_true, and_assoc]

section
variable {w : Word} {next : Option Word} {row : Row}

theorem decode_of_no_row (h : rowOf (RawW.ofWord w).op = none) : decode w next = .error .reservedOpcode := by
  simp only [decode, h]

/-- A word whose fields pass every check of its row decodes to what they build. -/
theorem decode_of_built {r : RawW} {i : Instr} (hw : RawW.ofWord w = r) (h : rowOf r.op = some row) (hone : row.literals r ≤ 1)
    (hlit : row.literals r = 1 → next ≠ none) (hd : row.d.okDst r.e r.d = true) (hf : row.fieldsOk r = true)
    (hsel : selectorsOk r = true)
    (hb : buildInstr (r.op.toNat / 64) (r.op.toNat % 64) r.frame r (r.fields (next.getD 0)) = some i) : decode w next = .ok i := by
  have hl : ¬(1 < row.literals r ∨ row.literals r = 1 ∧ next = none) := by
    rintro (hgt | ⟨heq, hnone⟩)
    · omega
    · exact hlit heq hnone
  unfold Row.fieldsOk at hf
  simp only [decode, hw, h, if_neg hl, hd, hf, hsel, hb, Bool.not_true, Bool.false_eq_true, if_false]

/-- A word with a row is refused, if at all, for something else than its opcode. -/
theorem decode_ne_reservedOpcode (h : rowOf (RawW.ofWord w).op = some row) : decode w next ≠ .error .reservedOpcode := by
  simp only [decode, h]
  repeat' split
  all_goals simp

theorem decode_refused (h : rowOf (RawW.ofWord w).op = some row)
    (hbad : ¬(row.d.okDst (RawW.ofWord w).e (RawW.ofWord w).d = true ∧ row.fieldsOk (RawW.ofWord w) = true)) :
    ∃ e, decode w next = .error e ∧ e.code = 0x02 := by
  rw [not_and_or, Bool.not_eq_true, Bool.not_eq_true] at hbad
  simp only [decode, h]
  by_cases hl : 1 < row.literals (RawW.ofWord w) ∨ row.literals (RawW.ofWord w) = 1 ∧ next = none
  · exact ⟨.literal, if_pos hl, rfl⟩
  rw [if_neg hl]
  by_cases hd : row.d.okDst (RawW.ofWord w).e (RawW.ofWord w).d = true
  · have hf := hbad.resolve_left (by simp [hd])
    unfold Row.fieldsOk at hf
    exact ⟨.reservedField, by simp only [hd, hf]; rfl, rfl⟩
  · exact ⟨.destination, if_pos (by simpa using hd), rfl⟩

end

/-! ### Opcodes (R86, R88) -/

/-- How many minors a group's table has. -/
def minorsOf (g : Nat) : Nat := ([24, 22, 22, 13, 17, 13, 12, 18, 12, 9, 12, 6, 14, 6, 0, 0] : List Nat)[g]?.getD 0

/-- The table of each group lists its minors from 0 on. -/
theorem map_op_rowsOf : ∀ g < 16, (rowsOf g).map Row.op = List.range' (64 * g) (minorsOf g) := by decide

theorem rowOf_eq_none_iff (op : BitVec 10) : rowOf op = none ↔ minorsOf (op.toNat / 64) ≤ op.toNat % 64 := by
  have hlist := map_op_rowsOf (op.toNat / 64) (by omega)
  have hmem : rowOf op = none ↔ op.toNat ∉ (rowsOf (op.toNat / 64)).map Row.op := by simp [rowOf]
  rw [hmem, hlist, List.mem_range'_1]
  omega

/-- The row of an opcode is one of the 14 tables' rows. -/
theorem rowOf_mem {op : BitVec 10} {row : Row} (h : rowOf op = some row) :
    row.op = op.toNat ∧ ∃ g < 16, row ∈ rowsOf g := by
  refine ⟨by simpa using List.find?_some h, op.toNat / 64, by omega, List.mem_of_find?_eq_some h⟩

/-! ### Fields that no row takes (R62, R63, R66, R68) -/

/-- The destination field of this kind holds no more than the codes of R62. -/
def FK.narrow : FK → Bool
  | .raw m => m ≤ 0x50
  | _ => true

/-- But for the displacements of BRA and CALL, every row has such a destination field. -/
theorem rows_narrow : ∀ g < 16, ∀ row ∈ rowsOf g, row.op ≠ 0x140 → row.op ≠ 0x142 → row.d.narrow = true := by decide

theorem FK.okDst_le {k : FK} (hk : k.narrow = true) {e code : BitVec 7} (h : k.okDst e code = true) : code ≤ 0x50 := by
  cases k with
  | unused => simp_all [FK.okDst]
  | op => simpa [FK.okDst] using h
  | raw m =>
    have hm : m ≤ 0x50 := by simpa [FK.narrow] using hk
    have hand : code &&& ~~~m = 0 := by simpa [FK.okDst] using h
    have hsub : code = code &&& m := by
      calc code = code &&& (m ||| ~~~m) := by rw [BitVec.or_not_self, BitVec.and_allOnes]
        _ = code &&& m ||| code &&& ~~~m := BitVec.and_or_distrib_left
        _ = code &&& m := by simp [hand]
    have hle : code.toNat ≤ m.toNat := by rw [hsub, BitVec.toNat_and]; exact Nat.and_le_right
    exact BitVec.le_trans (BitVec.le_def.2 hle) hm
  | opWhenE0 v =>
    simp only [FK.okDst] at h
    split at h
    · simpa using h
    · simp_all
  | shared => simp [FK.okDst] at h; bv_omega
  | run => simp [FK.okDst] at h; bv_omega

theorem FK.okSrc_last_lt {k : FK} {e code : BitVec 7} (h : k.okSrc e code true = true) : code < 0x50 := by
  cases k with
  | unused => simp [FK.okSrc] at h
  | raw m => simp [FK.okSrc] at h
  | op => simpa [FK.okSrc] using h
  | opWhenE0 v =>
    simp only [FK.okSrc] at h
    split at h
    · simpa using h
    · simp at h
  | shared => simp [FK.okSrc] at h; exact h.2
  | run => simp [FK.okSrc] at h; bv_omega

/-! ### Fields of a word as numbers -/

theorem toNat_extract {n : Nat} (x : BitVec n) (lo w : Nat) : (x.extractLsb' lo w).toNat = x.toNat / 2 ^ lo % 2 ^ w := by
  rw [BitVec.extractLsb'_toNat, Nat.shiftRight_eq_div_pow]

theorem toNat_op (x : Word) : (RawW.ofWord x).op.toNat = x.toNat % 2 ^ 10 := by
  rw [RawW.ofWord, toNat_extract, Nat.pow_zero, Nat.div_one]

/-! ### Refused words (R73) -/

/-- A word that its row, if it has one, does not allow is refused: with 0x01 for a reserved opcode, otherwise with 0x02. -/
theorem refused_of {x : Word} {next : Option Word} (h : ∀ row, rowOf (RawW.ofWord x).op = some row →
      ¬(row.d.okDst (RawW.ofWord x).e (RawW.ofWord x).d = true ∧ row.fieldsOk (RawW.ofWord x) = true)) :
    ∃ e, decode x next = .error e ∧ e.code = if minorsOf (x.toNat % 2 ^ 10 / 64) ≤ x.toNat % 2 ^ 10 % 64 then 0x01 else 0x02 := by
  have hnone := rowOf_eq_none_iff (RawW.ofWord x).op
  rw [toNat_op] at hnone
  cases hr : rowOf (RawW.ofWord x).op with
  | none => exact ⟨_, decode_of_no_row hr, by rw [if_pos (hnone.1 hr)]; rfl⟩
  | some row =>
    obtain ⟨e, he, hc⟩ := decode_refused (next := next) hr (h row hr)
    exact ⟨e, he, by rw [if_neg (mt hnone.2 (by simp [hr])), hc]⟩

theorem decode_eq_reservedOpcode_iff (x : Word) (next : Option Word) :
    decode x next = .error .reservedOpcode ↔ minorsOf (x.toNat % 2 ^ 10 / 64) ≤ x.toNat % 2 ^ 10 % 64 := by
  rw [← toNat_op, ← rowOf_eq_none_iff]
  refine ⟨fun hd => ?_, decode_of_no_row⟩
  cases hr : rowOf (RawW.ofWord x).op with
  | none => rfl
  | some row => exact absurd hd (decode_ne_reservedOpcode hr)

/-- A destination code beyond those of R62 is refused, but in the displacements of BRA and CALL. -/
theorem not_okDst_of_beyond {x : Word} {row : Row} (hr : rowOf (RawW.ofWord x).op = some row) (hb : x.toNat % 2 ^ 10 ≠ 0x140)
    (hc : x.toNat % 2 ^ 10 ≠ 0x142) (hd : 0x50 < x.toNat / 2 ^ 21 % 2 ^ 7) :
    ¬row.d.okDst (RawW.ofWord x).e (RawW.ofWord x).d = true := by
  intro hok
  obtain ⟨hop, g, hg, hmem⟩ := rowOf_mem hr
  rw [toNat_op] at hop
  have hle : (x.extractLsb' 21 7).toNat ≤ 0x50 := FK.okDst_le (rows_narrow g hg row hmem (hop ▸ hb) (hop ▸ hc)) hok
  rw [toNat_extract] at hle
  omega

/-- A last-use flag on a source field that names no register is refused. -/
theorem not_fieldsOk_of_lastUse {x : Word} (row : Row) {k : Nat} (hk : k < 4) (hc : 0x50 ≤ x.toNat / 2 ^ (28 + 7 * k) % 2 ^ 7)
    (hl : x.getLsbD (56 + k) = true) : ¬row.fieldsOk (RawW.ofWord x) = true := by
  intro hok
  obtain ⟨ha, hb, hcc, he, -, -⟩ := (row.fieldsOk_iff _).1 hok
  rw [← toNat_extract] at hc
  have hlt {f : FK} {e code : BitVec 7} {last : Bool} (h : f.okSrc e code last = true) (hl : last = true) : code.toNat < 0x50 :=
    FK.okSrc_last_lt (hl ▸ h)
  match k, hk with
  | 0, _ => exact absurd (hlt ha hl) (Nat.not_lt.2 hc)
  | 1, _ => exact absurd (hlt hb hl) (Nat.not_lt.2 hc)
  | 2, _ => exact absurd (hlt hcc hl) (Nat.not_lt.2 hc)
  | 3, _ => exact absurd (hlt he hl) (Nat.not_lt.2 hc)

/-- A cache hint outside groups 6, 7 and 10 is refused. -/
theorem not_fieldsOk_of_hint {x : Word} (row : Row) (hg : x.toNat % 2 ^ 10 / 64 ∉ [6, 7, 10]) (hh : x.toNat / 2 ^ 19 % 4 ≠ 0) :
    ¬row.fieldsOk (RawW.ofWord x) = true := by
  intro hok
  obtain ⟨-, -, -, -, -, hhint⟩ := (row.fieldsOk_iff _).1 hok
  have hne : (RawW.ofWord x).hint ≠ 0 := fun h0 => hh ((toNat_extract x 19 2).symm.trans (congrArg BitVec.toNat h0))
  simp only [List.mem_cons, List.not_mem_nil, or_false, not_or] at hg
  simp only [hintOk, toNat_op, Bool.or_eq_true, beq_iff_eq] at hhint
  tauto

/-- Settles O59: the words by evaluation, and any word by the row of its opcode. -/
theorem decodeWords : Obligations.DecodeWords := by
  unfold Obligations.DecodeWords
  intro f g
  refine ⟨rfl, rfl, rfl, rfl, rfl, rfl, rfl, rfl, rfl, rfl, rfl, rfl, rfl, rfl, rfl, fun x next => ?anyWord,
    rfl, rfl, rfl, rfl, rfl, rfl⟩
  intro op fd minors refused
  exact ⟨fun h => ⟨_, (decode_eq_reservedOpcode_iff x next).2 h, (if_pos h).symm⟩, (decode_eq_reservedOpcode_iff x next).symm,
    fun hb hc hd => refused_of fun row hr hok => not_okDst_of_beyond hr hb hc hd hok.1,
    fun k hk hc hl => refused_of fun row _ hok => not_fieldsOk_of_lastUse row hk hc hl hok.2,
    fun hg hh => refused_of fun row _ hok => not_fieldsOk_of_hint row hg hh hok.2⟩

/-! ### Encoding and decoding (R58, R61) -/

theorem wellFormed_checks {i : Instr} (h : wellFormed i = true) : ∃ r row, encodeRaw i = some r ∧ rowOf r.op = some row
    ∧ row.literals r ≤ 1 ∧ row.d.okDst r.e r.d = true ∧ row.fieldsOk r = true ∧ selectorsOk r = true := by
  unfold wellFormed illFormed at h
  cases he : encodeRaw i with
  | none => simp [he] at h
  | some r =>
    cases hr : rowOf r.op with
    | none => simp [he, hr] at h
    | some row =>
      simp only [he, hr, Option.isNone_iff_eq_none, ite_eq_iff, reduceCtorEq, and_false, false_or, Nat.not_lt, Bool.not_eq_true',
        Bool.not_eq_false] at h
      obtain ⟨-, hone, hd, hf, hsel, -⟩ := h
      exact ⟨r, row, rfl, hr, hone, hd, hf, hsel⟩

/-- Settles O60: cutting the word gives its fields again, they pass the row's checks, and each constructor's fields build it. -/
theorem roundTrip : Obligations.RoundTrip := by
  unfold Obligations.RoundTrip
  intro i hw
  obtain ⟨r, row, he, hr, hone, hd, hf, hsel⟩ := wellFormed_checks hw
  obtain ⟨hbuild, hlit⟩ := Laws.Rebuilds.statement i hw r he
  exact ⟨r.toWord, literalOf i, by rw [encode, he]; rfl,
    decode_of_built (RawW.ofWord_toWord r) hr hone (hlit row hr) hd hf hsel hbuild⟩

end Sys2Proof
end

section
/-! SUPPORT. What a step runs (R55, R56, R60 to R62, R73; log 1). -/

namespace Sys2Proof.Machine

/-! ### The step, case by case -/

section
variable {s : State}

theorem step_of_event {e : Ev} {rest : List Ev} (h : s.agenda = e :: rest) : step s = e.run { s with agenda := rest } := by
  simp only [step, h]

variable (hq : s.agenda = [])
include hq

theorem step_of_issued {i : Issue} (hi : s.iss = some i) (ht : i.g.todo = []) :
    step s = .next (s.checkWord (frameOf i.g.word).park) := by
  simp only [step, hq, hi, ht]

theorem step_of_issue {i : Issue} (hi : s.iss = some i) {tk : Nat} {rest : List Nat} (ht : i.g.todo = tk :: rest) :
    step s = exec (s.refine tk i.g.instr) s := by
  simp only [step, hq, hi, ht]

theorem step_of_turn (hi : s.iss = none) {ck half : Nat} {rest : List (Nat × Nat)} (ht : s.turn = (ck, half) :: rest) {g : Gang}
    (hg : (State.pipe { s with turn := rest } ck half).gang = some g) :
    step s = .next (State.pipeTurn { s with turn := rest } ck half g) := by
  simp only [step, hq, hi, ht] at hg ⊢
  simp only [hg]

theorem step_of_free_pipe (hi : s.iss = none) {ck half : Nat} {rest : List (Nat × Nat)} (ht : s.turn = (ck, half) :: rest)
    (hg : (State.pipe { s with turn := rest } ck half).gang = none) :
    step s = exec (.pipePick ck half .none) { s with turn := rest } := by
  simp only [step, hq, hi, ht] at hg ⊢
  simp only [hg]

theorem step_of_cycle (hi : s.iss = none) (ht : s.turn = []) : step s = .next (nextCycle s) := by
  simp only [step, hq, hi, ht]

end

/-! ### The instruction of a word (R55, R56, R73) -/

/-- The word may stand where the gang is: its group in a clause of this class, and an opcode that ends the clause last. -/
def Gang.Placed (g : Gang) : Prop :=
  classAllows (field g.hdr.toNat 6 4) ((RawW.ofWord g.word).op.toNat / 64) = true
    ∧ (endsClause (RawW.ofWord g.word).op.toNat = true → g.words.length ≤ g.pos + g.len)

section
variable {g : Gang}

theorem Gang.placed_iff : g.Placed ↔ ¬(!classAllows (field g.hdr.toNat 6 4) ((RawW.ofWord g.word).op.toNat / 64)
    || (endsClause (RawW.ofWord g.word).op.toNat && decide (g.pos + g.len < g.words.length))) = true := by
  simp [Gang.Placed]

theorem Gang.instr_of_decoded {ins : Instr} (hd : decode g.word g.next? = .ok ins) (hp : g.Placed) : g.instr = ins := by
  simp only [Gang.instr, hd, if_neg (Gang.placed_iff.1 hp)]

theorem Gang.instr_of_refused {e : Reject} (hd : decode g.word g.next? = .error e) (hp : g.Placed) :
    g.instr = .illegalInstruction (frameOf g.word) e.code (hasLiteral g.word) := by
  cases e <;> simp only [Gang.instr, hd, if_neg (Gang.placed_iff.1 hp)] 
  rfl

theorem Gang.instr_of_code1 (h : ¬g.Placed ∨ decode g.word g.next? = .error .reservedOpcode) :
    g.instr = .illegalInstruction (frameOf g.word) 0x01 (hasLiteral g.word) := by
  unfold Gang.instr
  by_cases hd : decode g.word g.next? = .error .reservedOpcode
  · simp only [hd]
  · have hp := not_not.1 (mt Gang.placed_iff.2 (h.resolve_right hd))
    simp only [hp, if_true]

end

/-! ### Rows that an operand chooses (R352, R464) -/

section
variable (s : State) (tk : Nat)

theorem State.refine_eq_self {ins : Instr} (hc : ∀ f rel h o, ins ≠ .collBind f rel h o) (hw : ∀ f o, ins ≠ .syswr f o) :
    s.refine tk ins = ins := by
  unfold State.refine
  split
  · exact (hc _ _ _ _ rfl).elim
  · exact (hw _ _ rfl).elim
  · rfl

theorem State.refine_collBind_mem (f : Frame) (rel : Bool) (h : Hint) (o : O4) :
    s.refine tk (.collBind f rel h o) ∈ ([.collBind f rel h o, .collReduceScatter f rel h o, .collAllGather f rel h o,
      .collAllReduceRing f rel h o, .collAllReduceTree f rel h o, .collBroadcast f rel h o, .collBarrier f rel h o,
      .collDrawMerge f rel h o] : List Instr) := by
  unfold State.refine
  dsimp only
  split <;> simp

theorem State.refine_syswr (f : Frame) (o : S2) :
    s.refine tk (.syswr f o) = .syswr f o ∨ s.refine tk (.syswr f o) = .injectWrite f o := by
  unfold State.refine
  dsimp only
  split
  · split
    · exact .inr rfl
    · exact .inl rfl
  · exact .inl rfl

end

theorem exec_illegalInstruction {s : State} {i : Issue} {tk : Nat} {rest : List Nat} (hi : s.iss = some i) (ht : i.g.todo = tk :: rest)
    (f : Frame) (code : BitVec 8) (wide : Bool) :
    exec (.illegalInstruction f code wide) s = .next (s.illegal i tk f code.toNat) := by
  change execIllegalInstruction f code wide s = _
  simp only [execIllegalInstruction, hi, ht]

/-- Settles O58: the step by what stands first, and the word's instruction by what it decodes to and where it stands. -/
theorem stepRunsDecoded : Obligations.StepRunsDecoded := by
  unfold Obligations.StepRunsDecoded
  refine ⟨fun s e rest => step_of_event, fun s ins rest => step_of_event, fun s i hq hi => ?word, fun s ck half rest hq hi ht => ?turn,
    fun s => step_of_cycle⟩
  case turn => exact ⟨fun g => step_of_turn hq hi ht, step_of_free_pipe hq hi ht⟩
  case word =>
    intro w op placed
    refine ⟨step_of_issued hq hi, fun tk rest ht => ?_⟩
    rw [step_of_issue hq hi ht]
    refine ⟨fun ins hd hp hc hw => ?_, fun f rel h o hd hp => ?_, fun f o hd hp => ?_, fun e hd _ hp => ?_, fun h => ?_⟩
    · rw [Gang.instr_of_decoded hd hp, State.refine_eq_self s tk hc hw]
    · exact ⟨_, rfl, Gang.instr_of_decoded hd hp ▸ s.refine_collBind_mem tk f rel h o⟩
    · rw [Gang.instr_of_decoded hd hp]
      exact (s.refine_syswr tk f o).imp (congrArg (exec · s)) (congrArg (exec · s))
    · rw [Gang.instr_of_refused hd hp, State.refine_eq_self s tk (by simp) (by simp), exec_illegalInstruction hi ht]
    · rw [Gang.instr_of_code1 h, State.refine_eq_self s tk (by simp) (by simp), exec_illegalInstruction hi ht]
      rfl

end Sys2Proof.Machine
end

section
/-! SUPPORT. The checks that a word meets before its own effect, one by one in their order (R55, R64, R73 to R75, R93, R109, R262, R265,
R473). -/

namespace Sys2Proof.Machine

/-! ### Features and privileges (R55, R73, R93) -/

/-- The word needs a feature that its thread's context has not taken. -/
def State.Lacks (s : State) (tk : Nat) (u : Use) : Prop :=
  ∃ k, u.feat = some k ∧ s.taken (pkgOfThr tk) (s.thr tk).ctx k = false

/-- The context has the privilege that the word needs: system privilege, or that or the launch right. -/
def State.Privileged (s : State) (tk : Nat) (u : Use) : Prop :=
  (u.priv = 1 → (s.ctxOf tk).attr.getLsbD 0 = true)
    ∧ (u.priv = 2 → (s.ctxOf tk).attr.getLsbD 0 = true ∨ (s.ctxOf tk).attr.getLsbD 1 = true)

section
variable {s : State} {tk : Nat} {u : Use}

theorem State.decodeFault_of_lacks (h : s.Lacks tk u) : s.decodeFault tk u = some { code := 0x18 } := by
  obtain ⟨k, hk, ht⟩ := h
  simp [State.decodeFault, hk, ht]

/-- With its feature taken a word has only its privilege to show. -/
theorem State.decodeFault_of_taken (h : ¬s.Lacks tk u) : s.decodeFault tk u =
    if (u.priv = 1 ∧ !(s.ctxOf tk).attr.getLsbD 0) ∨ (u.priv = 2 ∧ !(s.ctxOf tk).attr.getLsbD 0 ∧ !(s.ctxOf tk).attr.getLsbD 1)
    then some { code := 0x09 } else none := by
  unfold State.decodeFault
  cases hu : u.feat with
  | none => rfl
  | some k =>
    have ht : s.taken (pkgOfThr tk) (s.thr tk).ctx k = true := by
      by_contra hn
      exact h ⟨k, hu, Bool.not_eq_true _ ▸ hn⟩
    simp only [ht, Bool.not_true, Bool.false_eq_true, if_false]

theorem State.privileged_iff : s.Privileged tk u ↔ ¬((u.priv = 1 ∧ !(s.ctxOf tk).attr.getLsbD 0)
    ∨ (u.priv = 2 ∧ !(s.ctxOf tk).attr.getLsbD 0 ∧ !(s.ctxOf tk).attr.getLsbD 1)) := by
  simp only [State.Privileged, not_or, not_and, Bool.not_eq_true', Bool.not_eq_false, imp_iff_not_or]

theorem State.decodeFault_of_unprivileged (hf : ¬s.Lacks tk u) (hp : ¬s.Privileged tk u) :
    s.decodeFault tk u = some { code := 0x09 } := by
  rw [State.decodeFault_of_taken hf, if_pos (not_not.1 (mt State.privileged_iff.2 hp))]

theorem State.decodeFault_eq_none (hf : ¬s.Lacks tk u) (hp : s.Privileged tk u) : s.decodeFault tk u = none := by
  rw [State.decodeFault_of_taken hf, if_neg (State.privileged_iff.1 hp)]

end

/-! ### A member at its word (R75) -/

/-- The state in which a member meets its word: values that have left its window are in the banks (R131). -/
def State.agedAt (s : State) (i : Issue) (tk : Nat) : State := s.modThr tk fun t => { t with r := t.r.age i.g.wn }

/-- No failed load waits to be raised, and decode has nothing against the word's feature and privilege. -/
structure State.Legal (a : State) (i : Issue) (tk : Nat) (u : Use) : Prop where
  calm : (a.thr tk).late.any (fun x => x.load) = false
  allowed : (if a.strict tk || i.g.anyOn then a.decodeFault tk u else none) = none

/-- Nothing that comes before the guards' values stands in the way. -/
structure State.Ready (a : State) (i : Issue) (tk : Nat) (f : Frame) (u : Use) : Prop extends a.Legal i tk u where
  known : a.gangWaits i.g.todo f u = []
  guards : framePreds f &&& (a.thr tk).r.runP = 0
  same : i.g.tandem = true → a.tandemArmed i = false

/-- The guards hold, the operands resolve, and nothing the word touches is pending in the same run. -/
structure State.Resolves (a : State) (i : Issue) (tk : Nat) (f : Frame) (u : Use) (r : Resolved) : Prop extends a.Ready i tk f u where
  on : frameOn f (a.thr tk).r.p = true
  names : resolve (a.thr tk) u = .ok r
  regs : (r.touch u f).1 &&& (a.thr tk).r.runG = 0
  preds : (r.touch u f).2 &&& (a.thr tk).r.runP = 0

section
variable {s a : State} {i : Issue} {tk : Nat} {f : Frame} {u : Use} {off body : State → Lane → Res}

theorem State.legal_of (hl : (a.thr tk).late.any (fun x => x.load) = false)
    (hc : a.strict tk = true ∨ i.g.anyOn = true → ¬a.Lacks tk u ∧ a.Privileged tk u) : a.Legal i tk u := by
  refine ⟨hl, ?_⟩
  split
  · rename_i h
    obtain ⟨hf, hp⟩ := hc (by simpa using h)
    exact State.decodeFault_eq_none hf hp
  · rfl

theorem State.Ready.tandemSame (h : a.Ready i tk f u) (p : Prop) : ¬(i.g.tandem = true ∧ a.tandemArmed i = true ∧ p) := by
  rintro ⟨ht, ha, -⟩
  simp [h.same ht] at ha

variable (ha : s.agedAt i tk = a)
include ha

theorem State.lane_of_lateLoad (h : (a.thr tk).late.any (fun x => x.load) = true) :
    s.lane i tk f u off body = a.lateLoads tk f.park := by
  unfold State.agedAt at ha
  simp only [State.lane, ha, h, if_true]

theorem State.lane_of_decodeFault (h : (a.thr tk).late.any (fun x => x.load) = false)
    (hc : a.strict tk = true ∨ i.g.anyOn = true) {x : FI} (hx : a.decodeFault tk u = some x) : s.lane i tk f u off body = a.wordFault tk x f.park := by
  have hc' : (a.strict tk || i.g.anyOn) = true := by simpa using hc
  unfold State.agedAt at ha
  simp only [State.lane, ha, h, hc', hx, if_true, Bool.false_eq_true, if_false]

theorem State.lane_of_waits (h : a.Legal i tk u) {x : Nat × BitVec 64 × BitVec 7} {l : List (Nat × BitVec 64 × BitVec 7)}
    (hw : a.gangWaits i.g.todo f u = x :: l) : s.lane i tk f u off body = a.parkGang i i.g (.regs (x :: l)) := by
  obtain ⟨hl, hd⟩ := h
  unfold State.agedAt at ha
  simp only [State.lane, ha, hl, hd, hw, Bool.false_eq_true, if_false]
  rfl

theorem State.lane_of_guard_pending (h : a.Legal i tk u) (hw : a.gangWaits i.g.todo f u = [])
    (hg : framePreds f &&& (a.thr tk).r.runP ≠ 0) : s.lane i tk f u off body = a.wordFault tk { code := 0x03 } f.park := by
  obtain ⟨hl, hd⟩ := h
  unfold State.agedAt at ha
  simp only [State.lane, ha, hl, hd, hw, hg, Bool.false_eq_true, if_false, List.isEmpty_nil, Bool.not_true, ne_eq,
    not_false_eq_true, if_true]

theorem State.lane_of_guards_off (h : a.Ready i tk f u) (hg : frameOn f (a.thr tk).r.p = false) (hp : (a.thr tk).pair = none) :
    s.lane i tk f u (fun s _ => .ok s) body = (a.pairAfter tk (a.thr tk).nw u).retire tk f := by
  have hsame := h.tandemSame
  obtain ⟨⟨hl, hd⟩, hw, hk, -⟩ := h
  unfold State.agedAt at ha
  simp only [State.lane, ha, hl, hd, hw, hk, hg, hsame, State.pairGate, hp, Bool.false_eq_true, if_false, List.isEmpty_nil, Bool.not_true,
    Bool.not_false, if_true, ne_eq, not_true_eq_false]

theorem State.lane_of_unresolved (h : a.Ready i tk f u) (hg : frameOn f (a.thr tk).r.p = true) {x : FI}
    (hx : resolve (a.thr tk) u = .error x) : s.lane i tk f u off body = a.wordFault tk x f.park := by
  have hsame := h.tandemSame
  obtain ⟨⟨hl, hd⟩, hw, hk, -⟩ := h
  unfold State.agedAt at ha
  simp only [State.lane, ha, hl, hd, hw, hk, hg, hsame, hx, Bool.false_eq_true, if_false, List.isEmpty_nil, Bool.not_true, ne_eq,
    not_true_eq_false]

theorem State.lane_of_pending (h : a.Ready i tk f u) (hg : frameOn f (a.thr tk).r.p = true) {r : Resolved}
    (hr : resolve (a.thr tk) u = .ok r) (hm : (r.touch u f).1 &&& (a.thr tk).r.runG ≠ 0 ∨ (r.touch u f).2 &&& (a.thr tk).r.runP ≠ 0) :
    s.lane i tk f u off body = a.wordFault tk { code := 0x03 } f.park := by
  have hsame := h.tandemSame
  obtain ⟨⟨hl, hd⟩, hw, hk, -⟩ := h
  unfold State.agedAt at ha
  simp only [State.lane, ha, hl, hd, hw, hk, hg, hsame, hr, Bool.false_eq_true, if_false, List.isEmpty_nil, Bool.not_true, ne_eq,
    not_true_eq_false]
  exact if_pos hm

variable {r : Resolved} (h : a.Resolves i tk f u r)
include h

theorem State.lane_of_poisoned {n : Nat} (hn : a.poisoned tk (r.reads u) = some n) : s.lane i tk f u off body =
    a.wordFault tk ((a.ownFault? i tk f u r body).getD { code := 0x0D, addr := BitVec.ofNat 64 n }) f.park := by
  have hsame := h.tandemSame
  obtain ⟨⟨⟨hl, hd⟩, hw, hk, -⟩, hon, hr, hG, hP⟩ := h
  unfold State.agedAt at ha
  simp only [State.lane, ha, hl, hd, hw, hk, hon, hsame, hr, hG, hP, hn, Bool.false_eq_true, if_false, List.isEmpty_nil, Bool.not_true,
    ne_eq, not_true_eq_false, or_self]

variable (hn : a.poisoned tk (r.reads u) = none)
include hn

/-- What is left of a word that reads nothing poisoned. -/
theorem State.lane_of_sound : s.lane i tk f u off body =
    if (u.rel ∨ u.drain) ∧ (a.thr tk).late.any (fun x => !x.load) then a.lateStores tk f.park
    else if u.rel ∧ !(a.thr tk).relReady then a.parkGang i i.g .rel
    else a.laneBody i tk f u r body := by
  have hsame := h.tandemSame
  obtain ⟨⟨⟨hl, hd⟩, hw, hk, -⟩, hon, hr, hG, hP⟩ := h
  unfold State.agedAt at ha
  simp only [State.lane, ha, hl, hd, hw, hk, hon, hsame, hr, hG, hP, hn, Bool.false_eq_true, if_false, List.isEmpty_nil, Bool.not_true,
    ne_eq, not_true_eq_false, or_self]

theorem State.lane_of_lateStore (hu : u.rel = true ∨ u.drain = true) (hl : (a.thr tk).late.any (fun x => !x.load) = true) :
    s.lane i tk f u off body = a.lateStores tk f.park := by
  rw [State.lane_of_sound ha h hn, if_pos ⟨hu, hl⟩]

theorem State.lane_of_release (hl : (a.thr tk).late = []) (hu : u.rel = true) (hq : (a.thr tk).relReady = false) :
    s.lane i tk f u off body = a.parkGang i i.g .rel := by
  rw [State.lane_of_sound ha h hn, if_neg (by simp [hl]), if_pos ⟨hu, by simp [hq]⟩]

end

/-! ### Illegal words (R64, R73, R74) -/

section
variable {s : State} {i : Issue} {tk : Nat} {f : Frame} {code : Nat}

theorem State.illegal_of_lateLoad (h : (s.thr tk).late.any (fun x => x.load) = true) : s.illegal i tk f code = s.lateLoads tk f.park :=
  if_pos h

variable (h : (s.thr tk).late.any (fun x => x.load) = false)
include h

theorem State.illegal_of_checked (hc : s.strict tk = true ∨ i.g.anyOn = true) :
    s.illegal i tk f code = s.wordFault tk { code := code } f.park := by
  have hc' : (s.strict tk || i.g.anyOn) = true := by simpa using hc
  simp only [State.illegal, h, hc', Bool.false_eq_true, if_false, if_true]

/-- In permissive decode, with no member's guards known to hold, the gang waits for the guards that are pending. -/
theorem State.illegal_of_unchecked (hs : s.strict tk = false) (ho : i.g.anyOn = false) :
    let waits := (i.g.todo.map fun k => (k, (0 : BitVec 64), framePreds f &&& (s.thr k).r.pendP)).filter fun x => x.2.2 != 0
    s.illegal i tk f code = if waits = [] then s.retire tk f else s.parkGang i i.g (.regs waits) := by
  simp only [State.illegal, h, hs, ho, Bool.false_eq_true, if_false, Bool.or_self, List.isEmpty_iff]

end

/-- A word whose members with false guards do nothing is issued by the next member of its gang. -/
theorem word_eq_lane {s : State} {i : Issue} {tk : Nat} {rest : List Nat} (hi : s.iss = some i) (ht : i.g.todo = tk :: rest)
    (f : Frame) (u : Use) (body : State → Lane → Res) : word f u body s = .next (s.lane i tk f u (fun s _ => .ok s) body) := by
  simp only [word, issueWord, hi, ht]

/-- Settles O53: each clause is the lemma about the check it speaks of. -/
theorem checksBeforeEffect : Obligations.ChecksBeforeEffect := by
  unfold Obligations.ChecksBeforeEffect
  intro s i tk rest hi ht a t attr loads checked
  refine ⟨fun ins f u body hx => ?legal, fun f code wide => ?illegal⟩
  case legal =>
    intro faults parks lacks privileged legal ready
    have ha : s.agedAt i tk = a := rfl
    have hgo {b : State} (hb : s.lane i tk f u (fun s _ => .ok s) body = b) : exec ins s = .next b := by
      rw [hx, word_eq_lane hi ht, hb]
    have hleg (h : legal) : a.Legal i tk u := State.legal_of h.1 h.2
    have hrdy (h : ready) : a.Ready i tk f u := by
      obtain ⟨hl, hw, hg, hs⟩ := h
      exact { hleg hl with known := hw, guards := hg, same := hs }
    refine ⟨fun h => hgo (State.lane_of_lateLoad ha h),
      fun h hc hf => hgo (State.lane_of_decodeFault ha h hc (State.decodeFault_of_lacks hf)),
      fun h hc hf hp => hgo (State.lane_of_decodeFault ha h hc (State.decodeFault_of_unprivileged hf hp)),
      fun h x y hw => hgo (State.lane_of_waits ha (hleg h) hw), fun h hw hg => hgo (State.lane_of_guard_pending ha (hleg h) hw hg),
      fun h hg hp => hgo (State.lane_of_guards_off ha (hrdy h) hg hp),
      fun h hg => ⟨fun x hr => hgo (State.lane_of_unresolved ha (hrdy h) hg hr), fun r hr => ?resolved⟩⟩
    case resolved =>
      intro m q bad
      refine ⟨fun hm => hgo (State.lane_of_pending ha (hrdy h) hg hr hm), fun hG hP => ?_⟩
      have hres : a.Resolves i tk f u r := { hrdy h with on := hg, names := hr, regs := hG, preds := hP }
      exact ⟨fun n hn => hgo (State.lane_of_poisoned ha hres hn), fun hn hu hl => hgo (State.lane_of_lateStore ha hres hn hu hl),
        fun hn hl hu hq => hgo (State.lane_of_release ha hres hn hl hu hq)⟩
  case illegal =>
    intro ins failed waits
    have hgo {b : State} (hb : s.illegal i tk f code.toNat = b) : exec ins s = .next b := by
      rw [exec_illegalInstruction hi ht, hb]
    refine ⟨fun h => hgo (State.illegal_of_lateLoad h), fun h hc => hgo (State.illegal_of_checked h hc), fun h hs ho => ?_⟩
    have hun := State.illegal_of_unchecked (i := i) (f := f) (code := code.toNat) h hs ho
    exact ⟨fun hw => hgo (hun.trans (if_pos hw)), fun hw => hgo (hun.trans (if_neg hw))⟩

end Sys2Proof.Machine
end

section
/-! SUPPORT. The newest value of a register (R131 to R133), and what a word changes before and after its own effect (R65, R70, R107). -/

namespace Sys2Proof.Machine

/-! ### The window and the banks (R131 to R133) -/

/-- No register has two live values in the forwarding window. -/
def Regs.OnePerReg (r : Regs) : Prop := (r.win.map fun e => e.reg).Nodup

theorem Regs.get_set (r : Regs) (m n : BitVec 6) (v : Word) : (r.set m v).get n = if m = n then v else r.get n := by
  simp [Regs.get, Regs.set, Vector.get_eq_getElem, Vector.getElem_set, BitVec.toNat_inj]

section
variable {r : Regs} {n : BitVec 6}

theorem Regs.newest_of_not_mem (h : ∀ e ∈ r.win, e.reg ≠ n) : r.newest n = r.get n := by
  have hnone : (r.win.find? fun e => e.reg == n) = none := by simpa [List.find?_eq_none] using h
  simp only [Regs.newest, hnone]

theorem Regs.newest_of_mem (hr : r.OnePerReg) {e : WinE} (he : e ∈ r.win) : r.newest e.reg = e.val := by
  cases hf : r.win.find? fun x => x.reg == e.reg with
  | none => exact (List.find?_eq_none.1 hf e he (beq_self_eq_true _)).elim
  | some x =>
    have hx : x = e := List.inj_on_of_nodup_map hr (List.mem_of_find?_eq_some hf) he (by simpa using List.find?_some hf)
    simp only [Regs.newest, hf, hx]

/-- Registers with one value in the bank and one in the window have one newest value. -/
theorem Regs.newest_congr {q : Regs} (hw : (q.win.find? fun e => e.reg == n) = r.win.find? fun e => e.reg == n)
    (hg : q.get n = r.get n) : q.newest n = r.newest n := by
  unfold Regs.newest
  rw [hw, hg]

theorem Regs.get_bank_of_not_mem {l : List WinE} (h : ∀ e ∈ l, e.reg ≠ n) :
    (l.foldr (fun e acc => acc.set e.reg e.val) r).get n = r.get n := by
  induction l with
  | nil => rfl
  | cons x l ih =>
    obtain ⟨hx, hl⟩ := List.forall_mem_cons.1 h
    rw [List.foldr_cons, Regs.get_set, if_neg hx, ih hl]

theorem Regs.get_bank_of_mem {l : List WinE} (hl : (l.map fun e => e.reg).Nodup) {e : WinE} (he : e ∈ l) :
    (l.foldr (fun e acc => acc.set e.reg e.val) r).get e.reg = e.val := by
  induction l with
  | nil => cases he
  | cons x l ih =>
    obtain ⟨hx, hl⟩ := List.nodup_cons.1 hl
    rw [List.foldr_cons, Regs.get_set]
    rcases List.mem_cons.1 he with rfl | he
    · rw [if_pos rfl]
    · rw [if_neg fun hxe => hx (List.mem_map.2 ⟨e, he, hxe.symm⟩), ih hl he]

end

theorem Regs.age_win (r : Regs) (k : Nat) : (r.age k).win = r.win.filter fun e => !decide (e.pos + 8 < k) := rfl

theorem Regs.get_age (r : Regs) (k : Nat) (n : BitVec 6) :
    (r.age k).get n = ((r.win.filter fun e => decide (e.pos + 8 < k)).foldr (fun e acc => acc.set e.reg e.val) r).get n := rfl

theorem Regs.OnePerReg.of_sublist {r q : Regs} (hr : r.OnePerReg) (h : q.win.Sublist r.win) : q.OnePerReg := hr.sublist (h.map _)

theorem Regs.OnePerReg.age {r : Regs} (hr : r.OnePerReg) (k : Nat) : (r.age k).OnePerReg := hr.of_sublist List.filter_sublist

/-- A value that leaves the window is the bank's, so the newest values stay. -/
theorem Regs.newest_age {r : Regs} (hr : r.OnePerReg) (k : Nat) (n : BitVec 6) : (r.age k).newest n = r.newest n := by
  by_cases hn : ∃ e ∈ r.win, e.reg = n
  · obtain ⟨e, he, rfl⟩ := hn
    rw [Regs.newest_of_mem hr he]
    by_cases hold : e.pos + 8 < k
    · have hout : ∀ x ∈ (r.age k).win, x.reg ≠ e.reg := by
        intro x hx hreg
        obtain ⟨hx, hpos⟩ := List.mem_filter.1 hx
        obtain rfl := List.inj_on_of_nodup_map hr hx he hreg
        simp [hold] at hpos
      rw [Regs.newest_of_not_mem hout, Regs.get_age]
      exact Regs.get_bank_of_mem (hr.sublist (List.filter_sublist.map _)) (List.mem_filter.2 ⟨he, by simpa using hold⟩)
    · exact Regs.newest_of_mem (hr.age k) (List.mem_filter.2 ⟨he, by simpa using hold⟩)
  · have hnone : ∀ e ∈ r.win, e.reg ≠ n := fun e he hreg => hn ⟨e, he, hreg⟩
    rw [Regs.newest_of_not_mem hnone, Regs.newest_of_not_mem fun e he => hnone e (List.mem_filter.1 he).1, Regs.get_age]
    exact Regs.get_bank_of_not_mem fun e he => hnone e (List.mem_filter.1 he).1

theorem Regs.find_discard_of_ne (r : Regs) {m n : BitVec 6} (h : m ≠ n) :
    ((r.discard m).win.find? fun e => e.reg == n) = r.win.find? fun e => e.reg == n := by
  rw [Regs.discard, List.find?_filter]
  congr 1
  funext e
  by_cases he : e.reg = n
  · simp [he, h.symm]
  · simp [he]

/-! ### Last-use flags (R70, R132) -/

/-- Last-use flags of these sources take some values out of the window and change nothing else; a register that none of them names
keeps its value there. -/
def Thread.UsedUp (t : Thread) (l : List RSrc) (u : Thread) : Prop :=
  ∃ w, u = { t with r := { t.r with win := w } } ∧ w.Sublist t.r.win
    ∧ ∀ n, (∀ y ∈ l, y.lu = true → y.reg ≠ some n) → (w.find? fun e => e.reg == n) = t.r.win.find? fun e => e.reg == n

theorem Thread.usedUp_self (t : Thread) (l : List RSrc) : t.UsedUp l t := ⟨t.r.win, rfl, List.Sublist.refl _, fun _ _ => rfl⟩

theorem Thread.usedUp_useUp (t : Thread) (x : RSrc) : t.UsedUp [x] (t.useUp x) := by
  unfold Thread.useUp
  split
  · rename_i n hl hr
    split
    · exact t.usedUp_self _
    · refine ⟨(t.r.discard n).win, rfl, List.filter_sublist, fun m hm => ?_⟩
      exact t.r.find_discard_of_ne fun hnm => hm x (List.mem_singleton_self x) hl (hnm ▸ hr)
  · exact t.usedUp_self _

theorem Thread.UsedUp.append {t u v : Thread} {l k : List RSrc} (h : t.UsedUp l u) (h' : u.UsedUp k v) : t.UsedUp (l ++ k) v := by
  obtain ⟨w, rfl, hw, hf⟩ := h
  obtain ⟨w', rfl, hw', hf'⟩ := h'
  refine ⟨w', rfl, hw'.trans hw, fun n hn => ?_⟩
  rw [hf' n fun y hy => hn y (List.mem_append_right l hy), ← hf n fun y hy => hn y (List.mem_append_left k hy)]

theorem Thread.usedUp_foldl (t : Thread) (l : List RSrc) : t.UsedUp l (l.foldl Thread.useUp t) := by
  induction l generalizing t with
  | nil => exact t.usedUp_self _
  | cons x l ih => exact (t.usedUp_useUp x).append (ih _)

/-! ### Before the word's own effect -/

theorem Stand.begun_of_single {w : Stand} {s : State} (hp : (s.thr w.tk).pair = none) :
    w.begun s = s.modThr w.tk fun t => Thread.consume { t with r := t.r.age w.i.g.wn } w.r := by
  have hgate : w.gated s = w.aged s := by
    simp [Stand.gated, State.pairGate, Stand.aged, hp]
  rw [Stand.begun, hgate, Stand.aged, State.modThr_modThr]

/-- The registers of a thread that begins a word: values age into the banks, index registers step, and last-use flags discard. -/
theorem Thread.consume_age_eq (t : Thread) (k : Nat) (r : Resolved) : ∃ g w, Thread.consume { t with r := t.r.age k } r =
      { t with r := { t.r with g := g, win := w, ix := r.ix } } ∧ w.Sublist t.r.win
    ∧ (t.r.OnePerReg → ∀ n, (∀ y ∈ r.srcs, y.lu = true → y.reg ≠ some n) →
      Regs.newest { t.r with g := g, win := w, ix := r.ix } n = t.r.newest n) := by
  obtain ⟨w, hw, hsub, hfind⟩ := Thread.usedUp_foldl { t with r := t.r.age k } r.srcs
  obtain ⟨g, w', hage⟩ := t.r.age_eq k
  refine ⟨g, w, ?_, hsub.trans List.filter_sublist, fun hr n hn => ?_⟩
  · rw [Thread.consume, hw]
    simp only [hage]
  · rw [← Regs.newest_age hr k n]
    exact Regs.newest_congr (hfind n hn) (by rw [hage]; rfl)

/-! ### After it (R107, log 1) -/

/-- The issue once a member has issued the word. -/
def Issue.without (i : Issue) (tk : Nat) : Issue := { i with g := { i.g with todo := i.g.todo.filter (· != tk) } }

section
variable {s : State} {i : Issue} {tk : Nat}

theorem State.pairAfter_of_single (nw : Nat) {u : Use} (hc : u.close = false) (hp : (s.thr tk).pair = none) :
    s.pairAfter tk nw u = s := by
  simp [State.pairAfter, hc, hp]

theorem State.retire_of_member (f : Frame) (hi : s.iss = some i) (hm : i.g.members.contains tk = true) : s.retire tk f =
    State.checkWord { s.modThr tk fun t => { t with nw := t.nw + 1, pc := i.g.wordAddr + BitVec.ofNat 64 (8 * i.g.len) } with
      iss := some (i.without tk) } f.park := by
  simp only [State.retire, Issue.without, hi, hm, Bool.not_true, Bool.false_eq_true, if_false]

theorem State.checkWord_of_todo (park : Bool) (hi : s.iss = some i) (ht : i.g.todo ≠ []) : s.checkWord park = s := by
  simp only [State.checkWord, hi, List.isEmpty_iff, if_neg ht]

theorem State.checkWord_of_done (park : Bool) (hi : s.iss = some i) (ht : i.g.todo = []) : s.checkWord park = s.endWord i park := by
  simp only [State.checkWord, hi, ht, List.isEmpty_nil, if_true]

theorem State.poolRequest_of_unheld (ck : Nat) {members : List Nat} (h : ∀ k ∈ members, (s.thr k).hold = false) :
    s.poolRequest ck members = s := by
  have hwant : (members.filter fun tk => (s.thr tk).xwant && (s.thr tk).hold
      && !((s.core ck).poolq.any fun q => q.members.contains tk)) = [] := by
    rw [List.filter_eq_nil_iff]
    intro k hk
    simp [h k hk]
  simp only [State.poolRequest, hwant, List.isEmpty_nil, if_true]

/-- A gang whose members hold for nothing goes on to the next word of its clause. -/
theorem State.endWord_of_unheld (hm : i.g.members ≠ []) (hh : ∀ k ∈ i.g.members, (s.thr k).hold = false)
    (hl : i.g.pos + i.g.len < i.g.words.length) : s.endWord i false =
    { s.setPipe i.ck i.half { s.pipe i.ck i.half with
      gang := some { i.g with pos := i.g.pos + i.g.len, wn := i.g.wn + 1, todo := [], gid := 0, second := false } } with iss := none } := by
  have hany : (i.g.members.any fun k => (s.thr k).hold) = false := by simpa using hh
  simp only [State.endWord, State.poolRequest_of_unheld i.ck hh, hany, List.isEmpty_iff, if_neg hm, if_neg (Nat.not_le.2 hl),
    Bool.false_eq_true, if_false]

end

/-- Settles O52: the registers of the word's thread before its effect, and the gang after it with and without members left. -/
theorem wordFrame : Obligations.WordFrame := by
  unfold Obligations.WordFrame
  refine fun w s => ⟨fun _ hp => ?before, fun t hc hp hi hm => ?after⟩
  case before =>
    intro b t x
    have hb : b = s.modThr w.tk fun t => Thread.consume { t with r := t.r.age w.i.g.wn } w.r := Stand.begun_of_single hp
    obtain ⟨g, v, hcon, hsub, hnew⟩ := t.consume_age_eq w.i.g.wn w.r
    have hx : x = { t with r := { t.r with g := g, win := v, ix := w.r.ix } } := by
      rw [← hcon]
      exact (congrArg (State.thr · w.tk) hb).trans (s.thr_modThr w.tk _)
    rw [hx, hb]
    refine ⟨rfl, fun k hk => s.thr_modThr_ne _ hk, rfl, rfl, rfl, rfl, rfl, rfl, rfl, rfl, rfl, fun hr => ⟨?_, hnew hr⟩⟩
    exact hr.sublist (hsub.map _)
  case after =>
    intro g past
    have hdone : w.done s t = State.checkWord { past with iss := some (w.i.without w.tk) } w.f.park := by
      rw [Stand.done, State.pairAfter_of_single _ hc hp, State.retire_of_member w.f hi hm]
    refine ⟨fun k hk hne => ?_, fun hall hpark hhold hlen => ?_⟩
    · rw [hdone]
      exact State.checkWord_of_todo _ rfl (List.ne_nil_of_mem (List.mem_filter.2 ⟨hk, by simpa using hne⟩))
    · have hnil : g.todo.filter (· != w.tk) = [] := by
        rw [List.filter_eq_nil_iff]
        intro k hk
        simp [hall k hk]
      have hpast : ∀ k ∈ g.members, (past.thr k).hold = false := by
        intro k hk
        by_cases hkt : k = w.tk
        · subst hkt; rw [State.thr_modThr]; exact hhold _ hk
        · rw [State.thr_modThr_ne _ _ hkt]; exact hhold k hk
      have hne : g.members ≠ [] := List.ne_nil_of_mem (List.contains_iff_mem.1 hm)
      rw [hdone, hpark, State.checkWord_of_done _ rfl hnil]
      exact State.endWord_of_unheld (i := w.i.without w.tk) hne hpast hlen

end Sys2Proof.Machine
end

section
/-! SUPPORT. Where results go (R71, R126, R131, R135), and what a leading copy notes of a write to a mapped shared register (R144). -/

namespace Sys2Proof.Machine

section
variable {s : State} {l : Lane} {n : BitVec 6} {k : Nat}

/-- Where INJECT is not armed for the thread, a result goes to a mapped shared register unchanged, and is noted for its pair. -/
theorem State.put_of_shared (v : Word) (hd : l.r.d = .reg n) (hi : l.r.ind = false) (hk : s.sharedOf l.tk n = some k)
    (hp : s.injectArmed l.i l.tk = false) : s.put l v = (s.writeReg l.tk n v).noteShared l.tk n v := by
  simp only [State.put, hd, hi, State.put1, hp, hk, Bool.false_and, Bool.false_eq_true, if_false, Option.isSome_some, if_true]

/-- Both copies of a pair note what they write to a mapped shared register, for the comparison of their region (R144). -/
theorem State.pair_put_of_shared (v : Word) (hd : l.r.d = .reg n) (hi : l.r.ind = false) (hk : s.sharedOf l.tk n = some k)
    (hp : s.injectArmed l.i l.tk = false) : ((s.put l v).thr l.tk).pair =
      (s.thr l.tk).pair.map fun p => { p with shw := p.shw ++ [((s.thr l.tk).region, n.toNat, v)] } := by
  have hthr : (s.writeReg l.tk n v).thr l.tk = s.thr l.tk := by
    simp only [State.writeReg, hk]
    split
    · rfl
    · exact s.thr_setShReg_other ..
  have hctx : (s.writeReg l.tk n v).ctxs = s.ctxs := by
    simp only [State.writeReg, hk]
    split <;> rfl
  have hk' : (s.writeReg l.tk n v).sharedOf l.tk n = some k := by
    rw [← hk]
    simp only [State.sharedOf, State.ctxOf, State.ctx, State.ctx?, hthr, hctx]
  rw [State.put_of_shared v hd hi hk hp, State.noteShared, hk', Option.isSome_some, if_pos rfl, State.thr_modThr, hthr]

/-- So a write by a copy of a pair changes its thread. -/
theorem State.threads_put_ne_of_pair (v : Word) (hd : l.r.d = .reg n) (hi : l.r.ind = false) (hk : s.sharedOf l.tk n = some k)
    (hp : s.injectArmed l.i l.tk = false) {p : PairS} (hpair : (s.thr l.tk).pair = some p) : (s.put l v).threads ≠ s.threads := by
  intro h
  have hnoted := State.pair_put_of_shared v hd hi hk hp
  have hthr : (s.put l v).thr l.tk = s.thr l.tk := by rw [State.thr, h, State.thr]
  rw [hthr, hpair, Option.map_some, Option.some.injEq] at hnoted
  have hshw : p.shw = p.shw ++ [((s.thr l.tk).region, n.toNat, v)] := congrArg PairS.shw hnoted
  simp at hshw

end

/-- Refutes O51: a leading copy with a mapped shared block notes its write to g63 among the writes that its region compares (R144), so
the table of threads does not stay as it was, which the clause on mapped shared registers asks for every thread that does not trail. -/
theorem not_resultPlaces : ¬Obligations.ResultPlaces := by
  unfold Obligations.ResultPlaces
  intro h
  let leading : Thread := { st := .live, shr := some 0, pair := some { partner := 1, trail := false, slack := 1 } }
  let s : State := State.reset.setThr 0 leading
  let l : Lane :=
    { tk := 0, i := ⟨0, 0, { ctx := 0, hpc := 0, hdr := 0, words := [], members := [0] }⟩,
      f := ⟨⟨7, false⟩, ⟨7, false⟩, false⟩,
      u := { dst := some (.reg 63) }, r := { ix := Vector.replicate 8 0, srcs := [], d := .reg 63 }, vals := [], r0 := {} }
  have hplain : s.injectArmed l.i l.tk = false := by decide
  have hshared : s.sharedOf l.tk 63 = some 7 := by decide
  have htrails : (s.thr l.tk).trails = false := by decide
  obtain ⟨-, -, hclause, -⟩ := h s l 5 0
  obtain ⟨-, hthreads, -⟩ := hclause 63 7 hplain rfl rfl hshared htrails
  exact State.threads_put_ne_of_pair 5 rfl rfl hshared hplain rfl hthreads

end Sys2Proof.Machine
end

section
/-! SUPPORT. What becomes of a word whose checks have all passed, by what its own effect answers (R75). -/

namespace Sys2Proof.Machine

section
variable {w : Stand} {s : State} (h : w.Clear s) {u : Use} (hu : w.u = u) {ins : Instr} {body : State → Lane → Res}
  (he : exec ins s = word w.f u body s)
include h hu he

theorem Stand.completes_of {t : State} (hb : body (w.begun s) (w.lane s) = .ok t) : w.Completes s ins t := by
  subst hu
  exact he.trans (word_ok h hb)

theorem Stand.faults_of {x : FI} (hb : body (w.begun s) (w.lane s) = .fault x) : w.Faults s ins x := by
  subst hu
  rw [Stand.Faults, he, word, issue_clear h, hb]

theorem Stand.parks_of {y : Why} (hb : body (w.begun s) (w.lane s) = .park y) : w.Parks s ins y := by
  subst hu
  rw [Stand.Parks, he, word, issue_clear h, hb]

theorem Stand.starts_of {t : State} {y : Why} (hb : body (w.begun s) (w.lane s) = .start t y) : w.Starts s ins t y := by
  subst hu
  rw [Stand.Starts, he, word, issue_clear h, hb]

theorem Stand.gone_of {t : State} (hb : body (w.begun s) (w.lane s) = .gone t) : exec ins s = .next (t.checkWord w.f.park) := by
  subst hu
  rw [he, word, issue_clear h, hb]

end

end Sys2Proof.Machine
end

section
/-! SUPPORT. Branches, calls and returns (R118). -/

namespace Sys2Proof.Machine

theorem badTarget_iff {t : Word} : badTarget t = true ↔ t.toNat % 8 ≠ 0 := by simp [badTarget]

theorem badTarget_eq_false_iff {t : Word} : badTarget t = false ↔ t.toNat % 8 = 0 := by simp [badTarget]

/-- A call's own effect where there is room for its return address. -/
def State.called (b : State) (l : Lane) (t : Word) : State :=
  b.modThr l.tk fun x => { x with stack := x.stack ++ [nextHeader l.i.g.hpc l.i.g.hdr], jump := some t }

section
variable {s : State} {l : Lane} {t : Word}

theorem callBody_misaligned (h : t.toNat % 8 ≠ 0) : callBody t s l = .fault { code := 0x07, addr := t } := by
  simp only [callBody, badTarget_iff.2 h, if_true]

variable (h : t.toNat % 8 = 0)
include h

theorem callBody_of_room (hr : (s.thr l.tk).stack.length < 16) : callBody t s l = .ok (s.called l t) := by
  simp only [callBody, badTarget_eq_false_iff.2 h, Bool.false_eq_true, if_false, hr, if_true, State.called]

theorem callBody_of_spilled (hr : 16 ≤ (s.thr l.tk).stack.length) {b : State} (hb : s.spillBottom l = .ok b) :
    callBody t s l = .ok (b.called l t) := by
  simp only [callBody, badTarget_eq_false_iff.2 h, Bool.false_eq_true, if_false, Nat.not_lt.2 hr, hb, State.called]

theorem callBody_of_unspilled (hr : 16 ≤ (s.thr l.tk).stack.length) {x : FI} (hb : s.spillBottom l = .fault x) :
    callBody t s l = .fault x := by
  simp only [callBody, badTarget_eq_false_iff.2 h, Bool.false_eq_true, if_false, Nat.not_lt.2 hr, hb]

end

theorem State.spillBottom_of_full {s : State} {l : Lane} (h : (s.spillArea l.tk).2 < 8 * ((s.thr l.tk).spill + 1)) :
    s.spillBottom l =
      .fault { code := 0x09, addr := BitVec.ofNat 64 ((s.spillArea l.tk).1 + 8 * (s.thr l.tk).spill) } := by
  have haddr (n : Nat) : BitVec.ofNat 64 (n % 2 ^ 64) = BitVec.ofNat 64 n := BitVec.eq_of_toNat_eq (by simp)
  simp only [State.spillBottom, h, if_true, haddr]

section
variable {s : State} {l : Lane}

theorem retBody_of_stack {st : List Word} {v : Word} (h : (s.thr l.tk).stack = st ++ [v]) :
    retBody s l = retTo v (s.thr l.tk).spill st s l := by
  simp only [retBody, h, List.getLast?_concat, List.dropLast_concat]

theorem retTo_misaligned {t : Word} (h : t.toNat % 8 ≠ 0) (n : Nat) (st : List Word) :
    retTo t n st s l = .fault { code := 0x07, addr := t } := by
  simp only [retTo, badTarget_iff.2 h, if_true]

theorem retTo_aligned {t : Word} (h : t.toNat % 8 = 0) (n : Nat) (st : List Word) : retTo t n st s l =
    .ok (s.modThr l.tk fun x => { x with stack := st, spill := n, jump := some t, head := true }) := by
  simp only [retTo, badTarget_eq_false_iff.2 h, Bool.false_eq_true, if_false]

variable (h : (s.thr l.tk).stack = [])
include h

theorem retBody_of_nothing (hn : (s.thr l.tk).spill = 0) : retBody s l = .fault { code := 0x09 } := by
  simp only [retBody, h, List.getLast?_nil, hn, if_true]

/-- The spilled entry that the load has brought. -/
theorem retBody_of_reloaded {n u : Nat} {v : Word} (hn : (s.thr l.tk).spill = n + 1)
    (hv : (s.thr l.tk).reload = some (u, some (v, none))) :
    retBody s l = retTo v n [] (s.modThr l.tk fun t => { t with reload := none }) l := by
  simp only [retBody, h, List.getLast?_nil, hn, hv, Nat.add_one_ne_zero, if_false, Option.isSome_none, Bool.false_eq_true,
    Nat.add_sub_cancel]

end

/-- Settles O18: each word's body, case by case of its target, of the return stack and of the spill area. -/
theorem branches : Obligations.Branches := by
  unfold Obligations.Branches
  intro w s hw b l h goes pushed calls
  have hcalls {ins : Instr} {u : Use} {t : Word} {body : State → Lane → Res} (hu : w.u = u) (he : exec ins s = word w.f u body s)
      (hb : body b l = callBody t b l) : calls ins t := by
    refine ⟨fun ht => w.faults_of hw hu he (hb.trans (callBody_misaligned ht)),
      fun ht hr => w.completes_of hw hu he (hb.trans (callBody_of_room ht hr)),
      fun ht hr => ⟨fun b' hs => w.completes_of hw hu he (hb.trans (callBody_of_spilled ht hr hs)), fun hf => ?_⟩⟩
    exact w.faults_of hw hu he (hb.trans (callBody_of_unspilled ht hr (State.spillBottom_of_full hf)))
  refine ⟨fun off hu => w.completes_of hw hu rfl rfl, fun a hu => ?brx, fun d off hu => ?loop, fun off hu => hcalls hu rfl rfl,
    fun a hu => hcalls hu rfl rfl,
    fun hu => ⟨fun st v hst => ?ret, fun hst => ⟨fun hn => ?nothing, fun n u v hn hv ht => ?reloaded⟩⟩⟩
  case brx =>
    split
    · rename_i ht
      exact w.completes_of hw hu rfl (if_neg (Bool.eq_false_iff.1 (badTarget_eq_false_iff.2 ht)))
    · rename_i ht
      exact w.faults_of hw hu rfl (if_pos (badTarget_iff.2 ht))
  case loop =>
    refine w.completes_of hw hu rfl (congrArg Res.ok ?_)
    exact ite_not ..
  case ret =>
    have hret := retBody_of_stack (s := b) (l := l) hst
    split
    · rename_i ht
      exact w.completes_of hw hu rfl (hret.trans (retTo_aligned ht _ st))
    · rename_i ht
      exact w.faults_of hw hu rfl (hret.trans (retTo_misaligned ht _ st))
  case nothing => exact w.faults_of hw hu rfl (retBody_of_nothing hst hn)
  case reloaded =>
    refine w.completes_of hw hu rfl ((retBody_of_reloaded hst hn hv).trans ((retTo_aligned ht n []).trans ?_))
    rw [State.modThr_modThr]
    rfl

end Sys2Proof.Machine
end

section
/-! SUPPORT. EXIT and WAITA (R120, R122). -/

namespace Sys2Proof.Machine

section
variable {s : State} {l : Lane}

/-! ### EXIT -/

/-- Commands of a pair still wait for the region before its last one. -/
def Thread.OwesRegion (t : Thread) : Prop := (t.pair.any fun p => p.more == some (t.region + 1)) = true

theorem exitBody_of_owing (h : (s.thr l.tk).OwesRegion) : exitBody s l =
    .start (s.modThr l.tk fun t => t.lastRegion l.i.g.wordAddr l.i.g.hpc l.i.g.hdr) .region := if_pos h

variable (h : ¬(s.thr l.tk).OwesRegion)
include h

theorem exitBody_of_drained (hs : (s.thr l.tk).c.suc = 0) : exitBody s l = .gone (s.endThread l.tk false) :=
  (if_neg h).trans (if_pos hs)

theorem exitBody_of_stores (hs : (s.thr l.tk).c.suc ≠ 0) : exitBody s l = .gone ((s.dropMember l.tk).modThr l.tk fun t =>
    { t.endRun with pc := l.i.g.wordAddr, mid := true, leaving := true }) := (if_neg h).trans (if_neg hs)

end

/-- Settles O19: each word's body, and EXIT's by what its thread still owes. -/
theorem threadControl : Obligations.ThreadControl := by
  unfold Obligations.ThreadControl
  intro w s hw b
  refine ⟨fun hu => ⟨w.completes_of hw hu rfl rfl, w.completes_of hw hu rfl rfl⟩, fun a hu => w.completes_of hw hu rfl rfl,
    fun hu => ?exit, fun n hu => ?raise⟩
  case exit =>
    intro more gone
    have hno (hm : more = false) : ¬(b.thr w.tk).OwesRegion := Bool.eq_false_iff.1 hm
    exact ⟨fun hm hs => w.gone_of hw hu rfl (exitBody_of_drained (hno hm) hs),
      fun hm hs => w.gone_of hw hu rfl (exitBody_of_stores (hno hm) hs), fun hm => w.starts_of hw hu rfl (exitBody_of_owing hm)⟩
  case raise =>
    have hn : (n.setWidth 64).toNat = n.toNat := BitVec.toNat_setWidth_of_le (by decide)
    exact ⟨⟨_, rfl, hn, rfl, w.faults_of hw hu rfl rfl⟩, ⟨_, rfl, hn, rfl, w.faults_of hw hu rfl rfl⟩⟩

/-! ### WAITA -/

section
variable {s : State} {l : Lane}

theorem waitaBody_misaligned (h : l.a.w64.toNat % 8 ≠ 0) : waitaBody s l = .fault { code := 0x07, addr := l.a.w64 } := if_pos h

variable (h : l.a.w64.toNat % 8 = 0)
include h

theorem waitaBody_unreadable {c : Nat}
    (hp : s.globParts l.tk .rd false (s.thr l.tk).pair.isSome [(l.a.w64.toNat, 8)] = .error c) :
    waitaBody s l = .fault { code := c, addr := l.a.w64 } := by
  simp only [waitaBody, h, ne_eq, not_true_eq_false, if_false, hp]

/-- WAITA at a word that can be read: it follows its leading copy, waits for a counter, or begins to watch. -/
theorem waitaBody_readable {ps : List Piece} {b : State}
    (hp : s.globParts l.tk .rd false (s.thr l.tk).pair.isSome [(l.a.w64.toNat, 8)] = .ok (ps, b)) : waitaBody s l =
    let acc : Acc := { space := .glob, k := .load, size := 8, acq := true, pieces := ps, remote := b.anyRemote l.tk ps }
    let c := l.c.w64.toNat
    if (s.thr l.tk).trails then b.follow l
    else if 255 ≤ (s.thr l.tk).c.ldc then .park (.room 6)
    else if b.anyRemote l.tk ps && decide (255 ≤ (s.thr l.tk).c.frc) then .park (.room 9)
    else .ok ((b.pendNew l (.waita acc l.b.w64 (if c = 0 then none else some (c, b.time (pkgOfThr l.tk) + c))) 7).2.modThr l.tk
      fun t => { t with c := { t.c with ldc := t.c.ldc + 1, frc := t.c.frc + if b.anyRemote l.tk ps then 1 else 0 } }) := by
  simp only [waitaBody, h, ne_eq, not_true_eq_false, if_false, hp]
  rfl

end

/-- Settles O20. -/
theorem waitOnWord : Obligations.WaitOnWord := by
  unfold Obligations.WaitOnWord
  intro w s o hu hw b l a c found
  refine ⟨fun ha => w.faults_of hw hu rfl (waitaBody_misaligned ha),
    fun ha => ⟨fun code hf => w.faults_of hw hu rfl (waitaBody_unreadable ha hf), fun ps b' hf => ?_⟩⟩
  intro far n
  have hbody := waitaBody_readable (s := b) (l := l) ha hf
  refine ⟨fun ht => w.completes_of hw hu rfl (hbody.trans (if_pos ht)), fun ht hl => w.parks_of hw hu rfl (hbody.trans ?_),
    fun ht hl hr hc => w.parks_of hw hu rfl (hbody.trans ?_), fun ht hl hc => ?_⟩
  · exact (if_neg (Bool.eq_false_iff.1 ht)).trans (if_pos hl)
  · have hfull : (far && decide (255 ≤ n.frc)) = true := by simpa using ⟨hr, hc⟩
    exact (if_neg (Bool.eq_false_iff.1 ht)).trans ((if_neg (Nat.not_le.2 hl)).trans (if_pos hfull))
  · have hroom : ¬(far && decide (255 ≤ n.frc)) = true := by simpa using hc
    exact w.completes_of hw hu rfl (hbody.trans
      ((if_neg (Bool.eq_false_iff.1 ht)).trans ((if_neg (Nat.not_le.2 hl)).trans (if_neg hroom))))

end Sys2Proof.Machine
end

section
/-! SUPPORT. The queues between stages (R103, R104). -/

namespace Sys2Proof.Machine

/-! ### QPUSH and QPOP -/

/-- A word that a leading copy or a thread of no pair performs in one way, and a trailing copy in another, once nothing bars it. -/
theorem Stand.barred_or_completes {w : Stand} {s : State} (h : w.Clear s) {u : Use} (hu : w.u = u) {ins : Instr}
    {body : State → Lane → Res} (he : exec ins s = word w.f u body s) {may tr : Prop} [Decidable may] [Decidable tr]
    {a b : State} {x : FI} (hb : body (w.begun s) (w.lane s) = if may then if tr then .ok a else .ok b else .fault x) :
    if may then if tr then w.Completes s ins a else w.Completes s ins b else w.Faults s ins x := by
  split_ifs at hb ⊢
  · exact w.completes_of h hu he hb
  · exact w.completes_of h hu he hb
  · exact w.faults_of h hu he hb

section
variable {s : State} {l : Lane} {g : BitVec 6} {q : Nat}

theorem qpushBody_of_no_queue (h : s.queueOf l.tk q = none) : qpushBody g q s l = .fault { code := 0x11 } := by
  simp only [qpushBody, h]

theorem qpopBody_of_no_queue {pn : BitVec 3} (h : s.queueOf l.tk q = none) : qpopBody g q pn s l = .fault { code := 0x11 } := by
  simp only [qpopBody, h]

/-- What bars a thread from a queue: its stage has another on this side, the record passes g63, or the thread has been retired. -/
theorem queue_barred_iff {mine m : Nat} {retired : Bool} :
    (mine ≠ q ∨ 64 < m ∨ retired = true) ↔ ¬(mine = q ∧ m ≤ 64 ∧ retired = false) := by
  simp only [not_and_or, Nat.not_le, Bool.not_eq_false, ne_eq]

variable {lk : Nat} {st : StageR} {r : QueueR} {d : LDie} (h : s.queueOf l.tk q = some (lk, st, r, d))
include h

theorem qpushBody_of_queue : qpushBody g q s l =
    if st.outq = q ∧ g.toNat + r.recb / 8 ≤ 64 ∧ (s.thr l.tk).retired = false then
      if (s.thr l.tk).trails then .ok s
      else .ok ((s.pendAs l (.qpush q ((runRegs g (r.recb / 8)).map fun k => s.before l k)) .none 7).2.queueCheck lk d.dk q)
    else .fault { code := 0x11 } := by
  simp only [qpushBody, h, queue_barred_iff, ite_not]

theorem qpopBody_of_queue {pn : BitVec 3} : qpopBody g q pn s l =
    if st.inq = q ∧ g.toNat + r.recb / 8 ≤ 64 ∧ (s.thr l.tk).retired = false then
      if (s.thr l.tk).trails then .ok (s.pendAs l .copied (.run g (r.recb / 8)) pn).2
      else .ok ((s.pendAs l (.qpop q (r.recb / 8)) (.run g (r.recb / 8)) pn).2.queueCheck lk d.dk q)
    else .fault { code := 0x11 } := by
  simp only [qpopBody, h, queue_barred_iff, ite_not]

end

/-! ### How a queue serves its requests -/

/-- Where slot number `k` of a queue stands, after its control block. -/
def State.slotLoc (s : State) (lk : Nat) (r : QueueR) (d : LDie) (k : Nat) : Nat := s.queueLoc lk r d + 128 + k % r.depth * r.recb

section
variable {s : State} {lk q head tail : Nat} {la : Launch} {r : QueueR} {d : LDie} {tk : Nat} {p : Pend} {rest : List (Nat × Pend)}

theorem State.pushOne_of_room {ws : List Word} (hk : p.k = .qpush q ws) (hr : tail - head < r.depth) (pa : Nat) :
    s.pushOne lk q r d head tail pa ((tk, p) :: rest) = some
      (((s.writeBytes pa (ws.flatMap fun w => leBytes 8 w.toNat)).setCounts lk q r d head (tail + 1)).endPend tk p.u) := by
  simp only [State.pushOne, hk, hr, if_true]

/-- Where no push waits or the queue is full, none performs. -/
theorem State.pushOne_eq_none {ps : List (Nat × Pend)} (h : ps = [] ∨ r.depth ≤ tail - head) (pa : Nat) :
    s.pushOne lk q r d head tail pa ps = none := by
  cases ps with
  | nil => rfl
  | cons e rest =>
    have hr : ¬tail - head < r.depth := Nat.not_lt.2 (h.resolve_left (List.cons_ne_nil _ _))
    simp only [State.pushOne, hr, if_false]
    split <;> rfl

variable (n : Nat) (hl : Tab.look s.launches lk = some la) (hq : la.queues[q]? = some r)
  (hd : (la.dies.find? fun e => e.dk == d.dk) = some d) (hc : Tab.getOr d.qs q (0, 0) = (head, tail))
include hl hq hd hc

theorem State.queueServe_pop (hp : s.queueWaits lk d.dk q false = (tk, p) :: rest) (h : head < tail) :
    s.queueServe lk d.dk q (n + 1) = ((s.setCounts lk q r d (head + 1) tail).finishOutside tk p
      ((List.range (r.recb / 8)).map fun k => BitVec.ofNat 64 (s.read (s.slotLoc lk r d head + 8 * k) 8)) (some true)).queueServe
        lk d.dk q n := by
  simp only [State.queueServe, hl, hq, hd, hc, hp, h, if_true, State.slotLoc]

/-- Where no pop can perform, the oldest push does, if it can. -/
theorem State.queueServe_push (h : s.queueWaits lk d.dk q false = [] ∨ tail ≤ head) : s.queueServe lk d.dk q (n + 1) =
    (s.pushOne lk q r d head tail (s.slotLoc lk r d tail) (s.queueWaits lk d.dk q true)).elim s
      fun t => t.queueServe lk d.dk q n := by
  cases hp : s.queueWaits lk d.dk q false with
  | nil => simp only [State.queueServe, hl, hq, hd, hc, hp, State.slotLoc]
  | cons e rest =>
    have ht : ¬head < tail := Nat.not_lt.2 (h.resolve_left (hp ▸ List.cons_ne_nil _ _))
    simp only [State.queueServe, hl, hq, hd, hc, hp, ht, if_false, State.slotLoc]

end

/-! ### A pop whose thread is retired -/

theorem getLsbD_predBit {n : BitVec 3} (h : n ≠ 7) (k : Nat) : (predBit n).getLsbD k = decide (n.toNat = k) := by
  have hn : n.toNat < 7 := by bv_omega
  rw [predBit, if_neg h, BitVec.getLsbD_twoPow, decide_eq_true hn, Bool.true_and]

/-- A predicate that is written false is false, and the others stay. -/
theorem getLsbD_setPred_false (p : BitVec 7) {n : BitVec 3} (h : n ≠ 7) (k : Nat) :
    (setPred p n false).getLsbD k = (p.getLsbD k && decide (n.toNat ≠ k)) := by
  rw [setPred, if_neg h, if_neg Bool.false_ne_true, BitVec.getLsbD_and, BitVec.getLsbD_not, getLsbD_predBit h]
  by_cases hk : k < 7
  · rw [decide_eq_true hk, Bool.true_and, decide_not]
  · rw [BitVec.getLsbD_of_ge p k (Nat.not_lt.1 hk), Bool.false_and, Bool.false_and]

section
variable {s : State} {tk : Nat}

/-- What an operation that ends with a predicate and no words leaves of its thread. -/
theorem State.finishPend_wordless (q : Pend) (b : Bool) : let t := (s.finishPend tk q [] (some b) none none).thr tk
    t.pend = (s.thr tk).pend.filter (fun x => x.u != q.u) ∧ t.r.p = setPred (s.thr tk).r.p q.pn b ∧ t.pair = (s.thr tk).pair := by
  have hnil : s.writeRD tk q.d [] = s := by rw [State.writeRD, List.zip_nil_right, List.foldl_nil]
  simp only [State.finishPend, hnil, State.thr_modThr, Thread.forgetLost, Thread.settle, Thread.dropPend]
  split
  · split <;> exact ⟨rfl, rfl, rfl⟩
  · exact ⟨rfl, rfl, rfl⟩

/-- A thread of no pair passes nothing on. -/
theorem State.thr_passLate_of_single (v : PairVal) (h : (s.thr tk).pair = none) : (s.passLate tk v).thr tk = s.thr tk := by
  rw [State.passLate, State.modPair, State.thr_modThr, h, Option.map_none, ← h]

/-- The victim of a rebalancing that is of no pair. -/
theorem State.thr_retireFor {p : Pend} (g : Nat) (h : (s.thr tk).pair = none) : (s.retireFor (tk, p) g).thr tk =
    { (s.finishPend tk p [] (some false) none none).thr tk with retired := true, retireTo := g } := by
  obtain ⟨-, -, hpair⟩ := State.finishPend_wordless (s := s) (tk := tk) p false
  have hs := hpair.trans h
  simp only [State.retireFor, State.finishOutside, State.thr_modThr, State.thr_passLate_of_single _ hs, hs]

end

/-- Settles O25: the bodies of QPUSH and QPOP, a queue's service by what waits at it, and the end of a retired thread's pop. -/
theorem stageQueues : Obligations.StageQueues := by
  unfold Obligations.StageQueues
  refine ⟨fun w s g q hw => ⟨fun lu hu => ?qpush, fun pn hu => ?qpop⟩, fun s lk q n la r d head tail hl hq hd hc => ?serve,
    fun s tk g p hs hp hpn => ?retired⟩
  case qpush =>
    exact ⟨fun hq => w.faults_of hw hu rfl (qpushBody_of_no_queue hq),
      fun lk st r d hq => w.barred_or_completes hw hu rfl (qpushBody_of_queue (l := w.lane s) hq)⟩
  case qpop =>
    exact ⟨fun hq => w.faults_of hw hu rfl (qpopBody_of_no_queue hq),
      fun lk st r d hq => w.barred_or_completes hw hu rfl (qpopBody_of_queue (l := w.lane s) hq)⟩
  case serve =>
    refine ⟨fun tk p rest hp ht => State.queueServe_pop n hl hq hd hc hp ht, fun tk p rest ws hno hp hk hr => ?_, fun hno hp => ?_⟩
    · rw [State.queueServe_push n hl hq hd hc hno, hp, State.pushOne_of_room hk hr]
      rfl
    · rw [State.queueServe_push n hl hq hd hc hno, State.pushOne_eq_none hp]
      rfl
  case retired =>
    obtain ⟨hpend, hpred, -⟩ := State.finishPend_wordless (s := s) (tk := tk) p false
    intro t
    have ht : t = _ := State.thr_retireFor g hs
    rw [ht]
    refine ⟨rfl, rfl, ?_, ?_, fun k hk => ?_⟩
    · exact List.find?_eq_none.2 fun x hx => by
        rw [hpend] at hx
        simpa using (List.mem_filter.1 hx).2
    · rw [hpred, getLsbD_setPred_false _ hpn, decide_eq_false (not_not.2 rfl), Bool.and_false]
    · rw [hpred, getLsbD_setPred_false _ hpn, decide_eq_true (Ne.symm hk), Bool.and_true]

end Sys2Proof.Machine
end

section
/-! SUPPORT. LAUNCH and LWAIT (R99, R100, R102, R331). -/

namespace Sys2Proof.Machine

section
variable {s : State} {l : Lane}

/-! ### LAUNCH -/

theorem launchBody_misaligned (h : l.a.w64.toNat % 64 ≠ 0) : launchBody s l = .fault { code := 0x07, addr := l.a.w64 } := if_pos h

section
variable (h : l.a.w64.toNat % 64 = 0)
include h

/-- A record that cannot be read: a code below 0x100 is the fault of the access, one from there on names a package out of reach. -/
theorem launchBody_unreadable {c : Nat} (hr : s.readVirt l.tk l.a.w64.toNat 72 = .error c) : launchBody s l =
    if c < 0x100 then .fault { code := c, addr := l.a.w64 }
    else if (s.thr l.tk).trails then s.follow l
    else s.pathWait l (c - 0x100) l.a.w64 := by
  simp only [launchBody, h, ne_eq, not_true_eq_false, if_false, hr]

theorem launchBody_readable {im : List Byte} {t : State} (hr : s.readVirt l.tk l.a.w64.toNat 72 = .ok (im, t)) : launchBody s l =
    if (s.thr l.tk).buffers l.a.w64.toNat 576 then .park (.ctrs false true false)
    else if (s.thr l.tk).trails then t.follow l
    else
      let la := t.parseLaunch l im t.lnext
      let st := t.launchStatus la im
      if st ≠ 0 then .ok ((t.pendNew l (.launch 0) 7).2.deliverOut l.tk t.uid [BitVec.ofNat 64 (st * 2 ^ 56)] none)
      else .ok ({ (t.pendNew l (.launch t.lnext) 7).2 with lnext := t.lnext + 1 }.setLaunch t.lnext la) := by
  simp only [launchBody, h, ne_eq, not_true_eq_false, if_false, hr]
  rfl

end

/-! ### LWAIT -/

theorem lwaitBody_of_trailing (h : (s.thr l.tk).trails = true) : lwaitBody s l = .ok (s.pendNew l .copied 7).2 := if_pos h

theorem lwaitBody_of_not_trailing (h : ¬(s.thr l.tk).trails = true) : lwaitBody s l =
    let t := (s.pendNew l (.lwait l.a.w64.toNat) 7).2
    .ok (match t.byHandle l.tk l.a.w64.toNat with
      | none => t.deliverOut l.tk s.uid [0xFE] none
      | some _ => if l.b.w64 = 0 then t else t.deliverOut l.tk s.uid [0xFF] none) := by
  obtain ⟨t, hp⟩ : ∃ t, s.pendNew l (.lwait l.a.w64.toNat) 7 = (s.uid, t) := ⟨_, rfl⟩
  simp only [lwaitBody, h, Bool.false_eq_true, if_false, hp]
  cases t.byHandle l.tk l.a.w64.toNat with
  | none => rfl
  | some e => simp only [ne_eq, ite_not, apply_ite Res.ok]

end

theorem Stand.awaits_of {w : Stand} {s : State} (h : w.Clear s) {u : Use} (hu : w.u = u) {ins : Instr} {body : State → Lane → Res}
    (he : exec ins s = word w.f u body s) {q : Nat} {a : Word} (hb : body (w.begun s) (w.lane s) = (w.begun s).pathWait (w.lane s) q a) :
    w.Awaits s ins q a := by
  unfold Stand.Awaits
  unfold State.pathWait at hb
  split
  · rename_i ho
    exact w.faults_of h hu he (hb.trans (if_pos ho))
  · rename_i ho
    exact w.starts_of h hu he (hb.trans (if_neg ho))

/-- Settles O41: LAUNCH by its address, by what the reading of its record answers and by its status; LWAIT by its copy. -/
theorem launching : Obligations.Launching := by
  unfold Obligations.Launching
  intro w s hw b l a tr
  refine ⟨fun o hu => ⟨fun ha => w.faults_of hw hu rfl (launchBody_misaligned ha),
    fun ha => ⟨fun c hc => ?unreadable, fun im t hr => ?readable⟩⟩, fun o hu => ?lwait⟩
  case unreadable =>
    have hbody := launchBody_unreadable (s := b) (l := l) ha hc
    split
    · rename_i hf
      exact w.faults_of hw hu rfl (hbody.trans (if_pos hf))
    · rename_i hf
      have hbody := hbody.trans (if_neg hf)
      split
      · rename_i ht
        exact w.completes_of hw hu rfl (hbody.trans (if_pos ht))
      · rename_i ht
        exact w.awaits_of hw hu rfl (hbody.trans (if_neg ht))
  case readable =>
    have hbody := launchBody_readable (s := b) (l := l) ha hr
    split
    · rename_i hf
      exact w.parks_of hw hu rfl (hbody.trans (if_pos hf))
    · rename_i hf
      have hbody := hbody.trans (if_neg hf)
      split
      · rename_i ht
        exact w.completes_of hw hu rfl (hbody.trans (if_pos ht))
      · rename_i ht
        have hbody := hbody.trans (if_neg ht)
        intro la st
        split
        · rename_i hst
          exact w.completes_of hw hu rfl (hbody.trans (if_neg (not_not.2 hst)))
        · rename_i hst
          exact w.completes_of hw hu rfl (hbody.trans (if_pos hst))
  case lwait =>
    intro t
    split
    · rename_i ht
      exact w.completes_of hw hu rfl (lwaitBody_of_trailing ht)
    · rename_i ht
      exact w.completes_of hw hu rfl (lwaitBody_of_not_trailing ht)

end Sys2Proof.Machine
end

section
/-! SUPPORT. The life of a launch after LAUNCH (R100 to R102, R212, R331). -/

namespace Sys2Proof.Machine

/-- LAUNCH reports a status, and the launch goes. -/
def State.refuseLaunch (s : State) (lk st : Nat) : State :=
  let t := s.tellLauncher lk (BitVec.ofNat 64 (st * 2 ^ 56))
  { t with launches := Tab.cut t.launches lk }

/-- The launch stands: its queues are empty, and LAUNCH reports its handle. -/
def State.openLaunch (t : State) (lk : Nat) (l : Launch) : State :=
  let b := l.dies.foldl (fun s d => s.openQueues lk d.dk) t
  (b.modLaunch lk fun l => { l with since := b.clock }).tellLauncher lk (l.handle.setWidth 64)

section
variable {s : State} {lk : Nat} {l : Launch} (hl : Tab.look s.launches lk = some l)
include hl

/-! ### The dies answer (R100) -/

theorem State.launchAnswer_of_answered (h : ∃ d ∈ l.dies, d.answered = true) : s.launchAnswer lk = s := by
  have hany : l.dies.any (·.answered) = true := List.any_eq_true.2 h
  simp only [State.launchAnswer, hl, hany, if_true]

section
variable (hn : ∀ d ∈ l.dies, d.answered = false)
include hn

theorem State.launchAnswer_of_lost (hq : ∃ q ∈ l.dies.map fun d => pkgOfDie d.dk, s.isLost l.pkg q = true) :
    s.launchAnswer lk = s.refuseLaunch lk 2 := by
  have hany : l.dies.any (·.answered) = false := by simpa using hn
  simp only [State.launchAnswer, hl, hany, Bool.false_eq_true, if_false, List.any_eq_true.2 hq, if_true, State.refuseLaunch]

variable (hq : ∀ q ∈ l.dies.map fun d => pkgOfDie d.dk, s.isLost l.pkg q = false)
include hq

theorem State.launchAnswer_of_unreached (hr : ∃ q ∈ l.dies.map fun d => pkgOfDie d.dk, s.reaches l.pkg q = false) :
    s.launchAnswer lk = s := by
  have hany : l.dies.any (·.answered) = false := by simpa using hn
  have hlost : ((l.dies.map fun d => pkgOfDie d.dk).any fun q => s.isLost l.pkg q) = false := by simpa using hq
  have hfar : ((l.dies.map fun d => pkgOfDie d.dk).any fun q => !s.reaches l.pkg q) = true := by simpa using hr
  simp only [State.launchAnswer, hl, hany, hlost, hfar, Bool.false_eq_true, if_false, if_true]

variable (hr : ∀ q ∈ l.dies.map fun d => pkgOfDie d.dk, s.reaches l.pkg q = true)
include hr

/-- Where every die can be reached, its resources decide. -/
theorem State.launchAnswer_of_reached : (s.reserve lk l = none → s.launchAnswer lk = s.refuseLaunch lk 5)
    ∧ ∀ t, s.reserve lk l = some t → s.launchAnswer lk = t.openLaunch lk l := by
  have hany : l.dies.any (·.answered) = false := by simpa using hn
  have hlost : ((l.dies.map fun d => pkgOfDie d.dk).any fun q => s.isLost l.pkg q) = false := by simpa using hq
  have hfar : ((l.dies.map fun d => pkgOfDie d.dk).any fun q => !s.reaches l.pkg q) = false := by simpa using hr
  simp only [State.launchAnswer, hl, hany, hlost, hfar, Bool.false_eq_true, if_false]
  exact ⟨fun h => by simp only [h, State.refuseLaunch], fun t h => by simp only [h, State.openLaunch]⟩

end

/-! ### The threads begin (R101) -/

theorem State.launchStart_of_absent {dk : Nat} (h : ∃ x ∈ l.dies, x.arrived = false) : s.launchStart lk dk = s := by
  have hall : (l.dies.all fun d => d.arrived) = false := by simpa using h
  simp only [State.launchStart, hl, hall, Bool.not_false, Bool.or_true, if_true]
  split <;> rfl

theorem State.launchStart_of_arrived {d : LDie} (hd : (l.dies.find? fun x => x.dk == d.dk) = some d) (hs : d.started = false)
    (he : l.ended = false) (ha : ∀ x ∈ l.dies, x.arrived = true) : s.launchStart lk d.dk =
    let b := s.modLaunch lk fun l => l.onDie d.dk fun d => { d with started := true }
    (b.launchThreads lk).foldl (fun s e =>
      if dkOf (ckOf e.1) = d.dk ∧ e.2.st = .placed then s.modThr e.1 fun t => { t with st := .live } else s) b := by
  have hall : (l.dies.all fun d => d.arrived) = true := List.all_eq_true.2 ha
  have hme : d.arrived = true := ha d (List.mem_of_find?_eq_some hd)
  simp only [State.launchStart, hl, hd, hs, he, hall, hme, Bool.not_true, Bool.or_false, Bool.false_eq_true, if_false]

/-! ### Completion (R102) -/

theorem State.launchComplete_of_busy
    (h : (∃ d ∈ l.dies, d.answered = false) ∨ s.launchThreads lk ≠ [] ∨ l.cmds ≠ 0) : s.launchComplete lk = s := by
  have hbusy : (!(l.dies.all (·.answered)) || !(s.launchThreads lk).isEmpty || l.cmds ≠ 0) = true := by
    simpa [or_assoc] using h
  simp only [State.launchComplete, hl]
  exact if_pos hbusy

theorem State.launchComplete_of_idle (ha : ∀ d ∈ l.dies, d.answered = true) (ht : s.launchThreads lk = []) (hc : l.cmds = 0) :
    s.launchComplete lk = s.finishLaunch lk l := by
  have hall : (l.dies.all (·.answered)) = true := List.all_eq_true.2 ha
  simp only [State.launchComplete, hl, hall, ht, hc, List.isEmpty_nil, Bool.not_true, Bool.or_false, ne_eq, not_true_eq_false,
    decide_false, Bool.false_eq_true, if_false]

/-! ### The start barrier (R101) and LBAR (R212) -/

theorem State.startTimeout_of_waiting (h : l.dies.length ≤ 1 ∨ (∃ d ∈ l.dies, d.answered = false)
    ∨ (∀ d ∈ l.dies, d.arrived = true) ∨ s.clock < l.since + (s.ctx l.pkg l.ctx).timer) : s.startTimeout lk = s := by
  have hwait : (decide (l.dies.length ≤ 1) || !(l.dies.all (·.answered)) || l.dies.all (fun d => d.arrived)
      || decide (s.clock < l.since + (s.ctx l.pkg l.ctx).timer)) = true := by
    simpa [or_assoc] using h
  simp only [State.startTimeout, hl]
  exact if_pos hwait

theorem State.startTimeout_of_late (hn : 2 ≤ l.dies.length) (ha : ∀ d ∈ l.dies, d.answered = true)
    (hm : ∃ d ∈ l.dies, d.arrived = false) (hc : l.since + (s.ctx l.pkg l.ctx).timer ≤ s.clock) :
    s.startTimeout lk = ((s.launchThreads lk).foldl (fun s e =>
      let t := if e.2.xblk then s.modCore (ckOf e.1) fun c => { c with pool := c.pool + 1 } else s
      (t.setThr e.1 { orph := e.2.orph }).poolCheck (ckOf e.1)) s).finishLaunch lk { l with status := 2 } := by
  have hlate : ¬(decide (l.dies.length ≤ 1) || !(l.dies.all (·.answered)) || l.dies.all (fun d => d.arrived)
      || decide (s.clock < l.since + (s.ctx l.pkg l.ctx).timer)) = true := by
    simp only [Bool.or_eq_true, decide_eq_true_eq, Bool.not_eq_true', not_or, Nat.not_le, Nat.not_lt, Bool.not_eq_false,
      List.all_eq_true]
    exact ⟨⟨⟨hn, ha⟩, by simpa using hm⟩, hc⟩
  simp only [State.startTimeout, hl]
  exact if_neg hlate

theorem State.lbarRelease_eq (dk : Nat) : s.lbarRelease lk dk =
    let b := s.modLaunch lk fun l => l.onDie dk fun d => { d with lbarSeen := l.lbarN }
    (b.launchThreads lk).foldl (fun s e =>
      if dkOf (ckOf e.1) = dk then
        s.modThr e.1 fun t => { t with blk := t.blk.filter fun x => match x with | .lbar n => decide (l.lbarN ≤ n) | _ => true }
      else s) b := by
  simp only [State.lbarRelease, hl] <;> rfl

end

/-! ### A launch ends, and DONE is written (R102, R331) -/

/-- The launch goes, and every LWAIT for it completes with its result. -/
def State.closeLaunch (t : State) (lk : Nat) (l : Launch) (bad : Bool) : State :=
  let b : State := { t with launches := Tab.cut t.launches lk }
  b.threads.foldl (fun s e =>
    if e.2.ctx = l.ctx ∧ (pkgOfThr e.1 = l.pkg ∨ (s.ctx l.pkg l.ctx).attr.getLsbD 2 = true) then
      e.2.pend.foldl (fun s p => if p.k = .lwait l.handle.toNat then s.deliverOut e.1 p.u [l.result bad] none else s) s
    else s) b

/-- The launch ends without DONE, whose write has failed. -/
def State.closeUndone (s : State) (lk : Nat) (l : Launch) : State :=
  let b := recordBytes 0x12 2 l.ctx (l.pkg + 16 * l.die) (slotOf l.tk) (coreOf (ckOf l.tk)) 0 l.tid.toNat
    (unitId 8 l.pkg l.die 0 0) l.pc.toNat l.hdr.toNat l.word.toNat l.done.toNat 0 (s.clockOf l.pkg)
  (s.queueEngineRecord l.pkg l.ctx (dieKey l.pkg l.die) b).closeLaunch lk l true

theorem State.sameSpan_iff (s : State) (l : Launch) (tk : Nat) :
    s.sameSpan l tk = true ↔ pkgOfThr tk = l.pkg ∨ (s.ctx l.pkg l.ctx).attr.getLsbD 2 = true := by
  simp only [State.sameSpan, Bool.or_eq_true, beq_iff_eq]

section
variable {s : State} {l : Launch} (lk : Nat)

theorem State.finishLaunch_of_no_done (h : l.done = 0) : s.finishLaunch lk l = s.closeLaunch lk l false := by
  simp only [State.finishLaunch, h, if_true, Option.any_none, Bool.false_eq_true, if_false, State.sameSpan_iff]
  rfl

variable (h : l.done ≠ 0)
include h

theorem State.finishLaunch_of_no_place (hp : s.donePlace l = none) : s.finishLaunch lk l = s.closeUndone lk l := by
  simp only [State.finishLaunch, h, if_false, hp, Option.any_none, Option.filter_none, Bool.false_eq_true, State.sameSpan_iff]
  rfl

variable {pa : Nat} (hp : s.donePlace l = some pa)
include hp

theorem State.finishLaunch_of_reached (hr : s.reaches l.pkg (homeOf pa) = true) : s.finishLaunch lk l =
    ((s.settle (lineOf pa)).write pa 8 (l.result false).toNat).closeLaunch lk l false := by
  simp only [State.finishLaunch, h, if_false, hp, Option.any_some, Option.filter_some, State.doneWaits, hr, Bool.not_true,
    Bool.false_and, Bool.false_eq_true, if_true, State.sameSpan_iff]
  rfl

theorem State.finishLaunch_of_unreached (hr : s.reaches l.pkg (homeOf pa) = false) (ht : l.doneT = none) :
    s.finishLaunch lk l = s.setLaunch lk { l with doneT := some s.clock } := by
  simp only [State.finishLaunch, h, if_false, hp, Option.any_some, State.doneWaits, hr, ht, Bool.not_false, Option.all_none,
    Bool.and_true, if_true]
  rfl

theorem State.finishLaunch_of_waiting {n : Nat} (hr : s.reaches l.pkg (homeOf pa) = false) (ht : l.doneT = some n) :
    s.finishLaunch lk l = if s.clock < n + (s.ctx l.pkg l.ctx).timer then s.setLaunch lk l else s.closeUndone lk l := by
  have hkeep : { l with doneT := some n <|> some s.clock } = l := congrArg (fun x => { l with doneT := x }) ht.symm
  simp only [State.finishLaunch, h, if_false, hp, Option.any_some, Option.filter_some, State.doneWaits, hr, hkeep, ht, Bool.not_false,
    Option.all_some, Bool.true_and, decide_eq_true_eq, Bool.false_eq_true, State.sameSpan_iff]
  rfl

end

/-! ### Rebalancing (R104) -/

section
variable {s : State} {dk : Nat}

theorem State.rebalance_early (h : s.clock < (s.die dk).rebal + 1024) : s.rebalance dk = s := if_pos h

variable (h : (s.die dk).rebal + 1024 ≤ s.clock)
include h

theorem State.rebalance_due : s.rebalance dk =
    let b := s.modDie dk fun x => { x with rebal := s.clock }
    ((b.launches.flatMap fun e => b.moves e dk).take 32).foldl (fun s m => s.retireFor m.1 m.2) b := if_neg (Nat.not_lt.2 h)

/-- One launch on the die, and what it asks of the dispatcher. -/
theorem State.rebalance_of_single {lk : Nat} {l : Launch} (hs : s.launches = [(lk, l)]) :
    let b := s.modDie dk fun x => { x with rebal := s.clock }
    s.rebalance dk = ((b.moves (lk, l) dk).take 32).foldl (fun s m => s.retireFor m.1 m.2) b := by
  simp only [State.rebalance_due h, State.modDie_launches, hs, List.flatMap_singleton]

end

section
variable {s : State} {lk dk : Nat} {l : Launch} {d : LDie} (hd : (l.dies.find? fun x => x.dk == dk && x.started) = some d)
include hd

theorem State.moves_of_unbalanced (ha : l.attr / 16 % 2 = 0) : s.moves (lk, l) dk = [] := by
  simp only [State.moves, hd, ha, if_true]

variable (ha : l.attr / 16 % 2 = 1)
include ha

theorem State.moves_of_unpressed (hg : l.fullest d = none) : s.moves (lk, l) dk = [] := by
  simp only [State.moves, hd, ha, Nat.one_ne_zero, if_false, hg]

theorem State.moves_of_pressed {g : Nat} (hg : l.fullest d = some g) : s.moves (lk, l) dk = (s.victims lk l d).map fun v => (v, g) := by
  simp only [State.moves, hd, ha, Nat.one_ne_zero, if_false, hg]

end

end Sys2Proof.Machine

namespace Sys2Proof
open Machine

/-- Settles O43: each event by the case that the launch and its dies are in. (In `Machine` the name is that of a part of the
schedule.) -/
theorem launchEvents : Obligations.LaunchEvents := by
  unfold Obligations.LaunchEvents
  intro s lk l hl
  refine ⟨⟨fun h => congrArg _ (State.launchAnswer_of_answered hl h), fun hn => ?answer⟩, fun d hd hf => ?start,
    fun h => congrArg _ (State.launchComplete_of_busy hl h), fun ha ht hc => ?complete,
    fun h => congrArg _ (State.startTimeout_of_waiting hl h),
    fun hn ha hm hc => congrArg _ (State.startTimeout_of_late hl hn ha hm hc),
    fun dk => congrArg _ (State.lbarRelease_eq hl dk), fun dk => ?rebalance⟩
  case answer =>
    refine ⟨fun hq => congrArg _ (State.launchAnswer_of_lost hl hn hq),
      fun hq hr => congrArg _ (State.launchAnswer_of_unreached hl hn hq hr), fun hq => ?_⟩
    obtain ⟨hnone, hsome⟩ := State.launchAnswer_of_reached hl hn (fun q hm => (hq q hm).1) fun q hm => (hq q hm).2
    exact ⟨fun hr => congrArg _ (hnone hr), fun t hr => congrArg _ (hsome t hr)⟩
  case start =>
    exact ⟨fun h => congrArg _ (State.launchStart_of_absent hl h),
      fun hs he ha => congrArg _ (State.launchStart_of_arrived hl hf hs he ha)⟩
  case complete =>
    have heq := State.launchComplete_of_idle hl ha ht hc
    refine ⟨fun h => congrArg _ (heq.trans (State.finishLaunch_of_no_done lk h)), fun h => ⟨fun hp => ?_, fun pa hp => ⟨fun hr => ?_,
      fun hr hd => ?_, fun n hr hd => ?_⟩⟩⟩
    · exact congrArg _ (heq.trans (State.finishLaunch_of_no_place lk h hp))
    · exact congrArg _ (heq.trans (State.finishLaunch_of_reached lk h hp hr))
    · exact congrArg _ (heq.trans (State.finishLaunch_of_unreached lk h hp hr hd))
    · exact congrArg _ (heq.trans (State.finishLaunch_of_waiting lk h hp hr hd))
  case rebalance =>
    refine ⟨fun h => congrArg _ (State.rebalance_early h), fun h => ⟨fun n hn hlen => ?_, fun hs d hd => ⟨fun ha => ?_,
      fun ha => ⟨fun hg => ?_, fun g hg => ?_⟩⟩⟩⟩
    · refine congrArg _ ((State.rebalance_due h).trans ?_)
      exact congrArg (List.foldl _ _) (List.take_of_length_le (by rw [hlen]; omega))
    · refine congrArg _ ((State.rebalance_of_single h hs).trans ?_)
      rw [State.moves_of_unbalanced hd ha]
      rfl
    · refine congrArg _ ((State.rebalance_of_single h hs).trans ?_)
      rw [State.moves_of_unpressed hd ha hg]
      rfl
    · refine congrArg _ ((State.rebalance_of_single h hs).trans ?_)
      rw [State.moves_of_pressed hd ha hg, ← List.map_take, List.foldl_map]
      rfl

end Sys2Proof
end

section
/-! SUPPORT. What a free pipe does (R107, R400, R414; log 92). -/

namespace Sys2Proof.Machine

theorem Pipe.eq_of_unparked {p : Pipe} (hpark : p.parked = []) (hex : p.excess = []) : { p with parked := [], excess := [] } = p :=
  congrArg₂ (fun x y => { p with parked := x, excess := y }) hpark.symm hex.symm

section
variable {s : State} {ck half : Nat}

theorem State.pick_of_held (h : (s.pipe ck half).gang.isSome = true ∨ s.powerHolds (pkgOfCore ck) 2 = true) : s.pick ck half = s := by
  have hheld : ((s.pipe ck half).gang.isSome || s.powerHolds (pkgOfCore ck) 2) = true := by simpa using h
  simp only [State.pick, hheld, if_true]

variable (hg : (s.pipe ck half).gang = none) (hp : s.powerHolds (pkgOfCore ck) 2 = false) {t : State} (ht : s.arriveAll ck half = t)
include hg hp ht

/-- One gang is parked, and it is released: it goes on. -/
theorem State.pick_of_released {g : Gang} (hpark : (t.pipe ck half).parked = [g]) (hex : (t.pipe ck half).excess = [])
    (hm : g.members ≠ []) (hr : t.released g = true) : s.pick ck half =
      (g.members.foldl (fun s tk => s.takeDone tk) t).setPipe ck half
        { t.pipe ck half with parked := [], gang := some { g with why := .running } } := by
  have hne : (!g.members.isEmpty) = true := by simpa using hm
  simp only [State.pick, hg, hp, ht, hpark, hex, hne, hr, Option.isSome_none, Bool.or_false, Bool.false_eq_true, if_false,
    List.filter_cons, List.filter_nil, if_true, List.append_nil, earliest, List.foldl_cons, List.foldl_nil, State.wake,
    bne_self_eq_false]

variable (hpark : (t.pipe ck half).parked = []) (hex : (t.pipe ck half).excess = [])
include hpark hex

theorem State.pick_of_no_ready {u : State} (hu : t.setPipe ck half (t.pipe ck half) = u)
    (hr : (u.halfThreads ck half).filter (fun e => u.isReady e.1 e.2) = []) : s.pick ck half = u := by
  have hkeep := Pipe.eq_of_unparked hpark hex
  have hlead : u.leader ck half [] = none := rfl
  simp only [State.pick, hg, hp, ht, hpark, hex, Option.isSome_none, Bool.or_false, Bool.false_eq_true, if_false, List.filter_nil,
    List.append_nil, earliest, List.foldl_nil, hkeep, hu, hr, hlead]

/-- A new gang is taken of the ready threads at the leader's clause, once the clause has been read. -/
theorem State.pick_of_leader {u : State} (hu : t.setPipe ck half (t.pipe ck half) = u) {tk ptr : Nat} {th : Thread}
    (hl : u.leader ck half ((u.halfThreads ck half).filter fun e => u.isReady e.1 e.2) = some (tk, th, ptr)) {ws : List Word} {v : State}
    (hf : u.fetchWords tk th.hpc.toNat (clauseCount th.hdr + 1) = .ok v (th.hdr :: ws)) : s.pick ck half =
      v.take ck half ptr (v.formGang ck half ((u.halfThreads ck half).filter fun e => u.isReady e.1 e.2) tk th ws) := by
  have hkeep := Pipe.eq_of_unparked hpark hex
  simp only [State.pick, hg, hp, ht, hpark, hex, Option.isSome_none, Bool.or_false, Bool.false_eq_true, if_false, List.filter_nil,
    List.append_nil, earliest, List.foldl_nil, hkeep, hu, hl, hf, bne_self_eq_false, Bool.false_and]

end

/-! ### The gang that is formed -/

section
variable (s : State) (ck half : Nat) (rdy : List (Nat × Thread)) (tk : Nat) (t : Thread) (ws : List Word)

theorem State.leader_mem_formGang : tk ∈ (s.formGang ck half rdy tk t ws).members :=
  List.mem_append_right _ List.mem_cons_self

/-- Whoever joins the leader is a ready thread of its context at its clause, and stands at the clause's start. -/
theorem State.of_mem_formGang {k : Nat} (h : k ∈ (s.formGang ck half rdy tk t ws).members) :
    k = tk ∨ ∃ y : Thread, (k, y) ∈ rdy ∧ y.ctx = t.ctx ∧ y.pc = t.pc ∧ y.mid = false := by
  by_cases hk : k = tk
  · exact .inl hk
  refine .inr ?_
  obtain ⟨e, he, rfl⟩ : ∃ e ∈ rdy.filter fun e => e.1 != tk && e.2.ctx == t.ctx && e.2.pc == t.pc && !e.2.mid, e.1 = k := by
    have hkeep := (List.mem_append.1 h).elim (fun h => (List.takeWhile_sublist _).subset h)
      fun h => (List.dropWhile_sublist _).subset ((List.mem_cons.1 h).resolve_left hk)
    split at hkeep
    · cases hkeep
    · obtain ⟨e, he, hek⟩ := List.mem_map.1 hkeep
      exact ⟨e, List.mem_of_mem_take he, hek⟩
  obtain ⟨hmem, hjoin⟩ := List.mem_filter.1 he
  simp only [Bool.and_eq_true, beq_iff_eq, Bool.not_eq_true'] at hjoin
  obtain ⟨⟨⟨-, hctx⟩, hpc⟩, hmid⟩ := hjoin
  exact ⟨e.2, hmem, hctx, hpc, hmid⟩

end

/-! ### What proves wrong in a pipe as it picks -/

section
variable (s : State) (ck half : Nat)

theorem exec_pipePick_bank (tk : Nat) (n : BitVec 6) (hard : Bool) : exec (.pipePick ck half (.bank tk n hard)) s =
    exec (.pipePick ck half .none)
      (if ckOf tk = ck ∧ halfOf tk = half ∧ (s.thr tk).st ≠ .free then s.bankError tk n hard else s) := by
  change execPipePick ck half (.bank tk n hard) s = execPipePick ck half .none _
  simp only [execPipePick, apply_ite (fun t : State => t.pick ck half)]

theorem exec_pipePick_lane (k pat n : Nat) : exec (.pipePick ck half (.lane k pat n)) s =
    exec (.pipePick ck half .none) (s.laneFails ck half ⟨k, pat, n⟩) := rfl

end

end Sys2Proof.Machine
end

section
/-! SUPPORT. Results that arrive, waits that end, and what stops a thread that waits too long (R109, R112, R122, R142, R294, R378, R472). -/

namespace Sys2Proof.Machine

section
variable {s : State} {tk u : Nat} {q : Pend} (hq : (s.thr tk).pendAt u = some q)
include hq

theorem exec_variableLatencyResult {v : Word} {p : Option Bool} (hk : q.k = .value v p) :
    exec (.variableLatencyResult tk u) s = .next (s.finishPend tk q [v] p none none) := by
  change execVariableLatencyResult tk u s = _
  simp only [execVariableLatencyResult, hq, hk]

theorem exec_twaitComplete {i : Nat} {st : TileState} (hk : q.k = .twait i st) : exec (.twaitComplete tk u) s = .next
    (if (s.tile (ckOf tk) i).st = st ∧ (s.thr tk).st ≠ .saved then s.twaitDone tk q i else s) := by
  change execTwaitComplete tk u s = _
  simp only [execTwaitComplete, hq, hk]

/-! ### WAITA (R122) -/

section
variable {w : Acc} {cmp : Word} {d : Option (Nat × Nat)} (hk : q.k = .waita w cmp d)
include hk

theorem exec_waitaWake (hs : (s.thr tk).st ≠ .saved) : exec (.waitaWake tk u) s = .next (s.waitaRead tk q fun v => v != cmp) := by
  change execWaitaWake tk u s = _
  simp only [execWaitaWake, hq, hk, hs, if_false]

theorem exec_waitaTimeout_early (h : ∀ x, d = some x → s.time (pkgOfThr tk) < x.2) : exec (.waitaTimeout tk u) s = .next s := by
  change execWaitaTimeout tk u s = _
  cases d with
  | none => simp only [execWaitaTimeout, hq, hk]
  | some x => simp only [execWaitaTimeout, hq, hk, Nat.not_le.2 (h x rfl), false_and, if_false]

theorem exec_waitaTimeout_due {x : Nat × Nat} (hd : d = some x) (h : x.2 ≤ s.time (pkgOfThr tk)) (hs : (s.thr tk).st ≠ .saved) :
    exec (.waitaTimeout tk u) s = .next (s.waitaRead tk q fun _ => true) := by
  subst hd
  change execWaitaTimeout tk u s = _
  simp only [execWaitaTimeout, hq, hk, h, hs, ne_eq, not_false_eq_true, and_self, if_true]

end

end

/-- A watched word that can be read: the wait goes on, or ends with the word as it is. -/
theorem State.waitaRead_of_ok {s b t : State} {tk pa : Nat} {q : Pend} {a : Acc} {x : Piece} (done : Word → Bool)
    (ht : s.transAcc tk q = (none, b)) (ha : ((b.findPend tk q.u).bind fun q => q.k.acc?) = some a) (hp : a.pieces = [x])
    (hf : b.forward tk q.u x.va x.n (x.at b) x.xl .glob = .no) (ho : b.inOrder tk q.u x.va x.n (x.at b) x.xl false = true)
    (hx : b.touchPiece tk q.u a x = .ok t pa false none) : s.waitaRead tk q done =
      let t' := t.modAcc tk q.u fun a => { a with since := none }
      if done (BitVec.ofNat 64 (t.read pa 8)) then
        (t'.modThr tk fun t => { t with c := t.c.drop 1 0 (if a.remote then 1 else 0) }).finishOutside tk q [BitVec.ofNat 64 (t.read pa 8)]
      else t' := by
  simp only [State.waitaRead, ht, ha, hp, hf, ho, hx, Bool.not_true, Bool.false_eq_true, if_false, Option.isSome_none]

/-! ### Held records (R378) -/

theorem exec_heldRecordWrite {s : State} {p c : Nat} (hc : c < 64) {x : Ctx} (hx : s.ctx? p c = some x) {r : Rec} {rest : List Rec}
    (hr : x.held = r :: rest) (hf : s.fqFull x = false) (he : (r.bytes[1]?.getD 0).getLsbD 1 = false) :
    exec (.heldRecordWrite (p * 64 + c)) s = .next ((s.setCtx p c { x with held := rest }).writeRecord p c r.bytes) := by
  have hlook : (Tab.look s.ctxs (p * 64 + c)).isSome = true := Option.isSome_iff_exists.2 ⟨x, hx⟩
  have hp : (p * 64 + c) / 64 = p := by omega
  have hm : (p * 64 + c) % 64 = c := by omega
  have hctx : s.ctx p c = x := by rw [State.ctx, hx, Option.getD_some]
  change execHeldRecordWrite (p * 64 + c) s = _
  simp only [execHeldRecordWrite, hlook, hp, hm, if_true, State.writeHeld, hctx, hr, hf, he, Bool.false_eq_true, if_false]

/-! ### The watchdog (R112) and a deadlocked pool (R142) -/

section
variable {s : State} {ck ctx : Nat} {due : List (Nat × Thread)}
  (hd : ((s.coreThreads ck).filter fun e => e.2.ctx == ctx && decide (watchdogCycles ≤ e.2.ready) && !e.2.inGang) = due)
include hd

theorem State.watchdog_of_none (h : due = []) : s.watchdog ck ctx = s := by
  have hold : oldest due = none := by rw [h]; rfl
  simp only [State.watchdog, hd, hold]

theorem State.watchdog_of_oldest {tk : Nat} {t : Thread} (h : oldest due = some (tk, t)) : s.watchdog ck ctx =
    (due.foldl (fun s e => s.modThr e.1 fun t => { t with ready := 0 }) s).pairFault tk { code := 0x14, header := !t.mid }
      t.pc t.hpc t.hdr 0 := by
  simp only [State.watchdog, hd, h]

end

section
variable {s : State} {ck : Nat}

theorem State.poolFault_early (h : (s.core ck).dead < 2 ^ 16) : s.poolFault ck = s := if_pos h

/-- One thread waits for a block in a pool that has stood still long enough. -/
theorem State.poolFault_of_single {tk n : Nat} (h : 2 ^ 16 ≤ (s.core ck).dead) (hq : (s.core ck).poolq = [⟨[tk], n⟩])
    (hh : (s.thr tk).hold = true) (hx : (s.thr tk).xwant = true) : s.poolFault ck =
      let b := s.modCore ck fun c => { c with dead := 0 }
      let t := b.thr tk
      ((((b.unwant tk).modThr tk fun t => { t with hold := false, nw := t.nw - 1 }).pairFault tk
        { code := 0x06 } (t.pc - 8) t.hpc t.hdr (b.wordAt tk (t.pc - 8))).poolCheck ck) := by
  simp only [State.poolFault, deadlockCycles, Nat.not_lt.2 h, if_false, State.core_modCore, hq, State.thr_modCore_other, hh, hx,
    List.flatMap_cons, List.flatMap_nil, List.filter_cons, List.filter_nil, Bool.and_self, if_true, List.map_cons, List.map_nil,
    List.append_nil, List.foldl_nil]

end

/-! ### Gangs that wait for room (R472) -/

/-- A gang that waits for room and whose next member has it now. -/
def State.roomFor (s : State) (g : Gang) : Bool :=
  match g.why with
  | .room k => g.first != g.waiter || s.hasRoom g.first k
  | _ => false

/-- What the event of new room makes of a gang. -/
def State.roused (s : State) (g : Gang) : Gang := if s.roomFor g then { g with why := .running } else g

section
variable {s : State} {g : Gang}

theorem State.roused_of_room {k : Nat} (hw : g.why = .room k) (hr : s.hasRoom g.first k = true) :
    s.roused g = { g with why := .running } := by
  have hroom : s.roomFor g = true := by simp only [State.roomFor, hw, hr, Bool.or_true]
  exact if_pos hroom

theorem State.roused_of_other (h : ∀ k, g.why ≠ .room k) : s.roused g = g := by
  have hroom : s.roomFor g = false := by
    unfold State.roomFor
    split
    · rename_i k hk
      exact (h k hk).elim
    · rfl
  exact if_neg (Bool.eq_false_iff.1 hroom)

end

theorem State.roomResume_eq (s : State) (ck half : Nat) : s.roomResume ck half =
    let p := s.pipe ck half
    s.setPipe ck half
      { p with gang := p.gang.map s.roused, parked := p.parked.map s.roused, excess := p.excess.map s.roused } := rfl

end Sys2Proof.Machine
end

section
/-! SUPPORT. A part of a load, gather or atomic that stands alone in its instruction (R236, R260 to R262, R271, R273). -/

namespace Sys2Proof.Machine

/-! ### Where a part may perform, nothing has changed yet -/

section
variable {s t : State} {p u pa : Nat} {psn : Bool} {unver : Option Nat}

theorem State.touchPa_ok {need : LineNeed} {atomic : Bool} {n b : Nat} (h : s.touchPa p u b need atomic n = .ok t pa psn unver) :
    t = s := by
  unfold State.touchPa at h
  split at h
  · cases h
  · split at h
    · cases h; rfl
    · dsimp only at h
      split at h
      · cases h; rfl
      · cases h

theorem State.touchPiece_ok {tk : Nat} {a : Acc} {x : Piece} (h : s.touchPiece tk u a x = .ok t pa psn unver) : t = s := by
  unfold State.touchPiece at h
  split at h
  · cases h; rfl
  · cases h
  · unfold State.touch at h
    split at h
    · cases h
    · exact State.touchPa_ok h

end

/-! ### One part by itself -/

/-- The one part of an access that alone makes up its instruction: all have issued it, it has its translation, and it has not performed. -/
structure State.Alone (s : State) (tk u : Nat) (q : Pend) (a : Acc) (x : Piece) : Prop where
  named : u % 16 = 0
  found : s.findPend tk u = some q
  own : q.u = u
  kind : q.k = .acc a
  part : a.pieces = [x]
  undone : x.got = none
  issued : s.gidOpen (ckOf tk) q.gid = false
  alone : s.gidPends (ckOf tk) q.gid = [(tk, q)]
  known : s.transAcc tk q = (none, s)

/-- The one part of an access as a part of its instruction. -/
def Piece.only (s : State) (x : Piece) (tk u : Nat) : PartRef := ⟨tk, u, 0, x.va, x.n, x.at s⟩

/-- What the event makes of a group of parts, by whether it can perform. -/
def Ready.landed (l : List PartRef) : Ready → State
  | .no s => s
  | .fail s k v c va => s.failPart k v c va
  | .yes s => s.performGroup l

/-- What the event makes of the part, by what the store buffer forwards. -/
def State.landed (s : State) (tk u : Nat) (x : Piece) : Fwd → State
  | .wait => s
  | .hit v =>
    if s.inOrderF tk u x.xl then
      (s.modAcc tk u fun c => { c with pieces := setAt c.pieces 0 { x with got := some v } }).settleAcc tk u
    else s
  | .no => (s.groupReady true [x.only s tk u]).landed [x.only s tk u]

theorem connected_singleton (r : PartRef) (n : Nat) : connected [r] n [r] = [r] := by
  induction n with
  | zero => rfl
  | succ n ih => simpa [connected] using ih

@[simp] theorem PK.acc?_acc (a : Acc) : (PK.acc a).acc? = some a := rfl

section
variable {s : State} {tk u : Nat} {q : Pend} {a : Acc} {x : Piece} (h : s.Alone tk u q a x)
include h

theorem State.Alone.acc : ((s.findPend tk u).bind fun q => q.k.acc?) = some a := by
  rw [h.found, Option.bind_some, h.kind]
  rfl

theorem State.Alone.loadParts : s.loadParts (ckOf tk) q.gid = [x.only s tk u] := by
  simp only [State.loadParts, h.alone, List.flatMap_cons, List.flatMap_nil, h.kind, h.part, List.zipIdx_cons, List.zipIdx_nil,
    List.filter_cons, List.filter_nil, h.undone, Option.isNone_none, if_true, List.map_cons, List.map_nil, h.own, List.append_nil,
    Piece.only]

theorem State.Alone.exec_loadReturn : exec (.loadReturn tk u .none) s =
    .next (s.landed tk u x (if a.k.isAtomic then .no else s.forward tk u x.va x.n (x.at s) x.xl a.space)) := by
  have hu : u / 16 * 16 = u := by have := h.named; omega
  have hothers : ([(tk, q)].filter fun e : Nat × Pend => e.1 != tk || e.2.u != u) = [] := by simp [h.own]
  change execLoadReturn tk u .none s = _
  simp only [execLoadReturn, hu, h.named, h.found, h.kind, h.issued, h.alone, hothers, List.foldl_nil, h.known, Option.bind_some,
    PK.acc?_acc, h.part, List.getElem?_cons_zero, h.undone, Option.isSome_none, Bool.false_eq_true, if_false]
  generalize (if a.k.isAtomic = true then Fwd.no else s.forward tk u x.va x.n (x.at s) x.xl a.space) = fw
  cases fw with
  | wait => rfl
  | hit v => simp only [State.landed, Bool.not_eq_true', ← Bool.not_eq_true, ite_not]
  | no =>
    have hme : (⟨tk, u, 0, x.va, x.n, x.at s⟩ : PartRef) = x.only s tk u := rfl
    have hgroup : bySlot (connected [x.only s tk u] [x.only s tk u].length [x.only s tk u]) = [x.only s tk u] := by
      rw [connected_singleton]
      rfl
    simp only [hme, h.loadParts, List.filter_cons, List.filter_nil, decide_true, Bool.true_or, if_true, hgroup, State.landed]
    cases s.groupReady true [x.only s tk u] <;> rfl

/-! ### Whether it can perform -/

theorem State.Alone.groupReady_of_unordered (ho : s.inOrder tk u x.va x.n (x.at s) x.xl a.rel = false) :
    s.groupReady true [x.only s tk u] = .no s := by
  simp only [State.groupReady, Piece.only, h.found, Option.bind_some, h.kind, PK.acc?_acc, h.part, List.getElem?_cons_zero, ho,
    Bool.not_false, if_true, Bool.false_eq_true, if_false]

variable (ho : s.inOrder tk u x.va x.n (x.at s) x.xl a.rel = true)
include ho

theorem State.Alone.groupReady_of_fail {c : Nat} (hc : c ≠ 0x0A) (ht : s.touchPiece tk u a x = .fail c) :
    s.groupReady true [x.only s tk u] = .fail s tk u c x.va := by
  simp only [State.groupReady, Piece.only, h.found, Option.bind_some, h.kind, PK.acc?_acc, h.part, List.getElem?_cons_zero, ho,
    Bool.not_true, Bool.false_eq_true, if_false, ht, hc]

theorem State.Alone.groupReady_of_wait {t : State} {asked : Option Bool} (ht : s.touchPiece tk u a x = .wait t asked) :
    s.groupReady true [x.only s tk u] = .no (t.modAcc tk u fun a => { a with since := timerFrom t.clock asked a.since }) := by
  simp only [State.groupReady, Piece.only, h.found, Option.bind_some, h.kind, PK.acc?_acc, h.part, List.getElem?_cons_zero, ho,
    Bool.not_true, Bool.false_eq_true, if_false, ht]

section
variable {t : State} {pa : Nat} {psn : Bool} {unver : Option Nat} (ht : s.touchPiece tk u a x = .ok t pa psn unver)
include ht

theorem State.Alone.groupReady_of_ok : s.groupReady true [x.only s tk u] =
    if psn && a.refusesPoison then .fail t tk u 0x0D x.va
    else if unver.isSome && a.prov.isSome && a.prov != unver then .no t
    else if unver.isSome && a.refusesPoison then .no t
    else .yes t := by
  simp only [State.groupReady, Piece.only, h.found, Option.bind_some, h.kind, PK.acc?_acc, h.part, List.getElem?_cons_zero, ho,
    Bool.not_true, Bool.false_eq_true, if_false, ht, if_true]

theorem State.Alone.performGroup : t.performGroup [x.only s tk u] =
    ((t.performPiece tk u 0 a x pa psn unver).useLine (x.only s tk u)).settleAcc tk u := by
  obtain rfl := State.touchPiece_ok ht
  simp only [State.performGroup, List.foldl_cons, List.foldl_nil, Piece.only, h.found, Option.bind_some, h.kind, PK.acc?_acc, h.part,
    List.getElem?_cons_zero, ht]

end

end

/-! ### What performing changes (R236, R271) -/

/-- The access once its part number `ix` has taken the bytes `v`, with what the line says of poison and of a verdict. -/
def Acc.took (ix : Nat) (x : Piece) (v : Nat) (psn : Bool) (unver : Option Nat) (a : Acc) : Acc :=
  { a with pieces := setAt a.pieces ix { x with got := some v }, since := none,
           psn := if psn then a.psn <|> some (match a.k with | .gather => x.va | _ => (a.pieces.head?.map (·.va)).getD 0) else a.psn,
           prov := unver <|> a.prov }

section
variable (s : State) (tk u : Nat)

/-- A read changes no more than the count of free values. -/
theorem State.readFree_eq (loc n : Nat) : ∃ k, (s.readFree loc n).2 = { s with free := k } := by
  unfold State.readFree
  split
  · exact ⟨_, rfl⟩
  · exact ⟨s.free, rfl⟩

/-- What a change of the access named `u` makes of each pending operation. -/
def Pend.changed (u : Nat) (f : Acc → Acc) (q : Pend) : Pend := if q.u = u then { q with k := q.k.mapAcc f } else q

theorem Pend.changed_u (f : Acc → Acc) (q : Pend) : (q.changed u f).u = q.u := by
  unfold Pend.changed
  split <;> rfl

/-- A changed access is found under its name. -/
theorem State.findPend_modAcc (f : Acc → Acc) :
    (s.modAcc tk u f).findPend tk u = (s.findPend tk u).map fun q => { q with k := q.k.mapAcc f } := by
  have hname : ((fun q : Pend => q.u == u) ∘ Pend.changed u f) = fun q => q.u == u :=
    funext fun q => congrArg (· == u) (Pend.changed_u u f q)
  have hmap : (s.modAcc tk u f).findPend tk u = (s.findPend tk u).map (Pend.changed u f) := by
    simp only [State.findPend, State.modAcc, State.modPend, State.thr_modThr, ← List.map_append]
    exact List.find?_map.trans (congrArg (fun p => Option.map _ (List.find? p _)) hname)
  rw [hmap]
  cases hq : s.findPend tk u with
  | none => rfl
  | some q =>
    have hu : q.u = u := by simpa using List.find?_some hq
    rw [Option.map_some, Option.map_some]
    exact congrArg some (if_pos hu)

variable {a : Acc} (ix : Nat) (x : Piece) (pa : Nat) (psn : Bool) (unver : Option Nat)

theorem State.performPiece_of_read (h : a.k.isAtomic = false) : s.performPiece tk u ix a x pa psn unver =
    (s.readFree pa x.n).2.modAcc tk u (Acc.took ix x (s.readFree pa x.n).1 psn unver) := by
  unfold State.performPiece
  cases hk : a.k with
  | atomic => rw [hk] at h; cases h
  | load => rfl
  | gather => rfl

theorem State.performPiece_of_atomic {op : AtOp} {w32 sgn : Bool} {y c : Word} (h : a.k = .atomic op w32 sgn y c) :
    s.performPiece tk u ix a x pa psn unver =
      (((s.readFree pa x.n).2.write pa x.n (op.apply w32 sgn (s.readFree pa x.n).1 y.toNat c.toNat).1).dirtyLine (pkgOfThr tk)
        (lineOf pa)).modAcc tk u (Acc.took ix x (s.readFree pa x.n).1 psn unver) := by
  simp only [State.performPiece, h]
  rfl

theorem State.mem_performPiece_of_read (h : a.k.isAtomic = false) : (s.performPiece tk u ix a x pa psn unver).mem = s.mem
    ∧ (s.performPiece tk u ix a x pa psn unver).haze = s.haze := by
  obtain ⟨k, hk⟩ := s.readFree_eq pa x.n
  rw [s.performPiece_of_read tk u ix x pa psn unver h, hk]
  exact ⟨rfl, rfl⟩

/-- An atomic writes its new value, and memory changes no further. -/
theorem State.byte_performPiece_of_atomic {op : AtOp} {w32 sgn : Bool} {y c : Word} (h : a.k = .atomic op w32 sgn y c) :
    (s.performPiece tk u ix a x pa psn unver).byte =
      (s.write pa x.n (op.apply w32 sgn (s.readFree pa x.n).1 y.toNat c.toNat).1).byte := by
  obtain ⟨k, hk⟩ := s.readFree_eq pa x.n
  rw [s.performPiece_of_atomic tk u ix x pa psn unver h, hk]
  rfl

end

/-! ### A part that has its place and no page -/

/-- No cache takes what a part of a vault or a local store reads. -/
theorem State.useLine_of_unpaged {s : State} {q : Pend} {a : Acc} {x : Piece} {tk u : Nat} (hq : s.findPend tk u = some q)
    (hk : q.k = .acc a) (hp : a.pieces = [x]) (hx : x.xl = none) (r : PartRef) (hr : r.tk = tk) (hu : r.u = u) (h0 : r.ix = 0) :
    s.useLine r = s := by
  simp only [State.useLine, hr, hu, h0, hq, Option.bind_some, hk, PK.acc?_acc, hp, List.getElem?_cons_zero, hx, Option.bind_none]

theorem State.Alone.useLine_of_unpaged {s : State} {tk u : Nat} {q : Pend} {a : Acc} {x : Piece} (h : s.Alone tk u q a x)
    (hx : x.xl = none) (pa : Nat) (psn : Bool) (unver : Option Nat) (ha : a.k.isAtomic = false) :
    (s.performPiece tk u 0 a x pa psn unver).useLine (x.only s tk u) = s.performPiece tk u 0 a x pa psn unver := by
  obtain ⟨k, hk⟩ := s.readFree_eq pa x.n
  have hfound : (s.performPiece tk u 0 a x pa psn unver).findPend tk u =
      some { q with k := .acc (a.took 0 x (s.readFree pa x.n).1 psn unver) } := by
    rw [s.performPiece_of_read tk u 0 x pa psn unver ha, State.findPend_modAcc, hk]
    exact (congrArg (Option.map _) h.found).trans (by rw [Option.map_some, h.kind]; rfl)
  have hpart : (a.took 0 x (s.readFree pa x.n).1 psn unver).pieces = [{ x with got := some (s.readFree pa x.n).1 }] := by
    simp only [Acc.took, h.part]
    rfl
  exact State.useLine_of_unpaged hfound rfl hpart hx _ rfl rfl rfl

end Sys2Proof.Machine
end

section
/-! SUPPORT. Entries of the store buffer as they perform and fail (R244, R248, R260, R265, R268, R297). -/

namespace Sys2Proof.Machine

theorem State.aline_setALine (s : State) (p line : Nat) (a : ALine) : (s.setALine p line a).aline p line = a := by
  simp [State.aline, State.setALine]

/-! ### What a part writes -/

/-- The word at `pa` is `v`, and every byte beside it is as it was. -/
theorem State.wrote_of_byte_eq {s b : State} {pa n v : Nat} (h : b.byte = (s.write pa n v).byte) :
    b.read pa n = v % 256 ^ n ∧ ∀ y, y < pa ∨ pa + n ≤ y → b.byte y = s.byte y := by
  refine ⟨?_, fun y hy => (congrFun h y).trans (s.byte_write_ne pa n v y hy)⟩
  rw [State.read, h]
  exact s.read_write_same pa n v

section
variable (s : State) (tk : Nat) {e : SbE} (ix : Nat) {x : SPiece} (pa : Nat)

theorem State.performSPiece_of_store (hk : e.k = .store) (hl : x.loc = none) (ha : isAperture pa = false) :
    (s.performSPiece tk e ix x pa).mem = (s.writeMask pa x.n x.data x.mask).mem
      ∧ (s.performSPiece tk e ix x pa).haze = (s.writeMask pa x.n x.data x.mask).haze := by
  have hclear : ¬e.k = .engine true := by simp [hk]
  simp only [State.performSPiece, hk, hl, ha, State.storeBytes, State.wipeHeld, Option.isSome_none, Bool.false_and, Bool.or_self,
    Bool.false_eq_true, if_false, reduceCtorEq, false_and]
  exact ⟨rfl, rfl⟩

theorem State.byte_performSPiece_of_shadow (hk : e.k = .shadow) :
    (s.performSPiece tk e ix x pa).byte = (s.write pa x.n x.data).byte := by
  simp only [State.performSPiece, hk]
  rfl

theorem State.byte_performSPiece_of_publish (hk : e.k = .publish) :
    (s.performSPiece tk e ix x pa).byte = (s.write pa 8 ((s.read pa 8 + 2) % 2 ^ 64 ^^^ 1)).byte := by
  simp only [State.performSPiece, hk]
  rfl

section
variable {r : Bind} (hk : e.k = .red r)
include hk

/-- A reduction combines in place on an SO page and on a line that the package holds modified. -/
theorem State.byte_performSPiece_of_red (h : isSo x.xl = true ∨ (s.aline (pkgOfThr tk) (lineOf pa)).st = .M) :
    (s.performSPiece tk e ix x pa).byte = (s.write pa x.n (r.combine (s.read pa x.n) x.data)).byte := by
  by_cases hso : isSo x.xl = true
  · simp only [State.performSPiece, hk, hso, if_true]
    rfl
  · simp only [State.performSPiece, hk, hso, Bool.false_eq_true, if_false, State.redLine, h.resolve_left hso, if_true]
    rfl

/-- Elsewhere it combines into the package's partial. -/
theorem State.performSPiece_of_partial (hso : isSo x.xl = false) (hm : (s.aline (pkgOfThr tk) (lineOf pa)).st ≠ .M) :
    let b := s.performSPiece tk e ix x pa
    b.mem = s.mem ∧ b.haze = s.haze ∧ (b.aline (pkgOfThr tk) (lineOf pa)).part =
      (s.aline (pkgOfThr tk) (lineOf pa)).part.map fun q => q.add (pa % 128) x.data := by
  simp only [State.performSPiece, hk, hso, Bool.false_eq_true, if_false, State.redLine, hm]
  exact ⟨rfl, rfl, congrArg ALine.part (s.aline_setALine ..)⟩

end

end

/-! ### A part of an entry (R260, R265) -/

/-- What the event makes of a group of parts of entries, by whether it can perform. -/
def Ready.stored (l : List PartRef) : Ready → State
  | .no s => s
  | .fail s k v c _ => s.failStore k v c
  | .yes s => s.performStores l

section
variable {s : State} {tk u : Nat} {e : SbE} {ix : Nat} {x : SPiece} (hu : u % 16 = 0) (he : (s.thr tk).entry u = some e)
  (hx : e.pieces[ix]? = some x) (hs : (s.thr tk).st ≠ .saved)
include hu he hx hs

theorem exec_storePerform_of_store (hix : ix < 16) (hk : ∀ l, e.k ≠ .flush l ∧ e.k ≠ .inval l) (hd : x.done = false)
    (hg : s.gidOpen (ckOf tk) e.gid = false) (hh : s.heldParts (ckOf tk) e.gid = []) {l : List PartRef}
    (hl : bySlot (connected (s.storeParts' (ckOf tk) e.gid) (s.storeParts' (ckOf tk) e.gid).length
      [⟨tk, u, ix, x.va, x.n, e.place s x⟩]) = l) :
    exec (.storePerform tk (u + ix)) s = .next ((s.storesReady true l).stored l) := by
  have hname : (u + ix) / 16 * 16 = u := by omega
  have hpart : (u + ix) % 16 = ix := by omega
  change execStorePerform tk (u + ix) s = _
  cases hek : e.k with
  | flush line => exact ((hk line).1 hek).elim
  | inval line => exact ((hk line).2 hek).elim
  | _ =>
    simp only [execStorePerform, hname, hpart, he, hx, hs, hek, hd, hg, hh, hl, if_false, List.any_nil, Bool.false_eq_true, or_self]
    cases s.storesReady true l <;> rfl

/-! ### CFLUSH and CINV (R268) -/

variable (h0 : ix = 0)
include h0

/-- A CFLUSH is sent once, after the accesses that stand before it. -/
theorem exec_storePerform_of_flush {line : Nat} (hk : e.k = .flush line) : exec (.storePerform tk u) s = .next
    (if e.since.isSome ∨ s.inOrder tk u x.va x.n (e.place s x) x.xl false = false then s else s.sendFlush tk e line) := by
  have hname : u / 16 * 16 = u := by omega
  subst h0
  change execStorePerform tk u s = _
  simp only [execStorePerform, hname, hu, he, hx, hs, hk, if_false, Bool.not_eq_true']

theorem exec_storePerform_of_inval {line : Nat} (hk : e.k = .inval line) : exec (.storePerform tk u) s = .next
    (if s.inOrder tk u x.va x.n (e.place s x) x.xl false = false then s else s.invalLine tk e line) := by
  have hname : u / 16 * 16 = u := by omega
  subst h0
  change execStorePerform tk u s = _
  simp only [execStorePerform, hname, hu, he, hx, hs, hk, if_false, Bool.not_eq_true']

end

/-! ### A message that is sent takes no time -/

theorem State.clock_route (s : State) (m : Msg) : (s.route m).clock = s.clock := by
  unfold State.route
  dsimp only
  split
  · rfl
  · split
    · rfl
    · split
      · rfl
      · split <;> rfl

theorem State.clock_send (s : State) (m : Msg) : (s.send m).clock = s.clock := by
  unfold State.send
  dsimp only
  split
  · rfl
  · exact State.clock_route ..

theorem State.clock_sendMsg (s : State) (ty : MsgTy) (src dst req line status txid : Nat) (carries : Bool) (part : Option Part)
    (bind : Nat) : (s.sendMsg ty src dst req line status txid carries part bind).clock = s.clock := State.clock_send ..

/-- Nothing of the line is under way. -/
def ALine.Calm (a : ALine) : Prop := a.put = none ∧ a.flushing = none ∧ a.req = none ∧ a.unver = none

theorem ALine.calm_iff (a : ALine) : (a.put.isSome || a.flushing.isSome || a.req.isSome || a.unver.isSome) = false ↔ a.Calm := by
  simp only [ALine.Calm, Bool.or_eq_false_iff, Option.isSome_eq_false_iff, Option.isNone_iff_eq_none, and_assoc]

section
variable {s : State} {tk : Nat} {e : SbE} {line : Nat}

theorem State.sendFlush_of_lost (h : s.isLost (pkgOfThr tk) (homeOf (line * 128)) = true) :
    s.sendFlush tk e line = s.failStore tk e.u 0x0C := if_pos h

section
variable (h : s.isLost (pkgOfThr tk) (homeOf (line * 128)) = false)
include h

theorem State.sendFlush_of_busy (hc : ¬(s.aline (pkgOfThr tk) line).Calm) : s.sendFlush tk e line = s := by
  have hbusy := Bool.eq_true_of_not_eq_false (mt (ALine.calm_iff _).1 hc)
  simp only [State.sendFlush, h, Bool.false_eq_true, if_false, hbusy, if_true]

theorem State.sendFlush_of_calm (hc : (s.aline (pkgOfThr tk) line).Calm) : s.sendFlush tk e line =
    let p := pkgOfThr tk
    let h := homeOf (line * 128)
    let a := s.aline p line
    let dirty := a.st = .M ∨ a.st = .O
    ((s.setALine p line { a with flushing := some e.u }).sendMsg .flush p h p line (txid := e.u) (carries := decide dirty)
      (status := if dirty ∧ a.psn = true then 8 else 0)).modEntry tk e.u fun e =>
        { e with since := if h = p then none else some s.clock } := by
  have hcalm := (ALine.calm_iff _).2 hc
  simp only [State.sendFlush, h, Bool.false_eq_true, if_false, hcalm]
  have hdirty : decide ((s.aline (pkgOfThr tk) line).st = .M ∨ (s.aline (pkgOfThr tk) line).st = .O) =
      ((s.aline (pkgOfThr tk) line).st == .M || (s.aline (pkgOfThr tk) line).st == .O) := Bool.decide_or ..
  simp only [hdirty, Bool.and_eq_true, Bool.or_eq_true, beq_iff_eq, State.clock_sendMsg, State.setALine_clock]

end

theorem State.invalLine_of_begun (h : (e.pieces.any fun q => q.mask != 0) = true) : s.invalLine tk e line =
    if (s.aline (pkgOfThr tk) line).put = none ∧ (s.aline (pkgOfThr tk) line).flushing = none then s.endEntry tk e else s := by
  simp only [State.invalLine, h, if_true, Bool.and_eq_true, Option.isNone_iff_eq_none]

section
variable (h : (e.pieces.any fun q => q.mask != 0) = false)
include h

theorem State.invalLine_of_absent (hl : ((s.core (ckOf tk)).l1.find? fun y => y.line == line) = none) :
    s.invalLine tk e line = s.endEntry tk e := by
  simp only [State.invalLine, h, Bool.false_eq_true, if_false, hl]

theorem State.invalLine_of_clean (hl : ((s.core (ckOf tk)).l1.find? fun y => y.line == line).isSome = true)
    (hd : ¬((s.aline (pkgOfThr tk) line).st = .M ∨ (s.aline (pkgOfThr tk) line).st = .O)) :
    s.invalLine tk e line = (s.l1Leave (ckOf tk) line).endEntry tk e := by
  obtain ⟨y, hy⟩ := Option.isSome_iff_exists.1 hl
  have hclean : (!((s.aline (pkgOfThr tk) line).st == .M || (s.aline (pkgOfThr tk) line).st == .O)) = true := by simpa using hd
  simp only [State.invalLine, h, Bool.false_eq_true, if_false, hy, hclean, Bool.true_or, if_true]

end

end

/-! ### An entry that fails (R265) -/

/-- The only entry of a thread's buffer fails: it is gone, and its late fault stands among the thread's others. -/
theorem State.failStore_of_single {s : State} {tk u code : Nat} {e : SbE} (hs : (s.thr tk).sb = [e]) (hu : e.u = u)
    (hp : (s.thr tk).pair = none) (hk : (s.thr tk).killing = false) :
    s.failStore tk u code = s.modThr tk fun t =>
      { t with sb := [], c := t.c.drop 0 1 (if e.remote then 1 else 0),
               late := lateInsert { code := code, addr := (e.pieces.head?.map (·.va)).getD 0, load := false, nw := u } t.late } := by
  have hfind : [e].find? (fun e => e.u == u) = some e := by simp [hu]
  have hlater : (s.thr tk).owed.filter (fun x => decide (u < x.u)) = [] := by simp [Thread.owed, hs, hp, hu]
  have hout : s.discards [e] [] = [e] := rfl
  have hmine : [e].filter (fun x : SbE => [e].any fun y => y.u == x.u) = [e] := by simp
  have hrest : [e].filter (fun x : SbE => !([e].any fun y => y.u == x.u)) = [] := by simp
  have hfrc : ([e].filter (·.remote)).length = if e.remote then 1 else 0 := by
    cases hr : e.remote <;> simp [hr]
  simp only [State.failStore, hs, hfind, hlater, hout, hmine, hfrc, State.killCheck, State.modThr, State.thr_setThr, Thread.feed, hp,
    Option.map_none, hk, Bool.false_and, Bool.false_eq_true, if_false, hrest, List.foldl_cons, List.foldl_nil, hu, List.length_singleton]

end Sys2Proof.Machine
end

section
/-! SUPPORT. Late faults as they are raised (R265, R473), and the events of threads and pipes. -/

namespace Sys2Proof.Machine

/-! ### Late faults -/

/-- A late fault as it is raised. -/
def Late.raised (x : Late) : FI :=
  { code := x.code, addr := BitVec.ofNat 64 x.addr, late := true, ixinfo := if x.load then x.reg * 2 ^ 30 else 0 }

section
variable {s : State} {tk : Nat} {i : Issue} (hi : s.iss = some i) {x : Late} (hp : (s.thr tk).pair = none) (park : Bool)
include hi hp

theorem State.raiseLate_of_single : s.raiseLate tk x [] park =
    (s.takeFault tk x.raised i.g.wordAddr i.g.hpc i.g.hdr i.g.word).checkWord park := by
  simp only [State.raiseLate, hi, List.map_nil, ite_self, List.foldl_nil, State.pairFault, hp, Late.raised]

variable (hl : (s.thr tk).late = [x])
include hl

/-- The one late fault of a load or atomic stops its thread before the word it stands at. -/
theorem State.lateLoads_of_single (hx : x.load = true) : s.lateLoads tk park =
    ((s.modThr tk fun t => { t with late := [] }).takeFault tk x.raised i.g.wordAddr i.g.hpc i.g.hdr i.g.word).checkWord park := by
  have hgone : (s.modThr tk fun t => { t with late := t.late.filter fun x => !x.load }) = s.modThr tk fun t => { t with late := [] } := by
    simp [State.modThr, hl, hx]
  have hfirst : (s.thr tk).late.filter (·.load) = [x] := by simp [hl, hx]
  simp only [State.lateLoads, hfirst, hgone]
  exact State.raiseLate_of_single (s := s.modThr tk _) hi ((congrArg Thread.pair (s.thr_modThr tk _)).trans hp) park

/-- The one late fault of a store stops its thread at a word that waits for its stores. -/
theorem State.lateStores_of_single (hx : x.load = false) : s.lateStores tk park =
    ((s.modThr tk fun t => { t with late := [] }).takeFault tk x.raised i.g.wordAddr i.g.hpc i.g.hdr i.g.word).checkWord park := by
  have hgone : (s.modThr tk fun t => { t with late := t.late.filter fun x => x.load }) = s.modThr tk fun t => { t with late := [] } := by
    simp [State.modThr, hl, hx]
  have hfirst : (s.thr tk).late.filter (fun x => !x.load) = [x] := by simp [hl, hx]
  simp only [State.lateStores, hfirst, hgone]
  exact State.raiseLate_of_single (s := s.modThr tk _) hi ((congrArg Thread.pair (s.thr_modThr tk _)).trans hp) park

end

/-! ### A part of a load, case by case -/

section
variable {s : State} {tk u : Nat} {q : Pend} {a : Acc} {x : Piece} (h : s.Alone tk u q a x)
include h

/-- An atomic, or a read that the store buffer does not forward, comes to its line. -/
theorem State.Alone.exec_of_line (hf : a.k.isAtomic = true ∨ s.forward tk u x.va x.n (x.at s) x.xl a.space = .no) :
    exec (.loadReturn tk u .none) s = .next ((s.groupReady true [x.only s tk u]).landed [x.only s tk u]) := by
  have hno : (if a.k.isAtomic then Fwd.no else s.forward tk u x.va x.n (x.at s) x.xl a.space) = .no := by
    rcases hf with hf | hf
    · exact if_pos hf
    · rw [hf, ite_self]
  rw [h.exec_loadReturn, hno]
  rfl

variable (ho : s.inOrder tk u x.va x.n (x.at s) x.xl a.rel = true)
include ho

/-- A part whose line lets it perform, with nothing against the bytes. -/
theorem State.Alone.landed_of_sound {t : State} {pa : Nat} {psn : Bool} {unver : Option Nat}
    (ht : s.touchPiece tk u a x = .ok t pa psn unver)
    (hok : (psn = false ∧ unver = none) ∨ (a.refusesPoison = false ∧ (unver = none ∨ a.prov = none ∨ a.prov = unver))) :
    (s.groupReady true [x.only s tk u]).landed [x.only s tk u] =
      ((t.performPiece tk u 0 a x pa psn unver).useLine (x.only s tk u)).settleAcc tk u := by
  have hyes : s.groupReady true [x.only s tk u] = .yes t := by
    rw [h.groupReady_of_ok ho ht]
    rcases hok with ⟨rfl, rfl⟩ | ⟨hr, hv⟩
    · rfl
    · rcases hv with hv | hv | hv <;> simp [hr, hv]
  rw [hyes]
  exact h.performGroup ho ht

theorem State.Alone.landed_of_poison {t : State} {pa : Nat} {unver : Option Nat} (ht : s.touchPiece tk u a x = .ok t pa true unver)
    (hr : a.refusesPoison = true) : (s.groupReady true [x.only s tk u]).landed [x.only s tk u] = t.failPart tk u 0x0D x.va := by
  rw [h.groupReady_of_ok ho ht, hr]
  rfl

theorem State.Alone.landed_of_unjudged {t : State} {pa : Nat} {unver : Option Nat} (ht : s.touchPiece tk u a x = .ok t pa false unver)
    (hv : unver.isSome = true) (hr : a.refusesPoison = true) : (s.groupReady true [x.only s tk u]).landed [x.only s tk u] = t := by
  rw [h.groupReady_of_ok ho ht, hr, hv]
  simp only [Bool.false_and, Bool.true_and, Bool.false_eq_true, if_false, if_true, ite_self]
  rfl

/-- A load of a vault or a local store takes its bytes as they are. -/
theorem State.Alone.landed_of_place {b : Nat} (hb : x.loc = some b) (hx : x.xl = none) (hk : a.k = .load) :
    (s.groupReady true [x.only s tk u]).landed [x.only s tk u] = ((s.readFree b x.n).2.modAcc tk u fun c =>
      { c with pieces := setAt c.pieces 0 { x with got := some (s.readFree b x.n).1 }, since := none }).settleAcc tk u := by
  have ht : s.touchPiece tk u a x = .ok s b false none := by simp only [State.touchPiece, hb]
  have hread : a.k.isAtomic = false := by rw [hk]; rfl
  rw [h.landed_of_sound ho ht (.inl ⟨rfl, rfl⟩), h.useLine_of_unpaged hx b false none hread,
    s.performPiece_of_read tk u 0 x b false none hread]
  rfl

end

/-- Settles O42: each event by what it meets. -/
theorem threadEvents : Obligations.ThreadEvents := by
  unfold Obligations.ThreadEvents
  intro s
  refine ⟨fun ck half => ?pick, fun tk => rfl, fun tk u q v p hq hk => exec_variableLatencyResult hq hk,
    fun tk u q w cmp d hq hk hs => ?waita, fun tk u q i st hq hk => exec_twaitComplete hq hk, fun ck t => rfl,
    fun tk u q a x hu hq hn hk hp hg ho hone ht => ?load, fun tk u ix a x pa psn unver => ?piece,
    fun tk u ix e x hix hu he hx hs hk hd hg hh => ?store, fun tk e ix x pa => ?spiece, fun tk u e x line hu he hn hp hs => ?flush,
    fun tk u code e hs hu hp hk => ?failed, fun tk i x park hi hl hp => ?late,
    fun p c x r rest hc hx hr hf he => exec_heldRecordWrite hc hx hr hf he, fun ck ctx => ?watchdog, fun ck => ?pool,
    fun ck half => ?room⟩
  case pick =>
    refine ⟨exec_pipePick_bank s ck half, exec_pipePick_lane s ck half, fun h => congrArg _ (State.pick_of_held h),
      fun hg hp => ⟨fun g hpark hex hm hr => congrArg _ (State.pick_of_released hg hp rfl hpark hex hm hr), fun hpark hex => ?_⟩⟩
    refine ⟨fun hr => congrArg _ (State.pick_of_no_ready hg hp rfl hpark hex rfl hr), fun tk th ptr ws v hl hf => ?_⟩
    exact ⟨_, congrArg _ (State.pick_of_leader hg hp rfl hpark hex rfl hl hf), rfl, rfl, rfl, State.leader_mem_formGang ..,
      fun k hk => State.of_mem_formGang _ _ _ _ _ _ _ hk⟩
  case waita =>
    refine ⟨fun hd => exec_waitaTimeout_early hq hk fun x hx => ?_, fun b x a t pa ht ha hp hf ho hx => ⟨?_, fun hd => ?_⟩⟩
    · subst hx
      exact Nat.not_le.1 hd
    · rw [exec_waitaWake hq hk hs, State.waitaRead_of_ok _ ht ha hp hf ho hx]
      simp only [bne_iff_ne, ne_eq, ite_not]
    · cases d with
      | none => exact hd.elim
      | some y => rw [exec_waitaTimeout_due hq hk rfl hd hs, State.waitaRead_of_ok _ ht ha hp hf ho hx, if_pos rfl]
  case load =>
    have h : s.Alone tk u q a x := ⟨hu, hq, hn, hk, hp, hg, ho, hone, ht⟩
    refine ⟨fun ha hf => ?_, fun ha v hf => ?_, fun hf hord => ?_, fun hf hord => ⟨fun b hb hx hl => ?_, fun c hc ht => ?_,
      fun t asked ht => ?_, fun t pa psn unver ht => ⟨fun hp hr => ?_, fun hp hv hr => ?_, fun hok => ?_⟩⟩⟩
    · rw [h.exec_loadReturn, ha, hf]
      rfl
    · rw [h.exec_loadReturn, ha, hf]
      rfl
    · rw [h.exec_of_line hf, h.groupReady_of_unordered hord]
      rfl
    · rw [h.exec_of_line hf, h.landed_of_place hord hb hx hl]
    · rw [h.exec_of_line hf, h.groupReady_of_fail hord hc ht]
      rfl
    · rw [h.exec_of_line hf, h.groupReady_of_wait hord ht]
      rfl
    · subst hp
      rw [h.exec_of_line hf, h.landed_of_poison hord ht hr]
    · subst hp
      rw [h.exec_of_line hf, h.landed_of_unjudged hord ht hv hr]
    · rw [h.exec_of_line hf, h.landed_of_sound hord ht hok]
      rfl
  case piece =>
    exact ⟨s.mem_performPiece_of_read tk u ix x pa psn unver,
      fun op w32 sgn y c ha => State.wrote_of_byte_eq (s.byte_performPiece_of_atomic tk u ix x pa psn unver ha)⟩
  case store =>
    have hev := exec_storePerform_of_store hu he hx hs hix hk hd hg hh rfl
    exact ⟨fun t hr => by rw [hev, hr]; rfl, fun t k v c a hr => by rw [hev, hr]; rfl, fun t hr => by rw [hev, hr]; rfl⟩
  case spiece =>
    refine ⟨s.performSPiece_of_store tk ix pa, fun hk => State.wrote_of_byte_eq (s.byte_performSPiece_of_shadow tk ix pa hk),
      fun hk => ?_, fun r hk => ⟨fun h => State.wrote_of_byte_eq (s.byte_performSPiece_of_red tk ix pa hk h),
        s.performSPiece_of_partial tk ix pa hk⟩⟩
    obtain ⟨hword, hrest⟩ := State.wrote_of_byte_eq (s.byte_performSPiece_of_publish tk ix (x := x) pa hk)
    have hlt : (s.read pa 8 + 2) % 2 ^ 64 ^^^ 1 < 2 ^ 64 := Nat.xor_lt_two_pow (Nat.mod_lt _ (by decide)) (by decide)
    exact ⟨hword.trans (Nat.mod_eq_of_lt hlt), hrest⟩
  case flush =>
    subst hn
    have hx : e.pieces[0]? = some x := by rw [hp]; rfl
    have hmask : (e.pieces.any fun q => q.mask != 0) = (x.mask != 0) := by rw [hp, List.any_cons, List.any_nil, Bool.or_false]
    intro p h a calm ordered dirty
    have hflush (hk : e.k = .flush line) (ho : ordered = true) (ht : e.since = none) :
        exec (.storePerform tk e.u) s = .next (s.sendFlush tk e line) := by
      rw [exec_storePerform_of_flush hu he hx hs rfl hk, if_neg]
      simpa [ht] using ho
    have hinval (hk : e.k = .inval line) (ho : ordered = true) : exec (.storePerform tk e.u) s = .next (s.invalLine tk e line) := by
      rw [exec_storePerform_of_inval hu he hx hs rfl hk, if_neg]
      simpa using ho
    refine ⟨fun hk ho => ?_, fun hk ho ht => ⟨fun hl => ?_, fun hl hc => ?_, fun hl hc => ?_⟩,
      fun hk ho hm => ⟨fun hl => ?_, fun hl hd => ?_⟩, fun hk ho hm => ?_⟩
    · rcases hk with hk | hk
      · rw [exec_storePerform_of_flush hu he hx hs rfl hk, if_pos (.inr ho)]
      · rw [exec_storePerform_of_inval hu he hx hs rfl hk, if_pos ho]
    · rw [hflush hk ho ht, State.sendFlush_of_lost hl]
    · rw [hflush hk ho ht, State.sendFlush_of_busy hl hc]
    · exact (hflush hk ho ht).trans (congrArg _ (State.sendFlush_of_calm hl hc))
    · rw [hinval hk ho, State.invalLine_of_absent (hmask.trans (by simp [hm])) hl]
    · rw [hinval hk ho, State.invalLine_of_clean (hmask.trans (by simp [hm])) hl hd]
    · rw [hinval hk ho, State.invalLine_of_begun (hmask.trans (by simpa using hm))]
  case failed =>
    rw [State.failStore_of_single hs hu hp hk]
    exact ⟨by rw [State.thr_modThr], by rw [State.thr_modThr], rfl, fun k hk => s.thr_modThr_ne _ hk⟩
  case late =>
    exact ⟨fun hx => State.lateLoads_of_single hi hp park hl hx, fun hx => State.lateStores_of_single hi hp park hl hx⟩
  case watchdog =>
    exact ⟨fun h => congrArg _ (State.watchdog_of_none rfl h), fun tk t h => congrArg _ (State.watchdog_of_oldest rfl h)⟩
  case pool =>
    exact ⟨fun h => congrArg _ (State.poolFault_early h), fun tk n h hq hh hx => congrArg _ (State.poolFault_of_single h hq hh hx)⟩
  case room =>
    refine ⟨_, congrArg Host.Outcome.next (s.roomResume_eq ck half), fun g hg k hw hr => ?_, fun g hg hw => ?_⟩
    · exact List.mem_map.2 ⟨g, hg, State.roused_of_room hw hr⟩
    · exact List.mem_map.2 ⟨g, hg, State.roused_of_other hw⟩

end Sys2Proof.Machine
end

section
/-! SUPPORT. Index registers (R127, R138). -/

namespace Sys2Proof.Machine

/-- Index images that IXSET does not take: those with a bit above bit 29 or the mode 3. -/
theorem ixImage_illegal_iff (v : Word) :
    (field v.toNat 63 30 ≠ 0 ∨ field v.toNat 26 25 = 3) ↔ ¬(v.toNat < 2 ^ 30 ∧ v.toNat / 2 ^ 25 % 4 ≠ 3) := by
  have hv := v.isLt
  simp only [field]
  omega

/-- The position's two fields are what they are set to, and the others stay. -/
theorem ixFields_ixSetPos (x : BitVec 30) {cur sub : Nat} (hc : cur < 128) (hs : sub < 8) :
    ixFields (ixSetPos x cur sub) = { ixFields x with cur := cur, sub := sub } := by
  have hpos : (ixSetPos x cur sub).toNat = x.toNat / 2 ^ 7 % 2 ^ 20 * 2 ^ 7 + cur + sub * 2 ^ 27 := by
    simp only [ixSetPos, BitVec.toNat_ofNat, field]
    omega
  have hcur : field (ixSetPos x cur sub).toNat 6 0 = cur := by simp only [field, hpos]; omega
  have hbase : field (ixSetPos x cur sub).toNat 13 7 = field x.toNat 13 7 := by simp only [field, hpos]; omega
  have hbound : field (ixSetPos x cur sub).toNat 20 14 = field x.toNat 20 14 := by simp only [field, hpos]; omega
  have hstep : field (ixSetPos x cur sub).toNat 24 21 = field x.toNat 24 21 := by simp only [field, hpos]; omega
  have hmode : field (ixSetPos x cur sub).toNat 26 25 = field x.toNat 26 25 := by simp only [field, hpos]; omega
  have hsub : field (ixSetPos x cur sub).toNat 29 27 = sub := by simp only [field, hpos]; omega
  simp only [ixFields, hcur, hbase, hbound, hstep, hmode, hsub]

theorem ixFields_sub_lt (x : BitVec 30) : (ixFields x).sub < 8 := Nat.mod_lt _ (by decide)

/-- A width's elements fill a register, and there are at most eight. -/
theorem elements_pos_and_le (ew : Width) : 0 < 64 / wbits ew ∧ 64 / wbits ew ≤ 8 := by cases ew <;> decide

/-- Where IXADV moves to: the number of an element, or with 64-bit elements of a register, counted over 128 registers. -/
def ixPosition (v : IxV) (ew : Width) (a : Int) : Nat :=
  let n := 64 / wbits ew
  ((v.cur * n + (if ew = .w64 then 0 else v.sub : Nat) + a) % (128 * n : Nat)).toNat

theorem ixPosition_cast (v : IxV) (ew : Width) (a : Int) : (ixPosition v ew a : Int) =
    let n := 64 / wbits ew
    (v.cur * n + (if ew = .w64 then 0 else v.sub : Nat) + a) % (128 * n : Nat) := by
  have hn := elements_pos_and_le ew
  exact Int.toNat_of_nonneg (Int.emod_nonneg _ (by omega))

theorem ixPosition_lt (v : IxV) (ew : Width) (a : Int) : ixPosition v ew a < 128 * (64 / wbits ew) := by
  have hn := elements_pos_and_le ew
  rw [← Int.ofNat_lt, ixPosition_cast]
  exact Int.emod_lt_of_pos _ (by omega)

/-- The image that IXADV leaves: both fields move as one position, and with 64-bit elements the register alone does. -/
def ixMoved (x : BitVec 30) (ew : Width) (a : Int) : BitVec 30 :=
  let p := ixPosition (ixFields x) ew a
  ixSetPos x (p / (64 / wbits ew)) (if ew = .w64 then (ixFields x).sub else p % (64 / wbits ew))

/-- The index register names an element of the width. -/
def IxElement (v : IxV) (ew : Width) : Prop := ew = .w64 ∨ v.sub < 64 / wbits ew

theorem ixFields_ixMoved (x : BitVec 30) (ew : Width) (a : Int) : ixFields (ixMoved x ew a) =
    let p := ixPosition (ixFields x) ew a
    { ixFields x with cur := p / (64 / wbits ew), sub := if ew = .w64 then (ixFields x).sub else p % (64 / wbits ew) } := by
  obtain ⟨hpos, hle⟩ := elements_pos_and_le ew
  refine ixFields_ixSetPos x (Nat.div_lt_of_lt_mul (Nat.mul_comm _ _ ▸ ixPosition_lt ..)) ?_
  split
  · exact ixFields_sub_lt x
  · exact Nat.lt_of_lt_of_le (Nat.mod_lt _ hpos) hle

section
variable {x : BitVec 30} {ew : Width}

theorem ixAdvance_of_element (h : IxElement (ixFields x) ew) (a : Int) : ixAdvance x ew a = some (ixMoved x ew a) := by
  cases ew with
  | w64 => simp [ixAdvance, ixMoved, ixPosition, wbits]
  | w32 | w16 | w8 => exact if_neg (Nat.not_le.2 (h.resolve_left (by decide)))

theorem ixAdvance_of_no_element (h : ¬IxElement (ixFields x) ew) (a : Int) : ixAdvance x ew a = none := by
  obtain ⟨hw, hs⟩ := not_or.1 h
  cases ew with
  | w64 => contradiction
  | w32 | w16 | w8 => exact if_pos (Nat.not_lt.1 hs)

end

/-- Settles O21: IXSET by what its image holds, IXADV by whether its register names an element. -/
theorem indexRegisters : Obligations.IndexRegisters := by
  unfold Obligations.IndexRegisters
  intro w s hw b l ixs becomes
  refine ⟨fun ix a hu => ?ixset, fun ix d hu => ⟨_, w.completes_of hw hu rfl rfl, ?ixget⟩, fun ix a ew hu => ?ixadv⟩
  case ixset =>
    intro v
    have hbad := ixImage_illegal_iff l.a.w64
    split
    · rename_i hv
      refine w.completes_of hw hu rfl ((if_neg fun hf => hbad.1 hf hv).trans ?_)
      rw [BitVec.ofNat_toNat]
      rfl
    · rename_i hv
      exact w.faults_of hw hu rfl (if_pos (hbad.2 hv))
  case ixget => exact BitVec.toNat_setWidth_of_le (by decide)
  case ixadv =>
    intro x n p
    have hp : p = ixPosition x ew l.a.w64.toInt := (ixPosition_cast ..).symm
    split
    · rename_i he
      have hadv : ixAdvance (ixGet ((w.begun s).thr (w.lane s).tk).r.ix ix) ew (w.lane s).a.w64.toInt = _ :=
        ixAdvance_of_element he _
      refine ⟨_, w.completes_of hw hu rfl (by simp only [hadv]; rfl), ?_⟩
      rw [ixFields_ixMoved, hp]
      exact ⟨Int.natCast_ediv _ _, apply_ite Nat.cast .., rfl, rfl, rfl, rfl⟩
    · rename_i he
      have hadv : ixAdvance (ixGet ((w.begun s).thr (w.lane s).tk).r.ix ix) ew (w.lane s).a.w64.toInt = _ :=
        ixAdvance_of_no_element he _
      exact w.faults_of hw hu rfl (by simp only [hadv])

end Sys2Proof.Machine
end

section
/-! SUPPORT. The extended block and the shared blocks (R139 to R141, R143). -/

namespace Sys2Proof.Machine

/-- A word that waits until none of the registers of a mask is pending. -/
theorem Stand.completes_or_parks {w : Stand} {s : State} (h : w.Clear s) {u : Use} (hu : w.u = u) {ins : Instr}
    {body : State → Lane → Res} (he : exec ins s = word w.f u body s) {m : BitVec 64} {t : State}
    {f : State → Lane → Res} (hb : body (w.begun s) (w.lane s) = untilClear m f (w.begun s) (w.lane s))
    (hf : f (w.begun s) (w.lane s) = .ok t) :
    let p := ((w.begun s).thr w.tk).r.pendG &&& m
    if p = 0 then w.Completes s ins t else w.Parks s ins (.regs [(w.tk, p, 0)]) := by
  intro p
  split
  · rename_i hp
    exact w.completes_of h hu he (hb.trans ((if_neg (not_not.2 hp)).trans hf))
  · rename_i hp
    exact w.parks_of h hu he (hb.trans (if_pos hp))

/-- The word of XQRY as a number: its fields do not overlap. -/
theorem State.toNat_xqry {s : State} {tk : Nat} (h : (s.core (ckOf tk)).pool < 1024) : (s.xqry tk).toNat =
    (if (s.thr tk).xblk then 1 else 0) + (if (s.thr tk).shr.isSome then 1 else 0) * 2 + (s.thr tk).shr.getD 0 % 256 * 4
      + (s.core (ckOf tk)).pool * 2 ^ 16
      + min 1023 ((s.coreThreads (ckOf tk)).filter fun e => e.2.xwant && e.2.hold).length * 2 ^ 26 := by
  rw [State.xqry, BitVec.toNat_ofNat, Nat.mod_eq_of_lt]
  · split_ifs <;> rfl
  · split_ifs <;> omega

/-- What stands in the fields of XQRY's word. -/
theorem xqryFields {a b c p n x : Nat} (ha : a < 2) (hb : b < 2) (hc : c < 256) (hp : p < 1024)
    (hx : x = a + b * 2 + c * 4 + p * 2 ^ 16 + n * 2 ^ 26) :
    x % 2 = a ∧ x / 2 % 2 = b ∧ x / 4 % 256 = c ∧ x / 2 ^ 10 % 64 = 0 ∧ x / 2 ^ 16 % 1024 = p ∧ x / 2 ^ 26 = n := by
  omega

/-- Settles O22: each word by whether its thread holds a block and what of the block's registers is pending. -/
theorem registerBlocks : Obligations.RegisterBlocks := by
  unfold Obligations.RegisterBlocks
  intro w s hw b l t hi map
  have hlacks (hx : t.xblk = false) : (!t.xblk) = true := by rw [hx, Bool.not_false]
  have hheld (hx : t.xblk = true) : ¬(!t.xblk) = true := by rw [hx, Bool.not_true]; exact Bool.false_ne_true
  refine ⟨fun hu => ⟨w.completes_of hw hu rfl ?xacq, w.completes_or_parks hw hu rfl rfl rfl⟩,
    fun d hu hp => ⟨_, w.completes_of hw hu rfl rfl, ?xqry⟩, fun a hu => ⟨?mapsNothing, ?outside, ?shrmap⟩,
    fun hu => ⟨?unmapsNothing, ?shrunmap⟩⟩
  case xacq => exact (apply_ite Res.ok ..).symm
  case xqry =>
    have hbit (p : Prop) [Decidable p] : (if p then 1 else 0) < 2 := by split <;> decide
    exact xqryFields (hbit _) (hbit _) (Nat.mod_lt _ (by decide)) hp (State.toNat_xqry hp)
  case mapsNothing => exact fun hx => w.faults_of hw hu rfl (if_pos (hlacks hx))
  case outside => exact fun hx hk => w.faults_of hw hu rfl ((if_neg (hheld hx)).trans (if_pos hk))
  case shrmap =>
    exact fun hx hk => w.completes_or_parks hw hu rfl ((if_neg (hheld hx)).trans (if_neg (Nat.not_le.2 hk))) rfl
  case unmapsNothing => exact fun hx => w.faults_of hw hu rfl (if_pos (hlacks hx))
  case shrunmap => exact fun hx => w.completes_or_parks hw hu rfl (if_neg (hheld hx)) rfl

end Sys2Proof.Machine
end

section
/-! SUPPORT. RDFE and WRFE on shared registers (R136, R144). -/

namespace Sys2Proof.Machine

/-! ### The requests -/

/-- A word that a trailing copy performs in one way, and a leading copy or a thread of no pair in another. -/
theorem Stand.completes_by_copy {w : Stand} {s : State} (h : w.Clear s) {u : Use} (hu : w.u = u) {ins : Instr}
    {body : State → Lane → Res} (he : exec ins s = word w.f u body s) {tr : Bool} {a b : State}
    (hb : body (w.begun s) (w.lane s) = if tr then .ok a else .ok b) :
    (tr = true → w.Completes s ins a) ∧ (tr = false → w.Completes s ins b) :=
  ⟨fun ht => w.completes_of h hu he (hb.trans (if_pos ht)),
    fun ht => w.completes_of h hu he (hb.trans (if_neg (Bool.eq_false_iff.1 ht)))⟩

section
variable {s : State} {l : Lane} {n : BitVec 6}

section
variable (hn : ((l.src 0).bind fun x => x.reg) = some n)
include hn

theorem rdfeBody_of_unshared (h : s.sharedOf l.tk n = none) : rdfeBody s l = .fault { code := 0x02 } := by
  simp only [rdfeBody, hn, Option.bind_some, h]

theorem rdfeBody_of_shared {r : Nat} (h : s.sharedOf l.tk n = some r) : rdfeBody s l =
    if (s.thr l.tk).trails then .ok (s.pendNew l .copied 7).2
    else
      let t := (s.pendAs l (.rdfe r) l.r.d 7 (regsMask [n])).2
      .ok ((t.setShReg l.tk r { t.shReg l.tk r with rq := (t.shReg l.tk r).rq ++ [(l.tk, s.uid)] }).feCheck l.ck r) := by
  simp only [rdfeBody, hn, Option.bind_some, h]
  rfl

end

section
variable {ns : List (BitVec 6)} (hn : l.r.d.regs = n :: ns)
include hn

theorem wrfeBody_of_unshared (h : s.sharedOf l.tk n = none) : wrfeBody s l = .fault { code := 0x02 } := by
  simp only [wrfeBody, hn, List.head?_cons, Option.bind_some, h]

theorem wrfeBody_of_shared {r : Nat} (h : s.sharedOf l.tk n = some r) : wrfeBody s l =
    if (s.thr l.tk).trails then .ok s
    else
      let t := (s.pendNew l (.wrfe r l.a.w64) 7).2
      .ok ((t.setShReg l.tk r { t.shReg l.tk r with wq := (t.shReg l.tk r).wq ++ [(l.tk, s.uid)] }).feCheck l.ck r) := by
  simp only [wrfeBody, hn, List.head?_cons, Option.bind_some, h]
  rfl

end

end

/-! ### Service -/

/-- A shared register of a core as it is set to. -/
def State.putSh (s : State) (ck r : Nat) (x : ShReg) : State := s.modCore ck fun c => { c with shr := Tab.put c.shr r x }

@[simp] theorem State.look_putSh (s : State) (ck r : Nat) (x : ShReg) : Tab.look ((s.putSh ck r x).core ck).shr r = some x := by
  simp [State.putSh]

/-- A request of a thread that has ended is no longer kept. -/
def State.dropOrph (s : State) (tk u : Nat) : State :=
  s.modThr tk fun t => { t with orph := t.orph.filter fun p => p.u != u }

@[simp] theorem State.core_dropOrph (s : State) (tk u k : Nat) : (s.dropOrph tk u).core k = s.core k := rfl

theorem State.pend_dropOrph (s : State) (tk u : Nat) : ((s.dropOrph tk u).thr tk).pend = (s.thr tk).pend := by
  rw [State.dropOrph, State.thr_modThr]

/-- What a request waits for, in a thread that lives or in one that has ended. -/
def State.waiting (s : State) (tk u : Nat) : Option Pend :=
  (s.thr tk).pendAt u <|> (s.thr tk).orph.find? fun p => p.u == u

section
variable {s : State} {ck r tk u : Nat} {x : ShReg} {rest : List (Nat × Nat)} (hx : Tab.look (s.core ck).shr r = some x) (n : Nat)

section
include hx

theorem State.feServe_full {p : Pend} (hf : x.full = true) (hq : x.rq = (tk, u) :: rest) (hp : s.waiting tk u = some p)
    {i : Nat} (hk : p.k = .rdfe i) : s.feServe ck r (n + 1) =
      State.feServe (((s.putSh ck r { x with full := false, rq := rest }).deliverOut tk u [x.v.cur] none).dropOrph tk u) ck r n := by
  obtain ⟨_, _, k, _⟩ := p
  subst hk
  unfold State.waiting at hp
  simp only [State.feServe, Tab.getOr, hx, Option.getD_some, hf, if_true, hq, hp]
  rfl

theorem State.feServe_empty {p : Pend} (hf : x.full = false) (hq : x.wq = (tk, u) :: rest) (hp : s.waiting tk u = some p)
    {i : Nat} {v : Word} (hk : p.k = .wrfe i v) : s.feServe ck r (n + 1) =
      let y := { x with full := true, wq := rest, v := x.v.writeBy s.clock 0 v, psn := none, prov := none }
      State.feServe (((s.putSh ck r y).endPend tk u).dropOrph tk u) ck r n := by
  obtain ⟨_, _, k, _⟩ := p
  subst hk
  unfold State.waiting at hp
  simp only [State.feServe, Tab.getOr, hx, Option.getD_some, hf, Bool.false_eq_true, if_false, hq, hp]
  rfl

theorem State.feServe_full_gone (hf : x.full = true) (hq : x.rq = (tk, u) :: rest) (hp : s.waiting tk u = none) :
    s.feServe ck r (n + 1) = (s.putSh ck r { x with rq := rest }).feServe ck r n := by
  unfold State.waiting at hp
  simp only [State.feServe, Tab.getOr, hx, Option.getD_some, hf, if_true, hq, hp]
  rfl

theorem State.feServe_empty_gone (hf : x.full = false) (hq : x.wq = (tk, u) :: rest) (hp : s.waiting tk u = none) :
    s.feServe ck r (n + 1) = (s.putSh ck r { x with wq := rest }).feServe ck r n := by
  unfold State.waiting at hp
  simp only [State.feServe, Tab.getOr, hx, Option.getD_some, hf, Bool.false_eq_true, if_false, hq, hp]
  rfl

theorem State.feCheck_of_idle (h : (x.full = true ∧ x.rq = []) ∨ (x.full = false ∧ x.wq = [])) : s.feCheck ck r = s := by
  rcases h with ⟨hf, hq⟩ | ⟨hf, hq⟩
  · simp only [State.feCheck, State.feServe, Tab.getOr, hx, Option.getD_some, hf, hq, if_true]
  · simp only [State.feCheck, State.feServe, Tab.getOr, hx, Option.getD_some, hf, hq, Bool.false_eq_true, if_false]

end

theorem State.waiting_of_pendAt {p : Pend} (h : (s.thr tk).pendAt u = some p) : s.waiting tk u = some p := by
  rw [State.waiting, h]; rfl

theorem State.waiting_eq_none (h : (s.thr tk).pendAt u = none) (ho : (s.thr tk).orph.find? (fun p => p.u == u) = none) :
    s.waiting tk u = none := by
  rw [State.waiting, h, ho]; rfl

end

/-- The operation of a name, once it has been replaced by another. -/
theorem Thread.pendAt_setPend {t : Thread} {u : Nat} {p q : Pend} (h : t.pendAt u = some p) (hq : q.u = u) :
    (t.setPend q).pendAt u = some q := by
  subst hq
  have hname : (fun x : Pend => x.u == q.u) ∘ (fun x => if x.u = q.u then q else x) = fun x => x.u == q.u := by
    funext x
    by_cases hx : x.u = q.u <;> simp [hx]
  have hp : p.u = q.u := by simpa using List.find?_some h
  unfold Thread.pendAt at h
  rw [Thread.pendAt, Thread.setPend, List.find?_map, hname, h, Option.map_some, if_pos hp]

theorem State.pendAt_passLate (s : State) (tk u : Nat) (v : PairVal) :
    ((s.passLate tk v).thr tk).pendAt u = (s.thr tk).pendAt u := by
  rw [State.passLate, State.modPair, State.thr_modThr, Thread.pendAt, Thread.pendAt]

section
variable {s : State} {tk u : Nat} {p : Pend} (h : (s.thr tk).pendAt u = some p)
include h

theorem State.pendAt_deliver (v : Word) (b : Option Bool) :
    ((s.deliver tk u v b).thr tk).pendAt u = some { p with k := .value v b } := by
  have hu : p.u = u := by simpa using List.find?_some h
  simp only [State.deliver, State.thr_modThr, h]
  exact Thread.pendAt_setPend h hu

theorem State.pendAt_deliverOut (v : List Word) (b : Option Bool) :
    ((s.deliverOut tk u v b).thr tk).pendAt u = some { p with k := .value (v.headD 0) b } := by
  simp only [State.deliverOut, h, State.pendAt_passLate, State.pendAt_deliver h]

theorem State.pend_endPend : ((s.endPend tk u).thr tk).pend = ((s.thr tk).dropPend u).pend := by
  simp only [State.endPend, State.thr_modThr, h]
  rfl

end

theorem State.core_deliverOut (s : State) (tk u : Nat) (v : List Word) (b : Option Bool) (k : Nat) :
    (s.deliverOut tk u v b).core k = s.core k := by
  unfold State.deliverOut
  split <;> rfl

/-- Settles O23: the requests by whether the operand names a shared register and by the copy, a register's service by what stands
first in its queue. -/
theorem fullEmptyAccess : Obligations.FullEmptyAccess := by
  unfold Obligations.FullEmptyAccess
  refine ⟨fun w s o hu hw => ?requests, fun s ck r x hx => ⟨fun tk u rest p hf hq hp hk n => ?full,
    fun tk u rest p v hf hq hp hk n => ?empty, fun tk u rest hp ho n => ?gone, State.feCheck_of_idle hx⟩⟩
  case requests =>
    intro b l tr
    exact ⟨fun n r hn hr => w.completes_by_copy hw hu rfl (rdfeBody_of_shared (s := b) hn hr),
      fun n hn hr => w.faults_of hw hu rfl (rdfeBody_of_unshared hn hr),
      fun n ns hn => ⟨fun r hr => w.completes_by_copy hw hu rfl (wrfeBody_of_shared (s := b) hn hr),
        fun hr => w.faults_of hw hu rfl (wrfeBody_of_unshared hn hr)⟩⟩
  case full =>
    have hserve := State.feServe_full hx n hf hq (State.waiting_of_pendAt hp) hk
    have hpend := State.pendAt_deliverOut (s := s.putSh ck r { x with full := false, rq := rest }) hp [x.v.cur] none
    refine ⟨_, hserve, ?_, { p with k := .value x.v.cur none }, ?_, rfl, rfl⟩
    · rw [State.core_dropOrph, State.core_deliverOut, State.look_putSh]
    · rwa [Thread.pendAt, State.pend_dropOrph]
  case empty =>
    have hserve := State.feServe_empty hx n hf hq (State.waiting_of_pendAt hp) hk
    refine ⟨_, hserve, State.look_putSh s ck r _, (State.pend_dropOrph ..).trans (State.pend_endPend hp), fun k hne => ?_, rfl⟩
    exact (State.thr_modThr_ne _ _ hne).trans (State.thr_modThr_ne _ _ hne)
  case gone =>
    have hgone := State.waiting_eq_none hp ho
    exact ⟨fun hf hq => State.feServe_full_gone hx n hf hq hgone, fun hf hq => State.feServe_empty_gone hx n hf hq hgone⟩

end Sys2Proof.Machine
end

section
/-! SUPPORT. Exact results of elements, clamped and cut to the width (R145, R150 to R153). -/

namespace Sys2Proof.Machine

/-- A fixed-latency word writes its result. -/
theorem Stand.writes_of {w : Stand} {s : State} (h : w.Clear s) {u : Use} (hu : w.u = u) {ins : Instr} {v : Lane → Word}
    (he : exec ins s = compute w.f u v s) {P : Word → Prop} (hp : P (v (w.lane s))) : w.Writes s ins P :=
  ⟨_, w.completes_of h hu he rfl, hp⟩

theorem remElem_eq (a b : Int) : remElem a b = if b = 0 then a else a.tmod b := by
  rw [remElem, Int.tmod_def, Int.mul_comm b]

theorem natAbs_eq_ite (a : Int) : (if a < 0 then -a else a) = a.natAbs := by split <;> omega

theorem natAbs_sub_eq_ite (a b : Int) : (if a < b then b - a else a - b) = (a - b).natAbs := by split <;> omega

/-- Settles O1: each word's exact result, element by element. -/
theorem integerElements : Obligations.IntegerElements := by
  unfold Obligations.IntegerElements
  refine ⟨fun w s m o hu hw => ?two, fun w s m o hu hw => ?one, fun w s m o hu hw => ?three⟩
  case two =>
    refine ⟨w.writes_of hw hu rfl fun k hk => ?_, w.writes_of hw hu rfl fun k hk => ?_, w.writes_of hw hu rfl fun k hk => ?_,
      w.writes_of hw hu rfl fun k hk => ?_, w.writes_of hw hu rfl fun k hk => ?_, w.writes_of hw hu rfl fun k hk => ?rem,
      w.writes_of hw hu rfl fun k hk => ?min, w.writes_of hw hu rfl fun k hk => ?max⟩
    case rem => rw [elem_imap2 _ _ _ hk, remElem_eq]
    case min => rw [elem_imap2 _ _ _ hk, ← min_def_lt']
    case max => rw [elem_imap2 _ _ _ hk, ← max_def_lt]
    all_goals exact elem_imap2 _ _ _ hk
  case one =>
    refine ⟨w.writes_of hw hu rfl fun k hk => ?abs, w.writes_of hw hu rfl fun k hk => elem_imap1 _ _ hk⟩
    rw [elem_imap1 _ _ hk, natAbs_eq_ite]
  case three =>
    refine ⟨w.writes_of hw hu rfl fun k hk => elem_imap3 _ _ _ _ hk, w.writes_of hw hu rfl fun k hk => ?sad,
      w.writes_of hw hu rfl fun k hk => ?clamp⟩
    case sad => rw [elem_imap3 _ _ _ _ hk, natAbs_sub_eq_ite]
    case clamp => simp only [elem_imap3 _ _ _ _ hk, ← max_def_lt, ← min_def_lt']

end Sys2Proof.Machine
end

section
/-! SUPPORT. Widening products, and sums with a status predicate (R150, R151). -/

namespace Sys2Proof.Machine

/-- Two narrow elements lie where one of twice the width does. -/
theorem elements_twice (n : Nat) : 64 / (2 * n) = 64 / n / 2 := by rw [Nat.div_div_eq_div_mul, Nat.mul_comm]

theorem elem_madWide {m : IMod} {a b c : RV} {j : Nat} (hj : j < 64 / wbits m.w / 2) :
    let n := wbits m.w
    let i := j + if m.sat then 64 / n / 2 else 0
    elem (madWide m a b c) (2 * n) j = wrap (2 * n) (toInt n m.sgn (uAt n a i) * toInt n m.sgn (uAt n b i)
      + toInt (2 * n) m.sgn (uAt (2 * n) c j)) := by
  intro n i
  rw [madWide, elem_mkElems _ ((elements_twice n).symm ▸ hj), wrap_mod]
  rfl

/-- The exact sum of one 32-bit element: the element of C and `per` products of elements of width `w` (R151). -/
def dotSum (sgn : Bool) (w per : Nat) (a b c : RV) (h : Nat) : Int :=
  toInt 32 sgn (uAt 32 c h) + ((List.range per).map fun j =>
    toInt w sgn (uAt w a (per * h + j)) * toInt w sgn (uAt w b (per * h + j))).sum

theorem elem_dot {m : IMod} {w per h : Nat} (a b c : RV) (hh : h < 2) : elem (dot m w per a b c) 32 h =
    wrap 32 (if m.sat then satInt 32 m.sgn (dotSum m.sgn w per a b c h) else dotSum m.sgn w per a b c h) := by
  rw [dot, elem_mkElems _ hh, wrap_mod]
  rfl

theorem anyOverflow_iff (m : IMod) (op : Int → Int → Int) (a b : RV) : anyOverflow m op a b = true ↔
    ∃ k, k < 64 / wbits m.w ∧ satInt (wbits m.w) m.sgn (op (sAt m a k) (sAt m b k)) ≠ op (sAt m a k) (sAt m b k) := by
  simp only [anyOverflow, List.any_eq_true, List.mem_range, bne_iff_ne]
  rfl

/-- A sum with a status wraps whatever the saturate bit is. -/
theorem elem_imap2_unsat {m : IMod} (op : Int → Int → Int) (a b : RV) {k : Nat} (hk : k < 64 / wbits m.w) :
    elem (imap2 { m with sat := false } op a b) (wbits m.w) k = wrap (wbits m.w) (op (sAt m a k) (sAt m b k)) :=
  elem_imap2 (m := { m with sat := false }) op a b hk

/-- Settles O2: the products by their element lemmas, and each status by what makes it true. -/
theorem productsAndStatus : Obligations.ProductsAndStatus := by
  unfold Obligations.ProductsAndStatus
  refine ⟨fun w s m o hu hw => ⟨fun _ => w.writes_of hw hu rfl fun j hj => elem_madWide hj,
    w.writes_of hw hu rfl fun h hh => ?dot4, w.writes_of hw hu rfl fun h hh => ?dot2⟩, fun w s m o pe pc hw => ?status⟩
  case dot4 | dot2 => simp [elem_dot _ _ _ hh, dotSum, List.range_succ, Int.add_assoc]
  case status =>
    refine ⟨fun hu => ⟨⟨_, _, w.completes_of hw hu rfl rfl, ?_⟩, ⟨_, _, w.completes_of hw hu rfl rfl, ?_⟩⟩,
      fun hu => ⟨_, _, w.completes_of hw hu rfl rfl, fun k hk => elem_mkElems _ hk, decide_eq_true_iff⟩⟩
    all_goals exact ⟨fun k hk => elem_imap2_unsat _ _ _ hk, anyOverflow_iff ..⟩

end Sys2Proof.Machine
end

section
/-! SUPPORT. Moves, bitwise logic, and what special registers, immediates and literals read as (R59, R60, R155, R156). -/

namespace Sys2Proof.Machine

/-! ### Operands that are no registers -/

section
variable {s : State} {tk : Nat} {x : RSrc}

theorem State.value_spec {k : Special} (h : x.opd = .spec k) : (s.value tk x).w64 = BitVec.ofNat 64 (s.special tk k) := by
  simp only [State.value, h]
  cases k <;> rfl

theorem State.value_imm {k : Fin 31} (h : x.opd = .imm k) : (s.value tk x).w64 = BitVec.ofInt 64 ((k.val : Int) - 15) := by
  simp only [State.value, h]
  rfl

theorem State.value_lit {v : Word} (h : x.opd = .lit v) : (s.value tk x).w64 = BitVec.ofNat 64 v.toNat := by
  simp only [State.value, h, BitVec.ofNat_toNat, BitVec.setWidth_eq]
  rfl

theorem State.special_of_no_group (h : (s.thr tk).grp = none) :
    s.special tk .rank = 2 ^ 64 - 1 ∧ s.special tk .gsize = 0 := by
  simp only [State.special, State.grpOf, h, and_self]

theorem State.special_rank {e sn r : Nat} (h : (s.thr tk).grp = some (e, sn, r)) : s.special tk .rank = r := by
  simp only [State.special, h]

theorem State.special_gsize {e sn r : Nat} (h : (s.thr tk).grp = some (e, sn, r)) {g : Grp}
    (hg : Tab.look (s.core (ckOf tk)).grps e = some g) : s.special tk .gsize = g.ranks.length := by
  simp only [State.special, State.grpOf, h, hg]

theorem State.special_of_launch {lk : Nat} {la : Launch} (h : (s.thr tk).launch = some lk)
    (hl : Tab.look s.launches lk = some la) :
    s.special tk .launch = la.handle.toNat ∧ s.special tk .gen = la.gen.toNat ∧ s.special tk .ntid = la.ntid := by
  simp only [State.special, State.launch?, h, Option.bind_some, hl, and_self]

theorem State.special_clock (h : (s.thr tk).pair = none) : s.special tk .clock = s.clockOf (pkgOfThr tk) := by
  simp only [State.special, State.pairSrc, h, Option.bind_none]

end

/-! ### Bits -/

theorem toInt_toNat (x : BitVec 28) (sgn : Bool) : toInt 28 sgn x.toNat = if sgn then x.toInt else x.toNat := by
  rw [toInt, BitVec.toInt_eq_toNat_cond]
  cases sgn
  · rfl
  · simp only [Bool.true_and, decide_eq_true_eq, if_true]
    split_ifs <;> omega

theorem toNat_low_append_low (a b : Word) :
    ((b.setWidth 32 : BitVec 32) ++ (a.setWidth 32 : BitVec 32)).toNat = a.toNat % 2 ^ 32 + b.toNat % 2 ^ 32 * 2 ^ 32 := by
  have ha : (a.setWidth 32).toNat < 2 ^ 32 := BitVec.isLt _
  rw [BitVec.toNat_append, ← Nat.shiftLeft_add_eq_or_of_lt ha, BitVec.toNat_setWidth, BitVec.toNat_setWidth, Nat.shiftLeft_eq,
    Nat.add_comm]

theorem toNat_add_shiftLeft (a b : Word) (n : Nat) : (a + b <<< n).toNat = (a.toNat + b.toNat * 2 ^ n) % 2 ^ 64 := by
  rw [BitVec.toNat_add, BitVec.toNat_shiftLeft, Nat.shiftLeft_eq, Nat.add_mod_mod]

/-- Of the eight terms of BFN3 one is chosen by the three bits at a position: that of the table's bit A + 2B + 4C (R156). -/
theorem getLsbD_bfn3 (tab : BitVec 8) (a b c : Word) {i : Nat} (hi : i < 64) : (bfn3 tab a b c).getLsbD i =
    tab.getLsbD ((if a.getLsbD i then 1 else 0) + 2 * (if b.getLsbD i then 1 else 0) + 4 * if c.getLsbD i then 1 else 0) := by
  have hpick (p : Bool) (m : Word) : (if p then m else 0).getLsbD i = (p && m.getLsbD i) := by cases p <;> simp
  simp only [bfn3, BitVec.getLsbD_or, hpick, BitVec.getLsbD_and, BitVec.getLsbD_not, hi, decide_true, Bool.true_and]
  cases a.getLsbD i <;> cases b.getLsbD i <;> cases c.getLsbD i <;> simp

theorem getLsbD_and_not (a b : Word) {i : Nat} (hi : i < 64) : (a &&& ~~~b).getLsbD i = (a.getLsbD i && !b.getLsbD i) := by
  rw [BitVec.getLsbD_and, BitVec.getLsbD_not, decide_eq_true hi, Bool.true_and]

/-- Settles O3: each word by the bits or the number of its result, each operand by what the thread gives for it. -/
theorem movesAndLogic : Obligations.MovesAndLogic := by
  unfold Obligations.MovesAndLogic
  refine ⟨⟨fun w s o hu hw => w.writes_of hw hu rfl rfl, fun w s m d imm hu hw => w.writes_of hw hu rfl fun k hk => ?movi,
      fun w s o sh hu hw => ⟨w.writes_of hw hu rfl (toNat_low_append_low ..), w.writes_of hw hu rfl (toNat_add_shiftLeft ..)⟩,
      fun w s o pc hu hw => ⟨_, w.completes_of hw hu rfl rfl, rfl⟩, fun s tk x => ?operands⟩,
    fun w s o hu hw => ?two, fun w s o hu hw => w.writes_of hw hu rfl fun i hi => ?not,
    fun w s o tab hu hw => w.writes_of hw hu rfl fun i hi => getLsbD_bfn3 _ _ _ _ hi⟩
  case movi => rw [elem_mkElems _ hk, wrap_mod, toInt_toNat]
  case operands =>
    intro t p own as
    have hspec {k : Special} {n : Nat} (hk : s.special tk k = n) : as (.spec k) n := fun hx => hk ▸ State.value_spec hx
    refine ⟨hspec rfl, hspec rfl, hspec rfl, hspec rfl, hspec rfl, hspec rfl, hspec rfl, hspec rfl, hspec rfl, hspec rfl,
      fun hg => ?ungrouped, fun e sn r hg => ⟨hspec (State.special_rank hg), fun g hl => hspec (State.special_gsize hg hl)⟩,
      fun lk la ht hl => ?launched, fun hp => hspec (State.special_clock hp), fun k hx => State.value_imm hx,
      fun v hx => State.value_lit hx⟩
    case ungrouped =>
      obtain ⟨hrank, hsize⟩ := State.special_of_no_group hg
      exact ⟨hspec hrank, hspec hsize⟩
    case launched =>
      obtain ⟨hhandle, hgen, hn⟩ := State.special_of_launch ht hl
      exact ⟨hspec hhandle, hspec hgen, hspec hn⟩
  case two =>
    exact ⟨w.writes_of hw hu rfl fun i _ => BitVec.getLsbD_and, w.writes_of hw hu rfl fun i _ => BitVec.getLsbD_or,
      w.writes_of hw hu rfl fun i _ => BitVec.getLsbD_xor, w.writes_of hw hu rfl fun i hi => getLsbD_and_not _ _ hi⟩
  case not => rw [BitVec.getLsbD_not, decide_eq_true hi, Bool.true_and]

end Sys2Proof.Machine
end

section
/-! SUPPORT. Shifts, rotates and funnel shifts of elements (R157). -/

namespace Sys2Proof.Machine

section
variable {n a x : Nat} (ha : a < 2 ^ n)

theorem shlElem_mod : shlElem n a x % 2 ^ n = if x < n then a * 2 ^ x % 2 ^ n else 0 := by
  rw [shlElem, apply_ite (· % 2 ^ n), Nat.zero_mod]

theorem sarElem_mod : sarElem n a x % 2 ^ n = sarElem n a x := by
  refine Nat.mod_eq_of_lt ?_
  simp only [sarElem]
  split_ifs
  · exact wrap_lt ..
  · exact Nat.sub_lt (Nat.two_pow_pos n) Nat.one_pos
  · exact Nat.two_pow_pos n

include ha

theorem shrElem_mod : shrElem n a x % 2 ^ n = shrElem n a x := by
  refine Nat.mod_eq_of_lt ?_
  rw [shrElem]
  split_ifs
  · exact (Nat.div_le_self ..).trans_lt ha
  · exact Nat.two_pow_pos n

/-- A rotation by `x` puts the high part, of `n - x` bits, below the low part, which is moved up. -/
theorem rotation_lt (hx : x ≤ n) : a / 2 ^ x + a * 2 ^ (n - x) % 2 ^ n < 2 ^ n := by
  have hn : 2 ^ n = 2 ^ x * 2 ^ (n - x) := by rw [← Nat.pow_add, Nat.add_sub_cancel' hx]
  have hhigh : a / 2 ^ x < 2 ^ (n - x) := Nat.div_lt_of_lt_mul (hn ▸ ha)
  have hlow : a % 2 ^ x + 1 ≤ 2 ^ x := Nat.mod_lt _ (Nat.two_pow_pos x)
  calc a / 2 ^ x + a * 2 ^ (n - x) % 2 ^ n
      = a / 2 ^ x + a % 2 ^ x * 2 ^ (n - x) := by rw [hn, Nat.mul_mod_mul_right]
    _ < 2 ^ (n - x) + a % 2 ^ x * 2 ^ (n - x) := Nat.add_lt_add_right hhigh _
    _ = (a % 2 ^ x + 1) * 2 ^ (n - x) := by rw [Nat.succ_mul, Nat.add_comm]
    _ ≤ 2 ^ n := hn ▸ Nat.mul_le_mul_right _ hlow

variable (hn : 0 < n)
include hn

theorem rorElem_mod : rorElem n a x % 2 ^ n = rorElem n a x :=
  Nat.mod_eq_of_lt (rotation_lt ha (Nat.mod_lt x hn).le)

theorem rolElem_mod : rolElem n a x % 2 ^ n = rolElem n a x := by
  have hx : x % n ≤ n := (Nat.mod_lt x hn).le
  have hlt := rotation_lt ha (Nat.sub_le n (x % n))
  rw [Nat.sub_sub_self hx, Nat.add_comm] at hlt
  exact Nat.mod_eq_of_lt hlt

end

theorem uAt_lt (n : Nat) (v : RV) (k : Nat) : uAt n v k < 2 ^ n := elem_lt ..

theorem wbits_pos (ew : Width) : 0 < wbits ew := by cases ew <;> decide

/-- Settles O4: no shift but SHL and FSHF needs cutting, since its result fits in the element. -/
theorem shifts : Obligations.Shifts := by
  unfold Obligations.Shifts
  refine ⟨fun w s m o hu hw => ?two, fun w s m o hu hw => w.writes_of hw hu rfl fun k hk => elem_umap3 _ _ _ _ hk⟩
  intro n a x els sa
  have ha (k : Nat) : a k < 2 ^ n := uAt_lt ..
  have hn : 0 < n := wbits_pos m.w
  exact ⟨w.writes_of hw hu rfl fun k hk => (elem_umap2 _ _ _ hk).trans shlElem_mod,
    w.writes_of hw hu rfl fun k hk => (elem_umap2 _ _ _ hk).trans (shrElem_mod (ha k)),
    w.writes_of hw hu rfl fun k hk => (elem_umap2 _ _ _ hk).trans sarElem_mod,
    w.writes_of hw hu rfl fun k hk => (elem_umap2 _ _ _ hk).trans (rolElem_mod (ha k) hn),
    w.writes_of hw hu rfl fun k hk => (elem_umap2 _ _ _ hk).trans (rorElem_mod (ha k) hn)⟩

end Sys2Proof.Machine
end

section
/-! SUPPORT. Counts, reversal, bit fields and the permutation of bytes (R158 to R160). -/

namespace Sys2Proof.Machine

section
variable {n a : Nat}

/-! ### Counts -/

theorem mod_two_pow_of_le {e : Nat} (h : e ≤ n) : e % 2 ^ n = e := Nat.mod_eq_of_lt (h.trans_lt Nat.lt_two_pow_self)

theorem popElem_le : popElem n a ≤ n := (List.length_filter_le ..).trans_eq List.length_range

/-- Above the highest set bit there are only zeros. -/
theorem clzElem_spec (ha : a < 2 ^ n) : clzElem n a ≤ n ∧ a < 2 ^ (n - clzElem n a) ∧
    (clzElem n a < n → a.testBit (n - 1 - clzElem n a) = true) := by
  rcases Nat.eq_zero_or_pos a with rfl | hpos
  · simp [clzElem]
  · have hlog : a.log2 < n := (Nat.log2_lt hpos.ne').2 ha
    have hclz : clzElem n a = n - 1 - a.log2 := if_neg hpos.ne'
    have hup : n - clzElem n a = a.log2 + 1 := by omega
    have hbit : n - 1 - clzElem n a = a.log2 := by omega
    exact ⟨by omega, hup ▸ Nat.lt_log2_self, fun _ => hbit ▸ Nat.testBit_log2 hpos.ne'⟩

theorem ctzElem_eq_findIdx : ctzElem n a = (List.range n).findIdx fun k => a.testBit k := by
  have hle : (List.range n).findIdx (fun k => a.testBit k) ≤ n := by
    simpa using List.findIdx_le_length (xs := List.range n) (p := fun k => a.testBit k)
  simp [ctzElem, List.takeWhile_eq_take_findIdx_not, hle]

/-- Below the lowest set bit there are only zeros. -/
theorem ctzElem_spec : ctzElem n a ≤ n ∧ (∀ j, j < ctzElem n a → a.testBit j = false) ∧
    (ctzElem n a < n → a.testBit (ctzElem n a) = true) := by
  rw [ctzElem_eq_findIdx]
  refine ⟨List.findIdx_le_length.trans_eq List.length_range, fun j hj => ?_, fun hlt => ?_⟩
  · simpa using List.not_of_lt_findIdx hj
  · simpa using List.findIdx_getElem (w := hlt.trans_eq List.length_range.symm)

/-! ### Reversal -/

/-- The lowest bit becomes the highest, above the reversal of the rest. -/
theorem brevElem_succ (n a : Nat) : brevElem (n + 1) a = 2 ^ n * (a.testBit 0).toNat + brevElem n (a / 2) := by
  simp only [brevElem, List.range_succ_eq_map, List.map_cons, List.sum_cons, List.map_map]
  congr 1
  · cases a.testBit 0 <;> simp
  · refine congrArg List.sum (List.map_congr_left fun k _ => ?_)
    simp only [Function.comp, Nat.succ_eq_add_one, Nat.testBit_add_one, Nat.add_sub_cancel]
    congr 2
    omega

theorem brevElem_lt (n a : Nat) : brevElem n a < 2 ^ n := by
  induction n generalizing a with
  | zero => simp [brevElem]
  | succ n ih =>
    have hbit : 2 ^ n * (a.testBit 0).toNat ≤ 2 ^ n * 1 := Nat.mul_le_mul_left _ (Bool.toNat_le _)
    have hrest := ih (a / 2)
    rw [brevElem_succ, Nat.pow_succ]
    omega

theorem testBit_brevElem {j : Nat} (hj : j < n) : (brevElem n a).testBit (n - 1 - j) = a.testBit j := by
  induction n generalizing a j with
  | zero => omega
  | succ n ih =>
    rw [brevElem_succ, Nat.testBit_two_pow_mul_add _ (brevElem_lt n (a / 2))]
    cases j with
    | zero =>
      rw [if_neg (by omega), show n + 1 - 1 - 0 - n = 0 by omega]
      cases a.testBit 0 <;> rfl
    | succ j =>
      have hpos : n + 1 - 1 - (j + 1) = n - 1 - j := by omega
      rw [if_pos (by omega), hpos, ih (by omega), Nat.testBit_add_one]

/-! ### Bit fields -/

theorem bfxElem_eq (n : Nat) (sgn : Bool) (a b c : Nat) : bfxElem n sgn a b c =
    let len := min c n
    let x : Int := toInt n sgn a / 2 ^ min b n % 2 ^ len
    wrap n (if sgn = true ∧ 0 < len ∧ len < n ∧ 2 ^ (len - 1) ≤ x then x - 2 ^ len else x) := by
  simp only [bfxElem, Bool.and_eq_true, decide_eq_true_eq, and_assoc]

/-- The bits below a field, the field, and the bits above it stand side by side. -/
theorem testBit_replaced (a b p k j : Nat) : (a % 2 ^ p + b % 2 ^ k * 2 ^ p + a / 2 ^ (p + k) * 2 ^ (p + k)).testBit j =
    if p ≤ j ∧ j < p + k then b.testBit (j - p) else a.testBit j := by
  have hbelow : a % 2 ^ p < 2 ^ p := Nat.mod_lt _ (Nat.two_pow_pos p)
  have hfield : b % 2 ^ k + 1 ≤ 2 ^ k := Nat.mod_lt _ (Nat.two_pow_pos k)
  have hlow : 2 ^ p * (b % 2 ^ k) + a % 2 ^ p < 2 ^ (p + k) := by
    calc 2 ^ p * (b % 2 ^ k) + a % 2 ^ p < 2 ^ p * (b % 2 ^ k) + 2 ^ p := Nat.add_lt_add_left hbelow _
      _ ≤ 2 ^ (p + k) := Nat.pow_add .. ▸ Nat.mul_le_mul_left _ hfield
  rw [Nat.add_comm (a % 2 ^ p), Nat.mul_comm (b % 2 ^ k), Nat.add_comm _ (_ / _ * _), Nat.mul_comm (a / _),
    Nat.testBit_two_pow_mul_add _ hlow, Nat.testBit_two_pow_mul_add _ hbelow, Nat.testBit_mod_two_pow, Nat.testBit_mod_two_pow,
    Nat.testBit_div_two_pow]
  rcases lt_or_ge j p with hj | hj
  · simp [hj, Nat.lt_add_right k hj, Nat.not_le.2 hj]
  · rcases lt_or_ge j (p + k) with hk | hk
    · simp [hj, hk, Nat.not_lt.2 hj, Nat.sub_lt_left_of_lt_add hj hk]
    · simp [Nat.not_lt.2 hk, Nat.sub_add_cancel hk]

/-- A field that would run past the element is cut off there. -/
theorem testBit_bfiElem {b p len j : Nat} (hj : j < n) : (bfiElem n a b p len).testBit j =
    if p ≤ j ∧ j < p + len then b.testBit (j - p) else a.testBit j := by
  rw [bfiElem]
  split_ifs with hp hin hin
  · omega
  · rfl
  · exact (testBit_replaced ..).trans (if_pos (by omega))
  · exact (testBit_replaced ..).trans (if_neg (by omega))

end

/-- Settles O5: each count by its bounds and the bits it speaks of, the fields and bytes by the elements they are built from. -/
theorem bitFields : Obligations.BitFields := by
  unfold Obligations.BitFields
  refine ⟨fun w s m o hu hw => ⟨w.writes_of hw hu rfl fun k hk => ?popc, w.writes_of hw hu rfl fun k hk => ?clz,
      w.writes_of hw hu rfl fun k hk => ?ctz, w.writes_of hw hu rfl fun k hk => ?brev⟩,
    fun w s m o hu hw => w.writes_of hw hu rfl fun k hk => ?bfx,
    fun w s m o hu hw => w.writes_of hw hu rfl fun k hk j hj => ?bfi, fun w s o hu hw => w.writes_of hw hu rfl fun j hj => ?prmb⟩
  case popc => exact (elem_umap1 _ _ hk).trans (mod_two_pow_of_le popElem_le)
  case clz =>
    have hspec := clzElem_spec (uAt_lt (wbits m.w) (w.lane s).a k)
    rwa [elem_umap1 _ _ hk, mod_two_pow_of_le hspec.1]
  case ctz =>
    have hspec := ctzElem_spec (n := wbits m.w) (a := uAt (wbits m.w) (w.lane s).a k)
    rwa [elem_umap1 _ _ hk, mod_two_pow_of_le hspec.1]
  case brev =>
    intro j hj
    rw [elem_umap1 _ _ hk, Nat.mod_eq_of_lt (brevElem_lt ..), testBit_brevElem hj]
  case bfx =>
    rw [elem_umap3 _ _ _ _ hk, bfxElem_eq, wrap_mod]
  case bfi =>
    rw [elem_mkElems _ hk, Nat.testBit_mod_two_pow, decide_eq_true hj, Bool.true_and]
    exact testBit_bfiElem hj
  case prmb =>
    rw [prmb, elem_mkElems _ hj, apply_ite (· % 2 ^ 8), Nat.mod_eq_of_lt (elem_lt ..), Nat.mod_eq_of_lt (elem_lt ..)]

end Sys2Proof.Machine
end

section
/-! SUPPORT. Compares and predicate words (R161, R162, R171). -/

namespace Sys2Proof.Machine

/-- What a condition says of two integers (R161). -/
def condOnInts (c : Cond) (x y : Int) : Bool :=
  match c with
  | .eq => x == y
  | .ne => x != y
  | .lt => decide (x < y)
  | .le => decide (x ≤ y)
  | .gt => decide (y < x)
  | .ge => decide (y ≤ x)

theorem condHolds_compare (c : Cond) (x y : Int) : condHolds c (some (compare x y)) = condOnInts c x y := by
  rw [Bool.eq_iff_iff]
  cases c <;> simp only [condHolds, condOnInts, beq_iff_eq, bne_iff_ne, decide_eq_true_eq]
  case eq => exact compare_eq_iff_eq
  case ne => exact compare_eq_iff_eq.not
  case lt => exact compare_lt_iff_lt
  case le => exact compare_le_iff_le
  case gt => exact compare_gt_iff_gt
  case ge => exact compare_ge_iff_ge

theorem icmp_iff (m : IMod) (c : Cond) (anyE : Bool) (a b : RV) : icmp m c anyE a b = true ↔
    if anyE then ∃ k, k < 64 / wbits m.w ∧ condOnInts c (sAt m a k) (sAt m b k) = true
    else ∀ k, k < 64 / wbits m.w → condOnInts c (sAt m a k) (sAt m b k) = true := by
  simp only [icmp, condHolds_compare]
  cases anyE <;> simp [sAt]

/-- The word of PMOV: the predicates below, and p7, which is true, above them (R162). -/
theorem toNat_predicates (p : BitVec 7) : ((1#1 ++ p).setWidth 64 : Word).toNat = p.toNat + 128 := by
  have hp : p.toNat < 2 ^ 7 := p.isLt
  rw [BitVec.toNat_setWidth_of_le (by decide), BitVec.toNat_append, ← Nat.shiftLeft_add_eq_or_of_lt hp]
  exact Nat.add_comm ..

theorem getLsbD_chosen (p msk : BitVec 7) (v : Word) {j : Nat} (hj : j < 7) :
    ((p &&& ~~~msk) ||| (v.setWidth 7 &&& msk)).getLsbD j = if msk.getLsbD j then v.getLsbD j else p.getLsbD j := by
  simp only [BitVec.getLsbD_or, BitVec.getLsbD_and, BitVec.getLsbD_not, BitVec.getLsbD_setWidth, hj, decide_true, Bool.true_and]
  cases msk.getLsbD j <;> simp

/-- Settles O6: ICMP by what its condition says of the elements, and PMOV by the bits it moves. -/
theorem predicates : Obligations.Predicates := by
  unfold Obligations.Predicates
  refine ⟨fun w s m fm pd o cond anyE hu hw => ⟨⟨_, w.completes_of hw hu rfl rfl, ?icmp⟩, w.completes_of hw hu rfl rfl⟩,
    fun w s pd pa pb tab hu hw => w.completes_of hw hu rfl rfl,
    fun w s o msk hu hw => ⟨_, w.completes_of hw hu rfl rfl, toNat_predicates _⟩,
    fun w s o msk hu hw => ⟨_, w.completes_of hw hu rfl rfl, fun j hj => getLsbD_chosen _ _ _ hj⟩⟩
  case icmp => cases cond <;> exact icmp_iff m _ anyE _ _

end Sys2Proof.Machine
end

section
/-! SUPPORT. Floating-point words element by element (R164 to R174), and the conversion modes (R186, R187). -/

namespace Sys2Proof.Machine

/-- A word whose result is pending sends it. -/
theorem Stand.sends_of {w : Stand} {s : State} (h : w.Clear s) {u : Use} (hu : w.u = u) {ins : Instr} {v : Lane → Word}
    (he : exec ins s = word w.f u (fun s l => .ok (s.sendPut l (v l))) s) {P : Word → Prop} (hp : P (v (w.lane s))) :
    w.Sends s ins P :=
  ⟨_, w.completes_of h hu he rfl, hp⟩

section
variable {m : FMod} {k : Nat} (hk : k < 64 / (fdOf m.fmt).w)
include hk

theorem elem_fpUn (op : FD → Rnd → FV → FV) (a : RV) : let q := fdOf m.fmt
    elem (fpUn m op a) q.w k = q.encode (op q m.rnd (q.decode (elem (a.floats q) q.w k))) % 2 ^ q.w := elem_mkElems _ hk

theorem elem_fpBin (op : FD → Rnd → FV → FV → FV) (a b : RV) : let q := fdOf m.fmt
    elem (fpBin m op a b) q.w k =
      q.encode (op q m.rnd (q.decode (elem (a.floats q) q.w k)) (q.decode (elem (b.floats q) q.w k))) % 2 ^ q.w :=
  elem_mkElems _ hk

end

/-- Settles O9: each function's result element by element. -/
theorem specialFunctions : Obligations.SpecialFunctions := by
  unfold Obligations.SpecialFunctions
  refine ⟨fun w s m o hu hw => w.sends_of hw hu rfl fun k hk => elem_fpBin hk _ _ _, fun w s m o hu hw => ?one⟩
  exact ⟨w.sends_of hw hu rfl fun k hk => elem_fpUn hk _ _, w.sends_of hw hu rfl fun k hk => elem_fpUn hk _ _,
    w.sends_of hw hu rfl fun k hk => elem_fpUn hk _ _, w.sends_of hw hu rfl fun k hk => elem_fpUn hk _ _,
    w.sends_of hw hu rfl fun k hk => elem_fpUn hk _ _, w.sends_of hw hu rfl fun k hk => elem_fpUn hk _ _,
    w.sends_of hw hu rfl fun k hk => elem_fpUn hk _ _, w.sends_of hw hu rfl fun k hk => elem_fpUn hk _ _⟩

theorem elem_fmap3 {q : FD} {k : Nat} (hk : k < 64 / q.w) (op : FV → FV → FV → FV) (a b c : Word) :
    elem (fmap3 q op a b c) q.w k =
      q.encode (op (q.decode (elem a q.w k)) (q.decode (elem b q.w k)) (q.decode (elem c q.w k))) % 2 ^ q.w :=
  elem_mkElems _ hk

theorem firstNan_of_none {f : FD} {l : List FV} (r : FV) (h : ∀ x, x ∈ l → x.isNan = false) : firstNan f l r = r := by
  have hnone : l.find? (·.isNan) = none := by simpa using h
  rw [firstNan, hnone]

/-- Where no input is NaN, a half of FDOT2 is its addend and two products, rounded once (R168). -/
theorem elem_fdot2V {q : FD} {md : Rnd} {a b c : Word} {h : Nat} (hh : h < 2) :
    let c' := fd32.decode (elem c 32 h)
    let a0 := q.decode (elem a q.w (2 * h))
    let a1 := q.decode (elem a q.w (2 * h + 1))
    let b0 := q.decode (elem b q.w (2 * h))
    let b1 := q.decode (elem b q.w (2 * h + 1))
    a0.isNan = false → a1.isNan = false → b0.isNan = false → b1.isNan = false → c'.isNan = false →
    elem (fdot2V q md a b c) 32 h = fd32.encode (sumTerms fd32 md [c'.term, prodOf a0 b0, prodOf a1 b1]) % 2 ^ 32 := by
  intro c' a0 a1 b0 b1 ha0 ha1 hb0 hb1 hc
  have hnone : [a0, a1, b0, b1].find? (·.isNan) = none := by simp [ha0, ha1, hb0, hb1]
  rw [fdot2V, elem_mkElems _ hh]
  simp only [a0, a1, b0, b1] at hnone
  simp only [hnone]
  rw [firstNan_of_none _ (by simpa using hc)]

/-- Settles O7: each word's element map, and FDOT2 by its halves. -/
theorem floatElements : Obligations.FloatElements := by
  unfold Obligations.FloatElements
  refine ⟨fun w s m o hu hw => ?two, fun w s m o hu hw => ?one, fun w s m o hu hw => ⟨?ffma, ?fdot2⟩⟩
  case two =>
    exact ⟨w.writes_of hw hu rfl fun k hk => elem_fpBin hk _ _ _, w.writes_of hw hu rfl fun k hk => elem_fpBin hk _ _ _,
      w.writes_of hw hu rfl fun k hk => elem_fpBin hk _ _ _,
      w.writes_of hw hu rfl fun k hk => elem_fpBin hk (fun q _ => fminV q) _ _,
      w.writes_of hw hu rfl fun k hk => elem_fpBin hk (fun q _ => fmaxV q) _ _,
      w.writes_of hw hu rfl fun k hk => elem_fpBin hk _ _ _⟩
  case one =>
    exact ⟨w.writes_of hw hu rfl fun k hk => elem_fpUn hk (fun q _ => fabsV q) _,
      w.writes_of hw hu rfl fun k hk => elem_fpUn hk (fun q _ => fnegV q) _,
      w.writes_of hw hu rfl fun k hk => elem_fpUn hk _ _, w.writes_of hw hu rfl fun k hk => elem_mkElems _ hk⟩
  case ffma => exact w.writes_of hw hu rfl fun k hk => elem_fmap3 hk _ _ _ _
  case fdot2 => exact w.writes_of hw hu rfl fun h hh => elem_fdot2V hh

/-- Settles O13: the mask's bits beyond the register decide. -/
theorem conversionModes : Obligations.ConversionModes := by
  unfold Obligations.ConversionModes
  have hbeyond (b : Word) : b >>> 24 ≠ 0 ↔ 2 ^ 24 ≤ b.toNat := by
    have hzero : (0 : Word).toNat = 0 := rfl
    rw [ne_eq, ← BitVec.toNat_inj, BitVec.toNat_ushiftRight, Nat.shiftRight_eq_div_pow, hzero, Nat.div_eq_zero_iff]
    omega
  refine ⟨fun w s o hu hw => ⟨fun hb => w.completes_of hw hu rfl ?_, fun hb => w.faults_of hw hu rfl ?_⟩,
    fun w s d hu hw => ⟨_, w.completes_of hw hu rfl rfl, ?nanct⟩⟩
  · exact if_neg ((hbeyond _).not.2 hb.not_ge)
  · exact if_pos ((hbeyond _).2 hb)
  case nanct => exact BitVec.toNat_setWidth_of_le (by decide)

end Sys2Proof.Machine
end

section
/-! SUPPORT. RoundTo as a function of real numbers (R39 to R41): the code of a positive number grows with it. -/

namespace Sys2Proof.Machine

/-! ### Rounding a magnitude to an integer -/

/-- Whether a magnitude with integer part `q` and rest `r` is rounded away from zero (R39). -/
def GoesUp (md : Rnd) (neg : Bool) (q : Nat) (r : ℝ) : Prop :=
  match md with
  | .rne => 1 / 2 < r ∨ (r = 1 / 2 ∧ q % 2 = 1)
  | .rz => False
  | .ru => neg = false ∧ 0 < r
  | .rd => neg = true ∧ 0 < r

open Classical in
/-- The integer that a magnitude is rounded to (R39). -/
noncomputable def roundReal (md : Rnd) (neg : Bool) (y : ℝ) : Nat :=
  ⌊y⌋₊ + if GoesUp md neg ⌊y⌋₊ (y - ⌊y⌋₊) then 1 else 0

section
variable {md : Rnd} {neg : Bool}

theorem GoesUp.mono {q : Nat} {r t : ℝ} (h : GoesUp md neg q r) (hrt : r ≤ t) : GoesUp md neg q t := by
  cases md with
  | rne =>
    rcases hrt.eq_or_lt with rfl | hlt
    · exact h
    · exact .inl (h.elim (fun hr => hr.trans hlt) fun hr => hr.1 ▸ hlt)
  | rz => exact h
  | ru | rd => exact ⟨h.1, h.2.trans_le hrt⟩

theorem not_goesUp_zero {q : Nat} : ¬GoesUp md neg q 0 := by
  cases md <;> simp only [GoesUp, lt_irrefl, and_false, not_false_eq_true]
  norm_num

theorem roundReal_of_up {y : ℝ} (h : GoesUp md neg ⌊y⌋₊ (y - ⌊y⌋₊)) : roundReal md neg y = ⌊y⌋₊ + 1 := by
  rw [roundReal, if_pos h]

theorem roundReal_of_down {y : ℝ} (h : ¬GoesUp md neg ⌊y⌋₊ (y - ⌊y⌋₊)) : roundReal md neg y = ⌊y⌋₊ := by
  rw [roundReal, if_neg h, Nat.add_zero]

theorem floor_le_roundReal (y : ℝ) : ⌊y⌋₊ ≤ roundReal md neg y := Nat.le_add_right ..

theorem roundReal_le_floor_succ (y : ℝ) : roundReal md neg y ≤ ⌊y⌋₊ + 1 := by
  rw [roundReal]
  split_ifs <;> omega

theorem roundReal_mono {y z : ℝ} (h : y ≤ z) : roundReal md neg y ≤ roundReal md neg z := by
  rcases (Nat.floor_mono h).eq_or_lt with he | hlt
  · by_cases hup : GoesUp md neg ⌊y⌋₊ (y - ⌊y⌋₊)
    · have hup' : GoesUp md neg ⌊z⌋₊ (z - ⌊z⌋₊) := he ▸ hup.mono (sub_le_sub_right h _)
      rw [roundReal_of_up hup, roundReal_of_up hup', he]
    · rw [roundReal_of_down hup, he]
      exact floor_le_roundReal z
  · exact (roundReal_le_floor_succ y).trans (hlt.trans_le (floor_le_roundReal z))

@[simp] theorem roundReal_natCast (n : Nat) : roundReal md neg n = n := by
  rw [roundReal_of_down (by rw [Nat.floor_natCast, sub_self]; exact not_goesUp_zero), Nat.floor_natCast]

/-- All numbers between 0 and one half are rounded alike. -/
theorem roundReal_of_lt_half {y z : ℝ} (hy : 0 < y) (hy' : y < 1 / 2) (hz : 0 < z) (hz' : z < 1 / 2) :
    roundReal md neg y = roundReal md neg z := by
  have hfloor {t : ℝ} (ht : t < 1 / 2) : ⌊t⌋₊ = 0 := Nat.floor_eq_zero.2 (by linarith)
  have hup : GoesUp md neg 0 y ↔ GoesUp md neg 0 z := by
    cases md <;> simp only [GoesUp, hy, hz, Nat.zero_mod, zero_ne_one, and_false, or_false]
    exact iff_of_false (by linarith) (by linarith)
  by_cases hgo : GoesUp md neg 0 y
  · rw [roundReal_of_up (by simpa [hfloor hy'] using hgo), roundReal_of_up (by simpa [hfloor hz'] using hup.1 hgo), hfloor hy',
      hfloor hz']
  · rw [roundReal_of_down (by simpa [hfloor hy'] using hgo), roundReal_of_down (by simpa [hfloor hz'] using hup.not.1 hgo),
      hfloor hy', hfloor hz']

theorem floor_natCast_add {q : Nat} {r : ℝ} (h0 : 0 ≤ r) (h1 : r < 1) : ⌊(q : ℝ) + r⌋₊ = q :=
  (Nat.floor_eq_iff (by positivity)).2 ⟨by linarith, by linarith⟩

theorem roundReal_add_of_up {q : Nat} {r : ℝ} (h0 : 0 ≤ r) (h1 : r < 1) (h : GoesUp md neg q r) :
    roundReal md neg (q + r) = q + 1 := by
  have hfloor := floor_natCast_add (q := q) h0 h1
  rw [roundReal_of_up (by rwa [hfloor, add_sub_cancel_left]), hfloor]

theorem roundReal_add_of_down {q : Nat} {r : ℝ} (h0 : 0 ≤ r) (h1 : r < 1) (h : ¬GoesUp md neg q r) :
    roundReal md neg (q + r) = q := by
  have hfloor := floor_natCast_add (q := q) h0 h1
  rw [roundReal_of_down (by rwa [hfloor, add_sub_cancel_left]), hfloor]

/-- The model's test on the bits below the grid, with what follows them. -/
theorem roundsUp_iff {q rem sh : Nat} {st : Bool} {t : ℝ} (hsh : 0 < sh) (h0 : 0 ≤ t) (h1 : t < 1) (hst : st = true ↔ 0 < t) :
    roundsUp md neg q rem sh st = true ↔ GoesUp md neg q ((rem + t) / (2 ^ sh : Nat)) := by
  have hp : (0 : ℝ) < (2 ^ sh : Nat) := by positivity
  have hrest : (rem != 0 || st) = true ↔ 0 < (rem + t) / (2 ^ sh : Nat) := by
    rw [div_pos_iff_of_pos_right hp, Bool.or_eq_true, bne_iff_ne, hst]
    rcases Nat.eq_zero_or_pos rem with rfl | hrem
    · simp
    · have hpos : (0 : ℝ) < rem := Nat.cast_pos.2 hrem
      exact iff_of_true (.inl hrem.ne') (by linarith)
  cases md with
  | rz => exact iff_of_false Bool.false_ne_true not_false
  | ru | rd => simp only [roundsUp, GoesUp, Bool.and_eq_true, hrest, Bool.not_eq_true']
  | rne =>
    obtain ⟨j, rfl⟩ := Nat.exists_eq_add_one.2 hsh
    have hhalf : (1 / 2 < (rem + t) / (2 ^ (j + 1) : Nat) ↔ (2 ^ j : Nat) < rem + t)
        ∧ ((rem + t) / (2 ^ (j + 1) : Nat) = 1 / 2 ↔ rem + t = (2 ^ j : Nat)) := by
      rw [lt_div_iff₀ hp, div_eq_iff hp.ne', Nat.pow_succ, Nat.cast_mul, Nat.cast_two, mul_comm ((2 ^ j : Nat) : ℝ), ← mul_assoc,
        one_div, inv_mul_cancel₀ two_ne_zero, one_mul]
      exact ⟨Iff.rfl, Iff.rfl⟩
    simp only [roundsUp, GoesUp, hhalf, Bool.or_eq_true, Bool.and_eq_true, decide_eq_true_eq, beq_iff_eq, hst]
    rw [Nat.pow_succ]
    generalize 2 ^ j = p
    rcases lt_trichotomy rem p with hlt | rfl | hgt
    · have hle : (rem : ℝ) + 1 ≤ p := by exact_mod_cast hlt
      refine iff_of_false (by omega) ?_
      rintro (h | ⟨h, -⟩) <;> linarith
    · rcases h0.eq_or_lt with rfl | hpos
      · simp [Nat.mul_comm]
      · simp [hpos, Nat.mul_comm]
    · have hle : (p : ℝ) < rem := by exact_mod_cast hgt
      exact iff_of_true (.inl (by omega)) (.inl (by linarith))

end

/-! ### The grid -/

section
variable {md : Rnd} {neg : Bool} {m : Nat} {e k : Int} {st : Bool}

theorem roundGrid_of_le (h : k ≤ e) : roundGrid md neg m e k st = m * 2 ^ (e - k).toNat := if_pos h

theorem roundGrid_of_lt (h : e < k) : roundGrid md neg m e k st =
    if roundsUp md neg (m / 2 ^ (k - e).toNat) (m % 2 ^ (k - e).toNat) (k - e).toNat st then m / 2 ^ (k - e).toNat + 1
    else m / 2 ^ (k - e).toNat := if_neg h.not_ge

end

/-- What a significand `m` with exponent `e` says of a number: the number itself, or, where more follows, that it lies strictly
between m * 2^e and (m + 1) * 2^e. -/
def Reads (m : Nat) (e : Int) (st : Bool) (x : ℝ) : Prop :=
  if st then m * (2 : ℝ) ^ e < x ∧ x < (m + 1) * (2 : ℝ) ^ e else x = m * (2 : ℝ) ^ e

theorem reads_self (m : Nat) (e : Int) : Reads m e false (m * (2 : ℝ) ^ e) := rfl

theorem two_zpow_pos (e : Int) : (0 : ℝ) < 2 ^ e := zpow_pos two_pos e

theorem two_zpow_le {d e : Int} (h : d ≤ e) : (2 : ℝ) ^ d ≤ 2 ^ e := zpow_le_zpow_right₀ one_le_two h

theorem two_zpow_add (d e : Int) : (2 : ℝ) ^ (d + e) = 2 ^ d * 2 ^ e := zpow_add₀ two_ne_zero d e

/-- A power of two whose exponent is not negative, as a natural number. -/
theorem cast_two_pow_toNat {d : Int} (h : 0 ≤ d) : ((2 ^ d.toNat : Nat) : ℝ) = 2 ^ d := by
  rw [Nat.cast_pow, Nat.cast_two, ← zpow_natCast, Int.toNat_of_nonneg h]

theorem two_pow_toNat_mul {d e : Int} (h : d ≤ e) : (2 : ℝ) ^ (e - d).toNat * 2 ^ d = 2 ^ e := by
  rw [← zpow_natCast, Int.toNat_of_nonneg (Int.sub_nonneg.2 h), ← two_zpow_add, sub_add_cancel]

section
variable {m : Nat} {e : Int} {st : Bool} {x : ℝ} (h : Reads m e st x)
include h

/-- A number is its significand and a rest below one, which is zero exactly where nothing follows. -/
theorem Reads.exists_rest : ∃ t : ℝ, 0 ≤ t ∧ t < 1 ∧ (st = true ↔ 0 < t) ∧ x = (m + t) * (2 : ℝ) ^ e := by
  have hp := two_zpow_pos e
  cases st with
  | false => exact ⟨0, le_rfl, one_pos, by simp, by simpa [Reads] using h⟩
  | true =>
    obtain ⟨hl, hu⟩ : m * (2 : ℝ) ^ e < x ∧ x < (m + 1) * (2 : ℝ) ^ e := h
    rw [← lt_div_iff₀ hp] at hl
    rw [← div_lt_iff₀ hp] at hu
    exact ⟨x / 2 ^ e - m, by linarith, by linarith, by simpa using hl, by field_simp; ring⟩

theorem Reads.le : m * (2 : ℝ) ^ e ≤ x := by
  obtain ⟨t, ht, -, -, rfl⟩ := h.exists_rest
  exact mul_le_mul_of_nonneg_right (by linarith) (two_zpow_pos e).le

theorem Reads.lt : x < (m + 1) * (2 : ℝ) ^ e := by
  obtain ⟨t, -, ht, -, rfl⟩ := h.exists_rest
  exact mul_lt_mul_of_pos_right (by linarith) (two_zpow_pos e)

theorem Reads.pos (hm : m ≠ 0) : 0 < x :=
  (mul_pos (Nat.cast_pos.2 (Nat.pos_of_ne_zero hm)) (two_zpow_pos e)).trans_le h.le

/-- The exponent of a number is that of its significand's leading bit. -/
theorem Reads.log_eq (hm : m ≠ 0) : Int.log 2 x = e + m.log2 := by
  have hx := h.pos hm
  have hp := two_zpow_pos e
  refine le_antisymm (Int.lt_add_one_iff.1 ?_) ?_
  · refine (Int.lt_zpow_iff_log_lt one_lt_two hx).1 (h.lt.trans_le ?_)
    have hlt : ((m + 1 : Nat) : ℝ) ≤ ((2 ^ (m.log2 + 1) : Nat) : ℝ) := Nat.cast_le.2 Nat.lt_log2_self
    push_cast at hlt
    rw [Nat.cast_two, add_assoc, two_zpow_add, mul_comm]
    exact_mod_cast mul_le_mul_of_nonneg_left hlt hp.le
  · refine (Int.zpow_le_iff_le_log one_lt_two hx).1 (le_trans ?_ h.le)
    have hle : ((2 ^ m.log2 : Nat) : ℝ) ≤ m := Nat.cast_le.2 (Nat.log2_self_le hm)
    push_cast at hle
    rw [Nat.cast_two, two_zpow_add, mul_comm]
    exact_mod_cast mul_le_mul_of_nonneg_right hle hp.le

/-- The steps of the grid 2^k that a number is rounded to. -/
theorem Reads.roundGrid_eq (md : Rnd) (neg : Bool) {k : Int} (hk : st = true → e < k) :
    roundGrid md neg m e k st = roundReal md neg (x / 2 ^ k) := by
  obtain ⟨t, ht0, ht1, htst, hx⟩ := h.exists_rest
  rcases le_or_gt k e with hke | hek
  · have hst : st = false := by
      cases st
      · rfl
      · exact absurd (hk rfl) hke.not_gt
    have ht : t = 0 := le_antisymm (not_lt.1 (htst.not.1 (by simp [hst]))) ht0
    have hnat : x / 2 ^ k = (m * 2 ^ (e - k).toNat : Nat) := by
      rw [Nat.cast_mul, cast_two_pow_toNat (Int.sub_nonneg.2 hke), hx, ht, add_zero, mul_div_assoc, ← zpow_sub₀ two_ne_zero]
    rw [roundGrid_of_le hke, hnat, roundReal_natCast]
  · have hsh : 0 < (k - e).toNat := by omega
    have hy : x / 2 ^ k = (m + t) / (2 ^ (k - e).toNat : Nat) := by
      rw [cast_two_pow_toNat (by omega), zpow_sub₀ two_ne_zero, hx]
      field_simp
    rw [roundGrid_of_lt hek, hy]
    generalize (k - e).toNat = sh at hsh
    have hp : (0 : ℝ) < (2 ^ sh : Nat) := by positivity
    have hrem : ((m % 2 ^ sh : Nat) : ℝ) + 1 ≤ (2 ^ sh : Nat) := by exact_mod_cast Nat.mod_lt m (Nat.two_pow_pos sh)
    have hsplit : (m + t) / (2 ^ sh : Nat) = (m / 2 ^ sh : Nat) + ((m % 2 ^ sh : Nat) + t) / (2 ^ sh : Nat) := by
      have hm : (m : ℝ) = (2 ^ sh : Nat) * (m / 2 ^ sh : Nat) + (m % 2 ^ sh : Nat) := by exact_mod_cast (Nat.div_add_mod m _).symm
      rw [hm]
      field_simp
      ring
    have h0 : 0 ≤ ((m % 2 ^ sh : Nat) + t) / (2 ^ sh : Nat) := by positivity
    have h1 : ((m % 2 ^ sh : Nat) + t) / (2 ^ sh : Nat) < 1 := (div_lt_one hp).2 (by linarith)
    have hup := roundsUp_iff (md := md) (neg := neg) (q := m / 2 ^ sh) (rem := m % 2 ^ sh) hsh ht0 ht1 htst
    rw [hsplit]
    split_ifs with hgo
    · exact (roundReal_add_of_up h0 h1 (hup.1 hgo)).symm
    · exact (roundReal_add_of_down h0 h1 (hup.not.1 hgo)).symm

end

/-! ### Codes in the order of the numbers -/

/-- What the encodings of a format have in common: the largest finite value has a full significand, and an infinity's code follows
its code. -/
structure FD.Wf (q : FD) : Prop where
  le_maxM : 2 ^ q.fb ≤ q.maxM
  maxM_lt : q.maxM < 2 ^ (q.fb + 1)
  le_maxE : q.emin ≤ q.maxE
  infinity : q.encode (.inf false) = (q.maxE - q.emin).toNat * 2 ^ q.fb + q.maxM + 1
  fits : q.encode (.inf false) < 2 ^ (q.w - 1)
  w_pos : 0 < q.w

/-- The step of the format's grid at a number. -/
noncomputable def FD.unit (q : FD) (x : ℝ) : Int := max (Int.log 2 x - q.fb) q.emin

/-- The code that `g` steps of the grid 2^k have, without the sign. -/
def FD.stepCode (q : FD) (g : Nat) (k : Int) : Nat := (k - q.emin).toNat * 2 ^ q.fb + g

/-- The code of a positive number, without the sign, as it would be in a format without end. -/
noncomputable def FD.mag (q : FD) (md : Rnd) (neg : Bool) (x : ℝ) : Nat :=
  q.stepCode (roundReal md neg (x / 2 ^ q.unit x)) (q.unit x)

/-- The code of the largest finite value. -/
def FD.top (q : FD) : Nat := q.stepCode q.maxM q.maxE

/-- Whether what lies beyond the largest finite value becomes an infinity (R39). -/
def toInfinity (md : Rnd) (neg : Bool) : Bool :=
  match md with
  | .rne => true
  | .rz => false
  | .ru => !neg
  | .rd => neg

/-- The code that no number's code is above, without the sign (R39, R40). -/
def FD.cap (q : FD) (md : Rnd) (sat neg : Bool) : Nat := q.top + if !sat && toInfinity md neg then 1 else 0

/-- The code of a sign. -/
def FD.signCode (q : FD) (neg : Bool) : Nat := if neg then 2 ^ (q.w - 1) else 0

section
variable {q : FD} {md : Rnd} {neg : Bool} {x y : ℝ}

theorem FD.emin_le_unit : q.emin ≤ q.unit x := le_max_right ..

theorem FD.lt_unit : x < 2 ^ (q.unit x + q.fb + 1) := by
  refine (Int.lt_zpow_succ_log_self one_lt_two x).trans_le ?_
  rw [Nat.cast_two]
  exact two_zpow_le (by have := le_max_left (Int.log 2 x - q.fb) q.emin; rw [FD.unit]; omega)

theorem FD.unit_le (hx : 0 < x) (h : q.emin < q.unit x) : 2 ^ (q.unit x + q.fb) ≤ x := by
  have hu : q.unit x = Int.log 2 x - q.fb := by
    rcases max_choice (Int.log 2 x - q.fb) q.emin with hm | hm
    · exact hm
    · exact absurd hm h.ne'
  rw [hu, sub_add_cancel]
  exact_mod_cast Int.zpow_log_le_self one_lt_two hx

theorem FD.unit_mono (hx : 0 < x) (h : x ≤ y) : q.unit x ≤ q.unit y :=
  max_le_max_right _ (sub_le_sub_right (Int.log_mono_right hx h) _)

/-- No significand has more than one bit beyond the fraction, but for 2^(fb + 1) itself. -/
theorem FD.steps_le : roundReal md neg (x / 2 ^ q.unit x) ≤ 2 ^ (q.fb + 1) := by
  have hle : x / 2 ^ q.unit x ≤ ((2 ^ (q.fb + 1) : Nat) : ℝ) := by
    rw [div_le_iff₀ (two_zpow_pos _), Nat.cast_pow, Nat.cast_two, ← zpow_natCast, ← two_zpow_add]
    exact (FD.lt_unit (q := q)).le.trans (two_zpow_le (by push_cast; omega))
  exact (roundReal_mono hle).trans_eq (roundReal_natCast _)

theorem FD.le_steps (hx : 0 < x) (h : q.emin < q.unit x) : 2 ^ q.fb ≤ roundReal md neg (x / 2 ^ q.unit x) := by
  have hle : ((2 ^ q.fb : Nat) : ℝ) ≤ x / 2 ^ q.unit x := by
    rw [le_div_iff₀ (two_zpow_pos _), Nat.cast_pow, Nat.cast_two, ← zpow_natCast, ← two_zpow_add]
    exact (two_zpow_le (by omega)).trans (FD.unit_le hx h)
  exact (roundReal_natCast _).symm.trans_le (roundReal_mono hle)

theorem FD.mag_mono (hx : 0 < x) (h : x ≤ y) : q.mag md neg x ≤ q.mag md neg y := by
  rcases (FD.unit_mono (q := q) hx h).eq_or_lt with hu | hlt
  · rw [FD.mag, FD.mag, ← hu]
    exact Nat.add_le_add_left (roundReal_mono (div_le_div_of_nonneg_right h (two_zpow_pos _).le)) _
  · have hmin : q.emin ≤ q.unit x := FD.emin_le_unit
    have hlow := FD.le_steps (md := md) (neg := neg) (hx.trans_le h) (hmin.trans_lt hlt)
    have hhigh : roundReal md neg (x / 2 ^ q.unit x) ≤ 2 ^ (q.fb + 1) := FD.steps_le
    have hunits : ((q.unit x - q.emin).toNat + 1) * 2 ^ q.fb ≤ (q.unit y - q.emin).toNat * 2 ^ q.fb :=
      Nat.mul_le_mul_right _ (by omega)
    rw [Nat.add_mul, Nat.one_mul] at hunits
    rw [Nat.pow_succ] at hhigh
    simp only [FD.mag, FD.stepCode]
    omega

/-- What lies below half the least step is rounded alike. -/
theorem FD.mag_of_tiny (hx : 0 < x) (hx' : x < 2 ^ (q.emin - 1)) (hy : 0 < y) (hy' : y < 2 ^ (q.emin - 1)) :
    q.mag md neg x = q.mag md neg y := by
  have hunit {t : ℝ} (ht : 0 < t) (ht' : t < 2 ^ (q.emin - 1)) : q.unit t = q.emin := by
    refine max_eq_right ?_
    have := (Int.lt_zpow_iff_log_lt (b := 2) one_lt_two ht).1 (by exact_mod_cast ht')
    omega
  have hhalf {t : ℝ} (ht' : t < 2 ^ (q.emin - 1)) : t / 2 ^ q.emin < 1 / 2 := by
    rw [div_lt_iff₀ (two_zpow_pos _)]
    refine ht'.trans_eq ?_
    rw [zpow_sub₀ two_ne_zero, zpow_one]
    ring
  rw [FD.mag, FD.mag, hunit hx hx', hunit hy hy', roundReal_of_lt_half (div_pos hx (two_zpow_pos _)) (hhalf hx')
    (div_pos hy (two_zpow_pos _)) (hhalf hy')]

end

/-! ### Encoding -/

theorem dyadicGt_iff {m n : Nat} {e k : Int} : dyadicGt m e n k = true ↔ n * (2 : ℝ) ^ k < m * (2 : ℝ) ^ e := by
  have hshift {a : Nat} {c d : Int} (h : c ≤ d) : a * (2 : ℝ) ^ d = (a * 2 ^ (d - c).toNat : Nat) * (2 : ℝ) ^ c := by
    rw [← two_pow_toNat_mul h]
    push_cast
    ring
  rw [dyadicGt]
  split_ifs with hek
  · rw [hshift hek, mul_lt_mul_iff_left₀ (two_zpow_pos e), Nat.cast_lt, decide_eq_true_eq]
  · rw [hshift (not_le.1 hek).le, mul_lt_mul_iff_left₀ (two_zpow_pos k), Nat.cast_lt, decide_eq_true_eq]

/-- The code of a number on the format's grid counts the steps below it. -/
theorem FD.encode_steps {q : FD} {n : Bool} {g : Nat} {k : Int} (hk : q.emin ≤ k) (hg : g ≤ 2 ^ (q.fb + 1))
    (hlow : q.emin < k → 2 ^ q.fb ≤ g) : q.encode (.fin n g k) = q.signCode n + q.stepCode g k := by
  have hp := Nat.two_pow_pos q.fb
  have hbias : q.emin = 1 - (q.bias : Int) - q.fb := rfl
  rw [FD.encode, FD.signCode, FD.stepCode]
  rcases Nat.eq_zero_or_pos g with rfl | hpos
  · have hke : k = q.emin := le_antisymm (not_lt.1 fun hlt => absurd (hlow hlt) (by omega)) hk
    simp [hke]
  rw [if_neg hpos.ne']
  rcases lt_or_ge g (2 ^ q.fb) with hlt | hge
  · have hke : k = q.emin := le_antisymm (not_lt.1 fun h => absurd (hlow h) (by omega)) hk
    have hlog : g.log2 < q.fb := (Nat.log2_lt hpos.ne').2 hlt
    have hmax : max (k + g.log2 - q.fb) q.emin = k := by omega
    have hzero : (k - q.emin).toNat = 0 := by omega
    simp only [hmax, hlt, hzero, le_refl, sub_self, Int.toNat_zero, pow_zero, Nat.div_one, if_true, Nat.zero_mul, Nat.zero_add]
  · rcases hg.eq_or_lt with rfl | hlt
    · have hlog : (2 ^ (q.fb + 1)).log2 = q.fb + 1 := Nat.log2_two_pow
      have hmax : max (k + ((q.fb + 1 : Nat) : Int) - q.fb) q.emin = k + 1 := by push_cast; omega
      have hhalf : 2 ^ (q.fb + 1) / 2 ^ (k + 1 - k).toNat = 2 ^ q.fb := by
        rw [show (k + 1 - k).toNat = 1 by omega, Nat.pow_succ, pow_one, Nat.mul_div_cancel _ two_pos]
      have hcount : (k + 1 + q.fb + q.bias).toNat = (k - q.emin).toNat + 2 := by omega
      simp only [hlog, hmax, hhalf, hcount, if_pos (Int.le_add_one le_rfl), lt_irrefl, if_false]
      ring_nf
      omega
    · have hlog : g.log2 = q.fb := by
        have := (Nat.le_log2 hpos.ne').2 hge
        have := (Nat.log2_lt hpos.ne').2 hlt
        omega
      have hmax : max (k + g.log2 - q.fb) q.emin = k := by omega
      have hcount : (k + q.fb + q.bias).toNat = (k - q.emin).toNat + 1 := by omega
      simp only [hmax, le_refl, if_true, sub_self, Int.toNat_zero, pow_zero, Nat.div_one, hge.not_gt, if_false, hcount, Nat.add_mul,
        Nat.one_mul]
      omega

namespace FD.Wf

variable {q : FD} (hq : q.Wf)
include hq

/-- Beyond the largest finite value are exactly the codes above its code. -/
theorem exceeds_iff {g : Nat} {k : Int} (hk : q.emin ≤ k) (hg : g ≤ 2 ^ (q.fb + 1)) (hlow : q.emin < k → 2 ^ q.fb ≤ g) :
    dyadicGt g k q.maxM q.maxE = true ↔ q.top < q.stepCode g k := by
  obtain ⟨hle, hlt, hemin, -, -, -⟩ := hq
  rw [dyadicGt_iff, FD.top, FD.stepCode, FD.stepCode]
  rcases lt_trichotomy k q.maxE with hke | rfl | hke
  · have hval : g * (2 : ℝ) ^ k ≤ q.maxM * (2 : ℝ) ^ q.maxE := by
      calc g * (2 : ℝ) ^ k ≤ (2 ^ (q.fb + 1) : Nat) * (2 : ℝ) ^ k :=
            mul_le_mul_of_nonneg_right (Nat.cast_le.2 hg) (two_zpow_pos k).le
        _ = (2 ^ q.fb : Nat) * (2 : ℝ) ^ (k + 1) := by push_cast; rw [two_zpow_add, zpow_one]; ring
        _ ≤ (2 ^ q.fb : Nat) * (2 : ℝ) ^ q.maxE := mul_le_mul_of_nonneg_left (two_zpow_le hke) (Nat.cast_nonneg _)
        _ ≤ _ := mul_le_mul_of_nonneg_right (Nat.cast_le.2 hle) (two_zpow_pos _).le
    have hunits : ((k - q.emin).toNat + 1) * 2 ^ q.fb ≤ (q.maxE - q.emin).toNat * 2 ^ q.fb := Nat.mul_le_mul_right _ (by omega)
    rw [Nat.add_mul, Nat.one_mul] at hunits
    rw [Nat.pow_succ] at hg
    exact iff_of_false hval.not_gt (by omega)
  · rw [mul_lt_mul_iff_left₀ (two_zpow_pos _), Nat.cast_lt, Nat.add_lt_add_iff_left]
  · have hfull := hlow (hemin.trans_lt hke)
    have hval : q.maxM * (2 : ℝ) ^ q.maxE < g * (2 : ℝ) ^ k := by
      calc q.maxM * (2 : ℝ) ^ q.maxE < (2 ^ (q.fb + 1) : Nat) * (2 : ℝ) ^ q.maxE :=
            mul_lt_mul_of_pos_right (Nat.cast_lt.2 hlt) (two_zpow_pos _)
        _ = (2 ^ q.fb : Nat) * (2 : ℝ) ^ (q.maxE + 1) := by push_cast; rw [two_zpow_add, zpow_one]; ring
        _ ≤ (2 ^ q.fb : Nat) * (2 : ℝ) ^ k := mul_le_mul_of_nonneg_left (two_zpow_le hke) (Nat.cast_nonneg _)
        _ ≤ _ := mul_le_mul_of_nonneg_right (Nat.cast_le.2 hfull) (two_zpow_pos _).le
    have hunits : ((q.maxE - q.emin).toNat + 1) * 2 ^ q.fb ≤ (k - q.emin).toNat * 2 ^ q.fb := Nat.mul_le_mul_right _ (by omega)
    rw [Nat.add_mul, Nat.one_mul] at hunits
    rw [Nat.pow_succ] at hlt
    exact iff_of_true hval (by omega)

theorem encode_maximum (n : Bool) : q.encode (.fin n q.maxM q.maxE) = q.signCode n + q.top :=
  FD.encode_steps hq.le_maxE hq.maxM_lt.le fun _ => hq.le_maxM

theorem encode_infinity (n : Bool) : q.encode (.inf n) = q.signCode n + (q.top + 1) := by
  have h := hq.infinity
  simp only [FD.encode, Bool.false_eq_true, if_false, Nat.zero_add] at h
  rw [FD.encode, h]
  rfl

end FD.Wf

/-- The step of the grid that RoundTo takes is that of the number (R39). -/
theorem Reads.unit_eq {q : FD} {m : Nat} {e : Int} {st : Bool} {x : ℝ} (h : Reads m e st x) (hm : m ≠ 0) :
    q.unit x = max (e + m.log2 - q.fb) q.emin := by rw [FD.unit, h.log_eq hm]

/-- RoundTo in two cases: beyond the largest finite value, and within (R39). -/
theorem roundTo_eq (q : FD) (md : Rnd) (n : Bool) {m : Nat} (e : Int) (st : Bool) (hm : m ≠ 0) : roundTo q md n m e st =
    let k := max (e + m.log2 - q.fb) q.emin
    if dyadicGt (roundGrid md n m e k st) k q.maxM q.maxE then
      (if toInfinity md n then .inf n else .fin n q.maxM q.maxE)
    else .fin n (roundGrid md n m e k st) k := by
  unfold roundTo
  rw [if_neg hm]
  cases md <;> cases n <;> rfl

theorem FD.cap_le_top_succ (q : FD) {md : Rnd} {sat n : Bool} : q.cap md sat n ≤ q.top + 1 := by
  rw [FD.cap]
  split_ifs <;> omega

theorem FD.top_le_cap (q : FD) {md : Rnd} {sat n : Bool} : q.top ≤ q.cap md sat n := Nat.le_add_right ..

section
variable {q : FD} (hq : q.Wf) {m : Nat} {e : Int} {st : Bool} {x : ℝ} (h : Reads m e st x) (hm : m ≠ 0)
  (hst : st = true → 2 ^ (q.fb + 1) ≤ m)
include hq h hm hst

/-- The code of a rounded number: its steps, but not beyond the end of the format's range (R39 to R41). -/
theorem encode_roundTo_sat (md : Rnd) (sat n : Bool) :
    q.encode (if sat then q.sat (roundTo q md n m e st) else roundTo q md n m e st)
      = q.signCode n + min (q.mag md n x) (q.cap md sat n) := by
  have hx := h.pos hm
  have hbits : st = true → e < max (e + m.log2 - q.fb) q.emin := fun hs => by
    have := (Nat.le_log2 hm).2 (hst hs)
    omega
  have hgrid := h.roundGrid_eq md n hbits
  rw [← h.unit_eq hm] at hgrid
  have hk : q.emin ≤ q.unit x := FD.emin_le_unit
  have hg : roundReal md n (x / 2 ^ q.unit x) ≤ 2 ^ (q.fb + 1) := FD.steps_le
  have hlow : q.emin < q.unit x → 2 ^ q.fb ≤ roundReal md n (x / 2 ^ q.unit x) := FD.le_steps hx
  have hexceeds := hq.exceeds_iff hk hg hlow
  have hround := roundTo_eq q md n e st hm
  simp only [← h.unit_eq hm, hgrid, hexceeds] at hround
  rw [hround, FD.mag]
  rcases lt_or_ge q.top (q.stepCode (roundReal md n (x / 2 ^ q.unit x)) (q.unit x)) with hover | hin
  · rw [if_pos hover, Nat.min_eq_right (q.cap_le_top_succ.trans hover), FD.cap]
    cases sat <;> cases toInfinity md n <;> simp [FD.sat, hq.encode_infinity, hq.encode_maximum]
  · have hsat : q.sat (.fin n (roundReal md n (x / 2 ^ q.unit x)) (q.unit x))
        = .fin n (roundReal md n (x / 2 ^ q.unit x)) (q.unit x) := by rw [FD.sat, if_neg (hexceeds.not.2 hin.not_gt)]
    rw [if_neg hin.not_gt, hsat, ite_self, FD.encode_steps hk hg hlow, Nat.min_eq_left (hin.trans q.top_le_cap)]

theorem encode_roundTo (md : Rnd) (n : Bool) :
    q.encode (roundTo q md n m e st) = q.signCode n + min (q.mag md n x) (q.cap md false n) :=
  encode_roundTo_sat hq h hm hst md false n

end

theorem FD.rounded_eq {q : FD} (hq : q.Wf) (md : Rnd) (sat n : Bool) {m : Nat} (e : Int) (hm : m ≠ 0) :
    q.rounded md sat n m e = q.signCode n + min (q.mag md n (m * (2 : ℝ) ^ e)) (q.cap md sat n) :=
  encode_roundTo_sat hq (reads_self m e) hm (by simp) md sat n

/-- The code that the steps of a number give is the code of every two numbers that enclose it and have one code. -/
theorem roundsTo_of_mag {q : FD} (hq : q.Wf) {md : Rnd} {sat n : Bool} {x : ℝ} {c : Nat}
    (hc : 0 < x → c = q.signCode n + min (q.mag md n x) (q.cap md sat n)) : RoundsTo q md sat n x c := by
  intro m k e d hm hlow hhigh hsame
  have hpos : (0 : ℝ) < m * 2 ^ e := mul_pos (Nat.cast_pos.2 (Nat.pos_of_ne_zero hm)) (two_zpow_pos e)
  have hk : k ≠ 0 := by
    rintro rfl
    rw [Nat.cast_zero, zero_mul] at hhigh
    linarith
  rw [FD.rounded_eq hq _ _ _ _ hm] at hsame ⊢
  rw [FD.rounded_eq hq _ _ _ _ hk] at hsame
  have hbelow := q.mag_mono (md := md) (neg := n) hpos hlow
  have habove := q.mag_mono (md := md) (neg := n) (hpos.trans_le hlow) hhigh
  rw [hc (hpos.trans_le hlow)]
  omega

theorem roundsTo_rounded {q : FD} (hq : q.Wf) {md : Rnd} {sat n : Bool} {m : Nat} {e : Int} (hm : m ≠ 0) :
    RoundsTo q md sat n (m * (2 : ℝ) ^ e) (q.rounded md sat n m e) :=
  roundsTo_of_mag hq fun _ => FD.rounded_eq hq md sat n e hm

/-- RoundTo gives the code of the number that its significand reads as. -/
theorem roundsTo_roundTo {q : FD} (hq : q.Wf) {md : Rnd} {n : Bool} {m : Nat} {e : Int} {st : Bool} {x : ℝ} (hm : m ≠ 0)
    (h : Reads m e st x) (hst : st = true → 2 ^ (q.fb + 1) ≤ m) : RoundsTo q md false n x (q.encode (roundTo q md n m e st)) :=
  roundsTo_of_mag hq fun _ => encode_roundTo hq h hm hst md n

/-! ### The formats -/

theorem fd64_wf : fd64.Wf := by constructor <;> decide
theorem fd32_wf : fd32.Wf := by constructor <;> decide
theorem fdBf16_wf : fdBf16.Wf := by constructor <;> decide
theorem fdF16_wf : fdF16.Wf := by constructor <;> decide
theorem fdE4m3_wf : fdE4m3.Wf := by constructor <;> decide
theorem fdE5m2_wf : fdE5m2.Wf := by constructor <;> decide

theorem fdOf_wf (fm : FFmt) : (fdOf fm).Wf := by
  cases fm
  exacts [fd64_wf, fd32_wf, fdBf16_wf, fdF16_wf]

end Sys2Proof.Machine
end

section
/-! SUPPORT. Sums, products and fused multiply-adds (R37, R164, R167). -/

namespace Sys2Proof.Machine

/-! ### Exact sums, rounded once -/

theorem filterMap_fin {f : Prod → Option Dy} (l : List Dy) (hf : ∀ d, f (.fin d) = some d) : (l.map .fin).filterMap f = l := by
  have hsome : f ∘ .fin = some := funext hf
  rw [List.filterMap_map, hsome, List.filterMap_some]

section
variable {q : FD} {md : Rnd}

theorem sumTerms_fin (l : List Dy) : sumTerms q md (l.map .fin) = sumRound q md l := by
  have hno (x : Prod) (hx : ∀ d, x ≠ .fin d) : (l.map Prod.fin).any (· == x) = false := by
    simpa [List.any_eq_false] using fun d _ => (hx d).symm
  rw [sumTerms, hno .bad (by simp), hno (.inf false) (by simp), hno (.inf true) (by simp)]
  exact congrArg (sumRound q md) (filterMap_fin l fun _ => rfl)

/-- The exact sum of a list of numbers in units of 2^k. -/
def exactSum (l : List Dy) (k : Int) : Int := (l.map fun d => d.toInt k).sum

theorem foldl_toInt (l : List Dy) (k a : Int) : l.foldl (fun a d => a + d.toInt k) a = a + exactSum l k := by
  induction l generalizing a with
  | nil => simp [exactSum]
  | cons d l ih => rw [List.foldl_cons, ih, exactSum, exactSum, List.map_cons, List.sum_cons, Int.add_assoc]

theorem sumRound_of_ne_zero {l : List Dy} (hl : ∀ d, d ∈ l → d.m ≠ 0) {k : Int}
    (hk : k = l.foldl (fun a d => min a d.e) (l.headD ⟨false, 0, 0⟩).e) (ht : exactSum l k ≠ 0) :
    sumRound q md l = roundTo q md (decide (exactSum l k < 0)) (exactSum l k).natAbs k := by
  have hfilter : l.filter (fun d => d.m != 0) = l := List.filter_eq_self.2 fun d hd => bne_iff_ne.2 (hl d hd)
  rw [sumRound, hfilter, ← hk, foldl_toInt, Int.zero_add]
  exact if_neg ht

/-- A signed magnitude in units of 2^k. -/
def signedUnits (n : Bool) (m : Nat) (e k : Int) : Int := (if n then -1 else 1) * ((m : Int) * 2 ^ (e - k).toNat)

theorem Dy.toInt_eq (n : Bool) (m : Nat) (e k : Int) : (Dy.mk n m e).toInt k = signedUnits n m e k := by
  cases n <;> simp [Dy.toInt, signedUnits]

theorem signedUnits_not (n : Bool) (m : Nat) (e k : Int) : signedUnits (!n) m e k = -signedUnits n m e k := by
  cases n <;> simp [signedUnits]

theorem sumTerms_two {n p : Bool} {m l : Nat} {e d : Int} (hm : m ≠ 0) (hl : l ≠ 0) :
    let t := signedUnits n m e (min e d) + signedUnits p l d (min e d)
    t ≠ 0 → sumTerms q md [.fin ⟨n, m, e⟩, .fin ⟨p, l, d⟩] = roundTo q md (decide (t < 0)) t.natAbs (min e d) := by
  intro t ht
  have hsum : exactSum [⟨n, m, e⟩, ⟨p, l, d⟩] (min e d) = t := by simp [exactSum, Dy.toInt_eq, t]
  refine (sumTerms_fin [⟨n, m, e⟩, ⟨p, l, d⟩]).trans ?_
  rw [sumRound_of_ne_zero (k := min e d) (by simp [hm, hl]) (by simp) (by rwa [hsum]), hsum]

theorem sumTerms_one (n : Bool) {m : Nat} (e : Int) (hm : m ≠ 0) : sumTerms q md [.fin ⟨n, m, e⟩] = roundTo q md n m e := by
  have hsum : exactSum [⟨n, m, e⟩] e = if n then -(m : Int) else m := by simp [exactSum, Dy.toInt]
  have hne : exactSum [⟨n, m, e⟩] e ≠ 0 := by rw [hsum]; split_ifs <;> omega
  have hneg : decide (exactSum [⟨n, m, e⟩] e < 0) = n := by
    rw [hsum]
    cases n
    · simp
    · simpa using Nat.pos_of_ne_zero hm
  have habs : (exactSum [⟨n, m, e⟩] e).natAbs = m := by rw [hsum]; cases n <;> simp
  refine (sumTerms_fin [⟨n, m, e⟩]).trans ?_
  rw [sumRound_of_ne_zero (k := e) (by simp [hm]) (by simp) hne, hneg, habs]

/-! ### NaNs come first -/

theorem firstNan_cons {y : FV} (hy : y.isNan = false) (l : List FV) (r : FV) : firstNan q (y :: l) r = firstNan q l r := by
  rw [firstNan, firstNan, List.find?_cons_of_neg (by simp [hy])]

end

end Sys2Proof.Machine
end

section
/-! SUPPORT. The grid that RoundTo rounds on (R39). -/

namespace Sys2Proof.Machine

section
variable {n : Bool} {m : Nat} {e k : Int} (hek : e < k)
include hek

/-- Downward the steps are those that fit. -/
theorem roundGrid_down {md : Rnd} (hmd : md = .rz ∨ (md = .ru ∧ n = true) ∨ (md = .rd ∧ n = false)) :
    roundGrid md n m e k false = m / 2 ^ (k - e).toNat := by
  rw [roundGrid_of_lt hek, if_neg]
  obtain rfl | ⟨rfl, rfl⟩ | ⟨rfl, rfl⟩ := hmd <;> simp [roundsUp]

/-- Upward a rest counts as a whole step. -/
theorem roundGrid_up {md : Rnd} (hmd : (md = .ru ∧ n = false) ∨ (md = .rd ∧ n = true)) : roundGrid md n m e k false =
    if m % 2 ^ (k - e).toNat ≠ 0 then m / 2 ^ (k - e).toNat + 1 else m / 2 ^ (k - e).toNat := by
  rw [roundGrid_of_lt hek]
  obtain ⟨rfl, rfl⟩ | ⟨rfl, rfl⟩ := hmd <;> simp [roundsUp]

/-- To the nearest, a rest above one half of the step counts, and one half itself after an odd number of steps. -/
theorem roundGrid_nearest : roundGrid .rne n m e k false =
    if 2 ^ (k - e).toNat < 2 * (m % 2 ^ (k - e).toNat)
      ∨ (2 * (m % 2 ^ (k - e).toNat) = 2 ^ (k - e).toNat ∧ m / 2 ^ (k - e).toNat % 2 = 1)
    then m / 2 ^ (k - e).toNat + 1 else m / 2 ^ (k - e).toNat := by
  rw [roundGrid_of_lt hek]
  simp [roundsUp]

/-- What each direction makes of a number between two steps of the grid, in units of its last bit (R39). -/
theorem roundGrid_bounds :
    let u : Nat := 2 ^ (k - e).toNat
    let z := roundGrid .rz n m e k false
    let c := roundGrid .ru false m e k false
    let t := roundGrid .rne n m e k false
    (z * u ≤ m ∧ m < (z + 1) * u) ∧ (m ≤ c * u ∧ c * u < m + u) ∧ (2 * (t * u) ≤ 2 * m + u ∧ 2 * m ≤ 2 * (t * u) + u)
      ∧ (2 * (t * u) = 2 * m + u ∨ 2 * m = 2 * (t * u) + u → t % 2 = 0) := by
  rw [roundGrid_down hek (.inl rfl), roundGrid_up hek (.inl ⟨rfl, rfl⟩), roundGrid_nearest hek]
  have hu : 0 < 2 ^ (k - e).toNat := Nat.two_pow_pos _
  generalize 2 ^ (k - e).toNat = u at hu
  have hm : m / u * u + m % u = m := Nat.div_add_mod' m u
  have hr : m % u < u := Nat.mod_lt m hu
  generalize m % u = r at hm hr
  generalize m / u = s at hm
  simp only [ite_mul, Nat.add_mul, Nat.one_mul]
  refine ⟨by omega, ?_, ?_, ?_⟩
  · split_ifs <;> omega
  · split_ifs <;> omega
  · split_ifs <;> omega

end

theorem toInfinity_iff {md : Rnd} {n : Bool} :
    toInfinity md n = true ↔ md = .rne ∨ (md = .ru ∧ n = false) ∨ (md = .rd ∧ n = true) := by
  cases md <;> cases n <;> decide

end Sys2Proof.Machine
end

section
/-! SUPPORT. A slab of the matrix array (R43 to R45): its special cases, and the finite sum in units of its grid. -/

namespace Sys2Proof.Machine

/-! ### Codes fit the format -/

section
variable {q : FD} (hq : q.Wf) {md : Rnd} {n : Bool}
include hq

theorem FD.Wf.code_lt {c : Nat} (h : c ≤ q.top + 1) : q.signCode n + c < 2 ^ q.w := by
  have hinf := hq.fits
  have htop := hq.encode_infinity false
  simp only [FD.signCode, Bool.false_eq_true, if_false] at htop
  have hw : 2 ^ q.w = 2 * 2 ^ (q.w - 1) := by rw [← Nat.pow_succ']; exact congrArg _ (by have := hq.w_pos; omega)
  rw [FD.signCode]
  split_ifs <;> omega

theorem FD.Wf.encode_roundTo_lt {m : Nat} {e : Int} (hm : m ≠ 0) : q.encode (roundTo q md n m e) < 2 ^ q.w := by
  rw [encode_roundTo hq (reads_self m e) hm (by simp)]
  exact hq.code_lt ((Nat.min_le_right ..).trans q.cap_le_top_succ)

end

theorem FD.encode_zero (q : FD) (n : Bool) (e : Int) : q.encode (.fin n 0 e) = q.signCode n := rfl

/-! ### The special cases, in the order of R44 -/

section
variable {acc : BitVec 32} {l : List (MatV × MatV)}

theorem slabFp_of_nan (h : (fd32.decode acc.toNat).isNan = true) : slabFp acc l = acc := by
  rw [slabFp]
  cases ha : fd32.decode acc.toNat <;> simp only [ha, FV.isNan, Bool.false_eq_true] at h ⊢

/-- The products of a slab. -/
def slabProds (l : List (MatV × MatV)) : List Prod := l.map fun x => prodOf x.1.v x.2.v

/-- What a slab with no NaN in its accumulator becomes. -/
def slabValue (a : FV) (l : List (MatV × MatV)) : FV :=
  let ts := a.term :: slabProds l
  if l.any fun x => x.1 == .nanScale || x.2 == .nanScale then fd32.genNan 2
  else if l.any fun x => x.1 == .nanElem || x.2 == .nanElem then fd32.genNan 1
  else if (slabProds l).any (· == .bad) then fd32.genNan 4
  else if ts.any (· == .inf false) && ts.any (· == .inf true) then fd32.genNan 3
  else if ts.any (· == .inf false) then .inf false
  else if ts.any (· == .inf true) then .inf true
  else
    match a with
    | .fin n m e => slabFinite ⟨n, m, e⟩ ((slabProds l).filterMap fun | .fin d => some d | _ => none)
    | _ => .inf false

theorem slabFp_of_number {a : FV} (ha : fd32.decode acc.toNat = a) (h : a.isNan = false) :
    slabFp acc l = BitVec.ofNat 32 (fd32.encode (slabValue a l)) := by
  rw [slabFp, ha]
  unfold slabValue
  cases a with
  | nan n fr => cases h
  | inf n =>
    have hts : ((FV.inf n).term :: slabProds l).any (· == .inf n) = true := by simp [FV.term]
    simp only [apply_ite fd32.encode, apply_ite (BitVec.ofNat 32)]
    cases n <;> simp only [hts, ite_true] <;> rfl
  | fin n m e =>
    simp only [apply_ite fd32.encode, apply_ite (BitVec.ofNat 32)]
    rfl

end

/-! ### The finite sum (R43) -/

/-- The number that a sign, a magnitude and an exponent stand for. -/
noncomputable def Dy.real (d : Dy) : ℝ := (FV.fin d.neg d.m d.e).real

/-- A number truncated toward zero to a multiple of 2^g. -/
noncomputable def Dy.cut (g : Int) (d : Dy) : ℝ := (if d.neg then -1 else 1) * (⌊|d.real| / 2 ^ g⌋ * 2 ^ g)

section
variable {d : Dy} {g k : Int}

theorem FV.abs_real (n : Bool) (m : Nat) (e : Int) : |(FV.fin n m e).real| = m * (2 : ℝ) ^ e := by
  have hp : (0 : ℝ) ≤ m * 2 ^ e := mul_nonneg (Nat.cast_nonneg m) (two_zpow_pos e).le
  cases n <;> simp [FV.real, abs_of_nonneg hp]

theorem FV.real_eq_zero (n : Bool) (m : Nat) (e : Int) : (FV.fin n m e).real = 0 ↔ m = 0 := by
  rw [← abs_eq_zero, FV.abs_real, mul_eq_zero, or_iff_left (two_zpow_pos e).ne', Nat.cast_eq_zero]

theorem Dy.exp_bounds (hm : d.m ≠ 0) : (2 : ℝ) ^ d.exp ≤ |d.real| ∧ |d.real| < 2 ^ (d.exp + 1) := by
  have hreads := reads_self d.m d.e
  rw [Dy.real, FV.abs_real, Dy.exp, ← hreads.log_eq hm]
  exact ⟨by exact_mod_cast Int.zpow_log_le_self one_lt_two (hreads.pos hm),
    by exact_mod_cast Int.lt_zpow_succ_log_self (b := 2) one_lt_two (d.m * (2 : ℝ) ^ d.e)⟩

theorem Dy.toInt_real (h : k ≤ d.e) : (d.toInt k : ℝ) * 2 ^ k = d.real := by
  obtain ⟨n, m, e⟩ := d
  rw [Dy.toInt_eq, signedUnits, Dy.real, FV.real, ← two_pow_toNat_mul h]
  cases n <;> push_cast <;> ring

/-- The model's truncation, in units of 2^k, is the truncation to a multiple of 2^g. -/
theorem Dy.trunc_real (h : k ≤ g) : (d.trunc g k : ℝ) * 2 ^ k = d.cut g := by
  have hfloor : (⌊|d.real| / 2 ^ g⌋ : ℝ) = (if g ≤ d.e then d.m * 2 ^ (d.e - g).toNat else d.m / 2 ^ (g - d.e).toNat : Nat) := by
    rw [Dy.real, FV.abs_real, mul_div_assoc, ← zpow_sub₀ two_ne_zero]
    split_ifs with hge
    · rw [← cast_two_pow_toNat (Int.sub_nonneg.2 hge), ← Nat.cast_mul, Int.floor_natCast, Int.cast_natCast]
    · rw [← neg_sub g, zpow_neg, ← cast_two_pow_toNat (by omega), ← div_eq_mul_inv, Int.floor_div_natCast, Int.floor_natCast,
        ← Int.natCast_ediv, Int.cast_natCast]
  rw [Dy.cut, hfloor, Dy.trunc, ← two_pow_toNat_mul h]
  generalize (if g ≤ d.e then d.m * 2 ^ (d.e - g).toNat else d.m / 2 ^ (g - d.e).toNat) = s
  cases d.neg <;> simp only [Bool.false_eq_true, if_true, if_false] <;> push_cast <;> ring

theorem Dy.cut_of_zero (hm : d.m = 0) : d.cut g = 0 := by
  have hreal : d.real = 0 := (FV.real_eq_zero ..).2 hm
  rw [Dy.cut, hreal, abs_zero, zero_div, Int.floor_zero, Int.cast_zero, zero_mul, mul_zero]

/-- The largest exponent of a list. -/
theorem foldl_max_eq {l : List Dy} {a b : Int} (ha : a ≤ b) (hle : ∀ d, d ∈ l → d.exp ≤ b)
    (hex : a = b ∨ ∃ d, d ∈ l ∧ d.exp = b) : l.foldl (fun a d => max a d.exp) a = b := by
  induction l generalizing a with
  | nil => exact hex.resolve_right (by simp)
  | cons d l ih =>
    have hd := hle d List.mem_cons_self
    refine ih (max_le ha hd) (fun x hx => hle x (List.mem_cons_of_mem _ hx)) ?_
    rcases hex with rfl | ⟨x, hx, rfl⟩
    · exact .inl (max_eq_left hd)
    · rcases List.mem_cons.1 hx with rfl | hx
      · exact .inl (max_eq_right ha)
      · exact .inr ⟨x, hx, rfl⟩

theorem foldl_trunc (l : List Dy) (a : Int) : l.foldl (fun a d => a + d.trunc g k) a = a + (l.map fun d => d.trunc g k).sum := by
  induction l generalizing a with
  | nil => simp
  | cons d l ih => rw [List.foldl_cons, ih, List.map_cons, List.sum_cons, Int.add_assoc]

end

section
variable {a : Dy} {ds : List Dy}

theorem slabFinite_of_zero (ha : a.m = 0) (hds : ∀ d, d ∈ ds → d.m = 0) :
    slabFinite a ds = .fin (a.neg && ds.all (·.neg)) 0 0 := by
  have hnone : (ds.filter fun d => d.m != 0).isEmpty = true := by simpa using hds
  rw [slabFinite]
  exact if_pos ⟨hnone, ha⟩

theorem sum_trunc {g k : Int} (h : k ≤ g) (l : List Dy) :
    ((((l.filter fun d => d.m != 0).map fun d => d.trunc g k).sum : Int) : ℝ) * 2 ^ k = (l.map (Dy.cut g)).sum := by
  induction l with
  | nil => simp
  | cons d l ih =>
    rw [List.map_cons, List.sum_cons, ← ih]
    by_cases hd : d.m = 0
    · rw [Dy.cut_of_zero hd, zero_add, List.filter_cons_of_neg (by simp [hd])]
    · rw [List.filter_cons_of_pos (by simp [hd]), List.map_cons, List.sum_cons, Int.cast_add, add_mul, Dy.trunc_real h]

/-- The numbers of a slab that are not zero. -/
def slabTerms (a : Dy) (ds : List Dy) : List Dy :=
  if a.m = 0 then ds.filter fun d => d.m != 0 else a :: ds.filter fun d => d.m != 0

theorem mem_slabTerms {d : Dy} : d ∈ slabTerms a ds ↔ d ∈ a :: ds ∧ d.m ≠ 0 := by
  rw [slabTerms, List.mem_cons]
  split_ifs with ha <;> simp only [List.mem_cons, List.mem_filter, bne_iff_ne]
  · exact ⟨fun h => ⟨.inr h.1, h.2⟩, fun h => ⟨h.1.resolve_left fun hd => h.2 (hd ▸ ha), h.2⟩⟩
  · exact ⟨fun h => h.elim (fun hd => ⟨.inl hd, hd ▸ ha⟩) fun h => ⟨.inr h.1, h.2⟩,
      fun h => h.1.imp_right fun hd => ⟨hd, h.2⟩⟩

section
variable {g : Int} (hge : ∃ d, d ∈ a :: ds ∧ 2 ^ (g + 46) ≤ |d.real|)
include hge

theorem exists_slabTerm : ∃ d, d ∈ slabTerms a ds ∧ 2 ^ (g + 46) ≤ |d.real| := by
  obtain ⟨d, hmem, hbig⟩ := hge
  refine ⟨d, mem_slabTerms.2 ⟨hmem, fun h0 => ?_⟩, hbig⟩
  rw [Dy.real, FV.abs_real, h0, Nat.cast_zero, zero_mul] at hbig
  exact absurd hbig (two_zpow_pos _).not_ge

variable (hlt : ∀ d, d ∈ a :: ds → |d.real| < 2 ^ (g + 47))
include hlt

/-- The greatest exponent, 46 above the step that products are truncated to. -/
theorem slabTerms_emax :
    (slabTerms a ds).foldl (fun a d => max a d.exp) ((slabTerms a ds).headD a).exp = g + 46 := by
  have hle (d : Dy) (hd : d ∈ slabTerms a ds) : d.exp ≤ g + 46 := by
    obtain ⟨hmem, hm⟩ := mem_slabTerms.1 hd
    have := (zpow_lt_zpow_iff_right₀ one_lt_two).1 ((Dy.exp_bounds hm).1.trans_lt (hlt d hmem))
    omega
  obtain ⟨d, hd, hbig⟩ := exists_slabTerm hge
  have hexp : d.exp = g + 46 := by
    have := (zpow_lt_zpow_iff_right₀ one_lt_two).1 (hbig.trans_lt (Dy.exp_bounds (mem_slabTerms.1 hd).2).2)
    have := hle d hd
    omega
  have hhead : (slabTerms a ds).headD a ∈ slabTerms a ds := by
    cases h : slabTerms a ds with
    | nil => rw [h] at hd; cases hd
    | cons x xs => exact List.mem_cons_self
  exact foldl_max_eq (hle _ hhead) hle (.inr ⟨d, hd, hexp⟩)

/-- Where something is not zero, the sum is that of the accumulator and the truncated products, rounded once. -/
theorem slabFinite_spec : ∃ t k : Int, (t : ℝ) * 2 ^ k = a.real + (ds.map (Dy.cut g)).sum
    ∧ slabFinite a ds = if t = 0 then .fin false 0 0 else roundTo fd32 .rne (decide (t < 0)) t.natAbs k := by
  have hemax := slabTerms_emax hge hlt
  have hsome : ¬((ds.filter fun d => d.m != 0).isEmpty = true ∧ a.m = 0) := by
    rintro ⟨hnil, ha⟩
    obtain ⟨d, hd, -⟩ := exists_slabTerm hge
    rw [slabTerms, if_pos ha, List.isEmpty_iff.1 hnil] at hd
    cases hd
  let k := if a.m = 0 then g else min g a.e
  refine ⟨(ds.filter fun d => d.m != 0).foldl (fun s p => s + p.trunc g k) (if a.m = 0 then 0 else a.toInt k), k, ?_,
    (if_neg hsome).trans ?_⟩
  · have hk : k ≤ g := by
      simp only [k]
      split_ifs <;> omega
    have hacc : (((if a.m = 0 then 0 else a.toInt k : Int) : ℝ)) * 2 ^ k = a.real := by
      split_ifs with ha
      · rw [Int.cast_zero, zero_mul]
        exact ((FV.real_eq_zero ..).2 ha).symm
      · exact Dy.toInt_real (by simp only [k, if_neg ha]; omega)
    rw [foldl_trunc, Int.cast_add, add_mul, hacc, sum_trunc hk]
  · rw [slabTerms] at hemax
    simp only [hemax, add_sub_cancel_right]
    rfl

end

end

/-- What the code of a slab's finite sum is the rounding of (R43). -/
theorem slabFinite_rounds {a : Dy} {ds : List Dy} {g : Int} (hge : ∃ d, d ∈ a :: ds ∧ 2 ^ (g + 46) ≤ |d.real|)
    (hlt : ∀ d, d ∈ a :: ds → |d.real| < 2 ^ (g + 47)) :
    let sum := a.real + (ds.map (Dy.cut g)).sum
    let c := fd32.encode (slabFinite a ds)
    (sum = 0 → c = 0) ∧ (sum ≠ 0 → RoundsTo fd32 .rne false (decide (sum < 0)) |sum| c) ∧ c < 2 ^ 32 := by
  intro sum c
  obtain ⟨t, k, hsum, hslab⟩ := slabFinite_spec hge hlt
  replace hsum : (t : ℝ) * 2 ^ k = sum := hsum
  have hp := two_zpow_pos k
  have hzero : sum = 0 ↔ t = 0 := by
    rw [← hsum, mul_eq_zero, or_iff_left hp.ne', Int.cast_eq_zero]
  have hneg : sum < 0 ↔ t < 0 := by
    rw [← hsum, ← zero_mul ((2 : ℝ) ^ k), mul_lt_mul_iff_left₀ hp, Int.cast_lt_zero]
  by_cases ht : t = 0
  · have hc : c = 0 := by simp only [c, hslab, if_pos ht]; rfl
    exact ⟨fun _ => hc, fun hne => absurd (hzero.2 ht) hne, by rw [hc]; decide⟩
  · have hc : c = fd32.encode (roundTo fd32 .rne (decide (t < 0)) t.natAbs k) := by simp only [c, hslab, if_neg ht]
    have hreads : Reads t.natAbs k false |sum| := by
      rw [← hsum, abs_mul, abs_of_pos hp, ← Int.cast_abs, Int.abs_eq_natAbs, Int.cast_natCast]
      exact reads_self ..
    have habs : t.natAbs ≠ 0 := Int.natAbs_ne_zero.2 ht
    refine ⟨fun h => absurd (hzero.1 h) ht, fun _ => ?_, hc ▸ fd32_wf.encode_roundTo_lt habs⟩
    rw [hc, decide_eq_decide.2 hneg]
    exact roundsTo_roundTo fd32_wf habs hreads (by simp)

/-! ### What a slab answers -/

section
variable {a : FV} {l : List (MatV × MatV)}

/-- What stands in the way of a finite sum, in the order of R44. -/
theorem slabValue_special (hnan : a.isNan = false) :
    let ps := slabProds l
    let scaleNan := ∃ x, x ∈ l ∧ (x.1 = .nanScale ∨ x.2 = .nanScale)
    let elemNan := ∃ x, x ∈ l ∧ (x.1 = .nanElem ∨ x.2 = .nanElem)
    let up := a = .inf false ∨ .inf false ∈ ps
    let down := a = .inf true ∨ .inf true ∈ ps
    (scaleNan → slabValue a l = fd32.genNan 2) ∧ (¬scaleNan → elemNan → slabValue a l = fd32.genNan 1)
      ∧ (¬scaleNan → ¬elemNan → (.bad ∈ ps → slabValue a l = fd32.genNan 4)
        ∧ (.bad ∉ ps → (up → down → slabValue a l = fd32.genNan 3) ∧ (up → ¬down → slabValue a l = .inf false)
          ∧ (¬up → down → slabValue a l = .inf true)
          ∧ (¬up → ¬down → ∀ ds : List Dy, ps = ds.map .fin →
            ∃ n m e, a = .fin n m e ∧ slabValue a l = slabFinite ⟨n, m, e⟩ ds))) := by
  intro ps scaleNan elemNan up down
  have hscale : (l.any fun x => x.1 == .nanScale || x.2 == .nanScale) = true ↔ scaleNan := by simp [scaleNan]
  have helem : (l.any fun x => x.1 == .nanElem || x.2 == .nanElem) = true ↔ elemNan := by simp [elemNan]
  have hbad : ps.any (· == .bad) = true ↔ .bad ∈ ps := by simp
  have hinf (n : Bool) : (a.term :: ps).any (· == .inf n) = true ↔ a = .inf n ∨ .inf n ∈ ps := by
    cases a <;> simp [FV.term]
  have hboth : ((a.term :: ps).any (· == .inf false) && (a.term :: ps).any (· == .inf true)) = true ↔ up ∧ down := by
    rw [Bool.and_eq_true, hinf, hinf]
  unfold slabValue
  refine ⟨fun hs => if_pos (hscale.2 hs), fun hs he => ?_, fun hs he => ⟨fun hb => ?_, fun hb => ?_⟩⟩
  · rw [if_neg (hscale.not.2 hs), if_pos (helem.2 he)]
  · rw [if_neg (hscale.not.2 hs), if_neg (helem.not.2 he), if_pos (hbad.2 hb)]
  · rw [if_neg (hscale.not.2 hs), if_neg (helem.not.2 he), if_neg (hbad.not.2 hb)]
    refine ⟨fun hu hd => if_pos (hboth.2 ⟨hu, hd⟩), fun hu hd => ?_, fun hu hd => ?_, fun hu hd ds hds => ?_⟩
    · rw [if_neg (hboth.not.2 fun h => hd h.2), if_pos ((hinf false).2 hu)]
    · rw [if_neg (hboth.not.2 fun h => hu h.1), if_neg ((hinf false).not.2 hu), if_pos ((hinf true).2 hd)]
    · rw [if_neg (hboth.not.2 fun h => hu h.1), if_neg ((hinf false).not.2 hu), if_neg ((hinf true).not.2 hd)]
      cases a with
      | nan n fr => cases hnan
      | inf n => cases n <;> simp [up, down] at hu hd
      | fin n m e =>
        refine ⟨n, m, e, rfl, congrArg (slabFinite ⟨n, m, e⟩) ?_⟩
        rw [show slabProds l = ds.map .fin from hds]
        exact filterMap_fin ds fun _ => rfl

end

end Sys2Proof.Machine
end

section
/-! SUPPORT. Sums, products, slabs and RoundTo together (R37, R39, R43 to R45, R164, R167). -/

namespace Sys2Proof.Machine

theorem toNat_slabInt (acc : BitVec 32) (l : List (Int × Int)) :
    ((slabInt acc l).toNat : Int) = (acc.toNat + (l.map fun x => x.1 * x.2).sum) % 2 ^ 32 := by
  rw [slabInt, BitVec.toNat_add, BitVec.toNat_ofInt]
  push_cast
  rw [Int.toNat_of_nonneg (Int.emod_nonneg _ (by decide)), Int.add_emod_emod]

/-- What a slab whose accumulator is a number leaves in it: the code of its value. -/
theorem toNat_slabFp {acc : BitVec 32} {l : List (MatV × MatV)} (h : (fd32.decode acc.toNat).isNan = false) {x : FV}
    (hx : slabValue (fd32.decode acc.toNat) l = x) (hlt : fd32.encode x < 2 ^ 32) : (slabFp acc l).toNat = fd32.encode x := by
  rw [slabFp_of_number rfl h, hx, BitVec.toNat_ofNat, Nat.mod_eq_of_lt hlt]

/-- Settles O8: sums by their units, slabs by R44's cases in order, RoundTo by the steps on its grid. -/
theorem floatArithmeticAndRounding : Obligations.FloatArithmeticAndRounding := by
  unfold Obligations.FloatArithmeticAndRounding
  refine ⟨⟨fun q md => ?arithmetic, toNat_slabInt, fun acc l => ?slab⟩, fun q n m e hm => ?grid⟩
  case arithmetic =>
    intro sgn once
    refine ⟨fun n p m l e d hm hl => ⟨sumTerms_two hm hl, fun ht => ?sub, sumTerms_one _ _ (Nat.mul_ne_zero hm hl)⟩,
      fun n p r m l j e d c hm hl hj => sumTerms_two (Nat.mul_ne_zero hm hl) hj,
      fun n p e c hc => ⟨rfl, rfl, ?ffma, by cases n <;> rfl, by cases n <;> rfl⟩,
      fun n fr y z hy => ⟨rfl, firstNan_cons hy _ _, rfl, firstNan_cons hy _ _, firstNan_cons hy _ _, rfl, rfl⟩⟩
    case sub =>
      have hsub : sgn n m e (min e d) - sgn p l d (min e d) = signedUnits n m e (min e d) + signedUnits (!p) l d (min e d) := by
        rw [signedUnits_not]; rfl
      rw [hsub] at ht ⊢
      exact sumTerms_two hm hl ht
    case ffma =>
      have hno : firstNan q [.inf n, .fin p 0 e, c] (q.genNan 4) = q.genNan 4 :=
        (firstNan_cons rfl _ _).trans ((firstNan_cons rfl _ _).trans (firstNan_cons hc _ _))
      exact hno
  case slab =>
    intro a out ps scaleNan elemNan up down nan
    refine ⟨slabFp_of_nan, fun hnan => ?_⟩
    obtain ⟨hscale, helem, hrest⟩ := slabValue_special (l := l) hnan
    refine ⟨fun hs => toNat_slabFp hnan (hscale hs) (by decide), fun hs he => toNat_slabFp hnan (helem hs he) (by decide),
      fun hs he => ?_⟩
    obtain ⟨hbad, hgood⟩ := hrest hs he
    refine ⟨fun hb => toNat_slabFp hnan (hbad hb) (by decide), fun hb => ?_⟩
    obtain ⟨hboth, hup, hdown, hfin⟩ := hgood hb
    refine ⟨fun hu hd => toNat_slabFp hnan (hboth hu hd) (by decide), fun hu hd => toNat_slabFp hnan (hup hu hd) (by decide),
      fun hu hd => toNat_slabFp hnan (hdown hu hd) (by decide), fun hu hd ds hds => ?_⟩
    obtain ⟨n, m, e, ha, hval⟩ := hfin hu hd ds hds
    have hreal : a.real = Dy.real ⟨n, m, e⟩ := congrArg FV.real ha
    intro x
    refine ⟨fun hz h0 => ?zero, fun g hlt hge => ?sum⟩
    case zero =>
      have hm : m = 0 := (FV.real_eq_zero n m e).1 (hreal.symm.trans h0)
      have hneg : a.neg = n := congrArg FV.neg ha
      have hcode := fd32.encode_zero (n && ds.all (·.neg)) 0
      have hout := toNat_slabFp hnan (hval.trans (slabFinite_of_zero hm hz)) (hcode ▸ fd32_wf.code_lt (Nat.zero_le _))
      refine (hout.trans hcode).trans (if_congr ?_ rfl rfl)
      rw [hneg, Bool.and_eq_true, List.all_eq_true]
    case sum =>
      have hmem (P : ℝ → Prop) :
          (∃ y, (y = a.real ∨ y ∈ ds.map x) ∧ P y) ↔ ∃ d, d ∈ (⟨n, m, e⟩ :: ds : List Dy) ∧ P d.real := by
        rw [hreal, List.exists_mem_cons_iff]
        simp only [or_and_right, exists_or, exists_eq_left, List.mem_map, exists_exists_and_eq_and]
        rfl
      have hall : ∀ d, d ∈ (⟨n, m, e⟩ :: ds : List Dy) → |d.real| < 2 ^ (g + 47) := by
        have hno := (hmem fun y => ¬|y| < 2 ^ (g + 47)).not.1 (by rintro ⟨y, hy, hbig⟩; exact hbig (hlt y hy))
        exact fun d hd => by_contra fun hbig => hno ⟨d, hd, hbig⟩
      obtain ⟨hzero, hround, hcode⟩ := slabFinite_rounds ((hmem _).1 hge) hall
      have hout := toNat_slabFp hnan hval hcode
      rw [← hreal, ← hout] at hzero hround
      exact ⟨hzero, hround⟩
  case grid =>
    intro k
    refine ⟨fun md => ?_, fun md hk => roundGrid_of_le hk, fun hek => ?_⟩
    · rw [roundTo_eq q md n e false hm]
      simp only [toInfinity_iff]
      rfl
    · intro u z t
      obtain ⟨hdown, hup, hnear, htie⟩ := roundGrid_bounds (m := m) (n := n) hek
      refine ⟨hdown, hup, ?_, ?_, ?_, hnear.1, hnear.2, htie⟩
      · exact (roundGrid_down hek (.inr (.inl ⟨rfl, rfl⟩))).trans (roundGrid_down hek (.inl rfl)).symm
      · exact (roundGrid_down hek (.inr (.inr ⟨rfl, rfl⟩))).trans (roundGrid_down hek (.inl rfl)).symm
      · rw [roundGrid_up hek (.inr ⟨rfl, rfl⟩), roundGrid_up hek (.inl ⟨rfl, rfl⟩)]

end Sys2Proof.Machine
end

section
/-! SUPPORT. The correctly rounded functions (R174): their special cases, and the significands that quotients and roots are read
with. -/

namespace Sys2Proof.Machine

/-! ### Special cases -/

section
variable {q : FD} {md : Rnd}

theorem log2Round_two_pow (j : Nat) (d : Int) :
    log2Round q md (2 ^ j) d = roundTo q md (decide ((j : Int) - d < 0)) ((j : Int) - d).natAbs 0 := by
  rw [log2Round, Nat.log2_two_pow]
  exact if_pos rfl

theorem flg2V_one : flg2V q md (.fin false 1 0) = .fin false 0 0 := by
  have hlog := log2Round_two_pow (q := q) (md := md) 0 0
  rw [pow_zero] at hlog
  rw [flg2V, firstNan_of_none _ (by simp [FV.isNan])]
  simp [hlog, roundTo]

/-- Below -1 there is no logarithm of 1 + a. -/
theorem flg2pV_below {m : Nat} {e : Int} (he : 0 ≤ e) (hm : 1 < m) : flg2pV q md (.fin true m e) = q.genNan 5 := by
  have hne : m * 2 ^ e.toNat ≠ 1 := (hm.trans_le (Nat.le_mul_of_pos_right m (Nat.two_pow_pos _))).ne'
  have hpos : m ≠ 0 := by omega
  rw [flg2pV, firstNan_of_none _ (by simp [FV.isNan])]
  simp only [hpos, he, hne, if_true, if_false]

/-- An odd number of halves has the cosine zero. -/
theorem fcospiV_half {n : Bool} {m : Nat} (hm : m % 2 = 1) : fcospiV q md (.fin n m (-1)) = .fin false 0 0 := by
  have hquarter : 2 * (if 2 < m % 4 then 4 - m % 4 else m % 4) = 2 := by split_ifs <;> omega
  exact (if_neg (by omega)).trans ((if_neg (by decide)).trans (if_pos hquarter))

end

/-! ### Quotients and roots -/

section
variable {m l : Nat} {e d : Int}

/-- The quotient's significand has enough bits. -/
theorem le_quotient (b : Nat) (hm : m ≠ 0) (hl : l ≠ 0) : 2 ^ (b + 1) ≤ m * 2 ^ (b + 4 + l.log2) / l := by
  rw [Nat.le_div_iff_mul_le (Nat.pos_of_ne_zero hl)]
  calc 2 ^ (b + 1) * l ≤ 2 ^ (b + 1) * 2 ^ (l.log2 + 1) := Nat.mul_le_mul_left _ Nat.lt_log2_self.le
    _ = 2 ^ (b + 2 + l.log2) := by ring
    _ ≤ 2 ^ (b + 4 + l.log2) := Nat.pow_le_pow_right two_pos (by omega)
    _ ≤ _ := Nat.le_mul_of_pos_left _ (Nat.pos_of_ne_zero hm)

/-- A quotient of whole numbers, with what its remainder says of the exact one. -/
theorem reads_div (n : Nat) (hl : l ≠ 0) (e : Int) : Reads (n / l) e (n % l != 0) ((n : ℝ) / l * 2 ^ e) := by
  have hp := two_zpow_pos e
  have hpos : (0 : ℝ) < l := Nat.cast_pos.2 (Nat.pos_of_ne_zero hl)
  have hdiv : (n : ℝ) = l * (n / l : Nat) + (n % l : Nat) := by exact_mod_cast (Nat.div_add_mod n l).symm
  have hquot : (n : ℝ) / l = (n / l : Nat) + (n % l : Nat) / (l : ℝ) := by
    rw [div_eq_iff hpos.ne', add_mul, div_mul_cancel₀ _ hpos.ne', mul_comm]
    exact hdiv
  rw [hquot, Reads]
  split_ifs with hrem
  · have hrest : (0 : ℝ) < (n % l : Nat) := Nat.cast_pos.2 (Nat.pos_of_ne_zero (bne_iff_ne.1 hrem))
    have hlt : ((n % l : Nat) : ℝ) < l := Nat.cast_lt.2 (Nat.mod_lt n (Nat.pos_of_ne_zero hl))
    exact ⟨mul_lt_mul_of_pos_right (lt_add_of_pos_right _ (div_pos hrest hpos)) hp,
      mul_lt_mul_of_pos_right (by linarith [(div_lt_one hpos).2 hlt]) hp⟩
  · have hzero : n % l = 0 := by simpa using hrem
    rw [hzero, Nat.cast_zero, zero_div, add_zero]

theorem roundsTo_divRound {q : FD} (hq : q.Wf) (md : Rnd) (n : Bool) (hm : m ≠ 0) (hl : l ≠ 0) :
    RoundsTo q md false n (m * (2 : ℝ) ^ e / (l * (2 : ℝ) ^ d)) (q.encode (divRound q md n m e l d)) := by
  have hbits := le_quotient q.fb hm hl
  have hreads := reads_div (m * 2 ^ (q.fb + 4 + l.log2)) hl (e - d - (q.fb + 4 + l.log2 : Nat))
  have hx : ((m * 2 ^ (q.fb + 4 + l.log2) : Nat) : ℝ) / l * 2 ^ (e - d - (q.fb + 4 + l.log2 : Nat))
      = m * (2 : ℝ) ^ e / (l * (2 : ℝ) ^ d) := by
    rw [zpow_sub₀ two_ne_zero, zpow_sub₀ two_ne_zero, zpow_natCast]
    push_cast
    field_simp
  rw [hx] at hreads
  exact roundsTo_roundTo hq ((Nat.two_pow_pos _).trans_le hbits).ne' hreads fun _ => hbits

end

/-! ### Roots -/

theorem isqrtGo_spec {n : Nat} (b r : Nat) (hlow : r * r ≤ n) (hhigh : n < (r + 2 ^ b) * (r + 2 ^ b)) :
    isqrtGo n b r * isqrtGo n b r ≤ n ∧ n < (isqrtGo n b r + 1) * (isqrtGo n b r + 1) := by
  induction b generalizing r with
  | zero => exact ⟨hlow, hhigh⟩
  | succ b ih =>
    rw [isqrtGo]
    split_ifs with hbit
    · exact ih _ hbit (by rwa [Nat.add_assoc, ← Nat.two_mul, ← Nat.pow_succ'])
    · exact ih _ hlow (not_le.1 hbit)

theorem isqrt_spec (n : Nat) : isqrt n * isqrt n ≤ n ∧ n < (isqrt n + 1) * (isqrt n + 1) := by
  refine isqrtGo_spec _ 0 (Nat.zero_le n) ?_
  rw [Nat.zero_add, ← Nat.pow_add]
  exact Nat.lt_log2_self.trans_le (Nat.pow_le_pow_right two_pos (by omega))

theorem le_isqrt {b n : Nat} (h : 2 ^ (2 * b) ≤ n) : 2 ^ b ≤ isqrt n := by
  have hlt : 2 ^ b * 2 ^ b < (isqrt n + 1) * (isqrt n + 1) := by
    rw [← Nat.pow_add, ← Nat.two_mul]
    exact h.trans_lt (isqrt_spec n).2
  exact Nat.lt_succ_iff.1 (Nat.mul_self_lt_mul_self_iff.1 hlt)

/-- The root of a number that lies between two squares. -/
theorem reads_sqrt {s : Nat} {y : ℝ} {st : Bool} (hlow : (s : ℝ) * s ≤ y) (hhigh : y < (s + 1) * (s + 1))
    (hst : st = false ↔ (s : ℝ) * s = y) (e : Int) : Reads s e st (√y * 2 ^ e) := by
  have hp := two_zpow_pos e
  have hs : (0 : ℝ) ≤ s := Nat.cast_nonneg s
  cases st with
  | false =>
    have hroot : √y = s := by rw [← hst.1 rfl, Real.sqrt_mul_self hs]
    rw [hroot]
    exact reads_self s e
  | true =>
    have hlt : (s : ℝ) * s < y := lt_of_le_of_ne hlow fun h => Bool.true_eq_false.mp (hst.2 h)
    refine ⟨mul_lt_mul_of_pos_right (Real.lt_sqrt_of_sq_lt (by rwa [sq])) hp, mul_lt_mul_of_pos_right ?_ hp⟩
    exact (Real.sqrt_lt' (by linarith)).2 (by rwa [sq])

/-- The significand and the exponent of a number, once its exponent is even. -/
def evenM (m : Nat) (e : Int) : Nat := if e % 2 != 0 then 2 * m else m
def evenE (e : Int) : Int := if e % 2 != 0 then e - 1 else e

section
variable {q : FD} (hq : q.Wf) (md : Rnd) {m : Nat} {e : Int}

theorem evenM_ne_zero (hm : m ≠ 0) : evenM m e ≠ 0 := by
  rw [evenM]
  split_ifs <;> omega

theorem evened (m : Nat) (e : Int) : m * (2 : ℝ) ^ e = evenM m e * (2 ^ (evenE e / 2)) ^ 2 := by
  have hhalf : evenE e / 2 + evenE e / 2 = evenE e := by
    rw [evenE]
    split_ifs with hodd
    · have := bne_iff_ne.1 hodd
      omega
    · have : e % 2 = 0 := by simpa using hodd
      omega
  rw [sq, ← two_zpow_add, hhalf, evenM, evenE]
  split_ifs
  · rw [zpow_sub₀ two_ne_zero]
    push_cast
    field_simp
  · rfl

include hq

/-- A root read with enough bits. -/
theorem roundsTo_root {s : Nat} {y x : ℝ} {st : Bool} {e : Int} (hx : √y * 2 ^ e = x) (hbits : 2 ^ (q.fb + 1) ≤ s)
    (hlow : (s : ℝ) * s ≤ y) (hhigh : y < (s + 1) * (s + 1)) (hst : st = false ↔ (s : ℝ) * s = y) :
    RoundsTo q md false false x (q.encode (roundTo q md false s e st)) :=
  roundsTo_roundTo hq ((Nat.two_pow_pos _).trans_le hbits).ne' (hx ▸ reads_sqrt hlow hhigh hst e) fun _ => hbits

theorem roundsTo_sqrtRound (hm : m ≠ 0) :
    RoundsTo q md false false √(m * (2 : ℝ) ^ e) (q.encode (sqrtRound q md m e)) := by
  have hbits : 2 ^ (q.fb + 4) ≤ isqrt (evenM m e * 2 ^ (2 * (q.fb + 4))) :=
    le_isqrt (Nat.le_mul_of_pos_left _ (Nat.pos_of_ne_zero (evenM_ne_zero hm)))
  obtain ⟨hlow, hhigh⟩ := isqrt_spec (evenM m e * 2 ^ (2 * (q.fb + 4)))
  refine roundsTo_root hq md (y := (evenM m e * 2 ^ (2 * (q.fb + 4)) : Nat)) ?_
    ((Nat.pow_le_pow_right two_pos (by omega)).trans hbits) (by exact_mod_cast hlow) (by exact_mod_cast hhigh)
    (by rw [bne_eq_false_iff_eq]; exact_mod_cast Iff.rfl)
  change √((evenM m e * 2 ^ (2 * (q.fb + 4)) : Nat) : ℝ) * 2 ^ (evenE e / 2 - (q.fb + 4 : Nat)) = _
  rw [evened m e, zpow_sub₀ two_ne_zero, zpow_natCast]
  push_cast
  rw [Real.sqrt_mul (by positivity), Real.sqrt_mul (by positivity), mul_comm 2 (q.fb + 4), pow_mul, Real.sqrt_sq (by positivity),
    Real.sqrt_sq (by positivity)]
  field_simp

theorem roundsTo_rsqrtRound (hm : m ≠ 0) :
    RoundsTo q md false false (1 / √(m * (2 : ℝ) ^ e)) (q.encode (rsqrtRound q md m e)) := by
  have hM := Nat.pos_of_ne_zero (evenM_ne_zero (e := e) hm)
  have hM' : (0 : ℝ) < evenM m e := Nat.cast_pos.2 hM
  generalize hk : q.fb + 4 + (evenM m e).log2 = k
  have hbits : 2 ^ (q.fb + 1) ≤ isqrt (2 ^ (2 * k) / evenM m e) := by
    refine le_isqrt ((Nat.le_div_iff_mul_le hM).2 ?_)
    calc 2 ^ (2 * (q.fb + 1)) * evenM m e ≤ 2 ^ (2 * (q.fb + 1)) * 2 ^ ((evenM m e).log2 + 1) :=
          Nat.mul_le_mul_left _ Nat.lt_log2_self.le
      _ = 2 ^ (2 * (q.fb + 1) + ((evenM m e).log2 + 1)) := (Nat.pow_add ..).symm
      _ ≤ 2 ^ (2 * k) := Nat.pow_le_pow_right two_pos (by omega)
  obtain ⟨hlow, hhigh⟩ := isqrt_spec (2 ^ (2 * k) / evenM m e)
  have hfloor : ((2 ^ (2 * k) / evenM m e : Nat) : ℝ) ≤ 2 ^ (2 * k) / evenM m e := by
    exact_mod_cast Nat.cast_div_le (α := ℝ) (m := 2 ^ (2 * k)) (n := evenM m e)
  have hceil : (2 : ℝ) ^ (2 * k) / evenM m e < (2 ^ (2 * k) / evenM m e : Nat) + 1 := by
    rw [div_lt_iff₀ hM', mul_comm _ (evenM m e : ℝ)]
    exact_mod_cast Nat.lt_mul_div_succ (2 ^ (2 * k)) hM
  have hround := roundsTo_root hq md (s := isqrt (2 ^ (2 * k) / evenM m e)) (y := 2 ^ (2 * k) / evenM m e)
    (x := 1 / √(m * (2 : ℝ) ^ e)) (e := -(evenE e / 2) - k)
    (st := isqrt (2 ^ (2 * k) / evenM m e) * isqrt (2 ^ (2 * k) / evenM m e) * evenM m e != 2 ^ (2 * k)) ?_ hbits
    (le_trans (by exact_mod_cast hlow) hfloor) (hceil.trans_le (by exact_mod_cast hhigh))
    (by rw [bne_eq_false_iff_eq, eq_div_iff hM'.ne']; exact_mod_cast Iff.rfl)
  · rw [← hk] at hround
    exact hround
  · rw [evened m e, zpow_sub₀ two_ne_zero, zpow_natCast, zpow_neg, Real.sqrt_div (by positivity), Real.sqrt_mul (by positivity),
      mul_comm 2 k, pow_mul, Real.sqrt_sq (by positivity), Real.sqrt_sq (by positivity)]
    field_simp

end

end Sys2Proof.Machine
end

section
/-! SUPPORT. The exponential and the logarithm where they are exact or near one, and rounding from bounds that narrow (R174). -/

namespace Sys2Proof.Machine

/-! ### Far above and far below a format's range -/

section
variable {q : FD} (hq : q.Wf) {md : Rnd} {n : Bool} {x : ℝ}
include hq

/-- What lies beyond the range has the last code there is. -/
theorem FD.Wf.cap_le_mag_of_huge (sat : Bool) (hx : 2 ^ (q.maxE + q.fb + 1) ≤ x) : q.cap md sat n ≤ q.mag md n x := by
  refine q.cap_le_top_succ.trans ?_
  have hpos : (0 : ℝ) < 2 ^ (q.maxE + q.fb + 1) := two_zpow_pos _
  refine le_trans ?_ (q.mag_mono hpos hx)
  have hunit : q.unit ((2 : ℝ) ^ (q.maxE + q.fb + 1)) = q.maxE + 1 := by
    have hlog : Int.log 2 ((2 : ℝ) ^ (q.maxE + q.fb + 1)) = q.maxE + q.fb + 1 := by
      exact_mod_cast Int.log_zpow (R := ℝ) one_lt_two (q.maxE + q.fb + 1)
    have := hq.le_maxE
    rw [FD.unit, hlog]
    omega
  have hsteps : (2 : ℝ) ^ (q.maxE + q.fb + 1) / 2 ^ (q.maxE + 1) = (2 ^ q.fb : Nat) := by
    rw [← zpow_sub₀ two_ne_zero, show q.maxE + q.fb + 1 - (q.maxE + 1) = (q.fb : Int) by omega, zpow_natCast]
    push_cast
    rfl
  have hcount : (q.maxE + 1 - q.emin).toNat = (q.maxE - q.emin).toNat + 1 := by have := hq.le_maxE; omega
  have hlt := hq.maxM_lt
  rw [Nat.pow_succ] at hlt
  rw [FD.mag, hunit, hsteps, roundReal_natCast, FD.top, FD.stepCode, FD.stepCode, hcount, Nat.add_mul]
  omega

end

/-! ### Bounds that narrow -/

section
variable {q : FD} {md : Rnd} {n : Bool} {x : ℝ}

/-- A number strictly between two neighbouring multiples of 2^e, no greater than `x`, where `x` lies above the first. -/
theorem exists_reads_le {u : Nat} {e : Int} (hx : u * (2 : ℝ) ^ e < x) : ∃ y, y ≤ x ∧ Reads u e true y := by
  have hp := two_zpow_pos e
  refine ⟨min x ((u + 1 / 2) * 2 ^ e), min_le_left .., lt_min hx (mul_lt_mul_of_pos_right (by linarith) hp), ?_⟩
  exact (min_le_right ..).trans_lt (mul_lt_mul_of_pos_right (by linarith) hp)

theorem reads_half (u : Nat) (e : Int) : Reads u e true ((u + 1 / 2) * 2 ^ e) :=
  ⟨mul_lt_mul_of_pos_right (by linarith) (two_zpow_pos e), mul_lt_mul_of_pos_right (by linarith) (two_zpow_pos e)⟩

/-- A number within 2^32 units of a significand has the code of both ends, where they have one code. -/
theorem roundsTo_of_bounds (hq : q.Wf) {v : Nat} {e : Int} (hbits : 2 ^ (q.fb + 1) + slack ≤ v)
    (hx : |x - v * (2 : ℝ) ^ e| < 2 ^ 32 * (2 : ℝ) ^ e)
    (hends : q.encode (roundTo q md n (v - slack) e true) = q.encode (roundTo q md n (v + slack) e true)) :
    RoundsTo q md false n x (q.encode (roundTo q md n v e true)) := by
  have hp := two_zpow_pos e
  have hslack : (slack : ℝ) = 2 ^ 32 := by norm_num [slack]
  have hlow : ((v - slack : Nat) : ℝ) = v - 2 ^ 32 := by rw [Nat.cast_sub ((Nat.le_add_left ..).trans hbits), hslack]
  have hpos := Nat.two_pow_pos (q.fb + 1)
  obtain ⟨hxl, hxu⟩ := abs_lt.1 hx
  obtain ⟨y, hyx, hy⟩ := exists_reads_le (u := v - slack) (e := e) (x := x) (by rw [hlow, sub_mul]; linarith)
  have hmid := reads_half v e
  have hhigh := reads_half (v + slack) e
  have hle : y ≤ (v + 1 / 2) * 2 ^ e := by
    have hlt := hy.lt
    rw [hlow] at hlt
    exact hlt.le.trans (mul_le_mul_of_nonneg_right (by linarith) hp.le)
  have hge : (v + 1 / 2) * 2 ^ e ≤ (((v + slack : Nat) : ℝ) + 1 / 2) * 2 ^ e := by
    refine mul_le_mul_of_nonneg_right ?_ hp.le
    push_cast
    linarith [Nat.cast_nonneg (α := ℝ) slack]
  have hxle : x ≤ (((v + slack : Nat) : ℝ) + 1 / 2) * 2 ^ e := by
    push_cast
    rw [hslack, add_mul, add_mul]
    have : (0 : ℝ) < 1 / 2 * 2 ^ e := by positivity
    linarith
  have hy0 : 0 < y := hy.pos (by omega)
  have hyx' := q.mag_mono (md := md) (neg := n) hy0 hyx
  have hxu' := q.mag_mono (md := md) (neg := n) (hy0.trans_le hyx) hxle
  have hyc := q.mag_mono (md := md) (neg := n) hy0 hle
  have hcu := q.mag_mono (md := md) (neg := n) (hy0.trans_le hle) hge
  rw [encode_roundTo hq hy (by omega) (fun _ => by omega), encode_roundTo hq hhigh (by omega) (fun _ => by omega)] at hends
  rw [encode_roundTo hq hmid (by omega) (fun _ => by omega)]
  refine roundsTo_of_mag hq fun _ => ?_
  omega

/-- The first of the precisions at which both ends have one code is taken. -/
theorem zivRound_eq (approx : Nat → Nat × Int) (ws : List Nat)
    (h : ∃ w, w ∈ ws ∧ q.encode (roundTo q md n ((approx w).1 - slack) (approx w).2 true)
      = q.encode (roundTo q md n ((approx w).1 + slack) (approx w).2 true)) :
    ∃ w, w ∈ ws ∧ q.encode (roundTo q md n ((approx w).1 - slack) (approx w).2 true)
        = q.encode (roundTo q md n ((approx w).1 + slack) (approx w).2 true)
      ∧ zivRound q md n approx ws = roundTo q md n (approx w).1 (approx w).2 true := by
  induction ws with
  | nil => simp at h
  | cons w ws ih =>
    by_cases hw : q.encode (roundTo q md n ((approx w).1 - slack) (approx w).2 true)
        = q.encode (roundTo q md n ((approx w).1 + slack) (approx w).2 true)
    · exact ⟨w, List.mem_cons_self, hw, by rw [zivRound]; exact if_pos (Or.inl hw)⟩
    · obtain ⟨w', hmem, hw'⟩ := h
      have hmem' : w' ∈ ws := (List.mem_cons.1 hmem).resolve_left fun he => hw (he ▸ hw')
      obtain ⟨w'', hin, hends, hval⟩ := ih ⟨w', hmem', hw'⟩
      have hnot := not_or.2 ⟨hw, List.ne_nil_of_mem hmem'⟩
      exact ⟨w'', List.mem_cons_of_mem _ hin, hends, by rw [zivRound]; exact (if_neg hnot).trans hval⟩

end

end Sys2Proof.Machine
end

section
/-! SUPPORT. 2^a where it is exact, next to one or out of range, log2 of powers of two, and the special cases (R174). -/

namespace Sys2Proof.Machine

/-- The exponents of the formats that operands have (R25). -/
theorem fdOf_range (fm : FFmt) : (fdOf fm).maxE + (fdOf fm).fb + 1 ≤ 1024 ∧ -1074 ≤ (fdOf fm).emin ∧ (fdOf fm).fb ≤ 52 := by
  cases fm <;> decide

/-! ### The exponential -/

section
variable {q : FD} {md : Rnd} {n : Bool} {m : Nat} {e : Int}

theorem fex2V_fin (hm : m ≠ 0) : fex2V q md (.fin n m e) =
    if e + m.log2 < -(q.fb : Int) - 8 then
      if n then roundTo q md false (2 ^ (q.fb + 4) - 1) (-(q.fb : Int) - 4) true
      else roundTo q md false (2 ^ (q.fb + 4)) (-(q.fb : Int) - 4) true
    else if 16 < e + m.log2 then
      if n then roundTo q md false (2 ^ (q.fb + 4)) (-100000) true else roundTo q md false (2 ^ (q.fb + 4)) 100000 true
    else if 0 ≤ e then roundTo q md false 1 (if n then -((m : Int) * 2 ^ e.toNat) else (m : Int) * 2 ^ e.toNat)
    else if ((if n then -(m : Int) else m) % (2 ^ (-e).toNat : Nat)).toNat = 0 then
      roundTo q md false 1 ((if n then -(m : Int) else m) / (2 ^ (-e).toNat : Nat))
    else
      zivRound q md false (fun w => (exp2Fix w (((if n then -(m : Int) else m) % (2 ^ (-e).toNat : Nat)).toNat * 2 ^ w
        / 2 ^ (-e).toNat), (if n then -(m : Int) else m) / (2 ^ (-e).toNat : Nat) - w)) zivBits := by
  rw [fex2V, firstNan_of_none _ (by simp [FV.isNan])]
  exact if_neg hm

/-- The magnitude of a number by the exponent of its leading bit. -/
theorem abs_real_bounds (n : Bool) (hm : m ≠ 0) :
    (2 : ℝ) ^ (e + m.log2) ≤ |(FV.fin n m e).real| ∧ |(FV.fin n m e).real| < 2 ^ (e + m.log2 + 1) :=
  Dy.exp_bounds (d := ⟨n, m, e⟩) hm

theorem real_false : (FV.fin false m e).real = m * (2 : ℝ) ^ e := by simp [FV.real]
theorem real_true : (FV.fin true m e).real = -(m * (2 : ℝ) ^ e) := by simp [FV.real]

/-- Next to one, 2^a lies in the same step as a number a little above or below it. -/
theorem reads_exp_tiny {p : ℝ} (b : Nat) (h0 : 0 < p) (h1 : p < 2 ^ (-(b : Int))) :
    Reads (2 ^ b) (-(b : Int)) true ((2 : ℝ) ^ p) ∧ Reads (2 ^ b - 1) (-(b : Int)) true ((2 : ℝ) ^ (-p)) := by
  have hcast : ((2 ^ b : Nat) : ℝ) * 2 ^ (-(b : Int)) = 1 := by
    rw [zpow_neg, zpow_natCast]
    push_cast
    exact mul_inv_cancel₀ (by positivity)
  have hpred : ((2 ^ b - 1 : Nat) : ℝ) = (2 ^ b : Nat) - 1 := by rw [Nat.cast_sub (Nat.one_le_two_pow), Nat.cast_one]
  have hle : (2 : ℝ) ^ (-(b : Int)) ≤ 1 := zpow_le_one_of_nonpos₀ one_le_two (by omega)
  have hup : (2 : ℝ) ^ p ≤ 1 + p := by
    have hbern := rpow_one_add_le_one_add_mul_self (s := 1) (by norm_num) h0.le (h1.le.trans hle)
    rwa [one_add_one_eq_two, mul_one] at hbern
  have hgt : 1 < (2 : ℝ) ^ p := Real.one_lt_rpow one_lt_two h0
  refine ⟨⟨hcast.symm ▸ hgt, ?_⟩, ?_, ?_⟩
  · rw [add_mul, hcast]
    linarith
  · rw [hpred, sub_mul, hcast, Real.rpow_neg two_pos.le, one_mul]
    have hinv : (1 + p)⁻¹ ≤ ((2 : ℝ) ^ p)⁻¹ := inv_anti₀ (by linarith) hup
    have hlow : 1 - p ≤ (1 + p)⁻¹ := by
      rw [← one_div, le_div_iff₀ (by linarith)]
      nlinarith
    linarith
  · rw [hpred, sub_add_cancel, hcast, Real.rpow_neg two_pos.le]
    exact inv_lt_one_of_one_lt₀ hgt

theorem roundsTo_fex2V_tiny (hq : q.Wf) (hm : m ≠ 0) (htiny : e + m.log2 < -(q.fb : Int) - 8) :
    RoundsTo q md false false ((2 : ℝ) ^ (FV.fin n m e).real) (q.encode (fex2V q md (.fin n m e))) := by
  have hexp : (-(q.fb : Int) - 4) = -((q.fb + 4 : Nat) : Int) := by push_cast; ring
  obtain ⟨hlow, hhigh⟩ := abs_real_bounds (e := e) false hm
  have hp : 0 < m * (2 : ℝ) ^ e := (reads_self m e).pos hm
  rw [real_false, abs_of_pos hp] at hhigh
  obtain ⟨habove, hbelow⟩ := reads_exp_tiny (q.fb + 4) hp (hhigh.trans_le (two_zpow_le (by push_cast; omega)))
  have hbits : 2 ^ (q.fb + 1) ≤ 2 ^ (q.fb + 4) - 1 := by
    rw [Nat.pow_succ, Nat.pow_add _ q.fb 4]
    have := Nat.two_pow_pos q.fb
    omega
  have hpos := Nat.two_pow_pos (q.fb + 1)
  rw [fex2V_fin hm, if_pos htiny, hexp]
  cases n with
  | true =>
    rw [real_true]
    exact roundsTo_roundTo hq (by omega) hbelow fun _ => hbits
  | false =>
    rw [real_false]
    exact roundsTo_roundTo hq (by omega) habove fun _ => by omega

/-- Far from zero, 2^a and the number that is rounded in its place both lie beyond the range, or both below its least step. -/
theorem roundsTo_fex2V_large {fm : FFmt} (hm : m ≠ 0) (hnt : ¬e + m.log2 < -((fdOf fm).fb : Int) - 8) (hlarge : 16 < e + m.log2) :
    RoundsTo (fdOf fm) md false false ((2 : ℝ) ^ (FV.fin n m e).real) ((fdOf fm).encode (fex2V (fdOf fm) md (.fin n m e))) := by
  obtain ⟨hmax, hmin, hfb⟩ := fdOf_range fm
  have hq := fdOf_wf fm
  obtain ⟨hlow, -⟩ := abs_real_bounds (e := e) false hm
  have hp : 0 < m * (2 : ℝ) ^ e := (reads_self m e).pos hm
  rw [real_false, abs_of_pos hp] at hlow
  have hbig : (131072 : ℝ) ≤ m * (2 : ℝ) ^ e := by
    refine le_trans ?_ ((two_zpow_le (show 17 ≤ e + m.log2 by omega)).trans hlow)
    norm_num
  have hpos := Nat.two_pow_pos ((fdOf fm).fb + 4)
  have hbits : 2 ^ ((fdOf fm).fb + 1) ≤ 2 ^ ((fdOf fm).fb + 4) := Nat.pow_le_pow_right two_pos (by omega)
  rw [fex2V_fin hm, if_neg hnt, if_pos hlarge]
  refine roundsTo_of_mag hq fun hx => ?_
  cases n with
  | true =>
    have hread := reads_half (2 ^ ((fdOf fm).fb + 4)) (-100000)
    have htiny : (2 : ℝ) ^ (FV.fin true m e).real < 2 ^ ((fdOf fm).emin - 1) := by
      rw [real_true]
      refine (Real.rpow_lt_rpow_of_exponent_lt one_lt_two ?_).trans_eq (Real.rpow_intCast 2 _)
      have : (-1075 : ℝ) ≤ ((fdOf fm).emin - 1 : Int) := by exact_mod_cast (by omega : -1075 ≤ (fdOf fm).emin - 1)
      linarith
    have htiny' : (((2 ^ ((fdOf fm).fb + 4) : Nat) : ℝ) + 1 / 2) * 2 ^ (-100000 : Int) < 2 ^ ((fdOf fm).emin - 1) := by
      have hle : (((2 ^ ((fdOf fm).fb + 4) : Nat) : ℝ) + 1) ≤ ((2 ^ ((fdOf fm).fb + 5) : Nat) : ℝ) := by
        exact_mod_cast Nat.pow_lt_pow_right one_lt_two (by omega : (fdOf fm).fb + 4 < (fdOf fm).fb + 5)
      refine (hread.lt.trans_le (mul_le_mul_of_nonneg_right hle (two_zpow_pos _).le)).trans_le ?_
      rw [Nat.cast_pow, Nat.cast_two, ← zpow_natCast, ← two_zpow_add]
      exact two_zpow_le (by push_cast; omega)
    rw [if_pos rfl, encode_roundTo hq hread hpos.ne' fun _ => hbits,
      FD.mag_of_tiny (hread.pos hpos.ne') htiny' hx htiny]
  | false =>
    have hread := reads_half (2 ^ ((fdOf fm).fb + 4)) 100000
    have hhuge : 2 ^ ((fdOf fm).maxE + (fdOf fm).fb + 1) ≤ (2 : ℝ) ^ (FV.fin false m e).real := by
      rw [real_false]
      refine (Real.rpow_intCast 2 _).symm.trans_le (Real.rpow_le_rpow_of_exponent_le one_le_two ?_)
      have : (((fdOf fm).maxE + (fdOf fm).fb + 1 : Int) : ℝ) ≤ 1024 := by exact_mod_cast hmax
      linarith
    have hhuge' : (2 : ℝ) ^ ((fdOf fm).maxE + (fdOf fm).fb + 1)
        ≤ (((2 ^ ((fdOf fm).fb + 4) : Nat) : ℝ) + 1 / 2) * 2 ^ (100000 : Int) := by
      refine (two_zpow_le (by omega)).trans (le_mul_of_one_le_left (two_zpow_pos _).le ?_)
      have : (1 : ℝ) ≤ (2 ^ ((fdOf fm).fb + 4) : Nat) := by exact_mod_cast hpos
      linarith
    rw [if_neg Bool.false_ne_true, encode_roundTo hq hread hpos.ne' fun _ => hbits,
      Nat.min_eq_right (hq.cap_le_mag_of_huge false hhuge'), Nat.min_eq_right (hq.cap_le_mag_of_huge false hhuge)]

/-- Where a is an integer, so is the exponent. -/
theorem roundsTo_fex2V_int (hq : q.Wf) (hm : m ≠ 0) (hnt : ¬e + m.log2 < -(q.fb : Int) - 8) (hnl : ¬16 < e + m.log2) {j : Int}
    (hj : (FV.fin n m e).real = j) :
    RoundsTo q md false false ((2 : ℝ) ^ (FV.fin n m e).real) (q.encode (fex2V q md (.fin n m e))) := by
  have hone (j : Int) : RoundsTo q md false false ((2 : ℝ) ^ (j : ℝ)) (q.encode (roundTo q md false 1 j)) := by
    rw [Real.rpow_intCast]
    exact roundsTo_roundTo hq one_ne_zero (by simp [Reads]) (by simp)
  have hsign : (FV.fin n m e).real = ((if n then -(m : Int) else m : Int) : ℝ) * 2 ^ e := by
    cases n <;> simp [FV.real]
  rw [fex2V_fin hm, if_neg hnt, if_neg hnl]
  rcases le_or_gt 0 e with he | he
  · have hval : j = if n then -((m : Int) * 2 ^ e.toNat) else (m : Int) * 2 ^ e.toNat := by
      rw [hsign, ← cast_two_pow_toNat he] at hj
      have hint : (if n then -(m : Int) else m) * (2 ^ e.toNat : Nat) = j := by exact_mod_cast hj
      rw [← hint]
      cases n <;> simp
    rw [if_pos he, hj, ← hval]
    exact hone j
  · have hd : (0 : Int) < (2 ^ (-e).toNat : Nat) := by exact_mod_cast Nat.two_pow_pos _
    have hval : (if n then -(m : Int) else m) = j * (2 ^ (-e).toNat : Nat) := by
      rw [hsign, ← neg_neg e, zpow_neg, ← cast_two_pow_toNat (by omega), ← div_eq_mul_inv,
        div_eq_iff (by exact_mod_cast hd.ne')] at hj
      exact_mod_cast hj
    have hrest : ((if n then -(m : Int) else m) % (2 ^ (-e).toNat : Nat)).toNat = 0 := by rw [hval, Int.mul_emod_left]; rfl
    have hquot : (if n then -(m : Int) else m) / (2 ^ (-e).toNat : Nat) = j := by rw [hval, Int.mul_ediv_cancel _ hd.ne']
    rw [if_neg he.not_ge, if_pos hrest, hquot, hj]
    exact hone j

end

/-! ### The logarithm -/

theorem roundsTo_flg2V {q : FD} (hq : q.Wf) (md : Rnd) (j : Nat) {e : Int} (h : (j : Int) + e ≠ 0) :
    RoundsTo q md false (decide ((j : Int) + e < 0)) |(j : ℝ) + e| (q.encode (flg2V q md (.fin false (2 ^ j) e))) := by
  have hval : flg2V q md (.fin false (2 ^ j) e) = roundTo q md (decide ((j : Int) + e < 0)) ((j : Int) + e).natAbs 0 := by
    rw [flg2V, firstNan_of_none _ (by simp [FV.isNan]), ← sub_neg_eq_add, ← log2Round_two_pow]
    exact (if_neg (Nat.two_pow_pos j).ne').trans (if_neg Bool.false_ne_true)
  have habs : |(j : ℝ) + e| = ((j : Int) + e).natAbs := by
    rw [← Int.cast_natCast (R := ℝ) (((j : Int) + e).natAbs), ← Int.abs_eq_natAbs]
    push_cast
    rfl
  rw [hval]
  exact roundsTo_roundTo hq (Int.natAbs_ne_zero.2 h) (by rw [habs, Reads]; simp) (by simp)

/-- Settles O10: the special cases by their branches; the exact functions by the significands they are read with, the others by
the bounds that enclose them. -/
theorem specialCases : Obligations.SpecialCases := by
  unfold Obligations.SpecialCases
  refine ⟨fun q md n p m e d hm => ?special, fun fm md n p m l e d hm hl => ?exact, fun fm md n x approx ws => ?bounds⟩
  case special =>
    intro x zero bad
    exact ⟨if_neg hm, rfl, rfl, rfl, rfl, if_neg hm, rfl, rfl, rfl, rfl, if_neg hm, rfl, rfl, rfl, flg2V_one, rfl, if_neg hm,
      rfl, rfl, rfl, flg2pV_below, rfl, fun he => if_pos (.inr he), rfl, fcospiV_half, rfl⟩
  case exact =>
    intro q x v
    have hq : q.Wf := fdOf_wf fm
    refine ⟨?div, ?sqrt, ?rcp, ?rsq, fun h => ?ex2, fun j hj => roundsTo_flg2V hq md j hj⟩
    case div =>
      have hval : fdivV q md x (.fin p l d) = divRound q md (n != p) m e l d := (if_neg hl).trans (if_neg hm)
      exact hval ▸ roundsTo_divRound hq md (n != p) hm hl
    case sqrt =>
      have hval : fsqrtV q md (.fin false m e) = sqrtRound q md m e := if_neg hm
      exact hval ▸ roundsTo_sqrtRound hq md hm
    case rcp =>
      have hval : frcpV q md x = divRound q md n 1 0 m e := if_neg hm
      have hone := roundsTo_divRound hq md n (e := 0) (d := e) one_ne_zero hm
      rw [Nat.cast_one, zpow_zero, one_mul] at hone
      exact hval ▸ hone
    case rsq =>
      have hval : frsqV q md (.fin false m e) = rsqrtRound q md m e := if_neg hm
      exact hval ▸ roundsTo_rsqrtRound hq md hm
    case ex2 =>
      by_cases htiny : e + m.log2 < -(q.fb : Int) - 8
      · exact roundsTo_fex2V_tiny hq hm htiny
      by_cases hlarge : 16 < e + m.log2
      · exact roundsTo_fex2V_large hm htiny hlarge
      obtain ⟨j, hj⟩ := h.resolve_right (by simp [htiny, hlarge])
      exact roundsTo_fex2V_int hq hm htiny hlarge hj
  case bounds =>
    intro q ends hbounds hends
    have hq : q.Wf := fdOf_wf fm
    obtain ⟨w, hw, hsame, hval⟩ := zivRound_eq approx ws hends
    obtain ⟨hlarge, hnear⟩ := hbounds w hw
    rw [hval]
    refine roundsTo_of_bounds hq ?_ hnear hsame
    have hfb : 2 ^ (q.fb + 1) ≤ 2 ^ 53 := Nat.pow_le_pow_right two_pos (Nat.succ_le_succ (fdOf_range fm).2.2)
    exact (Nat.add_le_add_right hfb _).trans (le_trans (by decide) hlarge)

end Sys2Proof.Machine
end

section
/-! SUPPORT. Elements placed among the bits of a register (R177, R181). -/

namespace Sys2Proof.Machine

/-! ### Bits -/

theorem testBit_elem (v : Word) (w j i : Nat) : (elem v w j).testBit i = (decide (i < w) && v.getLsbD (w * j + i)) := by
  rw [elem, Nat.testBit_mod_two_pow, Nat.testBit_div_two_pow, Nat.add_comm i]
  rfl

theorem elemsNat_lt (w : Nat) (l : List Nat) : elemsNat w l < 2 ^ (w * l.length) := foldElems_lt w l

theorem testBit_elemsNat {w k i : Nat} (l : List Nat) (hi : i < w) :
    (elemsNat w l).testBit (w * k + i) = (l[k]?.getD 0).testBit i := by
  have hbit := congrArg (Nat.testBit · i) (foldElems_get w l k)
  simp only [Nat.testBit_mod_two_pow, Nat.testBit_div_two_pow, hi, decide_true, Bool.true_and] at hbit
  rw [Nat.add_comm, ← hbit]
  rfl

theorem testBit_elemsNat_of_le {w i : Nat} (l : List Nat) (hi : w * l.length ≤ i) : (elemsNat w l).testBit i = false :=
  Nat.testBit_eq_false_of_lt ((elemsNat_lt w l).trans_le (Nat.pow_le_pow_right two_pos hi))

/-- The bits of a mask that covers `k` bits from bit `p` on. -/
theorem testBit_mask (p k i : Nat) : ((2 ^ k - 1) * 2 ^ p).testBit i = decide (p ≤ i ∧ i < p + k) := by
  rw [Nat.testBit_mul_two_pow, Nat.testBit_two_pow_sub_one, ← Bool.decide_and]
  exact decide_eq_decide.2 (by omega)

/-- Placed elements replace their own bits, and no others. -/
theorem getLsbD_placeElems (d : Word) (w start : Nat) (l : List Nat) {i : Nat} (hi : i < 64) :
    (placeElems d w start l).getLsbD i =
      if w * start ≤ i ∧ i < w * start + w * l.length then (elemsNat w l).testBit (i - w * start) else d.getLsbD i := by
  have hmask := testBit_mask (w * start) (w * l.length) i
  rw [placeElems, BitVec.getLsbD_or, BitVec.getLsbD_and, BitVec.getLsbD_not, BitVec.getLsbD_ofNat, BitVec.getLsbD_ofNat, hmask,
    Nat.testBit_mul_two_pow]
  simp only [hi, decide_true, Bool.true_and]
  split_ifs with hin
  · simp [hin]
  · have hout : (decide (w * start ≤ i) && (elemsNat w l).testBit (i - w * start)) = false := by
      rcases lt_or_ge i (w * start) with hlt | hge
      · simp [hlt.not_ge]
      · rw [testBit_elemsNat_of_le l (by omega), Bool.and_false]
    simp [hin, hout]

/-- Within `len` elements of width `w` from element `start` on lie exactly the bits of those elements. -/
theorem bit_in_elements {w start len j i : Nat} (hi : i < w) :
    (w * start ≤ w * j + i ∧ w * j + i < w * start + w * len) ↔ (start ≤ j ∧ j < start + len) := by
  rw [← Nat.mul_add]
  constructor
  · rintro ⟨hl, hu⟩
    refine ⟨?_, Nat.lt_of_mul_lt_mul_left (a := w) (by omega)⟩
    by_contra hlt
    have := Nat.mul_le_mul_left w (by omega : j + 1 ≤ start)
    rw [Nat.mul_add, Nat.mul_one] at this
    omega
  · rintro ⟨hl, hu⟩
    have h1 := Nat.mul_le_mul_left w hl
    have h2 := Nat.mul_le_mul_left w (by omega : j + 1 ≤ start + len)
    rw [Nat.mul_add, Nat.mul_one] at h2
    omega

theorem elem_placeElems (d : Word) {w : Nat} (start : Nat) (l : List Nat) {j : Nat} (hj : j < 64 / w) :
    elem (placeElems d w start l) w j =
      if start ≤ j ∧ j < start + l.length then l[j - start]?.getD 0 % 2 ^ w else elem d w j := by
  refine Nat.eq_of_testBit_eq fun i => ?_
  rw [testBit_elem]
  rcases lt_or_ge i w with hi | hi
  · have h64 : w * j + i < 64 := by
      have h1 := Nat.mul_le_mul_left w (by omega : j + 1 ≤ 64 / w)
      have h2 := Nat.mul_div_le 64 w
      rw [Nat.mul_add, Nat.mul_one] at h1
      omega
    rw [getLsbD_placeElems _ _ _ _ h64]
    simp only [bit_in_elements hi, hi, decide_true, Bool.true_and]
    split_ifs with hin
    · have hpos : w * j + i - w * start = w * (j - start) + i := by
        have := Nat.mul_le_mul_left w hin.1
        rw [Nat.mul_sub]
        omega
      rw [hpos, testBit_elemsNat _ hi, Nat.testBit_mod_two_pow, decide_eq_true hi, Bool.true_and]
    · rw [testBit_elem, decide_eq_true hi, Bool.true_and]
  · rw [decide_eq_false hi.not_gt, Bool.false_and]
    split_ifs
    · rw [Nat.testBit_mod_two_pow, decide_eq_false hi.not_gt, Bool.false_and]
    · rw [testBit_elem, decide_eq_false hi.not_gt, Bool.false_and]

/-! ### Part P of a register (R177) -/

section
variable {ws wd part : Nat} (op : Nat → Nat) (a d : Word)

theorem convertPart_narrowing (h : wd ≤ ws) {j : Nat} (hj : j < 64 / wd) :
    elem (convertPart ws wd part op a d) wd j =
      if part * (64 / ws) ≤ j ∧ j < part * (64 / ws) + 64 / ws then op (elem a ws (j - part * (64 / ws))) % 2 ^ wd
      else elem d wd j := by
  rw [convertPart, if_pos h, max_eq_left h, elem_placeElems _ _ _ hj, List.length_map, List.length_range]
  split_ifs with hin
  · have hlt : j - part * (64 / ws) < 64 / ws := by omega
    rw [List.getElem?_map, List.getElem?_range hlt]
    rfl
  · rfl

theorem convertPart_widening (h : ws < wd) {j : Nat} (hj : j < 64 / wd) :
    elem (convertPart ws wd part op a d) wd j = op (elem a ws (part * (64 / wd) + j)) % 2 ^ wd := by
  rw [convertPart, if_neg h.not_ge, max_eq_right h.le, elem_mkElems _ hj]

end

end Sys2Proof.Machine
end

section
/-! SUPPORT. What an element becomes by a conversion (R40, R177 to R181). -/

namespace Sys2Proof.Machine

/-! ### Scalings beyond which every result is the same -/

theorem fdOfCode_wf (c : Nat) : (fdOfCode c).Wf := by
  unfold fdOfCode
  split
  exacts [fd64_wf, fd32_wf, fdBf16_wf, fdF16_wf, fdE4m3_wf, fdE5m2_wf]

theorem fdOfCode_range (c : Nat) : (fdOfCode c).maxE + (fdOfCode c).fb + 1 ≤ 1024 ∧ -1074 ≤ (fdOfCode c).emin := by
  unfold fdOfCode
  split <;> decide

theorem fdOfCode_widths (c : Nat) :
    (fdOfCode c).fb ≤ 52 ∧ (2 ^ (fdOfCode c).eb - (fdOfCode c).bias - (fdOfCode c).fb : Int) ≤ 1000
      ∧ (4 ≤ (fdOfCode c).fb → (fdOfCode c).ieee = true) := by
  unfold fdOfCode
  split <;> decide

/-- A magnitude that every scaling beyond 2^20000 takes above all formats, and every one below 2^-20000 beneath them. -/
def Moderate (y : ℝ) : Prop := 2 ^ (-1100 : Int) ≤ y ∧ y < 2 ^ (1100 : Int)

theorem Moderate.pos {y : ℝ} (h : Moderate y) : 0 < y := (two_zpow_pos _).trans_le h.1

theorem moderate_of_bounds {m : Nat} {e : Int} (hm : m ≠ 0) (hm' : m < 2 ^ 65) (he : -1100 ≤ e) (he' : e ≤ 1035) :
    Moderate (m * (2 : ℝ) ^ e) := by
  have hone : (1 : ℝ) ≤ m := by exact_mod_cast Nat.one_le_iff_ne_zero.2 hm
  have hlt : (m : ℝ) < 2 ^ (65 : Int) := by exact_mod_cast hm'
  refine ⟨(two_zpow_le he).trans (le_mul_of_one_le_left (two_zpow_pos e).le hone), ?_⟩
  calc m * (2 : ℝ) ^ e < 2 ^ (65 : Int) * 2 ^ e := mul_lt_mul_of_pos_right hlt (two_zpow_pos e)
    _ = 2 ^ (65 + e) := (two_zpow_add ..).symm
    _ ≤ 2 ^ (1100 : Int) := two_zpow_le (by omega)

/-- A scaling is either as it is asked for, or lies on the same side of every range as the one that is taken instead. -/
theorem clampExp_cases (k : Int) : clampExp k = k ∨ (20000 ≤ k ∧ clampExp k = 20000) ∨ (k ≤ -20000 ∧ clampExp k = -20000) := by
  unfold clampExp
  omega

theorem Moderate.huge {y : ℝ} (h : Moderate y) {k : Int} (hk : 20000 ≤ k) : (2 : ℝ) ^ (18900 : Int) ≤ y * 2 ^ k :=
  calc (2 : ℝ) ^ (18900 : Int) = 2 ^ (-1100 : Int) * 2 ^ (20000 : Int) := by rw [← two_zpow_add]; rfl
    _ ≤ y * 2 ^ k := mul_le_mul h.1 (two_zpow_le hk) (two_zpow_pos _).le h.pos.le

theorem Moderate.tiny {y : ℝ} (h : Moderate y) {k : Int} (hk : k ≤ -20000) : y * 2 ^ k < (2 : ℝ) ^ (-18900 : Int) :=
  calc y * 2 ^ k < 2 ^ (1100 : Int) * 2 ^ k := mul_lt_mul_of_pos_right h.2 (two_zpow_pos k)
    _ ≤ 2 ^ (1100 : Int) * 2 ^ (-20000 : Int) := mul_le_mul_of_nonneg_left (two_zpow_le hk) (two_zpow_pos _).le
    _ = 2 ^ (-18900 : Int) := by rw [← two_zpow_add]; rfl

theorem roundsTo_rounded_clampExp (c : Nat) {md : Rnd} {sat n : Bool} {m : Nat} {e : Int} (hm : m ≠ 0)
    (h : Moderate (m * (2 : ℝ) ^ e)) (k : Int) :
    RoundsTo (fdOfCode c) md sat n (m * (2 : ℝ) ^ (e + k)) ((fdOfCode c).rounded md sat n m (e + clampExp k)) := by
  have hq := fdOfCode_wf c
  obtain ⟨hmax, hmin⟩ := fdOfCode_range c
  have hscale (j : Int) : m * (2 : ℝ) ^ (e + j) = m * 2 ^ e * 2 ^ j := by rw [two_zpow_add, mul_assoc]
  refine roundsTo_of_mag hq fun hx => ?_
  rw [FD.rounded_eq hq _ _ _ _ hm]
  obtain hk | ⟨hk, hk'⟩ | ⟨hk, hk'⟩ := clampExp_cases k
  · rw [hk]
  · have hcap {j : Int} (hj : 20000 ≤ j) : (fdOfCode c).cap md sat n ≤ (fdOfCode c).mag md n (m * (2 : ℝ) ^ (e + j)) :=
      hq.cap_le_mag_of_huge sat ((two_zpow_le (by omega)).trans (hscale j ▸ h.huge hj))
    rw [Nat.min_eq_right (hcap hk'.ge), Nat.min_eq_right (hcap hk)]
  · have hsmall {j : Int} (hj : j ≤ -20000) : m * (2 : ℝ) ^ (e + j) < 2 ^ ((fdOfCode c).emin - 1) :=
      ((hscale j).trans_lt (h.tiny hj)).trans_le (two_zpow_le (by omega))
    have hpos : 0 < m * (2 : ℝ) ^ (e + clampExp k) := (reads_self m _).pos hm
    rw [FD.mag_of_tiny hpos (hsmall hk'.le) hx (hsmall hk)]

/-! ### What a code stands for -/

/-- A number that a format's code stands for. -/
theorem decode_bounds {q : FD} {b m : Nat} {n : Bool} {e : Int} (h : q.decode b = .fin n m e) :
    m < 2 ^ (q.fb + 1) ∧ q.emin ≤ e ∧ (e = q.emin ∨ e < 2 ^ q.eb - q.bias - q.fb) := by
  have hfr : b % 2 ^ q.fb < 2 ^ q.fb := Nat.mod_lt _ (Nat.two_pow_pos _)
  have hex : b / 2 ^ q.fb % 2 ^ q.eb < 2 ^ q.eb := Nat.mod_lt _ (Nat.two_pow_pos _)
  have hemin : q.emin = 1 - (q.bias : Int) - q.fb := rfl
  simp only [FD.decode, beq_iff_eq] at h
  rw [Nat.pow_succ]
  split_ifs at h with h1 h2 h3 h4
  · cases h
    exact ⟨by omega, le_rfl, .inl rfl⟩
  · cases h
    have hex' : ((b / 2 ^ q.fb % 2 ^ q.eb : Nat) : Int) < 2 ^ q.eb := by exact_mod_cast hex
    exact ⟨by omega, by omega, .inr (by omega)⟩

theorem moderate_of_decode {c b m : Nat} {n : Bool} {e : Int} (h : (fdOfCode c).decode b = .fin n m e) (hm : m ≠ 0) :
    Moderate (m * (2 : ℝ) ^ e) := by
  obtain ⟨hlt, hge, hle⟩ := decode_bounds h
  obtain ⟨hfb, heb, -⟩ := fdOfCode_widths c
  obtain ⟨hmax, hmin⟩ := fdOfCode_range c
  have hwf := (fdOfCode_wf c).le_maxE
  exact moderate_of_bounds hm (hlt.trans_le (Nat.pow_le_pow_right two_pos (by omega))) (by omega) (by omega)

/-! ### Narrowing (R178) -/

theorem FD.sat_zero (q : FD) (n : Bool) : q.sat (.fin n 0 0) = .fin n 0 0 := by
  have hno : dyadicGt 0 0 q.maxM q.maxE ≠ true := by
    rw [ne_eq, dyadicGt_iff, Nat.cast_zero, zero_mul]
    exact (mul_nonneg (Nat.cast_nonneg _) (two_zpow_pos _).le).not_gt
  rw [FD.sat, if_neg hno]

theorem rounded_zero (q : FD) (md : Rnd) (sat n : Bool) (e : Int) : q.rounded md sat n 0 e = q.signCode n := by
  have hzero : roundTo q md n 0 e = .fin n 0 0 := if_pos rfl
  simp only [FD.rounded, hzero, FD.sat_zero, ite_self, FD.encode_zero]

theorem convNan_eq (src dst : Nat) (n : Bool) (fr : Nat) : let f := fdOfCode src
    let q := fdOfCode dst
    convNan f q n fr = if f.w = 8 then q.genNan 1 else .nan n (q.quiet + if 4 ≤ q.fb then fr % 16 else 0) := by
  intro f q
  have hieee : 4 ≤ q.fb → q.ieee = true := (fdOfCode_widths dst).2.2
  rw [convNan]
  by_cases hfb : 4 ≤ q.fb
  · simp [hfb, hieee hfb]
  · simp [hfb]

theorem prodOf_fin_inf (n p : Bool) {m : Nat} (e : Int) (hm : m ≠ 0) : prodOf (.fin n m e) (.inf p) = .inf (n != p) := by
  obtain ⟨m, rfl⟩ := Nat.exists_eq_succ_of_ne_zero hm
  rfl

theorem prodOf_inf_fin (n p : Bool) {m : Nat} (e : Int) (hm : m ≠ 0) : prodOf (.inf n) (.fin p m e) = .inf (n != p) := by
  obtain ⟨m, rfl⟩ := Nat.exists_eq_succ_of_ne_zero hm
  rfl

section
variable {src dst b : Nat} (mode : Rnd × Bool) {n : Bool} {m : Nat} {e : Int}

theorem cvtElem_fin (h : (fdOfCode src).decode b = .fin n m e) (k : Int) :
    cvtElem src dst mode k b = (fdOfCode dst).rounded mode.1 mode.2 n m (e + clampExp k) := by
  rw [cvtElem, h]
  rfl

theorem cvtElem_inf (h : (fdOfCode src).decode b = .inf n) (k : Int) :
    cvtElem src dst mode k b = narrow dst mode (.inf n) := by
  rw [cvtElem, h]
  rfl

theorem cvtElem_nan {fr : Nat} (h : (fdOfCode src).decode b = .nan n fr) (k : Int) :
    cvtElem src dst mode k b = (fdOfCode dst).encode (convNan (fdOfCode src) (fdOfCode dst) n fr) := by
  rw [cvtElem, h]

theorem cvtsElem_nan {fr : Nat} (h : (fdOfCode src).decode b = .nan n fr) (y : FV) :
    cvtsElem src dst mode y b = (fdOfCode dst).encode (convNan (fdOfCode src) (fdOfCode dst) n fr) := by
  unfold cvtsElem
  simp only [h]

/-- A product, narrowed. -/
def narrowProd (c : Nat) (mode : Rnd × Bool) : Prod → Nat
  | .bad => (fdOfCode c).encode ((fdOfCode c).genNan 4)
  | .inf n => narrow c mode (.inf n)
  | .fin d => narrow c mode (.fin d.neg d.m d.e)

theorem cvtsElem_number {x y : FV} (h : (fdOfCode src).decode b = x) (hx : x.isNan = false) (hy : y.isNan = false) :
    cvtsElem src dst mode y b = narrowProd dst mode (prodOf x y) := by
  unfold cvtsElem
  rw [h]
  cases x <;> cases y <;> simp only [FV.isNan, Bool.true_eq_false] at hx hy <;> rfl

end

/-! ### Rounding to an integer (R39, R179) -/

section
variable {md : Rnd} {n : Bool} {y : ℝ}

theorem roundReal_floor (hmd : md = .rz ∨ (md = .ru ∧ n = true) ∨ (md = .rd ∧ n = false)) : roundReal md n y = ⌊y⌋₊ := by
  refine roundReal_of_down ?_
  obtain rfl | ⟨rfl, rfl⟩ | ⟨rfl, rfl⟩ := hmd <;> simp [GoesUp]

theorem roundReal_ceil (hy : 0 ≤ y) (hmd : (md = .ru ∧ n = false) ∨ (md = .rd ∧ n = true)) : roundReal md n y = ⌈y⌉₊ := by
  have hup : GoesUp md n ⌊y⌋₊ (y - ⌊y⌋₊) ↔ 0 < y - ⌊y⌋₊ := by
    obtain ⟨rfl, rfl⟩ | ⟨rfl, rfl⟩ := hmd <;> simp [GoesUp]
  have hle := Nat.floor_le hy
  have hlt := Nat.lt_floor_add_one y
  rcases hle.eq_or_lt with he | hr
  · rw [← he, roundReal_natCast, Nat.ceil_natCast]
  · rw [roundReal_of_up (hup.2 (sub_pos.2 hr))]
    refine ((Nat.ceil_eq_iff (Nat.succ_ne_zero _)).2 ⟨?_, ?_⟩).symm
    · simpa using hr
    · exact_mod_cast hlt.le

/-- The nearest integer, and the even one of two that are equally near. -/
theorem roundReal_nearest (hy : 0 ≤ y) {t : Int} (hnear : |y - t| ≤ 1 / 2) (htie : |y - t| = 1 / 2 → t % 2 = 0) :
    t = roundReal .rne n y := by
  have hle := Nat.floor_le hy
  have hlt := Nat.lt_floor_add_one y
  obtain ⟨hl, hu⟩ := abs_le.1 hnear
  have hlow : ((⌊y⌋₊ : Nat) : Int) - 1 < t := by
    have : ((⌊y⌋₊ : Nat) : ℝ) - 1 < t := by linarith
    exact_mod_cast this
  have hhigh : t < ((⌊y⌋₊ : Nat) : Int) + 2 := by
    have : (t : ℝ) < (⌊y⌋₊ : Nat) + 2 := by linarith
    exact_mod_cast this
  have hcases : t = (⌊y⌋₊ : Nat) ∨ t = (⌊y⌋₊ : Nat) + 1 := by omega
  by_cases hup : GoesUp .rne n ⌊y⌋₊ (y - ⌊y⌋₊)
  · rw [roundReal_of_up hup]
    refine hcases.resolve_left fun ht => ?_
    have htr : (t : ℝ) = (⌊y⌋₊ : Nat) := by exact_mod_cast ht
    rcases hup with hgt | ⟨heq, hodd⟩
    · linarith
    · have := htie (by rw [htr, heq]; norm_num)
      omega
  · rw [roundReal_of_down hup]
    refine hcases.resolve_right fun ht => ?_
    have htr : (t : ℝ) = (⌊y⌋₊ : Nat) + 1 := by exact_mod_cast ht
    obtain ⟨hngt, hntie⟩ := not_or.1 hup
    have heq : y - ⌊y⌋₊ = 1 / 2 := by linarith
    have heven := htie (by rw [htr, ← sub_sub, heq]; norm_num)
    exact hntie ⟨heq, by omega⟩

/-- What rounding a signed number to an integer gives is fixed. -/
theorem roundsToInt_unique (hy : 0 ≤ y) {t : Int} (h : RoundsToInt md ((if n then -1 else 1) * y) t) :
    t = if n then -(roundReal md n y : Int) else roundReal md n y := by
  cases n with
  | false =>
    simp only [Bool.false_eq_true, if_false, one_mul] at h ⊢
    cases md with
    | rne => exact roundReal_nearest hy h.1 h.2
    | rz | rd =>
      rw [roundReal_floor (by simp), Int.natCast_floor_eq_floor hy]
      simpa [RoundsToInt, hy] using h
    | ru =>
      rw [roundReal_ceil hy (by simp), Int.natCast_ceil_eq_ceil hy]
      exact h
  | true =>
    simp only [if_true, neg_one_mul] at h ⊢
    refine neg_eq_iff_eq_neg.1 ?_
    cases md with
    | rne =>
      have habs : |y - (-t : Int)| = |-y - t| := by rw [← abs_neg]; push_cast; ring_nf
      exact roundReal_nearest hy (habs ▸ h.1) fun he => by
        have := h.2 (habs ▸ he)
        omega
    | rz =>
      have hup : t = ⌈-y⌉ := by
        simp only [RoundsToInt] at h
        split_ifs at h with hneg
        · rw [h, le_antisymm (neg_nonneg.1 hneg) hy, neg_zero, Int.floor_zero, Int.ceil_zero]
        · exact h
      rw [roundReal_floor (by simp), Int.natCast_floor_eq_floor hy, hup, Int.ceil_neg, neg_neg]
    | ru =>
      simp only [RoundsToInt] at h
      rw [roundReal_floor (by simp), Int.natCast_floor_eq_floor hy, h, Int.ceil_neg, neg_neg]
    | rd =>
      rw [roundReal_ceil hy (by simp), Int.natCast_ceil_eq_ceil hy]
      simp only [RoundsToInt] at h
      rw [h, Int.floor_neg, neg_neg]

end

theorem satInt_eq_clampTo (w : Nat) (sgn : Bool) (t : Int) : satInt w sgn t = clampTo w sgn t := by
  have hpos : (0 : Int) < 2 ^ (w - 1) := by positivity
  have hw' : (0 : Int) < 2 ^ w := by positivity
  cases sgn <;> simp only [satInt, clampTo, Bool.false_eq_true, if_true, if_false] <;> split_ifs <;> omega

/-- Beyond the range both ends stand for the same integer. -/
theorem clampTo_of_huge {w : Nat} (hw : w ≤ 64) (sgn n : Bool) {s t : Nat} (hs : 2 ^ 64 ≤ s) (ht : 2 ^ 64 ≤ t) :
    clampTo w sgn (if n then -(s : Int) else s) = clampTo w sgn (if n then -(t : Int) else t) := by
  have hle : (2 : Int) ^ w ≤ 2 ^ 64 := pow_le_pow_right₀ (by decide) hw
  have hle' : (2 : Int) ^ (w - 1) ≤ 2 ^ 64 := pow_le_pow_right₀ (by decide) (by omega)
  have hs' : (2 : Int) ^ 64 ≤ s := by exact_mod_cast hs
  have ht' : (2 : Int) ^ 64 ≤ t := by exact_mod_cast ht
  have hpos : (0 : Int) < 2 ^ (w - 1) := by positivity
  have hpos' : (0 : Int) < 2 ^ w := by positivity
  cases sgn <;> cases n <;> simp only [clampTo, Bool.false_eq_true, if_true, if_false] <;> omega

theorem roundGrid_zero (md : Rnd) (n : Bool) (m : Nat) (e : Int) :
    roundGrid md n m e 0 false = roundReal md n (m * (2 : ℝ) ^ e) := by
  have hgrid := (reads_self m e).roundGrid_eq md n (k := 0) (by simp)
  rwa [zpow_zero, div_one] at hgrid

/-- A scaled number, rounded to an integer and clamped. -/
theorem clampTo_roundGrid {w : Nat} (hw : w ≤ 64) (sgn : Bool) {md : Rnd} {n : Bool} {m : Nat} {e k t : Int}
    (hmod : m ≠ 0 → Moderate (m * (2 : ℝ) ^ e)) (ht : RoundsToInt md ((FV.fin n m e).real * 2 ^ k) t) :
    clampTo w sgn (if n then -(roundGrid md n m (e + clampExp k) 0 false : Int) else roundGrid md n m (e + clampExp k) 0 false)
      = clampTo w sgn t := by
  have hscale (j : Int) : m * (2 : ℝ) ^ (e + j) = m * 2 ^ e * 2 ^ j := by rw [two_zpow_add, mul_assoc]
  have hreal : (FV.fin n m e).real * 2 ^ k = (if n then -1 else 1) * (m * (2 : ℝ) ^ (e + k)) := by
    rw [FV.real, hscale, mul_assoc]
  rw [hreal] at ht
  rw [roundsToInt_unique (mul_nonneg (Nat.cast_nonneg m) (two_zpow_pos _).le) ht, roundGrid_zero]
  rcases Nat.eq_zero_or_pos m with rfl | hm
  · simp
  replace hmod := hmod hm.ne'
  obtain hk | ⟨hk, hk'⟩ | ⟨hk, hk'⟩ := clampExp_cases k
  · rw [hk]
  · have hbig {j : Int} (hj : 20000 ≤ j) : 2 ^ 64 ≤ roundReal md n (m * (2 : ℝ) ^ (e + j)) := by
      have hle : (((2 ^ 64 : Nat) : ℝ)) ≤ m * (2 : ℝ) ^ (e + j) := by
        refine le_trans ?_ (hscale j ▸ hmod.huge hj)
        exact_mod_cast two_zpow_le (show (64 : Int) ≤ 18900 by decide)
      exact (roundReal_natCast _).symm.trans_le (roundReal_mono hle)
    exact clampTo_of_huge hw sgn n (hbig hk'.ge) (hbig hk)
  · have hpos (j : Int) : 0 < m * (2 : ℝ) ^ j := (reads_self m _).pos hm.ne'
    have hsmall {j : Int} (hj : j ≤ -20000) : m * (2 : ℝ) ^ (e + j) < 1 / 2 := by
      refine ((hscale j).trans_lt (hmod.tiny hj)).trans_le ?_
      rw [one_div, ← zpow_neg_one]
      exact two_zpow_le (by decide)
    rw [roundReal_of_lt_half (hpos _) (hsmall hk'.le) (hpos _) (hsmall hk)]

section
variable {src b w : Nat} {sgn : Bool} {md : Rnd} {k : Int} {n : Bool}

theorem cvtiElem_fin {m : Nat} {e : Int} (h : (fdOfCode src).decode b = .fin n m e) : cvtiElem src w sgn md k b =
    wrap w (clampTo w sgn (if n then -(roundGrid md n m (e + clampExp k) 0 false : Int)
      else roundGrid md n m (e + clampExp k) 0 false)) := by
  rw [cvtiElem, h, ← satInt_eq_clampTo]

theorem cvtiElem_inf (hw : w ≤ 64) (h : (fdOfCode src).decode b = .inf n) :
    cvtiElem src w sgn md k b = wrap w (clampTo w sgn (if n then -(2 ^ 64) else 2 ^ 64)) := by
  rw [cvtiElem, h]
  simp only [satInt_eq_clampTo]
  exact_mod_cast congrArg (wrap w) (clampTo_of_huge hw sgn n (s := 2 ^ 200) (t := 2 ^ 64) (by decide) (by decide))

theorem cvtiElem_nan {fr : Nat} (h : (fdOfCode src).decode b = .nan n fr) : cvtiElem src w sgn md k b = 0 := by
  rw [cvtiElem, h]

end

/-! ### Integers converted (R180, R181) -/

theorem natAbs_toInt_le (w : Nat) (sgn : Bool) (b : Nat) : (toInt w sgn (b % 2 ^ w)).natAbs ≤ 2 ^ w := by
  have hlt : b % 2 ^ w < 2 ^ w := Nat.mod_lt _ (Nat.two_pow_pos w)
  have hcast : ((2 ^ w : Nat) : Int) = 2 ^ w := by push_cast; rfl
  rw [toInt]
  split_ifs <;> omega

theorem packInt_eq (ws wd : Nat) (sgn sat : Bool) (b : Nat) :
    packInt ws wd sgn sat b = wrap wd (if sat then clampTo wd sgn (toInt ws sgn b) else toInt ws sgn b) := by
  rw [packInt, satInt_eq_clampTo]

/-- Settles O11: the placing by elements; each conversion by what its source stands for. -/
theorem conversions : Obligations.Conversions := by
  unfold Obligations.Conversions
  refine ⟨⟨fun w s fmt cc src part o hu hw => ?words, fun w s fmt cc src part o hu hw => w.writes_of hw hu rfl rfl⟩,
    fun ws wd part op a d hws hwd hpart => ?placing, fun src dst mode k b hsrc hdst => ?floats,
    fun src w sgn md k b hsrc hw hw' => ?toInts, fun dst w mode sgn k b hdst hw hw' => ?fromInts,
    fun ws wd sgn sat b hwd => packInt_eq ws wd sgn sat b⟩
  case words =>
    exact ⟨⟨_, w.completes_of hw hu rfl rfl, rfl⟩, ⟨_, w.completes_of hw hu rfl rfl, rfl⟩, ⟨_, w.completes_of hw hu rfl rfl, rfl⟩,
      ⟨_, w.completes_of hw hu rfl rfl, rfl⟩, ⟨_, w.completes_of hw hu rfl rfl, rfl⟩⟩
  case placing =>
    intro n v
    refine ⟨fun hle j hj => ?_, fun hlt j hj => ?_⟩
    · have hmax : max ws wd = ws := max_eq_left hle
      simp only [v, n, hmax]
      exact convertPart_narrowing op a d hle hj
    · have hmax : max ws wd = wd := max_eq_right hlt.le
      simp only [v, n, hmax] at hj ⊢
      exact convertPart_widening op a d hlt hj
  case floats =>
    intro f q x signed endless quiet
    refine ⟨fun n m e hx hm => ?_, fun n e hx => ?_, fun n hx => cvtElem_inf mode hx k, fun n fr hx => ?_, fun p l d hl => ?_⟩
    · rw [cvtElem_fin mode hx]
      exact roundsTo_rounded_clampExp dst hm (moderate_of_decode hx hm) k
    · rw [cvtElem_fin mode hx]
      exact rounded_zero ..
    · refine ⟨(cvtElem_nan mode hx k).trans ?_, fun y => (cvtsElem_nan mode hx y).trans ?_⟩
      all_goals exact congrArg q.encode (convNan_eq src dst n fr)
    · intro y
      refine ⟨fun n m e hx hm => ⟨?_, ?_⟩, fun n e hx => ⟨?_, cvtsElem_number mode hx rfl rfl⟩,
        fun n hx => ⟨?_, cvtsElem_number mode hx rfl rfl⟩⟩
      · have hval : cvtsElem src dst mode y b = q.rounded mode.1 mode.2 (n != p) (m * l) (e + d) :=
          cvtsElem_number mode hx rfl rfl
        rw [hval, ← Nat.cast_mul]
        exact roundsTo_rounded (fdOfCode_wf dst) (Nat.mul_ne_zero hm hl)
      · exact (cvtsElem_number mode hx rfl rfl).trans (congrArg (narrowProd dst mode) (prodOf_fin_inf n p e hm))
      · have hval : cvtsElem src dst mode y b = q.rounded mode.1 mode.2 (n != p) (0 * l) (e + d) :=
          cvtsElem_number mode hx rfl rfl
        rw [hval, Nat.zero_mul]
        exact rounded_zero ..
      · exact (cvtsElem_number mode hx rfl rfl).trans (congrArg (narrowProd dst mode) (prodOf_inf_fin n p d hl))
  case toInts =>
    intro x out
    exact ⟨fun n m e t hx ht => (cvtiElem_fin hx).trans
        (congrArg (wrap w) (clampTo_roundGrid hw' sgn (fun hm => moderate_of_decode hx hm) ht)),
      fun n hx => cvtiElem_inf hw' hx, fun n fr hx => cvtiElem_nan hx⟩
  case fromInts =>
    intro v out
    have hout : out = (fdOfCode dst).rounded mode.1 mode.2 (decide (v < 0)) v.natAbs (0 + clampExp k) := by
      rw [Int.zero_add]
      rfl
    refine ⟨fun hv => ?_, fun hv => ?_⟩
    · rw [hout, hv]
      exact rounded_zero ..
    · have habs : v.natAbs ≠ 0 := Int.natAbs_ne_zero.2 hv
      have hlt : v.natAbs < 2 ^ 65 :=
        ((natAbs_toInt_le w sgn b).trans (Nat.pow_le_pow_right two_pos hw')).trans_lt (by decide)
      have hround := roundsTo_rounded_clampExp dst (md := mode.1) (sat := mode.2) (n := decide (v < 0)) habs
        (moderate_of_bounds (e := 0) habs hlt (by decide) (by decide)) k
      rw [Int.zero_add] at hround
      exact hout ▸ hround

end Sys2Proof.Machine
end

section
/-! SUPPORT. Scale bytes, and block elements quantised on their scale (R29, R30, R183, R184). -/

namespace Sys2Proof.Machine

/-! ### Scale bytes (R183) -/

/-- The largest magnitude on a scale of one (R29, R30). -/
noncomputable def blockTop (code : Nat) : ℝ := (scaleF code).1 * (2 : ℝ) ^ (scaleF code).2

theorem blockTop_eq (code : Nat) : blockTop code = if code = 6 then 6 else (2 ^ bxM code - 1) / 2 ^ (bxM code - 1) := by
  rw [blockTop, scaleF]
  split_ifs with h6
  · norm_num
  · have hM : 1 ≤ bxM code := by rw [bxM]; split_ifs <;> omega
    have hpow : (2 : ℝ) ^ (1 - (bxM code : Int)) = ((2 : ℝ) ^ (bxM code - 1))⁻¹ := by
      rw [← zpow_natCast, ← zpow_neg]
      congr 1
      omega
    rw [hpow, Nat.cast_sub Nat.one_le_two_pow, ← div_eq_mul_inv]
    push_cast
    rfl

theorem atMost_iff {n : Bool} {v : Nat} {e k : Int} {code : Nat} :
    (FV.fin n v e).atMost code k = true ↔ v * (2 : ℝ) ^ e ≤ blockTop code * 2 ^ k := by
  rw [FV.atMost, Bool.not_eq_true', ← Bool.not_eq_true, dyadicGt_iff, not_lt, blockTop, two_zpow_add, mul_assoc]

/-- The least scale whose range holds the magnitude. -/
theorem scaleByte_spec (code : Nat) (n : Bool) (v : Nat) (e : Int) : let sc := scaleByte code (.fin n v e)
    sc ≤ 254 ∧ (∀ j : Nat, j < sc → blockTop code * (2 : ℝ) ^ ((j : Int) - 127) < v * (2 : ℝ) ^ e)
      ∧ (sc < 254 → v * (2 : ℝ) ^ e ≤ blockTop code * (2 : ℝ) ^ ((sc : Int) - 127)) := by
  intro sc
  have hsc : sc = ((List.range 255).find? fun (j : Nat) => (FV.fin n v e).atMost code ((j : Int) - 127)).getD 254 := rfl
  have hout {j : Nat} (hj : (!(FV.fin n v e).atMost code ((j : Int) - 127)) = true) :
      blockTop code * (2 : ℝ) ^ ((j : Int) - 127) < v * (2 : ℝ) ^ e :=
    not_le.1 (atMost_iff.not.1 (by simpa using hj))
  cases hfind : (List.range 255).find? fun (j : Nat) => (FV.fin n v e).atMost code ((j : Int) - 127) with
  | none =>
    rw [hfind, Option.getD_none] at hsc
    exact ⟨hsc.le, fun j hj => hout (List.find?_range_eq_none.1 hfind j (by omega)), fun hlt => by omega⟩
  | some i =>
    rw [hfind, Option.getD_some] at hsc
    obtain ⟨hi, hmem, hbefore⟩ := List.find?_range_eq_some.1 hfind
    have := List.mem_range.1 hmem
    exact ⟨by omega, fun j hj => hout (hbefore j (by omega)), fun _ => hsc ▸ atMost_iff.1 hi⟩

/-! ### Quantising (R184) -/

/-- RoundTo keeps the sign, and makes no NaN. -/
theorem roundTo_cases (q : FD) (md : Rnd) (n : Bool) (m : Nat) (e : Int) :
    roundTo q md n m e = .inf n ∨ ∃ g k, roundTo q md n m e = .fin n g k := by
  by_cases hm : m = 0
  · exact .inr ⟨0, 0, if_pos hm⟩
  · rw [roundTo_eq q md n e false hm]
    dsimp only
    split_ifs
    · exact .inl rfl
    · exact .inr ⟨_, _, rfl⟩
    · exact .inr ⟨_, _, rfl⟩

section
variable (mode : Rnd × Bool) (n : Bool) (v : Nat) (e : Int)

theorem quantise_mx (mu : Nat) {sc : Nat} (hsc : sc ≤ 255) : quantise 6 mode sc mu (.fin n v e) =
    let y := roundTo fdE2m1 mode.1 n v (e + 127 - sc)
    if y.isInf then (if mode.2 then some ((if n then 8 else 0) + 7) else none) else some (fdE2m1.encode y) := by
  have hclamp : e + clampExp (127 - sc) = e + 127 - sc := by
    unfold clampExp
    omega
  rw [quantise, if_pos rfl]
  simp only [FV.scale, FV.round, hclamp]
  obtain hy | ⟨g, k, hy⟩ := roundTo_cases fdE2m1 mode.1 n v (e + 127 - sc)
  · rw [hy]
    cases n <;> rfl
  · rw [hy]
    rfl

/-- The number of grid steps of an element of a BX block (R30). -/
theorem quantise_bx {code : Nat} (h6 : code ≠ 6) (sc mu : Nat) : quantise code mode sc mu (.fin n v e) =
    let t := roundReal mode.1 n (v * (2 : ℝ) ^ (e + 127 + mu - sc + (bxM code - 1)))
    if 2 ^ bxM code ≤ t ∧ toInfinity mode.1 n = true ∧ mode.2 = false then none
    else some ((if n then 2 ^ bxM code else 0) + min t (2 ^ bxM code - 1)) := by
  rw [quantise, if_neg h6, ← roundGrid_zero]
  simp only [← Bool.not_eq_true']
  rfl

end

end Sys2Proof.Machine
end

section
/-! SUPPORT. Blocks unpacked and packed: the wide elements, and the bits of the element and scale registers (R184, R185). -/

namespace Sys2Proof.Machine

/-! ### Unpacking (R185) -/

theorem FD.Wf.rounded_lt {q : FD} (hq : q.Wf) (md : Rnd) (sat n : Bool) (m : Nat) (e : Int) :
    q.rounded md sat n m e < 2 ^ q.w := by
  rcases Nat.eq_zero_or_pos m with rfl | hm
  · rw [rounded_zero]
    exact hq.code_lt (Nat.zero_le _)
  · rw [FD.rounded_eq hq _ _ _ _ hm.ne']
    exact hq.code_lt ((Nat.min_le_right ..).trans q.cap_le_top_succ)

theorem wideFd_wf (wide : Nat) : (wideFd wide).Wf := by
  unfold wideFd
  split
  exacts [fd32_wf, fdBf16_wf, fdF16_wf]

theorem wideFd_genNan_lt (wide : Nat) : (wideFd wide).encode ((wideFd wide).genNan 2) < 2 ^ (wideFd wide).w := by
  unfold wideFd
  split <;> decide

/-! The sign, the significand and the exponent of a block's element under its scale (R29, R30). -/

def blockNeg (code c : Nat) : Bool := if code = 6 then c / 8 % 2 == 1 else c / 2 ^ bxM code % 2 == 1
def blockMant (code c : Nat) : Nat := if code = 6 then (e2m1Mag (c % 8)).1 else c % 2 ^ bxM code
def blockExp (code sc mu c : Nat) : Int :=
  if code = 6 then (e2m1Mag (c % 8)).2 + sc - 127 else (sc : Int) - 127 - mu - (bxM code - 1)

theorem blockValue_eq (code sc mu c : Nat) :
    blockValue code sc mu c = .fin (blockNeg code c) (blockMant code c) (blockExp code sc mu c) := by
  rw [blockValue, blockNeg, blockMant, blockExp]
  split_ifs <;> rfl

/-- One wide element: NaN under the scale 0xFF, otherwise the element's magnitude on its scale, rounded once. -/
theorem elem_blockUnpack {code wide part sel : Nat} {cv : BitVec 32} {lo hi b : Word} {k : Nat} (hk : k < 64 / (wideFd wide).w) :
    let f := wideFd wide
    let mode : Rnd × Bool := if wide = 0 then (.rne, false) else cvField cv (if wide = 1 then 2 else 3)
    let j := part * (64 / f.w) + k
    let raw := (lo.toNat + 2 ^ 64 * hi.toNat) / 2 ^ (codeWidth code * j) % 2 ^ codeWidth code
    let mu := getByte b (sel + 1) / 2 ^ (j / 2) % 2
    elem (blockUnpack code wide part sel cv lo hi b) f.w k =
      if getByte b sel = 0xFF then f.encode (f.genNan 2)
      else f.rounded mode.1 mode.2 (blockNeg code raw) (blockMant code raw) (blockExp code (getByte b sel) mu raw) := by
  intro f mode j raw mu
  have hmu : blockExp code (getByte b sel) (if code = 6 then 0 else mu) raw = blockExp code (getByte b sel) mu raw := by
    rw [blockExp, blockExp]
    split_ifs <;> rfl
  rw [blockUnpack, elem_mkElems _ hk]
  rcases eq_or_ne (getByte b sel) 0xFF with hsc | hsc
  · rw [if_pos hsc, if_pos hsc]
    exact Nat.mod_eq_of_lt (wideFd_genNan_lt wide)
  · rw [if_neg hsc, if_neg hsc, ← hmu]
    simp only [blockValue_eq]
    exact Nat.mod_eq_of_lt ((wideFd_wf wide).rounded_lt mode.1 mode.2 (blockNeg code raw) (blockMant code raw) _)

/-- The magnitudes of E2M1 (R29). -/
theorem e2m1Mag_real {c : Nat} (hc : c < 8) :
    (e2m1Mag c).1 * (2 : ℝ) ^ (e2m1Mag c).2 = ([0, 1 / 2, 1, 3 / 2, 2, 3, 4, 6] : List ℝ).getD c 0 := by
  interval_cases c <;> norm_num [e2m1Mag]

theorem e2m1Mag_eq_zero {c : Nat} (hc : c < 8) : (e2m1Mag c).1 = 0 ↔ c = 0 := by
  interval_cases c <;> decide

section
variable {code : Nat} (hcode : code ∈ [6, 7, 8, 9])
include hcode

/-- Below the sign of an element lies its magnitude. -/
theorem codeWidth_block : codeWidth code = (if code = 6 then 3 else bxM code) + 1 := by
  fin_cases hcode <;> rfl

theorem blockNeg_eq {c : Nat} (hc : c < 2 ^ codeWidth code) : blockNeg code c = decide (2 ^ (codeWidth code - 1) ≤ c) := by
  rw [codeWidth_block hcode] at hc ⊢
  have hbit (m : Nat) (hm : c < 2 ^ (m + 1)) : (c / 2 ^ m % 2 == 1) = decide (2 ^ m ≤ c) := by
    have hlt : c / 2 ^ m < 2 := Nat.div_lt_of_lt_mul hm
    have hone := Nat.le_div_iff_mul_le (Nat.two_pow_pos m) (x := 1) (y := c)
    rw [Bool.eq_iff_iff, beq_iff_eq, decide_eq_true_eq]
    generalize c / 2 ^ m = t at hlt hone
    omega
  rw [blockNeg, Nat.add_sub_cancel]
  split_ifs at hc ⊢
  exacts [hbit 3 hc, hbit _ hc]

theorem blockMant_eq_zero (c : Nat) : blockMant code c = 0 ↔ c % 2 ^ (codeWidth code - 1) = 0 := by
  rw [codeWidth_block hcode, Nat.add_sub_cancel, blockMant]
  split_ifs
  · exact e2m1Mag_eq_zero (Nat.mod_lt c (by decide))
  · rfl

theorem block_real (sc mu c : Nat) : let mag := c % 2 ^ (codeWidth code - 1)
    blockMant code c * (2 : ℝ) ^ blockExp code sc mu c =
      if code = 6 then ([0, 1 / 2, 1, 3 / 2, 2, 3, 4, 6] : List ℝ).getD mag 0 * (2 : ℝ) ^ ((sc : Int) - 127)
      else mag * ((2 : ℝ) ^ ((sc : Int) - 127 - mu) / 2 ^ (bxM code - 1)) := by
  have hM : ((bxM code - 1 : Nat) : Int) = (bxM code : Int) - 1 := by rw [bxM]; split_ifs <;> rfl
  rw [codeWidth_block hcode, Nat.add_sub_cancel, blockMant, blockExp]
  split_ifs
  · rw [add_sub_assoc, two_zpow_add, ← mul_assoc, e2m1Mag_real (Nat.mod_lt c (by decide))]
    rfl
  · rw [← hM, zpow_sub₀ two_ne_zero, zpow_natCast]

end

end Sys2Proof.Machine
end

section
/-! SUPPORT. Packing a block: the bits of the element register and the bytes of the scale register (R184). -/

namespace Sys2Proof.Machine

/-! ### Bits replaced in a number -/

theorem and_mask (x p k : Nat) : x &&& ((2 ^ k - 1) * 2 ^ p) = x / 2 ^ p % 2 ^ k * 2 ^ p := by
  refine Nat.eq_of_testBit_eq fun i => ?_
  rw [Nat.testBit_and, testBit_mask, Nat.testBit_mul_two_pow, Nat.testBit_mod_two_pow, Nat.testBit_div_two_pow]
  rcases lt_or_ge i p with hi | hi
  · simp [hi.not_ge]
  · rw [Nat.sub_add_cancel hi, decide_eq_true hi, Bool.true_and, Bool.and_comm]
    exact congrArg (· && _) (decide_eq_decide.2 (by omega))

/-- A field of a number taken out and another put in its place. -/
theorem testBit_replaceField (x p k i : Nat) {y : Nat} (hy : y < 2 ^ k) :
    (x - (x &&& ((2 ^ k - 1) * 2 ^ p)) + y * 2 ^ p).testBit i = if p ≤ i ∧ i < p + k then y.testBit (i - p) else x.testBit i := by
  have hsplit : x - x / 2 ^ p % 2 ^ k * 2 ^ p + y * 2 ^ p = x % 2 ^ p + y % 2 ^ k * 2 ^ p + x / 2 ^ (p + k) * 2 ^ (p + k) := by
    have hlow := Nat.div_add_mod' x (2 ^ p)
    have hmid := Nat.div_add_mod' (x / 2 ^ p) (2 ^ k)
    rw [Nat.div_div_eq_div_mul, ← Nat.pow_add] at hmid
    have hx : x / 2 ^ p * 2 ^ p = x / 2 ^ (p + k) * 2 ^ (p + k) + x / 2 ^ p % 2 ^ k * 2 ^ p := by
      conv_lhs => rw [← hmid]
      rw [Nat.add_mul, Nat.mul_assoc, ← Nat.pow_add, Nat.add_comm k p]
    rw [Nat.mod_eq_of_lt hy]
    omega
  rw [and_mask, hsplit, testBit_replaced]

theorem testBit_clear (x p i : Nat) : (x - (x &&& 2 ^ p)).testBit i = if i = p then false else x.testBit i := by
  have hfield := testBit_replaceField x p 1 i (y := 0) (by decide)
  rw [Nat.zero_mul, Nat.add_zero, pow_one, Nat.one_mul, Nat.zero_testBit] at hfield
  rw [hfield]
  exact if_congr (by omega) rfl rfl

theorem testBit_set (x p i : Nat) : (x ||| 2 ^ p).testBit i = if i = p then true else x.testBit i := by
  rw [Nat.testBit_or, Nat.testBit_two_pow]
  by_cases h : i = p
  · simp [h]
  · simp [h, Ne.symm h]

/-! ### Bytes of the scale register -/

theorem getByte_setByte (v : Word) {k j : Nat} (b : Nat) (hj : j < 8) :
    getByte (setByte v k b) j = if j = k then b % 2 ^ 8 else getByte v j := by
  rw [getByte, setByte, elem_placeElems v k [b] (by omega)]
  split_ifs with h1 h2 h2
  · rw [h2, Nat.sub_self]
    rfl
  · simp only [List.length_singleton] at h1
    omega
  · simp only [List.length_singleton] at h1
    omega
  · rfl

/-- The micro-exponents of a part, one bit each, from bit `base` on. -/
def putMus (mu : Nat → Nat) (base cnt m0 : Nat) : Nat :=
  (List.range cnt).foldl (fun acc i => if mu (2 * i) = 1 then acc ||| 2 ^ (base + i) else acc - (acc &&& 2 ^ (base + i))) m0

theorem testBit_putMus (mu : Nat → Nat) (base cnt m0 i : Nat) : (putMus mu base cnt m0).testBit i =
    if base ≤ i ∧ i < base + cnt then mu (2 * (i - base)) == 1 else m0.testBit i := by
  induction cnt with
  | zero => rw [if_neg (by omega)]; rfl
  | succ cnt ih =>
    rw [putMus, List.range_succ, List.foldl_append, List.foldl_cons, List.foldl_nil]
    have hstep : (if mu (2 * cnt) = 1 then putMus mu base cnt m0 ||| 2 ^ (base + cnt)
        else putMus mu base cnt m0 - (putMus mu base cnt m0 &&& 2 ^ (base + cnt))).testBit i =
        if i = base + cnt then mu (2 * cnt) == 1 else (putMus mu base cnt m0).testBit i := by
      by_cases hmu : mu (2 * cnt) = 1
      · rw [if_pos hmu, testBit_set, hmu]
        rfl
      · rw [if_neg hmu, testBit_clear, beq_false_of_ne hmu]
    refine hstep.trans ?_
    rw [ih]
    by_cases hi : i = base + cnt
    · rw [if_pos hi, if_pos (by omega), hi, Nat.add_sub_cancel_left]
    · rw [if_neg hi]
      exact if_congr (by omega) rfl rfl

/-! ### The parts of BXPACK and MXPACK -/

section
variable (code wide part sel : Nat) (cv : BitVec 32) (a b : Word)

/-- The wide elements of a part. -/
def packXs : List FV := (List.range (64 / (wideFd wide).w)).map fun k => (wideFd wide).decode (elem a (wideFd wide).w k)

/-- The micro-exponent of an element: 1 where its pair fits on half the scale (R184). -/
def packMu (k : Nat) : Nat :=
  let ok (j : Nat) : Bool := ((packXs wide a)[j]?.getD (.fin false 0 0)).atMost code ((getByte b sel : Int) - 128)
  if code != 6 && ok (k / 2 * 2) && ok (k / 2 * 2 + 1) then 1 else 0

/-- The code of each element, or none where an overflow remains. -/
def packCodes : List (Option Nat) :=
  (List.range (64 / (wideFd wide).w)).map fun k =>
    quantise code (cvField cv code) (getByte b sel) (packMu code wide sel a b k) ((packXs wide a)[k]?.getD (.fin false 0 0))

def packBad : Bool := getByte b sel == 0xFF || (packCodes code wide sel cv a b).any (·.isNone)

def packEls : List Nat := (packCodes code wide sel cv a b).map fun c => if packBad code wide sel cv a b then 0 else c.getD 0

/-- The element register's bits with the part's elements in their place. -/
def packBits (old : Nat) : Nat :=
  let p := codeWidth code * part * (64 / (wideFd wide).w)
  let new := old - (old &&& ((2 ^ (codeWidth code * (64 / (wideFd wide).w)) - 1) * 2 ^ p))
    + elemsNat (codeWidth code) (packEls code wide sel cv a b) * 2 ^ p
  if code = 8 then new % 2 ^ 96 else new

/-- The scale register with the part's micro-exponents, and with 0xFF where the block is lost. -/
def packScale : Word :=
  let n := 64 / (wideFd wide).w
  let b1 := if code != 6 then setByte b (sel + 1) (putMus (packMu code wide sel a b) (part * n / 2) (n / 2) (getByte b (sel + 1)))
    else b
  if packBad code wide sel cv a b then setByte b1 sel 0xFF else b1

theorem blockPack_eq (dlo dhi : Word) : blockPack code wide part sel cv a dlo dhi b =
    (BitVec.ofNat 64 (packBits code wide part sel cv a b (dlo.toNat + 2 ^ 64 * dhi.toNat)),
      BitVec.ofNat 64 (packBits code wide part sel cv a b (dlo.toNat + 2 ^ 64 * dhi.toNat) / 2 ^ 64),
      packScale code wide part sel cv a b) := rfl

end

section
variable {code wide part sel : Nat} {cv : BitVec 32} {a b : Word}

theorem wide_count (wide : Nat) : 64 / (wideFd wide).w = 2 ∨ 64 / (wideFd wide).w = 4 := by
  unfold wideFd
  split <;> decide

theorem packXs_get {k : Nat} (hk : k < 64 / (wideFd wide).w) :
    (packXs wide a)[k]?.getD (.fin false 0 0) = (wideFd wide).decode (elem a (wideFd wide).w k) := by
  rw [packXs, List.getElem?_map, List.getElem?_range hk]
  rfl

/-- Whether a value is a number whose magnitude is in a scale's range. -/
theorem atMost_iff_small (x : FV) (code : Nat) (k : Int) :
    x.atMost code k = true ↔ (∃ s v e, x = .fin s v e) ∧ |x.real| ≤ blockTop code * (2 : ℝ) ^ k := by
  cases x with
  | nan n fr => simp [FV.atMost]
  | inf n => simp [FV.atMost]
  | fin n v e =>
    rw [atMost_iff, FV.abs_real]
    exact ⟨fun h => ⟨⟨n, v, e, rfl⟩, h⟩, fun h => h.2⟩

/-- The micro-exponents are those of which R184's condition says when they are 1. -/
theorem packMu_eq {mus : Nat → Nat} (h : let x (k : Nat) : FV := (wideFd wide).decode (elem a (wideFd wide).w k)
    let small (k : Nat) : Prop :=
      (∃ s v e, x k = .fin s v e) ∧ |(x k).real| ≤ blockTop code * (2 : ℝ) ^ ((getByte b sel : Int) - 128)
    ∀ i, i < 64 / (wideFd wide).w → mus i ≤ 1 ∧ (mus i = 1 ↔ code ≠ 6 ∧ small (i / 2 * 2) ∧ small (i / 2 * 2 + 1)))
    {k : Nat} (hk : k < 64 / (wideFd wide).w) : packMu code wide sel a b k = mus k := by
  obtain ⟨hle, hone⟩ := h k hk
  have heven := wide_count wide
  have hiff : (code != 6 && ((packXs wide a)[k / 2 * 2]?.getD (.fin false 0 0)).atMost code ((getByte b sel : Int) - 128)
      && ((packXs wide a)[k / 2 * 2 + 1]?.getD (.fin false 0 0)).atMost code ((getByte b sel : Int) - 128)) = true
      ↔ mus k = 1 := by
    rw [hone, packXs_get (by omega), packXs_get (by omega), Bool.and_eq_true, Bool.and_eq_true, bne_iff_ne, atMost_iff_small,
      atMost_iff_small, and_assoc]
  rw [packMu]
  dsimp only
  split_ifs with hmu
  · exact (hiff.1 hmu).symm
  · have := hiff.not.1 hmu
    omega

theorem getByte_packScale {j : Nat} (hj : j < 8) : getByte (packScale code wide part sel cv a b) j =
    let n := 64 / (wideFd wide).w
    if packBad code wide sel cv a b = true ∧ j = sel then 0xFF
    else if code ≠ 6 ∧ j = sel + 1 then
      putMus (packMu code wide sel a b) (part * n / 2) (n / 2) (getByte b (sel + 1)) % 2 ^ 8
    else getByte b j := by
  rw [packScale]
  generalize packBad code wide sel cv a b = bad
  by_cases h6 : code = 6 <;> cases bad <;> simp [h6, getByte_setByte _ _ hj]

section
variable {c : Nat → Option Nat} (hc : ∀ k, k < 64 / (wideFd wide).w →
  c k = quantise code (cvField cv code) (getByte b sel) (packMu code wide sel a b k)
    ((wideFd wide).decode (elem a (wideFd wide).w k)))
include hc

theorem packCodes_eq : packCodes code wide sel cv a b = (List.range (64 / (wideFd wide).w)).map c := by
  refine List.map_congr_left fun k hk => ?_
  have hlt := List.mem_range.1 hk
  rw [packXs_get hlt, hc k hlt]

theorem packBad_iff : packBad code wide sel cv a b = true ↔
    getByte b sel = 0xFF ∨ ∃ k, k < 64 / (wideFd wide).w ∧ c k = none := by
  rw [packBad, packCodes_eq hc]
  simp

theorem packEls_get {k : Nat} (hk : k < 64 / (wideFd wide).w) :
    (packEls code wide sel cv a b)[k]?.getD 0 = if packBad code wide sel cv a b then 0 else (c k).getD 0 := by
  rw [packEls, packCodes_eq hc, List.map_map, List.getElem?_map, List.getElem?_range hk]
  rfl

/-- The element register's bits: the part's codes, or zeros where the block is lost; what lies outside the part stays. -/
theorem testBit_packBits (hw : 0 < codeWidth code) (old i : Nat) :
    let n := 64 / (wideFd wide).w
    let p := codeWidth code * part * n
    (packBits code wide part sel cv a b old).testBit i = if code = 8 ∧ 96 ≤ i then false
    else if p ≤ i ∧ i < p + codeWidth code * n then
      !packBad code wide sel cv a b && ((c ((i - p) / codeWidth code)).getD 0).testBit ((i - p) % codeWidth code)
    else old.testBit i := by
  intro n p
  have hlen : (packEls code wide sel cv a b).length = n := by
    rw [packEls, List.length_map, packCodes, List.length_map, List.length_range]
  have hfield := testBit_replaceField old p (codeWidth code * n) i
    (hlen ▸ elemsNat_lt (codeWidth code) (packEls code wide sel cv a b))
  have hin (hi : p ≤ i ∧ i < p + codeWidth code * n) :
      (elemsNat (codeWidth code) (packEls code wide sel cv a b)).testBit (i - p) =
      (!packBad code wide sel cv a b && ((c ((i - p) / codeWidth code)).getD 0).testBit ((i - p) % codeWidth code)) := by
    have hk : (i - p) / codeWidth code < n := Nat.div_lt_of_lt_mul (by omega)
    conv_lhs => rw [← Nat.div_add_mod (i - p) (codeWidth code)]
    rw [testBit_elemsNat _ (Nat.mod_lt _ hw), packEls_get hc hk]
    cases packBad code wide sel cv a b <;> simp
  have hnew : (if p ≤ i ∧ i < p + codeWidth code * n then
      (elemsNat (codeWidth code) (packEls code wide sel cv a b)).testBit (i - p) else old.testBit i) =
      if p ≤ i ∧ i < p + codeWidth code * n then
        !packBad code wide sel cv a b && ((c ((i - p) / codeWidth code)).getD 0).testBit ((i - p) % codeWidth code)
      else old.testBit i := by
    split_ifs with hi
    exacts [hin hi, rfl]
  rw [← hnew, ← hfield, packBits]
  by_cases h8 : code = 8
  · rw [if_pos h8, Nat.testBit_mod_two_pow]
    rcases lt_or_ge i 96 with hi | hi
    · rw [decide_eq_true hi, Bool.true_and, if_neg (by omega)]
    · rw [decide_eq_false hi.not_gt, Bool.false_and, if_pos ⟨h8, hi⟩]
  · rw [if_neg h8, if_neg (by simp [h8])]

end

theorem testBit_two_words (x : Nat) {i : Nat} (hi : i < 128) :
    ((BitVec.ofNat 64 x).toNat + 2 ^ 64 * (BitVec.ofNat 64 (x / 2 ^ 64)).toNat).testBit i = x.testBit i := by
  rw [BitVec.toNat_ofNat, BitVec.toNat_ofNat, ← Nat.mod_mul, ← Nat.pow_add, Nat.testBit_mod_two_pow, decide_eq_true hi,
    Bool.true_and]

end

end Sys2Proof.Machine
end

section
/-! SUPPORT. The block-scale words and what they make of blocks (R29, R30, R183 to R185). -/

namespace Sys2Proof.Machine

/-! ### Elements that are no numbers, and steps of a block's grid (R184) -/

theorem quantise_nan (code : Nat) (mode : Rnd × Bool) (sc mu : Nat) (n : Bool) (fr : Nat) :
    quantise code mode sc mu (.nan n fr) = none := by
  rw [quantise]
  split_ifs <;> rfl

theorem quantise_inf {code : Nat} (hcode : code ∈ [6, 7, 8, 9]) (mode : Rnd × Bool) (sc mu : Nat) (n : Bool) :
    quantise code mode sc mu (.inf n) =
      if mode.2 then some ((if n then 2 ^ (codeWidth code - 1) else 0) + (2 ^ (codeWidth code - 1) - 1)) else none := by
  rw [codeWidth_block hcode, Nat.add_sub_cancel, quantise]
  by_cases h6 : code = 6
  · rw [if_pos h6, if_pos h6]
    cases n <;> rfl
  · rw [if_neg h6, if_neg h6]

/-- A number divided by the step of a block's grid, rounded to an integer. -/
theorem roundsToInt_steps {md : Rnd} {n : Bool} {v : Nat} {e : Int} {code sc mu t : Nat}
    (h : RoundsToInt md ((FV.fin n v e).real / ((2 : ℝ) ^ ((sc : Int) - 127 - mu) / 2 ^ (bxM code - 1)))
      (if n then -(t : Int) else t)) :
    t = roundReal md n (v * (2 : ℝ) ^ (e + 127 + mu - sc + (bxM code - 1))) := by
  have hM : ((bxM code - 1 : Nat) : Int) = (bxM code : Int) - 1 := by rw [bxM]; split_ifs <;> rfl
  have hx : (FV.fin n v e).real / ((2 : ℝ) ^ ((sc : Int) - 127 - mu) / 2 ^ (bxM code - 1))
      = (if n then -1 else 1) * (v * (2 : ℝ) ^ (e + 127 + mu - sc + (bxM code - 1))) := by
    have hexp : e + 127 + mu - sc + (bxM code - 1 : Int) = e - ((sc : Int) - 127 - mu) + (bxM code - 1 : Nat) := by omega
    rw [FV.real, hexp]
    generalize (sc : Int) - 127 - mu = s
    rw [two_zpow_add, zpow_sub₀ two_ne_zero, zpow_natCast]
    field_simp
  rw [hx] at h
  have huniq := roundsToInt_unique (mul_nonneg (Nat.cast_nonneg v) (two_zpow_pos _).le) h
  cases n <;> simpa using huniq

/-! ### BXPACK and MXPACK as words (R184) -/

section
variable {w : Stand} {s : State} (h : w.Clear s) {code feat : Nat} {o : O2} {part sel : BitVec 3} {wide : BitVec 2}
  (hu : w.u = { useD (use2 o) with pair := code == 8 || code == 9, feat := some feat }) {ins : Instr}
  (he : exec ins s = packBlock w.f code feat o part wide sel s) {n : BitVec 6} {ind : Bool}
include h hu he

theorem Stand.pack_faults (hreg : (w.lane s).scaleReg = none
    ∨ ((w.lane s).scaleReg = some (n, ind) ∧ n ∈ (w.lane s).r.d.regs)) : w.Faults s ins { code := 0x02 } := by
  refine w.faults_of h hu he ?_
  obtain hnone | ⟨hsome, hmem⟩ := hreg
  · simp only [hnone]
  · simp only [hsome, hmem, if_true]

theorem Stand.pack_completes (hreg : (w.lane s).scaleReg = some (n, ind)) (hn : n ∉ (w.lane s).r.d.regs) :
    let l := w.lane s
    let r := blockPack code wide.toNat part.toNat sel.toNat ((w.begun s).thr w.tk).cvmode (l.a.floats (wideFd wide.toNat))
      ((w.begun s).oldD l) ((w.begun s).oldHi l) l.b.w64
    let t := if code == 8 || code == 9 then (w.begun s).putPair l r.1 r.2.1 else (w.begun s).put l r.1
    w.Completes s ins
      (if code = 6 ∧ getByte r.2.2 sel.toNat ≠ 0xFF then t
        else if ind then t.sendValue l (.reg n) r.2.2 else t.put1 l n r.2.2) := by
  intro l r t
  refine w.completes_of h hu he ?_
  simp only [hreg, hn, if_false]
  rfl

end

/-- Settles O12: the words by their scale register, scale bytes by R183's search, blocks by their elements and bits. -/
theorem blocks : Obligations.Blocks := by
  unfold Obligations.Blocks
  refine ⟨fun w s sfmt sel o hu hw => ⟨_, w.completes_of hw hu rfl rfl, rfl⟩,
    fun w s fmt part sel wide o x hu hw => ?unpack, fun w s fmt part sel wide o x ind n hu hw => ?pack, fun code hcode => ?values⟩
  case unpack =>
    cases x
    exacts [⟨_, w.completes_of hw hu rfl rfl, rfl⟩, ⟨_, w.completes_of hw hu rfl rfl, rfl⟩]
  case pack =>
    intro l bad
    refine ⟨fun hreg => ?_, fun hreg hn => ?_⟩
    · cases x
      exacts [w.pack_faults hw hu rfl hreg, w.pack_faults hw hu rfl hreg]
    · cases x
      exacts [w.pack_completes hw hu rfl hreg hn, w.pack_completes hw hu rfl hreg hn]
  case values =>
    intro m top step wd
    have hwd : wd = codeWidth code := by fin_cases hcode <;> rfl
    have htop : top = blockTop code := (blockTop_eq code).symm
    have hstep : step = fun (sc mu : Nat) => (2 : ℝ) ^ ((sc : Int) - 127 - mu) / 2 ^ (bxM code - 1) := rfl
    clear_value wd top step
    subst hwd htop hstep
    refine ⟨scaleByte_spec code, fun n fr => ⟨rfl, rfl⟩, fun mode sc mu n fr => ?quantise,
      fun wide part sel cv a lo hi b hwide hsel heven => ?block⟩
    case quantise =>
      intro most lost
      refine ⟨quantise_nan .., quantise_inf hcode .., fun v e => ⟨fun h6 y hy hsc he => ?mx, fun h6 t ht => ?bx⟩⟩
      case mx =>
        subst h6 hy
        exact quantise_mx mode n v e mu hsc
      case bx =>
        have hinf : toInfinity mode.1 n = true ∧ mode.2 = false ↔ lost n := by rw [toInfinity_iff, and_comm]
        have hval := quantise_bx mode n v e h6 sc mu
        rw [← roundsToInt_steps ht] at hval
        refine ⟨fun hl ht' => hval.trans (if_pos ⟨ht', hinf.2 hl⟩), fun hno => hval.trans (if_neg ?_)⟩
        rintro ⟨ht', hl⟩
        exact hno.elim (fun hnl => hnl (hinf.1 hl)) fun hlt => hlt.not_ge ht'
    case block =>
      intro f n hpart sc
      refine ⟨fun k hk => ?read, fun mus => ?write⟩
      case read =>
        intro j out raw neg mag fp4 mu v mode
        have hraw : raw < 2 ^ codeWidth code := Nat.mod_lt _ (Nat.two_pow_pos _)
        have hmode : (if wide = 0 then (.rne, false) else cvField cv (if wide = 1 then 2 else 3) : Rnd × Bool) = mode := by
          have hcases : wide = 0 ∨ wide = 1 ∨ wide = 2 := by omega
          obtain rfl | rfl | rfl := hcases <;> rfl
        have hout : out = if sc = 0xFF then f.encode (f.genNan 2)
            else f.rounded mode.1 mode.2 neg (blockMant code raw) (blockExp code sc mu raw) := by
          have hneg : blockNeg code raw = neg := blockNeg_eq hcode hraw
          rw [← hneg, ← hmode]
          exact elem_blockUnpack hk
        have hval : blockMant code raw * (2 : ℝ) ^ blockExp code sc mu raw = v := block_real hcode sc mu raw
        refine ⟨fun h => hout.trans (if_pos h), fun h => ⟨fun hz => ?_, fun hnz => ?_⟩⟩
        · rw [hout, if_neg h, (blockMant_eq_zero hcode raw).2 hz, rounded_zero]
          rfl
        · rw [hout, if_neg h, ← hval]
          exact roundsTo_rounded (wideFd_wf wide) ((blockMant_eq_zero hcode raw).not.2 hnz)
      case write =>
        intro x small hmus c bad r old at_
        have hmu {k : Nat} (hk : k < n) : packMu code wide sel a b k = mus k := packMu_eq hmus hk
        have hc (k : Nat) (hk : k < 64 / (wideFd wide).w) : c k = quantise code (cvField cv code) (getByte b sel)
            (packMu code wide sel a b k) ((wideFd wide).decode (elem a (wideFd wide).w k)) := by rw [hmu hk]
        have hbad : packBad code wide sel cv a b = true ↔ bad := packBad_iff hc
        have hbyte {j : Nat} (hj : j < 8) := getByte_packScale (code := code) (wide := wide) (part := part) (sel := sel)
          (cv := cv) (a := a) (b := b) hj
        have hr : r = (BitVec.ofNat 64 (packBits code wide part sel cv a b old),
            BitVec.ofNat 64 (packBits code wide part sel cv a b old / 2 ^ 64), packScale code wide part sel cv a b) :=
          blockPack_eq code wide part sel cv a b lo hi
        rw [hr]
        refine ⟨fun i hi => ?bits, fun hb => ?lost, fun hb => ?kept, fun h6 i hi => ?mus, fun j hj hne hne' => ?others⟩
        case bits =>
          have hw : 0 < codeWidth code := by rw [codeWidth_block hcode]; omega
          refine (testBit_two_words _ hi).trans ((testBit_packBits hc hw old i).trans ?_)
          refine if_congr Iff.rfl rfl (if_congr Iff.rfl (congrArg (· && _) ?_) rfl)
          rw [Bool.eq_iff_iff, decide_eq_true_iff, Bool.not_eq_true', ← Bool.not_eq_true, hbad]
        case lost => exact (hbyte hsel).trans (if_pos ⟨hbad.2 hb, rfl⟩)
        case kept =>
          refine (hbyte hsel).trans ((if_neg fun h => hb (hbad.1 h.1)).trans (if_neg ?_))
          rintro ⟨-, h⟩
          omega
        case mus =>
          have hsel' : sel + 1 < 8 := by have := heven h6; omega
          have hget := (hbyte hsel').trans ((if_neg (by omega)).trans (if_pos ⟨h6, rfl⟩))
          rw [hget, Nat.testBit_mod_two_pow, decide_eq_true hi, Bool.true_and, testBit_putMus]
          split_ifs with hin
          · have hlt (p l : Nat) (hl : p ≤ i) (hu : i < p + l / 2) : 2 * (i - p) < l := by omega
            exact congrArg (· == 1) (hmu (hlt _ n hin.1 hin.2))
          · rfl
        case others =>
          exact (hbyte hj).trans ((if_neg fun h => hne h.2).trans (if_neg fun h => hne' h.1 h.2))

end Sys2Proof.Machine
end

section
/-! SUPPORT. Joining and leaving a group (R191, R198, R199). -/

namespace Sys2Proof.Machine

/-! ### The lowest vacant rank -/

/-- A table with fewer than `n` entries leaves one of the first `n` keys free. -/
theorem Tab.exists_vacant {β : Type} {t : Tab β} {n : Nat} (h : t.length < n) : ∃ r < n, Tab.look t r = none := by
  by_contra hfull
  push Not at hfull
  have hsub : List.range n ⊆ t.map (·.1) := by
    intro r hr
    obtain ⟨v, hv⟩ := Option.ne_none_iff_exists'.1 (hfull r (List.mem_range.1 hr))
    exact List.mem_map_of_mem (Tab.mem_of_look hv)
  have hlen := (List.subperm_of_subset List.nodup_range hsub).length_le
  rw [List.length_range, List.length_map] at hlen
  omega

/-- A group with a vacant rank: the lowest one is vacant, and every rank below it is taken. -/
theorem lowestVacant_spec {g : Grp} (h : g.ranks.length < 32) :
    lowestVacant g < 32 ∧ Tab.look g.ranks (lowestVacant g) = none ∧ ∀ q < lowestVacant g, Tab.look g.ranks q ≠ none := by
  obtain ⟨r, hr, hnone⟩ := Tab.exists_vacant h
  cases hf : (List.range 32).find? fun r => (Tab.look g.ranks r).isNone with
  | none => simpa [hnone] using List.find?_eq_none.1 hf r (List.mem_range.2 hr)
  | some q =>
    obtain ⟨hq, hmem, hlow⟩ := List.find?_range_eq_some.1 hf
    have hlv : lowestVacant g = q := by rw [lowestVacant, hf, Option.getD_some]
    rw [hlv]
    exact ⟨List.mem_range.1 hmem, Option.isNone_iff_eq_none.1 hq, fun j hj => Option.isSome_iff_ne_none.1 (by simpa using hlow j hj)⟩

section
variable (s : State) (tk e : Nat) (g : Grp)

theorem State.grpAt_setGrp (ck : Nat) : (s.setGrp ck e g).grpAt ck e = some g := by
  simp only [State.grpAt, State.setGrp, State.core_modCore, Tab.look_put_same]

theorem State.grpAt_enterGroup :
    (s.enterGroup tk e g).grpAt (ckOf tk) e = some { g with ranks := Tab.put g.ranks (lowestVacant g) (slotOf tk) } :=
  s.grpAt_setGrp e _ (ckOf tk)

theorem State.thr_enterGroup : ((s.enterGroup tk e g).thr tk).grp = some (e, g.serial, lowestVacant g) := by
  simp only [State.enterGroup, State.thr_modThr]

end

/-! ### GJOIN -/

/-- The live group of the thread's context that GJOIN's key names (R198). -/
def State.groupOfKey (s : State) (l : Lane) : Option (Nat × Grp) :=
  (s.core l.ck).grps.find? fun x => x.2.ctx == (s.thr l.tk).ctx && x.2.key == l.a.w64.setWidth 32

/-- The lowest free entry of the core's group table. -/
def State.freeEntry (s : State) (l : Lane) : Option Nat := (List.range 256).find? fun e => (Tab.look (s.core l.ck).grps e).isNone

section
variable {s : State} {l : Lane}

theorem joinBody_bad_capacity (h : l.b.w64.toNat = 0 ∨ 32 < l.b.w64.toNat) : joinBody s l = .fault { code := 0x17 } :=
  if_pos (h.imp_left Nat.lt_one_iff.2)

section
variable (h0 : 0 < l.b.w64.toNat) (h32 : l.b.w64.toNat ≤ 32)
include h0 h32

theorem joinBody_of_member {e sn r : Nat} {g : Grp} (hm : (s.thr l.tk).grp = some (e, sn, r)) (hg : s.grpAt l.ck e = some g) :
    joinBody s l = if g.key = l.a.w64.setWidth 32 then .ok (s.put l (joinWord (grpHandle e sn) r 0)) else .fault { code := 0x17 } := by
  rw [joinBody, if_neg (by omega)]
  simp only [hm, hg]

variable (hn : (s.thr l.tk).grp = none)
include hn

theorem joinBody_of_live {e : Nat} {g : Grp} (hf : s.groupOfKey l = some (e, g)) : joinBody s l =
    if g.cap ≤ g.ranks.length then .ok (s.put l (joinWord 0 0 2))
    else .ok ((s.enterGroup l.tk e g).put l (joinWord (grpHandle e g.serial) (lowestVacant g) 0)) := by
  rw [State.groupOfKey] at hf
  rw [joinBody, if_neg (by omega)]
  simp only [hn, hf]

variable (hf : s.groupOfKey l = none)
include hf

theorem joinBody_of_table_full (he : s.freeEntry l = none) : joinBody s l = .ok (s.put l (joinWord 0 0 3)) := by
  rw [State.groupOfKey] at hf
  rw [State.freeEntry] at he
  rw [joinBody, if_neg (by omega)]
  simp only [hn, hf, he]

theorem joinBody_of_free_entry {e : Nat} (he : s.freeEntry l = some e) : joinBody s l =
    let sn := (Tab.getOr (s.core l.ck).serials e 0 + 1) % 2 ^ 24
    .ok (((s.modCore l.ck fun c => { c with serials := Tab.put c.serials e sn }).enterGroup l.tk e
      { ctx := (s.thr l.tk).ctx, key := l.a.w64.setWidth 32, cap := l.b.w64.toNat, serial := sn, ranks := [] }).put l
        (joinWord (grpHandle e sn) 0 1)) := by
  rw [State.groupOfKey] at hf
  rw [State.freeEntry] at he
  rw [joinBody, if_neg (by omega)]
  simp only [hn, hf, he]

end
end

/-- A word that its own effect lets pass under one condition, and faults otherwise. -/
theorem Stand.completes_or_faults {w : Stand} {s : State} (h : w.Clear s) {u : Use} (hu : w.u = u) {ins : Instr}
    {body : State → Lane → Res} (he : exec ins s = word w.f u body s) {may : Prop} [Decidable may] {t : State} {x : FI}
    (hb : body (w.begun s) (w.lane s) = if may then .ok t else .fault x) :
    if may then w.Completes s ins t else w.Faults s ins x := by
  split_ifs at hb ⊢
  · exact w.completes_of h hu he hb
  · exact w.faults_of h hu he hb

/-- Settles O14: GJOIN by its capacity, by whether the thread is a member and by what its key finds; the entered rank by the
pigeonhole on 32 ranks. -/
theorem groupMembership : Obligations.GroupMembership := by
  unfold Obligations.GroupMembership
  refine ⟨⟨fun w s o hu hw => ?join, fun w s hu hw => w.completes_of hw hu rfl rfl⟩, fun s tk e g hlen => ?enter⟩
  case join =>
    intro b l key cap c found answer
    refine ⟨fun hc => w.faults_of hw hu rfl (joinBody_bad_capacity hc), fun h0 h32 => ⟨fun e sn r g hm hg =>
      w.completes_or_faults hw hu rfl (joinBody_of_member (l := l) h0 h32 hm hg), fun hn => ?_⟩⟩
    refine ⟨fun e g hf => ?live, fun hf hfull => w.completes_of hw hu rfl (joinBody_of_table_full h0 h32 hn hf hfull),
      fun e hf hfree => w.completes_of hw hu rfl (joinBody_of_free_entry h0 h32 hn hf hfree)⟩
    case live =>
      have hbody := joinBody_of_live (s := b) (l := l) h0 h32 hn hf
      split
      · rename_i hcap
        exact w.completes_of hw hu rfl (hbody.trans (if_pos hcap))
      · rename_i hcap
        exact w.completes_of hw hu rfl (hbody.trans (if_neg hcap))
  case enter =>
    intro r t
    obtain ⟨hr, hvacant, htaken⟩ := lowestVacant_spec hlen
    exact ⟨⟨_, s.grpAt_enterGroup tk e g, hvacant, Tab.look_put_same .., htaken, fun q hq => Tab.look_put_ne _ _ hq⟩,
      s.thr_enterGroup tk e g, hr⟩

end Sys2Proof.Machine
end

section
/-! SUPPORT. Mask words of a group (R200, R201, R202). -/

namespace Sys2Proof.Machine

section
variable {s : State} {l : Lane} {k : Nat → Nat → Grp → Res}

theorem inGroup_of_outside (h : (s.thr l.tk).grp = none) : inGroup s l k = .fault { code := 0x17 } := by simp only [inGroup, h]

theorem inGroup_of_member {e sn r : Nat} {g : Grp} (hm : (s.thr l.tk).grp = some (e, sn, r)) (hg : s.grpAt l.ck e = some g) :
    inGroup s l k = k e r g := by simp only [inGroup, hm, hg]

theorem gwaitBody_of_member {e sn r : Nat} {g : Grp} (hm : (s.thr l.tk).grp = some (e, sn, r)) (hg : s.grpAt l.ck e = some g)
    (m : Nat) : gwaitBody m s l =
      if ((g.stamp m).read s.clock).getLsbD r = true ∧ (g.arr m).getLsbD r = false then
        .ok (((s.setGrp l.ck e (g.setArr m (g.arr m ||| BitVec.twoPow 32 r))).atEnd l.tk (.group m)).gwaitCheck l.ck e m)
      else .fault { code := 0x17 } := by
  rw [gwaitBody, inGroup_of_member hm hg, ← ite_not]
  simp only [Bool.or_eq_true, Bool.not_eq_true', not_or, Bool.not_eq_false, Bool.not_eq_true]

theorem State.ginfo_of_outside (h : (s.thr l.tk).grp = none) : s.ginfo l.tk = 0 := by simp only [State.ginfo, h]

/-- GINFO of a member on its own core: the occupied ranks, how many they are, the thread's rank and its group's entry. -/
theorem State.ginfo_of_member {e sn r : Nat} {g : Grp} (hm : (s.thr l.tk).grp = some (e, sn, r)) (hg : s.grpAt l.ck e = some g)
    (hc : l.ck = ckOf l.tk) :
    s.ginfo l.tk = BitVec.ofNat 64 (g.occ.toNat + g.ranks.length * 2 ^ 32 + r * 2 ^ 40 + e * 2 ^ 48) := by
  rw [hc, State.grpAt] at hg
  simp only [State.ginfo, State.grpOf, hm, hg]

end

/-- Settles O15: each mask word outside every group, and for a member at its rank. -/
theorem maskWords : Obligations.MaskWords := by
  unfold Obligations.MaskWords
  intro w s hw b l
  refine ⟨fun hn => ?outside, fun e sn r g hm hg => ?member⟩
  case outside =>
    refine ⟨fun mk hu => w.faults_of hw hu rfl (inGroup_of_outside hn), fun mk pe hu => w.faults_of hw hu rfl (inGroup_of_outside hn),
      fun op md ma mb hu => w.faults_of hw hu rfl (inGroup_of_outside hn),
      fun o mk hu => w.faults_of hw hu rfl (inGroup_of_outside hn),
      fun o mk hu => w.faults_of hw hu rfl (inGroup_of_outside hn), fun d hu => w.completes_of hw hu rfl ?_⟩
    exact congrArg (fun v => Res.ok (b.put l v)) (State.ginfo_of_outside (s := b) (l := l) hn)
  case member =>
    intro seen
    refine ⟨fun mk hu => w.completes_or_faults hw hu rfl (gwaitBody_of_member (s := b) (l := l) hm hg mk.toNat),
      fun mk pe hu => w.completes_of hw hu rfl (inGroup_of_member hm hg), fun op md ma mb hu => ?mskop,
      fun o mk hu => w.completes_of hw hu rfl (inGroup_of_member hm hg),
      fun o mk hu => w.completes_of hw hu rfl (inGroup_of_member hm hg), fun d hu hc => w.completes_of hw hu rfl ?_⟩
    case mskop =>
      refine w.completes_of hw hu rfl ((inGroup_of_member hm hg).trans ?_)
      cases op <;> rfl
    exact congrArg (fun v => Res.ok (b.put l v)) (State.ginfo_of_member (s := b) (l := l) hm hg hc)

end Sys2Proof.Machine
end

section
/-! SUPPORT. Group-synchronous words arrive and wait (R193, R194, R195). -/

namespace Sys2Proof.Machine

/-- What a group-synchronous word does for the thread that stands at it: outside every group, or outside the participants of its mask,
it faults; a participant arrives with its operands and waits. -/
def Stand.Arrives (w : Stand) (s : State) (ins : Instr) (mk : BitVec 4) : Prop :=
  let b := w.begun s
  let l := w.lane s
  ((b.thr w.tk).grp = none → w.Faults s ins { code := 0x17 })
  ∧ ∀ e sn r g, (b.thr w.tk).grp = some (e, sn, r) → b.grpAt l.ck e = some g →
    if (g.part mk.toNat b.clock).getLsbD r then
      ∃ sub, w.Completes s ins (((b.pendNew l .exch 7).2.modThr w.tk fun t =>
        { t with arr := some { mreg := mk.toNat, present := true, addr := w.i.g.wordAddr, ins := ins, a := l.a, b := l.b, sub := sub,
                               d := w.r.d, u := b.uid, word := w.i.g.word }, hold := true }).exchangeCheck l.ck e mk.toNat)
    else w.Faults s ins { code := 0x17 }

theorem Stand.exchange_arrives {w : Stand} {s : State} (h : w.Clear s) {u : Use} (hu : w.u = { u with vl := true }) {ins : Instr}
    {mk : BitVec 4} (he : exec ins s = exchange ins w.f u mk s) : w.Arrives s ins mk := by
  rw [exchange, ← hu, issue_clear h] at he
  have hfault (hb : arrive ins mk.toNat true (w.begun s) (w.lane s) = .fault { code := 0x17 }) : w.Faults s ins { code := 0x17 } := by
    rw [hb] at he
    exact he
  refine ⟨fun hn => hfault (inGroup_of_outside hn), fun e sn r g hm hg => ?_⟩
  rw [arrive, inGroup_of_member hm hg] at he hfault
  split
  · rename_i hpart
    simp only [hpart] at he
    exact ⟨_, he⟩
  · rename_i hpart
    exact hfault (if_pos (by simpa using hpart))

/-- Settles O16: one law of arrival for every group-synchronous word. -/
theorem exchanges : Obligations.Exchanges := by
  unfold Obligations.Exchanges
  intro w s hw b l arrives
  have harr {u : Use} (hu : w.u = { u with vl := true }) {ins : Instr} {mk : BitVec 4}
      (he : exec ins s = exchange ins w.f u mk s) : arrives ins mk := w.exchange_arrives hw hu he
  exact ⟨fun m o mk hu => ⟨harr hu rfl, harr hu rfl, harr hu rfl, harr hu rfl, harr hu rfl, harr hu rfl, harr hu rfl⟩,
    fun op m o mk hu => ⟨harr hu rfl, harr hu rfl, harr hu rfl⟩,
    fun lg o mk hu => harr (u := { use2 o with feat := some 2 }) hu rfl⟩

end Sys2Proof.Machine
end

section
/-! SUPPORT. Named barriers and LBAR (R207 to R212, R404). -/

namespace Sys2Proof.Machine

/-! ### The words -/

section
variable {s : State} {l : Lane} {n : BitVec 10} {k : Nat → Res}

theorem atBarrier_of_none (h : s.barNo l.tk n.toNat = none) : atBarrier s l n k = .fault { code := 0x10 } := by
  simp only [atBarrier, h]

theorem atBarrier_of_some {c : Nat} (h : s.barNo l.tk n.toNat = some c) : atBarrier s l n k = k c := by simp only [atBarrier, h]

end

/-- A word on a barrier that its context's allotment has not is fault 0x10. -/
theorem Stand.faults_off_allotment {w : Stand} {s : State} (h : w.Clear s) {n : BitVec 10}
    (hn : (w.begun s).barNo w.tk n.toNat = none) {u : Use} (hu : w.u = u) {ins : Instr} {k : State → Lane → Nat → Res}
    (he : exec ins s = word w.f u (fun s l => atBarrier s l n (k s l)) s) : w.Faults s ins { code := 0x10 } :=
  w.faults_of h hu he (atBarrier_of_none hn)

/-- A word that arrives at a barrier and then goes on with the arrived phase. -/
theorem Stand.arrival_cases {w : Stand} {s : State} (h : w.Clear s) {n : BitVec 10} {k : Nat}
    (hk : (w.begun s).barNo w.tk n.toNat = some k) {u : Use} (hu : w.u = u) {ins : Instr} {next : State → Lane → Nat → Bool → State}
    {body : State → Lane → Res} (he : exec ins s = word w.f u body s)
    (hb : ∀ s l, body s l = atBarrier s l n fun k => match s.barArrive l.tk k with
      | none => .fault { code := 0x10 }
      | some (s, ph) => .ok (next s l k ph)) :
    ((w.begun s).barArrive w.tk k = none → w.Faults s ins { code := 0x10 })
    ∧ ∀ b' ph, (w.begun s).barArrive w.tk k = some (b', ph) → w.Completes s ins (next b' (w.lane s) k ph) := by
  have hbody := (hb (w.begun s) (w.lane s)).trans (atBarrier_of_some hk)
  refine ⟨fun hn => w.faults_of h hu he (hbody.trans ?_), fun b' ph hs => w.completes_of h hu he (hbody.trans ?_)⟩
  · rw [show (w.begun s).barArrive (w.lane s).tk k = none from hn]
  · rw [show (w.begun s).barArrive (w.lane s).tk k = some (b', ph) from hs]

/-- What bars BARINIT: a target out of range, or a barrier that counts or is waited at. -/
theorem barinit_barred_iff {n : Nat} {v : Bar} :
    (n = 0 ∨ 1024 < n ∨ v.count ≠ 0 ∨ v.wait ≠ 0) ↔ ¬(0 < n ∧ n ≤ 1024 ∧ v.count = 0 ∧ v.wait = 0) := by
  simp only [not_and_or, Nat.not_le, Nat.pos_iff_ne_zero, not_not, ne_eq]

/-- BARQRY's fields stay apart: a count and a target below 2^11, one bit of phase, and at most 1024 waiters. -/
theorem Bar.toNat_word {v : Bar} (hc : v.count < 2 ^ 11) (hn : v.n < 2 ^ 11) : v.word.toNat =
    v.count + v.n * 2 ^ 11 + (if v.phi then 1 else 0) * 2 ^ 22
      + ((List.range 1024).filter fun j => v.wait.getLsbD j).length * 2 ^ 23 := by
  have hlen : ((List.range 1024).filter fun j => v.wait.getLsbD j).length ≤ 1024 :=
    (List.length_filter_le ..).trans_eq List.length_range
  have hphi : (if v.phi then 2 ^ 22 else 0) = (if v.phi then 1 else 0) * 2 ^ 22 := by split <;> rfl
  have hbit : (if v.phi then 1 else 0) ≤ 1 := by split <;> decide
  rw [Bar.word, BitVec.toNat_ofNat, Nat.mod_eq_of_lt hc, Nat.mod_eq_of_lt hn, hphi]
  exact Nat.mod_eq_of_lt (by omega)

section
variable {s : State} {l : Lane}

theorem lbarBody_of_no_launch (h : (s.thr l.tk).launch = none) : lbarBody s l = .fault { code := 0x10 } := by simp only [lbarBody, h]

/-- LBAR's end: its result, and the wait at the clause end. -/
def State.lbarGo (s : State) (l : Lane) (n : Nat) : State := (s.put l (BitVec.ofNat 64 (n % 2 ^ 32))).atEnd l.tk (.lbar n)

variable {lk : Nat} {la : Launch} (h : (s.thr l.tk).launch = some lk) (hla : Tab.look s.launches lk = some la)
include h hla

theorem lbarBody_of_unpassed (ht : (s.thr l.tk).trails = true) (hn : ((s.pairSrc l.tk).bind fun v => v.v.head?) = none) :
    lbarBody s l = .park .copies := by
  simp only [lbarBody, h, hla, ht, if_true, hn]

theorem lbarBody_of_passed (ht : (s.thr l.tk).trails = true) {n : Word} (hn : ((s.pairSrc l.tk).bind fun v => v.v.head?) = some n) :
    lbarBody s l = .ok (s.lbarGo l n.toNat) := by
  simp only [lbarBody, h, hla, ht, if_true, hn, State.lbarGo]

theorem lbarBody_of_not_trailing (ht : (s.thr l.tk).trails = false) : lbarBody s l =
    if (s.thr l.tk).leads = true ∧ s.inqRoom l.tk = false then .park .copies
    else .ok ((((s.pass l.tk { pos := (s.thr l.tk).nw, src := true, v := [BitVec.ofNat 64 la.lbarN] }).setLaunch lk
      { la with lbarArr := la.lbarArr ++ [l.tk] }).lbarCheck lk).lbarGo l la.lbarN) := by
  simp only [lbarBody, h, hla, ht, Bool.false_eq_true, if_false, Bool.and_eq_true, Bool.not_eq_true', State.lbarGo]

end

/-! ### Arrivals (R208) -/

section
variable (s : State)

theorem State.bar_setBar (ck k : Nat) (v : Bar) : (s.setBar ck k v).bar ck k = v := by
  simp only [State.bar, State.setBar, State.core_modCore, Tab.getOr_put_same]

theorem State.bar_setBar_ne (ck : Nat) {k i : Nat} (v : Bar) (h : i ≠ k) : (s.setBar ck k v).bar ck i = s.bar ck i := by
  simp only [State.bar, State.setBar, State.core_modCore, Tab.getOr_put_ne _ _ _ h]

/-- Releasing waiters changes threads only. -/
theorem State.barRelease_frame (ck k : Nat) (m : BitVec 1024) (c : Nat) :
    (s.barRelease ck k m).core c = s.core c ∧ (s.barRelease ck k m).mem = s.mem := by
  rw [State.barRelease]
  generalize s.coreAll ck = l
  induction l generalizing s with
  | nil => exact ⟨rfl, rfl⟩
  | cons e l ih =>
    rw [List.foldl_cons]
    split
    · exact ih _
    · exact ih _

theorem State.bar_barRelease (ck k : Nat) (m : BitVec 1024) (c i : Nat) : (s.barRelease ck k m).bar c i = s.bar c i := by
  simp only [State.bar, (s.barRelease_frame ck k m c).1]

end

/-- The masks of a barrier after slot `j` has arrived: its first arrival of a phase stands in `m1`, its second in `m2`. -/
def Bar.mark (v : Bar) (j : Nat) : Bar :=
  if v.m1.getLsbD j then { v with m2 := v.m2 ||| BitVec.twoPow 1024 j } else { v with m1 := v.m1 ||| BitVec.twoPow 1024 j }

section
variable (v : Bar) (j : Nat)

/-- Marking an arrival touches the two masks only. -/
theorem Bar.mark_frame : (v.mark j).n = v.n ∧ (v.mark j).count = v.count ∧ (v.mark j).phi = v.phi ∧ (v.mark j).wait = v.wait := by
  rw [Bar.mark]
  split <;> exact ⟨rfl, rfl, rfl, rfl⟩

theorem getLsbD_or_twoPow {w : Nat} (x : BitVec w) {i : Nat} (hi : i < w) (j : Nat) :
    (x ||| BitVec.twoPow w j).getLsbD i = (x.getLsbD i || decide (i = j)) := by
  rw [BitVec.getLsbD_or, BitVec.getLsbD_twoPow]
  by_cases hij : i = j
  · subst hij; simp [hi]
  · simp [hij, Ne.symm hij]

theorem Bar.getLsbD_m1_mark {i : Nat} (hi : i < 1024) : (v.mark j).m1.getLsbD i = (v.m1.getLsbD i || decide (i = j)) := by
  rw [Bar.mark]
  split
  · rename_i hj
    by_cases hij : i = j
    · subst hij; simp [hj]
    · simp [hij]
  · exact getLsbD_or_twoPow _ hi j

theorem Bar.getLsbD_m2_mark {i : Nat} (hi : i < 1024) :
    (v.mark j).m2.getLsbD i = (v.m2.getLsbD i || (decide (i = j) && v.m1.getLsbD j)) := by
  rw [Bar.mark]
  split
  · rename_i hj
    rw [hj, Bool.and_true]
    exact getLsbD_or_twoPow _ hi j
  · rename_i hj
    rw [Bool.eq_false_iff.2 hj, Bool.and_false, Bool.or_false]

end

section
variable {s : State} {tk k : Nat}

theorem State.barArrive_of_misuse (h : (s.bar (ckOf tk) k).n = 0 ∨ (s.bar (ckOf tk) k).m2.getLsbD (slotOf tk) = true) :
    s.barArrive tk k = none := if_pos h

variable (h : ¬((s.bar (ckOf tk) k).n = 0 ∨ (s.bar (ckOf tk) k).m2.getLsbD (slotOf tk) = true))
include h

/-- The arrival that reaches the target starts the next phase and releases the waiters. -/
theorem State.barArrive_last (hl : (s.bar (ckOf tk) k).count + 1 = (s.bar (ckOf tk) k).n) : s.barArrive tk k =
    some ((s.setBar (ckOf tk) k { n := (s.bar (ckOf tk) k).n, phi := !(s.bar (ckOf tk) k).phi }).barRelease (ckOf tk) k
      (s.bar (ckOf tk) k).wait, (s.bar (ckOf tk) k).phi) := by
  obtain ⟨hn, hc, hp, hw⟩ := (s.bar (ckOf tk) k).mark_frame (slotOf tk)
  simp only [Bar.mark] at hn hc hp hw
  rw [State.barArrive, if_neg h]
  simp only [hn, hc, hp, hw, hl, if_true]

/-- Any other arrival is counted and marked. -/
theorem State.barArrive_counted (hl : (s.bar (ckOf tk) k).count + 1 ≠ (s.bar (ckOf tk) k).n) : s.barArrive tk k =
    some (s.setBar (ckOf tk) k { (s.bar (ckOf tk) k).mark (slotOf tk) with count := (s.bar (ckOf tk) k).count + 1 },
      (s.bar (ckOf tk) k).phi) := by
  obtain ⟨hn, hc, hp, hw⟩ := (s.bar (ckOf tk) k).mark_frame (slotOf tk)
  simp only [Bar.mark] at hn hc hp hw
  rw [State.barArrive, if_neg h]
  simp only [hn, hc, hp, hl, if_false, Bar.mark]

end

/-- Settles O24: the words by the barrier they name, LBAR by the copy, and an arrival by whether it reaches the target. -/
theorem barriers : Obligations.Barriers := by
  unfold Obligations.Barriers
  refine ⟨fun w s hw => ?words, fun s tk k => ?arrival⟩
  case words =>
    intro b l bad
    refine ⟨fun n a hu => ⟨fun hn => ⟨w.faults_off_allotment hw hn hu rfl, w.faults_off_allotment hw hn hu rfl⟩,
        fun k hk => ⟨?barinit, ?barwait⟩⟩,
      fun n d hu => ⟨fun hn => w.faults_off_allotment hw hn hu rfl, fun k hk => w.arrival_cases hw hk hu
        (next := fun s l _ ph => s.put l (if ph then 1 else 0)) rfl fun s l => rfl⟩,
      fun n hu => ⟨fun hn => w.faults_off_allotment hw hn hu rfl, fun k hk => w.arrival_cases hw hk hu
        (next := fun s l k ph => s.atEnd l.tk (.bar k ph)) rfl fun s l => rfl⟩,
      fun n d hu => ⟨fun hn => w.faults_off_allotment hw hn hu rfl, fun k hk hc hn => ?barqry⟩, fun d hu => ?lbar⟩
    case barinit =>
      refine w.completes_or_faults hw hu rfl ((atBarrier_of_some (s := b) (l := l) hk).trans ?_)
      simp only [barinit_barred_iff, ite_not]
      rfl
    case barwait =>
      refine w.completes_of hw hu rfl ((atBarrier_of_some (s := b) (l := l) hk).trans ?_)
      rw [BitVec.getLsbD, Nat.testBit_zero]
      rfl
    case barqry => exact ⟨_, w.completes_of hw hu rfl (atBarrier_of_some (s := b) (l := l) hk), Bar.toNat_word hc hn⟩
    case lbar =>
      refine ⟨fun hn => w.faults_of hw hu rfl (lbarBody_of_no_launch hn), fun lk la hlk hla => ?_⟩
      refine ⟨fun ht hroom => ?arrives, fun ht hlead hroom => ?full, fun ht hn => ?waits, fun ht n hn => ?follows⟩
      case arrives =>
        refine w.completes_of hw hu rfl ((lbarBody_of_not_trailing (s := b) (l := l) hlk hla ht).trans (if_neg ?_))
        rintro ⟨hlead, hfull⟩
        exact Bool.false_ne_true (hfull.symm.trans (hroom hlead))
      case full => exact w.parks_of hw hu rfl ((lbarBody_of_not_trailing (s := b) (l := l) hlk hla ht).trans (if_pos ⟨hlead, hroom⟩))
      case waits => exact w.parks_of hw hu rfl (lbarBody_of_unpassed (s := b) (l := l) hlk hla ht hn)
      case follows => exact w.completes_of hw hu rfl (lbarBody_of_passed (s := b) (l := l) hlk hla ht hn)
  case arrival =>
    intro v j
    refine ⟨State.barArrive_of_misuse, fun hn hm => ?_⟩
    have huse : ¬(v.n = 0 ∨ v.m2.getLsbD j = true) := not_or.2 ⟨hn, Bool.eq_false_iff.1 hm⟩
    by_cases hl : v.count + 1 = v.n
    · refine ⟨_, State.barArrive_last huse hl, ?_, fun i hi => ?_, (State.barRelease_frame _ _ _ _ 0).2⟩
      · rw [State.bar_barRelease, State.bar_setBar]
        exact ⟨rfl, by rw [if_pos hl]⟩
      · rw [State.bar_barRelease, State.bar_setBar_ne _ _ _ hi]
    · refine ⟨_, State.barArrive_counted huse hl, ?_, fun i hi => State.bar_setBar_ne _ _ _ hi, rfl⟩
      obtain ⟨hn', -, hp', hw'⟩ := v.mark_frame j
      rw [State.bar_setBar]
      refine ⟨hn', ?_⟩
      rw [if_neg hl]
      exact ⟨rfl, hp', hw', fun i hi => v.getLsbD_m1_mark j hi, fun i hi => v.getLsbD_m2_mark j hi⟩

end Sys2Proof.Machine
end

section
/-! SUPPORT. Lists in rising order of a key: what is found at a key, and what comes before an entry. -/

namespace Sys2Proof.Machine

section
variable {α : Type} {key : α → Nat} {l : List α} (hs : (l.map key).Pairwise (· < ·))
include hs

theorem find?_key_of_mem {x : α} (hx : x ∈ l) : (l.find? fun y => key y == key x) = some x := by
  obtain ⟨as, bs, rfl⟩ := List.append_of_mem hx
  rw [List.pairwise_map, List.pairwise_append] at hs
  obtain ⟨-, -, hlt⟩ := hs
  refine List.find?_eq_some_iff_append.2 ⟨beq_self_eq_true _, as, bs, rfl, fun y hy => ?_⟩
  have := hlt y hy x List.mem_cons_self
  simp only [Bool.not_eq_true', beq_eq_false_iff_ne]
  omega

/-- Looking every key up in turn finds the list. -/
theorem filterMap_range_find? {n : Nat} (hn : ∀ x ∈ l, key x < n) :
    ((List.range n).filterMap fun r => l.find? fun y => key y == r) = l := by
  have hfound {r : Nat} {x : α} (h : (l.find? fun y => key y == r) = some x) : x ∈ l ∧ key x = r :=
    ⟨List.mem_of_find?_eq_some h, by simpa using List.find?_some h⟩
  have hirrefl : ∀ {x y : α}, key x < key y → x ≠ y := fun hlt he => Nat.ne_of_lt hlt (congrArg key he)
  have hrising : (List.filterMap (fun r => l.find? fun y => key y == r) (List.range n)).Pairwise fun x y => key x < key y :=
    List.Pairwise.filterMap _ (fun r r' hlt x hx y hy => by rwa [(hfound hx).2, (hfound hy).2]) List.pairwise_lt_range
  have hl := List.pairwise_map.1 hs
  refine ((List.perm_ext_iff_of_nodup (hrising.imp hirrefl) (hl.imp hirrefl)).2 fun x => ?_).eq_of_pairwise
    (fun _ _ _ _ h1 h2 => absurd h1 (Nat.lt_asymm h2)) hrising hl
  rw [List.mem_filterMap]
  refine ⟨fun ⟨r, _, hx⟩ => (hfound hx).1, fun hx => ⟨key x, List.mem_range.2 (hn x hx), find?_key_of_mem hs hx⟩⟩

end

section
variable {α : Type} {key : α → Nat} {as bs : List α} {x : α} (hs : ((as ++ x :: bs).map key).Pairwise (· < ·))
include hs

/-- Around an entry the keys are smaller before it and greater after it. -/
theorem keys_around : (∀ y ∈ as, key y < key x) ∧ ∀ y ∈ bs, key x < key y := by
  rw [List.pairwise_map, List.pairwise_append, List.pairwise_cons] at hs
  obtain ⟨-, ⟨hafter, -⟩, hbefore⟩ := hs
  exact ⟨fun y hy => hbefore y hy x List.mem_cons_self, hafter⟩

theorem filter_key_le : ((as ++ x :: bs).filter fun y => decide (key y ≤ key x)) = as ++ [x] := by
  obtain ⟨hbefore, hafter⟩ := keys_around hs
  have ha : (as.filter fun y => decide (key y ≤ key x)) = as :=
    List.filter_eq_self.2 fun y hy => decide_eq_true (hbefore y hy).le
  have hb : (bs.filter fun y => decide (key y ≤ key x)) = [] :=
    List.filter_eq_nil_iff.2 fun y hy h => (of_decide_eq_true h).not_gt (hafter y hy)
  rw [List.filter_append, List.filter_cons_of_pos (by simp), ha, hb]

theorem filter_key_lt : ((as ++ x :: bs).filter fun y => decide (key y < key x)) = as := by
  obtain ⟨hbefore, hafter⟩ := keys_around hs
  have ha : (as.filter fun y => decide (key y < key x)) = as := List.filter_eq_self.2 fun y hy => decide_eq_true (hbefore y hy)
  have hb : (bs.filter fun y => decide (key y < key x)) = [] :=
    List.filter_eq_nil_iff.2 fun y hy h => Nat.lt_asymm (of_decide_eq_true h) (hafter y hy)
  rw [List.filter_append, List.filter_cons_of_neg (by simp), ha, hb, List.append_nil]

theorem takeWhile_key_ne : ((as ++ x :: bs).takeWhile fun y => key y != key x) = as := by
  obtain ⟨hbefore, -⟩ := keys_around hs
  rw [List.takeWhile_append_of_pos fun y hy => by simpa using (hbefore y hy).ne, List.takeWhile_cons_of_neg (by simp),
    List.append_nil]

end

/-- What comes before an entry, by position and by key. -/
theorem takeWhile_key_ne_eq_filter {α : Type} {key : α → Nat} {l : List α} (hs : (l.map key).Pairwise (· < ·)) {x : α} (hx : x ∈ l) :
    (l.takeWhile fun y => key y != key x) = l.filter fun y => decide (key y < key x) := by
  obtain ⟨as, bs, rfl⟩ := List.append_of_mem hx
  rw [takeWhile_key_ne hs, filter_key_lt hs]

/-- The selected numbers below a selected one. -/
theorem takeWhile_ne_filter_range {p : Nat → Bool} {k n : Nat} (hk : k < n) (hp : p k = true) :
    (((List.range n).filter p).takeWhile fun i => i != k) = (List.range k).filter p := by
  obtain ⟨m, rfl⟩ := Nat.exists_eq_add_of_lt hk
  have hsplit : List.range (k + m + 1) = List.range k ++ k :: List.range' (k + 1) m := by
    rw [List.range_eq_range', List.range_eq_range', ← List.range'_succ, Nat.add_assoc]
    simpa using (List.range'_append (s := 0) (m := k) (n := m + 1) (step := 1)).symm
  have hbefore : ∀ i ∈ (List.range k).filter p, (i != k) = true := by
    intro i hi
    have := List.mem_range.1 (List.mem_filter.1 hi).1
    simp only [bne_iff_ne]
    omega
  rw [hsplit, List.filter_append, List.filter_cons_of_pos hp, List.takeWhile_append_of_pos hbefore,
    List.takeWhile_cons_of_neg (by simp), List.append_nil]

end Sys2Proof.Machine
end

section
/-! SUPPORT. What each present rank receives from a permutation of elements (R203, R205, R206). -/

namespace Sys2Proof.Machine

section
variable {l : List Part1} {r : Nat}

theorem findRank_eq_none (h : ∀ p ∈ l, p.rank ≠ r) : findRank l r = none :=
  List.find?_eq_none.2 fun p hp => by simpa using h p hp

theorem Part1.x_lt (p : Part1) (w k : Nat) : p.x w k < 2 ^ w := elem_lt ..

section
variable (hs : (l.map (·.rank)).Pairwise (· < ·))
include hs

theorem findRank_of_mem {p : Part1} (hp : p ∈ l) (hr : p.rank = r) : findRank l r = some p := hr ▸ find?_key_of_mem hs hp

theorem ranksUp_eq (hr : ∀ p ∈ l, p.rank < 32) : ranksUp l = l := filterMap_range_find? hs hr

end

/-! ### One source per element -/

/-- Element `k` of `v` comes from the present thread at rank `r k`, there from element `sub k`; with none at that rank it is one's own. -/
def TakesFrom (l : List Part1) (me : Part1) (w : Nat) (v : Word) (r sub : Nat → Nat) : Prop := ∀ k, k < 64 / w →
  (∀ p, p ∈ l → p.rank = r k → elem v w k = p.x w (sub k)) ∧ ((∀ p, p ∈ l → p.rank ≠ r k) → elem v w k = me.x w k)

section
variable (hs : (l.map (·.rank)).Pairwise (· < ·)) (me : Part1) (w : Nat)
include hs

theorem shflV_takesFrom : TakesFrom l me w (shflV l me w) (fun k => elem (me.b.ints w) w k % (32 * (64 / w)) / (64 / w))
    fun k => elem (me.b.ints w) w k % (32 * (64 / w)) % (64 / w) := by
  intro k hk
  refine ⟨fun p hp hr => ?_, fun hno => ?_⟩
  · rw [shflV, elem_mkElems _ hk]
    simp only [findRank_of_mem hs hp hr, Nat.mod_eq_of_lt (p.x_lt _ _)]
  · rw [shflV, elem_mkElems _ hk]
    simp only [findRank_eq_none hno, Nat.mod_eq_of_lt (me.x_lt _ _)]

theorem shflFrom_takesFrom (r : Nat) : TakesFrom l me w (shflFrom l me w (some r)) (fun _ => r) id := by
  intro k hk
  refine ⟨fun p hp hr => ?_, fun hno => ?_⟩
  · simp only [shflFrom, Option.bind_some, findRank_of_mem hs hp hr]
    rfl
  · simp only [shflFrom, Option.bind_some, findRank_eq_none hno]
    rfl

theorem shflupV_takesFrom (h : me.b.w64.toNat ≤ me.rank) :
    TakesFrom l me w (shflupV l me w) (fun _ => me.rank - me.b.w64.toNat) id := by
  rw [shflupV, if_pos h]
  exact shflFrom_takesFrom hs me w _

theorem bcastV_takesFrom (k : Nat) (hk : k < 64 / w) :
    (∀ p, p ∈ l → p.rank = me.b.w64.toNat % 32 →
      elem (bcastV l me w) w k = p.x w (p.sub.getD (me.b.w64.toNat / 32 % 8) % (64 / w)))
    ∧ ((∀ p, p ∈ l → p.rank ≠ me.b.w64.toNat % 32) → elem (bcastV l me w) w k = me.x w k) := by
  have hrank : field me.b.w64.toNat 4 0 = me.b.w64.toNat % 32 := by rw [field, pow_zero, Nat.div_one]; rfl
  refine ⟨fun p hp hr => ?_, fun hno => ?_⟩
  · simp only [bcastV, hrank, findRank_of_mem hs hp hr, elem_mkElems _ hk, Nat.mod_eq_of_lt (p.x_lt _ _)]
    rfl
  · simp only [bcastV, hrank, findRank_eq_none hno]
    rfl

end

theorem shflupV_below_zero {me : Part1} (h : me.rank < me.b.w64.toNat) (w : Nat) : shflupV l me w = me.a.ints w := by
  rw [shflupV, if_neg (Nat.not_le.2 h)]
  rfl

/-! ### MATCH -/

theorem testBit_foldl_ranks (l : List Part1) (m q : Nat) :
    (l.foldl (fun m p => m ||| 2 ^ p.rank) m).testBit q = (m.testBit q || l.any fun p => p.rank == q) := by
  induction l generalizing m with
  | nil => simp
  | cons p l ih =>
    simp only [List.foldl_cons, ih, Nat.testBit_or, Nat.testBit_two_pow, List.any_cons, Bool.or_assoc]
    rfl

theorem getLsbD_matchV (me : Part1) (w : Nat) {q : Nat} (hq : q < 32) :
    (matchV l me w).getLsbD q = l.any fun p => p.rank == q && p.x w 0 == me.x w 0 := by
  rw [matchV, BitVec.getLsbD_ofNat, decide_eq_true (by omega), Bool.true_and, testBit_foldl_ranks, Nat.zero_testBit, Bool.false_or,
    List.any_filter]
  simp only [Bool.and_comm]

/-! ### COMPRESS and EXPAND -/

theorem stream_lt {w : Nat} {f : Part1 → List Nat} (i : Nat) : ((l.flatMap fun p => (f p).map (p.x w))[i]?.getD 0) < 2 ^ w := by
  cases hi : (l.flatMap fun p => (f p).map (p.x w))[i]? with
  | none => exact Nat.two_pow_pos w
  | some v =>
    obtain ⟨p, -, hv⟩ := List.mem_flatMap.1 (List.mem_of_getElem? hi)
    obtain ⟨j, -, rfl⟩ := List.mem_map.1 hv
    exact p.x_lt w j

section
variable (hs : (l.map (·.rank)).Pairwise (· < ·)) (hr : ∀ p ∈ l, p.rank < 32) {me : Part1} (hme : me ∈ l) {w k : Nat} (hk : k < 64 / w)
include hs hr hme hk

theorem elem_compressV : elem (compressV l me w) w k =
    (l.flatMap fun p => (selected p (64 / w)).map (p.x w))[(l.filter fun p => decide (p.rank < me.rank)).length * (64 / w) + k]?.getD 0 := by
  simp only [compressV, ranksUp_eq hs hr, takeWhile_key_ne_eq_filter hs hme, elem_mkElems _ hk]
  exact Nat.mod_eq_of_lt (stream_lt _)

theorem elem_expandV : elem (expandV l me w) w k =
    if me.b.w64.getLsbD k then
      (l.flatMap fun p => (List.range (64 / w)).map (p.x w))[((l.filter fun p => decide (p.rank < me.rank)).map fun p =>
        (selected p (64 / w)).length).sum + ((List.range k).filter fun j => me.b.w64.getLsbD j).length]?.getD 0
    else 0 := by
  simp only [expandV, ranksUp_eq hs hr, takeWhile_key_ne_eq_filter hs hme, elem_mkElems _ hk]
  split
  · rename_i hsel
    rw [selected, takeWhile_ne_filter_range hk hsel]
    exact Nat.mod_eq_of_lt (stream_lt _)
  · exact Nat.zero_mod _

end
end

end Sys2Proof.Machine
end

section
/-! SUPPORT. The tree over 32 ranks in which an absent side passes the other on, as GRED and GDRAW use it (R204, R217, R219). -/

namespace Sys2Proof.Machine

/-! ### Nodes of the tree -/

def joinSides (f : Word → Word → Word) : Option Word → Option Word → Option Word
  | some a, some b => some (f a b)
  | some a, none => some a
  | none, b => b

/-- The value at node `h` of the heap, with leaves `d` levels below it. -/
def treeNode (f : Nat → Word → Word → Word) (leaf : Nat → Option Word) : Nat → Nat → Option Word
  | 0, h => leaf h
  | d + 1, h => joinSides (f h) (treeNode f leaf d (2 * h)) (treeNode f leaf d (2 * h + 1))

/-- The value at node `h` of the heap over 32 leaves, which stand at nodes 32 to 63. -/
def heapNode (f : Nat → Word → Word → Word) (leaf : Nat → Option Word) (h : Nat) : Option Word :=
  treeNode f (fun h => leaf (h - 32)) (5 - h.log2) h

section
variable (f : Nat → Word → Word → Word) (leaf : Nat → Option Word)

theorem heapNode_leaf {q : Nat} (hq : q < 32) : heapNode f leaf (32 + q) = leaf q := by
  have hlog : (32 + q).log2 = 5 := (Nat.log2_eq_iff (by omega)).2 (by omega)
  rw [heapNode, hlog, Nat.sub_self, treeNode, Nat.add_sub_cancel_left]

theorem heapNode_inner {h : Nat} (h1 : 1 ≤ h) (h32 : h < 32) :
    heapNode f leaf h = joinSides (f h) (heapNode f leaf (2 * h)) (heapNode f leaf (2 * h + 1)) := by
  have hlog : h.log2 < 5 := (Nat.log2_lt (by omega)).2 h32
  have heven : (2 * h).log2 = h.log2 + 1 := Nat.log2_two_mul (by omega)
  have hodd : (2 * h + 1).log2 = h.log2 + 1 := by
    rw [Nat.log2_def, if_pos (by omega), show (2 * h + 1) / 2 = h by omega]
  rw [heapNode, heapNode, heapNode, heven, hodd, show 5 - h.log2 = 5 - (h.log2 + 1) + 1 by omega, treeNode]

end

/-- What the entry of key `q` brings to the tree. -/
def leafAt {α : Type} (key : α → Nat) (val : α → Word) (l : List α) (q : Nat) : Option Word := (l.find? fun x => key x == q).map val

section
variable {α : Type} {key : α → Nat} (val : α → Word) {l : List α}

theorem leafAt_eq_none {q : Nat} (h : ∀ x ∈ l, key x ≠ q) : leafAt key val l q = none := by
  rw [leafAt, List.find?_eq_none.2 fun x hx => by simpa using h x hx, Option.map_none]

variable (hs : (l.map key).Pairwise (· < ·))
include hs

theorem leafAt_of_mem {x : α} (hx : x ∈ l) : leafAt key val l (key x) = some (val x) := by
  rw [leafAt, find?_key_of_mem hs hx, Option.map_some]

theorem filterMap_leafAt (hr : ∀ x ∈ l, key x < 32) : (List.range 32).filterMap (leafAt key val l) = l.map val := by
  rw [← filterMap_range_find? hs hr, List.map_filterMap, filterMap_range_find? hs hr]
  rfl

end

/-! ### Levels of the two trees -/

theorem redLevel_cons_cons (op : RedOp) (x y : Option Word) (r : List (Option Word)) :
    redLevel op (x :: y :: r) = joinSides (redCombine op) x y :: redLevel op r := by
  cases x <;> cases y <;> rfl

theorem drawLevel_cons_cons (lg nt : Bool) (coin : Nat → Nat) (h : Nat) (x y : Option Word) (r : List (Option Word)) :
    (drawLevel lg nt coin h (x :: y :: r)).map (·.1) =
      joinSides (fun a b => (mergeV lg nt (coin h) a b).1) x y :: (drawLevel lg nt coin (h + 1) r).map (·.1) := by
  cases x <;> cases y <;> rfl

/-- One level of GRED's tree, from the nodes below `h` to the nodes from `h` on. -/
theorem redLevel_nodes (op : RedOp) (g : Nat → Option Word) (h n : Nat) :
    redLevel op ((List.range' (2 * h) (2 * n)).map g) =
      (List.range' h n).map fun i => joinSides (redCombine op) (g (2 * i)) (g (2 * i + 1)) := by
  induction n generalizing h with
  | zero => rfl
  | succ n ih =>
    rw [Nat.mul_succ, List.range'_succ, List.range'_succ, List.range'_succ, List.map_cons, List.map_cons, List.map_cons,
      redLevel_cons_cons, show 2 * h + 1 + 1 = 2 * (h + 1) by omega, ih]

/-- One level of GDRAW's tree. -/
theorem drawLevel_nodes (lg nt : Bool) (coin : Nat → Nat) (g : Nat → Option Word) (h n : Nat) :
    (drawLevel lg nt coin h ((List.range' (2 * h) (2 * n)).map g)).map (·.1) =
      (List.range' h n).map fun i => joinSides (fun a b => (mergeV lg nt (coin i) a b).1) (g (2 * i)) (g (2 * i + 1)) := by
  induction n generalizing h with
  | zero => rfl
  | succ n ih =>
    rw [Nat.mul_succ, List.range'_succ, List.range'_succ, List.range'_succ, List.map_cons, List.map_cons, List.map_cons,
      drawLevel_cons_cons, show 2 * h + 1 + 1 = 2 * (h + 1) by omega, ih]

theorem leaves_eq_nodes (leaf : Nat → Option Word) :
    (List.range 32).map leaf = (List.range' (2 * 16) (2 * 16)).map fun h => leaf (h - 32) := by
  rw [List.range'_eq_map_range, List.map_map]
  exact List.map_congr_left fun r _ => congrArg leaf (by simp)

theorem gredV_eq_heapNode (op : RedOp) (l : List Part1) : gredV op l =
    (heapNode (fun _ => redCombine op) (leafAt Part1.rank (fun p : Part1 => redArg op p.a) l) 1).getD 0 := by
  have hleaves : ((List.range 32).map fun r => (findRank l r).map fun p => redArg op p.a) = _ :=
    leaves_eq_nodes (leafAt Part1.rank (fun p : Part1 => redArg op p.a) l)
  simp only [gredV, hleaves]
  rw [redLevel_nodes op _ 16 16, redLevel_nodes op _ 8 8, redLevel_nodes op _ 4 4, redLevel_nodes op _ 2 2, redLevel_nodes op _ 1 1]
  rfl

/-- The root of GDRAW's tree over a level of nodes. -/
theorem drawTree_nodes (lg nt : Bool) (coin : Nat → Nat) (leaf : Nat → Option Word) (d k : Nat) :
    let node := treeNode (fun h a b => (mergeV lg nt (coin h) a b).1) leaf
    (drawTree lg nt coin d ((List.range' (2 ^ d) (2 ^ d)).map (node k))).1 = node (k + d) 1 := by
  intro node
  induction d generalizing k with
  | zero => rfl
  | succ d ih =>
    have hlevel := drawLevel_nodes lg nt coin (node k) (2 ^ d) (2 ^ d)
    rw [pow_succ', drawTree]
    simp only [hlevel]
    exact (ih (k + 1)).trans (by rw [Nat.add_right_comm, Nat.add_assoc])

theorem drawTree_eq_heapNode (lg nt : Bool) (coin : Nat → Nat) (leaf : Nat → Option Word) :
    (drawTree lg nt coin 5 ((List.range 32).map leaf)).1 = heapNode (fun h a b => (mergeV lg nt (coin h) a b).1) leaf 1 := by
  rw [leaves_eq_nodes leaf]
  exact drawTree_nodes lg nt coin (fun h => leaf (h - 32)) 5 0

/-! ### The root combines the present leaves in order -/

/-- `v` combines the words of a list in order, under some bracketing, each combine by the function of some node. -/
inductive Bracketed (f : Nat → Word → Word → Word) : List Word → Word → Prop
  | leaf (a : Word) : Bracketed f [a] a
  | node {l m : List Word} {a b : Word} (h : Nat) : Bracketed f l a → Bracketed f m b → Bracketed f (l ++ m) (f h a b)

section
variable {f : Nat → Word → Word → Word} {l : List Word} {v : Word}

theorem Bracketed.ne_nil (h : Bracketed f l v) : l ≠ [] := by
  induction h with
  | leaf a => exact List.cons_ne_nil _ _
  | node _ _ _ ih _ => exact List.append_ne_nil_of_left_ne_nil ih _

theorem Bracketed.eq_of_one {a : Word} (h : Bracketed f l v) (hl : l = [a]) : v = a := by
  cases h with
  | leaf b => exact (List.cons.inj hl).1
  | node _ hx hy =>
    obtain ⟨h, -⟩ | ⟨-, h⟩ := List.append_eq_singleton_iff.1 hl
    · exact absurd h hx.ne_nil
    · exact absurd h hy.ne_nil

theorem Bracketed.eq_of_two {a b : Word} (h : Bracketed f l v) (hl : l = [a, b]) : ∃ i, v = f i a b := by
  cases h with
  | leaf c => simp at hl
  | node i hx hy =>
    obtain ⟨h, -⟩ | ⟨c, h, h'⟩ := List.append_eq_cons_iff.1 hl
    · exact absurd h hx.ne_nil
    · obtain ⟨hc, hb⟩ | ⟨-, hb⟩ := List.append_eq_singleton_iff.1 h'.symm
      · exact ⟨i, by rw [hx.eq_of_one (hc ▸ h), hy.eq_of_one hb]⟩
      · exact absurd hb hy.ne_nil

end

/-- The present leaves below node `h`. -/
def leavesUnder (leaf : Nat → Option Word) (d h : Nat) : List Word := (List.range' (2 ^ d * h) (2 ^ d)).filterMap leaf

theorem leavesUnder_succ (leaf : Nat → Option Word) (d h : Nat) :
    leavesUnder leaf (d + 1) h = leavesUnder leaf d (2 * h) ++ leavesUnder leaf d (2 * h + 1) := by
  have hsplit := List.range'_append (s := 2 ^ d * (2 * h)) (m := 2 ^ d) (n := 2 ^ d) (step := 1)
  rw [leavesUnder, leavesUnder, leavesUnder, ← List.filterMap_append, show 2 ^ (d + 1) * h = 2 ^ d * (2 * h) by ring,
    show 2 ^ (d + 1) = 2 ^ d + 2 ^ d by ring, show 2 ^ d * (2 * h + 1) = 2 ^ d * (2 * h) + 1 * 2 ^ d by ring, hsplit]

theorem treeNode_cases (f : Nat → Word → Word → Word) (leaf : Nat → Option Word) (d h : Nat) :
    (leavesUnder leaf d h = [] ∧ treeNode f leaf d h = none)
      ∨ ∃ v, treeNode f leaf d h = some v ∧ Bracketed f (leavesUnder leaf d h) v := by
  induction d generalizing h with
  | zero =>
    have hone : leavesUnder leaf 0 h = (leaf h).toList := by
      rw [leavesUnder, pow_zero, Nat.one_mul]
      cases hl : leaf h <;> simp [hl]
    rw [hone, treeNode]
    cases leaf h with
    | none => exact .inl ⟨rfl, rfl⟩
    | some a => exact .inr ⟨a, rfl, .leaf a⟩
  | succ d ih =>
    rw [leavesUnder_succ, treeNode]
    obtain ⟨hl, hx⟩ | ⟨a, hx, ha⟩ := ih (2 * h) <;> obtain ⟨hr, hy⟩ | ⟨b, hy, hb⟩ := ih (2 * h + 1) <;> rw [hx, hy]
    · exact .inl ⟨by rw [hl, hr, List.append_nil], rfl⟩
    · exact .inr ⟨b, rfl, by rwa [hl, List.nil_append]⟩
    · exact .inr ⟨a, rfl, by rwa [hr, List.append_nil]⟩
    · exact .inr ⟨f h a b, rfl, .node h ha hb⟩

/-- The root over leaves that are not all absent. -/
theorem heapNode_root (f : Nat → Word → Word → Word) {leaf : Nat → Option Word} {l : List Word}
    (hl : (List.range 32).filterMap leaf = l) (hne : l ≠ []) :
    heapNode f leaf 1 = some ((heapNode f leaf 1).getD 0) ∧ Bracketed f l ((heapNode f leaf 1).getD 0) := by
  have hleaves : leavesUnder (fun h => leaf (h - 32)) 5 1 = l := by
    rw [← hl, leavesUnder, List.range'_eq_map_range, List.filterMap_map]
    exact List.filterMap_congr fun r _ => congrArg leaf (by simp)
  obtain ⟨hnil, -⟩ | ⟨v, hv, hb⟩ := treeNode_cases f (fun h => leaf (h - 32)) 5 1
  · exact absurd (hleaves.symm.trans hnil) hne
  · have hroot : heapNode f leaf 1 = some v := hv
    rw [hroot, ← hleaves]
    exact ⟨rfl, hb⟩

/-- The tree over a list in rising order of its keys: its leaves, its inner nodes, and its root. -/
theorem heapNode_spec {α : Type} {key : α → Nat} (val : α → Word) {l : List α} (hs : (l.map key).Pairwise (· < ·))
    (hr : ∀ x ∈ l, key x < 32) (hne : l ≠ []) (f : Nat → Word → Word → Word) :
    let node := heapNode f (leafAt key val l)
    (∀ q, q < 32 → (∀ x, x ∈ l → key x = q → node (32 + q) = some (val x)) ∧ ((∀ x, x ∈ l → key x ≠ q) → node (32 + q) = none))
      ∧ (∀ h, 1 ≤ h → h < 32 → node h = joinSides (f h) (node (2 * h)) (node (2 * h + 1)))
      ∧ node 1 = some ((node 1).getD 0) ∧ Bracketed f (l.map val) ((node 1).getD 0) := by
  intro node
  refine ⟨fun q hq => ?_, fun h h1 h32 => heapNode_inner _ _ h1 h32, heapNode_root f (filterMap_leafAt val hs hr) (by simpa using hne)⟩
  rw [show node (32 + q) = leafAt key val l q from heapNode_leaf _ _ hq]
  exact ⟨fun x hx hxq => hxq ▸ leafAt_of_mem val hs hx, leafAt_eq_none val⟩

end Sys2Proof.Machine
end

section
/-! SUPPORT. Reductions and scans over the present ranks (R92, R204). -/

namespace Sys2Proof.Machine

/-! ### One combine -/

theorem elem_redCombine {op : RedOp} {w : Nat} (hw : redWidth op = w) (x y : Word) {k : Nat} (hk : k < 64 / w) :
    elem (redCombine op x y) w k = redElem op (elem x w k) (elem y w k) % 2 ^ w := by
  subst hw
  exact elem_mkElems _ hk

theorem elem_64_0 (x : Word) : elem x 64 0 = x.toNat := by
  rw [elem, Nat.mul_zero, pow_zero, Nat.div_one]
  exact Nat.mod_eq_of_lt x.isLt

theorem toNat_redCombine_add64 (x y : Word) : (redCombine .add64 x y).toNat = (x.toNat + y.toNat) % 2 ^ 64 := by
  have h := elem_redCombine (op := .add64) (w := 64) rfl x y (k := 0) (by decide)
  rwa [elem_64_0, elem_64_0, elem_64_0] at h

theorem redArg_add64 (a : RV) : redArg .add64 a = a.w64 := by
  cases a with
  | word x => rfl
  | imm n =>
    have h : elem (mkElems 64 fun _ => wrap 64 n) 64 0 = wrap 64 n % 2 ^ 64 := elem_mkElems _ (by decide)
    rw [elem_64_0, wrap_mod] at h
    exact BitVec.eq_of_toNat_eq (h.trans (BitVec.toNat_ofInt n).symm)

theorem Bracketed.toNat_add64 {l : List Word} {v : Word} (h : Bracketed (fun _ => redCombine .add64) l v) :
    v.toNat = (l.map (·.toNat)).sum % 2 ^ 64 := by
  induction h with
  | leaf a => simp [Nat.mod_eq_of_lt a.isLt]
  | node _ _ _ iha ihb => rw [toNat_redCombine_add64, iha, ihb, List.map_append, List.sum_append, ← Nat.add_mod]

section
variable {l : List Part1} (hs : (l.map (·.rank)).Pairwise (· < ·)) (hr : ∀ p ∈ l, p.rank < 32) (op : RedOp)
include hs hr

/-! ### GRED -/

theorem gredV_bracketed (hne : l ≠ []) : Bracketed (fun _ => redCombine op) (l.map fun p => redArg op p.a) (gredV op l) := by
  obtain ⟨-, -, -, hroot⟩ := heapNode_spec (fun p : Part1 => redArg op p.a) hs hr hne fun _ => redCombine op
  rwa [gredV_eq_heapNode]

/-! ### GSCAN -/

/-- GSCAN at a rank, from the words at or below it. -/
theorem gscanV_of_upto {q : Nat} {x : Word} {r : List Word}
    (h : ((l.filter fun p => decide (p.rank ≤ q)).map fun p => redArg op p.a) = x :: r) : gscanV op l q = r.foldl (redCombine op) x := by
  have hlist : ((List.range 32).filterMap fun r => if r ≤ q then (findRank l r).map fun p => redArg op p.a else none) = x :: r := by
    rw [← h, ← List.filterMap_eq_map, List.filterMap_filter]
    nth_rw 2 [← ranksUp_eq hs hr]
    rw [ranksUp, List.filterMap_filterMap]
    refine List.filterMap_congr fun r _ => ?_
    cases hf : findRank l r with
    | none => simp
    | some p =>
      have hrank : p.rank = r := by simpa using List.find?_some hf
      simp [hrank]
  simp only [gscanV, hlist]

end

/-- The words at or below the rank of an entry. -/
theorem upto_rank (op : RedOp) {before rest : List Part1} {p : Part1} (hs : ((before ++ p :: rest).map (·.rank)).Pairwise (· < ·)) :
    (((before ++ p :: rest).filter fun x => decide (x.rank ≤ p.rank)).map fun p => redArg op p.a) =
      (before.map fun p => redArg op p.a) ++ [redArg op p.a] := by
  rw [filter_key_le hs, List.map_append, List.map_singleton]

theorem gscanV_first (op : RedOp) {p : Part1} {rest : List Part1} (hs : ((p :: rest).map (·.rank)).Pairwise (· < ·))
    (hr : ∀ x ∈ p :: rest, x.rank < 32) : gscanV op (p :: rest) p.rank = redArg op p.a :=
  gscanV_of_upto hs hr op (upto_rank op (before := []) hs)

/-- Each rank adds its word to what the present rank before it has. -/
theorem gscanV_next (op : RedOp) {before rest : List Part1} {p q : Part1}
    (hs : ((before ++ p :: q :: rest).map (·.rank)).Pairwise (· < ·)) (hr : ∀ x ∈ before ++ p :: q :: rest, x.rank < 32) :
    gscanV op (before ++ p :: q :: rest) q.rank =
      redCombine op (gscanV op (before ++ p :: q :: rest) p.rank) (redArg op q.a) := by
  have hsplit : before ++ p :: q :: rest = (before ++ [p]) ++ q :: rest := by simp
  have hp := upto_rank op hs
  have hq := upto_rank op (hsplit ▸ hs)
  rw [← hsplit, List.map_append, List.map_singleton] at hq
  obtain ⟨x, r, hxr⟩ : ∃ x r, (before.map fun p => redArg op p.a) ++ [redArg op p.a] = x :: r :=
    List.exists_cons_of_ne_nil (List.append_ne_nil_of_right_ne_nil _ (List.cons_ne_nil _ _))
  rw [hxr] at hp hq
  rw [List.cons_append] at hq
  rw [gscanV_of_upto hs hr op hp, gscanV_of_upto hs hr op hq, List.foldl_append]
  rfl

end Sys2Proof.Machine
end

section
/-! SUPPORT. When an exchange performs and what it delivers (R194), and GDRAW's leaves and coins (R219). -/

namespace Sys2Proof.Machine

/-! ### Looking at an exchange -/

/-- The arrivals on mask `k` of a group: rank, thread and what it brought. -/
def State.arrivals (s : State) (ck : Nat) (g : Grp) (k : Nat) : List (Nat × Nat × Arr) :=
  (s.grpThreads ck g).filterMap fun x =>
    match (s.thr x.2).arr with
    | some a => if a.mreg = k then some (x.1, x.2, a) else none
    | none => none

theorem State.arrivals_eq_bind (s : State) (ck : Nat) (g : Grp) (k : Nat) : s.arrivals ck g k =
    (s.grpThreads ck g).filterMap fun x => (s.thr x.2).arr.bind fun a => if a.mreg = k then some (x.1, x.2, a) else none :=
  List.filterMap_congr fun x _ => by cases (s.thr x.2).arr <;> rfl

/-- The arrivals of participants. -/
def State.arrivedIn (s : State) (ck : Nat) (g : Grp) (k : Nat) : List (Nat × Nat × Arr) :=
  (s.arrivals ck g k).filter fun x => (g.part k s.clock).getLsbD x.1

/-- The state once the arrivals of no participant have failed. -/
def State.strayed (s : State) (ck : Nat) (g : Grp) (k : Nat) : State :=
  ((s.arrivals ck g k).filter fun x => !(g.part k s.clock).getLsbD x.1).foldl (fun s x => s.exchangeFault x.2.1 x.2.2) s

/-- Every rank of `part` is among the arrivals. -/
def Covers (part : BitVec 32) (inn : List (Nat × Nat × Arr)) : Prop :=
  ∀ r, r < 32 → part.getLsbD r = true → ∃ x, x ∈ inn ∧ x.1 = r

/-- All arrivals stand at one word. -/
def AtOneWord (inn : List (Nat × Nat × Arr)) : Prop := ∀ x, x ∈ inn → ∀ y, y ∈ inn → x.2.2.addr = y.2.2.addr

theorem covers_iff {part : BitVec 32} {inn : List (Nat × Nat × Arr)} :
    ((List.range 32).all fun r => !part.getLsbD r || inn.any fun x => x.1 == r) = true ↔ Covers part inn := by
  simp only [List.all_eq_true, List.mem_range, Bool.or_eq_true, Bool.not_eq_true', List.any_eq_true, beq_iff_eq, Covers]
  refine forall₂_congr fun r _ => ?_
  cases part.getLsbD r <;> simp

theorem atOneWord_iff {x : Nat × Nat × Arr} {rest : List (Nat × Nat × Arr)} :
    ((x :: rest).all fun y => y.2.2.addr == x.2.2.addr) = true ↔ AtOneWord (x :: rest) := by
  simp only [List.all_eq_true, beq_iff_eq, AtOneWord]
  exact ⟨fun h y hy z hz => (h y hy).trans (h z hz).symm, fun h y hy => h y hy x List.mem_cons_self⟩

section
variable {s : State} {ck e k : Nat} {g : Grp} (hg : s.grpAt ck e = some g)
include hg

theorem State.exchangeCheck_eq : s.exchangeCheck ck e k = (s.arrivedIn ck g k).head?.elim (s.strayed ck g k) fun x =>
    if (List.range 32).all fun r => !(g.part k s.clock).getLsbD r || (s.arrivedIn ck g k).any fun x => x.1 == r then
      if (s.strayed ck g k).gdrawWaits (s.arrivedIn ck g k) then s.strayed ck g k
      else if (s.arrivedIn ck g k).all fun y => y.2.2.addr == x.2.2.addr then (s.strayed ck g k).exchangePerform (s.arrivedIn ck g k)
      else (s.arrivedIn ck g k).foldl (fun s x => s.exchangeFault x.2.1 x.2.2) (s.strayed ck g k)
    else s.strayed ck g k := by
  cases hinn : s.arrivedIn ck g k with
  | nil =>
    rw [State.exchangeCheck, hg]
    dsimp only
    split <;> rename_i h
    · rfl
    · exact absurd (h.symm.trans hinn) (List.cons_ne_nil _ _)
  | cons x rest =>
    rw [State.exchangeCheck, hg]
    dsimp only
    split <;> rename_i h
    · exact absurd (hinn.symm.trans h) (List.cons_ne_nil _ _)
    · obtain ⟨rfl, rfl⟩ := List.cons.inj (h.symm.trans hinn)
      rw [h]
      rfl

/-- Until every participant has arrived, only the stray arrivals fail. -/
theorem State.exchangeCheck_of_partial (h : s.arrivedIn ck g k = [] ∨ ¬Covers (g.part k s.clock) (s.arrivedIn ck g k)) :
    s.exchangeCheck ck e k = s.strayed ck g k := by
  rw [State.exchangeCheck_eq hg]
  cases hinn : s.arrivedIn ck g k with
  | nil => rfl
  | cons x rest =>
    have hnot := h.resolve_left (hinn ▸ List.cons_ne_nil _ _)
    rw [hinn, ← covers_iff] at hnot
    exact if_neg hnot

variable (hne : s.arrivedIn ck g k ≠ []) (hall : Covers (g.part k s.clock) (s.arrivedIn ck g k))
  (hcoins : (s.strayed ck g k).gdrawWaits (s.arrivedIn ck g k) = false)
include hne hall hcoins

theorem State.exchangeCheck_of_apart (h : ¬AtOneWord (s.arrivedIn ck g k)) : s.exchangeCheck ck e k =
    (s.arrivedIn ck g k).foldl (fun s x => s.exchangeFault x.2.1 x.2.2) (s.strayed ck g k) := by
  rw [State.exchangeCheck_eq hg]
  obtain ⟨x, rest, hinn⟩ := List.exists_cons_of_ne_nil hne
  rw [hinn] at hall hcoins h ⊢
  rw [← atOneWord_iff] at h
  simp only [List.head?_cons, Option.elim_some, covers_iff.2 hall, hcoins, h, Bool.false_eq_true, if_true, if_false]

theorem State.exchangeCheck_of_together (h : AtOneWord (s.arrivedIn ck g k)) :
    s.exchangeCheck ck e k = (s.strayed ck g k).exchangePerform (s.arrivedIn ck g k) := by
  rw [State.exchangeCheck_eq hg]
  obtain ⟨x, rest, hinn⟩ := List.exists_cons_of_ne_nil hne
  rw [hinn] at hall hcoins h ⊢
  simp only [List.head?_cons, Option.elim_some, covers_iff.2 hall, hcoins, atOneWord_iff.2 h, Bool.false_eq_true, if_true, if_false]

end

/-! ### The exchange performs -/

section
variable {s : State} {l : List (Nat × Nat × Arr)}

theorem State.exchangePerform_of_none (h : (l.filter fun x => x.2.2.present) = []) :
    s.exchangePerform l = l.foldl (fun s x => s.exchangeQuit x.2.1) s := by
  simp only [State.exchangePerform, h, List.head?_nil, Option.map_none]

variable {y : Nat × Nat × Arr} {rest : List (Nat × Nat × Arr)} (h : (l.filter fun x => x.2.2.present) = y :: rest)
include h

theorem State.exchangePerform_of_values (hy : ∀ f lg o mk, y.2.2.ins ≠ .gdraw f lg o mk) : s.exchangePerform l =
    (l.filter fun x => x.2.2.present).foldl (fun s x => s.deliver x.2.1 x.2.2.u
      (exchangeV x.2.2.ins ((l.filter fun x => x.2.2.present).map fun x => ⟨x.1, x.2.2.a, x.2.2.b, x.2.2.sub⟩)
        ⟨x.1, x.2.2.a, x.2.2.b, x.2.2.sub⟩) none) (l.foldl (fun s x => s.exchangeQuit x.2.1) s) := by
  simp only [State.exchangePerform, h, List.head?_cons, Option.map_some]

theorem State.exchangePerform_of_gdraw {f : Frame} {lg : Bool} {o : O2} {mk : BitVec 4} (hy : y.2.2.ins = .gdraw f lg o mk) :
    let r := (l.foldl (fun s x => s.exchangeQuit x.2.1) s).gdrawPerform lg (l.filter fun x => x.2.2.present)
    s.exchangePerform l = (l.filter fun x => x.2.2.present).foldl (fun s x => s.deliver x.2.1 x.2.2.u r.2 none) r.1 := by
  simp only [State.exchangePerform, h, List.head?_cons, Option.map_some, hy]

end

/-! ### GDRAW -/

/-- Under NaN test mode an invalid pair counts as zero mass. -/
def validOrZeroMass (nt lg : Bool) (v : Word) : Word := if nt && pairInvalid lg v then zeroMass lg else v

section
variable {s : State} {tk : Nat} (h : (s.thr tk).pair = none)
include h

/-- A thread of no pair has coins of its own and passes nothing on. -/
theorem State.coinSrc_of_single : s.coinSrc tk = s.coinWith tk (s.coinNow tk) := by
  simp only [State.coinSrc, State.pairSrc, h, Option.bind_none, Option.getD_none]

theorem State.passed_of_single (pos : Nat) : s.passed tk pos = none := by simp only [State.passed, State.leadOf, h]

theorem State.pass_of_single (v : PairVal) : s.pass tk v = s := by
  simp only [State.pass, Thread.leads, h, Bool.false_eq_true, if_false]

theorem Thread.trails_of_single : (s.thr tk).trails = false := by simp only [Thread.trails, h]

/-- GDRAW of the present ranks, where the lowest belongs to no pair. -/
theorem State.gdrawPerform_of_single (lg : Bool) {l : List (Nat × Nat × Arr)} {r : Nat} {a : Arr} {rest : List (Nat × Nat × Arr)}
    (hl : l = (r, tk, a) :: rest) :
    s.gdrawPerform lg l =
      (l.foldl (fun t x => if s.nanTest tk && pairInvalid lg x.2.2.a.w64 then t.addNan x.2.1 1 else t) s,
        (heapNode (fun h x y => (mergeV lg (s.nanTest tk) ((s.coinSrc tk).coin (a.b.w64.toNat % 2 ^ 12) h) x y).1)
          (leafAt (·.1) (fun x => validOrZeroMass (s.nanTest tk) lg x.2.2.a.w64) l) 1).getD 0) := by
  subst hl
  rw [← drawTree_eq_heapNode]
  simp only [State.gdrawPerform, Thread.trails_of_single h, State.passed_of_single h, State.pass_of_single h,
    State.coinSrc_of_single h, Option.bind_none, Option.getD_none, Bool.false_eq_true, if_false, field, pow_zero, Nat.div_one]
  rfl

end

end Sys2Proof.Machine
end

section
/-! SUPPORT. What an exchange gives each present rank (R194, R203 to R206, R217, R219). -/

namespace Sys2Proof.Machine

/-- Settles O17: permutations by their source ranks, an exchange by its arrivals, GRED and GDRAW by one tree over 32 ranks, and GSCAN
by the ranks at or below one's own. -/
theorem exchangeResults : Obligations.ExchangeResults := by
  unfold Obligations.ExchangeResults
  refine ⟨⟨fun l me wd hs hme hr => ?permutes, fun s ck e k g hg => ?performs⟩,
    fun op p hp => ?one, fun op p q hpq hq => ?two, fun l hs hne hr => ?sum, fun op l hs hne hr => ⟨?tree, ?first, ?next⟩,
    fun op x y => ?combine, fun s lg tk r a rest => ?draw⟩
  case permutes =>
    intro n x from_ b at_ chosen before
    exact ⟨shflV_takesFrom hs me _, shflFrom_takesFrom hs me _ _, shflFrom_takesFrom hs me _ _, shflupV_takesFrom hs me _,
      fun h k _ => by rw [shflupV_below_zero h], fun _ hq => getLsbD_matchV me _ hq, bcastV_takesFrom hs me _,
      fun _ hk => elem_compressV hs hr hme hk, fun _ hk => elem_expandV hs hr hme hk⟩
  case performs =>
    intro part arrived inn here whole same pres parts left gets ways
    have harr : arrived = s.arrivals ck g k := (s.arrivals_eq_bind ck g k).symm
    clear_value arrived
    subst harr
    refine ⟨State.exchangeCheck_of_partial hg, fun hne hall hcoins => ⟨State.exchangeCheck_of_apart hg hne hall hcoins, fun hone => ?_⟩,
      fun f m o mk => ⟨fun _ _ => rfl, fun _ _ => rfl, fun _ _ => rfl, fun _ _ => rfl, fun _ _ => rfl, fun _ _ => rfl,
        fun _ _ => rfl, fun o1 op => ⟨fun _ _ => rfl, fun _ _ => rfl, fun _ _ => rfl⟩⟩⟩
    have htogether := State.exchangeCheck_of_together hg hne hall hcoins hone
    exact ⟨fun hp => htogether.trans (State.exchangePerform_of_none hp), fun y rest hp =>
      ⟨fun hy => htogether.trans (State.exchangePerform_of_values hp hy),
        fun f lg o mk hy => htogether.trans (State.exchangePerform_of_gdraw hp hy)⟩⟩
  case one =>
    have hs : ([p].map (·.rank)).Pairwise (· < ·) := List.pairwise_singleton ..
    have hr : ∀ x ∈ [p], x.rank < 32 := by simpa using hp
    exact ⟨(gredV_bracketed hs hr op (List.cons_ne_nil _ _)).eq_of_one rfl, gscanV_first op hs hr⟩
  case two =>
    have hs : ([p, q].map (·.rank)).Pairwise (· < ·) := by simpa using hpq
    have hr : ∀ x ∈ [p, q], x.rank < 32 := by simpa using ⟨hpq.trans hq, hq⟩
    obtain ⟨-, hroot⟩ := (gredV_bracketed hs hr op (List.cons_ne_nil _ _)).eq_of_two rfl
    have hfirst := gscanV_first op hs hr
    exact ⟨hroot, hfirst, (gscanV_next op (before := []) hs hr).trans (congrArg (redCombine op · _) hfirst)⟩
  case sum =>
    have hsum := (gredV_bracketed hs hr .add64 hne).toNat_add64
    simpa only [List.map_map, Function.comp_def, redArg_add64] using hsum
  case tree =>
    obtain ⟨hleaf, hinner, hroot, -⟩ := heapNode_spec (fun p : Part1 => redArg op p.a) hs hr hne fun _ => redCombine op
    exact ⟨_, hleaf, hinner, hroot.trans (by rw [gredV_eq_heapNode])⟩
  case first =>
    rintro p rest rfl
    exact gscanV_first op hs hr
  case next =>
    rintro before p q rest rfl
    exact gscanV_next op hs hr
  case combine =>
    intro els least most fp
    have hels {w : Nat} {f : Nat → Nat → Nat} (hw : redWidth op = w) (hf : ∀ a b, redElem op a b = f a b) : els w f :=
      fun k hk => (elem_redCombine hw x y hk).trans (by rw [hf])
    and_intros <;> (rintro rfl; exact hels rfl fun _ _ => rfl)
  case draw =>
    intro l hs' hs hr nt coin leaf
    have hdraw := State.gdrawPerform_of_single hs' lg (l := l) rfl
    obtain ⟨hleaf, hinner, hroot, -⟩ := heapNode_spec leaf hs hr (List.cons_ne_nil _ _) fun h x y => (mergeV lg nt (coin h) x y).1
    exact ⟨_, hleaf, hinner, hroot.trans (by rw [hdraw]; rfl), by rw [hdraw]⟩

end Sys2Proof.Machine
end

section
/-! SUPPORT. Draw pairs, leaves, coins and keys (R47, R48, R50, R51, R215, R220, R221). -/

namespace Sys2Proof.Machine

/-! ### Pairs -/

theorem field_low (w n : Nat) : field w n 0 = w % 2 ^ (n + 1) := by rw [field, pow_zero, Nat.div_one, Nat.sub_zero]

theorem pairMass_eq (p : Word) : pairMass p = p.toNat % 2 ^ 32 := field_low ..

theorem pairIx_eq (p : Word) : pairIx p = p.toNat / 2 ^ 32 :=
  Nat.mod_eq_of_lt (Nat.div_lt_of_lt_mul p.isLt)

theorem pairOf_eq {ix : Nat} (h : ix < 2 ^ 32) (m : Nat) : pairOf ix m = BitVec.ofNat 64 (ix * 2 ^ 32 + m % 2 ^ 32) := by
  rw [pairOf, Nat.mod_eq_of_lt h]

theorem pick_eq (p : Word) (v : FV) : pick p v = BitVec.ofNat 64 (p.toNat / 2 ^ 32 * 2 ^ 32 + fd32.encode v % 2 ^ 32) := by
  rw [pick, pairIx_eq, pairOf_eq (Nat.div_lt_of_lt_mul p.isLt)]

/-- The sides that a merge must not take as they are (R49). -/
theorem pairInvalid_iff (lg : Bool) (p : Word) : pairInvalid lg p = true ↔
    let v := fd32.decode (pairMass p)
    v.isNan = true ∨ (pairIx p ≠ idxNone ∧ lg = false ∧ v.neg = true ∧ v.isZero = false) := by
  rw [pairInvalid]
  cases fd32.decode (pairMass p) with
  | nan n fr => simp [FV.isNan]
  | inf n => simp [FV.isNan, FV.neg, FV.isZero]; tauto
  | fin n m e => cases m <;> simp [FV.isNan, FV.neg, FV.isZero]; tauto

theorem pairInvalid_zeroMass (lg : Bool) : pairInvalid lg (zeroMass lg) = false := by cases lg <;> decide

/-! ### Leaves -/

/-- What becomes of a leaf, by what makes it invalid and what makes it zero mass: the pair, and the replacements counted (R215). -/
def LeafMade (lg nt : Bool) (r : Word × Nat) (invalid zero : Prop) (p : Word) : Prop :=
  (invalid → r = if nt then (zeroMass lg, 1) else (invalidPair, 0)) ∧ (¬invalid → zero → r = (zeroMass lg, 0))
    ∧ (¬invalid → ¬zero → r = (p, 0))

theorem leafMade_leafResult {bad empty : Bool} {invalid zero : Prop} (hi : bad = true ↔ invalid) (hz : empty = true ↔ zero)
    (lg nt : Bool) (p : Word) : LeafMade lg nt (leafResult lg nt bad empty p) invalid zero p :=
  ⟨fun h => if_pos (hi.2 h), fun h h0 => (if_neg (hi.not.2 h)).trans (if_pos (hz.2 h0)),
    fun h h0 => (if_neg (hi.not.2 h)).trans (if_neg (hz.not.2 h0))⟩

section
variable {ix : Nat} (h : ix < 2 ^ 32) (nt : Bool)
include h

theorem leafMade_linLeaf (w : Nat) : let v := fd32.decode w
    LeafMade false nt (linLeaf nt w ix) (v.isNan = true ∨ (¬ix = idxNone ∧ v.neg = true ∧ v.isZero = false))
      (ix = idxNone ∨ v.isZero = true) (BitVec.ofNat 64 (ix * 2 ^ 32 + w % 2 ^ 32)) := by
  intro v
  rw [← pairOf_eq h]
  refine leafMade_leafResult ?_ ?_ false nt _
  · simp only [Bool.or_eq_true, Bool.and_eq_true, Bool.not_eq_true', beq_eq_false_iff_ne, ne_eq, and_assoc]; rfl
  · rw [Bool.or_eq_true, beq_iff_eq]

theorem leafMade_logLeaf (x beta : FV) : let v := fmulV fd32 .rne x beta
    LeafMade true nt (logLeaf nt x beta ix)
      (if ix = idxNone then v.isNan = true
        else x.isNan = true ∨ beta.isNan = true ∨ beta.isInf = true ∨ (x = .inf false ∧ beta.isZero = true))
      (ix = idxNone ∨ x = .inf true ∨ v = .inf true) (BitVec.ofNat 64 (ix * 2 ^ 32 + fd32.encode v % 2 ^ 32)) := by
  intro v
  rw [← pairOf_eq h]
  refine leafMade_leafResult ?_ ?_ true nt _
  · by_cases hnone : ix = idxNone
    · simp only [hnone, BEq.rfl, if_true]; rfl
    · simp only [beq_eq_false_iff_ne.2 hnone, hnone, Bool.false_eq_true, if_false, Bool.or_eq_true, Bool.and_eq_true, beq_iff_eq,
        or_assoc]
  · simp only [Bool.or_eq_true, beq_iff_eq, or_assoc]; rfl

end

/-! ### Coins -/

section
variable {c : CoinSrc} {ctr : BitVec 32}

theorem CoinSrc.draw_of_no_table (h : c.table = none) : c.draw ctr = coinGen c.key c.gen ctr := by simp only [CoinSrc.draw, h]

theorem CoinSrc.toNat_draw_of_table {t : List (BitVec 24)} (h : c.table = some t) :
    (c.draw ctr).toNat = (t[ctr.toNat % 64]?.getD 0).toNat * 2 ^ 40 := by
  simp only [CoinSrc.draw, h]
  generalize t[ctr.toNat % 64]?.getD 0 = x
  have hx := x.isLt
  rw [BitVec.toNat_shiftLeft, BitVec.toNat_setWidth, Nat.shiftLeft_eq]
  omega

/-- A coin is the top 24 bits of the generator's value for the counter (R50, R221). -/
theorem CoinSrc.coin_eq (c : CoinSrc) (site node : Nat) :
    c.coin site node = (c.draw (BitVec.ofNat 32 (site % 2 ^ 12 * 2 ^ 20 + node % 2 ^ 20))).toNat / 2 ^ 40 :=
  Nat.mod_eq_of_lt (Nat.div_lt_of_lt_mul (BitVec.isLt _))

end

/-! ### Keys -/

/-- The state once a context's key on a die has been written (R220). -/
def State.seeded (s : State) (dk c : Nat) (k : Word) : State := s.modDie dk fun d => { d with key := Tab.put d.key c k }

theorem State.look_key_seeded (s : State) (dk c : Nat) (k : Word) : Tab.look ((s.seeded dk c k).die dk).key c = some k := by
  rw [State.seeded, State.die_modDie, Tab.look_put_same]

theorem State.look_key_seeded_ne {s : State} {dk c d : Nat} {k : Word} (h : d ≠ c) :
    Tab.look ((s.seeded dk c k).die dk).key d = Tab.look (s.die dk).key d := by
  rw [State.seeded, State.die_modDie, Tab.look_put_ne _ _ h]

end Sys2Proof.Machine
end

section
/-! SUPPORT. What merges of draw pairs compute with (R49): sums of masses, the order of masses, the coin's comparison, and the sign of
2^a. -/

namespace Sys2Proof.Machine

/-! ### Sums of masses -/

/-- A multiple of a power of two in smaller units. -/
theorem mul_two_zpow_split {m : Nat} {k e : Int} (h : k ≤ e) : (m * 2 ^ (e - k).toNat : Nat) * (2 : ℝ) ^ k = m * 2 ^ e := by
  push_cast
  rw [mul_assoc, two_pow_toNat_mul h]

section
variable {q : FD} {md : Rnd}

/-- Zeros among the terms do not change a sum that is not zero. -/
theorem sumTerms_of_one_ne_zero {l : List Dy} {m : Nat} {e : Int} (hm : m ≠ 0)
    (hl : l.filter (fun d => d.m != 0) = [⟨false, m, e⟩]) : sumTerms q md (l.map .fin) = roundTo q md false m e := by
  have hsign : decide ((m : Int) < 0) = false := decide_eq_false (Int.natCast_nonneg m).not_gt
  rw [sumTerms_fin, sumRound, hl]
  simp [Dy.toInt, hm, hsign]

/-- The sum of two magnitudes, rounded once. -/
theorem roundsTo_faddV (hq : q.Wf) {m l : Nat} {e d : Int} (h : ¬(m = 0 ∧ l = 0)) :
    RoundsTo q md false false (m * (2 : ℝ) ^ e + l * (2 : ℝ) ^ d) (q.encode (faddV q md (.fin false m e) (.fin false l d))) := by
  have hself {m : Nat} (e : Int) (hm : m ≠ 0) : RoundsTo q md false false (m * (2 : ℝ) ^ e) (q.encode (roundTo q md false m e)) :=
    roundsTo_roundTo hq hm (reads_self m e) (by simp)
  rw [faddV, firstNan_of_none _ (by simp [FV.isNan])]
  rcases eq_or_ne m 0 with rfl | hm
  · have hl : l ≠ 0 := fun hl => h ⟨rfl, hl⟩
    have hone : sumTerms q md [.fin ⟨false, 0, e⟩, .fin ⟨false, l, d⟩] = roundTo q md false l d :=
      sumTerms_of_one_ne_zero (l := [⟨false, 0, e⟩, ⟨false, l, d⟩]) hl (by simp [hl])
    rw [FV.term, FV.term, hone, Nat.cast_zero, zero_mul, zero_add]
    exact hself d hl
  rcases eq_or_ne l 0 with rfl | hl
  · have hone : sumTerms q md [.fin ⟨false, m, e⟩, .fin ⟨false, 0, d⟩] = roundTo q md false m e :=
      sumTerms_of_one_ne_zero (l := [⟨false, m, e⟩, ⟨false, 0, d⟩]) hm (by simp [hm])
    rw [FV.term, FV.term, hone, Nat.cast_zero, zero_mul, add_zero]
    exact hself e hm
  have hsum : signedUnits false m e (min e d) + signedUnits false l d (min e d)
      = (m * 2 ^ (e - min e d).toNat + l * 2 ^ (d - min e d).toNat : Nat) := by simp [signedUnits]
  have hne : m * 2 ^ (e - min e d).toNat + l * 2 ^ (d - min e d).toNat ≠ 0 := by
    have := Nat.mul_ne_zero hm (Nat.two_pow_pos (e - min e d).toNat).ne'
    omega
  have htwo := sumTerms_two (q := q) (md := md) (n := false) (p := false) (e := e) (d := d) hm hl
  rw [hsum] at htwo
  rw [FV.term, FV.term, htwo (Int.natCast_ne_zero.2 hne), ← mul_two_zpow_split (min_le_left e d),
    ← mul_two_zpow_split (min_le_right e d), ← add_mul, ← Nat.cast_add, Int.natAbs_natCast, decide_eq_false (Int.natCast_nonneg _).not_gt]
  exact hself _ hne

end

/-! ### The order of masses -/

/-- The order of finite masses is that of their numbers. -/
theorem FV.cmp_fin_eq_lt_iff {n p : Bool} {m l : Nat} {e d : Int} :
    (FV.fin n m e).cmp (.fin p l d) = some .lt ↔ (FV.fin n m e).real < (FV.fin p l d).real := by
  have hleft : m ≠ 0 → 0 < m * (2 : ℝ) ^ e := (reads_self m e).pos
  have hright : l ≠ 0 → 0 < l * (2 : ℝ) ^ d := (reads_self l d).pos
  rcases eq_or_ne m 0 with rfl | hm
  · rcases eq_or_ne l 0 with rfl | hl
    · simp [FV.cmp, FV.real]
    · cases p <;> simp [FV.cmp, FV.real, hl, hright hl, (hright hl).le]
  rcases eq_or_ne l 0 with rfl | hl
  · cases n <;> simp [FV.cmp, FV.real, hm, hleft hm, (hleft hm).le]
  have hA := hleft hm
  have hB := hright hl
  cases n with
  | false =>
    cases p with
    | false => simpa [FV.cmp, FV.real, hm, hl, dyadicGt_iff] using le_of_lt
    | true =>
      simp [FV.cmp, FV.real, hm, hl]
      linarith
  | true =>
    cases p with
    | false =>
      simp [FV.cmp, FV.real, hm, hl]
      linarith
    | true => simp [FV.cmp, FV.real, hm, hl, dyadicGt_iff]

/-- The order of masses, infinities among them. -/
theorem FV.cmp_eq_lt_iff {x y : FV} (hx : x.isNan = false) (hy : y.isNan = false) :
    x.cmp y = some .lt ↔ x ≠ .inf false ∧ y ≠ .inf true ∧ (x = .inf true ∨ y = .inf false ∨ x.real < y.real) := by
  cases x with
  | nan n fr => cases hx
  | inf n =>
    cases y with
    | nan p fs => cases hy
    | inf p => cases n <;> cases p <;> decide
    | fin p l d => by_cases hl : l = 0 <;> cases n <;> cases p <;> simp [FV.cmp, hl]
  | fin n m e =>
    cases y with
    | nan p fs => cases hy
    | inf p => by_cases hm : m = 0 <;> cases n <;> cases p <;> simp [FV.cmp, hm]
    | fin p l d => simp [FV.cmp_fin_eq_lt_iff]

/-! ### The coin's comparison -/

/-- The coin picks the left side where u (a + b) < a 2^24, exactly (R49). -/
theorem coinPicks_iff {u m l : Nat} {e d : Int} :
    coinPicks u m e l d = true ↔ u * (m * (2 : ℝ) ^ e + l * 2 ^ d) < m * (2 : ℝ) ^ e * 2 ^ 24 := by
  rw [coinPicks, decide_eq_true_eq, ← mul_two_zpow_split (min_le_left e d), ← mul_two_zpow_split (min_le_right e d), ← add_mul,
    ← mul_assoc, mul_right_comm _ _ ((2 : ℝ) ^ 24), mul_lt_mul_iff_left₀ (two_zpow_pos _)]
  exact_mod_cast Iff.rfl

/-! ### The sign of 2^a -/

section
variable {q : FD} (hq : q.Wf) (md : Rnd) (n : Bool) (st : Bool)

/-- The steps that RoundTo keeps are a significand of the format. -/
theorem roundGrid_significand {m : Nat} (hm : m ≠ 0) (e : Int) :
    let k := max (e + m.log2 - q.fb) q.emin
    roundGrid md n m e k st ≤ 2 ^ (q.fb + 1) ∧ (q.emin < k → 2 ^ q.fb ≤ roundGrid md n m e k st) := by
  intro k
  have hsteps {st : Bool} {x : ℝ} (h : Reads m e st x) (hk : st = true → e < k) :
      roundGrid md n m e k st ≤ 2 ^ (q.fb + 1) ∧ (q.emin < k → 2 ^ q.fb ≤ roundGrid md n m e k st) := by
    have hunit : q.unit x = k := h.unit_eq hm
    rw [h.roundGrid_eq md n hk, ← hunit]
    exact ⟨FD.steps_le, FD.le_steps (h.pos hm)⟩
  rcases le_or_gt k e with hke | hek
  · have hexact := hsteps (reads_self m e) (by simp)
    rw [roundGrid_of_le hke] at hexact ⊢
    exact hexact
  · cases st
    · exact hsteps (reads_self m e) (by simp)
    · exact hsteps (reads_half m e) fun _ => hek

include hq

/-- A rounded number of sign `n` has a code of that sign, up to an infinity's. -/
theorem exists_encode_roundTo (m : Nat) (e : Int) :
    ∃ c, c ≤ q.top + 1 ∧ q.encode (roundTo q md n m e st) = q.signCode n + c := by
  rcases eq_or_ne m 0 with rfl | hm
  · exact ⟨0, Nat.zero_le _, FD.encode_zero q n 0⟩
  obtain ⟨hg, hlow⟩ := roundGrid_significand (q := q) md n st hm e
  have hexceeds := hq.exceeds_iff (le_max_right ..) hg hlow
  rw [roundTo_eq q md n e st hm]
  dsimp only
  split_ifs with hover
  · exact ⟨_, le_rfl, hq.encode_infinity n⟩
  · exact ⟨_, Nat.le_succ _, hq.encode_maximum n⟩
  · exact ⟨_, (not_lt.1 (hexceeds.not.1 hover)).trans (Nat.le_succ _), FD.encode_steps (le_max_right ..) hg hlow⟩

theorem exists_encode_zivRound (approx : Nat → Nat × Int) (ws : List Nat) :
    ∃ c, c ≤ q.top + 1 ∧ q.encode (zivRound q md n approx ws) = q.signCode n + c := by
  induction ws with
  | nil => exact ⟨0, Nat.zero_le _, FD.encode_zero q n 0⟩
  | cons w ws ih =>
    rw [zivRound]
    dsimp only
    split_ifs
    · exact exists_encode_roundTo hq md n true _ _
    · exact ih

end

theorem FD.Wf.positive_code_lt {q : FD} (hq : q.Wf) {b : Nat} (h : ∃ c, c ≤ q.top + 1 ∧ b = q.signCode false + c) :
    b < 2 ^ (q.w - 1) := by
  obtain ⟨c, hc, rfl⟩ := h
  exact (Nat.add_le_add_left hc _).trans_lt (hq.encode_infinity false ▸ hq.fits)

theorem encode_fex2V_lt (md : Rnd) {a : FV} (ha : a.isNan = false) : fd32.encode (fex2V fd32 md a) < 2 ^ (fd32.w - 1) := by
  have hround (m : Nat) (e : Int) (st : Bool) : fd32.encode (roundTo fd32 md false m e st) < 2 ^ (fd32.w - 1) :=
    fd32_wf.positive_code_lt (exists_encode_roundTo fd32_wf md false st m e)
  have hite {p : Prop} [Decidable p] {x y : FV} (hx : fd32.encode x < 2 ^ (fd32.w - 1)) (hy : fd32.encode y < 2 ^ (fd32.w - 1)) :
      fd32.encode (if p then x else y) < 2 ^ (fd32.w - 1) := by
    split_ifs <;> assumption
  cases a with
  | nan n fr => cases ha
  | inf n =>
    change fd32.encode (if n then .fin false 0 0 else .inf false) < _
    exact hite (by decide) (by decide)
  | fin n m e =>
    rcases eq_or_ne m 0 with rfl | hm
    · change fd32.encode (.fin false 1 0) < _
      decide
    rw [fex2V_fin hm]
    exact hite (hite (hround ..) (hround ..)) (hite (hite (hround ..) (hround ..)) (hite (hround ..) (hite (hround ..)
      (fd32_wf.positive_code_lt (exists_encode_zivRound fd32_wf md false _ _)))))

theorem FD.real_decode_nonneg (q : FD) {b : Nat} (h : b < 2 ^ (q.w - 1)) : 0 ≤ (q.decode b).real := by
  have hsign : (b / 2 ^ (q.w - 1) % 2 == 1) = false := by rw [Nat.div_eq_of_lt h]; rfl
  simp only [FD.decode, hsign]
  split_ifs
  all_goals simp only [FV.real, Bool.false_eq_true, if_false, le_refl, one_mul]
  all_goals positivity

/-- At the top exponent stands no number. -/
theorem FD.real_decode_of_top {q : FD} (hq : q.ieee = true) {b : Nat} (h : b / 2 ^ q.fb % 2 ^ q.eb = 2 ^ q.eb - 1) :
    (q.decode b).real = 0 := by
  simp only [FD.decode, hq, h, BEq.rfl, Bool.and_true, if_true]
  split_ifs <;> rfl

theorem real_decode_encode_nan (n : Bool) (fr : Nat) : (fd32.decode (fd32.encode (.nan n fr))).real = 0 := by
  refine FD.real_decode_of_top rfl ?_
  cases n <;> simp [FD.encode, fd32] <;> omega

/-- The masses' ratio, as the package rounds it, is not below zero. -/
theorem real_fex2V_nonneg (md : Rnd) (a : FV) : 0 ≤ (fd32.decode (fd32.encode (fex2V fd32 md a))).real := by
  cases ha : a.isNan with
  | false => exact fd32.real_decode_nonneg (encode_fex2V_lt md ha)
  | true =>
    cases a with
    | nan n fr => exact (real_decode_encode_nan n _).ge
    | inf n => cases ha
    | fin n m e => cases ha

end Sys2Proof.Machine
end

section
/-! SUPPORT. The merge of two draw pairs by the masses of its sides (R47, R49). -/

namespace Sys2Proof.Machine

/-! ### The sides of a merge -/

/-- The mass with which a side takes part in a merge: that of a side whose index is NONE is zero mass (R47). -/
def sideMass (lg : Bool) (p : Word) : FV :=
  if pairIx p = idxNone then (if lg then .inf true else .fin false 0 0) else fd32.decode (pairMass p)

theorem sideMass_linear (p : Word) :
    sideMass false p = if pairIx p = idxNone then .fin false 0 0 else fd32.decode (pairMass p) := rfl

theorem sideMass_log (p : Word) : sideMass true p = if pairIx p = idxNone then .inf true else fd32.decode (pairMass p) := rfl

theorem sideMass_zeroMass (lg : Bool) : sideMass lg (zeroMass lg) = if lg then .inf true else .fin false 0 0 := by
  cases lg <;> decide

section
variable {lg : Bool} {p : Word}

/-- A valid side has a number or an infinity for its mass. -/
theorem isNan_sideMass (h : pairInvalid lg p = false) : (sideMass lg p).isNan = false := by
  obtain ⟨hnan, -⟩ := not_or.1 ((pairInvalid_iff lg p).not.1 (Bool.not_eq_true _ ▸ h))
  rw [sideMass]
  split_ifs
  · rfl
  · rfl
  · exact Bool.not_eq_true _ ▸ hnan

/-- A weight of a valid side is infinite, or a number that is not below zero. -/
theorem sideMass_weight (h : pairInvalid false p = false) :
    sideMass false p = .inf false ∨ ∃ n m e, sideMass false p = .fin n m e ∧ (sideMass false p).real = m * (2 : ℝ) ^ e := by
  obtain ⟨hnan, hneg⟩ := not_or.1 ((pairInvalid_iff false p).not.1 (Bool.not_eq_true _ ▸ h))
  rw [sideMass_linear]
  split_ifs with hix
  · exact .inr ⟨false, 0, 0, rfl, by simp [FV.real]⟩
  generalize fd32.decode (pairMass p) = v at hnan hneg
  cases v with
  | nan n fr => exact absurd rfl hnan
  | inf n =>
    cases n with
    | false => exact .inl rfl
    | true => exact absurd ⟨hix, rfl, rfl, rfl⟩ hneg
  | fin n m e =>
    refine .inr ⟨n, m, e, rfl, ?_⟩
    cases n with
    | false => exact real_false
    | true =>
      cases m with
      | zero => simp [FV.real]
      | succ m => exact absurd ⟨hix, rfl, rfl, rfl⟩ hneg

end

/-! ### Linear mode -/

section
variable {l r : Word} {u : Nat}

theorem mergeLin_infinite (hl : sideMass false l = .inf false) (hr : sideMass false r = .inf false) :
    mergeLin l r u = pick (if u < 2 ^ 23 then l else r) (.inf false) := by
  rw [sideMass_linear] at hl hr
  simp only [mergeLin, hl, hr]

theorem mergeLin_left_infinite (hl : sideMass false l = .inf false) {n : Bool} {m : Nat} {e : Int}
    (hr : sideMass false r = .fin n m e) : mergeLin l r u = pick l (.inf false) := by
  rw [sideMass_linear] at hl hr
  simp only [mergeLin, hl, hr]

theorem mergeLin_right_infinite (hr : sideMass false r = .inf false) {n : Bool} {m : Nat} {e : Int}
    (hl : sideMass false l = .fin n m e) : mergeLin l r u = pick r (.inf false) := by
  rw [sideMass_linear] at hl hr
  simp only [mergeLin, hl, hr]

theorem mergeLin_finite {n p : Bool} {m k : Nat} {e d : Int} (hl : sideMass false l = .fin n m e)
    (hr : sideMass false r = .fin p k d) : mergeLin l r u =
      if m = 0 ∧ k = 0 then zeroMass false
      else pick (if coinPicks u m e k d then l else r) (faddV fd32 .rne (.fin false m e) (.fin false k d)) := by
  rw [sideMass_linear] at hl hr
  simp only [mergeLin, hl, hr]

end

/-! ### Log mode -/

/-- Whether the coin takes the heavier side, where `x` is the lighter one's share of it (R49). -/
def coinTakes (u : Nat) (x : FV) : Bool :=
  match x with
  | .fin _ m e => coinPicks u 1 0 m e
  | _ => true

/-- The merge of the heavier side `hi` with the lighter side `lo` in log mode, where not both are infinite (R49). -/
def mergeHeavier (hi lo : Word) (u : Nat) : Word :=
  if sideMass true hi = .inf false ∨ sideMass true lo = .inf true then pick hi (sideMass true hi)
  else
    let x := fd32.decode (fd32.encode (fex2V fd32 .rne (fsubV fd32 .rne (sideMass true lo) (sideMass true hi))))
    pick (if coinTakes u x then hi else lo)
      (faddV fd32 .rne (sideMass true hi) (fd32.decode (fd32.encode (flg2pV fd32 .rne x))))

/-- The coin's comparison with a share that is not below zero. -/
theorem coinTakes_iff {u : Nat} (hu : u < 2 ^ 24) {x : FV} (hx : 0 ≤ x.real) : coinTakes u x = true ↔ u * (1 + x.real) < 2 ^ 24 := by
  have hreal : (u : ℝ) < 2 ^ 24 := by exact_mod_cast hu
  cases x with
  | nan n fr => simpa [coinTakes, FV.real] using hreal
  | inf n => simpa [coinTakes, FV.real] using hreal
  | fin n m e =>
    have hm : (FV.fin n m e).real = m * (2 : ℝ) ^ e := by rw [← FV.abs_real n, abs_of_nonneg hx]
    rw [coinTakes, coinPicks_iff, hm, Nat.cast_one, zpow_zero, one_mul, one_mul]

section
variable {l r : Word} {u : Nat}

theorem mergeLog_zero (hl : sideMass true l = .inf true) (hr : sideMass true r = .inf true) : mergeLog l r u = zeroMass true := by
  rw [sideMass_log] at hl hr
  simp only [mergeLog, hl, hr, BEq.rfl, Bool.and_true, if_true]

theorem mergeLog_infinite (hl : sideMass true l = .inf false) (hr : sideMass true r = .inf false) :
    mergeLog l r u = pick (if u < 2 ^ 23 then l else r) (.inf false) := by
  rw [sideMass_log] at hl hr
  simp [mergeLog, hl, hr]

/-- A merge in log mode where not both masses are zero and not both are infinite: the right side is the heavier where the left mass
lies below its own. -/
theorem mergeLog_eq_mergeHeavier (hz : ¬(sideMass true l = .inf true ∧ sideMass true r = .inf true))
    (hi : ¬(sideMass true l = .inf false ∧ sideMass true r = .inf false)) : mergeLog l r u =
      if (sideMass true l).cmp (sideMass true r) = some .lt then mergeHeavier r l u else mergeHeavier l r u := by
  obtain ⟨o, hcmp⟩ : ∃ o, (sideMass true l).cmp (sideMass true r) = o := ⟨_, rfl⟩
  simp only [mergeLog, ← sideMass_log, Bool.and_eq_true, Bool.or_eq_true, beq_iff_eq, if_neg hz, if_neg hi, hcmp]
  rcases o with _ | _ | _ | _ <;>
    simp only [Bool.false_eq_true, if_false, if_true, Option.some.injEq, reduceCtorEq, mergeHeavier] <;> rfl

end

/-! ### The merge -/

section
variable {lg nt : Bool} {u : Nat} {l r : Word}

theorem mergeV_of_valid (hl : pairInvalid lg l = false) (hr : pairInvalid lg r = false) :
    mergeV lg nt u l r = (if lg then mergeLog l r u else mergeLin l r u, 0) := by
  simp [mergeV, hl, hr]

theorem mergeV_of_invalid (h : pairInvalid lg l = true ∨ pairInvalid lg r = true) : mergeV lg false u l r = (invalidPair, 0) := by
  simp [mergeV, h]

theorem mergeV_zeroMass (lg nt : Bool) (u : Nat) : mergeV lg nt u (zeroMass lg) (zeroMass lg) = (zeroMass lg, 0) := by
  have hvalid := pairInvalid_zeroMass lg
  have hmass := sideMass_zeroMass lg
  rw [mergeV_of_valid hvalid hvalid]
  cases lg with
  | false => rw [if_neg Bool.false_ne_true, mergeLin_finite hmass hmass, if_pos ⟨rfl, rfl⟩]
  | true => rw [if_pos rfl, mergeLog_zero hmass hmass]

/-- NaN test mode merges zero mass in the place of each invalid side, and counts it (R38, R49). -/
theorem mergeV_nanTest : mergeV lg true u l r =
    ((mergeV lg true u (if pairInvalid lg l then zeroMass lg else l) (if pairInvalid lg r then zeroMass lg else r)).1,
      (pairInvalid lg l).toNat + (pairInvalid lg r).toNat) := by
  cases hl : pairInvalid lg l <;> cases hr : pairInvalid lg r <;> simp [mergeV, hl, hr, pairInvalid_zeroMass]

end

section
variable {l r : Word} {nt : Bool} {u : Nat}

/-- Two infinite masses: the coin's top bit picks (R49). -/
theorem mergeV_infinite {lg : Bool} (hl : pairInvalid lg l = false) (hr : pairInvalid lg r = false)
    (hml : sideMass lg l = .inf false) (hmr : sideMass lg r = .inf false) :
    mergeV lg nt u l r = (pick (if u < 2 ^ 23 then l else r) (.inf false), 0) := by
  rw [mergeV_of_valid hl hr]
  cases lg with
  | false => rw [if_neg Bool.false_ne_true, mergeLin_infinite hml hmr]
  | true => rw [if_pos rfl, mergeLog_infinite hml hmr]

/-! ### Merges of weights -/

section
variable (hl : pairInvalid false l = false) (hr : pairInvalid false r = false)
include hl hr

theorem mergeV_left_infinite (hml : sideMass false l = .inf false) (hmr : sideMass false r ≠ .inf false) :
    mergeV false nt u l r = (pick l (.inf false), 0) := by
  obtain ⟨n, m, e, hfin, -⟩ := (sideMass_weight hr).resolve_left hmr
  rw [mergeV_of_valid hl hr, if_neg Bool.false_ne_true, mergeLin_left_infinite hml hfin]

theorem mergeV_right_infinite (hml : sideMass false l ≠ .inf false) (hmr : sideMass false r = .inf false) :
    mergeV false nt u l r = (pick r (.inf false), 0) := by
  obtain ⟨n, m, e, hfin, -⟩ := (sideMass_weight hl).resolve_left hml
  rw [mergeV_of_valid hl hr, if_neg Bool.false_ne_true, mergeLin_right_infinite hmr hfin]

/-- Two finite weights: the coin picks by the exact weights, and the sum is rounded once. -/
theorem mergeV_weights_finite (hml : sideMass false l ≠ .inf false) (hmr : sideMass false r ≠ .inf false) :
    let a := (sideMass false l).real
    let b := (sideMass false r).real
    (a + b = 0 → mergeV false nt u l r = (zeroMass false, 0))
    ∧ (a + b ≠ 0 → ∃ v, mergeV false nt u l r = (pick (if u * (a + b) < a * 2 ^ 24 then l else r) v, 0)
      ∧ RoundsTo fd32 .rne false false (a + b) (fd32.encode v)) := by
  intro a b
  obtain ⟨n, m, e, hl', ha⟩ := (sideMass_weight hl).resolve_left hml
  obtain ⟨p, k, d, hr', hb⟩ := (sideMass_weight hr).resolve_left hmr
  have hpos (m : Nat) (e : Int) : 0 ≤ m * (2 : ℝ) ^ e := mul_nonneg (Nat.cast_nonneg m) (two_zpow_pos e).le
  have hzero (m : Nat) (e : Int) : m * (2 : ℝ) ^ e = 0 ↔ m = 0 := by
    rw [mul_eq_zero, or_iff_left (two_zpow_pos e).ne', Nat.cast_eq_zero]
  have hsum : m * (2 : ℝ) ^ e + k * (2 : ℝ) ^ d = 0 ↔ m = 0 ∧ k = 0 := by
    rw [add_eq_zero_iff_of_nonneg (hpos m e) (hpos k d), hzero, hzero]
  rw [mergeV_of_valid hl hr, if_neg Bool.false_ne_true, mergeLin_finite hl' hr', show a = m * (2 : ℝ) ^ e from ha,
    show b = k * (2 : ℝ) ^ d from hb]
  refine ⟨fun hz => ?_, fun hz => ⟨faddV fd32 .rne (.fin false m e) (.fin false k d), ?_, roundsTo_faddV fd32_wf (hsum.not.1 hz)⟩⟩
  · rw [if_pos (hsum.1 hz)]
  · rw [if_neg (hsum.not.1 hz)]
    simp only [coinPicks_iff]

end
end

/-! ### Merges of log masses -/

/-- The merge of a heavier side whose mass is not infinite with a side of some mass. -/
theorem mergeHeavier_of_both {hi lo : Word} {u : Nat} (hu : u < 2 ^ 24) (hinf : sideMass true hi ≠ .inf false)
    (hzero : sideMass true lo ≠ .inf true) :
    let x := fd32.decode (fd32.encode (fex2V fd32 .rne (fsubV fd32 .rne (sideMass true lo) (sideMass true hi))))
    mergeHeavier hi lo u = pick (if u * (1 + x.real) < 2 ^ 24 then hi else lo)
      (faddV fd32 .rne (sideMass true hi) (fd32.decode (fd32.encode (flg2pV fd32 .rne x)))) := by
  intro x
  rw [mergeHeavier, if_neg (not_or.2 ⟨hinf, hzero⟩)]
  simp only [coinTakes_iff hu (real_fex2V_nonneg .rne _)]
  rfl

/-- Which side is the heavier in log mode, the left one where both masses are equal (R49). -/
def Heavier (l r hi lo : Word) : Prop :=
  let mass := sideMass true
  (hi = l ∧ lo = r ∧ mass l ≠ .inf true ∧ (mass l = .inf false ∨ mass r = .inf true ∨ (mass r).real ≤ (mass l).real)
      ∧ mass r ≠ .inf false)
    ∨ (hi = r ∧ lo = l ∧ mass r ≠ .inf true ∧ (mass r = .inf false ∨ mass l = .inf true ∨ (mass l).real < (mass r).real)
      ∧ mass l ≠ .inf false)

section
variable {l r : Word} {nt : Bool} {u : Nat} (hl : pairInvalid true l = false) (hr : pairInvalid true r = false)
include hl hr

theorem mergeV_log_zero (hml : sideMass true l = .inf true) (hmr : sideMass true r = .inf true) :
    mergeV true nt u l r = (zeroMass true, 0) := by
  rw [mergeV_of_valid hl hr, if_pos rfl, mergeLog_zero hml hmr]

theorem mergeV_of_heavier {hi lo : Word} (h : Heavier l r hi lo) : mergeV true nt u l r = (mergeHeavier hi lo u, 0) := by
  rw [mergeV_of_valid hl hr, if_pos rfl]
  have hlt := FV.cmp_eq_lt_iff (isNan_sideMass hl) (isNan_sideMass hr)
  rcases h with ⟨rfl, rfl, hsome, hge, hfin⟩ | ⟨rfl, rfl, hsome, hlight, hfin⟩
  · rw [mergeLog_eq_mergeHeavier (fun hz => hsome hz.1) (fun hi => hfin hi.2), if_neg]
    rw [hlt]
    rintro ⟨hinf, hzero, hz | hi | hless⟩
    · exact hsome hz
    · exact hfin hi
    · exact hless.not_ge ((hge.resolve_left hinf).resolve_left hzero)
  · rw [mergeLog_eq_mergeHeavier (fun hz => hsome hz.2) (fun hi => hfin hi.1), if_pos]
    exact hlt.2 ⟨hfin, hsome, by tauto⟩

end

end Sys2Proof.Machine
end

section
/-! SUPPORT. The draw words (R215 to R222). -/

namespace Sys2Proof.Machine

/-- Settles O26: the words by their bodies, leaves by what makes them invalid or empty, and merges by the masses of the sides. -/
theorem draws : Obligations.Draws := by
  unfold Obligations.Draws
  refine ⟨fun w s hw => ?words, fun c ctr site node => ?coins, fun nt wt ix x beta hix => ?leaves, fun lg nt u l r hu => ?merge⟩
  case words =>
    intro b l nt coin
    have hlow (n : Nat) : n % 2 ^ 32 = field n 31 0 := (field_low n 31).symm
    have hnode (n : Nat) : n % 2 ^ 20 = field n 19 0 := (field_low n 19).symm
    simp only [hlow, hnode]
    refine ⟨fun o ho => w.completes_of hw ho rfl rfl, fun o ho => w.completes_of hw ho rfl rfl,
      fun lg o ho => w.completes_of hw ho rfl rfl, fun a ho => ?dseed, fun o ho => ⟨_, w.completes_of hw ho rfl rfl, rfl⟩⟩
    case dseed =>
      split_ifs with htr
      · exact w.completes_of hw ho rfl (congrArg Res.ok (if_pos htr))
      · exact ⟨_, w.completes_of (t := b.seeded (dkOf l.ck) (b.thr w.tk).ctx l.a.w64) hw ho rfl (congrArg Res.ok (if_neg htr)),
          rfl, rfl, State.look_key_seeded .., fun c hc => State.look_key_seeded_ne hc, fun d hd => State.die_modDie_ne _ _ hd⟩
  case coins =>
    exact ⟨CoinSrc.draw_of_no_table, fun t => CoinSrc.toNat_draw_of_table, c.coin_eq site node⟩
  case leaves => exact ⟨leafMade_linLeaf hix nt wt, leafMade_logLeaf hix nt x beta⟩
  case merge =>
    intro ix raw none_ invalid mass gives inf
    have hinvalid : invalid = fun p => pairInvalid lg p = true := by
      funext p
      rw [pairInvalid_iff, pairMass_eq, pairIx_eq]; rfl
    have hmass : mass = sideMass lg := by
      funext p
      rw [sideMass, pairMass_eq, pairIx_eq]; rfl
    clear_value invalid mass
    subst hinvalid hmass
    have hgives {p : Word} {v : FV} (h : mergeV lg nt u l r = (pick p v, 0)) : gives p (fd32.encode v) := by
      rw [pick_eq] at h
      exact h
    have hpicks {c : Prop} [Decidable c] {p q : Word} {v : FV} (h : mergeV lg nt u l r = (pick (if c then p else q) v, 0)) :
        if c then gives p (fd32.encode v) else gives q (fd32.encode v) := by
      split_ifs at h ⊢ <;> exact hgives h
    clear_value gives
    simp only [Bool.not_eq_true]
    refine ⟨?invalid, ?left, ?right, ?both, fun hl hr => ⟨fun hml hmr => hpicks (mergeV_infinite hl hr hml hmr), ?weights, ?logs⟩⟩
    case invalid =>
      rintro rfl h
      exact mergeV_of_invalid h
    case left =>
      rintro rfl hl hr
      rw [mergeV_nanTest, hl, hr]; rfl
    case right =>
      rintro rfl hl hr
      rw [mergeV_nanTest, hl, hr]; rfl
    case both =>
      rintro rfl hl hr
      rw [mergeV_nanTest, hl, hr]
      exact congrArg (·.1, 2) (mergeV_zeroMass lg true u)
    case weights =>
      rintro rfl
      refine ⟨fun hml hmr => hgives (mergeV_left_infinite hl hr hml hmr),
        fun hml hmr => hgives (mergeV_right_infinite hl hr hml hmr), fun hml hmr => ?_⟩
      obtain ⟨hzero, hsum⟩ := mergeV_weights_finite (nt := nt) (u := u) hl hr hml hmr
      refine ⟨hzero, fun hne => ?_⟩
      obtain ⟨v, hmerge, hround⟩ := hsum hne
      exact ⟨_, hgives hmerge, hround⟩
    case logs =>
      rintro rfl
      refine ⟨mergeV_log_zero hl hr, fun hi lo h => ?_⟩
      have hmerge := mergeV_of_heavier (nt := nt) (u := u) hl hr h
      refine ⟨fun halone => hgives (hmerge.trans ?_), fun hinf hzero => hpicks (hmerge.trans ?_)⟩
      · rw [mergeHeavier, if_pos halone]
      · rw [mergeHeavier_of_both hu hinf hzero]

end Sys2Proof.Machine
end

section
/-! SUPPORT. A step keeps memory canonical (R236; log 3). Bytes of memory are written by `State.write` and `State.writeBytes`
alone. In the order of the model, each function that answers a state has one lemma: it leaves memory as it is (`…_mem`), or a
canonical memory stays canonical (`wf_mem_…`, and `…_canon` where the answer is a sum of which only some cases hold a state).
A `…_mem` lemma that is true by definition is proved `by rfl`, so that `simp` rewrites with it: as a definitional step, the
kernel would have to unfold the folds over whole memory lines inside the states it is used on. -/

namespace Sys2Proof.Machine

/-! ### Folds and choices of states -/

@[simp] theorem State.ite_mem (c : Prop) [Decidable c] (a b : State) : (if c then a else b).mem = if c then a.mem else b.mem :=
  apply_ite State.mem c a b

@[simp] theorem Mem.wf_ite (c : Prop) [Decidable c] (a b : List Host.Cell) :
    Mem.wf (if c then a else b) = if c then Mem.wf a else Mem.wf b :=
  apply_ite Mem.wf c a b

@[simp] theorem State.foldl_mem {α : Type} {f : State → α → State} (hf : ∀ s x, (f s x).mem = s.mem) (l : List α)
    (s : State) : (l.foldl f s).mem = s.mem := by
  induction l generalizing s with
  | nil => rfl
  | cons x xs ih => exact (ih _).trans (hf s x)

@[simp] theorem State.foldl_modThr_mem {α : Type} (k : State → α → Nat) (f : State → α → Thread → Thread) (l : List α)
    (s : State) : (l.foldl (fun s x => s.modThr (k s x) (f s x)) s).mem = s.mem :=
  State.foldl_mem (fun _ _ => by rfl) _ _

theorem State.wf_mem_foldl {α : Type} {f : State → α → State}
    (hf : ∀ s x, Mem.wf s.mem = true → Mem.wf (f s x).mem = true) (l : List α) {s : State} (h : Mem.wf s.mem = true) :
    Mem.wf (l.foldl f s).mem = true := by
  induction l generalizing s with
  | nil => exact h
  | cons x xs ih => exact ih (hf s x h)

/-! ### Answers: in every case that holds a state, its memory is canonical -/

/-- The body of a word answers with canonical memory. -/
def Res.Canon : Res → Prop
  | .ok s | .start s _ | .gone s => Mem.wf s.mem = true
  | .late | .fault _ | .park _ => True

/-- An engine's access answers with canonical memory. -/
def Eng.Canon : Eng → Prop
  | .wait s | .fail s _ | .ok s _ => Mem.wf s.mem = true

/-- A part's look at its line answers with canonical memory. -/
def Touch.Canon : Touch → Prop
  | .wait s _ | .ok s _ _ _ => Mem.wf s.mem = true
  | .fail _ => True

/-- The host's look at a line answers with canonical memory. -/
def HostLine.Canon : HostLine → Prop
  | .ready s | .poisoned s | .busy s => Mem.wf s.mem = true

/-- The fetch of a word answers with canonical memory. -/
def Fetch.Canon : Fetch → Prop
  | .ok s _ => Mem.wf s.mem = true
  | _ => True

/-- The fetch of a clause answers with canonical memory. -/
def FetchAll.Canon : FetchAll → Prop
  | .ok s _ => Mem.wf s.mem = true
  | _ => True

/-- The look at all parts that perform together answers with canonical memory. -/
def Ready.Canon : Ready → Prop
  | .yes s | .no s | .fail s .. => Mem.wf s.mem = true

/-- A supervisor's operation answers with canonical memory. -/
def SysRes.Canon : SysRes → Prop
  | .done s _ | .wait s _ => Mem.wf s.mem = true
  | .park _ | .fault _ | .far .. => True

/-- A step that goes on leads to canonical memory. -/
def Out.Canon (o : Out) : Prop := ∀ t, o = .next t → Mem.wf t.mem = true

@[simp] theorem Res.canon_ok (s : State) : (Res.ok s).Canon ↔ Mem.wf s.mem = true := Iff.rfl
@[simp] theorem Res.canon_start (s : State) (w : Why) : (Res.start s w).Canon ↔ Mem.wf s.mem = true := Iff.rfl
@[simp] theorem Res.canon_gone (s : State) : (Res.gone s).Canon ↔ Mem.wf s.mem = true := Iff.rfl
@[simp] theorem Res.canon_late : Res.late.Canon := trivial
@[simp] theorem Res.canon_fault (f : FI) : (Res.fault f).Canon := trivial
@[simp] theorem Res.canon_park (w : Why) : (Res.park w).Canon := trivial
@[simp] theorem Eng.canon_wait (s : State) : (Eng.wait s).Canon ↔ Mem.wf s.mem = true := Iff.rfl
@[simp] theorem Eng.canon_fail (s : State) (a : Nat) : (Eng.fail s a).Canon ↔ Mem.wf s.mem = true := Iff.rfl
@[simp] theorem Eng.canon_ok (s : State) (v : Nat) : (Eng.ok s v).Canon ↔ Mem.wf s.mem = true := Iff.rfl
@[simp] theorem SysRes.canon_done (s : State) (v : Word) : (SysRes.done s v).Canon ↔ Mem.wf s.mem = true := Iff.rfl
@[simp] theorem SysRes.canon_wait (s : State) (w : OpW) : (SysRes.wait s w).Canon ↔ Mem.wf s.mem = true := Iff.rfl
@[simp] theorem SysRes.canon_park (w : Why) : (SysRes.park w).Canon := trivial
@[simp] theorem SysRes.canon_fault (f : FI) : (SysRes.fault f).Canon := trivial
@[simp] theorem SysRes.canon_far (q : Nat) (a : Word) : (SysRes.far q a).Canon := trivial
@[simp] theorem Touch.canon_wait (s : State) (a : Option Bool) : (Touch.wait s a).Canon ↔ Mem.wf s.mem = true := Iff.rfl
@[simp] theorem Touch.canon_ok (s : State) (pa : Nat) (psn : Bool) (u : Option Nat) :
    (Touch.ok s pa psn u).Canon ↔ Mem.wf s.mem = true := Iff.rfl
@[simp] theorem HostLine.canon_ready (s : State) : (HostLine.ready s).Canon ↔ Mem.wf s.mem = true := Iff.rfl
@[simp] theorem HostLine.canon_poisoned (s : State) : (HostLine.poisoned s).Canon ↔ Mem.wf s.mem = true := Iff.rfl
@[simp] theorem HostLine.canon_busy (s : State) : (HostLine.busy s).Canon ↔ Mem.wf s.mem = true := Iff.rfl
@[simp] theorem Fetch.canon_ok (s : State) (w : Word) : (Fetch.ok s w).Canon ↔ Mem.wf s.mem = true := Iff.rfl
@[simp] theorem FetchAll.canon_ok (s : State) (l : List Word) : (FetchAll.ok s l).Canon ↔ Mem.wf s.mem = true := Iff.rfl

@[simp] theorem Out.canon_next (s : State) : Out.Canon (.next s) ↔ Mem.wf s.mem = true := by simp [Out.Canon]

theorem Out.canon_fault (f : Fault) : Out.Canon (.fault f) := nofun

section Operations

variable {s : State} (hm : Mem.wf s.mem = true)

/-! ### State: memory, registers, records and taking a fault -/

@[simp] theorem State.fresh_mem : s.fresh.2.mem = s.mem := by rfl

@[simp] theorem State.freeVal_mem : s.freeVal.2.mem = s.mem := by rfl

@[simp] theorem State.spill_mem (lo n : Nat) : (s.spill lo n).mem = s.mem := by rfl

include hm in
@[simp] theorem State.wf_mem_writeMask (a n v mask : Nat) : Mem.wf (s.writeMask a n v mask).mem = true := by
  simp [State.writeMask, hm, State.wf_mem_write]

@[simp] theorem State.writeReg_mem (tk : Nat) (n : BitVec 6) (v : Word) : (s.writeReg tk n v).mem = s.mem := by
  unfold State.writeReg
  split <;> simp

@[simp] theorem State.writeRD_mem (tk : Nat) (d : RD) (v : List Word) : (s.writeRD tk d v).mem = s.mem := by simp [State.writeRD]

include hm in
@[simp] theorem State.wf_mem_writeRecord (p c : Nat) (b : List Byte) : Mem.wf (s.writeRecord p c b).mem = true := by
  simp [State.writeRecord, hm, State.wf_mem_write, State.wf_mem_writeBytes]

include hm in
@[simp] theorem State.wf_mem_queueRecord (p c : Nat) (b : List Byte) : Mem.wf (s.queueRecord p c b).mem = true := by
  simp [State.queueRecord, hm]

include hm in
@[simp] theorem State.wf_mem_queueEngineRecord (p c dk : Nat) (b : List Byte) :
    Mem.wf (s.queueEngineRecord p c dk b).mem = true := by
  simp [State.queueEngineRecord, hm]

include hm in
@[simp] theorem State.wf_mem_writeHeld (p c : Nat) : Mem.wf (s.writeHeld p c).mem = true := by
  simp only [State.writeHeld]
  split <;> simp [hm]

include hm in
@[simp] theorem State.wf_mem_engineFault (p c tk : Nat) (tid : BitVec 64) (pc hdr word : Word) (addr unit : Nat) :
    Mem.wf (s.engineFault p c tk tid pc hdr word addr unit).mem = true := by
  simp [State.engineFault, hm]

@[simp] theorem State.errRecord_mem (p cls src unit unit2 paddr : Nat) (detail : List Nat) :
    (s.errRecord p cls src unit unit2 paddr detail).mem = s.mem := by
  simp only [State.errRecord]
  split <;> simp

@[simp] theorem State.dropMember_mem (tk : Nat) : (s.dropMember tk).mem = s.mem := by rfl

include hm in
@[simp] theorem State.wf_mem_takeFault (tk : Nat) (f : FI) (pc hpc hdr word : Word) :
    Mem.wf (s.takeFault tk f pc hpc hdr word).mem = true := by
  simp [State.takeFault, hm]

/-! ### The fabric: ports, flits, credits and recovery -/

@[simp] theorem State.setPort_mem (p k : Nat) (v : Port) : (s.setPort p k v).mem = s.mem := by rfl

@[simp] theorem State.modPort_mem (p k : Nat) (f : Port → Port) : (s.modPort p k f).mem = s.mem := by rfl

@[simp] theorem State.setPath_mem (p q : Nat) (v : Path) : (s.setPath p q v).mem = s.mem := by rfl

@[simp] theorem State.pump_mem (p k : Nat) : (s.pump p k).mem = s.mem := by rfl

@[simp] theorem State.setMsg_mem (m : Msg) : (s.setMsg m).mem = s.mem := by rfl

@[simp] theorem State.dropMsg_mem (u : Nat) : (s.dropMsg u).mem = s.mem := by rfl

@[simp] theorem State.route_mem (m : Msg) : (s.route m).mem = s.mem := by
  simp only [State.route]
  repeat' split
  all_goals simp

@[simp] theorem State.routeWaiting_mem (p : Nat) : (s.routeWaiting p).mem = s.mem := by simp [State.routeWaiting]

@[simp] theorem State.nextNum_mem (p dst cls : Nat) : (s.nextNum p dst cls).2.mem = s.mem := by rfl

@[simp] theorem State.send_mem (m : Msg) : (s.send m).mem = s.mem := by simp [State.send]

@[simp] theorem State.sendMsg_mem (ty : MsgTy) (src dst req line status txid : Nat) (carries : Bool) (part : Option Part)
    (bind : Nat) : (s.sendMsg ty src dst req line status txid carries part bind).mem = s.mem := by
  simp [State.sendMsg]

@[simp] theorem State.ackMsg_mem (p : Nat) (m : Msg) (status : Nat) : (s.ackMsg p m status).mem = s.mem := by simp [State.ackMsg]

@[simp] theorem State.forwardHop_mem (p : Nat) (m : Msg) : (s.forwardHop p m).mem = s.mem := by simp [State.forwardHop]

@[simp] theorem State.accept_mem (p : Nat) (m : Msg) : (s.accept p m).mem = s.mem := by rfl

@[simp] theorem State.firstFlit_mem (p u : Nat) (bytes : List Byte) : (s.firstFlit p u bytes).mem = s.mem := by
  unfold State.firstFlit
  split <;> simp

@[simp] theorem State.received_mem (p k u : Nat) (bytes : List Byte) : (s.received p k u bytes).mem = s.mem := by
  unfold State.received
  split <;> simp

@[simp] theorem State.askAgain_mem (p : Nat) (m : Msg) : (s.askAgain p m).mem = s.mem := by simp [State.askAgain]

@[simp] theorem State.resend_mem (u : Nat) : (s.resend u).mem = s.mem := by
  unfold State.resend
  split <;> simp

@[simp] theorem State.sendAgain_mem (p : Nat) (m : Msg) : (s.sendAgain p m).mem = s.mem := by
  simp only [State.sendAgain]
  repeat' split
  all_goals simp

@[simp] theorem State.downEnd_mem (p k : Nat) : (s.downEnd p k).mem = s.mem := by simp [State.downEnd]

@[simp] theorem State.silence_mem (p q : Nat) (since : Option Nat) : (s.silence p q since).mem = s.mem := by rfl

@[simp] theorem State.linkDown_mem (p k : Nat) : (s.linkDown p k).mem = s.mem := by
  simp only [State.linkDown]
  split <;> simp

@[simp] theorem State.linkUp_mem (p k : Nat) : (s.linkUp p k).mem = s.mem := by
  unfold State.linkUp
  split <;> simp

@[simp] theorem State.spareLane_mem (p k lane : Nat) : (s.spareLane p k lane).mem = s.mem := by
  unfold State.spareLane
  split <;> simp

@[simp] theorem State.laneAlarm_mem (p k phys : Nat) (eye : Bool) : (s.laneAlarm p k phys eye).mem = s.mem := by
  simp only [State.laneAlarm]
  repeat' split
  all_goals simp

/-! ### Predicates and features -/

@[simp] theorem State.setP_mem (tk : Nat) (n : BitVec 3) (v : Bool) : (s.setP tk n v).mem = s.mem := by rfl

/-! ### Partials of lines -/

include hm in
@[simp] theorem State.wf_mem_combineLine (line : Nat) (p : Part) : Mem.wf (s.combineLine line p).mem = true :=
  State.wf_mem_foldl (fun _ _ hs => State.wf_mem_write hs ..) _ hm

include hm in
@[simp] theorem State.wf_mem_settle (line : Nat) : Mem.wf (s.settle line).mem = true := by
  refine State.wf_mem_foldl (fun s e hs => ?_) _ hm
  split
  · split <;> simp [hs]
  · exact hs

/-! ### Tandem pairs: values, restarts and mismatches -/

@[simp] theorem State.modPair_mem (tk : Nat) (f : PairS → PairS) : (s.modPair tk f).mem = s.mem := by rfl

@[simp] theorem State.pass_mem (tk : Nat) (v : PairVal) : (s.pass tk v).mem = s.mem := by simp [State.pass]

@[simp] theorem State.passPlace_mem (tk pos : Nat) : (s.passPlace tk pos).mem = s.mem := by simp [State.passPlace]

@[simp] theorem State.passLate_mem (tk : Nat) (v : PairVal) : (s.passLate tk v).mem = s.mem := by rfl

@[simp] theorem State.takePassed_mem (tk pos : Nat) (src : Bool) : (s.takePassed tk pos src).mem = s.mem := by rfl

@[simp] theorem State.beginRestart_mem (tk : Nat) (k : Sketch) : (s.beginRestart tk k).mem = s.mem := by rfl

@[simp] theorem State.pairBack_mem (l t : Nat) : (s.pairBack l t).mem = s.mem := by
  simp only [State.pairBack, State.modThr_mem, State.beginRestart_mem]

@[simp] theorem State.moveCore_mem (dk core phys : Nat) : (s.moveCore dk core phys).mem = s.mem := by rfl

@[simp] theorem State.pairMismatch_mem (l t : Nat) (sl st : BitVec 64) : (s.pairMismatch l t sl st).mem = s.mem := by
  simp only [State.pairMismatch]
  repeat' split
  all_goals simp only [State.modThr_mem, State.pairBack_mem, State.errRecord_mem, State.moveCore_mem]

include hm in
@[simp] theorem State.wf_mem_pairFault (tk : Nat) (f : FI) (pc hpc hdr word : Word) :
    Mem.wf (s.pairFault tk f pc hpc hdr word).mem = true := by
  unfold State.pairFault
  repeat' split
  all_goals simp [hm]

/-! ### What the threads of a core share -/

@[simp] theorem State.deliver_mem (tk u : Nat) (v : Word) (p : Option Bool) : (s.deliver tk u v p).mem = s.mem := by rfl

@[simp] theorem State.deliverOut_mem (tk u : Nat) (v : List Word) (p : Option Bool) : (s.deliverOut tk u v p).mem = s.mem := by
  unfold State.deliverOut
  split <;> simp

@[simp] theorem State.endPend_mem (tk u : Nat) : (s.endPend tk u).mem = s.mem := by rfl

@[simp] theorem State.setGrp_mem (ck e : Nat) (g : Grp) : (s.setGrp ck e g).mem = s.mem := by rfl

@[simp] theorem State.addNan_mem (tk n : Nat) : (s.addNan tk n).mem = s.mem := by rfl

include hm in
@[simp] theorem State.wf_mem_exchangeFault (tk : Nat) (a : Arr) : Mem.wf (s.exchangeFault tk a).mem = true := by
  simp [State.exchangeFault, hm]

@[simp] theorem State.exchangeQuit_mem (tk : Nat) : (s.exchangeQuit tk).mem = s.mem := by rfl

@[simp] theorem State.gdrawPerform_mem (lg : Bool) (l : List (Nat × Nat × Arr)) : (s.gdrawPerform lg l).1.mem = s.mem := by
  unfold State.gdrawPerform
  split <;> simp

@[simp] theorem State.exchangePerform_mem (l : List (Nat × Nat × Arr)) : (s.exchangePerform l).mem = s.mem := by
  have hquit : (l.foldl (fun s x => s.exchangeQuit x.2.1) s).mem = s.mem := State.foldl_mem (fun _ _ => by simp) _ _
  simp only [State.exchangePerform]
  split
  · exact hquit
  all_goals rw [State.foldl_mem fun _ _ => State.deliver_mem ..]; simp [hquit]

include hm in
@[simp] theorem State.wf_mem_exchangeCheck (ck e k : Nat) : Mem.wf (s.exchangeCheck ck e k).mem = true := by
  simp only [State.exchangeCheck]
  split
  · exact hm
  next g _ =>
    have hout (l : List (Nat × Nat × Arr)) {s : State} (hs : Mem.wf s.mem = true) :
        Mem.wf (l.foldl (fun s x => s.exchangeFault x.2.1 x.2.2) s).mem = true :=
      State.wf_mem_foldl (fun _ _ hs => State.wf_mem_exchangeFault hs ..) _ hs
    split
    · exact hout _ hm
    · repeat' split
      all_goals simp [hout, hm]

@[simp] theorem State.gwaitCheck_mem (ck e k : Nat) : (s.gwaitCheck ck e k).mem = s.mem := by
  simp only [State.gwaitCheck]
  split
  · rfl
  · split <;> simp

include hm in
@[simp] theorem State.wf_mem_groupCheck (ck e : Nat) : Mem.wf (s.groupCheck ck e).mem = true :=
  State.wf_mem_foldl (fun _ _ hs => by simp [hs]) _ hm

include hm in
@[simp] theorem State.wf_mem_leaveGroup (tk : Nat) : Mem.wf (s.leaveGroup tk).mem = true := by
  simp only [State.leaveGroup]
  repeat' split
  all_goals simp [hm]

@[simp] theorem State.freeBlock_mem (tk : Nat) : (s.freeBlock tk).mem = s.mem := by simp [State.freeBlock]

@[simp] theorem State.evictBlocks_mem (ck n : Nat) : (s.evictBlocks ck n).mem = s.mem := State.foldl_mem (fun _ _ => by rfl) _ _

@[simp] theorem State.poolGrant_mem (ck : Nat) (l : List PoolReq) : (s.poolGrant ck l).mem = s.mem := by
  induction l generalizing s with
  | nil => rfl
  | cons q rest ih =>
    simp only [State.poolGrant]
    split <;> simp [ih]

@[simp] theorem State.unwant_mem (tk : Nat) : (s.unwant tk).mem = s.mem := by rfl

@[simp] theorem State.poolCheck_mem (ck : Nat) : (s.poolCheck ck).mem = s.mem := by simp [State.poolCheck]

@[simp] theorem State.feServe_mem (ck r n : Nat) : (s.feServe ck r n).mem = s.mem := by
  induction n generalizing s with
  | zero => rfl
  | succ n ih =>
    simp only [State.feServe]
    repeat' split
    all_goals simp [ih]

@[simp] theorem State.feCheck_mem (ck r : Nat) : (s.feCheck ck r).mem = s.mem := by simp [State.feCheck]

@[simp] theorem State.setBar_mem (ck b : Nat) (v : Bar) : (s.setBar ck b v).mem = s.mem := by rfl

@[simp] theorem State.barRelease_mem (ck b : Nat) (m : BitVec 1024) : (s.barRelease ck b m).mem = s.mem := by
  simp [State.barRelease]

theorem State.barArrive_mem {tk b : Nat} {x : Bool} {t : State} (e : s.barArrive tk b = some (t, x)) : t.mem = s.mem := by
  unfold State.barArrive at e
  grind [State.barRelease_mem, State.setBar_mem]

@[simp] theorem State.barWait_mem (tk b : Nat) (ph : Bool) : (s.barWait tk b ph).mem = s.mem := by simp [State.barWait]

@[simp] theorem State.barForget_mem (tk : Nat) : (s.barForget tk).mem = s.mem := by rfl

@[simp] theorem State.lbarCheck_mem (lk : Nat) : (s.lbarCheck lk).mem = s.mem := by
  unfold State.lbarCheck
  split <;> simp

/-! ### Spaces, translation and the entries of loads and stores -/

@[simp] theorem State.tlbAdd_mem (ck ctx : Nat) (x : Xl) : (s.tlbAdd ck ctx x).mem = s.mem := by rfl

@[simp] theorem State.xlate_mem (tk va : Nat) : (s.xlate tk va).2.mem = s.mem := by
  simp only [State.xlate]
  repeat' split
  all_goals simp

@[simp] theorem State.readFree_mem (loc n : Nat) : (s.readFree loc n).2.mem = s.mem := by
  unfold State.readFree
  split <;> simp

/-! ### The agent of a line -/

@[simp] theorem State.askLine_mem (p u line : Nat) (n : LineNeed) : (s.askLine p u line n).mem = s.mem := by
  unfold State.askLine
  split <;> simp

@[simp] theorem State.dropL1_mem (p line : Nat) : (s.dropL1 p line).mem = s.mem := by rfl

@[simp] theorem State.evictLine_mem (p line status : Nat) (by_ : Option Nat) : (s.evictLine p line status by_).mem = s.mem := by
  simp only [State.evictLine]
  repeat' split
  all_goals simp

@[simp] theorem State.wipePoison_mem (p line : Nat) : (s.wipePoison p line).mem = s.mem := by rfl

@[simp] theorem State.dirtyLine_mem (p line : Nat) : (s.dirtyLine p line).mem = s.mem := by rfl

@[simp] theorem State.l1Leave_mem (ck line : Nat) : (s.l1Leave ck line).mem = s.mem := by simp [State.l1Leave]

@[simp] theorem State.l1Fill_mem (ck : Nat) (e : L1E) : (s.l1Fill ck e).mem = s.mem := by
  simp only [State.l1Fill]
  repeat' split
  all_goals simp

@[simp] theorem State.homeHold_mem (line : Nat) (dirty : Bool) : (s.homeHold line dirty).mem = s.mem := by rfl

@[simp] theorem State.l1Use_mem (ck line : Nat) (h : Hint) (x : Xl) (wr : Bool) : (s.l1Use ck line h x wr).mem = s.mem := by
  simp [State.l1Use]

include hm in
@[simp] theorem State.wf_mem_redLine (p pa n : Nat) (b : Bind) (v : Nat) : Mem.wf (s.redLine p pa n b v).mem = true := by
  simp [State.redLine, hm, State.wf_mem_write]

/-! ### Starting, restarting and ending threads -/

@[simp] theorem State.wantBlock_mem (tk : Nat) : (s.wantBlock tk).mem = s.mem := by simp [State.wantBlock]

@[simp] theorem State.freeRegs_mem (live : BitVec 32) (n : Nat) (g : Vector Word 64) : (freeRegs s live n g).2.mem = s.mem := by
  induction n generalizing s g with
  | zero => rfl
  | succ n ih =>
    simp only [freeRegs]
    repeat' split
    all_goals simp [ih]

@[simp] theorem State.finishRestart_mem (tk : Nat) (k : Sketch) : (s.finishRestart tk k).mem = s.mem := by
  simp [State.finishRestart]

include hm in
@[simp] theorem State.wf_mem_meetDoom (tk : Nat) : Mem.wf (s.meetDoom tk).mem = true := by
  simp only [State.meetDoom]
  split <;> simp [hm]

include hm in
@[simp] theorem State.wf_mem_restartCheck (tk : Nat) : Mem.wf (s.restartCheck tk).mem = true := by
  simp only [State.restartCheck]
  split <;> simp [hm]

@[simp] theorem State.startReplacement_mem (tk lk stage : Nat) (held : Bool) (orph : List Pend) (pair : Option PairS) :
    (s.startReplacement tk lk stage held orph pair).mem = s.mem := by
  unfold State.startReplacement
  repeat' split
  all_goals simp

include hm in
@[simp] theorem State.wf_mem_endThread (tk : Nat) (killed : Bool) : Mem.wf (s.endThread tk killed).mem = true := by
  simp only [State.endThread]
  split <;> simp [hm]

include hm in
@[simp] theorem State.wf_mem_killCheck (tk : Nat) : Mem.wf (s.killCheck tk).mem = true := by simp [State.killCheck, hm]

/-! ### The end of a region of a pair -/

@[simp] theorem State.noteShared_mem (tk : Nat) (n : BitVec 6) (v : Word) : (s.noteShared tk n v).mem = s.mem := by
  simp [State.noteShared]

@[simp] theorem State.addSig_mem (tk : Nat) (e : SigE) : (s.addSig tk e).mem = s.mem := by rfl

@[simp] theorem State.closeRegion_mem (tk : Nat) (addr lo hi : Word) : (s.closeRegion tk addr lo hi).mem = s.mem := by rfl

@[simp] theorem State.releaseHeld_mem (tk : Nat) (region : BitVec 16) : (s.releaseHeld tk region).mem = s.mem := by
  unfold State.releaseHeld
  split <;> simp

@[simp] theorem State.pairCompare_mem (t : Nat) : (s.pairCompare t).mem = s.mem := by
  simp only [State.pairCompare]
  repeat' split
  all_goals simp

/-! ### Issuing a word -/

@[simp] theorem State.again_mem (ck half : Nat) : (s.again ck half).mem = s.mem := by rfl

@[simp] theorem State.parkGang_mem (i : Issue) (g : Gang) (why : Why) : (s.parkGang i g why).mem = s.mem := by
  simp only [State.parkGang]
  repeat' split
  all_goals simp

@[simp] theorem State.atEnd_mem (tk : Nat) (e : EndOp) : (s.atEnd tk e).mem = s.mem := by rfl

@[simp] theorem State.applyEnd_mem (tk : Nat) (e : EndOp) : (s.applyEnd tk e).mem = s.mem := by
  unfold State.applyEnd
  split <;> simp

include hm in
@[simp] theorem State.wf_mem_leaveClause (tk : Nat) (g : Gang) : Mem.wf (s.leaveClause tk g).mem = true := by
  simp [State.leaveClause, hm]

include hm in
@[simp] theorem State.wf_mem_endClause (i : Issue) (g : Gang) : Mem.wf (s.endClause i g).mem = true := by
  simp only [State.endClause, State.again_mem, State.setPipe_mem]
  exact State.wf_mem_foldl (fun _ _ hs => State.wf_mem_leaveClause hs ..) _ hm

@[simp] theorem State.poolRequest_mem (ck : Nat) (members : List Nat) : (s.poolRequest ck members).mem = s.mem := by
  simp [State.poolRequest]

include hm in
@[simp] theorem State.wf_mem_endWord (i : Issue) (park : Bool) : Mem.wf (s.endWord i park).mem = true := by
  simp only [State.endWord]
  repeat' split
  all_goals simp [hm]

include hm in
@[simp] theorem State.wf_mem_checkWord (park : Bool) : Mem.wf (s.checkWord park).mem = true := by
  unfold State.checkWord
  split <;> simp [hm]

include hm in
@[simp] theorem State.wf_mem_retire (tk : Nat) (f : Frame) : Mem.wf (s.retire tk f).mem = true := by
  unfold State.retire
  split <;> simp [hm]

include hm in
@[simp] theorem State.wf_mem_wordFault (tk : Nat) (f : FI) (park : Bool) : Mem.wf (s.wordFault tk f park).mem = true := by
  unfold State.wordFault
  split <;> simp [hm]

include hm in
@[simp] theorem State.wf_mem_raiseLate (tk : Nat) (l : Late) (rest : List Late) (park : Bool) :
    Mem.wf (s.raiseLate tk l rest park).mem = true := by
  unfold State.raiseLate
  split
  · exact hm
  · exact State.wf_mem_checkWord (State.wf_mem_foldl (fun _ _ hs => State.wf_mem_queueRecord hs ..) _
      (State.wf_mem_pairFault hm ..)) _

include hm in
@[simp] theorem State.wf_mem_lateLoads (tk : Nat) (park : Bool) : Mem.wf (s.lateLoads tk park).mem = true := by
  unfold State.lateLoads
  split <;> simp [hm]

include hm in
@[simp] theorem State.wf_mem_lateStores (tk : Nat) (park : Bool) : Mem.wf (s.lateStores tk park).mem = true := by
  unfold State.lateStores
  split <;> simp [hm]

@[simp] theorem State.injectFire_mem (ck : Nat) : (s.injectFire ck).mem = s.mem := by rfl

@[simp] theorem State.put1_mem (l : Lane) (n : BitVec 6) (v : Word) : (s.put1 l n v).mem = s.mem := by simp [State.put1]

@[simp] theorem State.noteResult_mem (l : Lane) (d : RD) (v : Word) : (s.noteResult l d v).mem = s.mem := by
  unfold State.noteResult
  split <;> simp

@[simp] theorem State.sendValue_mem (l : Lane) (d : RD) (v : Word) : (s.sendValue l d v).mem = s.mem := by simp [State.sendValue]

@[simp] theorem State.put_mem (l : Lane) (v : Word) : (s.put l v).mem = s.mem := by
  unfold State.put
  split <;> simp

@[simp] theorem State.putPair_mem (l : Lane) (lo hi : Word) : (s.putPair l lo hi).mem = s.mem := by
  unfold State.putPair
  split <;> simp

@[simp] theorem State.pendAs_mem (l : Lane) (k : PK) (d : RD) (pn : BitVec 3) (also : BitVec 64) :
    (s.pendAs l k d pn also).2.mem = s.mem := by
  simp [State.pendAs]

@[simp] theorem State.pendNew_mem (l : Lane) (k : PK) (pn : BitVec 3) : (s.pendNew l k pn).2.mem = s.mem := by
  simp [State.pendNew]

@[simp] theorem State.sendPut_mem (l : Lane) (v : Word) : (s.sendPut l v).mem = s.mem := by simp [State.sendPut]

theorem State.pairGate_mem {tk : Nat} {u : Use} {on : Bool} {r : Resolved} {vals : List (Nat × RV × Word)} {t : State}
    (e : s.pairGate tk u on r vals = .ok t) : t.mem = s.mem := by
  unfold State.pairGate at e
  grind [State.pass_mem]

@[simp] theorem State.pairClose_mem (tk : Nat) (u : Use) (on : Bool) (vals : List (Nat × RV × Word)) :
    (s.pairClose tk u on vals).mem = s.mem := by
  unfold State.pairClose
  repeat' split
  all_goals simp

@[simp] theorem State.pairAfter_mem (tk nw : Nat) (u : Use) : (s.pairAfter tk nw u).mem = s.mem := by
  simp only [State.pairAfter]
  split <;> simp

@[simp] theorem State.setInject_mem (ck : Nat) (v : Word) : (s.setInject ck v).mem = s.mem := by rfl

include hm in
@[simp] theorem State.wf_mem_tandemMismatch (i : Issue) (f : Frame) (u : Use) (body : State → Lane → Res)
    (l : List (Nat × Issued × Issued)) (inj : Word) : Mem.wf (s.tandemMismatch i f u body l inj).mem = true := by
  have hback (s : State) (l : List Nat) : (l.foldl (fun s k => s.beginRestart k (s.thr k).sketch) s).mem = s.mem :=
    State.foldl_mem (fun _ _ => by rfl) _ _
  unfold State.tandemMismatch
  dsimp only [State.again_mem, State.setPipe_mem]
  split
  · simp [hback, hm]
  · split
    · simp [hback, hm]
    · exact State.wf_mem_foldl (fun _ _ hs => State.wf_mem_restartCheck (by simpa using hs) ..) _ (by simp [hback, hm])

@[simp] theorem State.closeLane_mem (i : Issue) (f : Frame) (u : Use) (tk : Nat) : (s.closeLane i f u tk).mem = s.mem := by
  simp only [State.closeLane]
  repeat' split
  all_goals simp

@[simp] theorem State.pairPark_mem (i : Issue) (f : Frame) (u : Use) (w : Why) : (s.pairPark i f u w).mem = s.mem := by
  simp [State.pairPark]

include hm in
theorem State.wf_mem_laneBody {body : State → Lane → Res} (hb : ∀ s l, Mem.wf s.mem = true → (body s l).Canon) (i : Issue)
    (tk : Nat) (f : Frame) (u : Use) (r : Resolved) : Mem.wf (s.laneBody i tk f u r body).mem = true := by
  simp only [State.laneBody]
  split
  · simp [hm]
  next s1 e =>
    have h1 : Mem.wf s1.mem = true := State.pairGate_mem e ▸ hm
    generalize hx : body _ _ = x
    have hx : x.Canon := hx ▸ hb _ _ (by simp [h1])
    cases x with
    | ok t | start t w | gone t => simp [show Mem.wf t.mem = true from hx]
    | late | fault x | park w => simp [hm]

include hm in
theorem State.wf_mem_lane {off body : State → Lane → Res} (hoff : ∀ s l, Mem.wf s.mem = true → (off s l).Canon)
    (hb : ∀ s l, Mem.wf s.mem = true → (body s l).Canon) (i : Issue) (tk : Nat) (f : Frame) (u : Use) :
    Mem.wf (s.lane i tk f u off body).mem = true := by
  unfold State.lane
  extract_lets s t waits
  replace hm : Mem.wf s.mem = true := by simpa [s] using hm
  have hbody := State.wf_mem_laneBody hm hb i tk f u
  split
  · simp [hm]
  · split
    · simp [hm]
    · split
      · simp [hm]
      · split
        · simp [hm]
        · split
          · simp [hm]
          · split
            · split
              · simp [hm]
              next s1 e =>
                have h1 : Mem.wf s1.mem = true := by simpa [State.pairGate_mem e] using hm
                generalize hx : off _ _ = x
                have hx : x.Canon := hx ▸ hoff _ _ h1
                cases x with
                | ok t | start t w | gone t => simp [show Mem.wf t.mem = true from hx]
                | late | fault x | park w => simp [hm]
            · split
              · simp [hm]
              · dsimp only
                repeat' split
                · simp [hm]
                · simp [hm]
                · simp [hm]
                · simp [hm]
                · exact hbody _

include hm in
/-- A word whose body, and whose part for members whose guards do not hold, answer with canonical memory keeps it canonical. -/
theorem issueWord_canon {f : Frame} {u : Use} {off body : State → Lane → Res}
    (hoff : ∀ s l, Mem.wf s.mem = true → (off s l).Canon) (hb : ∀ s l, Mem.wf s.mem = true → (body s l).Canon) :
    Out.Canon (issueWord f u off body s) := by
  unfold issueWord
  split
  · exact Out.canon_fault _
  · split
    · exact Out.canon_fault _
    · exact (Out.canon_next _).2 (State.wf_mem_lane hm hoff hb ..)

include hm in
theorem word_canon {f : Frame} {u : Use} {body : State → Lane → Res} (hb : ∀ s l, Mem.wf s.mem = true → (body s l).Canon) :
    Out.Canon (word f u body s) :=
  issueWord_canon hm (fun _ _ hs => hs) hb

include hm in
theorem compute_canon {f : Frame} {u : Use} {v : Lane → Word} : Out.Canon (compute f u v s) :=
  word_canon hm fun _ _ hs => by simpa using hs

/-! ### Tiles -/

@[simp] theorem State.keepPlanes_mem (loc n : Nat) : (s.keepPlanes loc n).mem = s.mem := by simp [State.keepPlanes]

@[simp] theorem State.showPlanes_mem (loc n : Nat) : (s.showPlanes loc n).mem = s.mem := by simp [State.showPlanes]

/-! ### Accesses as they issue, return and fail -/

theorem State.xlAt_mem {tk va n : Nat} {need : Need} {atomic walk : Bool} {x : Option Xl} {t : State}
    (e : s.xlAt tk va n need atomic walk = .ok (x, t)) : t.mem = s.mem := by
  unfold State.xlAt at e
  grind [State.tlbAdd_mem]

theorem State.globParts_mem {tk : Nat} {need : Need} {atomic walk : Bool} {l : List (Nat × Nat)} {x : List Piece} {t : State}
    (e : s.globParts tk need atomic walk l = .ok (x, t)) : t.mem = s.mem := by
  induction l generalizing s x t with
  | nil => grind [State.globParts]
  | cons q rest ih =>
    simp only [State.globParts, bind, Except.bind] at e
    grind [State.xlAt_mem]

theorem State.parts_mem {tk : Nat} {sp : Space} {a : Word} {n : Nat} {need : Need} {walk : Bool} {x : List Piece} {t : State}
    (e : s.parts tk sp a n need walk = .ok (x, t)) : t.mem = s.mem := by
  unfold State.parts at e
  grind [State.globParts_mem]

include hm in
theorem State.beginAcc_canon (l : Lane) (a : Acc) (pn : BitVec 3) : (s.beginAcc l a pn).Canon := by
  unfold State.beginAcc
  grind [Res.Canon, State.pendNew_mem, State.modThr_mem]

include hm in
theorem State.follow_canon (l : Lane) (pn : BitVec 3) : (s.follow l pn).Canon := by
  unfold State.follow
  grind [Res.Canon, State.pendNew_mem]

include hm in
theorem loadBody_canon (sp : Space) (m : MMod) (acq : Bool) (h : Hint) (off : BitVec 14) (l : Lane) :
    (loadBody sp m acq h off s l).Canon := by
  unfold loadBody
  grind [Res.Canon, State.parts_mem, State.follow_canon, State.beginAcc_canon]

include hm in
theorem gatherBody_canon (m : MMod) (h : Hint) (off : BitVec 14) (l : Lane) : (gatherBody m h off s l).Canon := by
  unfold gatherBody
  grind [Res.Canon, State.globParts_mem, State.follow_canon, State.beginAcc_canon]

include hm in
theorem State.enterStore_canon (tk : Nat) (e : SbE) : (s.enterStore tk e).Canon := by
  unfold State.enterStore
  grind [Res.Canon, State.fresh_mem, State.modThr_mem]

include hm in
theorem State.addStore_canon (tk : Nat) (e : SbE) (img : SigE) : (s.addStore tk e img).Canon := by
  unfold State.addStore
  grind [Res.Canon, State.enterStore_canon, State.addSig_mem, State.fresh_mem]

include hm in
theorem storeBody_canon (sp : Space) (m : MMod) (rel : Bool) (h : Hint) (off : BitVec 14) (l : Lane) :
    (storeBody sp m rel h off s l).Canon := by
  unfold storeBody
  grind [Res.Canon, State.parts_mem, State.addStore_canon]

@[simp] theorem State.poisonRD_mem (tk : Nat) (d : RD) (addr : Nat) : (s.poisonRD tk d addr).mem = s.mem :=
  State.foldl_mem (fun _ _ => by split <;> rfl) _ _

@[simp] theorem State.provRD_mem (tk : Nat) (d : RD) (msg addr : Nat) : (s.provRD tk d msg addr).mem = s.mem :=
  State.foldl_mem (fun _ _ => by split <;> rfl) _ _

@[simp] theorem State.finishPend_mem (tk : Nat) (q : Pend) (v : List Word) (p : Option Bool) (psn : Option Nat)
    (prov : Option (Nat × Nat)) : (s.finishPend tk q v p psn prov).mem = s.mem := by
  unfold State.finishPend
  repeat' split
  all_goals simp

@[simp] theorem State.finishOutside_mem (tk : Nat) (q : Pend) (v : List Word) (p : Option Bool) (psn : Option Nat)
    (prov : Option (Nat × Nat)) : (s.finishOutside tk q v p psn prov).mem = s.mem := by
  simp [State.finishOutside]

@[simp] theorem State.finishAcc_mem (tk : Nat) (q : Pend) (a : Acc) : (s.finishAcc tk q a).mem = s.mem := by
  simp [State.finishAcc]

include hm in
@[simp] theorem State.wf_mem_failPend (tk : Nat) (q : Pend) (code addr : Nat) :
    Mem.wf (s.failPend tk q code addr).mem = true := by
  simp [State.failPend, hm]

include hm in
@[simp] theorem State.wf_mem_failAcc (tk u code addr : Nat) : Mem.wf (s.failAcc tk u code addr).mem = true := by
  simp only [State.failAcc]
  split <;> simp [hm]

include hm in
@[simp] theorem State.wf_mem_failPart (tk u code addr : Nat) : Mem.wf (s.failPart tk u code addr).mem = true := by
  unfold State.failPart
  repeat' split
  all_goals simp [hm]

include hm in
@[simp] theorem State.wf_mem_copyCheck (tk : Nat) : Mem.wf (s.copyCheck tk).mem = true := by
  unfold State.copyCheck
  split
  · refine State.wf_mem_foldl (fun s q hs => ?_) _ hm
    repeat' split
    all_goals simp [hs]
  · exact hm

include hm in
@[simp] theorem State.wf_mem_failStore (tk u code : Nat) : Mem.wf (s.failStore tk u code).mem = true := by
  simp only [State.failStore]
  split <;> simp [hm]

/-! ### Named barriers and the launch-wide barrier -/

theorem atBarrier_canon (l : Lane) (b : BitVec 10) {k : Nat → Res} (hk : ∀ n, (k n).Canon) : (atBarrier s l b k).Canon := by
  unfold atBarrier
  split
  · trivial
  · exact hk _

include hm in
theorem execBarinit_canon {f : Frame} {b : BitVec 10} {a : Src} : Out.Canon (execBarinit f b a s) :=
  word_canon hm fun s l hs => atBarrier_canon l b fun k => by dsimp only; split <;> simp [hs]

include hm in
theorem execBararv_canon {f : Frame} {d : Dst} {b : BitVec 10} : Out.Canon (execBararv f d b s) :=
  word_canon hm fun s l hs => atBarrier_canon l b fun k => by
    split
    · trivial
    next e => simpa using (State.barArrive_mem e).symm ▸ hs

include hm in
theorem execBarwait_canon {f : Frame} {b : BitVec 10} {a : Src} : Out.Canon (execBarwait f b a s) :=
  word_canon hm fun s l hs => atBarrier_canon l b fun k => by simp [hs]

include hm in
theorem execBarsync_canon {f : Frame} {b : BitVec 10} : Out.Canon (execBarsync f b s) :=
  word_canon hm fun s l hs => atBarrier_canon l b fun k => by
    split
    · trivial
    next e => simpa using (State.barArrive_mem e).symm ▸ hs

include hm in
theorem execBarqry_canon {f : Frame} {d : Dst} {b : BitVec 10} : Out.Canon (execBarqry f d b s) :=
  word_canon hm fun s l hs => atBarrier_canon l b fun k => by simp [hs]

include hm in
theorem lbarBody_canon (l : Lane) : (lbarBody s l).Canon := by
  unfold lbarBody
  grind [Res.Canon, State.atEnd_mem, State.put_mem, State.pass_mem, State.lbarCheck_mem, State.setLaunch_mem]

/-! ### Queues between stages -/

include hm in
@[simp] theorem State.wf_mem_setCounts (lk q : Nat) (r : QueueR) (d : LDie) (head tail : Nat) :
    Mem.wf (s.setCounts lk q r d head tail).mem = true := by
  simp [State.setCounts, hm, State.wf_mem_write]

include hm in
theorem State.wf_mem_pushOne {lk q : Nat} {r : QueueR} {d : LDie} {head tail at_ : Nat} {x8 : List (Nat × Pend)} {t : State}
    (e : s.pushOne lk q r d head tail at_ x8 = some t) : Mem.wf t.mem = true := by
  unfold State.pushOne at e
  grind [State.wf_mem_writeBytes, State.endPend_mem, State.wf_mem_setCounts]

include hm in
@[simp] theorem State.wf_mem_queueServe (lk dk q n : Nat) : Mem.wf (s.queueServe lk dk q n).mem = true := by
  induction n generalizing s with
  | zero => exact hm
  | succ n ih =>
    have hpush {r d a b c l} : Mem.wf ((s.pushOne lk q r d a b c l).elim s fun s => s.queueServe lk dk q n).mem = true := by
      cases e : s.pushOne lk q r d a b c l with
      | none => exact hm
      | some t => exact ih (State.wf_mem_pushOne hm e)
    simp only [State.queueServe]
    repeat' split
    all_goals simp [hm, hpush, ih]

include hm in
@[simp] theorem State.wf_mem_queueCheck (lk dk q : Nat) : Mem.wf (s.queueCheck lk dk q).mem = true := by
  simp [State.queueCheck, hm]

include hm in
theorem qpushBody_canon (ga : BitVec 6) (q : Nat) (l : Lane) : (qpushBody ga q s l).Canon := by
  unfold qpushBody
  grind [Res.Canon, State.pendAs_mem, State.wf_mem_queueCheck]

include hm in
theorem qpopBody_canon (gd : BitVec 6) (q : Nat) (pn : BitVec 3) (l : Lane) : (qpopBody gd q pn s l).Canon := by
  unfold qpopBody
  grind [Res.Canon, State.pendAs_mem, State.wf_mem_queueCheck]

/-! ### What a line lets a part do -/

include hm in
theorem State.touchPa_canon (p u pa : Nat) (need : LineNeed) (atomic : Bool) (n : Nat) : (s.touchPa p u pa need atomic n).Canon :=
    by
  unfold State.touchPa
  grind [Touch.Canon, State.askLine_mem]

include hm in
theorem State.touch_canon (p u : Nat) (x : Xl) (va : Nat) (need : LineNeed) (atomic engineWrite : Bool) (n : Nat) :
    (s.touch p u x va need atomic engineWrite n).Canon := by
  unfold State.touch
  grind [Touch.Canon, State.touchPa_canon]

@[simp] theorem State.sramError_mem (loc cls : Nat) : (s.sramError loc cls).mem = s.mem := by simp [State.sramError]

@[simp] theorem State.cacheError_mem (p ck line : Nat) : (s.cacheError p ck line).2.mem = s.mem := by
  simp only [State.cacheError]
  split <;> simp

/-! ### The performance of accesses -/

@[simp] theorem State.modPend_mem (tk u : Nat) (f : Pend → Pend) : (s.modPend tk u f).mem = s.mem := by rfl

@[simp] theorem State.modAcc_mem (tk u : Nat) (f : Acc → Acc) : (s.modAcc tk u f).mem = s.mem := by rfl

@[simp] theorem State.transPieces_mem (tk : Nat) (k : AccK) (l : List Piece) : (s.transPieces tk k l).2.2.mem = s.mem := by
  induction l generalizing s with
  | nil => rfl
  | cons q rest ih =>
    simp only [State.transPieces]
    split
    · exact ih
    · split
      next c e => exact ih
      next x t e => exact ih.trans (State.xlAt_mem e)

@[simp] theorem State.transAcc_mem (tk : Nat) (q : Pend) : (s.transAcc tk q).2.mem = s.mem := by
  unfold State.transAcc
  split <;> simp

include hm in
theorem State.touchPiece_canon (tk u : Nat) (a : Acc) (q : Piece) : (s.touchPiece tk u a q).Canon := by
  unfold State.touchPiece
  grind [Touch.Canon, State.touch_canon]

include hm in
@[simp] theorem State.wf_mem_performPiece (tk u ix : Nat) (a : Acc) (q : Piece) (pa : Nat) (psn : Bool) (unver : Option Nat) :
    Mem.wf (s.performPiece tk u ix a q pa psn unver).mem = true := by
  simp only [State.performPiece]
  split <;> simp [hm, State.wf_mem_write]

include hm in
@[simp] theorem State.wf_mem_settleAcc (tk u : Nat) : Mem.wf (s.settleAcc tk u).mem = true := by
  unfold State.settleAcc
  repeat' split
  all_goals simp [hm]

include hm in
theorem State.groupReady_canon (ok : Bool) (l : List PartRef) : (s.groupReady ok l).Canon := by
  induction l generalizing s ok with
  | nil => unfold State.groupReady; split <;> exact hm
  | cons g rest ih =>
    unfold State.groupReady
    grind [Ready.Canon, Touch.Canon, State.touchPiece_canon, State.modAcc_mem]

@[simp] theorem State.useLine_mem (g : PartRef) : (s.useLine g).mem = s.mem := by
  unfold State.useLine
  repeat' split
  all_goals simp

include hm in
@[simp] theorem State.wf_mem_askPart (tk u : Nat) (q : Piece) : Mem.wf (s.askPart tk u q).mem = true := by
  unfold State.askPart
  grind [Touch.Canon, State.touchPiece_canon, State.modAcc_mem]

include hm in
@[simp] theorem State.wf_mem_askAll : Mem.wf s.askAll.mem = true := by
  refine State.wf_mem_foldl (fun s e hs => State.wf_mem_foldl (fun s q hs => ?_) _ hs) _ hm
  split
  · exact State.wf_mem_foldl (fun _ _ hs => State.wf_mem_askPart hs ..) _ hs
  · exact hs

include hm in
@[simp] theorem State.wf_mem_performGroup (l : List PartRef) : Mem.wf (s.performGroup l).mem = true := by
  refine State.wf_mem_foldl (fun s g hs => State.wf_mem_settleAcc hs ..) _ (State.wf_mem_foldl (fun s g hs => ?_) _
    (State.wf_mem_foldl (fun s g hs => ?_) _ hm))
  · simpa using hs
  · grind [Touch.Canon, State.touchPiece_canon, State.wf_mem_performPiece]

@[simp] theorem State.pieceFixed_mem (tk : Nat) (q : Piece) : (s.pieceFixed tk q).mem = s.mem := by
  unfold State.pieceFixed
  split <;> simp

@[simp] theorem State.pieceEcc_mem (tk u : Nat) (a : Acc) (q : Piece) : (s.pieceEcc tk u a q).2.mem = s.mem := by
  unfold State.pieceEcc
  repeat' split
  all_goals simp

include hm in
theorem execLoadReturn_canon {tk name : Nat} {ecc : Upset} : Out.Canon (execLoadReturn tk name ecc s) := by
  unfold execLoadReturn
  have hready {s : State} (hs : Mem.wf s.mem = true) (l : List PartRef) : Mem.wf (match s.groupReady true l with
      | .no s => s
      | .fail s k v c va => s.failPart k v c va
      | .yes s => s.performGroup l).mem = true := by
    have hr := State.groupReady_canon hs true l
    split
    next e => rw [e] at hr; exact hr
    next e => rw [e] at hr; exact State.wf_mem_failPart hr ..
    next e => rw [e] at hr; exact State.wf_mem_performGroup hr _
  rw [Out.canon_next]
  dsimp only
  split
  · exact hm
  next p0 _ =>
    split
    case h_3 => exact hm
    all_goals
      split
      · exact hm
      · generalize ht : List.foldl (fun s (e : Nat × Pend) => (s.transAcc e.1 e.2).2) s _ = t
        replace ht : Mem.wf t.mem = true := by
          rw [← ht, State.foldl_mem fun _ _ => State.transAcc_mem ..]
          exact hm
        have ha : Mem.wf (t.transAcc tk p0).2.mem = true := by simpa using ht
        split
        next e => rw [e] at ha; simp [ha]
        next v e =>
          rw [e] at ha
          split
          · exact ha
          next a _ =>
            split
            · exact ha
            next q _ =>
              split
              · exact ha
              · split
                · exact ha
                · split <;> simp [ha]
                · cases ecc with
                  | none => exact hready ha _
                  | fixed => exact hready (by rw [State.pieceFixed_mem]; exact ha) _
                  | lost =>
                    have he : Mem.wf (v.pieceEcc tk (name / 16 * 16) a q).2.mem = true := by simpa using ha
                    dsimp only
                    split
                    · exact State.wf_mem_failPart he ..
                    · exact hready he _

include hm in
@[simp] theorem State.wf_mem_waitaRead (tk : Nat) (q : Pend) (done : Word → Bool) :
    Mem.wf (s.waitaRead tk q done).mem = true := by
  have ht : Mem.wf (s.transAcc tk q).2.mem = true := by simpa using hm
  unfold State.waitaRead
  split
  next s e => rw [e] at ht; exact State.wf_mem_failAcc ht ..
  next s e =>
    rw [e] at ht
    grind [Touch.Canon, State.touchPiece_canon, State.modAcc_mem, State.wf_mem_failAcc, State.finishOutside_mem,
      State.modThr_mem]

include hm in
theorem execWaitaWake_canon {tk u : Nat} : Out.Canon (execWaitaWake tk u s) := by
  unfold execWaitaWake
  repeat' split
  all_goals simp [hm]

include hm in
theorem execWaitaTimeout_canon {tk u : Nat} : Out.Canon (execWaitaTimeout tk u s) := by
  unfold execWaitaTimeout
  repeat' split
  all_goals simp [hm]

@[simp] theorem State.modEntry_mem (tk u : Nat) (f : SbE → SbE) : (s.modEntry tk u f).mem = s.mem := by rfl

include hm in
@[simp] theorem State.wf_mem_endEntry (tk : Nat) (e : SbE) : Mem.wf (s.endEntry tk e).mem = true := by simp [State.endEntry, hm]

include hm in
theorem State.touchSPiece_canon (tk : Nat) (e : SbE) (q : SPiece) : (s.touchSPiece tk e q).Canon := by
  unfold State.touchSPiece
  grind [Touch.Canon, State.touchPa_canon, State.touch_canon]

include hm in
theorem State.entryReady_canon (tk : Nat) (e : SbE) (ok : Bool) (l : List SPiece) : (s.entryReady tk e ok l).Canon := by
  induction l generalizing s ok with
  | nil => unfold State.entryReady; split <;> exact hm
  | cons g rest ih =>
    unfold State.entryReady
    grind [Ready.Canon, Touch.Canon, State.touchSPiece_canon, State.modEntry_mem]

include hm in
@[simp] theorem State.wf_mem_storeBytes (pa n data mask : Nat) : Mem.wf (s.storeBytes pa n data mask).mem = true := by
  simp [State.storeBytes, hm]

@[simp] theorem State.wipeHeld_mem (tk : Nat) (e : SbE) (line : Nat) : (s.wipeHeld tk e line).mem = s.mem := by
  simp [State.wipeHeld]

include hm in
@[simp] theorem State.wf_mem_performSPiece (tk : Nat) (e : SbE) (ix : Nat) (q : SPiece) (pa : Nat) :
    Mem.wf (s.performSPiece tk e ix q pa).mem = true := by
  unfold State.performSPiece
  split <;> simp [hm, State.wf_mem_write]

include hm in
theorem State.storesReady_canon (ok : Bool) (l : List PartRef) : (s.storesReady ok l).Canon := by
  induction l generalizing s ok with
  | nil => unfold State.storesReady; split <;> exact hm
  | cons g rest ih =>
    unfold State.storesReady
    grind [Ready.Canon, State.entryReady_canon]

@[simp] theorem State.useEntry_mem (tk : Nat) (e : SbE) : (s.useEntry tk e).mem = s.mem := by
  refine State.foldl_mem (fun s q => ?_) _ _
  split
  · split <;> simp
  · rfl

include hm in
@[simp] theorem State.wf_mem_performStores (l : List PartRef) : Mem.wf (s.performStores l).mem = true := by
  refine State.wf_mem_foldl (fun s g hs => ?_) _ (State.wf_mem_foldl (fun s g hs => ?_) _ hm)
  · split
    · split <;> simp [hs]
    · exact hs
  · grind [Touch.Canon, State.touchSPiece_canon, State.wf_mem_performSPiece]

include hm in
@[simp] theorem State.wf_mem_sendFlush (tk : Nat) (e : SbE) (line : Nat) : Mem.wf (s.sendFlush tk e line).mem = true := by
  simp [State.sendFlush, hm]

include hm in
@[simp] theorem State.wf_mem_invalLine (tk : Nat) (e : SbE) (line : Nat) : Mem.wf (s.invalLine tk e line).mem = true := by
  simp only [State.invalLine]
  repeat' split
  all_goals simp [hm]

include hm in
theorem execStorePerform_canon {tk name : Nat} : Out.Canon (execStorePerform tk name s) := by
  have hready (l : List PartRef) : Mem.wf (match s.storesReady true l with
      | .no s => s
      | .fail s k v c _ => s.failStore k v c
      | .yes s => s.performStores l).mem = true := by
    have hr := State.storesReady_canon hm true l
    split
    next e => rw [e] at hr; exact hr
    next e => rw [e] at hr; exact State.wf_mem_failStore hr ..
    next e => rw [e] at hr; exact State.wf_mem_performStores hr _
  unfold execStorePerform
  rw [Out.canon_next]
  dsimp only
  split
  · exact hm
  · split
    · exact hm
    · split
      · exact hm
      · split
        · split <;> simp [hm]
        · split <;> simp [hm]
        · split
          · exact hm
          · split
            · exact hm
            · exact hready _

/-! ### The tile table -/

@[simp] theorem State.setTile_mem (ck i : Nat) (t : Tile) : (s.setTile ck i t).mem = s.mem := by simp [State.setTile]

@[simp] theorem State.modTile_mem (ck i : Nat) (f : Tile → Tile) : (s.modTile ck i f).mem = s.mem := by simp [State.modTile]

include hm in
theorem tdefBody_canon (n : Nat) (l : Lane) : (tdefBody n s l).Canon := by
  unfold tdefBody
  grind [Res.Canon, State.setTile_mem]

include hm in
theorem execTqry_canon {f : Frame} {d : Dst} {t : BitVec 6} {wd : Bool} : Out.Canon (execTqry f d t wd s) :=
  word_canon hm fun s l hs => by split <;> simp [hs]

include hm in
theorem execTready_canon {f : Frame} {t : BitVec 6} : Out.Canon (execTready f t s) :=
  word_canon hm fun s l hs => by
    split
    · trivial
    · split <;> simp [hs]

include hm in
theorem execTempty_canon {f : Frame} {t : BitVec 6} : Out.Canon (execTempty f t s) :=
  word_canon hm fun s l hs => by
    split
    · trivial
    · split <;> simp [hs]

include hm in
theorem execTreadyComplete_canon {ck t : Nat} : Out.Canon (execTreadyComplete ck t s) := by
  simp only [execTreadyComplete, Out.canon_next]
  split <;> simp [hm]

@[simp] theorem State.twaitDone_mem (tk : Nat) (q : Pend) (i : Nat) : (s.twaitDone tk q i).mem = s.mem := by
  simp [State.twaitDone]

include hm in
theorem execTwait_canon {f : Frame} {ws : TileState} {d : Dst} {t : BitVec 6} : Out.Canon (execTwait f ws d t s) :=
  word_canon hm fun s l hs => by
    split
    · trivial
    · split
      · exact State.follow_canon hs ..
      · split
        · trivial
        · dsimp only
          split <;> simp [hs]

include hm in
theorem execTwaitComplete_canon {tk u : Nat} : Out.Canon (execTwaitComplete tk u s) := by
  unfold execTwaitComplete
  repeat' split
  all_goals simp [hm]

include hm in
theorem tstbBody_canon (n : Nat) (a : Src) (l : Lane) : (tstbBody n a s l).Canon := by
  unfold tstbBody
  grind [Res.Canon, State.enterStore_canon, State.setTile_mem]

include hm in
theorem tldbBody_canon (n : Nat) (d : Dst) (l : Lane) : (tldbBody n d s l).Canon := by
  unfold tldbBody
  grind [Res.Canon, State.pendNew_mem, State.modThr_mem]

theorem State.backing_mem {tk va : Nat} {prev : Option Nat} {n : Nat} {x : Option Nat} {t : State}
    (e : s.backing tk va prev n = .ok (x, t)) : t.mem = s.mem := by
  induction n generalizing s va prev x t with
  | zero => grind [State.backing]
  | succ n ih =>
    have hx := s.xlate_mem tk va
    unfold State.backing at e
    grind

theorem State.shadowDesc_mem {tk va : Nat} {x : Nat} {y : Xl} {t : State} (e : s.shadowDesc tk va = .ok (x, y, t)) :
    t.mem = s.mem := by
  unfold State.shadowDesc at e
  grind [State.xlate_mem]

include hm in
theorem shadowBody_canon (l : Lane) : (shadowBody s l).Canon := by
  unfold shadowBody
  dsimp only
  split
  · trivial
  split
  · trivial
  next hd =>
    split
    · trivial
    next hb =>
      split
      · trivial
      next hc =>
        have ht := (State.backing_mem hc).trans ((State.backing_mem hb).trans (State.shadowDesc_mem hd))
        repeat' split
        all_goals simp [ht, hm]

include hm in
theorem publishBody_canon (l : Lane) : (publishBody s l).Canon := by
  unfold publishBody
  grind [Res.Canon, State.shadowDesc_mem, State.enterStore_canon]

/-! ### Engine commands as they are accepted -/

theorem State.firstPage_mem {tk : Nat} {a : EAd} {need : Need} {t : State} (e : s.firstPage tk a need = .ok t) : t.mem = s.mem :=
    by
  unfold State.firstPage at e
  grind [State.tlbAdd_mem]

theorem State.firstPages_mem {tk : Nat} {l : List (EAd × Need)} {t : State} (e : s.firstPages tk l = .ok t) : t.mem = s.mem := by
  induction l generalizing s with
  | nil => grind [State.firstPages]
  | cons x xs ih =>
    unfold State.firstPages at e
    grind [State.firstPage_mem]

@[simp] theorem State.launchCmd_mem (lk : Option Nat) : (s.launchCmd lk).mem = s.mem := by
  unfold State.launchCmd
  split <;> simp

@[simp] theorem State.takeTicket_mem (ck ctx : Nat) (coll bind : Bool) : (s.takeTicket ck ctx coll bind).2.mem = s.mem := by rfl

@[simp] theorem State.skipCmd_mem (l : Lane) (n : Nat) : (s.skipCmd l n).mem = s.mem := by simp [State.skipCmd]

include hm in
theorem State.acceptCmd_canon (l : Lane) (w : Slots) (k : CmdK) (rel : Bool) (h : Hint) {enter : State → Cmd → State}
    (he : ∀ s c, (enter s c).mem = s.mem) : (s.acceptCmd l w k rel h enter).Canon := by
  unfold State.acceptCmd
  split
  · trivial
  · cases s.ticketSrc l.tk <;> simp [he, hm]

include hm in
theorem commandBody_canon {check : State → Lane → Except FI (State → Res)} (l : Lane)
    (hc : ∀ go, check s l = .ok go → (go s).Canon) : (commandBody check s l).Canon := by
  unfold commandBody
  split
  · simp [Res.Canon, hm]
  · split
    · trivial
    next go e => exact hc go e

@[simp] theorem State.pushCopy_mem (ck : Nat) (c : Cmd) : (s.pushCopy ck c).mem = s.mem := by rfl

@[simp] theorem State.pushMat_mem (ck : Nat) (c : Cmd) : (s.pushMat ck c).mem = s.mem := by rfl

@[simp] theorem State.takeMat_mem (ck : Nat) (t : MatT) (fill : Option Nat) : (s.takeMat ck t fill).mem = s.mem := by
  simp [State.takeMat]

include hm in
theorem matBody_canon (batch : Bool) (k : Word → CmdK) (h : Hint) (l : Lane) : (matBody batch k h s l).Canon := by
  refine commandBody_canon hm l fun go e => ?_
  dsimp only at e
  repeat' split at e
  all_goals cases e
  exact State.acceptCmd_canon hm _ _ _ _ _ fun _ _ => by simp

@[simp] theorem State.joinGrid_mem (dk ctx : Nat) (trail : Bool) (m : GridM) : (s.joinGrid dk ctx trail m).mem = s.mem := by
  simp only [State.joinGrid]
  split <;> simp

include hm in
theorem mmacBody_canon (h : Hint) (l : Lane) : (mmacBody h s l).Canon := by
  refine commandBody_canon hm l fun go e => ?_
  dsimp only at e
  split at e
  · cases e
  split at e
  · cases e
  split at e
  · cases e
  cases e
  exact State.acceptCmd_canon hm _ _ _ _ _ fun _ _ => by simp

@[simp] theorem State.takeCopy_mem (ck : Nat) (p : CopyPlan) (follow : Bool) : (s.takeCopy ck p follow).mem = s.mem := by
  unfold State.takeCopy
  repeat' split
  all_goals simp

include hm in
theorem cpyBody_canon (rel : Bool) (h : Hint) (l : Lane) : (cpyBody rel h s l).Canon := by
  refine commandBody_canon hm l fun go e => ?_
  split at e
  · cases e
  split at e
  · cases e
  cases e
  exact State.acceptCmd_canon (State.firstPages_mem ‹_› ▸ hm) _ _ _ _ _ fun _ _ => by simp

include hm in
theorem cpymBody_canon (rel : Bool) (h : Hint) (l : Lane) : (cpymBody rel h s l).Canon := by
  refine commandBody_canon hm l fun go e => ?_
  dsimp only at e
  split at e
  · cases e
  split at e
  · cases e
  split at e
  · cases e
  split at e
  · cases e
  cases e
  exact State.acceptCmd_canon (State.firstPages_mem ‹_› ▸ hm) _ _ _ _ _ fun _ _ => by simp

theorem ite_error_eq_ok {ε α : Type} {c : Prop} [Decidable c] {f : ε} {x : Except ε α} {a : α} :
    (if c then .error f else x) = .ok a ↔ ¬c ∧ x = .ok a := by
  split <;> simp [*]

include hm in
theorem mepiBody_canon (h : Hint) (l : Lane) : (mepiBody h s l).Canon := by
  refine commandBody_canon hm l fun go e => ?_
  simp only [ite_error_eq_ok] at e
  obtain ⟨-, -, e⟩ := e
  split at e
  · cases e
  · cases e
  split at e
  · cases e
  simp only [ite_error_eq_ok] at e
  obtain ⟨-, e⟩ := e
  generalize hp : s.firstPages l.tk _ = r at e
  cases r with
  | error f => cases e
  | ok t =>
    cases e
    exact State.acceptCmd_canon (State.firstPages_mem hp ▸ hm) _ _ _ _ _ fun _ _ => by split <;> simp

@[simp] theorem State.modIssuer_mem (c : Cmd) (f : Thread → Thread) : (s.modIssuer c f).mem = s.mem := by simp [State.modIssuer]

@[simp] theorem State.dropCounters_mem (c : Cmd) (enc twc : Nat) : (s.dropCounters c enc twc).mem = s.mem := by
  simp [State.dropCounters]

@[simp] theorem State.countNan_mem (c : Cmd) (n : Nat) : (s.countNan c n).mem = s.mem := by simp [State.countNan]

@[simp] theorem State.closeTicket_mem (ck ctx ticket status : Nat) : (s.closeTicket ck ctx ticket status).mem = s.mem := by
  simp [State.closeTicket]

@[simp] theorem State.endCmd_mem (c : Cmd) (status enc twc : Nat) : (s.endCmd c status enc twc).mem = s.mem := by
  unfold State.endCmd
  split <;> simp

include hm in
@[simp] theorem State.wf_mem_cmdFault (c : Cmd) (kind addr : Nat) : Mem.wf (s.cmdFault c kind addr).mem = true := by
  simp [State.cmdFault, hm]

/-! ### Launches -/

theorem State.placeOne_mem {lk : Nat} {l : Launch} {dk stage : Nat} {g : StageR} {j tid : Nat} {t : State}
    (e : s.placeOne lk l dk stage g j tid = some t) : t.mem = s.mem := by
  unfold State.placeOne at e
  grind [State.modCore_mem, State.setThr_mem]

theorem State.foldl_bind_none {α : Type} (f : State → α → Option State) (l : List α) :
    l.foldl (fun (o : Option State) x => o.bind fun s => f s x) none = none := by
  induction l with
  | nil => rfl
  | cons y ys ih => exact ih

theorem State.foldl_bind_mem {α : Type} {f : State → α → Option State} (hf : ∀ s x t, f s x = some t → t.mem = s.mem) (l : List α)
    {s t : State} (e : l.foldl (fun (o : Option State) x => o.bind fun s => f s x) (some s) = some t) : t.mem = s.mem := by
  induction l generalizing s with
  | nil => rw [Option.some.inj e]
  | cons x xs ih =>
    rw [List.foldl_cons, Option.bind_some] at e
    cases hx : f s x with
    | none =>
      rw [hx, State.foldl_bind_none] at e
      cases e
    | some u =>
      rw [hx] at e
      exact (ih e).trans (hf s x u hx)

theorem State.placeDie_mem {lk : Nat} {l : Launch} {dk first : Nat} {t : State} (e : s.placeDie lk l dk first = some t) :
    t.mem = s.mem :=
  State.foldl_bind_mem (fun _ _ _ e => State.placeOne_mem e) _ e

theorem State.reserve_mem {lk : Nat} {l : Launch} {t : State} (e : s.reserve lk l = some t) : t.mem = s.mem := by
  refine State.foldl_bind_mem (fun s d t e => ?_) _ e
  simp only [bind, Option.bind_eq_some_iff] at e
  obtain ⟨u, hu, _, -, e⟩ := e
  rw [← Option.some.inj e, State.modLaunch_mem]
  exact State.placeDie_mem hu

include hm in
@[simp] theorem State.wf_mem_openQueues (lk dk : Nat) : Mem.wf (s.openQueues lk dk).mem = true := by
  unfold State.openQueues
  repeat' split
  · exact hm
  · exact hm
  · exact State.wf_mem_foldl (fun _ _ hs => State.wf_mem_setCounts hs ..) _ hm

include hm in
theorem State.wf_mem_readVirt {tk a n : Nat} {x : List Byte} {t : State} (e : s.readVirt tk a n = .ok (x, t)) :
    Mem.wf t.mem = true := by
  induction n generalizing s a x t with
  | zero => grind [State.readVirt]
  | succ n ih =>
    simp only [State.readVirt, bind, Except.bind] at e
    grind [State.xlAt_mem, State.wf_mem_settle]

@[simp] theorem State.askNow_mem (tk : Nat) : (s.askNow tk).mem = s.mem := by simp [State.askNow]

include hm in
theorem State.pathWait_canon (l : Lane) (q : Nat) (a : Word) : (s.pathWait l q a).Canon := by
  unfold State.pathWait
  grind [Res.Canon, State.askNow_mem]

include hm in
theorem launchBody_canon (l : Lane) : (launchBody s l).Canon := by
  unfold launchBody
  grind [Res.Canon, State.wf_mem_readVirt, State.follow_canon, State.pathWait_canon, State.pendNew_mem, State.deliverOut_mem,
    State.setLaunch_mem]

@[simp] theorem State.tellLauncher_mem (lk : Nat) (v : Word) : (s.tellLauncher lk v).mem = s.mem := by
  unfold State.tellLauncher
  split <;> simp

include hm in
@[simp] theorem State.wf_mem_launchAnswer (lk : Nat) : Mem.wf (s.launchAnswer lk).mem = true := by
  unfold State.launchAnswer
  split
  next l _ =>
    dsimp only
    repeat' split
    case h_2 t e =>
      have hq : Mem.wf (l.dies.foldl (fun s d => s.openQueues lk d.dk) t).mem = true :=
        State.wf_mem_foldl (fun _ _ hs => State.wf_mem_openQueues hs ..) _ (State.reserve_mem e ▸ hm)
      simpa using hq
    all_goals simp [hm]
  · exact hm

@[simp] theorem State.launchStart_mem (lk dk : Nat) : (s.launchStart lk dk).mem = s.mem := by
  unfold State.launchStart
  repeat' split
  all_goals simp

include hm in
@[simp] theorem State.wf_mem_finishLaunch (lk : Nat) (l : Launch) : Mem.wf (s.finishLaunch lk l).mem = true := by
  have hend (w : Word) {s : State} (hs : Mem.wf s.mem = true) (es : List (Nat × Thread)) : Mem.wf (es.foldl (fun s e =>
      if e.2.ctx = l.ctx ∧ s.sameSpan l e.1 then
        e.2.pend.foldl (fun s p => if p.k = .lwait l.handle.toNat then s.deliverOut e.1 p.u [w] none else s) s
      else s) s).mem = true := by
    refine State.wf_mem_foldl (fun s e hs => ?_) _ hs
    split
    · rw [State.foldl_mem fun _ _ => by split <;> simp]
      exact hs
    · exact hs
  simp only [State.finishLaunch]
  split
  · split
    · exact hm
    · refine hend _ ?_ _
      exact hm
  · split
    · exact hm
    · refine hend _ ?_ _
      dsimp only
      split <;> simp [hm, State.wf_mem_write]

include hm in
@[simp] theorem State.wf_mem_launchComplete (lk : Nat) : Mem.wf (s.launchComplete lk).mem = true := by
  unfold State.launchComplete
  split <;> simp [hm]

include hm in
@[simp] theorem State.wf_mem_startTimeout (lk : Nat) : Mem.wf (s.startTimeout lk).mem = true := by
  unfold State.startTimeout
  split <;> simp [hm]

include hm in
theorem lwaitBody_canon (l : Lane) : (lwaitBody s l).Canon := by
  unfold lwaitBody
  grind [Res.Canon, State.follow_canon, State.pendNew_mem, State.deliverOut_mem]

@[simp] theorem State.lbarRelease_mem (lk dk : Nat) : (s.lbarRelease lk dk).mem = s.mem := by
  unfold State.lbarRelease
  split <;> simp

@[simp] theorem State.retireFor_mem (v : Nat × Pend) (g : Nat) : (s.retireFor v g).mem = s.mem := by
  simp only [State.retireFor]
  split <;> simp

@[simp] theorem State.rebalance_mem (dk : Nat) : (s.rebalance dk).mem = s.mem := by simp [State.rebalance]

/-! ### The copy engine -/

theorem State.engXl_mem {ck ctx va : Nat} {need : Need} {x : Xl} {t : State} (e : s.engXl ck ctx va need = some (x, t)) :
    t.mem = s.mem := by
  simp only [State.engXl, Option.ite_none_left_eq_some, Option.bind_eq_some_iff, Option.ite_none_right_eq_some] at e
  obtain ⟨-, y, hy, -, e⟩ := e
  cases e
  split at hy
  · cases hy; rfl
  · obtain ⟨_, -, hy⟩ := Option.map_eq_some_iff.1 hy
    cases hy; simp

include hm in
theorem State.engTouch_canon (ck ctx u va : Nat) (wr clr : Bool) : (s.engTouch ck ctx u va wr clr).Canon := by
  unfold State.engTouch
  grind [Touch.Canon, State.engXl_mem, State.touch_canon]

@[simp] theorem State.modCmd_mem (ck u : Nat) (f : Cmd → Cmd) : (s.modCmd ck u f).mem = s.mem := by rfl

include hm in
theorem State.engSpan_canon (ck : Nat) (c : Cmd) (wr clr : Bool) (l : List (Nat × Nat)) :
    (∀ t x, s.engSpan ck c wr clr l = .ok (t, x) → Mem.wf t.mem = true) ∧
      ∀ e, s.engSpan ck c wr clr l = .error e → e.Canon := by
  induction l generalizing s with
  | nil => simp [State.engSpan, hm]
  | cons q rest ih =>
    have ht := State.engTouch_canon hm ck c.ctx c.u q.1 wr clr
    unfold State.engSpan
    dsimp only
    cases e : s.engTouch ck c.ctx c.u q.1 wr clr with
    | fail => simp [hm]
    | wait t => rw [e] at ht; simpa using ht
    | ok t =>
      rw [e] at ht
      have hrest := ih (s := t.modCmd ck c.u fun q' => { q' with asks := Tab.cut q'.asks (s.engLine ck c.ctx q.1 wr) })
        (by simpa using ht)
      dsimp only
      split
      next e' => simpa [e'] using hrest.2
      next e' => simpa [e'] using hrest.1

include hm in
theorem State.wf_mem_engSpan {ck : Nat} {c : Cmd} {wr clr : Bool} {l : List (Nat × Nat)} {x : List (Nat × Nat × Nat)} {t : State}
    (e : s.engSpan ck c wr clr l = .ok (t, x)) : Mem.wf t.mem = true :=
  (State.engSpan_canon hm ck c wr clr l).1 t x e

include hm in
theorem State.engSpan_error {ck : Nat} {c : Cmd} {wr clr : Bool} {l : List (Nat × Nat)} {x : Eng}
    (e : s.engSpan ck c wr clr l = .error x) : x.Canon :=
  (State.engSpan_canon hm ck c wr clr l).2 x e

@[simp] theorem State.engHint_mem (ck : Nat) (c : Cmd) (line : Nat) : (s.engHint ck c line).mem = s.mem := by
  unfold State.engHint
  repeat' split
  all_goals simp

@[simp] theorem State.engHints_mem (ck : Nat) (c : Cmd) (l : List (Nat × Nat × Nat)) : (s.engHints ck c l).mem = s.mem := by
  simp [State.engHints]

include hm in
theorem State.engRead_canon (ck : Nat) (c : Cmd) (a : EAd) (n : Nat) : (s.engRead ck c a n).Canon := by
  have hf (b : Nat) : Mem.wf (s.readFree b n).2.mem = true := by simpa using hm
  unfold State.engRead
  split
  · exact hf _
  · split
    next e => exact State.engSpan_error hm e
    next e => simpa [Eng.Canon] using State.wf_mem_engSpan hm e
  · exact hm

@[simp] theorem State.pairWrite_mem (ck : Nat) (c : Cmd) (va n v : Nat) (clr : Bool) :
    (s.pairWrite ck c va n v clr).mem = s.mem :=
  State.foldl_mem (fun _ _ => by simp) _ _

include hm in
@[simp] theorem State.wf_mem_engStore (pa n v : Nat) : Mem.wf (s.engStore pa n v).mem = true := by simp [State.engStore, hm]

include hm in
@[simp] theorem State.wf_mem_engPut (ck va v : Nat) (l : List (Nat × Nat × Nat)) : Mem.wf (s.engPut ck va v l).mem = true := by
  refine State.wf_mem_foldl (fun s x hs => ?_) _ hm
  dsimp only
  split <;> simp [hs]

include hm in
theorem State.engWrite_canon (ck : Nat) (c : Cmd) (a : EAd) (n v : Nat) (clr : Bool) : (s.engWrite ck c a n v clr).Canon := by
  unfold State.engWrite
  split
  · simp [Eng.Canon, hm]
  · repeat' split
    case h_1 e => exact State.engSpan_error hm e
    case h_2 e => simp [Eng.Canon, State.wf_mem_engSpan hm e]
    all_goals simp [Eng.Canon, hm]
  · exact hm

@[simp] theorem State.modCopy_mem (ck u : Nat) (f : Cmd → Cmd) : (s.modCopy ck u f).mem = s.mem := by rfl

@[simp] theorem State.modMat_mem (ck u : Nat) (f : Cmd → Cmd) : (s.modMat ck u f).mem = s.mem := by rfl

include hm in
@[simp] theorem State.wf_mem_copyDone (ck : Nat) (c : Cmd) (ok : Bool) : Mem.wf (s.copyDone ck c ok).mem = true := by
  unfold State.copyDone
  dsimp only
  split
  next src dst _ _ _ _ follow _ =>
    cases follow with
    | none => cases src <;> cases dst <;> simp [hm]
    | some w => cases src <;> cases dst <;> cases ok <;> simp [hm]
  · exact hm

include hm in
@[simp] theorem State.wf_mem_copyFail (ck : Nat) (c : Cmd) (addr : Nat) : Mem.wf (s.copyFail ck c addr).mem = true := by
  simp [State.copyFail, hm]

include hm in
theorem State.copyRead_canon (ck : Nat) (c : Cmd) (a : CopySide) (x : Nat) : (s.copyRead ck c a x).Canon := by
  unfold State.copyRead
  grind [Eng.Canon, State.engRead_canon, State.modCopy_mem]

include hm in
theorem State.copyWrite_canon (ck : Nat) (c : Cmd) (a b : CopySide) (y : Nat) : (s.copyWrite ck c a b y).Canon := by
  simp only [State.copyWrite]
  split
  · exact hm
  · split
    next t v e =>
      have ht : (Eng.ok t v).Canon := e ▸ State.engWrite_canon hm ..
      repeat' split
      all_goals simpa using ht
    · exact State.engWrite_canon hm ..

include hm in
theorem State.copyChoice_canon {ck : Nat} {c : Cmd} {k : Nat} {x : Eng} (e : s.copyChoice ck c k = some x) : x.Canon := by
  simp only [State.copyChoice, Option.bind_eq_some_iff] at e
  obtain ⟨⟨a, b⟩, -, e⟩ := e
  split at e
  · obtain ⟨y, -, rfl⟩ := Option.map_eq_some_iff.1 e
    exact State.copyRead_canon hm ..
  · obtain ⟨y, -, rfl⟩ := Option.map_eq_some_iff.1 e
    exact State.copyWrite_canon hm ..

include hm in
@[simp] theorem State.wf_mem_failSent (ck : Nat) (x : Sent) : Mem.wf (s.failSent ck x).mem = true := by simp [State.failSent, hm]

include hm in
@[simp] theorem State.wf_mem_runSent (ck : Nat) (x : Sent) : Mem.wf (s.runSent ck x).mem = true := by
  unfold State.runSent
  grind [State.touch_canon, State.wf_mem_failSent, State.modCore_mem, State.wf_mem_engPut, State.wipePoison_mem, Touch.Canon]

include hm in
@[simp] theorem State.wf_mem_sendOff (ck : Nat) (c : Cmd) (va n v : Nat) (since : Option Nat) (clr wipe : Bool) :
    Mem.wf (s.sendOff ck c va n v since clr wipe).mem = true := by
  unfold State.sendOff
  grind [State.engXl_mem, State.wf_mem_cmdFault, State.modCmd_mem, State.fresh_mem, State.modCore_mem]

include hm in
@[simp] theorem State.wf_mem_stopCopy (ck : Nat) (c : Cmd) : Mem.wf (s.stopCopy ck c).mem = true := by
  unfold State.stopCopy
  split
  · exact hm
  · exact State.wf_mem_foldl (fun _ _ hs => State.wf_mem_sendOff hs ..) _ hm

include hm in
theorem execCopyComplete_canon {ck u k : Nat} : Out.Canon (execCopyComplete ck u k s) := by
  have hover {s : State} (hs : Mem.wf s.mem = true) : Mem.wf (match s.findCopy ck u with
      | some c => if s.copyOver ck c && !(s.core ck).sent.any (fun x => x.cmd.u == u) then s.copyDone ck c true else s
      | none => s).mem = true := by
    split
    · split <;> simp [hs]
    · exact hs
  unfold execCopyComplete
  rw [Out.canon_next]
  dsimp only
  split
  · simp [hm]
  · exact hm
  next c _ _ =>
    split
    · exact hm
    · split
      · simp [hm]
      · have hs : Mem.wf (s.modCopy ck u fun c => { c with began := true }).mem = true := by simpa using hm
        split
        · exact hover hs
        next e => exact State.copyChoice_canon hs e
        next e => exact State.wf_mem_copyFail (State.copyChoice_canon hs e : Mem.wf _ = true) ..
        next e => exact hover (State.copyChoice_canon hs e)

/-! ### The sequencer -/

@[simp] theorem State.popMat_mem (ck u : Nat) : (s.popMat ck u).mem = s.mem := by rfl

@[simp] theorem State.modGrid_mem (dk id : Nat) (f : GridOp → GridOp) : (s.modGrid dk id f).mem = s.mem := by rfl

@[simp] theorem State.setGridPos_mem (ck id n : Nat) : (s.setGridPos ck id n).mem = s.mem := by rfl

@[simp] theorem State.setPhase_mem (ck ctx n : Nat) : (s.setPhase ck ctx n).mem = s.mem := by rfl

@[simp] theorem State.dropReaders_mem (ck : Nat) (l : List Nat) : (s.dropReaders ck l).mem = s.mem := by simp [State.dropReaders]

include hm in
@[simp] theorem State.wf_mem_gridFail (dk : Nat) (g : GridOp) : Mem.wf (s.gridFail dk g).mem = true := by
  refine State.wf_mem_foldl (fun s m hs => ?_) _ hm
  split
  · exact hs
  · simp [hs]

include hm in
@[simp] theorem State.wf_mem_writeAccs (ck : Nat) (c : Cmd) (t : Tile) (j : Nat) : Mem.wf (s.writeAccs ck c t j).mem = true := by
  simp only [State.writeAccs, State.modMat_mem]
  exact State.wf_mem_foldl (fun _ _ hs => State.wf_mem_write hs ..) _ hm

include hm in
@[simp] theorem State.wf_mem_storeAccs (ck : Nat) (c : Cmd) (k : Nat) : Mem.wf (s.storeAccs ck c k).1.mem = true := by
  unfold State.storeAccs
  dsimp only
  split
  · dsimp only
    split
    · exact State.wf_mem_foldl (fun _ _ hs => State.wf_mem_write hs ..) _ hm
    · exact State.wf_mem_foldl (fun _ _ hs => State.wf_mem_writeAccs hs ..) _ hm
  · split
    · exact State.wf_mem_writeAccs hm ..
    · exact hm

@[simp] theorem State.matFinish_mem (ck : Nat) (c : Cmd) : (s.matFinish ck c).mem = s.mem := by simp [State.matFinish]

include hm in
@[simp] theorem State.wf_mem_gridFinish (ck : Nat) (c : Cmd) (g : GridOp) (n k : Nat) :
    Mem.wf (s.gridFinish ck c g n k).mem = true := by
  simp [State.gridFinish, hm]

include hm in
@[simp] theorem State.wf_mem_matTryFinish (ck u k : Nat) : Mem.wf (s.matTryFinish ck u k).mem = true := by
  simp only [State.matTryFinish]
  repeat' split
  all_goals simp [hm]

include hm in
@[simp] theorem State.wf_mem_matAbort (ck : Nat) (c : Cmd) (addr : Nat) : Mem.wf (s.matAbort ck c addr).mem = true := by
  simp only [State.matAbort]
  split <;> simp [hm]

include hm in
@[simp] theorem State.wf_mem_slabFail (ck : Nat) (c : Cmd) : Mem.wf (s.slabFail ck c).mem = true := by simp [State.slabFail, hm]

include hm in
@[simp] theorem State.wf_mem_slabRun (ck : Nat) (c : Cmd) (mism : Nat) : Mem.wf (s.slabRun ck c mism).mem = true := by
  simp only [State.slabRun]
  repeat' split
  all_goals simp [hm]

include hm in
theorem execSlabStep_canon {ck mism : Nat} : Out.Canon (execSlabStep ck mism s) := by
  unfold execSlabStep
  rw [Out.canon_next]
  split
  · exact hm
  next c _ =>
    extract_lets isMat acc u t
    split
    · exact hm
    · have hu : Mem.wf u.mem = true := by simpa [u] using hm
      have ht : Mem.wf t.mem = true := by
        unfold t
        split
        · exact hm
        · split <;> simp [hu]
      split
      · exact ht
      · simp [ht]
      · split <;> simp [ht]

include hm in
theorem execMmacTimeout_canon {ck : Nat} : Out.Canon (execMmacTimeout ck s) := by
  unfold execMmacTimeout
  dsimp only
  split <;> simp [hm]

@[simp] theorem State.handOver_mem (ck i : Nat) (c : Cmd) (from_ upTo : Nat) : (s.handOver ck i c from_ upTo).mem = s.mem := by
  simp [State.handOver]

@[simp] theorem State.epiEnd_mem (ck : Nat) (c : Cmd) (i : EpiIm) (ok : Bool) : (s.epiEnd ck c i ok).mem = s.mem := by
  simp [State.epiEnd]

@[simp] theorem State.epiLast_mem (ck : Nat) (c : Cmd) (i : EpiIm) : (s.epiLast ck c i).mem = s.mem := by simp [State.epiLast]

@[simp] theorem State.rowDone_mem (ck u : Nat) (i : EpiIm) (rows nan : Nat) : (s.rowDone ck u i rows nan).mem = s.mem := by
  simp only [State.rowDone]
  repeat' split
  all_goals simp

@[simp] theorem State.rowMerge_mem (g : Place) (acc : Tile) (m : Nat) : (s.rowMerge g acc m).mem = s.mem := by
  unfold State.rowMerge
  split
  · exact State.foldl_mem (fun _ _ => by simp) _ _
  · rfl

include hm in
theorem State.rowWrite_canon (ck : Nat) (c : Cmd) (i : EpiIm) (rows k nan : Nat) (l : List RowSpan) :
    (s.rowWrite ck c i rows k nan l).Canon := by
  unfold State.rowWrite
  grind [Eng.Canon, State.engWrite_canon, State.modMat_mem, State.rowDone_mem]

include hm in
theorem State.rowDraw_canon (ck : Nat) (c : Cmd) (i : EpiIm) (be : Word) (acc out : Tile) (p : EpiPar) (k : Nat) :
    (s.rowDraw ck c i be acc out p k).Canon := by
  unfold State.rowDraw
  grind [Eng.Canon, State.rowWrite_canon, State.rowMerge_mem, State.modMat_mem]

include hm in
theorem execEpilogueRowStep_canon {ck k : Nat} : Out.Canon (execEpilogueRowStep ck k s) := by
  unfold execEpilogueRowStep
  rw [Out.canon_next]
  split
  · exact hm
  next c _ =>
    split
    next w par be dst _ =>
      extract_lets i acc out t p isInt r
      have ht : Mem.wf t.mem = true := by simpa [t] using hm
      have hr : r.Canon := by
        unfold r
        split
        · split
          · exact ht
          · generalize hx : t.engRead ck c _ _ = x
            have hx : x.Canon := hx ▸ State.engRead_canon ht ..
            cases x with
            | ok u v => simpa using hx
            | wait u => exact hx
            | fail u a => exact hx
        · split
          · exact State.rowDraw_canon ht ..
          · exact State.rowWrite_canon ht ..
      split
      · exact hm
      · split
        · simp [hm]
        · split
          · simp [hm]
          · split
            · exact hm
            · cases hx : r with
              | fail u a =>
                rw [hx, Eng.canon_fail] at hr
                simp [hr]
              | wait u => rw [hx] at hr; exact hr
              | ok u v => rw [hx] at hr; exact hr
    · exact hm

include hm in
@[simp] theorem State.wf_mem_stopRow (ck : Nat) (c : Cmd) : Mem.wf (s.stopRow ck c).mem = true := by
  simp only [State.stopRow]
  split
  · split
    · simp only [State.rowDone_mem, State.modMat_mem]
      exact State.wf_mem_foldl (fun _ _ hs => State.wf_mem_sendOff hs ..) _ hm
    · exact hm
  · exact hm

/-! ### The instructions of the collective engine -/

@[simp] theorem State.setComm_mem (dk c : Nat) (x : Comm) : (s.setComm dk c x).mem = s.mem := by rfl

@[simp] theorem State.modComm_mem (dk c : Nat) (f : Comm → Comm) : (s.modComm dk c f).mem = s.mem := by rfl

include hm in
theorem State.acceptDie_canon (l : Lane) (k : CmdK) (rel coll bind : Bool) (h : Hint) {enter : State → Cmd → State}
    (he : ∀ s c, (enter s c).mem = s.mem) : (s.acceptDie l k rel coll bind h enter).Canon := by
  simp only [State.acceptDie]
  split
  · exact State.follow_canon hm ..
  · repeat' split
    all_goals simp [he, hm]

include hm in
theorem collBody_canon (op : Nat) (rel : Bool) (h : Hint) (l : Lane) : (collBody op rel h s l).Canon := by
  unfold collBody
  dsimp only
  split
  · trivial
  · split
    · trivial
    · exact State.acceptDie_canon hm _ _ _ _ _ _ fun _ _ => by split <;> simp

include hm in
theorem execEngq_canon {f : Frame} {h : Hint} {o : O2} : Out.Canon (execEngq f h o s) :=
  word_canon hm fun s l hs => by
    dsimp only
    split
    · trivial
    · split
      · trivial
      · exact State.acceptDie_canon hs _ _ _ _ _ _ fun _ _ => by simp

include hm in
theorem cwaitBody_canon (l : Lane) : (cwaitBody s l).Canon := by
  unfold cwaitBody
  grind [Res.Canon, State.follow_canon, State.pendNew_mem, State.deliverOut_mem]

@[simp] theorem State.cancelOp_mem (dk : Nat) (o : CollOp) : (s.cancelOp dk o).mem = s.mem := by simp [State.cancelOp]

include hm in
theorem ccancelBody_canon (l : Lane) : (ccancelBody s l).Canon := by
  unfold ccancelBody
  grind [Res.Canon, State.follow_canon, State.put_mem, State.pass_mem, State.cancelOp_mem]

@[simp] theorem State.armCmd_mem (l : Lane) : (s.armCmd l).2.mem = s.mem := by rfl

include hm in
theorem tarmBody_canon (n r : Nat) (l : Lane) : (tarmBody n r s l).Canon := by
  unfold tarmBody
  grind [Res.Canon, State.modTile_mem, State.armCmd_mem, State.handOver_mem]

include hm in
theorem execRoute_canon (f : Frame) (h : Hint) (o : S2) (wr : BitVec 5) : Out.Canon (execRoute f h o wr s) :=
  word_canon hm fun s l hs => by
    dsimp only
    split <;> simp [hs]

/-! ### The collective engine at work -/

@[simp] theorem State.modOp_mem (dk u : Nat) (f : CollOp → CollOp) : (s.modOp dk u f).mem = s.mem := by rfl

@[simp] theorem State.dropOp_mem (dk u : Nat) : (s.dropOp dk u).mem = s.mem := by rfl

@[simp] theorem State.overEnd_mem (c seq : Nat) (ring : List (Nat × Nat)) : (s.overEnd c seq ring).mem = s.mem := by
  unfold State.overEnd
  split
  · rfl
  · exact State.foldl_mem (fun _ _ => by rfl) _ _

include hm in
@[simp] theorem State.wf_mem_collEnd (dk : Nat) (o : CollOp) (status addr : Nat) :
    Mem.wf (s.collEnd dk o status addr).mem = true := by
  simp [State.collEnd, hm]

include hm in
@[simp] theorem State.wf_mem_endAll (dk c seq status : Nat) : Mem.wf (s.endAll dk c seq status).mem = true := by
  refine State.wf_mem_foldl (fun s m hs => ?_) _ hm
  dsimp only
  repeat' split
  all_goals simp [hs]

@[simp] theorem State.sendHalves_mem (m : Msg) (bytes : List Byte) (pres : BitVec 32) :
    (s.sendHalves m bytes pres).mem = s.mem := by
  simp [State.sendHalves]

@[simp] theorem State.answerChunk_mem (dk : Nat) (m : Msg) (kind : Nat) : (s.answerChunk dk m kind).mem = s.mem := by
  simp [State.answerChunk]

@[simp] theorem State.dupChunk_mem (dk : Nat) (m : Msg) (again : Bool) : (s.dupChunk dk m again).mem = s.mem := by
  simp [State.dupChunk]

include hm in
theorem State.pull_canon (ck : Nat) (c : Cmd) (a : EAd) (off n k : Nat) : (s.pull ck c a off n k).Canon := by
  unfold State.pull
  grind [Eng.Canon, State.engRead_canon, State.modCmd_mem]

include hm in
theorem State.push_canon (ck : Nat) (c : Cmd) (a : EAd) (off n v k : Nat) : (s.push ck c a off n v k).Canon := by
  unfold State.push
  grind [Eng.Canon, State.engWrite_canon, State.modCmd_mem]

include hm in
theorem State.ownChunk_canon (o : CollOp) (src : EAd) (off k : Nat) :
    (∀ t x, s.ownChunk o src off k = .ok (t, x) → Mem.wf t.mem = true) ∧
      ∀ e, s.ownChunk o src off k = .error e → e.Canon := by
  have hp := State.pull_canon hm o.cmd.ck o.cmd src off 4096 k
  unfold State.ownChunk
  split
  · simp [hm]
  · split
    next e => simpa [e] using hp
    next e => simp [hp]

include hm in
theorem State.stepDone_canon (dk : Nat) (o : CollOp) (x st k : Nat) (dst : EAd) (r : StepOut) :
    (s.stepDone dk o x st k dst r).Canon := by
  unfold State.stepDone
  grind [Eng.Canon, State.modOp_mem, State.push_canon]

include hm in
theorem State.ringStep_canon (dk : Nat) (o : CollOp) (x k ch : Nat) (inc : Option (List Byte × BitVec 32)) :
    (s.ringStep dk o x k ch inc).Canon := by
  unfold State.ringStep
  dsimp only
  split
  · split
    · exact State.stepDone_canon hm ..
    · exact hm
  · split
    next e => exact (State.ownChunk_canon hm ..).2 _ e
    next e =>
      have ht := (State.ownChunk_canon hm ..).1 _ _ e
      split <;> exact State.stepDone_canon ht ..

include hm in
theorem State.treeStep_canon (dk : Nat) (o : CollOp) (x k ch : Nat) (inc : Option (List Byte × BitVec 32)) :
    (s.treeStep dk o x k ch inc).Canon := by
  unfold State.treeStep
  split
  next i b c r _ =>
  extract_lets cm n p kids nt down up last comb
  have hcomb {t : State} (ht : Mem.wf t.mem = true) (l : List Byte × BitVec 32) : (comb t l).Canon := by
    unfold comb
    split
    · exact ht
    · exact State.stepDone_canon ht ..
  split
  · split
    · exact State.stepDone_canon hm ..
    · exact hm
  · split
    · split
      next e => exact (State.ownChunk_canon hm ..).2 _ e
      next e => exact State.stepDone_canon ((State.ownChunk_canon hm ..).1 _ _ e) ..
    · split
      · split
        next e => exact (State.ownChunk_canon hm ..).2 _ e
        next e => exact hcomb ((State.ownChunk_canon hm ..).1 _ _ e) _
      · split
        · split
          · exact hcomb hm _
          · exact hm
        · exact hm

include hm in
theorem State.collStep_canon (dk : Nat) (o : CollOp) (x k ch : Nat) (inc : Option (List Byte × BitVec 32)) :
    (s.collStep dk o x k ch inc).Canon := by
  unfold State.collStep
  grind [Eng.Canon, State.treeStep_canon, State.ringStep_canon]

include hm in
@[simp] theorem State.wf_mem_collFail (dk : Nat) (o : CollOp) (addr : Nat) : Mem.wf (s.collFail dk o addr).mem = true := by
  simp [State.collFail, hm]

@[simp] theorem State.dropBind_mem (dk u : Nat) : (s.dropBind dk u).mem = s.mem := by rfl

include hm in
@[simp] theorem State.wf_mem_bindFail (dk : Nat) (b : BindOp) (addr : Nat) : Mem.wf (s.bindFail dk b addr).mem = true := by
  refine State.wf_mem_foldl (fun s x hs => ?_) _ hm
  dsimp only
  repeat' split
  all_goals simp [hs]

include hm in
@[simp] theorem State.wf_mem_bindTry (dk : Nat) (b : BindOp) : Mem.wf (s.bindTry dk b).mem = true := by
  unfold State.bindTry
  split
  · exact hm
  · dsimp only
    split
    · exact State.wf_mem_bindFail hm ..
    · simp only [State.ite_mem, Mem.wf_ite, State.wf_mem_bindFail hm, hm, Bool.ite_eq_true_distrib, if_true_left]
      intros
      refine State.wf_mem_foldl (fun s x hs => ?_) _ hm
      split
      · exact hs
      · simp [hs]

include hm in
@[simp] theorem State.wf_mem_bindRead (dk k : Nat) (b : BindOp) : Mem.wf (s.bindRead dk k b).mem = true := by
  unfold State.bindRead
  grind [State.pull_canon, State.modDie_mem, State.wf_mem_bindFail, Eng.Canon]

include hm in
theorem execCollBindTimeout_canon {dk comm : Nat} : Out.Canon (execCollBindTimeout dk comm s) := by
  unfold execCollBindTimeout
  dsimp only
  split
  · exact (Out.canon_next _).2 hm
  · rw [Out.canon_next, State.ite_mem, Mem.wf_ite, State.wf_mem_bindFail hm, hm, ite_self]

include hm in
@[simp] theorem State.wf_mem_opTry (dk : Nat) (o : CollOp) : Mem.wf (s.opTry dk o).mem = true := by
  simp only [State.opTry]
  split <;> simp [hm]

@[simp] theorem State.makeTokens_mem (dk : Nat) (o : CollOp) : (s.makeTokens dk o).mem = s.mem := by simp [State.makeTokens]

include hm in
@[simp] theorem State.wf_mem_firstStep (dk k0 : Nat) (o : CollOp) : Mem.wf (s.firstStep dk k0 o).mem = true := by
  unfold State.firstStep
  grind [State.collStep_canon, State.wf_mem_collFail, Eng.Canon]

include hm in
@[simp] theorem State.wf_mem_opFinish (dk : Nat) (o : CollOp) : Mem.wf (s.opFinish dk o).mem = true := by
  simp [State.opFinish, hm]

include hm in
@[simp] theorem State.wf_mem_engqTry (dk k : Nat) (c : Cmd) : Mem.wf (s.engqTry dk k c).mem = true := by
  unfold State.engqTry
  grind [State.modDie_mem, State.push_canon, State.endCmd_mem, State.wf_mem_cmdFault, Eng.Canon]

include hm in
@[simp] theorem State.wf_mem_engineLocal (dk k : Nat) : Mem.wf (s.engineLocal dk k).mem = true := by
  have heach {f : State → CollOp → State} {ok : CollOp → Bool} (hf : ∀ s o, Mem.wf s.mem = true → Mem.wf (f s o).mem = true)
      {s : State} (l : List CollOp) (hs : Mem.wf s.mem = true) : Mem.wf (l.foldl (fun s o =>
        match s.collOp dk o.comm o.seq with
        | some o => if ok o then f s o else s
        | none => s) s).mem = true := by
    refine State.wf_mem_foldl (fun s o hs => ?_) _ hs
    split
    · split
      · exact hf _ _ hs
      · exact hs
    · exact hs
  have hbinds {f : State → BindOp → State} (hf : ∀ s b, Mem.wf s.mem = true → Mem.wf (f s b).mem = true) {s : State}
      (hs : Mem.wf s.mem = true) :
      Mem.wf ((List.range 16).foldl (fun s c => match s.bindAt dk c with | some b => f s b | none => s) s).mem = true := by
    refine State.wf_mem_foldl (fun s o hs => ?_) _ hs
    split
    · exact hf _ _ hs
    · exact hs
  unfold State.engineLocal
  refine State.wf_mem_foldl (fun _ _ hs => State.wf_mem_engqTry hs ..) _ ?_
  refine heach (fun _ _ hs => State.wf_mem_opFinish hs ..) _ ?_
  refine heach (fun _ _ hs => State.wf_mem_firstStep hs ..) _ ?_
  refine heach (fun _ _ hs => by simpa using hs) _ ?_
  refine heach (fun _ _ hs => State.wf_mem_opTry hs ..) _ ?_
  refine hbinds (fun _ _ hs => State.wf_mem_bindTry hs ..) ?_
  refine hbinds (fun _ _ hs => State.wf_mem_bindRead hs ..) ?_
  exact heach (fun _ _ hs => State.wf_mem_collEnd hs ..) _ hm

include hm in
theorem execCollMatchTimeout_canon {dk comm : Nat} : Out.Canon (execCollMatchTimeout dk comm s) := by
  unfold execCollMatchTimeout
  split <;> simp [hm]

@[simp] theorem State.modTrig_mem (dk u : Nat) (f : Trig → Trig) : (s.modTrig dk u f).mem = s.mem := by rfl

include hm in
@[simp] theorem State.wf_mem_trigFail (dk : Nat) (x : Trig) : Mem.wf (s.trigFail dk x).mem = true := by simp [State.trigFail, hm]

@[simp] theorem State.trigRetire_mem (dk ck tile n : Nat) : (s.trigRetire dk ck tile n).mem = s.mem := by
  induction n generalizing s with
  | zero => rfl
  | succ n ih =>
    unfold State.trigRetire
    dsimp only
    split
    · rfl
    · simp [ih]

@[simp] theorem State.trigAck_mem (dk : Nat) (x : Trig) : (s.trigAck dk x).mem = s.mem := by simp [State.trigAck]

@[simp] theorem State.sendItem_mem (dk c : Nat) (x : Item) : (s.sendItem dk c x).mem = s.mem := by
  simp only [State.sendItem]
  repeat' split
  all_goals simp

include hm in
@[simp] theorem State.wf_mem_trigCheck (dk : Nat) : Mem.wf (s.trigCheck dk).mem = true := by
  refine State.wf_mem_foldl (fun s x hs => ?_) _ hm
  dsimp only
  split <;> simp [hs]

include hm in
theorem execEngineArbitrate_canon (pkg port k : Nat) : Out.Canon (execEngineArbitrate pkg port k s) := by
  unfold execEngineArbitrate
  rw [Out.canon_next]
  extract_lets dks t ptr cand best
  have ht : Mem.wf t.mem = true :=
    State.wf_mem_foldl (fun _ _ hs => State.wf_mem_trigCheck (State.wf_mem_engineLocal hs ..) _) _ hm
  clear_value best cand t
  split
  · exact ht
  · split
    · exact ht
    · dsimp only
      split <;> simp [ht]

@[simp] theorem State.acceptChunk_mem (dk : Nat) (l : List Msg) : (s.acceptChunk dk l).mem = s.mem :=
  State.foldl_mem (fun _ _ => by simp) _ _

include hm in
theorem onChunk_canon {f : Nat → Msg → State} (hf : ∀ dk m, Mem.wf (f dk m).mem = true) {p j kind : Nat} :
    Out.Canon (onChunk p j kind s f) := by
  unfold onChunk
  rw [Out.canon_next]
  split
  · exact hm
  · split
    · exact hm
    · split
      · simp [hm]
      · exact hf ..

include hm in
theorem execChunkData_canon {pkg j k : Nat} : Out.Canon (execChunkData pkg j k s) :=
  onChunk_canon hm (fun dk m => by
    dsimp only
    split
    · simp [hm]
    · split
      · simp [hm]
      · split
        · simp [hm]
        · split
          · split <;> simp [hm]
          · split
            · exact hm
            · split
              · exact hm
              · generalize hx : s.collStep dk _ _ _ _ _ = x
                have hx : x.Canon := hx ▸ State.collStep_canon hm ..
                cases x with
                | wait u => exact hx
                | fail u a => rw [Eng.canon_fail] at hx; simp [hx]
                | ok u v => rw [Eng.canon_ok] at hx; simp [hx])

include hm in
theorem execBarrierToken_canon {pkg j : Nat} : Out.Canon (execBarrierToken pkg j s) :=
  onChunk_canon hm (fun dk m => by
    dsimp only
    repeat' split
    all_goals simp [hm])

include hm in
theorem execChunkAcknowledgement_canon {pkg j : Nat} : Out.Canon (execChunkAcknowledgement pkg j s) :=
  onChunk_canon hm (fun dk m => by
    dsimp only
    repeat' split
    all_goals simp [hm])

include hm in
theorem execChunkRefusal_canon {pkg j : Nat} : Out.Canon (execChunkRefusal pkg j s) :=
  onChunk_canon hm (fun dk m => by
    dsimp only
    repeat' split
    all_goals simp [hm])

include hm in
theorem State.putPart_canon (c : Cmd) (oper va : Nat) (data : List Byte) (x : Nat × Nat) : (s.putPart c oper va data x).Canon :=
    by
  unfold State.putPart
  grind [Eng.Canon, State.engWrite_canon, State.modCmd_mem, State.engRead_canon]

include hm in
theorem execChunkTriggered_canon {pkg j k : Nat} : Out.Canon (execChunkTriggered pkg j k s) := by
  refine onChunk_canon hm (fun dk m => ?_)
  split
  · simp [hm]
  · split
    · exact hm
    next m2 _ =>
      split
      next lo hi _ =>
      extract_lets cm drop refuse n data new t c left accept
      have hdrop {s : State} (hs : Mem.wf s.mem = true) : Mem.wf (drop s).mem = true := by simpa [drop] using hs
      have hrefuse {s : State} (hs : Mem.wf s.mem = true) : Mem.wf (refuse s).mem = true := by simp [refuse, hdrop hs]
      have haccept {s : State} (hs : Mem.wf s.mem = true) : Mem.wf (accept s).mem = true := by simp [accept, hdrop hs]
      have ht : Mem.wf t.mem = true := by
        unfold t
        split <;> simp [hm]
      split
      · exact hrefuse hm
      · split
        · split
          · exact haccept ht
          · exact ht
        · generalize hx : t.putPart _ _ _ _ _ = x
          have hx : x.Canon := hx ▸ State.putPart_canon ht ..
          cases x with
          | ok u v =>
            dsimp only
            split
            · exact haccept hx
            · exact hx
          | wait u => exact hx
          | fail u a => exact hrefuse hx

@[simp] theorem State.opAgain_mem (c : Nat) (ring : List (Nat × Nat)) (seq : Nat) (stood : List Nat) :
    (s.opAgain c ring seq stood).mem = s.mem := by
  refine State.foldl_mem (fun s m => ?_) _ _
  dsimp only
  repeat' split
  all_goals simp

@[simp] theorem State.reformTo_mem (dk c : Nat) (ring : List (Nat × Nat)) : (s.reformTo dk c ring).mem = s.mem := by
  simp only [State.reformTo, State.foldl_mem fun _ _ => State.opAgain_mem ..]
  exact State.foldl_mem (fun _ _ => by rfl) _ _

include hm in
theorem execRingReform_canon {dk comm : Nat} : Out.Canon (execRingReform dk comm s) := by
  unfold execRingReform
  rw [Out.canon_next]
  dsimp only
  split
  · exact hm
  · split
    · split <;> simp [hm]
    · split
      · simp [hm]
      · split
        · exact hm
        · split
          · simp [hm]
          · split <;> simp [hm]

@[simp] theorem State.sramLine_mem (line : Nat) : (s.sramLine line).mem = s.mem := by simp [State.sramLine]

@[simp] theorem State.putSpoiled_mem (dk : Nat) (c : Cmd) (line : Nat) : (s.putSpoiled dk c line).mem = s.mem := by
  unfold State.putSpoiled
  repeat' split
  all_goals simp

include hm in
theorem execCopyFailure_canon {ck u line : Nat} : Out.Canon (execCopyFailure ck u line s) := by
  unfold execCopyFailure
  rw [Out.canon_next]
  dsimp only
  have hs := State.sramLine_mem (s := s) line
  split
  · split
    · split <;> simp [hm]
    · exact hm
  · split
    · exact hm
    · split <;> simp [hm]
  · split <;> simp [hm]
  · split <;> simp [hm]
  · split
    · split <;> simp [hm]
    · simp [hm]
    · exact hm

include hm in
theorem execSramFixed_canon {ck u loc : Nat} : Out.Canon (execSramFixed ck u loc s) := by
  unfold execSramFixed
  dsimp only
  rw [Out.canon_next, State.ite_mem, State.sramError_mem, ite_self]
  exact hm

/-! ### Register access -/

@[simp] theorem State.setIx_mem (tk : Nat) (i : BitVec 3) (x : BitVec 30) : (s.setIx tk i x).mem = s.mem := by rfl

@[simp] theorem State.writeIx_mem (tk : Nat) (i : BitVec 3) (x : BitVec 30) : (s.writeIx tk i x).mem = s.mem := by rfl

include hm in
theorem execIxset_canon {f : Frame} {ix : BitVec 3} {a : Src} : Out.Canon (execIxset f ix a s) :=
  word_canon hm fun s l hs => by
    dsimp only
    split <;> simp [hs]

include hm in
theorem execIxadv_canon {f : Frame} {ix : BitVec 3} {a : Src} {ew : Width} : Out.Canon (execIxadv f ix a ew s) :=
  word_canon hm fun s l hs => by split <;> simp [hs]

include hm in
theorem execXacq_canon {f : Frame} : Out.Canon (execXacq f s) := word_canon hm fun s l hs => by split <;> simp [hs]

theorem untilClear_canon {m : BitVec 64} {body : State → Lane → Res} {l : Lane} (hb : (body s l).Canon) :
    (untilClear m body s l).Canon := by
  unfold untilClear
  dsimp only
  split
  · trivial
  · exact hb

include hm in
theorem execXrel_canon {f : Frame} : Out.Canon (execXrel f s) := word_canon hm fun s l hs => untilClear_canon (by simp [hs])

include hm in
theorem execShrmap_canon {f : Frame} {a : Src} : Out.Canon (execShrmap f a s) :=
  word_canon hm fun s l hs => by
    dsimp only
    split
    · trivial
    · split
      · trivial
      · exact untilClear_canon (by simp [hs])

include hm in
theorem execShrunmap_canon {f : Frame} : Out.Canon (execShrunmap f s) :=
  word_canon hm fun s l hs => by
    split
    · trivial
    · exact untilClear_canon (by simp [hs])

include hm in
theorem rdfeBody_canon (l : Lane) : (rdfeBody s l).Canon := by
  unfold rdfeBody
  grind [Res.Canon, State.follow_canon, State.pendAs_mem, State.feCheck_mem, State.setShReg_mem]

include hm in
theorem wrfeBody_canon (l : Lane) : (wrfeBody s l).Canon := by
  unfold wrfeBody
  grind [Res.Canon, State.pendNew_mem, State.feCheck_mem, State.setShReg_mem]

/-! ### Control registers, threads and contexts -/

@[simp] theorem State.holdFor_mem (l : Lane) (w : Option OpW) (v : Option Word) : (s.holdFor l w v).mem = s.mem := by
  simp [State.holdFor]

@[simp] theorem State.sysDone_mem (tk : Nat) (v : Word) : (s.sysDone tk v).mem = s.mem := by rfl

include hm in
theorem once_canon {act : State → Lane → Res} {l : Lane} {put : State → Word → State} (ha : (act s l).Canon)
    (hp : ∀ s v, (put s v).mem = s.mem) : (once act s l put).Canon := by
  unfold once
  dsimp only
  repeat' split
  · simp [hp, hm]
  · trivial
  · trivial
  · exact ha

include hm in
theorem sysBody_canon {chk : State → Lane → Option FI} {act : State → Lane → SysRes} {l : Lane} (ha : (act s l).Canon) :
    (sysBody chk act s l).Canon := by
  unfold sysBody
  split
  · trivial
  · refine once_canon hm ?_ fun _ _ => by simp
    dsimp only
    split
    next e => rw [e] at ha; simpa using ha
    next e => rw [e] at ha; simpa using ha
    · trivial
    · exact State.pathWait_canon hm ..
    · trivial

include hm in
theorem sysNow_canon {chk : State → Lane → Option FI} {act : State → Lane → State × Word} {l : Lane}
    (ha : Mem.wf (act s l).1.mem = true) : (sysNow chk act s l).Canon := by
  unfold sysNow
  split
  · trivial
  · exact once_canon hm (by simpa using ha) fun _ _ => by simp

@[simp] theorem State.ctlWrite_mem (tk : Nat) (c : Ctl1) (v : Word) : (s.ctlWrite tk c v).mem = s.mem := by simp [State.ctlWrite]

include hm in
theorem execSysrd_canon {f : Frame} {o : O1} : Out.Canon (execSysrd f o s) := word_canon hm fun _ _ hs => sysNow_canon hs hs

include hm in
theorem syswrBody_canon (l : Lane) : (syswrBody s l).Canon := by
  unfold syswrBody
  grind [Res.Canon, State.ctlWrite_mem]

include hm in
theorem execFeatrd_canon {f : Frame} {o : O1} : Out.Canon (execFeatrd f o s) := word_canon hm fun _ _ hs => sysNow_canon hs hs

include hm in
theorem execXret_canon {f : Frame} {a : Src} : Out.Canon (execXret f a s) :=
  word_canon hm fun s l hs => by
    dsimp only
    split
    · trivial
    · split
      · simp [hs]
      · split <;> simp [hs]

theorem State.unitPlaces_mem {tk a : Nat} {need : Need} {n : Nat} {x : List Nat} {t : State}
    (e : s.unitPlaces tk a need n = .ok (x, t)) : t.mem = s.mem := by
  induction n generalizing s a x t with
  | zero => grind [State.unitPlaces]
  | succ n ih =>
    unfold State.unitPlaces at e
    grind [State.xlAt_mem]

theorem placeFail_canon (f : FI) : (placeFail f).Canon := by
  unfold placeFail
  split <;> trivial

include hm in
theorem State.putImage_canon (l : Lane) (a : Word) (bytes : List Byte) (v : Word) : (s.putImage l a bytes v).Canon := by
  unfold State.putImage
  split
  · trivial
  · split
    · exact placeFail_canon _
    next e => exact State.wf_mem_foldl (fun _ _ hs => by simp [hs, State.wf_mem_writeBytes]) _ (State.unitPlaces_mem e ▸ hm)

include hm in
theorem State.getImage_canon (l : Lane) (a : Word) (n : Nat) {k : State → List Byte → SysRes}
    (hk : ∀ s b, Mem.wf s.mem = true → (k s b).Canon) : (s.getImage l a n k).Canon := by
  unfold State.getImage
  split
  · trivial
  · split
    · exact placeFail_canon _
    next e => exact hk _ _ (State.wf_mem_foldl (fun _ _ hs => State.wf_mem_settle hs ..) _ (State.unitPlaces_mem e ▸ hm))

include hm in
theorem onThread_canon {k : State → Lane → Nat → SysRes} (l : Lane) (hk : ∀ tk, (k s l tk).Canon) : (onThread k s l).Canon := by
  unfold onThread
  dsimp only
  repeat' split
  · exact hm
  · exact hm
  · exact hk _

include hm in
theorem onStopped_canon {k : State → Lane → Nat → SysRes} (l : Lane) (hk : ∀ tk, (k s l tk).Canon) : (onStopped k s l).Canon := by
  refine onThread_canon hm l fun tk => ?_
  split
  · exact hm
  · exact hk _

/-- Changing threads one after another leaves memory as it is. -/
theorem State.copies_mem (ks : List Nat) (f : Thread → Thread) : (ks.foldl (fun s k => s.modThr k f) s).mem = s.mem :=
  State.foldl_modThr_mem (fun _ k => k) (fun _ _ => f) ks s

include hm in
theorem execThrctlResume_canon {f : Frame} {o : O2} : Out.Canon (execThrctlResume f o s) :=
  word_canon hm fun s l hs => sysBody_canon hs (onStopped_canon hs l fun tk => by
    rw [SysRes.canon_done, State.copies_mem]
    exact hs)

include hm in
theorem execThrctlRedirect_canon {f : Frame} {o : O2} : Out.Canon (execThrctlRedirect f o s) :=
  word_canon hm fun s l hs => sysBody_canon hs (onStopped_canon hs l fun tk => by
    rw [SysRes.canon_done, State.copies_mem]
    exact hs)

include hm in
theorem execThrctlKill_canon {f : Frame} {o : O2} : Out.Canon (execThrctlKill f o s) :=
  word_canon hm fun s l hs => sysBody_canon hs (onThread_canon hs l fun tk =>
    State.wf_mem_foldl (fun _ _ hs => State.wf_mem_killCheck hs ..) _ (by rw [State.copies_mem]; exact hs))

include hm in
theorem execThrctlStop_canon {f : Frame} {o : O2} : Out.Canon (execThrctlStop f o s) :=
  word_canon hm fun s l hs => sysBody_canon hs (onThread_canon hs l fun tk => by
    dsimp only
    split
    · exact hs
    · rw [SysRes.canon_done, State.copies_mem]
      exact hs)

include hm in
theorem execThrctlGetst_canon {f : Frame} {o : O2} : Out.Canon (execThrctlGetst f o s) :=
  word_canon hm fun _ l hs => sysBody_canon hs (onStopped_canon hs l fun _ => State.putImage_canon hs ..)

@[simp] theorem State.loadMark_mem (tk k : Nat) (was : Option Nat) (marked : Bool) :
    (s.loadMark tk k was marked).mem = s.mem := by
  simp [State.loadMark]

@[simp] theorem State.loadImage_mem (tk : Nat) (b : List Byte) : (s.loadImage tk b).mem = s.mem := by
  unfold State.loadImage
  dsimp only [State.modThr_mem]
  rw [State.foldl_mem, State.foldl_mem]
  · simp
  · intro s n
    split <;> simp

include hm in
theorem execThrctlSetst_canon {f : Frame} {o : O2} : Out.Canon (execThrctlSetst f o s) :=
  word_canon hm fun s l hs => sysBody_canon hs (onStopped_canon hs l fun tk => State.getImage_canon hs _ _ _ fun s b hs => by
    split
    · trivial
    · rw [SysRes.canon_done, State.foldl_mem fun _ _ => State.loadImage_mem ..]
      exact hs)

include hm in
theorem execBarsave_canon {f : Frame} {o : O2} : Out.Canon (execBarsave f o s) :=
  word_canon hm fun s l hs => sysBody_canon hs (by
    dsimp only
    split
    · exact hs
    · exact State.putImage_canon hs ..)

@[simp] theorem State.restoreBar_mem (ck b : Nat) (v : Bar) : (s.restoreBar ck b v).mem = s.mem := State.foldl_modThr_mem ..

include hm in
theorem execBarrest_canon {f : Frame} {o : O2} : Out.Canon (execBarrest f o s) :=
  word_canon hm fun s l hs => sysBody_canon hs (by
    dsimp only
    split
    · exact hs
    · refine State.getImage_canon hs _ _ _ fun s b hs => ?_
      rw [SysRes.canon_done, State.foldl_mem fun _ _ => State.restoreBar_mem ..]
      exact hs)

@[simp] theorem State.tlbDrop_mem (sc : Scope) (ck : Nat) (a b : Word) : (s.tlbDrop sc ck a b).mem = s.mem := by rfl

include hm in
theorem execTlbinv_canon {f : Frame} {sc : Scope} {o : S2} : Out.Canon (execTlbinv f sc o s) :=
  word_canon hm fun s l hs => sysBody_canon hs (by simp [hs])

include hm in
theorem execMapset_canon {f : Frame} {o : O2} : Out.Canon (execMapset f o s) :=
  word_canon hm fun s l hs => sysBody_canon hs (by
    dsimp only
    repeat' split
    all_goals simp [hs])

include hm in
theorem execSelftest_canon {f : Frame} {o : O1} : Out.Canon (execSelftest f o s) :=
  word_canon hm fun s l hs => sysBody_canon hs (by
    dsimp only
    repeat' split
    all_goals simp [hs])

include hm in
theorem execErrrd_canon {f : Frame} {o : O2} : Out.Canon (execErrrd f o s) :=
  word_canon hm fun s l hs => sysBody_canon hs (by
    dsimp only
    split
    · exact hs
    · split
      · exact hs
      · exact State.putImage_canon hs ..)

@[simp] theorem State.clearCtx_mem (p c : Nat) (x : Ctx) : (s.clearCtx p c x).mem = s.mem := by rfl

include hm in
theorem onCtx_canon {k : State → Lane → Nat → Ctx → SysRes} (l : Lane) (hk : ∀ c x, (k s l c x).Canon) : (onCtx k s l).Canon := by
  unfold onCtx
  dsimp only
  split
  · exact hm
  · split
    · exact hm
    · exact hk _ _

include hm in
theorem execCtxswCreate_canon {f : Frame} {o : O2} : Out.Canon (execCtxswCreate f o s) :=
  word_canon hm fun s l hs => sysBody_canon hs (by
    dsimp only
    repeat' split
    all_goals simp [hs])

@[simp] theorem State.dropHeld_mem (p c : Nat) : (s.dropHeld p c).mem = s.mem := by simp [State.dropHeld]

include hm in
theorem execCtxswDestroy_canon {f : Frame} {o : O2} : Out.Canon (execCtxswDestroy f o s) :=
  word_canon hm fun s l hs => sysBody_canon hs (onCtx_canon hs l fun c x => by
    dsimp only
    split
    · exact hs
    · simp [hs])

include hm in
theorem execCtxswPreempt_canon {f : Frame} {o : O2} : Out.Canon (execCtxswPreempt f o s) :=
  word_canon hm fun s l hs => sysBody_canon hs (onCtx_canon hs l fun c x => by
    dsimp only
    split
    · exact hs
    · simp [hs])

@[simp] theorem State.rename_mem (a b : Nat) : (s.rename a b).mem = s.mem := by
  simp only [State.rename]
  split <;> simp

@[simp] theorem State.rekey_mem (a b : Nat) : (s.rekey a b).mem = s.mem := by simp [State.rekey]

include hm in
@[simp] theorem State.wf_mem_rearm (tk : Nat) : Mem.wf (s.rearm tk).mem = true := by
  refine State.wf_mem_foldl (fun s q hs => ?_) _ hm
  dsimp only [State.fresh]
  split
  case h_3 | h_4 => split <;> simp [hs]
  all_goals simp [hs]

include hm in
@[simp] theorem State.wf_mem_restoreThread (key : Nat) : Mem.wf (s.restoreThread key).mem = true := by
  simp [State.restoreThread, hm]

include hm in
@[simp] theorem State.wf_mem_resumeDie (p c d : Nat) : Mem.wf (s.resumeDie p c d).mem = true := by
  simp only [State.resumeDie, State.modDie_mem]
  exact State.wf_mem_foldl (fun _ _ hs => State.wf_mem_restoreThread hs ..) _ hm

include hm in
theorem execCtxswResume_canon {f : Frame} {o : O2} : Out.Canon (execCtxswResume f o s) :=
  word_canon hm fun s l hs => sysBody_canon hs (onCtx_canon hs l fun c x => by
    dsimp only
    split
    · exact hs
    · split
      · exact hs
      · exact State.wf_mem_foldl (fun _ _ hs => State.wf_mem_resumeDie hs ..) _ hs)

/-! ### The protection of memory lines -/

@[simp] theorem State.countFixed_mem (p line : Nat) : (s.countFixed p line).mem = s.mem := by simp [State.countFixed]

@[simp] theorem State.countLost_mem (p line : Nat) : (s.countLost p line).mem = s.mem := by rfl

@[simp] theorem State.chkHold_mem (line : Nat) : (s.chkHold line).mem = s.mem := by rfl

@[simp] theorem State.correctLine_mem (line : Nat) : (s.correctLine line).mem = s.mem := by simp [State.correctLine]

include hm in
@[simp] theorem State.wf_mem_spoilLine (line : Nat) : Mem.wf (s.spoilLine line).mem = true :=
  State.wf_mem_foldl (fun _ _ hs => State.wf_mem_write hs ..) _ hm

include hm in
@[simp] theorem State.wf_mem_chkRecompute (line : Nat) : Mem.wf (s.chkRecompute line).mem = true := by
  unfold State.chkRecompute
  dsimp only
  rw [State.errRecord_mem]
  exact State.wf_mem_foldl (fun s y hs => by rw [State.modDir_mem]; exact State.wf_mem_spoilLine hs y) _ hm

/-! ### The home of a line -/

@[simp] theorem State.modTx_mem (line : Nat) (f : Tx → Tx) : (s.modTx line f).mem = s.mem := by rfl

@[simp] theorem State.homeMsg_mem (ty : MsgTy) (line req : Nat) (home : Bool) (q : Nat) :
    (s.homeMsg ty line req home q).mem = s.mem := by
  simp [State.homeMsg]

@[simp] theorem State.homeSend_mem (ty : MsgTy) (line req : Nat) (home : Bool) (l : List Nat) :
    (s.homeSend ty line req home l).mem = s.mem := by
  simp [State.homeSend]

@[simp] theorem State.homeNext_mem (h q : Nat) : (s.homeNext h q).mem = s.mem := by
  simp only [State.homeNext]
  split <;> simp

@[simp] theorem State.sendAck_mem (src dst line role status txid bind : Nat) :
    (s.sendAck src dst line role status txid bind).mem = s.mem := by
  simp [State.sendAck]

@[simp] theorem State.sendData_mem (src dst line grant : Nat) (psn : Bool) (txid : Nat) :
    (s.sendData src dst line grant psn txid).mem = s.mem := by
  simp [State.sendData]

@[simp] theorem State.enqueue_mem (m : Msg) (front : Bool) : (s.enqueue m front).mem = s.mem := by rfl

@[simp] theorem State.granted_mem (m : Msg) : (s.granted m).mem = s.mem := by rfl

@[simp] theorem State.setHolder_mem (line : Nat) (st : DirSt) (owner : Nat) (cells : BitVec 16) (bind : Option Bind) :
    (s.setHolder line st owner cells bind).mem = s.mem := by
  rfl

@[simp] theorem State.holdReq_mem (m : Msg) : (s.holdReq m).mem = s.mem := by rfl

@[simp] theorem State.fromMemory_mem (m : Msg) : (s.fromMemory m).mem = s.mem := by
  unfold State.fromMemory
  split <;> simp

@[simp] theorem State.answerReq_mem (m : Msg) (t : Tx) : (s.answerReq m t).mem = s.mem := by
  simp only [State.answerReq]
  split <;> simp

include hm in
@[simp] theorem State.wf_mem_losePoison (line : Nat) : Mem.wf (s.losePoison line).mem = true := by
  simp [State.losePoison, hm, State.wf_mem_writeBytes]

@[simp] theorem State.poisonHome_mem (line : Nat) : (s.poisonHome line).mem = s.mem := by rfl

include hm in
@[simp] theorem State.wf_mem_repairEnd (line : Nat) (t : Tx) : Mem.wf (s.repairEnd line t).mem = true := by
  unfold State.repairEnd
  dsimp only
  rw [State.errRecord_mem, State.chkHold_mem, State.countLost_mem, State.modDir_mem]
  split
  · rw [State.setHolder_mem]; exact hm
  · rw [State.poisonHome_mem]; exact State.wf_mem_spoilLine hm _

@[simp] theorem State.recallEnd_mem (line : Nat) : (s.recallEnd line).mem = s.mem := by rfl

@[simp] theorem State.recalled_mem (line : Nat) : (s.recalled line).mem = s.mem := by simp [State.recalled]

include hm in
@[simp] theorem State.wf_mem_endFwd (line : Nat) : Mem.wf (s.endFwd line).mem = true := by
  unfold State.endFwd
  repeat' split
  all_goals simp [hm]

include hm in
@[simp] theorem State.wf_mem_wideSend (line n : Nat) : Mem.wf (s.wideSend line n).mem = true := by simp [State.wideSend, hm]

include hm in
@[simp] theorem State.wf_mem_afterFwd (line : Nat) : Mem.wf (s.afterFwd line).mem = true := by
  unfold State.afterFwd
  split <;> simp [hm]

include hm in
@[simp] theorem State.wf_mem_sendFwd (line : Nat) (k : TxK) : Mem.wf (s.sendFwd line k).mem = true := by
  simp only [State.sendFwd]
  split <;> simp [hm]

include hm in
@[simp] theorem State.wf_mem_afterInv (line : Nat) : Mem.wf (s.afterInv line).mem = true := by
  unfold State.afterInv
  repeat' split
  all_goals simp [hm]

include hm in
@[simp] theorem State.wf_mem_beginTx (line : Nat) (k : TxK) (wide : Bool) : Mem.wf (s.beginTx line k wide).mem = true := by
  simp [State.beginTx, hm]

include hm in
@[simp] theorem State.wf_mem_walkLine (line : Nat) : Mem.wf (s.walkLine line).mem = true := by
  simp only [State.walkLine]
  split <;> simp [hm]

include hm in
@[simp] theorem State.wf_mem_recallLine (line : Nat) : Mem.wf (s.recallLine line).mem = true := by simp [State.recallLine, hm]

@[simp] theorem State.walkEnds_mem (h : Nat) : (s.walkEnds h).mem = s.mem := by simp [State.walkEnds]

@[simp] theorem State.hostAgain_mem (p : Nat) : (s.hostAgain p).mem = s.mem := by simp [State.hostAgain]

include hm in
@[simp] theorem State.wf_mem_lineFree (line : Nat) : Mem.wf (s.lineFree line).mem = true := by simp [State.lineFree, hm]

include hm in
@[simp] theorem State.wf_mem_closeTx (line : Nat) : Mem.wf (s.closeTx line).mem = true := by simp [State.closeTx, hm]

include hm in
@[simp] theorem State.wf_mem_advance (line : Nat) : Mem.wf (s.advance line).mem = true := by
  simp only [State.advance]
  repeat' split
  all_goals simp [hm]

include hm in
@[simp] theorem State.wf_mem_openTx (line : Nat) (k : TxK) (wide : Bool) : Mem.wf (s.openTx line k wide).mem = true := by
  simp only [State.openTx]
  split <;> simp [hm]

include hm in
@[simp] theorem State.wf_mem_takePartial (m : Msg) : Mem.wf (s.takePartial m).mem = true := by
  unfold State.takePartial
  split <;> simp [hm]

@[simp] theorem State.takeLine_mem (m : Msg) : (s.takeLine m).mem = s.mem := by rfl

include hm in
@[simp] theorem State.wf_mem_servePut (m : Msg) : Mem.wf (s.servePut m).mem = true := by simp [State.servePut, hm]

@[simp] theorem State.takePoison_mem (m : Msg) : (s.takePoison m).mem = s.mem := by simp [State.takePoison]

include hm in
@[simp] theorem State.wf_mem_serveNow (m : Msg) : Mem.wf (s.serveNow m).mem = true := by
  simp only [State.serveNow]
  repeat' split
  all_goals simp [hm]

@[simp] theorem State.dirLeave_mem (line : Nat) : (s.dirLeave line).mem = s.mem := by rfl

include hm in
@[simp] theorem State.wf_mem_dirEnter (line : Nat) : Mem.wf (s.dirEnter line).mem = true := by
  simp only [State.dirEnter]
  repeat' split
  all_goals simp [hm]

include hm in
@[simp] theorem State.wf_mem_repairLine (line : Nat) (m : Option Msg) (cached : Bool) :
    Mem.wf (s.repairLine line m cached).mem = true := by
  simp [State.repairLine, hm]

include hm in
@[simp] theorem State.wf_mem_homeSpoil (line : Nat) : Mem.wf (s.homeSpoil line).mem = true := by simp [State.homeSpoil, hm]

include hm in
@[simp] theorem State.wf_mem_serve (m : Msg) (again : Bool) : Mem.wf (s.serve m again).mem = true := by simp [State.serve, hm]

@[simp] theorem State.homeTag_mem (m : Msg) : (s.homeTag m).mem = s.mem := by simp [State.homeTag]

@[simp] theorem State.homeClean_mem (m : Msg) : (s.homeClean m).mem = s.mem := by simp [State.homeClean]

include hm in
theorem onRequest_canon {ty : MsgTy} {p j : Nat} : Out.Canon (onRequest ty p j s) := by
  unfold onRequest
  rw [Out.canon_next]
  split
  · exact hm
  · split <;> simp [hm]

include hm in
theorem execHomeDequeueRequest_canon {line : Nat} : Out.Canon (execHomeDequeueRequest line s) := by
  unfold execHomeDequeueRequest
  rw [Out.canon_next]
  dsimp only
  split
  · exact hm
  · split <;> simp [hm]

/-! ### What an agent answers -/

include hm in
@[simp] theorem State.wf_mem_failSents (p u line : Nat) : Mem.wf (s.failSents p u line).mem = true := by
  refine State.wf_mem_foldl (fun s e hs => ?_) _ hm
  split
  · exact hs
  · exact State.wf_mem_foldl (fun _ _ hs => State.wf_mem_failSent hs ..) _ hs

include hm in
@[simp] theorem State.wf_mem_failCmd (p u line : Nat) : Mem.wf (s.failCmd p u line).mem = true := by
  have hs := State.wf_mem_failSents hm p u line
  unfold State.failCmd
  dsimp only
  split
  · split
    · split <;> simp [hs]
    · split <;> simp [hs]
    · exact hs
  · refine State.wf_mem_foldl (fun s i hs => ?_) _ hs
    repeat' split
    all_goals simp [hs, State.wf_mem_collFail hs]

@[simp] theorem State.failChunk_mem (p u : Nat) : (s.failChunk p u).mem = s.mem := by
  unfold State.failChunk
  repeat' split
  all_goals simp

include hm in
@[simp] theorem State.wf_mem_failName (p u code line : Nat) : Mem.wf (s.failName p u code line).mem = true := by
  unfold State.failName
  repeat' split
  all_goals simp [hm]

@[simp] theorem State.verdict_mem (p u : Nat) (good : Bool) : (s.verdict p u good).mem = s.mem := by rfl

@[simp] theorem State.lineToHome_mem (p line : Nat) (psn : Bool) (part : Option Part) :
    (s.lineToHome p line psn part).mem = s.mem := by
  simp [State.lineToHome]

@[simp] theorem State.giveUp_mem (p line : Nat) (a : ALine) : (s.giveUp p line a).mem = s.mem := by rfl

include hm in
theorem onHome_canon {f : State → Msg → ALine → State} (hf : ∀ s m a, Mem.wf s.mem = true → Mem.wf (f s m a).mem = true)
    {ty : MsgTy} {p j : Nat} : Out.Canon (onHome ty p j s f) := by
  unfold onHome
  rw [Out.canon_next]
  split
  · exact hm
  · split
    · simp [hm]
    · split
      · exact hm
      · exact hf _ _ _ (by simp [hm])

include hm in
theorem execInv_canon {pkg j : Nat} : Out.Canon (execInv pkg j s) := onHome_canon hm fun s m a hs => by split <;> simp [hs]

include hm in
theorem execFwdgets_canon {pkg j : Nat} : Out.Canon (execFwdgets pkg j s) :=
  onHome_canon hm fun s m a hs => by
    dsimp only
    split
    case h_4 => simp [hs]
    all_goals split <;> simp [hs]

include hm in
theorem execFwdgetm_canon {pkg j : Nat} : Out.Canon (execFwdgetm pkg j s) :=
  onHome_canon hm fun s m a hs => by
    dsimp only
    split
    case h_4 => simp [hs]
    all_goals split <;> simp [hs]

include hm in
theorem execCollect_canon {pkg j : Nat} : Out.Canon (execCollect pkg j s) :=
  onHome_canon hm fun s m a hs => by split <;> simp [hs]

include hm in
@[simp] theorem State.wf_mem_answered (line q : Nat) (f : Tx → Tx) : Mem.wf (s.answered line q f).mem = true := by
  simp [State.answered, hm]

include hm in
@[simp] theorem State.wf_mem_endFor (line q : Nat) : Mem.wf (s.endFor line q).mem = true := by
  unfold State.endFor
  repeat' split
  all_goals simp [hm]

@[simp] theorem State.requestEnds_mem (p line : Nat) : (s.requestEnds p line).mem = s.mem := by
  simp only [State.requestEnds]
  split <;> simp

@[simp] theorem State.prefDone_mem (p line : Nat) : (s.prefDone p line).mem = s.mem := by simp [State.prefDone]

@[simp] theorem State.askPref_mem (p line : Nat) : (s.askPref p line).mem = s.mem := by simp [State.askPref]

@[simp] theorem State.lateAnswer_mem (p u : Nat) : (s.lateAnswer p u).mem = s.mem := by simp [State.lateAnswer]

@[simp] theorem State.putEnds_mem (p line : Nat) : (s.putEnds p line).mem = s.mem := by
  simp only [State.putEnds]
  split <;> simp

include hm in
@[simp] theorem State.wf_mem_flushEnds (p line : Nat) : Mem.wf (s.flushEnds p line).mem = true := by
  simp only [State.flushEnds]
  repeat' split
  all_goals simp [hm]

include hm in
@[simp] theorem State.wf_mem_takeAck (p : Nat) (m : Msg) : Mem.wf (s.takeAck p m).mem = true := by
  unfold State.takeAck
  repeat' split
  all_goals simp [hm]

include hm in
theorem execAck_canon {pkg j : Nat} : Out.Canon (execAck pkg j s) := by
  unfold execAck
  rw [Out.canon_next]
  split
  · exact hm
  · split <;> simp [hm]

include hm in
@[simp] theorem State.wf_mem_dataHome (m : Msg) : Mem.wf (s.dataHome m).mem = true := by
  unfold State.dataHome
  repeat' split
  all_goals simp [hm]

@[simp] theorem State.install_mem (p : Nat) (m : Msg) (unver : Option Nat) : (s.install p m unver).mem = s.mem := by
  simp [State.install]

@[simp] theorem State.abandon_mem (p : Nat) (m : Msg) : (s.abandon p m).mem = s.mem := by
  unfold State.abandon
  split <;> simp

@[simp] theorem State.dataGrant_mem (p : Nat) (m : Msg) : (s.dataGrant p m).mem = s.mem := by simp [State.dataGrant]

include hm in
theorem execData_canon {pkg j : Nat} : Out.Canon (execData pkg j s) := by
  unfold execData
  rw [Out.canon_next]
  split
  · exact hm
  · split <;> simp [hm]

include hm in
theorem execNakfirewall_canon {pkg j : Nat} : Out.Canon (execNakfirewall pkg j s) :=
  onHome_canon hm fun s m a hs => by split <;> simp [hs]

include hm in
theorem execErrsynth_canon {pkg j : Nat} : Out.Canon (execErrsynth pkg j s) :=
  onHome_canon hm fun s m a hs => by
    dsimp only
    split <;> split <;> simp [hs]

/-! ### Conversions and block scales -/

include hm in
theorem convert_canon {f : Frame} {o : O2} {src dst part : Nat} {op : BitVec 32 → RV → Nat → Nat} :
    Out.Canon (convert f o src dst part op s) :=
  word_canon hm fun s l hs => by simp [hs]

include hm in
theorem execCvt_canon {f : Frame} {fmt : BitVec 4} {o : O2} {cc src : BitVec 4} {part : BitVec 3} :
    Out.Canon (execCvt f fmt o cc src part s) :=
  convert_canon hm

include hm in
theorem execCvts_canon {f : Frame} {fmt : BitVec 4} {o : O2} {cc src : BitVec 4} {part : BitVec 3} :
    Out.Canon (execCvts f fmt o cc src part s) :=
  convert_canon hm

include hm in
theorem execCvti_canon {f : Frame} {fmt : BitVec 4} {o : O2} {cc src : BitVec 4} {part : BitVec 3} :
    Out.Canon (execCvti f fmt o cc src part s) :=
  convert_canon hm

include hm in
theorem execCvtf_canon {f : Frame} {fmt : BitVec 4} {o : O2} {cc src : BitVec 4} {part : BitVec 3} :
    Out.Canon (execCvtf f fmt o cc src part s) :=
  convert_canon hm

include hm in
theorem packBlock_canon {f : Frame} {code feat : Nat} {o : O2} {part : BitVec 3} {wide : BitVec 2} {sel : BitVec 3} :
    Out.Canon (packBlock f code feat o part wide sel s) :=
  word_canon hm fun s l hs => by
    dsimp only
    split
    · trivial
    next n ind _ =>
      split
      · trivial
      · rw [Res.canon_ok]
        repeat' split
        all_goals simp [hs]

include hm in
theorem unpackBlock_canon {f : Frame} {code feat : Nat} {o : O2} {part : BitVec 3} {wide : BitVec 2} {sel : BitVec 3} :
    Out.Canon (unpackBlock f code feat o part wide sel s) :=
  word_canon hm fun s l hs => by simp [hs]

include hm in
theorem execCmode_canon {f : Frame} {o : O2} : Out.Canon (execCmode f o s) :=
  word_canon hm fun s l hs => by
    dsimp only
    split <;> simp [hs]

/-! ### Control instructions -/

@[simp] theorem State.jumpTo_mem (tk : Nat) (t : Word) : (s.jumpTo tk t).mem = s.mem := by rfl

include hm in
theorem execBrx_canon {f : Frame} {a : Src} : Out.Canon (execBrx f a s) :=
  word_canon hm fun s l hs => by
    dsimp only
    split <;> simp [hs]

include hm in
theorem execLoop_canon {f : Frame} {d : Dst} {off : BitVec 28} : Out.Canon (execLoop f d off s) :=
  word_canon hm fun s l hs => by
    dsimp only
    split <;> simp [hs]

include hm in
theorem State.spillBottom_canon (l : Lane) : (s.spillBottom l).Canon := by
  unfold State.spillBottom
  grind [Res.Canon, State.globParts_mem, State.addStore_canon, State.modThr_mem]

include hm in
theorem callBody_canon (t : Word) (l : Lane) : (callBody t s l).Canon := by
  unfold callBody
  grind [Res.Canon, State.modThr_mem, State.spillBottom_canon]

include hm in
theorem retTo_canon (t : Word) (spill : Nat) (stack : List Word) (l : Lane) : (retTo t spill stack s l).Canon := by
  unfold retTo
  grind [Res.Canon, State.modThr_mem]

@[simp] theorem State.retLoad_mem (l : Lane) (ps : List Piece) : (s.retLoad l ps).mem = s.mem := by simp [State.retLoad]

include hm in
theorem retBody_canon (l : Lane) : (retBody s l).Canon := by
  unfold retBody
  grind [Res.Canon, retTo_canon, State.modThr_mem, State.globParts_mem, State.retLoad_mem]

include hm in
theorem exitBody_canon (l : Lane) : (exitBody s l).Canon := by
  unfold exitBody
  grind [Res.Canon, State.modThr_mem, State.wf_mem_endThread, State.dropMember_mem]

include hm in
theorem waitaBody_canon (l : Lane) : (waitaBody s l).Canon := by
  unfold waitaBody
  grind [Res.Canon, State.globParts_mem, State.follow_canon, State.pendNew_mem, State.modThr_mem]

/-! ### Groups, masks and exchanges -/

theorem inGroup_canon {l : Lane} {k : Nat → Nat → Grp → Res} (hk : ∀ e r g, (k e r g).Canon) : (inGroup s l k).Canon := by
  unfold inGroup
  split
  · trivial
  · split
    · trivial
    · exact hk ..

@[simp] theorem State.enterGroup_mem (tk e : Nat) (g : Grp) : (s.enterGroup tk e g).mem = s.mem := by rfl

include hm in
theorem joinBody_canon (l : Lane) : (joinBody s l).Canon := by
  unfold joinBody
  grind [Res.Canon, State.put_mem, State.enterGroup_mem, State.modCore_mem]

include hm in
theorem gwaitBody_canon (k : Nat) (l : Lane) : (gwaitBody k s l).Canon := by
  unfold gwaitBody
  grind [Res.Canon, inGroup_canon, State.setGrp_mem, State.gwaitCheck_mem, State.atEnd_mem]

@[simp] theorem State.setMask_mem (l : Lane) (e k : Nat) (g : Grp) (v : Word) : (s.setMask l e k g v).mem = s.mem := by rfl

include hm in
theorem gvoteBody_canon (k : Nat) (pe : PredN) (l : Lane) : (gvoteBody k pe s l).Canon := by
  unfold gvoteBody
  grind [Res.Canon, inGroup_canon, State.setMask_mem]

include hm in
theorem execMskop_canon {f : Frame} {op : MskOp} {md ma mb : BitVec 4} : Out.Canon (execMskop f op md ma mb s) :=
  word_canon hm fun s l hs => inGroup_canon fun e r g => by simp [hs]

include hm in
theorem execMskmov_canon {f : Frame} {o : O1} {mk : BitVec 4} {dir : Bool} : Out.Canon (execMskmov f o mk dir s) := by
  unfold execMskmov
  split
  · exact word_canon hm fun s l hs => inGroup_canon fun e r g => by simp [hs]
  · exact word_canon hm fun s l hs => inGroup_canon fun e r g => by simp [hs]

include hm in
theorem arrive_canon (i : Instr) (mk : Nat) (present : Bool) (l : Lane) : (arrive i mk present s l).Canon := by
  unfold arrive
  grind [Res.Canon, inGroup_canon, State.pendNew_mem, State.wf_mem_exchangeCheck, State.modThr_mem]

include hm in
theorem exchange_canon {i : Instr} {f : Frame} {u : Use} {mk : BitVec 4} : Out.Canon (exchange i f u mk s) :=
  issueWord_canon hm (fun _ l hs => arrive_canon hs _ _ _ l) (fun _ l hs => arrive_canon hs _ _ _ l)

/-! ### Draw instructions -/

include hm in
theorem drawLeaf_canon {f : Frame} {u : Use} {v : Bool → Lane → Word × Nat} : Out.Canon (drawLeaf f u v s) :=
  word_canon hm fun s l hs => by simp [hs]

include hm in
theorem execDrawl_canon {f : Frame} {o : O2} : Out.Canon (execDrawl f o s) := drawLeaf_canon hm

include hm in
theorem execDrawg_canon {f : Frame} {o : O3} : Out.Canon (execDrawg f o s) := drawLeaf_canon hm

include hm in
theorem execDmrg_canon {f : Frame} {lg : Bool} {o : O3} : Out.Canon (execDmrg f lg o s) :=
  word_canon hm fun s l hs => by simp [hs]

include hm in
theorem execDseed_canon {f : Frame} {a : Src} : Out.Canon (execDseed f a s) :=
  word_canon hm fun s l hs => by
    dsimp only
    split <;> simp [hs]

/-! ### Floating point -/

include hm in
theorem special1_canon {f : Frame} {m : FMod} {o : O1} {op : FD → Rnd → FV → FV} : Out.Canon (special1 f m o op s) :=
  word_canon hm fun s l hs => by simp [hs]

/-! ### Integer and bit arithmetic, and predicates -/

include hm in
theorem overflowing_canon {f : Frame} {m : IMod} {o : O2} {pe : BitVec 3} {op : Int → Int → Int} :
    Out.Canon (overflowing f m o pe op s) :=
  word_canon hm fun s l hs => by simp [hs]

include hm in
theorem execPmov_canon {f : Frame} {o : O1} {msk : BitVec 7} {dir : Bool} : Out.Canon (execPmov f o msk dir s) := by
  unfold execPmov
  split
  · exact word_canon hm fun s l hs => by simp [hs]
  · exact word_canon hm fun s l hs => by simp [hs]

/-! ### Links and the loss of a cell -/

@[simp] theorem State.flitCounted_mem (p k : Nat) (err : BitVec 1024) : (s.flitCounted p k err).mem = s.mem := by
  simp [State.flitCounted]

@[simp] theorem State.flitFails_mem (p k : Nat) (err : BitVec 1024) : (s.flitFails p k err).mem = s.mem := by
  simp [State.flitFails]

@[simp] theorem State.flitDropped_mem (p : Nat) (f : Flit) : (s.flitDropped p f).mem = s.mem := by
  unfold State.flitDropped
  split <;> simp

@[simp] theorem State.flitIn_mem (p k u : Nat) (l : List Byte) : (s.flitIn p k u l).mem = s.mem := by simp [State.flitIn]

@[simp] theorem State.flitSeen_mem (p k u : Nat) (l : List Byte) (err : BitVec 1024) : (s.flitSeen p k u l err).2.mem = s.mem :=
    by
  unfold State.flitSeen
  repeat' split
  all_goals simp

include hm in
theorem execDataFlit_canon {pkg port : Nat} {err : BitVec 1024} : Out.Canon (execDataFlit pkg port err s) := by
  unfold execDataFlit
  rw [Out.canon_next]
  split
  · exact hm
  next q j _ =>
    split
    · exact hm
    next fl rest _ =>
      have ht : Mem.wf (s.modPort q j fun v => { v with wire := rest }).mem = true := by simpa using hm
      dsimp only
      split
      · simp [hm]
      · split
        · exact ht
        · generalize hx : State.flitSeen _ _ _ _ _ _ = x
          have hx : Mem.wf x.2.mem = true := by rw [← hx, State.flitSeen_mem]; exact ht
          split
          · simpa using hx
          · exact hx

@[simp] theorem State.takeCtl_mem (p k kind : Nat) (err : BitVec 1024) : (s.takeCtl p k kind err).2.mem = s.mem := by
  unfold State.takeCtl
  grind [State.modPort_mem, State.flitSeen_mem]

include hm in
theorem execLinkAck_canon {pkg port : Nat} {err : BitVec 1024} : Out.Canon (execLinkAck pkg port err s) := by
  have ht : Mem.wf (s.takeCtl pkg port 1 err).2.mem = true := by simpa using hm
  unfold execLinkAck
  rw [Out.canon_next]
  split
  next e => rw [e] at ht; exact ht
  next e =>
    rw [e] at ht
    rw [State.foldl_mem fun _ _ => State.routeWaiting_mem ..]
    simpa using ht

@[simp] theorem State.goBack_mem (p k : Nat) : (s.goBack p k).mem = s.mem := by
  simp only [State.goBack]
  split
  · rw [State.linkDown_mem, State.setPort_mem]
  · rw [State.pump_mem, State.setPort_mem]

include hm in
theorem execLinkNak_canon {pkg port : Nat} {err : BitVec 1024} : Out.Canon (execLinkNak pkg port err s) := by
  have ht : Mem.wf (s.takeCtl pkg port 2 err).2.mem = true := by simpa using hm
  unfold execLinkNak
  rw [Out.canon_next]
  split
  next e => rw [e] at ht; exact ht
  next e => rw [e] at ht; simpa using ht

include hm in
theorem execCreditFlit_canon {pkg port : Nat} {err : BitVec 1024} : Out.Canon (execCreditFlit pkg port err s) := by
  have ht : Mem.wf (s.takeCtl pkg port 3 err).2.mem = true := by simpa using hm
  unfold execCreditFlit
  rw [Out.canon_next]
  split
  next e => rw [e] at ht; exact ht
  next e =>
    rw [e] at ht
    rw [State.pump_mem, State.modPort_mem]
    exact ht

include hm in
theorem execAckTimer_canon {pkg port : Nat} : Out.Canon (execAckTimer pkg port s) := by
  simp only [execAckTimer, Out.canon_next]
  split <;> simp [hm]

include hm in
theorem execRetryTimeout_canon {pkg port : Nat} : Out.Canon (execRetryTimeout pkg port s) := by
  simp only [execRetryTimeout, Out.canon_next]
  split <;> simp [hm]

include hm in
theorem execLaneSpare_canon {pkg port lane : Nat} : Out.Canon (execLaneSpare pkg port lane s) := by
  simp only [execLaneSpare, Out.canon_next]
  split <;> simp [hm]

include hm in
theorem execPortDown_canon {pkg port : Nat} : Out.Canon (execPortDown pkg port s) := by
  simp only [execPortDown, Out.canon_next]
  split <;> simp [hm]

include hm in
theorem execPortUp_canon {pkg port : Nat} : Out.Canon (execPortUp pkg port s) := by
  unfold execPortUp
  rw [Out.canon_next]
  split
  · exact hm
  · split <;> simp [hm]

include hm in
theorem execLaneEyeMeasure_canon {pkg port lane : Nat} {hor ver : BitVec 8} :
    Out.Canon (execLaneEyeMeasure pkg port lane hor ver s) := by
  simp [execLaneEyeMeasure, hm]

include hm in
theorem execTokenAccrual_canon {pkg port : Nat} : Out.Canon (execTokenAccrual pkg port s) := by
  simp [execTokenAccrual, hm]

@[simp] theorem State.probeOn_mem (p to_ kind : Nat) (c : Ctl) : (s.probeOn p to_ kind c).mem = s.mem := by simp [State.probeOn]

include hm in
theorem execProbe_canon {pkg port : Nat} {err : BitVec 1024} : Out.Canon (execProbe pkg port err s) := by
  have ht : Mem.wf (s.takeCtl pkg port 5 err).2.mem = true := by simpa using hm
  unfold execProbe
  rw [Out.canon_next]
  split
  next e => rw [e] at ht; split <;> simp [ht]
  next e =>
    rw [e] at ht
    split
    · split
      · exact ht
      · dsimp only
        rw [State.foldl_mem fun _ _ => State.modPort_mem .., State.modPort_mem]
        exact ht
    · exact ht

include hm in
theorem execProbeReply_canon {pkg port : Nat} {err : BitVec 1024} : Out.Canon (execProbeReply pkg port err s) := by
  have ht : Mem.wf (s.takeCtl pkg port 6 err).2.mem = true := by simpa using hm
  unfold execProbeReply
  rw [Out.canon_next]
  split
  next e =>
    rw [e] at ht
    dsimp only
    repeat' split
    all_goals simp [ht]
  next e => rw [e] at ht; exact ht

@[simp] theorem State.synthErrors_mem (p : Nat) (homes : List Nat) : (s.synthErrors p homes).mem = s.mem := by
  refine State.foldl_mem (fun s x => ?_) _ _
  split
  · rfl
  · exact State.foldl_mem (fun s line => by dsimp only; split <;> simp) _ _

@[simp] theorem State.cutMessages_mem (p : Nat) (gone : List Nat) : (s.cutMessages p gone).mem = s.mem := by rfl

@[simp] theorem State.isolate_mem (p q : Nat) : (s.isolate p q).mem = s.mem := by
  simp only [State.isolate]
  split <;> simp

include hm in
@[simp] theorem State.wf_mem_dropAnswers (h line : Nat) : Mem.wf (s.dropAnswers h line).mem = true := by
  unfold State.dropAnswers
  split
  · exact hm
  · refine State.wf_mem_advance ?_ _
    rw [State.modTx_mem, State.ite_mem, Mem.wf_ite]
    simp only [State.wf_mem_losePoison hm, hm, ite_self]

include hm in
@[simp] theorem State.wf_mem_walkHome (p : Nat) : Mem.wf (s.walkHome p).mem = true := by
  refine State.wf_mem_foldl (fun s line hs => ?_) _ ?_
  · split
    · simp [hs]
    · split <;> simp [hs]
  · rw [State.foldl_mem fun _ _ => by rfl]
    exact hm

@[simp] theorem State.dropCopies_mem (p : Nat) (gone : List Nat) : (s.dropCopies p gone).mem = s.mem :=
  State.foldl_mem (fun _ _ => by simp) _ _

include hm in
@[simp] theorem State.wf_mem_loseLaunches (p : Nat) (gone : List Nat) : Mem.wf (s.loseLaunches p gone).mem = true := by
  refine State.wf_mem_foldl (fun s e hs => ?_) _ hm
  have hset (s : State) (l : List (Nat × Thread)) :
      (l.foldl (fun s x => if gone.contains (pkgOfThr x.1) then s.setThr x.1 {} else s) s).mem = s.mem :=
    State.foldl_mem (fun _ _ => by split <;> rfl) _ _
  dsimp only
  split
  · exact hs
  · refine State.wf_mem_foldl (fun s x hs => by split <;> simp [hs]) _ ?_
    split
    · rw [State.modLaunch_mem, hset]; exact hs
    · exact hs

@[simp] theorem State.noticeOut_mem (p c : Nat) : (s.noticeOut p c).mem = s.mem :=
  State.foldl_mem (fun _ _ => by split <;> simp) _ _

include hm in
@[simp] theorem State.wf_mem_acceptLoss (p c : Nat) : Mem.wf (s.acceptLoss p c).mem = true := by
  unfold State.acceptLoss
  dsimp only
  repeat' split
  · exact hm
  · simp [hm]
  · rw [State.walkEnds_mem]
    refine State.wf_mem_loseLaunches ?_ ..
    rw [State.dropCopies_mem]
    exact State.wf_mem_walkHome (by simp [hm]) _

include hm in
theorem execLossDeclare_canon {pkg q : Nat} : Out.Canon (execLossDeclare pkg q s) := by
  unfold execLossDeclare
  rw [Out.canon_next]
  split
  · split <;> simp [hm]
  · exact hm

include hm in
theorem execLossNotice_canon {pkg port : Nat} {err : BitVec 1024} : Out.Canon (execLossNotice pkg port err s) := by
  have ht : Mem.wf (s.takeCtl pkg port 4 err).2.mem = true := by simpa using hm
  unfold execLossNotice
  rw [Out.canon_next]
  split
  next e => rw [e] at ht; exact State.wf_mem_acceptLoss ht ..
  next e => rw [e] at ht; exact ht

/-! ### Pre-emption -/

include hm in
@[simp] theorem State.wf_mem_cutThread (tk : Nat) (g : Gang) : Mem.wf (s.cutThread tk g).mem = true := by
  unfold State.cutThread
  split <;> simp [hm]

@[simp] theorem State.suspend_mem (tk : Nat) : (s.suspend tk).mem = s.mem :=
  State.foldl_mem (fun _ _ => by dsimp only; split <;> rfl) _ _

@[simp] theorem State.backTo_mem (tk : Nat) (k : Sketch) : (s.backTo tk k).mem = s.mem := by simp [State.backTo]

@[simp] theorem State.pairSave_mem (l t : Nat) : (s.pairSave l t).mem = s.mem := by simp [State.pairSave]

@[simp] theorem State.saveThread_mem (tk : Nat) (resident : Bool) : (s.saveThread tk resident).mem = s.mem := by
  simp [State.saveThread]

include hm in
@[simp] theorem State.wf_mem_stopEngines (dk c : Nat) : Mem.wf (s.stopEngines dk c).mem = true := by
  unfold State.stopEngines
  dsimp only
  rw [State.modDie_mem, State.foldl_mem fun _ _ => State.spill_mem ..]
  exact State.wf_mem_foldl (fun _ _ hs => State.wf_mem_foldl (fun _ _ hs => State.wf_mem_stopRow hs ..) _
    (State.wf_mem_foldl (fun _ _ hs => State.wf_mem_stopCopy hs ..) _ hs)) _ hm

include hm in
@[simp] theorem State.wf_mem_preemptDie (p c d : Nat) : Mem.wf (s.preemptDie p c d).mem = true := by
  have hcut {s : State} (hs : Mem.wf s.mem = true) (l : List (Nat × Thread)) : Mem.wf (l.foldl (fun s e =>
      match s.waitingGang e.1 with
      | some g => if e.2.cutAt g then s.cutThread e.1 g else s
      | none => s) s).mem = true := by
    refine State.wf_mem_foldl (fun s e hs => ?_) _ hs
    split
    · split <;> simp [hs]
    · exact hs
  unfold State.preemptDie
  dsimp only
  split
  · exact hcut hm _
  · split
    · rw [State.modCtx_mem]
      exact hcut hm _
    · rw [State.modCtx_mem]
      refine State.wf_mem_stopEngines (State.wf_mem_foldl (fun _ _ hs => ?_) _ (State.wf_mem_foldl (fun _ _ hs => ?_) _ ?_)) ..
      · rw [State.poolCheck_mem]; exact hs
      · simp [hs]
      · rw [State.foldl_mem fun _ _ => by split <;> [split; skip] <;> simp]
        exact hcut hm _

include hm in
@[simp] theorem State.wf_mem_preemptCheck : Mem.wf s.preemptCheck.mem = true :=
  State.wf_mem_foldl (fun _ _ hs => State.wf_mem_foldl (fun _ _ hs => by split <;> simp [hs]) _ hs) _ hm

@[simp] theorem State.opCheck_mem (tk : Nat) : (s.opCheck tk).mem = s.mem := by
  unfold State.opCheck
  split <;> simp

/-! ### Evictions, timers, scrubs, tests, power and heat -/

@[simp] theorem State.evictAgent_mem (p line : Nat) (ecc : Upset) : (s.evictAgent p line ecc).mem = s.mem := by
  simp [State.evictAgent]

include hm in
@[simp] theorem State.wf_mem_evictHome (p line : Nat) (ecc : Upset) : Mem.wf (s.evictHome p line ecc).mem = true := by
  unfold State.evictHome
  repeat' split
  all_goals simp [hm]

include hm in
@[simp] theorem State.wf_mem_evictDir (p line : Nat) (ecc : Upset) : Mem.wf (s.evictDir p line ecc).mem = true := by
  unfold State.evictDir
  repeat' split
  all_goals simp [hm]

include hm in
theorem execCacheEviction_canon {pkg line : Nat} {cache : CacheK} {ecc : Upset} :
    Out.Canon (execCacheEviction pkg line cache ecc s) := by
  unfold execCacheEviction
  rw [Out.canon_next]
  cases cache with
  | agent => simp [hm]
  | home | dir => dsimp only; split <;> simp [hm]

include hm in
theorem execRequestTimeout_canon {pkg u : Nat} : Out.Canon (execRequestTimeout pkg u s) := by
  unfold execRequestTimeout
  rw [Out.canon_next]
  split
  · exact hm
  · split
    · exact hm
    · split <;> simp [hm]

include hm in
theorem execMemoryScrub_canon {line : Nat} {err : BitVec 1088} : Out.Canon (execMemoryScrub line err s) := by
  unfold execMemoryScrub
  rw [Out.canon_next]
  extract_lets h d held e t t'
  split
  · exact hm
  · split
    · exact hm
    · have ht : Mem.wf t.mem = true := by simpa [t] using hm
      have ht' : Mem.wf t'.mem = true := by
        unfold t'
        split <;> simp [ht]
      split
      · exact ht'
      · split <;> simp [ht']

include hm in
theorem execChannelSpared_canon {pkg mc ch : Nat} : Out.Canon (execChannelSpared pkg mc ch s) := by
  unfold execChannelSpared
  rw [Out.canon_next]
  dsimp only
  split
  · exact hm
  · split <;> simp [hm]

include hm in
theorem execSelftestResult_canon {pkg j : Nat} {scanFail arrayFail : Bool} {detail : BitVec 64} :
    Out.Canon (execSelftestResult pkg j scanFail arrayFail detail s) := by
  unfold execSelftestResult
  rw [Out.canon_next]
  split
  · exact hm
  · dsimp only
    split <;> simp [hm]

@[simp] theorem State.laterRegion_mem (l t : Nat) (region : BitVec 16) : (s.laterRegion l t region).mem = s.mem := by
  simp [State.laterRegion]

include hm in
theorem execRegionCompare_canon {tk : Nat} : Out.Canon (execRegionCompare tk s) := by
  unfold execRegionCompare
  rw [Out.canon_next]
  repeat' split
  all_goals simp [hm]

include hm in
theorem execPowerSample_canon {pkg mW : Nat} : Out.Canon (execPowerSample pkg mW s) := by
  simp [execPowerSample, hm]

include hm in
theorem execThermalThrottle_canon {dk tenths : Nat} : Out.Canon (execThermalThrottle dk tenths s) := by
  simp only [execThermalThrottle, Out.canon_next]
  split <;> simp [hm]

include hm in
theorem execThermalRecover_canon {dk tenths : Nat} : Out.Canon (execThermalRecover dk tenths s) := by
  unfold execThermalRecover
  rw [Out.canon_next]
  split
  · rw [State.foldl_mem fun _ _ => State.modDie_mem ..]
    exact hm
  · exact hm

/-! ### The host -/

@[simp] theorem State.forget_mem (p : Nat) : (s.forget p).mem = s.mem := by rfl

@[simp] theorem State.clearPackage_mem (p : Nat) : (s.clearPackage p).mem = s.mem := by
  have hdown (l : List Nat) : (l.foldl (fun s k => if (s.port p k).up then s.linkDown p k else s) s).mem = s.mem :=
    State.foldl_mem (fun _ _ => by split <;> simp) _ _
  simp only [State.clearPackage, State.setPkg_mem, State.forget_mem]
  exact hdown _

@[simp] theorem State.unreached_mem (p : Nat) : (s.unreached p).mem = s.mem := by simp [State.unreached]

@[simp] theorem State.bringUp_mem (p : Nat) : (s.bringUp p).mem = s.mem := by simp [State.bringUp]

@[simp] theorem State.resetPackage_mem (p : Nat) : (s.resetPackage p).mem = s.mem := by
  simp only [State.resetPackage]
  split
  · rw [State.bringUp_mem, State.clearPackage_mem]
  · rw [State.modPkg_mem, State.clearPackage_mem]

include hm in
theorem execPackageReset_canon {pkg : Nat} : Out.Canon (execPackageReset pkg s) := by
  simp only [execPackageReset, Out.canon_next]
  split <;> simp [hm]

include hm in
theorem execThermalReset_canon {dk tenths : Nat} : Out.Canon (execThermalReset dk tenths s) := by
  unfold execThermalReset
  dsimp only
  rw [Out.canon_next]
  split <;> simp [hm]

@[simp] theorem State.answer_mem (p qp kind : Nat) (bytes : List Byte) : (s.answer p qp kind bytes).mem = s.mem := by rfl

@[simp] theorem State.pageWrite_mem (p off : Nat) (data : List Byte) : (s.pageWrite p off data).mem = s.mem := by rfl

include hm in
theorem State.hostLine_canon (p pa : Nat) : (s.hostLine p pa).Canon := by
  unfold State.hostLine
  grind [HostLine.Canon, State.wf_mem_settle, State.correctLine_mem, State.wf_mem_repairLine]

theorem State.readyLines_canon (p : Nat) (l : List (Nat × Nat)) (hm : Mem.wf s.mem = true) :
    Mem.wf (s.readyLines p l).2.mem = true ∧ ∀ t bad, (s.readyLines p l).1 = some (t, bad) → Mem.wf t.mem = true := by
  induction l generalizing s with
  | nil => simp [State.readyLines, hm]
  | cons c rest ih =>
    have hc := State.hostLine_canon hm p (s.windowPa p c.1)
    unfold State.readyLines
    split
    next e => rw [e] at hc; exact ⟨hc, nofun⟩
    next e => rw [e] at hc; exact ih hc
    next t e =>
      rw [e] at hc
      have hr := ih (s := t) hc
      split
      next u l v e =>
        rw [e] at hr
        refine ⟨hr.1, fun _ _ e => ?_⟩
        cases e
        exact hr.2 _ _ rfl
      · exact hr

@[simp] theorem State.hostWait_mem (p qp : Nat) (op : HostOp) : (s.hostWait p qp op).mem = s.mem := by rfl

include hm in
@[simp] theorem State.wf_mem_hostWrite (p qp off : Nat) (data : List Byte) : Mem.wf (s.hostWrite p qp off data).mem = true := by
  have hr := State.readyLines_canon p (windowLines off data.length) hm
  unfold State.hostWrite
  dsimp only
  split
  · split <;> simp [hm, State.wf_mem_writeBytes]
  · split
    · simp [hm]
    · split
      next e => rw [e] at hr; simpa using hr.1
      next t bad u e =>
        rw [e] at hr
        rw [State.answer_mem]
        refine State.wf_mem_foldl (fun _ _ hs => by split <;> simp [hs, State.wf_mem_writeBytes]) _ ?_
        have ht := hr.2 _ _ rfl
        split <;> simp [ht]

@[simp] theorem State.answerRead_mem (p qp : Nat) (data : List Byte) : (s.answerRead p qp data).mem = s.mem :=
  State.foldl_mem (fun _ _ => by simp) _ _

include hm in
@[simp] theorem State.wf_mem_hostRead (p qp off len : Nat) : Mem.wf (s.hostRead p qp off len).mem = true := by
  have hr := State.readyLines_canon p (windowLines off len) hm
  unfold State.hostRead
  dsimp only
  split
  · simp [hm]
  · split
    · simp [hm]
    · split
      next e => rw [e] at hr; simpa using hr.1
      next t bad u e =>
        rw [e] at hr
        have ht := hr.2 _ _ rfl
        split
        · simp [ht]
        · simp [ht]

include hm in
@[simp] theorem State.wf_mem_hostAtomic (p qp off : Nat) (op : HostOp) (f : Word → Word) :
    Mem.wf (s.hostAtomic p qp off op f).mem = true := by
  unfold State.hostAtomic
  grind [State.answer_mem, State.hostLine_canon, State.hostWait_mem, State.wf_mem_write, HostLine.Canon]

@[simp] theorem State.pageWriteOp_mem (p qp off : Nat) (data : List Byte) : (s.pageWriteOp p qp off data).mem = s.mem := by
  simp [State.pageWriteOp]

include hm in
@[simp] theorem State.wf_mem_hostDo (p qp : Nat) (op : HostOp) : Mem.wf (s.hostDo p qp op).mem = true := by
  unfold State.hostDo
  split <;> simp [hm]

include hm in
@[simp] theorem State.wf_mem_hostTurn (p qp : Nat) (ce : Bool) (op : HostOp) : Mem.wf (s.hostTurn p qp ce op).mem = true := by
  simp [State.hostTurn, hm]

include hm in
theorem execHostSend_canon {p qp : Nat} {bytes : List Byte} : Out.Canon (execHostSend p qp bytes s) := by
  simp only [execHostSend, Out.canon_next]
  split <;> simp [hm]

include hm in
theorem execAttestationReport_canon {pkg : Nat} : Out.Canon (execAttestationReport pkg s) := by
  unfold execAttestationReport
  rw [Out.canon_next]
  dsimp only
  split
  · exact hm
  · rw [State.modPkg_mem]
    refine State.wf_mem_foldl (fun s x hs => ?_) _ (State.wf_mem_settle hm _)
    split
    · exact hs
    · refine State.wf_mem_write ?_ ..
      split <;> simp [hs]

include hm in
@[simp] theorem State.wf_mem_setFirewall (p page : Nat) (new : BitVec 16) : Mem.wf (s.setFirewall p page new).mem = true := by
  unfold State.setFirewall
  dsimp only
  repeat' split
  · exact hm
  · exact hm
  · exact State.wf_mem_foldl (fun _ _ hs => by split <;> simp [hs]) _ hm

include hm in
theorem execFwNarrow_canon {p page : Nat} {clear : BitVec 16} : Out.Canon (execFwNarrow p page clear s) := by
  simp only [execFwNarrow, Out.canon_next]
  split <;> simp [hm]

include hm in
@[simp] theorem State.wf_mem_applyCmd (p : Nat) : Mem.wf (s.applyCmd p).mem = true := by simp [State.applyCmd, hm]

include hm in
@[simp] theorem State.wf_mem_runCmd (p : Nat) (only : Option Nat) : Mem.wf (s.runCmd p only).mem = true := by
  simp [State.runCmd, hm]

/-! ### Loads, stores, atomics and fences -/

include hm in
theorem prefBody_canon (h : Hint) (off : BitVec 14) (l : Lane) : (prefBody h off s l).Canon := by
  unfold prefBody
  grind [Res.Canon, State.xlAt_mem, State.homeHold_mem, State.l1Fill_mem, State.modALine_mem, State.askLine_mem]

include hm in
theorem cacheBody_canon (k : Nat → StK) (h : Hint) (off : BitVec 14) (l : Lane) : (cacheBody k h off s l).Canon := by
  unfold cacheBody
  grind [Res.Canon, State.xlAt_mem, State.fresh_mem, State.modThr_mem]

include hm in
theorem atomicBody_canon (op : AtOp) (m : AMod) (h : Hint) (pn : BitVec 3) (l : Lane) : (atomicBody op m h pn s l).Canon := by
  unfold atomicBody
  grind [Res.Canon, State.globParts_mem, State.follow_canon, State.beginAcc_canon]

include hm in
theorem redBody_canon (b : Bind) (m : AMod) (h : Hint) (l : Lane) : (redBody b m h s l).Canon := by
  unfold redBody
  grind [Res.Canon, State.globParts_mem, State.enterStore_canon]

include hm in
theorem waitCtrs_canon (ldc suc eng : Bool) (l : Lane) : (waitCtrs ldc suc eng s l).Canon := by
  unfold waitCtrs
  grind [Res.Canon]

include hm in
theorem execFence_canon (f : Frame) (sc : Scope) (h : Hint) (kind : FenceKind) : Out.Canon (execFence f sc h kind s) := by
  unfold execFence
  cases kind <;> exact word_canon hm fun _ l hs => waitCtrs_canon hs _ _ _ l

/-! ### The issue pipes -/

include hm in
theorem State.fetchWord_canon (tk va : Nat) : (s.fetchWord tk va).Canon := by
  unfold State.fetchWord
  grind [Fetch.Canon, State.xlAt_mem]

include hm in
theorem State.fetchWords_canon (tk va n : Nat) : (s.fetchWords tk va n).Canon := by
  induction n generalizing s va with
  | zero => exact hm
  | succ n ih =>
    unfold State.fetchWords
    grind [FetchAll.Canon, Fetch.Canon, State.fetchWord_canon]

include hm in
@[simp] theorem State.wf_mem_headerFault (tk code va : Nat) (hdr : Word) : Mem.wf (s.headerFault tk code va hdr).mem = true := by
  simp [State.headerFault, hm]

@[simp] theorem State.stand_mem (tk : Nat) (hdr : Word) : (s.stand tk hdr).mem = s.mem := by
  simp only [State.stand]
  repeat' split
  all_goals simp

include hm in
@[simp] theorem State.wf_mem_arrive (tk : Nat) : Mem.wf (s.arrive tk).mem = true := by
  unfold State.arrive
  grind [State.wf_mem_headerFault, State.fetchWord_canon, State.askNow_mem, State.fetchWords_canon, State.stand_mem, Fetch.Canon,
    FetchAll.Canon]

include hm in
@[simp] theorem State.wf_mem_settleThread (tk : Nat) : Mem.wf (s.settleThread tk).mem = true := by simp [State.settleThread, hm]

include hm in
@[simp] theorem State.wf_mem_arriveAll (ck half : Nat) : Mem.wf (s.arriveAll ck half).mem = true :=
  State.wf_mem_foldl (fun _ _ hs => by dsimp only; split <;> simp [hs]) _ hm

@[simp] theorem State.takeDone_mem (tk : Nat) : (s.takeDone tk).mem = s.mem := by
  simp only [State.takeDone]
  split <;> simp

@[simp] theorem State.wake_mem (g : Gang) : (s.wake g).2.mem = s.mem := by simp [State.wake]

@[simp] theorem State.take_mem (ck half ptr : Nat) (g : Gang) : (s.take ck half ptr g).mem = s.mem := by
  simp [State.take]

include hm in
@[simp] theorem State.wf_mem_pick (ck half : Nat) : Mem.wf (s.pick ck half).mem = true := by
  unfold State.pick
  grind [State.wf_mem_arriveAll, State.wake_mem, State.setPipe_mem, State.modThr_mem, State.fetchWords_canon,
    State.wf_mem_pairFault, State.take_mem, FetchAll.Canon]

@[simp] theorem State.bankError_mem (tk : Nat) (n : BitVec 6) (hard : Bool) : (s.bankError tk n hard).mem = s.mem := by
  simp [State.bankError]

@[simp] theorem State.laneFails_mem (ck half : Nat) (e : LaneErr) : (s.laneFails ck half e).mem = s.mem := by
  simp [State.laneFails]

include hm in
theorem execPipePick_canon {ck half : Nat} {up : PickErr} : Out.Canon (execPipePick ck half up s) := by
  unfold execPipePick
  rw [Out.canon_next]
  cases up with
  | bank tk n hard => dsimp only; split <;> simp [hm]
  | lane k pat n => simp [hm]
  | none => simp [hm]

include hm in
@[simp] theorem State.wf_mem_loadGang (ck half : Nat) (g : Gang) : Mem.wf (s.loadGang ck half g).mem = true := by
  simp only [State.loadGang]
  repeat' split
  all_goals simp [hm]

@[simp] theorem State.leavePipe_mem (ck half : Nat) (g : Gang) : (s.leavePipe ck half g).mem = s.mem := by simp [State.leavePipe]

include hm in
@[simp] theorem State.wf_mem_pipeTurn (ck half : Nat) (g : Gang) : Mem.wf (s.pipeTurn ck half g).mem = true := by
  simp [State.pipeTurn, hm]

include hm in
@[simp] theorem State.wf_mem_illegal (i : Issue) (tk : Nat) (f : Frame) (code : Nat) :
    Mem.wf (s.illegal i tk f code).mem = true := by
  simp [State.illegal, hm]

include hm in
theorem execIllegalInstruction_canon (f : Frame) (code : BitVec 8) (wide : Bool) :
    Out.Canon (execIllegalInstruction f code wide s) := by
  unfold execIllegalInstruction
  split
  · exact Out.canon_fault _
  · split
    · exact Out.canon_fault _
    · simp [hm]

include hm in
theorem execHeldRecordWrite_canon {cx : Nat} : Out.Canon (execHeldRecordWrite cx s) := by
  simp only [execHeldRecordWrite, Out.canon_next]
  split <;> simp [hm]

include hm in
theorem execSleepExpire_canon {tk : Nat} : Out.Canon (execSleepExpire tk s) := by
  simp only [execSleepExpire, Out.canon_next]
  split <;> simp [hm]

include hm in
theorem execVariableLatencyResult_canon {tk u : Nat} : Out.Canon (execVariableLatencyResult tk u s) := by
  unfold execVariableLatencyResult
  rw [Out.canon_next]
  repeat' split
  all_goals simp [hm]

include hm in
@[simp] theorem State.wf_mem_watchdog (ck ctx : Nat) : Mem.wf (s.watchdog ck ctx).mem = true := by
  simp only [State.watchdog]
  split <;> simp [hm]

include hm in
@[simp] theorem State.wf_mem_poolFault (ck : Nat) : Mem.wf (s.poolFault ck).mem = true := by
  simp only [State.poolFault]
  repeat' split
  all_goals simp [hm]

@[simp] theorem State.roomResume_mem (ck half : Nat) : (s.roomResume ck half).mem = s.mem := by rfl

@[simp] theorem State.ageAll_mem : s.ageAll.mem = s.mem := by rfl

include hm in
@[simp] theorem State.wf_mem_leaveCheck (tk : Nat) : Mem.wf (s.leaveCheck tk).mem = true := by simp [State.leaveCheck, hm]

include hm in
@[simp] theorem State.wf_mem_sweep : Mem.wf s.sweep.mem = true := by
  have hgroups {s : State} (hs : Mem.wf s.mem = true) (l : List Nat) :
      Mem.wf (l.foldl (fun s ck => (s.core ck).grps.foldl (fun s g => s.groupCheck ck g.1) (s.poolCheck ck)) s).mem = true :=
    State.wf_mem_foldl (fun _ _ hs => State.wf_mem_foldl (fun _ _ hs => State.wf_mem_groupCheck hs ..) _ (by simpa using hs)) _ hs
  have hthreads {s : State} (hs : Mem.wf s.mem = true) (l : List Nat) :
      Mem.wf (l.foldl (fun s tk => (((s.restartCheck tk).copyCheck tk).opCheck tk).leaveCheck tk) s).mem = true :=
    State.wf_mem_foldl (fun _ _ hs => State.wf_mem_leaveCheck (by simp [hs]) _) _ hs
  exact State.wf_mem_foldl (fun _ _ hs => by rw [State.modCore_mem]; exact hs) _
    (State.wf_mem_preemptCheck (hthreads (hgroups hm _) _))

include hm in
@[simp] theorem State.wf_mem_arriveCores : Mem.wf s.arriveCores.mem = true := State.wf_mem_foldl (fun _ _ hs => by simp [hs]) _ hm

@[simp] theorem State.standStill_mem : s.standStill.mem = s.mem := by rfl

include hm in
@[simp] theorem State.wf_mem_beat : Mem.wf s.beat.mem = true := by simp [State.beat, hm]

/-! ### Every instruction, every event, every step -/

include hm in
/-- Every instruction and every event of the outside keeps memory canonical. -/
theorem exec_canon (i : Instr) : Out.Canon (exec i s) := by
  cases i with
  | iadd | isub | imul | imulh | imad | imadw | idiv | irem | imin | imax | iabs | ineg | idot4 | idot2 | isad | lea | mov
    | movi | movhi | iclamp | and | or | xor | andn | not | bfn3 | shl | shr | sar | rol | ror | fshf | popc | clz | ctz | brev
    | bfx | bfi | prmb | fadd | fsub | fmul | ffma | fmin | fmax | fabs | fneg | fclass | fdot2 | fscale | frnd | unpack
    => exact compute_canon hm
  | iadds | isubs => exact overflowing_canon hm
  | iaddc | sel | icmp | pset | fcmp | fdiv | packn | sclx | nanct | gleave | ginfo | bra | yield | nop | trap | brk | sleep
    | drnd | ixget | xqry => exact word_canon hm fun _ _ hs => by simp [hs]
  | pmov => exact execPmov_canon hm
  | fsqrt | frcp | frsq | fex2 | flg2 | flg2p | fsinpi | fcospi => exact special1_canon hm
  | cvt => exact execCvt_canon hm
  | cvts => exact execCvts_canon hm
  | cvti => exact execCvti_canon hm
  | cvtf => exact execCvtf_canon hm
  | bxpack | mxpack => exact packBlock_canon hm
  | bxunp | mxunp => exact unpackBlock_canon hm
  | cmode => exact execCmode_canon hm
  | gjoin => exact word_canon hm fun _ _ hs => joinBody_canon hs ..
  | gwait => exact word_canon hm fun _ _ hs => gwaitBody_canon hs ..
  | gvote => exact word_canon hm fun _ _ hs => gvoteBody_canon hs ..
  | mskop => exact execMskop_canon hm
  | mskmov => exact execMskmov_canon hm
  | shfl | shflx | shfldn | shflup | bcast | gred | gscan | compress | expand | matchRank | gdraw => exact exchange_canon hm
  | brx => exact execBrx_canon hm
  | call | callx => exact word_canon hm fun _ _ hs => callBody_canon hs ..
  | ret => exact word_canon hm fun _ _ hs => retBody_canon hs ..
  | exit => exact word_canon hm fun _ _ hs => exitBody_canon hs ..
  | loop => exact execLoop_canon hm
  | waita => exact word_canon hm fun _ _ hs => waitaBody_canon hs ..
  | ld | ldacq | ldvt | ldls => exact word_canon hm fun _ _ hs => loadBody_canon hs ..
  | st | strel | stvt | stls => exact word_canon hm fun _ _ hs => storeBody_canon hs ..
  | ldgx => exact word_canon hm fun _ _ hs => gatherBody_canon hs ..
  | pref => exact word_canon hm fun _ _ hs => prefBody_canon hs ..
  | cflush | cinv => exact word_canon hm fun _ _ hs => cacheBody_canon hs ..
  | aadd | amin | amax | aand | aor | axor | axchg | acas | aincw | adecw | abadd | afadd
    => exact word_canon hm fun _ _ hs => atomicBody_canon hs ..
  | redadd | redfadd | redmin | redmax => exact word_canon hm fun _ _ hs => redBody_canon hs ..
  | fence f sc h kind => exact execFence_canon hm f sc h kind
  | sdrain => exact word_canon hm fun _ _ hs => waitCtrs_canon hs ..
  | barinit => exact execBarinit_canon hm
  | bararv => exact execBararv_canon hm
  | barwait => exact execBarwait_canon hm
  | barsync => exact execBarsync_canon hm
  | barqry => exact execBarqry_canon hm
  | lbar => exact word_canon hm fun _ _ hs => lbarBody_canon hs ..
  | shrmap => exact execShrmap_canon hm
  | shrunmap => exact execShrunmap_canon hm
  | rdfe => exact word_canon hm fun _ _ hs => rdfeBody_canon hs ..
  | wrfe => exact word_canon hm fun _ _ hs => wrfeBody_canon hs ..
  | qpush => exact word_canon hm fun _ _ hs => qpushBody_canon hs ..
  | qpop => exact word_canon hm fun _ _ hs => qpopBody_canon hs ..
  | tdef => exact word_canon hm fun _ _ hs => tdefBody_canon hs ..
  | tqry => exact execTqry_canon hm
  | tready => exact execTready_canon hm
  | tempty => exact execTempty_canon hm
  | twait => exact execTwait_canon hm
  | tstb => exact word_canon hm fun _ _ hs => tstbBody_canon hs ..
  | tldb => exact word_canon hm fun _ _ hs => tldbBody_canon hs ..
  | shadow => exact word_canon hm fun _ _ hs => shadowBody_canon hs ..
  | publish => exact word_canon hm fun _ _ hs => publishBody_canon hs ..
  | cpy => exact word_canon hm fun _ _ hs => cpyBody_canon hs ..
  | cpym => exact word_canon hm fun _ _ hs => cpymBody_canon hs ..
  | mma | mmab => exact word_canon hm fun _ _ hs => matBody_canon hs ..
  | mmac => exact word_canon hm fun _ _ hs => mmacBody_canon hs ..
  | mepi => exact word_canon hm fun _ _ hs => mepiBody_canon hs ..
  | tarm => exact word_canon hm fun _ _ hs => tarmBody_canon hs ..
  | route f h o wr => exact execRoute_canon hm f h o wr
  | collBind | collReduceScatter | collAllGather | collAllReduceRing | collAllReduceTree | collBroadcast | collBarrier
    | collDrawMerge => exact word_canon hm fun _ _ hs => collBody_canon hs ..
  | cwait => exact word_canon hm fun _ _ hs => cwaitBody_canon hs ..
  | ccancel => exact word_canon hm fun _ _ hs => ccancelBody_canon hs ..
  | engq => exact execEngq_canon hm
  | drawl => exact execDrawl_canon hm
  | drawg => exact execDrawg_canon hm
  | dmrg => exact execDmrg_canon hm
  | dseed => exact execDseed_canon hm
  | sysrd => exact execSysrd_canon hm
  | syswr | injectWrite => exact word_canon hm fun _ _ hs => syswrBody_canon hs ..
  | launch => exact word_canon hm fun _ _ hs => launchBody_canon hs ..
  | lwait => exact word_canon hm fun _ _ hs => lwaitBody_canon hs ..
  | thrctlResume => exact execThrctlResume_canon hm
  | thrctlRedirect => exact execThrctlRedirect_canon hm
  | thrctlKill => exact execThrctlKill_canon hm
  | thrctlStop => exact execThrctlStop_canon hm
  | thrctlGetst => exact execThrctlGetst_canon hm
  | thrctlSetst => exact execThrctlSetst_canon hm
  | xret => exact execXret_canon hm
  | barsave => exact execBarsave_canon hm
  | barrest => exact execBarrest_canon hm
  | tlbinv => exact execTlbinv_canon hm
  | mapset => exact execMapset_canon hm
  | selftest => exact execSelftest_canon hm
  | errrd => exact execErrrd_canon hm
  | featrd => exact execFeatrd_canon hm
  | ctxswCreate => exact execCtxswCreate_canon hm
  | ctxswDestroy => exact execCtxswDestroy_canon hm
  | ctxswPreempt => exact execCtxswPreempt_canon hm
  | ctxswResume => exact execCtxswResume_canon hm
  | ixset => exact execIxset_canon hm
  | ixadv => exact execIxadv_canon hm
  | xacq => exact execXacq_canon hm
  | xrel => exact execXrel_canon hm
  | illegalInstruction f code wide => exact execIllegalInstruction_canon hm f code wide
  | pipePick => exact execPipePick_canon hm
  | heldRecordWrite => exact execHeldRecordWrite_canon hm
  | loadReturn => exact execLoadReturn_canon hm
  | storePerform => exact execStorePerform_canon hm
  | waitaWake => exact execWaitaWake_canon hm
  | waitaTimeout => exact execWaitaTimeout_canon hm
  | sleepExpire => exact execSleepExpire_canon hm
  | progressWatchdog => exact (Out.canon_next _).2 (State.wf_mem_watchdog hm ..)
  | poolDeadlock => exact (Out.canon_next _).2 (State.wf_mem_poolFault hm ..)
  | resourceRoomResume | rebalance | launchStart | lbarRelease => exact (Out.canon_next _).2 (by simp [hm])
  | startBarrierTimeout => exact (Out.canon_next _).2 (State.wf_mem_startTimeout hm ..)
  | launchComplete => exact (Out.canon_next _).2 (State.wf_mem_launchComplete hm ..)
  | treadyComplete => exact execTreadyComplete_canon hm
  | twaitComplete => exact execTwaitComplete_canon hm
  | copyComplete => exact execCopyComplete_canon hm
  | copyFailure => exact execCopyFailure_canon hm
  | slabStep => exact execSlabStep_canon hm
  | mmacTimeout => exact execMmacTimeout_canon hm
  | epilogueRowStep => exact execEpilogueRowStep_canon hm
  | engineArbitrate pkg port k => exact execEngineArbitrate_canon hm pkg port k
  | chunkData => exact execChunkData_canon hm
  | chunkTriggered => exact execChunkTriggered_canon hm
  | chunkAcknowledgement => exact execChunkAcknowledgement_canon hm
  | barrierToken => exact execBarrierToken_canon hm
  | chunkRefusal => exact execChunkRefusal_canon hm
  | collBindTimeout => exact execCollBindTimeout_canon hm
  | collMatchTimeout => exact execCollMatchTimeout_canon hm
  | ringReform => exact execRingReform_canon hm
  | dataFlit => exact execDataFlit_canon hm
  | linkAck => exact execLinkAck_canon hm
  | linkNak => exact execLinkNak_canon hm
  | creditFlit => exact execCreditFlit_canon hm
  | ackTimer => exact execAckTimer_canon hm
  | retryTimeout => exact execRetryTimeout_canon hm
  | laneSpare => exact execLaneSpare_canon hm
  | portDown => exact execPortDown_canon hm
  | portUp => exact execPortUp_canon hm
  | gets | getm | getu | putm | puto | putu | flush => exact onRequest_canon hm
  | inv => exact execInv_canon hm
  | fwdgets => exact execFwdgets_canon hm
  | fwdgetm => exact execFwdgetm_canon hm
  | collect => exact execCollect_canon hm
  | ack => exact execAck_canon hm
  | data => exact execData_canon hm
  | nakfirewall => exact execNakfirewall_canon hm
  | errsynth => exact execErrsynth_canon hm
  | homeDequeueRequest => exact execHomeDequeueRequest_canon hm
  | cacheEviction => exact execCacheEviction_canon hm
  | requestTimeout => exact execRequestTimeout_canon hm
  | probe => exact execProbe_canon hm
  | probeReply => exact execProbeReply_canon hm
  | lossDeclare => exact execLossDeclare_canon hm
  | lossNotice => exact execLossNotice_canon hm
  | memoryScrub => exact execMemoryScrub_canon hm
  | laneEyeMeasure => exact execLaneEyeMeasure_canon hm
  | channelSpared => exact execChannelSpared_canon hm
  | regionCompare => exact execRegionCompare_canon hm
  | rdmaWrite | rdmaRead | compareSwap | fetchAdd | invalidRequest | featTakeWrite | featLockWrite | attGo | controlPageWrite
    => exact (Out.canon_next _).2 (State.wf_mem_hostTurn hm ..)
  | cmdFirewallEntry | cmdEgressFilter | cmdRateLimiter | commandApplied
    => exact (Out.canon_next _).2 (State.wf_mem_runCmd hm ..)
  | packageReset => exact execPackageReset_canon hm
  | powerSample => exact execPowerSample_canon hm
  | thermalThrottle => exact execThermalThrottle_canon hm
  | thermalRecover => exact execThermalRecover_canon hm
  | thermalReset => exact execThermalReset_canon hm
  | variableLatencyResult => exact execVariableLatencyResult_canon hm
  | selftestResult => exact execSelftestResult_canon hm
  | attestationReport => exact execAttestationReport_canon hm
  | launchAnswer => exact (Out.canon_next _).2 (State.wf_mem_launchAnswer hm ..)
  | tokenAccrual => exact execTokenAccrual_canon hm

include hm in
/-- Every event of the agenda keeps memory canonical. -/
theorem Ev.run_canon (e : Ev) : Out.Canon (e.run s) := by
  cases e with
  | outside i =>
    show Out.Canon (if isEvent i then exec i s else .next s)
    split
    · exact exec_canon hm i
    · exact (Out.canon_next s).2 hm
  | heldRecordWrite => exact execHeldRecordWrite_canon hm
  | loadReturn => exact execLoadReturn_canon hm (ecc := .none)
  | storePerform => exact execStorePerform_canon hm
  | waitaWake => exact execWaitaWake_canon hm
  | waitaTimeout => exact execWaitaTimeout_canon hm
  | sleepExpire => exact execSleepExpire_canon hm
  | progressWatchdog => exact (Out.canon_next _).2 (State.wf_mem_watchdog hm ..)
  | poolDeadlock => exact (Out.canon_next _).2 (State.wf_mem_poolFault hm ..)
  | resourceRoomResume | rebalance | launchStart | lbarRelease => exact (Out.canon_next _).2 (by simp [hm])
  | startBarrierTimeout => exact (Out.canon_next _).2 (State.wf_mem_startTimeout hm ..)
  | launchComplete => exact (Out.canon_next _).2 (State.wf_mem_launchComplete hm ..)
  | treadyComplete => exact execTreadyComplete_canon hm
  | twaitComplete => exact execTwaitComplete_canon hm
  | copyComplete => exact execCopyComplete_canon hm
  | slabStep => exact execSlabStep_canon hm
  | mmacTimeout => exact execMmacTimeout_canon hm
  | epilogueRowStep => exact execEpilogueRowStep_canon hm
  | engineArbitrate pkg port k => exact execEngineArbitrate_canon hm pkg port k
  | chunkData => exact execChunkData_canon hm
  | chunkTriggered => exact execChunkTriggered_canon hm
  | chunkAcknowledgement => exact execChunkAcknowledgement_canon hm
  | barrierToken => exact execBarrierToken_canon hm
  | chunkRefusal => exact execChunkRefusal_canon hm
  | collBindTimeout => exact execCollBindTimeout_canon hm
  | collMatchTimeout => exact execCollMatchTimeout_canon hm
  | ringReform => exact execRingReform_canon hm
  | dataFlit => exact execDataFlit_canon hm
  | linkAck => exact execLinkAck_canon hm
  | hostSend => exact execHostSend_canon hm
  | fwNarrow => exact execFwNarrow_canon hm
  | sramFixed => exact execSramFixed_canon hm
  | linkNak => exact execLinkNak_canon hm
  | creditFlit => exact execCreditFlit_canon hm
  | ackTimer => exact execAckTimer_canon hm
  | retryTimeout => exact execRetryTimeout_canon hm
  | portUp => exact execPortUp_canon hm
  | gets | getm | getu | putm | puto | putu | flush => exact onRequest_canon hm
  | inv => exact execInv_canon hm
  | fwdgets => exact execFwdgets_canon hm
  | fwdgetm => exact execFwdgetm_canon hm
  | collect => exact execCollect_canon hm
  | ack => exact execAck_canon hm
  | data => exact execData_canon hm
  | nakfirewall => exact execNakfirewall_canon hm
  | errsynth => exact execErrsynth_canon hm
  | homeDequeueRequest => exact execHomeDequeueRequest_canon hm
  | requestTimeout => exact execRequestTimeout_canon hm
  | probe => exact execProbe_canon hm
  | probeReply => exact execProbeReply_canon hm
  | lossDeclare => exact execLossDeclare_canon hm
  | lossNotice => exact execLossNotice_canon hm
  | regionCompare => exact execRegionCompare_canon hm
  | variableLatencyResult => exact execVariableLatencyResult_canon hm
  | selftestResult => exact execSelftestResult_canon hm
  | attestationReport => exact execAttestationReport_canon hm
  | commandApplied => exact (Out.canon_next _).2 (State.wf_mem_runCmd hm ..)
  | launchAnswer => exact (Out.canon_next _).2 (State.wf_mem_launchAnswer hm ..)
  | tokenAccrual => exact execTokenAccrual_canon hm
  | hostOp => exact (Out.canon_next _).2 (State.wf_mem_hostTurn hm ..)

include hm in
@[simp] theorem State.wf_mem_nextCycle : Mem.wf (nextCycle s).mem = true := by
  simp only [nextCycle]
  split <;> simp [hm]

include hm in
/-- Every step that goes on leads to a canonical memory. -/
theorem step_canon : Out.Canon (step s) := by
  unfold step
  split
  next e rest _ => exact Ev.run_canon (s := { s with agenda := rest }) hm e
  · split
    · split
      · exact (Out.canon_next _).2 (State.wf_mem_checkWord hm _)
      · exact exec_canon hm _
    · split
      next ck half rest _ =>
        dsimp only
        split
        · exact (Out.canon_next _).2 (State.wf_mem_pipeTurn (s := { s with turn := rest }) hm ..)
        · exact exec_canon (s := { s with turn := rest }) hm _
      · exact (Out.canon_next _).2 (State.wf_mem_nextCycle hm)

end Operations

/-- Settles O57: memory changes only through `State.write` and `State.writeBytes`, which keep its canonical form
(`Mem.wf_write`); every other operation of a step leaves memory as it is or goes through one of these. -/
theorem memoryStaysCanonical : Obligations.MemoryStaysCanonical := by
  unfold Obligations.MemoryStaysCanonical
  intro s t hm e
  exact step_canon hm t e

end Sys2Proof.Machine
end

section
/-! SUPPORT. Accesses as they issue: what translation leaves alone (R233), and when counters and buffers let an access pass (R105,
R244, R472). -/

namespace Sys2Proof.Machine

/-! ### Translation may fill a TLB and touches no thread -/

theorem State.threads_xlAt {s t : State} {tk va n : Nat} {need : Need} {atomic walk : Bool} {x : Option Xl}
    (h : s.xlAt tk va n need atomic walk = .ok (x, t)) : t.threads = s.threads := by
  unfold State.xlAt at h
  split at h
  · cases h
  · dsimp only at h
    split at h
    next =>
      split at h <;> cases h
      rfl
    next =>
      split at h
      · cases h
        rfl
      · split at h
        · cases h
        · split at h <;> cases h
          rfl

theorem State.threads_globParts {tk : Nat} {need : Need} {atomic walk : Bool} {l : List (Nat × Nat)} :
    ∀ {s t : State} {ps : List Piece}, s.globParts tk need atomic walk l = .ok (ps, t) → t.threads = s.threads := by
  induction l with
  | nil =>
    intro s t ps h
    cases h
    rfl
  | cons q rest ih =>
    intro s t ps h
    simp only [State.globParts, bind, Except.bind] at h
    split at h
    · cases h
    · rename_i hx
      split at h
      · cases h
      · rename_i hrest
        cases h
        exact (ih hrest).trans (State.threads_xlAt hx)

theorem State.thr_globParts {s t : State} {tk : Nat} {need : Need} {atomic walk : Bool} {l : List (Nat × Nat)} {ps : List Piece}
    (h : s.globParts tk need atomic walk l = .ok (ps, t)) (k : Nat) : t.thr k = s.thr k := by
  rw [State.thr, State.threads_globParts h, State.thr]

/-! ### Alignment and room for an access -/

/-- An access that must be aligned, and is, does not fault. -/
theorem not_misaligned {must : Bool} {n : Nat} (h : must = true → n = 0) : ¬(must = true ∧ n ≠ 0) := fun hm => hm.2 (h hm.1)

/-- FRC holds an access up where a part of it is remote. -/
theorem remoteFull_iff {far : Bool} {n : Nat} : (far && decide (ctrMax ≤ n)) = true ↔ far = true ∧ 255 ≤ n := by
  rw [Bool.and_eq_true, decide_eq_true_iff, ctrMax]

theorem not_remoteFull {far : Bool} {n : Nat} (h : far = true → n < 255) : ¬(far && decide (ctrMax ≤ n)) = true :=
  fun hf => Nat.not_lt.2 (remoteFull_iff.1 hf).2 (h (remoteFull_iff.1 hf).1)

section
variable {b : State} {l : Lane} {acc : Acc} {pn : BitVec 3}

theorem State.beginAcc_of_ldc_full (hl : 255 ≤ (b.thr l.tk).c.ldc) : b.beginAcc l acc pn = .park (.room 6) := if_pos hl

variable (hl : (b.thr l.tk).c.ldc < 255)
include hl

theorem State.beginAcc_of_frc_full (hr : acc.remote = true) (hf : 255 ≤ (b.thr l.tk).c.frc) :
    b.beginAcc l acc pn = .park (.room 9) := (if_neg (Nat.not_le.2 hl)).trans (if_pos (remoteFull_iff.2 ⟨hr, hf⟩))

theorem State.beginAcc_of_room (hf : acc.remote = true → (b.thr l.tk).c.frc < 255) : b.beginAcc l acc pn =
    .ok ((b.pendNew l (.acc acc) pn).2.modThr l.tk fun t =>
      { t with c := { t.c with ldc := t.c.ldc + 1, frc := t.c.frc + if acc.remote then 1 else 0 } }) :=
  (if_neg (Nat.not_le.2 hl)).trans (if_neg (not_remoteFull hf))

end

section
variable {b : State} {tk : Nat} {e : SbE}

theorem State.enterStore_of_sb_full (hs : 16 ≤ (b.thr tk).sbUsed) : b.enterStore tk e = .park (.room 4) := if_pos hs

variable (hs : (b.thr tk).sbUsed < 16)
include hs

theorem State.enterStore_of_suc_full (hc : 255 ≤ (b.thr tk).c.suc) : b.enterStore tk e = .park (.room 7) :=
  (if_neg (Nat.not_le.2 hs)).trans (if_pos hc)

variable (hc : (b.thr tk).c.suc < 255)
include hc

theorem State.enterStore_of_frc_full (hr : e.remote = true) (hf : 255 ≤ (b.thr tk).c.frc) :
    b.enterStore tk e = .park (.room 9) :=
  (if_neg (Nat.not_le.2 hs)).trans ((if_neg (Nat.not_le.2 hc)).trans (if_pos (remoteFull_iff.2 ⟨hr, hf⟩)))

theorem State.enterStore_of_room (hf : e.remote = true → (b.thr tk).c.frc < 255) : b.enterStore tk e =
    .ok (b.fresh.2.modThr tk fun t => { t with
      sb := t.sb ++ [{ e with u := b.uid }], c := { t.c with suc := t.c.suc + 1, frc := t.c.frc + if e.remote then 1 else 0 } }) :=
  (if_neg (Nat.not_le.2 hs)).trans ((if_neg (Nat.not_le.2 hc)).trans (if_neg (not_remoteFull hf)))

end

/-! ### A word that begins an access, or buffers an entry -/

/-- The word begins an access in the state `b`: a full counter parks it, and otherwise its destination is pending and it is counted. -/
def Stand.Begins (w : Stand) (s : State) (ins : Instr) (b : State) (acc : Acc) (pn : BitVec 3) : Prop :=
  let c := (b.thr w.tk).c
  (255 ≤ c.ldc → w.Parks s ins (.room 6))
  ∧ (c.ldc < 255 → acc.remote = true → 255 ≤ c.frc → w.Parks s ins (.room 9))
  ∧ (c.ldc < 255 → (acc.remote = true → c.frc < 255) →
    w.Completes s ins ((b.pendNew (w.lane s) (.acc acc) pn).2.modThr w.tk fun t =>
      { t with c := { t.c with ldc := t.c.ldc + 1, frc := t.c.frc + if acc.remote then 1 else 0 } }))

/-- The word puts an entry into the store buffer of `b`: a full buffer or counter parks it, and otherwise the entry, under a name of
its own, is the last one and is counted. -/
def Stand.Buffers (w : Stand) (s : State) (ins : Instr) (b : State) (e : SbE) : Prop :=
  let t := b.thr w.tk
  (16 ≤ t.sbUsed → w.Parks s ins (.room 4))
  ∧ (t.sbUsed < 16 → 255 ≤ t.c.suc → w.Parks s ins (.room 7))
  ∧ (t.sbUsed < 16 → t.c.suc < 255 → e.remote = true → 255 ≤ t.c.frc → w.Parks s ins (.room 9))
  ∧ (t.sbUsed < 16 → t.c.suc < 255 → (e.remote = true → t.c.frc < 255) →
    w.Completes s ins (b.fresh.2.modThr w.tk fun t => { t with
      sb := t.sb ++ [{ e with u := b.uid }],
      c := { t.c with suc := t.c.suc + 1, frc := t.c.frc + if e.remote then 1 else 0 } }))

section
variable {w : Stand} {s : State} (h : w.Clear s) {u : Use} (hu : w.u = u) {ins : Instr} {body : State → Lane → Res}
  (he : exec ins s = word w.f u body s) {b : State}
include h hu he

theorem Stand.begins_of {acc : Acc} {pn : BitVec 3} (hb : body (w.begun s) (w.lane s) = b.beginAcc (w.lane s) acc pn) :
    w.Begins s ins b acc pn :=
  ⟨fun hl => w.parks_of h hu he (hb.trans (State.beginAcc_of_ldc_full hl)),
    fun hl hr hf => w.parks_of h hu he (hb.trans (State.beginAcc_of_frc_full hl hr hf)),
    fun hl hf => w.completes_of h hu he (hb.trans (State.beginAcc_of_room hl hf))⟩

theorem Stand.buffers_of {e : SbE} (hb : body (w.begun s) (w.lane s) = b.enterStore w.tk e) : w.Buffers s ins b e :=
  ⟨fun hs => w.parks_of h hu he (hb.trans (State.enterStore_of_sb_full hs)),
    fun hs hc => w.parks_of h hu he (hb.trans (State.enterStore_of_suc_full hs hc)),
    fun hs hc hr hf => w.parks_of h hu he (hb.trans (State.enterStore_of_frc_full hs hc hr hf)),
    fun hs hc hf => w.completes_of h hu he (hb.trans (State.enterStore_of_room hs hc hf))⟩

end

end Sys2Proof.Machine
end

section
/-! SUPPORT. Loads and gathers (R259, R261, R266). -/

namespace Sys2Proof.Machine

section
variable {s b : State} {l : Lane} {sp : Space} {m : MMod} {acq : Bool} {h : Hint} {off : BitVec 14}

theorem loadBody_misaligned (ha : (memAddr l.a off).toNat % sizeBytes m.sz ≠ 0) :
    loadBody sp m true h off s l = .fault { code := 0x07, addr := memAddr l.a off } := if_pos ⟨rfl, ha⟩

variable (ha : acq = true → (memAddr l.a off).toNat % sizeBytes m.sz = 0)
include ha

theorem loadBody_unreadable {c : Nat}
    (hp : s.parts l.tk sp (memAddr l.a off) (sizeBytes m.sz) .rd (s.thr l.tk).pair.isSome = .error c) :
    loadBody sp m acq h off s l = .fault { code := c, addr := memAddr l.a off } := by
  simp only [loadBody, if_neg (not_misaligned ha), hp]

theorem loadBody_readable {ps : List Piece}
    (hp : s.parts l.tk sp (memAddr l.a off) (sizeBytes m.sz) .rd (s.thr l.tk).pair.isSome = .ok (ps, b)) :
    loadBody sp m acq h off s l =
      if (s.thr l.tk).trails && sp != .store then b.follow l
      else b.beginAcc l { space := sp, k := .load, size := sizeBytes m.sz, sx := m.sx, acq := acq, hint := h, pieces := ps,
                          remote := b.anyRemote l.tk ps } 7 := by
  simp only [loadBody, if_neg (not_misaligned ha), hp]

end

section
variable {s b : State} {l : Lane} {m : MMod} {h : Hint} {off : BitVec 14}

theorem State.gatherFault_of_misaligned {tk n va : Nat} (hv : va % n ≠ 0) (walk : Bool) (rest : List Nat) :
    s.gatherFault tk n walk (va :: rest) = some (0x07, va) := if_pos hv

/-- An element that faults now decides, and the tables say which of them gives the record. -/
theorem gatherBody_of_fault {vas : List Nat} (hv : gatherAddrs (sizeBytes m.sz) m.sx (memAddr l.a off) l.b.w64 = vas)
    (hn : s.gatherFault l.tk (sizeBytes m.sz) (s.thr l.tk).pair.isSome vas ≠ none) {c va : Nat}
    (hf : s.gatherFault l.tk (sizeBytes m.sz) true vas = some (c, va)) :
    gatherBody m h off s l = .fault { code := c, addr := BitVec.ofNat 64 va } := by
  obtain ⟨x, hx⟩ := Option.ne_none_iff_exists'.1 hn
  simp only [gatherBody, hv, hx, Option.bind_some, hf]

theorem gatherBody_readable {vas : List Nat} (hv : gatherAddrs (sizeBytes m.sz) m.sx (memAddr l.a off) l.b.w64 = vas)
    (hn : s.gatherFault l.tk (sizeBytes m.sz) (s.thr l.tk).pair.isSome vas = none) {ps : List Piece}
    (hp : s.globParts l.tk .rd false (s.thr l.tk).pair.isSome (vas.map fun va => (va, sizeBytes m.sz)) = .ok (ps, b)) :
    gatherBody m h off s l =
      if (s.thr l.tk).trails then b.follow l
      else b.beginAcc l { space := .glob, k := .gather, size := sizeBytes m.sz, hint := h, pieces := ps,
                          remote := b.anyRemote l.tk ps } 7 := by
  simp only [gatherBody, hv, hn, Option.bind_none, hp]

end

/-- Settles O27: a load by its alignment, its translation and its copy, a gather by the first of its elements that faults. -/
theorem loads : Obligations.Loads := by
  unfold Obligations.Loads
  intro w s m h off hw b l pr tr begins
  refine ⟨fun o hu => ?load, fun o hu => ?gather⟩
  case load =>
    intro a n plain
    have hplain {ins : Instr} {sp : Space} {acq : Bool} (ha : acq = true → a.toNat % n = 0)
        (he : exec ins s = word w.f (useLoad m o) (loadBody sp m acq h off) s) : plain ins sp acq := by
      refine ⟨fun c hp => w.faults_of hw hu he (loadBody_unreadable (s := b) (l := l) ha hp), fun ps b' hp => ?_⟩
      have hbody := loadBody_readable (s := b) (l := l) (h := h) ha hp
      refine ⟨fun ht hsp => w.completes_of hw hu he (hbody.trans (if_pos ?_)),
        fun hts => w.begins_of hw hu he (hbody.trans (if_neg ?_))⟩
      · rw [Bool.and_eq_true, bne_iff_ne]
        exact ⟨ht, hsp⟩
      · rw [Bool.and_eq_true, bne_iff_ne]
        exact fun hm => hts.elim (Bool.eq_false_iff.1 · hm.1) hm.2
    refine ⟨hplain nofun rfl, hplain nofun rfl, hplain nofun rfl, ?_⟩
    split
    · rename_i ha
      exact hplain (fun _ => ha) rfl
    · rename_i ha
      exact w.faults_of hw hu rfl (loadBody_misaligned ha)
  case gather =>
    intro n vas
    refine ⟨fun va rest hv hva => ?misaligned, fun c va hn hf => w.faults_of hw hu rfl (gatherBody_of_fault (s := b) (l := l) rfl hn hf),
      fun ps b' hn hp => ?readable⟩
    case misaligned =>
      have hfault (walk : Bool) := b.gatherFault_of_misaligned (tk := l.tk) hva walk rest
      exact w.faults_of hw hu rfl (gatherBody_of_fault (s := b) (l := l) hv (ne_of_eq_of_ne (hfault _) nofun) (hfault true))
    case readable =>
      have hbody := gatherBody_readable (s := b) (l := l) (h := h) rfl hn hp
      exact ⟨fun ht => w.completes_of hw hu rfl (hbody.trans (if_pos ht)),
        fun ht => w.begins_of hw hu rfl (hbody.trans (if_neg (Bool.eq_false_iff.1 ht)))⟩

end Sys2Proof.Machine
end

section
/-! SUPPORT. Stores (R244, R263, R264, R405). -/

namespace Sys2Proof.Machine

/-- The bytes of a store as a number. -/
def storeData (m : MMod) (l : Lane) : Nat :=
  let n := sizeBytes m.sz
  (l.b.w64.toNat + (if n = 16 then 2 ^ 64 * (l.hi 1).toNat else 0)) % 256 ^ n

/-- The entry of a store, before it has its name. -/
def State.storeEntry (b : State) (l : Lane) (sp : Space) (m : MMod) (rel : Bool) (h : Hint) (a : Word) (ps : List Piece) : SbE :=
  { u := 0, gid := l.i.g.gid, k := .store, rel := rel, hint := h, pieces := storeParts a.toNat (storeData m l) ps, space := sp,
    remote := b.anyRemote l.tk ps }

/-- What both copies of a pair compare of a store (R405). -/
def State.storeImage (b : State) (l : Lane) (sp : Space) (m : MMod) (rel : Bool) (a : Word) : SigE :=
  let n := sizeBytes m.sz
  { addr := a, lo := BitVec.ofNat 64 (storeData m l), hi := if n = 16 then l.hi 1 else 0, size := n, kind := if rel then 1 else 0,
    region := (b.thr l.tk).region, space := if sp = .vault then 1 else 0, pos := (b.thr l.tk).nw }

section
variable {s b : State} {l : Lane} {sp : Space} {m : MMod} {rel : Bool} {h : Hint} {off : BitVec 14}

theorem storeBody_misaligned (ha : (memAddr l.a off).toNat % sizeBytes m.sz ≠ 0) :
    storeBody sp m true h off s l = .fault { code := 0x07, addr := memAddr l.a off } := if_pos ⟨rfl, ha⟩

variable (ha : rel = true → (memAddr l.a off).toNat % sizeBytes m.sz = 0)
include ha

theorem storeBody_unwritable {c : Nat} (hp : s.parts l.tk sp (memAddr l.a off) (sizeBytes m.sz) .wr true = .error c) :
    storeBody sp m rel h off s l = .fault { code := c, addr := memAddr l.a off } := by
  simp only [storeBody, if_neg (not_misaligned ha), hp]

variable {ps : List Piece} (hp : s.parts l.tk sp (memAddr l.a off) (sizeBytes m.sz) .wr true = .ok (ps, b))
include hp

theorem storeBody_into_tile (hsp : sp ≠ .glob) {c : Nat} (hc : b.tileFault (ckOf l.tk) ps = some c) :
    storeBody sp m rel h off s l = .fault { code := c, addr := memAddr l.a off } := by
  simp only [storeBody, if_neg (not_misaligned ha), hp, if_neg hsp, hc]

theorem storeBody_writable (hc : sp = .glob ∨ b.tileFault (ckOf l.tk) ps = none) : storeBody sp m rel h off s l =
    b.addStore l.tk (b.storeEntry l sp m rel h (memAddr l.a off) ps) (b.storeImage l sp m rel (memAddr l.a off)) := by
  have htile : (if sp = .glob then none else b.tileFault (ckOf l.tk) ps) = none := ite_eq_left_iff.2 fun hsp => hc.resolve_left hsp
  simp only [storeBody, if_neg (not_misaligned ha), hp, htile]
  rfl

end

section
variable {b : State} {tk : Nat} {e : SbE} {img : SigE}

theorem State.addStore_of_own (h : (b.thr tk).pair = none ∨ e.space = .store) : b.addStore tk e img = b.enterStore tk e :=
  if_pos (by rwa [Bool.or_eq_true, Option.isNone_iff_eq_none, beq_iff_eq])

theorem State.addStore_of_pair (hp : (b.thr tk).pair ≠ none) (hsp : e.space ≠ .store) : b.addStore tk e img =
    if (b.thr tk).trails then .ok (b.addSig tk img)
    else if 256 ≤ b.cmpUsed (ckOf tk) then .park (.room 5)
    else .ok (b.fresh.2.addSig tk { img with held := some { e with u := b.uid } }) :=
  if_neg (by rw [Bool.or_eq_true, Option.isNone_iff_eq_none, beq_iff_eq]; exact not_or.2 ⟨hp, hsp⟩)

end

/-- Settles O28: a store by its alignment, its translation and the tiles it meets, and then by whether its pair compares it. -/
theorem stores : Obligations.Stores := by
  unfold Obligations.Stores
  intro w s m h off o hu hw b l a n data plain
  have hplain {ins : Instr} {sp : Space} {rel : Bool} (ha : rel = true → a.toNat % n = 0)
      (he : exec ins s = word w.f (useStore m o) (storeBody sp m rel h off) s) : plain ins sp rel := by
    refine ⟨fun c hp => w.faults_of hw hu he (storeBody_unwritable (s := b) (l := l) ha hp), fun ps b' hp =>
      ⟨fun c hsp hc => w.faults_of hw hu he (storeBody_into_tile (s := b) (l := l) ha hp hsp hc), fun hc => ?_⟩⟩
    have hbody := storeBody_writable (s := b) (l := l) (h := h) ha hp hc
    refine ⟨fun hown => w.buffers_of hw hu he (hbody.trans (State.addStore_of_own hown)), fun hpair hsp => ?_⟩
    have hadd := hbody.trans (State.addStore_of_pair hpair hsp)
    refine ⟨fun ht => w.completes_of hw hu he (hadd.trans (if_pos ht)), fun ht => ?_⟩
    have hlead := hadd.trans (if_neg (Bool.eq_false_iff.1 ht))
    split
    · rename_i hfull
      exact w.parks_of hw hu he (hlead.trans (if_pos hfull))
    · rename_i hroom
      exact w.completes_of hw hu he (hlead.trans (if_neg hroom))
  refine ⟨hplain nofun rfl, hplain nofun rfl, hplain nofun rfl, ?_⟩
  split
  · rename_i ha
    exact hplain (fun _ => ha) rfl
  · rename_i ha
    exact w.faults_of hw hu rfl (storeBody_misaligned ha)

end Sys2Proof.Machine
end

section
/-! SUPPORT. Returning atomics, reductions, and what an atomic makes of its word (R271, R272, R274, R275). -/

namespace Sys2Proof.Machine

/-! ### What an atomic makes of its word -/

section
variable {w32 : Bool} {x : Nat} (hx : x < 2 ^ if w32 then 32 else 64) (sgn : Bool) (b c : Nat)
include hx

theorem toInt_apply_min :
    let n := if w32 then 32 else 64
    toInt n sgn ((AtOp.min.apply w32 sgn x b c).1 % 2 ^ n) = min (toInt n sgn (x % 2 ^ n)) (toInt n sgn (b % 2 ^ n)) := by
  simp only [AtOp.apply, decide_eq_true_eq]
  generalize (if w32 then 32 else 64) = n at hx ⊢
  rw [Nat.mod_eq_of_lt hx]
  split
  · rename_i hb
    rw [Nat.mod_mod, min_eq_right hb.le]
  · rename_i hb
    rw [Nat.mod_eq_of_lt hx, min_eq_left (not_lt.1 hb)]

theorem toInt_apply_max :
    let n := if w32 then 32 else 64
    toInt n sgn ((AtOp.max.apply w32 sgn x b c).1 % 2 ^ n) = max (toInt n sgn (x % 2 ^ n)) (toInt n sgn (b % 2 ^ n)) := by
  simp only [AtOp.apply]
  generalize (if w32 then 32 else 64) = n at hx ⊢
  rw [Nat.mod_eq_of_lt hx]
  split
  · rename_i hb
    rw [Nat.mod_mod, max_eq_right hb.le]
  · rename_i hb
    rw [Nat.mod_eq_of_lt hx, max_eq_left (not_lt.1 hb)]

end

theorem AtOp.apply_cas (w32 sgn : Bool) (x b c : Nat) : AtOp.cas.apply w32 sgn x b c =
    let n := if w32 then 32 else 64
    if x = b % 2 ^ n then (c % 2 ^ n, some true) else (x, some false) := by
  simp only [AtOp.apply]
  generalize (if w32 then 32 else 64) = n
  split
  · rename_i hx
    rw [beq_iff_eq.2 hx]
  · rename_i hx
    rw [beq_eq_false_iff_ne.2 hx]

theorem AtOp.apply_badd (w32 sgn : Bool) (x b c : Nat) : AtOp.badd.apply w32 sgn x b c =
    let n := if w32 then 32 else 64
    let y := b % 2 ^ n
    if x + y < 2 ^ n ∧ x + y ≤ c % 2 ^ n then (x + y, some true) else (x, some false) := by
  simp only [AtOp.apply, ← Bool.decide_and, decide_eq_true_eq]
  generalize (if w32 then 32 else 64) = n
  split
  · rename_i hx
    rw [decide_eq_true hx]
  · rename_i hx
    rw [decide_eq_false hx]

/-! ### The words -/

section
variable {s b : State} {l : Lane} {op : AtOp} {m : AMod} {h : Hint} {pn : BitVec 3}

theorem atomicBody_misaligned (ha : l.a.w64.toNat % (if m.w32 then 4 else 8) ≠ 0) :
    atomicBody op m h pn s l = .fault { code := 0x07, addr := l.a.w64 } := if_pos ha

variable (ha : l.a.w64.toNat % (if m.w32 then 4 else 8) = 0)
include ha

theorem atomicBody_unreachable {c : Nat}
    (hp : s.globParts l.tk .rw true true [(l.a.w64.toNat, if m.w32 then 4 else 8)] = .error c) :
    atomicBody op m h pn s l = .fault { code := c, addr := l.a.w64 } := by
  simp only [atomicBody, if_neg (not_not.2 ha), hp]

/-- An atomic whose address is good, with no late failure to raise: it follows its leading copy, waits as a release, or begins. -/
theorem atomicBody_reachable {ps : List Piece}
    (hp : s.globParts l.tk .rw true true [(l.a.w64.toNat, if m.w32 then 4 else 8)] = .ok (ps, b))
    (hcalm : (b.thr l.tk).trails = false → (b.thr l.tk).late = []) :
    atomicBody op m h pn s l =
      let rel := m.rel && ps.any fun q => !isUo q.xl
      if (b.thr l.tk).trails then b.follow l pn
      else if rel && !(b.thr l.tk).relReady then .park .rel
      else b.beginAcc l { space := .glob, k := .atomic op m.w32 m.sgn l.b.w64 l.c.w64, size := if m.w32 then 4 else 8, acq := m.acq,
                          rel := m.rel, hint := h, pieces := ps, remote := b.anyRemote l.tk ps } pn := by
  rw [State.thr_globParts hp] at hcalm ⊢
  simp only [atomicBody, if_neg (not_not.2 ha), hp]
  cases htr : (s.thr l.tk).trails with
  | true => rfl
  | false => simp only [hcalm htr, List.any_nil, Bool.and_false, Bool.false_eq_true, if_false]

end

section
variable {s b : State} {l : Lane} {k : Bind} {m : AMod} {h : Hint}

theorem redBody_misaligned (ha : l.a.w64.toNat % (if m.w32 then 4 else 8) ≠ 0) :
    redBody k m h s l = .fault { code := 0x07, addr := l.a.w64 } := if_pos ha

variable (ha : l.a.w64.toNat % (if m.w32 then 4 else 8) = 0)
include ha

theorem redBody_unreachable {c : Nat}
    (hp : s.globParts l.tk .wr true true [(l.a.w64.toNat, if m.w32 then 4 else 8)] = .error c) :
    redBody k m h s l = .fault { code := c, addr := l.a.w64 } := by
  simp only [redBody, if_neg (not_not.2 ha), hp]

theorem redBody_reachable {ps : List Piece}
    (hp : s.globParts l.tk .wr true true [(l.a.w64.toNat, if m.w32 then 4 else 8)] = .ok (ps, b)) :
    redBody k m h s l =
      if (b.thr l.tk).trails then .ok b
      else b.enterStore l.tk
        { u := 0, gid := l.i.g.gid, k := .red k, rel := m.rel, hint := h, remote := b.anyRemote l.tk ps,
          pieces := storeParts l.a.w64.toNat (l.b.w64.toNat % 256 ^ (if m.w32 then 4 else 8)) ps } := by
  simp only [redBody, if_neg (not_not.2 ha), hp]

end

/-- Settles O29: a returning atomic and a reduction by address and copy, each operation's result by its own arithmetic. -/
theorem atomics : Obligations.Atomics := by
  unfold Obligations.Atomics
  refine ⟨fun w s m h hw => ?words, fun w32 sgn x b c => ?values⟩
  case words =>
    intro b l n a returns
    have hreturns {u : Use} (hu : w.u = u) {ins : Instr} {op : AtOp} {pn : BitVec 3}
        (he : exec ins s = word w.f u (atomicBody op m h pn) s) : returns ins op pn := by
      refine ⟨fun ha => w.faults_of hw hu he (atomicBody_misaligned ha), fun ha =>
        ⟨fun c hp => w.faults_of hw hu he (atomicBody_unreachable (s := b) (l := l) ha hp), fun ps b' hp => ?_⟩⟩
      intro rel far acc t
      have hbody := atomicBody_reachable (s := b) (l := l) (op := op) (h := h) (pn := pn) ha hp
      refine ⟨fun ht => w.completes_of hw hu he ((hbody fun hf => ?_).trans (if_pos ht)), fun ht hrel hr hl => ?_, fun ht hl hr => ?_⟩
      · exact absurd ht (Bool.eq_false_iff.1 hf)
      · refine w.parks_of hw hu he ((hbody fun _ => hl).trans ((if_neg (Bool.eq_false_iff.1 ht)).trans (if_pos ?_)))
        change (rel && !t.relReady) = true
        rw [hrel, hr]
        rfl
      · refine w.begins_of hw hu he ((hbody fun _ => hl).trans ((if_neg (Bool.eq_false_iff.1 ht)).trans (if_neg ?_)))
        rw [Bool.and_eq_true, Bool.not_eq_true']
        exact fun hm => Bool.eq_false_iff.1 hm.2 (hr hm.1)
    refine ⟨fun o hu => ⟨hreturns hu rfl, hreturns hu rfl, hreturns hu rfl, hreturns hu rfl, hreturns hu rfl, hreturns hu rfl,
      hreturns hu rfl, hreturns hu rfl, hreturns hu rfl, hreturns hu rfl⟩,
      fun o pe hu => ⟨hreturns hu rfl, hreturns hu rfl⟩, fun o hu => ?_⟩
    intro joins
    have hjoins {ins : Instr} {k : Bind} (he : exec ins s = word w.f (useRed m o) (redBody k m h) s) : joins ins k := by
      refine ⟨fun ha => w.faults_of hw hu he (redBody_misaligned ha), fun ha =>
        ⟨fun c hp => w.faults_of hw hu he (redBody_unreachable (s := b) (l := l) ha hp), fun ps b' hp => ?_⟩⟩
      have hbody := redBody_reachable (s := b) (l := l) (k := k) (h := h) ha hp
      exact ⟨fun ht => w.completes_of hw hu he (hbody.trans (if_pos ht)),
        fun ht => w.buffers_of hw hu he (hbody.trans (if_neg (Bool.eq_false_iff.1 ht)))⟩
    exact ⟨hjoins rfl, hjoins rfl, hjoins rfl, hjoins rfl⟩
  case values =>
    intro n v next hx
    exact ⟨Nat.add_mod_mod .., rfl, rfl, rfl, rfl, toInt_apply_min hx sgn b c, toInt_apply_max hx sgn b c, rfl, rfl,
      AtOp.apply_cas w32 sgn x b c, AtOp.apply_badd w32 sgn x b c⟩

end Sys2Proof.Machine
end

section
/-! SUPPORT. PREF, CFLUSH, CINV, FENCE and SDRAIN (R267, R268, R276, R277). -/

namespace Sys2Proof.Machine

/-! ### Prefetch -/

theorem skipsL1_iff {h : Hint} {x : Xl} : skipsL1 h x = true ↔ h = .noalloc ∨ field x.pte.toNat 8 7 ≠ 0 := by
  rw [skipsL1, Bool.or_eq_true, beq_iff_eq, bne_iff_ne]

section
variable {s b : State} {l : Lane} {h : Hint} {off : BitVec 14}

theorem prefBody_untranslated {c : Nat} (hx : s.xlAt l.tk (memAddr l.a off).toNat 1 .rd false true = .error c) :
    prefBody h off s l = .ok s := by
  simp only [prefBody, hx]

variable {x : Xl} (hx : s.xlAt l.tk (memAddr l.a off).toNat 1 .rd false true = .ok (some x, b))
include hx

theorem prefBody_uncached (hc : b.cachedPa x (memAddr l.a off).toNat = none) : prefBody h off s l = .ok b := by
  simp only [prefBody, hx, hc]

variable {pa : Nat} (hc : b.cachedPa x (memAddr l.a off).toNat = some pa)
include hc

theorem prefBody_of_fault (hf : b.paFault (pkgOfThr l.tk) pa false ≠ none) : prefBody h off s l = .ok b := by
  simp only [prefBody, hx, hc, if_pos (Option.isSome_iff_ne_none.2 hf)]

theorem prefBody_of_line (hf : b.paFault (pkgOfThr l.tk) pa false = none) : prefBody h off s l =
    if skipsL1 h x then .ok (b.homeHold (lineOf pa))
    else if (b.aline (pkgOfThr l.tk) (lineOf pa)).has .rd then .ok (b.l1Fill l.ck { line := lineOf pa, keep := keepOf h })
    else .ok ((b.askLine (pkgOfThr l.tk) 0 (lineOf pa) .rd).modALine (pkgOfThr l.tk) (lineOf pa) fun y =>
      { y with pref := y.pref ++ [(l.ck, keepOf h)] }) := by
  simp only [prefBody, hx, hc, hf, Option.isSome_none, Bool.false_eq_true, if_false]

end

/-! ### Cache maintenance -/

/-- The entry that gives back the line of an address joins the store buffer and is counted. -/
def State.enterLine (b : State) (l : Lane) (k : Nat → StK) (h : Hint) (va : Nat) (x : Xl) (pa : Nat) : State :=
  let far := homeOf pa != pkgOfThr l.tk
  let e : SbE :=
    { u := b.uid, gid := l.i.g.gid, k := k (lineOf pa), hint := h, remote := far,
      pieces := [{ va := va / 128 * 128, n := 128, xl := some x, data := 0, mask := 0 }] }
  b.fresh.2.modThr l.tk fun t =>
    { t with sb := t.sb ++ [e], c := { t.c with suc := t.c.suc + 1, frc := t.c.frc + if far then 1 else 0 } }

section
variable {s b : State} {l : Lane} {h : Hint} {off : BitVec 14} (k : Nat → StK)

theorem cacheBody_untranslated {c : Nat} (hx : s.xlAt l.tk (memAddr l.a off).toNat 1 .rd false true = .error c) :
    cacheBody k h off s l = .fault { code := c, addr := memAddr l.a off } := by
  simp only [cacheBody, hx]

variable {x : Xl} (hx : s.xlAt l.tk (memAddr l.a off).toNat 1 .rd false true = .ok (some x, b))
include hx

theorem cacheBody_uncached (hc : b.cachedPa x (memAddr l.a off).toNat = none) : cacheBody k h off s l = .ok b := by
  simp only [cacheBody, hx, hc]

theorem cacheBody_of_line {pa : Nat} (hc : b.cachedPa x (memAddr l.a off).toNat = some pa) : cacheBody k h off s l =
    if (b.thr l.tk).trails then .ok b
    else if 255 ≤ (b.thr l.tk).c.suc then .park (.room 7)
    else if homeOf pa != pkgOfThr l.tk && decide (ctrMax ≤ (b.thr l.tk).c.frc) then .park (.room 9)
    else .ok (b.enterLine l k h (memAddr l.a off).toNat x pa) := by
  simp only [cacheBody, hx, hc]
  rfl

end

/-! ### Fences -/

theorem Ctrs.clear_iff {c : Ctrs} {ldc suc eng : Bool} : c.clear ldc suc eng = true ↔
    (ldc = true → c.ldc = 0) ∧ (suc = true → c.suc = 0) ∧ (eng = true → c.enc = 0 ∧ c.twc = 0) := by
  cases ldc <;> cases suc <;> cases eng <;> simp [Ctrs.clear, and_assoc]

theorem execFence_eq (f : Frame) (sc : Scope) (h : Hint) (kind : FenceKind) (s : State) : execFence f sc h kind s =
    word f { close := true, drain := kind != .loads } (waitCtrs (kind != .stores) (kind != .loads) (kind == .engines)) s := by
  cases kind <;> rfl

/-- A word that waits until the counters it names are zero. -/
theorem Stand.completes_once_clear {w : Stand} {s : State} (h : w.Clear s) {u : Use} (hu : w.u = u) {ins : Instr}
    {ldc suc eng : Bool} (he : exec ins s = word w.f u (waitCtrs ldc suc eng) s) {zero : Prop} [Decidable zero]
    (hz : ((w.begun s).thr w.tk).c.clear ldc suc eng = true ↔ zero) :
    if zero then w.Completes s ins (w.begun s) else w.Parks s ins (.ctrs ldc suc eng) := by
  split
  · rename_i hzero
    exact w.completes_of h hu he (if_pos (hz.2 hzero))
  · rename_i hzero
    exact w.parks_of h hu he (if_neg (mt hz.1 hzero))

/-- Settles O30: each word by its translation, the line it names and its copy, a fence by its counters. -/
theorem cacheAndFences : Obligations.CacheAndFences := by
  unfold Obligations.CacheAndFences
  intro w s h hw b l c
  refine ⟨fun src off hu => ?lines, fun sc kind => ?fences⟩
  case lines =>
    intro a p
    refine ⟨fun code hx => w.completes_of hw hu rfl (prefBody_untranslated (s := b) (l := l) hx), fun x b' hx => ?pref,
      fun code hx => ?untranslated, fun x b' hx => ?maintain⟩
    case pref =>
      refine ⟨fun hc => w.completes_of hw hu rfl (prefBody_uncached (s := b) (l := l) hx hc), fun pa hc =>
        ⟨fun hf => w.completes_of hw hu rfl (prefBody_of_fault (s := b) (l := l) hx hc hf), fun hf => ?_⟩⟩
      intro skip
      have hbody := prefBody_of_line (s := b) (l := l) (h := h) hx hc hf
      have hl1 (hs : ¬skip) := hbody.trans (if_neg (mt skipsL1_iff.1 hs))
      exact ⟨fun hs => w.completes_of hw hu rfl (hbody.trans (if_pos (skipsL1_iff.2 hs))),
        fun hs hr => w.completes_of hw hu rfl ((hl1 hs).trans (if_pos hr)),
        fun hs hr => w.completes_of hw hu rfl ((hl1 hs).trans (if_neg (Bool.eq_false_iff.1 hr)))⟩
    case untranslated =>
      have hbody (k : Nat → StK) := cacheBody_untranslated (s := b) (l := l) (h := h) k hx
      exact ⟨w.faults_of hw hu rfl (hbody _), w.faults_of hw hu rfl (hbody _)⟩
    case maintain =>
      refine ⟨fun hc => ?uncached, fun pa hc => ?line⟩
      case uncached =>
        have hbody (k : Nat → StK) := cacheBody_uncached (s := b) (l := l) (h := h) k hx hc
        exact ⟨w.completes_of hw hu rfl (hbody _), w.completes_of hw hu rfl (hbody _)⟩
      case line =>
        intro t far e entry
        have hbody (k : Nat → StK) := cacheBody_of_line (s := b) (l := l) (h := h) k hx hc
        have hacts (ht : t.trails = false) (k : Nat → StK) := (hbody k).trans (if_neg (Bool.eq_false_iff.1 ht))
        have hcounts (ht : t.trails = false) (hs : t.c.suc < 255) (k : Nat → StK) :=
          (hacts ht k).trans (if_neg (Nat.not_le.2 hs))
        refine ⟨fun ht => ?_, fun ht hs => ?_, fun ht hs hr hf => ?_, fun ht hs hf => ?_⟩
        · have hpass (k : Nat → StK) := (hbody k).trans (if_pos ht)
          exact ⟨w.completes_of hw hu rfl (hpass _), w.completes_of hw hu rfl (hpass _)⟩
        · have hfull (k : Nat → StK) := (hacts ht k).trans (if_pos hs)
          exact ⟨w.parks_of hw hu rfl (hfull _), w.parks_of hw hu rfl (hfull _)⟩
        · have hfull (k : Nat → StK) := (hcounts ht hs k).trans (if_pos (remoteFull_iff.2 ⟨hr, hf⟩))
          exact ⟨w.parks_of hw hu rfl (hfull _), w.parks_of hw hu rfl (hfull _)⟩
        · have henter (k : Nat → StK) := (hcounts ht hs k).trans (if_neg (not_remoteFull hf))
          exact ⟨w.completes_of hw hu rfl (henter _), w.completes_of hw hu rfl (henter _)⟩
  case fences =>
    intro ldc suc eng
    exact ⟨fun hu => w.completes_once_clear (ins := .fence w.f sc h kind) hw hu (execFence_eq w.f sc h kind s) Ctrs.clear_iff,
      fun hu => w.completes_once_clear hw hu rfl
        (Ctrs.clear_iff.trans ⟨fun hz => hz.2.1 rfl, fun hz => ⟨nofun, fun _ => hz, nofun⟩⟩)⟩

end Sys2Proof.Machine
end

section
/-! SUPPORT. The tile table (R284 to R286, R291, R293, R294). -/

namespace Sys2Proof.Machine

/-! ### TDEF -/

/-- The last of TDEF's checks: the places of the tile `t` in its space, and what `old` and the other entries of the allotment hold. -/
def State.placeTile (s : State) (l : Lane) (k : Nat) (old t : Tile) : Res :=
  match s.tilePlace l.tk t.vault t.base t.len,
    (if fmtIsBlock t.fmt then s.tilePlace l.tk t.vault t.sbase t.scaleLen else some 0) with
  | some p, some q =>
    if !old.idle ∨ s.tileOverlap l.tk k { t with loc := p, sloc := q } then .fault { code := 0x0E }
    else .ok (s.setTile (ckOf l.tk) k { t with loc := p, sloc := q })
  | _, _ => .fault { code := 0x09 }

section
variable {s : State} {l : Lane} {k : Nat} {old t : Tile}

theorem State.placeTile_unplaced (h : s.tilePlace l.tk t.vault t.base t.len = none
    ∨ (fmtIsBlock t.fmt = true ∧ s.tilePlace l.tk t.vault t.sbase t.scaleLen = none)) :
    s.placeTile l k old t = .fault { code := 0x09 } := by
  rw [State.placeTile]
  rcases h with h | ⟨hf, h⟩
  · rw [h]
  · rw [if_pos hf, h]
    cases s.tilePlace l.tk t.vault t.base t.len <;> rfl

theorem State.placeTile_placed {p q : Nat} (hp : s.tilePlace l.tk t.vault t.base t.len = some p)
    (hq : (if fmtIsBlock t.fmt then s.tilePlace l.tk t.vault t.sbase t.scaleLen else some 0) = some q) :
    let t' := { t with loc := p, sloc := q }
    s.placeTile l k old t = if old.idle = true ∧ s.tileOverlap l.tk k t' = false then .ok (s.setTile (ckOf l.tk) k t')
      else .fault { code := 0x0E } := by
  intro t'
  rw [State.placeTile, hp, hq]
  by_cases hfree : old.idle = true ∧ s.tileOverlap l.tk k t' = false
  · rw [if_pos hfree]
    exact if_neg (by simpa using hfree)
  · rw [if_neg hfree]
    refine if_pos ?_
    rw [not_and_or, Bool.not_eq_true, Bool.not_eq_false] at hfree
    simpa using hfree

end

section
variable {s : State} {l : Lane} {n w0 w1 : Nat} (h0 : l.a.w64.toNat = w0) (h1 : (l.hi 0).toNat = w1)
include h0

theorem tdefBody_refused (hf : s.fmtRefused l.tk (w0 / 4 % 16) = true) : tdefBody n s l = .fault { code := 0x18 } := by
  subst h0
  exact if_pos hf

variable (hf : ¬s.fmtRefused l.tk (w0 / 4 % 16) = true)
include hf

theorem tdefBody_outside (hi : s.tileIx l.tk n = none) : tdefBody n s l = .fault { code := 0x0E } := by
  subst h0
  refine (if_neg hf).trans ?_
  rw [hi]

/-- The entry that an image defines once its format is allowed and its number lies in the allotment: the checks in their order. -/
theorem tdefBody_inside {k : Nat} (hi : s.tileIx l.tk n = some k) {old t : Tile} (hold : s.tile (ckOf l.tk) k = old)
    (ht : old.ofImage w0 w1 = t) (h1 : (l.hi 0).toNat = w1) : tdefBody n s l =
    if imageBad w0 w1 then .fault { code := 0x02 }
    else if w0 = 0 ∧ t.sbase = 0 then if old.idle then .ok (s.setTile (ckOf l.tk) k {}) else .fault { code := 0x0E }
    else if !layoutOk t.plane t.fmt t.cols ∨ (!fmtIsBlock t.fmt ∧ t.sbase ≠ 0) then .fault { code := 0x02 }
    else if t.base % 128 ≠ 0 ∨ t.sbase % 128 ≠ 0 then .fault { code := 0x07 }
    else s.placeTile l k old t := by
  subst h0 hold ht h1
  refine (if_neg hf).trans ?_
  rw [hi]
  rfl

end

/-! ### TWAIT -/

section
variable (s : State) (l : Lane)

/-- Passing a value touches no table but that of the threads. -/
theorem State.pass_eq (tk : Nat) (v : PairVal) : ∃ l, s.pass tk v = { s with threads := l } := by
  unfold State.pass
  split
  · exact ⟨_, rfl⟩
  · exact ⟨s.threads, rfl⟩

/-- A wait that begins touches the threads alone, and takes a name. -/
theorem State.pendNew_eq (k : PK) (pn : BitVec 3) : ∃ x, (s.pendNew l k pn).2 = { s with threads := x, uid := s.uid + 16 } := by
  have hpass : ∃ x, (if k.outside then s.fresh.2.passPlace l.tk (s.fresh.2.thr l.tk).nw else s.fresh.2) =
      { s with threads := x, uid := s.uid + 16 } := by
    split
    · obtain ⟨x, hx⟩ := s.fresh.2.pass_eq l.tk { pos := (s.fresh.2.thr l.tk).nw, src := false, ready := false }
      exact ⟨x, hx⟩
    · exact ⟨s.threads, rfl⟩
  obtain ⟨x, hx⟩ := hpass
  unfold State.pendNew State.pendAs
  dsimp only
  rw [hx]
  exact ⟨_, rfl⟩

/-- TWAIT begins to wait for the state `ws` of entry `i`: the wait ends at once where the entry stands in the state already. -/
def State.beginTwait (s : State) (l : Lane) (i : Nat) (ws : TileState) : State :=
  let t := (s.pendNew l (.twait i ws) 7).2.modThr l.tk fun t => { t with c := { t.c with ldc := t.c.ldc + 1 } }
  if (t.tile (ckOf l.tk) i).st = ws then { t with agenda := .twaitComplete l.tk s.uid :: t.agenda } else t

theorem State.beginTwait_spec (i : Nat) (ws : TileState) :
    let t := (s.pendNew l (.twait i ws) 7).2.modThr l.tk fun t => { t with c := { t.c with ldc := t.c.ldc + 1 } }
    (s.beginTwait l i ws).threads = t.threads ∧ (s.beginTwait l i ws).mem = s.mem ∧ (s.beginTwait l i ws).agenda =
      (if (s.tile (ckOf l.tk) i).st = ws then [.twaitComplete l.tk s.uid] else []) ++ s.agenda := by
  intro t
  obtain ⟨x, hx⟩ := s.pendNew_eq l (.twait i ws) 7
  have htile : t.tile (ckOf l.tk) i = s.tile (ckOf l.tk) i := by simp only [t, hx]; rfl
  have hmem : t.mem = s.mem := by simp only [t, hx]; rfl
  have hagenda : t.agenda = s.agenda := by simp only [t, hx]; rfl
  rw [← htile, ← hmem, ← hagenda]
  by_cases hs : (t.tile (ckOf l.tk) i).st = ws
  · have hbegin : s.beginTwait l i ws = { t with agenda := .twaitComplete l.tk s.uid :: t.agenda } := if_pos hs
    rw [hbegin, if_pos hs]
    exact ⟨rfl, rfl, rfl⟩
  · have hbegin : s.beginTwait l i ws = t := if_neg hs
    rw [hbegin, if_neg hs]
    exact ⟨rfl, rfl, rfl⟩

end

/-- TWAIT's own effect by the entry that its number names. -/
def twaitBody (n : Nat) (ws : TileState) (s : State) (l : Lane) : Res :=
  match s.tileIx l.tk n with
  | none => .fault { code := 0x0E }
  | some i =>
    if (s.thr l.tk).trails then s.follow l
    else if 255 ≤ (s.thr l.tk).c.ldc then .park (.room 6)
    else .ok (s.beginTwait l i ws)

theorem exec_twait (f : Frame) (ws : TileState) (d : Dst) (n : BitVec 6) (s : State) : exec (.twait f ws d n) s =
    word f { dst := some d, vl := true } (twaitBody n.toNat ws) s := rfl

section
variable {s : State} {l : Lane} {n : Nat} {ws : TileState}

theorem twaitBody_outside (hi : s.tileIx l.tk n = none) : twaitBody n ws s l = .fault { code := 0x0E } := by
  rw [twaitBody, hi]

theorem twaitBody_inside {i : Nat} (hi : s.tileIx l.tk n = some i) : twaitBody n ws s l =
    if (s.thr l.tk).trails then .ok (s.pendNew l .copied 7).2
    else if 255 ≤ (s.thr l.tk).c.ldc then .park (.room 6)
    else .ok (s.beginTwait l i ws) := by
  rw [twaitBody, hi]
  rfl

end

/-! ### TQRY, TREADY and TEMPTY -/

def tqryBody (n : Nat) (wd : Bool) (s : State) (l : Lane) : Res :=
  match s.tileIx l.tk n with
  | none => .fault { code := 0x0E }
  | some i => .ok (s.put l (if wd then (s.tile (ckOf l.tk) i).word1 else (s.tile (ckOf l.tk) i).word0))

theorem exec_tqry (f : Frame) (d : Dst) (n : BitVec 6) (wd : Bool) (s : State) : exec (.tqry f d n wd) s =
    word f { dst := some d } (tqryBody n.toNat wd) s := rfl

def treadyBody (n : Nat) (s : State) (l : Lane) : Res :=
  match s.useTile l.tk n with
  | none => .fault { code := 0x0E }
  | some (i, e) =>
    if e.st = .draining ∨ (e.st = .filling ∧ e.byeng) then .fault { code := 0x0E }
    else .ok (s.setTile (ckOf l.tk) i { e with publ := true })

theorem exec_tready (f : Frame) (n : BitVec 6) (s : State) : exec (.tready f n) s = word f { rel := true } (treadyBody n.toNat) s := rfl

def temptyBody (n : Nat) (s : State) (l : Lane) : Res :=
  match s.useTile l.tk n with
  | none => .fault { code := 0x0E }
  | some (i, e) => if e.idle then .ok (s.setTile (ckOf l.tk) i (e.become .empty)) else .fault { code := 0x0E }

theorem exec_tempty (f : Frame) (n : BitVec 6) (s : State) : exec (.tempty f n) s = word f {} (temptyBody n.toNat) s := rfl

section
variable {s : State} {l : Lane} {n i : Nat} {wd : Bool} {e : Tile}

theorem tqryBody_outside (hi : s.tileIx l.tk n = none) : tqryBody n wd s l = .fault { code := 0x0E } := by
  rw [tqryBody, hi]

theorem tqryBody_inside (hi : s.tileIx l.tk n = some i) : tqryBody n wd s l =
    .ok (s.put l (if wd then (s.tile (ckOf l.tk) i).word1 else (s.tile (ckOf l.tk) i).word0)) := by
  rw [tqryBody, hi]

theorem treadyBody_undefined (hi : s.useTile l.tk n = none) : treadyBody n s l = .fault { code := 0x0E } := by
  rw [treadyBody, hi]

theorem treadyBody_defined (hi : s.useTile l.tk n = some (i, e)) : treadyBody n s l =
    if e.st = .draining ∨ (e.st = .filling ∧ e.byeng) then .fault { code := 0x0E }
    else .ok (s.setTile (ckOf l.tk) i { e with publ := true }) := by
  rw [treadyBody, hi]

theorem temptyBody_undefined (hi : s.useTile l.tk n = none) : temptyBody n s l = .fault { code := 0x0E } := by
  rw [temptyBody, hi]

theorem temptyBody_defined (hi : s.useTile l.tk n = some (i, e)) : temptyBody n s l =
    if e.idle then .ok (s.setTile (ckOf l.tk) i { e with st := .empty, byeng := false, publ := false })
    else .fault { code := 0x0E } := by
  rw [temptyBody, hi]
  rfl

end

/-- Settles O31: TDEF by its checks in their order, each other word by what its number names. -/
theorem tileTable : Obligations.TileTable := by
  unfold Obligations.TileTable
  intro w s n hw b l ck bad table
  refine ⟨fun a d wd ws => ⟨fun hu => ?tdef, fun hu => ?tqry, fun hu => ?twait⟩, fun hi => ⟨fun hu => ?_, fun hu => ?_⟩,
    fun k e hi => ⟨fun hu => ?tready, fun hu => ?tempty⟩⟩
  case tdef =>
    intro w0 w1
    refine ⟨fun hf => w.faults_of hw hu rfl (tdefBody_refused rfl hf),
      fun hi hf => w.faults_of hw hu rfl (tdefBody_outside rfl (Bool.eq_false_iff.1 hf) hi), fun k hi => ?_⟩
    intro old t
    have hbody (hf : b.fmtRefused w.tk t.fmt = false) :=
      tdefBody_inside (s := b) (l := l) rfl (Bool.eq_false_iff.1 hf) hi (old := old) rfl (t := t) rfl rfl
    refine ⟨fun hf hbad => w.faults_of hw hu rfl ((hbody hf).trans (if_pos hbad)), fun hf hbad => ?_⟩
    have hbody := (hbody hf).trans (if_neg (Bool.eq_false_iff.1 hbad))
    refine ⟨fun h0 hs => ?clear, fun hz hbad => ?_, fun hz hl hs => ?_⟩
    case clear =>
      have hbody := hbody.trans (if_pos ⟨h0, hs⟩)
      split
      · rename_i hidle
        exact w.completes_of hw hu rfl (hbody.trans (if_pos hidle))
      · rename_i hidle
        exact w.faults_of hw hu rfl (hbody.trans (if_neg hidle))
    · refine w.faults_of hw hu rfl (hbody.trans ((if_neg hz).trans (if_pos ?_)))
      simpa using hbad
    · have hlaid : ¬(!layoutOk t.plane t.fmt t.cols ∨ (!fmtIsBlock t.fmt ∧ t.sbase ≠ 0)) := by
        rcases hs with hs | hs <;> simp [hl, hs]
      have hbody := hbody.trans ((if_neg hz).trans (if_neg hlaid))
      refine ⟨fun hm => w.faults_of hw hu rfl (hbody.trans (if_pos hm)), fun hbase hsbase hp => ?unplaced,
        fun hbase hsbase p q hp hq => ?placed⟩
      case unplaced =>
        have hbody := hbody.trans (if_neg (not_or.2 ⟨not_not.2 hbase, not_not.2 hsbase⟩))
        exact w.faults_of hw hu rfl (hbody.trans (State.placeTile_unplaced (l := l) hp))
      case placed =>
        have hbody := hbody.trans (if_neg (not_or.2 ⟨not_not.2 hbase, not_not.2 hsbase⟩))
        have hbody := hbody.trans (State.placeTile_placed (l := l) hp hq)
        intro t'
        split
        · rename_i hfree
          exact w.completes_of hw hu rfl (hbody.trans (if_pos hfree))
        · rename_i hfree
          exact w.faults_of hw hu rfl (hbody.trans (if_neg hfree))
  case tqry =>
    exact ⟨fun hi => w.faults_of hw hu (exec_tqry ..) (tqryBody_outside hi),
      fun k hi => w.completes_of hw hu (exec_tqry ..) (tqryBody_inside hi)⟩
  case twait =>
    refine ⟨fun hi => w.faults_of hw hu (exec_twait ..) (twaitBody_outside hi), fun k hi ht => ?_, fun k hi ht hc => ?_,
      fun k hi ht hc => ?_⟩
    · exact w.completes_of hw hu (exec_twait ..) ((twaitBody_inside (l := l) hi).trans (if_pos ht))
    · exact w.parks_of hw hu (exec_twait ..)
        ((twaitBody_inside (l := l) hi).trans ((if_neg (Bool.eq_false_iff.1 ht)).trans (if_pos hc)))
    · intro b'
      have hbody := (twaitBody_inside (l := l) (ws := ws) hi).trans
        ((if_neg (Bool.eq_false_iff.1 ht)).trans (if_neg (Nat.not_le.2 hc)))
      exact ⟨_, w.completes_of hw hu (exec_twait ..) hbody, b.beginTwait_spec l k ws⟩
  · exact w.faults_of hw hu (exec_tready ..) (treadyBody_undefined hi)
  · exact w.faults_of hw hu (exec_tempty ..) (temptyBody_undefined hi)
  case tready =>
    have hbody := treadyBody_defined (l := l) hi
    split
    · rename_i hbusy
      exact w.faults_of hw hu (exec_tready ..) (hbody.trans (if_pos hbusy))
    · rename_i hbusy
      exact w.completes_of hw hu (exec_tready ..) (hbody.trans (if_neg hbusy))
  case tempty =>
    have hbody := temptyBody_defined (l := l) hi
    split
    · rename_i hidle
      exact w.completes_of hw hu (exec_tempty ..) (hbody.trans (if_pos hidle))
    · rename_i hidle
      exact w.faults_of hw hu (exec_tempty ..) (hbody.trans (if_neg hidle))

end Sys2Proof.Machine
end

section
/-! SUPPORT. What reaches tile contents and shadow pages (R295, R296, R297). -/

namespace Sys2Proof.Machine

/-! ### TSTB and TLDB -/

/-- What a word's effect comes to where `f` follows it. -/
def Res.thenState (f : State → State) : Res → Res
  | .ok s => .ok (f s)
  | x => x

/-- The entry that TSTB leaves in the store buffer: the image `v` at row `r` and column `c` of the tile. -/
def Tile.storeEntry (t : Tile) (l : Lane) (r c v : Nat) : SbE :=
  { u := 0, gid := l.i.g.gid, k := .tile, pieces := t.storeParts r c (imageElems t.fmt) v,
    space := if t.vault then .vault else .store }

/-- TLDB's read of the register image at row `r` and column `c` of the tile. -/
def Tile.loadAcc (t : Tile) (r c : Nat) : Acc :=
  { space := if t.vault then .vault else .store, k := .load, size := 8, pieces := t.loadPieces r c (imageElems t.fmt) }

section
variable {s : State} {l : Lane} {n i r c : Nat} {t : Tile} (hi : s.useTile l.tk n = some (i, t))
  (hp : tilePos t l.b.w64 (imageElems t.fmt) = some (r, c))
include hi hp

/-- TSTB of a plane tile that no engine fills enters the store buffer, and the tile is filled by hand. -/
theorem tstbBody_fills {a : Src} (h8 : t.fmt = 8 → directPair a.opd = true) (hpl : t.plane = true)
    (hst : t.idle = true ∨ (t.st = .filling ∧ t.byeng = false)) : tstbBody n a s l =
    (s.enterStore l.tk (t.storeEntry l r c (l.a.w64.toNat + (if t.fmt = 8 then 2 ^ 64 * ((l.hi 0).toNat % 2 ^ 32) else 0)))).thenState
      fun s => s.setTile (ckOf l.tk) i { t with st := .filling, byeng := false, clus := false, grid := none } := by
  have hdirect : ¬(t.fmt = 8 ∧ (!directPair a.opd) = true) := fun h => by simp [h8 h.1] at h
  have hopen : ¬((!t.plane) = true ∨ (!(t.idle || (t.st == .filling && !t.byeng))) = true) := by
    rcases hst with h | ⟨h, h'⟩ <;> simp [*]
  unfold tstbBody
  rw [hi]
  dsimp only
  rw [if_neg hdirect, if_pos hpl, hp]
  dsimp only
  rw [if_neg hopen]
  rfl

theorem tldbBody_reads {d : Dst} (h8 : t.fmt = 8 → directPair (dstOpd d) = true) : tldbBody n d s l =
    if t.st = .ready then
      if 255 ≤ (s.thr l.tk).c.ldc then .park (.room 6)
      else .ok ((s.pendNew l (.tldb (t.loadAcc r c) (tldbGeo t r c (imageElems t.fmt))) 7).2.modThr l.tk fun t =>
        { t with c := { t.c with ldc := t.c.ldc + 1 } })
    else .fault { code := 0x0E } := by
  have hdirect : ¬(t.fmt = 8 ∧ (!directPair (dstOpd d)) = true) := fun h => by simp [h8 h.1] at h
  unfold tldbBody
  rw [hi]
  dsimp only
  rw [if_neg hdirect, hp]
  dsimp only
  rw [ite_not]
  rfl

end

/-! ### SHADOW -/

section
variable {s b1 b2 b3 : State} {l : Lane}

theorem shadowBody_misaligned (h : l.a.w64.toNat % 2 ^ 16 ≠ 0 ∨ l.b.w64.toNat % 2 ^ 16 ≠ 0 ∨ l.c.w64.toNat % 2 ^ 16 ≠ 0
    ∨ l.e.w64.toNat % 2 ^ 16 ≠ 0 ∨ l.e.w64.toNat = 0) : shadowBody s l = .fault { code := 0x07, addr := l.a.w64 } := if_pos h

/-- The descriptor store that SHADOW leaves at `d` for backings at `p` and `q`. -/
def Lane.shadowEntry (l : Lane) (u d p q : Nat) : SbE :=
  let a := l.a.w64.toNat
  { u := u, gid := l.i.g.gid, k := .shadow, rel := true,
    pieces := [{ va := a, n := 40, loc := some d,
                 data := p * 2 ^ 64 + q * 2 ^ 128 + a * 2 ^ 192 + l.e.w64.toNat * 2 ^ 256, mask := 2 ^ 320 - 1 }] }

theorem shadowBody_backed {d p q : Nat} {x : Xl} (ha : l.a.w64.toNat % 2 ^ 16 = 0) (hb : l.b.w64.toNat % 2 ^ 16 = 0)
    (hc : l.c.w64.toNat % 2 ^ 16 = 0) (hn : l.e.w64.toNat % 2 ^ 16 = 0) (h0 : l.e.w64.toNat ≠ 0)
    (hd : s.shadowDesc l.tk l.a.w64.toNat = .ok (d, x, b1))
    (hp : b1.backing l.tk l.b.w64.toNat none (l.e.w64.toNat / 0x10000) = .ok (some p, b2))
    (hq : b2.backing l.tk l.c.w64.toNat none (l.e.w64.toNat / 0x10000) = .ok (some q, b3)) : shadowBody s l =
    if (b3.thr l.tk).trails then .ok b3
    else if 16 ≤ (b3.thr l.tk).sbUsed then .park (.room 4)
    else .ok (b3.fresh.2.modThr l.tk fun t => { t with sb := t.sb ++ [l.shadowEntry b3.uid d p q], hold := true }) := by
  have haligned : ¬(l.a.w64.toNat % 0x10000 ≠ 0 ∨ l.b.w64.toNat % 0x10000 ≠ 0 ∨ l.c.w64.toNat % 0x10000 ≠ 0
      ∨ l.e.w64.toNat % 0x10000 ≠ 0 ∨ l.e.w64.toNat = 0) := by simp_all
  unfold shadowBody
  dsimp only
  rw [if_neg haligned, hd]
  dsimp only
  rw [hp]
  dsimp only
  rw [hq]
  rfl

end

/-! ### PUBLISH -/

section
variable {s b : State} {l : Lane}

theorem publishBody_unshadowed {c : Nat} (h : s.shadowDesc l.tk l.a.w64.toNat = .error c) :
    publishBody s l = .fault { code := c, addr := l.a.w64 } := by
  unfold publishBody
  dsimp only
  rw [h]

/-- The flip that PUBLISH leaves at `d`. -/
def Lane.publishEntry (l : Lane) (u d : Nat) : SbE :=
  { u := u, gid := l.i.g.gid, k := .publish, rel := true, remote := homeOf d != pkgOfThr l.tk,
    pieces := [{ va := l.a.w64.toNat, n := 8, loc := some d, data := 0, mask := 2 ^ 64 - 1 }] }

theorem publishBody_of_desc {d : Nat} {x : Xl} (h : s.shadowDesc l.tk l.a.w64.toNat = .ok (d, x, b))
    (hf : b.issueFault (pkgOfThr l.tk) l.a.w64.toNat 1 x .wr false = none) : publishBody s l =
    if (b.thr l.tk).trails then .ok b else b.enterStore l.tk (l.publishEntry 0 d) := by
  unfold publishBody
  dsimp only
  rw [h]
  dsimp only
  rw [hf]
  rfl

end

/-- Settles O32: TSTB and PUBLISH by what the store buffer makes of their entries, TLDB by the tile's state, SHADOW by its checks and
the copy. -/
theorem tileData : Obligations.TileData := by
  unfold Obligations.TileData
  intro w s n hw b l ck
  refine ⟨fun o i t r c hu hi h8 hpl hp hst => ?tstb, fun d a i t r c hu hi h8 hp => ?tldb, fun o hu => ?shadow,
    fun sc a hu => ?publish⟩
  case tstb =>
    have hbody := tstbBody_fills (s := b) (l := l) hi hp h8 hpl hst
    have hfills {r : Res} (hr : b.enterStore w.tk (t.storeEntry l _ _ _) = r) := hbody.trans (congrArg (Res.thenState _) hr)
    exact ⟨fun hs => w.parks_of hw hu rfl (hfills (State.enterStore_of_sb_full hs)),
      fun hs hc => w.parks_of hw hu rfl (hfills (State.enterStore_of_suc_full hs hc)),
      fun hs hc => w.completes_of hw hu rfl (hfills (State.enterStore_of_room hs hc nofun))⟩
  case tldb =>
    have hbody := tldbBody_reads (s := b) (l := l) hi hp h8
    intro e acc
    split
    · rename_i hst
      have hbody := hbody.trans (if_pos hst)
      split
      · rename_i hc
        exact w.parks_of hw hu rfl (hbody.trans (if_pos hc))
      · rename_i hc
        exact w.completes_of hw hu rfl (hbody.trans (if_neg hc))
    · rename_i hst
      exact w.faults_of hw hu rfl (hbody.trans (if_neg hst))
  case shadow =>
    intro a len x
    refine ⟨fun h => w.faults_of hw hu rfl (shadowBody_misaligned h), fun d xl b1 p b2 q b3 ha hb hc hn h0 hd hp hq => ?_⟩
    have hbody := shadowBody_backed (l := l) ha hb hc hn h0 hd hp hq
    refine ⟨fun ht => w.completes_of hw hu rfl (hbody.trans (if_pos ht)), fun ht hs => ?_, fun ht hs => ?_⟩
    · exact w.parks_of hw hu rfl (hbody.trans ((if_neg (Bool.eq_false_iff.1 ht)).trans (if_pos hs)))
    · exact w.completes_of hw hu rfl (hbody.trans ((if_neg (Bool.eq_false_iff.1 ht)).trans (if_neg (Nat.not_le.2 hs))))
  case publish =>
    intro v
    refine ⟨fun c h => w.faults_of hw hu rfl (publishBody_unshadowed h), fun d x b1 hd hf => ?_⟩
    intro t far e
    have hbody := publishBody_of_desc (l := l) hd hf
    refine ⟨fun ht => w.completes_of hw hu rfl (hbody.trans (if_pos ht)), fun ht => ?_⟩
    exact w.buffers_of hw hu rfl (hbody.trans (if_neg (Bool.eq_false_iff.1 ht)))

end Sys2Proof.Machine
end

section
/-! SUPPORT. What an engine command changes as it is accepted (R289, R290, R299, R313, R314): its queue, its tiles, its ticket, its
counters. -/

namespace Sys2Proof.Machine

/-! ### Tiles -/

section
variable (s : State) (ck i : Nat) (t : Tile) (f : Tile → Tile)

/-- Changing an entry of the tile table may end waits for its state, and touches no other table. -/
theorem State.setTile_eq : ∃ a, s.setTile ck i t =
    { s.modCore ck fun c => { c with tiles := Tab.put c.tiles i t } with agenda := a } := by
  unfold State.setTile
  dsimp only
  split
  · exact ⟨s.agenda, rfl⟩
  · exact ⟨_, rfl⟩

theorem State.core_setTile (k : Nat) : (s.setTile ck i t).core k =
    (s.modCore ck fun c => { c with tiles := Tab.put c.tiles i t }).core k := by
  obtain ⟨a, ha⟩ := s.setTile_eq ck i t
  rw [ha]
  rfl

@[simp] theorem State.threads_setTile : (s.setTile ck i t).threads = s.threads := by
  obtain ⟨a, ha⟩ := s.setTile_eq ck i t
  rw [ha]
  rfl

@[simp] theorem State.tile_setTile : (s.setTile ck i t).tile ck i = t := by
  rw [State.tile, State.core_setTile, State.core_modCore]
  exact Tab.getOr_put_same ..

theorem State.tile_setTile_ne {j : Nat} (h : j ≠ i) : (s.setTile ck i t).tile ck j = s.tile ck j := by
  rw [State.tile, State.core_setTile, State.core_modCore]
  exact Tab.getOr_put_ne _ _ _ h

@[simp] theorem State.tile_modTile : (s.modTile ck i f).tile ck i = f (s.tile ck i) := s.tile_setTile ..

theorem State.tile_modTile_ne {j : Nat} (h : j ≠ i) : (s.modTile ck i f).tile ck j = s.tile ck j := s.tile_setTile_ne _ _ _ h

end

/-! ### Queues -/

/-- The queues and the ticket counter of a core stay, and so do all threads and memory. -/
structure State.KeepsQueues (ck : Nat) (s t : State) : Prop where
  copyq : (t.core ck).copyq = (s.core ck).copyq
  matq : (t.core ck).matq = (s.core ck).matq
  ticket : (t.core ck).ticket = (s.core ck).ticket
  threads : t.threads = s.threads
  mem : t.mem = s.mem

theorem State.KeepsQueues.refl (ck : Nat) (s : State) : s.KeepsQueues ck s := ⟨rfl, rfl, rfl, rfl, rfl⟩

theorem State.KeepsQueues.trans {ck : Nat} {s t u : State} (h : s.KeepsQueues ck t) (h' : t.KeepsQueues ck u) : s.KeepsQueues ck u :=
  ⟨h'.copyq.trans h.copyq, h'.matq.trans h.matq, h'.ticket.trans h.ticket, h'.threads.trans h.threads, h'.mem.trans h.mem⟩

theorem State.keepsQueues_setTile (s : State) (ck i : Nat) (t : Tile) : s.KeepsQueues ck (s.setTile ck i t) := by
  have hcore := s.core_setTile ck i t ck
  rw [State.core_modCore] at hcore
  exact ⟨by rw [hcore], by rw [hcore], by rw [hcore], s.threads_setTile .., s.setTile_mem ..⟩

theorem State.keepsQueues_modTile (s : State) (ck i : Nat) (f : Tile → Tile) : s.KeepsQueues ck (s.modTile ck i f) :=
  s.keepsQueues_setTile ..

theorem State.keepsQueues_launchCmd (s : State) (ck : Nat) (lk : Option Nat) : s.KeepsQueues ck (s.launchCmd lk) := by
  cases lk with
  | none => exact .refl ..
  | some k =>
    exact ⟨by simp [State.launchCmd, State.core], by simp [State.launchCmd, State.core], by simp [State.launchCmd, State.core],
      by simp [State.launchCmd], by simp [State.launchCmd]⟩

theorem State.keepsQueues_joinGrid (s : State) (ck dk ctx : Nat) (trail : Bool) (m : GridM) :
    s.KeepsQueues ck (s.joinGrid dk ctx trail m) := by
  unfold State.joinGrid
  dsimp only
  split <;> exact ⟨rfl, rfl, rfl, rfl, rfl⟩

theorem State.keepsQueues_foldl {α : Type} {ck : Nat} {f : State → α → State} (hf : ∀ (s : State) (x : α), s.KeepsQueues ck (f s x)) (l : List α)
    (s : State) : s.KeepsQueues ck (l.foldl f s) := by
  induction l generalizing s with
  | nil => exact .refl ..
  | cons x l ih => exact (hf s x).trans (ih _)

theorem State.keepsQueues_takeMat (s : State) (ck : Nat) (t : MatT) (fill : Option Nat) : s.KeepsQueues ck (s.takeMat ck t fill) := by
  unfold State.takeMat
  refine .trans (State.keepsQueues_foldl (fun s i => ?_) t.ops s) (State.keepsQueues_modTile ..)
  split
  · exact .refl ..
  · exact s.keepsQueues_modTile ..

theorem State.keepsQueues_takeCopy (s : State) (ck : Nat) (p : CopyPlan) (follow : Bool) :
    s.KeepsQueues ck (s.takeCopy ck p follow) := by
  have hsrc : s.KeepsQueues ck (match p.src with
      | .tile i => s.modTile ck i fun t => { t with st := .draining, byeng := true, publ := false }
      | _ => s) := by
    cases p.src with
    | tile i => exact s.keepsQueues_modTile ..
    | glob | loc => exact .refl ..
  unfold State.takeCopy
  cases p.dst with
  | tile i => exact hsrc.trans (State.keepsQueues_modTile ..)
  | glob | loc => exact hsrc

/-- The command joins the end of the queue that its slots name, and nothing else of queues, threads or memory changes. -/
structure State.Enqueues (ck : Nat) (room : Slots) (c : Cmd) (s t : State) : Prop where
  copyq : (t.core ck).copyq = (s.core ck).copyq ++ (if room.copy then [c] else [])
  matq : (t.core ck).matq = (s.core ck).matq ++ (if room.copy then [] else [c])
  ticket : (t.core ck).ticket = (s.core ck).ticket
  threads : t.threads = s.threads
  mem : t.mem = s.mem

theorem State.Enqueues.keep {ck : Nat} {room : Slots} {c : Cmd} {s t u : State} (h : s.Enqueues ck room c t)
    (h' : t.KeepsQueues ck u) : s.Enqueues ck room c u :=
  ⟨h'.copyq.trans h.copyq, h'.matq.trans h.matq, h'.ticket.trans h.ticket, h'.threads.trans h.threads, h'.mem.trans h.mem⟩

theorem State.enqueues_pushCopy (s : State) (ck : Nat) {room : Slots} (hr : room.copy = true) (c : Cmd) :
    s.Enqueues ck room c (s.pushCopy ck c) := by
  refine ⟨?_, ?_, ?_, rfl, rfl⟩ <;> simp [State.pushCopy, hr]

theorem State.enqueues_pushMat (s : State) (ck : Nat) {room : Slots} (hr : room.copy = false) (c : Cmd) :
    s.Enqueues ck room c (s.pushMat ck c) := by
  refine ⟨?_, ?_, ?_, rfl, rfl⟩ <;> simp [State.pushMat, hr]

/-! ### Threads and tickets -/

/-- Everything of a thread but its pair stays, and of its pair which copy it is. -/
def Thread.SameButPair (t u : Thread) : Prop := ∃ p, u = { t with pair := p } ∧ u.leads = t.leads ∧ u.trails = t.trails

theorem Thread.SameButPair.refl (t : Thread) : t.SameButPair t := ⟨t.pair, rfl, rfl, rfl⟩

theorem State.sameButPair_modPair (s : State) (tk k : Nat) {f : PairS → PairS} (hf : ∀ p, (f p).trail = p.trail) :
    (s.thr k).SameButPair ((s.modPair tk f).thr k) := by
  by_cases hk : k = tk
  · subst hk
    rw [State.modPair, State.thr_modThr]
    refine ⟨_, rfl, ?_⟩
    cases hp : (s.thr k).pair with
    | none => simp [Thread.leads, Thread.trails, hp]
    | some p => simp [Thread.leads, Thread.trails, hp, hf]
  · rw [State.modPair, State.thr_modThr_ne _ _ hk]
    exact .refl _

theorem State.sameButPair_pass (s : State) (tk k : Nat) (v : PairVal) : (s.thr k).SameButPair ((s.pass tk v).thr k) := by
  unfold State.pass
  split
  · exact s.sameButPair_modPair tk k fun _ => rfl
  · exact .refl _

theorem State.sameButPair_takePassed (s : State) (tk k pos : Nat) (src : Bool) :
    (s.thr k).SameButPair ((s.takePassed tk pos src).thr k) := s.sameButPair_modPair _ k fun _ => rfl

/-- The ticket of a command that is accepted as word `nw` of its thread: what the leading copy has passed, or the core's next one. -/
def State.ticketFor (s : State) (tk ck n : Nat) : Prop :=
  let t := s.thr tk
  if t.trails then ∃ v, s.passed tk t.nw = some v ∧ n = (v.v.headD 0).toNat
  else (t.leads = true → s.inqRoom tk = true) ∧ n = (s.core ck).ticket % 2 ^ 32

section
variable {s : State} {tk : Nat}

theorem State.ticketSrc_of_skip {n : Nat} {rest : List Nat} (ht : (s.thr tk).trails = false)
    (hr : (s.thr tk).leads = true → s.inqRoom tk = true) (hs : (s.thr tk).skip = n :: rest) : s.ticketSrc tk = .skip n := by
  have hroom : ¬((s.thr tk).leads && !s.inqRoom tk) = true := by simpa using hr
  simp only [State.ticketSrc, ht, hroom, hs, Bool.false_eq_true, if_false]

theorem State.ticketSrc_of_skip_passed {v : PairVal} (ht : (s.thr tk).trails = true) (hp : s.passed tk (s.thr tk).nw = some v)
    (hs : (s.thr tk).skip ≠ []) : s.ticketSrc tk = .skip (v.v.headD 0).toNat := by
  simp only [State.ticketSrc, ht, hp, if_true, List.isEmpty_iff, hs, if_false]

theorem State.ticketSrc_of_unpassed (ht : (s.thr tk).trails = true) (hp : s.passed tk (s.thr tk).nw = none) :
    s.ticketSrc tk = .park := by
  simp only [State.ticketSrc, ht, hp, if_true]

theorem State.ticketSrc_of_crowded (ht : (s.thr tk).trails = false) (hl : (s.thr tk).leads = true) (hr : s.inqRoom tk = false) :
    s.ticketSrc tk = .park := by
  simp only [State.ticketSrc, ht, hl, hr, Bool.false_eq_true, if_false, Bool.not_false, Bool.and_self, if_true]

variable (hs : (s.thr tk).skip = [])
include hs

theorem State.ticketSrc_of_passed {v : PairVal} (ht : (s.thr tk).trails = true) (hp : s.passed tk (s.thr tk).nw = some v) :
    s.ticketSrc tk = .given (v.v.headD 0).toNat := by
  simp only [State.ticketSrc, ht, hp, if_true, hs, List.isEmpty_nil]

theorem State.ticketSrc_of_room (ht : (s.thr tk).trails = false) (hr : (s.thr tk).leads = true → s.inqRoom tk = true) :
    s.ticketSrc tk = .fresh := by
  have hroom : ¬((s.thr tk).leads && !s.inqRoom tk) = true := by simpa using hr
  simp only [State.ticketSrc, ht, hroom, hs, Bool.false_eq_true, if_false]

theorem State.ticketSrc_ne_skip (n : Nat) : s.ticketSrc tk ≠ .skip n := by
  unfold State.ticketSrc
  dsimp only
  split
  · split
    · nofun
    · rw [hs]
      nofun
  · split
    · nofun
    · rw [hs]
      nofun

end

/-! ### Acceptance -/

/-- A command that has its ticket `n` is made, enters by `enter`, and is counted; `nw` is the number of its word. -/
def State.acceptedCmd (s : State) (l : Lane) (room : Slots) (k : CmdK) (rel : Bool) (h : Hint) (enter : State → Cmd → State)
    (nw n : Nat) : State :=
  let c := s.fresh.2.newCmd l s.uid n k rel h
  let s := (enter (s.fresh.2.launchCmd c.launch) c).modThr l.tk fun t =>
    { t with cmds := t.cmds ++ [n],
             c := { t.c with enc := t.c.enc + (if room.enc then 1 else 0), twc := t.c.twc + (if room.twc then 1 else 0) } }
  s.pass l.tk { pos := nw, src := false, v := [BitVec.ofNat 64 n] }

/-- The ticket has been taken: what the leading copy passed leaves the queue, and a new one raises the core's counter. -/
structure State.Ticketed (tk ck : Nat) (s b : State) : Prop where
  copyq : (b.core ck).copyq = (s.core ck).copyq
  matq : (b.core ck).matq = (s.core ck).matq
  ticket : (b.core ck).ticket = (s.core ck).ticket + (if (s.thr tk).trails then 0 else 1)
  thread : (s.thr tk).SameButPair (b.thr tk)
  mem : b.mem = s.mem

section
variable {s : State} {l : Lane} {room : Slots} {k : CmdK} {rel : Bool} {h : Hint} {enter : State → Cmd → State}

theorem State.acceptCmd_of_full {r : Nat} (hf : s.slotsFull l.tk room = some r) :
    s.acceptCmd l room k rel h enter = .park (.room r) := by
  simp only [State.acceptCmd, hf]

variable (hf : s.slotsFull l.tk room = none)
include hf

theorem State.acceptCmd_of_unpassed (ht : (s.thr l.tk).trails = true) (hp : s.passed l.tk (s.thr l.tk).nw = none) :
    s.acceptCmd l room k rel h enter = .park .passed := by
  simp only [State.acceptCmd, hf, State.ticketSrc_of_unpassed ht hp, ht, if_true]

theorem State.acceptCmd_of_crowded (ht : (s.thr l.tk).trails = false) (hl : (s.thr l.tk).leads = true)
    (hr : s.inqRoom l.tk = false) : s.acceptCmd l room k rel h enter = .park .copies := by
  simp only [State.acceptCmd, hf, State.ticketSrc_of_crowded ht hl hr, ht, Bool.false_eq_true, if_false]

theorem State.acceptCmd_of_ticket (hs : (s.thr l.tk).skip = []) {n : Nat} (hn : s.ticketFor l.tk (ckOf l.tk) n) :
    ∃ b, s.Ticketed l.tk (ckOf l.tk) b ∧ s.acceptCmd l room k rel h enter =
      .ok ((b.acceptedCmd l room k rel h enter (s.thr l.tk).nw n).put l (BitVec.ofNat 64 n)) := by
  unfold State.ticketFor at hn
  cases ht : (s.thr l.tk).trails with
  | true =>
    simp only [ht, if_true] at hn
    obtain ⟨v, hv, rfl⟩ := hn
    refine ⟨s.takePassed l.tk (s.thr l.tk).nw false, ⟨rfl, rfl, ?_, s.sameButPair_takePassed .., rfl⟩, ?_⟩
    · rw [ht]
      rfl
    · simp only [State.acceptCmd, hf, State.ticketSrc_of_passed hs ht hv]
      rfl
  | false =>
    simp only [ht, Bool.false_eq_true, if_false] at hn
    obtain ⟨hr, rfl⟩ := hn
    refine ⟨(s.takeTicket (ckOf l.tk) (s.thr l.tk).ctx false false).2, ⟨?_, ?_, ?_, .refl _, rfl⟩, ?_⟩
    · simp [State.takeTicket]
    · simp [State.takeTicket]
    · simp [State.takeTicket, ht]
    · simp only [State.acceptCmd, hf, State.ticketSrc_of_room hs ht hr]
      rfl

end

/-- What has become of an accepted command of thread `tk`: it stands in its queue, and its thread has its ticket and counts it. -/
theorem State.acceptedCmd_spec {s : State} {l : Lane} {tk : Nat} (htk : l.tk = tk) {room : Slots} {k : CmdK} {rel : Bool} {h : Hint}
    {enter : State → Cmd → State} {P : State → Prop} (hP : ∀ t u : State, u.cores = t.cores → P t → P u)
    (he : ∀ b c, ∃ a, b.Enqueues (ckOf tk) room { c with acc0 := a } (enter b c) ∧ P (enter b c)) (nw n : Nat) :
    let t := s.acceptedCmd l room k rel h enter nw n
    ∃ c : Cmd, c.k = k ∧ c.ticket = n ∧ c.tk = tk ∧ c.rel = rel ∧ c.began = false ∧ c.pos = 0
      ∧ c.copy = (if (s.thr tk).leads then 1 else if (s.thr tk).trails then 2 else 0)
      ∧ (t.core (ckOf tk)).copyq = (s.core (ckOf tk)).copyq ++ (if room.copy then [c] else [])
      ∧ (t.core (ckOf tk)).matq = (s.core (ckOf tk)).matq ++ (if room.copy then [] else [c])
      ∧ (t.core (ckOf tk)).ticket = (s.core (ckOf tk)).ticket ∧ t.mem = s.mem
      ∧ (t.thr tk).cmds = (s.thr tk).cmds ++ [n]
      ∧ (t.thr tk).c.enc = (s.thr tk).c.enc + (if room.enc then 1 else 0)
      ∧ (t.thr tk).c.twc = (s.thr tk).c.twc + (if room.twc then 1 else 0) ∧ P t := by
  subst htk
  intro t
  let c := s.fresh.2.newCmd l s.uid n k rel h
  let b := s.fresh.2.launchCmd c.launch
  have hfresh : s.KeepsQueues (ckOf l.tk) s.fresh.2 := ⟨rfl, rfl, rfl, rfl, rfl⟩
  have hlaunch : s.KeepsQueues (ckOf l.tk) b := hfresh.trans (s.fresh.2.keepsQueues_launchCmd ..)
  obtain ⟨a, hq, hp⟩ := he b c
  have hthr : (enter b c).thr l.tk = s.thr l.tk := by
    rw [State.thr, hq.threads, hlaunch.threads, State.thr]
  let counted := (enter b c).modThr l.tk fun t =>
    { t with cmds := t.cmds ++ [n],
             c := { t.c with enc := t.c.enc + (if room.enc then 1 else 0), twc := t.c.twc + (if room.twc then 1 else 0) } }
  have hcounted : counted.thr l.tk = _ := State.thr_modThr ..
  rw [hthr] at hcounted
  have ht : t = counted.pass l.tk { pos := nw, src := false, v := [BitVec.ofNat 64 n] } := rfl
  obtain ⟨x, hx⟩ := counted.pass_eq l.tk { pos := nw, src := false, v := [BitVec.ofNat 64 n] }
  obtain ⟨q, hq', -, -⟩ := counted.sameButPair_pass l.tk l.tk { pos := nw, src := false, v := [BitVec.ofNat 64 n] }
  rw [hcounted, ← ht] at hq'
  have hcore : t.core (ckOf l.tk) = (enter b c).core (ckOf l.tk) := by rw [ht, hx]; rfl
  have hmem : t.mem = s.mem := by
    rw [ht, hx]
    exact hq.mem.trans hlaunch.mem
  have hkept : P t := by
    rw [ht, hx]
    exact hP (enter b c) _ rfl hp
  refine ⟨{ c with acc0 := a }, rfl, rfl, rfl, rfl, rfl, rfl, rfl, ?_, ?_, ?_, hmem, ?_, ?_, ?_, hkept⟩
  · rw [hcore, hq.copyq, hlaunch.copyq]
  · rw [hcore, hq.matq, hlaunch.matq]
  · rw [hcore, hq.ticket, hlaunch.ticket]
  all_goals rw [hq']

/-- The word's command, of kind `k`, is accepted in the state `b` where its queue has room and its ticket is at hand: it stands at the
end of its queue with its ticket, which goes to the destination, its counters rise, and `P` holds of what it makes of tiles. -/
def Stand.Accepts (w : Stand) (s : State) (ins : Instr) (b : State) (room : Slots) (k : CmdK) (rel : Bool) (P : State → Prop) : Prop :=
  let ck := ckOf w.tk
  let q := b.core ck
  let t := b.thr w.tk
  (∀ r, b.slotsFull w.tk room = some r → w.Parks s ins (.room r))
  ∧ (b.slotsFull w.tk room = none → t.trails = true → b.passed w.tk t.nw = none → w.Parks s ins .passed)
  ∧ (b.slotsFull w.tk room = none → t.trails = false → t.leads = true → b.inqRoom w.tk = false → w.Parks s ins .copies)
  ∧ ∀ n, b.slotsFull w.tk room = none → b.ticketFor w.tk ck n →
    ∃ (t' : State) (c : Cmd), w.Completes s ins (t'.put (w.lane s) (BitVec.ofNat 64 n))
      ∧ c.k = k ∧ c.ticket = n ∧ c.tk = w.tk ∧ c.rel = rel ∧ c.began = false ∧ c.pos = 0
      ∧ c.copy = (if t.leads then 1 else if t.trails then 2 else 0)
      ∧ (t'.core ck).copyq = q.copyq ++ (if room.copy then [c] else [])
      ∧ (t'.core ck).matq = q.matq ++ (if room.copy then [] else [c])
      ∧ (t'.core ck).ticket = q.ticket + (if t.trails then 0 else 1) ∧ t'.mem = b.mem
      ∧ (t'.thr w.tk).cmds = t.cmds ++ [n]
      ∧ (t'.thr w.tk).c.enc = t.c.enc + (if room.enc then 1 else 0)
      ∧ (t'.thr w.tk).c.twc = t.c.twc + (if room.twc then 1 else 0) ∧ P t'

theorem Stand.accepts_of {w : Stand} {s : State} (hw : w.Clear s) {u : Use} (hu : w.u = u) {ins : Instr} {body : State → Lane → Res}
    (he : exec ins s = word w.f u body s) {b : State} {room : Slots} {k : CmdK} {rel : Bool} {h : Hint}
    {enter : State → Cmd → State} {P : State → Prop}
    (hb : body (w.begun s) (w.lane s) = b.acceptCmd (w.lane s) room k rel h enter) (hs : (b.thr w.tk).skip = [])
    (hP : ∀ t u : State, u.cores = t.cores → P t → P u)
    (hent : ∀ b c, ∃ a, b.Enqueues (ckOf w.tk) room { c with acc0 := a } (enter b c) ∧ P (enter b c)) :
    w.Accepts s ins b room k rel P := by
  refine ⟨fun r hf => w.parks_of hw hu he (hb.trans (State.acceptCmd_of_full hf)),
    fun hf ht hp => w.parks_of hw hu he (hb.trans (State.acceptCmd_of_unpassed hf ht hp)),
    fun hf ht hl hr => w.parks_of hw hu he (hb.trans (State.acceptCmd_of_crowded hf ht hl hr)), fun n hf hn => ?_⟩
  obtain ⟨b', htick, hgo⟩ := State.acceptCmd_of_ticket (l := w.lane s) (k := k) (rel := rel) (h := h) (enter := enter) hf hs hn
  have htick : b.Ticketed w.tk (ckOf w.tk) b' := htick
  obtain ⟨c, hk, hc, htk, hrel, hbeg, hpos, hcopy, hcq, hmq, htic, hmem, hcmds, henc, htwc, hp⟩ :=
    State.acceptedCmd_spec (s := b') (l := w.lane s) (tk := w.tk) (k := k) (rel := rel) (h := h) rfl hP hent (b.thr w.tk).nw n
  obtain ⟨p, hthr, hleads, htrails⟩ := htick.thread
  rw [hleads, htrails] at hcopy
  rw [htick.copyq] at hcq
  rw [htick.matq] at hmq
  rw [htick.ticket] at htic
  rw [hthr] at hcmds henc htwc
  exact ⟨_, c, w.completes_of hw hu he (hb.trans hgo), hk, hc, htk, hrel, hbeg, hpos, hcopy, hcq, hmq, htic,
    hmem.trans htick.mem, hcmds, henc, htwc, hp⟩

end Sys2Proof.Machine
end

section
/-! SUPPORT. The words of a core's own engines: CPY, CPYM, MMA, MMAB, MMAC and MEPI (R233, R299 to R308, R313). -/

namespace Sys2Proof.Machine

/-- The highest bits of a word as a number. -/
theorem field_top (v : Word) {k : Nat} (hk : k < 64) : field v.toNat 63 k = v.toNat / 2 ^ k := by
  refine Nat.mod_eq_of_lt (Nat.div_lt_of_lt_mul ?_)
  rw [← Nat.pow_add]
  refine Nat.lt_of_lt_of_eq v.isLt (congrArg _ ?_)
  omega

theorem field_top_ne_zero_iff (v : Word) {k : Nat} (hk : k < 64) : field v.toNat 63 k ≠ 0 ↔ 2 ^ k ≤ v.toNat := by
  rw [field_top v hk, Nat.ne_zero_iff_zero_lt, Nat.div_pos_iff]
  exact and_iff_right (Nat.two_pow_pos k)

/-! ### A command word -/

section
variable {s : State} {l : Lane} {check : State → Lane → Except FI (State → Res)}

theorem commandBody_of_skip {n : Nat} (h : s.ticketSrc l.tk = .skip n) : commandBody check s l = .ok (s.skipCmd l n) := by
  simp only [commandBody, h]

variable (hs : (s.thr l.tk).skip = [])
include hs

theorem commandBody_of_no_skip : commandBody check s l = match check s l with
    | .error f => .fault f
    | .ok go => go s := by
  unfold commandBody
  split
  · rename_i n hn
    exact absurd hn (State.ticketSrc_ne_skip hs n)
  · rfl

theorem commandBody_of_fault {x : FI} (h : check s l = .error x) : commandBody check s l = .fault x := by
  rw [commandBody_of_no_skip hs, h]

theorem commandBody_of_check {go : State → Res} (h : check s l = .ok go) : commandBody check s l = go s := by
  rw [commandBody_of_no_skip hs, h]

end

/-- A command word that a re-execution skips (R313). -/
theorem Stand.skips_of {w : Stand} {s : State} (hw : w.Clear s) {u : Use} (hu : w.u = u) {ins : Instr}
    {check : State → Lane → Except FI (State → Res)} (he : exec ins s = word w.f u (commandBody check) s) :
    let b := w.begun s
    let t := b.thr w.tk
    (∀ n rest, t.trails = false → (t.leads = true → b.inqRoom w.tk = true) → t.skip = n :: rest →
      w.Completes s ins (b.skipCmd (w.lane s) n))
    ∧ ∀ v, t.trails = true → b.passed w.tk t.nw = some v → t.skip ≠ [] →
      w.Completes s ins (b.skipCmd (w.lane s) (v.v.headD 0).toNat) := by
  intro b t
  exact ⟨fun n rest ht hr hs => w.completes_of hw hu he (commandBody_of_skip (State.ticketSrc_of_skip ht hr hs)),
    fun v ht hp hs => w.completes_of hw hu he (commandBody_of_skip (State.ticketSrc_of_skip_passed ht hp hs))⟩

/-! ### Entering a queue -/

/-- The engine fills the tile. -/
def State.EngineFills (t : State) (ck i : Nat) : Prop :=
  (t.tile ck i).st = .filling ∧ (t.tile ck i).byeng = true ∧ (t.tile ck i).publ = false

/-- The engine drains the tile. -/
def State.EngineDrains (t : State) (ck i : Nat) : Prop :=
  (t.tile ck i).st = .draining ∧ (t.tile ck i).byeng = true ∧ (t.tile ck i).publ = false

/-- An engine command takes a tile to read it through, or to fill it (R289). -/
def State.drainTile (s : State) (ck i : Nat) : State := s.modTile ck i fun t => { t with st := .draining, byeng := true, publ := false }

def State.fillTile (s : State) (ck i : Nat) : State := s.modTile ck i fun t => { t with st := .filling, byeng := true, publ := false }

theorem State.keepsQueues_drainTile (s : State) (ck i : Nat) : s.KeepsQueues ck (s.drainTile ck i) := s.keepsQueues_modTile ..

theorem State.keepsQueues_fillTile (s : State) (ck i : Nat) : s.KeepsQueues ck (s.fillTile ck i) := s.keepsQueues_modTile ..

theorem State.engineDrains_drainTile (s : State) (ck i : Nat) : (s.drainTile ck i).EngineDrains ck i := by
  rw [State.EngineDrains, State.drainTile, State.tile_modTile]
  exact ⟨rfl, rfl, rfl⟩

theorem State.engineFills_fillTile (s : State) (ck i : Nat) : (s.fillTile ck i).EngineFills ck i := by
  rw [State.EngineFills, State.fillTile, State.tile_modTile]
  exact ⟨rfl, rfl, rfl⟩

theorem State.EngineDrains.fillTile {s : State} {ck i j : Nat} (h : s.EngineDrains ck i) (hij : i ≠ j) :
    (s.fillTile ck j).EngineDrains ck i := by
  rwa [State.EngineDrains, State.fillTile, State.tile_modTile_ne _ _ _ _ hij]

/-- A matrix command enters the matrix queue. -/
def State.enterMat (ck : Nat) (t : MatT) (s : State) (c : Cmd) : State :=
  (s.pushMat ck { c with acc0 := s.accBefore ck t }).takeMat ck t none

theorem State.EngineFills.congr {ck i : Nat} {t u : State} (h : u.cores = t.cores) (ht : t.EngineFills ck i) : u.EngineFills ck i := by
  simpa only [State.EngineFills, State.tile, State.core, h] using ht

theorem State.EngineDrains.congr {ck i : Nat} {t u : State} (h : u.cores = t.cores) (ht : t.EngineDrains ck i) :
    u.EngineDrains ck i := by
  simpa only [State.EngineDrains, State.tile, State.core, h] using ht

theorem State.engineFills_takeMat (s : State) (ck : Nat) (t : MatT) (fill : Option Nat) : (s.takeMat ck t fill).EngineFills ck t.acc := by
  unfold State.takeMat State.EngineFills
  dsimp only
  rw [State.tile_modTile]
  exact ⟨rfl, rfl, rfl⟩

theorem State.enterMat_spec (ck : Nat) (t : MatT) {room : Slots} (hr : room.copy = false) (b : State) (c : Cmd) :
    ∃ a, b.Enqueues ck room { c with acc0 := a } (b.enterMat ck t c) ∧ (b.enterMat ck t c).EngineFills ck t.acc :=
  ⟨_, (b.enqueues_pushMat ck hr _).keep (State.keepsQueues_takeMat ..), State.engineFills_takeMat ..⟩

/-! ### MMA and MMAB -/

section
variable {s : State} {l : Lane} (batch : Bool) (k : Word → CmdK) (h : Hint) (hs : (s.thr l.tk).skip = [])
include hs

theorem matBody_reserved (ha : 2 ^ 33 ≤ l.a.w64.toNat) : matBody batch k h s l = .fault { code := 0x02 } :=
  commandBody_of_fault hs (if_pos ((field_top_ne_zero_iff _ (by decide)).2 ha))

variable (ha : l.a.w64.toNat < 2 ^ 33)
include ha

theorem matBody_unfit {x : FI} (hc : s.checkMat l.tk l.a.w64 batch true true none = .error x) : matBody batch k h s l = .fault x := by
  refine commandBody_of_fault hs ((if_neg ?_).trans ?_)
  · exact fun hf => Nat.not_lt.2 ((field_top_ne_zero_iff _ (by decide)).1 hf) ha
  · rw [hc]

theorem matBody_fit {t : MatT} (hc : s.checkMat l.tk l.a.w64 batch true true none = .ok t) : matBody batch k h s l =
    s.acceptCmd l { mat := true, twc := true } (k l.a.w64) false h (State.enterMat (ckOf l.tk) t · ·) := by
  refine (commandBody_of_check hs (go := fun s => s.acceptCmd l { mat := true, twc := true } (k l.a.w64) false h
    (State.enterMat (ckOf l.tk) t · ·)) ((if_neg ?_).trans ?_))
  · exact fun hf => Nat.not_lt.2 ((field_top_ne_zero_iff _ (by decide)).1 hf) ha
  · rw [hc]
    rfl

end

/-! ### MMAC -/

/-- A cluster product's part of one core enters the matrix queue, and the core joins its grid. -/
def State.enterMmac (l : Lane) (r c : Nat) (t : MatT) (s : State) (cmd : Cmd) : State :=
  let ck := ckOf l.tk
  let a := s.tile ck t.acc
  let im := matIm l.a.w64
  let fmt (on : Bool) (n : Nat) : Option Nat := if on then (s.useTile l.tk n).map fun x => x.2.fmt else none
  (State.enterMat ck t s cmd).joinGrid (dkOf ck) cmd.ctx (cmd.copy == 2)
    { ck := ck, u := cmd.u, clus := l.b.w64, shape := [a.rows, a.cols, im.k, a.fmt], fa := fmt (c == 0) im.ta,
      fb := fmt (r == 0) im.tb }

theorem State.cores_joinGrid (s : State) (dk ctx : Nat) (trail : Bool) (m : GridM) : (s.joinGrid dk ctx trail m).cores = s.cores := by
  unfold State.joinGrid
  dsimp only
  split <;> rfl

theorem State.enterMmac_spec (l : Lane) (r c : Nat) (t : MatT) {room : Slots} (hr : room.copy = false) (b : State) (cmd : Cmd) :
    ∃ a, b.Enqueues (ckOf l.tk) room { cmd with acc0 := a } (b.enterMmac l r c t cmd)
      ∧ (b.enterMmac l r c t cmd).EngineFills (ckOf l.tk) t.acc := by
  obtain ⟨a, hq, hf⟩ := b.enterMat_spec (ckOf l.tk) t hr cmd
  exact ⟨a, hq.keep (State.keepsQueues_joinGrid ..), hf.congr (State.cores_joinGrid ..)⟩

section
variable {s : State} {l : Lane} (h : Hint) (hs : (s.thr l.tk).skip = [])
include hs

theorem mmacBody_reserved (ha : s.gridPlace l.tk l.b.w64 = none ∨ 2 ^ 33 ≤ l.a.w64.toNat) :
    mmacBody h s l = .fault { code := 0x02 } := by
  refine commandBody_of_fault hs ?_
  dsimp only
  cases hg : s.gridPlace l.tk l.b.w64 with
  | none => rfl
  | some x => exact if_pos ((field_top_ne_zero_iff _ (by decide)).2 (ha.resolve_left (by simp [hg])))

variable {r c : Nat} (hg : s.gridPlace l.tk l.b.w64 = some (r, c)) (ha : l.a.w64.toNat < 2 ^ 33)
include hg ha

theorem mmacBody_unfit {x : FI} (hc : s.checkMat l.tk l.a.w64 false (c == 0) (r == 0) none = .error x) :
    mmacBody h s l = .fault x := by
  refine commandBody_of_fault hs ?_
  dsimp only
  rw [hg]
  refine (if_neg ?_).trans ?_
  · exact fun hf => Nat.not_lt.2 ((field_top_ne_zero_iff _ (by decide)).1 hf) ha
  · rw [hc]

theorem mmacBody_fit {t : MatT} (hc : s.checkMat l.tk l.a.w64 false (c == 0) (r == 0) none = .ok t) : mmacBody h s l =
    s.acceptCmd l { mat := true, twc := true } (.mmac l.a.w64 l.b.w64) false h (State.enterMmac l r c t · ·) := by
  refine commandBody_of_check hs (go := fun s => s.acceptCmd l { mat := true, twc := true } (.mmac l.a.w64 l.b.w64) false h
    (State.enterMmac l r c t · ·)) ?_
  dsimp only
  rw [hg]
  refine (if_neg ?_).trans ?_
  · exact fun hf => Nat.not_lt.2 ((field_top_ne_zero_iff _ (by decide)).1 hf) ha
  · rw [hc]
    rfl

end

/-! ### CPY and CPYM -/

/-- What a copy makes of the tile that is one of its sides. -/
def CopyPlan.Takes (p : CopyPlan) (ck : Nat) (t : State) : Prop :=
  (∀ i, p.src = .tile i → (∀ j, p.dst ≠ .tile j) → t.EngineDrains ck i) ∧ ∀ i, p.dst = .tile i → t.EngineFills ck i

theorem CopyPlan.Takes.congr {p : CopyPlan} {ck : Nat} {t u : State} (h : u.cores = t.cores) (ht : p.Takes ck t) : p.Takes ck u :=
  ⟨fun i hi hj => (ht.1 i hi hj).congr h, fun i hi => (ht.2 i hi).congr h⟩

theorem State.takes_takeCopy (s : State) (ck : Nat) (p : CopyPlan) (follow : Bool) : p.Takes ck (s.takeCopy ck p follow) := by
  refine ⟨fun i hi hj => ?_, fun i hi => ?_⟩
  · have hdrain : s.takeCopy ck p follow = s.modTile ck i fun t => { t with st := .draining, byeng := true, publ := false } := by
      unfold State.takeCopy
      rw [hi]
      cases hd : p.dst with
      | tile j => exact absurd hd (hj j)
      | glob | loc => rfl
    rw [hdrain, State.EngineDrains, State.tile_modTile]
    exact ⟨rfl, rfl, rfl⟩
  · unfold State.takeCopy State.EngineFills
    rw [hi]
    dsimp only
    rw [State.tile_modTile]
    exact ⟨rfl, rfl, rfl⟩

/-- A copy enters the copy queue. -/
def State.enterCopy (ck : Nat) (p : CopyPlan) (s : State) (c : Cmd) : State := (s.pushCopy ck c).takeCopy ck p false

theorem State.enterCopy_spec (ck : Nat) (p : CopyPlan) {room : Slots} (hr : room.copy = true) (b : State) (c : Cmd) :
    ∃ a, b.Enqueues ck room { c with acc0 := a } (b.enterCopy ck p c) ∧ p.Takes ck (b.enterCopy ck p c) :=
  ⟨c.acc0, (b.enqueues_pushCopy ck hr c).keep (State.keepsQueues_takeCopy ..), State.takes_takeCopy ..⟩

/-- A follow-on image is one of MMA, or one of MMAB with bit 62 set (R304). -/
def FollowOn (e : Word) : Prop := e.toNat < 2 ^ 33 ∨ (2 ^ 62 ≤ e.toNat ∧ e.toNat < 2 ^ 62 + 2 ^ 33)

theorem followOn_iff (e : Word) : ¬(2 ≤ field e.toNat 63 62 ∨ field e.toNat 61 33 ≠ 0) ↔ FollowOn e := by
  rw [field_top e (by decide), field, FollowOn]
  have he := e.isLt
  norm_num
  omega

theorem FollowOn.batch {e : Word} (h : FollowOn e) : (field e.toNat 63 62 == 1) = decide (2 ^ 62 ≤ e.toNat) := by
  rw [field_top e (by decide), Bool.eq_iff_iff, beq_iff_eq, decide_eq_true_iff]
  have he := e.isLt
  rw [FollowOn] at h
  norm_num at h ⊢
  omega

/-- The tile that a copy fills. -/
def CopyPlan.fill (p : CopyPlan) : Option Nat :=
  match p.dst with
  | .tile i => some i
  | _ => none

/-- A copy with a matrix command behind it enters the copy queue. -/
def State.enterCpym (ck : Nat) (p : CopyPlan) (fill : Option Nat) (t : MatT) (s : State) (c : Cmd) : State :=
  ((s.pushCopy ck { c with acc0 := s.accBefore ck t }).takeMat ck t fill).takeCopy ck p true

theorem State.enterCpym_spec (ck : Nat) (p : CopyPlan) (fill : Option Nat) (t : MatT) {room : Slots} (hr : room.copy = true)
    (b : State) (c : Cmd) :
    ∃ a, b.Enqueues ck room { c with acc0 := a } (b.enterCpym ck p fill t c) ∧ p.Takes ck (b.enterCpym ck p fill t c) :=
  ⟨_, ((b.enqueues_pushCopy ck hr _).keep (State.keepsQueues_takeMat ..)).keep (State.keepsQueues_takeCopy ..),
    State.takes_takeCopy ..⟩

section
variable {s : State} {l : Lane} (rel : Bool) (h : Hint) (hs : (s.thr l.tk).skip = [])
include hs

theorem cpyBody_unplanned {x : FI} (hp : s.planCopy l.tk l.a.w64 l.b.w64 l.c.w64 l.e.w64 false = .error x) :
    cpyBody rel h s l = .fault x := by
  refine commandBody_of_fault hs ?_
  rw [hp]

theorem cpyBody_untranslated {p : CopyPlan} (hp : s.planCopy l.tk l.a.w64 l.b.w64 l.c.w64 l.e.w64 false = .ok p) {x : FI}
    (hx : s.firstPages l.tk (p.pages false) = .error x) : cpyBody rel h s l = .fault x := by
  refine commandBody_of_fault hs ?_
  rw [hp]
  dsimp only
  rw [hx]

theorem cpyBody_translated {p : CopyPlan} (hp : s.planCopy l.tk l.a.w64 l.b.w64 l.c.w64 l.e.w64 false = .ok p) {b : State}
    (hx : s.firstPages l.tk (p.pages false) = .ok b) : cpyBody rel h s l =
    b.acceptCmd l { copy := true, enc := true } (.cpy p.src p.dst p.rows p.rb p.stride p.scale none) rel h
      (State.enterCopy (ckOf l.tk) p · ·) := by
  refine commandBody_of_check hs (go := fun _ => b.acceptCmd l { copy := true, enc := true }
    (.cpy p.src p.dst p.rows p.rb p.stride p.scale none) rel h (State.enterCopy (ckOf l.tk) p · ·)) ?_
  rw [hp]
  dsimp only
  rw [hx]
  rfl

theorem cpymBody_unplanned {x : FI} (hp : s.planCopy l.tk l.a.w64 l.b.w64 l.c.w64 l.e.w64 true = .error x) :
    cpymBody rel h s l = .fault x := by
  refine commandBody_of_fault hs ?_
  dsimp only
  rw [hp]

section
variable {p : CopyPlan} (hp : s.planCopy l.tk l.a.w64 l.b.w64 l.c.w64 l.e.w64 true = .ok p)
include hp

theorem cpymBody_reserved (he : ¬FollowOn l.e.w64) : cpymBody rel h s l = .fault { code := 0x02 } := by
  refine commandBody_of_fault hs ?_
  dsimp only
  rw [hp]
  exact if_pos (not_not.1 (mt (followOn_iff _).1 he))

variable (he : FollowOn l.e.w64)
include he

theorem cpymBody_unfit {x : FI} (hc : s.checkMat l.tk l.e.w64 (decide (2 ^ 62 ≤ l.e.w64.toNat)) true true p.fill = .error x) :
    cpymBody rel h s l = .fault x := by
  refine commandBody_of_fault hs ?_
  dsimp only
  rw [hp]
  refine (if_neg ((followOn_iff _).2 he)).trans ?_
  rw [he.batch]
  generalize hr : s.checkMat _ _ _ _ _ _ = r
  rw [hr.symm.trans hc]

variable {t : MatT} (hc : s.checkMat l.tk l.e.w64 (decide (2 ^ 62 ≤ l.e.w64.toNat)) true true p.fill = .ok t)
include hc

theorem cpymBody_untranslated {x : FI} (hx : s.firstPages l.tk (p.pages true) = .error x) : cpymBody rel h s l = .fault x := by
  refine commandBody_of_fault hs ?_
  dsimp only
  rw [hp]
  refine (if_neg ((followOn_iff _).2 he)).trans ?_
  rw [he.batch]
  generalize hr : s.checkMat _ _ _ _ _ _ = r
  rw [hr.symm.trans hc]
  dsimp only
  rw [hx]

theorem cpymBody_translated {b : State} (hx : s.firstPages l.tk (p.pages true) = .ok b) : cpymBody rel h s l =
    b.acceptCmd l { copy := true, mat := true, enc := true, twc := true }
      (.cpy p.src p.dst p.rows p.rb p.stride p.scale (some l.e.w64)) rel h (State.enterCpym (ckOf l.tk) p p.fill t · ·) := by
  refine commandBody_of_check hs (go := fun _ => b.acceptCmd l { copy := true, mat := true, enc := true, twc := true }
    (.cpy p.src p.dst p.rows p.rb p.stride p.scale (some l.e.w64)) rel h (State.enterCpym (ckOf l.tk) p p.fill t · ·)) ?_
  dsimp only
  rw [hp]
  refine (if_neg ((followOn_iff _).2 he)).trans ?_
  rw [he.batch]
  generalize hr : s.checkMat _ _ _ _ _ _ = r
  rw [hr.symm.trans hc]
  dsimp only
  rw [hx]
  rfl

end

end

/-! ### MEPI -/

/-- The word selects a row draw or an output format whose feature its context has not taken (R94). -/
def State.epiGated (s : State) (tk : Nat) (i : EpiIm) : Prop :=
  ((i.draw = 1 ∨ i.draw = 2) ∧ s.taken (pkgOfThr tk) (s.thr tk).ctx 2 = false) ∨ s.fmtRefused tk i.ofmt = true

/-- The columns of the accumulator that an image names, as MEPI sizes its parameter block. -/
def State.epiCols (s : State) (tk : Nat) (i : EpiIm) : Nat := ((s.useTile tk i.acc).map fun t => t.2.cols).getD 1

/-- The tiles that an image names are ones that MEPI takes: a ready accumulator that no command reads, and an output tile of its shape. -/
structure State.EpiTiles (s : State) (tk : Nat) (i : EpiIm) (ai : Nat) (acc : Tile) : Prop where
  found : s.useTile tk i.acc = some (ai, acc)
  rows : acc.plane = false
  kind : acc.fmt = 1 ∨ acc.fmt = 12
  ready : acc.st = .ready
  unread : acc.readers = 0
  drawn : i.draw = 0 ∨ s.epiCols tk i ≤ 128
  output : i.glob = true ∨ ∃ oi out, s.useTile tk i.out = some (oi, out) ∧ oi ≠ ai ∧ out.fmt = i.ofmt ∧ out.plane = false
    ∧ (out.st = .empty ∨ out.st = .ready) ∧ out.rows = acc.rows
    ∧ if i.draw = 0 then out.cols = s.epiCols tk i else out.fmt = 13 ∧ out.cols = 1

theorem State.EpiTiles.cols {s : State} {tk ai : Nat} {i : EpiIm} {acc : Tile} (ht : s.EpiTiles tk i ai acc) :
    s.epiCols tk i = acc.cols := by
  rw [State.epiCols, ht.found]
  rfl

/-- An accumulator that MEPI does not take. -/
def EpiIm.refusesAcc (i : EpiIm) (acc : Tile) : Bool :=
  acc.plane || (acc.fmt != 1 && acc.fmt != 12) || acc.st != .ready || acc.readers != 0 || (i.draw != 0 && decide (128 < acc.cols))

/-- An output tile that MEPI does not take beside the accumulator `ai`. -/
def EpiIm.refusesOut (i : EpiIm) (ai : Nat) (acc : Tile) (out : Option (Nat × Tile)) : Bool :=
  if i.glob then false
  else match out with
    | none => true
    | some (oi, t) => oi == ai || t.fmt != i.ofmt || t.plane || !(t.st == .empty || t.st == .ready)
        || (if i.draw = 0 then t.rows != acc.rows || t.cols != acc.cols else t.fmt != 13 || t.rows != acc.rows || t.cols != 1)

theorem State.EpiTiles.accepted {s : State} {tk ai : Nat} {i : EpiIm} {acc : Tile} (ht : s.EpiTiles tk i ai acc) :
    ¬(i.refusesAcc acc = true ∨ i.refusesOut ai acc (s.useTile tk i.out) = true) := by
  have hcols := ht.cols
  obtain ⟨-, hpl, hkind, hready, hunread, hdrawn, hout⟩ := ht
  rw [hcols] at hdrawn hout
  rintro (h | h)
  · rcases hkind with hk | hk <;> rcases hdrawn with hd | hd <;>
      simp [EpiIm.refusesAcc, hpl, hready, hunread, hk, hd, Nat.not_lt.2] at h
  · rcases hout with hG | ⟨oi, out, hu, hne, hfmt, hplane, hst, hrows, hshape⟩
    · simp [EpiIm.refusesOut, hG] at h
    · simp only [EpiIm.refusesOut, hu] at h
      split at hshape
      · rename_i hd
        rcases hst with hst | hst <;> simp [hne, hfmt, hplane, hst, hrows, hshape, hd] at h
      · rename_i hd
        rcases hst with hst | hst <;> simp [hne, hplane, hst, hrows, hshape, hd, ← hfmt] at h

/-- The global operands of MEPI. -/
def EpiIm.pages (i : EpiIm) (cols : Nat) (par : EAd) (e : Nat) : List (EAd × Need) :=
  (if epiParLen i cols = 0 then [] else [(par, .rd)]) ++ if i.glob then [(EAd.glob e, .wr)] else []

/-- An epilogue enters the matrix queue: its accumulator drains, and its output tile fills. -/
def State.enterMepi (s : State) (tk ai : Nat) (i : EpiIm) (b : State) (c : Cmd) : State :=
  let t := (b.pushMat (ckOf tk) c).drainTile (ckOf tk) ai
  match i.glob, s.useTile tk i.out with
  | false, some (oi, _) => t.fillTile (ckOf tk) oi
  | _, _ => t

theorem State.epiGated_iff {s : State} {tk : Nat} {i : EpiIm} : s.epiGated tk i ↔
    ((i.draw = 1 ∨ i.draw = 2) ∧ !s.taken (pkgOfThr tk) (s.thr tk).ctx 2) ∨ s.fmtRefused tk i.ofmt := by
  rw [State.epiGated, Bool.not_eq_true']

theorem State.engOperand_of_none {s : State} {tk n : Nat} {v : Word} (h : s.engAddr tk v n = none) :
    s.engOperand tk v n = .error { code := 0x09, addr := v } := by
  rw [State.engOperand, h]

theorem State.engOperand_of_some {s : State} {tk n : Nat} {v : Word} {a : EAd} (h : s.engAddr tk v n = some a) :
    s.engOperand tk v n = .ok a := by
  rw [State.engOperand, h]

section
variable {s : State} {l : Lane} (h : Hint) (hs : (s.thr l.tk).skip = []) {i : EpiIm} (hi : epiIm l.a.w64 = i)
include hs hi

theorem mepiBody_gated (hg : s.epiGated l.tk i) : mepiBody h s l = .fault { code := 0x18 } := by
  subst hi
  exact commandBody_of_fault hs (if_pos (State.epiGated_iff.1 hg))

variable (hg : ¬s.epiGated l.tk i)
include hg

theorem mepiBody_reserved (hb : epiBad l.a.w64 l.e.w64 = true ∨ isTileAddr l.b.w64 = true) :
    mepiBody h s l = .fault { code := 0x02 } := by
  subst hi
  exact commandBody_of_fault hs ((if_neg (mt State.epiGated_iff.2 hg)).trans (if_pos hb))

variable (hb : ¬(epiBad l.a.w64 l.e.w64 = true ∨ isTileAddr l.b.w64 = true))
include hb

theorem mepiBody_unplaced (hp : s.engAddr l.tk l.b.w64 (epiParLen i (s.epiCols l.tk i)) = none) :
    mepiBody h s l = .fault { code := 0x09, addr := l.b.w64 } := by
  subst hi
  refine commandBody_of_fault hs ((if_neg (mt State.epiGated_iff.2 hg)).trans ((if_neg hb).trans ?_))
  dsimp only
  rw [← State.epiCols, State.engOperand_of_none hp]

variable {par : EAd} (hp : s.engAddr l.tk l.b.w64 (epiParLen i (s.epiCols l.tk i)) = some par)
include hp

theorem mepiBody_far (hG : i.glob = true) (he : 2 ^ 55 ≤ l.e.w64.toNat) : mepiBody h s l = .fault { code := 0x09, addr := l.e.w64 } := by
  subst hi
  refine commandBody_of_fault hs ((if_neg (mt State.epiGated_iff.2 hg)).trans ((if_neg hb).trans ?_))
  dsimp only
  rw [← State.epiCols, State.engOperand_of_some hp, if_pos (by rw [hG, decide_eq_true he]; rfl)]

variable (he : i.glob = true → l.e.w64.toNat < 2 ^ 55) {ai : Nat} {acc : Tile} (ht : s.EpiTiles l.tk i ai acc)
include he ht

/-- MEPI whose checks have passed: the first pages of its global operands are translated, and its command is accepted. -/
theorem mepiBody_fit : mepiBody h s l = match s.firstPages l.tk (i.pages (s.epiCols l.tk i) par l.e.w64.toNat) with
    | .error f => .fault f
    | .ok b => b.acceptCmd l { mat := true, twc := true }
        (.mepi l.a.w64 (if epiParLen i (s.epiCols l.tk i) = 0 then none else some par) (epiWord l.c) l.e.w64.toNat) false h
        (State.enterMepi s l.tk ai i · ·) := by
  subst hi
  have hnear : ¬((epiIm l.a.w64).glob && decide (2 ^ 55 ≤ l.e.w64.toNat)) = true := by simpa using he
  refine (commandBody_of_no_skip hs).trans ?_
  dsimp only
  rw [if_neg (mt State.epiGated_iff.2 hg), if_neg hb, ← State.epiCols, State.engOperand_of_some hp, if_neg hnear, ht.found]
  dsimp only
  rw [if_neg]
  · generalize hx : s.firstPages _ _ = x
    rw [show s.firstPages l.tk (EpiIm.pages (epiIm l.a.w64) (s.epiCols l.tk (epiIm l.a.w64)) par l.e.w64.toNat) = x from hx]
    cases x <;> rfl
  · exact ht.accepted

end

/-- What MEPI makes of its tiles. -/
def State.EpiTakes (s : State) (tk ai : Nat) (i : EpiIm) (t : State) : Prop :=
  t.EngineDrains (ckOf tk) ai ∧ ∀ oi out, i.glob = false → s.useTile tk i.out = some (oi, out) → t.EngineFills (ckOf tk) oi

theorem State.EpiTakes.congr {s : State} {tk ai : Nat} {i : EpiIm} {t u : State} (h : u.cores = t.cores) (ht : s.EpiTakes tk ai i t) :
    s.EpiTakes tk ai i u :=
  ⟨ht.1.congr h, fun oi out hg ho => (ht.2 oi out hg ho).congr h⟩

theorem State.enterMepi_spec {s : State} {tk ai : Nat} {i : EpiIm} {acc : Tile} (ht : s.EpiTiles tk i ai acc) {room : Slots}
    (hr : room.copy = false) (b : State) (c : Cmd) :
    ∃ a, b.Enqueues (ckOf tk) room { c with acc0 := a } (s.enterMepi tk ai i b c) ∧ s.EpiTakes tk ai i (s.enterMepi tk ai i b c) := by
  have hpush : b.Enqueues (ckOf tk) room { c with acc0 := c.acc0 } ((b.pushMat (ckOf tk) c).drainTile (ckOf tk) ai) :=
    (b.enqueues_pushMat (ckOf tk) hr c).keep (State.keepsQueues_drainTile ..)
  have hdrain := (b.pushMat (ckOf tk) c).engineDrains_drainTile (ckOf tk) ai
  refine ⟨c.acc0, ?_⟩
  unfold State.enterMepi State.EpiTakes
  generalize (b.pushMat (ckOf tk) c).drainTile (ckOf tk) ai = t at hpush hdrain
  rcases ht.output with hG | ⟨oi, out, hu, hne, -⟩
  · rw [hG]
    exact ⟨hpush, hdrain, fun _ _ hg => nomatch hg⟩
  · rw [hu]
    cases hG : i.glob with
    | true => exact ⟨hpush, hdrain, fun _ _ hg => nomatch hg⟩
    | false =>
      dsimp only
      refine ⟨hpush.keep (t.keepsQueues_fillTile ..), hdrain.fillTile hne.symm, fun oi' out' _ ho => ?_⟩
      cases ho
      exact t.engineFills_fillTile ..

/-! ### Translation touches no thread -/

theorem State.threads_firstPage {s t : State} {tk : Nat} {a : EAd} {need : Need} (h : s.firstPage tk a need = .ok t) :
    t.threads = s.threads := by
  unfold State.firstPage at h
  cases a with
  | loc | tile => cases h; rfl
  | glob va =>
    dsimp only at h
    split at h
    · cases h
    · split at h
      · cases h
      · split at h
        · cases h
        · split at h
          · cases h
          · cases h
            split <;> rfl

theorem State.threads_firstPages {tk : Nat} {l : List (EAd × Need)} : ∀ {s t : State}, s.firstPages tk l = .ok t →
    t.threads = s.threads := by
  induction l with
  | nil => rintro s t h; cases h; rfl
  | cons x l ih =>
    intro s t h
    rw [State.firstPages] at h
    split at h
    · rename_i hx
      exact (ih h).trans (State.threads_firstPage hx)
    · cases h

/-- Settles O33: each word by its skip, by its checks in their order, and by what its command's acceptance makes of queue, ticket,
counters and tiles. -/
theorem engineCommands : Obligations.EngineCommands := by
  unfold Obligations.EngineCommands
  intro w s h hw b l ck t0 skips accepts fills drains a mat
  refine ⟨fun o batch hu => ?mma, fun o hu => ?mmac, fun o rel => ?copies⟩
  case mma =>
    intro ins
    have he : exec ins s = word w.f (use1 o) (matBody batch (if batch then .mmab else .mma) h) s := by
      cases batch <;> rfl
    refine ⟨w.skips_of hw hu he, fun hs => ⟨fun hr => w.faults_of hw hu he (matBody_reserved _ _ h hs hr), fun ha =>
      ⟨fun x hc => w.faults_of hw hu he (matBody_unfit _ _ h hs ha hc), fun t hc => ?_⟩⟩⟩
    have haccepts := w.accepts_of hw hu he (matBody_fit _ _ h hs ha hc) hs (fun _ _ => State.EngineFills.congr)
      (State.enterMat_spec ck t rfl)
    cases batch <;> exact haccepts
  case mmac =>
    intro cl
    refine ⟨w.skips_of hw hu rfl, fun hs => ⟨fun hr => w.faults_of hw hu rfl (mmacBody_reserved h hs hr), fun r c hg ha =>
      ⟨fun x hc => w.faults_of hw hu rfl (mmacBody_unfit h hs hg ha hc), fun t hc => ?_⟩⟩⟩
    exact w.accepts_of hw hu rfl (mmacBody_fit h hs hg ha hc) hs (fun _ _ => State.EngineFills.congr)
      (State.enterMmac_spec l r c t rfl)
  case copies =>
    intro e
    refine ⟨fun hu => ⟨w.skips_of hw hu rfl, w.skips_of hw hu rfl, fun hs => ?_⟩, fun hu => ⟨w.skips_of hw hu rfl, fun hs => ?_⟩⟩
    · intro plan sides
      have hskip {c : List (EAd × Need)} {b' : State} (hx : b.firstPages w.tk c = .ok b') : (b'.thr w.tk).skip = [] := by
        rw [State.thr, State.threads_firstPages hx]
        exact hs
      refine ⟨fun x hp => w.faults_of hw hu rfl (cpyBody_unplanned rel h hs hp), fun p hp =>
        ⟨fun x hx => w.faults_of hw hu rfl (cpyBody_untranslated rel h hs hp hx), fun b' hx => ?_⟩,
        fun x hp => w.faults_of hw hu rfl (cpymBody_unplanned rel h hs hp), fun p hp => ?_⟩
      · exact w.accepts_of hw hu rfl (cpyBody_translated rel h hs hp hx) (hskip hx) (fun _ _ => CopyPlan.Takes.congr)
          (State.enterCopy_spec ck p rfl)
      · intro sound fill chk
        refine ⟨fun hr => w.faults_of hw hu rfl (cpymBody_reserved rel h hs hp hr), fun hf =>
          ⟨fun x hc => w.faults_of hw hu rfl (cpymBody_unfit rel h hs hp hf hc), fun t hc =>
            ⟨fun x hx => w.faults_of hw hu rfl (cpymBody_untranslated rel h hs hp hf hc hx), fun b' hx => ?_⟩⟩⟩
        exact w.accepts_of hw hu rfl (cpymBody_translated rel h hs hp hf hc hx) (hskip hx) (fun _ _ => CopyPlan.Takes.congr)
          (State.enterCpym_spec ck p p.fill t rfl)
    · intro i gated
      refine ⟨fun hg => w.faults_of hw hu rfl (mepiBody_gated h hs rfl hg),
        fun hg hb => w.faults_of hw hu rfl (mepiBody_reserved h hs rfl hg hb), fun cols hcols hg hb hB => ?_⟩
      subst hcols
      have hlegal : ¬(epiBad l.a.w64 l.e.w64 = true ∨ isTileAddr l.b.w64 = true) := by
        rintro (h | h)
        · exact Bool.eq_false_iff.1 hb h
        · exact Bool.eq_false_iff.1 hB h
      refine ⟨fun hp => w.faults_of hw hu rfl (mepiBody_unplaced h hs rfl hg hlegal hp),
        fun par hp hG hfar => w.faults_of hw hu rfl (mepiBody_far h hs rfl hg hlegal hp hG hfar),
        fun par ai acc hp hnear ha hpl hkind hready hunread hdrawn hout => ?_⟩
      have ht : b.EpiTiles w.tk i ai acc := ⟨ha, hpl, hkind, hready, hunread, hdrawn, hout⟩
      have hbody := mepiBody_fit (l := l) h hs rfl hg hlegal hp hnear ht
      intro pages
      generalize hr : b.firstPages l.tk _ = r at hbody
      refine ⟨fun x hx => ?_, fun b' hx => ?_⟩
      · obtain rfl : r = .error x := hr.symm.trans hx
        exact w.faults_of hw hu rfl hbody
      · obtain rfl : r = .ok b' := hr.symm.trans hx
        have hskip : (b'.thr w.tk).skip = [] := by
          rw [State.thr, State.threads_firstPages hx]
          exact hs
        exact w.accepts_of hw hu rfl hbody hskip (fun _ _ => State.EpiTakes.congr) (State.enterMepi_spec ht rfl)

end Sys2Proof.Machine
end

section
/-! SUPPORT. Words that a tandem pair performs once: what such a word does by the copy that issues it and by what its act answers
(R389, R404). -/

namespace Sys2Proof.Machine

section
variable {act : State → Lane → Res} {s : State} {l : Lane} {put : State → Word → State}

theorem once_of_passed (h : (s.thr l.tk).trails = true) {x : PairVal} (hx : s.passed l.tk (s.thr l.tk).nw = some x) :
    once act s l put = .ok (put (s.takePassed l.tk (s.thr l.tk).nw false) (x.v.headD 0)) := by
  simp only [once, h, if_true, hx]

theorem once_of_unpassed (h : (s.thr l.tk).trails = true) (hx : s.passed l.tk (s.thr l.tk).nw = none) :
    once act s l put = .park .passed := by
  simp only [once, h, if_true, hx]

theorem once_of_full (h : (s.thr l.tk).trails = false) (hl : (s.thr l.tk).leads = true) (hr : s.inqRoom l.tk = false) :
    once act s l put = .park .copies := by
  simp [once, h, hl, hr]

theorem once_of_acting (h : (s.thr l.tk).trails = false) (hr : (s.thr l.tk).leads = true → s.inqRoom l.tk = true) :
    once act s l put = act s l := by
  simpa [once, h] using fun hl hn => absurd (hr hl) (by simp [hn])

end

/-- What an act's answer makes of a system word that parks its gang until it has completed. -/
def SysRes.toRes (s : State) (l : Lane) : SysRes → Res
  | .done t v => .ok ((t.holdFor l none (some v)).pass l.tk { pos := (s.thr l.tk).nw, src := false, v := [v] })
  | .wait t w => .ok (t.holdFor l (some w) none)
  | .park w => .park w
  | .far q a => s.pathWait l q a
  | .fault f => .fault f

section
variable {chk : State → Lane → Option FI} {s : State} {l : Lane}

theorem sysBody_refused {act : State → Lane → SysRes} {x : FI} (h : chk s l = some x) : sysBody chk act s l = .fault x := by
  simp only [sysBody, h]

theorem sysBody_checked {act : State → Lane → SysRes} (h : chk s l = none) :
    sysBody chk act s l = once (fun s l => (act s l).toRes s l) s l fun s v => s.writeRD l.tk l.r.d [v] := by
  simp only [sysBody, h]
  congr 1

theorem sysNow_refused {act : State → Lane → State × Word} {x : FI} (h : chk s l = some x) : sysNow chk act s l = .fault x := by
  simp only [sysNow, h]

theorem sysNow_checked {act : State → Lane → State × Word} (h : chk s l = none) :
    sysNow chk act s l = once (fun s l =>
      .ok (((act s l).1.put l (act s l).2).pass l.tk { pos := (s.thr l.tk).nw, src := false, v := [(act s l).2] })) s l
      fun s v => s.put l v := by
  simp only [sysNow, h]

end

section
variable {w : Stand} {s : State} (hw : w.Clear s) {u : Use} (hu : w.u = u) {ins : Instr} {body : State → Lane → Res}
  (he : exec ins s = word w.f u body s)
include hw hu he

theorem Stand.once_of {act : State → Lane → Res} {put : State → Word → State} {P : Prop}
    (hb : body (w.begun s) (w.lane s) = Machine.once act (w.begun s) (w.lane s) put)
    (hP : body (w.begun s) (w.lane s) = act (w.begun s) (w.lane s) → P) : w.Once s ins put P :=
  ⟨fun ht => ⟨fun hx => w.parks_of hw hu he (hb.trans (once_of_unpassed ht hx)),
      fun _ hx => w.completes_of hw hu he (hb.trans (once_of_passed ht hx))⟩,
    fun ht hl hr => w.parks_of hw hu he (hb.trans (once_of_full ht hl hr)),
    fun ht hr => hP (hb.trans (once_of_acting ht hr))⟩

end

section
variable {w : Stand} {s : State} (hw : w.Clear s) {u : Use} (hu : w.u = u) {ins : Instr} {chk : State → Lane → Option FI}
  {act : State → Lane → SysRes} (he : exec ins s = word w.f u (sysBody chk act) s)
include hw hu he

theorem Stand.sysFaults_of {x : FI} (hc : chk (w.begun s) (w.lane s) = some x) : w.Faults s ins x :=
  w.faults_of hw hu he (sysBody_refused hc)

variable (hc : chk (w.begun s) (w.lane s) = none)
include hc

theorem Stand.answers_of {t : State} {v : Word} (ha : act (w.begun s) (w.lane s) = .done t v) : w.Answers s ins t v :=
  w.once_of hw hu he (sysBody_checked hc) fun hb => w.completes_of hw hu he (hb.trans (congrArg (SysRes.toRes _ _) ha))

theorem Stand.onceWaits_of {t : State} {o : OpW} (ha : act (w.begun s) (w.lane s) = .wait t o) :
    w.Once s ins (fun t v => t.writeRD w.tk w.r.d [v]) (w.Completes s ins (t.holdFor (w.lane s) (some o) none)) :=
  w.once_of hw hu he (sysBody_checked hc) fun hb => w.completes_of hw hu he (hb.trans (congrArg (SysRes.toRes _ _) ha))

theorem Stand.onceParks_of {y : Why} (ha : act (w.begun s) (w.lane s) = .park y) :
    w.Once s ins (fun t v => t.writeRD w.tk w.r.d [v]) (w.Parks s ins y) :=
  w.once_of hw hu he (sysBody_checked hc) fun hb => w.parks_of hw hu he (hb.trans (congrArg (SysRes.toRes _ _) ha))

theorem Stand.onceFaults_of {x : FI} (ha : act (w.begun s) (w.lane s) = .fault x) :
    w.Once s ins (fun t v => t.writeRD w.tk w.r.d [v]) (w.Faults s ins x) :=
  w.once_of hw hu he (sysBody_checked hc) fun hb => w.faults_of hw hu he (hb.trans (congrArg (SysRes.toRes _ _) ha))

theorem Stand.onceAwaits_of {q : Nat} {a : Word} (ha : act (w.begun s) (w.lane s) = .far q a) :
    w.Once s ins (fun t v => t.writeRD w.tk w.r.d [v]) (w.Awaits s ins q a) :=
  w.once_of hw hu he (sysBody_checked hc) fun hb => w.awaits_of hw hu he (hb.trans (congrArg (SysRes.toRes _ _) ha))

theorem Stand.onceMisses_of {x : FI} (ha : act (w.begun s) (w.lane s) = placeFail x) :
    w.Once s ins (fun t v => t.writeRD w.tk w.r.d [v])
      (if 0x100 ≤ x.code then w.Awaits s ins (x.code - 0x100) x.addr else w.Faults s ins x) := by
  by_cases hx : 0x100 ≤ x.code
  · rw [if_pos hx]
    exact w.onceAwaits_of hw hu he hc (ha.trans (if_pos hx))
  · rw [if_neg hx]
    exact w.onceFaults_of hw hu he hc (ha.trans (if_neg hx))

end

section
variable {w : Stand} {s : State} (hw : w.Clear s) {u : Use} (hu : w.u = u) {ins : Instr} {chk : State → Lane → Option FI}
  {act : State → Lane → State × Word} (he : exec ins s = word w.f u (sysNow chk act) s)
include hw hu he

theorem Stand.nowFaults_of {x : FI} (hc : chk (w.begun s) (w.lane s) = some x) : w.Faults s ins x :=
  w.faults_of hw hu he (sysNow_refused hc)

/-- What the acting copy of a word of fixed latency completes with. -/
theorem Stand.onceNow_of (hc : chk (w.begun s) (w.lane s) = none) {P : Prop}
    (hP : w.Completes s ins (w.passing s ((act (w.begun s) (w.lane s)).1.put (w.lane s) (act (w.begun s) (w.lane s)).2)
      (act (w.begun s) (w.lane s)).2) → P) : w.Once s ins (fun t v => t.put (w.lane s) v) P :=
  w.once_of hw hu he (sysNow_checked hc) fun hb => hP (w.completes_of hw hu he hb)

end

/-! ### Checks of operands -/

theorem reservedBits_eq_none {v m : Word} (h : v &&& m = 0) : reservedBits v m = none := if_neg (not_not.2 h)

theorem reservedBits_eq_some {v m : Word} (h : v &&& m ≠ 0) : reservedBits v m = some { code := 0x02 } := if_pos h

theorem misaligned_eq_none {a : Word} {n : Nat} (h : a.toNat % n = 0) : misaligned a n = none := if_neg (not_not.2 h)

theorem misaligned_eq_some {a : Word} {n : Nat} (h : a.toNat % n ≠ 0) : misaligned a n = some { code := 0x07, addr := a } := if_pos h

/-- The bits of a word above its low `k` are 0 exactly when it is below 2^k. -/
theorem and_highBits_eq_zero_iff {v : Word} {k : Nat} : v &&& ~~~(BitVec.ofNat 64 (2 ^ k - 1)) = 0 ↔ v.toNat < 2 ^ k := by
  have hbit (i : Nat) (hi : i < 64) : (v &&& ~~~(BitVec.ofNat 64 (2 ^ k - 1))).getLsbD i = (v.toNat.testBit i && !decide (i < k)) := by
    simp only [BitVec.getLsbD_and, BitVec.getLsbD_not, BitVec.getLsbD_ofNat, Nat.testBit_two_pow_sub_one, hi, decide_true,
      Bool.true_and, BitVec.testBit_toNat]
  refine ⟨fun h => Nat.lt_pow_two_of_testBit _ fun i hi => ?_, fun h => BitVec.eq_of_getLsbD_eq fun i hi => ?_⟩
  · by_cases hi64 : i < 64
    · simpa [h, Nat.not_lt.2 hi] using (hbit i hi64).symm
    · exact Nat.testBit_lt_two_pow (v.isLt.trans_le (Nat.pow_le_pow_right (by omega) (Nat.not_lt.1 hi64)))
  · rw [hbit i hi]
    by_cases hik : i < k
    · simp [hik]
    · simp [Nat.testBit_lt_two_pow (h.trans_le (Nat.pow_le_pow_right (by omega) (Nat.not_lt.1 hik)))]

theorem reservedAbove_eq_none {v : Word} {k : Nat} (h : v.toNat < 2 ^ k) :
    reservedBits v (~~~(BitVec.ofNat 64 (2 ^ k - 1))) = none := reservedBits_eq_none (and_highBits_eq_zero_iff.2 h)

theorem reservedAbove_eq_some {v : Word} {k : Nat} (h : 2 ^ k ≤ v.toNat) :
    reservedBits v (~~~(BitVec.ofNat 64 (2 ^ k - 1))) = some { code := 0x02 } :=
  reservedBits_eq_some fun h0 => Nat.not_lt.2 h (and_highBits_eq_zero_iff.1 h0)

end Sys2Proof.Machine
end

section
/-! SUPPORT. FEATRD (R393, R404). -/

namespace Sys2Proof.Machine

/-- What FEATRD reads. -/
def featWord (s : State) (l : Lane) : Word :=
  (((if l.a.w64.getLsbD 0 then (s.pkg (pkgOfThr l.tk)).featTake else 0xFFFF : BitVec 256) >>>
    (64 * field l.a.w64.toNat 2 1))).setWidth 64

/-- Word k of FEAT_TAKE for an odd operand 2k + 1, of FEAT_HAVE for an even one (R393). -/
theorem featWord_eq {s : State} {l : Lane} (ha : l.a.w64.toNat < 8) : featWord s l =
    if l.a.w64.toNat % 2 = 1 then ((s.pkg (pkgOfThr l.tk)).featTake >>> (64 * (l.a.w64.toNat / 2))).setWidth 64
    else if l.a.w64.toNat / 2 = 0 then 0xFFFF else 0 := by
  have hk : field l.a.w64.toNat 2 1 = l.a.w64.toNat / 2 := by
    simp only [field]
    omega
  have hbit : l.a.w64.getLsbD 0 = decide (l.a.w64.toNat % 2 = 1) := by
    simp [BitVec.getLsbD, Nat.testBit_zero]
  unfold featWord
  rw [hk, hbit]
  by_cases ho : l.a.w64.toNat % 2 = 1
  · simp only [ho, decide_true, if_true]
  · simp only [ho, decide_false, Bool.false_eq_true, if_false]
    obtain h0 | h0 | h0 | h0 : l.a.w64.toNat / 2 = 0 ∨ l.a.w64.toNat / 2 = 1 ∨ l.a.w64.toNat / 2 = 2 ∨ l.a.w64.toNat / 2 = 3 := by omega
    all_goals rw [h0]; decide

/-- Settles O37: FEATRD is a word of fixed latency that both copies of a pair see once. -/
theorem featureWords : Obligations.FeatureWords := by
  unfold Obligations.FeatureWords
  intro w s o hu hw b l a t v
  have he : exec (.featrd w.f o) s = word w.f { use1 o with priv := 1 }
      (sysNow (fun _ l => reservedBits l.a.w64 (~~~7)) fun s l => (s, featWord s l)) s := rfl
  have hc (ha : a < 8) : reservedBits l.a.w64 (~~~7) = none := reservedAbove_eq_none (k := 3) ha
  have honce (ha : a < 8) := w.onceNow_of hw hu he (hc ha) id
  refine ⟨fun ha => w.nowFaults_of hw hu he (reservedAbove_eq_some (k := 3) ha), fun ha ht hr => ?_,
    fun ha ht hl hr => (honce ha).2.1 ht hl hr, fun ha ht hx => ((honce ha).1 ht).1 hx, fun ha ht x hx => ((honce ha).1 ht).2 x hx⟩
  have hv : featWord b l = v := featWord_eq ha
  rw [← hv]
  exact (honce ha).2.2 ht hr

end Sys2Proof.Machine
end

section
/-! SUPPORT. Images that system words write to and read from virtual addresses (R390, R398, R399). -/

namespace Sys2Proof.Machine

section
variable {s : State} {l : Lane} {a : Word} {im : List Byte} {v : Word}

theorem State.putImage_of_buffered (h : (s.thr l.tk).buffers a.toNat im.length = true) :
    s.putImage l a im v = .park (.ctrs false true false) := if_pos h

variable (h : (s.thr l.tk).buffers a.toNat im.length = false)
include h

theorem State.putImage_of_unplaced {x : FI} (hp : s.unitPlaces l.tk a.toNat .wr (im.length / 8) = .error x) :
    s.putImage l a im v = placeFail x := by
  simp only [State.putImage, h, Bool.false_eq_true, if_false, hp]

theorem State.putImage_of_placed {ps : List Nat} {t : State} (hp : s.unitPlaces l.tk a.toNat .wr (im.length / 8) = .ok (ps, t)) :
    s.putImage l a im v =
      .done (ps.zipIdx.foldl (fun s x => (s.settle (lineOf x.1)).writeBytes x.1 ((im.drop (8 * x.2)).take 8)) t) v := by
  simp only [State.putImage, h, Bool.false_eq_true, if_false, hp]

end

section
variable {s : State} {l : Lane} {a : Word} {n : Nat} {k : State → List Byte → SysRes}

theorem State.getImage_of_buffered (h : (s.thr l.tk).buffers a.toNat n = true) :
    s.getImage l a n k = .park (.ctrs false true false) := if_pos h

variable (h : (s.thr l.tk).buffers a.toNat n = false)
include h

theorem State.getImage_of_unplaced {x : FI} (hp : s.unitPlaces l.tk a.toNat .rd (n / 8) = .error x) :
    s.getImage l a n k = placeFail x := by
  simp only [State.getImage, h, Bool.false_eq_true, if_false, hp]

theorem State.getImage_of_placed {ps : List Nat} {t : State} (hp : s.unitPlaces l.tk a.toNat .rd (n / 8) = .ok (ps, t)) :
    s.getImage l a n k =
      k (ps.foldl (fun s x => s.settle (lineOf x)) t) (ps.flatMap fun x => (ps.foldl (fun s x => s.settle (lineOf x)) t).bytes x 8) := by
  simp only [State.getImage, h, Bool.false_eq_true, if_false, hp]

end

theorem length_flatMap_of_const {α β : Type} {f : α → List β} {n : Nat} (hf : ∀ x, (f x).length = n) (xs : List α) :
    (xs.flatMap f).length = xs.length * n := by
  simp [List.length_flatMap, hf]

theorem State.length_threadImage (s : State) (tk : Nat) : (s.threadImage tk).length = 1024 := by
  unfold State.threadImage
  simp only [List.length_append, length_flatMap_of_const fun _ => length_leBytes .., length_leBytes, List.length_range,
    List.length_replicate]

theorem Bar.length_image (v : Bar) : v.image.length = 512 := by
  simp [Bar.image, length_leBytes]

end Sys2Proof.Machine
end

section
/-! SUPPORT. THRCTL and XRET (R390, R391). -/

namespace Sys2Proof.Machine

theorem thrTarget_eq (tk : Nat) (a : Word) : thrTarget tk a =
    thrKey (coreKey (pkgOfThr tk) (a.toNat / 2 ^ 17 % 4) (a.toNat / 2 ^ 10 % 128)) (a.toNat % 2 ^ 10) :=
  congrArg (thrKey _) (field_low a.toNat 9)

/-! ### What THRCTL finds of its target -/

section
variable {k : State → Lane → Nat → SysRes} {s : State} {l : Lane}

theorem onThread_of_preempted (h : Tab.getOr (s.ctx (pkgOfThr l.tk) (thrCtx l.a.w64)).st (l.a.w64.toNat / 2 ^ 17 % 4) 0 = 3) :
    onThread k s l = .done s 3 := if_pos h

variable (h : Tab.getOr (s.ctx (pkgOfThr l.tk) (thrCtx l.a.w64)).st (l.a.w64.toNat / 2 ^ 17 % 4) 0 ≠ 3)
include h

theorem onThread_of_absent (ha : 96 ≤ l.a.w64.toNat / 2 ^ 10 % 128 ∨ (s.thr (thrTarget l.tk l.a.w64)).st = .free
    ∨ (s.thr (thrTarget l.tk l.a.w64)).ctx ≠ thrCtx l.a.w64) : onThread k s l = .done s 1 :=
  (if_neg h).trans (if_pos ha)

variable (ha : ¬(96 ≤ l.a.w64.toNat / 2 ^ 10 % 128 ∨ (s.thr (thrTarget l.tk l.a.w64)).st = .free
  ∨ (s.thr (thrTarget l.tk l.a.w64)).ctx ≠ thrCtx l.a.w64))
include ha

theorem onThread_of_present : onThread k s l = k s l (thrTarget l.tk l.a.w64) := (if_neg h).trans (if_neg ha)

theorem onStopped_of_running (hs : (s.thr (thrTarget l.tk l.a.w64)).st ≠ .stopped) : onStopped k s l = .done s 2 :=
  (onThread_of_present h ha).trans (if_pos hs)

theorem onStopped_of_stopped (hs : (s.thr (thrTarget l.tk l.a.w64)).st = .stopped) :
    onStopped k s l = k s l (thrTarget l.tk l.a.w64) :=
  (onThread_of_present h ha).trans (if_neg (not_not.2 hs))

end

theorem thrChk_of_reserved {more : Lane → Option FI} {s : State} {l : Lane} (h : 2 ^ 25 ≤ l.a.w64.toNat) :
    thrChk more s l = some { code := 0x02 } := by
  have hr : reservedBits l.a.w64 0xFFFFFFFFFE000000 = some { code := 0x02 } := reservedAbove_eq_some (k := 25) h
  simp only [thrChk, hr]

theorem thrChk_of_legal {more : Lane → Option FI} {s : State} {l : Lane} (h : l.a.w64.toNat < 2 ^ 25) :
    thrChk more s l = more l := by
  have hr : reservedBits l.a.w64 0xFFFFFFFFFE000000 = none := reservedAbove_eq_none (k := 25) h
  simp only [thrChk, hr]

end Sys2Proof.Machine
end

section
/-! SUPPORT. What THRCTL and XRET answer (R390, R391). -/

namespace Sys2Proof.Machine

section
variable {w : Stand} {s : State} (hw : w.Clear s) {o : O2} (hu : w.u = thrUse o) {ins : Instr} {more : Lane → Option FI}
  {m : Nat} (hm : more (w.lane s) = misaligned (w.lane s).b.w64 m)
include hw hu hm

/-- The checks of a THRCTL whose second operand is aligned to `m`, and the statuses of a target that is not there. -/
theorem Stand.thrChecked_of {k : State → Lane → Nat → SysRes} {tk : Nat} (htk : thrTarget w.tk (w.lane s).a.w64 = tk)
    (he : exec ins s = word w.f (thrUse o) (sysBody (thrChk more) (onThread k)) s) :
    let l := w.lane s
    let n := l.a.w64.toNat
    let b := w.begun s
    let t := b.thr tk
    let st := Tab.getOr (b.ctx (pkgOfThr w.tk) (thrCtx l.a.w64)).st (n / 2 ^ 17 % 4) 0
    (2 ^ 25 ≤ n → w.Faults s ins { code := 0x02 })
    ∧ (n < 2 ^ 25 → l.b.w64.toNat % m ≠ 0 → w.Faults s ins { code := 0x07, addr := l.b.w64 })
    ∧ (n < 2 ^ 25 → l.b.w64.toNat % m = 0 → (st = 3 → w.Answers s ins b 3)
      ∧ (st ≠ 3 → (96 ≤ n / 2 ^ 10 % 128 ∨ t.st = .free ∨ t.ctx ≠ thrCtx l.a.w64) → w.Answers s ins b 1)) := by
  subst htk
  refine ⟨fun hn => w.sysFaults_of hw hu he (thrChk_of_reserved hn), fun hn ha => w.sysFaults_of hw hu he ?_,
    fun hn ha => ⟨fun h3 => w.answers_of hw hu he ?_ (onThread_of_preempted h3),
      fun h3 habs => w.answers_of hw hu he ?_ (onThread_of_absent h3 habs)⟩⟩
  · exact (thrChk_of_legal hn).trans (hm.trans (misaligned_eq_some ha))
  · exact (thrChk_of_legal hn).trans (hm.trans (misaligned_eq_none ha))
  · exact (thrChk_of_legal hn).trans (hm.trans (misaligned_eq_none ha))

end

/-- XRET's own effect. -/
def xretBody (s : State) (l : Lane) : Res :=
  let a := l.a.w64
  if !(s.thr l.tk).hand then .fault { code := 0x09 }
  else if a = 0 then .ok (s.modThr l.tk fun t => { t with hand := false, xgo := true })
  else
    match misaligned a 8 with
    | some x => .fault x
    | none => .ok (s.modThr l.tk fun t => { t with hand := false, jump := some a, head := true, xends := [] })

theorem exec_xret (f : Frame) (x : Src) (s : State) :
    exec (.xret f x) s = word f { src := [(0, x)], priv := 1 } xretBody s := rfl

section
variable {s : State} {l : Lane}

theorem xretBody_outside (h : (s.thr l.tk).hand = false) : xretBody s l = .fault { code := 0x09 } := by
  simp [xretBody, h]

variable (h : (s.thr l.tk).hand = true)
include h

theorem xretBody_saved (ha : l.a.w64 = 0) :
    xretBody s l = .ok (s.modThr l.tk fun t => { t with hand := false, xgo := true }) := by
  simp [xretBody, h, ha]

theorem xretBody_misaligned (ha : l.a.w64 ≠ 0) (hn : l.a.w64.toNat % 8 ≠ 0) :
    xretBody s l = .fault { code := 0x07, addr := l.a.w64 } := by
  simp only [xretBody, h, Bool.not_true, Bool.false_eq_true, if_false, ha, misaligned_eq_some hn]

theorem xretBody_header (ha : l.a.w64 ≠ 0) (hn : l.a.w64.toNat % 8 = 0) :
    xretBody s l = .ok (s.modThr l.tk fun t => { t with hand := false, jump := some l.a.w64, head := true, xends := [] }) := by
  simp only [xretBody, h, Bool.not_true, Bool.false_eq_true, if_false, ha, misaligned_eq_none hn]

end

/-- What SETST makes of the image that it has read. -/
def setstImage (tk : Nat) (s : State) (im : List Byte) : SysRes :=
  if !ixImagesOk im then .fault { code := 0x02 } else .done ((s.copiesOf tk).foldl (fun s k => s.loadImage k im) s) 0

/-- Settles O38: each THRCTL by its checks, then by what it finds of its target; XRET by the thread's handler state and its
operand. -/
theorem threadCommands : Obligations.ThreadCommands := by
  unfold Obligations.ThreadCommands
  intro w s hw b l a v n core die c tk t st absent both
  have htk : thrTarget l.tk a = tk := thrTarget_eq ..
  have hone (x : Word) : misaligned x 1 = none := misaligned_eq_none (Nat.mod_one _)
  refine ⟨fun o hu => ?thrctl, fun x hu => ?xret⟩
  case xret =>
    exact ⟨fun h => w.faults_of hw hu (exec_xret ..) (xretBody_outside h), fun h =>
      ⟨fun ha => w.completes_of hw hu (exec_xret ..) (xretBody_saved h ha),
        fun ha hn => w.faults_of hw hu (exec_xret ..) (xretBody_misaligned h ha hn),
        fun ha hn => w.completes_of hw hu (exec_xret ..) (xretBody_header h ha hn)⟩⟩
  case thrctl =>
    intro answers once misses checked reached resume redirect kill stop getst setst
    have hchk {m : Nat} (hr : reached m) {more : Lane → Option FI} (hm : more l = misaligned v m) : thrChk more b l = none :=
      (thrChk_of_legal hr.1).trans (hm.trans (misaligned_eq_none hr.2.1))
    have hpresent {m : Nat} (hr : reached m) (k : State → Lane → Nat → SysRes) : onThread k b l = k b l tk := by
      have h := onThread_of_present (k := k) (s := b) (l := l) hr.2.2.1 (by rw [htk]; exact hr.2.2.2)
      rwa [htk] at h
    have hstopped {m : Nat} (hr : reached m) (k : State → Lane → Nat → SysRes) (hs : t.st = .stopped) : onStopped k b l = k b l tk :=
      (hpresent hr _).trans (if_neg (not_not.2 hs))
    have hrunning {m : Nat} (hr : reached m) (k : State → Lane → Nat → SysRes) (hs : ¬t.st = .stopped) : onStopped k b l = .done b 2 :=
      (hpresent hr _).trans (if_pos hs)
    have hchecked {ins : Instr} {m : Nat} {more : Lane → Option FI} (hm : more l = misaligned v m) {k : State → Lane → Nat → SysRes}
        (he : exec ins s = word w.f (thrUse o) (sysBody (thrChk more) (onThread k)) s) : checked ins m :=
      w.thrChecked_of hw hu hm htk he
    have heresume : exec resume s = word w.f (thrUse o) (sysBody (thrChk fun _ => none) (onStopped fun s _ tk =>
      .done ((s.copiesOf tk).foldl (fun s k => s.modThr k Thread.resume) s) 0)) s := rfl
    have heredirect : exec redirect s = word w.f (thrUse o) (sysBody (thrChk fun l => misaligned l.b.w64 8) (onStopped fun s l tk =>
      .done ((s.copiesOf tk).foldl (fun s k => s.modThr k fun t => t.redirect l.b.w64) s) 0)) s := rfl
    have hegetst : exec getst s = word w.f (thrUse o) (sysBody (thrChk fun l => misaligned l.b.w64 64) (onStopped fun s l tk =>
      s.putImage l l.b.w64 (s.threadImage tk) 0)) s := rfl
    have hesetst : exec setst s = word w.f (thrUse o) (sysBody (thrChk fun l => misaligned l.b.w64 64) (onStopped fun s l tk =>
      s.getImage l l.b.w64 1024 (setstImage tk))) s := rfl
    refine ⟨⟨hchecked (hone _).symm rfl, hchecked rfl rfl, hchecked (hone _).symm rfl, hchecked (hone _).symm rfl,
      hchecked rfl rfl, hchecked rfl rfl⟩, fun hr => ?resume, fun hr => ?redirect, fun hr => ?kill, fun hr => ?stop, fun hr => ?getst,
      fun hr => ?setst⟩
    case resume =>
      have hc := hchk hr (more := fun _ => none) (hone v).symm
      split
      next hs => exact w.answers_of hw hu heresume hc (hstopped hr _ hs)
      next hs => exact w.answers_of hw hu heresume hc (hrunning hr _ hs)
    case redirect =>
      have hc := hchk hr (more := fun l => misaligned l.b.w64 8) rfl
      split
      next hs => exact w.answers_of hw hu heredirect hc (hstopped hr _ hs)
      next hs => exact w.answers_of hw hu heredirect hc (hrunning hr _ hs)
    case kill =>
      exact ⟨_, w.answers_of hw hu rfl (hchk hr (more := fun _ => none) (hone v).symm) (hpresent hr _), rfl⟩
    case stop =>
      have hc := hchk hr (more := fun _ => none) (hone v).symm
      split
      next hs => exact w.answers_of hw hu rfl hc ((hpresent hr _).trans (if_pos hs))
      next hs => exact w.answers_of hw hu rfl hc ((hpresent hr _).trans (if_neg hs))
    case getst =>
      have hc := hchk hr (more := fun l => misaligned l.b.w64 64) rfl
      have hlen : (b.threadImage tk).length = 1024 := State.length_threadImage ..
      split
      next hs =>
        refine ⟨fun hb => w.onceParks_of hw hu hegetst hc ((hstopped hr _ hs).trans (State.putImage_of_buffered (by rwa [hlen]))),
          fun hb => ?_⟩
        have hb' : (b.thr l.tk).buffers v.toNat (b.threadImage tk).length = false := by rwa [hlen]
        refine ⟨fun y hp => w.onceMisses_of hw hu hegetst hc ((hstopped hr _ hs).trans (State.putImage_of_unplaced hb' (by rwa [hlen]))),
          fun ps b' hp => w.answers_of hw hu hegetst hc ((hstopped hr _ hs).trans (State.putImage_of_placed hb' (by rwa [hlen])))⟩
      next hs => exact w.answers_of hw hu hegetst hc (hrunning hr _ hs)
    case setst =>
      have hc := hchk hr (more := fun l => misaligned l.b.w64 64) rfl
      split
      next hs =>
        refine ⟨fun hb => w.onceParks_of hw hu hesetst hc ((hstopped hr _ hs).trans (State.getImage_of_buffered hb)), fun hb =>
          ⟨fun y hp => w.onceMisses_of hw hu hesetst hc ((hstopped hr _ hs).trans (State.getImage_of_unplaced hb hp)),
            fun ps b' hp => ?_⟩⟩
        intro b'' im
        have hact := (hstopped hr (fun s l tk => s.getImage l l.b.w64 1024 (setstImage tk)) hs).trans
          (State.getImage_of_placed (k := setstImage tk) hb hp)
        split
        next him => exact w.answers_of hw hu hesetst hc (hact.trans (if_neg (by simpa using him)))
        next him => exact w.onceFaults_of hw hu hesetst hc (hact.trans (if_pos (by simpa using him)))
      next hs => exact w.answers_of hw hu hesetst hc (hrunning hr _ hs)

end Sys2Proof.Machine
end

section
/-! SUPPORT. Fields of operands, and tables whose values change in place. -/

namespace Sys2Proof.Machine

/-- The `k` bits of a word from bit `j` on are 0 exactly when the field that they are is 0. -/
theorem and_midBits_eq_zero_iff {v : Word} {j k : Nat} (h : j + k ≤ 64) :
    v &&& BitVec.ofNat 64 ((2 ^ k - 1) * 2 ^ j) = 0 ↔ v.toNat / 2 ^ j % 2 ^ k = 0 := by
  have hbit (i : Nat) (hi : i < 64) : (v &&& BitVec.ofNat 64 ((2 ^ k - 1) * 2 ^ j)).getLsbD i =
      (v.toNat.testBit i && (decide (j ≤ i) && decide (i - j < k))) := by
    simp only [BitVec.getLsbD_and, BitVec.getLsbD_ofNat, Nat.testBit_mul_two_pow, Nat.testBit_two_pow_sub_one, hi, decide_true,
      Bool.true_and, BitVec.testBit_toNat]
  constructor
  · intro hz
    refine Nat.eq_of_testBit_eq fun i => ?_
    rw [Nat.testBit_mod_two_pow, Nat.testBit_div_two_pow, Nat.zero_testBit]
    by_cases hi : i < k
    · simpa [hz, hi] using (hbit (i + j) (by omega)).symm
    · simp [hi]
  · intro hz
    refine BitVec.eq_of_getLsbD_eq fun i hi => ?_
    rw [hbit i hi, show BitVec.getLsbD (0 : Word) i = false from BitVec.getLsbD_zero]
    by_cases hm : j ≤ i ∧ i - j < k
    · have hf := congrArg (fun x => x.testBit (i - j)) hz
      simp only [Nat.testBit_mod_two_pow, Nat.testBit_div_two_pow, Nat.zero_testBit, hm.2, decide_true, Bool.true_and,
        Nat.sub_add_cancel hm.1] at hf
      rw [hf, Bool.false_and]
    · rcases not_and_or.1 hm with hm | hm <;> simp [hm]

theorem Tab.look_mapVal {β γ : Type} (f : Nat → β → γ) (t : Tab β) (k : Nat) :
    Tab.look (t.map fun e => (e.1, f e.1 e.2)) k = (Tab.look t k).map (f k) := by
  induction t with
  | nil => rfl
  | cons e r ih =>
    simp only [List.map_cons, Tab.look]
    split
    next h => rw [h, Option.map_some]
    next h => exact ih

end Sys2Proof.Machine
end

section
/-! SUPPORT. BARSAVE, BARREST, TLBINV, MAPSET, SELFTEST and ERRRD (R395 to R399). -/

namespace Sys2Proof.Machine

/-! ### Barrier images (R399) -/

/-- The operand names at least one barrier of a core that exists. -/
def BarLegal (v : Word) : Prop := v.toNat < 2 ^ 30 ∧ 0 < v.toNat / 2 ^ 10 % 2 ^ 11 ∧ v.toNat / 2 ^ 21 % 128 < 96

section
variable {s : State} {l : Lane}

theorem barChk_of_illegal (h : ¬BarLegal l.b.w64) : barChk s l = some { code := 0x02 } := by
  by_cases hv : l.b.w64.toNat < 2 ^ 30
  · have hr : reservedBits l.b.w64 0xFFFFFFFFC0000000 = none := reservedAbove_eq_none (k := 30) hv
    have hc : field l.b.w64.toNat 20 10 = 0 ∨ 96 ≤ field l.b.w64.toNat 27 21 := by
      simp only [BarLegal, field] at h ⊢
      omega
    simp only [barChk, hr, if_pos hc]
  · have hr : reservedBits l.b.w64 0xFFFFFFFFC0000000 = some { code := 0x02 } := reservedAbove_eq_some (k := 30) (Nat.not_lt.1 hv)
    simp only [barChk, hr]

theorem barChk_of_legal (h : BarLegal l.b.w64) : barChk s l = misaligned l.a.w64 128 := by
  have hr : reservedBits l.b.w64 0xFFFFFFFFC0000000 = none := reservedAbove_eq_none (k := 30) h.1
  have hc : ¬(field l.b.w64.toNat 20 10 = 0 ∨ 96 ≤ field l.b.w64.toNat 27 21) := by
    simp only [BarLegal, field] at h ⊢
    omega
  simp only [barChk, hr, if_neg hc]

end

theorem barSel_eq (tk : Nat) (v : Word) : barSel tk v =
    { first := v.toNat % 2 ^ 10, count := v.toNat / 2 ^ 10 % 2 ^ 11,
      ck := coreKey (pkgOfThr tk) (v.toNat / 2 ^ 28 % 4) (v.toNat / 2 ^ 21 % 128) } := by
  simp only [barSel, field_low]
  rfl

/-- The context of one of the barriers runs, or is being pre-empted (R399). -/
def State.BarRuns (s : State) (r : BarSel) : Prop :=
  ∃ k c, k < r.count ∧ s.barOwner r.ck (r.first + k) = some c ∧
    (Tab.getOr (s.ctx (pkgOfCore r.ck) c).st (dieIx (dkOf r.ck)) 0 = 1 ∨ Tab.getOr (s.ctx (pkgOfCore r.ck) c).st (dieIx (dkOf r.ck)) 0 = 2)

section
variable {s : State} {r : BarSel}

theorem barStatus_of_past (h : 1024 < r.first + r.count) : barStatus s r = 2 := if_pos h

theorem barStatus_of_fitting (h : r.first + r.count ≤ 1024) [Decidable (s.BarRuns r)] :
    barStatus s r = if s.BarRuns r then 1 else 0 := by
  refine (if_neg (Nat.not_lt.2 h)).trans (if_congr ?_ rfl rfl)
  simp only [List.any_eq_true, List.mem_range, State.BarRuns]
  refine ⟨fun ⟨k, hk, h⟩ => ?_, fun ⟨k, c, hk, ho, hc⟩ => ⟨k, hk, ?_⟩⟩
  · split at h
    next c ho => exact ⟨k, c, hk, ho, by simpa using h⟩
    next => exact absurd h (by decide)
  · rw [ho]
    simpa using hc

end

/-- The own effect of a word for the barriers that its operand names: a status, or what `k` does with them. -/
def barAct (k : State → Lane → BarSel → SysRes) (s : State) (l : Lane) : SysRes :=
  let r := barSel l.tk l.b.w64
  let st := barStatus s r
  if st ≠ 0 then .done s (BitVec.ofNat 64 st) else k s l r

/-- BARSAVE of barriers that it may save. -/
def barsaveOf (s : State) (l : Lane) (r : BarSel) : SysRes :=
  s.putImage l l.a.w64 ((List.range r.count).flatMap fun k => (s.bar r.ck (r.first + k)).image) 0

/-- BARREST makes the barriers what an image says. -/
def restoreBars (r : BarSel) (s : State) (im : List Byte) : SysRes :=
  .done ((List.range r.count).foldl (fun s k => s.restoreBar r.ck (r.first + k) (barFrom (im.drop (512 * k)))) s) 0

/-- BARREST of barriers that it may restore. -/
def barrestOf (s : State) (l : Lane) (r : BarSel) : SysRes := s.getImage l l.a.w64 (512 * r.count) (restoreBars r)

theorem exec_barsave (f : Frame) (o : O2) (s : State) :
    exec (.barsave f o) s = word f { use2 o with priv := 1 } (sysBody barChk (barAct barsaveOf)) s := rfl

theorem exec_barrest (f : Frame) (o : O2) (s : State) :
    exec (.barrest f o) s = word f { use2 o with priv := 1 } (sysBody barChk (barAct barrestOf)) s := rfl

section
variable {k : State → Lane → BarSel → SysRes} {s : State} {l : Lane} {r : BarSel} (hr : barSel l.tk l.b.w64 = r)
include hr

theorem barAct_of_past (h : 1024 < r.first + r.count) : barAct k s l = .done s 2 := by
  subst hr
  simp only [barAct, barStatus_of_past h]
  rfl

variable (h : r.first + r.count ≤ 1024)
include h

theorem barAct_of_running (hb : s.BarRuns r) : barAct k s l = .done s 1 := by
  classical
  subst hr
  simp only [barAct, barStatus_of_fitting h, if_pos hb]
  rfl

theorem barAct_of_clear (hb : ¬s.BarRuns r) : barAct k s l = k s l r := by
  classical
  subst hr
  simp only [barAct, barStatus_of_fitting h, if_neg hb, ne_eq, not_true_eq_false, if_false]

end

theorem length_barImages (n : Nat) (f : Nat → Bar) : ((List.range n).flatMap fun k => (f k).image).length = 512 * n := by
  rw [length_flatMap_of_const fun _ => Bar.length_image _, List.length_range, Nat.mul_comm]

/-! ### Translations (R395) -/

theorem tlbMask_eq_zero_iff {v : Word} : v &&& 0xFF8000000000FFFE = 0 ↔ v.toNat % 2 ^ 16 / 2 = 0 ∧ v.toNat < 2 ^ 55 := by
  have hlow := and_midBits_eq_zero_iff (v := v) (j := 1) (k := 15) (by decide)
  have hhigh := and_midBits_eq_zero_iff (v := v) (j := 55) (k := 9) (by decide)
  have hor : v &&& 0xFF8000000000FFFE =
      (v &&& BitVec.ofNat 64 ((2 ^ 15 - 1) * 2 ^ 1)) ||| (v &&& BitVec.ofNat 64 ((2 ^ 9 - 1) * 2 ^ 55)) := by
    rw [← BitVec.and_or_distrib_left]
    rfl
  have hv := v.isLt
  rw [hor]
  constructor
  · intro h
    have hboth := BitVec.or_eq_zero_iff.1 h
    have h1 := hlow.1 hboth.1
    have h2 := hhigh.1 hboth.2
    omega
  · rintro ⟨h1, h2⟩
    exact BitVec.or_eq_zero_iff.2 ⟨hlow.2 (by omega), hhigh.2 (by omega)⟩

/-- TLBINV's checks of its operands. -/
def tlbChk (_ : State) (l : Lane) : Option FI := reservedBits l.a.w64 (~~~0x7F) <|> reservedBits l.b.w64 0xFF8000000000FFFE

theorem tlbChk_of_reserved {s : State} {l : Lane}
    (h : 2 ^ 7 ≤ l.a.w64.toNat ∨ l.b.w64.toNat % 2 ^ 16 / 2 ≠ 0 ∨ 2 ^ 55 ≤ l.b.w64.toNat) : tlbChk s l = some { code := 0x02 } := by
  by_cases ha : 2 ^ 7 ≤ l.a.w64.toNat
  · have hr : reservedBits l.a.w64 (~~~0x7F) = some { code := 0x02 } := reservedAbove_eq_some (k := 7) ha
    simp only [tlbChk, hr]
    rfl
  · have hr : reservedBits l.a.w64 (~~~0x7F) = none := reservedAbove_eq_none (k := 7) (Nat.not_le.1 ha)
    have hb : reservedBits l.b.w64 0xFF8000000000FFFE = some { code := 0x02 } :=
      reservedBits_eq_some fun h0 => by
        have := tlbMask_eq_zero_iff.1 h0
        omega
    simp only [tlbChk, hr, hb]
    rfl

theorem tlbChk_of_legal {s : State} {l : Lane} (ha : l.a.w64.toNat < 2 ^ 7) (hb : l.b.w64.toNat % 2 ^ 16 / 2 = 0)
    (hv : l.b.w64.toNat < 2 ^ 55) : tlbChk s l = none := by
  have hr : reservedBits l.a.w64 (~~~0x7F) = none := reservedAbove_eq_none (k := 7) ha
  have hr' : reservedBits l.b.w64 0xFF8000000000FFFE = none := reservedBits_eq_none (tlbMask_eq_zero_iff.2 ⟨hb, hv⟩)
  simp only [tlbChk, hr, hr']
  rfl

theorem tlbNames_eq {a v : Word} (ha : a.toNat < 2 ^ 7) (hv : v.toNat < 2 ^ 55) (c : Nat) (x : Xl) : tlbNames a v c x =
    ((decide (64 ≤ a.toNat) || c == a.toNat % 64) && (decide (v.toNat % 2 = 1) || x.covers (v.toNat / 2 ^ 16 * 2 ^ 16))) := by
  have h6 : a.getLsbD 6 = decide (64 ≤ a.toNat) := by
    rw [BitVec.getLsbD, Nat.testBit_eq_decide_div_mod_eq]
    exact decide_eq_decide.2 (by omega)
  have h0 : v.getLsbD 0 = decide (v.toNat % 2 = 1) := by
    rw [BitVec.getLsbD, Nat.testBit_zero]
  have hf : field v.toNat 54 16 = v.toNat / 2 ^ 16 := by
    simp only [field]
    omega
  simp only [tlbNames, h6, h0, hf, field_low]
  rfl

theorem State.tlb_tlbDrop {s : State} {sc : Scope} {ck : Nat} {a v : Word} {k : Nat} {c : Core} (h : Tab.look s.cores k = some c) :
    ((s.tlbDrop sc ck a v).core k).tlb =
      if s.inScope sc ck k then c.tlb.filter fun x => !tlbNames a v x.ctx x.x else c.tlb := by
  have hmap : (s.tlbDrop sc ck a v).cores = s.cores.map fun e => (e.1,
      if s.inScope sc ck e.1 then { e.2 with tlb := e.2.tlb.filter fun x => !tlbNames a v x.ctx x.x } else e.2) := by
    refine List.map_congr_left fun e _ => ?_
    split <;> rfl
  have hlook := Tab.look_mapVal
    (fun j (d : Core) => if s.inScope sc ck j then { d with tlb := d.tlb.filter fun x => !tlbNames a v x.ctx x.x } else d) s.cores k
  rw [State.core, Tab.getOr, hmap, hlook, h, Option.map_some, Option.getD_some]
  split <;> rfl

/-! ### The core map and core tests (R396, R397) -/

/-- A physical core that a logical one of the die uses. -/
def State.PhysUsed (s : State) (dk phys : Nat) : Prop := ∃ c, c < 96 ∧ s.phys (dk * 128 + c) = phys

theorem State.any_phys_iff {s : State} {dk phys : Nat} :
    (((List.range 96).any fun c => s.phys (dk * 128 + c) == phys) || (s.die dk).testing.contains phys) = true ↔
      s.PhysUsed dk phys ∨ phys ∈ (s.die dk).testing := by
  simp [State.PhysUsed]

/-- MAPSET's checks of its operands. -/
def mapsetChk (_ : State) (l : Lane) : Option FI := reservedBits l.a.w64 (~~~0x1FF) <|> reservedBits l.b.w64 (~~~0x7F)

/-- MAPSET's own effect. -/
def mapsetAct (s : State) (l : Lane) : SysRes :=
  let core := field l.a.w64.toNat 6 0
  let phys := l.b.w64.toNat
  let dk := dieKey (pkgOfThr l.tk) (field l.a.w64.toNat 8 7)
  let d := s.die dk
  if 96 ≤ core ∨ 100 ≤ phys then .done s 3
  else if s.phys (dk * 128 + core) = phys then .done s 0
  else if ((List.range 96).any fun c => s.phys (dk * 128 + c) == phys) || d.testing.contains phys then .done s 1
  else if d.failed.contains phys then .done s 2
  else .done (s.moveCore dk core phys) 0

theorem exec_mapset (f : Frame) (o : O2) (s : State) :
    exec (.mapset f o) s = word f { use2 o with priv := 1 } (sysBody mapsetChk mapsetAct) s := rfl

section
variable {s : State} {l : Lane} {core dk phys : Nat} (hc : field l.a.w64.toNat 6 0 = core)
  (hd : dieKey (pkgOfThr l.tk) (field l.a.w64.toNat 8 7) = dk) (hp : l.b.w64.toNat = phys)
include hc hd hp

omit hd in
theorem mapsetAct_of_absent (h : 96 ≤ core ∨ 100 ≤ phys) : mapsetAct s l = .done s 3 := by
  subst hc hp
  exact if_pos h

variable (h1 : core < 96) (h2 : phys < 100)
include h1 h2

theorem mapsetAct_of_same (h : s.phys (dk * 128 + core) = phys) : mapsetAct s l = .done s 0 := by
  subst hc hd hp
  exact (if_neg (by omega)).trans (if_pos h)

variable (h3 : s.phys (dk * 128 + core) ≠ phys)
include h3

theorem mapsetAct_of_used (h : s.PhysUsed dk phys ∨ phys ∈ (s.die dk).testing) : mapsetAct s l = .done s 1 := by
  subst hc hd hp
  exact (if_neg (by omega)).trans ((if_neg h3).trans (if_pos (State.any_phys_iff.2 h)))

variable (h4 : ¬(s.PhysUsed dk phys ∨ phys ∈ (s.die dk).testing))
include h4

theorem mapsetAct_of_failed (h : phys ∈ (s.die dk).failed) : mapsetAct s l = .done s 2 := by
  subst hc hd hp
  exact (if_neg (by omega)).trans ((if_neg h3).trans ((if_neg (h4 ∘ State.any_phys_iff.1)).trans
    (if_pos (List.contains_iff_mem.2 h))))

theorem mapsetAct_of_free (h : phys ∉ (s.die dk).failed) : mapsetAct s l = .done (s.moveCore dk core phys) 0 := by
  subst hc hd hp
  exact (if_neg (by omega)).trans ((if_neg h3).trans ((if_neg (h4 ∘ State.any_phys_iff.1)).trans
    (if_neg (h ∘ List.contains_iff_mem.1))))

end

/-- SELFTEST's own effect. -/
def selftestAct (s : State) (l : Lane) : SysRes :=
  let n := l.a.w64.toNat
  let phys := field n 6 0
  let dk := dieKey (pkgOfThr l.tk) (field n 8 7)
  let d := s.die dk
  if field n 10 9 = 0 ∨ 100 ≤ phys then .done s 3
  else if ((List.range 96).any fun c => s.phys (dk * 128 + c) == phys) || d.testing.contains phys then .done s 2
  else
    let (u, s) := s.fresh
    let s := s.modPkg (pkgOfDie dk) fun k => { k with tests := k.tests ++ [(u, dieIx dk, phys, field n 10 9)] }
    .wait (s.modDie dk fun d => { d with testing := phys :: d.testing }) (.test dk phys)

theorem exec_selftest (f : Frame) (o : O1) (s : State) : exec (.selftest f o) s =
    word f { use1 o with priv := 1 } (sysBody (fun _ l => reservedBits l.a.w64 (~~~0x7FF)) selftestAct) s := rfl

@[simp] theorem State.die_fresh (s : State) (dk : Nat) : s.fresh.2.die dk = s.die dk := rfl

@[simp] theorem State.pkg_fresh (s : State) (p : Nat) : s.fresh.2.pkg p = s.pkg p := rfl

/-- A core's test begins (R397). -/
def State.beginTest (s : State) (dk phys kind : Nat) : State :=
  (s.fresh.2.modPkg (pkgOfDie dk) fun k => { k with tests := k.tests ++ [(s.uid, dieIx dk, phys, kind)] }).modDie dk
    fun d => { d with testing := phys :: d.testing }

section
variable {s : State} {l : Lane} {dk phys kind : Nat} (hp : field l.a.w64.toNat 6 0 = phys)
  (hd : dieKey (pkgOfThr l.tk) (field l.a.w64.toNat 8 7) = dk) (hk : field l.a.w64.toNat 10 9 = kind)
include hp hd hk

omit hd in
theorem selftestAct_of_absent (h : kind = 0 ∨ 100 ≤ phys) : selftestAct s l = .done s 3 := by
  subst hp hk
  exact if_pos h

variable (h1 : ¬(kind = 0 ∨ 100 ≤ phys))
include h1

theorem selftestAct_of_used (h : s.PhysUsed dk phys ∨ phys ∈ (s.die dk).testing) : selftestAct s l = .done s 2 := by
  subst hp hd hk
  exact (if_neg h1).trans (if_pos (State.any_phys_iff.2 h))

theorem selftestAct_of_free (h : ¬(s.PhysUsed dk phys ∨ phys ∈ (s.die dk).testing)) :
    selftestAct s l = .wait (s.beginTest dk phys kind) (.test dk phys) := by
  subst hp hd hk
  exact (if_neg h1).trans (if_neg (h ∘ State.any_phys_iff.1))

end

/-! ### The error log (R398) -/

/-- ERRRD's own effect. -/
def errrdAct (s : State) (l : Lane) : SysRes :=
  let k := s.pkg (pkgOfThr l.tk)
  let b := l.b.w64.toNat
  if k.errProd ≤ b then .done s 1
  else if b + 4096 < k.errProd then .done s 2
  else s.putImage l l.a.w64 ((Tab.getOr k.errLog b (List.replicate 64 0))) 0

theorem exec_errrd (f : Frame) (o : O2) (s : State) :
    exec (.errrd f o) s = word f { use2 o with priv := 1 } (sysBody (fun _ l => misaligned l.a.w64 64) errrdAct) s := rfl

theorem errrdAct_of_kept {s : State} {l : Lane} (h1 : l.b.w64.toNat < (s.pkg (pkgOfThr l.tk)).errProd)
    (h2 : (s.pkg (pkgOfThr l.tk)).errProd ≤ l.b.w64.toNat + 4096) {im : List Byte}
    (him : Tab.look (s.pkg (pkgOfThr l.tk)).errLog l.b.w64.toNat = some im) : errrdAct s l = s.putImage l l.a.w64 im 0 := by
  refine (if_neg (Nat.not_le.2 h1)).trans ((if_neg (Nat.not_lt.2 h2)).trans ?_)
  rw [Tab.getOr, him, Option.getD_some]

theorem mapsetChk_of_reserved {s : State} {l : Lane} (h : 2 ^ 9 ≤ l.a.w64.toNat ∨ 2 ^ 7 ≤ l.b.w64.toNat) :
    mapsetChk s l = some { code := 0x02 } := by
  by_cases ha : 2 ^ 9 ≤ l.a.w64.toNat
  · have hr : reservedBits l.a.w64 (~~~0x1FF) = some { code := 0x02 } := reservedAbove_eq_some (k := 9) ha
    simp only [mapsetChk, hr]
    rfl
  · have hr : reservedBits l.a.w64 (~~~0x1FF) = none := reservedAbove_eq_none (k := 9) (Nat.not_le.1 ha)
    have hb : reservedBits l.b.w64 (~~~0x7F) = some { code := 0x02 } := reservedAbove_eq_some (k := 7) (h.resolve_left ha)
    simp only [mapsetChk, hr, hb]
    rfl

theorem mapsetChk_of_legal {s : State} {l : Lane} (ha : l.a.w64.toNat < 2 ^ 9) (hb : l.b.w64.toNat < 2 ^ 7) :
    mapsetChk s l = none := by
  have hr : reservedBits l.a.w64 (~~~0x1FF) = none := reservedAbove_eq_none (k := 9) ha
  have hr' : reservedBits l.b.w64 (~~~0x7F) = none := reservedAbove_eq_none (k := 7) hb
  simp only [mapsetChk, hr, hr']
  rfl

/-! ### The obligation -/

section
variable {w : Stand} {s : State} (hw : w.Clear s) {o : O2} (hu : w.u = { use2 o with priv := 1 })
include hw hu

/-- The checks and the statuses of a word for barriers, and its wait for the thread's own stores. -/
theorem Stand.barChecked_of {ins : Instr} {k : State → Lane → BarSel → SysRes}
    (he : exec ins s = word w.f { use2 o with priv := 1 } (sysBody barChk (barAct k)) s) {r : BarSel}
    (hr : barSel w.tk (w.lane s).b.w64 = r)
    (hk : ((w.begun s).thr w.tk).buffers (w.lane s).a.w64.toNat (512 * r.count) = true →
      k (w.begun s) (w.lane s) r = .park (.ctrs false true false)) :
    let l := w.lane s
    let b := w.begun s
    let n := l.a.w64.toNat
    let legal := BarLegal l.b.w64
    (¬legal → w.Faults s ins { code := 0x02 }) ∧ (legal → n % 128 ≠ 0 → w.Faults s ins { code := 0x07, addr := l.a.w64 })
    ∧ (legal → n % 128 = 0 → (1024 < r.first + r.count → w.Answers s ins b 2)
      ∧ (r.first + r.count ≤ 1024 → b.BarRuns r → w.Answers s ins b 1)
      ∧ (r.first + r.count ≤ 1024 → ¬b.BarRuns r → (b.thr w.tk).buffers n (512 * r.count) = true →
        w.Once s ins (fun t v => t.writeRD w.tk w.r.d [v]) (w.Parks s ins (.ctrs false true false)))) := by
  refine ⟨fun h => w.sysFaults_of hw hu he (barChk_of_illegal h),
    fun h ha => w.sysFaults_of hw hu he ((barChk_of_legal h).trans (misaligned_eq_some ha)), fun h ha => ?_⟩
  have hc : barChk (w.begun s) (w.lane s) = none := (barChk_of_legal h).trans (misaligned_eq_none ha)
  exact ⟨fun hp => w.answers_of hw hu he hc (barAct_of_past hr hp),
    fun hf hb => w.answers_of hw hu he hc (barAct_of_running hr hf hb),
    fun hf hb hbuf => w.onceParks_of hw hu he hc ((barAct_of_clear hr hf hb).trans (hk hbuf))⟩

end

/-- Settles O39: each word by its checks, then by the branch of its own effect that its operands select. -/
theorem systemCommands : Obligations.SystemCommands := by
  unfold Obligations.SystemCommands
  intro w s hw b l a v n p answers once misses bad
  refine ⟨fun o hu => ?barriers, fun o sc hu => ?tlbinv, fun o hu => ?mapset, fun o hu => ?selftest, fun o hu => ?errrd⟩
  case barriers =>
    intro first count core ck legal runs checked clear
    have hr : barSel w.tk v = { first, count, ck } := barSel_eq ..
    have hlen (f : Nat → Bar) : ((List.range count).flatMap fun k => (f k).image).length = 512 * count := length_barImages ..
    have hchk (hc : clear) : barChk b l = none := (barChk_of_legal hc.1).trans (misaligned_eq_none hc.2.1)
    have hact (k : State → Lane → BarSel → SysRes) (hc : clear) : barAct k b l = k b l { first, count, ck } :=
      barAct_of_clear hr hc.2.2.1 hc.2.2.2.1
    refine ⟨w.barChecked_of hw hu (exec_barsave ..) hr fun hb => State.putImage_of_buffered (by rwa [hlen]),
      w.barChecked_of hw hu (exec_barrest ..) hr fun hb => State.getImage_of_buffered hb, fun hc => ⟨fun y hp => ?_, fun y hp => ?_⟩,
      fun hc ps b' hp => ⟨hlen _, ?_⟩, fun hc ps b' hp => ?_⟩
    · exact w.onceMisses_of hw hu (exec_barsave ..) (hchk hc)
        ((hact _ hc).trans (State.putImage_of_unplaced (by rw [hlen]; exact hc.2.2.2.2) (by rw [hlen]; exact hp)))
    · exact w.onceMisses_of hw hu (exec_barrest ..) (hchk hc) ((hact _ hc).trans (State.getImage_of_unplaced hc.2.2.2.2 hp))
    · exact w.answers_of hw hu (exec_barsave ..) (hchk hc)
        ((hact _ hc).trans (State.putImage_of_placed (by rw [hlen]; exact hc.2.2.2.2) (by rw [hlen]; exact hp)))
    · exact w.answers_of hw hu (exec_barrest ..) (hchk hc) ((hact _ hc).trans (State.getImage_of_placed hc.2.2.2.2 hp))
  case tlbinv =>
    have he : exec (.tlbinv w.f sc o) s = word w.f { useS2 o with priv := 1 }
        (sysBody tlbChk fun s l => .wait (s.tlbDrop sc l.ck l.a.w64 l.b.w64) (.tlb (s.oldAccesses sc l.ck l.a.w64 l.b.w64))) s := rfl
    refine ⟨fun h => w.sysFaults_of hw hu he (tlbChk_of_reserved h), fun ha hb hv => ?_⟩
    intro named
    have hwaits := w.onceWaits_of hw hu he (tlbChk_of_legal ha hb hv) rfl
    refine ⟨hwaits.1, hwaits.2.1, fun ht hroom => ⟨_, hwaits.2.2 ht hroom, rfl, rfl, fun k c hk => ?_⟩⟩
    have hnamed : (fun x : TlbE => !tlbNames a v x.ctx x.x) = fun x => !named x :=
      funext fun x => congrArg (!·) (tlbNames_eq ha hv x.ctx x.x)
    have htlb := State.tlb_tlbDrop (s := b) (sc := sc) (ck := l.ck) (a := a) (v := v) hk
    rwa [hnamed] at htlb
  case mapset =>
    intro ins core dk phys used
    refine ⟨fun h => w.sysFaults_of hw hu (exec_mapset ..) (mapsetChk_of_reserved h), fun ha hv => ?_⟩
    have hc : mapsetChk b l = none := mapsetChk_of_legal ha hv
    have hcore : field l.a.w64.toNat 6 0 = core := field_low ..
    have hdk : dieKey (pkgOfThr l.tk) (field l.a.w64.toNat 8 7) = dk := by
      refine congrArg (dieKey p) (Nat.mod_eq_of_lt ?_)
      change n / 128 < 4
      omega
    exact ⟨fun h => w.answers_of hw hu (exec_mapset ..) hc (mapsetAct_of_absent hcore rfl h), fun h1 h2 =>
      ⟨fun h => w.answers_of hw hu (exec_mapset ..) hc (mapsetAct_of_same hcore hdk rfl h1 h2 h), fun h3 =>
        ⟨fun h => w.answers_of hw hu (exec_mapset ..) hc (mapsetAct_of_used hcore hdk rfl h1 h2 h3 h), fun hused htest =>
          ⟨fun h => w.answers_of hw hu (exec_mapset ..) hc (mapsetAct_of_failed hcore hdk rfl h1 h2 h3 (not_or.2 ⟨hused, htest⟩) h),
            fun h => w.answers_of hw hu (exec_mapset ..) hc (mapsetAct_of_free hcore hdk rfl h1 h2 h3 (not_or.2 ⟨hused, htest⟩) h)⟩⟩⟩⟩
  case selftest =>
    intro ins phys dk used
    refine ⟨fun h => w.sysFaults_of hw hu (exec_selftest ..) (reservedAbove_eq_some (k := 11) h), fun ha => ?_⟩
    have hc : reservedBits l.a.w64 (~~~0x7FF) = none := reservedAbove_eq_none (k := 11) ha
    have hphys : field l.a.w64.toNat 6 0 = phys := field_low ..
    have hdk : dieKey (pkgOfThr l.tk) (field l.a.w64.toNat 8 7) = dk := rfl
    have hkind : field l.a.w64.toNat 10 9 = n / 2 ^ 9 := by
      refine Nat.mod_eq_of_lt ?_
      change n / 2 ^ 9 < 4
      omega
    refine ⟨fun h => w.answers_of hw hu (exec_selftest ..) hc (selftestAct_of_absent hphys hkind h), fun h1 h2 =>
      ⟨fun h => w.answers_of hw hu (exec_selftest ..) hc (selftestAct_of_used hphys hdk hkind (by omega) h), fun h => ?_⟩⟩
    have hwaits := w.onceWaits_of hw hu (exec_selftest ..) hc (selftestAct_of_free hphys hdk hkind (by omega) h)
    refine ⟨hwaits.1, hwaits.2.1, fun ht hroom => ⟨_, hwaits.2.2 ht hroom, ?_, rfl, rfl, ?_⟩⟩
    · simp [State.beginTest, b]
    · simp [State.beginTest, b]
  case errrd =>
    intro ins k r
    refine ⟨fun h => w.sysFaults_of hw hu (exec_errrd ..) (misaligned_eq_some h), fun ha => ?_⟩
    have hc : misaligned l.a.w64 64 = none := misaligned_eq_none ha
    refine ⟨fun h => w.answers_of hw hu (exec_errrd ..) hc (if_pos h),
      fun h => w.answers_of hw hu (exec_errrd ..) hc ((if_neg (Nat.not_le.2 ((Nat.le_add_right ..).trans_lt h))).trans (if_pos h)),
      fun h1 h2 im him hlen => ?_⟩
    have hact := errrdAct_of_kept (l := l) h1 h2 him
    refine ⟨fun hb => w.onceParks_of hw hu (exec_errrd ..) hc (hact.trans (State.putImage_of_buffered (by rwa [hlen]))), fun hb y hp => ?_,
      fun hb ps b' hp => ?_⟩
    · exact w.onceMisses_of hw hu (exec_errrd ..) hc (hact.trans (State.putImage_of_unplaced (by rwa [hlen]) (by rwa [hlen])))
    · exact w.answers_of hw hu (exec_errrd ..) hc (hact.trans (State.putImage_of_placed (by rwa [hlen]) (by rwa [hlen])))

end Sys2Proof.Machine
end

section
/-! SUPPORT. CTXSW (R331, R383, R386, R388, R394). -/

namespace Sys2Proof.Machine

/-! ### Checks of the operands -/

section
variable {l : Lane} {k : Nat}

theorem ctxChk_of_reserved (h : 2 ^ 6 ≤ l.a.w64.toNat ∨ 2 ^ k ≤ l.b.w64.toNat) :
    ctxChk (~~~(BitVec.ofNat 64 (2 ^ k - 1))) l = some { code := 0x02 } := by
  by_cases ha : 2 ^ 6 ≤ l.a.w64.toNat
  · have hr : reservedBits l.a.w64 (~~~0x3F) = some { code := 0x02 } := reservedAbove_eq_some (k := 6) ha
    simp only [ctxChk, hr]
    rfl
  · have hr : reservedBits l.a.w64 (~~~0x3F) = none := reservedAbove_eq_none (k := 6) (Nat.not_le.1 ha)
    simp only [ctxChk, hr, reservedAbove_eq_some (h.resolve_left ha)]
    rfl

theorem ctxChk_of_legal (ha : l.a.w64.toNat < 2 ^ 6) (hb : l.b.w64.toNat < 2 ^ k) :
    ctxChk (~~~(BitVec.ofNat 64 (2 ^ k - 1))) l = none := by
  have hr : reservedBits l.a.w64 (~~~0x3F) = none := reservedAbove_eq_none (k := 6) ha
  simp only [ctxChk, hr, reservedAbove_eq_none hb]
  rfl

end

/-! ### Words that act on a context that exists -/

section
variable {k : State → Lane → Nat → Ctx → SysRes} {s : State} {l : Lane}

theorem onCtx_of_supervisor (h : l.a.w64.toNat = 0) : onCtx k s l = .done s 2 := if_pos h

variable (h : 0 < l.a.w64.toNat)
include h

theorem onCtx_of_absent (hx : s.ctx? (pkgOfThr l.tk) l.a.w64.toNat = none) : onCtx k s l = .done s 1 := by
  refine (if_neg h.ne').trans ?_
  rw [hx]

theorem onCtx_of_present {x : Ctx} (hx : s.ctx? (pkgOfThr l.tk) l.a.w64.toNat = some x) : onCtx k s l = k s l l.a.w64.toNat x := by
  refine (if_neg h.ne').trans ?_
  rw [hx]

end

/-! ### Creation (R383) -/

/-- What creation makes of a descriptor that it has read (R383). -/
def State.createFrom (s : State) (p c : Nat) (im : List Byte) : SysRes :=
  let x := ctxFrom im
  if ctxMalformed im || s.ctxUntaken p x || s.saveTaken p x || s.ctxs.any fun e => e.1 / 64 == p && ctxOverlap x e.2 then .done s 2
  else .done ((s.clearCtx p c x).setCtx p c x) 0

/-- Creation's own effect. -/
def createAct (s : State) (l : Lane) : SysRes :=
  let p := pkgOfThr l.tk
  let c := l.a.w64.toNat
  let a := l.b.w64.toNat
  if c = 0 then .done s 2
  else if !(s.pkg p).featLock then .done s 3
  else if (s.ctx? p c).isSome then .done s 1
  else if a % 128 ≠ 0 ∨ 2 ^ 52 ≤ a then .done s 2
  else
    match s.ownFault p 0 a with
    | some 0x0D => .fault { code := 0x0D, addr := l.b.w64 }
    | some 0x0B => .far (homeOf a) l.b.w64
    | some _ => .done s 2
    | none => (s.settle (lineOf a)).createFrom p c ((s.settle (lineOf a)).bytes a 128)

theorem exec_ctxswCreate (f : Frame) (o : O2) (s : State) :
    exec (.ctxswCreate f o) s = word f { use2 o with priv := 1 } (sysBody (fun _ l => ctxChk 0 l) createAct) s := rfl

section
variable {s : State} {p c : Nat} {im : List Byte}

/-- A descriptor that creation refuses. -/
def State.Refuses (s : State) (p : Nat) (im : List Byte) : Prop :=
  ctxMalformed im = true ∨ s.ctxUntaken p (ctxFrom im) = true ∨ s.saveTaken p (ctxFrom im) = true
    ∨ ∃ k y, (k, y) ∈ s.ctxs ∧ k / 64 = p ∧ ctxOverlap (ctxFrom im) y = true

theorem State.refuses_iff : (ctxMalformed im || s.ctxUntaken p (ctxFrom im) || s.saveTaken p (ctxFrom im)
    || s.ctxs.any fun e => e.1 / 64 == p && ctxOverlap (ctxFrom im) e.2) = true ↔ s.Refuses p im := by
  simp only [Bool.or_eq_true, List.any_eq_true, Bool.and_eq_true, beq_iff_eq, Prod.exists, or_assoc, State.Refuses]

theorem State.createFrom_of_refused (h : s.Refuses p im) : s.createFrom p c im = .done s 2 := if_pos (State.refuses_iff.2 h)

theorem State.createFrom_of_sound (h : ¬s.Refuses p im) :
    s.createFrom p c im = .done ((s.clearCtx p c (ctxFrom im)).setCtx p c (ctxFrom im)) 0 := if_neg (h ∘ State.refuses_iff.1)

end

section
variable {s : State} {l : Lane}

theorem createAct_of_supervisor (h : l.a.w64.toNat = 0) : createAct s l = .done s 2 := if_pos h

variable (h : 0 < l.a.w64.toNat)
include h

theorem createAct_of_unlocked (hf : (s.pkg (pkgOfThr l.tk)).featLock = false) : createAct s l = .done s 3 :=
  (if_neg h.ne').trans (if_pos (by rw [hf]; rfl))

variable (hf : (s.pkg (pkgOfThr l.tk)).featLock = true)
include hf

theorem createAct_of_existing (hx : (s.ctx? (pkgOfThr l.tk) l.a.w64.toNat).isSome = true) : createAct s l = .done s 1 :=
  (if_neg h.ne').trans ((if_neg (by rw [hf]; decide)).trans (if_pos hx))

variable (hx : s.ctx? (pkgOfThr l.tk) l.a.w64.toNat = none)
include hx

theorem createAct_of_misplaced (ha : l.b.w64.toNat % 128 ≠ 0 ∨ 2 ^ 52 ≤ l.b.w64.toNat) : createAct s l = .done s 2 :=
  (if_neg h.ne').trans ((if_neg (by rw [hf]; decide)).trans ((if_neg (by rw [hx]; decide)).trans (if_pos ha)))

variable (ha : l.b.w64.toNat % 128 = 0) (hb : l.b.w64.toNat < 2 ^ 52)
include ha hb

theorem createAct_of_placed : createAct s l =
    match s.ownFault (pkgOfThr l.tk) 0 l.b.w64.toNat with
    | some 0x0D => .fault { code := 0x0D, addr := l.b.w64 }
    | some 0x0B => .far (homeOf l.b.w64.toNat) l.b.w64
    | some _ => .done s 2
    | none => (s.settle (lineOf l.b.w64.toNat)).createFrom (pkgOfThr l.tk) l.a.w64.toNat
        ((s.settle (lineOf l.b.w64.toNat)).bytes l.b.w64.toNat 128) :=
  (if_neg h.ne').trans ((if_neg (by rw [hf]; decide)).trans ((if_neg (by rw [hx]; decide)).trans
    ((if_neg (not_or.2 ⟨not_not.2 ha, Nat.not_le.2 hb⟩)).trans rfl)))

theorem createAct_of_poisoned (ho : s.ownFault (pkgOfThr l.tk) 0 l.b.w64.toNat = some 0x0D) :
    createAct s l = .fault { code := 0x0D, addr := l.b.w64 } := by
  rw [createAct_of_placed h hf hx ha hb, ho]
  rfl

theorem createAct_of_far (ho : s.ownFault (pkgOfThr l.tk) 0 l.b.w64.toNat = some 0x0B) :
    createAct s l = .far (homeOf l.b.w64.toNat) l.b.w64 := by
  rw [createAct_of_placed h hf hx ha hb, ho]
  rfl

theorem createAct_of_unreadable {e : Nat} (ho : s.ownFault (pkgOfThr l.tk) 0 l.b.w64.toNat = some e) (hd : e ≠ 0x0D) (hl : e ≠ 0x0B) :
    createAct s l = .done s 2 := by
  rw [createAct_of_placed h hf hx ha hb, ho]
  split
  next he => exact absurd (Option.some.inj he) hd
  next he => exact absurd (Option.some.inj he) hl
  next => rfl
  next he => exact nomatch he

theorem createAct_of_readable (ho : s.ownFault (pkgOfThr l.tk) 0 l.b.w64.toNat = none) :
    createAct s l = (s.settle (lineOf l.b.w64.toNat)).createFrom (pkgOfThr l.tk) l.a.w64.toNat
      ((s.settle (lineOf l.b.w64.toNat)).bytes l.b.w64.toNat 128) := by
  rw [createAct_of_placed h hf hx ha hb, ho]

end

/-! ### Destruction, pre-emption and resumption (R386, R388, R394) -/

/-- A launch uses the context on its package. -/
def State.CtxLive (s : State) (p c : Nat) : Prop :=
  ∃ k y, (k, y) ∈ s.launches ∧ y.ctx = c ∧ (y.pkg = p ∨ ∃ d ∈ y.dies, pkgOfDie d.dk = p)

theorem State.ctxLive_iff {s : State} {p c : Nat} :
    (s.launches.any fun e => e.2.ctx == c && (e.2.pkg == p || e.2.dies.any fun d => pkgOfDie d.dk == p)) = true ↔ s.CtxLive p c := by
  simp only [List.any_eq_true, Bool.and_eq_true, Bool.or_eq_true, beq_iff_eq, Prod.exists, State.CtxLive]

/-- The state without a context, with nothing that it held. -/
def State.withoutCtx (s : State) (p c : Nat) (x : Ctx) : State :=
  { (s.dropHeld p c).clearCtx p c x with ctxs := Tab.cut ((s.dropHeld p c).clearCtx p c x).ctxs (ctxKey p c) }

theorem State.ctx?_withoutCtx (s : State) (p c : Nat) (x : Ctx) : (s.withoutCtx p c x).ctx? p c = none := Tab.look_cut_same ..

theorem State.mem_withoutCtx (s : State) (p c : Nat) (x : Ctx) : (s.withoutCtx p c x).mem = s.mem :=
  (State.clearCtx_mem (s := s.dropHeld p c) p c x).trans (State.dropHeld_mem p c)

/-- Destruction of a context that exists. -/
def destroyOf (s : State) (l : Lane) (c : Nat) (x : Ctx) : SysRes :=
  if s.launches.any fun e => e.2.ctx == c && (e.2.pkg == pkgOfThr l.tk || e.2.dies.any fun d => pkgOfDie d.dk == pkgOfThr l.tk) then
    .done s 4
  else .done (s.withoutCtx (pkgOfThr l.tk) c x) 0

/-- Pre-emption of a context that exists. -/
def preemptOf (s : State) (l : Lane) (c : Nat) (x : Ctx) : SysRes :=
  let ds := ctxDies x l.b.w64 [1, 2]
  if ds.isEmpty then .done s 6
  else
    .wait (s.setCtx (pkgOfThr l.tk) c { x with st := ds.foldl (fun t d => Tab.put t d 2) x.st }) (.preempt c (l.b.w64.setWidth 4))

/-- Resumption of a context that exists. -/
def resumeOf (s : State) (l : Lane) (c : Nat) (x : Ctx) : SysRes :=
  let p := pkgOfThr l.tk
  let ds := ctxDies x l.b.w64 [3]
  if ds.isEmpty then .done s 6
  else if ds.any fun d => (s.savedThreads (dieKey p d) c).any fun k => (s.thr (k % slotKeys)).st != .free then .done s 5
  else .done (ds.foldl (fun s d => s.resumeDie p c d) s) 0

theorem exec_ctxswDestroy (f : Frame) (o : O2) (s : State) : exec (.ctxswDestroy f o) s =
    word f { use2 o with priv := 1 } (sysBody (fun _ l => ctxChk (~~~(BitVec.ofNat 64 (2 ^ 0 - 1))) l) (onCtx destroyOf)) s := rfl

theorem exec_ctxswPreempt (f : Frame) (o : O2) (s : State) : exec (.ctxswPreempt f o) s =
    word f { use2 o with priv := 1 } (sysBody (fun _ l => ctxChk (~~~(BitVec.ofNat 64 (2 ^ 4 - 1))) l) (onCtx preemptOf)) s := rfl

theorem exec_ctxswResume (f : Frame) (o : O2) (s : State) : exec (.ctxswResume f o) s =
    word f { use2 o with priv := 1 } (sysBody (fun _ l => ctxChk (~~~(BitVec.ofNat 64 (2 ^ 4 - 1))) l) (onCtx resumeOf)) s := rfl

theorem resumeOf_of_occupied {s : State} {l : Lane} {c : Nat} {x : Ctx} (h : ctxDies x l.b.w64 [3] ≠ [])
    (ho : ∃ d ∈ ctxDies x l.b.w64 [3], ∃ k ∈ s.savedThreads (dieKey (pkgOfThr l.tk) d) c, (s.thr (k % slotKeys)).st ≠ .free) :
    resumeOf s l c x = .done s 5 :=
  (if_neg (h ∘ List.isEmpty_iff.1)).trans (if_pos (by simpa using ho))

theorem resumeOf_of_free {s : State} {l : Lane} {c : Nat} {x : Ctx} (h : ctxDies x l.b.w64 [3] ≠ [])
    (ho : ¬∃ d ∈ ctxDies x l.b.w64 [3], ∃ k ∈ s.savedThreads (dieKey (pkgOfThr l.tk) d) c, (s.thr (k % slotKeys)).st ≠ .free) :
    resumeOf s l c x = .done ((ctxDies x l.b.w64 [3]).foldl (fun s d => s.resumeDie (pkgOfThr l.tk) c d) s) 0 :=
  (if_neg (h ∘ List.isEmpty_iff.1)).trans (if_neg (by simpa using ho))

/-- Settles O40: creation by the first check that fails, the other words by the context that their operand names. -/
theorem contextCommands : Obligations.ContextCommands := by
  unfold Obligations.ContextCommands
  intro w s o hu hw b l n v p answers once checked create destroy preempt resume on
  have hzero (h : n = 0) : n < 2 ^ 6 := h.trans_lt (by decide)
  have hchk0 (hn : n < 64) : ctxChk 0 l = none := by
    have hr : reservedBits l.a.w64 (~~~0x3F) = none := reservedAbove_eq_none (k := 6) hn
    have hr' : reservedBits l.b.w64 0 = none := reservedBits_eq_none (BitVec.and_zero ..)
    simp only [ctxChk, hr, hr']
    rfl
  refine ⟨⟨fun h => w.sysFaults_of hw hu (exec_ctxswCreate ..) ?_,
      fun h _ => w.answers_of hw hu (exec_ctxswCreate ..) (hchk0 (hzero h)) (createAct_of_supervisor h)⟩,
    ⟨fun h => w.sysFaults_of hw hu (exec_ctxswDestroy ..) (ctxChk_of_reserved h),
      fun h hv => w.answers_of hw hu (exec_ctxswDestroy ..) (ctxChk_of_legal (hzero h) hv) (onCtx_of_supervisor h)⟩,
    ⟨fun h => w.sysFaults_of hw hu (exec_ctxswPreempt ..) (ctxChk_of_reserved h),
      fun h hv => w.answers_of hw hu (exec_ctxswPreempt ..) (ctxChk_of_legal (hzero h) hv) (onCtx_of_supervisor h)⟩,
    ⟨fun h => w.sysFaults_of hw hu (exec_ctxswResume ..) (ctxChk_of_reserved h),
      fun h hv => w.answers_of hw hu (exec_ctxswResume ..) (ctxChk_of_legal (hzero h) hv) (onCtx_of_supervisor h)⟩,
    fun h0 hn => ?creation, fun h0 hn hx => ?absent, fun x h0 hn hx => ?present⟩
  · have hr : reservedBits l.a.w64 (~~~0x3F) = some { code := 0x02 } :=
      reservedAbove_eq_some (k := 6) (h.resolve_right (Nat.not_le.2 (BitVec.isLt _)))
    simp only [ctxChk]
    rw [hr]
    rfl
  case creation =>
    have hc := hchk0 hn
    refine ⟨fun hf => w.answers_of hw hu (exec_ctxswCreate ..) hc (createAct_of_unlocked h0 hf), fun hf =>
      ⟨fun hx => w.answers_of hw hu (exec_ctxswCreate ..) hc (createAct_of_existing h0 hf hx), fun hx =>
        ⟨fun ha => w.answers_of hw hu (exec_ctxswCreate ..) hc (createAct_of_misplaced h0 hf hx ha), fun ha hb =>
          ⟨fun ho => w.onceFaults_of hw hu (exec_ctxswCreate ..) hc (createAct_of_poisoned h0 hf hx ha hb ho),
            fun ho => w.onceAwaits_of hw hu (exec_ctxswCreate ..) hc (createAct_of_far h0 hf hx ha hb ho),
            fun e ho hd hl => w.answers_of hw hu (exec_ctxswCreate ..) hc (createAct_of_unreadable h0 hf hx ha hb ho hd hl),
            fun ho => ?_⟩⟩⟩⟩
    intro t im x refused
    have hact := createAct_of_readable h0 hf hx ha hb ho
    exact ⟨fun hr => w.answers_of hw hu (exec_ctxswCreate ..) hc (hact.trans (State.createFrom_of_refused hr)),
      fun hr => w.answers_of hw hu (exec_ctxswCreate ..) hc (hact.trans (State.createFrom_of_sound hr))⟩
  case absent =>
    exact ⟨fun hv => w.answers_of hw hu (exec_ctxswDestroy ..) (ctxChk_of_legal hn (hv.trans_lt Nat.one_pos)) (onCtx_of_absent h0 hx),
      fun hv => ⟨w.answers_of hw hu (exec_ctxswPreempt ..) (ctxChk_of_legal hn hv) (onCtx_of_absent h0 hx),
        w.answers_of hw hu (exec_ctxswResume ..) (ctxChk_of_legal hn hv) (onCtx_of_absent h0 hx)⟩⟩
  case present =>
    intro live
    have hd (hv : v = 0) : ctxChk (~~~(BitVec.ofNat 64 (2 ^ 0 - 1))) l = none := ctxChk_of_legal hn (hv.trans_lt Nat.one_pos)
    have hm (hv : v < 16) : ctxChk (~~~(BitVec.ofNat 64 (2 ^ 4 - 1))) l = none := ctxChk_of_legal hn hv
    have hact (k : State → Lane → Nat → Ctx → SysRes) : onCtx k b l = k b l n x := onCtx_of_present h0 hx
    refine ⟨fun hv hl => w.answers_of hw hu (exec_ctxswDestroy ..) (hd hv) ((hact _).trans (if_pos (State.ctxLive_iff.2 hl))),
      fun hv hl => ⟨_, w.answers_of hw hu (exec_ctxswDestroy ..) (hd hv) ((hact _).trans (if_neg (hl ∘ State.ctxLive_iff.1))),
        State.ctx?_withoutCtx .., State.mem_withoutCtx ..⟩,
      fun hv he => w.answers_of hw hu (exec_ctxswPreempt ..) (hm hv) ((hact _).trans (if_pos (List.isEmpty_iff.2 he))),
      fun hv he => ?_,
      fun hv he => w.answers_of hw hu (exec_ctxswResume ..) (hm hv) ((hact _).trans (if_pos (List.isEmpty_iff.2 he))),
      fun hv he => ⟨fun ho => w.answers_of hw hu (exec_ctxswResume ..) (hm hv) ((hact _).trans (resumeOf_of_occupied he ho)),
        fun ho => w.answers_of hw hu (exec_ctxswResume ..) (hm hv) ((hact _).trans (resumeOf_of_free he ho))⟩⟩
    rw [show BitVec.ofNat 4 v = l.b.w64.setWidth 4 from BitVec.ofNat_toNat ..]
    exact w.onceWaits_of hw hu (exec_ctxswPreempt ..) (hm hv) ((hact _).trans (if_neg (he ∘ List.isEmpty_iff.1)))

end Sys2Proof.Machine
end

section
/-! SUPPORT. Which operands name a control register (R389, R392, R417, R427). -/

namespace Sys2Proof.Machine

/-- The tables of registers: a number that they list, with the fields of the operand that it uses. -/
def Named (n : Nat) (U : CtlF → Prop) : Prop :=
  ((n ≤ 4 ∨ n = 6 ∨ n = 7) ∧ U { ctx := true }) ∨ ((n = 5 ∨ n = 0x10) ∧ U { ctx := true, inst := 4 })
    ∨ (n = 0x11 ∧ U { ctx := true, inst := 64 }) ∨ (n = 0x20 ∧ U { ctx := true, core := 96, die := true })
    ∨ ((n = 0x21 ∨ n = 0x22) ∧ U { ctx := true, inst := 32, core := 96, die := true }) ∨ (n = 0x40 ∧ U { inst := 16 })
    ∨ ((n = 0x41 ∨ n = 0x300) ∧ U { core := 96, die := true }) ∨ (((0x42 ≤ n ∧ n ≤ 0x46) ∨ n = 0x80 ∨ n = 0x81) ∧ U {})
    ∨ ((0x50 ≤ n ∧ n ≤ 0x52) ∧ U { inst := 16, die := true }) ∨ ((n = 0x53 ∨ n = 0x102) ∧ U { inst := 4, die := true })
    ∨ (n = 0x54 ∧ U { die := true }) ∨ ((n = 0x100 ∨ n = 0x101) ∧ U { inst := 36, die := true })
    ∨ (((0x200 ≤ n ∧ n < 0x220) ∨ (0x240 ≤ n ∧ n < 0x248)) ∧ U { inst := 16, core := 24, die := true })
    ∨ (n = 0x280 ∧ U { core := 24, die := true })

/-- The registers that a write may name. -/
def CtlWritable (n : Nat) : Prop :=
  (1 ≤ n ∧ n ≤ 4) ∨ n = 7 ∨ n = 0x10 ∨ n = 0x11 ∨ (0x20 ≤ n ∧ n ≤ 0x22) ∨ n = 0x40 ∨ n = 0x46 ∨ n = 0x100
    ∨ n = 0x102 ∨ (0x200 ≤ n ∧ n < 0x220) ∨ n = 0x280 ∨ n = 0x300

theorem elim_ite {α : Type} {p : Prop} [Decidable p] {x : α} {o : Option α} {U : α → Prop}
    (h : (if p then some x else o).elim False U) : (p ∧ U x) ∨ o.elim False U := by
  split at h
  next hp => exact .inl ⟨hp, h⟩
  next => exact .inr h

/-- A register that the model's list has stands in the tables, with the same fields. -/
theorem named_of_ctlFields {n : Nat} {U : CtlF → Prop} (h : (ctlFields n).elim False U) : Named n U := by
  unfold ctlFields at h
  refine (elim_ite h).imp id fun h => (elim_ite h).imp id fun h => (elim_ite h).imp id fun h => (elim_ite h).imp id fun h =>
    (elim_ite h).imp id fun h => (elim_ite h).imp id fun h => ?_
  obtain ⟨h1, hu⟩ | h := elim_ite h
  · exact .inl ⟨.inl h1, hu⟩
  · rw [or_comm]
    simp only [or_assoc]
    exact (elim_ite h).imp id fun h => (elim_ite h).imp id fun h => (elim_ite h).imp id fun h => (elim_ite h).imp id fun h =>
      (elim_ite h).imp id fun h => (elim_ite h).imp (fun h => ⟨by omega, h.2⟩) fun h => (elim_ite h).imp id fun h =>
        (elim_ite (o := none) h).elim (fun h => ⟨.inr h.1, h.2⟩) False.elim

/-- A register of the tables stands in the model's list, with the same fields. -/
theorem ctlFields_of_named {n : Nat} {U : CtlF → Prop} (h : Named n U) : (ctlFields n).elim False U := by
  rcases h with ⟨h, u⟩ | ⟨h, u⟩ | ⟨h, u⟩ | ⟨h, u⟩ | ⟨h, u⟩ | ⟨h, u⟩ | ⟨h | h, u⟩ | ⟨h, u⟩ | ⟨h, u⟩ | ⟨h, u⟩ | ⟨h, u⟩ | ⟨h, u⟩ | ⟨h, u⟩ | ⟨h, u⟩
  all_goals
    unfold ctlFields
    simp (disch := omega) only [if_neg, if_pos, Option.elim_some]
    exact u

theorem ctlWritable_iff {n : Nat} : ctlWritable n = true ↔ CtlWritable n := by
  simp only [ctlWritable, CtlWritable, Bool.or_eq_true, Bool.and_eq_true, decide_eq_true_eq, beq_iff_eq]
  omega

/-- Only the registers of a context use the context's field. -/
theorem ctlFields_of_named_ctx {n : Nat} {U : CtlF → Prop} (h : Named n U) :
    ∃ f, ctlFields n = some f ∧ U f ∧ f.ctx = decide (n < 0x40) := by
  have hctx : Named n fun f => U f ∧ f.ctx = decide (n < 0x40) := by
    unfold Named at h ⊢
    simp only [Bool.true_eq, Bool.false_eq, decide_eq_true_eq, decide_eq_false_iff_not, Nat.not_lt]
    exact h.imp (fun h => ⟨h.1, h.2, by omega⟩) fun h => h.imp (fun h => ⟨h.1, h.2, by omega⟩) fun h =>
      h.imp (fun h => ⟨h.1, h.2, by omega⟩) fun h => h.imp (fun h => ⟨h.1, h.2, by omega⟩) fun h =>
      h.imp (fun h => ⟨h.1, h.2, by omega⟩) fun h => h.imp (fun h => ⟨h.1, h.2, by omega⟩) fun h =>
      h.imp (fun h => ⟨h.1, h.2, by omega⟩) fun h => h.imp (fun h => ⟨h.1, h.2, by omega⟩) fun h =>
      h.imp (fun h => ⟨h.1, h.2, by omega⟩) fun h => h.imp (fun h => ⟨h.1, h.2, by omega⟩) fun h =>
      h.imp (fun h => ⟨h.1, h.2, by omega⟩) fun h => h.imp (fun h => ⟨h.1, h.2, by omega⟩) fun h =>
      h.imp (fun h => ⟨h.1, h.2, by omega⟩) fun h => ⟨h.1, h.2, by omega⟩
  have hf := ctlFields_of_named hctx
  cases he : ctlFields n with
  | none => rw [he] at hf; exact hf.elim
  | some f => rw [he] at hf; exact ⟨f, rfl, hf⟩

/-- What an operand has to be for a register that uses some of its fields. -/
def CtlUses (a : Nat) (f : CtlF) : Prop :=
  a < 2 ^ 33 ∧ (f.ctx = true ∨ a / 2 ^ 12 % 64 = 0) ∧ a / 2 ^ 18 % 64 < f.inst ∧ a / 2 ^ 24 % 128 < f.core
    ∧ (f.die = true ∨ a / 2 ^ 31 % 4 = 0)

theorem ctlOf_eq (a : Word) : ctlOf a = ⟨a.toNat % 2 ^ 12, a.toNat / 2 ^ 12 % 64, a.toNat / 2 ^ 18 % 64, a.toNat / 2 ^ 24 % 128,
    a.toNat / 2 ^ 31 % 4⟩ := by
  simp only [ctlOf, field_low]
  rfl

theorem ctlFault_eq_none {write : Bool} {a : Word} (h : Named (a.toNat % 2 ^ 12) (CtlUses a.toNat))
    (hw : write = true → CtlWritable (a.toNat % 2 ^ 12)) : ctlFault write a = none := by
  obtain ⟨f, hf, ⟨ha, hc, hi, hcore, hd⟩, -⟩ := ctlFields_of_named_ctx h
  have htop : field a.toNat 63 33 = 0 := by
    simp only [field]
    omega
  simp only [← ctlWritable_iff] at hw
  simp only [ctlFault, ctlOf_eq, hf]
  refine if_neg ?_
  simp only [htop, ne_eq, not_true_eq_false, false_or, Bool.and_eq_true, Bool.not_eq_true', bne_iff_ne, not_or, not_and]
  refine ⟨fun h => ?_, Nat.not_le.2 hi, Nat.not_le.2 hcore, fun h => ?_, fun h => ?_⟩
  · simpa [h] using hc
  · simpa [h] using hd
  · rw [hw h]
    decide

theorem ctlFault_eq_some {write : Bool} {a : Word}
    (h : ¬(Named (a.toNat % 2 ^ 12) (CtlUses a.toNat) ∧ (write = true → CtlWritable (a.toNat % 2 ^ 12)))) :
    ctlFault write a = some { code := 0x02 } := by
  simp only [ctlFault, ctlOf_eq]
  split
  next => rfl
  next f hf =>
    refine if_pos ?_
    by_contra hg
    simp only [field, ne_eq, Bool.and_eq_true, Bool.not_eq_true', bne_iff_ne, not_or, not_and, not_not] at hg
    obtain ⟨htop, hc, hi, hcore, hd, hwr⟩ := hg
    refine h ⟨named_of_ctlFields ?_, fun hw => ctlWritable_iff.1 (by simpa using hwr hw)⟩
    rw [hf]
    refine ⟨?_, ?_, Nat.not_le.1 hi, Nat.not_le.1 hcore, ?_⟩
    · have := a.isLt
      omega
    · cases hx : f.ctx with
      | true => exact .inl rfl
      | false => exact .inr (hc hx)
    · cases hx : f.die with
      | true => exact .inl rfl
      | false => exact .inr (hd hx)

end Sys2Proof.Machine
end

section
/-! SUPPORT. What SYSRD reads and SYSWR writes (R392, R417, R427, R464). -/

namespace Sys2Proof.Machine

section
variable {s : State} {tk : Nat} {c : Ctl1} {f : CtlF} (hf : ctlFields c.num = some f)
include hf

theorem ctlRead_of_absent (hc : f.ctx = true) (hx : s.ctx? (pkgOfThr tk) c.ctx = none) : s.ctlRead tk c = 0 := by
  simp only [State.ctlRead, hf, hc, hx, Option.isNone_none, Bool.and_self, if_true]

theorem ctlWrite_of_absent {v : Word} (hc : f.ctx = true) (hx : s.ctx? (pkgOfThr tk) c.ctx = none) : s.ctlWrite tk c v = s := by
  simp only [State.ctlWrite, hf, hc, hx, Option.isNone_none, Bool.and_self, if_true]

end

/-- The counters of a bank (R417). -/
theorem ctlRead_of_bank {s : State} {tk : Nat} {c : Ctl1} (h1 : 0x200 ≤ c.num) (h2 : c.num < 0x220) :
    s.ctlRead tk c =
      let b := s.bank (pkgOfThr tk) (bankKey c.die c.core c.inst (c.num - 0x200))
      BitVec.ofNat 64 (b.fixed + b.lost * 2 ^ 32) := by
  have hf : ctlFields c.num = some { inst := 16, core := 24, die := true } := by
    simp (disch := omega) only [ctlFields, if_neg, if_pos]
  unfold State.ctlRead
  simp (disch := omega) only [hf, Bool.false_and, Bool.false_eq_true, if_false, if_neg, if_pos]

/-- An entry of a channel's table of rows as SYSRD reads it (R417). -/
def rowWord : Option (Nat × Nat × Nat) → Word
  | some (row, bank, n) => BitVec.ofNat 64 (row % 2 ^ 18 + bank % 32 * 2 ^ 18 + min n 65535 * 2 ^ 32)
  | none => 0

theorem ctlRead_of_row {s : State} {tk : Nat} {c : Ctl1} (h1 : 0x240 ≤ c.num) (h2 : c.num < 0x248) :
    s.ctlRead tk c = rowWord (Tab.getOr (s.pkg (pkgOfThr tk)).rows (chanKey c.die c.core c.inst) [])[c.num - 0x240]? := by
  have hf : ctlFields c.num = some { inst := 16, core := 24, die := true } := by
    simp (disch := omega) only [ctlFields, if_neg, if_pos]
  unfold State.ctlRead
  simp (disch := omega) only [hf, Bool.false_and, Bool.false_eq_true, if_false, if_neg]
  rfl

section
variable {s : State} {l : Lane}

theorem syswrBody_of_refused (h : ctlFault true l.a.w64 = some { code := 0x02 }) : syswrBody s l = .fault { code := 0x02 } := by
  simp only [syswrBody, h]

variable (h : ctlFault true l.a.w64 = none)
include h

theorem syswrBody_of_trailing (ht : (s.thr l.tk).trails = true) : syswrBody s l = .ok s := by
  simp only [syswrBody, h, ht, if_true]

theorem syswrBody_of_acting (ht : (s.thr l.tk).trails = false) :
    syswrBody s l = .ok (s.ctlWrite l.tk (ctlOf l.a.w64) l.b.w64) := by
  simp only [syswrBody, h, ht, Bool.false_eq_true, if_false]

end

/-- A write of a bank's counters (R417). -/
theorem ctlWrite_of_bank {s : State} {tk : Nat} {c : Ctl1} {v : Word} (h1 : 0x200 ≤ c.num) (h2 : c.num < 0x220) :
    let p := pkgOfThr tk
    let key := bankKey c.die c.core c.inst (c.num - 0x200)
    let thr := s.memThr p (24 * c.die + c.core)
    s.ctlWrite tk c v = s.modPkg p fun k => { k with banks := Tab.put k.banks key { s.bank p key with
      fixed := v.toNat % 2 ^ 32, lost := v.toNat / 2 ^ 32,
      alarmed := (s.bank p key).alarmed && decide (thr.toNat % 2 ^ 16 ≤ v.toNat % 2 ^ 32) } } := by
  have hf : ctlFields c.num = some { inst := 16, core := 24, die := true } := by
    simp (disch := omega) only [ctlFields, if_neg, if_pos]
  have hlow (x : Nat) : field x 31 0 = x % 2 ^ 32 := field_low ..
  have hthr (x : Nat) : field x 15 0 = x % 2 ^ 16 := field_low ..
  have hhigh : field v.toNat 63 32 = v.toNat / 2 ^ 32 := by
    have := v.isLt
    simp only [field]
    omega
  unfold State.ctlWrite
  simp (disch := omega) only [hf, hlow, hthr, hhigh, Bool.false_and, Bool.false_eq_true, if_false, if_neg, if_pos]

theorem toNat_and_low (v : Word) {k : Nat} (hk : k ≤ 64) : (v &&& BitVec.ofNat 64 (2 ^ k - 1)).toNat = v.toNat % 2 ^ k := by
  have hlt : 2 ^ k - 1 < 2 ^ 64 := (Nat.sub_lt Nat.one_le_two_pow Nat.one_pos).trans_le (Nat.pow_le_pow_right (by decide) hk)
  rw [BitVec.toNat_and, BitVec.toNat_ofNat, Nat.mod_eq_of_lt hlt, Nat.and_two_pow_sub_one_eq_mod]

/-- A route with another low word (R371). -/
def routeLow (r : BitVec 128) (v : Word) : BitVec 128 := (r >>> 64 <<< 64) ||| (v &&& 0x7FF).setWidth 128

/-- A route with another high word (R371). -/
def routeHigh (r : BitVec 128) (v : Word) : BitVec 128 :=
  (r.setWidth 64).setWidth 128 ||| ((v &&& 0x7FFFFFFFFFFFFF).setWidth 128 <<< 64)

theorem toNat_routeLow (r : BitVec 128) (v : Word) : (routeLow r v).toNat = r.toNat / 2 ^ 64 * 2 ^ 64 + v.toNat % 2 ^ 11 := by
  have hv : (v &&& 0x7FF).toNat = v.toNat % 2 ^ 11 := toNat_and_low v (k := 11) (by decide)
  have hr := r.isLt
  rw [routeLow, BitVec.toNat_or, BitVec.toNat_shiftLeft, BitVec.toNat_ushiftRight, BitVec.toNat_setWidth, hv,
    Nat.shiftRight_eq_div_pow, Nat.mod_eq_of_lt (by rw [Nat.shiftLeft_eq]; omega), Nat.mod_eq_of_lt (by omega),
    ← Nat.shiftLeft_add_eq_or_of_lt (by omega), Nat.shiftLeft_eq]

theorem toNat_routeHigh (r : BitVec 128) (v : Word) : (routeHigh r v).toNat = v.toNat % 2 ^ 55 * 2 ^ 64 + r.toNat % 2 ^ 64 := by
  have hv : (v &&& 0x7FFFFFFFFFFFFF).toNat = v.toNat % 2 ^ 55 := toNat_and_low v (k := 55) (by decide)
  rw [routeHigh, BitVec.or_comm, BitVec.toNat_or, BitVec.toNat_shiftLeft, BitVec.toNat_setWidth, BitVec.toNat_setWidth,
    BitVec.toNat_setWidth, hv, Nat.mod_eq_of_lt (b := 2 ^ 128) (by rw [Nat.shiftLeft_eq]; omega),
    Nat.mod_eq_of_lt (a := r.toNat % 2 ^ 64) (by omega), ← Nat.shiftLeft_add_eq_or_of_lt (by omega), Nat.shiftLeft_eq,
    Nat.mod_eq_of_lt (a := v.toNat % 2 ^ 55) (by omega)]

theorem routeLow_high (r : BitVec 128) (v : Word) : routeLow r v >>> 64 = r >>> 64 := by
  refine BitVec.eq_of_toNat_eq ?_
  rw [BitVec.toNat_ushiftRight, BitVec.toNat_ushiftRight, toNat_routeLow, Nat.shiftRight_eq_div_pow, Nat.shiftRight_eq_div_pow]
  omega

theorem routeLow_low (r : BitVec 128) (v : Word) : (routeLow r v).toNat % 2 ^ 64 = v.toNat % 2 ^ 11 := by
  rw [toNat_routeLow]
  omega

theorem routeHigh_low (r : BitVec 128) (v : Word) : (routeHigh r v).setWidth 64 = r.setWidth 64 := by
  refine BitVec.eq_of_toNat_eq ?_
  rw [BitVec.toNat_setWidth, BitVec.toNat_setWidth, toNat_routeHigh]
  omega

theorem routeHigh_high (r : BitVec 128) (v : Word) : (routeHigh r v).toNat / 2 ^ 64 = v.toNat % 2 ^ 55 := by
  rw [toNat_routeHigh]
  omega

/-- A bit of what INJECT becomes below FIRED: ARM, PIPE, LANE, BIT, COPY and REGION as written, and 0 between them (R464). -/
theorem getLsbD_injectWord {old v : Word} {j : Nat} (hj : j < 32) :
    (injectWord old v).getLsbD j = (v.getLsbD j && decide (j ≠ 14) && decide (j ≠ 15)) := by
  have hkept : (0xFFFF3FFF : Word).getLsbD j = (decide (j ≠ 14) && decide (j ≠ 15)) := by
    interval_cases j <;> rfl
  have hfired : (0x100000000 : Word).getLsbD j = false := by
    interval_cases j <;> rfl
  rw [injectWord, BitVec.getLsbD_or, BitVec.getLsbD_and, hkept, Bool.and_assoc]
  split
  next => rw [show (0 : Word).getLsbD j = false from BitVec.getLsbD_zero, Bool.or_false]
  next => rw [BitVec.getLsbD_and, hfired, Bool.and_false, Bool.or_false]

theorem injectWord_fired {old v : Word} : (injectWord old v).getLsbD 32 = (old.getLsbD 32 && !v.getLsbD 0) := by
  have hkept : (0xFFFF3FFF : Word).getLsbD 32 = false := rfl
  have hfired : (0x100000000 : Word).getLsbD 32 = true := rfl
  rw [injectWord, BitVec.getLsbD_or, BitVec.getLsbD_and, hkept, Bool.and_false, Bool.false_or]
  split
  next h => rw [h, Bool.not_true, Bool.and_false]; rfl
  next h => rw [BitVec.getLsbD_and, hfired, Bool.eq_false_iff.2 h, Bool.not_false]

theorem injectWord_lt {old v : Word} : (injectWord old v).toNat < 2 ^ 33 := by
  have hold : (if v.getLsbD 0 then 0 else old &&& 0x100000000 : Word).toNat < 2 ^ 33 := by
    split
    next => decide
    next => exact Nat.and_lt_two_pow _ (by decide)
  exact Nat.or_lt_two_pow (Nat.and_lt_two_pow _ (by decide)) hold

/-- Settles O36: an operand names a register exactly where the model's list has it, and the register's number selects what is read and
what is written. -/
theorem controlRegisters : Obligations.ControlRegisters := by
  unfold Obligations.ControlRegisters
  intro w s hw b l a v p n c i core die x k ck port uses named writable absent there route lead filt lane chan bank thr
  have hnamed : named ↔ Named n (CtlUses a) := Iff.rfl
  have hof : ctlOf l.a.w64 = ⟨n, c, i, core, die⟩ := ctlOf_eq ..
  refine ⟨fun o hu => ?reads, fun o inj hu => ?writes⟩
  case reads =>
    intro ins reads nat
    have he : exec ins s = word w.f { use1 o with priv := 1 }
      (sysNow (fun _ l => ctlFault false l.a.w64) fun s l => (s, s.ctlRead l.tk (ctlOf l.a.w64))) s := rfl
    refine ⟨fun h => w.nowFaults_of hw hu he (ctlFault_eq_some fun hn => h hn.1), fun h => ?_⟩
    have hc : ctlFault false l.a.w64 = none := ctlFault_eq_none h (fun h => nomatch h)
    refine w.onceNow_of hw hu he hc fun hdone => ?_
    have hreads {u : Word} (hu : b.ctlRead w.tk ⟨n, c, i, core, die⟩ = u) : reads u := by
      rw [← hu, ← hof]
      exact hdone
    obtain ⟨f, hf, -, hctx⟩ := ctlFields_of_named_ctx (hnamed.1 h)
    refine ⟨fun hx => hreads (ctlRead_of_absent hf (by simp [hctx, hx.1]) hx.2), fun ht => ?there, ?_⟩
    case there =>
      have hnone : (b.ctx? (pkgOfThr w.tk) c).isNone = false := by
        rw [show b.ctx? (pkgOfThr w.tk) c = some x from ht]
        rfl
      refine ⟨?_, ?_, ?_, ?_, ?_, ?_, ?_, ?_, ?_, ?_, ?_, ?_, ?_⟩
      all_goals
        intro hn
        refine hreads ?_
        rw [hn, State.ctlRead, hnone]
        rfl
    refine ⟨?_, ?_, ?_, ?_, ?_, ?_, ?_, ?_, ?_, ?_, ?_, ?_, ?_, ?_, ?_, ?_, ?_, ?_, ?_, ?_, ?_⟩
    case refine_20 => exact fun h1 h2 => hreads (ctlRead_of_bank h1 h2)
    case refine_21 =>
      intro h1 h2
      have hrow := ctlRead_of_row (s := b) (tk := w.tk) (c := ⟨n, c, i, core, die⟩) h1 h2
      exact ⟨fun he => hreads (hrow.trans (congrArg rowWord he)), fun row bk m he => hreads (hrow.trans (congrArg rowWord he))⟩
    all_goals
      intro hn
      refine hreads ?_
      rw [hn]
      rfl
  case writes =>
    intro ins goes sets routes m
    have he : exec ins s = word w.f { useS2 o with priv := 1 } syswrBody s := by cases inj <;> rfl
    refine ⟨fun h => w.faults_of hw hu he (syswrBody_of_refused (ctlFault_eq_some fun hn => h ⟨hn.1, hn.2 rfl⟩)), fun h hwr ht =>
      w.completes_of hw hu he (syswrBody_of_trailing (ctlFault_eq_none h fun _ => hwr) ht), fun h hwr ht => ?_⟩
    have hdone := w.completes_of hw hu he (syswrBody_of_acting (ctlFault_eq_none h fun _ => hwr) ht)
    have hgoes {t : State} (hu : b.ctlWrite w.tk ⟨n, c, i, core, die⟩ v = t) : goes t := by
      rw [← hu, ← hof]
      exact hdone
    obtain ⟨f, hf, -, hctx⟩ := ctlFields_of_named_ctx (hnamed.1 h)
    have hat {t : State} (k : Nat) (hu : b.ctlWrite w.tk ⟨k, c, i, core, die⟩ v = t) (hn : n = k) : goes t :=
      hgoes (by rw [hn]; exact hu)
    have hlow (x : Nat) : field x 31 0 = x % 2 ^ 32 := field_low ..
    have hthr (x : Nat) : field x 15 0 = x % 2 ^ 16 := field_low ..
    refine ⟨fun hx => hgoes (ctlWrite_of_absent hf (by simp [hctx, hx.1]) hx.2), fun ht => ?there, hat 0x40 rfl, hat 0x46 rfl,
      hat 0x100 ?port, fun hn => ⟨v &&& 0xFFFFFFFF, hat 0x102 rfl hn, toNat_and_low v (k := 32) (by decide)⟩,
      fun hn => ⟨v &&& 0xFFFFFFFFFFFF, hat 0x280 rfl hn, toNat_and_low v (k := 48) (by decide)⟩,
      fun h1 h2 => hgoes (ctlWrite_of_bank h1 h2),
      fun hn => ⟨injectWord (b.core ck).inject v, hat 0x300 rfl hn, fun j hj => getLsbD_injectWord hj, injectWord_fired, injectWord_lt⟩⟩
    case port =>
      simp only [← hlow, ← hthr]
      rfl
    case there =>
      have hnone : (b.ctx? (pkgOfThr w.tk) c).isNone = false := by
        rw [show b.ctx? (pkgOfThr w.tk) c = some x from ht]
        rfl
      refine ⟨hat 1 ?_, fun hn => (apply_ite goes _ _ _).mp (hat 2 ?_ hn), fun hn => (apply_ite goes _ _ _).mp (hat 3 ?_ hn), hat 4 ?_,
        fun hn => (apply_ite goes _ _ _).mp (hat 7 ?_ hn), hat 0x10 ?_, hat 0x11 ?_,
        fun hn => (apply_ite goes _ _ _).mp (hat 0x20 ?_ hn), fun hn => ⟨routeLow route v, hat 0x21 ?_ hn, routeLow_high .., routeLow_low ..⟩,
        fun hn => ⟨routeHigh route v, hat 0x22 ?_ hn, routeHigh_low .., routeHigh_high ..⟩⟩
      all_goals
        rw [State.ctlWrite, hnone]
        rfl

end Sys2Proof.Machine
end

section
/-! SUPPORT. Commands of the die's collective engine (R313, R352, R369, R372, R373). -/

namespace Sys2Proof.Machine

theorem State.launchCmd_eq (s : State) (lk : Option Nat) : ∃ x, s.launchCmd lk = { s with launches := x } := by
  cases lk with
  | none => exact ⟨s.launches, rfl⟩
  | some k =>
    unfold State.launchCmd State.modLaunch
    dsimp only
    split
    · exact ⟨s.launches, rfl⟩
    · exact ⟨_, rfl⟩

/-- A command of the die's engine has its ticket, enters by `enter` and is counted. -/
def State.acceptedDie (s : State) (l : Lane) (k : CmdK) (rel coll bind : Bool) (h : Hint) (enter : State → Cmd → State) : State :=
  let n := (s.core l.ck).ticket % 2 ^ 32
  let b := (s.takeTicket l.ck (s.thr l.tk).ctx coll bind).2
  let c := { b.fresh.2.newCmd l b.uid n k rel h with copy := 0 }
  let b := (enter (b.fresh.2.launchCmd c.launch) c).modThr l.tk fun t => { t with cmds := t.cmds ++ [n], c := { t.c with enc := t.c.enc + 1 } }
  b.pass l.tk { pos := (s.thr l.tk).nw, src := false, v := [BitVec.ofNat 64 n] }

section
variable {s : State} {l : Lane} {k : CmdK} {rel coll bind : Bool} {h : Hint} {enter : State → Cmd → State}

theorem State.acceptDie_of_trailing (ht : (s.thr l.tk).trails = true) :
    s.acceptDie l k rel coll bind h enter = .ok (s.pendNew l .copied 7).2 := by
  simp only [State.acceptDie, ht, if_true, State.follow]

variable (ht : (s.thr l.tk).trails = false)
include ht

theorem State.acceptDie_of_crowded (hl : (s.thr l.tk).leads = true) (hr : s.inqRoom l.tk = false) :
    s.acceptDie l k rel coll bind h enter = .park .copies := by
  simp only [State.acceptDie, ht, Bool.false_eq_true, if_false, State.ticketSrc_of_crowded ht hl hr]

variable (hr : (s.thr l.tk).leads = true → s.inqRoom l.tk = true)
include hr

theorem State.acceptDie_of_skip {n : Nat} {rest : List Nat} (hs : (s.thr l.tk).skip = n :: rest) :
    s.acceptDie l k rel coll bind h enter = .ok (s.skipCmd l n) := by
  simp only [State.acceptDie, ht, Bool.false_eq_true, if_false, State.ticketSrc_of_skip ht hr hs]

variable (hs : (s.thr l.tk).skip = [])
include hs

theorem State.acceptDie_of_full (hf : 64 ≤ (s.die (dkOf l.ck)).collUsed) :
    s.acceptDie l k rel coll bind h enter = .park (.room 3) := by
  simp only [State.acceptDie, ht, Bool.false_eq_true, if_false, State.ticketSrc_of_room hs ht hr, collqMax, hf, if_true]

variable (hf : (s.die (dkOf l.ck)).collUsed < 64)
include hf

theorem State.acceptDie_of_counted (he : 255 ≤ (s.thr l.tk).c.enc) :
    s.acceptDie l k rel coll bind h enter = .park (.room 8) := by
  simp only [State.acceptDie, ht, Bool.false_eq_true, if_false, State.ticketSrc_of_room hs ht hr, collqMax, Nat.not_le.2 hf,
    ctrMax, he, if_true]

theorem State.acceptDie_of_room (he : (s.thr l.tk).c.enc < 255) : s.acceptDie l k rel coll bind h enter =
    .ok ((s.acceptedDie l k rel coll bind h enter).put l (BitVec.ofNat 64 ((s.core l.ck).ticket % 2 ^ 32))) := by
  simp only [State.acceptDie, ht, Bool.false_eq_true, if_false, State.ticketSrc_of_room hs ht hr, collqMax, Nat.not_le.2 hf,
    ctrMax, Nat.not_le.2 he]
  rfl

end

/-- What has become of an accepted command: its thread and its core count it, and the dies are what `enter` makes of them. -/
theorem State.acceptedDie_spec {s : State} {l : Lane} {tk : Nat} (htk : l.tk = tk) {k : CmdK} {rel coll bind : Bool} {h : Hint}
    {enter : State → Cmd → State} {P : Tab Die → Cmd → Prop} (hent : ∀ b c, ∃ d, enter b c = { b with dies := d })
    (hP : ∀ b c, b.dies = s.dies → b.clock = s.clock → P (enter b c).dies c) :
    let t := s.acceptedDie l k rel coll bind h enter
    ∃ c : Cmd, c.k = k ∧ c.ticket = (s.core l.ck).ticket % 2 ^ 32 ∧ c.tk = tk ∧ c.rel = rel ∧ c.copy = 0 ∧ t.mem = s.mem
      ∧ (t.thr tk).c.enc = (s.thr tk).c.enc + 1 ∧ (t.core l.ck).ticket = (s.core l.ck).ticket + 1 ∧ P t.dies c := by
  subst htk
  intro t
  let n := (s.core l.ck).ticket % 2 ^ 32
  let b := (s.takeTicket l.ck (s.thr l.tk).ctx coll bind).2
  let c := { b.fresh.2.newCmd l b.uid n k rel h with copy := 0 }
  obtain ⟨x, hx⟩ := b.fresh.2.launchCmd_eq c.launch
  obtain ⟨d, hd⟩ := hent { b.fresh.2 with launches := x } c
  have hdies := hP { b.fresh.2 with launches := x } c rfl rfl
  let counted := State.modThr { b.fresh.2 with launches := x, dies := d } l.tk fun t =>
    { t with cmds := t.cmds ++ [n], c := { t.c with enc := t.c.enc + 1 } }
  have ht : t = counted.pass l.tk { pos := (s.thr l.tk).nw, src := false, v := [BitVec.ofNat 64 n] } := by
    simp only [t, State.acceptedDie]
    rw [hx, hd]
  obtain ⟨y, hy⟩ := counted.pass_eq l.tk { pos := (s.thr l.tk).nw, src := false, v := [BitVec.ofNat 64 n] }
  obtain ⟨q, hq, -, -⟩ := counted.sameButPair_pass l.tk l.tk { pos := (s.thr l.tk).nw, src := false, v := [BitVec.ofNat 64 n] }
  rw [← ht] at hy hq
  refine ⟨c, rfl, rfl, rfl, rfl, rfl, ?_, ?_, ?_, ?_⟩
  · rw [hy]
    rfl
  · rw [hq, State.thr_modThr]
    rfl
  · have hcore : t.core l.ck = b.core l.ck := by
      rw [hy]
      rfl
    rw [hcore]
    simp [b, State.takeTicket]
  · rw [hy]
    rw [hd] at hdies
    exact hdies

/-! ### COLL and ENGQ -/

/-- How a command of the collective engine enters its queue. -/
def State.enterColl (op : Nat) (im : CollIm) (dk : Nat) (s : State) (c : Cmd) : State :=
  if op = 0 then s.modDie dk fun d => { d with binds := d.binds ++ [{ comm := im.comm, cmd := c, since := s.clock }] }
  else
    let cm := s.comm dk im.comm
    (s.setComm dk im.comm { cm with issued := cm.issued + 1 }).modDie dk fun d =>
      { d with ops := d.ops ++ [{ comm := im.comm, seq := cm.issued + 1, cmd := c, since := s.clock }] }

theorem State.enterColl_eq (op : Nat) (im : CollIm) (dk : Nat) (s : State) (c : Cmd) :
    ∃ d, s.enterColl op im dk c = { s with dies := d } := by
  unfold State.enterColl
  split
  · exact ⟨_, rfl⟩
  · exact ⟨_, rfl⟩

section
variable {op : Nat} {rel : Bool} {h : Hint} {s : State} {l : Lane}

theorem collBody_of_other (h7 : (collIm l.a.w64).op ≤ 7) (ho : (collIm l.a.w64).op ≠ op) :
    collBody op rel h s l = .fault { code := 0x02 } := if_pos ⟨ho, h7⟩

variable (ho : (collIm l.a.w64).op = op)
include ho

theorem collBody_of_unsound {x : FI} (hx : s.checkColl l.tk l.a.w64 l.b.w64 l.c.w64 l.e.w64 = .error x) :
    collBody op rel h s l = .fault x := by
  simp only [collBody, ho, ne_eq, not_true_eq_false, false_and, if_false, hx]

theorem collBody_of_sound {k : CmdK} (hk : s.checkColl l.tk l.a.w64 l.b.w64 l.c.w64 l.e.w64 = .ok k) :
    collBody op rel h s l = s.acceptDie l k rel true (op == 0) h (State.enterColl op (collIm l.a.w64) (dkOf l.ck)) := by
  simp only [collBody, ho, ne_eq, not_true_eq_false, false_and, if_false, hk]
  rfl

end

/-- ENGQ's own effect. -/
def engqBody (h : Hint) (s : State) (l : Lane) : Res :=
  let a := l.a.w64.toNat
  let b := l.b.w64
  if 16 ≤ a then .fault { code := 0x02 }
  else if b.toNat % 64 ≠ 0 then .fault { code := 0x07, addr := b }
  else s.acceptDie l (.engq a b.toNat) false false false h fun s c => s.modDie (dkOf l.ck) fun d => { d with collq := d.collq ++ [c] }

theorem exec_engq (f : Frame) (h : Hint) (o : O2) (s : State) : exec (.engq f h o) s = word f (use2 o) (engqBody h) s := rfl

/-- The word's command, of kind `k`, is accepted by the die's engine where there is room, and `P` holds of it and of what it makes
of the dies. -/
def Stand.AcceptsDie (w : Stand) (s : State) (ins : Instr) (k : CmdK) (rel : Bool) (P : Tab Die → Cmd → Prop) : Prop :=
  let b := w.begun s
  let l := w.lane s
  let dk := dkOf l.ck
  let n := (b.core l.ck).ticket % 2 ^ 32
  let t0 := b.thr w.tk
  (t0.trails = true → w.Completes s ins (b.pendNew l .copied 7).2)
  ∧ (t0.trails = false → t0.leads = true → b.inqRoom w.tk = false → w.Parks s ins .copies)
  ∧ (t0.trails = false → (t0.leads = true → b.inqRoom w.tk = true) →
    (∀ m rest, t0.skip = m :: rest → w.Completes s ins (b.skipCmd l m))
    ∧ (t0.skip = [] → 64 ≤ (b.die dk).collUsed → w.Parks s ins (.room 3))
    ∧ (t0.skip = [] → (b.die dk).collUsed < 64 → 255 ≤ t0.c.enc → w.Parks s ins (.room 8))
    ∧ (t0.skip = [] → (b.die dk).collUsed < 64 → t0.c.enc < 255 →
      ∃ (t : State) (c : Cmd), w.Completes s ins (t.put l (BitVec.ofNat 64 n))
        ∧ c.k = k ∧ c.ticket = n ∧ c.tk = w.tk ∧ c.rel = rel ∧ c.copy = 0 ∧ t.mem = b.mem
        ∧ (t.thr w.tk).c.enc = t0.c.enc + 1 ∧ (t.core l.ck).ticket = (b.core l.ck).ticket + 1 ∧ P t.dies c))

theorem Stand.acceptsDie_of {w : Stand} {s : State} (hw : w.Clear s) {u : Use} (hu : w.u = u) {ins : Instr} {body : State → Lane → Res}
    (he : exec ins s = word w.f u body s) {k : CmdK} {rel coll bind : Bool} {h : Hint} {enter : State → Cmd → State}
    (hb : body (w.begun s) (w.lane s) = (w.begun s).acceptDie (w.lane s) k rel coll bind h enter)
    {P : Tab Die → Cmd → Prop} (hent : ∀ b c, ∃ d, enter b c = { b with dies := d })
    (hP : ∀ b c, b.dies = (w.begun s).dies → b.clock = (w.begun s).clock → P (enter b c).dies c) : w.AcceptsDie s ins k rel P := by
  refine ⟨fun ht => w.completes_of hw hu he (hb.trans (State.acceptDie_of_trailing ht)),
    fun ht hl hr => w.parks_of hw hu he (hb.trans (State.acceptDie_of_crowded ht hl hr)), fun ht hr =>
    ⟨fun m rest hs => w.completes_of hw hu he (hb.trans (State.acceptDie_of_skip ht hr hs)),
      fun hs hf => w.parks_of hw hu he (hb.trans (State.acceptDie_of_full ht hr hs hf)),
      fun hs hf hc => w.parks_of hw hu he (hb.trans (State.acceptDie_of_counted ht hr hs hf hc)), fun hs hf hc => ?_⟩⟩
  obtain ⟨c, hspec⟩ := State.acceptedDie_spec (l := w.lane s) (tk := w.tk) rfl (k := k) (rel := rel) (coll := coll) (bind := bind)
    (h := h) hent hP
  exact ⟨_, c, w.completes_of hw hu he (hb.trans (State.acceptDie_of_room ht hr hs hf hc)), hspec⟩

/-- What the engine has of a COLL that it has accepted: a bind, or the next operation of its communicator (R352). -/
def CollEntered (op : Nat) (im : CollIm) (dk : Nat) (b : State) (t : Tab Die) (c : Cmd) : Prop :=
  let d := b.die dk
  let d' := Tab.getOr t dk {}
  if op = 0 then d'.binds = d.binds ++ [{ comm := im.comm, cmd := c, since := b.clock }] ∧ d'.ops = d.ops
  else d'.ops = d.ops ++ [{ comm := im.comm, seq := (b.comm dk im.comm).issued + 1, cmd := c, since := b.clock }]
    ∧ d'.binds = d.binds ∧ (Tab.getOr d'.comms im.comm {}).issued = (b.comm dk im.comm).issued + 1

theorem State.collEntered_enterColl {op : Nat} {im : CollIm} {dk : Nat} {b s : State} (hd : s.dies = b.dies) (hc : s.clock = b.clock)
    (c : Cmd) : CollEntered op im dk b (s.enterColl op im dk c).dies c := by
  have hdie : s.die dk = b.die dk := by rw [State.die, hd, State.die]
  have hcomm : s.comm dk im.comm = b.comm dk im.comm := by rw [State.comm, hdie, State.comm]
  unfold CollEntered State.enterColl
  dsimp only
  split
  · change ((s.modDie dk _).die dk).binds = _ ∧ ((s.modDie dk _).die dk).ops = _
    rw [State.die_modDie, hdie, hc]
    exact ⟨rfl, rfl⟩
  · change ((State.modDie _ dk _).die dk).ops = _ ∧ ((State.modDie _ dk _).die dk).binds = _
      ∧ (Tab.getOr ((State.modDie _ dk _).die dk).comms _ _).issued = _
    rw [State.die_modDie, State.setComm, State.die_modDie, hdie, hcomm, Tab.getOr_put_same, ← hc]
    exact ⟨rfl, rfl, rfl⟩

/-- Settles O34: COLL by its image's operation and its checks, ENGQ by its operands, and then the acceptance that both share. -/
theorem collectiveCommands : Obligations.CollectiveCommands := by
  unfold Obligations.CollectiveCommands
  intro w s h hw b l dk n t0 accepts
  refine ⟨fun o rel hu => ?coll, fun o hu => ?engq⟩
  case engq =>
    intro a at_
    refine ⟨fun ha => w.faults_of hw hu (exec_engq ..) (if_pos ha),
      fun ha hb => w.faults_of hw hu (exec_engq ..) ((if_neg (Nat.not_le.2 ha)).trans (if_pos hb)), fun ha hb => ?_⟩
    have hbody : engqBody h b l = _ := (if_neg (Nat.not_le.2 ha)).trans (if_neg (not_not.2 hb))
    exact w.acceptsDie_of hw hu (exec_engq ..) hbody
      (P := fun d c => (Tab.getOr d dk {}).collq = (b.die dk).collq ++ [c]) (fun b c => ⟨_, rfl⟩) fun b' c hd _ => by
        change ((b'.modDie dk _).die dk).collq = _
        rw [State.die_modDie, show b'.die dk = b.die dk by rw [State.die, hd, State.die]]
  case coll =>
    intro im coll
    have hcoll {ins : Instr} {op : Nat} (he : exec ins s = word w.f (collUse o) (collBody op rel h) s) : coll ins op := by
      refine ⟨fun h7 ho => w.faults_of hw hu he (collBody_of_other h7 ho), fun ho =>
        ⟨fun x hx => w.faults_of hw hu he (collBody_of_unsound ho hx), fun k hk => ?_⟩⟩
      exact w.acceptsDie_of hw hu he (collBody_of_sound ho hk) (P := CollEntered op im dk b)
        (fun b c => State.enterColl_eq ..) fun b' c hd hc => State.collEntered_enterColl hd hc c
    exact ⟨hcoll rfl, hcoll rfl, hcoll rfl, hcoll rfl, hcoll rfl, hcoll rfl, hcoll rfl, hcoll rfl⟩

end Sys2Proof.Machine
end

section
/-! SUPPORT. CWAIT, CCANCEL, ROUTE and TARM (R363, R365, R370, R371). -/

namespace Sys2Proof.Machine

/-! ### Waits for tickets, and cancelled operations (R370, R371) -/

section
variable {s : State} {l : Lane}

theorem cwaitBody_of_trailing (ht : (s.thr l.tk).trails = true) : cwaitBody s l = .ok (s.pendNew l .copied 7).2 := by
  simp only [cwaitBody, ht, if_true, State.follow]

theorem cwaitBody_of_acting (ht : (s.thr l.tk).trails = false) :
    cwaitBody s l =
      let n := l.a.w64.toNat
      let v := (s.ticketStatus l.ck (s.thr l.tk).ctx n).2
      let p := (s.pendNew l (.cwait n) 7).2
      .ok (if l.b.w64 = 0 ∧ v = 0xFF then p else p.deliverOut l.tk s.uid [BitVec.ofNat 64 v] none) := by
  simp only [cwaitBody, ht, Bool.false_eq_true, if_false]
  split <;> rfl

/-- The acting copy goes on with the value `v`, which passes to the trailing one. -/
def State.give (s : State) (l : Lane) (nw : Nat) (v : Word) : State :=
  (s.pass l.tk { pos := nw, src := false, v := [v] }).put l v

theorem ccancelBody_of_trailing (ht : (s.thr l.tk).trails = true) : ccancelBody s l = .ok (s.pendNew l .copied 7).2 := by
  simp only [ccancelBody, ht, if_true, State.follow]

variable (ht : (s.thr l.tk).trails = false)
include ht

theorem ccancelBody_of_crowded (hl : (s.thr l.tk).leads = true) (hr : s.inqRoom l.tk = false) :
    ccancelBody s l = .park .copies := by
  simp only [ccancelBody, ht, hl, hr, Bool.false_eq_true, if_false, Bool.not_false, Bool.and_self, if_true]

variable (hr : (s.thr l.tk).leads = true → s.inqRoom l.tk = true)
include hr

theorem ccancelBody_of_running {op : CollOp} (ho : s.opOfTicket l.ck (s.thr l.tk).ctx l.a.w64.toNat = some op) :
    ccancelBody s l = .ok ((s.cancelOp (dkOf l.ck) op).give l (s.thr l.tk).nw 0) := by
  have hroom : ¬((s.thr l.tk).leads && !s.inqRoom l.tk) = true := by simpa using hr
  simp only [ccancelBody, ht, Bool.false_eq_true, if_false, hroom, ho]
  rfl

variable (ho : s.opOfTicket l.ck (s.thr l.tk).ctx l.a.w64.toNat = none)
include ho

theorem ccancelBody_of_known {k : Tick} {v : Nat} (hk : s.ticketStatus l.ck (s.thr l.tk).ctx l.a.w64.toNat = (some k, v)) :
    ccancelBody s l = .ok (s.give l (s.thr l.tk).nw (if k.coll = true ∧ k.done.isSome = true ∧ v ≠ 0xFD then 1 else 2)) := by
  have hroom : ¬((s.thr l.tk).leads && !s.inqRoom l.tk) = true := by simpa using hr
  simp only [ccancelBody, ht, Bool.false_eq_true, if_false, hroom, ho, hk, Bool.and_eq_true, bne_iff_ne, and_assoc]
  rfl

theorem ccancelBody_of_unknown {v : Nat} (hk : s.ticketStatus l.ck (s.thr l.tk).ctx l.a.w64.toNat = (none, v)) :
    ccancelBody s l = .ok (s.give l (s.thr l.tk).nw 2) := by
  have hroom : ¬((s.thr l.tk).leads && !s.inqRoom l.tk) = true := by simpa using hr
  simp only [ccancelBody, ht, Bool.false_eq_true, if_false, hroom, ho, hk]
  rfl

end

/-- Cancelling an operation touches no thread. -/
theorem State.threads_cancelOp (s : State) (dk : Nat) (o : CollOp) : (s.cancelOp dk o).threads = s.threads := by
  unfold State.cancelOp
  generalize (s.comm dk o.comm).ring = ms
  induction ms generalizing s with
  | nil => rfl
  | cons m ms ih =>
    refine (ih _).trans ?_
    dsimp only
    split
    · rfl
    · split <;> rfl

/-! ### Routes and armed tiles (R363 to R365) -/

/-- ROUTE's own effect. -/
def routeBody (r : Nat) (s : State) (l : Lane) : Res :=
  let lo := l.a.w64
  let hi := l.b.w64
  if field lo.toNat 63 11 ≠ 0 ∨ field hi.toNat 63 55 ≠ 0 then .fault { code := 0x02 }
  else
    let v : BitVec 128 := hi ++ lo
    .ok (s.modCore l.ck fun c => { c with routes := Tab.put c.routes ((s.thr l.tk).ctx * 32 + r) v })

theorem exec_route (f : Frame) (h : Hint) (o : S2) (r : BitVec 5) (s : State) :
    exec (.route f h o r) s = word f (useS2 o) (routeBody r.toNat) s := rfl

theorem routeFields_eq_zero_iff (lo hi : Word) :
    (field lo.toNat 63 11 ≠ 0 ∨ field hi.toNat 63 55 ≠ 0) ↔ ¬(lo.toNat < 2 ^ 11 ∧ hi.toNat < 2 ^ 55) := by
  have := lo.isLt
  have := hi.isLt
  simp only [field]
  omega

/-- The entry that TARM makes of a tile's (R365). -/
def State.armTile (s : State) (l : Lane) (i r a off : Nat) : State :=
  s.modTile l.ck i fun t => { t with armed := true, faulted := false, latched := false, route := r, op := a, roff := off, acked := 0 }

/-- TARM may arm the entry with this route and this operation. -/
def State.Armable (s : State) (l : Lane) (e : Tile) (r a : Nat) : Prop :=
  e.plane = false ∧ (a = 15 ∨ e.fmt = operFmt a) ∧ (Tab.getOr (s.core l.ck).routes ((s.thr l.tk).ctx * 32 + r) 0).getLsbD 10 = true

section
variable {s : State} {l : Lane} {n r : Nat}

theorem tarmBody_of_reserved (h : 16 ≤ l.a.w64.toNat ∨ (7 ≤ l.a.w64.toNat ∧ l.a.w64.toNat ≠ 15) ∨ l.b.w64.toNat % 128 ≠ 0
    ∨ 2 ^ 48 ≤ l.b.w64.toNat) : tarmBody n r s l = .fault { code := 0x02 } := if_pos (by omega)

variable (ha : l.a.w64.toNat = 15 ∨ l.a.w64.toNat < 7) (hoff : l.b.w64.toNat % 128 = 0) (hlt : l.b.w64.toNat < 2 ^ 48)
include ha hoff hlt

theorem tarmBody_of_undefined (ht : s.useTile l.tk n = none) : tarmBody n r s l = .fault { code := 0x0E } := by
  refine (if_neg (by omega)).trans ?_
  rw [ht]

variable {i : Nat} {e : Tile} (ht : s.useTile l.tk n = some (i, e))
include ht

theorem tarmBody_of_same (harm : e.armed = true) (hf : e.faulted = false)
    (hsame : e.route = r ∧ e.op = l.a.w64.toNat ∧ e.roff = l.b.w64.toNat) : tarmBody n r s l = .ok s := by
  have hop : l.a.w64.toNat % 16 = l.a.w64.toNat := by omega
  refine (if_neg (by omega)).trans ?_
  rw [ht]
  exact if_pos ⟨harm, by simp [hf], hsame.1, hsame.2.1.trans hop.symm, hsame.2.2⟩

theorem tarmBody_of_other (harm : e.armed = true) (hf : e.faulted = false)
    (hother : ¬(e.route = r ∧ e.op = l.a.w64.toNat ∧ e.roff = l.b.w64.toNat)) : tarmBody n r s l = .fault { code := 0x0E } := by
  have hop : l.a.w64.toNat % 16 = l.a.w64.toNat := by omega
  refine (if_neg (by omega)).trans ?_
  rw [ht]
  refine (if_neg ?_).trans (if_pos (.inl ⟨harm, by simp [hf]⟩))
  rw [hop]
  exact fun h => hother ⟨h.2.2.1, h.2.2.2.1, h.2.2.2.2⟩

variable (hun : e.armed = false ∨ e.faulted = true)
include hun

theorem tarmBody_of_unfit (h : e.plane = true ∨ (e.st ≠ .empty ∧ e.st ≠ .ready) ∨ (l.a.w64.toNat ≠ 15 ∧ e.fmt ≠ operFmt l.a.w64.toNat)
    ∨ (Tab.getOr (s.core l.ck).routes ((s.thr l.tk).ctx * 32 + r) 0).getLsbD 10 = false) :
    tarmBody n r s l = .fault { code := 0x0E } := by
  have hop : l.a.w64.toNat % 16 = l.a.w64.toNat := by omega
  have hnot : ¬(e.armed = true ∧ (!e.faulted) = true) := by
    rcases hun with h | h <;> simp [h]
  refine (if_neg (by omega)).trans ?_
  rw [ht]
  refine (if_neg fun h => hnot ⟨h.1, h.2.1⟩).trans (if_pos (.inr ?_))
  rw [hop]
  exact h.imp id (Or.imp id (Or.imp id fun h => by rw [h]; rfl))

variable (hfit : s.Armable l e r l.a.w64.toNat)
include hfit

theorem tarmBody_of_fit (hst : e.st = .empty ∨ e.st = .ready) : tarmBody n r s l =
    if e.st = .ready then
      let x := match e.mepi with
        | some c => (c, s.armTile l i r l.a.w64.toNat l.b.w64.toNat)
        | none => (s.armTile l i r l.a.w64.toNat l.b.w64.toNat).armCmd l
      .ok (x.2.handOver l.ck i x.1 0 ((e.len + 4095) / 4096))
    else .ok (s.armTile l i r l.a.w64.toNat l.b.w64.toNat) := by
  have hop : l.a.w64.toNat % 16 = l.a.w64.toNat := by omega
  have hnot : ¬(e.armed = true ∧ (!e.faulted) = true) := by
    rcases hun with h | h <;> simp [h]
  obtain ⟨hplane, hfmt, hvalid⟩ := hfit
  refine (if_neg (by omega)).trans ?_
  rw [ht]
  refine (if_neg fun h => hnot ⟨h.1, h.2.1⟩).trans ((if_neg ?_).trans ?_)
  · rw [hop, hplane, hvalid]
    rintro (h | h | h | h | h)
    · exact hnot h
    · exact nomatch h
    · exact hst.elim h.1 h.2
    · exact hfmt.elim h.1 h.2
    · exact nomatch h
  · rw [hop]
    rfl

end

/-- Settles O35: CWAIT and CCANCEL by the copy that issues them and by how the ticket stands, ROUTE by its operands, TARM by its
operands and the tile's entry. -/
theorem ticketsAndRoutes : Obligations.TicketsAndRoutes := by
  unfold Obligations.TicketsAndRoutes
  intro w s h hw b l t
  refine ⟨fun o hu => ?cwait, fun o hu => ?ccancel, fun o r hu => ?route, fun o n r hu => ?tarm⟩
  case cwait =>
    exact ⟨fun ht => w.completes_of hw hu rfl (cwaitBody_of_trailing ht), fun ht => w.completes_of hw hu rfl (cwaitBody_of_acting ht)⟩
  case ccancel =>
    intro n gives
    have hexec : exec (.ccancel w.f h o) s = word w.f (use1 o) ccancelBody s := rfl
    have hgives {b' : State} (hb : b'.threads = b.threads) {v : Word} (he : ccancelBody b l = .ok (b'.give l t.nw v)) : gives b' v := by
      have hgo := w.completes_of hw hu hexec he
      have hthr : b'.thr w.tk = t := by rw [State.thr, hb, ← State.thr]
      rw [State.give, State.pass, show (b'.thr l.tk).leads = t.leads from congrArg Thread.leads hthr] at hgo
      exact hgo
    refine ⟨fun ht => w.completes_of hw hu hexec (ccancelBody_of_trailing ht),
      fun ht hl hr => w.parks_of hw hu hexec (ccancelBody_of_crowded ht hl hr), fun ht hr =>
      ⟨fun op ho => hgives (State.threads_cancelOp ..) (ccancelBody_of_running ht hr ho), fun ho =>
        ⟨fun k v hk => hgives rfl (ccancelBody_of_known ht hr ho hk), fun v hk => hgives rfl (ccancelBody_of_unknown ht hr ho hk)⟩⟩⟩
  case route =>
    intro lo hi
    split
    next hok =>
      exact w.completes_of hw hu (exec_route ..) (if_neg (not_not.2 hok ∘ (routeFields_eq_zero_iff lo hi).1))
    next hbad => exact w.faults_of hw hu (exec_route ..) (if_pos ((routeFields_eq_zero_iff lo hi).2 hbad))
  case tarm =>
    intro a off
    refine ⟨fun hx => w.faults_of hw hu rfl (tarmBody_of_reserved hx), fun ha hoff hlt =>
      ⟨fun ht => w.faults_of hw hu rfl (tarmBody_of_undefined ha hoff hlt ht), fun i e ht => ⟨fun harm hf => ?_, fun hun => ?_⟩⟩⟩
    · split
      next hsame => exact w.completes_of hw hu rfl (tarmBody_of_same ha hoff hlt ht harm hf hsame)
      next hother => exact w.faults_of hw hu rfl (tarmBody_of_other ha hoff hlt ht harm hf hother)
    · intro valid armed
      refine ⟨fun hx => w.faults_of hw hu rfl (tarmBody_of_unfit ha hoff hlt ht hun hx), fun hplane hfmt hvalid =>
        ⟨fun hst => ?_, fun hst => ?_⟩⟩
      · exact w.completes_of hw hu rfl ((tarmBody_of_fit ha hoff hlt ht hun ⟨hplane, hfmt, hvalid⟩ (.inl hst)).trans
          (if_neg (by rw [hst]; decide)))
      · exact w.completes_of hw hu rfl ((tarmBody_of_fit ha hoff hlt ht hun ⟨hplane, hfmt, hvalid⟩ (.inr hst)).trans (if_pos hst))

end Sys2Proof.Machine
end

section
/-! SUPPORT. Taking a fault and returning from one (R374 to R379, R390, R391). -/

namespace Sys2Proof.Machine

/-! ### The window is banked (R133) -/

/-- Of the values of one register the first one in the list is the last that the bank takes. -/
theorem Regs.get_bank_foldr (r : Regs) (n : BitVec 6) (l : List WinE) :
    (l.foldr (fun e acc => acc.set e.reg e.val) r).get n =
      match l.find? fun e => e.reg == n with | some e => e.val | none => r.get n := by
  induction l with
  | nil => rfl
  | cons e l ih =>
    rw [List.foldr_cons, Regs.get_set, List.find?_cons]
    by_cases he : e.reg = n
    · simp only [he, if_true, beq_self_eq_true]
    · simp only [he, if_false, beq_eq_false_iff_ne.2 he, ih]

/-- Banking the window changes the banks and the window alone. -/
theorem Regs.bank_eq (r : Regs) : ∃ g, r.bank = { r with g := g, win := [] } := by
  obtain ⟨g, hg⟩ := Regs.bankAll r.win r
  exact ⟨g, by rw [Regs.bank, hg]⟩

theorem Regs.newest_bank (r : Regs) (n : BitVec 6) : r.bank.newest n = r.newest n := by
  rw [Regs.newest_of_not_mem (r := r.bank) (by simp [Regs.bank])]
  exact r.get_bank_foldr n r.win

/-! ### The thread leaves its gang -/

/-- The thread with its window banked, out of its gang. -/
def State.aside (s : State) (tk : Nat) : State := (s.modThr tk Thread.bank).dropMember tk

section
variable (s : State) (tk : Nat)

theorem State.thr_aside : (s.aside tk).thr tk = { (s.thr tk).bank with inGang := false } := by
  simp [State.aside, State.dropMember, State.setPipe, State.thr, State.modThr, State.setThr, State.modCore, State.setCore]

theorem State.ctx_thr_aside : ((s.aside tk).thr tk).ctx = (s.thr tk).ctx := by
  rw [State.thr_aside]
  rfl

theorem State.thr_aside_ne {k : Nat} (h : k ≠ tk) : (s.aside tk).thr k = s.thr k := by
  simp [State.aside, State.dropMember, State.setPipe, State.thr, State.modThr, State.setThr, State.modCore, State.setCore,
    Tab.getOr_put_ne _ _ _ h]

/-- Standing aside touches threads, gangs and the word being issued alone. -/
theorem State.aside_eq : ∃ x y z, s.aside tk = { s with threads := x, cores := y, iss := z } := ⟨_, _, _, rfl⟩

theorem State.ctx_aside (p c : Nat) : (s.aside tk).ctx p c = s.ctx p c := by
  obtain ⟨x, y, z, h⟩ := s.aside_eq tk
  rw [h]
  rfl

theorem State.read_aside (a n : Nat) : (s.aside tk).read a n = s.read a n := by
  obtain ⟨x, y, z, h⟩ := s.aside_eq tk
  rw [h]
  rfl

theorem State.byte_aside (a : Nat) : (s.aside tk).byte a = s.byte a := by
  obtain ⟨x, y, z, h⟩ := s.aside_eq tk
  rw [h]
  rfl

theorem State.mem_aside : (s.aside tk).mem = s.mem := by
  obtain ⟨x, y, z, h⟩ := s.aside_eq tk
  rw [h]

theorem State.fqFull_aside (x : Ctx) : (s.aside tk).fqFull x = s.fqFull x := by
  unfold State.fqFull State.fqCons
  rw [State.read_aside]

theorem State.threadRecord_aside (f : FI) (pc hdr word : Word) (dv : Bool) :
    (s.aside tk).threadRecord tk f pc hdr word dv = s.threadRecord tk f pc hdr word dv := by
  unfold State.threadRecord
  rw [State.thr_aside]
  obtain ⟨x, y, z, h⟩ := s.aside_eq tk
  rw [h]
  rfl

end

/-! ### Records (R376 to R378) -/

theorem length_recordBytes (code flags ctx loc slot core ixsel tid unit pc hdr word addr ixinfo time : Nat) :
    (recordBytes code flags ctx loc slot core ixsel tid unit pc hdr word addr ixinfo time).length = 64 := by
  simp only [recordBytes, List.length_append, length_leBytes]

theorem State.bytes_writeBytes (s : State) (a : Nat) (l : List Byte) : (s.writeBytes a l).bytes a l.length = l := by
  refine List.ext_getElem (by simp [State.bytes]) fun i hi hl => ?_
  simp only [State.bytes, List.getElem_map, List.getElem_range, State.byte_writeBytes]
  rw [if_pos (by omega), Nat.add_sub_cancel_left, List.getElem?_eq_getElem hl, Option.getD_some]

section
variable {s : State} {p c : Nat} {b : List Byte}

/-- A record touches no thread. -/
theorem State.threads_queueRecord : (s.queueRecord p c b).threads = s.threads := by
  unfold State.queueRecord State.writeRecord
  dsimp only
  split
  · rw [State.writeBytes_eq]
    rfl
  · rfl

theorem State.queueRecord_of_room (hh : (s.ctx p c).held = []) (hf : s.fqFull (s.ctx p c) = false) :
    s.queueRecord p c b = s.writeRecord p c b := by
  simp [State.queueRecord, hh, hf]

theorem State.queueRecord_of_full (h : (s.ctx p c).held ≠ [] ∨ s.fqFull (s.ctx p c) = true) :
    s.queueRecord p c b = s.setCtx p c { s.ctx p c with held := (s.ctx p c).held ++ [⟨heldBytes b⟩] } := by
  refine if_neg ?_
  rcases h with h | h <;> simp [h]

theorem State.ctx_writeRecord : (s.writeRecord p c b).ctx p c = { s.ctx p c with prod := (s.ctx p c).prod + 1 } :=
  State.ctx_setCtx ..

/-- The record stands at its place in the queue, the head counts it, and no other byte has changed (R378, log 6). -/
theorem State.writeRecord_spec (hb : b.length = 64) :
    let x := s.ctx p c
    let at_ := x.fqbase.toNat + 0x80 + 64 * (x.prod % 2 ^ x.fqlog)
    let u := s.writeRecord p c b
    u.bytes at_ 64 = b ∧ u.read x.fqbase.toNat 8 = (x.prod + 1) % 2 ^ 64
      ∧ ∀ a, (a < at_ ∨ at_ + 64 ≤ a) → (a < x.fqbase.toNat ∨ x.fqbase.toNat + 8 ≤ a) → u.byte a = s.byte a := by
  intro x at_ u
  have hbyte (a : Nat) : u.byte a = ((s.writeBytes at_ b).write x.fqbase.toNat 8 (x.prod + 1)).byte a := rfl
  refine ⟨?_, (s.writeBytes at_ b).read_write_same x.fqbase.toNat 8 (x.prod + 1), fun a ha hx => ?_⟩
  · refine Eq.trans (List.map_congr_left fun k _ => ?_) (hb ▸ s.bytes_writeBytes at_ b)
    rw [hbyte, State.byte_write_ne _ _ _ _ _ (by omega)]
  · rw [hbyte, State.byte_write_ne _ _ _ _ _ hx, State.byte_writeBytes, if_neg (by omega)]

end

/-! ### The thread that faults (R374, R379) -/

/-- A thread goes on in the handler of its context, as a region head. -/
def Thread.divertTo (x : Ctx) (f : FI) (pc hpc hdr : Word) (flags n : Nat) (t : Thread) : Thread :=
  { t with xhpc := hpc, xhdr := hdr, xmid := !f.header, xhead := t.head, xgo := false, xends := t.ends, xpc := pc,
           xinfo := BitVec.ofNat 64 (f.code + 256 * flags + 2 ^ 32 * (n % 2 ^ 32)), hand := true,
           pc := x.hndpc, hpc := x.hndpc, hdr := 0, fresh := true, redo := false, head := true, mid := false, ends := [],
           jump := none, hold := false, opDone := none, opW := none, reload := none, leaving := false, asked := none,
           r := { t.r with runG := 0, runP := 0 } }

/-- A thread stops before its word. -/
def Thread.stopBefore (f : FI) (pc hpc hdr : Word) (t : Thread) : Thread :=
  { t with st := .stopped, stopCode := some f.code, pc := pc, hpc := hpc, hdr := hdr, mid := !f.header,
           hold := false, opDone := none, reload := none, leaving := false, asked := none, r := { t.r with runG := 0, runP := 0 } }

/-- What takes a fault's thread out of its clause: the handler, or the stop. -/
def State.faultEnd (s : State) (tk : Nat) (f : FI) (pc hpc hdr : Word) : Thread → Thread :=
  let x := s.ctx (pkgOfThr tk) (s.thr tk).ctx
  if s.diverts tk f.code then
    Thread.divertTo x f pc hpc hdr (f.flags true + if x.held.isEmpty && !s.fqFull x then 0 else 16) (x.prod + x.held.length)
  else Thread.stopBefore f pc hpc hdr

theorem State.diverts_aside (s : State) (tk code : Nat) : (s.aside tk).diverts tk code = s.diverts tk code := by
  unfold State.diverts State.ctxOf
  rw [State.thr_aside, State.ctx_aside]
  rfl

theorem State.faultEnd_aside (s : State) (tk : Nat) (f : FI) (pc hpc hdr : Word) :
    (s.aside tk).faultEnd tk f pc hpc hdr = s.faultEnd tk f pc hpc hdr := by
  simp only [State.faultEnd, State.diverts_aside, State.ctx_aside, State.fqFull_aside, State.ctx_thr_aside]

/-- A fault is its record and what becomes of its thread. -/
theorem State.takeFault_eq (s : State) (tk : Nat) (f : FI) (pc hpc hdr word : Word) :
    s.takeFault tk f pc hpc hdr word =
      ((s.aside tk).queueRecord (pkgOfThr tk) (s.thr tk).ctx (s.threadRecord tk f pc hdr word (s.diverts tk f.code))).modThr tk
        (s.faultEnd tk f pc hpc hdr) := by
  rw [← State.faultEnd_aside, ← State.diverts_aside, ← State.threadRecord_aside, ← State.ctx_thr_aside]
  unfold State.takeFault State.faultEnd
  rw [← State.aside]
  dsimp only
  split <;> rfl

section
variable (s : State) (tk : Nat) (f : FI) (pc hpc hdr word : Word)

theorem State.thr_takeFault : (s.takeFault tk f pc hpc hdr word).thr tk =
    s.faultEnd tk f pc hpc hdr { (s.thr tk).bank with inGang := false } := by
  rw [State.takeFault_eq, State.thr_modThr, State.thr, State.threads_queueRecord, ← State.thr, State.thr_aside]

theorem State.thr_takeFault_ne {k : Nat} (h : k ≠ tk) : (s.takeFault tk f pc hpc hdr word).thr k = s.thr k := by
  rw [State.takeFault_eq, State.thr_modThr_ne _ _ h, State.thr, State.threads_queueRecord, ← State.thr, State.thr_aside_ne _ _ h]

/-- Neither end of a fault touches the registers of its thread, but that it banks their window. -/
theorem State.regs_takeFault : ((s.takeFault tk f pc hpc hdr word).thr tk).r = { (s.thr tk).r.bank with runG := 0, runP := 0 } := by
  rw [State.thr_takeFault, State.faultEnd]
  split <;> rfl

end

/-- What a fault leaves of contexts and memory is what its record leaves. -/
theorem State.ctxs_takeFault (s : State) (tk : Nat) (f : FI) (pc hpc hdr word : Word) :
    let q := (s.aside tk).queueRecord (pkgOfThr tk) (s.thr tk).ctx (s.threadRecord tk f pc hdr word (s.diverts tk f.code))
    let u := s.takeFault tk f pc hpc hdr word
    u.ctxs = q.ctxs ∧ u.mem = q.mem ∧ (∀ a, u.byte a = q.byte a) ∧ ∀ a n, u.read a n = q.read a n := by
  intro q u
  have hu : u = q.modThr tk (s.faultEnd tk f pc hpc hdr) := s.takeFault_eq tk f pc hpc hdr word
  rw [hu]
  exact ⟨rfl, rfl, fun a => State.byte_modThr .., fun a n => State.read_modThr ..⟩

/-- The record of a fault where the queue has room (R378). -/
theorem State.takeFault_of_room (s : State) (tk : Nat) (f : FI) (pc hpc hdr word : Word) :
    let u := s.takeFault tk f pc hpc hdr word
    let p := pkgOfThr tk
    let x := s.ctx p (s.thr tk).ctx
    let b := s.threadRecord tk f pc hdr word (s.diverts tk f.code)
    let at_ := x.fqbase.toNat + 0x80 + 64 * (x.prod % 2 ^ x.fqlog)
    x.held = [] → s.fqFull x = false →
    u.ctx p (s.thr tk).ctx = { x with prod := x.prod + 1 } ∧ u.bytes at_ 64 = b ∧ u.read x.fqbase.toNat 8 = (x.prod + 1) % 2 ^ 64
      ∧ ∀ a, (a < at_ ∨ at_ + 64 ≤ a) → (a < x.fqbase.toNat ∨ x.fqbase.toNat + 8 ≤ a) → u.byte a = s.byte a := by
  intro u p x b at_ hh hf
  obtain ⟨hctxs, -, hbyte, hread⟩ := s.ctxs_takeFault tk f pc hpc hdr word
  have hx : (s.aside tk).ctx p (s.thr tk).ctx = x := s.ctx_aside tk p (s.thr tk).ctx
  have hq : (s.aside tk).queueRecord p (s.thr tk).ctx b = (s.aside tk).writeRecord p (s.thr tk).ctx b :=
    State.queueRecord_of_room (by rw [hx]; exact hh) (by rw [hx, State.fqFull_aside]; exact hf)
  have hspec := State.writeRecord_spec (s := s.aside tk) (p := p) (c := (s.thr tk).ctx) (b := b) (length_recordBytes ..)
  rw [hx] at hspec
  obtain ⟨hb, hr, ho⟩ := hspec
  rw [hq] at hctxs hbyte hread
  refine ⟨?_, (List.map_congr_left fun k _ => hbyte _).trans hb, (hread ..).trans hr, fun a ha hx => (hbyte a).trans ?_⟩
  · rw [State.ctx, State.ctx?, hctxs, ← State.ctx?, ← State.ctx, State.ctx_writeRecord, hx]
  · exact (ho a ha hx).trans (s.byte_aside tk a)

/-- The record of a fault that is held (R378). -/
theorem State.takeFault_of_full (s : State) (tk : Nat) (f : FI) (pc hpc hdr word : Word) :
    let u := s.takeFault tk f pc hpc hdr word
    let p := pkgOfThr tk
    let x := s.ctx p (s.thr tk).ctx
    let b := s.threadRecord tk f pc hdr word (s.diverts tk f.code)
    x.held ≠ [] ∨ s.fqFull x = true → u.mem = s.mem ∧ u.ctx p (s.thr tk).ctx = { x with held := x.held ++ [⟨heldBytes b⟩] } := by
  intro u p x b hfull
  obtain ⟨hctxs, hmem, -, -⟩ := s.ctxs_takeFault tk f pc hpc hdr word
  have hx : (s.aside tk).ctx p (s.thr tk).ctx = x := s.ctx_aside tk p (s.thr tk).ctx
  have hq : (s.aside tk).queueRecord p (s.thr tk).ctx b = (s.aside tk).setCtx p (s.thr tk).ctx { x with held := x.held ++ [⟨heldBytes b⟩] } := by
    rw [← hx]
    exact State.queueRecord_of_full (by rw [hx, State.fqFull_aside]; exact hfull)
  rw [hq] at hctxs hmem
  refine ⟨hmem.trans (s.mem_aside tk), ?_⟩
  rw [State.ctx, State.ctx?, hctxs, ← State.ctx?, ← State.ctx, State.ctx_setCtx]

/-- The thread at the place that XRET goes back to (R391). -/
def Thread.returned (t : Thread) : Thread :=
  { t.endRun with inGang := false, pc := t.xpc, hpc := t.xhpc, hdr := t.xhdr, fresh := !t.xmid, mid := t.xmid, jump := none, seen := none,
                  ends := t.xends, xends := [], head := t.xhead && !t.xmid, xgo := false }

theorem State.thr_leaveClause_xret (s : State) (tk : Nat) (g : Gang) (hgo : (s.thr tk).xgo = true) (hends : (s.thr tk).ends = [])
    (hk : (s.thr tk).killing = false) (hs : (s.thr tk).stopping = false) : (s.leaveClause tk g).thr tk = (s.thr tk).returned := by
  unfold State.leaveClause
  rw [hends]
  dsimp only [List.foldl_nil]
  generalize hb : s.modThr tk _ = b
  have hthr : b.thr tk = (s.thr tk).returned := by
    rw [← hb, State.thr_modThr]
    exact if_pos hgo
  have hk' : (b.thr tk).killing = false := by rw [hthr]; exact hk
  have hs' : (b.thr tk).stopping = false := by rw [hthr]; exact hs
  exact (congrArg (State.thr · tk) ((if_neg (Bool.eq_false_iff.1 hk')).trans (if_neg (Bool.eq_false_iff.1 hs')))).trans hthr

/-- Settles O54: a fault is its record, in the queue or held, and the end that it makes of its thread's clause. -/
theorem exceptionEntry : Obligations.ExceptionEntry := by
  unfold Obligations.ExceptionEntry
  refine ⟨fun s tk f pc hpc hdr word => ?fault, fun s i tk f park hi hp => ?word, fun t => ?stopped, fun s tk g hgo hends hk hs => ?xret⟩
  case fault =>
    intro u t v p x y dv b at_
    have hv : v = s.faultEnd tk f pc hpc hdr { t.bank with inGang := false } := s.thr_takeFault tk f pc hpc hdr word
    have hr : v.r = { t.r.bank with runG := 0, runP := 0 } := s.regs_takeFault tk f pc hpc hdr word
    have hb : b.length = 64 := length_recordBytes ..
    obtain ⟨g, hg⟩ := t.r.bank_eq
    refine ⟨fun hd => ?_, fun hd => ?_, fun n => ?_, ?_, ?_, ?_, ?_, fun k hk => s.thr_takeFault_ne tk f pc hpc hdr word hk, hb,
      fun hh hf => ?_, fun hfull => ?_⟩
    · rw [State.faultEnd, if_pos (show s.diverts tk f.code = true from hd)] at hv
      rw [hv]
      exact ⟨rfl, rfl, rfl, rfl, rfl, rfl, rfl, rfl, rfl, rfl, rfl, rfl, rfl, rfl, rfl⟩
    · rw [State.faultEnd, if_neg (show ¬s.diverts tk f.code = true from Bool.eq_false_iff.1 hd)] at hv
      rw [hv]
      exact ⟨rfl, rfl, rfl, rfl, rfl, rfl, rfl, rfl, rfl, rfl⟩
    · rw [hr]
      exact t.r.newest_bank n
    · rw [hr, hg]
    · rw [hr, hg]
    · rw [hr, hg]
    · rw [hr, hg]
    · exact s.takeFault_of_room tk f pc hpc hdr word hh hf
    · exact s.takeFault_of_full tk f pc hpc hdr word hfull
  case word =>
    simp only [State.wordFault, hi, State.pairFault, hp]
  case stopped =>
    exact ⟨⟨rfl, rfl, rfl, rfl, rfl⟩, fun h => ⟨rfl, rfl, rfl, rfl, rfl, rfl⟩⟩
  case xret =>
    intro t v
    have hv : v = t.returned := s.thr_leaveClause_xret tk g hgo hends hk hs
    rw [hv]
    exact ⟨rfl, rfl, rfl, rfl, rfl, rfl, rfl, fun n => t.r.newest_bank n⟩

end Sys2Proof.Machine
end

section
/-! SUPPORT. Bring-up, heat, scrubbing, sparing, self-tests and the end of a pair's region (R397, R406, R412, R418 to R422, R428,
R429). -/

namespace Sys2Proof.Machine

/-! ### Bring-up (R421, R422) -/

/-- A package's image and records pass the checks of bring-up (R422). -/
def Pkg.Passes (k : Pkg) : Prop :=
  ∃ owner command, (k.conf.rec? 1).map CfgRec.body = some (.root owner command)
    ∧ Config.verify Config.rhavonKey (Config.sha3 k.conf.image) k.conf.imageSig = true
    ∧ ∀ r ∈ k.conf.recs, k.version r.body.ty ≤ r.version ∧ Config.verify owner (Config.sha3 r.block) r.sig = true

theorem Conf.keys_eq_some_iff {c : Conf} {o m : List Byte} : c.keys = some (o, m) ↔ (c.rec? 1).map CfgRec.body = some (.root o m) := by
  unfold Conf.keys
  split
  next h => simp [h]
  next h => exact ⟨fun hn => (nomatch hn), fun hr => absurd hr (h o m)⟩

theorem Pkg.verified_iff (k : Pkg) : k.verified = true ↔ k.Passes := by
  unfold Pkg.verified Pkg.Passes
  simp only [← Conf.keys_eq_some_iff]
  cases hk : k.conf.keys with
  | none => simp
  | some x =>
    simp only [Bool.and_eq_true, List.all_eq_true, decide_eq_true_eq, Option.some.injEq]
    constructor
    · rintro ⟨⟨hv, hi⟩, hs⟩
      exact ⟨x.1, x.2, rfl, hi, fun r hr => ⟨hv r hr, hs r hr⟩⟩
    · rintro ⟨o, m, rfl, hi, hr⟩
      exact ⟨⟨fun r h => (hr r h).1, hi⟩, fun r h => (hr r h).2⟩

section
variable {s b : State} {p : Nat} (hb : s.clearPackage p = b)
include hb

theorem State.resetPackage_of_passing (h : (b.pkg p).Passes) : s.resetPackage p = b.bringUp p := by
  unfold State.resetPackage
  rw [hb, if_pos ((Pkg.verified_iff _).2 h)]

theorem State.resetPackage_of_failing (h : ¬(b.pkg p).Passes) : s.resetPackage p = b.modPkg p fun k => { k with recovery := true } := by
  unfold State.resetPackage
  rw [hb, if_neg (h ∘ (Pkg.verified_iff _).1)]

end

theorem exec_packageReset (p : Nat) (s : State) : exec (.packageReset p) s = .next (if p < 16 then s.resetPackage p else s) := rfl

/-! ### Heat (R429) -/

/-- The clocks of the dies of a list go at full speed again. -/
def State.unhalve (s : State) (p : Nat) (l : List Nat) : State :=
  l.foldl (fun s i => s.modDie (dieKey p i) fun d => { d with halved := false }) s

theorem exec_thermalRecover (dk n : Nat) (s : State) :
    exec (.thermalRecover dk n) s = .next (if n < 950 then s.unhalve (pkgOfDie dk) (List.range 4) else s) := rfl

theorem State.unhalve_spec (s : State) (p : Nat) (l : List Nat) :
    (s.unhalve p l).threads = s.threads ∧ (s.unhalve p l).mem = s.mem
      ∧ (∀ i, (s.die (dieKey p i)).halved = false → ((s.unhalve p l).die (dieKey p i)).halved = false)
      ∧ ∀ i ∈ l, ((s.unhalve p l).die (dieKey p i)).halved = false := by
  induction l generalizing s with
  | nil => exact ⟨rfl, rfl, fun _ h => h, fun _ h => nomatch h⟩
  | cons j l ih =>
    obtain ⟨ht, hm, hkeep, hl⟩ := ih (s.modDie (dieKey p j) fun d => { d with halved := false })
    have hj : ((s.modDie (dieKey p j) fun d => { d with halved := false }).die (dieKey p j)).halved = false := by
      rw [State.die_modDie]
    refine ⟨ht, hm, fun i hi => hkeep i ?_, fun i hi => ?_⟩
    · by_cases hij : dieKey p i = dieKey p j
      · rw [hij]
        exact hj
      · rw [State.die_modDie_ne _ _ hij]
        exact hi
    · rcases List.mem_cons.1 hi with rfl | hi
      · exact hkeep _ hj
      · exact hl i hi

theorem exec_powerSample (p mW : Nat) (s : State) : exec (.powerSample p mW) s = .next (s.modPkg p fun k =>
    let l := (mW :: k.power).take powerSamples
    { k with power := l, clamp := if powerAbove l then min 2 (k.clamp + 1) else 0 }) := rfl

theorem powerAbove_iff (l : List Nat) : powerAbove l = true ↔ 100 * 2400000 < l.sum := decide_eq_true_iff

/-! ### Scrubbing and sparing (R412, R418) -/

/-- A line after some of its bits have come to be wrong: with the check line cached, those of the data alone stand (log 70). -/
def State.spoilt (s : State) (line : Nat) (err : BitVec 1088) : State :=
  let held := s.chkHeld line
  let b := s.setDir line { s.dir line with err := (s.dir line).err ^^^ if held then dataErr err else err }
  if held = true ∧ 1 < wrongBits (chkErr err) then b.chkRecompute line else b

section
variable {s : State} {line : Nat} {err : BitVec 1088}

theorem exec_memoryScrub_poisoned (hp : (s.dir line).psn = true) : exec (.memoryScrub line err) s = .next s := by
  change execMemoryScrub line err s = _
  simp only [execMemoryScrub, hp, if_true, ite_self]

variable (hh : lineHome line < 16) (hb : (s.pkg (lineHome line)).booted = true) (hm : backed (line * 128 % 2 ^ 48) = true)
  (ha : isAperture (line * 128) = false) (hp : (s.dir line).psn = false)
include hh hb hm ha hp

theorem exec_memoryScrub_read : exec (.memoryScrub line err) s = .next
    (let b := s.spoilt line err
     if (s.dir line).tx.isSome || (b.dir line).err = 0 then b
     else if b.correctable line then b.correctLine line
     else b.repairLine line none ((b.pkg (lineHome line)).dcache.contains line)) := by
  have hlegal : ¬(decide (16 ≤ lineHome line) || !(s.pkg (lineHome line)).booted || !backed (line * 128 % 2 ^ 48) || isAperture (line * 128)) = true := by
    rw [hb, hm, ha, decide_eq_false (Nat.not_le.2 hh)]
    decide
  have hpsn : ¬(s.dir line).psn = true := by rw [hp]; decide
  refine congrArg Host.Outcome.next ((if_neg hlegal).trans ((if_neg hpsn).trans ?_))
  simp only [State.spoilt, Bool.and_eq_true, decide_eq_true_eq]

end

section
variable {s : State} {p mc ch : Nat}

/-- The spares that a channel's stack has in use. -/
def sparesUsed (k : Pkg) (chan : Nat) : List Nat := (k.spared.filter fun e => e.1 / 128 == chan / 128).map (·.2)

/-- A channel has reached its threshold and stands on no spare (R418). -/
def State.SpareDue (s : State) (p mc ch : Nat) : Prop :=
  field (s.memThr p mc).toNat 47 32 ≤ s.chanFixed p (mc * 16 + ch) ∧ Tab.look (s.pkg p).spared (mc * 16 + ch) = none

theorem exec_channelSpared_full (h : ∀ n < 8, n ∈ sparesUsed (s.pkg p) (mc * 16 + ch)) : exec (.channelSpared p mc ch) s = .next s := by
  have hnone : ((List.range 8).find? fun n => !(sparesUsed (s.pkg p) (mc * 16 + ch)).contains n) = none :=
    List.find?_eq_none.2 fun n hn => by simpa using h n (List.mem_range.1 hn)
  change execChannelSpared p mc ch s = _
  unfold sparesUsed at hnone
  simp only [execChannelSpared, hnone]

theorem exec_channelSpared_early (h : ¬s.SpareDue p mc ch) : exec (.channelSpared p mc ch) s = .next s := by
  change execChannelSpared p mc ch s = _
  unfold execChannelSpared
  dsimp only
  refine congrArg Host.Outcome.next ?_
  split
  · rfl
  · refine if_pos ?_
    by_cases hl : Tab.look (s.pkg p).spared (mc * 16 + ch) = none
    · exact .inr (.inr (.inr (Nat.not_le.1 fun hle => h ⟨hle, hl⟩)))
    · exact .inr (.inr (.inl (Option.isSome_iff_ne_none.2 hl)))

theorem exec_channelSpared_first (hmc : mc < 96) (hch : ch < 16) (h : s.SpareDue p mc ch) {n : Nat} (hn : n < 8)
    (hfree : n ∉ sparesUsed (s.pkg p) (mc * 16 + ch)) (hfirst : ∀ m < n, m ∈ sparesUsed (s.pkg p) (mc * 16 + ch)) :
    exec (.channelSpared p mc ch) s = .next
      ((s.setPkg p { s.pkg p with spared := Tab.put (s.pkg p).spared (mc * 16 + ch) n }).errRecord p 4 0x17
        (unitId 7 p (mc / 24) (mc % 24) (ch * 256)) 0 0 [0, 0, n]) := by
  have hsome : ((List.range 8).find? fun n => !(sparesUsed (s.pkg p) (mc * 16 + ch)).contains n) = some n := by
    rw [List.find?_range_eq_some]
    exact ⟨by simpa using hfree, List.mem_range.2 hn, fun m hm => by simpa using hfirst m hm⟩
  change execChannelSpared p mc ch s = _
  unfold sparesUsed at hsome
  simp only [execChannelSpared, hsome]
  obtain ⟨hdue, hl⟩ := h
  rw [if_neg]
  rw [hl]
  simp only [Option.isSome_none, Bool.false_eq_true, false_or, not_or]
  exact ⟨Nat.not_le.2 hmc, Nat.not_le.2 hch, Nat.not_lt.2 hdue⟩

end

/-! ### Self-tests (R397, R419) -/

theorem exec_selftestResult_unknown {s : State} {p j : Nat} {sf af : Bool} {det : BitVec 64}
    (h : ((s.pkg p).tests.find? fun t => t.1 == j) = none) : exec (.selftestResult p j sf af det) s = .next s := by
  change execSelftestResult p j sf af det s = _
  simp only [execSelftestResult, h]

/-- The state that the result of a test of both kinds leaves, before the thread that waits for it is told. -/
def State.tested (s : State) (p j die phys : Nat) (fails : Bool) (det : BitVec 64) : State :=
  let b := s.modPkg p fun k => { k with tests := k.tests.filter fun t => t.1 != j }
  (b.modDie (dieKey p die) fun d =>
    { d with testing := d.testing.filter (· != phys),
             failed := if fails then phys :: d.failed.filter (· != phys) else d.failed.filter (· != phys),
             fencedAt := if fails then d.fencedAt else Tab.cut (Tab.cut d.fencedAt (2 * phys)) (2 * phys + 1) }).errRecord p 5 0x11
      (unitId 0 p die phys 0) 0 0 [if fails then 1 + det.toNat / 256 * 256 else 0]

theorem exec_selftestResult_scan {s : State} {p j die phys : Nat} {det : BitVec 64}
    (h : ((s.pkg p).tests.find? fun t => t.1 == j) = some (j, die, phys, 3)) (fails : Bool) :
    exec (.selftestResult p j fails false det) s = .next
      (match (s.tested p j die phys fails det).threads.find? fun e => e.2.opW == some (OpW.test (dieKey p die) phys) with
      | some (tk, _) => (s.tested p j die phys fails det).sysDone tk (if fails then 1 else 0)
      | none => s.tested p j die phys fails det) := by
  have hdet : field det.toNat 63 8 = det.toNat / 256 := by
    have := det.isLt
    simp only [field]
    omega
  change execSelftestResult p j fails false det s = _
  cases fails with
  | true =>
    simp only [execSelftestResult, h, hdet]
    rfl
  | false =>
    simp only [execSelftestResult, h]
    rfl

/-! ### The end of a region of a pair (R406) -/

section
variable {s : State} {tk : Nat}

theorem exec_regionCompare_single (h : (s.thr tk).pair = none) : exec (.regionCompare tk) s = .next s := by
  change execRegionCompare tk s = _
  simp only [execRegionCompare, h]

variable {pt pl : PairS} (ht : (s.thr tk).pair = some pt) (hl : (s.thr pt.partner).pair = some pl)
include ht hl

theorem exec_regionCompare_early (h : pt.trail = false ∨ (¬(s.faultsAlone tk = true ∨ s.faultsAlone pt.partner = true)
    ∧ (pt.ended ≤ pt.matched ∨ pl.ended ≤ pl.matched))) : exec (.regionCompare tk) s = .next s := by
  change execRegionCompare tk s = _
  simp only [execRegionCompare, ht, hl]
  rcases h with h | ⟨ha, he⟩
  · rw [h]
    rfl
  · have he' : (decide (pt.ended ≤ pt.matched) || decide (pl.ended ≤ pl.matched)) = true := by simpa using he
    have ha' : ¬(s.faultsAlone tk || s.faultsAlone pt.partner) = true := by simpa using ha
    rw [if_neg ha', if_pos he', ite_self]

variable (htr : pt.trail = true)
include htr

theorem exec_regionCompare_alone (h : s.faultsAlone tk = true ∨ s.faultsAlone pt.partner = true) :
    exec (.regionCompare tk) s = .next
      (s.pairMismatch pt.partner tk (regionSig pl.sig (s.thr tk).region) (regionSig pt.sig (s.thr tk).region)) := by
  change execRegionCompare tk s = _
  simp only [execRegionCompare, ht, hl, htr, Bool.not_true, Bool.false_eq_true, if_false]
  rw [if_pos (by simpa using h)]

theorem exec_regionCompare_ended (h : ¬(s.faultsAlone tk = true ∨ s.faultsAlone pt.partner = true)) (ht' : pt.matched < pt.ended)
    (hl' : pl.matched < pl.ended) (hc : s.regionCmds pt.partner tk (s.thr tk).region = []) :
    exec (.regionCompare tk) s = .next ((s.laterRegion pt.partner tk (s.thr tk).region).pairCompare tk) := by
  have he : ¬(decide (pt.ended ≤ pt.matched) || decide (pl.ended ≤ pl.matched)) = true := by simp [ht', hl']
  change execRegionCompare tk s = _
  simp only [execRegionCompare, ht, hl, htr, Bool.not_true, Bool.false_eq_true, if_false, hc, List.any_nil]
  rw [if_neg (by simpa using h), if_neg he]

end

/-- Settles O49: each event by the branch of its own definition that the package's state selects. -/
theorem packageEvents : Obligations.PackageEvents := by
  unfold Obligations.PackageEvents
  intro s
  refine ⟨fun p => ?reset, fun p mW => ?power, fun dk n => ?heat, fun line err => ?scrub, fun p mc ch hmc hch => ?spare,
    fun p j sf af det h => exec_selftestResult_unknown h, fun p j det die phys h => ?test, fun tk => ?compare⟩
  case reset =>
    generalize hb : s.clearPackage p = b
    intro b k passes
    refine ⟨fun hp => ?_, fun hp hpass => ?_, fun hp hfail => ?_⟩
    · rw [exec_packageReset, if_neg (Nat.not_lt.2 hp)]
    · rw [exec_packageReset, if_pos hp, State.resetPackage_of_passing hb hpass]
    · rw [exec_packageReset, if_pos hp, State.resetPackage_of_failing hb hfail]
  case power =>
    intro l
    have hclamp : (if powerAbove l then min 2 ((s.pkg p).clamp + 1) else 0) =
        if 100 * 2400000 < l.sum then min 2 ((s.pkg p).clamp + 1) else 0 := if_congr (powerAbove_iff l) rfl rfl
    rw [exec_powerSample, State.modPkg, State.modPkg, ← hclamp]
    rfl
  case heat =>
    refine ⟨rfl, fun hn => ?_, fun hn => ?_, rfl⟩
    · rw [exec_thermalRecover, if_neg (Nat.not_lt.2 hn)]
    · obtain ⟨ht, hm, -, hl⟩ := s.unhalve_spec (pkgOfDie dk) (List.range 4)
      exact ⟨s.unhalve (pkgOfDie dk) (List.range 4), by rw [exec_thermalRecover, if_pos hn], ht, hm,
        fun i hi => hl i (List.mem_range.2 hi)⟩
  case scrub =>
    intro h d held b b'
    refine ⟨fun hp => exec_memoryScrub_poisoned hp, fun hh hb hm ha hp => ?_⟩
    have hread : exec (.memoryScrub line err) s = .next
        (if d.tx.isSome || (b'.dir line).err = 0 then b'
         else if b'.correctable line then b'.correctLine line else b'.repairLine line none ((b'.pkg h).dcache.contains line)) :=
      exec_memoryScrub_read hh hb hm ha hp
    refine ⟨fun hq => hread.trans (congrArg Host.Outcome.next (if_pos (by simpa using hq))), fun ht he => ?_⟩
    have hgo := hread.trans (congrArg Host.Outcome.next (if_neg (by rw [ht, decide_eq_false he]; exact Bool.false_ne_true)))
    exact ⟨fun hc => hgo.trans (congrArg Host.Outcome.next (if_pos hc)),
      fun hc => hgo.trans (congrArg Host.Outcome.next (if_neg (Bool.eq_false_iff.1 hc)))⟩
  case spare =>
    intro k chan used due
    exact ⟨fun h => h.elim exec_channelSpared_early exec_channelSpared_full,
      fun n hdue hn hfree hfirst => exec_channelSpared_first hmc hch hdue hn hfree hfirst⟩
  case test =>
    intro dk b fails t
    exact exec_selftestResult_scan h fails
  case compare =>
    exact ⟨exec_regionCompare_single, fun pt pl ht hl => ⟨exec_regionCompare_early ht hl, exec_regionCompare_alone ht hl,
      exec_regionCompare_ended ht hl⟩⟩

end Sys2Proof.Machine
end

section
/-! SUPPORT. Links: what a port does with a flit that has come (R322 to R324), and with the control flit of a kind on its link
(`State.takeCtl`). -/

namespace Sys2Proof.Machine

/-! ### A flit that has come -/

/-- The CTL bit of a flit, as received. -/
def flitIsCtl (l : List Byte) : Bool := (ofLeBytes (l.take 4)).testBit 3

theorem State.flitSeen_bad {s : State} {p k u : Nat} {l : List Byte} {err : BitVec 1024}
    (h : (if flitIsCtl l then ctlOk l else flitOk l (s.port p k).expect) = false) :
    s.flitSeen p k u l err = (none, if flitIsCtl l then s.flitCounted p k err else s.flitFails p k err) := by
  unfold flitIsCtl at h
  unfold State.flitSeen flitIsCtl
  by_cases hc : (ofLeBytes (l.take 4)).testBit 3 = true
  · rw [if_pos hc] at h
    rw [if_pos hc, if_pos hc, h]
    rfl
  · rw [if_neg hc] at h
    rw [if_neg hc, if_neg hc, h]
    rfl

theorem State.flitSeen_data {s : State} {p k u : Nat} {l : List Byte} {err : BitVec 1024} (hc : flitIsCtl l = false)
    (h : flitOk l (s.port p k).expect = true) : s.flitSeen p k u l err = (none, s.flitIn p k u l) := by
  have hc' : (ofLeBytes (l.take 4)).testBit 3 = false := hc
  rw [State.flitSeen, if_neg (Bool.eq_false_iff.1 hc'), if_pos h]

theorem State.flitSeen_ctl {s : State} {p k u : Nat} {l : List Byte} {err : BitVec 1024} (hc : flitIsCtl l = true)
    (h : ctlOk l = true) :
    s.flitSeen p k u l err =
      (if field (ofLeBytes (l.take 4)) 7 4 = 0 then none else some (BitVec.ofNat 1024 (ofLeBytes l)), s) := by
  have hc' : (ofLeBytes (l.take 4)).testBit 3 = true := hc
  rw [State.flitSeen, if_pos hc', h]
  rfl

theorem State.flitIn_part {s : State} {p k u : Nat} {l : List Byte} (h : field (ofLeBytes (l.take 4)) 9 5 ≠ 0) :
    s.flitIn p k u l =
      (let w := (s.port p k).take s.clock l (ofLeBytes (l.take 4) % 8)
       let t := (s.setPort p k w).pump p k
       if (ofLeBytes (l.take 4)).testBit 4 then t.firstFlit p u (w.payload (ofLeBytes (l.take 4) % 8)) else t) := by
  have hn : (field (ofLeBytes (l.take 4)) 9 5 == 0) = false := beq_false_of_ne h
  simp only [State.flitIn, hn]
  rfl

theorem State.flitIn_last {s : State} {p k u : Nat} {l : List Byte} (h : field (ofLeBytes (l.take 4)) 9 5 = 0) :
    s.flitIn p k u l =
      (let w := (s.port p k).take s.clock l (ofLeBytes (l.take 4) % 8)
       ((s.setPort p k (w.setPayload (ofLeBytes (l.take 4) % 8) [])).pump p k).received p k u
         (w.payload (ofLeBytes (l.take 4) % 8))) := by
  have hn : (field (ofLeBytes (l.take 4)) 9 5 == 0) = true := beq_iff_eq.2 h
  simp only [State.flitIn, hn]
  rfl

/-! ### DATA_FLIT -/

/-- What an up port that is not isolated does with its next data flit. -/
def State.dataSeen (b : State) (p k q i u : Nat) (l : List Byte) (err : BitVec 1024) : State :=
  match b.flitSeen p k u l err with
  | (some c, s) => s.modPort q i fun v => { v with ctl := ⟨c, 0⟩ :: v.ctl }
  | (none, s) => s

theorem exec_dataFlit {s : State} {p k q i : Nat} {f : Flit} {rest : List Flit} {err : BitVec 1024}
    (hp : s.peer p k = some (q, i)) (hw : (s.port q i).wire = f :: rest) :
    exec (.dataFlit p k err) s = .next
      (let b := s.modPort q i fun v => { v with wire := rest }
       if (b.port p k).isolated then b.flitDropped p f
       else if !(b.port p k).up then b
       else b.dataSeen p k q i f.msg (flitBytes (f.bits ^^^ err)) err) := by
  change execDataFlit p k err s = _
  simp only [execDataFlit, hp, hw]
  rfl

theorem State.dataSeen_bad {b : State} {p k q i u : Nat} {l : List Byte} {err : BitVec 1024}
    (h : (if flitIsCtl l then ctlOk l else flitOk l (b.port p k).expect) = false) :
    b.dataSeen p k q i u l err = if flitIsCtl l then b.flitCounted p k err else b.flitFails p k err := by
  rw [State.dataSeen, State.flitSeen_bad h]

theorem State.dataSeen_data {b : State} {p k q i u : Nat} {l : List Byte} {err : BitVec 1024} (hc : flitIsCtl l = false)
    (h : flitOk l (b.port p k).expect = true) : b.dataSeen p k q i u l err = b.flitIn p k u l := by
  rw [State.dataSeen, State.flitSeen_data hc h]

theorem State.dataSeen_ctl {b : State} {p k q i u : Nat} {l : List Byte} {err : BitVec 1024} (hc : flitIsCtl l = true)
    (h : ctlOk l = true) :
    b.dataSeen p k q i u l err =
      if field (ofLeBytes (l.take 4)) 7 4 = 0 then b
      else b.modPort q i fun v => { v with ctl := ⟨BitVec.ofNat 1024 (ofLeBytes l), 0⟩ :: v.ctl } := by
  rw [State.dataSeen, State.flitSeen_ctl hc h]
  by_cases hk : field (ofLeBytes (l.take 4)) 7 4 = 0
  · rw [if_pos hk, if_pos hk]
  · rw [if_neg hk, if_neg hk]

/-! ### The next control flit of a kind -/

theorem State.takeCtl_of_down {s : State} {p k : Nat} (h : (s.port p k).up = false) (kind : Nat) (err : BitVec 1024) :
    s.takeCtl p k kind err = (none, s) := by
  unfold State.takeCtl
  cases s.peer p k with
  | none => rfl
  | some e => simp only [h, Bool.not_false, if_pos]

/-- The only control flit of a link, of the kind asked for, fails its check as what its CTL bit says it is. -/
theorem State.takeCtl_of_bad {s : State} {p k q i : Nat} {c : Ctl} {err : BitVec 1024} (hp : s.peer p k = some (q, i))
    (hup : (s.port p k).up = true) (hc : (s.port q i).ctl = [c])
    (hbad : (if flitIsCtl (flitBytes (c.bits ^^^ err)) then ctlOk (flitBytes (c.bits ^^^ err))
      else flitOk (flitBytes (c.bits ^^^ err)) ((s.modPort q i fun v => { v with ctl := [] }).port p k).expect) = false) :
    s.takeCtl p k c.kind err =
      (none, if flitIsCtl (flitBytes (c.bits ^^^ err)) then (s.modPort q i fun v => { v with ctl := [] }).flitCounted p k err
        else (s.modPort q i fun v => { v with ctl := [] }).flitFails p k err) := by
  have hfind : [c].find? (fun x => x.kind == c.kind) = some c := List.find?_cons_of_pos (beq_self_eq_true _)
  have hrest : (s.modPort q i fun v => { v with ctl := v.ctl.erase c }) = s.modPort q i fun v => { v with ctl := [] } := by
    rw [State.modPort, State.modPort, hc, List.erase_cons_head]
  simp only [State.takeCtl, hp, hup, hc, hfind, hrest, State.flitSeen_bad hbad]
  rfl

/-- The events of control flits other than a probe, with the kind of each. -/
def CtlEvent (p k : Nat) (err : BitVec 1024) (e : Nat × Instr) : Prop :=
  e = (1, .linkAck p k err) ∨ e = (2, .linkNak p k err) ∨ e = (3, .creditFlit p k err) ∨ e = (4, .lossNotice p k err)
    ∨ e = (6, .probeReply p k err)

theorem ctlEvent_or_probe {p k : Nat} {err : BitVec 1024} {e : Nat × Instr}
    (he : e ∈ [(1, Instr.linkAck p k err), (2, .linkNak p k err), (3, .creditFlit p k err), (4, .lossNotice p k err),
      (5, .probe p k err), (6, .probeReply p k err)]) : CtlEvent p k err e ∨ e = (5, .probe p k err) := by
  simp only [List.mem_cons, List.not_mem_nil, or_false] at he
  unfold CtlEvent
  tauto

theorem exec_linkAck_none {s b : State} {p k : Nat} {err : BitVec 1024} (h : s.takeCtl p k 1 err = (none, b)) :
    exec (.linkAck p k err) s = .next b := by
  change execLinkAck p k err s = _
  rw [execLinkAck, h]

theorem exec_linkNak_none {s b : State} {p k : Nat} {err : BitVec 1024} (h : s.takeCtl p k 2 err = (none, b)) :
    exec (.linkNak p k err) s = .next b := by
  change execLinkNak p k err s = _
  rw [execLinkNak, h]

theorem exec_creditFlit_none {s b : State} {p k : Nat} {err : BitVec 1024} (h : s.takeCtl p k 3 err = (none, b)) :
    exec (.creditFlit p k err) s = .next b := by
  change execCreditFlit p k err s = _
  rw [execCreditFlit, h]

theorem exec_lossNotice_none {s b : State} {p k : Nat} {err : BitVec 1024} (h : s.takeCtl p k 4 err = (none, b)) :
    exec (.lossNotice p k err) s = .next b := by
  change execLossNotice p k err s = _
  rw [execLossNotice, h]

theorem exec_probeReply_none {s b : State} {p k : Nat} {err : BitVec 1024} (h : s.takeCtl p k 6 err = (none, b)) :
    exec (.probeReply p k err) s = .next b := by
  change execProbeReply p k err s = _
  rw [execProbeReply, h]

/-- Without a good flit of its kind, every event of a control flit but a probe leaves the state that the link is in. -/
theorem exec_ctlEvent_none {s b : State} {p k : Nat} {err : BitVec 1024} {e : Nat × Instr} (he : CtlEvent p k err e)
    (h : s.takeCtl p k e.1 err = (none, b)) : exec e.2 s = .next b := by
  obtain rfl | rfl | rfl | rfl | rfl := he
  · exact exec_linkAck_none h
  · exact exec_linkNak_none h
  · exact exec_creditFlit_none h
  · exact exec_lossNotice_none h
  · exact exec_probeReply_none h

theorem exec_probe_down {s : State} {p k : Nat} (h : (s.port p k).up = false) (err : BitVec 1024) :
    exec (.probe p k err) s = .next s := by
  change execProbe p k err s = _
  simp only [execProbe, State.takeCtl_of_down h]
  cases s.peer p k with
  | none => rfl
  | some e => simp only [h, Bool.not_false, if_pos]

/-! ### Good control flits -/

theorem exec_linkAck_some {s b : State} {p k : Nat} {err : BitVec 1024} {c : Ctl} (h : s.takeCtl p k 1 err = (some c, b)) :
    exec (.linkAck p k err) s = .next
      ((List.range 16).foldl (fun s r => s.routeWaiting r) ((b.modPort p k fun v => v.ackTo c.seq b.clock).pump p k)) := by
  change execLinkAck p k err s = _
  rw [execLinkAck, h]

theorem exec_linkNak_some {s b : State} {p k : Nat} {err : BitVec 1024} {c : Ctl} (h : s.takeCtl p k 2 err = (some c, b)) :
    exec (.linkNak p k err) s = .next ((b.modPort p k fun v => v.ackTo c.seq b.clock).goBack p k) := by
  change execLinkNak p k err s = _
  rw [execLinkNak, h]

theorem exec_creditFlit_some {s b : State} {p k : Nat} {err : BitVec 1024} {c : Ctl}
    (h : s.takeCtl p k 3 err = (some c, b)) :
    exec (.creditFlit p k err) s = .next ((b.modPort p k fun v =>
      (List.range 8).foldl (fun v i => v.addCredit i (c.pay / 2 ^ (16 * i) % 65536)) v).pump p k) := by
  change execCreditFlit p k err s = _
  rw [execCreditFlit, h]

theorem exec_lossNotice_some {s b : State} {p k : Nat} {err : BitVec 1024} {c : Ctl}
    (h : s.takeCtl p k 4 err = (some c, b)) : exec (.lossNotice p k err) s = .next (b.acceptLoss p (c.pay % 256)) := by
  change execLossNotice p k err s = _
  rw [execLossNotice, h]

theorem exec_probe_some {s b : State} {p k : Nat} {err : BitVec 1024} {c : Ctl} (h : s.takeCtl p k 5 err = (some c, b)) :
    exec (.probe p k err) s = .next
      (if c.far = p then b.modPort p k fun v => v.ctlOut 6 0 (c.pay % 256) c.far else b.probeOn p c.far 5 c) := by
  change execProbe p k err s = _
  rw [execProbe, h]

theorem exec_probe_none {s b : State} {p k r i : Nat} {err : BitVec 1024} (h : s.takeCtl p k 5 err = (none, b))
    (hp : b.peer p k = some (r, i)) (hup : (b.port p k).up = true) :
    exec (.probe p k err) s = .next
      (let t := b.modPort p k fun v => { v with probeT := b.clock }
       (t.probed p r).foldl (fun s q => s.modPort p k fun v => v.ctlOut 5 0 p q) t) := by
  change execProbe p k err s = _
  simp only [execProbe, h, hp, hup]
  rfl

theorem exec_probeReply_some {s b : State} {p k : Nat} {err : BitVec 1024} {c : Ctl}
    (h : s.takeCtl p k 6 err = (some c, b)) :
    exec (.probeReply p k err) s = .next
      (if c.pay % 16 = p then
        (if (b.path p c.far).silent.isSome then b.setPath p c.far { (b.path p c.far) with silent := some b.clock } else b)
      else b.probeOn p (c.pay % 16) 6 c) := by
  change execProbeReply p k err s = _
  rw [execProbeReply, h]
  refine congrArg Host.Outcome.next ?_
  by_cases hp : c.pay % 16 = p
  · subst hp
    rfl
  · rw [if_neg hp]
    exact if_neg hp

/-! ### Timers, lanes and ports -/

theorem exec_ackTimer (s : State) (p k : Nat) :
    exec (.ackTimer p k) s = .next
      (if ((s.port p k).up && decide ((s.port p k).ackT + 256 ≤ s.clock)) = true
        then s.setPort p k ((s.port p k).ackOut s.clock) else s) := rfl

theorem exec_retryTimeout (s : State) (p k : Nat) :
    exec (.retryTimeout p k) s = .next
      (if ((s.port p k).up && !(s.port p k).retry.isEmpty && decide ((s.port p k).oldest + 2048 ≤ s.clock)) = true
        then s.goBack p k else s) := rfl

theorem exec_laneSpare (s : State) (p k l : Nat) :
    exec (.laneSpare p k l) s = .next (if (s.port p k).up = true then s.spareLane p k l else s) := rfl

theorem exec_portDown (s : State) (p k : Nat) :
    exec (.portDown p k) s = .next (if (s.port p k).up = true then s.linkDown p k else s) := rfl

theorem exec_portUp {s : State} {p k q i : Nat} (h : s.peer p k = some (q, i)) :
    exec (.portUp p k) s = .next (if (!(s.pkg p).booted || !(s.pkg q).booted) = true then s else s.linkUp p k) := by
  change execPortUp p k s = _
  simp only [execPortUp, h]

theorem exec_lossDeclare (s : State) (p q : Nat) :
    exec (.lossDeclare p q) s = .next
      (match (s.path p q).silent with
      | some t => if (s.pkg p).booted ∧ s.direct p q = false ∧ t + 100 * cyclesPerUs ≤ s.clock then s.acceptLoss p (s.cellOf q) else s
      | none => s) := by
  change execLossDeclare p q s = _
  unfold execLossDeclare
  cases (s.path p q).silent with
  | none => rfl
  | some t =>
    refine congrArg Host.Outcome.next (if_congr ?_ rfl rfl)
    rw [Bool.and_eq_true, Bool.and_eq_true, Bool.not_eq_true', decide_eq_true_eq, and_assoc]

/-- Settles O48: `takeCtl` and `flitSeen` say once what becomes of a flit, and each event is its case of them. -/
theorem linkEvents : Obligations.LinkEvents := by
  unfold Obligations.LinkEvents
  intro s p k v ctl
  have hctl {err e} (he : e ∈ ctl err) (h5 : e.1 ≠ 5) : CtlEvent p k err e :=
    (ctlEvent_or_probe he).resolve_right fun h => h5 (congrArg Prod.fst h)
  refine ⟨fun hup => ?down, fun err b e he h5 h => exec_ctlEvent_none (hctl he h5) h, ?bad, ?data,
    fun err c b h => exec_linkAck_some h, fun err c b h => exec_linkNak_some h, fun err c b h => exec_creditFlit_some h,
    fun hup => ?ack, fun hup hr => ?retry, fun hup => ?lanes, fun q i hp => ?portUp, fun l hor ver => rfl, rfl,
    fun err c b h => exec_probe_some h, fun err b r i h hp hup => exec_probe_none h hp hup, fun err c b h => ?reply,
    fun err c b h => exec_lossNotice_some h, exec_lossDeclare s p⟩
  case down =>
    have hno : ¬ (s.port p k).up = true := Bool.eq_false_iff.1 hup
    refine ⟨fun err e he => ?_, ?_, ?_, ?_, fun l => ?_⟩
    · obtain h | rfl := ctlEvent_or_probe he
      · exact exec_ctlEvent_none h (State.takeCtl_of_down hup e.1 err)
      · exact exec_probe_down hup err
    · rw [exec_ackTimer, hup, Bool.false_and, if_neg Bool.false_ne_true]
    · rw [exec_retryTimeout, hup, Bool.false_and, Bool.false_and, if_neg Bool.false_ne_true]
    · rw [exec_portDown, if_neg hno]
    · rw [exec_laneSpare, if_neg hno]
  case bad =>
    intro q i c err hp hup hc l b hbad e he hk h5
    have ht := State.takeCtl_of_bad hp hup hc hbad
    rw [← hk] at ht
    rw [exec_ctlEvent_none (hctl he h5) ht]
    refine congrArg Host.Outcome.next ?_
    change (if flitIsCtl l = true then b.flitCounted p k err else b.flitFails p k err) =
      (if flitIsCtl l = true then b else _ : State).flitCounted p k err
    by_cases hc : flitIsCtl l = true
    · rw [if_pos hc, if_pos hc]
    · rw [if_neg hc, if_neg hc]
      rfl
  case data =>
    intro q i f rest err hp hw b l hdr w all
    have hx := exec_dataFlit (err := err) hp hw
    refine ⟨fun hi => hx.trans (congrArg Host.Outcome.next (if_pos hi)), fun hi hup => ?_, fun hi hup => ?_⟩
    · exact hx.trans (congrArg Host.Outcome.next ((if_neg (Bool.eq_false_iff.1 hi)).trans (if_pos (by rw [hup]; rfl))))
    have hseen : exec (.dataFlit p k err) s = .next (b.dataSeen p k q i f.msg l err) :=
      hx.trans (congrArg Host.Outcome.next ((if_neg (Bool.eq_false_iff.1 hi)).trans (if_neg (by rw [hup]; exact Bool.false_ne_true))))
    refine ⟨fun hc => ⟨fun hb => ?_, fun hg => ⟨fun hl => ?_, fun hl => ?_⟩⟩, fun hc => ⟨fun hb => ?_, fun hg => ?_⟩⟩
    · have hc' : ¬ flitIsCtl l = true := Bool.eq_false_iff.1 hc
      rw [hseen, State.dataSeen_bad (by rw [if_neg hc', hb]), if_neg hc']
      rfl
    · rw [hseen, State.dataSeen_data hc hg, State.flitIn_part hl]
    · rw [hseen, State.dataSeen_data hc hg, State.flitIn_last hl]
    · have hc' : flitIsCtl l = true := hc
      rw [hseen, State.dataSeen_bad (by rw [if_pos hc', hb]), if_pos hc']
    · rw [hseen, State.dataSeen_ctl hc hg]
  case ack =>
    rw [exec_ackTimer, hup, Bool.true_and]
    exact congrArg Host.Outcome.next (if_congr decide_eq_true_iff rfl rfl)
  case retry =>
    have hne : (s.port p k).retry.isEmpty = false := by rw [List.isEmpty_eq_false_iff]; exact hr
    rw [exec_retryTimeout, hup, hne, Bool.not_false, Bool.true_and, Bool.true_and]
    exact congrArg Host.Outcome.next (if_congr decide_eq_true_iff rfl rfl)
  case lanes =>
    exact ⟨fun l => by rw [exec_laneSpare, if_pos hup], by rw [exec_portDown, if_pos hup]⟩
  case portUp =>
    refine ⟨fun h => ?_, fun ha hb => ?_⟩
    · rw [exec_portUp hp, if_pos (by obtain h | h := h <;> simp [h])]
    · rw [exec_portUp hp, ha, hb]
      rfl
  case reply =>
    refine ⟨fun hn => ?_, fun hy => ?_⟩
    · rw [exec_probeReply_some h, if_neg hn]
    · rw [exec_probeReply_some h, if_pos hy]

end Sys2Proof.Machine
end

section
/-! SUPPORT. A package as the agent of its lines: what its messages from homes, its Acks and its Data come to (R327, R336, R337,
R345), evictions (R336, R414, R415) and request timers (R343). -/

namespace Sys2Proof.Machine

/-! ### Messages of a home -/

section
variable {s : State} {p j : Nat} {ty : MsgTy} {m : Msg} {f : State → Msg → ALine → State}

theorem onHome_none (h : s.arrived p j ty = none) : onHome ty p j s f = .next s := by rw [onHome, h]

theorem onHome_bad (h : s.arrived p j ty = some m) (hb : m.bad = true) : onHome ty p j s f = .next (s.askAgain p m) := by
  simp only [onHome, h, hb, if_true]

theorem onHome_pinned (h : s.arrived p j ty = some m) (hb : m.bad = false) (hp : s.pinned p m.line = true) :
    onHome ty p j s f = .next s := by
  simp only [onHome, h, hb, hp, if_true, Bool.false_eq_true, if_false]

theorem onHome_good (h : s.arrived p j ty = some m) (hb : m.bad = false) (hp : s.pinned p m.line = false) :
    onHome ty p j s f = .next (f (s.dropMsg j) m ((s.dropMsg j).aline p m.line)) := by
  simp only [onHome, h, hb, hp, Bool.false_eq_true, if_false]

end

/-- An event is one of a message of a home: it first looks at the message of its type. -/
def HomeEvent (p j : Nat) (e : MsgTy × Instr) : Prop := ∃ f, ∀ s, exec e.2 s = onHome e.1 p j s f

theorem homeEvent_of_mem {p j : Nat} {e : MsgTy × Instr}
    (he : e ∈ [(MsgTy.inv, Instr.inv p j), (.fwdGetS, .fwdgets p j), (.fwdGetM, .fwdgetm p j), (.collect, .collect p j),
      (.nak, .nakfirewall p j), (.err, .errsynth p j)]) : HomeEvent p j e := by
  simp only [List.mem_cons, List.not_mem_nil, or_false] at he
  obtain rfl | rfl | rfl | rfl | rfl | rfl := he
  · exact ⟨_, fun s => show execInv p j s = _ from rfl⟩
  · exact ⟨_, fun s => show execFwdgets p j s = _ from rfl⟩
  · exact ⟨_, fun s => show execFwdgetm p j s = _ from rfl⟩
  · exact ⟨_, fun s => show execCollect p j s = _ from rfl⟩
  · exact ⟨_, fun s => show execNakfirewall p j s = _ from rfl⟩
  · exact ⟨_, fun s => show execErrsynth p j s = _ from rfl⟩

/-- What an agent's answers speak of: a message that is good, of a line that no store holds. -/
structure Asked (s : State) (p j : Nat) (ty : MsgTy) (m : Msg) : Prop where
  came : s.arrived p j ty = some m
  good : m.bad = false
  loose : s.pinned p m.line = false

theorem Asked.onHome {s : State} {p j : Nat} {ty : MsgTy} {m : Msg} (h : Asked s p j ty m) (f : State → Msg → ALine → State) :
    onHome ty p j s f = .next (f (s.dropMsg j) m ((s.dropMsg j).aline p m.line)) := onHome_good h.came h.good h.loose

section
variable {s : State} {p j : Nat} {m : Msg}

theorem exec_inv_held (h : Asked s p j .inv m)
    (ha : ((s.dropMsg j).aline p m.line).st = .S ∨ ((s.dropMsg j).aline p m.line).st = .E) :
    exec (.inv p j) s = .next (((s.dropMsg j).giveUp p m.line ((s.dropMsg j).aline p m.line)).sendAck p m.src m.line ackAnswer 0) := by
  change execInv p j s = _
  rw [execInv, h.onHome]
  refine congrArg Host.Outcome.next ?_
  obtain ha | ha := ha <;> rw [ha]

theorem exec_inv_none (h : Asked s p j .inv m) (hS : ((s.dropMsg j).aline p m.line).st ≠ .S)
    (hE : ((s.dropMsg j).aline p m.line).st ≠ .E) :
    exec (.inv p j) s = .next ((s.dropMsg j).sendAck p m.src m.line ackAnswer 1) := by
  change execInv p j s = _
  rw [execInv, h.onHome]
  refine congrArg Host.Outcome.next ?_
  split
  case h_1 hst => exact absurd hst hS
  case h_2 hst => exact absurd hst hE
  case h_3 => rfl

/-- FwdGetS of a line of which the package has no whole copy of its own. -/
theorem exec_fwdgets_none (h : Asked s p j .fwdGetS m) {has : LineSt} (hh : ((s.dropMsg j).aline p m.line).holds = has)
    (hn : has = .I ∨ has = .S ∨ has = .U) :
    exec (.fwdgets p j) s = .next ((s.dropMsg j).sendAck p m.src m.line ackAnswer 1) := by
  change execFwdgets p j s = _
  rw [execFwdgets, h.onHome]
  refine congrArg Host.Outcome.next ?_
  obtain rfl | rfl | rfl := hn <;> rw [hh]

theorem exec_fwdgets_clean (h : Asked s p j .fwdGetS m) (hh : ((s.dropMsg j).aline p m.line).holds = .E) (hk : m.kind ≠ 1) :
    exec (.fwdgets p j) s = .next
      ((((s.dropMsg j).setALine p m.line (((s.dropMsg j).aline p m.line).become .S)).sendData p m.req m.line 4
        ((s.dropMsg j).aline p m.line).psn 0).sendAck p m.src m.line ackAnswer 2) := by
  change execFwdgets p j s = _
  rw [execFwdgets, h.onHome]
  refine congrArg Host.Outcome.next ?_
  simp only [hh, beq_false_of_ne hk]
  rfl

theorem exec_fwdgets_dirty (h : Asked s p j .fwdGetS m)
    (hh : ((s.dropMsg j).aline p m.line).holds = .M ∨ ((s.dropMsg j).aline p m.line).holds = .O) (hk : m.kind ≠ 1) :
    exec (.fwdgets p j) s = .next
      ((((s.dropMsg j).setALine p m.line (((s.dropMsg j).aline p m.line).become .O)).sendData p m.req m.line 4
        ((s.dropMsg j).aline p m.line).psn 0).sendAck p m.src m.line ackAnswer 3) := by
  change execFwdgets p j s = _
  rw [execFwdgets, h.onHome]
  refine congrArg Host.Outcome.next ?_
  obtain hh | hh := hh <;> simp only [hh, beq_false_of_ne hk] <;> rfl

theorem exec_fwdgets_home (h : Asked s p j .fwdGetS m) {has : LineSt} (hh : ((s.dropMsg j).aline p m.line).holds = has)
    (hn : has = .E ∨ has = .M ∨ has = .O) (hk : m.kind = 1) :
    exec (.fwdgets p j) s = .next
      (((s.dropMsg j).setALine p m.line (((s.dropMsg j).aline p m.line).become .S)).lineToHome p m.line
        ((s.dropMsg j).aline p m.line).psn none) := by
  change execFwdgets p j s = _
  rw [execFwdgets, h.onHome]
  refine congrArg Host.Outcome.next ?_
  obtain rfl | rfl | rfl := hn <;> simp only [hh, hk] <;> rfl

theorem exec_fwdgetm_none (h : Asked s p j .fwdGetM m) {has : LineSt} (hh : ((s.dropMsg j).aline p m.line).holds = has)
    (hn : has = .I ∨ has = .S ∨ has = .U) :
    exec (.fwdgetm p j) s = .next ((s.dropMsg j).sendAck p m.src m.line ackAnswer 1) := by
  change execFwdgetm p j s = _
  rw [execFwdgetm, h.onHome]
  refine congrArg Host.Outcome.next ?_
  obtain rfl | rfl | rfl := hn <;> rw [hh]

theorem exec_fwdgetm_held (h : Asked s p j .fwdGetM m) {has : LineSt} (hh : ((s.dropMsg j).aline p m.line).holds = has)
    (hn : has = .E ∨ has = .M ∨ has = .O) :
    exec (.fwdgetm p j) s = .next
      (let a := (s.dropMsg j).aline p m.line
       let t := (s.dropMsg j).giveUp p m.line a
       if m.kind = 1 then t.lineToHome p m.line a.psn none else t.sendData p m.req m.line 6 a.psn 0) := by
  change execFwdgetm p j s = _
  rw [execFwdgetm, h.onHome]
  refine congrArg Host.Outcome.next ?_
  obtain rfl | rfl | rfl := hn <;> simp only [hh]

theorem exec_collect_none (h : Asked s p j .collect m) (hn : ((s.dropMsg j).aline p m.line).holds ≠ .U) :
    exec (.collect p j) s = .next ((s.dropMsg j).sendAck p m.src m.line ackAnswer 1) := by
  change execCollect p j s = _
  rw [execCollect, h.onHome]
  refine congrArg Host.Outcome.next ?_
  split
  case h_1 hst _ => exact absurd hst hn
  case h_2 => rfl

theorem exec_collect_part (h : Asked s p j .collect m) {q : Part} (hu : ((s.dropMsg j).aline p m.line).holds = .U)
    (hq : (if ((s.dropMsg j).aline p m.line).put.isSome then ((s.dropMsg j).aline p m.line).putPart
      else ((s.dropMsg j).aline p m.line).part) = some q) :
    exec (.collect p j) s = .next
      (((s.dropMsg j).giveUp p m.line ((s.dropMsg j).aline p m.line)).lineToHome p m.line false (some q)) := by
  change execCollect p j s = _
  rw [execCollect, h.onHome]
  refine congrArg Host.Outcome.next ?_
  rw [hu, hq]

end

/-! ### Acks -/

section
variable {s : State} {p j : Nat} {m : Msg}

theorem exec_ack_none (h : s.arrived p j .ack = none) : exec (.ack p j) s = .next s := by
  change execAck p j s = _
  rw [execAck, h]

theorem exec_ack_bad (h : s.arrived p j .ack = some m) (hb : m.bad = true) : exec (.ack p j) s = .next (s.askAgain p m) := by
  change execAck p j s = _
  simp only [execAck, h, hb, if_true]

theorem exec_ack_good (h : s.arrived p j .ack = some m) (hb : m.bad = false) :
    exec (.ack p j) s = .next ((s.dropMsg j).takeAck p m) := by
  change execAck p j s = _
  simp only [execAck, h, hb, Bool.false_eq_true, if_false]

end

section
variable {b : State} {p : Nat} {m : Msg}

theorem State.takeAck_again (h : m.status = 9 ∨ m.status = 10) : b.takeAck p m = b.resend m.txid := if_pos h

theorem State.takeAck_answer (h9 : m.status ≠ 9) (h10 : m.status ≠ 10) (hk : m.kind = ackAnswer) :
    b.takeAck p m = b.answered m.line m.src fun t =>
      { t with held := t.held || m.status == 2 || m.status == 3, dirty := t.dirty || m.status == 3 } := by
  rw [State.takeAck, if_neg (not_or.2 ⟨h9, h10⟩), if_pos hk]

theorem State.takeAck_data (h9 : m.status ≠ 9) (h10 : m.status ≠ 10) (hk : m.kind = ackData) {t : Tx} {r : Msg}
    (ht : (b.dir m.line).tx = some t) (hr : t.k = .req r) :
    b.takeAck p m = if r.src = m.src then (b.modTx m.line fun t => { t with got := true }).advance m.line else b := by
  rw [State.takeAck, if_neg (not_or.2 ⟨h9, h10⟩), if_neg (by rw [hk]; decide), if_pos hk]
  simp only [ht, hr]

theorem State.takeAck_put (h9 : m.status ≠ 9) (h10 : m.status ≠ 10) (hk : m.kind = ackPut) :
    b.takeAck p m = (b.putEnds p m.line).endFor m.line p := by
  rw [State.takeAck, if_neg (not_or.2 ⟨h9, h10⟩), if_neg (by rw [hk]; decide), if_neg (by rw [hk]; decide), if_pos hk]

theorem State.takeAck_flush (h9 : m.status ≠ 9) (h10 : m.status ≠ 10) (hk : m.kind = ackFlush) :
    b.takeAck p m = (b.flushEnds p m.line).endFor m.line p := by
  rw [State.takeAck, if_neg (not_or.2 ⟨h9, h10⟩), if_neg (by rw [hk]; decide), if_neg (by rw [hk]; decide),
    if_neg (by rw [hk]; decide), if_pos hk]

theorem State.takeAck_grant (h9 : m.status ≠ 9) (h10 : m.status ≠ 10) (hk : m.kind = ackGrant) :
    b.takeAck p m = (((b.modALine p m.line fun a =>
      { a with st := if m.status = 6 then .M else .U, part := if m.status = 6 then none else some (Part.new (bindOf m.bind)) }).requestEnds
        p m.line).endFor m.line p) := by
  rw [State.takeAck, if_neg (not_or.2 ⟨h9, h10⟩), if_neg (by rw [hk]; decide), if_neg (by rw [hk]; decide),
    if_neg (by rw [hk]; decide), if_neg (by rw [hk]; decide)]

end

/-! ### Data -/

theorem State.arrived_u {s : State} {p j : Nat} {ty : MsgTy} {m : Msg} (h : s.arrived p j ty = some m) : m.u = j := by
  have hm := List.find?_some h
  simp only [Bool.and_eq_true, beq_iff_eq] at hm
  exact hm.1.1.1

section
variable {s : State} {p j : Nat} {m : Msg}

theorem exec_data_none (h : s.arrived p j .data = none) : exec (.data p j) s = .next s := by
  change execData p j s = _
  rw [execData, h]

theorem exec_data_home (h : s.arrived p j .data = some m) (h0 : m.seq = 0) : exec (.data p j) s = .next (s.dataHome m) := by
  change execData p j s = _
  simp only [execData, h, h0, if_true]

theorem exec_data_grant (h : s.arrived p j .data = some m) (h0 : m.seq ≠ 0) :
    exec (.data p j) s = .next (s.dataGrant p m) := by
  change execData p j s = _
  simp only [execData, h, if_neg h0]

theorem State.homeClean_of_new (h : m.released = false) : s.homeClean m = s := by
  rw [State.homeClean, h]
  rfl

theorem State.dataHome_line (hb : m.bad = false) (hr : m.released = false) (hq : m.part = none) :
    s.dataHome m = ((s.dropMsg m.u).takePoison m).answered m.line m.src fun t => { t with held := true } := by
  simp only [State.dataHome, hb, Bool.false_eq_true, if_false, State.homeClean_of_new hr, hq]

theorem State.dataHome_part (hb : m.bad = false) (hr : m.released = false) {q : Part} {t : Tx} (hq : m.part = some q)
    (ht : ((s.dropMsg m.u).dir m.line).tx = some t) (hk : ∀ r, t.k ≠ .repair r) :
    s.dataHome m = (((((s.dropMsg m.u).combineLine m.line q).chkHold m.line).homeHold m.line true).answered m.line m.src fun t =>
      { t with held := true, part := true }) := by
  simp only [State.dataHome, hb, Bool.false_eq_true, if_false, State.homeClean_of_new hr, hq, ht]

/-- The end of a request that Data answers. -/
def State.dataDone (s : State) (p : Nat) (m : Msg) : State :=
  ((s.dropMsg m.u).requestEnds p m.line).sendAck p (lineHome m.line) m.line ackData 0

theorem State.abandon_none (h : (s.aline p m.line).unver = none) : s.abandon p m = s := by rw [State.abandon, h]

theorem State.abandon_same (h : (s.aline p m.line).unver = some m.org) : s.abandon p m = s := by
  rw [State.abandon, h]
  exact if_pos rfl

theorem State.dataGrant_asked (hr : (s.aline p m.line).req.isSome = true) (hu : (s.aline p m.line).unver = none) :
    s.dataGrant p m =
      if m.src = p then (s.install p m none).dataDone p m
      else if m.released = true then
        if m.bad = true then s.askAgain p m
        else (s.modALine p m.line fun a => { a with psn := m.status == 8 }).dataDone p m
      else s.install p m (some m.org) := by
  have hreq : (s.aline p m.line).req.isNone = false := by
    rw [Option.isNone_eq_false_iff]
    exact hr
  simp only [State.dataGrant, State.abandon_none hu, hreq, hu, Bool.false_eq_true, false_and, if_false, reduceCtorEq]
  rfl

theorem State.dataGrant_awaited (hp : m.src ≠ p) (hu : (s.aline p m.line).unver = some m.org) :
    s.dataGrant p m =
      (let t := ((s.setALine p m.line { (s.aline p m.line) with unver := none, upto := 128, rel := [] }).prefDone p m.line).verdict p
         m.org (!m.bad)
       if m.bad = true then (t.modALine p m.line fun a => { a with psn := true }).askAgain p { m with released := true }
       else t.dataDone p m) := by
  simp only [State.dataGrant, State.abandon_same hu, hu, ne_eq, not_true_eq_false, and_false, if_false, hp, if_true]
  rfl

end

/-! ### Evictions -/

/-- Nothing holds a line back from being evicted. -/
def State.evictable (s : State) (p line : Nat) : Prop :=
  (s.aline p line).put = none ∧ (s.aline p line).flushing = none ∧ (s.aline p line).req = none ∧ (s.aline p line).unver = none
    ∧ s.pinned p line = false

/-- What an eviction does with a line by its state, once nothing holds it back. -/
def State.evicted (s : State) (p line : Nat) : State :=
  let a := s.aline p line
  let b := s.dropL1 p line
  let put (ty : MsgTy) (st : LineSt) : State :=
    (b.setALine p line { a with st := .I, put := some st, putBy := none }).sendMsg ty p (lineHome line) p line
      (status := if a.psn then 8 else 0) (carries := true)
  match a.st with
  | .I => b
  | .S | .E => b.setALine p line { a with st := .I, psn := false, putBy := none }
  | .M => put .putM .M
  | .O => put .putO .O
  | .U =>
    (b.setALine p line { a with st := .I, put := some .U, part := none, putPart := a.part, putBy := none }).sendMsg .putU p
      (lineHome line) p line (carries := true) (part := a.part) (bind := (a.part.map fun q => q.bind.code).getD 0)

theorem State.evictLine_held {s : State} {p line : Nat} (h : ¬ s.evictable p line) (n : Nat) : s.evictLine p line n = s := by
  refine if_pos ?_
  by_contra hn
  refine h ?_
  simpa [State.evictable, and_assoc] using hn

theorem State.evictLine_free {s : State} {p line : Nat} (h : s.evictable p line) :
    s.evictLine p line (if (s.aline p line).psn then 8 else 0) = s.evicted p line := by
  obtain ⟨hput, hflush, hreq, hunver, hpin⟩ := h
  have hstatus : (if (s.aline p line).psn = true then 8 else if (s.aline p line).psn = true then 8 else 0) =
      if (s.aline p line).psn = true then 8 else 0 := by
    cases (s.aline p line).psn <;> rfl
  simp only [State.evictLine, hput, hflush, hreq, hunver, hpin, Option.isSome_none, Bool.or_false, Bool.false_eq_true, if_false,
    hstatus, State.evicted]
  cases (s.aline p line).st <;> rfl

theorem exec_evict_agent (s : State) (p line : Nat) :
    exec (.cacheEviction p line .agent .none) s = .next (s.evictAgent p line .none) := rfl

theorem State.evictAgent_none (s : State) (p line : Nat) :
    s.evictAgent p line .none =
      if !((s.aline p line).put.isNone && (s.aline p line).flushing.isNone && (s.aline p line).req.isNone
        && (s.aline p line).unver.isNone) then s
      else s.evictLine p line (if (s.aline p line).psn then 8 else 0) := rfl

theorem exec_evict_held {s : State} {p line : Nat} (h : ¬ s.evictable p line) :
    exec (.cacheEviction p line .agent .none) s = .next s := by
  rw [exec_evict_agent, State.evictAgent_none, State.evictLine_held h, ite_self]

theorem exec_evict_free {s : State} {p line : Nat} (h : s.evictable p line) :
    exec (.cacheEviction p line .agent .none) s = .next (s.evicted p line) := by
  rw [exec_evict_agent, State.evictAgent_none, State.evictLine_free h]
  obtain ⟨hput, hflush, hreq, hunver, -⟩ := h
  rw [hput, hflush, hreq, hunver]
  rfl

theorem exec_evict_home {p line : Nat} (h : lineHome line = p) (ecc : Upset) (s : State) :
    exec (.cacheEviction p line .home ecc) s = .next (s.evictHome p line ecc) := congrArg Host.Outcome.next (if_pos h)

theorem exec_evict_dir {p line : Nat} (h : lineHome line = p) (ecc : Upset) (s : State) :
    exec (.cacheEviction p line .dir ecc) s = .next (s.evictDir p line ecc) := congrArg Host.Outcome.next (if_pos h)

theorem State.evictHome_none {s : State} {p line : Nat} (h : ((s.pkg p).hcache.find? fun x => x.1 == line) = none) (ecc : Upset) :
    s.evictHome p line ecc = s := by rw [State.evictHome, h]

theorem State.evictHome_some {s : State} {p line : Nat} {dirty : Bool}
    (h : ((s.pkg p).hcache.find? fun x => x.1 == line) = some (line, dirty)) (ecc : Upset) :
    s.evictHome p line ecc =
      (let unit := unitId 8 p (dieOfLine line) 0 0
       let out := s.modPkg p fun k => { k with hcache := k.hcache.filter fun x => x.1 != line }
       match ecc with
       | .none => out
       | .fixed => s.errRecord p 1 0x05 unit 0 (line * 128) [line % 2 ^ 19]
       | .lost =>
         if dirty then (out.errRecord p 2 0x09 unit 0 (line * 128) []).homeSpoil line
         else out.errRecord p 1 0x05 unit 0 (line * 128) [line % 2 ^ 19]) := by
  rw [State.evictHome, h] <;> rfl

theorem State.evictDir_none {s : State} {p line : Nat} (h : (s.pkg p).dcache.contains line = false) (ecc : Upset) :
    s.evictDir p line ecc = s := by
  rw [State.evictDir, h]
  rfl

theorem State.evictDir_some {s : State} {p line : Nat} (h : (s.pkg p).dcache.contains line = true) (ecc : Upset) :
    s.evictDir p line ecc =
      match ecc with
      | .none => if (s.dir line).tx.isSome || (s.dir line).st == .update then s else s.dirLeave line
      | .fixed => s.errRecord p 1 0x06 (unitId 8 p (dieOfLine line) 0 0) 0 (line * 128) [line % dirMin]
      | .lost =>
        let t := s.errRecord p 2 0x06 (unitId 8 p (dieOfLine line) 0 0) 0 (line * 128) [line % dirMin]
        if (s.dir line).tx.isSome then t.modDir line fun d => { d with psn := true } else t.openTx line .wipe true := by
  rw [State.evictDir, h]
  rfl

theorem Dir.owns_iff (d : Dir) : d.owns = true ↔ d.st = .excl ∨ d.st = .owned := by
  rw [Dir.owns, Bool.or_eq_true, beq_iff_eq, beq_iff_eq]

theorem State.homeSpoil_eq (s : State) (line : Nat) :
    s.homeSpoil line = if (s.dir line).st = .excl ∨ (s.dir line).st = .owned then s
      else if (s.dir line).tx.isSome then s.modDir line fun d => { d with psn := true }
      else if (s.dir line).st = .uncached then s.poisonHome line else s.openTx line .lost :=
  if_congr (Dir.owns_iff _) rfl rfl

/-! ### Request timers -/

section
variable {s : State} {p u : Nat}

theorem exec_requestTimeout_none (h : s.timerOf p u = none) : exec (.requestTimeout p u) s = .next s := by
  change execRequestTimeout p u s = _
  rw [execRequestTimeout, h]

/-- An access or a command whose timer has run out fails. -/
def State.timeOut (s : State) (p u : Nat) (line : Option Nat) : State :=
  match line with
  | some l => (s.modPkg p fun k => { k with timedOut := k.timedOut ++ [u] }).failName p u 0x0B l
  | none => s.failName p u 0x0B 0

theorem exec_requestTimeout_some {c n : Nat} {line : Option Nat} (h : s.timerOf p u = some (c, n, line)) :
    exec (.requestTimeout p u) s = .next (if s.clock < n + (s.ctx p c).timer then s else s.timeOut p u line) := by
  change execRequestTimeout p u s = _
  simp only [execRequestTimeout, h]
  rfl

end

/-- Settles O47: each message of a home, Ack and Data by the branch that its line takes, then evictions and timers. -/
theorem agentAnswers : Obligations.AgentAnswers := by
  unfold Obligations.AgentAnswers
  intro s p j fromHome kinds
  refine ⟨?none, ?bad, ?pinned, ?home, ?ack, ?data, ?evict, ?caches, ?elsewhere, ?timers⟩
  case none =>
    intro e he h
    obtain rfl | he := List.mem_cons.1 he
    · exact exec_data_none h
    obtain rfl | he := List.mem_cons.1 he
    · exact exec_ack_none h
    obtain ⟨f, hf⟩ := homeEvent_of_mem he
    rw [hf, onHome_none h]
  case bad =>
    intro m e he h hb
    obtain rfl | he := List.mem_cons.1 he
    · exact exec_ack_bad h hb
    obtain ⟨f, hf⟩ := homeEvent_of_mem he
    rw [hf, onHome_bad h hb]
  case pinned =>
    intro m e he h hb hp
    obtain ⟨f, hf⟩ := homeEvent_of_mem he
    rw [hf, onHome_pinned h hb hp]
  case home =>
    intro m hb hp b a tells has keeps gone
    refine ⟨fun h => ?_, fun h => ?_, fun h => ?_, fun h => ?_, fun h => ?_, fun h => ?_⟩
    · exact ⟨exec_inv_held ⟨h, hb, hp⟩, exec_inv_none ⟨h, hb, hp⟩⟩
    · exact ⟨exec_fwdgets_none ⟨h, hb, hp⟩ rfl, exec_fwdgets_clean ⟨h, hb, hp⟩, exec_fwdgets_dirty ⟨h, hb, hp⟩,
        exec_fwdgets_home ⟨h, hb, hp⟩ rfl⟩
    · exact ⟨exec_fwdgetm_none ⟨h, hb, hp⟩ rfl, exec_fwdgetm_held ⟨h, hb, hp⟩ rfl⟩
    · exact ⟨exec_collect_none ⟨h, hb, hp⟩, fun q => exec_collect_part ⟨h, hb, hp⟩⟩
    · change execNakfirewall p j s = _
      rw [execNakfirewall, Asked.onHome ⟨h, hb, hp⟩]
    · change execErrsynth p j s = _
      rw [execErrsynth, Asked.onHome ⟨h, hb, hp⟩]
  case ack =>
    intro m hb h b
    rw [exec_ack_good h hb]
    exact ⟨fun hs => congrArg Host.Outcome.next (State.takeAck_again hs), fun h9 h10 =>
      ⟨fun hk => congrArg Host.Outcome.next (State.takeAck_answer h9 h10 hk),
       fun hk t r ht hr => congrArg Host.Outcome.next (State.takeAck_data h9 h10 hk ht hr),
       fun hk => congrArg Host.Outcome.next (State.takeAck_put h9 h10 hk),
       fun hk => congrArg Host.Outcome.next (State.takeAck_grant h9 h10 hk),
       fun hk => congrArg Host.Outcome.next (State.takeAck_flush h9 h10 hk)⟩⟩
  case data =>
    intro m h a st took ends
    obtain rfl := State.arrived_u h
    refine ⟨fun h0 hb hr hq => ?_, fun h0 hb hr q t hq ht hk => ?_, fun h0 hreq hu => ?_, fun h0 hp hu => ?_⟩
    · rw [exec_data_home h h0, State.dataHome_line hb hr hq]
    · rw [exec_data_home h h0, State.dataHome_part hb hr hq ht hk]
    · rw [exec_data_grant h h0, State.dataGrant_asked hreq hu]
      refine ⟨fun hp => ?_, fun hp hr => ?_, fun hp hr => ?_⟩
      · rw [if_pos hp]
        rfl
      · rw [if_neg hp, if_neg (Bool.eq_false_iff.1 hr)]
        rfl
      · rw [if_neg hp, if_pos hr]
        rfl
    · rw [exec_data_grant h h0, State.dataGrant_awaited hp hu]
      rfl
  case evict =>
    intro line a h free b out
    refine ⟨exec_evict_held, fun hf => ?_⟩
    rw [exec_evict_free hf, State.evicted]
    refine ⟨fun h => ?_, fun h => ?_, fun h => ?_, fun h => ?_, fun q h hq => ?_⟩
    · simp only [show (s.aline p line).st = .I from h]
      rfl
    · obtain h | h := h
      · simp only [show (s.aline p line).st = .S from h]
        rfl
      · simp only [show (s.aline p line).st = .E from h]
        rfl
    · simp only [show (s.aline p line).st = .M from h]
      rfl
    · simp only [show (s.aline p line).st = .O from h]
      rfl
    · simp only [show (s.aline p line).st = .U from h, show (s.aline p line).part = some q from hq]
      rfl
  case caches =>
    intro line hl d k unit held out
    refine ⟨fun h ecc => ?_, fun dirty h => ?_, fun h ecc => ?_, fun h => ?_, State.homeSpoil_eq s line⟩
    · rw [exec_evict_home hl, State.evictHome_none h]
    · rw [exec_evict_home hl, exec_evict_home hl, exec_evict_home hl, State.evictHome_some h, State.evictHome_some h,
        State.evictHome_some h]
      exact ⟨rfl, rfl, rfl⟩
    · rw [exec_evict_dir hl, State.evictDir_none h]
    · rw [exec_evict_dir hl, exec_evict_dir hl, exec_evict_dir hl, State.evictDir_some h, State.evictDir_some h,
        State.evictDir_some h]
      exact ⟨congrArg Host.Outcome.next (if_congr (by rw [Bool.or_eq_true, beq_iff_eq]) rfl rfl), rfl, rfl⟩
  case elsewhere =>
    intro line q h ecc
    exact ⟨congrArg Host.Outcome.next (if_neg h), congrArg Host.Outcome.next (if_neg h)⟩
  case timers =>
    intro u
    refine ⟨exec_requestTimeout_none, fun c n line h => ?_⟩
    rw [exec_requestTimeout_some h]
    exact ⟨fun hn => congrArg Host.Outcome.next (if_pos hn), fun hn => congrArg Host.Outcome.next (if_neg (Nat.not_lt.2 hn))⟩

end Sys2Proof.Machine
end

section
/-! SUPPORT. The home of a line: the course of a transaction (R338, R339), Puts, and the combining of a partial (R340). -/

namespace Sys2Proof.Machine

/-! ### What a message leaves alone -/

@[simp] theorem State.setPort_dirs (s : State) (p k : Nat) (v : Port) : (s.setPort p k v).dirs = s.dirs := rfl

@[simp] theorem State.modPort_dirs (s : State) (p k : Nat) (f : Port → Port) : (s.modPort p k f).dirs = s.dirs := rfl

@[simp] theorem State.pump_dirs (s : State) (p k : Nat) : (s.pump p k).dirs = s.dirs := rfl

@[simp] theorem State.route_dirs (s : State) (m : Msg) : (s.route m).dirs = s.dirs := by
  simp only [State.route]
  repeat' split
  all_goals rfl

@[simp] theorem State.send_dirs (s : State) (m : Msg) : (s.send m).dirs = s.dirs := by
  unfold State.send
  simp only
  split
  · rfl
  · rw [State.route_dirs]
    rfl

theorem State.dir_of_dirs {s t : State} (h : s.dirs = t.dirs) (line : Nat) : s.dir line = t.dir line := by
  rw [State.dir, State.dir, h]

@[simp] theorem State.dir_homeMsg (s : State) (ty : MsgTy) (line req : Nat) (home : Bool) (q l : Nat) :
    (s.homeMsg ty line req home q).dir l = s.dir l := State.dir_of_dirs (State.send_dirs _ _) l

/-- Messages that go out leave a transaction in its phase. -/
theorem State.homeSend_phase {s : State} {line : Nat} {n : Nat} (ty : MsgTy) (req : Nat) (home : Bool) (l : List Nat)
    (h : ∃ t, (s.dir line).tx = some t ∧ t.phase = n) :
    ∃ t, ((s.homeSend ty line req home l).dir line).tx = some t ∧ t.phase = n := by
  unfold State.homeSend
  induction l generalizing s with
  | nil => exact h
  | cons q l ih =>
    rw [List.foldl_cons]
    refine ih ?_
    obtain ⟨t, ht, hn⟩ := h
    split
    · exact ⟨t, by rw [State.dir_homeMsg, ht], hn⟩
    · exact ⟨{ t with unsent := t.unsent ++ [(ty, req, home, q)] }, by simp [State.modTx, ht], hn⟩

/-- Places of the home's cache and the controller's leave the firewall as it is. -/
@[simp] theorem State.fwAllows_held (s : State) (q line l : Nat) :
    ((s.homeHold l).chkHold l).fwAllows q line = s.fwAllows q line := by
  have hfw (p : Nat) : (((s.homeHold l).chkHold l).pkg p).fw = (s.pkg p).fw := by
    unfold State.chkHold State.homeHold
    by_cases hp : p = homeOf (l * 128)
    · subst hp
      rw [State.pkg_modPkg, State.pkg_modPkg]
    · rw [State.pkg_modPkg_ne _ _ hp, State.pkg_modPkg_ne _ _ hp]
  have hcell (p : Nat) : ((s.homeHold l).chkHold l).cellOf p = s.cellOf p := by
    unfold State.cellOf State.chkHold State.homeHold
    by_cases hp : p = homeOf (l * 128)
    · subst hp
      rw [State.pkg_modPkg, State.pkg_modPkg]
    · rw [State.pkg_modPkg_ne _ _ hp, State.pkg_modPkg_ne _ _ hp]
  rw [State.fwAllows, hfw, hcell, State.fwAllows]

/-! ### A transaction -/

/-- The line once a request's transaction has begun: its phase, and for whom it waits. -/
def State.opened (b : State) (m : Msg) (phase : Nat) (wait : List Nat) : State :=
  b.modDir m.line fun d => { d with tx := some { k := .req m, phase := phase, wait := wait } }

@[simp] theorem State.dir_opened (b : State) (m : Msg) (n : Nat) (l : List Nat) :
    (b.opened m n l).dir m.line = { (b.dir m.line) with tx := some { k := .req m, phase := n, wait := l } } := State.dir_modDir ..

theorem State.modDir_modDir (b : State) (line : Nat) (f g : Dir → Dir) :
    (b.modDir line f).modDir line g = b.modDir line fun d => g (f d) := by
  rw [State.modDir, State.dir_modDir, State.modDir, State.modDir, State.setDir, State.setDir, State.setDir, Tab.put_put]

theorem State.modTx_opened (b : State) (m : Msg) (n k : Nat) (l l' : List Nat) :
    ((b.opened m n l).modTx m.line fun t => { t with phase := k, wait := l' }) = b.opened m k l' := State.modDir_modDir ..

/-- What a transaction that has begun comes to at once: a requester that is lost by now ends it. -/
def State.ends (t : State) (line : Nat) : State :=
  match (t.dir line).tx with
  | some x => if x.phase = 2 ∧ x.got = true then t.closeTx line else t
  | none => t.lineFree line

theorem State.openTx_eq_ends (s : State) (line : Nat) (k : TxK) (wide : Bool) :
    s.openTx line k wide = (s.beginTx line k wide).ends line := by
  simp only [State.openTx, State.ends]
  generalize s.beginTx line k wide = t
  cases (t.dir line).tx <;> rfl

/-- A transaction that waits for answers stays as it is. -/
theorem State.ends_of_waiting {t : State} {line n : Nat} (h : ∃ x, (t.dir line).tx = some x ∧ x.phase = n) (hn : n ≠ 2) :
    t.ends line = t := by
  obtain ⟨x, hx, hp⟩ := h
  unfold State.ends
  rw [hx]
  exact if_neg fun h2 => hn (hp ▸ h2.1)

theorem State.homeSend_ends {b : State} {m : Msg} {n : Nat} {l : List Nat} (hn : n ≠ 2) (ty : MsgTy) (req : Nat) (home : Bool) :
    ((b.opened m n l).homeSend ty m.line req home l).ends m.line = (b.opened m n l).homeSend ty m.line req home l :=
  State.ends_of_waiting (State.homeSend_phase ty req home l ⟨_, by rw [State.dir_opened], rfl⟩) hn

section
variable {b : State} {m : Msg}

theorem State.beginTx_invs {l : List Nat} (hl : b.invList (lineHome m.line) (b.dir m.line) (.req m) false = l) (hne : l ≠ []) :
    b.beginTx m.line (.req m) = (b.opened m 0 l).homeSend .inv m.line (lineHome m.line) false l := by
  subst hl
  exact if_neg (by rwa [List.isEmpty_iff])

theorem State.beginTx_quiet (hl : b.invList (lineHome m.line) (b.dir m.line) (.req m) false = []) :
    b.beginTx m.line (.req m) = (b.opened m 0 []).afterInv m.line := by
  simp only [State.beginTx, hl]
  rfl

theorem State.afterInv_opened (hr : b.refusedNow m = false) :
    (b.opened m 0 []).afterInv m.line = (b.opened m 0 []).sendFwd m.line (.req m) := by
  have hr' : (b.opened m 0 []).refusedNow m = false := hr
  simp only [State.afterInv, State.dir_opened, hr', Bool.false_eq_true, if_false]

/-- No lost package held the line's value. -/
def State.noneLost (b : State) (m : Msg) : Prop := (b.dir m.line).lostIn (b.lostMask (lineHome m.line)) = 0

theorem State.losePoison_opened (h : b.noneLost m) : (b.opened m 0 []).losePoison m.line = b.opened m 0 [] := by
  have hl : ((b.opened m 0 []).dir m.line).lostIn ((b.opened m 0 []).lostMask (lineHome m.line)) = 0 := by
    rw [State.dir_opened]
    exact h
  refine if_pos ?_
  rw [hl]
  rfl

theorem State.fwdPlan_opened (n : Nat) (l : List Nat) (k : TxK) :
    (b.opened m n l).fwdPlan (lineHome m.line) ((b.opened m n l).dir m.line) k = b.fwdPlan (lineHome m.line) (b.dir m.line) k := by
  rw [State.dir_opened]
  rfl

theorem State.sendFwd_asks (hl : b.noneLost m) {ty : MsgTy} {req : Nat} {home : Bool} {l : List Nat}
    (hp : b.fwdPlan (lineHome m.line) (b.dir m.line) (.req m) = some (ty, req, home, l)) (hne : l ≠ []) :
    (b.opened m 0 []).sendFwd m.line (.req m) = (b.opened m 1 l).homeSend ty m.line req home l := by
  unfold State.sendFwd
  rw [State.losePoison_opened hl, ite_self]
  simp only [State.fwdPlan_opened, hp, State.modTx_opened, List.isEmpty_eq_false_iff.2 hne, Bool.false_eq_true, if_false]

theorem State.endFwd_req {t : Tx} (ht : (b.dir m.line).tx = some t) (hk : t.k = .req m) : b.endFwd m.line = b.answerReq m t := by
  rw [State.endFwd, ht]
  simp only [hk]

theorem State.sendFwd_answered (hl : b.noneLost m)
    (hp : b.fwdPlan (lineHome m.line) (b.dir m.line) (.req m) = none) :
    (b.opened m 0 []).sendFwd m.line (.req m) = (b.opened m 1 []).answerReq m { k := .req m, phase := 1 } := by
  unfold State.sendFwd
  rw [State.losePoison_opened hl, ite_self]
  simp only [State.fwdPlan_opened, hp, State.modTx_opened]
  rw [State.afterFwd, State.dir_opened]
  exact State.endFwd_req (by rw [State.dir_opened]) rfl

/-! ### The first messages of a request -/

theorem State.openTx_invs {l : List Nat} (hl : b.invList (lineHome m.line) (b.dir m.line) (.req m) false = l) (hne : l ≠ []) :
    b.openTx m.line (.req m) = (b.opened m 0 l).homeSend .inv m.line (lineHome m.line) false l := by
  rw [State.openTx_eq_ends, State.beginTx_invs hl hne, State.homeSend_ends (by decide)]

theorem State.openTx_asks (hi : b.invList (lineHome m.line) (b.dir m.line) (.req m) false = []) (hr : b.refusedNow m = false)
    (hl : b.noneLost m) {ty : MsgTy} {req : Nat} {home : Bool} {l : List Nat}
    (hp : b.fwdPlan (lineHome m.line) (b.dir m.line) (.req m) = some (ty, req, home, l)) (hne : l ≠ []) :
    b.openTx m.line (.req m) = (b.opened m 1 l).homeSend ty m.line req home l := by
  rw [State.openTx_eq_ends, State.beginTx_quiet hi, State.afterInv_opened hr, State.sendFwd_asks hl hp hne,
    State.homeSend_ends (by decide)]

theorem State.openTx_answered (hi : b.invList (lineHome m.line) (b.dir m.line) (.req m) false = []) (hr : b.refusedNow m = false)
    (hl : b.noneLost m) (hp : b.fwdPlan (lineHome m.line) (b.dir m.line) (.req m) = none) :
    b.openTx m.line (.req m) = ((b.opened m 1 []).answerReq m { k := .req m, phase := 1 }).ends m.line := by
  rw [State.openTx_eq_ends, State.beginTx_quiet hi, State.afterInv_opened hr, State.sendFwd_answered hl hp]

/-- Only a request for ownership of a line that others share sends Invs. -/
theorem State.invList_req (h : Nat) (d : Dir) :
    b.invList h d (.req m) false =
      if ((d.st == .shared || d.st == .owned) && (m.ty == .getM || m.ty == .getU)) = true then b.addressed h d.cells (some m.src)
      else [] := rfl

theorem State.invList_read (h : Nat) (d : Dir) (hm : m.ty ≠ .getM) (hu : m.ty ≠ .getU) : b.invList h d (.req m) false = [] := by
  rw [State.invList_req, beq_false_of_ne hm, beq_false_of_ne hu, Bool.or_false, Bool.and_false, if_neg Bool.false_ne_true]

theorem State.invList_unshared (h : Nat) {d : Dir} (hs : d.st ≠ .shared) (ho : d.st ≠ .owned) :
    b.invList h d (.req m) false = [] := by
  rw [State.invList_req, beq_false_of_ne hs, beq_false_of_ne ho, Bool.or_false, Bool.false_and, if_neg Bool.false_ne_true]

theorem State.invList_shared (h : Nat) {d : Dir} (hs : d.st = .shared ∨ d.st = .owned) (hg : m.ty = .getM ∨ m.ty = .getU) :
    b.invList h d (.req m) false = b.addressed h d.cells (some m.src) := by
  rw [State.invList_req, if_pos]
  simpa only [Bool.and_eq_true, Bool.or_eq_true, beq_iff_eq] using And.intro hs hg

/-- A request for ownership of a line that its owner shares with none sends no Invs. -/
theorem State.invList_alone (h : Nat) {d : Dir} (hd : d.st = .excl ∨ d.st = .owned) (hg : m.ty = .getM ∨ m.ty = .getU)
    (hx : d.st = .excl ∨ b.addressed h d.cells (some m.src) = []) : b.invList h d (.req m) false = [] := by
  obtain he | ho := hd
  · exact State.invList_unshared h (by rw [he]; decide) (by rw [he]; decide)
  · rw [State.invList_shared h (Or.inr ho) hg]
    exact hx.resolve_left (by rw [ho]; decide)

theorem State.fwdPlan_none (h : Nat) {d : Dir} (hd : d.st = .uncached ∨ d.st = .shared) : b.fwdPlan h d (.req m) = none := by
  obtain hd | hd := hd <;> simp [State.fwdPlan, Dir.owns, hd]

theorem State.fwdPlan_binds (h : Nat) {d : Dir} (hd : d.st = .update) (hb : d.binds m = true) : b.fwdPlan h d (.req m) = none := by
  simp [State.fwdPlan, Dir.owns, hd, hb]

theorem State.fwdPlan_collect (h : Nat) {d : Dir} (hd : d.st = .update) (hb : d.binds m = false) :
    b.fwdPlan h d (.req m) = some (.collect, h, true, b.addressed h d.cells none) := by
  simp [State.fwdPlan, Dir.owns, hd, hb]

theorem State.fwdPlan_owned (h : Nat) {d : Dir} (hd : d.st = .excl ∨ d.st = .owned) :
    b.fwdPlan h d (.req m) =
      match m.ty with
      | .getS => some (.fwdGetS, m.src, false, b.addressed h (cellBit d.owner) (some m.src))
      | .getM => some (.fwdGetM, m.src, false, b.addressed h (cellBit d.owner) (some m.src))
      | .getU => some (.fwdGetM, h, true, b.addressed h (cellBit d.owner) (some m.src))
      | .flush => some (.fwdGetS, h, true, b.addressed h (cellBit d.owner) (some m.src))
      | _ => none := if_pos ((Dir.owns_iff d).2 hd)

end

/-! ### The answers to a request (R339) -/

section
variable {s : State} {m : Msg}

theorem State.refusedNow_of_other (hm : m.ty ≠ .getM) (hu : m.ty ≠ .getU) (s : State) : s.refusedNow m = false := by
  rw [State.refusedNow, beq_false_of_ne hm, beq_false_of_ne hu]
  rfl

theorem State.refusedNow_of_allowed (h : s.fwAllows m.src m.line = true) : s.refusedNow m = false := by
  rw [State.refusedNow, h, Bool.not_true, Bool.and_false]

@[simp] theorem State.refusedNow_held (s : State) (m : Msg) (l : Nat) : ((s.homeHold l).chkHold l).refusedNow m = s.refusedNow m := by
  rw [State.refusedNow, State.fwAllows_held, State.refusedNow]

theorem State.fromMemory_excl (hty : m.ty = .getS) (hp : (s.dir m.line).psn = false) (hf : s.fwAllows m.src m.line = true) :
    s.fromMemory m = (((((s.homeHold m.line).chkHold m.line).setHolder m.line .excl (s.cellOf m.src) 0).sendData (lineHome m.line)
      m.src m.line 5 false m.txid).granted m) := by
  simp [State.fromMemory, State.refusedNow, hty, hp, hf]

theorem State.fromMemory_shared (hty : m.ty = .getS) (h : ¬ ((s.dir m.line).psn = false ∧ s.fwAllows m.src m.line = true)) :
    s.fromMemory m = (((((s.homeHold m.line).chkHold m.line).setHolder m.line .shared 0 (cellBit (s.cellOf m.src))).sendData
      (lineHome m.line) m.src m.line 4 (s.dir m.line).psn m.txid).granted m) := by
  have hc : ((s.dir m.line).psn || !s.fwAllows m.src m.line) = true := by
    cases hp : (s.dir m.line).psn <;> simp_all
  simp only [State.fromMemory, State.refusedNow, hty, State.fwAllows_held, hc]
  rfl

theorem State.fromMemory_getM (hty : m.ty = .getM) (hr : s.refusedNow m = false) :
    s.fromMemory m = (((((s.homeHold m.line).chkHold m.line).setHolder m.line .excl (s.cellOf m.src) 0).sendData (lineHome m.line)
      m.src m.line 6 (s.dir m.line).psn m.txid).granted m) := by
  simp only [State.fromMemory, State.refusedNow_held, hr, Bool.false_eq_true, if_false, hty]

theorem State.fromMemory_getU (hty : m.ty = .getU) (hr : s.refusedNow m = false) :
    s.fromMemory m = (((((s.homeHold m.line).chkHold m.line).setHolder m.line .update 0 (cellBit (s.cellOf m.src))
      (some (bindOf m.bind))).sendAck (lineHome m.line) m.src m.line ackGrant 7 m.txid m.bind).granted m) := by
  simp only [State.fromMemory, State.refusedNow_held, hr, Bool.false_eq_true, if_false, hty]

theorem State.fromMemory_flush (hty : m.ty = .flush) :
    s.fromMemory m = (((((s.homeHold m.line).chkHold m.line).setHolder m.line .uncached 0 0).sendAck (lineHome m.line) m.src m.line
      ackFlush 0 m.txid).granted m) := by
  have hr : s.refusedNow m = false := State.refusedNow_of_other (by rw [hty]; decide) (by rw [hty]; decide) s
  simp only [State.fromMemory, State.refusedNow_held, hr, Bool.false_eq_true, if_false, hty]

end

/-- The rows of R339 that read memory as for an uncached line, whatever the answers were. -/
def ReadsMemory (m : Msg) (st : DirSt) (binds : Bool) : Prop :=
  match m.ty, st with
  | .getS, .uncached | .getS, .update => True
  | .getM, .uncached | .getM, .shared | .getM, .update => True
  | .getU, .update => binds = false
  | .getU, _ => True
  | .flush, .update => True
  | _, _ => False

theorem State.answerReq_reads {s : State} {m : Msg} {st : DirSt} (hst : (s.dir m.line).st = st)
    (h : ReadsMemory m st ((s.dir m.line).binds m)) (t : Tx) : s.answerReq m t = s.fromMemory m := by
  unfold ReadsMemory at h
  unfold State.answerReq
  dsimp only
  rw [hst]
  split
  all_goals simp_all

section
variable {s : State} {m : Msg} {t : Tx}

theorem State.answerReq_getS_shared (hty : m.ty = .getS) (hst : (s.dir m.line).st = .shared) :
    s.answerReq m t = ((s.setHolder m.line .shared 0 ((s.dir m.line).cells ||| cellBit (s.cellOf m.src))).sendData (lineHome m.line)
      m.src m.line 4 (s.dir m.line).psn m.txid).granted m := by
  simp only [State.answerReq, hty, hst]

theorem State.answerReq_getS_none (hty : m.ty = .getS) (hst : (s.dir m.line).st = .excl ∨ (s.dir m.line).st = .owned)
    (hh : t.held = false) : s.answerReq m t = s.fromMemory m := by
  obtain hst | hst := hst <;> simp only [State.answerReq, hty, hst, hh, Bool.not_false, if_true]

theorem State.answerReq_getS_excl (hty : m.ty = .getS) (hst : (s.dir m.line).st = .excl) (hh : t.held = true) :
    s.answerReq m t =
      if t.dirty then (s.setHolder m.line .owned (s.dir m.line).owner (cellBit (s.cellOf m.src))).granted m
      else (s.setHolder m.line .shared 0 (cellBit (s.dir m.line).owner ||| cellBit (s.cellOf m.src))).granted m := by
  simp only [State.answerReq, hty, hst, hh, Bool.not_true, Bool.false_eq_true, if_false]

theorem State.answerReq_getS_owned (hty : m.ty = .getS) (hst : (s.dir m.line).st = .owned) (hh : t.held = true) :
    s.answerReq m t = (s.setHolder m.line .owned (s.dir m.line).owner ((s.dir m.line).cells ||| cellBit (s.cellOf m.src))).granted
      m := by
  simp only [State.answerReq, hty, hst, hh, Bool.not_true, Bool.false_eq_true, if_false]

theorem State.answerReq_getM_got (hty : m.ty = .getM) (hst : (s.dir m.line).st = .excl ∨ (s.dir m.line).st = .owned)
    (hg : t.got = true) : s.answerReq m t = (s.setHolder m.line .excl (s.cellOf m.src) 0).granted m := by
  obtain hst | hst := hst <;> simp only [State.answerReq, hty, hst, hg, if_true]

theorem State.answerReq_getM_own (hty : m.ty = .getM) (hst : (s.dir m.line).st = .owned)
    (ho : (s.dir m.line).owner = s.cellOf m.src) (hg : t.got = false) (hr : s.refusedNow m = false) :
    s.answerReq m t =
      ((s.setHolder m.line .excl (s.cellOf m.src) 0).sendAck (lineHome m.line) m.src m.line ackGrant 6 m.txid).granted m := by
  simp only [State.answerReq, hty, hst, ho, hg, hr, Bool.false_eq_true, if_false, and_self, if_true]

theorem State.answerReq_getM_none (hty : m.ty = .getM)
    (hst : (s.dir m.line).st = .excl ∨ ((s.dir m.line).st = .owned ∧ (s.dir m.line).owner ≠ s.cellOf m.src)) (hg : t.got = false) :
    s.answerReq m t = s.fromMemory m := by
  obtain hst | ⟨hst, ho⟩ := hst
  · simp only [State.answerReq, hty, hst, hg, Bool.false_eq_true, if_false, reduceCtorEq, false_and]
  · simp only [State.answerReq, hty, hst, hg, Bool.false_eq_true, if_false, ho, and_false]

theorem State.answerReq_getU_binds (hst : (s.dir m.line).st = .update) (hb : (s.dir m.line).binds m = true) (hty : m.ty = .getU) :
    s.answerReq m t = ((s.setHolder m.line .update 0 ((s.dir m.line).cells ||| cellBit (s.cellOf m.src)) (s.dir m.line).bind).sendAck
      (lineHome m.line) m.src m.line ackGrant 7 m.txid m.bind).granted m := by
  simp only [State.answerReq, hty, hst, hb, if_true]

theorem State.answerReq_flush_clean (hty : m.ty = .flush) (hst : (s.dir m.line).st = .uncached ∨ (s.dir m.line).st = .shared) :
    s.answerReq m t = (s.sendAck (lineHome m.line) m.src m.line ackFlush 0 m.txid).granted m := by
  obtain hst | hst := hst <;> simp only [State.answerReq, hty, hst]

theorem State.answerReq_flush_excl (hty : m.ty = .flush) (hst : (s.dir m.line).st = .excl) :
    s.answerReq m t = ((s.setHolder m.line .shared 0 (cellBit (s.dir m.line).owner ||| cellBit (s.cellOf m.src))).granted m).sendAck
      (lineHome m.line) m.src m.line ackFlush 0 m.txid := by
  simp only [State.answerReq, hty, hst]

theorem State.answerReq_flush_owned (hty : m.ty = .flush) (hst : (s.dir m.line).st = .owned) :
    s.answerReq m t = ((s.setHolder m.line .shared 0
      ((s.dir m.line).cells ||| cellBit (s.dir m.line).owner ||| cellBit (s.cellOf m.src))).granted m).sendAck
      (lineHome m.line) m.src m.line ackFlush 0 m.txid := by
  simp only [State.answerReq, hty, hst]

end

theorem Dir.binds_ty {d : Dir} {m : Msg} (h : d.binds m = true) : m.ty = .getU := by
  simp only [Dir.binds, Bool.and_eq_true, beq_iff_eq] at h
  exact h.1.1

/-! ### Serving a request -/

/-- A line that takes a request at once: no transaction, no recall, and none that waits before it. -/
def State.freeFor (b : State) (m : Msg) : Prop :=
  (b.dir m.line).tx = none ∧ b.heldBack m = false ∧ ∀ x ∈ (b.dir m.line).queue, b.heldBack x = true

section
variable {s : State} {m : Msg}

theorem State.serve_walked (hw : (s.dir m.line).tx.isSome = true ∨ (s.dir m.line).walked = true)
    (hl : (s.dirEnter m.line).isLost (lineHome m.line) m.src = false) :
    s.serve m = if ((s.dirEnter m.line).dir m.line).tx.isSome || (s.dirEnter m.line).heldBack m
        || ((s.dirEnter m.line).dir m.line).queue.any fun x => !(s.dirEnter m.line).heldBack x then (s.dirEnter m.line).enqueue m
      else if ((s.dirEnter m.line).dir m.line).err = 0 ∨ ((s.dirEnter m.line).dir m.line).psn ∨ m.ty = .putM ∨ m.ty = .putO then
        (s.dirEnter m.line).serveNow m
      else if (s.dirEnter m.line).correctable m.line then ((s.dirEnter m.line).correctLine m.line).serveNow m
      else (s.dirEnter m.line).repairLine m.line (some m) ((s.pkg (lineHome m.line)).dcache.contains m.line) := by
  have hw' : ((s.dir m.line).tx.isNone && !(s.dir m.line).walked) = false := by
    obtain hw | hw := hw
    · rw [Option.isNone_eq_false_iff.2 hw, Bool.false_and]
    · rw [hw, Bool.not_true, Bool.and_false]
  simp only [State.serve, hw', hl, Bool.false_eq_true, if_false, Bool.not_false, Bool.true_and]

theorem State.busy_iff (b : State) (m : Msg) :
    ((b.dir m.line).tx.isSome || b.heldBack m || (b.dir m.line).queue.any fun x => !b.heldBack x) = true ↔ ¬ b.freeFor m := by
  rw [State.freeFor, Bool.or_eq_true, Bool.or_eq_true, not_and_or, not_and_or, List.any_eq_true, or_assoc]
  simp [Option.isSome_iff_ne_none]

theorem State.serve_waits (hw : (s.dir m.line).tx.isSome = true ∨ (s.dir m.line).walked = true)
    (hl : (s.dirEnter m.line).isLost (lineHome m.line) m.src = false) (hf : ¬ (s.dirEnter m.line).freeFor m) :
    s.serve m = (s.dirEnter m.line).enqueue m := by
  rw [State.serve_walked hw hl, if_pos ((State.busy_iff _ m).2 hf)]

theorem State.serve_free (hw : (s.dir m.line).tx.isSome = true ∨ (s.dir m.line).walked = true)
    (hl : (s.dirEnter m.line).isLost (lineHome m.line) m.src = false) (hf : (s.dirEnter m.line).freeFor m)
    (he : ((s.dirEnter m.line).dir m.line).err = 0 ∨ m.ty = .putM ∨ m.ty = .putO) : s.serve m = (s.dirEnter m.line).serveNow m := by
  rw [State.serve_walked hw hl, if_neg fun h => (State.busy_iff _ m).1 h hf, if_pos (he.imp_right Or.inr)]

end

section
variable {b : State} {m : Msg}

/-- A request that opens a transaction: a read, one for ownership that the firewall allows, or a Flush of a line that is whole. -/
def State.opens (b : State) (m : Msg) : Prop :=
  m.ty = .getS ∨ ((m.ty = .getM ∨ m.ty = .getU) ∧ b.fwAllows m.src m.line = true) ∨ (m.ty = .flush ∧ m.status ≠ 8)

theorem State.opens.refusedNow (h : b.opens m) : b.refusedNow m = false := by
  obtain h | ⟨-, h⟩ | ⟨h, -⟩ := h
  · exact State.refusedNow_of_other (by rw [h]; decide) (by rw [h]; decide) b
  · exact State.refusedNow_of_allowed h
  · exact State.refusedNow_of_other (by rw [h]; decide) (by rw [h]; decide) b

theorem State.opens.serveNow (h : b.opens m) : b.serveNow m = b.openTx m.line (.req m) := by
  unfold State.serveNow State.takePoison
  obtain h | ⟨h | h, hf⟩ | ⟨h, h8⟩ := h
  · simp [h]
  · simp [h, hf]
  · simp [h, hf]
  · simp [h, h8]

theorem State.serveNow_refused (h : m.ty = .getM ∨ m.ty = .getU) (hf : b.fwAllows m.src m.line = false) :
    b.serveNow m = b.sendMsg .nak (lineHome m.line) m.src m.src m.line (txid := m.txid) := by
  unfold State.serveNow
  obtain h | h := h <;> simp [h, hf]

/-- A Put has been taken or not: it is Acked. -/
def State.putAcked (t : State) (m : Msg) : State :=
  let t := t.modDir m.line fun d => { d with tx := some { k := .req m } }
  let t := (t.sendAck (lineHome m.line) m.src m.line ackPut 0 m.txid).granted m
  match (t.dir m.line).tx with
  | some x => if x.got = true then t.closeTx m.line else t
  | none => t

theorem State.serveNow_put (h : m.ty = .putM ∨ m.ty = .putO ∨ m.ty = .putU) :
    b.serveNow m = State.putAcked
      (if !b.putStands m then b
       else if m.ty == .putU then
         (if (b.dir m.line).st == .update && (b.dir m.line).cells.getLsbD (b.cellOf m.src) then b.takePartial m else b)
       else if (b.dir m.line).owns && (b.dir m.line).owner == b.cellOf m.src then b.takeLine m
       else b) m := if_pos h

theorem State.serveNow_put_gone (h : m.ty = .putM ∨ m.ty = .putO ∨ m.ty = .putU) (hp : b.putStands m = false) :
    b.serveNow m = b.putAcked m := by
  rw [State.serveNow_put h, hp, Bool.not_false, if_pos rfl]

theorem State.serveNow_put_line (h : m.ty = .putM ∨ m.ty = .putO) (hp : b.putStands m = true)
    (hd : (b.dir m.line).st = .excl ∨ (b.dir m.line).st = .owned) (ho : (b.dir m.line).owner = b.cellOf m.src) :
    b.serveNow m = (b.takeLine m).putAcked m := by
  have hu : (m.ty == .putU) = false := by obtain h | h := h <;> rw [h] <;> rfl
  rw [State.serveNow_put (h.imp_right Or.inl), hp, hu, (Dir.owns_iff _).2 hd, ho, beq_self_eq_true]
  rfl

theorem State.serveNow_put_part (h : m.ty = .putU) (hp : b.putStands m = true) (hd : (b.dir m.line).st = .update)
    (hc : (b.dir m.line).cells.getLsbD (b.cellOf m.src) = true) : b.serveNow m = (b.takePartial m).putAcked m := by
  rw [State.serveNow_put (Or.inr (Or.inr h)), hp, h, hd, hc]
  rfl

end

/-! ### A request that arrives -/

/-- An event is one of a request that arrives: it first looks at the message of its type. -/
def RequestEvent (p j : Nat) (e : MsgTy × Instr) : Prop := ∀ s, exec e.2 s = onRequest e.1 p j s

theorem requestEvent_of_mem {p j : Nat} {e : MsgTy × Instr}
    (he : e ∈ [(MsgTy.getS, Instr.gets p j), (.getM, .getm p j), (.getU, .getu p j), (.putM, .putm p j), (.putO, .puto p j),
      (.putU, .putu p j), (.flush, .flush p j)]) : RequestEvent p j e := by
  simp only [List.mem_cons, List.not_mem_nil, or_false] at he
  obtain rfl | rfl | rfl | rfl | rfl | rfl | rfl := he <;> exact fun _ => rfl

section
variable {s : State} {p j : Nat} {e : MsgTy × Instr} {m : Msg}

theorem RequestEvent.none (he : RequestEvent p j e) (h : s.arrived p j e.1 = none) : exec e.2 s = .next s := by
  rw [he, onRequest, h]

theorem RequestEvent.bad (he : RequestEvent p j e) (h : s.arrived p j e.1 = some m) (hb : m.bad = true) :
    exec e.2 s = .next (s.homeTag m) := by
  rw [he, onRequest, h]
  simp only [hb, if_true]

theorem RequestEvent.good (he : RequestEvent p j e) (h : s.arrived p j e.1 = some m) (hb : m.bad = false)
    (hr : m.released = false) : exec e.2 s = .next ((s.dropMsg j).serve m) := by
  rw [he, onRequest, h]
  simp only [hb, Bool.false_eq_true, if_false, State.homeClean_of_new hr]

end

theorem State.homeTag_bare (s : State) {m : Msg} (h : m.carries = false) : s.homeTag m = s.askAgain m.dst m := by
  rw [State.homeTag, h]
  rfl

theorem State.homeTag_line {s : State} {m : Msg} (h : m.carries = true) (hq : m.part = none) (hp : (s.dir m.line).psn = false) :
    s.homeTag m = (s.modDir m.line fun d => { d with psn := true }).askAgain m.dst { m with released := true } := by
  rw [State.homeTag, h, hq, hp]
  rfl

/-! ### A partial joins memory (R340) -/

/-- The elements of a partial from the first on. -/
def State.combineTo (s : State) (line : Nat) (q : Part) (k : Nat) : State :=
  (List.range k).foldl (fun s k =>
    s.write (line * 128 + k * (q.bind.bits / 8)) (q.bind.bits / 8)
      (q.bind.combine (s.read (line * 128 + k * (q.bind.bits / 8)) (q.bind.bits / 8)) (q.at (k * (q.bind.bits / 8))))) s

theorem State.combineTo_succ (s : State) (line : Nat) (q : Part) (k : Nat) :
    s.combineTo line q (k + 1) = (s.combineTo line q k).write (line * 128 + k * (q.bind.bits / 8)) (q.bind.bits / 8)
      (q.bind.combine ((s.combineTo line q k).read (line * 128 + k * (q.bind.bits / 8)) (q.bind.bits / 8))
        (q.at (k * (q.bind.bits / 8)))) := by
  rw [State.combineTo, List.range_succ, List.foldl_append]
  rfl

/-- Bytes outside the elements combined so far are as before. -/
theorem State.byte_combineTo (s : State) (line : Nat) (q : Part) {k y : Nat}
    (h : y < line * 128 ∨ line * 128 + k * (q.bind.bits / 8) ≤ y) : (s.combineTo line q k).byte y = s.byte y := by
  induction k with
  | zero => rfl
  | succ k ih =>
    rw [Nat.succ_mul] at h
    rw [State.combineTo_succ, State.byte_write_ne, ih]
    · omega
    · omega

theorem State.read_combineTo_later (s : State) (line : Nat) (q : Part) {k i n : Nat} (h : k ≤ i) :
    (s.combineTo line q k).read (line * 128 + i * (q.bind.bits / 8)) n = s.read (line * 128 + i * (q.bind.bits / 8)) n := by
  have hi : k * (q.bind.bits / 8) ≤ i * (q.bind.bits / 8) := Nat.mul_le_mul_right _ h
  exact readBy_congr fun x _ => s.byte_combineTo line q (Or.inr (by omega))

theorem State.read_combineTo (s : State) (line : Nat) (q : Part) {k i : Nat} (h : i < k) :
    (s.combineTo line q k).read (line * 128 + i * (q.bind.bits / 8)) (q.bind.bits / 8)
      = q.bind.combine (s.read (line * 128 + i * (q.bind.bits / 8)) (q.bind.bits / 8)) (q.at (i * (q.bind.bits / 8)))
        % 256 ^ (q.bind.bits / 8) := by
  induction k with
  | zero => omega
  | succ k ih =>
    rw [State.combineTo_succ]
    obtain hik | rfl := Nat.lt_succ_iff_lt_or_eq.1 h
    · have hmul : (i + 1) * (q.bind.bits / 8) ≤ k * (q.bind.bits / 8) := Nat.mul_le_mul_right _ hik
      rw [Nat.succ_mul] at hmul
      rw [State.read_write_ne _ _ _ _ _ _ (by omega), ih hik]
    · rw [State.read_write_same, State.read_combineTo_later _ _ _ le_rfl]

theorem Bind.elements_fill (b : Bind) : 128 / (b.bits / 8) * (b.bits / 8) = 128 := by
  unfold Bind.bits
  cases b.w32 <;> rfl

/-! ### The obligation's clauses -/

section
variable {b : State} {m : Msg}

/-- A request of an uncached line, by its type. -/
theorem State.serveNow_uncached (hd : (b.dir m.line).st = .uncached) (ho : b.opens m) :
    b.serveNow m = ((b.opened m 1 []).answerReq m { k := .req m, phase := 1 }).ends m.line := by
  have hl : b.noneLost m := by
    unfold State.noneLost Dir.lostIn Dir.owns
    rw [hd]
    rfl
  rw [ho.serveNow, State.openTx_answered (State.invList_unshared _ (by rw [hd]; decide) (by rw [hd]; decide)) ho.refusedNow hl
    (State.fwdPlan_none _ (Or.inl hd))]

theorem State.serveNow_uncached_reads (hd : (b.dir m.line).st = .uncached) (ho : b.opens m) (hf : m.ty ≠ .flush) :
    b.serveNow m = ((b.opened m 1 []).fromMemory m).ends m.line := by
  have hr : ReadsMemory m .uncached (((b.opened m 1 []).dir m.line).binds m) := by
    unfold ReadsMemory
    obtain h | ⟨h | h, -⟩ | ⟨h, -⟩ := ho
    · rw [h]
      trivial
    · rw [h]
      trivial
    · rw [h]
      trivial
    · exact absurd h hf
  rw [State.serveNow_uncached hd ho, State.answerReq_reads (by rw [State.dir_opened]; exact hd) hr]

end

/-- Settles O46: a request opens a transaction whose first messages are `invList` or `fwdPlan`, or which is answered at once;
the answers are R339's rows, and a partial combines one element after another. -/
theorem homeRequests : Obligations.HomeRequests := by
  unfold Obligations.HomeRequests
  intro s p j kinds
  refine ⟨?none, ?dequeue, ?bad, ?requests, ?answers, ?partials⟩
  case none => exact fun e he h => (requestEvent_of_mem he).none h
  case dequeue =>
    exact fun line => rfl
  case bad =>
    intro m e he h hb
    rw [(requestEvent_of_mem he).bad h hb]
    exact ⟨fun hc => by rw [State.homeTag_bare s hc], fun hc hq hp => by rw [State.homeTag_line hc hq hp]⟩
  case requests =>
    intro m e he h hb hr hw b d hm a free ends hl
    have hserve : exec e.2 s = .next ((s.dropMsg j).serve m) := (requestEvent_of_mem he).good h hb hr
    have hnow (hf : free) (herr : d.err = 0 ∨ m.ty = .putM ∨ m.ty = .putO) : exec e.2 s = .next (b.serveNow m) :=
      hserve.trans (congrArg Host.Outcome.next (State.serve_free hw hl hf herr))
    refine ⟨fun hf => ?_, fun hf herr hst => ?uncached, fun hf herr hlost => ?held, fun hf => ?puts⟩
    · exact hserve.trans (congrArg Host.Outcome.next (State.serve_waits hw hl hf))
    case uncached =>
      intro opened read clear
      have hdir := State.dir_opened b m 1 []
      have hreads (ho : b.opens m) (hty : m.ty ≠ .flush) : exec e.2 s = .next (((b.opened m 1 []).fromMemory m).ends m.line) := by
        rw [hnow hf (Or.inl herr), State.serveNow_uncached_reads hst ho hty]
      refine ⟨fun hty hc => ?_, fun hty hc => ?_, fun hty hfw => ?_, fun hty hfw => ?_, fun hty hfw => ?_, fun hty h8 => ?_⟩
      · rw [hreads (Or.inl hty) (by rw [hty]; decide),
          State.fromMemory_excl (s := b.opened m 1 []) hty (by rw [hdir]; exact hc.1) hc.2]
        rfl
      · rw [hreads (Or.inl hty) (by rw [hty]; decide), State.fromMemory_shared (s := b.opened m 1 []) hty (by rw [hdir]; exact hc),
          hdir]
        rfl
      · rw [hnow hf (Or.inl herr), State.serveNow_refused hty hfw]
      · have ho : b.opens m := Or.inr (Or.inl ⟨Or.inl hty, hfw⟩)
        rw [hreads ho (by rw [hty]; decide), State.fromMemory_getM (s := b.opened m 1 []) hty ho.refusedNow, hdir]
        rfl
      · have ho : b.opens m := Or.inr (Or.inl ⟨Or.inr hty, hfw⟩)
        rw [hreads ho (by rw [hty]; decide), State.fromMemory_getU (s := b.opened m 1 []) hty ho.refusedNow]
        rfl
      · rw [hnow hf (Or.inl herr), State.serveNow_uncached hst (Or.inr (Or.inr ⟨hty, h8⟩)),
          State.answerReq_flush_clean hty (Or.inl (by rw [hdir]; exact hst))]
        rfl
    case held =>
      intro opened asks others owner holders gains flushes
      have hopen (ho : b.opens m) : exec e.2 s = .next (b.openTx m.line (.req m)) := by rw [hnow hf (Or.inl herr), ho.serveNow]
      have hdir := State.dir_opened b m 1 []
      refine ⟨fun hst hg hne => ?_, fun hst hty => ?_, fun hst hty => ?_, fun hst hne => ⟨fun hty => ?_, fun hty => ?_, fun hg hx =>
        ⟨fun hty => ?_, fun hty => ?_⟩⟩, fun hst hbind hg => ?_, fun hst hbind hne hty => ?_⟩
      · exact (hopen (Or.inr (Or.inl hg))).trans (congrArg Host.Outcome.next (State.openTx_invs (State.invList_shared _ hst hg.1) hne))
      · have ho : b.opens m := Or.inl hty
        rw [hopen ho, State.openTx_answered (State.invList_read _ _ (by rw [hty]; decide) (by rw [hty]; decide)) ho.refusedNow hlost
          (State.fwdPlan_none _ (Or.inr hst)), State.answerReq_getS_shared hty (by rw [hdir]; exact hst), hdir]
        rfl
      · have ho : b.opens m := Or.inr (Or.inr hty)
        rw [hopen ho, State.openTx_answered (State.invList_read _ _ (by rw [hty.1]; decide) (by rw [hty.1]; decide)) ho.refusedNow
          hlost (State.fwdPlan_none _ (Or.inr hst)), State.answerReq_flush_clean hty.1 (Or.inr (by rw [hdir]; exact hst))]
        rfl
      · have ho : b.opens m := Or.inl hty
        refine (hopen ho).trans (congrArg Host.Outcome.next (State.openTx_asks
          (State.invList_read _ _ (by rw [hty]; decide) (by rw [hty]; decide)) ho.refusedNow hlost ?_ hne))
        rw [State.fwdPlan_owned _ hst, hty]
      · have ho : b.opens m := Or.inr (Or.inr hty)
        refine (hopen ho).trans (congrArg Host.Outcome.next (State.openTx_asks
          (State.invList_read _ _ (by rw [hty.1]; decide) (by rw [hty.1]; decide)) ho.refusedNow hlost ?_ hne))
        rw [State.fwdPlan_owned _ hst, hty.1]
      · have ho : b.opens m := Or.inr (Or.inl hg)
        refine (hopen ho).trans (congrArg Host.Outcome.next (State.openTx_asks
          (State.invList_alone _ hst hg.1 hx) ho.refusedNow hlost ?_ hne))
        rw [State.fwdPlan_owned _ hst, hty]
      · have ho : b.opens m := Or.inr (Or.inl hg)
        refine (hopen ho).trans (congrArg Host.Outcome.next (State.openTx_asks
          (State.invList_alone _ hst hg.1 hx) ho.refusedNow hlost ?_ hne))
        rw [State.fwdPlan_owned _ hst, hty]
      · have ho : b.opens m := Or.inr (Or.inl hg)
        have hty : m.ty = .getU := Dir.binds_ty hbind
        rw [hopen ho, State.openTx_answered (State.invList_unshared _ (by rw [hst]; decide) (by rw [hst]; decide)) ho.refusedNow
          hlost (State.fwdPlan_binds _ hst hbind),
          State.answerReq_getU_binds (by rw [hdir]; exact hst) (by rw [hdir]; exact hbind) hty, hdir]
        rfl
      · exact (hopen hty).trans (congrArg Host.Outcome.next (State.openTx_asks
          (State.invList_unshared _ (by rw [hst]; decide) (by rw [hst]; decide)) (State.opens.refusedNow hty) hlost
          (State.fwdPlan_collect _ hst hbind) hne))
    case puts =>
      intro acked
      refine ⟨fun hty hp hst ho => ?_, fun hty hp => ?_, fun hty herr hp hst hc => ?_⟩
      · rw [hnow hf (Or.inr hty), State.serveNow_put_line hty hp hst ho]
        rfl
      · rw [hnow hf (Or.inr hty), State.serveNow_put_gone (hty.imp_right Or.inl) hp]
        rfl
      · rw [hnow hf (Or.inl herr), State.serveNow_put_part hty hp hst hc]
        rfl
  case answers =>
    intro m t d hm a share has
    refine ⟨State.endFwd_req, fun hty hh hd => State.answerReq_getS_none hty hh hd, State.answerReq_getS_excl, State.answerReq_getS_owned,
      State.answerReq_getM_got, State.answerReq_getM_own, State.answerReq_getM_none, fun hty hst => ?_, fun hty hst => ?_,
      fun hty hst => ?_, State.answerReq_flush_excl, State.answerReq_flush_owned, fun hty hst => ?_, ?_⟩
    · obtain hst | hst := hst <;> exact State.answerReq_reads hst (by unfold ReadsMemory; rw [hty]; trivial) t
    · obtain (hst | hst) | hst | ⟨hst, hb⟩ := hst
      · exact State.answerReq_reads hst (by unfold ReadsMemory; rw [hty]; trivial) t
      · exact State.answerReq_reads hst (by unfold ReadsMemory; rw [hty]; trivial) t
      · exact State.answerReq_reads hst (by unfold ReadsMemory; rw [hty]; trivial) t
      · exact State.answerReq_reads hst (by unfold ReadsMemory; rw [hty]; exact hb) t
    · exact State.answerReq_reads hst (by unfold ReadsMemory; rw [hty]; trivial) t
    · exact State.answerReq_reads hst (by unfold ReadsMemory; rw [hty]; trivial) t
    · exact ⟨fun hty hc => State.fromMemory_excl hty hc.1 hc.2, State.fromMemory_shared,
        fun hr => ⟨fun hty => State.fromMemory_getM hty hr, fun hty => State.fromMemory_getU hty hr⟩, State.fromMemory_flush⟩
  case partials =>
    intro line q n
    refine ⟨fun k hk => State.read_combineTo s line q hk, fun y hy => State.byte_combineTo s line q ?_⟩
    rw [Bind.elements_fill]
    exact hy

end Sys2Proof.Machine
end

section
/-! SUPPORT. A core's engines: the steps of a copy (R303), of a matrix command (R43, R45, R305 to R307) and of an epilogue (R309,
R310). -/

namespace Sys2Proof.Machine

/-! ### Copies -/

/-- A copy whose last byte has been written, and whose writes have all performed, leaves the engine. -/
def State.copyFinish (t : State) (ck u : Nat) : State :=
  match t.findCopy ck u with
  | some d => if t.copyOver ck d = true ∧ ((t.core ck).sent.any fun x => x.cmd.u == u) = false then t.copyDone ck d true else t
  | none => t

/-- What the choice of a copy comes to. -/
def State.copyStep (b : State) (ck u : Nat) (c : Cmd) (choice : Option Eng) : State :=
  match choice with
  | none => b.copyFinish ck u
  | some (.wait t) => t
  | some (.fail t a) => t.copyFail ck ((t.findCopy ck u).getD c) a
  | some (.ok t _) => t.copyFinish ck u

section
variable {s : State} {ck u : Nat}

theorem exec_copyComplete_gone (h : s.findCopy ck u = none) (hs : ((s.core ck).sent.find? fun x => x.u == u) = none) (k : Nat) :
    exec (.copyComplete ck u k) s = .next s := by
  change execCopyComplete ck u k s = _
  simp only [execCopyComplete, h, hs]

theorem exec_copyComplete_sent (h : s.findCopy ck u = none) {x : Sent}
    (hs : ((s.core ck).sent.find? fun x => x.u == u) = some x) (k : Nat) : exec (.copyComplete ck u k) s = .next (s.runSent ck x) := by
  change execCopyComplete ck u k s = _
  simp only [execCopyComplete, h, hs]

theorem exec_copyComplete_halted {c : Cmd} (h : s.findCopy ck u = some c) (hr : s.cmdRuns ck c = false) (k : Nat) :
    exec (.copyComplete ck u k) s = .next s := by
  change execCopyComplete ck u k s = _
  simp only [execCopyComplete, h, hr, Bool.not_false, true_or, if_true]

/-- A copy that runs makes its choice. -/
theorem exec_copyComplete_runs {c : Cmd} (h : s.findCopy ck u = some c) (hr : s.cmdRuns ck c = true)
    (hb : c.began = true ∨ s.copyMayBegin ck u = true) (k : Nat) :
    exec (.copyComplete ck u k) s = .next
      (if c.failed = true then s.copyDone ck c false
       else
        let b := s.modCopy ck u fun c => { c with began := true }
        b.copyStep ck u c (b.copyChoice ck { c with began := true } k)) := by
  have hgo : ¬ ((!s.cmdRuns ck c) = true ∨ (!c.began) = true ∧ (!s.copyMayBegin ck u) = true) := by
    rw [hr]
    rintro (h | ⟨h1, h2⟩)
    · cases h
    · obtain hb | hb := hb
      · rw [hb] at h1
        cases h1
      · rw [hb] at h2
        cases h2
  have hfin (t : State) : t.copyFinish ck u =
      (match t.findCopy ck u with
      | some c => if t.copyOver ck c && !(t.core ck).sent.any (fun x => x.cmd.u == u) then t.copyDone ck c true else t
      | none => t) := by
    unfold State.copyFinish
    cases t.findCopy ck u with
    | none => rfl
    | some d => exact if_congr (by rw [Bool.and_eq_true, Bool.not_eq_true']) rfl rfl
  change execCopyComplete ck u k s = _
  simp only [execCopyComplete, h, if_neg hgo]
  refine congrArg Host.Outcome.next (if_congr Iff.rfl rfl ?_)
  cases State.copyChoice (s.modCopy ck u fun c => { c with began := true }) ck { c with began := true } k with
  | none => exact (hfin _).symm
  | some e =>
    cases e with
    | wait t => rfl
    | fail t a => rfl
    | ok t v => exact (hfin _).symm

theorem exec_copyFailure_gone (h : s.findCopy ck u = none) (hm : s.findMat ck u = none)
    (ht : ∀ x ∈ (s.die (dkOf ck)).trigs, x.u ≠ u) (ho : ∀ o ∈ (s.die (dkOf ck)).ops, o.cmd.u ≠ u)
    (hb : ∀ x ∈ (s.die (dkOf ck)).binds, x.cmd.u ≠ u) (hp : ∀ x ∈ (s.die (dkOf ck)).puts, x.u ≠ u) (line : Nat) :
    exec (.copyFailure ck u line) s = .next s := by
  have ht' : ((s.die (dkOf ck)).trigs.find? fun x => x.u == u) = none := List.find?_eq_none.2 (by simpa using ht)
  have ho' : ((s.die (dkOf ck)).ops.find? fun o => o.cmd.u == u) = none := List.find?_eq_none.2 (by simpa using ho)
  have hb' : ((s.die (dkOf ck)).binds.find? fun b => b.cmd.u == u) = none := List.find?_eq_none.2 (by simpa using hb)
  have hp' : ((s.die (dkOf ck)).puts.find? fun c => c.u == u) = none := List.find?_eq_none.2 (by simpa using hp)
  change execCopyFailure ck u line s = _
  simp only [execCopyFailure, h, hm, ht', ho', hb', hp']

theorem exec_copyFailure_copy {c : Cmd} (h : s.findCopy ck u = some c) {a b : CopySide} (hs : s.copySides ck c = some (a, b))
    (line : Nat) :
    exec (.copyFailure ck u line) s = .next
      (if (c.began && s.cmdRuns ck c && (a.touches line || b.touches line)) = true then (s.sramLine line).copyFail ck c (line * 128)
       else s) := by
  change execCopyFailure ck u line s = _
  simp only [execCopyFailure, h, hs]

end

/-! ### Matrix commands -/

section
variable {s : State} {ck : Nat} {c : Cmd}

theorem exec_slabStep_idle (h : s.matHead ck = none ∨ s.powerHolds (pkgOfCore ck) 1 = true) (mism : Nat) :
    exec (.slabStep ck mism) s = .next s := by
  have hn : (if s.powerHolds (pkgOfCore ck) 1 then none else s.matHead ck) = none := by
    obtain h | h := h
    · rw [h, ite_self]
    · rw [if_pos h]
  change execSlabStep ck mism s = _
  simp only [execSlabStep, hn]

theorem cmdImage_mma {w : Word} (h : c.k = .mma w) : cmdImage c = w := by rw [cmdImage, h]

theorem cmdImage_mmac {w cl : Word} (h : c.k = .mmac w cl) : cmdImage c = w := by rw [cmdImage, h]

/-- A step of a command of a core alone that has begun. -/
theorem exec_slabStep_mma {w : Word} (hp : s.powerHolds (pkgOfCore ck) 1 = false) (hh : s.matHead ck = some c) (hk : c.k = .mma w)
    (hf : s.findMat ck c.u = some c) (hb : c.began = true) (hg : s.gridOf ck c.u = none) (mism : Nat) :
    exec (.slabStep ck mism) s = .next
      ((if c.pos < (matIm w).k / 32 then s.slabRun ck c (mism % 4) else s).matTryFinish ck c.u (mism / 4)) := by
  change execSlabStep ck mism s = _
  simp only [execSlabStep, hp, Bool.false_eq_true, if_false, hh, hk, hb, Bool.not_true, Bool.false_and, Bool.or_false, if_true, hf, hg,
    Option.filter_none, cmdImage_mma hk]

theorem exec_slabStep_disagree {w cl : Word} {g : GridOp} (hp : s.powerHolds (pkgOfCore ck) 1 = false) (hh : s.matHead ck = some c)
    (hk : c.k = .mmac w cl) (hb : c.began = true) (hf : s.findMat ck c.u = some c) (hg : s.gridOf ck c.u = some g)
    (hfull : g.full = true) (ha : g.agrees = false) (mism : Nat) :
    exec (.slabStep ck mism) s = .next (s.gridFail (dkOf ck) g) := by
  have hfil : (some g).filter (fun g => g.full && !g.agrees) = some g := by simp [Option.filter, hfull, ha]
  change execSlabStep ck mism s = _
  simp only [execSlabStep, hp, Bool.false_eq_true, if_false, hh, hk, hb, Bool.not_true, Bool.false_and, Bool.or_false, if_true, hf, hg,
    hfil]

/-- The first difference of a slab's residues counts. -/
def State.slabCounted (s : State) (ck : Nat) (c : Cmd) : State :=
  (s.modMat ck c.u fun c => { c with retried := true }).modCore ck fun x => { x with slabFix := x.slabFix + 1 }

theorem State.slabRun_once {x : SlabSrc} (hx : s.slabSrc ck c = some x) (hr : c.retried = false) :
    s.slabRun ck c 1 = s.slabCounted ck c := by
  simp only [State.slabRun, hx, hr]
  rfl

theorem State.slabRun_twice {x : SlabSrc} (hx : s.slabSrc ck c = some x) (hr : c.retried = false) {mism : Nat} (hm : 2 ≤ mism) :
    s.slabRun ck c mism = (s.slabCounted ck c).slabFail ck c := by
  have h0 : mism ≠ 0 := by omega
  simp only [State.slabRun, hx, hr, Bool.false_eq_true, if_false, Nat.add_zero, hm, h0, ne_eq, not_false_eq_true, Bool.not_false, and_self,
    if_true]
  rfl

theorem State.slabRun_again {x : SlabSrc} (hx : s.slabSrc ck c = some x) (hr : c.retried = true) {mism : Nat} (hm : mism ≠ 0) :
    s.slabRun ck c mism = s.slabFail ck c := by
  have h2 : 2 ≤ mism + 1 := by omega
  simp only [State.slabRun, hx, hr, if_true, h2, hm, ne_eq, not_false_eq_true, Bool.not_true, Bool.false_eq_true, and_false, if_false,
    and_self]

/-- A slab without a difference, of a command of a core alone that does not test for NaNs. -/
theorem State.slabRun_good {w : Word} {x : SlabSrc} (hx : s.slabSrc ck c = some x) (hk : c.k = .mma w) (hn : s.cmdNanTest ck c = false) :
    let acc := s.tile ck (s.cmdTile ck c (matIm w).acc)
    let t := s.modMat ck c.u fun y => { y with accs := s.slabAccs false false x c.pos acc c.accs, pos := y.pos + 1, retried := false }
    t.gridOf ck c.u = none → s.slabRun ck c 0 = t := by
  intro acc t hg
  simp only [State.slabRun, hx, hk, hn, cmdImage_mma hk, ne_eq, not_true_eq_false, false_and, and_false, if_false, Bool.false_and,
    Bool.false_eq_true, Nat.add_zero]
  change (match t.gridOf ck c.u with
    | some g => (t.setGridPos ck g.id (c.pos + 1)).setPhase ck c.ctx (c.pos + 1)
    | none => t) = t
  rw [hg]

theorem State.matTryFinish_early {u : Nat} {w : Word} (hf : s.findMat ck u = some c) (hk : c.k = .mma w) (hp : c.pos < (matIm w).k / 32)
    (k : Nat) : s.matTryFinish ck u k = s := by
  simp only [State.matTryFinish, hf, cmdImage_mma hk, hp, if_true]

theorem State.matTryFinish_over {u : Nat} {w : Word} (hf : s.findMat ck u = some c) (hk : c.k = .mma w)
    (hp : (matIm w).k / 32 ≤ c.pos) (k : Nat) :
    s.matTryFinish ck u k = if (s.storeAccs ck c k).2 = true then (s.storeAccs ck c k).1.matFinish ck c else (s.storeAccs ck c k).1 := by
  simp only [State.matTryFinish, hf, cmdImage_mma hk, Nat.not_lt.2 hp, if_false, hk]

theorem State.storeAccs_all {w : Word} (hk : c.k = .mma w) (hw : c.wr = []) :
    s.storeAccs ck c 0 =
      (let t := s.tile ck (s.cmdTile ck c (matIm w).acc)
       c.accs.foldl (fun s e => s.write (t.loc + 4 * e.1) 4 e.2.toNat) s, true) := by
  simp only [State.storeAccs, cmdImage_mma hk, hw, List.isEmpty_nil, if_true]

theorem State.storeAccs_one {w : Word} (hk : c.k = .mma w) {k j : Nat} (hj : c.unitsLeft[k]? = some j) :
    s.storeAccs ck c (k + 1) =
      (s.writeAccs ck c (s.tile ck (s.cmdTile ck c (matIm w).acc)) j, decide (c.unitsLeft.length ≤ 1)) := by
  simp only [State.storeAccs, cmdImage_mma hk, hj]

/-- The grid of a core that has not come together in time. -/
def State.lateGrid (s : State) (ck dk : Nat) (g : GridOp) : Bool :=
  (g.mem.any fun m => m.ck == ck) && !g.full && decide (g.since + (s.ctx (pkgOfDie dk) g.ctx).timer ≤ s.clock)

theorem exec_mmacTimeout_none (h : (s.die (dkOf ck)).grids.find? (s.lateGrid ck (dkOf ck)) = none) :
    exec (.mmacTimeout ck) s = .next s := by
  have h' := h
  unfold State.lateGrid at h'
  change execMmacTimeout ck s = _
  simp only [execMmacTimeout, h']

theorem exec_mmacTimeout_late {g : GridOp} (h : (s.die (dkOf ck)).grids.find? (s.lateGrid ck (dkOf ck)) = some g) :
    exec (.mmacTimeout ck) s = .next (s.gridFail (dkOf ck) g) := by
  have h' := h
  unfold State.lateGrid at h'
  change execMmacTimeout ck s = _
  simp only [execMmacTimeout, h']

end

/-! ### Epilogues -/

/-- What a step of an epilogue leaves: a failing access ends it. -/
def State.epiSettles (ck : Nat) (c : Cmd) (i : EpiIm) : Eng → State
  | .fail t a => (t.cmdFault c 4 a).epiEnd ck ((t.findMat ck c.u).getD c) i false
  | .wait t | .ok t _ => t

/-- The step of an epilogue that runs: a read of its parameter block while a part is left, then its row. -/
def State.epiRun (b : State) (ck : Nat) (c : Cmd) (i : EpiIm) (par : Option EAd) (be : Word) (dst : Nat) (acc out : Tile) (k : Nat) :
    Eng :=
  match c.unread (epiCuts i par acc.cols), par with
  | x :: rest, some a =>
    match (x :: rest)[k]? with
    | none => .wait b
    | some x =>
      match b.engRead ck c (a.plus x.1) x.2 with
      | .ok t v => .ok (t.modMat ck c.u fun c => { c with got := c.got ++ [(x.1, x.2, v)] }) 0
      | e => e
  | _, _ =>
    if i.draw ≠ 0 then b.rowDraw ck c i be acc out (c.epiPar acc.cols) k
    else b.rowWrite ck c i acc.rows k 0
      ((b.epiSpans acc out dst c.pos (acc.fmt == 12) i (c.epiPar acc.cols)).flatMap RowSpan.cuts)

section
variable {s : State} {ck : Nat}

theorem exec_epilogue_idle (h : s.matHead ck = none) (k : Nat) : exec (.epilogueRowStep ck k) s = .next s := by
  change execEpilogueRowStep ck k s = _
  simp only [execEpilogueRowStep, h]

/-- A row step of an epilogue at the head, by its branches. -/
theorem exec_epilogue {c : Cmd} {w : Word} {par : Option EAd} {be : Word} {dst : Nat} (hh : s.matHead ck = some c)
    (hk : c.k = .mepi w par be dst) (ho : s.obsBlocked c = false) (k : Nat) :
    exec (.epilogueRowStep ck k) s = .next
      (let i := epiIm w
       let acc := s.tile ck (s.cmdTile ck c i.acc)
       let out := s.tile ck (s.cmdTile ck c i.out)
       if i.glob && c.failed then s.epiEnd ck c i false
       else if i.glob && decide (acc.rows ≤ c.pos) then s.epiLast ck c i
       else if !i.glob && ((!c.began && out.readers != 0) || (c.wr.isEmpty && s.rowWaits ck c out)) then s
       else State.epiSettles ck c i ((s.modMat ck c.u fun c => { c with began := true }).epiRun ck c i par be dst acc out k)) := by
  change execEpilogueRowStep ck k s = _
  simp only [execEpilogueRowStep, hh, hk, ho, Bool.false_eq_true, if_false]
  rfl

end

section
variable {b : State} {ck : Nat} {c : Cmd} {i : EpiIm} {par : Option EAd} {be : Word} {dst : Nat} {acc out : Tile} {k : Nat}

theorem State.epiRun_read {a : EAd} {y : Nat × Nat} (hp : par = some a) (hy : (c.unread (epiCuts i par acc.cols))[k]? = some y) :
    b.epiRun ck c i par be dst acc out k =
      match b.engRead ck c (a.plus y.1) y.2 with
      | .ok t v => .ok (t.modMat ck c.u fun c => { c with got := c.got ++ [(y.1, y.2, v)] }) 0
      | e => e := by
  subst hp
  unfold State.epiRun
  generalize c.unread (epiCuts i (some a) acc.cols) = l at hy ⊢
  cases l with
  | nil => cases hy
  | cons x rest =>
    dsimp only
    rw [hy]

theorem State.epiRun_row (hl : c.unread (epiCuts i par acc.cols) = []) :
    b.epiRun ck c i par be dst acc out k =
      if i.draw ≠ 0 then b.rowDraw ck c i be acc out (c.epiPar acc.cols) k
      else b.rowWrite ck c i acc.rows k 0
        ((b.epiSpans acc out dst c.pos (acc.fmt == 12) i (c.epiPar acc.cols)).flatMap RowSpan.cuts) := by
  unfold State.epiRun
  rw [hl]

theorem State.rowDraw_alone (hc : acc.clus = false) (p : EpiPar) :
    b.rowDraw ck c i be acc out p k =
      (let v := rowPair c (b.cmdNanTest ck c) i be acc c.pos (epiTs (acc.fmt == 12) i p (b.accRow acc c.pos))
       b.rowWrite ck c i acc.rows k v.2 (RowSpan.cuts ⟨.loc (out.loc + 8 * c.pos), 8, v.1.toNat⟩)) := by
  simp only [State.rowDraw, hc]

/-- The parts of a row that have not been written. -/
def Cmd.rowLeft (c : Cmd) (l : List RowSpan) : List (RowSpan × Nat) := l.zipIdx.filter fun x => !(c.wr.any fun e => e.1 == x.2)

theorem State.rowWrite_part {l : List RowSpan} {rows nan j : Nat} {r : RowSpan} {t : State} {v : Nat}
    (hr : (c.rowLeft l)[k]? = some (r, j)) (hw : b.engWrite ck c r.at_ r.n r.v = .ok t v) :
    b.rowWrite ck c i rows k nan l =
      (let t := t.modMat ck c.u fun c => { c with wr := (j, 1) :: c.wr }
       .ok (if (c.rowLeft l).length ≤ 1 then t.rowDone ck c.u i rows nan else t) 0) := by
  unfold Cmd.rowLeft at hr
  simp only [State.rowWrite, hr, hw]
  rfl

end

/-! ### The accumulators of a slab (R43, R306) -/

/-- An entry stands at its key, where no other value does. -/
theorem Tab.look_of_unique {β : Type} {t : Tab β} {k : Nat} {v : β} (h : (k, v) ∈ t) (hu : ∀ w, (k, w) ∈ t → w = v) :
    Tab.look t k = some v := by
  induction t with
  | nil => cases h
  | cons e r ih =>
    obtain ⟨j, w⟩ := e
    rw [Tab.look]
    by_cases hj : j = k
    · subst hj
      rw [if_pos rfl, hu w List.mem_cons_self]
    · rw [if_neg hj]
      refine ih ?_ fun x hx => hu x (List.mem_cons_of_mem _ hx)
      obtain h | h := List.mem_cons.1 h
      · exact absurd (congrArg Prod.fst h).symm hj
      · exact h

/-- A table of rows and columns, by number. -/
def gridTab {β : Type} (rows cols : Nat) (f : Nat → Nat → β) : Tab β :=
  (List.range rows).flatMap fun m => (List.range cols).map fun n => (m * cols + n, f m n)

theorem mem_gridTab {β : Type} {rows cols : Nat} {f : Nat → Nat → β} {k : Nat} {v : β} :
    (k, v) ∈ gridTab rows cols f ↔ ∃ m < rows, ∃ n < cols, m * cols + n = k ∧ f m n = v := by
  simp [gridTab]

theorem look_gridTab {β : Type} {rows cols : Nat} (f : Nat → Nat → β) {m n : Nat} (hm : m < rows) (hn : n < cols) :
    Tab.look (gridTab rows cols f) (m * cols + n) = some (f m n) := by
  refine Tab.look_of_unique (mem_gridTab.2 ⟨m, hm, n, hn, rfl, rfl⟩) fun w hw => ?_
  obtain ⟨m', -, n', hn', he, rfl⟩ := mem_gridTab.1 hw
  have hmod : n' = n := by
    have h := congrArg (· % cols) he
    simpa [Nat.mul_add_mod', Nat.mod_eq_of_lt hn, Nat.mod_eq_of_lt hn'] using h
  subst hmod
  have hdiv : m' = m := Nat.eq_of_mul_eq_mul_right (Nat.zero_lt_of_lt hn) (Nat.add_right_cancel he)
  rw [hdiv]

section
variable {s : State} {nt batch : Bool} {x : SlabSrc} {pos : Nat} {acc : Tile} {old : Tab (BitVec 32)} {m n : Nat}

/-- The operand row that an accumulator's column reads. -/
def slabColumn (batch : Bool) (m n : Nat) : Nat := if batch then m / 32 * 32 + n else n

theorem slabColumn_lt (hn : n < acc.cols) (hb : batch = true → slabColumn batch m n < acc.rows) :
    slabColumn batch m n < if batch then acc.rows else acc.cols := by
  cases batch with
  | false => exact hn
  | true => exact hb rfl

theorem State.slabAccs_int (hf : acc.fmt = 12) (hm : m < acc.rows) (hn : n < acc.cols)
    (hb : batch = true → slabColumn batch m n < acc.rows) :
    Tab.look (s.slabAccs nt batch x pos acc old) (m * acc.cols + n) =
      some (slabInt (Tab.getOr old (m * acc.cols + n) 0)
        ((s.slabInts x.ta m (x.ka + 32 * pos)).zip (s.slabInts x.tb (slabColumn batch m n) (x.kb + 32 * pos)))) := by
  have hrow := List.getElem?_range (slabColumn_lt hn hb)
  unfold slabColumn at hrow
  refine (look_gridTab _ hm hn).trans ?_
  simp only [hf, beq_self_eq_true, if_true, List.getElem?_map, hrow]
  rfl

theorem State.slabAccs_fp (hf : acc.fmt ≠ 12) (hm : m < acc.rows) (hn : n < acc.cols)
    (hb : batch = true → slabColumn batch m n < acc.rows) :
    Tab.look (s.slabAccs nt batch x pos acc old) (m * acc.cols + n) =
      some (slabFp (Tab.getOr old (m * acc.cols + n) 0)
        ((s.slabRow nt x.ta m (x.ka + 32 * pos)).zip (s.slabRow nt x.tb (slabColumn batch m n) (x.kb + 32 * pos)))) := by
  have hrow := List.getElem?_range (slabColumn_lt hn hb)
  unfold slabColumn at hrow
  refine (look_gridTab _ hm hn).trans ?_
  simp only [beq_false_of_ne hf, Bool.false_eq_true, if_false, List.getElem?_map, hrow]
  rfl

theorem State.slabInts_zip (s : State) (t t' : Tile) (r r' k k' : Nat) :
    (s.slabInts t r k).zip (s.slabInts t' r' k') = (List.range 32).map fun j =>
      (toInt (codeWidth t.fmt) true (s.tileGet t r (k + j)), toInt (codeWidth t'.fmt) true (s.tileGet t' r' (k' + j))) := by
  rw [State.slabInts, State.slabInts, List.zip_map']

theorem State.slabRow_zip (s : State) (nt : Bool) (t t' : Tile) (r r' k k' : Nat) :
    (s.slabRow nt t r k).zip (s.slabRow nt t' r' k') = (List.range 32).map fun j =>
      ((s.matElem t r (k + j)).tested nt, (s.matElem t' r' (k' + j)).tested nt) := by
  rw [State.slabRow, State.slabRow, List.zip_map']

end

/-- Settles O44: copies, slabs, epilogues and accumulators, each by the branch that its state takes. -/
theorem engineEvents : Obligations.EngineEvents := by
  unfold Obligations.EngineEvents
  intro s ck
  refine ⟨?copies, fun mism h => exec_slabStep_idle h mism, fun k h => exec_epilogue_idle h k, ?finish, ?slabs, ?accs,
    fun mism c w cl g hp hh hk hb hf hg hfull ha => exec_slabStep_disagree hp hh hk hb hf hg hfull ha mism, ?timeout, ?epilogue⟩
  case copies =>
    intro u k line sent
    refine ⟨fun h => ⟨fun hs => exec_copyComplete_gone h hs k, fun x hs => exec_copyComplete_sent h hs k⟩,
      fun h hm ht ho hb hp => exec_copyFailure_gone h hm ht ho hb hp line, fun c h => ?_⟩
    intro finish
    refine ⟨fun hr => ?_, fun hr hb hf => ?_, fun hr hb hf => ?_, fun a b hs => ⟨fun ht hb hr => ?_, fun hn => ?_⟩⟩
    · exact exec_copyComplete_halted h hr k
    · rw [exec_copyComplete_runs h hr hb, if_pos hf]
    · have hgo := (exec_copyComplete_runs h hr hb k).trans (congrArg Host.Outcome.next (if_neg (Bool.eq_false_iff.1 hf)))
      have hstep {r : Option Eng} (hc : State.copyChoice _ ck { c with began := true } k = r) :
          exec (.copyComplete ck u k) s = .next ((s.modCopy ck u fun c => { c with began := true }).copyStep ck u c r) :=
        hgo.trans (congrArg (fun x => Host.Outcome.next (State.copyStep _ ck u c x)) hc)
      exact ⟨hstep, fun t => hstep, fun t a => hstep, fun t v => hstep⟩
    · rw [exec_copyFailure_copy h hs, if_pos]
      · rfl
      · rw [hb, hr, Bool.true_and, Bool.true_and, Bool.or_eq_true]
        exact ht
    · rw [exec_copyFailure_copy h hs, if_neg]
      obtain ⟨ha, hb⟩ | h | h := hn
      · rw [ha, hb, Bool.or_false, Bool.and_false]
        exact Bool.false_ne_true
      · rw [h, Bool.false_and, Bool.false_and]
        exact Bool.false_ne_true
      · rw [h, Bool.and_false, Bool.false_and]
        exact Bool.false_ne_true
  case finish =>
    intro mism c w hp hh hk hf hb hg hn
    rw [exec_slabStep_mma hp hh hk hf hb hg, if_neg (Nat.not_lt.2 hn)]
  case slabs =>
    intro mism c w x hp hh hk hf hb hg hn hx counted goes
    have hgo : exec (.slabStep ck mism) s = .next ((s.slabRun ck c (mism % 4)).matTryFinish ck c.u (mism / 4)) := by
      rw [exec_slabStep_mma hp hh hk hf hb hg, if_pos hn]
    refine ⟨fun h1 hr => ?_, fun h2 hr => ?_, fun h0 hr => ?_, fun h0 hnt => ?_⟩
    · rw [h1, State.slabRun_once hx hr] at hgo
      exact hgo
    · rw [State.slabRun_twice hx hr h2] at hgo
      exact hgo
    · rw [State.slabRun_again hx hr h0] at hgo
      exact hgo
    · intro acc t hgrid
      rw [h0, State.slabRun_good hx hk hnt hgrid] at hgo
      exact hgo
  case accs =>
    intro u c w hf hk t
    refine ⟨fun hp k => State.matTryFinish_early hf hk hp k, fun hp => ⟨fun hw => ?_, fun k j hj => ?_⟩⟩
    · rw [State.matTryFinish_over hf hk hp, State.storeAccs_all hk hw]
      rfl
    · rw [State.matTryFinish_over hf hk hp, State.storeAccs_one hk hj]
      exact if_congr decide_eq_true_iff rfl rfl
  case timeout =>
    intro dk hdk late
    subst hdk
    exact ⟨exec_mmacTimeout_none, fun g => exec_mmacTimeout_late⟩
  case epilogue =>
    intro c w par be dst hh hk ho i acc out b left p settles runs
    have hx := exec_epilogue hh hk ho
    refine ⟨fun hg hf k => ?_, fun hg hf hp k => ?_, fun hg hw k => ?_, fun hruns => ?run, ?values⟩
    · exact (hx k).trans (congrArg Host.Outcome.next (if_pos (by rw [Bool.and_eq_true]; exact ⟨hg, hf⟩)))
    · refine (hx k).trans (congrArg Host.Outcome.next ((if_neg ?_).trans (if_pos ?_)))
      · rw [hf, Bool.and_false]
        exact Bool.false_ne_true
      · rw [Bool.and_eq_true, decide_eq_true_eq]
        exact ⟨hg, hp⟩
    · refine (hx k).trans (congrArg Host.Outcome.next ((if_neg ?_).trans ((if_neg ?_).trans (if_pos ?_))))
      · rw [show (epiIm w).glob = false from hg, Bool.false_and]
        exact Bool.false_ne_true
      · rw [show (epiIm w).glob = false from hg, Bool.false_and]
        exact Bool.false_ne_true
      · rw [show (epiIm w).glob = false from hg]
        simpa using hw
    case values =>
      intro nt batch x pos acc old m n hm hn row hb a k out
      refine ⟨fun hf => (State.slabAccs_int hf hm hn hb).trans ?_, fun hf => (State.slabAccs_fp hf hm hn hb).trans ?_⟩
      · rw [State.slabInts_zip]
        simp only [Nat.add_assoc]
        rfl
      · rw [State.slabRow_zip]
        simp only [Nat.add_assoc]
        rfl
    have hrun (k : Nat) : exec (.epilogueRowStep ck k) s = .next (settles (b.epiRun ck c i par be dst acc out k)) := by
      refine (hx k).trans (congrArg Host.Outcome.next ((if_neg ?_).trans ((if_neg ?_).trans ((if_neg ?_).trans ?_))))
      · obtain ⟨-, hf, -⟩ | ⟨hg, -⟩ := hruns
        · rw [hf, Bool.and_false]
          exact Bool.false_ne_true
        · rw [show (epiIm w).glob = false from hg, Bool.false_and]
          exact Bool.false_ne_true
      · obtain ⟨-, -, hp⟩ | ⟨hg, -⟩ := hruns
        · rw [decide_eq_false (Nat.not_le.2 hp), Bool.and_false]
          exact Bool.false_ne_true
        · rw [show (epiIm w).glob = false from hg, Bool.false_and]
          exact Bool.false_ne_true
      · obtain ⟨hg, -⟩ | ⟨hg, hb, hw⟩ := hruns
        · rw [show (epiIm w).glob = true from hg, Bool.not_true, Bool.false_and]
          exact Bool.false_ne_true
        · rw [show (epiIm w).glob = false from hg, Bool.not_false, Bool.true_and, Bool.or_eq_true, Bool.and_eq_true, Bool.and_eq_true]
          rintro (⟨h1, h2⟩ | ⟨h1, h2⟩)
          · obtain hb | hb := hb
            · rw [hb] at h1
              cases h1
            · exact absurd hb (bne_iff_ne.1 h2)
          · obtain hw | hw := hw
            · exact hw (List.isEmpty_iff.1 h1)
            · exact Bool.false_ne_true (hw.symm.trans h2)
      · rfl
    refine ⟨fun a k y hpar hy => ?_, fun hl hd k => ?_, fun hl hd => ?_, fun hc k => State.rowDraw_alone hc p,
      fun l k r j t v nan hr hw => State.rowWrite_part hr hw⟩
    · rw [hrun, State.epiRun_read hpar hy]
      cases b.engRead ck c (a.plus y.1) y.2 <;> rfl
    · rw [hrun, State.epiRun_row hl, if_pos hd]
    · intro l k
      rw [hrun, State.epiRun_row hl, if_neg (not_not.2 hd)]
      rfl

end Sys2Proof.Machine
end

section
/-! SUPPORT. The collective engine: messages of the chunk class (R356, R359, R365, R366), timeouts (R352, R355), the ring (R362) and
arbitration (R360). -/

namespace Sys2Proof.Machine

/-! ### Messages of the chunk class -/

section
variable {s : State} {p j kind : Nat} {f : Nat → Msg → State} {m : Msg}

theorem onChunk_none (h : s.arrived p j .chunk = none) : onChunk p j kind s f = .next s := by rw [onChunk, h]

theorem onChunk_other (h : s.arrived p j .chunk = some m) (hk : m.kind ≠ kind) : onChunk p j kind s f = .next s := by
  simp only [onChunk, h, ne_eq, hk, not_false_eq_true, if_true]

theorem onChunk_bad (h : s.arrived p j .chunk = some m) (hk : m.kind = kind) (hb : m.bad = true) :
    onChunk p j kind s f = .next (s.askAgain p m) := by
  simp only [onChunk, h, ne_eq, hk, not_true_eq_false, if_false, hb, if_true]

theorem onChunk_good (h : s.arrived p j .chunk = some m) (hk : m.kind = kind) (hb : m.bad = false) :
    onChunk p j kind s f = .next (f (dieKey p m.ddie) m) := by
  simp only [onChunk, h, ne_eq, hk, not_true_eq_false, if_false, hb, Bool.false_eq_true]

end

/-- An event is one of a message of the chunk class: it first looks at the message's kind. -/
def ChunkEvent (p j : Nat) (e : Nat × Instr) : Prop := ∀ s, ∃ f, exec e.2 s = onChunk p j e.1 s f

theorem chunkEvent_of_mem {p j k : Nat} {e : Nat × Instr}
    (he : e ∈ [(0, Instr.chunkData p j k), (1, .chunkAcknowledgement p j), (2, .barrierToken p j), (3, .chunkRefusal p j),
      (4, .chunkTriggered p j k)]) : ChunkEvent p j e := by
  simp only [List.mem_cons, List.not_mem_nil, or_false] at he
  intro s
  obtain rfl | rfl | rfl | rfl | rfl := he
  · exact ⟨_, show execChunkData p j k s = _ from rfl⟩
  · exact ⟨_, show execChunkAcknowledgement p j s = _ from rfl⟩
  · exact ⟨_, show execBarrierToken p j s = _ from rfl⟩
  · exact ⟨_, show execChunkRefusal p j s = _ from rfl⟩
  · exact ⟨_, show execChunkTriggered p j k s = _ from rfl⟩

/-- A good message of a kind that has arrived. -/
structure ChunkHere (s : State) (p j kind : Nat) (m : Msg) : Prop where
  came : s.arrived p j .chunk = some m
  kind : m.kind = kind
  good : m.bad = false

/-! ### A chunk of an operation -/

/-- What a chunk whose halves are both there makes of the operation's step. -/
def State.dataStep (s : State) (dk k : Nat) (o : CollOp) (m m2 lo hi : Msg) : State :=
  match s.collStep dk o m.index m.step k (some (joinHalves m.pres lo.bytes hi.bytes, m.pres)) with
  | .wait t => t
  | .fail t a => (t.acceptChunk dk [m, m2]).collFail dk o a
  | .ok t _ => (t.acceptChunk dk [m, m2]).answerChunk dk m 1

/-- CHUNK_DATA, after the checks that R359 makes of every message of an operation. -/
def State.dataFor (s : State) (p dk k : Nat) (m : Msg) : State :=
  match s.collOp dk m.comm m.seq with
  | none => if m.seq ≤ (s.comm dk m.comm).issued then s.dropMsg m.u else s
  | some o =>
    match s.sibling p m with
    | none => s
    | some m2 =>
      if !o.begun then s
      else s.dataStep dk k o m m2 (if m.half = 0 then m else m2) (if m.half = 0 then m2 else m)

/-- BARRIER_TOKEN, after those checks. -/
def State.tokenFor (s : State) (dk : Nat) (m : Msg) : State :=
  match s.collOp dk m.comm m.seq, ringPos (s.comm dk m.comm).ring (m.src, m.sdie) with
  | some o, some q => ((s.acceptChunk dk [m]).modOp dk o.cmd.u fun o => { o with tokens := o.tokens ++ [q] }).answerChunk dk m 1
  | _, _ => if m.seq ≤ (s.comm dk m.comm).issued then s.dropMsg m.u else s

/-- The checks of R359: a duplicate, a communicator that is not bound, and an older order of the ring. -/
def State.chunkChecked (s : State) (dk : Nat) (m : Msg) (go : State) : State :=
  if s.hasAccepted dk m then s.dupChunk dk m true
  else if (s.comm dk m.comm).st = 0 then s.dropMsg m.u
  else if m.txid ≠ (s.comm dk m.comm).reform then s.dupChunk dk m false
  else go

section
variable {s : State} {dk : Nat} {m : Msg} {go : State}

theorem State.chunkChecked_again (h : s.hasAccepted dk m = true) : s.chunkChecked dk m go = s.dupChunk dk m true := if_pos h

theorem State.chunkChecked_unbound (h : s.hasAccepted dk m = false) (hs : (s.comm dk m.comm).st = 0) :
    s.chunkChecked dk m go = s.dropMsg m.u := by
  rw [State.chunkChecked, if_neg (Bool.eq_false_iff.1 h), if_pos hs]

theorem State.chunkChecked_old (h : s.hasAccepted dk m = false) (hs : (s.comm dk m.comm).st ≠ 0)
    (ht : m.txid ≠ (s.comm dk m.comm).reform) : s.chunkChecked dk m go = s.dupChunk dk m false := by
  rw [State.chunkChecked, if_neg (Bool.eq_false_iff.1 h), if_neg hs, if_pos ht]

theorem State.chunkChecked_new (h : s.hasAccepted dk m = false) (hs : (s.comm dk m.comm).st ≠ 0)
    (ht : m.txid = (s.comm dk m.comm).reform) : s.chunkChecked dk m go = go := by
  rw [State.chunkChecked, if_neg (Bool.eq_false_iff.1 h), if_neg hs, if_neg (not_not.2 ht)]

end

section
variable {s : State} {p j k : Nat} {m : Msg}

theorem exec_chunkData (h : ChunkHere s p j 0 m) :
    exec (.chunkData p j k) s = .next (s.chunkChecked (dieKey p m.ddie) m (s.dataFor p (dieKey p m.ddie) k m)) := by
  change execChunkData p j k s = _
  rw [execChunkData, onChunk_good h.came h.kind h.good]
  by_cases hh : m.half = 0
  · simp only [hh, if_true, State.chunkChecked, State.dataFor, State.dataStep] <;> rfl
  · simp only [hh, if_false, State.chunkChecked, State.dataFor, State.dataStep] <;> rfl

theorem exec_barrierToken (h : ChunkHere s p j 2 m) :
    exec (.barrierToken p j) s = .next (s.chunkChecked (dieKey p m.ddie) m (s.tokenFor (dieKey p m.ddie) m)) := by
  change execBarrierToken p j s = _
  rw [execBarrierToken, onChunk_good h.came h.kind h.good]
  rfl

end

section
variable {s : State} {p dk k : Nat} {m : Msg}

theorem State.dataFor_over (h : s.collOp dk m.comm m.seq = none) :
    s.dataFor p dk k m = if m.seq ≤ (s.comm dk m.comm).issued then s.dropMsg m.u else s := by rw [State.dataFor, h]

theorem State.dataFor_waits {o : CollOp} (h : s.collOp dk m.comm m.seq = some o) (hw : s.sibling p m = none ∨ o.begun = false) :
    s.dataFor p dk k m = s := by
  simp only [State.dataFor, h]
  obtain hs | hb := hw
  · rw [hs]
  · cases s.sibling p m with
    | none => rfl
    | some m2 => simp only [hb, Bool.not_false, if_true]

theorem State.dataFor_whole {o : CollOp} {m2 : Msg} (h : s.collOp dk m.comm m.seq = some o) (hs : s.sibling p m = some m2)
    (hb : o.begun = true) :
    s.dataFor p dk k m = s.dataStep dk k o m m2 (if m.half = 0 then m else m2) (if m.half = 0 then m2 else m) := by
  simp only [State.dataFor, h, hs, hb, Bool.not_true, Bool.false_eq_true, if_false]

theorem State.tokenFor_early (h : s.collOp dk m.comm m.seq = none ∨ ringPos (s.comm dk m.comm).ring (m.src, m.sdie) = none) :
    s.tokenFor dk m = if m.seq ≤ (s.comm dk m.comm).issued then s.dropMsg m.u else s := by
  unfold State.tokenFor
  obtain h | h := h
  · rw [h]
  · rw [h]
    cases s.collOp dk m.comm m.seq <;> rfl

theorem State.tokenFor_taken {o : CollOp} {q : Nat} (h : s.collOp dk m.comm m.seq = some o)
    (hq : ringPos (s.comm dk m.comm).ring (m.src, m.sdie) = some q) :
    s.tokenFor dk m =
      ((s.acceptChunk dk [m]).modOp dk o.cmd.u fun o => { o with tokens := o.tokens ++ [q] }).answerChunk dk m 1 := by
  rw [State.tokenFor, h, hq]

end

/-! ### Acknowledgements and refusals -/

/-- What an acknowledgement of an operation's chunk or token does. -/
def State.opAcked (b : State) (dk : Nat) (m : Msg) : State :=
  match b.collOp dk m.comm m.seq, ringPos (b.comm dk m.comm).ring (m.src, m.sdie) with
  | some o, some q =>
    if m.txid = (b.comm dk m.comm).reform ∧ o.out.contains (q, m.index, m.step) = true then
      let t := b.modOp dk o.cmd.u fun o => { o with out := o.out.filter fun x => x != (q, m.index, m.step) }
      if o.parts.1.op = 6 then t else t.modComm dk m.comm fun c => { c with acked := c.acked + 1 }
    else b
  | none, some q =>
    if m.txid = (b.comm dk m.comm).reform then b.modComm dk m.comm fun c => { c with lent := c.lent.erase (q, m.seq) } else b
  | _, _ => b

section
variable {s : State} {p j : Nat} {m : Msg}

theorem exec_chunkAck (h : ChunkHere s p j 1 m) :
    exec (.chunkAcknowledgement p j) s = .next
      (let b := s.dropMsg j
       if m.status = 1 then (match b.trigOf (dieKey p m.ddie) m with | some x => b.trigAck (dieKey p m.ddie) x | none => b)
       else b.opAcked (dieKey p m.ddie) m) := by
  obtain rfl := State.arrived_u h.came
  change execChunkAcknowledgement p m.u s = _
  rw [execChunkAcknowledgement, onChunk_good h.came h.kind h.good]
  rfl

theorem exec_chunkRefusal (h : ChunkHere s p j 3 m) :
    exec (.chunkRefusal p j) s = .next
      (let b := s.dropMsg j
       if m.status = 1 then (match b.trigOf (dieKey p m.ddie) m with | some x => b.trigFail (dieKey p m.ddie) x | none => b)
       else match b.collOp (dieKey p m.ddie) m.comm m.seq with
         | some o => b.collEnd (dieKey p m.ddie) o 2 0
         | none => b) := by
  obtain rfl := State.arrived_u h.came
  change execChunkRefusal p m.u s = _
  rw [execChunkRefusal, onChunk_good h.came h.kind h.good] <;> rfl

end

section
variable {b : State} {dk : Nat} {m : Msg}

theorem State.opAcked_stranger (h : ringPos (b.comm dk m.comm).ring (m.src, m.sdie) = none) : b.opAcked dk m = b := by
  unfold State.opAcked
  rw [h]
  cases b.collOp dk m.comm m.seq <;> rfl

theorem State.opAcked_over (h : b.collOp dk m.comm m.seq = none) {q : Nat}
    (hq : ringPos (b.comm dk m.comm).ring (m.src, m.sdie) = some q) :
    b.opAcked dk m =
      if m.txid = (b.comm dk m.comm).reform then b.modComm dk m.comm fun c => { c with lent := c.lent.erase (q, m.seq) } else b := by
  rw [State.opAcked, h, hq]

theorem State.opAcked_runs {o : CollOp} (h : b.collOp dk m.comm m.seq = some o) {q : Nat}
    (hq : ringPos (b.comm dk m.comm).ring (m.src, m.sdie) = some q) :
    b.opAcked dk m =
      (let t := b.modOp dk o.cmd.u fun o => { o with out := o.out.filter fun x => x != (q, m.index, m.step) }
       if m.txid = (b.comm dk m.comm).reform ∧ o.out.contains (q, m.index, m.step) = true then
         if o.parts.1.op = 6 then t else t.modComm dk m.comm fun c => { c with acked := c.acked + 1 }
       else b) := by
  rw [State.opAcked, h, hq]

end

/-! ### Triggered chunks -/

/-- The command that stands for a triggered chunk while it goes into memory is over. -/
def State.putGone (t : State) (dk : Nat) (lo : Msg) : State :=
  t.modDie dk fun d => { d with puts := d.puts.filter fun c => c.u != lo.u }

def State.putRefused (t : State) (dk : Nat) (m m2 lo : Msg) : State :=
  (((t.putGone dk lo).dropMsg m.u).dropMsg m2.u).answerChunk dk m 3

def State.putAccepted (t : State) (dk : Nat) (m m2 lo : Msg) : State :=
  ((t.putGone dk lo).acceptChunk dk [m, m2]).answerChunk dk m 1

/-- What the choice of a part of a triggered chunk does; `left` are the parts that are not in memory. -/
def State.putStep (s : State) (dk k : Nat) (c : Cmd) (m m2 lo : Msg) (data : List Byte) (left : List (Nat × Nat)) : State :=
  match left[k]? with
  | none => if left.isEmpty then s.putAccepted dk m m2 lo else s
  | some x =>
    match s.putPart c m.bind m.line data x with
    | .ok t _ => if left.length ≤ 1 then t.putAccepted dk m m2 lo else t
    | .wait t => t
    | .fail t _ => t.putRefused dk m m2 lo

section
variable {s : State} {p j k : Nat} {m m2 : Msg}

theorem exec_chunkTriggered_again (h : ChunkHere s p j 4 m) (ha : s.hasAccepted (dieKey p m.ddie) m = true) :
    exec (.chunkTriggered p j k) s = .next (s.dupChunk (dieKey p m.ddie) m true) := by
  change execChunkTriggered p j k s = _
  rw [execChunkTriggered, onChunk_good h.came h.kind h.good]
  exact congrArg Host.Outcome.next (if_pos ha)

theorem exec_chunkTriggered_half (h : ChunkHere s p j 4 m) (ha : s.hasAccepted (dieKey p m.ddie) m = false)
    (hs : s.sibling p m = none) : exec (.chunkTriggered p j k) s = .next s := by
  change execChunkTriggered p j k s = _
  rw [execChunkTriggered, onChunk_good h.came h.kind h.good]
  simp only [ha, Bool.false_eq_true, if_false, hs]

theorem exec_chunkTriggered_refused (h : ChunkHere s p j 4 m) (ha : s.hasAccepted (dieKey p m.ddie) m = false)
    (hs : s.sibling p m = some m2)
    (hr : (s.comm (dieKey p m.ddie) m.comm).st = 0 ∨ ringPos (s.comm (dieKey p m.ddie) m.comm).ring (m.src, m.sdie) = none) :
    exec (.chunkTriggered p j k) s = .next (s.putRefused (dieKey p m.ddie) m m2 (if m.half = 0 then m else m2)) := by
  have hr' := hr.imp_right Option.isNone_iff_eq_none.2
  change execChunkTriggered p j k s = _
  rw [execChunkTriggered, onChunk_good h.came h.kind h.good]
  simp only [ha, Bool.false_eq_true, if_false, hs, hr', if_true]
  by_cases hh : m.half = 0
  · simp only [hh, if_true]
    rfl
  · simp only [hh, if_false]
    rfl

/-- A triggered chunk that has begun to go into memory. -/
theorem exec_chunkTriggered_put (h : ChunkHere s p j 4 m) (ha : s.hasAccepted (dieKey p m.ddie) m = false)
    (hs : s.sibling p m = some m2) (hst : (s.comm (dieKey p m.ddie) m.comm).st ≠ 0)
    (hr : ringPos (s.comm (dieKey p m.ddie) m.comm).ring (m.src, m.sdie) ≠ none) {lo hi : Msg} (hlo : lo = if m.half = 0 then m else m2)
    (hhi : hi = if m.half = 0 then m2 else m) {c : Cmd} (hc : ((s.die (dieKey p m.ddie)).puts.find? fun c => c.u == lo.u) = some c) :
    exec (.chunkTriggered p j k) s = .next
      (s.putStep (dieKey p m.ddie) k c m m2 lo ((joinHalves m.pres lo.bytes hi.bytes).take m.step)
        ((putParts m.bind m.line m.step m.pres).filter fun x => !c.wr.contains x)) := by
  have hn : ¬ ((s.comm (dieKey p m.ddie) m.comm).st = 0
      ∨ (ringPos (s.comm (dieKey p m.ddie) m.comm).ring (m.src, m.sdie)).isNone = true) :=
    not_or.2 ⟨hst, fun h => hr (Option.isNone_iff_eq_none.1 h)⟩
  have hany : ((s.die (dieKey p m.ddie)).puts.any fun c => c.u == lo.u) = true := by
    rw [← List.isSome_find?, hc]
    rfl
  have hpair : (if m.half = 0 then (m, m2) else (m2, m)) = (lo, hi) := by
    rw [hlo, hhi]
    by_cases hh : m.half = 0
    · rw [if_pos hh, if_pos hh, if_pos hh]
    · rw [if_neg hh, if_neg hh, if_neg hh]
  change execChunkTriggered p j k s = _
  rw [execChunkTriggered, onChunk_good h.came h.kind h.good]
  simp only [ha, Bool.false_eq_true, if_false, hs, hpair, hn, hany, if_true, hc, Option.getD_some]
  rfl

theorem State.putStep_over {dk : Nat} {c : Cmd} {lo : Msg} {data : List Byte} :
    s.putStep dk k c m m2 lo data [] = s.putAccepted dk m m2 lo := rfl

theorem State.putStep_part {dk : Nat} {c : Cmd} {lo : Msg} {data : List Byte} {left : List (Nat × Nat)} {x : Nat × Nat}
    (hx : left[k]? = some x) :
    s.putStep dk k c m m2 lo data left =
      match s.putPart c m.bind m.line data x with
      | .ok t _ => if left.length ≤ 1 then t.putAccepted dk m m2 lo else t
      | .wait t => t
      | .fail t _ => t.putRefused dk m m2 lo := by
  rw [State.putStep, hx]

end

/-! ### Timeouts -/

/-- A fold that no entry changes. -/
theorem foldl_keeps {α β : Type} {f : α → β → α} {a : α} {l : List β} (h : ∀ x ∈ l, f a x = a) : l.foldl f a = a := by
  induction l with
  | nil => rfl
  | cons x l ih =>
    rw [List.foldl_cons, h x List.mem_cons_self]
    exact ih fun y hy => h y (List.mem_cons_of_mem _ hy)

theorem ctxKey_div {p c : Nat} (h : c < 64) : ctxKey p c / 64 = p := by
  unfold ctxKey
  omega

theorem ctxKey_mod {p c : Nat} (h : c < 64) : ctxKey p c % 64 = c := by
  unfold ctxKey
  omega

theorem exec_bindTimeout_none {s : State} {dk c : Nat} (h : s.bindAt dk c = none) : exec (.collBindTimeout dk c) s = .next s := by
  change execCollBindTimeout dk c s = _
  rw [execCollBindTimeout, h]

/-- The die's own bind is the first of its group. -/
theorem exec_bindTimeout_first {s : State} {dk c : Nat} {b : BindOp} (h : s.bindAt dk c = some b)
    (hfirst : ∀ x ∈ s.bindGroup dk b, b.since ≤ x.2.since) (hc : b.cmd.ctx < 64) :
    exec (.collBindTimeout dk c) s = .next
      (if b.since + (s.ctx (pkgOfDie dk) b.cmd.ctx).timer ≤ s.clock then s.bindFail dk b 0 else s) := by
  have hfold := foldl_keeps (l := s.bindGroup dk b) (a := (b.since, ctxKey (pkgOfDie dk) b.cmd.ctx))
    (f := fun (a : Nat × Nat) x => if x.2.since < a.1 then (x.2.since, ctxKey (pkgOfDie x.1) x.2.cmd.ctx) else a)
    fun x hx => if_neg (Nat.not_lt.2 (hfirst x hx))
  change execCollBindTimeout dk c s = _
  simp only [execCollBindTimeout, h, hfold, ctxKey_div hc, ctxKey_mod hc]

/-- An operation that is the first of its members to be issued is late where one has not issued it in time. -/
theorem State.matchLate_first {s : State} {dk : Nat} {o : CollOp} (hc : o.cmd.ctx < 64)
    (hfirst : ∀ m ∈ (s.comm dk o.comm).ring, ∀ x, s.opAt (memberDk m) o.comm o.seq = some x → o.since ≤ x.since) :
    s.matchLate dk o = true ↔
      (((s.comm dk o.comm).ring.filter fun m => (s.opAt (memberDk m) o.comm o.seq).isSome).length < (s.comm dk o.comm).ring.length)
        ∧ o.since + (s.ctx (pkgOfDie dk) o.cmd.ctx).timer ≤ s.clock := by
  have hlen (l : List (Nat × Nat)) :
      (l.filterMap fun m => (s.opAt (memberDk m) o.comm o.seq).map fun x => (memberDk m, x)).length =
        (l.filter fun m => (s.opAt (memberDk m) o.comm o.seq).isSome).length := by
    induction l with
    | nil => rfl
    | cons m l ih => cases hm : s.opAt (memberDk m) o.comm o.seq <;> simp [hm, ih]
  have hfold := foldl_keeps
    (l := (s.comm dk o.comm).ring.filterMap fun m => (s.opAt (memberDk m) o.comm o.seq).map fun x => (memberDk m, x))
    (a := (o.since, ctxKey (pkgOfDie dk) o.cmd.ctx))
    (f := fun (a : Nat × Nat) x => if x.2.since < a.1 then (x.2.since, ctxKey (pkgOfDie x.1) x.2.cmd.ctx) else a)
    (by
      intro x hx
      obtain ⟨m, hm, hx⟩ := List.mem_filterMap.1 hx
      obtain ⟨y, hy, rfl⟩ := Option.map_eq_some_iff.1 hx
      exact if_neg (Nat.not_lt.2 (hfirst m hm y hy)))
  simp only [State.matchLate, hfold, ctxKey_div hc, ctxKey_mod hc, hlen, Bool.and_eq_true, decide_eq_true_eq]

/-- Operations of a communicator that have not begun. -/
def State.unbegun (s : State) (dk c : Nat) : List CollOp := (s.die dk).ops.filter fun o => o.comm == c && !o.begun

theorem exec_matchTimeout (s : State) (dk c : Nat) :
    exec (.collMatchTimeout dk c) s = .next
      (match (s.unbegun dk c).find? (s.matchLate dk) with
      | none => s
      | some o => s.endAll dk c o.seq 2) := by
  have hfind : ((s.die dk).ops.find? fun o => o.comm == c && !o.begun && s.matchLate dk o) =
      (s.unbegun dk c).find? (s.matchLate dk) := by
    rw [State.unbegun, List.find?_filter]
    exact congrArg (List.find? · (s.die dk).ops) (funext fun o => Bool.eq_iff_iff.2 (by simp))
  change execCollMatchTimeout dk c s = _
  rw [execCollMatchTimeout, hfind] <;> rfl

theorem State.unbegun_comm {s : State} {dk c : Nat} {o : CollOp} (h : o ∈ s.unbegun dk c) : o.comm = c := by
  have h2 := (List.mem_filter.1 h).2
  rw [Bool.and_eq_true, beq_iff_eq] at h2
  exact h2.1

/-! ### The ring -/

/-- A member of a ring, counted round. -/
def ringAt (l : List (Nat × Nat)) (k : Nat) : Nat × Nat := l[k % l.length]?.getD (0, 0)

/-- The edge from a member to the next has a path. -/
def State.ownEdge (s : State) (dk c : Nat) : Bool :=
  s.edgeOpen c (ringAt (s.comm dk c).ring (s.comm dk c).pos) (ringAt (s.comm dk c).ring ((s.comm dk c).pos + 1))

/-- The first order of the members with a path at every new edge. -/
def State.ringTry (s : State) (dk c : Nat) : Option (List (Nat × Nat)) :=
  let cm := s.comm dk c
  let n := cm.ring.length
  ((List.range (n - 2)).map fun j => swapAt cm.ring ((cm.pos + 1) % n) ((cm.pos + 2 + j) % n)).find? fun l =>
    (ringEdges l).all fun x => (ringEdges cm.ring).contains x || s.edgeOpen c x.1 x.2

/-- No order has a path at every edge: the engine waits, and then ends the operation. -/
def State.ringStuck (s : State) (dk c : Nat) (o : CollOp) : State :=
  match (s.comm dk c).noPath with
  | none => s.modComm dk c fun c => { c with noPath := some s.clock }
  | some t => if t + (s.ctx (pkgOfDie (dkOf o.cmd.ck)) o.cmd.ctx).timer ≤ s.clock then s.collFail (dkOf o.cmd.ck) o 0 else s

section
variable {s : State} {dk c : Nat}

theorem exec_ringReform (s : State) (dk c : Nat) :
    exec (.ringReform dk c) s = .next
      (if (s.comm dk c).st = 0 then s
       else if s.ownEdge dk c then (if (s.comm dk c).noPath.isSome then s.modComm dk c fun c => { c with noPath := none } else s)
       else match s.ringTry dk c with
         | some r => s.reformTo dk c r
         | none => match s.liveOps dk c with
           | [] => s
           | o :: _ => s.ringStuck dk c o) := rfl

theorem exec_ringReform_closed (h0 : (s.comm dk c).st ≠ 0) (he : s.ownEdge dk c = false) :
    exec (.ringReform dk c) s = .next
      (match s.ringTry dk c with
       | some r => s.reformTo dk c r
       | none => match s.liveOps dk c with
         | [] => s
         | o :: _ => s.ringStuck dk c o) :=
  (exec_ringReform s dk c).trans (congrArg Host.Outcome.next ((if_neg h0).trans (if_neg (Bool.eq_false_iff.1 he))))

end

/-! ### Arbitration -/

/-- What a port may take next: an item of each communicator, from the pointer on. -/
def State.portItems (b : State) (p port : Nat) : List (Nat × Nat × Item) :=
  (List.range 16).flatMap fun j =>
    let c := ((if port < 16 then (b.port p port).arb else 0) + j) % 16
    ((List.range 4).map (dieKey p)).filterMap fun dk =>
      if (b.comm dk c).st = 0 then none else (b.itemFor dk c port).map fun x => (dk, c, x)

/-- The first item of a priority. -/
def State.firstOf (b : State) (l : List (Nat × Nat × Item)) (q : Nat) : Option (Nat × Nat × Item) :=
  l.find? fun x => (b.comm x.1 x.2.1).prio == q

/-- What a port takes next: of the highest of the first `n` priorities, the first item. -/
def State.portBest (b : State) (l : List (Nat × Nat × Item)) (n : Nat) : Option (Nat × Nat × Item) :=
  (List.range n).foldl (fun (r : Option (Nat × Nat × Item)) q =>
    match l.find? fun x => (b.comm x.1 x.2.1).prio == q with
    | some x => some x
    | none => r) none

theorem State.portBest_succ (b : State) (l : List (Nat × Nat × Item)) (n : Nat) :
    b.portBest l (n + 1) = match b.firstOf l n with | some x => some x | none => b.portBest l n := by
  rw [State.portBest, List.range_succ, List.foldl_append]
  rfl

theorem State.portBest_nil (b : State) (n : Nat) : b.portBest [] n = none := by
  induction n with
  | zero => rfl
  | succ n ih => rw [State.portBest_succ, ih]; rfl

theorem State.portBest_eq {b : State} {l : List (Nat × Nat × Item)} {n p : Nat} {e : Nat × Nat × Item} (hp : p < n)
    (he : b.firstOf l p = some e) (h : ∀ q, p < q → b.firstOf l q = none) : b.portBest l n = some e := by
  induction n with
  | zero => omega
  | succ n ih =>
    rw [State.portBest_succ]
    obtain hpn | rfl := Nat.lt_succ_iff_lt_or_eq.1 hp
    · rw [h n hpn, ih hpn]
    · rw [he]

/-- A port sends an item of a communicator, and its pointer moves on. -/
def State.portTakes (b : State) (p port : Nat) (x : Nat × Nat × Item) : State :=
  let t := b.sendItem x.1 x.2.1 x.2.2
  if port < 16 then t.modPort p port fun v => { v with arb := (x.2.1 + 1) % 16 } else t

theorem exec_engineArbitrate (s : State) (p port k : Nat) :
    exec (.engineArbitrate p port k) s = .next
      (let b := ((List.range 4).map (dieKey p)).foldl (fun s dk => (s.engineLocal dk k).trigCheck dk) s
       if port < 16 ∧ (b.port p port).inChunk p = true then b
       else match b.portBest (b.portItems p port) 4 with
         | none => b
         | some x => b.portTakes p port x) := by
  change execEngineArbitrate p port k s = _
  unfold execEngineArbitrate
  dsimp only
  generalize ((List.range 4).map (dieKey p)).foldl (fun s dk => (s.engineLocal dk k).trigCheck dk) s = b
  by_cases hb : port < 16 ∧ (b.port p port).inChunk p = true
  · rw [if_pos hb, if_pos hb]
  · rw [if_neg hb, if_neg hb]
    unfold State.portBest State.portItems
    generalize List.range 16 = turns
    generalize List.range 4 = dies
    dsimp only
    generalize hl : List.foldl _ none dies = best
    generalize hr : List.foldl _ none dies = best'
    obtain rfl : best = best' := hl.symm.trans hr
    obtain _ | ⟨dk, c, x⟩ := best <;> rfl

section
variable {b : State} {p port : Nat}

/-- Every communicator of the package's dies has its turn. -/
theorem State.mem_portItems {e : Nat × Nat × Item} :
    e ∈ b.portItems p port ↔ e.1 ∈ (List.range 4).map (dieKey p) ∧ e.2.1 < 16 ∧ (b.comm e.1 e.2.1).st ≠ 0
      ∧ b.itemFor e.1 e.2.1 port = some e.2.2 := by
  obtain ⟨dk, c, x⟩ := e
  unfold State.portItems
  generalize (if port < 16 then (b.port p port).arb else 0) = ptr
  generalize (List.range 4).map (dieKey p) = dks
  simp only [List.mem_flatMap, List.mem_filterMap, List.mem_range]
  constructor
  · rintro ⟨j, -, d, hd, hx⟩
    split at hx
    · cases hx
    · next hst =>
      obtain ⟨y, hy, he⟩ := Option.map_eq_some_iff.1 hx
      obtain ⟨rfl, rfl, rfl⟩ : d = dk ∧ (ptr + j) % 16 = c ∧ y = x := by simpa using he
      exact ⟨hd, Nat.mod_lt _ (by decide), hst, hy⟩
  · rintro ⟨hd, hc, hst, hx⟩
    have hj : (ptr + (c + 16 - ptr % 16) % 16) % 16 = c := by omega
    refine ⟨(c + 16 - ptr % 16) % 16, Nat.mod_lt _ (by decide), dk, hd, ?_⟩
    rw [hj, if_neg hst, hx]
    rfl

theorem State.portItems_eq_nil
    (h : ∀ dk ∈ (List.range 4).map (dieKey p), ∀ c, c < 16 → (b.comm dk c).st = 0 ∨ b.itemFor dk c port = none) :
    b.portItems p port = [] := by
  refine List.eq_nil_iff_forall_not_mem.2 fun e he => ?_
  obtain ⟨hd, hc, hst, hx⟩ := State.mem_portItems.1 he
  obtain h | h := h _ hd _ hc
  · exact hst h
  · rw [h] at hx
    cases hx

/-- One communicator's item has a higher priority than every other's. -/
theorem State.firstOf_highest {dk c : Nat} {x : Item} (hd : dk ∈ (List.range 4).map (dieKey p)) (hc : c < 16)
    (hst : (b.comm dk c).st ≠ 0) (hx : b.itemFor dk c port = some x)
    (hlow : ∀ dk' ∈ (List.range 4).map (dieKey p), ∀ c', c' < 16 → (dk', c') ≠ (dk, c) →
      (b.comm dk' c').st = 0 ∨ b.itemFor dk' c' port = none ∨ (b.comm dk' c').prio < (b.comm dk c).prio) :
    b.firstOf (b.portItems p port) (b.comm dk c).prio = some (dk, c, x)
      ∧ ∀ q, (b.comm dk c).prio < q → b.firstOf (b.portItems p port) q = none := by
  have hmem : (dk, c, x) ∈ b.portItems p port := State.mem_portItems.2 ⟨hd, hc, hst, hx⟩
  have hone (e : Nat × Nat × Item) (he : e ∈ b.portItems p port) (hp : (b.comm dk c).prio ≤ (b.comm e.1 e.2.1).prio) :
      e = (dk, c, x) := by
    obtain ⟨hd', hc', hst', hx'⟩ := State.mem_portItems.1 he
    by_cases heq : (e.1, e.2.1) = (dk, c)
    · obtain ⟨h1, h2⟩ := Prod.mk.injEq .. ▸ heq
      rw [h1, h2, hx] at hx'
      obtain ⟨d, c', y⟩ := e
      simp_all
    · obtain h | h | h := hlow _ hd' _ hc' heq
      · exact absurd h hst'
      · rw [h] at hx'
        cases hx'
      · omega
  refine ⟨?_, fun q hq => List.find?_eq_none.2 fun e he hp => ?_⟩
  · cases hf : b.firstOf (b.portItems p port) (b.comm dk c).prio with
    | none => exact absurd (beq_self_eq_true _) (List.find?_eq_none.1 hf _ hmem)
    | some e =>
      have hp := List.find?_some hf
      rw [hone e (List.mem_of_find?_eq_some hf) (beq_iff_eq.1 hp).ge]
  · have hqe : (b.comm e.1 e.2.1).prio = q := beq_iff_eq.1 hp
    have := hone e he (by omega)
    subst this
    exact absurd hqe hq.ne

end
/-- Settles O45: messages of the chunk class by their checks, then the timeouts, the ring and the port's choice. -/
theorem collectiveEvents : Obligations.CollectiveEvents := by
  unfold Obligations.CollectiveEvents
  intro s
  refine ⟨fun p j k => ?chunks, fun dk c => ?bind, fun dk c h => ?begun, fun dk c o rest h hc hfirst => ?late, fun dk c => ?ring,
    fun p port k => ?arbitrate⟩
  case chunks =>
    intro events
    refine ⟨fun h e he => ?_, fun m h => ?_⟩
    · obtain ⟨f, hf⟩ := chunkEvent_of_mem he s
      rw [hf, onChunk_none h]
    intro dk cm
    refine ⟨fun e he => ⟨fun hk => ?_, fun hk hb => ?_⟩, fun hb ha e he hk hkind => ?again, fun hb ha e he hk hkind => ?stale,
      fun hb hk ha hst ht => ?data, fun hb hk ha hst ht => ?token, fun hb hk => ?ack, fun hb hk => ?refusal, fun hb hk ha => ?triggered⟩
    · obtain ⟨f, hf⟩ := chunkEvent_of_mem he s
      rw [hf, onChunk_other h hk]
    · obtain ⟨f, hf⟩ := chunkEvent_of_mem he s
      rw [hf, onChunk_bad h hk hb]
    case again =>
      simp only [events, List.mem_cons, List.not_mem_nil, or_false] at he
      obtain rfl | rfl | rfl | rfl | rfl := he
      · rw [exec_chunkData ⟨h, hk.symm, hb⟩, State.chunkChecked_again ha]
      · simp at hkind
      · rw [exec_barrierToken ⟨h, hk.symm, hb⟩, State.chunkChecked_again ha]
      · simp at hkind
      · exact exec_chunkTriggered_again ⟨h, hk.symm, hb⟩ ha
    case stale =>
      simp only [events, List.mem_cons, List.not_mem_nil, or_false] at he
      obtain rfl | rfl | rfl | rfl | rfl := he
      · rw [exec_chunkData ⟨h, hk.symm, hb⟩]
        exact ⟨fun hs => congrArg Host.Outcome.next (State.chunkChecked_unbound ha hs),
          fun hs ht => congrArg Host.Outcome.next (State.chunkChecked_old ha hs ht)⟩
      · simp at hkind
      · rw [exec_barrierToken ⟨h, hk.symm, hb⟩]
        exact ⟨fun hs => congrArg Host.Outcome.next (State.chunkChecked_unbound ha hs),
          fun hs ht => congrArg Host.Outcome.next (State.chunkChecked_old ha hs ht)⟩
      · simp at hkind
      · simp at hkind
    case data =>
      rw [exec_chunkData ⟨h, hk, hb⟩, State.chunkChecked_new ha hst ht]
      refine ⟨fun ho => congrArg Host.Outcome.next (State.dataFor_over ho), fun o ho => ⟨fun hw => ?_, fun m2 hs hbegun => ?_⟩⟩
      · exact congrArg Host.Outcome.next (State.dataFor_waits ho hw)
      · exact congrArg Host.Outcome.next (State.dataFor_whole ho hs hbegun)
    case token =>
      rw [exec_barrierToken ⟨h, hk, hb⟩, State.chunkChecked_new ha hst ht]
      exact ⟨fun ho => congrArg Host.Outcome.next (State.tokenFor_early ho),
        fun o q ho hq => congrArg Host.Outcome.next (State.tokenFor_taken ho hq)⟩
    case ack =>
      rw [exec_chunkAck ⟨h, hk, hb⟩]
      exact ⟨fun h1 => congrArg Host.Outcome.next (if_pos h1),
        fun h1 hr => congrArg Host.Outcome.next ((if_neg h1).trans (State.opAcked_stranger hr)),
        fun h1 ho q hr => congrArg Host.Outcome.next ((if_neg h1).trans (State.opAcked_over ho hr)),
        fun h1 o q ho hr => congrArg Host.Outcome.next ((if_neg h1).trans (State.opAcked_runs ho hr))⟩
    case refusal =>
      rw [exec_chunkRefusal ⟨h, hk, hb⟩]
      exact ⟨fun h1 => congrArg Host.Outcome.next (if_pos h1), fun h1 => congrArg Host.Outcome.next (if_neg h1)⟩
    case triggered =>
      refine ⟨exec_chunkTriggered_half ⟨h, hk, hb⟩ ha, fun m2 hs => ?_⟩
      intro lo hi gone refused accepted
      refine ⟨exec_chunkTriggered_refused ⟨h, hk, hb⟩ ha hs, fun hst hr c hc => ?_⟩
      intro data left
      have hput := exec_chunkTriggered_put (k := k) ⟨h, hk, hb⟩ ha hs hst hr (lo := lo) (hi := hi) rfl rfl hc
      refine ⟨fun hl => ?_, fun x hx => ?_⟩
      · rw [hput, show (putParts m.bind m.line m.step m.pres).filter (fun x => !c.wr.contains x) = [] from hl]
        rfl
      · rw [hput, State.putStep_part hx]
        rfl
  case bind => exact ⟨exec_bindTimeout_none, fun b => exec_bindTimeout_first⟩
  case begun =>
    have hnone : s.unbegun dk c = [] := List.filter_eq_nil_iff.2 fun o ho hp => by
      rw [Bool.and_eq_true, beq_iff_eq, Bool.not_eq_true'] at hp
      exact Bool.false_ne_true (hp.2.symm.trans (h o ho hp.1))
    rw [exec_matchTimeout, hnone]
    rfl
  case late =>
    have hu : s.unbegun dk c = o :: rest := h
    obtain rfl : o.comm = c := State.unbegun_comm (s := s) (dk := dk) (hu ▸ List.mem_cons_self)
    have hlate := State.matchLate_first hc hfirst
    refine ⟨fun hl => ?_, fun hl hrest => ?_⟩
    · rw [exec_matchTimeout, hu, List.find?_cons_of_pos (hlate.2 hl)]
    · rw [exec_matchTimeout, hu, hrest, List.find?_cons_of_neg fun hm => hl (hlate.1 hm)]
      rfl
  case ring =>
    intro cm n at_ ours
    refine ⟨fun h0 => ?_, fun h0 he => ?_, fun h0 he => ?_⟩
    · rw [exec_ringReform, if_pos h0]
    · exact (exec_ringReform s dk c).trans (congrArg Host.Outcome.next ((if_neg h0).trans (if_pos he)))
    intro tries ok op
    have hx := exec_ringReform_closed (s := s) (dk := dk) (c := c) h0 he
    refine ⟨fun r hr => ?_, fun hr ho => ?_, fun hr o ho => ?_⟩
    · rw [hx, show s.ringTry dk c = some r from hr]
    · rw [hx, show s.ringTry dk c = none from hr, List.head?_eq_none_iff.1 ho]
    · obtain ⟨l, hl⟩ := List.head?_eq_some_iff.1 ho
      have hstuck : exec (.ringReform dk c) s = .next (s.ringStuck dk c o) := by
        rw [hx, show s.ringTry dk c = none from hr, hl]
      refine ⟨fun hp => ?_, fun t hp => ?_⟩
      · rw [hstuck, State.ringStuck, show (s.comm dk c).noPath = none from hp]
      · rw [hstuck, State.ringStuck, show (s.comm dk c).noPath = some t from hp]
  case arbitrate =>
    intro dks b busy
    have hx := exec_engineArbitrate s p port k
    refine ⟨fun hb => hx.trans (congrArg Host.Outcome.next (if_pos hb)), fun hn => ?_, fun dk c x hb hd hc hst hprio hitem hlow => ?_⟩
    · refine hx.trans (congrArg Host.Outcome.next ?_)
      dsimp only
      rw [State.portItems_eq_nil (b := b) hn, State.portBest_nil, ite_self]
    · intro t
      obtain ⟨hfirst, habove⟩ := State.firstOf_highest hd hc hst hitem hlow
      refine hx.trans (congrArg Host.Outcome.next ((if_neg hb).trans ?_))
      rw [State.portBest_eq (b := b) hprio hfirst habove]
      rfl

end Sys2Proof.Machine
end
